-- ==== Sys2Proof/Word.lean ====
section
/-! DEFINITION. The word types of the VZ-8 (R3, R7) and their plainest arithmetic. -/
namespace Sys2Proof

/-- One byte (R7). -/
abbrev Byte := BitVec 8
/-- An instruction or lane word: 32 bits (R7). -/
abbrev W32 := BitVec 32
/-- A scalar register or memory word: 64 bits (R7). -/
abbrev W64 := BitVec 64
/-- A row payload: 256 bytes, byte `i` in bits `8i + 7` to `8i` (R3, R62). -/
abbrev Payload := BitVec 2048
/-- One bit per lane; lane (r, c) is bit `64 r + c` (R57). -/
abbrev Mask := BitVec 1024
/-- A vector tile of 16 x 64 lanes; lane (r, c) is element `64 r + c` (R57). -/
abbrev Tile := Vector W32 1024

/-- A core number, 0 to 511 (R15). -/
abbrev CoreId := Fin 512
/-- A cluster number, 0 to 127 (R16). -/
abbrev CluId := Fin 128
/-- A die number, 0 to 7 (R16). -/
abbrev DieId := Fin 8
/-- A context bank of a core (R51). -/
abbrev BankId := Fin 2
/-- A sequencer number: 0 C, 1 A, 2 X, 3 S (R17). -/
abbrev SeqId := Fin 4

/-- The bits `hi` to `lo` of a word, as a number. -/
def fld {n : Nat} (x : BitVec n) (hi lo : Nat) : Nat := (x.toNat >>> lo) % 2 ^ (hi + 1 - lo)

/-- Little-endian value of a list of bytes (R3). -/
def leNat : List Byte → Nat
  | [] => 0
  | b :: bs => b.toNat + 256 * leNat bs

/-- The `n` little-endian bytes of a number (R3). -/
def leBytes : Nat → Nat → List Byte
  | 0, _ => []
  | n + 1, v => BitVec.ofNat 8 v :: leBytes n (v / 256)

end Sys2Proof
end

