-- ==== Sys2Proof/Syntax.lean ====
section
/-! DEFINITION. The abstract syntax of the VZ-8: one constructor for each row of the opcode table. An encoded
instruction carries the raw fields of its format (R84) and, when it is long, its extension word E (R84, R86); an
event of an engine, a home, a link, the host interface or the power supply carries what names its place. -/
namespace Sys2Proof

/-- F-RRR (R84). -/
structure RRR where
  d : BitVec 6 := 0
  a : BitVec 6 := 0
  b : BitVec 6 := 0
  e : Option W32 := none
  deriving DecidableEq, Repr

/-- F-RRI (R84). -/
structure RRI where
  d : BitVec 6 := 0
  a : BitVec 6 := 0
  imm : BitVec 9 := 0
  e : Option W32 := none
  deriving DecidableEq, Repr

/-- F-RI (R84). -/
structure RI where
  d : BitVec 6 := 0
  imm : BitVec 18 := 0
  e : Option W32 := none
  deriving DecidableEq, Repr

/-- F-BR (R84); `c` is the cond field, `ld` linedelta10, `w` the word index. -/
structure BR where
  c : BitVec 4 := 0
  a : BitVec 6 := 0
  ld : BitVec 10 := 0
  w : BitVec 4 := 0
  e : Option W32 := none
  deriving DecidableEq, Repr

/-- F-V (R84). -/
structure FV where
  d : BitVec 5 := 0
  a : BitVec 5 := 0
  b : BitVec 5 := 0
  m : BitVec 3 := 0
  ax : BitVec 1 := 0
  e : Option W32 := none
  deriving DecidableEq, Repr

/-- F-Q (R84). -/
structure FQ where
  q : BitVec 4 := 0
  a : BitVec 6 := 0
  b : BitVec 6 := 0
  f : BitVec 4 := 0
  e : Option W32 := none
  deriving DecidableEq, Repr

/-- F-M (R84). -/
structure FM where
  zd : BitVec 3 := 0
  rq : BitVec 3 := 0
  fmt : BitVec 6 := 0
  flag : BitVec 5 := 0
  pol : BitVec 3 := 0
  e : Option W32 := none
  deriving DecidableEq, Repr

/-- One direction of one UCIe module of an adjacent die pair (R11, R369): from die `src` to die `dst`. -/
structure LinkId where
  src : DieId
  dst : DieId
  m : Fin 16
  deriving DecidableEq, Repr

/-- A unit that R386 fences and tests. -/
inductive FUnit where
  | core (c : CoreId)
  | engine (c : CoreId) (e : Fin 4)
  | ae (u : CluId)
  | lamp (u : CluId)
  | csave (u : CluId)
  | spad (u : CluId)
  | slice (d : DieId) (s : Fin 256)
  | row (d : DieId) (n : Nat)
  | guest (d : DieId)
  | link (l : LinkId)
  | port (node p : Nat)
  deriving DecidableEq, Repr

/-- What a peer module asks of this module over its Ulnex port (R372, R377). `data` holds the written bytes of a store
from the address upward with `mask` naming them, or the operand of an atomic; `rel` a release at `.span` (R215). `agent` is the source
agent within the node, which numbers its requests by itself. -/
structure PeerReq where
  node : BitVec 16
  agent : BitVec 16 := 0
  rseq : W32
  ctx : BitVec 12
  addr : W64
  atomic : Bool
  op : Fin 5
  w32 : Bool
  rel : Bool
  mask : BitVec 256
  data : Payload
  deriving DecidableEq, Repr

/-- The instructions and events of spec/opcode_table.json, in the table's order. -/
inductive Instr where
  /-- NOP (R105). The all-zero word occupies one issue slot and changes no state. -/
  | nop
  /-- ADD (R106). Writes the wrapping sum of two scalar operands to d. -/
  | add (f : RRR)
  /-- SUB (R106). Writes the wrapping difference of two scalar operands to d. -/
  | sub (f : RRR)
  /-- AND (R106). Writes the bitwise AND of two scalar operands to d. -/
  | and (f : RRR)
  /-- OR (R106). Writes the bitwise OR of two scalar operands to d. -/
  | or (f : RRR)
  /-- XOR (R106). Writes the bitwise XOR of two scalar operands to d. -/
  | xor (f : RRR)
  /-- SHL (R106). Shifts a left by b[5:0] with zero fill. -/
  | shl (f : RRR)
  /-- SHR (R106). Shifts a right by b[5:0] with zero fill. -/
  | shr (f : RRR)
  /-- SRA (R106). Shifts a right by b[5:0] with sign fill. -/
  | sra (f : RRR)
  /-- MUL (R106). Writes the low 64 bits of the product. -/
  | mul (f : RRR)
  /-- MULH (R106). Writes the high 64 bits of the signed 128-bit product. -/
  | mulh (f : RRR)
  /-- MIN (R106). Writes the signed minimum. -/
  | min (f : RRR)
  /-- MAX (R106). Writes the signed maximum. -/
  | max (f : RRR)
  /-- DIV (R106). Writes the signed quotient rounded toward zero, with fixed results for divide by zero and overflow. -/
  | div (f : RRR)
  /-- ADDI (R107). Adds a sign-extended immediate. -/
  | addi (f : RRI)
  /-- ANDI (R107). ANDs with a sign-extended immediate. -/
  | andi (f : RRI)
  /-- ORI (R107). ORs with a sign-extended immediate. -/
  | ori (f : RRI)
  /-- XORI (R107). XORs with a sign-extended immediate. -/
  | xori (f : RRI)
  /-- SHLI (R107). Shifts left by an immediate 0-63. -/
  | shli (f : RRI)
  /-- SHRI (R107). Shifts right logically by an immediate 0-63. -/
  | shri (f : RRI)
  /-- SRAI (R107). Shifts right arithmetically by an immediate 0-63. -/
  | srai (f : RRI)
  /-- MULI (R107). Multiplies by a sign-extended immediate. -/
  | muli (f : RRI)
  /-- LI (R108). Loads a sign-extended 18-bit immediate into d. -/
  | li (f : RI)
  /-- LCAT (R108). Shifts d left by 18 and ORs in an 18-bit immediate. -/
  | lcat (f : RI)
  /-- SEQ (R109). Sets d to 1 when the operands are equal. -/
  | seq (f : RRR)
  /-- SNE (R109). Sets d to 1 when the operands differ. -/
  | sne (f : RRR)
  /-- SLT (R109). Sets d to 1 on signed less-than. -/
  | slt (f : RRR)
  /-- SLTU (R109). Sets d to 1 on unsigned less-than. -/
  | sltu (f : RRR)
  /-- SLE (R109). Sets d to 1 on signed less-or-equal. -/
  | sle (f : RRR)
  /-- SLEU (R109). Sets d to 1 on unsigned less-or-equal. -/
  | sleu (f : RRR)
  /-- CSEL (R109). Writes b to d when a is nonzero, otherwise leaves d or returns a reserved queue slot. -/
  | csel (f : RRR)
  /-- CLZ (R109). Counts leading zero bits. -/
  | clz (f : RRR)
  /-- CTZ (R109). Counts trailing zero bits. -/
  | ctz (f : RRR)
  /-- POPC (R109). Counts one bits. -/
  | popc (f : RRR)
  /-- FADD (R110). FP32 addition on C, raising flags into cfs. -/
  | fadd (f : RRR)
  /-- FSUB (R110). FP32 subtraction on C. -/
  | fsub (f : RRR)
  /-- FMUL (R110). FP32 multiplication on C. -/
  | fmul (f : RRR)
  /-- FMAD (R110). Fused FP32 multiply-add with d as addend, one rounding. -/
  | fmad (f : RRR)
  /-- FMIN (R110). FP32 minimum ignoring a single NaN. -/
  | fmin (f : RRR)
  /-- FMAX (R110). FP32 maximum ignoring a single NaN. -/
  | fmax (f : RRR)
  /-- FTOI (R110). Converts FP32 to INT32 under the rounding code in b. -/
  | ftoi (f : RRR)
  /-- ITOF (R110). Converts a signed 64-bit integer to FP32 under the rounding code in b. -/
  | itof (f : RRR)
  /-- FLT (R110). Sets d to 1 when x < y in FP32. -/
  | flt (f : RRR)
  /-- BR (R111). Unconditional branch to a line delta and word. -/
  | br (f : BR)
  /-- BRZ (R111). Branches when the operand is zero. -/
  | brz (f : BR)
  /-- BRNZ (R111). Branches when the operand is nonzero. -/
  | brnz (f : BR)
  /-- BRLT (R111). Branches when the operand is negative. -/
  | brlt (f : BR)
  /-- BRGE (R111). Branches when the operand is nonnegative. -/
  | brge (f : BR)
  /-- BRLE (R111). Branches when the operand is at most zero. -/
  | brle (f : BR)
  /-- BRGT (R111). Branches when the operand is positive. -/
  | brgt (f : BR)
  /-- CALL (R112). Writes the link value to a and transfers control to the target. -/
  | call (f : BR)
  /-- RET (R112). Checks the link value in a under R94 and transfers control to it. -/
  | ret (f : BR)
  /-- JMP (R112). Transfers control to the PC in a, as ret. -/
  | jmp (f : BR)
  /-- LOOP (R113). Starts a hardware loop frame on counter lN with a trip count and an END PC. -/
  | loop (f : BR)
  /-- BQNZ (R116). Pops a word queue and branches when the word is nonzero. -/
  | bqnz (f : BR)
  /-- BQZ (R116). Pops a word queue and branches when the word is zero. -/
  | bqz (f : BR)
  /-- WAIT (R105). X spends n issue slots doing nothing. -/
  | wait (f : RI)
  /-- LD8 (R122). Loads one byte zero-extended. -/
  | ld8 (f : RRI)
  /-- LD16 (R122). Loads 16 bits zero-extended. -/
  | ld16 (f : RRI)
  /-- LD32 (R122). Loads 32 bits zero-extended. -/
  | ld32 (f : RRI)
  /-- LD64 (R122). Loads 64 bits, with counted, snuffed and uncorrectable fates. -/
  | ld64 (f : RRI)
  /-- LD8S (R122). Loads one byte sign-extended. -/
  | ld8s (f : RRI)
  /-- LD16S (R122). Loads 16 bits sign-extended. -/
  | ld16s (f : RRI)
  /-- LD32S (R122). Loads 32 bits sign-extended. -/
  | ld32s (f : RRI)
  /-- ST8 (R122). Stores one byte through the store buffer. -/
  | st8 (f : RRI)
  /-- ST16 (R122). Stores 16 bits through the store buffer. -/
  | st16 (f : RRI)
  /-- ST32 (R122). Stores 32 bits through the store buffer. -/
  | st32 (f : RRI)
  /-- ST64 (R122). Stores 64 bits through the store buffer. -/
  | st64 (f : RRI)
  /-- AMOADD (R123). Atomic add at the home, returning the old value. -/
  | amoadd (f : RRR)
  /-- AMOSWP (R123). Atomic swap at the home. -/
  | amoswp (f : RRR)
  /-- AMOCAS (R123). Atomic compare-and-swap against src(d). -/
  | amocas (f : RRR)
  /-- AMOAND (R123). Atomic AND at the home. -/
  | amoand (f : RRR)
  /-- AMOOR (R123). Atomic OR at the home. -/
  | amoor (f : RRR)
  /-- AMOXOR (R123). Atomic XOR at the home. -/
  | amoxor (f : RRR)
  /-- FENCE_CORE (R124). Orders the issuing sequencer's accesses at core scope. -/
  | fenceCore (f : RRR)
  /-- FENCE_CLU (R124). Orders the issuing sequencer's accesses at cluster scope. -/
  | fenceClu (f : RRR)
  /-- FENCE_DIE (R124). Orders the issuing sequencer's accesses at die scope. -/
  | fenceDie (f : RRR)
  /-- FENCE_MOD (R124). Orders the issuing sequencer's accesses at module scope. -/
  | fenceMod (f : RRR)
  /-- FENCE_SPAN (R124). Orders the issuing sequencer's accesses at span scope. -/
  | fenceSpan (f : RRR)
  /-- EFENCE (R124). Waits until earlier accesses are known error-free and delivers pending UncorrectableData precisely. -/
  | efence (f : RRR)
  /-- FARM (R125). Arms a core or cluster flag to a value. -/
  | farm (f : RRI)
  /-- FPOST (R125). Adds 1 to a flag as a release. -/
  | fpost (f : RRI)
  /-- FDEC (R125). Subtracts 1 from a flag as a release. -/
  | fdec (f : RRI)
  /-- FREAD (R125). Reads a flag value as an acquire. -/
  | fread (f : RRI)
  /-- FWAIT (R125). Blocks until the flag's zero test finds 0, then acquires and logs the wait. -/
  | fwait (f : RRI)
  /-- BAR (R127). Arrives at a keyed barrier at a scope, waits until it closes and returns the arrival index. -/
  | bar (f : RRI)
  /-- QPUSH (R128). Pushes a value to a word queue, blocking or non-blocking. -/
  | qpush (f : FQ)
  /-- QPOP (R128). Pops a word queue head, blocking or non-blocking. -/
  | qpop (f : FQ)
  /-- QPEEK (R128). Reads a word queue head without popping. -/
  | qpeek (f : FQ)
  /-- QSTAT (R128). Returns a queue's level byte and binding. -/
  | qstat (f : FQ)
  /-- QCFG (R128). Rebinds a queue's producer and consumer in qmap. -/
  | qcfg (f : FQ)
  /-- SPAWN (R130). Releases at module scope and places a continuation record on a die's record queue. -/
  | spawn (f : RRR)
  /-- TSTART (R131). Starts sequencer A, X or S at a PC. -/
  | tstart (f : RRR)
  /-- JOIN (R131). Adds to a join block's count atomically and places the continuation at zero. -/
  | join (f : RRR)
  /-- YIELD (R131). Asks whether an equal or higher record waits and checkpoints the task if so. -/
  | yield (f : RRR)
  /-- EXIT (R132). Ends the task after quiescence, engine drain, release, residue report and join decrement, freeing the bank. -/
  | exit (f : RRR)
  /-- SBIND (R146). Binds a stream to a queue and hands it to the copy engine. -/
  | sbind (f : FQ)
  /-- SSTOP (R147). Stops a stream, waiting until it is stopped, and decrements its flag. -/
  | sstop (f : FQ)
  /-- SSTAT (R147). Returns a stream's status word. -/
  | sstat (f : FQ)
  /-- GATHER (R149). Places a batch gather of list positions to a row queue or scratchpad slots. -/
  | gather (f : FQ)
  /-- GATHERQ (R149). Places a gather of one index and tag request. -/
  | gatherq (f : FQ)
  /-- COPY (R152). Places a linear copy command with the copy engine. -/
  | copy (f : RRR)
  /-- COPYF (R153). Places a copy of 256-byte blocks with a decoded matrix follow-on command. -/
  | copyf (f : RRR)
  /-- COPY2D (R152). Places a strided two-dimensional copy from a descriptor. -/
  | copy2d (f : RRR)
  /-- WLOAD (R154). Places a weight load filling the shadow plane from weight SRAM. -/
  | wload (f : RRI)
  /-- RCFILL (R155). Fills counted cells or lines with data and a reader count. -/
  | rcfill (f : RRR)
  /-- RCCLOSE (R156). Waits for earlier work and closes a counted region, reporting residue. -/
  | rcclose (f : RRR)
  /-- RCQUERY (R156). Returns a row's counted state without changing it. -/
  | rcquery (f : RRR)
  /-- SHLOAD (R158). Reads a shape record extent. -/
  | shload (f : RRR)
  /-- SHEXT (R158). Writes a shape record extent, direct or indirect. -/
  | shext (f : RRR)
  /-- LDQ (R159). A loads eight bytes and pushes them to a word queue. -/
  | ldq (f : FQ)
  /-- LDROW (R159). A loads 256 bytes and pushes a tagged row to a row queue. -/
  | ldrow (f : FQ)
  /-- ACT_BIND (R161). Binds a lamplighter map to a grid bitmap in scratchpad. -/
  | actBind (f : RRR)
  /-- ACT_MARK (R161). Places a command setting a run of map bits. -/
  | actMark (f : RRR)
  /-- ACT_CLEAR (R161). Places a command clearing a run of map bits. -/
  | actClear (f : RRR)
  /-- ACT_LIST (R161). Places a command listing set bits and writing the count extent. -/
  | actList (f : RRR)
  /-- ACT_COUNT (R161). Waits and returns the number of set bits of a map. -/
  | actCount (f : RRR)
  /-- PREFETCH (R160). Requests a line into L2 without faulting. -/
  | prefetch (f : RRI)
  /-- GWAIT (R151). Blocks A until a gather group has no outstanding commands. -/
  | gwait (f : FQ)
  /-- GSTAT (R151). Returns a gather group status word, optionally clearing counters. -/
  | gstat (f : FQ)
  /-- VADD (R166). Lane-wise FP32 addition. -/
  | vadd (f : FV)
  /-- VSUB (R166). Lane-wise FP32 subtraction. -/
  | vsub (f : FV)
  /-- VMUL (R166). Lane-wise FP32 multiplication. -/
  | vmul (f : FV)
  /-- VFMA (R166). Lane-wise fused multiply-add into vd. -/
  | vfma (f : FV)
  /-- VFMS (R166). Lane-wise fused z minus x times y. -/
  | vfms (f : FV)
  /-- VMIN (R166). Lane-wise FP32 minimum. -/
  | vmin (f : FV)
  /-- VMAX (R166). Lane-wise FP32 maximum. -/
  | vmax (f : FV)
  /-- VABS (R166). Lane-wise absolute value. -/
  | vabs (f : FV)
  /-- VNEG (R166). Lane-wise negation. -/
  | vneg (f : FV)
  /-- VIADD (R167). Lane-wise INT32 addition. -/
  | viadd (f : FV)
  /-- VISUB (R167). Lane-wise INT32 subtraction. -/
  | visub (f : FV)
  /-- VIMUL (R167). Lane-wise INT32 multiplication, low bits. -/
  | vimul (f : FV)
  /-- VIAND (R167). Lane-wise AND. -/
  | viand (f : FV)
  /-- VIOR (R167). Lane-wise OR. -/
  | vior (f : FV)
  /-- VIXOR (R167). Lane-wise XOR. -/
  | vixor (f : FV)
  /-- VISHL (R167). Lane-wise left shift. -/
  | vishl (f : FV)
  /-- VISHR (R167). Lane-wise logical right shift. -/
  | vishr (f : FV)
  /-- VCEQ (R168). FP32 equality compare into a mask. -/
  | vceq (f : FV)
  /-- VCLT (R168). FP32 less-than compare into a mask. -/
  | vclt (f : FV)
  /-- VCLE (R168). FP32 less-or-equal compare into a mask. -/
  | vcle (f : FV)
  /-- VICEQ (R168). INT32 equality compare into a mask. -/
  | viceq (f : FV)
  /-- VILT (R168). Signed INT32 less-than compare into a mask. -/
  | vilt (f : FV)
  /-- VSEL (R169). Selects va or vb lanes by a mask. -/
  | vsel (f : FV)
  /-- VMOV (R169). Moves a tile, or converts between mask and tile in the long form. -/
  | vmov (f : FV)
  /-- VSPLAT (R169). Fills every lane with a scalar register value or an immediate. -/
  | vsplat (f : FV)
  /-- VQUANT (R171). Quantises an FP32 tile to codes under a slot's format and scheme, writing scale codes. -/
  | vquant (f : FV)
  /-- VDEQUANT (R172). Dequantises codes and scales to FP32. -/
  | vdequant (f : FV)
  /-- VFTOI (R170). Converts FP32 lanes to INT32. -/
  | vftoi (f : FV)
  /-- VITOF (R170). Converts INT32 lanes to FP32. -/
  | vitof (f : FV)
  /-- VEXP2 (R173). Lane-wise 2 to the power x. -/
  | vexp2 (f : FV)
  /-- VEXP2D (R174). Lane-wise 2 to the power of a exact difference a minus b, with defined infinite cases. -/
  | vexp2d (f : FV)
  /-- VLOG2 (R173). Lane-wise base-2 logarithm. -/
  | vlog2 (f : FV)
  /-- VRCP_SEED (R175). Lane-wise fixed reciprocal seed. -/
  | vrcpSeed (f : FV)
  /-- VRSQ_SEED (R175). Lane-wise fixed reciprocal square root seed. -/
  | vrsqSeed (f : FV)
  /-- VROTR (R177). Rotates lanes along each row. -/
  | vrotr (f : FV)
  /-- VROTC (R177). Rotates lanes along each column. -/
  | vrotc (f : FV)
  /-- VBCASTR (R177). Broadcasts column k across each row. -/
  | vbcastr (f : FV)
  /-- VBCASTC (R177). Broadcasts row k down each column. -/
  | vbcastc (f : FV)
  /-- VREDR (R178). Reduces each row and writes the result to its lanes. -/
  | vredr (f : FV)
  /-- VREDC (R178). Reduces each column and writes the result to its lanes. -/
  | vredc (f : FV)
  /-- VSCANR (R178). Inclusive scan along each row. -/
  | vscanr (f : FV)
  /-- VSCANC (R178). Inclusive scan along each column. -/
  | vscanc (f : FV)
  /-- MAND (R179). Mask AND. -/
  | mand (f : FV)
  /-- MOR (R179). Mask OR. -/
  | mor (f : FV)
  /-- MXOR (R179). Mask XOR. -/
  | mxor (f : FV)
  /-- MANDN (R179). Mask AND-NOT. -/
  | mandn (f : FV)
  /-- VANY (R179). Writes 1 to a scalar when any predicated mask bit is set. -/
  | vany (f : FV)
  /-- VALL (R179). Writes 1 to a scalar when every predicated mask bit is set. -/
  | vall (f : FV)
  /-- MPOP (R179). Writes the count of predicated set mask bits to a scalar. -/
  | mpop (f : FV)
  /-- VFLAG (R180). Copies a sticky flag plane into a mask. -/
  | vflag (f : FV)
  /-- VFLAGCLR (R180). Clears predicated bits of named sticky flag planes. -/
  | vflagclr (f : FV)
  /-- VPOP (R182). Pops n rows of a row queue into a tile, poisoning lanes of poisoned rows. -/
  | vpop (f : FV)
  /-- VPUSH (R182). Reserves n tail slots and pushes a tile as tagged rows at its due slot. -/
  | vpush (f : FV)
  /-- VGET (R183). Reads one lane into an X scalar register. -/
  | vget (f : FV)
  /-- VPUT (R183). Writes one lane from an X scalar register. -/
  | vput (f : FV)
  /-- EXPOSED_WRITE_LAND (R97). A pending X write lands at the end of its due slot. -/
  | exposedWriteLand (c : CoreId) (b : BankId)
  /-- MMUL (R193). Hands a tagged-row multiply of n rows into an accumulator to the matrix engine. -/
  | mmul (f : FM)
  /-- MSWAP (R192). Hands a swap of shadow and active weight planes to the matrix engine. -/
  | mswap (f : FM)
  /-- MRANK (R198). Hands a rank-mode operation writing per-score ranks to the matrix engine. -/
  | mrank (f : FM)
  /-- MZERO (R191). Hands a tile clear that loads MODE and ANCHOR from a format slot to the matrix engine. -/
  | mzero (f : FM)
  /-- MREAD (R200). Reads and converts 16 accumulator rows into a vector tile, optionally clearing them. -/
  | mread (f : FM)
  /-- MCLOSE (R199). Closes the oldest unfinished operation naming a tile. -/
  | mclose (f : FM)
  /-- MWAIT (R199). Blocks X until commands naming a tile, or all matrix commands, complete. -/
  | mwait (f : FM)
  /-- MSTAT (R201). Reads a word of a tile's matrix status. -/
  | mstat (f : FM)
  /-- FMTW (R188). Writes a format slot, refusing illegal combinations. -/
  | fmtw (f : RRR)
  /-- FMTR (R188). Reads a format slot. -/
  | fmtr (f : RRR)
  /-- AECFG (R204). Reads and checks an auction descriptor into the core's configuration set. -/
  | aecfg (f : RRR)
  /-- AERUN (R205). Places an auction run with the assignment engine and returns its run id. -/
  | aerun (f : RRR)
  /-- AEREAD (R208). Reads a word of the last completed run's status. -/
  | aeread (f : RRR)
  /-- STROW (R211). Pops a row and stores its payload, optionally placed by tag. -/
  | strow (f : FQ)
  /-- STWORD (R212). Pops n words and stores them consecutively. -/
  | stword (f : FQ)
  /-- SCATTER (R213). Pops a row and writes its elements at indexed addresses. -/
  | scatter (f : FQ)
  /-- STRC (R214). Pops a row and writes it as a counted row with a count. -/
  | strc (f : FQ)
  /-- RSTORE (R215). Pops a row and sends it through the remote port to an address or replica slot. -/
  | rstore (f : FQ)
  /-- RATOM (R217). Sends a remote read-modify-write without waiting, reserving a reply slot. -/
  | ratom (f : FQ)
  /-- OBIND (R218). Binds an output stream that pops a queue and writes an affine pattern. -/
  | obind (f : FQ)
  /-- OSTOP (R219). Stops an output stream after writing its popped element. -/
  | ostop (f : FQ)
  /-- CSRR (R133). Reads a system register. -/
  | csrr (f : RI)
  /-- CSRW (R133). Writes a system register under its access codes, for registers without a row of their own. -/
  | csrw (f : RI)
  /-- CWIN_WRITE (R74). A write to cwinN discards every constant-cache line of that window. -/
  | cwinWrite (f : RI)
  /-- QMAP_WRITE (R75). A direct write of qmap raises QueueProtocol. -/
  | qmapWrite (f : RI)
  /-- FLOGDAT_READ (R76). Reading flogdat returns the selected ring entry and marks it read. -/
  | flogdatRead (f : RI)
  /-- WSRANGE_WRITE (R331). A wsrange write is checked against its limits and sets the bank's weight-SRAM window. -/
  | wsrangeWrite (f : RI)
  /-- PFBLOCK_WRITE (R349). Writing a trapped fault token fault-blocks the bank, sends PageRequest and activates the other bank. -/
  | pfblockWrite (f : RI)
  /-- WPC_WRITE (R416). A watchpoint control write is checked and enables or disables a watchpoint. -/
  | wpcWrite (f : RI)
  /-- TRAP (R134). Raises a named precise cause with the software bit and a tag. -/
  | trap (f : RI)
  /-- RESUME (R328). Checks the frame, restores C, re-injects replay entries and continues the task at level 0. -/
  | resume (f : RRR)
  /-- TLBINV (R136). Invalidates translations in a scope and waits for every acknowledgement. -/
  | tlbinv (f : RRR)
  /-- ICINV (R137). Releases stores and invalidates instruction-cache lines in a scope. -/
  | icinv (f : RRR)
  /-- RQRD (R138). Reads a word of the other bank's live replay queue. -/
  | rqrd (f : RRR)
  /-- RQWR (R138). Writes a word of the other bank's live replay queue. -/
  | rqwr (f : RRR)
  /-- PGMAP (R348). Writes one translation into the core's TLBs for the faulted context. -/
  | pgmap (f : RRR)
  /-- PGDONE (R139). Answers a fault by token, translating again or refusing, and may switch banks. -/
  | pgdone (f : RRR)
  /-- BRK (R134). Raises Breakpoint with a tag, or stops a claimed core. -/
  | brk (f : RI)
  /-- ILLEGAL_INSTRUCTION (R91). A sequencer decodes a word whose MAJ or FN is unassigned and raises IllegalInstruction precisely. -/
  | illegalInstruction (w : W32)
  /-- IMPRECISE_TRAP (R321). A set tpend bit at level 0 takes a trap with the lowest pending cause. -/
  | impreciseTrap (c : CoreId)
  /-- REGISTER_WRITE_LAND (R98). A pending register write of C, A or S lands after its latency, which may be a remote load or atomic reply, and releases interlocked reads. -/
  | registerWriteLand (c : CoreId) (b : BankId) (q : SeqId)
  /-- STEP_COUNT_EXPIRE (R415). A stepped sequencer reaching its count stops with SingleStep. -/
  | stepCountExpire (c : CoreId)
  /-- TBSKEW_MEASURE (R419). Every 1 ms each die measures its time base copy against the host-die master and updates tbskew. -/
  | tbskewMeasure (d : DieId) (ps : BitVec 64)
  /-- FETCH_LINE_ARRIVE (R103). A fetched code line arrives after a fetch delay and the sequencer issues from it. -/
  | fetchLineArrive (c : CoreId) (b : BankId) (q : SeqId)
  /-- PARKED_RELEASE (R70). Commands parked on a flag issue in the cycle after its zero test finds 0. -/
  | parkedRelease (c : CoreId)
  /-- DRAIN (R268). The head of a store buffer leaves for the in-flight set toward its home. -/
  | drain (a : Nat)
  /-- APPLY (R268). A home appends an in-flight write to a word's write sequence. -/
  | apply (k : Nat)
  /-- DELIVER (R273). A destination delivers a flag or completion message in sequence order, discarding duplicates. -/
  | deliver (k : Nat)
  /-- COPY_ENGINE_START (R141). The copy engine starts a command from its FIFO, acquiring the pushed view. -/
  | copyEngineStart (c : CoreId)
  /-- STREAM_ELEMENT_PUSH (R146). A stream's element read completes and is pushed when the queue has room. -/
  | streamElementPush (c : CoreId) (k : Fin 8)
  /-- GATHER_ROW_DELIVER (R149). A gathered row's read completes and is pushed or written to its scratchpad slot. -/
  | gatherRowDeliver (c : CoreId) (id pos : Nat)
  /-- COPY_COMPLETE (R152). A copy's last byte lands and its completion flag is decremented. -/
  | copyComplete (c : CoreId) (id : Nat)
  /-- FOLLOWON_PLACE (R226). The copy engine places a copyf follow-on in the matrix FIFO when an entry is free. -/
  | followonPlace (c : CoreId) (id : Nat)
  /-- MATRIX_CMD_START (R184). The matrix engine starts the next command from its FIFO under the start rules. -/
  | matrixCmdStart (c : CoreId)
  /-- MATRIX_ROW_POP (R194). A popping operation pops a visible row, steers it by tag and counts it. -/
  | matrixRowPop (c : CoreId)
  /-- MATRIX_CONTRIBUTION_LAND (R233). A row's column contributions land in their accumulator slots. -/
  | matrixContributionLand (c : CoreId)
  /-- MATRIX_OP_COMPLETE (R184). An operation completes when its last popped row has landed, writing status and decrementing its flag. -/
  | matrixOpComplete (c : CoreId)
  /-- WLOAD_COMPLETE (R154). A weight load fills the shadow plane and decrements its flag. -/
  | wloadComplete (c : CoreId)
  /-- OSTREAM_ELEMENT_WRITE (R218). The output stream engine pops an element and writes it at the next affine address. -/
  | ostreamElementWrite (c : CoreId) (k : Fin 8)
  /-- LAMPLIGHTER_APPLY (R162). The lamplighter applies a cycle's commands, clears before marks, and completes lists. -/
  | lamplighterApply (u : CluId)
  /-- AE_RUN_START (R202). The assignment engine starts a run, copying the score tile into its store. -/
  | aeRunStart (u : CluId)
  /-- AE_RUN_COMPLETE (R206). An auction run ends DONE, INCOMPLETE, BADARG or FAULT, writing outputs and status. -/
  | aeRunComplete (u : CluId)
  /-- COMBINE_FLUSH_TIMEOUT (R216). A combine buffer is sent 64 cycles after its last merge. -/
  | combineFlushTimeout (c : CoreId)
  /-- REMOTE_ACK (R222). An acknowledgement frees remote port entries. -/
  | remoteAck (c : CoreId)
  /-- RATOM_REPLY (R217). A remote atomic's reply lands its old value in the reserved slot. -/
  | ratomReply (c : CoreId)
  /-- REMOTE_REQUEST_ARRIVE (R372). A destination applies a request in RSEQ order, answers duplicates from its reply cache, holds gaps. -/
  | remoteRequestArrive (k : Nat) (peer : Option PeerReq)
  /-- PEER_LAUNCH (R376). A launch row arriving at a node's launch address is offered as a record. -/
  | peerLaunch (node : BitVec 16) (addr : BitVec 64) (row : List Byte)
  /-- FLIT_RECEIVE (R369). A receiver applies flits in number order and answers a CRC failure with a NAK. -/
  | flitReceive (lk : LinkId) (crcOk : Bool)
  /-- NAK_RECEIVE (R369). A sender receiving a NAK resends from the named flit. -/
  | nakReceive (lk : LinkId)
  /-- ACK_ONLY_FLIT (R379). An acknowledgement-only flit is sent when none is due within 32 cycles. -/
  | ackOnlyFlit (lk : LinkId)
  /-- LANE_FAILURE (R370). A module losing lanes beyond repair starts a retrain at 32 lanes or is fenced. -/
  | laneFailure (lk : LinkId) (beyondRepair : Bool)
  /-- RETRAIN_COMPLETE (R370). A retrain ends, the module resends from its first unacknowledged flit or is fenced on failure. -/
  | retrainComplete (lk : LinkId) (ok : Bool)
  /-- REQUEST_GIVE_UP (R373). Requests to a destination unreached for 1 ms are given up with LinkPoison. -/
  | requestGiveUp (c : CoreId)
  /-- HOLDER_FENCE_TIMEOUT (R278). A duplicate holder silent for 100 µs is fenced and the write applied. -/
  | holderFenceTimeout (d : DieId)
  /-- LIVE_LINE_EVICT (R257). The L2 evicts a live counted line, writing it home as LIVE-SPILLED. -/
  | liveLineEvict (row : Nat)
  /-- FILL_STALL_RESUME (R258). A stalled counted fill takes a freed directory entry in stall order. -/
  | fillStallResume (d : DieId)
  /-- COUNTED_FULL_TIMEOUT (R258). A fill stalled for 1 ms is abandoned with CountedFull. -/
  | countedFullTimeout (d : DieId)
  /-- PARITY_REPAIR (R330). A register read with a parity error re-executes the last writer or raises UncorrectableData. -/
  | parityRepair (c : CoreId) (b : BankId) (q : SeqId) (file index : Nat) (captureOk : Bool)
  /-- DISPATCH (R307). A free bank takes the head of the highest effective-level queue and starts the task. -/
  | dispatch (d : DieId)
  /-- BANK_ACTIVATE (R308). A waiting bank's task becomes active when the other bank's task exits, is pre-empted or blocks. -/
  | bankActivate (c : CoreId)
  /-- KILL_COMPLETE (R332). A killed task's engines and stores finish, its rows are released and its record requeued. -/
  | killComplete (c : CoreId) (b : BankId)
  /-- PREEMPT_CHECKPOINT (R332). PreemptCheckpoint freezes the task between instructions and the context-save engine saves it. -/
  | preemptCheckpoint (c : CoreId) (b : BankId)
  /-- SAVE_COMMIT (R335). The save's commit word is written last, cells released and the record requeued. -/
  | saveCommit (c : CoreId) (b : BankId)
  /-- RESTORE (R337). A dispatched saved record is restored by the context-save engine and continues as a resume. -/
  | restore (c : CoreId) (b : BankId)
  /-- WORK_STEAL (R314). A die idle for 4,096 cycles steals migratable waiting records from the busiest die. -/
  | workSteal (d : DieId)
  /-- STREAM_TLB_PREFETCH (R344). A stream TLB begins translating a command's next page. -/
  | streamTlbPrefetch (c : CoreId) (out : Bool) (va : BitVec 64)
  /-- UNIT_FENCE (R386). An error fences its unit, stops its tasks and starts a targeted self-test. -/
  | unitFence (u : FUnit) (cls : Nat) (addr : BitVec 64)
  /-- SELFTEST_COMPLETE (R386). A self-test ends, marking the unit transient or lasting and taking a spare. -/
  | selftestComplete (u : FUnit) (pass : Bool)
  /-- ENGINE_WINDOW_REPLAY (R391). An engine consuming an uncorrectable error replays its command window or abandons it. -/
  | engineWindowReplay (c : CoreId) (eng : Fin 6) (id : Nat) (second : Bool)
  /-- SCRUB_ATOM (R389). The patrol scrubber reads an atom, correcting it or writing it poisoned. -/
  | scrubAtom (addr : Nat) (uncorrectable : Bool)
  /-- SCAN_START (R395). The rotation starts a scan test on the core with the oldest pass. -/
  | scanStart (d : DieId)
  /-- SCAN_COMPLETE (R397). A scan ends; a pass clears the ran list, a failure sends Suspect events. -/
  | scanComplete (c : CoreId) (pass : Bool)
  /-- CLAMP_CHANGE (R401). A clamp starting or stopping changes frequency and sends PowerReport. -/
  | clampChange (d : DieId) (cc tc : Bool) (mhz : BitVec 16)
  /-- POWER_REPORT_DEFERRED (R401). Changes within 1 ms of the last PowerReport are sent in the next report. -/
  | powerReportDeferred (d : DieId)
  /-- HOLDUP_BANK_LOW (R402). The bank falling below 2,500 J disarms checkpoint and sends CheckpointReport. -/
  | holdupBankLow (joules : Nat)
  /-- INPUT_POWER_LOSS (R403). Loss of input power stops the module, or when armed stops dispatch as step 1 of the sequence. -/
  | inputPowerLoss
  /-- LOSS_SAVE_TASKS (R403). Every resident task is checkpointed into its save area. -/
  | lossSaveTasks
  /-- LOSS_WRITE_BACK (R403). Dirty lines and directory entries are written home and engines drained. -/
  | lossWriteBack
  /-- LOSS_STORE_STATE (R403). On-die state is written to the retention store. -/
  | lossStoreState
  /-- LOSS_STORE_HBM (R403). All HBM is written to the retention store. -/
  | lossStoreHbm
  /-- LOSS_COMMIT (R404). The commit record is written after every earlier write has performed. -/
  | lossCommit
  /-- LOSS_OFF (R403). The module goes OFF at the end of the sequence. -/
  | lossOff
  /-- MODULE_RESET (R406). Power-on boots signed firmware in stages, extending measurement registers. -/
  | moduleReset
  /-- HICTL_WRITE (R359). Sets EN, starting or stopping command reads and event writes. -/
  | hictlWrite (v : W64)
  /-- CQBELL_WRITE (R361). The device reads command slots after CMDACC and accepts or discards them. -/
  | cqbellWrite (v : W64)
  /-- EQACK_WRITE (R362). Records EVACK, freeing event ring room. -/
  | eqackWrite (v : W64)
  /-- HOST_REG_WRITE (R359). Writes a ring base or size register, ignored while EN is 1. -/
  | hostRegWrite (off : Nat) (v : W64)
  /-- EVENT_WRITE (R362). A pending event is written to the ring when room allows, updating EVISS. -/
  | eventWrite
  /-- CMD_NOP (R365). Completes at once. -/
  | cmdNop
  /-- LAUNCH (R365). Reads a record and offers it to a die as a host launch. -/
  | launch
  /-- CTXCREATE (R366). Creates a context from its creation block. -/
  | ctxcreate
  /-- CTXTEARDOWN (R315). Discards a context's records, kills its tasks and refuses its launches. -/
  | ctxteardown
  /-- ACLWRITE (R367). Writes an access-control entry. -/
  | aclwrite
  /-- SCHEDPARAM (R313). Loads scheduler parameters into the named dies. -/
  | schedparam
  /-- PAGEANSWER (R350). Answers a fault by token from the host. -/
  | pageanswer
  /-- SHOOTDOWN (R353). Invalidates translations at module scope. -/
  | shootdown
  /-- PAGERELEASE (R356). Moves a page to the host after shoot-down and drain. -/
  | pagerelease
  /-- GANGWRITE (R358). Writes a gang table entry, zeroing a range whose ganging changes. -/
  | gangwrite
  /-- SAVEFCLEAR (R336). Clears a task's SAVEF mark. -/
  | savefclear
  /-- RELPARAM (R398). Sets scrub period, rotation period and corrected threshold. -/
  | relparam
  /-- SELFTEST (R398). Fences and tests a named unit. -/
  | selftest
  /-- RETIRE (R398). Marks a unit lasting and spares or fences it. -/
  | retire
  /-- POWERSTATE (R400). Checks entry conditions and moves named dies to a power state. -/
  | powerstate
  /-- CKPTARM (R402). Arms or disarms checkpoint on loss. -/
  | ckptarm
  /-- CKPTRESTORE (R405). Verifies and restores the retention image. -/
  | ckptrestore
  /-- CKPTDISCARD (R408). Zeroes the commit record's MAGIC. -/
  | ckptdiscard
  /-- ATTEST (R407). Writes a signed attestation report over a nonce. -/
  | attest
  /-- FWSTAGE (R406). Stages a signed firmware image for the next reset. -/
  | fwstage
  /-- DBGCLAIM (R409). Claims or releases a core for the debugger. -/
  | dbgclaim
  /-- DBGSTOP (R410). Stops named cores, writing stop records and DebugStop events. -/
  | dbgstop
  /-- DBGSTEP (R415). Lets named sequencers issue n instructions of a stopped core. -/
  | dbgstep
  /-- DBGRESUME (R413). Resumes a stopped core from its stop record. -/
  | dbgresume
  /-- DBGPATCH (R414). Writes a code line and invalidates instruction caches. -/
  | dbgpatch
  /-- DBGREGW (R421). Writes a debug register as a level 1 csrw. -/
  | dbgregw
  /-- EWTWRITE (R418). Loads a context's energy weight table. -/
  | ewtwrite
  /-- PROFBLOCK (R418). Sets a context's profile block. -/
  | profblock
  /-- TRACECFG (R420). Configures or disables a die's trace ring. -/
  | tracecfg
  /-- PEERSKEW (R419). Measures the time base offset to a peer node. -/
  | peerskew
  /-- HOLDUP_BANK_EXHAUSTED (R403). The hold-up bank runs out of energy before step 6 of the loss sequence, so no commit record exists and the image cannot be restored. -/
  | holdupBankExhausted
  deriving DecidableEq, Repr

/-- Whose turn a step gives: a sequencer issues, an event of the machine or of its environment happens, one cycle passes (R8), or
a host-die core stores bytes to device memory (R12, R264, R361). -/
inductive Turn where
  | seq (c : CoreId) (b : BankId) (q : SeqId)
  | act (i : Instr)
  | tick
  | hostStore (h : Fin 32) (pa : Nat) (bs : List Byte)
  | hostRead (off : Nat)
  deriving DecidableEq, Repr, Inhabited

end Sys2Proof
end

