-- ==== Sys2Proof/WellFormed.lean ====
section
/-! DEFINITION. Which instructions are well formed: check 2 of R90, and the limits that an instruction's entry puts on its
encoding alone. An event has no encoding and is well formed. -/
namespace Sys2Proof

/-- A source scalar operand field: 59-62 name nothing (R87, R90). -/
def srcOk (x : BitVec 6) : Bool := x.toNat < 59 || x == 63
/-- A destination scalar operand field: 52-63 are refused (R87, R90). -/
def dstOk (x : BitVec 6) : Bool := x.toNat < 52
/-- A source field of a form that has no window operand (R86, R90). -/
def srcOwn (x : BitVec 6) : Bool := x.toNat < 59
/-- A window descriptor (R86). -/
def winOk (e : W32) : Bool := fld e 7 0 == 0 && fld e 11 9 < 4 && (fld e 11 9 != 3 || fld e 8 8 == 0)
/-- The generic long rule (R86): a window when one source field holds 63, else an imm32 that replaces a zero field. -/
def optOk (srcs : List (BitVec 6)) (e : Option W32) (replacedZero : Bool) : Bool :=
  match e, (srcs.filter (· == 63)).length with
  | none, n => n == 0
  | some e, 1 => winOk e
  | some _, n => n == 0 && replacedZero
/-- A long form that is legal only with its source field naming 63 (R109, R128, R204). -/
def winOnly (a : BitVec 6) (e : Option W32) : Bool :=
  match e with
  | none => a != 63
  | some e => a == 63 && winOk e
/-- SCOPE [31:29] and an order bit [28] (R121, R210). -/
def scopeOk (e : W32) : Bool := fld e 31 29 < 5 && (fld e 28 28 == 1 || fld e 31 29 == 0)
/-- The extension word of loads and stores (R121). -/
def ldExtOk (load : Bool) (e : W32) : Bool := scopeOk e && fld e 26 24 == 0 && (load || fld e 27 27 == 0)
/-- The extension word of atomics (R123). -/
def amoExtOk (e : W32) : Bool := fld e 31 29 < 5 && (fld e 28 27 != 0 || fld e 31 29 == 0) && fld e 25 24 == 0
/-- The extension word of row stores (R210). -/
def storeExtOk (e : W32) : Bool := scopeOk e && fld e 27 16 == 0
/-- The command extension word (R142); `low` is the mask of the bits [13:0] that the entry defines. -/
def cmdExtOk (grp : Bool) (low : Nat) (e : W32) : Bool :=
  (fld e 31 31 == 1 || fld e 30 25 == 0) && (fld e 24 24 == 1 || fld e 23 18 == 0) &&
  (grp || fld e 17 14 == 0) && (fld e 13 0 ||| low) == low
/-- A command extension word of which only `.after` may be used (R147, R219). -/
def afterOnly (e : W32) : Bool := cmdExtOk false 0 e && fld e 31 25 == 0
/-- A mask field: bits [4:3] zero (R85, R163). -/
def isMask (x : BitVec 5) : Bool := x.toNat < 8
/-- The register numbers whose writes are rows of their own: cwinN. -/
def isCwin (n : Nat) : Bool := 0x008 <= n && n <= 0x00F
/-- The register numbers whose writes are rows of their own: wpcN. -/
def isWpc (n : Nat) : Bool := 0x304 <= n && n <= 0x307
/-- Register numbers that `csrw` hands to a row of its own. -/
def csrSpecial (n : Nat) : Bool := n == 0x002 || isCwin n || n == 0x104 || n == 0x202 || isWpc n
/-- The causes `trap` may name (R134). -/
def trapCodeOk (n : Nat) : Bool :=
  (1 <= n && n <= 0x0A) || n == 0x10 || n == 0x18 || n == 0x20 || (0x38 <= n && n <= 0x3A)

/-- d, a, b with the generic long rule (R106). -/
def RRR.aluOk (f : RRR) : Bool := dstOk f.d && srcOk f.a && srcOk f.b && optOk [f.a, f.b] f.e (f.b == 0)
/-- d and a, long only through a window (R109, R110). -/
def RRR.unOk (f : RRR) : Bool := dstOk f.d && srcOk f.a && winOnly f.a f.e
/-- Sources a and b with the generic long rule. -/
def RRR.srcAB (f : RRR) : Bool := srcOk f.a && srcOk f.b && optOk [f.a, f.b] f.e (f.b == 0)
/-- Three sources with the generic long rule. -/
def RRR.src3 (f : RRR) : Bool :=
  srcOk f.d && srcOk f.a && srcOk f.b && optOk [f.a, f.b, f.d] f.e (f.b == 0)
/-- Three sources, no window. -/
def RRR.srcOwn3 (f : RRR) : Bool := srcOwn f.d && srcOwn f.a && srcOwn f.b
/-- No operand at all (R124). -/
def RRR.zeroOk (f : RRR) : Bool := f.d == 0 && f.a == 0 && f.b == 0 && f.e.isNone
/-- d, a and an immediate with the generic long rule (R107). -/
def RRI.immOk (f : RRI) : Bool := dstOk f.d && srcOk f.a && optOk [f.a] f.e (f.imm == 0)
/-- A shift immediate lies in 0-63, in imm9 or in E (R107). -/
def RRI.shiftOk (f : RRI) : Bool :=
  f.imm.toNat < 64 && (f.a == 63 || f.e.all (fun e => e.toNat < 64))
/-- A load or store's offset: imm9, or E with imm9 zero (R121). -/
def RRI.memExtOk (load : Bool) (f : RRI) : Bool := f.e.all (fun e => f.imm == 0 && ldExtOk load e)
/-- A conditional branch (R111). -/
def BR.condOk (c : BitVec 4) (f : BR) : Bool :=
  f.c == c && srcOk f.a && f.w != 0 && optOk [f.a] f.e (f.ld == 0)
/-- `ret` and `jmp` (R112). -/
def BR.retOk (f : BR) : Bool := srcOwn f.a && f.ld == 0 && f.w == 0 && f.e.isNone
/-- NB and the field b that goes with it (R128). -/
def FQ.nbOk (f : FQ) : Bool := fld f.f 3 1 == 0 && (if fld f.f 0 0 == 1 then dstOk f.b else f.b == 0)
/-- A short vector form without an axis (R163). -/
def FV.plain (f : FV) : Bool := f.ax == 0 && f.e.isNone
/-- An axis operation with parameter at most `lim` (R176). -/
def FV.axisOk (ax : BitVec 1) (lim : Nat) (f : FV) : Bool :=
  f.ax == ax && (match f.e with | none => f.b.toNat <= lim | some e => f.b == 0 && e.toNat <= lim)
/-- FV = 0 makes the flag field reserved zero (R190). -/
def FM.flagOk (f : FM) : Bool := fld f.pol 2 2 == 1 || f.flag == 0
/-- `csrr` (R133). -/
def RI.csrROk (f : RI) : Bool := dstOk f.d && fld f.imm 17 12 == 0 && f.e.isNone
/-- `csrw` (R133). -/
def RI.csrWOk (f : RI) : Bool := srcOwn f.d && fld f.imm 17 12 == 0 && f.e.isNone

/-- Check 2 of R90 and the limits of the entries' encodings. -/
def Instr.wf : Instr → Bool
  | .nop => true
  | .add f => f.aluOk
  | .sub f => f.aluOk
  | .and f => f.aluOk
  | .or f => f.aluOk
  | .xor f => f.aluOk
  | .shl f => f.aluOk
  | .shr f => f.aluOk
  | .sra f => f.aluOk
  | .mul f => f.aluOk
  | .mulh f => f.aluOk
  | .min f => f.aluOk
  | .max f => f.aluOk
  | .div f => f.aluOk
  | .addi f => f.immOk
  | .andi f => f.immOk
  | .ori f => f.immOk
  | .xori f => f.immOk
  | .shli f => f.immOk && f.shiftOk
  | .shri f => f.immOk && f.shiftOk
  | .srai f => f.immOk && f.shiftOk
  | .muli f => f.immOk
  | .li f => dstOk f.d && (f.e.isNone || f.imm == 0)
  | .lcat f => dstOk f.d && f.e.isNone
  | .seq f => f.aluOk
  | .sne f => f.aluOk
  | .slt f => f.aluOk
  | .sltu f => f.aluOk
  | .sle f => f.aluOk
  | .sleu f => f.aluOk
  | .csel f => f.aluOk
  | .clz f => f.unOk && f.b == 0
  | .ctz f => f.unOk && f.b == 0
  | .popc f => f.unOk && f.b == 0
  | .fadd f => f.aluOk
  | .fsub f => f.aluOk
  | .fmul f => f.aluOk
  | .fmad f => f.aluOk
  | .fmin f => f.aluOk
  | .fmax f => f.aluOk
  | .ftoi f => f.unOk && f.b.toNat < 4
  | .itof f => f.unOk && f.b.toNat < 4
  | .flt f => f.aluOk
  | .br f => f.c == 0 && f.a == 0 && f.w != 0 && (f.e.isNone || f.ld == 0)
  | .brz f => f.condOk 1
  | .brnz f => f.condOk 2
  | .brlt f => f.condOk 3
  | .brge f => f.condOk 4
  | .brle f => f.condOk 5
  | .brgt f => f.condOk 6
  | .call f => f.c == 0 && dstOk f.a && f.w != 0 && f.e.isNone
  | .ret f => f.c == 1 && f.retOk
  | .jmp f => f.c == 2 && f.retOk
  | .loop f => fld f.c 1 0 == 0 && srcOk f.a && f.w != 0 && optOk [f.a] f.e (f.ld == 0)
  | .bqnz f => f.a == 0 && f.w != 0 && (f.e.isNone || f.ld == 0)
  | .bqz f => f.a == 1 && f.w != 0 && (f.e.isNone || f.ld == 0)
  | .wait f => f.d == 0 && f.imm != 0 && f.e.isNone
  | .ld8 f => dstOk f.d && srcOwn f.a && f.memExtOk true
  | .ld16 f => dstOk f.d && srcOwn f.a && f.memExtOk true
  | .ld32 f => dstOk f.d && srcOwn f.a && f.memExtOk true
  | .ld64 f => dstOk f.d && srcOwn f.a && f.memExtOk true
  | .ld8s f => dstOk f.d && srcOwn f.a && f.memExtOk true
  | .ld16s f => dstOk f.d && srcOwn f.a && f.memExtOk true
  | .ld32s f => dstOk f.d && srcOwn f.a && f.memExtOk true
  | .st8 f => srcOwn f.d && srcOwn f.a && f.memExtOk false
  | .st16 f => srcOwn f.d && srcOwn f.a && f.memExtOk false
  | .st32 f => srcOwn f.d && srcOwn f.a && f.memExtOk false
  | .st64 f => srcOwn f.d && srcOwn f.a && f.memExtOk false
  | .amoadd f => dstOk f.d && srcOwn f.a && srcOwn f.b && f.e.all amoExtOk
  | .amoswp f => dstOk f.d && srcOwn f.a && srcOwn f.b && f.e.all amoExtOk
  | .amocas f => dstOk f.d && srcOwn f.a && srcOwn f.b && f.e.all amoExtOk
  | .amoand f => dstOk f.d && srcOwn f.a && srcOwn f.b && f.e.all amoExtOk
  | .amoor f => dstOk f.d && srcOwn f.a && srcOwn f.b && f.e.all amoExtOk
  | .amoxor f => dstOk f.d && srcOwn f.a && srcOwn f.b && f.e.all amoExtOk
  | .fenceCore f => f.zeroOk
  | .fenceClu f => f.zeroOk
  | .fenceDie f => f.zeroOk
  | .fenceMod f => f.zeroOk
  | .fenceSpan f => f.zeroOk
  | .efence f => f.zeroOk
  | .farm f => f.d == 0 && srcOwn f.a && fld f.imm 8 6 == 0 && f.e.isNone
  | .fpost f => f.d == 0 && f.a == 0 && fld f.imm 8 6 == 0 && f.e.isNone
  | .fdec f => f.d == 0 && f.a == 0 && fld f.imm 8 6 == 0 && f.e.isNone
  | .fread f => dstOk f.d && f.a == 0 && fld f.imm 8 6 == 0 && f.e.isNone
  | .fwait f => f.d == 0 && f.a == 0 && fld f.imm 8 6 == 0 && f.e.isNone
  | .bar f => dstOk f.d && srcOwn f.a && fld f.imm 8 4 == 0 && f.e.isNone && (fld f.imm 2 0 == 3 || ((fld f.imm 2 0 == 1 || fld f.imm 2 0 == 2) && fld f.imm 3 3 == 0))
  | .qpush f => srcOk f.a && f.nbOk && winOnly f.a f.e
  | .qpop f => dstOk f.a && f.nbOk && f.e.isNone
  | .qpeek f => dstOk f.a && f.nbOk && f.e.isNone
  | .qstat f => dstOk f.a && f.b == 0 && f.f == 0 && f.e.isNone
  | .qcfg f => srcOk f.a && f.b == 0 && f.f == 0 && winOnly f.a f.e
  | .spawn f => f.aluOk
  | .tstart f => f.d == 0 && f.srcAB
  | .join f => f.aluOk
  | .yield f => dstOk f.d && f.a == 0 && f.b == 0
  | .exit f => f.d == 0 && f.a == 0 && srcOk f.b && (match f.e with | none => f.b != 63 | some e => if f.b == 63 then winOk e else f.b == 0 && fld e 31 7 == 0)
  | .sbind f => f.b == 0 && srcOwn f.a && f.e.all (cmdExtOk false 0)
  | .sstop f => f.q == 0 && f.a == 0 && f.b == 0 && fld f.f 3 3 == 0 && f.e.all afterOnly
  | .sstat f => f.q == 0 && f.b == 0 && fld f.f 3 3 == 0 && dstOk f.a && f.e.all (· == 0)
  | .gather f => fld f.f 3 2 == 0 && (fld f.f 1 1 == 0 || f.q == 0) && srcOwn f.a && srcOwn f.b && f.e.all (cmdExtOk true 0)
  | .gatherq f => fld f.f 3 2 == 0 && (fld f.f 1 1 == 0 || f.q == 0) && srcOwn f.a && srcOwn f.b && f.e.all (cmdExtOk true 0)
  | .copy f => f.srcOwn3 && f.e.all (cmdExtOk false 3)
  | .copyf f => f.srcOwn3 && f.e.all (fun e => cmdExtOk false 16383 e && fld e 13 0 != 0)
  | .copy2d f => f.srcOwn3 && f.e.all (cmdExtOk false 3)
  | .wload f => fld f.d 5 5 == 0 && srcOwn f.a && fld f.imm 6 6 == 0 && fld f.imm 8 7 != 3 && f.e.isNone
  | .rcfill f => f.src3
  | .rcclose f => f.d == 0 && f.srcAB
  | .rcquery f => dstOk f.d && f.b == 0 && srcOk f.a && optOk [f.a] f.e true
  | .shload f => f.aluOk
  | .shext f => f.src3
  | .ldq f => f.b == 0 && f.f == 0 && srcOwn f.a && f.e.all (ldExtOk true)
  | .ldrow f => f.f == 0 && srcOwn f.a && srcOwn f.b && f.e.all (ldExtOk true)
  | .actBind f => f.src3
  | .actMark f => f.src3
  | .actClear f => f.src3
  | .actList f => f.src3
  | .actCount f => dstOk f.d && f.a == 0 && srcOk f.b && optOk [f.b] f.e (f.b == 0)
  | .prefetch f => f.d == 0 && srcOwn f.a && f.e.isNone
  | .gwait f => f.a == 0 && f.b == 0 && f.f == 0 && f.e.isNone
  | .gstat f => dstOk f.a && f.b == 0 && fld f.f 3 2 == 0 && f.e.isNone
  | .vadd f => f.plain
  | .vsub f => f.plain
  | .vmul f => f.plain
  | .vfma f => f.plain
  | .vfms f => f.plain
  | .vmin f => f.plain
  | .vmax f => f.plain
  | .vabs f => f.plain && f.b == 0
  | .vneg f => f.plain && f.b == 0
  | .viadd f => f.plain
  | .visub f => f.plain
  | .vimul f => f.plain
  | .viand f => f.plain
  | .vior f => f.plain
  | .vixor f => f.plain
  | .vishl f => f.plain
  | .vishr f => f.plain
  | .vceq f => f.plain && isMask f.d
  | .vclt f => f.plain && isMask f.d
  | .vcle f => f.plain && isMask f.d
  | .viceq f => f.plain && isMask f.d
  | .vilt f => f.plain && isMask f.d
  | .vsel f => f.ax == 0 && (f.e.isNone || f.b == 0)
  | .vmov f => f.ax == 0 && f.b == 0 && (match f.e with | none => true | some e => fld e 31 2 == 0 && (fld e 0 0 == 0 || isMask f.d) && (e == 0 || e == 3 || isMask f.a))
  | .vsplat f => f.ax == 0 && f.b == 0 && (f.e.isNone || f.a == 0)
  | .vquant f => f.ax == 0 && f.m == 0 && f.b != f.d && f.e.all (fun e => fld e 25 23 < 4 && fld e 21 0 == 0)
  | .vdequant f => f.ax == 0 && f.m == 0 && f.e.all (fun e => fld e 25 23 < 4 && fld e 21 0 == 0)
  | .vftoi f => f.ax == 0 && f.b == 0 && f.e.all (fun e => fld e 31 26 == 0 && fld e 25 23 < 4 && fld e 22 0 == 0)
  | .vitof f => f.ax == 0 && f.b == 0 && f.e.all (fun e => fld e 31 26 == 0 && fld e 25 23 < 4 && fld e 22 0 == 0)
  | .vexp2 f => f.plain && f.b == 0
  | .vexp2d f => f.plain
  | .vlog2 f => f.plain && f.b == 0
  | .vrcpSeed f => f.plain && f.b == 0
  | .vrsqSeed f => f.plain && f.b == 0
  | .vrotr f => f.axisOk 0 63
  | .vrotc f => f.axisOk 1 15
  | .vbcastr f => f.axisOk 0 63
  | .vbcastc f => f.axisOk 1 15
  | .vredr f => f.axisOk 0 5
  | .vredc f => f.axisOk 1 5
  | .vscanr f => f.axisOk 0 5
  | .vscanc f => f.axisOk 1 5
  | .mand f => f.plain && isMask f.d && isMask f.a && isMask f.b
  | .mor f => f.plain && isMask f.d && isMask f.a && isMask f.b
  | .mxor f => f.plain && isMask f.d && isMask f.a && isMask f.b
  | .mandn f => f.plain && isMask f.d && isMask f.a && isMask f.b
  | .vany f => f.plain && isMask f.a && f.b == 0
  | .vall f => f.plain && isMask f.a && f.b == 0
  | .mpop f => f.plain && isMask f.a && f.b == 0
  | .vflag f => f.plain && isMask f.d && f.a.toNat < 5 && f.b == 0
  | .vflagclr f => f.plain && f.d == 0 && f.a != 0 && f.b == 0
  | .vpop f => f.ax == 0 && f.a.toNat < 16 && f.e.all (fun e => e.toNat < 5)
  | .vpush f => f.ax == 0 && f.d.toNat < 16 && f.e.all (fun e => e.toNat < 5)
  | .vget f => f.ax == 0 && f.m == 0 && f.b == 0 && (match f.e with | none => false | some e => fld e 31 10 == 0)
  | .vput f => f.ax == 0 && f.m == 0 && f.b == 0 && (match f.e with | none => false | some e => fld e 31 10 == 0)
  | .exposedWriteLand _ _ => true
  | .mmul f => f.flagOk && (match f.e with | none => false | some e => fld e 11 0 == 0 && fld e 21 12 != 0 && fld e 21 12 < 513)
  | .mswap f => f.zd == 0 && f.rq == 0 && f.fmt == 0 && fld f.pol 1 0 == 0 && f.flagOk && f.e.isNone
  | .mrank f => f.flagOk && (match f.e with | none => false | some e => fld e 26 22 == 0 && fld e 5 0 == 0 && fld e 21 12 != 0 && fld e 21 12 < 513)
  | .mzero f => f.rq == 0 && fld f.pol 1 0 == 0 && f.flagOk && f.e.isNone
  | .mread f => f.rq == 0 && fld f.fmt 5 5 == 0 && fld f.flag 4 4 == 0 && fld f.pol 2 1 == 0 && f.e.all (fun e => fld e 31 4 == 0 && fld e 2 0 < 4)
  | .mclose f => f.rq == 0 && f.fmt == 0 && f.flag == 0 && f.pol == 0 && f.e.isNone
  | .mwait f => f.rq == 0 && f.fmt == 0 && f.flag == 0 && (f.pol == 0 || (f.pol == 1 && f.zd == 0)) && f.e.isNone
  | .mstat f => f.rq == 0 && fld f.fmt 5 5 == 0 && f.flag == 0 && f.pol.toNat < 5 && f.e.isNone
  | .fmtw f => f.d == 0 && f.srcAB
  | .fmtr f => dstOk f.d && f.b == 0 && srcOk f.a && optOk [f.a] f.e true
  | .aecfg f => f.d == 0 && f.b == 0 && srcOk f.a && winOnly f.a f.e
  | .aerun f => dstOk f.d && f.b == 0 && srcOwn f.a && f.e.isNone
  | .aeread f => dstOk f.d && f.b == 0 && srcOwn f.a && f.e.isNone
  | .strow f => fld f.f 3 3 == 0 && (fld f.f 0 0 == 1 || f.b == 0) && srcOwn f.a && srcOwn f.b && f.e.all storeExtOk
  | .stword f => f.b == 0 && srcOwn f.a && f.e.all storeExtOk
  | .scatter f => fld f.f 3 1 == 0 && srcOwn f.a && srcOwn f.b && f.e.all (fun e => scopeOk e && fld e 27 23 == 0 && fld e 15 0 == 0 && fld e 22 16 < (if fld f.f 0 0 == 1 then 33 else 65))
  | .strc f => fld f.f 3 1 == 0 && (fld f.f 0 0 == 1 || f.b == 0) && srcOwn f.a && srcOwn f.b && f.e.all (fun e => scopeOk e && fld e 27 24 == 0 && fld e 23 16 != 0)
  | .rstore f => fld f.f 3 3 == 0 && (fld f.f 0 0 == 1 || f.b == 0) && srcOwn f.a && srcOwn f.b && f.e.all (fun e => storeExtOk e && (fld f.f 0 0 == 0 || fld e 15 0 == 0))
  | .ratom f => fld f.f 2 0 < 5 && srcOwn f.a && srcOwn f.b && f.e.all (fun e => scopeOk e && fld e 26 16 == 0 && (fld e 27 27 == 0 || f.q == 0))
  | .obind f => f.b == 0 && fld f.f 3 3 == 0 && srcOwn f.a && f.e.all (cmdExtOk false 0)
  | .ostop f => f.q == 0 && f.a == 0 && f.b == 0 && fld f.f 3 3 == 0 && f.e.all afterOnly
  | .csrr f => f.csrROk && f.imm != 0x012
  | .csrw f => f.csrWOk && !csrSpecial f.imm.toNat
  | .cwinWrite f => f.csrWOk && isCwin f.imm.toNat
  | .qmapWrite f => f.csrWOk && f.imm == 0x002
  | .flogdatRead f => f.csrROk && f.imm == 0x012
  | .wsrangeWrite f => f.csrWOk && f.imm == 0x104
  | .pfblockWrite f => f.csrWOk && f.imm == 0x202
  | .wpcWrite f => f.csrWOk && isWpc f.imm.toNat
  | .trap f => f.d == 0 && f.e.isNone && trapCodeOk (fld f.imm 7 0)
  | .resume f => f.d == 0 && f.b == 0 && srcOwn f.a && f.e.isNone
  | .tlbinv f => f.d == 0 && srcOwn f.a && srcOwn f.b && f.e.isNone
  | .icinv f => f.d == 0 && srcOwn f.a && srcOwn f.b && f.e.isNone
  | .rqrd f => dstOk f.d && srcOwn f.a && srcOwn f.b && f.e.isNone
  | .rqwr f => f.srcOwn3 && f.e.isNone
  | .pgmap f => f.d == 0 && srcOwn f.a && srcOwn f.b && f.e.isNone
  | .pgdone f => f.d == 0 && srcOwn f.a && srcOwn f.b && f.e.isNone
  | .brk f => f.d == 0 && f.e.isNone
  | .fetchLineArrive _ _ _ => true
  | .parkedRelease _ => true
  | .drain _ => true
  | .apply _ => true
  | .deliver _ => true
  | .copyEngineStart _ => true
  | .streamElementPush _ _ => true
  | .gatherRowDeliver _ _ _ => true
  | .copyComplete _ _ => true
  | .followonPlace _ _ => true
  | .matrixCmdStart _ => true
  | .matrixRowPop _ => true
  | .matrixContributionLand _ => true
  | .matrixOpComplete _ => true
  | .wloadComplete _ => true
  | .ostreamElementWrite _ _ => true
  | .lamplighterApply _ => true
  | .aeRunStart _ => true
  | .aeRunComplete _ => true
  | .combineFlushTimeout _ => true
  | .remoteAck _ => true
  | .ratomReply _ => true
  | .remoteRequestArrive _ _ => true
  | .peerLaunch _ _ _ => true
  | .flitReceive _ _ => true
  | .nakReceive _ => true
  | .ackOnlyFlit _ => true
  | .laneFailure _ _ => true
  | .retrainComplete _ _ => true
  | .requestGiveUp _ => true
  | .holderFenceTimeout _ => true
  | .liveLineEvict _ => true
  | .fillStallResume _ => true
  | .countedFullTimeout _ => true
  | .impreciseTrap _ => true
  | .parityRepair _ _ _ _ _ _ => true
  | .dispatch _ => true
  | .bankActivate _ => true
  | .killComplete _ _ => true
  | .preemptCheckpoint _ _ => true
  | .saveCommit _ _ => true
  | .restore _ _ => true
  | .workSteal _ => true
  | .streamTlbPrefetch _ _ _ => true
  | .unitFence _ _ _ => true
  | .selftestComplete _ _ => true
  | .engineWindowReplay _ _ _ _ => true
  | .scrubAtom _ _ => true
  | .scanStart _ => true
  | .scanComplete _ _ => true
  | .clampChange _ _ _ _ => true
  | .powerReportDeferred _ => true
  | .holdupBankLow _ => true
  | .inputPowerLoss => true
  | .lossSaveTasks => true
  | .lossWriteBack => true
  | .lossStoreState => true
  | .lossStoreHbm => true
  | .lossCommit => true
  | .lossOff => true
  | .moduleReset => true
  | .hictlWrite _ => true
  | .cqbellWrite _ => true
  | .eqackWrite _ => true
  | .hostRegWrite _ _ => true
  | .eventWrite => true
  | .cmdNop => true
  | .launch => true
  | .ctxcreate => true
  | .ctxteardown => true
  | .aclwrite => true
  | .schedparam => true
  | .pageanswer => true
  | .shootdown => true
  | .pagerelease => true
  | .gangwrite => true
  | .savefclear => true
  | .relparam => true
  | .selftest => true
  | .retire => true
  | .powerstate => true
  | .ckptarm => true
  | .ckptrestore => true
  | .ckptdiscard => true
  | .attest => true
  | .fwstage => true
  | .dbgclaim => true
  | .dbgstop => true
  | .dbgstep => true
  | .stepCountExpire _ => true
  | .dbgresume => true
  | .dbgpatch => true
  | .dbgregw => true
  | .ewtwrite => true
  | .profblock => true
  | .tracecfg => true
  | .peerskew => true
  | .illegalInstruction _ => true
  | .registerWriteLand _ _ _ => true
  | .holdupBankExhausted => true
  | .tbskewMeasure _ _ => true

/-- The home set of an instruction (R91): whether C, A, X, S may issue it. An event has no home. -/
def Instr.home : Instr → List SeqId
  | .nop => [0, 1, 2, 3]
  | .add _ => [0, 1, 2, 3]
  | .sub _ => [0, 1, 2, 3]
  | .and _ => [0, 1, 2, 3]
  | .or _ => [0, 1, 2, 3]
  | .xor _ => [0, 1, 2, 3]
  | .shl _ => [0, 1, 2, 3]
  | .shr _ => [0, 1, 2, 3]
  | .sra _ => [0, 1, 2, 3]
  | .mul _ => [0, 1, 2, 3]
  | .mulh _ => [0, 1, 2, 3]
  | .min _ => [0, 1, 2, 3]
  | .max _ => [0, 1, 2, 3]
  | .div _ => [0, 1, 2, 3]
  | .addi _ => [0, 1, 2, 3]
  | .andi _ => [0, 1, 2, 3]
  | .ori _ => [0, 1, 2, 3]
  | .xori _ => [0, 1, 2, 3]
  | .shli _ => [0, 1, 2, 3]
  | .shri _ => [0, 1, 2, 3]
  | .srai _ => [0, 1, 2, 3]
  | .muli _ => [0, 1, 2, 3]
  | .li _ => [0, 1, 2, 3]
  | .lcat _ => [0, 1, 2, 3]
  | .seq _ => [0, 1, 2, 3]
  | .sne _ => [0, 1, 2, 3]
  | .slt _ => [0, 1, 2, 3]
  | .sltu _ => [0, 1, 2, 3]
  | .sle _ => [0, 1, 2, 3]
  | .sleu _ => [0, 1, 2, 3]
  | .csel _ => [0, 1, 2, 3]
  | .clz _ => [0, 1, 2, 3]
  | .ctz _ => [0, 1, 2, 3]
  | .popc _ => [0, 1, 2, 3]
  | .fadd _ => [0]
  | .fsub _ => [0]
  | .fmul _ => [0]
  | .fmad _ => [0]
  | .fmin _ => [0]
  | .fmax _ => [0]
  | .ftoi _ => [0]
  | .itof _ => [0]
  | .flt _ => [0]
  | .br _ => [0, 1, 2, 3]
  | .brz _ => [0, 1, 2, 3]
  | .brnz _ => [0, 1, 2, 3]
  | .brlt _ => [0, 1, 2, 3]
  | .brge _ => [0, 1, 2, 3]
  | .brle _ => [0, 1, 2, 3]
  | .brgt _ => [0, 1, 2, 3]
  | .call _ => [0, 1, 2, 3]
  | .ret _ => [0, 1, 2, 3]
  | .jmp _ => [0, 1, 2, 3]
  | .loop _ => [0, 1, 2, 3]
  | .bqnz _ => [0, 1, 2, 3]
  | .bqz _ => [0, 1, 2, 3]
  | .wait _ => [2]
  | .ld8 _ => [0, 1, 3]
  | .ld16 _ => [0, 1, 3]
  | .ld32 _ => [0, 1, 3]
  | .ld64 _ => [0, 1, 3]
  | .ld8s _ => [0, 1, 3]
  | .ld16s _ => [0, 1, 3]
  | .ld32s _ => [0, 1, 3]
  | .st8 _ => [0, 1, 3]
  | .st16 _ => [0, 1, 3]
  | .st32 _ => [0, 1, 3]
  | .st64 _ => [0, 1, 3]
  | .amoadd _ => [0, 1, 3]
  | .amoswp _ => [0, 1, 3]
  | .amocas _ => [0, 1, 3]
  | .amoand _ => [0, 1, 3]
  | .amoor _ => [0, 1, 3]
  | .amoxor _ => [0, 1, 3]
  | .fenceCore _ => [0, 1, 3]
  | .fenceClu _ => [0, 1, 3]
  | .fenceDie _ => [0, 1, 3]
  | .fenceMod _ => [0, 1, 3]
  | .fenceSpan _ => [0, 1, 3]
  | .efence _ => [0, 1, 3]
  | .farm _ => [0, 1, 2, 3]
  | .fpost _ => [0, 1, 2, 3]
  | .fdec _ => [0, 1, 2, 3]
  | .fread _ => [0, 1, 2, 3]
  | .fwait _ => [0, 1, 2, 3]
  | .bar _ => [0]
  | .qpush _ => [0, 1, 2, 3]
  | .qpop _ => [0, 1, 2, 3]
  | .qpeek _ => [0, 1, 2, 3]
  | .qstat _ => [0, 1, 2, 3]
  | .qcfg _ => [0]
  | .spawn _ => [0]
  | .tstart _ => [0]
  | .join _ => [0]
  | .yield _ => [0]
  | .exit _ => [0]
  | .sbind _ => [1]
  | .sstop _ => [1]
  | .sstat _ => [1]
  | .gather _ => [1]
  | .gatherq _ => [1]
  | .copy _ => [1]
  | .copyf _ => [1]
  | .copy2d _ => [1]
  | .wload _ => [1]
  | .rcfill _ => [1]
  | .rcclose _ => [1]
  | .rcquery _ => [1]
  | .shload _ => [1]
  | .shext _ => [1]
  | .ldq _ => [1]
  | .ldrow _ => [1]
  | .actBind _ => [1]
  | .actMark _ => [1]
  | .actClear _ => [1]
  | .actList _ => [1]
  | .actCount _ => [1]
  | .prefetch _ => [1]
  | .gwait _ => [1]
  | .gstat _ => [1]
  | .vadd _ => [2]
  | .vsub _ => [2]
  | .vmul _ => [2]
  | .vfma _ => [2]
  | .vfms _ => [2]
  | .vmin _ => [2]
  | .vmax _ => [2]
  | .vabs _ => [2]
  | .vneg _ => [2]
  | .viadd _ => [2]
  | .visub _ => [2]
  | .vimul _ => [2]
  | .viand _ => [2]
  | .vior _ => [2]
  | .vixor _ => [2]
  | .vishl _ => [2]
  | .vishr _ => [2]
  | .vceq _ => [2]
  | .vclt _ => [2]
  | .vcle _ => [2]
  | .viceq _ => [2]
  | .vilt _ => [2]
  | .vsel _ => [2]
  | .vmov _ => [2]
  | .vsplat _ => [2]
  | .vquant _ => [2]
  | .vdequant _ => [2]
  | .vftoi _ => [2]
  | .vitof _ => [2]
  | .vexp2 _ => [2]
  | .vexp2d _ => [2]
  | .vlog2 _ => [2]
  | .vrcpSeed _ => [2]
  | .vrsqSeed _ => [2]
  | .vrotr _ => [2]
  | .vrotc _ => [2]
  | .vbcastr _ => [2]
  | .vbcastc _ => [2]
  | .vredr _ => [2]
  | .vredc _ => [2]
  | .vscanr _ => [2]
  | .vscanc _ => [2]
  | .mand _ => [2]
  | .mor _ => [2]
  | .mxor _ => [2]
  | .mandn _ => [2]
  | .vany _ => [2]
  | .vall _ => [2]
  | .mpop _ => [2]
  | .vflag _ => [2]
  | .vflagclr _ => [2]
  | .vpop _ => [2]
  | .vpush _ => [2]
  | .vget _ => [2]
  | .vput _ => [2]
  | .exposedWriteLand _ _ => []
  | .mmul _ => [2]
  | .mswap _ => [2]
  | .mrank _ => [2]
  | .mzero _ => [2]
  | .mread _ => [2]
  | .mclose _ => [2]
  | .mwait _ => [2]
  | .mstat _ => [2]
  | .fmtw _ => [0, 2]
  | .fmtr _ => [0, 1, 2, 3]
  | .aecfg _ => [0, 1]
  | .aerun _ => [0, 1]
  | .aeread _ => [0, 1]
  | .strow _ => [3]
  | .stword _ => [3]
  | .scatter _ => [3]
  | .strc _ => [3]
  | .rstore _ => [3]
  | .ratom _ => [3]
  | .obind _ => [3]
  | .ostop _ => [3]
  | .csrr _ => [0, 1, 2, 3]
  | .csrw _ => [0, 1, 2, 3]
  | .cwinWrite _ => [0, 1, 2, 3]
  | .qmapWrite _ => [0, 1, 2, 3]
  | .flogdatRead _ => [0, 1, 2, 3]
  | .wsrangeWrite _ => [0, 1, 2, 3]
  | .pfblockWrite _ => [0, 1, 2, 3]
  | .wpcWrite _ => [0, 1, 2, 3]
  | .trap _ => [0, 1, 2, 3]
  | .resume _ => [0]
  | .tlbinv _ => [0]
  | .icinv _ => [0]
  | .rqrd _ => [0]
  | .rqwr _ => [0]
  | .pgmap _ => [0]
  | .pgdone _ => [0]
  | .brk _ => [0, 1, 2, 3]
  | .fetchLineArrive _ _ _ => []
  | .parkedRelease _ => []
  | .drain _ => []
  | .apply _ => []
  | .deliver _ => []
  | .copyEngineStart _ => []
  | .streamElementPush _ _ => []
  | .gatherRowDeliver _ _ _ => []
  | .copyComplete _ _ => []
  | .followonPlace _ _ => []
  | .matrixCmdStart _ => []
  | .matrixRowPop _ => []
  | .matrixContributionLand _ => []
  | .matrixOpComplete _ => []
  | .wloadComplete _ => []
  | .ostreamElementWrite _ _ => []
  | .lamplighterApply _ => []
  | .aeRunStart _ => []
  | .aeRunComplete _ => []
  | .combineFlushTimeout _ => []
  | .remoteAck _ => []
  | .ratomReply _ => []
  | .remoteRequestArrive _ _ => []
  | .peerLaunch _ _ _ => []
  | .flitReceive _ _ => []
  | .nakReceive _ => []
  | .ackOnlyFlit _ => []
  | .laneFailure _ _ => []
  | .retrainComplete _ _ => []
  | .requestGiveUp _ => []
  | .holderFenceTimeout _ => []
  | .liveLineEvict _ => []
  | .fillStallResume _ => []
  | .countedFullTimeout _ => []
  | .impreciseTrap _ => []
  | .parityRepair _ _ _ _ _ _ => []
  | .dispatch _ => []
  | .bankActivate _ => []
  | .killComplete _ _ => []
  | .preemptCheckpoint _ _ => []
  | .saveCommit _ _ => []
  | .restore _ _ => []
  | .workSteal _ => []
  | .streamTlbPrefetch _ _ _ => []
  | .unitFence _ _ _ => []
  | .selftestComplete _ _ => []
  | .engineWindowReplay _ _ _ _ => []
  | .scrubAtom _ _ => []
  | .scanStart _ => []
  | .scanComplete _ _ => []
  | .clampChange _ _ _ _ => []
  | .powerReportDeferred _ => []
  | .holdupBankLow _ => []
  | .inputPowerLoss => []
  | .lossSaveTasks => []
  | .lossWriteBack => []
  | .lossStoreState => []
  | .lossStoreHbm => []
  | .lossCommit => []
  | .lossOff => []
  | .moduleReset => []
  | .hictlWrite _ => []
  | .cqbellWrite _ => []
  | .eqackWrite _ => []
  | .hostRegWrite _ _ => []
  | .eventWrite => []
  | .cmdNop => []
  | .launch => []
  | .ctxcreate => []
  | .ctxteardown => []
  | .aclwrite => []
  | .schedparam => []
  | .pageanswer => []
  | .shootdown => []
  | .pagerelease => []
  | .gangwrite => []
  | .savefclear => []
  | .relparam => []
  | .selftest => []
  | .retire => []
  | .powerstate => []
  | .ckptarm => []
  | .ckptrestore => []
  | .ckptdiscard => []
  | .attest => []
  | .fwstage => []
  | .dbgclaim => []
  | .dbgstop => []
  | .dbgstep => []
  | .stepCountExpire _ => []
  | .dbgresume => []
  | .dbgpatch => []
  | .dbgregw => []
  | .ewtwrite => []
  | .profblock => []
  | .tracecfg => []
  | .peerskew => []
  | .illegalInstruction _ => [0, 1, 2, 3]
  | .registerWriteLand _ _ _ => []
  | .holdupBankExhausted => []
  | .tbskewMeasure _ _ => []

/-- The extension word of an encoded instruction (R84). -/
def Instr.ext : Instr → Option W32
  | .nop => none
  | .add f => f.e
  | .sub f => f.e
  | .and f => f.e
  | .or f => f.e
  | .xor f => f.e
  | .shl f => f.e
  | .shr f => f.e
  | .sra f => f.e
  | .mul f => f.e
  | .mulh f => f.e
  | .min f => f.e
  | .max f => f.e
  | .div f => f.e
  | .addi f => f.e
  | .andi f => f.e
  | .ori f => f.e
  | .xori f => f.e
  | .shli f => f.e
  | .shri f => f.e
  | .srai f => f.e
  | .muli f => f.e
  | .li f => f.e
  | .lcat f => f.e
  | .seq f => f.e
  | .sne f => f.e
  | .slt f => f.e
  | .sltu f => f.e
  | .sle f => f.e
  | .sleu f => f.e
  | .csel f => f.e
  | .clz f => f.e
  | .ctz f => f.e
  | .popc f => f.e
  | .fadd f => f.e
  | .fsub f => f.e
  | .fmul f => f.e
  | .fmad f => f.e
  | .fmin f => f.e
  | .fmax f => f.e
  | .ftoi f => f.e
  | .itof f => f.e
  | .flt f => f.e
  | .br f => f.e
  | .brz f => f.e
  | .brnz f => f.e
  | .brlt f => f.e
  | .brge f => f.e
  | .brle f => f.e
  | .brgt f => f.e
  | .call f => f.e
  | .ret f => f.e
  | .jmp f => f.e
  | .loop f => f.e
  | .bqnz f => f.e
  | .bqz f => f.e
  | .wait f => f.e
  | .ld8 f => f.e
  | .ld16 f => f.e
  | .ld32 f => f.e
  | .ld64 f => f.e
  | .ld8s f => f.e
  | .ld16s f => f.e
  | .ld32s f => f.e
  | .st8 f => f.e
  | .st16 f => f.e
  | .st32 f => f.e
  | .st64 f => f.e
  | .amoadd f => f.e
  | .amoswp f => f.e
  | .amocas f => f.e
  | .amoand f => f.e
  | .amoor f => f.e
  | .amoxor f => f.e
  | .fenceCore f => f.e
  | .fenceClu f => f.e
  | .fenceDie f => f.e
  | .fenceMod f => f.e
  | .fenceSpan f => f.e
  | .efence f => f.e
  | .farm f => f.e
  | .fpost f => f.e
  | .fdec f => f.e
  | .fread f => f.e
  | .fwait f => f.e
  | .bar f => f.e
  | .qpush f => f.e
  | .qpop f => f.e
  | .qpeek f => f.e
  | .qstat f => f.e
  | .qcfg f => f.e
  | .spawn f => f.e
  | .tstart f => f.e
  | .join f => f.e
  | .yield f => f.e
  | .exit f => f.e
  | .sbind f => f.e
  | .sstop f => f.e
  | .sstat f => f.e
  | .gather f => f.e
  | .gatherq f => f.e
  | .copy f => f.e
  | .copyf f => f.e
  | .copy2d f => f.e
  | .wload f => f.e
  | .rcfill f => f.e
  | .rcclose f => f.e
  | .rcquery f => f.e
  | .shload f => f.e
  | .shext f => f.e
  | .ldq f => f.e
  | .ldrow f => f.e
  | .actBind f => f.e
  | .actMark f => f.e
  | .actClear f => f.e
  | .actList f => f.e
  | .actCount f => f.e
  | .prefetch f => f.e
  | .gwait f => f.e
  | .gstat f => f.e
  | .vadd f => f.e
  | .vsub f => f.e
  | .vmul f => f.e
  | .vfma f => f.e
  | .vfms f => f.e
  | .vmin f => f.e
  | .vmax f => f.e
  | .vabs f => f.e
  | .vneg f => f.e
  | .viadd f => f.e
  | .visub f => f.e
  | .vimul f => f.e
  | .viand f => f.e
  | .vior f => f.e
  | .vixor f => f.e
  | .vishl f => f.e
  | .vishr f => f.e
  | .vceq f => f.e
  | .vclt f => f.e
  | .vcle f => f.e
  | .viceq f => f.e
  | .vilt f => f.e
  | .vsel f => f.e
  | .vmov f => f.e
  | .vsplat f => f.e
  | .vquant f => f.e
  | .vdequant f => f.e
  | .vftoi f => f.e
  | .vitof f => f.e
  | .vexp2 f => f.e
  | .vexp2d f => f.e
  | .vlog2 f => f.e
  | .vrcpSeed f => f.e
  | .vrsqSeed f => f.e
  | .vrotr f => f.e
  | .vrotc f => f.e
  | .vbcastr f => f.e
  | .vbcastc f => f.e
  | .vredr f => f.e
  | .vredc f => f.e
  | .vscanr f => f.e
  | .vscanc f => f.e
  | .mand f => f.e
  | .mor f => f.e
  | .mxor f => f.e
  | .mandn f => f.e
  | .vany f => f.e
  | .vall f => f.e
  | .mpop f => f.e
  | .vflag f => f.e
  | .vflagclr f => f.e
  | .vpop f => f.e
  | .vpush f => f.e
  | .vget f => f.e
  | .vput f => f.e
  | .exposedWriteLand _ _ => none
  | .mmul f => f.e
  | .mswap f => f.e
  | .mrank f => f.e
  | .mzero f => f.e
  | .mread f => f.e
  | .mclose f => f.e
  | .mwait f => f.e
  | .mstat f => f.e
  | .fmtw f => f.e
  | .fmtr f => f.e
  | .aecfg f => f.e
  | .aerun f => f.e
  | .aeread f => f.e
  | .strow f => f.e
  | .stword f => f.e
  | .scatter f => f.e
  | .strc f => f.e
  | .rstore f => f.e
  | .ratom f => f.e
  | .obind f => f.e
  | .ostop f => f.e
  | .csrr f => f.e
  | .csrw f => f.e
  | .cwinWrite f => f.e
  | .qmapWrite f => f.e
  | .flogdatRead f => f.e
  | .wsrangeWrite f => f.e
  | .pfblockWrite f => f.e
  | .wpcWrite f => f.e
  | .trap f => f.e
  | .resume f => f.e
  | .tlbinv f => f.e
  | .icinv f => f.e
  | .rqrd f => f.e
  | .rqwr f => f.e
  | .pgmap f => f.e
  | .pgdone f => f.e
  | .brk f => f.e
  | .fetchLineArrive _ _ _ => none
  | .parkedRelease _ => none
  | .drain _ => none
  | .apply _ => none
  | .deliver _ => none
  | .copyEngineStart _ => none
  | .streamElementPush _ _ => none
  | .gatherRowDeliver _ _ _ => none
  | .copyComplete _ _ => none
  | .followonPlace _ _ => none
  | .matrixCmdStart _ => none
  | .matrixRowPop _ => none
  | .matrixContributionLand _ => none
  | .matrixOpComplete _ => none
  | .wloadComplete _ => none
  | .ostreamElementWrite _ _ => none
  | .lamplighterApply _ => none
  | .aeRunStart _ => none
  | .aeRunComplete _ => none
  | .combineFlushTimeout _ => none
  | .remoteAck _ => none
  | .ratomReply _ => none
  | .remoteRequestArrive _ _ => none
  | .peerLaunch _ _ _ => none
  | .flitReceive _ _ => none
  | .nakReceive _ => none
  | .ackOnlyFlit _ => none
  | .laneFailure _ _ => none
  | .retrainComplete _ _ => none
  | .requestGiveUp _ => none
  | .holderFenceTimeout _ => none
  | .liveLineEvict _ => none
  | .fillStallResume _ => none
  | .countedFullTimeout _ => none
  | .impreciseTrap _ => none
  | .parityRepair _ _ _ _ _ _ => none
  | .dispatch _ => none
  | .bankActivate _ => none
  | .killComplete _ _ => none
  | .preemptCheckpoint _ _ => none
  | .saveCommit _ _ => none
  | .restore _ _ => none
  | .workSteal _ => none
  | .streamTlbPrefetch _ _ _ => none
  | .unitFence _ _ _ => none
  | .selftestComplete _ _ => none
  | .engineWindowReplay _ _ _ _ => none
  | .scrubAtom _ _ => none
  | .scanStart _ => none
  | .scanComplete _ _ => none
  | .clampChange _ _ _ _ => none
  | .powerReportDeferred _ => none
  | .holdupBankLow _ => none
  | .inputPowerLoss => none
  | .lossSaveTasks => none
  | .lossWriteBack => none
  | .lossStoreState => none
  | .lossStoreHbm => none
  | .lossCommit => none
  | .lossOff => none
  | .moduleReset => none
  | .hictlWrite _ => none
  | .cqbellWrite _ => none
  | .eqackWrite _ => none
  | .hostRegWrite _ _ => none
  | .eventWrite => none
  | .cmdNop => none
  | .launch => none
  | .ctxcreate => none
  | .ctxteardown => none
  | .aclwrite => none
  | .schedparam => none
  | .pageanswer => none
  | .shootdown => none
  | .pagerelease => none
  | .gangwrite => none
  | .savefclear => none
  | .relparam => none
  | .selftest => none
  | .retire => none
  | .powerstate => none
  | .ckptarm => none
  | .ckptrestore => none
  | .ckptdiscard => none
  | .attest => none
  | .fwstage => none
  | .dbgclaim => none
  | .dbgstop => none
  | .dbgstep => none
  | .stepCountExpire _ => none
  | .dbgresume => none
  | .dbgpatch => none
  | .dbgregw => none
  | .ewtwrite => none
  | .profblock => none
  | .tracecfg => none
  | .peerskew => none
  | .illegalInstruction _ => none
  | .registerWriteLand _ _ _ => none
  | .holdupBankExhausted => none
  | .tbskewMeasure _ _ => none

/-- How many words of its line an instruction occupies (R84). -/
def Instr.len (i : Instr) : Nat := if i.ext.isSome then 2 else 1

end Sys2Proof
end

