-- ==== Sys2Proof/Decode.lean ====
section
/-! DEFINITION. Reading an instruction from its words (R84, R86, R90, R91), rejecting by name, and writing it. -/
namespace Sys2Proof

/-- Why no instruction can be read: MAJ is unassigned; FN or cond is unassigned under its MAJ; the encoding is not well
formed; the bytes end too soon. The first three raise IllegalInstruction (R90, R91). -/
inductive DecodeError where
  | unassignedMajor
  | unassignedFunction
  | illFormed
  | truncated
  deriving DecidableEq, Repr

/-- MAJ (R84). -/
def wMaj (w : W32) : BitVec 7 := w.extractLsb' 25 7
/-- L (R84). -/
def wLong (w : W32) : Bool := w.getLsbD 24

def RRR.dec (w : W32) (e : Option W32) : RRR :=
  { d := w.extractLsb' 12 6, a := w.extractLsb' 6 6, b := w.extractLsb' 0 6, e }
def RRI.dec (w : W32) (e : Option W32) : RRI :=
  { d := w.extractLsb' 15 6, a := w.extractLsb' 9 6, imm := w.extractLsb' 0 9, e }
def RI.dec (w : W32) (e : Option W32) : RI := { d := w.extractLsb' 18 6, imm := w.extractLsb' 0 18, e }
def BR.dec (w : W32) (e : Option W32) : BR :=
  { c := w.extractLsb' 20 4, a := w.extractLsb' 14 6, ld := w.extractLsb' 4 10, w := w.extractLsb' 0 4, e }
def FV.dec (w : W32) (e : Option W32) : FV :=
  { d := w.extractLsb' 14 5, a := w.extractLsb' 9 5, b := w.extractLsb' 4 5, m := w.extractLsb' 1 3,
    ax := w.extractLsb' 0 1, e }
def FQ.dec (w : W32) (e : Option W32) : FQ :=
  { q := w.extractLsb' 16 4, a := w.extractLsb' 10 6, b := w.extractLsb' 4 6, f := w.extractLsb' 0 4, e }
def FM.dec (w : W32) (e : Option W32) : FM :=
  { zd := w.extractLsb' 17 3, rq := w.extractLsb' 14 3, fmt := w.extractLsb' 8 6, flag := w.extractLsb' 3 5,
    pol := w.extractLsb' 0 3, e }

/-- The L bit. -/
def lbit (e : Option W32) : BitVec 1 := if e.isSome then 1 else 0
def RRR.enc (maj : BitVec 7) (fn : BitVec 6) (f : RRR) : W32 := maj ++ lbit f.e ++ fn ++ f.d ++ f.a ++ f.b
def RRI.enc (maj : BitVec 7) (fn : BitVec 3) (f : RRI) : W32 := maj ++ lbit f.e ++ fn ++ f.d ++ f.a ++ f.imm
def RI.enc (maj : BitVec 7) (f : RI) : W32 := maj ++ lbit f.e ++ f.d ++ f.imm
def BR.enc (maj : BitVec 7) (f : BR) : W32 := maj ++ lbit f.e ++ f.c ++ f.a ++ f.ld ++ f.w
def FV.enc (maj : BitVec 7) (fn : BitVec 5) (f : FV) : W32 :=
  maj ++ lbit f.e ++ fn ++ f.d ++ f.a ++ f.b ++ f.m ++ f.ax
def FQ.enc (maj : BitVec 7) (fn : BitVec 4) (f : FQ) : W32 := maj ++ lbit f.e ++ fn ++ f.q ++ f.a ++ f.b ++ f.f
def FM.enc (maj : BitVec 7) (fn : BitVec 4) (f : FM) : W32 :=
  maj ++ lbit f.e ++ fn ++ f.zd ++ f.rq ++ f.fmt ++ f.flag ++ f.pol

/-- The row a read of system register `imm` belongs to. -/
def csrRead (f : RI) : Instr := if f.imm == 0x012 then .flogdatRead f else .csrr f
/-- The row a write of system register `imm` belongs to. -/
def csrWrite (f : RI) : Instr :=
  let n := f.imm.toNat
  if n == 0x002 then .qmapWrite f
  else if isCwin n then .cwinWrite f
  else if n == 0x104 then .wsrangeWrite f
  else if n == 0x202 then .pfblockWrite f
  else if isWpc n then .wpcWrite f
  else .csrw f

/-- The functions of MAJ 0x01 (R91). -/
def dec01 (w : W32) (e : Option W32) : Option Instr :=
  match (w.extractLsb' 18 6).toNat with
  | 0 => some (.add (.dec w e))
  | 1 => some (.sub (.dec w e))
  | 2 => some (.and (.dec w e))
  | 3 => some (.or (.dec w e))
  | 4 => some (.xor (.dec w e))
  | 5 => some (.shl (.dec w e))
  | 6 => some (.shr (.dec w e))
  | 7 => some (.sra (.dec w e))
  | 8 => some (.mul (.dec w e))
  | 9 => some (.mulh (.dec w e))
  | 10 => some (.min (.dec w e))
  | 11 => some (.max (.dec w e))
  | 12 => some (.div (.dec w e))
  | _ => none

/-- The functions of MAJ 0x02 (R91). -/
def dec02 (w : W32) (e : Option W32) : Option Instr :=
  match (w.extractLsb' 21 3).toNat with
  | 0 => some (.addi (.dec w e))
  | 1 => some (.andi (.dec w e))
  | 2 => some (.ori (.dec w e))
  | 3 => some (.xori (.dec w e))
  | 4 => some (.shli (.dec w e))
  | 5 => some (.shri (.dec w e))
  | 6 => some (.srai (.dec w e))
  | 7 => some (.muli (.dec w e))
  | _ => none

/-- The functions of MAJ 0x03 (R91). -/
def dec03 (w : W32) (e : Option W32) : Option Instr :=
  some (.li (.dec w e))

/-- The functions of MAJ 0x04 (R91). -/
def dec04 (w : W32) (e : Option W32) : Option Instr :=
  some (.lcat (.dec w e))

/-- The functions of MAJ 0x05 (R91). -/
def dec05 (w : W32) (e : Option W32) : Option Instr :=
  match (w.extractLsb' 18 6).toNat with
  | 0 => some (.seq (.dec w e))
  | 1 => some (.sne (.dec w e))
  | 2 => some (.slt (.dec w e))
  | 3 => some (.sltu (.dec w e))
  | 4 => some (.sle (.dec w e))
  | 5 => some (.sleu (.dec w e))
  | 6 => some (.csel (.dec w e))
  | 7 => some (.clz (.dec w e))
  | 8 => some (.ctz (.dec w e))
  | 9 => some (.popc (.dec w e))
  | _ => none

/-- The functions of MAJ 0x06 (R91). -/
def dec06 (w : W32) (e : Option W32) : Option Instr :=
  match (w.extractLsb' 18 6).toNat with
  | 0 => some (.fadd (.dec w e))
  | 1 => some (.fsub (.dec w e))
  | 2 => some (.fmul (.dec w e))
  | 3 => some (.fmad (.dec w e))
  | 4 => some (.fmin (.dec w e))
  | 5 => some (.fmax (.dec w e))
  | 6 => some (.ftoi (.dec w e))
  | 7 => some (.itof (.dec w e))
  | 8 => some (.flt (.dec w e))
  | _ => none

/-- The functions of MAJ 0x08 (R91). -/
def dec08 (w : W32) (e : Option W32) : Option Instr :=
  match (w.extractLsb' 20 4).toNat with
  | 0 => some (.br (.dec w e))
  | 1 => some (.brz (.dec w e))
  | 2 => some (.brnz (.dec w e))
  | 3 => some (.brlt (.dec w e))
  | 4 => some (.brge (.dec w e))
  | 5 => some (.brle (.dec w e))
  | 6 => some (.brgt (.dec w e))
  | _ => none

/-- The functions of MAJ 0x09 (R91). -/
def dec09 (w : W32) (e : Option W32) : Option Instr :=
  match (w.extractLsb' 20 4).toNat with
  | 0 => some (.call (.dec w e))
  | 1 => some (.ret (.dec w e))
  | 2 => some (.jmp (.dec w e))
  | _ => none

/-- The functions of MAJ 0x0A (R91). -/
def dec0A (w : W32) (e : Option W32) : Option Instr :=
  if w.extractLsb' 20 2 = 0 then some (.loop (.dec w e)) else none

/-- The functions of MAJ 0x0B (R91). -/
def dec0B (w : W32) (e : Option W32) : Option Instr :=
  match (w.extractLsb' 14 6).toNat with
  | 0 => some (.bqnz (.dec w e))
  | 1 => some (.bqz (.dec w e))
  | _ => none

/-- The functions of MAJ 0x0C (R91). -/
def dec0C (w : W32) (e : Option W32) : Option Instr :=
  some (.wait (.dec w e))

/-- The functions of MAJ 0x10 (R91). -/
def dec10 (w : W32) (e : Option W32) : Option Instr :=
  match (w.extractLsb' 21 3).toNat with
  | 0 => some (.ld8 (.dec w e))
  | 1 => some (.ld16 (.dec w e))
  | 2 => some (.ld32 (.dec w e))
  | 3 => some (.ld64 (.dec w e))
  | 4 => some (.ld8s (.dec w e))
  | 5 => some (.ld16s (.dec w e))
  | 6 => some (.ld32s (.dec w e))
  | _ => none

/-- The functions of MAJ 0x11 (R91). -/
def dec11 (w : W32) (e : Option W32) : Option Instr :=
  match (w.extractLsb' 21 3).toNat with
  | 0 => some (.st8 (.dec w e))
  | 1 => some (.st16 (.dec w e))
  | 2 => some (.st32 (.dec w e))
  | 3 => some (.st64 (.dec w e))
  | _ => none

/-- The functions of MAJ 0x12 (R91). -/
def dec12 (w : W32) (e : Option W32) : Option Instr :=
  match (w.extractLsb' 18 6).toNat with
  | 0 => some (.amoadd (.dec w e))
  | 1 => some (.amoswp (.dec w e))
  | 2 => some (.amocas (.dec w e))
  | 3 => some (.amoand (.dec w e))
  | 4 => some (.amoor (.dec w e))
  | 5 => some (.amoxor (.dec w e))
  | _ => none

/-- The functions of MAJ 0x13 (R91). -/
def dec13 (w : W32) (e : Option W32) : Option Instr :=
  match (w.extractLsb' 18 6).toNat with
  | 0 => some (.fenceCore (.dec w e))
  | 1 => some (.fenceClu (.dec w e))
  | 2 => some (.fenceDie (.dec w e))
  | 3 => some (.fenceMod (.dec w e))
  | 4 => some (.fenceSpan (.dec w e))
  | 8 => some (.efence (.dec w e))
  | _ => none

/-- The functions of MAJ 0x14 (R91). -/
def dec14 (w : W32) (e : Option W32) : Option Instr :=
  match (w.extractLsb' 21 3).toNat with
  | 0 => some (.farm (.dec w e))
  | 1 => some (.fpost (.dec w e))
  | 2 => some (.fdec (.dec w e))
  | 3 => some (.fread (.dec w e))
  | 4 => some (.fwait (.dec w e))
  | _ => none

/-- The functions of MAJ 0x15 (R91). -/
def dec15 (w : W32) (e : Option W32) : Option Instr :=
  match (w.extractLsb' 21 3).toNat with
  | 0 => some (.bar (.dec w e))
  | _ => none

/-- The functions of MAJ 0x16 (R91). -/
def dec16 (w : W32) (e : Option W32) : Option Instr :=
  match (w.extractLsb' 20 4).toNat with
  | 0 => some (.qpush (.dec w e))
  | 1 => some (.qpop (.dec w e))
  | 2 => some (.qpeek (.dec w e))
  | 3 => some (.qstat (.dec w e))
  | 4 => some (.qcfg (.dec w e))
  | _ => none

/-- The functions of MAJ 0x17 (R91). -/
def dec17 (w : W32) (e : Option W32) : Option Instr :=
  match (w.extractLsb' 18 6).toNat with
  | 0 => some (.spawn (.dec w e))
  | 1 => some (.tstart (.dec w e))
  | 2 => some (.join (.dec w e))
  | 3 => some (.yield (.dec w e))
  | 4 => some (.exit (.dec w e))
  | _ => none

/-- The functions of MAJ 0x20 (R91). -/
def dec20 (w : W32) (e : Option W32) : Option Instr :=
  match (w.extractLsb' 20 4).toNat with
  | 0 => some (.sbind (.dec w e))
  | 1 => some (.sstop (.dec w e))
  | 2 => some (.sstat (.dec w e))
  | _ => none

/-- The functions of MAJ 0x21 (R91). -/
def dec21 (w : W32) (e : Option W32) : Option Instr :=
  match (w.extractLsb' 20 4).toNat with
  | 0 => some (.gather (.dec w e))
  | 1 => some (.gatherq (.dec w e))
  | _ => none

/-- The functions of MAJ 0x22 (R91). -/
def dec22 (w : W32) (e : Option W32) : Option Instr :=
  match (w.extractLsb' 18 6).toNat with
  | 0 => some (.copy (.dec w e))
  | 1 => some (.copyf (.dec w e))
  | 2 => some (.copy2d (.dec w e))
  | _ => none

/-- The functions of MAJ 0x23 (R91). -/
def dec23 (w : W32) (e : Option W32) : Option Instr :=
  match (w.extractLsb' 21 3).toNat with
  | 0 => some (.wload (.dec w e))
  | _ => none

/-- The functions of MAJ 0x24 (R91). -/
def dec24 (w : W32) (e : Option W32) : Option Instr :=
  match (w.extractLsb' 18 6).toNat with
  | 0 => some (.rcfill (.dec w e))
  | 1 => some (.rcclose (.dec w e))
  | 2 => some (.rcquery (.dec w e))
  | _ => none

/-- The functions of MAJ 0x25 (R91). -/
def dec25 (w : W32) (e : Option W32) : Option Instr :=
  match (w.extractLsb' 18 6).toNat with
  | 0 => some (.shload (.dec w e))
  | 1 => some (.shext (.dec w e))
  | _ => none

/-- The functions of MAJ 0x26 (R91). -/
def dec26 (w : W32) (e : Option W32) : Option Instr :=
  match (w.extractLsb' 20 4).toNat with
  | 0 => some (.ldq (.dec w e))
  | 1 => some (.ldrow (.dec w e))
  | _ => none

/-- The functions of MAJ 0x27 (R91). -/
def dec27 (w : W32) (e : Option W32) : Option Instr :=
  match (w.extractLsb' 18 6).toNat with
  | 0 => some (.actBind (.dec w e))
  | 1 => some (.actMark (.dec w e))
  | 2 => some (.actClear (.dec w e))
  | 3 => some (.actList (.dec w e))
  | 4 => some (.actCount (.dec w e))
  | _ => none

/-- The functions of MAJ 0x28 (R91). -/
def dec28 (w : W32) (e : Option W32) : Option Instr :=
  match (w.extractLsb' 21 3).toNat with
  | 0 => some (.prefetch (.dec w e))
  | _ => none

/-- The functions of MAJ 0x29 (R91). -/
def dec29 (w : W32) (e : Option W32) : Option Instr :=
  match (w.extractLsb' 20 4).toNat with
  | 0 => some (.gwait (.dec w e))
  | 1 => some (.gstat (.dec w e))
  | _ => none

/-- The functions of MAJ 0x30 (R91). -/
def dec30 (w : W32) (e : Option W32) : Option Instr :=
  match (w.extractLsb' 19 5).toNat with
  | 0 => some (.vadd (.dec w e))
  | 1 => some (.vsub (.dec w e))
  | 2 => some (.vmul (.dec w e))
  | 3 => some (.vfma (.dec w e))
  | 4 => some (.vfms (.dec w e))
  | 5 => some (.vmin (.dec w e))
  | 6 => some (.vmax (.dec w e))
  | 7 => some (.vabs (.dec w e))
  | 8 => some (.vneg (.dec w e))
  | _ => none

/-- The functions of MAJ 0x31 (R91). -/
def dec31 (w : W32) (e : Option W32) : Option Instr :=
  match (w.extractLsb' 19 5).toNat with
  | 0 => some (.viadd (.dec w e))
  | 1 => some (.visub (.dec w e))
  | 2 => some (.vimul (.dec w e))
  | 3 => some (.viand (.dec w e))
  | 4 => some (.vior (.dec w e))
  | 5 => some (.vixor (.dec w e))
  | 6 => some (.vishl (.dec w e))
  | 7 => some (.vishr (.dec w e))
  | _ => none

/-- The functions of MAJ 0x32 (R91). -/
def dec32 (w : W32) (e : Option W32) : Option Instr :=
  match (w.extractLsb' 19 5).toNat with
  | 0 => some (.vceq (.dec w e))
  | 1 => some (.vclt (.dec w e))
  | 2 => some (.vcle (.dec w e))
  | 3 => some (.viceq (.dec w e))
  | 4 => some (.vilt (.dec w e))
  | _ => none

/-- The functions of MAJ 0x33 (R91). -/
def dec33 (w : W32) (e : Option W32) : Option Instr :=
  match (w.extractLsb' 19 5).toNat with
  | 0 => some (.vsel (.dec w e))
  | 1 => some (.vmov (.dec w e))
  | 2 => some (.vsplat (.dec w e))
  | _ => none

/-- The functions of MAJ 0x34 (R91). -/
def dec34 (w : W32) (e : Option W32) : Option Instr :=
  match (w.extractLsb' 19 5).toNat with
  | 0 => some (.vquant (.dec w e))
  | 1 => some (.vdequant (.dec w e))
  | 2 => some (.vftoi (.dec w e))
  | 3 => some (.vitof (.dec w e))
  | _ => none

/-- The functions of MAJ 0x35 (R91). -/
def dec35 (w : W32) (e : Option W32) : Option Instr :=
  match (w.extractLsb' 19 5).toNat with
  | 0 => some (.vexp2 (.dec w e))
  | 1 => some (.vexp2d (.dec w e))
  | 2 => some (.vlog2 (.dec w e))
  | 3 => some (.vrcpSeed (.dec w e))
  | 4 => some (.vrsqSeed (.dec w e))
  | _ => none

/-- The functions of MAJ 0x36 (R91). -/
def dec36 (w : W32) (e : Option W32) : Option Instr :=
  match (w.extractLsb' 19 5).toNat with
  | 0 => some (if w.getLsbD 0 then .vrotc (.dec w e) else .vrotr (.dec w e))
  | 1 => some (if w.getLsbD 0 then .vbcastc (.dec w e) else .vbcastr (.dec w e))
  | 2 => some (if w.getLsbD 0 then .vredc (.dec w e) else .vredr (.dec w e))
  | 3 => some (if w.getLsbD 0 then .vscanc (.dec w e) else .vscanr (.dec w e))
  | _ => none

/-- The functions of MAJ 0x37 (R91). -/
def dec37 (w : W32) (e : Option W32) : Option Instr :=
  match (w.extractLsb' 19 5).toNat with
  | 0 => some (.mand (.dec w e))
  | 1 => some (.mor (.dec w e))
  | 2 => some (.mxor (.dec w e))
  | 3 => some (.mandn (.dec w e))
  | 4 => some (.vany (.dec w e))
  | 5 => some (.vall (.dec w e))
  | 6 => some (.mpop (.dec w e))
  | _ => none

/-- The functions of MAJ 0x38 (R91). -/
def dec38 (w : W32) (e : Option W32) : Option Instr :=
  match (w.extractLsb' 19 5).toNat with
  | 0 => some (.vflag (.dec w e))
  | 1 => some (.vflagclr (.dec w e))
  | _ => none

/-- The functions of MAJ 0x39 (R91). -/
def dec39 (w : W32) (e : Option W32) : Option Instr :=
  match (w.extractLsb' 19 5).toNat with
  | 0 => some (.vpop (.dec w e))
  | 1 => some (.vpush (.dec w e))
  | _ => none

/-- The functions of MAJ 0x3A (R91). -/
def dec3A (w : W32) (e : Option W32) : Option Instr :=
  match (w.extractLsb' 19 5).toNat with
  | 0 => some (.vget (.dec w e))
  | 1 => some (.vput (.dec w e))
  | _ => none

/-- The functions of MAJ 0x40 (R91). -/
def dec40 (w : W32) (e : Option W32) : Option Instr :=
  match (w.extractLsb' 20 4).toNat with
  | 0 => some (.mmul (.dec w e))
  | _ => none

/-- The functions of MAJ 0x41 (R91). -/
def dec41 (w : W32) (e : Option W32) : Option Instr :=
  match (w.extractLsb' 20 4).toNat with
  | 0 => some (.mswap (.dec w e))
  | _ => none

/-- The functions of MAJ 0x42 (R91). -/
def dec42 (w : W32) (e : Option W32) : Option Instr :=
  match (w.extractLsb' 20 4).toNat with
  | 0 => some (.mrank (.dec w e))
  | _ => none

/-- The functions of MAJ 0x43 (R91). -/
def dec43 (w : W32) (e : Option W32) : Option Instr :=
  match (w.extractLsb' 20 4).toNat with
  | 0 => some (.mzero (.dec w e))
  | _ => none

/-- The functions of MAJ 0x44 (R91). -/
def dec44 (w : W32) (e : Option W32) : Option Instr :=
  match (w.extractLsb' 20 4).toNat with
  | 0 => some (.mread (.dec w e))
  | _ => none

/-- The functions of MAJ 0x45 (R91). -/
def dec45 (w : W32) (e : Option W32) : Option Instr :=
  match (w.extractLsb' 20 4).toNat with
  | 0 => some (.mclose (.dec w e))
  | 1 => some (.mwait (.dec w e))
  | _ => none

/-- The functions of MAJ 0x46 (R91). -/
def dec46 (w : W32) (e : Option W32) : Option Instr :=
  match (w.extractLsb' 20 4).toNat with
  | 0 => some (.mstat (.dec w e))
  | _ => none

/-- The functions of MAJ 0x47 (R91). -/
def dec47 (w : W32) (e : Option W32) : Option Instr :=
  match (w.extractLsb' 18 6).toNat with
  | 0 => some (.fmtw (.dec w e))
  | 1 => some (.fmtr (.dec w e))
  | _ => none

/-- The functions of MAJ 0x48 (R91). -/
def dec48 (w : W32) (e : Option W32) : Option Instr :=
  match (w.extractLsb' 18 6).toNat with
  | 0 => some (.aecfg (.dec w e))
  | _ => none

/-- The functions of MAJ 0x49 (R91). -/
def dec49 (w : W32) (e : Option W32) : Option Instr :=
  match (w.extractLsb' 18 6).toNat with
  | 0 => some (.aerun (.dec w e))
  | _ => none

/-- The functions of MAJ 0x4A (R91). -/
def dec4A (w : W32) (e : Option W32) : Option Instr :=
  match (w.extractLsb' 18 6).toNat with
  | 0 => some (.aeread (.dec w e))
  | _ => none

/-- The functions of MAJ 0x50 (R91). -/
def dec50 (w : W32) (e : Option W32) : Option Instr :=
  match (w.extractLsb' 20 4).toNat with
  | 0 => some (.strow (.dec w e))
  | 1 => some (.stword (.dec w e))
  | _ => none

/-- The functions of MAJ 0x51 (R91). -/
def dec51 (w : W32) (e : Option W32) : Option Instr :=
  match (w.extractLsb' 20 4).toNat with
  | 0 => some (.scatter (.dec w e))
  | _ => none

/-- The functions of MAJ 0x52 (R91). -/
def dec52 (w : W32) (e : Option W32) : Option Instr :=
  match (w.extractLsb' 20 4).toNat with
  | 0 => some (.strc (.dec w e))
  | _ => none

/-- The functions of MAJ 0x53 (R91). -/
def dec53 (w : W32) (e : Option W32) : Option Instr :=
  match (w.extractLsb' 20 4).toNat with
  | 0 => some (.rstore (.dec w e))
  | 1 => some (.ratom (.dec w e))
  | _ => none

/-- The functions of MAJ 0x54 (R91). -/
def dec54 (w : W32) (e : Option W32) : Option Instr :=
  match (w.extractLsb' 20 4).toNat with
  | 0 => some (.obind (.dec w e))
  | 1 => some (.ostop (.dec w e))
  | _ => none

/-- The functions of MAJ 0x60 (R91). -/
def dec60 (w : W32) (e : Option W32) : Option Instr :=
  some (csrRead (.dec w e))

/-- The functions of MAJ 0x61 (R91). -/
def dec61 (w : W32) (e : Option W32) : Option Instr :=
  some (csrWrite (.dec w e))

/-- The functions of MAJ 0x62 (R91). -/
def dec62 (w : W32) (e : Option W32) : Option Instr :=
  some (.trap (.dec w e))

/-- The functions of MAJ 0x63 (R91). -/
def dec63 (w : W32) (e : Option W32) : Option Instr :=
  match (w.extractLsb' 18 6).toNat with
  | 0 => some (.resume (.dec w e))
  | _ => none

/-- The functions of MAJ 0x64 (R91). -/
def dec64 (w : W32) (e : Option W32) : Option Instr :=
  match (w.extractLsb' 18 6).toNat with
  | 0 => some (.tlbinv (.dec w e))
  | _ => none

/-- The functions of MAJ 0x65 (R91). -/
def dec65 (w : W32) (e : Option W32) : Option Instr :=
  match (w.extractLsb' 18 6).toNat with
  | 0 => some (.icinv (.dec w e))
  | _ => none

/-- The functions of MAJ 0x66 (R91). -/
def dec66 (w : W32) (e : Option W32) : Option Instr :=
  match (w.extractLsb' 18 6).toNat with
  | 0 => some (.rqrd (.dec w e))
  | 1 => some (.rqwr (.dec w e))
  | _ => none

/-- The functions of MAJ 0x67 (R91). -/
def dec67 (w : W32) (e : Option W32) : Option Instr :=
  match (w.extractLsb' 18 6).toNat with
  | 0 => some (.pgmap (.dec w e))
  | 1 => some (.pgdone (.dec w e))
  | _ => none

/-- The functions of MAJ 0x68 (R91). -/
def dec68 (w : W32) (e : Option W32) : Option Instr :=
  some (.brk (.dec w e))

/-- Check 1 of R90: MAJ, then FN or cond. -/
def decodeRaw (w : W32) (e : Option W32) : Except DecodeError Instr :=
  let fn (o : Option Instr) : Except DecodeError Instr :=
    match o with | some i => .ok i | none => .error .unassignedFunction
  match (wMaj w).toNat with
  | 0x00 => if w = 0 ∧ e = none then .ok .nop else .error .unassignedMajor
  | 0x01 => fn (dec01 w e)
  | 0x02 => fn (dec02 w e)
  | 0x03 => fn (dec03 w e)
  | 0x04 => fn (dec04 w e)
  | 0x05 => fn (dec05 w e)
  | 0x06 => fn (dec06 w e)
  | 0x08 => fn (dec08 w e)
  | 0x09 => fn (dec09 w e)
  | 0x0A => fn (dec0A w e)
  | 0x0B => fn (dec0B w e)
  | 0x0C => fn (dec0C w e)
  | 0x10 => fn (dec10 w e)
  | 0x11 => fn (dec11 w e)
  | 0x12 => fn (dec12 w e)
  | 0x13 => fn (dec13 w e)
  | 0x14 => fn (dec14 w e)
  | 0x15 => fn (dec15 w e)
  | 0x16 => fn (dec16 w e)
  | 0x17 => fn (dec17 w e)
  | 0x20 => fn (dec20 w e)
  | 0x21 => fn (dec21 w e)
  | 0x22 => fn (dec22 w e)
  | 0x23 => fn (dec23 w e)
  | 0x24 => fn (dec24 w e)
  | 0x25 => fn (dec25 w e)
  | 0x26 => fn (dec26 w e)
  | 0x27 => fn (dec27 w e)
  | 0x28 => fn (dec28 w e)
  | 0x29 => fn (dec29 w e)
  | 0x30 => fn (dec30 w e)
  | 0x31 => fn (dec31 w e)
  | 0x32 => fn (dec32 w e)
  | 0x33 => fn (dec33 w e)
  | 0x34 => fn (dec34 w e)
  | 0x35 => fn (dec35 w e)
  | 0x36 => fn (dec36 w e)
  | 0x37 => fn (dec37 w e)
  | 0x38 => fn (dec38 w e)
  | 0x39 => fn (dec39 w e)
  | 0x3A => fn (dec3A w e)
  | 0x40 => fn (dec40 w e)
  | 0x41 => fn (dec41 w e)
  | 0x42 => fn (dec42 w e)
  | 0x43 => fn (dec43 w e)
  | 0x44 => fn (dec44 w e)
  | 0x45 => fn (dec45 w e)
  | 0x46 => fn (dec46 w e)
  | 0x47 => fn (dec47 w e)
  | 0x48 => fn (dec48 w e)
  | 0x49 => fn (dec49 w e)
  | 0x4A => fn (dec4A w e)
  | 0x50 => fn (dec50 w e)
  | 0x51 => fn (dec51 w e)
  | 0x52 => fn (dec52 w e)
  | 0x53 => fn (dec53 w e)
  | 0x54 => fn (dec54 w e)
  | 0x60 => fn (dec60 w e)
  | 0x61 => fn (dec61 w e)
  | 0x62 => fn (dec62 w e)
  | 0x63 => fn (dec63 w e)
  | 0x64 => fn (dec64 w e)
  | 0x65 => fn (dec65 w e)
  | 0x66 => fn (dec66 w e)
  | 0x67 => fn (dec67 w e)
  | 0x68 => fn (dec68 w e)
  | _ => .error .unassignedMajor

/-- Checks 1 and 2 of R90 on an instruction word and, when its L bit is set, the word after it. -/
def decodeWord (w : W32) (e : Option W32) : Except DecodeError Instr :=
  match decodeRaw w e with
  | .error x => .error x
  | .ok i => if i.wf then .ok i else .error .illFormed

/-- The 32-bit word at the head of a list of bytes (R3). -/
def takeW32 : List Byte → Option (W32 × List Byte)
  | b0 :: b1 :: b2 :: b3 :: rest => some (b3 ++ b2 ++ b1 ++ b0, rest)
  | _ => none

/-- The bytes of a 32-bit word, least significant first (R3). -/
def bytesW32 (w : W32) : List Byte :=
  [w.extractLsb' 0 8, w.extractLsb' 8 8, w.extractLsb' 16 8, w.extractLsb' 24 8]

/-- The instruction at the head of a list of bytes, with the bytes after it. Total: what it cannot read it rejects by
name. -/
def decode (bs : List Byte) : Except DecodeError (Instr × List Byte) :=
  match takeW32 bs with
  | none => .error .truncated
  | some (w, rest) =>
    if wLong w then
      match takeW32 rest with
      | none => .error .truncated
      | some (e, rest') => (decodeWord w (some e)).map (·, rest')
    else (decodeWord w none).map (·, rest)

/-- The instruction word of an encoded instruction (R84, R91); an event has none. -/
def encodeWord : Instr → Option W32
  | .nop => some 0
  | .add f => some (f.enc 0x01 0)
  | .sub f => some (f.enc 0x01 1)
  | .and f => some (f.enc 0x01 2)
  | .or f => some (f.enc 0x01 3)
  | .xor f => some (f.enc 0x01 4)
  | .shl f => some (f.enc 0x01 5)
  | .shr f => some (f.enc 0x01 6)
  | .sra f => some (f.enc 0x01 7)
  | .mul f => some (f.enc 0x01 8)
  | .mulh f => some (f.enc 0x01 9)
  | .min f => some (f.enc 0x01 10)
  | .max f => some (f.enc 0x01 11)
  | .div f => some (f.enc 0x01 12)
  | .addi f => some (f.enc 0x02 0)
  | .andi f => some (f.enc 0x02 1)
  | .ori f => some (f.enc 0x02 2)
  | .xori f => some (f.enc 0x02 3)
  | .shli f => some (f.enc 0x02 4)
  | .shri f => some (f.enc 0x02 5)
  | .srai f => some (f.enc 0x02 6)
  | .muli f => some (f.enc 0x02 7)
  | .li f => some (f.enc 0x03)
  | .lcat f => some (f.enc 0x04)
  | .seq f => some (f.enc 0x05 0)
  | .sne f => some (f.enc 0x05 1)
  | .slt f => some (f.enc 0x05 2)
  | .sltu f => some (f.enc 0x05 3)
  | .sle f => some (f.enc 0x05 4)
  | .sleu f => some (f.enc 0x05 5)
  | .csel f => some (f.enc 0x05 6)
  | .clz f => some (f.enc 0x05 7)
  | .ctz f => some (f.enc 0x05 8)
  | .popc f => some (f.enc 0x05 9)
  | .fadd f => some (f.enc 0x06 0)
  | .fsub f => some (f.enc 0x06 1)
  | .fmul f => some (f.enc 0x06 2)
  | .fmad f => some (f.enc 0x06 3)
  | .fmin f => some (f.enc 0x06 4)
  | .fmax f => some (f.enc 0x06 5)
  | .ftoi f => some (f.enc 0x06 6)
  | .itof f => some (f.enc 0x06 7)
  | .flt f => some (f.enc 0x06 8)
  | .br f => some (f.enc 0x08)
  | .brz f => some (f.enc 0x08)
  | .brnz f => some (f.enc 0x08)
  | .brlt f => some (f.enc 0x08)
  | .brge f => some (f.enc 0x08)
  | .brle f => some (f.enc 0x08)
  | .brgt f => some (f.enc 0x08)
  | .call f => some (f.enc 0x09)
  | .ret f => some (f.enc 0x09)
  | .jmp f => some (f.enc 0x09)
  | .loop f => some (f.enc 0x0A)
  | .bqnz f => some (f.enc 0x0B)
  | .bqz f => some (f.enc 0x0B)
  | .wait f => some (f.enc 0x0C)
  | .ld8 f => some (f.enc 0x10 0)
  | .ld16 f => some (f.enc 0x10 1)
  | .ld32 f => some (f.enc 0x10 2)
  | .ld64 f => some (f.enc 0x10 3)
  | .ld8s f => some (f.enc 0x10 4)
  | .ld16s f => some (f.enc 0x10 5)
  | .ld32s f => some (f.enc 0x10 6)
  | .st8 f => some (f.enc 0x11 0)
  | .st16 f => some (f.enc 0x11 1)
  | .st32 f => some (f.enc 0x11 2)
  | .st64 f => some (f.enc 0x11 3)
  | .amoadd f => some (f.enc 0x12 0)
  | .amoswp f => some (f.enc 0x12 1)
  | .amocas f => some (f.enc 0x12 2)
  | .amoand f => some (f.enc 0x12 3)
  | .amoor f => some (f.enc 0x12 4)
  | .amoxor f => some (f.enc 0x12 5)
  | .fenceCore f => some (f.enc 0x13 0)
  | .fenceClu f => some (f.enc 0x13 1)
  | .fenceDie f => some (f.enc 0x13 2)
  | .fenceMod f => some (f.enc 0x13 3)
  | .fenceSpan f => some (f.enc 0x13 4)
  | .efence f => some (f.enc 0x13 8)
  | .farm f => some (f.enc 0x14 0)
  | .fpost f => some (f.enc 0x14 1)
  | .fdec f => some (f.enc 0x14 2)
  | .fread f => some (f.enc 0x14 3)
  | .fwait f => some (f.enc 0x14 4)
  | .bar f => some (f.enc 0x15 0)
  | .qpush f => some (f.enc 0x16 0)
  | .qpop f => some (f.enc 0x16 1)
  | .qpeek f => some (f.enc 0x16 2)
  | .qstat f => some (f.enc 0x16 3)
  | .qcfg f => some (f.enc 0x16 4)
  | .spawn f => some (f.enc 0x17 0)
  | .tstart f => some (f.enc 0x17 1)
  | .join f => some (f.enc 0x17 2)
  | .yield f => some (f.enc 0x17 3)
  | .exit f => some (f.enc 0x17 4)
  | .sbind f => some (f.enc 0x20 0)
  | .sstop f => some (f.enc 0x20 1)
  | .sstat f => some (f.enc 0x20 2)
  | .gather f => some (f.enc 0x21 0)
  | .gatherq f => some (f.enc 0x21 1)
  | .copy f => some (f.enc 0x22 0)
  | .copyf f => some (f.enc 0x22 1)
  | .copy2d f => some (f.enc 0x22 2)
  | .wload f => some (f.enc 0x23 0)
  | .rcfill f => some (f.enc 0x24 0)
  | .rcclose f => some (f.enc 0x24 1)
  | .rcquery f => some (f.enc 0x24 2)
  | .shload f => some (f.enc 0x25 0)
  | .shext f => some (f.enc 0x25 1)
  | .ldq f => some (f.enc 0x26 0)
  | .ldrow f => some (f.enc 0x26 1)
  | .actBind f => some (f.enc 0x27 0)
  | .actMark f => some (f.enc 0x27 1)
  | .actClear f => some (f.enc 0x27 2)
  | .actList f => some (f.enc 0x27 3)
  | .actCount f => some (f.enc 0x27 4)
  | .prefetch f => some (f.enc 0x28 0)
  | .gwait f => some (f.enc 0x29 0)
  | .gstat f => some (f.enc 0x29 1)
  | .vadd f => some (f.enc 0x30 0)
  | .vsub f => some (f.enc 0x30 1)
  | .vmul f => some (f.enc 0x30 2)
  | .vfma f => some (f.enc 0x30 3)
  | .vfms f => some (f.enc 0x30 4)
  | .vmin f => some (f.enc 0x30 5)
  | .vmax f => some (f.enc 0x30 6)
  | .vabs f => some (f.enc 0x30 7)
  | .vneg f => some (f.enc 0x30 8)
  | .viadd f => some (f.enc 0x31 0)
  | .visub f => some (f.enc 0x31 1)
  | .vimul f => some (f.enc 0x31 2)
  | .viand f => some (f.enc 0x31 3)
  | .vior f => some (f.enc 0x31 4)
  | .vixor f => some (f.enc 0x31 5)
  | .vishl f => some (f.enc 0x31 6)
  | .vishr f => some (f.enc 0x31 7)
  | .vceq f => some (f.enc 0x32 0)
  | .vclt f => some (f.enc 0x32 1)
  | .vcle f => some (f.enc 0x32 2)
  | .viceq f => some (f.enc 0x32 3)
  | .vilt f => some (f.enc 0x32 4)
  | .vsel f => some (f.enc 0x33 0)
  | .vmov f => some (f.enc 0x33 1)
  | .vsplat f => some (f.enc 0x33 2)
  | .vquant f => some (f.enc 0x34 0)
  | .vdequant f => some (f.enc 0x34 1)
  | .vftoi f => some (f.enc 0x34 2)
  | .vitof f => some (f.enc 0x34 3)
  | .vexp2 f => some (f.enc 0x35 0)
  | .vexp2d f => some (f.enc 0x35 1)
  | .vlog2 f => some (f.enc 0x35 2)
  | .vrcpSeed f => some (f.enc 0x35 3)
  | .vrsqSeed f => some (f.enc 0x35 4)
  | .vrotr f => some (f.enc 0x36 0)
  | .vrotc f => some (f.enc 0x36 0)
  | .vbcastr f => some (f.enc 0x36 1)
  | .vbcastc f => some (f.enc 0x36 1)
  | .vredr f => some (f.enc 0x36 2)
  | .vredc f => some (f.enc 0x36 2)
  | .vscanr f => some (f.enc 0x36 3)
  | .vscanc f => some (f.enc 0x36 3)
  | .mand f => some (f.enc 0x37 0)
  | .mor f => some (f.enc 0x37 1)
  | .mxor f => some (f.enc 0x37 2)
  | .mandn f => some (f.enc 0x37 3)
  | .vany f => some (f.enc 0x37 4)
  | .vall f => some (f.enc 0x37 5)
  | .mpop f => some (f.enc 0x37 6)
  | .vflag f => some (f.enc 0x38 0)
  | .vflagclr f => some (f.enc 0x38 1)
  | .vpop f => some (f.enc 0x39 0)
  | .vpush f => some (f.enc 0x39 1)
  | .vget f => some (f.enc 0x3A 0)
  | .vput f => some (f.enc 0x3A 1)
  | .exposedWriteLand _ _ => none
  | .mmul f => some (f.enc 0x40 0)
  | .mswap f => some (f.enc 0x41 0)
  | .mrank f => some (f.enc 0x42 0)
  | .mzero f => some (f.enc 0x43 0)
  | .mread f => some (f.enc 0x44 0)
  | .mclose f => some (f.enc 0x45 0)
  | .mwait f => some (f.enc 0x45 1)
  | .mstat f => some (f.enc 0x46 0)
  | .fmtw f => some (f.enc 0x47 0)
  | .fmtr f => some (f.enc 0x47 1)
  | .aecfg f => some (f.enc 0x48 0)
  | .aerun f => some (f.enc 0x49 0)
  | .aeread f => some (f.enc 0x4A 0)
  | .strow f => some (f.enc 0x50 0)
  | .stword f => some (f.enc 0x50 1)
  | .scatter f => some (f.enc 0x51 0)
  | .strc f => some (f.enc 0x52 0)
  | .rstore f => some (f.enc 0x53 0)
  | .ratom f => some (f.enc 0x53 1)
  | .obind f => some (f.enc 0x54 0)
  | .ostop f => some (f.enc 0x54 1)
  | .csrr f => some (f.enc 0x60)
  | .csrw f => some (f.enc 0x61)
  | .cwinWrite f => some (f.enc 0x61)
  | .qmapWrite f => some (f.enc 0x61)
  | .flogdatRead f => some (f.enc 0x60)
  | .wsrangeWrite f => some (f.enc 0x61)
  | .pfblockWrite f => some (f.enc 0x61)
  | .wpcWrite f => some (f.enc 0x61)
  | .trap f => some (f.enc 0x62)
  | .resume f => some (f.enc 0x63 0)
  | .tlbinv f => some (f.enc 0x64 0)
  | .icinv f => some (f.enc 0x65 0)
  | .rqrd f => some (f.enc 0x66 0)
  | .rqwr f => some (f.enc 0x66 1)
  | .pgmap f => some (f.enc 0x67 0)
  | .pgdone f => some (f.enc 0x67 1)
  | .brk f => some (f.enc 0x68)
  | .fetchLineArrive _ _ _ => none
  | .parkedRelease _ => none
  | .drain _ => none
  | .apply _ => none
  | .deliver _ => none
  | .copyEngineStart _ => none
  | .streamElementPush _ _ => none
  | .gatherRowDeliver _ _ _ => none
  | .copyComplete _ _ => none
  | .followonPlace _ _ => none
  | .matrixCmdStart _ => none
  | .matrixRowPop _ => none
  | .matrixContributionLand _ => none
  | .matrixOpComplete _ => none
  | .wloadComplete _ => none
  | .ostreamElementWrite _ _ => none
  | .lamplighterApply _ => none
  | .aeRunStart _ => none
  | .aeRunComplete _ => none
  | .combineFlushTimeout _ => none
  | .remoteAck _ => none
  | .ratomReply _ => none
  | .remoteRequestArrive _ _ => none
  | .peerLaunch _ _ _ => none
  | .flitReceive _ _ => none
  | .nakReceive _ => none
  | .ackOnlyFlit _ => none
  | .laneFailure _ _ => none
  | .retrainComplete _ _ => none
  | .requestGiveUp _ => none
  | .holderFenceTimeout _ => none
  | .liveLineEvict _ => none
  | .fillStallResume _ => none
  | .countedFullTimeout _ => none
  | .impreciseTrap _ => none
  | .parityRepair _ _ _ _ _ _ => none
  | .dispatch _ => none
  | .bankActivate _ => none
  | .killComplete _ _ => none
  | .preemptCheckpoint _ _ => none
  | .saveCommit _ _ => none
  | .restore _ _ => none
  | .workSteal _ => none
  | .streamTlbPrefetch _ _ _ => none
  | .unitFence _ _ _ => none
  | .selftestComplete _ _ => none
  | .engineWindowReplay _ _ _ _ => none
  | .scrubAtom _ _ => none
  | .scanStart _ => none
  | .scanComplete _ _ => none
  | .clampChange _ _ _ _ => none
  | .powerReportDeferred _ => none
  | .holdupBankLow _ => none
  | .inputPowerLoss => none
  | .lossSaveTasks => none
  | .lossWriteBack => none
  | .lossStoreState => none
  | .lossStoreHbm => none
  | .lossCommit => none
  | .lossOff => none
  | .moduleReset => none
  | .hictlWrite _ => none
  | .cqbellWrite _ => none
  | .eqackWrite _ => none
  | .hostRegWrite _ _ => none
  | .eventWrite => none
  | .cmdNop => none
  | .launch => none
  | .ctxcreate => none
  | .ctxteardown => none
  | .aclwrite => none
  | .schedparam => none
  | .pageanswer => none
  | .shootdown => none
  | .pagerelease => none
  | .gangwrite => none
  | .savefclear => none
  | .relparam => none
  | .selftest => none
  | .retire => none
  | .powerstate => none
  | .ckptarm => none
  | .ckptrestore => none
  | .ckptdiscard => none
  | .attest => none
  | .fwstage => none
  | .dbgclaim => none
  | .dbgstop => none
  | .dbgstep => none
  | .stepCountExpire _ => none
  | .dbgresume => none
  | .dbgpatch => none
  | .dbgregw => none
  | .ewtwrite => none
  | .profblock => none
  | .tracecfg => none
  | .peerskew => none
  | .illegalInstruction _ => none
  | .registerWriteLand _ _ _ => none
  | .holdupBankExhausted => none
  | .tbskewMeasure _ _ => none

/-- The words of a well-formed instruction: its word and, in a long form, E. -/
def encode (i : Instr) : List W32 :=
  match encodeWord i with
  | none => []
  | some w => w :: i.ext.toList

/-- The bytes of a well-formed instruction, as a code line holds them (R3, R77). -/
def encodeBytes (i : Instr) : List Byte := (encode i).flatMap bytesW32

/-- The instruction this decoder reads from an instruction whose bits are `w`, numbered as spec/opcode_table.json numbers
them: bit 0 is the least significant bit of the first word and a later word's bits count on. Every bit above `nbits` is
zero. -/
def decodeTableWord (nbits w : Nat) : Option Instr :=
  match decode (leBytes 8 (w % 2 ^ nbits)) with
  | .ok (i, _) => some i
  | .error _ => none

end Sys2Proof
end

