-- ==== Sys2Proof/Config.lean ====
section
/-! DEFINITION. What the spec leaves to the implementation or leaves open: constants without a body. Nothing can be
proved about their values, so a claim holds whatever they are. -/
namespace Sys2Proof

/-- The turn that comes when the agenda is empty: which agent acts next is open (R263, R267). -/
opaque Config.nextTurn : Nat → Turn
/-- A fresh free value for each counter value: results the spec leaves open. -/
opaque Config.freeValue : Nat → BitVec 64
/-- The index a LOAD chooses at or above its floor (R270), as a fresh number. -/
opaque Config.loadChoice : Nat → Nat
/-- The value an inexact `vexp2` or `vexp2d` delivers, where it lies within the bound of R173: a function of the
operands. -/
opaque Config.exp2Choice : W32 → W32 → W32
/-- The value an inexact `vlog2` delivers, where it lies within the bound of R173: a function of the operand. -/
opaque Config.log2Choice : W32 → W32
/-- The row of its pseudo-channel that holds a device address (R393): the spec gives no mapping. -/
opaque Config.hbmRow : Nat → Nat
/-- SHAKE256 with a 512-bit output (R404, R406). -/
opaque Config.shake256 : List Byte → BitVec 512
/-- Whether a firmware image's key digest and ML-DSA-65 signature verify (R406). -/
opaque Config.imageSigned : List Byte → Bool
/-- The security version that a firmware image carries (R406). -/
opaque Config.imageSvn : List Byte → Nat
/-- The boot stage to which a firmware image belongs (R406). -/
opaque Config.imageStage : List Byte → Nat
/-- The images that the boot of stage `k` loads when nothing is staged (R406). -/
opaque Config.bootImages : Nat → List (List Byte)
/-- The ML-DSA-65 signature of the module identity key: 3,309 bytes (R407). -/
opaque Config.identitySign : List Byte → Vector Byte 3309
/-- The module's own node number, set by firmware (R375). -/
opaque Config.ownNode : BitVec 16
/-- The firmware's route table: the port mask of a node, zero for none (R375). -/
opaque Config.route : BitVec 16 → BitVec 18

end Sys2Proof
end

