-- ==== Sys2Proof/Machine/Fp.lean ====
section
/-! DEFINITION. Number formats and rounding (chapter 2): operands become exact numbers, the result is formed exactly, and
one function rounds it once. Flags are NV [0], DZ [1], OF [2], UF [3], NX [4] (R57). -/
namespace Sys2Proof.Machine

/-- The five flags (R25, R57). -/
abbrev Flags := BitVec 5
abbrev fNV : Flags := 1
abbrev fDZ : Flags := 2
abbrev fOF : Flags := 4
abbrev fUF : Flags := 8
abbrev fNX : Flags := 16

/-- An exact operand: a NaN (signalling or quiet), an infinity, or (-1)^neg m 2^e. -/
inductive Fv where
  | nan (sig : Bool)
  | inf (neg : Bool)
  | num (neg : Bool) (m : Nat) (e : Int)
  deriving DecidableEq, Repr

/-- A binary floating format: exponent and fraction widths, bias, and whether the all-ones exponent holds infinity and
NaN (R23) or numbers (R26). -/
structure FFmt where
  eb : Nat
  fb : Nat
  bias : Nat
  ieee : Bool
  deriving DecidableEq, Repr

def FFmt.fp32 : FFmt := ⟨8, 23, 127, true⟩
def FFmt.fp16 : FFmt := ⟨5, 10, 15, true⟩
def FFmt.bf16 : FFmt := ⟨8, 7, 127, true⟩
def FFmt.f8a : FFmt := ⟨4, 3, 7, false⟩
def FFmt.f8b : FFmt := ⟨5, 2, 15, false⟩
def FFmt.f6a : FFmt := ⟨2, 3, 1, false⟩
def FFmt.f6b : FFmt := ⟨3, 2, 3, false⟩
def FFmt.f4 : FFmt := ⟨2, 1, 1, false⟩

/-- The exponent of the smallest subnormal. -/
def FFmt.emin (f : FFmt) : Int := 1 - (f.bias : Int) - f.fb
/-- The grid exponent of the largest finite numbers. -/
def FFmt.gmax (f : FFmt) : Int := (2 ^ f.eb : Nat) - (if f.ieee then 2 else 1) - (f.bias : Int) - f.fb

/-- The value of a code (R23, R26). -/
def FFmt.dec (f : FFmt) (c : Nat) : Fv :=
  let s := (c >>> (f.fb + f.eb)) % 2 == 1
  let x := (c >>> f.fb) % 2 ^ f.eb
  let m := c % 2 ^ f.fb
  if f.ieee && x == 2 ^ f.eb - 1 then
    if m == 0 then .inf s else .nan (m < 2 ^ (f.fb - 1))
  else if x == 0 then .num s m f.emin
  else .num s (2 ^ f.fb + m) (x - (f.bias : Int) - f.fb)

/-- The sign bit in place. -/
def FFmt.sgn (f : FFmt) (neg : Bool) : Nat := if neg then 2 ^ (f.eb + f.fb) else 0
/-- The code of infinity. -/
def FFmt.infCode (f : FFmt) (neg : Bool) : Nat := f.sgn neg + (2 ^ f.eb - 1) * 2 ^ f.fb
/-- The canonical quiet NaN (R24). -/
def FFmt.qnan (f : FFmt) : Nat := (2 ^ f.eb - 1) * 2 ^ f.fb + 2 ^ (f.fb - 1)
/-- The code of the largest finite magnitude. -/
def FFmt.maxCode (f : FFmt) (neg : Bool) : Nat :=
  f.sgn neg + (if f.ieee then (2 ^ f.eb - 1) * 2 ^ f.fb - 1 else 2 ^ (f.eb + f.fb) - 1)

/-- The rounding modes of R40. -/
inductive RMode where
  | rn
  | rz
  | ru
  | rs
  deriving DecidableEq, Repr

/-- The mode of a rounding code 0-3 (R110, R170, R200). -/
def RMode.ofCode : Nat → RMode
  | 0 => .rn
  | 1 => .rz
  | 2 => .ru
  | _ => .rs

/-- m 2^e on the grid 2^g, rounded (R40, R41): the count of grid steps and whether that is inexact. -/
def roundGrid (neg : Bool) (m : Nat) (e g : Int) (mode : RMode) (rho : Nat) : Nat × Bool :=
  if g ≤ e then (m <<< (e - g).toNat, false)
  else
    let s := (g - e).toNat
    let q := m >>> s
    let r := m % 2 ^ s
    if r == 0 then (q, false)
    else
      let up := match mode with
        | .rn => 2 ^ s < 2 * r || (2 * r == 2 ^ s && q % 2 == 1)
        | .rz => false
        | .ru => !neg
        | .rs => 2 ^ 24 ≤ (r <<< 24) >>> s + rho
      (if up then q + 1 else q, true)

/-- q 2^g against the largest finite magnitude. -/
def FFmt.over (f : FFmt) (q : Nat) (g : Int) : Bool :=
  let mx := 2 ^ (f.fb + 1) - 1
  if f.gmax ≤ g then mx < q <<< (g - f.gmax).toNat else mx <<< (f.gmax - g).toNat < q

/-- Rounds a nonzero exact number to a format, with the overflow of R42 and the flags of R25. UF is judged after rounding
as if the exponent were unbounded. -/
def FFmt.roundNum (f : FFmt) (mode : RMode) (rho : Nat) (neg : Bool) (m : Nat) (e : Int) : Nat × Flags :=
  if m == 0 then (f.sgn neg, 0)
  else
    let g0 := (Nat.log2 m : Int) + e - f.fb
    let g := max g0 f.emin
    let (q, ix) := roundGrid neg m e g mode rho
    if f.over q g then
      let toInf := f.ieee && (match mode with | .rn => true | .rz => false | .ru => !neg | .rs => true)
      (if toInf then f.infCode neg else f.maxCode neg, fOF ||| fNX)
    else
      let (qu, _) := roundGrid neg m e g0 mode rho
      let tiny := g0 < f.emin && qu < 2 ^ (f.emin + f.fb - g0).toNat
      (f.sgn neg + ((g - f.emin).toNat * 2 ^ f.fb + q),
        if ix then (if tiny then fUF ||| fNX else fNX) else 0)

/-- Rounds an exact operand to an IEEE format (R24, R45). -/
def FFmt.round (f : FFmt) (mode : RMode) (rho : Nat) : Fv → Nat × Flags
  | .nan sig => (f.qnan, if sig then fNV else 0)
  | .inf neg => (f.infCode neg, 0)
  | .num neg m e => f.roundNum mode rho neg m e

/-- Rounds to a narrow format without a scale (R44). -/
def FFmt.narrow (f : FFmt) (mode : RMode) (rho : Nat) : Fv → Nat × Flags
  | .nan _ => (0, fNV)
  | .inf neg => (f.maxCode neg, fNV ||| fNX)
  | .num neg m e => f.roundNum mode rho neg m e

/-- The NV of signalling operands (R25). -/
def Fv.snan : Fv → Flags
  | .nan true => fNV
  | _ => 0
def Fv.isNan : Fv → Bool
  | .nan _ => true
  | _ => false
def Fv.isInf : Fv → Bool
  | .inf _ => true
  | _ => false
def Fv.finite : Fv → Bool
  | .num _ _ _ => true
  | _ => false
def Fv.isZero : Fv → Bool
  | .num _ m _ => m == 0
  | _ => false
def Fv.neg : Fv → Fv
  | .nan s => .nan s
  | .inf n => .inf (!n)
  | .num n m e => .num (!n) m e

/-- A signed integer significand. -/
def sig (neg : Bool) (m : Nat) : Int := if neg then -(m : Int) else m

/-- The exact number i 2^e; a zero takes the sign given. -/
def Fv.ofInt (zneg : Bool) (i : Int) (e : Int) : Fv :=
  if i == 0 then .num zneg 0 0 else .num (decide (i < 0)) i.natAbs e

/-- The exact sum of two numbers as a significand and an exponent. -/
def addSig (i : Int) (e : Int) (j : Int) (k : Int) : Int × Int :=
  let x := min e k
  (i * 2 ^ (e - x).toNat + j * 2 ^ (k - x).toNat, x)

/-- The exact sum (R25, R110): inf - inf is NaN with NV; an exact zero is +0 but for two negative zeros. -/
def Fv.add (x y : Fv) : Fv × Flags :=
  match x, y with
  | .nan _, _ => (.nan false, x.snan ||| y.snan)
  | _, .nan _ => (.nan false, y.snan)
  | .inf a, .inf b => if a == b then (.inf a, 0) else (.nan false, fNV)
  | .inf a, _ => (.inf a, 0)
  | _, .inf b => (.inf b, 0)
  | .num a m e, .num b n k =>
    let (i, g) := addSig (sig a m) e (sig b n) k
    (Fv.ofInt (a && b && m == 0 && n == 0) i g, 0)

/-- The exact difference; an exact zero is +0 (R110, R166). -/
def Fv.sub (x y : Fv) : Fv × Flags :=
  match Fv.add x y.neg with
  | (.num n m e, fl) => (.num (n && m != 0) m e, fl)
  | r => r

/-- The exact product: 0 times inf is NaN with NV (R25). -/
def Fv.mul (x y : Fv) : Fv × Flags :=
  match x, y with
  | .nan _, _ => (.nan false, x.snan ||| y.snan)
  | _, .nan _ => (.nan false, y.snan)
  | .inf a, .inf b => (.inf (a != b), 0)
  | .inf a, .num b n _ => if n == 0 then (.nan false, fNV) else (.inf (a != b), 0)
  | .num a m _, .inf b => if m == 0 then (.nan false, fNV) else (.inf (a != b), 0)
  | .num a m e, .num b n k => (.num (a != b) (m * n) (e + k), 0)

/-- FP32 operand of a word. -/
def f32 (w : W32) : Fv := FFmt.fp32.dec w.toNat

/-- Rounds to FP32, gathering flags. -/
def to32 (mode : RMode) (rho : Nat) (x : Fv) (fl : Flags) : W32 × Flags :=
  let (c, g) := FFmt.fp32.round mode rho x
  (BitVec.ofNat 32 c, fl ||| g)

/-- round(x + y) in FP32, `.rn`. -/
def fadd32 (x y : W32) : W32 × Flags := let (v, fl) := Fv.add (f32 x) (f32 y); to32 .rn 0 v fl
/-- round(x - y) in FP32, `.rn`. -/
def fsub32 (x y : W32) : W32 × Flags := let (v, fl) := Fv.sub (f32 x) (f32 y); to32 .rn 0 v fl
/-- round(x y) in FP32, `.rn`. -/
def fmul32 (x y : W32) : W32 × Flags := let (v, fl) := Fv.mul (f32 x) (f32 y); to32 .rn 0 v fl
/-- round(x y + z), one rounding (R50). DESIGN CHOICE (log 20): for 0 times infinity plus a quiet NaN, where IEEE 754-2019 leaves the
flag to the implementation and R25 does not say, NV is raised. -/
def ffma32 (x y z : W32) : W32 × Flags :=
  let (p, f1) := Fv.mul (f32 x) (f32 y)
  let (v, f2) := Fv.add p (f32 z)
  to32 .rn 0 v (f1 ||| f2 ||| (f32 z).snan)
/-- round(z - x y), one rounding (R166). -/
def ffms32 (x y z : W32) : W32 × Flags :=
  let (p, f1) := Fv.mul (f32 x) (f32 y)
  let (v, f2) := Fv.add (f32 z) p.neg
  to32 .rn 0 v (f1 ||| f2 ||| (f32 z).snan)

/-- x < y on exact operands; a NaN gives false; -0 = +0. -/
def Fv.lt : Fv → Fv → Bool
  | .nan _, _ => false
  | _, .nan _ => false
  | .inf a, .inf b => a && !b
  | .inf a, .num _ _ _ => a
  | .num _ _ _, .inf b => !b
  | .num a m e, .num b n k => decide ((addSig (sig a m) e (-(sig b n)) k).1 < 0)
/-- x = y on exact operands. -/
def Fv.eq : Fv → Fv → Bool
  | .inf a, .inf b => a == b
  | .num a m e, .num b n k => (addSig (sig a m) e (-(sig b n)) k).1 == 0
  | _, _ => false

/-- `fmin` (R110): -0 below +0; a NaN yields the other operand; two NaNs the canonical NaN; NV for a signalling NaN. -/
def fmin32 (x y : W32) : W32 × Flags :=
  let a := f32 x
  let b := f32 y
  let fl := a.snan ||| b.snan
  if a.isNan && b.isNan then (0x7FC00000, fl)
  else if a.isNan then (y, fl)
  else if b.isNan then (x, fl)
  else if a.lt b then (x, fl)
  else if b.lt a then (y, fl)
  else (if x.getLsbD 31 then x else y, fl)
/-- `fmax` (R110). -/
def fmax32 (x y : W32) : W32 × Flags :=
  let a := f32 x
  let b := f32 y
  let fl := a.snan ||| b.snan
  if a.isNan && b.isNan then (0x7FC00000, fl)
  else if a.isNan then (y, fl)
  else if b.isNan then (x, fl)
  else if b.lt a then (x, fl)
  else if a.lt b then (y, fl)
  else (if x.getLsbD 31 then y else x, fl)

/-- Rounds an exact number to an integer, magnitude first (R43). -/
def roundInt (mode : RMode) (rho : Nat) (neg : Bool) (m : Nat) (e : Int) : Int × Bool :=
  let (q, ix) := roundGrid neg m e 0 mode rho
  (sig neg q, ix)

/-- Scale-free conversion to an integer range (R43): NV alone for a NaN, an infinity or a value outside. -/
def toIntRange (lo hi : Int) (mode : RMode) (rho : Nat) : Fv → Int × Flags
  | .nan _ => (0, fNV)
  | .inf neg => (if neg then lo else hi, fNV)
  | .num neg m e =>
    let (i, ix) := roundInt mode rho neg m e
    if i < lo then (lo, fNV) else if hi < i then (hi, fNV) else (i, if ix then fNX else 0)

/-- One draw of the generator (R41): the new `rsseed` and the 24-bit draw. -/
def draw (seed : W64) : W64 × Nat :=
  let s0 : W64 := if seed = 0 then 0x9E3779B97F4A7C15 else seed
  let s1 := s0 ^^^ (s0 <<< 13)
  let s2 := s1 ^^^ (s1 >>> 7)
  let s3 := s2 ^^^ (s2 <<< 17)
  (s3, (s3 >>> 40).toNat)

/-- The draws of `n` elements in order, for the positions that take one (R41). -/
def draws (seed : W64) : List Bool → W64 × List Nat
  | [] => (seed, [])
  | b :: bs =>
    if b then
      let (s, r) := draw seed
      let (s', rs) := draws s bs
      (s', r :: rs)
    else
      let (s', rs) := draws seed bs
      (s', 0 :: rs)

/-! ## Element formats of a slot (R71) -/

/-- The width in bits of an element format code (R22, R71). -/
def fmtWidth : Nat → Nat
  | 0 => 32 | 1 => 16 | 2 => 16 | 3 => 8 | 4 => 8 | 5 => 6 | 6 => 6 | 7 => 4
  | 8 => 8 | 9 => 4 | 10 => 8 | 11 => 4 | _ => 32
/-- The floating format of a code, if it is one. -/
def fmtFloat : Nat → Option FFmt
  | 0 => some .fp32 | 1 => some .fp16 | 2 => some .bf16 | 3 => some .f8a | 4 => some .f8b
  | 5 => some .f6a | 6 => some .f6b | 7 => some .f4 | _ => none
/-- Whether a code is one of the five narrow floating formats. -/
def fmtNarrow (c : Nat) : Bool := 3 ≤ c && c ≤ 7
/-- The range of an integer format (R31). -/
def fmtRange : Nat → Int × Int
  | 8 => (-128, 127) | 9 => (-8, 7) | 10 => (0, 255) | 11 => (0, 15) | _ => (-2147483648, 2147483647)
/-- The elements per 256-byte row (R32). -/
def fmtPerRow (c : Nat) : Nat := if fmtWidth c = 6 then 320 else 2048 / fmtWidth c

/-- The exact value of an element code (R22). -/
def fmtDec (c : Nat) (x : Nat) : Fv :=
  match fmtFloat c with
  | some f => f.dec x
  | none =>
    let w := fmtWidth c
    let x := x % 2 ^ w
    if c == 10 || c == 11 then .num false x 0
    else if x < 2 ^ (w - 1) then .num false x 0 else .num true (2 ^ w - x) 0

/-- The scale of an S9 code (R33): an exponent, or none for NaN. -/
def s9 (c : Nat) : Option Int := if c % 512 == 511 then none else some ((c % 512 : Nat) - 256)

/-- maxfin of a format as significand and exponent (R26, R31, R35). -/
def fmtMax (c : Nat) : Nat × Int :=
  match fmtFloat c with
  | some f => (2 ^ (f.fb + 1) - 1, f.gmax)
  | none => ((fmtRange c).2.toNat, 0)

/-- ceil(log2(m 2^e / (n 2^k))), exactly (R35): the smallest t with m 2^e at most n 2^(k + t). -/
def ceilLog2 (m : Nat) (e : Int) (n : Nat) (k : Int) : Int :=
  let t0 := (Nat.log2 m : Int) + e - (Nat.log2 n : Int) - k - 1
  let ok (t : Int) : Bool := let d := e - (k + t); if 0 ≤ d then m * 2 ^ d.toNat ≤ n else m ≤ n * 2 ^ (-d).toNat
  if ok t0 then t0 else if ok (t0 + 1) then t0 + 1 else t0 + 2

/-- x's magnitude against y's, for finite numbers. -/
def magLt (m : Nat) (e : Int) (n : Nat) (k : Int) : Bool := decide ((addSig m e (-(n : Int)) k).1 < 0)

/-- The code of a scale tile (R35), over its elements. -/
def s9Choose (c : Nat) (xs : List Fv) : Nat :=
  if xs.any Fv.isNan then 511
  else
    let am := xs.foldl (fun (acc : Nat × Int) x =>
      match x with | .num _ m e => if magLt acc.1 acc.2 m e then (m, e) else acc | _ => acc) (0, 0)
    if am.1 == 0 then (if xs.any Fv.isInf then 510 else 256)
    else
      let (n, k) := fmtMax c
      (max 0 (min 510 (256 + ceilLog2 am.1 am.2 n k))).toNat

/-- One element quantised under a scale (R36): its code and flags. -/
def quantScaled (c : Nat) (scale : Nat) (mode : RMode) (rho : Nat) (x : Fv) : Nat × Flags :=
  match s9 scale with
  | none => (0, x.snan)
  | some sc =>
    match x, fmtFloat c with
    | .nan s, _ => (0, if s then fNV else 0)
    | .inf neg, some f => (f.maxCode neg, fOF ||| fNX)
    | .inf neg, none =>
      let (lo, hi) := fmtRange c
      ((BitVec.ofInt (fmtWidth c) (if neg then max lo (-hi) else hi)).toNat, fOF ||| fNX)
    | .num neg m e, some f => f.roundNum mode rho neg m (e - sc)
    | .num neg m e, none =>
      let (lo, hi) := fmtRange c
      let (i, ix) := roundInt mode rho neg m (e - sc)
      let enc (v : Int) : Nat := (BitVec.ofInt (fmtWidth c) v).toNat
      if i < lo then (enc lo, fOF ||| fNX) else if hi < i then (enc hi, fOF ||| fNX)
      else (enc i, if ix then fNX else 0)

/-- One element quantised under scheme NONE (R43, R44, R45). -/
def quantPlain (c : Nat) (mode : RMode) (rho : Nat) (x : Fv) : Nat × Flags :=
  match fmtFloat c with
  | some f => if fmtNarrow c then f.narrow mode rho x else f.round mode rho x
  | none =>
    let (lo, hi) := fmtRange c
    let (i, fl) := toIntRange lo hi mode rho x
    ((BitVec.ofInt (fmtWidth c) i).toNat, fl)

/-- One element dequantised under a scale code (R37). -/
def dequant (c : Nat) (scale : Nat) (mode : RMode) (rho : Nat) (x : Nat) : W32 × Flags :=
  match s9 scale, fmtDec c x with
  | none, _ => (0x7FC00000, 0)
  | some sc, .num neg m e => to32 mode rho (.num neg m (e + sc)) 0
  | some _, v => to32 mode rho v 0

/-! ## Special functions (R173-R175) -/

/-- Floor of the square root, bit by bit from bit `k` down. -/
def sqrtBits (n : Nat) : Nat → Nat → Nat
  | 0, r => r
  | k + 1, r => let t := r + 2 ^ k; sqrtBits n k (if t * t ≤ n then t else r)

/-- A seed's t 2^-16 2^x as FP32, rounded to nearest on the subnormal grid; where 2^x overflows, infinity with OF and NX; no NX
or UF otherwise (R175). -/
def seedResult (neg : Bool) (t : Nat) (x : Int) : W32 × Flags :=
  if 128 ≤ x then (BitVec.ofNat 32 (FFmt.fp32.infCode neg), fOF ||| fNX)
  else (BitVec.ofNat 32 (FFmt.fp32.roundNum .rn 0 neg t (x - 16)).1, 0)

/-- e and the 12 leading fraction bits of a nonzero number, with its significand made 24 bits long (R175). -/
def seedParts (m : Nat) (e : Int) : Int × Nat :=
  let l := Nat.log2 m
  let f := (m <<< (23 - l)) % 2 ^ 23
  ((l : Int) + e, f >>> 11)

/-- `vrcp.seed` (R173, R175). -/
def rcpSeed (w : W32) : W32 × Flags :=
  match f32 w with
  | .nan s => (0x7FC00000, if s then fNV else 0)
  | .inf n => (BitVec.ofNat 32 (FFmt.fp32.sgn n), 0)
  | .num n m e =>
    if m == 0 then (BitVec.ofNat 32 (FFmt.fp32.infCode n), fDZ)
    else
      let (x, i) := seedParts m e
      let den := 2 * i + 8193
      let num := 2 ^ 29
      let q := num / den
      let r := num % den
      let t := if den < 2 * r || (2 * r == den && q % 2 == 1) then q + 1 else q
      seedResult n t (-x)

/-- `vrsq.seed` (R173, R175). -/
def rsqSeed (w : W32) : W32 × Flags :=
  match f32 w with
  | .nan s => (0x7FC00000, if s then fNV else 0)
  | .inf n => if n then (0x7FC00000, fNV) else (0, 0)
  | .num n m e =>
    if m == 0 then (BitVec.ofNat 32 (FFmt.fp32.infCode n), fDZ)
    else if n then (0x7FC00000, fNV)
    else
      let (x, i) := seedParts m e
      let o := x.emod 2
      let den := (2 * i + 8193) * 2 ^ o.toNat
      let q := sqrtBits (2 ^ 45 / den) 24 0
      let t := if (2 * q + 1) * (2 * q + 1) * den ≤ 4 * 2 ^ 45 then q + 1 else q
      seedResult false t (-((x - o) / 2))

/-- Fixed-point precision of the approximations below. -/
abbrev fpP : Nat := 320

/-- 2^(2^-1), 2^(2^-2), ... in fixed point, rounded down. -/
def rootList : Nat → Nat → List Nat
  | 0, _ => []
  | n + 1, x => let r := sqrtBits (x * 2 ^ fpP) (fpP + 1) 0; r :: rootList n r
/-- One for each bit of a fraction on the FP32 grid. -/
def roots : List Nat := rootList 149 (2 * 2 ^ fpP)

/-- The product of the roots that the bits of `f` (of `k` bits, highest first) select. -/
def rootProd (f k : Nat) : List Nat → Nat → Nat
  | [], acc => acc
  | r :: rs, acc =>
    match k with
    | 0 => acc
    | k + 1 => rootProd f k rs (if f.testBit k then acc * r / 2 ^ fpP else acc)

/-- |m 2^e - n 2^k| is at most 2^b. -/
def within (m : Int) (e : Int) (n : Int) (k : Int) (bd : Int) : Bool :=
  let (d, g) := addSig m e (-n) k
  decide ((addSig (d.natAbs : Int) g (-1) bd).1 ≤ 0)

/-- 2^x for an exact x (R173, R174): exact where 2^x is a number of the grid and x an integer; otherwise the open value
`c` if it lies within 2 ulp, else the value rounded to nearest. -/
def exp2Fv (c : W32) (neg : Bool) (m : Nat) (e : Int) : W32 × Flags :=
  let i : Int := sig neg m
  let n : Int := if 0 ≤ e then i * 2 ^ e.toNat else i / 2 ^ (-e).toNat
  let f : Nat := if 0 ≤ e then 0 else (i % 2 ^ (-e).toNat).toNat
  if 128 ≤ n then (0x7F800000, fOF ||| fNX)
  else if f == 0 && -149 ≤ n then
    let (x, fl) := FFmt.fp32.roundNum .rn 0 false 1 n
    (BitVec.ofNat 32 x, fl)
  else
    let n' := max n (-400)
    -- 2^x lies between v and v + 4096 units of the last place: every root and every product is rounded down once
    let v := rootProd f (-e).toNat roots (2 ^ fpP)
    let ve : Int := n' - fpP
    let ulp : Int := max (n' - 23) (-149)
    let ok := match f32 c with
      | .num false x y => within v ve x y (ulp + 1) && within (v + 4096 : Nat) ve x y (ulp + 1)
      | .inf false => n' == 127 && FFmt.fp32.over v ve
      | _ => false
    let r := if ok then c.toNat else (FFmt.fp32.roundNum .rn 0 false v ve).1
    if r == 0x7F800000 then (0x7F800000, fOF ||| fNX)
    else (BitVec.ofNat 32 r, if r % 2 ^ 31 < 0x00800000 then fUF ||| fNX else fNX)

/-- `vexp2` (R173). -/
def exp2 (w : W32) : W32 × Flags :=
  match f32 w with
  | .nan s => (0x7FC00000, if s then fNV else 0)
  | .inf n => (if n then 0 else 0x7F800000, 0)
  | .num n m e => exp2Fv (Config.exp2Choice w 0) n m e

/-- `vexp2d` (R173, R174): 2^(a - b) with the difference exact; equal operands give 1, infinities as R174 lists. -/
def exp2d (a b : W32) : W32 × Flags :=
  match f32 a, f32 b with
  | .nan s, y => (0x7FC00000, (if s then fNV else 0) ||| y.snan)
  | x, .nan s => (0x7FC00000, (if s then fNV else 0) ||| x.snan)
  | .inf false, .inf false => (0x3F800000, 0)
  | .inf true, .inf true => (0, 0)
  | .inf false, _ => (0x7F800000, 0)
  | .inf true, _ => (0, 0)
  | .num _ _ _, .inf n => (if n then 0x7F800000 else 0, 0)
  | .num n m e, .num p q k =>
    let (d, g) := addSig (sig n m) e (-(sig p q)) k
    exp2Fv (Config.exp2Choice a b) (decide (d < 0)) d.natAbs g

/-- The first `k` bits of log2 of y 2^-256, for y 2^-256 in [1, 2): squaring brings out one bit at a time. -/
def log2Bits : Nat → Nat → Nat → Nat
  | 0, _, acc => acc
  | k + 1, y, acc =>
    let z := y * y / 2 ^ 256
    if 2 ^ 257 ≤ z then log2Bits k (z / 2) (2 * acc + 1) else log2Bits k z (2 * acc)

/-- `vlog2` (R173). -/
def log2 (w : W32) : W32 × Flags :=
  match f32 w with
  | .nan s => (0x7FC00000, if s then fNV else 0)
  | .inf n => if n then (0x7FC00000, fNV) else (0x7F800000, 0)
  | .num n m e =>
    if m == 0 then (0xFF800000, fDZ)
    else if n then (0x7FC00000, fNV)
    else
      let l := Nat.log2 m
      let x : Int := (l : Int) + e
      if m == 2 ^ l then
        let (r, _) := FFmt.fp32.roundNum .rn 0 (decide (x < 0)) x.natAbs 0
        (if x == 0 then 0 else BitVec.ofNat 32 r, 0)
      else
        let y : Int := x * 2 ^ 100 + log2Bits 100 (m * 2 ^ (256 - l)) 0
        let c := Config.log2Choice w
        let bd : Int := if x == 0 || x == -1 then -23 else (Nat.log2 y.natAbs : Int) - 100 - 22
        let ok := match f32 c with
          | .num cn cm ce => within (sig cn cm) ce y (-100) bd && within (sig cn cm) ce (y + 2) (-100) bd
          | _ => false
        (if ok then c else BitVec.ofNat 32 (FFmt.fp32.roundNum .rn 0 (decide (y < 0)) y.natAbs (-100)).1, fNX)

end Sys2Proof.Machine
end

