-- ==== Sys2Proof/Machine/Store.lean ====
section
/-! DEFINITION. Sparse storage: lists of key and value pairs in one canonical form, keys strictly rising. -/
namespace Sys2Proof

/-- A sparse map from numbers: keys strictly rising. -/
abbrev NMap (α : Type) := List (Nat × α)

/-- The value at a key. -/
def NMap.get? {α : Type} : NMap α → Nat → Option α
  | [], _ => none
  | (k, v) :: m, n => if n < k then none else if n = k then some v else NMap.get? m n

/-- Puts a value at a key. -/
def NMap.put {α : Type} : NMap α → Nat → α → NMap α
  | [], n, x => [(n, x)]
  | (k, v) :: m, n, x =>
    if n < k then (n, x) :: (k, v) :: m else if n = k then (n, x) :: m else (k, v) :: NMap.put m n x

/-- Removes a key. -/
def NMap.del {α : Type} : NMap α → Nat → NMap α
  | [], _ => []
  | (k, v) :: m, n => if n < k then (k, v) :: m else if n = k then m else (k, v) :: NMap.del m n

/-- Keys strictly rising. -/
def NMap.wf {α : Type} : NMap α → Bool
  | [] => true
  | [_] => true
  | (a, _) :: (b, w) :: m => a < b && NMap.wf ((b, w) :: m)

/-- Memory: (address, byte) pairs, addresses strictly rising, no entry equal to what an unlisted address reads as. -/
abbrev Memory := List Host.Cell

/-- What an address that the memory does not list reads as. DESIGN CHOICE (log 2): the spec gives memory no contents at
power-on, but for a scratchpad that leaves GATED, which is zero (R399). -/
def Memory.blank : Byte := 0

/-- The byte at an address. -/
def Memory.read (m : Memory) (a : Nat) : Byte :=
  match NMap.get? m a with
  | some b => b
  | none => Memory.blank

/-- Writes the byte at an address, keeping the canonical form. -/
def Memory.write (m : Memory) (a : Nat) (b : Byte) : Memory :=
  if b = Memory.blank then NMap.del m a else NMap.put m a b

/-- The canonical form. -/
def Memory.wf (m : Memory) : Bool := NMap.wf m && m.all (fun c => c.2 != Memory.blank)

/-- The `n` bytes from an address. -/
def Memory.readN (m : Memory) (a : Nat) : Nat → List Byte
  | 0 => []
  | n + 1 => m.read a :: m.readN (a + 1) n

/-- Writes bytes from an address upward. -/
def Memory.writeN (m : Memory) (a : Nat) : List Byte → Memory
  | [] => m
  | b :: bs => Memory.writeN (m.write a b) (a + 1) bs

/-- Reads `n` bytes as a little-endian number (R3). -/
def Memory.readLe (m : Memory) (a n : Nat) : Nat := leNat (m.readN a n)

end Sys2Proof
end

