-- ==== Sys2Proof/Machine/State.lean ====
section
/-! DEFINITION. The state of a VZ-8 module (R10, R51, R263 and the chapters that name storage), the reasons a step can stop,
and the state after reset. Everything is plain data. A location is a number: device physical memory is 0 to 2^40 - 1, the
scratchpad of cluster u starts at 2^40 + u 2^24, the weight SRAM of core c at 2^41 + c 2^22. -/
namespace Sys2Proof.Machine

/-- Why the machine stops for good. -/
inductive Fault where
  /-- Raised by step for any turn but a power-on while the module is OFF (R399): no part of it draws power. Safe. -/
  | moduleOff
  deriving DecidableEq, Repr

/-- Why a turn has no meaning. -/
inductive Refusal where
  /-- Raised by exec's arms for an instruction that has no meaning yet. Safe. -/
  | notModelled (mnemonic : String)
  deriving DecidableEq, Repr

/-- A trap's cause, address, tag, software bit; for a translation fault its `pfinfo` word and the floors its walk has read
(R342); for a fetch its PC (R320); for a refused translation the record it uses up (R348); the sequencers whose pending
UncorrectableData it delivers and clears (R124, R132). -/
structure TrapInfo where
  cause : Byte
  addr : W64 := 0
  tag : BitVec 18 := 0
  sw : Bool := false
  pf : Option W64 := none
  seen : NMap Nat := []
  fetch : Option W64 := none
  refusal : Option (Nat × Nat × Nat) := none
  clears : List SeqId := []
  deriving DecidableEq, Repr

/-- How a sequencer's turn stands in its cycle: alone, outside a cycle of its core; early, while other sequencers of the core may
still act in the cycle; late, when none that could change what it finds is left (R67, R69). -/
inductive Phase where
  | alone
  | early
  | late
  deriving DecidableEq, Repr

/-- A sequencer of a bank of a core; `t` is the serial number of the task it acts for, where that matters. -/
structure Who where
  c : CoreId := 0
  b : BankId := 0
  q : SeqId := 0
  t : Nat := 0
  deriving DecidableEq, Repr

/-! ## Memory ordering (chapter 15) -/

/-- A view (R266): a floor for each word, and an acquired interval for each sequencer, by cluster x 16 + agent index. -/
structure View where
  fl : NMap Nat := []
  iv : NMap W32 := []
  deriving DecidableEq, Repr

/-- A carried view: its parts, each carried by an agent at a scope (R265, R269). -/
structure Part where
  agent : Nat
  scope : Nat
  view : View
  deriving DecidableEq, Repr

/-- A write applied to a word (R263): its value, its writer, the parts it carries, its writer tag; `act` numbers the step that
applied it, which the words of one indivisible write share (R264). -/
structure WRec where
  val : W64
  writer : Nat
  parts : List Part
  tag : Nat × W32 := (0x30, 0)
  act : Nat := 0
  deriving DecidableEq, Repr

/-- The write sequence of a word: the value before the first write (index 0) and the writes, newest first. -/
structure Hist where
  init : W64
  ws : List WRec
  deriving DecidableEq, Repr

/-- What an event does to a flag's counter (R69). -/
inductive FlagOp where
  | arm (v : BitVec 16)
  | post
  | dec
  deriving DecidableEq, Repr

/-- An event that met a flag in the cycle in progress: its agent in the codes of R76, the task it acts for, and the view that
its FLAG step brings (R268). -/
structure FlagEv where
  op : FlagOp
  by_ : Byte
  who : Who := {}
  view : View := {}
  deriving DecidableEq, Repr

/-- A flag: its counter at the start of the cycle (R69), its view FV (R263), who decremented it last in the codes of R76, and
the events of the cycle in progress, which act on the counter at the cycle's end. -/
structure Flag where
  v : BitVec 16 := 0
  fv : View := {}
  last : Byte := 0xFF
  evs : List FlagEv := []
  deriving DecidableEq, Repr

/-- One part of an indivisible write: a word, the bytes written as a mask, and their values in place. -/
structure WPart where
  word : Nat
  mask : Byte
  data : W64
  deriving DecidableEq, Repr

/-- Which command a write belongs to, so that its completion can be told. -/
structure CmdRef where
  core : Nat
  eng : Nat
  id : Nat
  deriving DecidableEq, Repr

/-- A write entry of a store buffer or of an in-flight set (R263). `fill` is the count and owner of a counted fill
(R247), `va` its address and `instrNo` its instruction; `stalled` is the time and the number of a stall at a full directory (R258). `seq`
counts the entries of its agent; `port` is the number below which a release of S awaits the rows of its port (R215); `asked` is the
time at which the holders of a duplicate of its line were told to give it up (R278). -/
structure WEnt where
  agent : Nat
  parts : List WPart
  rel : Bool := false
  scope : Nat := 0
  carried : List Part := []
  tagX : Nat := 0x30
  tagK : W32 := 0
  fill : Option (Nat × Nat) := none
  cmd : Option CmdRef := none
  who : Option Who := none
  stalled : Option (Nat × Nat) := none
  instrNo : Nat := 0
  va : W64 := 0
  seq : Nat := 0
  port : Nat := 0
  asked : Option Nat := none
  deriving DecidableEq, Repr

/-- An agent of the ordering machine (R263), but for N, which its cluster keeps. -/
structure Agent where
  view : View := {}
  pa : Vector View 5 := Vector.replicate 5 {}
  rel : Option (View × Nat) := none
  sb : List WEnt := []
  next : Nat := 0
  deriving DecidableEq, Repr

/-- A message of R273: the completion of command `id` of an engine of a core (0 copy, 2 output stream), from the die of a home
of its writes. -/
structure Msg where
  src : Nat
  dst : Nat
  seqNo : W32
  core : Nat
  eng : Nat
  id : Nat
  deriving DecidableEq, Repr

/-! ## Queues, registers, X pipeline -/

/-- A row of a row queue (R62): header and payload. -/
structure Row where
  hdr : W64
  pay : Payload
  deriving DecidableEq, Repr

/-- A slot of a queue: an entry with the cycle it landed in, or a slot reserved for the instruction `rid` (R88). -/
inductive QSlot where
  | word (v : W64) (landed : Nat)
  | row (r : Row) (landed : Nat)
  | resv (rid : Nat)
  deriving DecidableEq, Repr

/-- A queue, head first, with the counts of R411. -/
structure Queue where
  ents : List QSlot := []
  pushed : W32 := 0
  popped : W32 := 0
  deriving DecidableEq, Repr

/-- Where a scalar result goes (R87); `cnt` is the counter write of `loop`, which keeps its frame active (R113). -/
inductive Dst where
  | s (n : Fin 32)
  | l (n : Fin 4)
  | cnt (n : Fin 4)
  | q (n : Fin 16) (rid : Nat)
  | drop
  deriving DecidableEq, Repr

/-- A pending register write of C, A or S (R98). -/
structure PendW where
  dst : Dst
  v : W64
  deriving DecidableEq, Repr

/-- A loop frame (R113); `born` orders frames by when they started (R114). -/
structure LFrame where
  active : Bool := false
  start : W64 := 0
  stop : W64 := 0
  count : W32 := 0
  born : Nat := 0
  deriving DecidableEq, Repr

/-- One capture of the capture store (R327): a tile, a mask, or a result fixed at issue with its flag planes. -/
inductive Cap where
  | tile (t : Tile)
  | mask (m : Mask)
  | res (t : Tile) (fl : Vector Mask 5)
  deriving DecidableEq, Repr

/-- An X instruction that has issued and not landed, as R326 keeps it: the slots still to pass are `due` minus the slots
passed; scalar sources in the order a, b, d; captures; seed and slot word; reserved slots. -/
structure XEnt where
  i : Instr
  due : Nat
  sv0 : W64 := 0
  sv1 : W64 := 0
  sv2 : W64 := 0
  caps : List Cap := []
  pm : Option Mask := none
  rss : W64 := 0
  slotv : W32 := 0
  rid : Nat := 0
  nres : Nat := 0
  q : Fin 16 := 0
  deriving DecidableEq, Repr

/-- An instruction retained for parity repair (R330): the registers it wrote, its latency (0 for an access whose latency R120 lets
vary), on X its entry with its captures, and its number among those of its bank. -/
structure Ret where
  regs : List (Nat × Nat)
  lat : Nat
  x : Option XEnt := none
  no : Nat := 0
  deriving DecidableEq, Repr

/-- A store of an instruction under way that is still to enter the store buffer (R258): the pieces of a row that it is to read
first, with the row's address, and the entry. -/
structure Todo where
  src : List (Nat × Nat) := []
  srcVa : W64 := 0
  ent : WEnt
  deriving DecidableEq, Repr

/-- One sequencer of a bank (R51). `stall` and `obj` are STATE and OBJ of R329 (with G); `since` is the cycle a flag wait
began; `last` is one more than the cycle of its last issue; `ret` are its last 8 register-writing instructions (R330); `refused` are the recorded refusals: page number, its offset bits and access kind (R348); `unc` is an
UncorrectableData pending for it (R124); `steps` is a debugger's remaining step count (R415); `armed` is the PC of
an instruction whose next issue fires no watchpoint (R416); `hold` is the cycle a parity repair ends (R330);
`want` is the line that a fetch delay waits for (R103); `waitCmd` is the number of the engine work that a waiting
instruction has placed or counts from, and a result that came back; `todo` are the stores that the instruction at `todoAt` has
still to make; `line` is the code line of an instruction that goes on over several turns, from which it is completed (R83); `exiting` is how far C's `exit`
has come, and its trailer mask (R132); `asked` is a line whose duplicates its atomic waits for, with the time at which it asked (R278). -/
structure Seq where
  started : Bool := false
  pc : W64 := 0
  s : Vector W64 32 := Vector.replicate 32 0
  l : Vector W32 4 := Vector.replicate 4 0
  frames : Vector LFrame 4 := Vector.replicate 4 {}
  pend : List PendW := []
  waitRem : W32 := 0
  stall : Nat := 0
  obj : Nat := 0
  objG : Bool := false
  since : Nat := 0
  last : Nat := 0
  ret : List Ret := []
  refused : List (Nat × Nat × Nat) := []
  unc : Bool := false
  steps : Option Nat := none
  armed : Option W64 := none
  hold : Nat := 0
  want : W64 := 0
  waitCmd : Option (Nat × W64) := none
  todo : List Todo := []
  todoAt : W64 := 0
  line : Option (BitVec 512) := none
  exiting : Option (Nat × Nat) := none
  asked : Option (Nat × Nat) := none
  deriving DecidableEq, Repr

/-- An accumulator slot: 64 data bits and POISON [4], NAN [3], PINF [2], NINF [1], SAT [0] (R59). -/
structure ASlot where
  v : W64 := 0
  side : BitVec 5 := 0
  deriving DecidableEq, Repr

/-- A matrix operation, `mmul` or `mrank` (R193, R198); `bad` marks a follow-on whose slot check failed (R153). -/
structure MOp where
  rank : Bool
  rej : Bool
  mte : Bool
  flag : Option (BitVec 5)
  z : Fin 8
  q : Fin 16
  base : W32
  sv : Option Tile
  n : Nat
  nc : Nat
  slot : W32
  bad : Bool
  deriving DecidableEq, Repr

/-- A popped row on its way to the accumulators: tile row, half, whether it contributes, the cycle in which it was popped, and the
columns that have landed (R194, R233). -/
structure PRow where
  j : Nat
  h : Nat
  row : Row
  contributes : Bool
  at_ : Nat
  col : Nat := 0
  deriving DecidableEq, Repr

/-- A loaded weight plane (R154, R192): each slice's values, metadata and parameters as read, and the slot word. -/
structure Plane where
  vals : Vector Payload 64
  info : Vector (BitVec 1024) 64
  par : Vector (BitVec 1024) 64
  slot : W32
  trans : Bool
  sparse : Bool
  deriving DecidableEq, Repr

/-- What the window of an accumulator holds (R390): a popped row with its operation and the plane, or a block that a readout cleared. -/
inductive WinE where
  | row (o : MOp) (plane : Option Plane) (r : PRow)
  | clear (blk : Nat)
  deriving DecidableEq, Repr

/-- An accumulator tile (R59): slots by 64 row + column, listed only when not zero; control word; present vector; status
word 0 and the absent mask of words 1-4 (R201). `winCmds`, `winRows`, `noReplay` and `win` are its command window (R390): how many
commands and rows, and what they did to the slots, in order; `replay` what a replay has still to do (R391). -/
structure Acc where
  slots : NMap ASlot := []
  mode : Bool := false
  anchor : Byte := 0
  present : BitVec 256 := 0
  st0 : W64 := 0
  absent : BitVec 256 := 0
  winCmds : Nat := 0
  winRows : Nat := 0
  noReplay : Bool := false
  win : List WinE := []
  replay : Option (List WinE) := none
  deriving DecidableEq, Repr


/-! ## Engine commands -/

/-- A completion or `.after` flag: cluster flag or not, number. -/
structure FlagRef where
  g : Bool
  n : BitVec 5
  deriving DecidableEq, Repr

/-- An affine descriptor (R145). -/
structure SDesc where
  base : W64
  cnt : Vector W32 4
  str : Vector W32 4
  shp : W64
  tagbase : W32
  pgw : Bool
  el : Nat
  deriving DecidableEq, Repr

/-- A gather descriptor (R148). -/
structure GDesc where
  table : W64
  list : W64
  stride : Nat
  nrows : Nat
  tagbase : W32
  swz : Nat
  pgw : Bool
  rlen : Nat
  dbase : W64
  shp : W64
  cx : Nat
  deriving DecidableEq, Repr

/-- What a copy-engine or output-stream command does (R146, R149, R152, R153, R218). -/
inductive CKind where
  | stream (k : Fin 8) (q : Fin 16) (c : Bool) (d : SDesc)
  | stop (k : Fin 8)
  | gather (q : Fin 16) (sp c : Bool) (d : GDesc) (p n : Nat)
  | gatherq (q : Fin 16) (sp c : Bool) (d : GDesc) (x t : W32)
  | copy (dst src : W64) (bytes rows : Nat) (sstr dstr : W64) (ws c : Bool) (follow : Option (W32 × W32))
  | ostream (k : Fin 8) (q : Fin 16) (d : SDesc)
  | ostop (k : Fin 8)
  deriving DecidableEq, Repr

/-- A counted row that a copy has consumed: its bytes, and which of its 32 words were uncorrectable (R253, R385). -/
structure KRow where
  pay : Payload
  bad : W32
  deriving DecidableEq, Repr

/-- A command of a core engine: its number, its count among those accepted from its bank (R329), its issuer, the view it
carries, its completion flag, its gather group, and the instruction that placed it (R334). -/
structure ECmd where
  i : Instr := .nop
  id : Nat := 0
  nth : W32 := 0
  who : Who
  ctx : BitVec 12
  view : View := {}
  cfl : Option FlagRef := none
  grp : Fin 16 := 0
  kind : CKind
  deriving DecidableEq, Repr

/-- An element or row that an engine has read: what it pushes, whether it is poisoned, out of range, and its tag. -/
structure Held where
  slot : QSlot
  pois : Bool
  oor : Bool
  tag : W32
  deriving DecidableEq, Repr

/-- A started command. `cnts` are its resolved counts; `at` is the number of points done; `left` the list positions of a
gather or words of a copy still to do; `held` the elements read and not yet pushed, oldest first (R224); `kept` the counted
rows it has consumed with their bytes (R253); `tok` the token and address of a fault it waits for, `refused` the address of
a refused one (R351); `ready` when its counts are resolved; `replay` is set while it repeats work
without consuming again (R391); `fin` when all its reads and writes have been made; `far` lists the other dies that are homes of
its writes, `sent` those that have sent their completion message and `got` those whose message is delivered (R273); `stop` when
`ostop` ends it; `wrote` the elements that an output stream has written, oldest first (R390), `top` how many that were before a replay. -/
structure Run where
  cmd : ECmd
  cnts : Vector Nat 4 := Vector.replicate 4 0
  pos : Nat := 0
  left : List Nat := []
  held : List Held := []
  kept : NMap KRow := []
  tok : Option (W64 × W64) := none
  refused : Option W64 := none
  ready : Bool := false
  replay : Bool := false
  fin : Bool := false
  far : List Nat := []
  sent : List Nat := []
  got : List Nat := []
  stop : Bool := false
  wrote : List Held := []
  top : Nat := 0
  deriving DecidableEq, Repr

/-- A stream's or output stream's status (R147, R218). -/
structure StreamSt where
  pushed : W32 := 0
  pois : Bool := false
  fail : Bool := false
  st : BitVec 2 := 0
  q : Fin 16 := 0
  deriving DecidableEq, Repr

/-- A gather group's counters (R151). -/
structure Group where
  out : Nat := 0
  oor : Nat := 0
  pois : Nat := 0
  rows : Nat := 0
  fv : Bool := false
  first : W32 := 0
  deriving DecidableEq, Repr


/-- A matrix command (R184). -/
inductive MKind where
  | op (o : MOp)
  | swap (flag : Option (BitVec 5))
  | zero (z : Fin 8) (slot : W32) (flag : Option (BitVec 5))
  | wload (flag : BitVec 5) (o : Nat) (slot : W32) (t sparse : Bool)
  deriving DecidableEq, Repr

/-- A command in the matrix FIFO, with the instruction that placed it. -/
structure MCmd where
  i : Instr := .nop
  id : Nat := 0
  nth : W32 := 0
  who : Who
  view : View := {}
  kind : MKind
  closed : Bool := false
  deriving DecidableEq, Repr


/-- A started matrix operation (R194); `popAt` and `pops` are the cycle of its last pop and the pops in it (R232), `endAt` the
cycle from which it may be complete (R233). -/
structure MRun where
  i : Instr := .nop
  id : Nat
  nth : W32 := 0
  who : Who
  o : MOp
  recv : Nat := 0
  dup : Nat := 0
  oor : Nat := 0
  pois : Nat := 0
  flg : BitVec 5 := 0
  cfl : Bool := false
  cause : Nat := 0
  closed : Bool := false
  sp : Bool := false
  seen : List Nat := []
  tagPend : Bool := false
  fly : List PRow := []
  popAt : Nat := 0
  pops : Nat := 0
  endAt : Nat := 0
  deriving DecidableEq, Repr

/-- A started `wload` (R154); `again` when it replays after an uncorrectable error (R391). -/
structure WRun where
  id : Nat
  nth : W32 := 0
  who : Who
  flag : BitVec 5
  o : Nat
  slot : W32
  t : Bool
  sparse : Bool
  start : Nat
  again : Bool := false
  deriving DecidableEq, Repr

/-- A combine buffer of a remote port (R216): node, block, byte mask, bytes, cycle of its last merge, the number of its first
row, the issuer, its view and interval at the last merge, the context, the count of its first row (R329). -/
structure CBuf where
  node : BitVec 16
  block : Nat
  mask : BitVec 256
  data : Payload
  merged : Nat
  id : Nat
  who : Who
  ctx : BitVec 12
  view : View
  iv : W32
  nth : W32 := 0
  deriving DecidableEq, Repr

/-- What a release in a remote port waits for and carries (R215): its scope, S's view at issue, the words of S's writes that
were still to perform, and the count below which those writes lie. -/
structure RelHold where
  scope : Nat
  view : View
  words : List Nat
  seq : Nat
  deriving DecidableEq, Repr

/-- A remote request (R372, R379): a masked write of a block, or an atomic. `st` is 0 held in its port, 1 on its way, 2 applied.
`place` is the die at which the request or its reply stands, none while it crosses a module; `asked` as in a write entry (R278); `nth` its
count among the port's commands (R329). -/
structure Req where
  id : Nat
  who : Who
  ctx : BitVec 12
  node : BitVec 16
  dst : Nat
  rseq : W32 := 0
  atomic : Bool
  op : Fin 5 := 0
  w32 : Bool := false
  nr : Bool := true
  q : Fin 16 := 0
  rid : Nat := 0
  addr : Nat
  mask : BitVec 256 := 0
  data : Payload := 0
  y : W64 := 0
  rel : Option RelHold := none
  view : View := {}
  iv : W32 := 0
  st : Nat := 0
  place : Option Nat := none
  reply : W64 := 0
  cause : Option Byte := none
  since : Nat := 0
  asked : Option Nat := none
  nth : W32 := 0
  deriving DecidableEq, Repr

/-- What a parked command will place (R70). -/
inductive PCmd where
  | copyCmd (c : ECmd)
  | outCmd (c : ECmd)
  deriving DecidableEq, Repr

/-- The command, and whether it is one of the output stream engine. -/
def PCmd.cmd : PCmd → ECmd
  | .copyCmd c => c
  | .outCmd c => c
def PCmd.out : PCmd → Bool
  | .copyCmd _ => false
  | .outCmd _ => true

/-- A parked command: its issuer, the flag it waits for, the cycle it parked, the command, whether a zero test has found the flag
0 (R70), and the PC of the instruction that parked it (R420). -/
structure Parked where
  who : Who
  flag : FlagRef
  since : Nat
  cmd : PCmd
  freed : Bool := false
  pc : W64 := 0
  deriving DecidableEq, Repr

/-- An auction descriptor (R203). -/
structure AEDesc where
  score : Nat
  cap : Nat
  pin : Nat
  pout : Nat
  asgn : Nat
  rows : W32
  cols : Nat
  rlim : Nat
  eps : W32
  d : W32
  shp : W64
  deriving DecidableEq, Repr

/-- A run of the assignment engine (R205): its issuer, its view, snapshot and options, its id; once started, its rows
(R203), the copied score rows (none where poisoned), capacities and prices, and a cause found at the start: `fail` a failed
read with its address, `bad` a CAUSE of R208; `out` is its status word once its outputs are written. -/
structure AERun where
  who : Who
  ctx : BitVec 12
  view : View
  desc : AEDesc
  cons : Bool
  cfl : Option FlagRef
  id : BitVec 16
  started : Bool := false
  rows : Nat := 0
  store : List (Option Payload) := []
  caps : List Nat := []
  pins : List W32 := []
  fail : Option (Byte × W64) := none
  bad : Nat := 0
  out : Option W64 := none
  nth : W32 := 0
  tok : Option (W64 × W64) := none
  refused : Option W64 := none
  replay : Bool := false
  deriving DecidableEq, Repr

/-- A lamplighter command (R161); `count` marks the place of an `act.count` among them. -/
inductive LKind where
  | bind (m : Fin 8) (addr : Nat) (w h : Nat)
  | mark (m : Fin 8) (t n : Nat)
  | clear (m : Fin 8) (t n : Nat)
  | list (m : Fin 8) (addr : W64) (shape : W64) (cap : Nat) (clr : Bool) (cfl : Option FlagRef)
  | count (m : Fin 8) (id : Nat)
  deriving DecidableEq, Repr

/-- A lamplighter command, with the cycle it arrived (R162); it leaves the FIFO when it has `started`; `fin` when a list has made its
writes; `far`, `sent` and `got` as in a copy (R273). -/
structure LCmd where
  who : Who
  ctx : BitVec 12
  view : View
  arrived : Nat
  kind : LKind
  nth : W32 := 0
  tok : Option (W64 × W64) := none
  refused : Option W64 := none
  started : Bool := false
  fin : Bool := false
  id : Nat := 0
  far : List Nat := []
  sent : List Nat := []
  got : List Nat := []
  deriving DecidableEq, Repr

/-- A map binding (R161). -/
structure LMap where
  addr : Nat
  w : Nat
  h : Nat
  deriving DecidableEq, Repr

/-! ## Translation -/

/-- A TLB entry (R343): context, level of the leaf, page number at that level, the leaf. -/
structure TlbE where
  ctx : BitVec 12
  lvl : Nat
  page : Nat
  leaf : W64
  deriving DecidableEq, Repr

/-- An outstanding engine fault of a bank's fault list (R351). -/
structure EFault where
  token : W64
  addr : W64
  info : W64
  deriving DecidableEq, Repr

/-! ## Tasks, banks, cores -/

/-- A continuation record as the device holds it (R301, R303): its eight words, its id, its owner (R246), the view its
task starts with (R305), the cycle it entered its queue, and the physical address it was read from; the cycle in which it was
last accepted, with its place among the records of that cycle (R306). -/
structure Rec where
  w : Vector W64 8
  id : W32
  owner : Nat
  view : View := {}
  entered : Nat := 0
  src : W64 := 0
  acc : Nat := 0
  key : Nat := 0
  deriving DecidableEq, Repr

/-- The kind of stop that a task's engines are draining for (R332). -/
inductive Stopping where
  | kill (requeue : Bool)
  | save (tail : Bool)
  deriving DecidableEq, Repr

/-- A waiting `bar` of a bank's C (R127): its scope and instance, the barrier's number there, its arrival index, whether it
differed from the first arrival, its destination, whether the barrier has closed, and its code line (R83). -/
structure BarWait where
  scope : Nat
  inst : Nat
  gen : Nat
  idx : Nat
  mism : Bool
  dst : Dst
  closed : Bool
  line : BitVec 512 := 0
  deriving DecidableEq, Repr

/-- A byte in the constant cache (R74): its window, its address, the sequencer whose load brought it. -/
structure CByte where
  win : Nat
  va : Nat
  q : SeqId
  b : Byte
  deriving DecidableEq, Repr

/-- A context bank (R51). `level` is C's privilege (R319); `frozen` while a trap, stop, save or suspend holds it; `replay`
is the live replay queue and the capture store (R326, R327); `blocked` a fault-blocked state (R349); `fault` the
outstanding trapped fault with its address and kind; `aecfgOld` is the set before the write of cycle `aecfgAt` - 1 (R202); `cwinBy` are the
sequencers that have written a window register (R74); `csrPend` and `fmtPend` the writes of the cycle in progress (R75, R188); `comp` the
composite record of the last freeze (R329); `freedAt` one more than the cycle in which the bank became free (R307); `saveNth` counts the save among the engine's commands (R329); `paddr` the address
of each pending imprecise cause (R325); `wrote` the number of the retained instruction that last wrote a flag or a format slot, and
`nextRet` the number that the next one takes (R330); `pins` the physical addresses of the 4 KiB blocks of the save area that a save in
progress writes (R333, R354). -/
structure Bank where
  task : Option Rec := none
  serial : Nat := 0
  startCycle : Nat := 0
  run : Nat := 0
  seqs : Vector Seq 4 := Vector.replicate 4 {}
  v : Vector Tile 32 := Vector.replicate 32 (Vector.replicate 1024 0)
  m : Vector Mask 8 := Vector.replicate 8 0
  xf : Vector Mask 5 := Vector.replicate 5 0
  slots : Nat := 0
  xpend : List XEnt := []
  z : Vector Acc 8 := Vector.replicate 8 {}
  plane : Option Plane := none
  shadow : Option Plane := none
  q : Vector Queue 16 := Vector.replicate 16 {}
  f : Vector Flag 32 := Vector.replicate 32 {}
  fmt : Vector W32 64 := Vector.replicate 64 0x22
  flog : Vector W64 64 := Vector.replicate 64 0
  flogRead : BitVec 64 := BitVec.allOnes 64
  flogidx : W64 := 0
  cfs : BitVec 5 := 0
  fbase : BitVec 6 := 0
  rsseed : W64 := 0
  qmap : W64 := 0x07BB6666CB638241
  cwin : Vector W64 8 := Vector.replicate 8 0
  cwinBy : Vector (BitVec 4) 8 := Vector.replicate 8 0
  ccache : List (CByte) := []
  stream : Vector StreamSt 8 := Vector.replicate 8 {}
  ostream : Vector StreamSt 8 := Vector.replicate 8 {}
  grp : Vector Group 16 := Vector.replicate 16 {}
  aecfg : Option AEDesc := none
  aecfgOld : Option AEDesc := none
  aecfgAt : Nat := 0
  bar : Option BarWait := none
  barSaved : Option (BarWait × W64) := none
  bornSaved : Vector Nat 4 := Vector.replicate 4 0
  armedSaved : Option W64 := none
  rqEdits : NMap W64 := []
  level : Bool := false
  frozen : Bool := false
  stopping : Option Stopping := none
  suspended : Bool := false
  blocked : Bool := false
  fault : Option (W64 × W64 × Nat) := none
  replay : List XEnt := []
  tvec : W64 := 0
  tfbase : W64 := 0
  savef : Bool := false
  tpend : BitVec 9 := 0
  iaddr : W64 := 0
  iagent : Byte := 0
  icause : Byte := 0
  paddr : Vector W64 9 := Vector.replicate 9 0
  wsrange : W64 := 0
  spwin : W64 := 0
  prcnt : W32 := 0
  ptroot : W64 := 0
  pfinfo : W64 := 0
  faults : List EFault := []
  wpa : Vector W64 4 := Vector.replicate 4 0
  wpc : Vector W64 4 := Vector.replicate 4 0
  pmc : Vector W64 8 := Vector.replicate 8 0
  pmsel : Vector W64 8 := Vector.replicate 8 0
  energy : W64 := 0
  weights : Vector (BitVec 16) 32 := Vector.replicate 32 0
  fseq : Vector W32 7 := Vector.replicate 7 0
  fcause : Vector Byte 7 := Vector.replicate 7 0
  nextRid : Nat := 0
  saveTo : Option (Nat × W32) := none
  saveNth : W32 := 0
  pins : List Nat := []
  csrPend : List (SeqId × Nat × W64) := []
  fmtPend : List (SeqId × Nat × W32) := []
  comp : List W64 := []
  freedAt : Nat := 0
  wrote : NMap Nat := []
  nextRet : Nat := 0
  deriving DecidableEq, Repr

/-- A core: its two banks, which of them is active, and what the banks share. `cyc0` is the cycle its counter counts from, and
the count itself while its die is GATED, whose clocks stand still (R87, R399). `was` is the bank that was active in the cycle in
progress (R310); `scanDue` says that the rotation has come to it and waits for its tasks (R395); `stopReq` a stop that acts at the start of the next cycle, with its cause and sequencer (R410); `tlbOld` are entries that have left
the TLBs while accesses through them are under way (R353). -/
structure Core where
  banks : Vector Bank 2 := Vector.replicate 2 {}
  active : Option BankId := none
  cyc0 : Nat := 0
  icache : NMap (BitVec 512) := []
  istore : List (BitVec 12 × Nat × BitVec 512) := []
  tlb : List TlbE := []
  tlbCopy : List TlbE := []
  tlbOut : List TlbE := []
  tlbOld : List TlbE := []
  copyFifo : List ECmd := []
  copyRun : List Run := []
  outFifo : List ECmd := []
  outRun : List Run := []
  follow : List (Nat × Who × W32 × W32 × Option FlagRef) := []
  mFifo : List MCmd := []
  mRun : List MRun := []
  wRun : Option WRun := none
  bufs : List CBuf := []
  reqs : List Req := []
  rseq : NMap W32 := []
  parked : List Parked := []
  accepted : Vector W32 7 := Vector.replicate 7 0
  activeFrom : Nat := 0
  nextId : Nat := 0
  seqNo : BitVec 16 := 0
  claimed : Bool := false
  stopped : Option W64 := none
  dbgRec : Option W64 := none
  stepping : Bool := false
  fenced : Bool := false
  lastPass : Nat := 0
  ran : List W32 := []
  ranOvf : Bool := false
  scanDue : Bool := false
  testing : Bool := false
  testStart : Nat := 0
  was : Option BankId := none
  stopReq : Option (Byte × SeqId) := none
  engFenced : Vector Bool 4 := Vector.replicate 4 false
  deriving DecidableEq, Repr

/-- A counted row's state (R245): live count, 0 when snuffed; owner (R246). -/
structure Counted where
  n : Nat
  owner : Nat
  deriving DecidableEq, Repr

/-- An open barrier (R127). -/
structure Barrier where
  ctx : BitVec 12
  key : Nat
  gen : Nat
  n : Nat
  sw : Bool
  arrived : Nat
  view : View
  deriving DecidableEq, Repr

/-- A cluster: scratchpad counting and writer tags by 256-byte cell (R246, R263), interval numbers (R275), cluster flags
(R51), the assignment engine (R202), the lamplighter (R161), its open barriers. -/
structure Cluster where
  cells : NMap Counted := []
  tags : NMap (Nat × W32) := []
  ival : Vector W32 16 := Vector.replicate 16 0
  g : Vector Flag 32 := Vector.replicate 32 {}
  aeFifo : List AERun := []
  aeRun : Option AERun := none
  aeCount : BitVec 16 := 0
  aeStatus : Vector (W64 × W64) 4 := Vector.replicate 4 (0, 0)
  maps : Vector (Option LMap) 8 := Vector.replicate 8 none
  lamp : List LCmd := []
  bars : List Barrier := []
  barGen : Nat := 0
  fenced : Bool := false
  deriving DecidableEq, Repr

/-- A count-directory entry (R257): LIVE (resident or spilled) or SNUFFED when the count is 0, with an age, and the value
of the line last written back to memory (R252). -/
structure DirE where
  n : Nat
  owner : Nat
  spilled : Bool
  age : Nat
  home : Payload
  deriving DecidableEq, Repr

/-- The power state of a die (R399). -/
inductive Power where
  | full
  | capped
  | idle
  | gated
  deriving DecidableEq, Repr

/-- A die's trace ring (R420). -/
structure Trace where
  on : Bool := false
  base : W64 := 0
  size : Nat := 0
  stopMode : Bool := false
  kinds : BitVec 15 := 0
  count : Nat := 0
  dropped : Nat := 0
  deriving DecidableEq, Repr

/-- The parameters of a block of R313. -/
structure SchedPar where
  drainth : W32
  killth : W32
  steal : Bool
  blevel : BitVec 4
  bmib : W32
  deriving DecidableEq, Repr

/-- A compute die. `draining` pairs a victim, by its task's serial number, with the newcomer that has claimed its bank, by record id
(R310, R311); `parNext` are parameters that take effect from the next cycle (R313), `traceNext` the trace ring's (R421). -/
structure Die where
  queues : Vector (List Rec) 32 := Vector.replicate 32 []
  rr : Nat := 0
  gen : NMap (BitVec 13) := []
  used : List Nat := []
  draining : List (Nat × Nat) := []
  drainth : W32 := 0
  killth : W32 := 0
  steal : Bool := false
  blevel : BitVec 4 := 0
  bmib : W32 := 0
  idleFrom : Nat := 0
  parNext : Option SchedPar := none
  dir : NMap DirE := []
  dirAge : Nat := 0
  stallNo : Nat := 0
  gang : Vector W64 64 := Vector.replicate 64 0
  bars : List Barrier := []
  barGen : Nat := 0
  power : Power := .full
  cap : BitVec 16 := 0
  cclamp : Bool := false
  tclamp : Bool := false
  mhz : BitVec 16 := 3600
  lastReport : Option Nat := none
  deferred : Bool := false
  trace : Trace := {}
  traceNext : Option Trace := none
  tbskew : W64 := 0
  spareCore : Vector Bool 4 := Vector.replicate 4 true
  spareCluster : Bool := true
  spareSlices : Nat := 8
  sliceFenced : List Nat := []
  rowFenced : List Nat := []
  scanLast : Nat := 0
  deriving DecidableEq, Repr

/-- A flit of a die link (R368, R379). -/
structure Flit where
  num : W32
  req : Nat
  core : Nat
  reply : Bool
  deriving DecidableEq, Repr

/-- An Ulnex port of the module (R375): its next number and its unacknowledged flits; fenced (R386). -/
structure Port where
  nextNum : W32 := 1
  buf : List Flit := []
  fenced : Bool := false
  deriving DecidableEq, Repr

/-- One direction of one UCIe module (R369, R370): lanes in service, next number, unacknowledged flits, how many of them
are on the wire again, next number expected by the receiver, the acknowledgement it owes, retraining. -/
structure Link where
  lanes : Nat := 64
  nextNum : W32 := 1
  buf : List Flit := []
  sent : Nat := 0
  expect : W32 := 1
  owes : Bool := false
  nak : Option W32 := none
  retraining : Bool := false
  deriving DecidableEq, Repr

/-! ## The host side -/

/-- An event (R360): code, status, arguments. -/
structure Event where
  code : Nat
  status : Nat := 0
  args : List W64
  deriving DecidableEq, Repr

/-- An accepted command (R361); `by_` is the agent that wrote it and `view` that agent's view then (R305), `step` how far it has come. -/
structure Cmd where
  seqNo : W32
  op : Nat
  args : Vector W64 7
  by_ : Nat := 0
  view : View := {}
  step : Nat := 0
  deriving DecidableEq, Repr

/-- The host interface (R359-R363). `want` is set while slots are still to be read for a bell, `started` is one more than the
cycle in which the last command started, `cmds` are accepted and not started, `running` started and not complete, `events`
the pending store, `rdata` what the last read of a register returned. -/
structure HostIf where
  en : Bool := false
  cqbase : W64 := 0
  cqlog : BitVec 5 := 0
  eqbase : W64 := 0
  eqlog : BitVec 5 := 0
  stbase : W64 := 0
  cqbell : W32 := 0
  cmdacc : W32 := 0
  cmddone : W32 := 0
  eviss : W32 := 0
  evack : W32 := 0
  boot : W64 := 0
  want : Bool := false
  started : Nat := 0
  cmds : List Cmd := []
  running : List Cmd := []
  events : List Event := []
  rdata : W64 := 0
  deriving DecidableEq, Repr

/-- A context (R366) with its save pool (R333), profile block (R418), and the last bank
flip: its cycle, the header word before it, and the view it carried; `flipPrev` is the view of the flip before, which a reader in the
cycle of the last one has (R283, R284). -/
structure Ctx where
  blk : Vector W64 12
  free : List Nat
  prof : W64 := 0
  flipped : Option (Nat × W64) := none
  flipView : View := {}
  flipPrev : View := {}
  deriving DecidableEq, Repr

/-- A confirm ticket (R396): its producing cores, and those of them that have passed a test since the exit (R397). -/
structure Ticket where
  id : Nat
  corr : W32
  exit : Nat
  cores : List Nat
  passed : List Nat := []
  deriving DecidableEq, Repr

/-- A saved context (R334): the bank as saved, its engine work, its agents, and the values of its cluster flags. -/
structure Saved where
  bank : Bank
  copy : List ECmd
  runs : List Run
  out : List ECmd
  oruns : List Run
  m : List MCmd
  mruns : List MRun
  parked : List Parked
  follow : List (Nat × Who × W32 × W32 × Option FlagRef)
  g : List (Nat × Flag)
  agents : Vector Agent 4
  deriving DecidableEq, Repr

/-- The retention store's image (R403, R404): the commit record, memory with its poison, and the device's state as the loss
sequence left it. `lost` holds RECID, CORR and reason of the first 120 lost tasks, `nlost` counts them all; `now` is the cycle in which
it was taken. -/
structure Image where
  time : W64
  now : Nat
  nlost : Nat
  lost : List (W32 × W32 × Nat)
  digest : BitVec 512
  mem : Memory
  poison : List Nat
  cores : Vector Core 512
  clusters : Vector Cluster 128
  dies : Vector Die 8
  bars : List Barrier
  barGen : Nat
  ctxs : NMap Ctx
  acl : NMap W64
  weights : NMap (Vector (BitVec 16) 32)
  saved : NMap Saved
  saveSeq : W32
  serial : Nat
  host : HostIf
  tickets : List Ticket
  nextTicket : Nat
  fenced : List FUnit
  worn : List FUnit := []
  corrected : NMap Nat
  scrubMin : W32
  rotMs : W32
  corrThreshold : BitVec 16
  rseqDone : NMap W32
  replies : NMap (List (W32 × W64))
  deriving DecidableEq, Repr

/-- The loss sequence's progress (R403). -/
inductive LossStep where
  | none
  | stopped
  | saved
  | written
  | stored
  | hbm
  | committed
  deriving DecidableEq, Repr

/-- A VZ-8 module. `cur` is the sequencer whose turn it is; `agenda` the turns still to come and `choice` the counter of
free values are the model's own (log 1), as are `phase` and `raised`, the precise causes found so far in the cycle of a cluster
(R322, log 9). `tbPart` is the part of a nanosecond that `tb` has still to count (R8). `holders` maps a line to the dies that hold a duplicate
of it (R374). `torn` are the contexts whose teardown has been accepted (R315). `unseen` is the view of a device agent that `agents` does not list.
`eaten` is the last agent to have consumed from a row in the cycle in progress, one more than its code (R249). `peerAsked` is, for a source whose
next request waits for duplicates, when they were asked for (R278); `peerReply` the last answer to a peer, with its source and RSEQ (R372).
`ports` are the Ulnex ports that have been used, by number (R375). `worn` are the units marked lasting, `tests` those under a targeted
test, with the cycle in which it began (R386). A pass of the scrubbers takes `scrubPer` minutes and began at `scrubStart`; `scrubbed` are the
atoms that it has found wrong (R389). `lossTime` is the time base at
the start of the loss sequence (R404); `installed` are the staged images that have booted, by their stages (R406). -/
structure State where
  agenda : List Turn := []
  choice : Nat := 0
  cur : Who := {}
  phase : Phase := .alone
  raised : List (Who × TrapInfo) := []
  now : Nat := 0
  tb : Nat := 0
  tbPart : Nat := 0
  mem : Memory := []
  poison : List Nat := []
  hist : NMap Hist := []
  applied : Nat := 0
  eaten : NMap Nat := []
  holders : NMap Byte := []
  agents : NMap Agent := []
  unseen : View := {}
  flight : List WEnt := []
  msgs : List Msg := []
  msgSent : NMap W32 := []
  msgDone : NMap W32 := []
  cores : Vector Core 512 := Vector.replicate 512 {}
  clusters : Vector Cluster 128 := Vector.replicate 128 {}
  dies : Vector Die 8 := Vector.replicate 8 {}
  links : NMap Link := []
  cuts : NMap Nat := []
  rseqDone : NMap W32 := []
  replies : NMap (List (W32 × W64)) := []
  peerReqs : List PeerReq := []
  peerAsked : NMap Nat := []
  peerReply : Option (Nat × W32 × W64) := none
  ports : NMap Port := []
  bars : List Barrier := []
  barGen : Nat := 0
  host : HostIf := {}
  ctxs : NMap Ctx := []
  torn : List Nat := []
  acl : NMap W64 := []
  weights : NMap (Vector (BitVec 16) 32) := []
  saved : NMap Saved := []
  saveSeq : W32 := 1
  serial : Nat := 0
  fenced : List FUnit := []
  worn : List FUnit := []
  tests : List (FUnit × Option Nat) := []
  corrected : NMap Nat := []
  scrubMin : W32 := 1440
  scrubPer : W32 := 1440
  scrubStart : Nat := 0
  scrubbed : List Nat := []
  rotMs : W32 := 2000
  corrThreshold : BitVec 16 := 1
  tickets : List Ticket := []
  nextTicket : Nat := 0
  off : Bool := false
  booted : Bool := true
  afterPower : Bool := true
  joules : Nat := 3000
  ckptArmed : Bool := false
  loss : LossStep := .none
  lossList : List (W32 × W32 × Nat) := []
  lossTime : W64 := 0
  draft : Option Image := none
  image : Option Image := none
  mr : Vector (BitVec 512) 4 := Vector.replicate 4 0
  svn : Vector Byte 4 := Vector.replicate 4 0
  minSvn : Byte := 0
  staged : Option (List Byte) := none
  installed : NMap (List Byte) := []
  deriving DecidableEq, Repr

/-- The module right after reset: every field at the value the spec states; a field for which it states none at the value
that the assumption log names. Memory lists nothing; no task is resident; every queue is empty. -/
def State.reset : State := {}

end Sys2Proof.Machine
end

