-- ==== Sys2Proof/Machine/Base.lean ====
section
/-! DEFINITION. Named operations over the state: places, what stops an instruction, events and imprecise causes. -/
namespace Sys2Proof.Machine

/-! ## Places -/

/-- Replaces one element of a vector. -/
def vset {α : Type} {n : Nat} (v : Vector α n) (i : Fin n) (x : α) : Vector α n := v.set i.val x i.isLt

/-- The cluster of a core (R15). -/
def cluOf (c : CoreId) : CluId := ⟨c.val / 4, by omega⟩
/-- The die of a core (R15). -/
def dieOf (c : CoreId) : DieId := ⟨c.val / 64, by omega⟩
/-- The die of a cluster (R16). -/
def dieOfClu (u : CluId) : DieId := ⟨u.val / 16, by omega⟩
/-- Core `k` of a cluster. -/
def coreOf (u : CluId) (k : Fin 4) : CoreId := ⟨4 * u.val + k.val, by omega⟩

def State.core (s : State) (c : CoreId) : Core := s.cores.get c
def State.modCore (s : State) (c : CoreId) (f : Core → Core) : State :=
  { s with cores := vset s.cores c (f (s.cores.get c)) }
def State.bank (s : State) (w : Who) : Bank := (s.core w.c).banks.get w.b
def Core.modBank (k : Core) (b : BankId) (f : Bank → Bank) : Core :=
  { k with banks := vset k.banks b (f (k.banks.get b)) }
def State.modBank (s : State) (w : Who) (f : Bank → Bank) : State := s.modCore w.c (·.modBank w.b f)
def State.sq (s : State) (w : Who) : Seq := (s.bank w).seqs.get w.q
def Bank.modSeq (k : Bank) (q : SeqId) (f : Seq → Seq) : Bank :=
  { k with seqs := vset k.seqs q (f (k.seqs.get q)) }
def State.modSeq (s : State) (w : Who) (f : Seq → Seq) : State := s.modBank w (·.modSeq w.q f)
def State.clu (s : State) (u : CluId) : Cluster := s.clusters.get u
def State.modClu (s : State) (u : CluId) (f : Cluster → Cluster) : State :=
  { s with clusters := vset s.clusters u (f (s.clusters.get u)) }
def State.die (s : State) (d : DieId) : Die := s.dies.get d
def State.modDie (s : State) (d : DieId) (f : Die → Die) : State :=
  { s with dies := vset s.dies d (f (s.dies.get d)) }

/-- The sequencer whose turn it is, with the serial number of its task. -/
def State.me (s : State) : Who := { s.cur with t := (s.bank s.cur).serial }
/-- The same bank's sequencer `q`. -/
def Who.seq (w : Who) (q : SeqId) : Who := { w with q := q }
/-- The other bank of a core. -/
def Who.other (w : Who) : Who := { w with b := if w.b = 0 then 1 else 0 }
/-- Whether the task that `w` acts for still holds its bank. -/
def State.alive (s : State) (w : Who) : Bool := (s.bank w).task.isSome && (s.bank w).serial == w.t
/-- The context of a bank's task. -/
def Bank.ctx (k : Bank) : BitVec 12 :=
  match k.task with
  | some r => BitVec.ofNat 12 (r.w.get 3).toNat
  | none => 0
/-- The correlation number of a bank's task (R301). -/
def Bank.corr (k : Bank) : W32 :=
  match k.task with
  | some r => BitVec.ofNat 32 (fld (r.w.get 3) 63 32)
  | none => 0
def Bank.recid (k : Bank) : W32 :=
  match k.task with
  | some r => r.id
  | none => 0

/-- Whether the work of a bank's task stops (R332): it is being killed, or its checkpoint has been taken. -/
def Bank.halting (k : Bank) : Bool :=
  match k.stopping with
  | some (.kill _) => true
  | some (.save _) => k.saveTo.isSome
  | none => false

/-! ## Agents (R263) -/

/-- A sequencer as an agent: one for each sequencer of a core, whichever bank it acts for. -/
def Who.agent (w : Who) : Nat := w.c.val * 16 + w.q.val
/-- An engine of a core: 0 copy, 1 matrix, 2 output stream, 3 remote port. -/
def engAgent (c : CoreId) (e : Nat) : Nat := c.val * 16 + 8 + e
/-- The walker of a TLB of a core, which reads table entries as relaxed loads (R342): 0 the core's, 1 the copy engine's, 2 the
output stream engine's. -/
def tlbAgent (c : CoreId) (i : Nat) : Nat := c.val * 16 + 12 + i % 3
/-- A cluster engine: 0 assignment engine, 1 lamplighter, 2 context-save engine. -/
def cluAgent (u : CluId) (e : Nat) : Nat := 8192 + u.val * 4 + e
/-- The firmware and the device's own actions, at module level. -/
def homeAgent : Nat := 9000
/-- A core of the host die, at module level. -/
def hostAgent (h : Fin 32) : Nat := 9001 + h.val
/-- The peers, outside the module, by their node numbers. -/
def peerAgent : Nat := 9100
def peerOf (node : BitVec 16) : Nat := peerAgent + node.toNat

/-- The cluster that an agent stands in. -/
def agentClu (a : Nat) : Nat := if a < 8192 then a / 64 else (a - 8192) / 4
/-- The place of an agent among those that reach a row's home in one cycle (R249): the sequencers by cluster agent index (R17), then
the engines by the codes of R76, last what comes from outside the cluster. The output stream engine, which R76 gives no code, takes the
vector engine's (log 103). -/
def homeKey (a : Nat) : Nat :=
  if a < 8192 then
    let c := a / 16 % 4
    if a % 16 < 8 then 4 * c + a % 4 else 0x10 + 4 * c + a % 4
  else if a < 9000 then 0x20 + a % 4
  else 0x30
/-- level(a, b) of R265. -/
def level (a b : Nat) : Nat :=
  if a = b then 0
  else if peerAgent ≤ a || peerAgent ≤ b then 4
  else if homeAgent ≤ a || homeAgent ≤ b then 3
  else if a < 8192 && b < 8192 && a / 16 = b / 16 then 0
  else if agentClu a = agentClu b then 1
  else if agentClu a / 16 = agentClu b / 16 then 2
  else 3

/-- A sequencer's cluster agent index (R17). -/
def Who.idx (w : Who) : Nat := (w.c.val % 4) * 4 + w.q.val
/-- The code of a sequencer or engine in R76: `e` is 0 copy, 1 matrix, 2 vector, 3 remote port. -/
def engCode (c : CoreId) (e : Nat) : Byte := BitVec.ofNat 8 (0x10 + 4 * (c.val % 4) + e)

/-! ## Locations -/

/-- The location of a scratchpad byte. -/
def spLoc (u : CluId) (off : Nat) : Nat := 2 ^ 40 + u.val * 2 ^ 24 + off
/-- The location of a weight SRAM byte of a core: slice and byte in it. -/
def wsLoc (c : CoreId) (off : Nat) : Nat := 2 ^ 41 + c.val * 2 ^ 22 + off
/-- Whether a location is scratchpad. -/
def isSp (l : Nat) : Bool := 2 ^ 40 ≤ l && l < 2 ^ 41
/-- The cluster of a scratchpad location. -/
def spClu (l : Nat) : CluId := ⟨(l - 2 ^ 40) / 2 ^ 24 % 128, by omega⟩
/-- The die that owns a device address (R339). -/
def locDie (l : Nat) : DieId := ⟨l / 2 ^ 37 % 8, by omega⟩
/-- The die of a location's home. -/
def homeDie (l : Nat) : DieId :=
  if isSp l then dieOfClu (spClu l)
  else if 2 ^ 41 ≤ l then ⟨(l - 2 ^ 41) / 2 ^ 28 % 8, by omega⟩
  else locDie l

/-! ## What stops an instruction -/

/-- Why an instruction does not take effect now: it is held, with STATE and OBJ of R329; it waits for a code line (R103), or
for the holders of a duplicate of a line (R278); or it traps. -/
inductive Stop where
  | hold (st obj : Nat) (g : Bool)
  | fetch (line : W64)
  | holders (line : Nat)
  | trap (t : TrapInfo)
  deriving DecidableEq, Repr

/-- A computation on the state that may stop without effect. -/
abbrev Act := StateT State (Except Stop)

def raise {α : Type} (cause : Byte) : Act α := throw (.trap { cause := cause })
def raiseAt {α : Type} (cause : Byte) (a : W64) : Act α := throw (.trap { cause := cause, addr := a })
def hold {α : Type} (st : Nat) (obj : Nat := 0) (g : Bool := false) : Act α := throw (.hold st obj g)
/-- Stops with `e` unless the condition holds. -/
def need (p : Bool) (cause : Byte) : Act Unit := if p then pure () else raise cause
def needAt (p : Bool) (cause : Byte) (a : W64) : Act Unit := if p then pure () else raiseAt cause a

/-- The trap causes of R101. -/
abbrev cIllegal : Byte := 0x01
abbrev cNotThis : Byte := 0x02
abbrev cWrongOwner : Byte := 0x03
abbrev cPoolExec : Byte := 0x04
abbrev cChainEnd : Byte := 0x05
abbrev cCodeLine : Byte := 0x06
abbrev cPrivileged : Byte := 0x07
abbrev cPageFault : Byte := 0x08
abbrev cAccess : Byte := 0x09
abbrev cMisaligned : Byte := 0x0A
abbrev cOverrun : Byte := 0x10
abbrev cCountedFull : Byte := 0x12
abbrev cMemModel : Byte := 0x18
abbrev cQueue : Byte := 0x20
abbrev cFlagOvf : Byte := 0x21
abbrev cMatrixTag : Byte := 0x28
abbrev cUncorr : Byte := 0x30
abbrev cBreak : Byte := 0x38
abbrev cStep : Byte := 0x39
abbrev cWatch : Byte := 0x3A
abbrev cPreempt : Byte := 0x40
abbrev cLink : Byte := 0x48

/-- The codes that R101 lists. -/
def isCause (c : Nat) : Bool :=
  [0x01, 0x02, 0x03, 0x04, 0x05, 0x06, 0x07, 0x08, 0x09, 0x0A, 0x10, 0x11, 0x12, 0x18, 0x20, 0x21, 0x28, 0x30, 0x38, 0x39,
    0x3A, 0x40, 0x48].contains c
/-- The precise causes that `trap` accepts (R134). -/
def trapCauseOk (c : Nat) : Bool :=
  (1 ≤ c && c ≤ 0x0A) || c == 0x10 || c == 0x18 || c == 0x20 || (0x38 ≤ c && c ≤ 0x3A)

/-- A fresh free value. -/
def State.fresh (s : State) : W64 × State := (Config.freeValue s.choice, { s with choice := s.choice + 1 })
/-- A fresh choice below `n`; a choice of one takes none. -/
def State.choose (s : State) (n : Nat) : Nat × State :=
  if n ≤ 1 then (0, s) else (Config.loadChoice s.choice % n, { s with choice := s.choice + 1 })

/-! ## Words in vectors and fields -/

/-- Replaces bits `hi` to `lo` of a word. -/
def setFld {n : Nat} (x : BitVec n) (hi lo : Nat) (v : Nat) : BitVec n :=
  let m : Nat := (2 ^ (hi + 1 - lo) - 1) <<< lo
  BitVec.ofNat n ((x.toNat &&& (2 ^ n - 1 - m)) ||| ((v % 2 ^ (hi + 1 - lo)) <<< lo))
/-- The 64-bit value of an instruction's immediate of `n` bits (R85). -/
def sx {n : Nat} (x : BitVec n) : W64 := x.signExtend 64
def zx {n : Nat} (x : BitVec n) : W64 := x.setWidth 64

/-! ## Events and imprecise causes -/

/-- The number of events waiting in the pending store (R362). -/
def State.evWaiting (s : State) : Nat := s.host.events.length
/-- Raises an event (R360, R362). -/
def State.event (s : State) (code : Nat) (args : List W64) (status : Nat := 0) : State :=
  { s with host := { s.host with events := s.host.events ++ [{ code := code, status := status, args := args }] } }

/-- The module time base as an event's TIME. -/
def State.time (s : State) : W64 := BitVec.ofNat 64 s.tb
/-- An ErrorReport (R393) with its first word. -/
def State.errorReport (s : State) (utype cls state unit : Nat) (addr corr recid : W64) : State :=
  s.event 0x0008 [BitVec.ofNat 64 (utype * 2 ^ 56 + cls * 2 ^ 48 + state * 2 ^ 40 + unit), addr, corr, recid, s.time]
/-- An uncorrectable error at a location is consumed by a core (UTYPE 0) or one of its engines (1) for a task (R143, R393). DEDUCED
(log 93): each such read raises a report, and its unit is the one that consumed. -/
def State.consumed (s : State) (w : Who) (utype unit l : Nat) : State :=
  let t := s.alive w
  s.errorReport utype 1 1 unit (BitVec.ofNat 64 l) (if t then (s.bank w).corr.setWidth 64 else 0)
    (if t then (s.bank w).recid.setWidth 64 else 0)

/-- Raises an imprecise cause to C of a task's bank through a `tpend` bit (R101, R331, R329 words 25 and 26); a task that has
ended gets none (R69). UncorrectableData waits for C's next `efence` (R392, R394). -/
def State.imprecise (s : State) (w : Who) (bit : Nat) (cause : Byte) (addr : W64) (agent : Byte) : State :=
  if s.alive w then
    s.modBank w fun k =>
      let k := if k.tpend = 0 then { k with iaddr := addr, iagent := agent, icause := cause } else k
      let k := if k.tpend.getLsbD bit then k else { k with paddr := vset k.paddr ⟨bit % 9, by omega⟩ addr }
      let k := { k with tpend := k.tpend ||| BitVec.ofNat 9 (2 ^ bit) }
      if bit = 8 then k.modSeq 0 fun q => { q with unc := true } else k
  else s

/-- The `tpend` bit of an imprecise cause (R331). -/
def pendBit (cause : Byte) : Nat :=
  if cause = cFlagOvf then 0 else if cause = cCountedFull then 1 else if cause = cMatrixTag then 2
  else if cause = cAccess then 3 else if cause = cOverrun then 4 else if cause = cMemModel then 5
  else if cause = cQueue then 6 else if cause = cLink then 7 else 8
/-- The code of a `tpend` bit. -/
def pendCause (bit : Nat) : Byte :=
  [cFlagOvf, cCountedFull, cMatrixTag, cAccess, cOverrun, cMemModel, cQueue, cLink].getD bit cUncorr

/-! ## Counters (R418) -/

/-- Adds `n` events of a code to the counters that name it and to the energy estimate. -/
def Bank.count (k : Bank) (ev n : Nat) : Bank :=
  { k with
    pmc := Vector.ofFn fun i => if fld (k.pmsel.get i) 4 0 = ev then k.pmc.get i + BitVec.ofNat 64 n else k.pmc.get i
    energy := match k.weights[ev]? with
      | some x => k.energy + BitVec.ofNat 64 (n * x.toNat)
      | none => k.energy }
/-- Counts an event for the bank that a sequencer or command acts for, while its task lives. -/
def State.count (s : State) (w : Who) (ev n : Nat) : State := if (s.bank w).task.isSome then s.modBank w (·.count ev n) else s
/-- Whether a bank observes an event code. -/
def Bank.observes (k : Bank) (ev : Nat) : Bool :=
  k.pmsel.any (fun x => fld x 4 0 == ev) || (match k.weights[ev]? with
    | some x => x != 0
    | none => false)
/-- Counts one access to a location: scratchpad, or L2 and the HBM atoms behind it, whose number is open; and the flits it
sends to another die, whose number is open (R418). -/
def State.touch (s : State) (w : Who) (l : Nat) : State :=
  if isSp l then s.count w 8 1
  else if 2 ^ 41 ≤ l then s
  else
    let s := s.count w 6 1
    let s := if (s.bank w).observes 7 then
        let (n, s) := s.choose 9
        s.count w 7 n
      else s
    if homeDie l != dieOf w.c && (s.bank w).observes 9 then
      let (n, s) := s.choose 4
      s.count w 9 n
    else s

/-- Records an engine's first failed command (R329 words 7-13): engine code, its number, its cause. -/
def State.engFail (s : State) (w : Who) (e : Fin 7) (seqNo : W32) (cause : Byte) : State :=
  s.modBank w fun k =>
    if k.fcause.get e = 0 then
      { k with fcause := vset k.fcause e cause, fseq := vset k.fseq e seqNo }
    else k

end Sys2Proof.Machine
end

