-- ==== Sys2Proof/Machine/Order.lean ====
section
/-! DEFINITION. The ordering machine of chapter 15 over words, and the counted rows of chapter 14. -/
namespace Sys2Proof.Machine

/-! ## Views -/

/-- Joins the second map into the first with `f` where both have a key. -/
def NMap.join {α : Type} (f : α → α → α) (x y : NMap α) : NMap α :=
  y.foldl (fun m kv =>
    match NMap.get? m kv.1 with
    | none => NMap.put m kv.1 kv.2
    | some u => NMap.put m kv.1 (f u kv.2)) x

/-- Intervals compare by signed difference modulo 2^32 (R275). -/
def ivLt (x y : W32) : Bool := (x - y).msb
def ivMax (x y : W32) : W32 := if ivLt x y then y else x
/-- The pointwise maximum of two views (R266). -/
def View.join (x y : View) : View := { fl := NMap.join Nat.max x.fl y.fl, iv := NMap.join ivMax x.iv y.iv }
def View.floor (v : View) (w : Nat) : Nat := (NMap.get? v.fl w).getD 0
def View.int (v : View) (k : Nat) : W32 := (NMap.get? v.iv k).getD 0
def View.setFloor (v : View) (w i : Nat) : View := { v with fl := NMap.put v.fl w i }

def State.agent (s : State) (a : Nat) : Agent := (NMap.get? s.agents a).getD { view := if a < homeAgent then s.unseen else {} }
def State.modAgent (s : State) (a : Nat) (f : Agent → Agent) : State :=
  { s with agents := NMap.put s.agents a (f (s.agent a)) }

/-- N(a) of a cluster sequencer (R275). -/
def State.ival (s : State) (w : Who) : W32 := (s.clu (cluOf w.c)).ival.get ⟨w.idx, by unfold Who.idx; omega⟩
def State.addIval (s : State) (w : Who) (d : W32) : State :=
  s.modClu (cluOf w.c) fun u =>
    { u with ival := vset u.ival ⟨w.idx, by unfold Who.idx; omega⟩ (u.ival.get ⟨w.idx, by unfold Who.idx; omega⟩ + d) }
/-- The key of a sequencer's interval in a view. -/
def Who.ivKey (w : Who) : Nat := (cluOf w.c).val * 16 + w.idx
/-- The view a sequencer carries: its own and its own interval (R266, R275). -/
def State.ownView (s : State) (w : Who) : View :=
  let v := (s.agent w.agent).view
  { v with iv := NMap.put v.iv w.ivKey (s.ival w) }

/-! ## Words -/

/-- The bits of the bytes that a byte mask names. -/
def maskBits (m : Byte) : W64 :=
  BitVec.ofNat 64 ((List.range 8).foldl (fun acc i => if m.getLsbD i then acc + 255 * 2 ^ (8 * i) else acc) 0)
/-- The word with the masked bytes replaced. -/
def overlay (v : W64) (m : Byte) (d : W64) : W64 := (v &&& ~~~ (maskBits m)) ||| (d &&& maskBits m)
/-- The last value of a word (R263): memory holds it. -/
def State.word (s : State) (w : Nat) : W64 := BitVec.ofNat 64 (s.mem.readLe (8 * w) 8)
/-- The number of writes applied to a word, which is the index of the last. -/
def State.lastIdx (s : State) (w : Nat) : Nat :=
  match NMap.get? s.hist w with
  | some h => h.ws.length
  | none => 0
/-- W(w)[i]: the value and, past index 0, the write. -/
def State.nth (s : State) (w i : Nat) : W64 × Option WRec :=
  match NMap.get? s.hist w with
  | none => (s.word w, none)
  | some h =>
    if i = 0 then (h.init, none)
    else match h.ws[h.ws.length - i]? with
      | some r => (r.val, some r)
      | none => (h.init, none)

/-- G of an offset's 2 MiB region by a die's gang table (R357). -/
def gangOf (t : Vector W64 64) (r : Nat) : Bool :=
  match t.toList.find? fun e => e.getLsbD 63 && fld e 15 0 ≤ r && r ≤ fld e 47 32 with
  | some e => e.getLsbD 62
  | none => false
/-- The unit of protection that holds a location, as its first word and its number of words (R357, R384): an atom of device memory,
which has 64 bytes in a ganged region, and 64 bits of a scratchpad or a weight SRAM. -/
def State.unitAt (s : State) (l : Nat) : Nat × Nat :=
  if 2 ^ 40 ≤ l then (l / 8, 1)
  else if gangOf (s.die (locDie l)).gang (l % 2 ^ 37 / 2 ^ 21) then (l / 64 * 8, 8)
  else (l / 32 * 4, 4)
/-- Whether a read of `n` bytes meets an uncorrectable unit (R385). -/
def State.poisoned (s : State) (l n : Nat) : Bool :=
  s.poison != [] && s.poison.any fun w =>
    let u := s.unitAt (8 * w)
    8 * u.1 < l + n && l < 8 * (u.1 + u.2)
/-- A write that covers whole units clears their poison (R385). -/
def State.unpoison (s : State) (l n : Nat) : State :=
  if s.poison = [] then s
  else { s with poison := s.poison.filter fun w =>
    let u := s.unitAt (8 * w)
    !(l ≤ 8 * u.1 && 8 * (u.1 + u.2) ≤ l + n) }

/-- Appends a write to W(w) and to memory (APPLY, R268): its carried view joins that of its writer's previous write to the
word (R269). -/
def State.append (s : State) (writer : Nat) (parts : List Part) (p : WPart) (tag : Nat × W32 := (0x30, 0)) : State :=
  let old := s.word p.word
  let new := overlay old p.mask p.data
  let h := (NMap.get? s.hist p.word).getD { init := old, ws := [] }
  let prev := match h.ws.find? (fun r => r.writer == writer) with
    | some r => r.parts
    | none => []
  { s with
    mem := s.mem.writeN (8 * p.word) (leBytes 8 new.toNat)
    hist := NMap.put s.hist p.word
      { h with ws := { val := new, writer := writer, parts := parts ++ prev, tag := tag, act := s.applied } :: h.ws } }

/-- The writer's own floor after its write. -/
def State.own (s : State) (a w : Nat) : State :=
  s.modAgent a fun g => { g with view := g.view.setFloor w (s.lastIdx w) }

/-- The step that applied a write is over: the next one takes a new number. -/
def State.stepped (s : State) : State := { s with applied := s.applied + 1 }
/-- A write that the device makes itself, applied at once for an agent. -/
def State.put (s : State) (writer : Nat) (parts : List WPart) : State :=
  (parts.foldl (fun s p => (s.append writer [] p).own writer p.word) s).stepped

/-- The part of a word that the first 8 cells write; a cell `none` is a byte left alone. -/
def cellPart (w : Nat) (cs : List (Option Byte)) : WPart :=
  ((cs.take 8).zip (List.range 8)).foldl (fun (p : WPart) x =>
    match x.1 with
    | some b => { p with mask := p.mask ||| BitVec.ofNat 8 (2 ^ x.2), data := p.data ||| BitVec.ofNat 64 (b.toNat * 2 ^ (8 * x.2)) }
    | none => p) { word := w, mask := 0, data := 0 }
/-- The parts of the cells of `n` words from word `w` on. -/
def cellParts : Nat → Nat → List (Option Byte) → List WPart
  | 0, _, _ => []
  | n + 1, w, cs => cellPart w cs :: cellParts n (w + 1) (cs.drop 8)
/-- The parts of `bs` written from location `l` upward. -/
def bytesParts (l : Nat) (bs : List Byte) : List WPart :=
  cellParts ((l % 8 + bs.length + 7) / 8) (l / 8) (List.replicate (l % 8) none ++ bs.map some)
/-- The dies of a mask give up their duplicates of the lines of some words (R374). -/
def State.giveUp (s : State) (ws : List Nat) (m : Byte) : State :=
  { s with holders := ws.foldl (fun h w => match NMap.get? h (w / 32) with
      | none => h
      | some x => if x &&& ~~~ m = 0 then NMap.del h (w / 32) else NMap.put h (w / 32) (x &&& ~~~ m)) s.holders }
/-- Writes bytes for an agent at once, clearing poison: the holders of a duplicate of their lines have given it up before (R278;
log 75). -/
def State.putBytes (s : State) (writer l : Nat) (bs : List Byte) : State :=
  ((s.giveUp ((bytesParts l bs).map (·.word)) 0xFF).put writer (bytesParts l bs)).unpoison l bs.length
/-- The same as one release: the write carries a view (R265). -/
def State.putCarried (s : State) (writer : Nat) (carried : List Part) (l : Nat) (bs : List Byte) : State :=
  let ps := bytesParts l bs
  ((ps.foldl (fun s p => (s.append writer carried p).own writer p.word) (s.giveUp (ps.map (·.word)) 0xFF)).stepped).unpoison l bs.length
/-- The bytes of a payload. -/
def payBytes (p : Payload) : List Byte := leBytes 256 p.toNat
/-- The payload of 256 bytes. -/
def bytesPay (bs : List Byte) : Payload := BitVec.ofNat 2048 (leNat bs)
/-- The 32 parts of a row at a 256-byte aligned location. -/
def rowParts (l : Nat) (p : Payload) : List WPart :=
  (List.range 32).map fun i => { word := l / 8 + i, mask := 0xFF, data := BitVec.ofNat 64 (p.toNat / 2 ^ (64 * i)) }

/-! ## The die links as paths (R11, R371) -/

/-- Dies side by side in the grid of 2 x 4 (R11). -/
def adjacent (x y : DieId) : Bool :=
  x.val / 4 == y.val / 4 && (x.val + 1 == y.val || y.val + 1 == x.val) || x.val % 4 == y.val % 4 && x.val / 4 != y.val / 4
/-- The key of one direction of a module of a pair. -/
def linkKey (l : LinkId) : Nat := (l.src.val * 8 + l.dst.val) * 16 + l.m.val
def State.link (s : State) (l : LinkId) : Link := (NMap.get? s.links (linkKey l)).getD {}
def State.modLink (s : State) (l : LinkId) (f : Link → Link) : State :=
  { s with links := NMap.put s.links (linkKey l) (f (s.link l)) }
/-- The modules of a pair in service, ascending (R370). -/
def State.inService (s : State) (x y : DieId) : List (Fin 16) :=
  (List.finRange 16).filter fun m => (s.link ⟨x, y, m⟩).lanes != 0
/-- A pair that has a module in service. -/
def State.pairUp (s : State) (x y : DieId) : Bool := adjacent x y && s.inService x y != []

/-- The dies from which `y` is reached in at most `n` hops. -/
def State.within (s : State) (y : DieId) : Nat → List DieId
  | 0 => [y]
  | n + 1 =>
    let r := s.within y n
    (List.finRange 8).filter fun x => r.contains x || r.any fun z => s.pairUp x z
/-- Whether a path joins two dies. -/
def State.reach (s : State) (x y : DieId) : Bool := x == y || (s.within y 7).contains x
/-- The fewest hops from `x` to `y`, at most 7. -/
def State.hops (s : State) (x y : DieId) : Nat := (List.range 8).find? (fun n => (s.within y n).contains x) |>.getD 8
/-- The next die on the path of R371: of the neighbours one hop nearer, the lowest. -/
def State.nextHop (s : State) (x y : DieId) : Option DieId :=
  (List.finRange 8).find? fun z => s.pairUp x z && s.hops z y + 1 == s.hops x y
/-- The module of a pair that carries a block (R370, R379). -/
def State.moduleFor (s : State) (x y : DieId) (pa : Nat) : Fin 16 :=
  let m : Fin 16 := ⟨pa / 256 % 16, by omega⟩
  let l := s.inService x y
  if l.contains m then m else l.getD (pa / 256 % 16 % l.length) m
/-- The dies on the path of R371 from `x` to `y`, at most `n` hops on. -/
def State.path (s : State) (x y : DieId) : Nat → List DieId
  | 0 => [x]
  | n + 1 => match s.nextHop x y with
    | some z => x :: s.path z y n
    | none => [x]
/-- Whether the traffic of a block passes from one die to another: a path joins them, and no module that the block takes on it retrains
(R368, R370, R371). -/
def State.carries (s : State) (x y : DieId) (pa : Nat) : Bool :=
  x == y || (s.reach x y && let p := s.path x y 7
    (p.zip (p.drop 1)).all fun h => !(s.link ⟨h.1, h.2, s.moduleFor h.1 h.2 pa⟩).retraining)


/-! ## Homes that stall (R357, R386) -/

/-- The slice that is the home of a device address (R12, R357). -/
def State.sliceOf (s : State) (l : Nat) : Nat :=
  let o := l % 2 ^ 37
  let b := o / 256
  if gangOf (s.die (locDie l)).gang (o / 2 ^ 21) then
    let p := b % 128
    2 * (p % 64) + 128 * (p / 64)
  else b % 256
/-- The HBM row of a device address within its die, in the bits of R393: stack, pseudo-channel, row. The slice gives stack and
pseudo-channel (R12); the upper 32 bytes of a ganged atom lie in the pseudo-channel of the pair's second slice (R357); which
row of the pseudo-channel is open. -/
def State.hbmRowOf (s : State) (l : Nat) : Nat :=
  let o := l % 2 ^ 37
  let up := gangOf (s.die (locDie l)).gang (o / 2 ^ 21) && 32 ≤ o % 64
  (s.sliceOf l + if up then 1 else 0) * 2 ^ 16 + Config.hbmRow l % 2 ^ 16
/-- Whether an access to a location stalls on a fenced slice or row (R386). -/
def State.stalledHome (s : State) (l : Nat) : Bool :=
  if 2 ^ 40 ≤ l then false
  else
    let d := s.die (locDie l)
    (d.sliceFenced != [] && d.sliceFenced.contains (s.sliceOf l)) || (d.rowFenced != [] && d.rowFenced.contains (s.hbmRowOf l))

/-! ## Counted rows (R245-R259) -/

/-- The count of a row: none for UNCOUNTED, 0 for SNUFFED, n for LIVE n; and its owner. -/
def State.row (s : State) (l : Nat) : Option (Nat × Nat) :=
  if isSp l then
    match NMap.get? (s.clu (spClu l)).cells ((l - 2 ^ 40) % 2 ^ 24 / 256) with
    | some k => some (k.n, k.owner)
    | none => none
  else if 2 ^ 41 ≤ l then none
  else match NMap.get? (s.die (locDie l)).dir (l / 256) with
    | some k => some (k.n, k.owner)
    | none => none

def State.rowSnuffed (s : State) (l : Nat) : Bool :=
  match s.row l with
  | some (0, _) => true
  | _ => false
def State.rowLive (s : State) (l : Nat) : Bool :=
  match s.row l with
  | some (0, _) => false
  | some _ => true
  | none => false
/-- The first row among those of `n` bytes from `l` that satisfies `p`. -/
def State.rows (l n : Nat) : List Nat :=
  (List.range ((l % 256 + n + 255) / 256)).map fun i => 256 * (l / 256 + i)

/-- Makes a row UNCOUNTED without touching its bytes. -/
def State.uncount (s : State) (l : Nat) : State :=
  if isSp l then s.modClu (spClu l) fun u => { u with cells := NMap.del u.cells ((l - 2 ^ 40) % 2 ^ 24 / 256) }
  else s.modDie (locDie l) fun d => { d with dir := NMap.del d.dir (l / 256) }

/-- A row's bytes become `p` outside any write: every access to a counted row is performed at its home (R256), so no agent reads
another value of it from then on. -/
def State.resetRow (s : State) (l : Nat) (p : Payload) : State :=
  let s := if p = bytesPay (s.mem.readN (256 * (l / 256)) 256) then s else s.put homeAgent (rowParts (256 * (l / 256)) p)
  let hist := s.hist.map fun (h : Nat × Hist) =>
    if h.1 / 32 = l / 256 then
      let v : W64 := BitVec.ofNat 64 (p.toNat / 2 ^ (64 * (h.1 % 32)))
      let ws := h.2.ws.map fun (r : WRec) => { r with val := v }
      (h.1, Hist.mk v ws)
    else h
  { s with hist := hist }
/-- Drops a line: memory keeps the value last written back (R252, R259). -/
def State.dropLine (s : State) (l : Nat) (e : DirE) : State := s.resetRow l e.home

/-- Releases a row (R259). -/
def State.release (s : State) (l : Nat) : State :=
  if isSp l then s.uncount l
  else match NMap.get? (s.die (locDie l)).dir (l / 256) with
    | none => s
    | some e => (if e.n = 0 then s else s.dropLine l e).uncount l

/-- A cell's bytes become zero in the action of the read that emptied it (R252). -/
def State.zeroRow (s : State) (l : Nat) : State := (s.resetRow l 0).unpoison (256 * (l / 256)) 256
/-- An access to a LIVE line that the L2 has evicted brings it back into its home slice (R257). -/
def State.refetch (s : State) (l : Nat) : State :=
  if 2 ^ 40 ≤ l then s
  else match NMap.get? (s.die (locDie l)).dir (l / 256) with
    | some e => if e.spilled then s.modDie (locDie l) fun d => { d with dir := NMap.put d.dir (l / 256) { e with spilled := false } } else s
    | none => s
/-- One consuming read's decrement of a row (R245, R252): at zero a cell's bytes become zero and a line is dropped. -/
def State.consume (s : State) (l : Nat) : State :=
  if isSp l then
    let k := (l - 2 ^ 40) % 2 ^ 24 / 256
    match NMap.get? (s.clu (spClu l)).cells k with
    | none => s
    | some e =>
      if e.n = 0 then s
      else
        let s := s.modClu (spClu l) fun u => { u with cells := NMap.put u.cells k { e with n := e.n - 1 } }
        if e.n = 1 then s.zeroRow l else s
  else match NMap.get? (s.die (locDie l)).dir (l / 256) with
    | none => s
    | some e =>
      if e.n = 0 then s
      else
        let s := s.modDie (locDie l) fun d =>
          { d with dir := NMap.put d.dir (l / 256) { e with n := e.n - 1, spilled := false } }
        if e.n = 1 then s.dropLine l e else s

/-- Whether a consuming read by an agent comes too early in its cycle: one that R249 places after it has reached the row's home. -/
def State.eatsLate (s : State) (a l : Nat) : Bool := homeKey a + 1 < (NMap.get? s.eaten (l / 256)).getD 0
/-- A consuming read by an agent (R249). -/
def State.eat (s : State) (a l : Nat) : State :=
  let s := s.consume l
  { s with eaten := NMap.put s.eaten (l / 256) (homeKey a + 1) }

/-- The bytes that memory holds of a line that has no directory entry, as last written back: words of its write sequence, an
open choice (R252). -/
def State.writtenBack (s : State) (l : Nat) : Payload × State :=
  (List.range 32).foldl (fun (acc : Payload × State) i =>
    let w := l / 256 * 32 + i
    let (k, s') := acc.2.choose (acc.2.lastIdx w + 1)
    let v := (acc.2.nth w (acc.2.lastIdx w - k)).1
    (acc.1 ||| (v.setWidth 2048 <<< (64 * i)), s')) (0, s)

/-- The most entries of a count directory (R256). -/
abbrev dirSize : Nat := 65536

/-- Room in a directory for one more LIVE line (R257, R258): a free entry or a SNUFFED one. -/
def Die.dirRoom (d : Die) : Bool := d.dir.length < dirSize || d.dir.any (fun e => e.2.n == 0)
/-- Reclaims the oldest SNUFFED entry of a full directory (R257). DESIGN CHOICE (log 101): the oldest is that whose line became LIVE
first. -/
def Die.dirReclaim (d : Die) : Die :=
  if d.dir.length < dirSize then d
  else
    let sn := d.dir.filter (fun e => e.2.n == 0)
    match sn with
    | [] => d
    | e :: es =>
      let o := es.foldl (fun (b : Nat × DirE) x => if x.2.age < b.2.age then x else b) e
      { d with dir := NMap.del d.dir o.1 }

/-- Makes a row LIVE n under an owner, when its home has room (R247, R257). -/
def State.fillRow (s : State) (l n owner : Nat) : State :=
  if isSp l then
    s.modClu (spClu l) fun u => { u with cells := NMap.put u.cells ((l - 2 ^ 40) % 2 ^ 24 / 256) ⟨n, owner⟩ }
  else
    let d := s.die (locDie l)
    match NMap.get? d.dir (l / 256) with
    | some e =>
      if e.n = 0 then
        s.modDie (locDie l) fun d =>
          { d with dir := NMap.put d.dir (l / 256) ⟨n, owner, false, d.dirAge, e.home⟩, dirAge := d.dirAge + 1 }
      else
        s.modDie (locDie l) fun d => { d with dir := NMap.put d.dir (l / 256) { e with n := n, owner := owner, spilled := false } }
    | none =>
      let (h, s) := s.writtenBack l
      s.modDie (locDie l) fun d =>
        let d := d.dirReclaim
        { d with dir := NMap.put d.dir (l / 256) ⟨n, owner, false, d.dirAge, h⟩, dirAge := d.dirAge + 1 }
/-- The fills that are stalled at a die (R258). -/
def State.stallsAt (s : State) (d : DieId) : List WEnt :=
  s.flight.filter fun e => e.stalled.isSome && (match e.parts with
    | p :: _ => locDie (8 * p.word) == d
    | [] => false)
/-- Whether an entry is a fill that must stall: it needs a directory entry, and none is free or others wait for it (R258). -/
def State.mustStall (s : State) (e : WEnt) : Bool :=
  match e.fill, e.parts with
  | some _, p :: _ =>
    let l := 8 * p.word
    !isSp l && (NMap.get? (s.die (locDie l)).dir (l / 256)).isNone &&
      (!(s.die (locDie l)).dirRoom || s.stallsAt (locDie l) != [])
  | _, _ => false

/-! ## Steps (R268-R271) -/

/-- The writes of an agent that are not yet applied, oldest first. -/
def State.mine (s : State) (a : Nat) : List WEnt := s.flight.filter (·.agent == a) ++ (s.agent a).sb
/-- "a is quiet" (R268). -/
def State.quiet (s : State) (a : Nat) : Bool := (s.agent a).sb.isEmpty && s.flight.all (fun e => e.agent != a)
def WEnt.hits (e : WEnt) (w : Nat) : Bool := e.parts.any (·.word == w)

/-- Whether a part reaches an agent that acquires at a scope (R265). -/
def Part.reaches (p : Part) (b t : Nat) : Bool := level p.agent b ≤ p.scope && level p.agent b ≤ t

/-- What a load or an atomic's acquire part does with the views that the write read carries (R270). -/
def State.takeParts (s : State) (a : Nat) (parts : List Part) (acq : Option Nat) : State :=
  if parts = [] then s
  else s.modAgent a fun g =>
    parts.foldl (fun g p =>
      let g := match acq with
        | some t => if p.reaches a t then { g with view := g.view.join p.view } else g
        | none => g
      { g with pa := Vector.ofFn fun t => if p.reaches a t.val then (g.pa.get t).join p.view else g.pa.get t }) g

/-- LOAD of a word (R270). The agent's own writes not yet applied stand over the value; a choice is made among the writes
at or above its floor when they do not supply every byte of `m`. -/
def State.load (s : State) (a w : Nat) (m : Byte) (acq : Option Nat) : W64 × State :=
  let own := (s.mine a).filterMap (fun e => e.parts.find? (·.word == w))
  let cover := own.foldl (fun c p => c ||| p.mask) (0 : Byte)
  let lay (v : W64) : W64 := own.foldl (fun v p => overlay v p.mask p.data) v
  if m &&& ~~~ cover = 0 then (lay 0, s)
  else
    let f := (s.agent a).view.floor w
    let n := s.lastIdx w
    let (k, s) := s.choose (n - f + 1)
    let i := f + k
    let (v, r) := s.nth w i
    let s := if i = 0 then s else s.modAgent a fun g => { g with view := g.view.setFloor w i }
    let s := match r with
      | some r => s.takeParts a r.parts acq
      | none => s
    (lay v, s)

/-- The bytes of a word that an agent's own writes not yet applied supply. -/
def State.ownMask (s : State) (a w : Nat) : Byte :=
  ((s.mine a).filterMap (fun e => e.parts.find? (·.word == w))).foldl (fun c p => c ||| p.mask) 0
/-- The bytes of a word that an access of `n` bytes from `l` takes. -/
def wordMask (l n w : Nat) : Byte :=
  BitVec.ofNat 8 ((List.range 8).foldl (fun (m : Nat) i => if l ≤ 8 * w + i && 8 * w + i < l + n then m + 2 ^ i else m) 0)
/-- Whether an agent's own writes not yet applied supply every byte of an access: it returns those (R270). -/
def State.ownBytes (s : State) (a l n : Nat) : Bool :=
  s.mine a != [] && (List.range ((l % 8 + n + 7) / 8)).all fun i => wordMask l n (l / 8 + i) &&& ~~~ (s.ownMask a (l / 8 + i)) == 0
/-- The index at which a step has written a word. -/
def State.actIdx (s : State) (w t : Nat) : Option Nat :=
  match NMap.get? s.hist w with
  | none => none
  | some h => (h.ws.findIdx? fun r => r.act == t).map fun i => h.ws.length - i
/-- The steps that have written more than one of some words, the first of them first: indivisible writes (R275, R276). -/
def State.sharedActs (s : State) (ws : List Nat) : List Nat :=
  let ts := ws.flatMap fun w => match NMap.get? s.hist w with
    | none => []
    | some h => h.ws.map (·.act)
  (ts.eraseDups.filter fun t => 2 ≤ ts.count t).insertionSort (· ≤ ·)
/-- For each indivisible write to some words that an agent reads together, whether it sees it or not (R276): it sees one that a
floor asks for, and with a write those before it that share a word with it; for the others it is an open choice. Answers the
writes that it sees and those that it does not. -/
def State.seenActs (s : State) (a : Nat) (ws : List Nat) : (List Nat × List Nat) × State :=
  let v := (s.agent a).view
  let ts := s.sharedActs ws
  let meet (t u : Nat) : Bool := ws.any fun w => (s.actIdx w t).isSome && (s.actIdx w u).isSome
  let must := ts.reverse.foldl (fun l t =>
    if ws.any (fun w => match s.actIdx w t with
      | some i => i ≤ v.floor w
      | none => false) || l.any (meet t) then t :: l else l) []
  ts.foldl (fun (acc : (List Nat × List Nat) × State) t =>
    if must.contains t then ((t :: acc.1.1, acc.1.2), acc.2)
    else if acc.1.2.any (meet t) then ((acc.1.1, t :: acc.1.2), acc.2)
    else
      let (k, s) := acc.2.choose 2
      if k = 0 then ((t :: acc.1.1, acc.1.2), s) else ((acc.1.1, t :: acc.1.2), s)) (([], []), s)
/-- LOAD of a word (R270) at an index that lets the agent see some indivisible writes and others not: the agent's own writes stand over
the value, and where they supply all of it the views are unchanged. -/
def State.loadAmong (s : State) (a w : Nat) (x : List Nat × List Nat) (acq : Option Nat) : W64 × State :=
  let lay (v : W64) : W64 := ((s.mine a).filterMap (fun e => e.parts.find? (·.word == w))).foldl (fun v p => overlay v p.mask p.data) v
  if s.ownMask a w = 0xFF then (lay 0, s)
  else
    let lo := (x.1.filterMap (s.actIdx w)).foldl Nat.max ((s.agent a).view.floor w)
    let hi := (x.2.filterMap (s.actIdx w)).foldl (fun m i => Nat.min m (i - 1)) (s.lastIdx w)
    let (k, s) := s.choose (hi - lo + 1)
    let (v, r) := s.nth w (lo + k)
    let s := if lo + k = 0 then s else s.modAgent a fun g => { g with view := g.view.setFloor w (lo + k) }
    let s := match r with
      | some r => s.takeParts a r.parts acq
      | none => s
    (lay v, s)
/-- Loads of the words that one access reads, whatever rows they stand in: each takes any write at or after its floor, but no
indivisible write is seen in part (R270, R276). `near` are words that the access has taken already. -/
def State.loadWords (s : State) (a : Nat) (ws near : List Nat) (acq : Option Nat) : List W64 × State :=
  let (x, s) := s.seenActs a (ws ++ near)
  ws.foldl (fun (acc : List W64 × State) w =>
    let (v, s) := acc.2.loadAmong a w x acq
    (acc.1 ++ [v], s)) ([], s)
/-- The words that hold `n` bytes from `l`. -/
def wordsOf (l n : Nat) : List Nat := (List.range ((l % 8 + n + 7) / 8)).map (l / 8 + ·)
/-- The `n` bytes from `l` of the words that hold them. -/
def cutBytes (l n : Nat) (vs : List W64) : List Byte := ((vs.flatMap fun v => leBytes 8 v.toNat).drop (l % 8)).take n
/-- Loads of bytes by an agent, in one access. -/
def State.loadBytes (s : State) (a l n : Nat) (acq : Option Nat := none) : List Byte × State :=
  let (vs, s) := s.loadWords a (wordsOf l n) [] acq
  (cutBytes l n vs, s)

/-- STORE (R268, R269): appends an entry to the agent's store buffer. A relaxed write of one word may merge into the
youngest entry of that word; whether it does is an open choice. -/
def State.store (s : State) (e : WEnt) : State :=
  let a := e.agent
  let e := { e with seq := (s.agent a).next }
  let s := s.modAgent a fun g => { g with next := g.next + 1 }
  let e := match (s.agent a).rel with
    | some (v, t) => if e.rel then e else { e with carried := [⟨a, t, v⟩] }
    | none => e
  let sb := (s.agent a).sb
  match e.parts with
  | [p] =>
    let young := sb.reverse.findIdx? (fun x => x.hits p.word)
    let ok := !e.rel && e.fill.isNone && (match young with
      | some i => match sb.reverse[i]? with
        | some x => x.parts.length == 1 && x.fill.isNone
        | none => false
      | none => false)
    let (c, s) := if ok then s.choose 2 else (0, s)
    match ok && c == 1, young with
    | true, some i =>
      s.modAgent a fun g =>
        { g with sb := (g.sb.reverse.modify i fun x =>
            { x with parts := x.parts.map fun q =>
                { q with mask := q.mask ||| p.mask, data := overlay q.data p.mask p.data } }).reverse }
    | _, _ => s.modAgent a fun g => { g with sb := g.sb ++ [e] }
  | _ => s.modAgent a fun g => { g with sb := g.sb ++ [e] }

/-- Store buffers of C, A and S hold 16 entries, one of which a stalled fill occupies (R258). -/
def State.sbFull (s : State) (a : Nat) : Bool :=
  16 ≤ (s.agent a).sb.length + (s.flight.filter (fun e => e.agent == a && e.stalled.isSome)).length

/-- Whether rows of S numbered below `n` are still in its port (R215). -/
def State.rowsBefore (s : State) (w : Who) (n : Nat) : Bool :=
  (s.core w.c).bufs.any (fun b => b.who.b == w.b && b.who.t == w.t && b.id < n) ||
  (s.core w.c).reqs.any (fun r => !r.atomic && r.st < 2 && r.who.b == w.b && r.who.t == w.t && r.id < n)
/-- Whether DRAIN may take the head of an agent's buffer (R268, R258). -/
def State.canDrain (s : State) (a : Nat) : Bool :=
  match (s.agent a).sb with
  | [] => false
  | e :: _ =>
    (!e.rel || (s.flight.all (fun x => x.agent != a) && (match e.who with
      | some w => !s.rowsBefore w e.port
      | none => true))) && s.flight.all (fun x => !(x.agent == a && x.stalled.isSome))
/-- DRAIN (R268): a release takes the view its writer now carries, with the interval in which the sequencer made it (R275). -/
def State.drainHead (s : State) (a : Nat) : State :=
  match (s.agent a).sb with
  | [] => s
  | e :: es =>
    let v := match e.who with
      | some w => if w.agent = a then { (s.agent a).view with iv := NMap.put (s.agent a).view.iv w.ivKey e.tagK } else (s.agent a).view
      | none => (s.agent a).view
    let e := if e.rel then { e with carried := [⟨a, e.scope, v⟩] } else e
    { s.modAgent a (fun g => { g with sb := es }) with flight := s.flight ++ [e] }

/-- The dies that hold a duplicate of a line among some words (R374), as a mask. -/
def State.heldBy (s : State) (ws : List Nat) : Byte :=
  ws.foldl (fun m w => m ||| ((NMap.get? s.holders (w / 32)).getD 0)) 0
/-- The words that a write touches. -/
def WEnt.words (e : WEnt) : List Nat := e.parts.map (·.word)
/-- The die that an agent stands on. -/
def agentDie (a : Nat) : DieId := ⟨agentClu a / 16 % 8, by omega⟩
/-- Whether two writes of an agent go to one other die, which takes them in the order of their numbers (R372). -/
def WEnt.sameFar (x e : WEnt) : Bool :=
  x.parts.any fun p => homeDie (8 * p.word) != agentDie e.agent && e.parts.any fun q => homeDie (8 * q.word) == homeDie (8 * p.word)
/-- Whether APPLY may take the k-th write in flight (R268): no older write of its agent to a word of it is in flight, none to the same
other die that its home has not taken (R372), and no die holds a duplicate of its lines (R278). -/
def State.canApply (s : State) (k : Nat) : Bool :=
  match s.flight[k]? with
  | none => false
  | some e => (s.flight.take k).all (fun x => x.agent != e.agent || !(x.parts.any fun p => e.hits p.word) && (x.stalled.isSome || !x.sameFar e)) && s.heldBy e.words == 0

/-- The effect of a write on the rows it touches: a fill makes its row LIVE; a store makes a SNUFFED row UNCOUNTED
(R122, R247). -/
def State.writeRows (s : State) (e : WEnt) : State :=
  match e.parts with
  | [] => s
  | p :: _ =>
    match e.fill with
    | some (n, o) => s.fillRow (8 * p.word) n o
    | none => e.parts.foldl (fun s p =>
        if s.rowSnuffed (8 * p.word) then s.uncount (8 * p.word) else s.refetch (8 * p.word)) s

/-- The writer tag of the scratchpad cells that a write touches (R263). -/
def State.tagCells (s : State) (e : WEnt) : State :=
  e.parts.foldl (fun s p =>
    let l := 8 * p.word
    if isSp l then
      s.modClu (spClu l) fun u => { u with tags := NMap.put u.tags ((l - 2 ^ 40) % 2 ^ 24 / 256) (e.tagX, e.tagK) }
    else s) s

/-- Whether a write covers a unit, given as its first word and its number of words: all of them stand whole in it. -/
def WEnt.clears (e : WEnt) (u : Nat × Nat) : Bool :=
  (List.range u.2).all fun i => e.parts.any (fun q => q.word == u.1 + i && q.mask == 0xFF)

/-- APPLY (R268): all the words of an indivisible write in one step. -/
def State.applyEnt (s : State) (e : WEnt) : State :=
  let s := s.writeRows e
  let s := (e.parts.foldl (fun s p => (s.append e.agent e.carried p (e.tagX, e.tagK)).own e.agent p.word) s).stepped
  let s := s.tagCells e
  if s.poison = [] then s else { s with poison := s.poison.filter fun w => !e.clears (s.unitAt (8 * w)) }

/-- Takes the k-th write out of flight and applies it. -/
def State.applyAt (s : State) (k : Nat) : State :=
  match s.flight[k]? with
  | none => s
  | some e => { s with flight := s.flight.eraseIdx k }.applyEnt e

/-- LATEST_t(a) (R271). -/
def State.latest (s : State) (a t : Nat) : NMap Nat :=
  s.hist.filterMap fun kh =>
    let i := kh.2.ws.findIdx? (fun r => level a r.writer ≤ t)
    match i with
    | some i => some (kh.1, kh.2.ws.length - i)
    | none => none
/-- FENCE at a scope (R271). -/
def State.fence (s : State) (a t : Nat) : State :=
  let l := s.latest a t
  s.modAgent a fun g =>
    let pa := match g.pa[t]? with
      | some v => v
      | none => {}
    let v := (g.view.join pa).join { fl := l }
    { g with view := v, rel := some (v, t) }

/-- A command's view: its issuer's, with the interval that the command's writes take (PUSH, R268). -/
def State.pushView (s : State) (w : Who) : View × State :=
  let v := s.ownView w
  ({ v with iv := NMap.put v.iv w.ivKey (s.ival w + 1) }, s.addIval w 2)

/-- The race check of R275 for an access by an agent with view `v` and cluster agent index `x` in a cluster. -/
def State.race (s : State) (v : View) (x : Nat) (l : Nat) : Bool :=
  isSp l && (match NMap.get? (s.clu (spClu l)).tags ((l - 2 ^ 40) % 2 ^ 24 / 256) with
    | none => false
    | some (y, k) => y != x && y < 16 && ivLt (v.int ((spClu l).val * 16 + y)) k)

/-- The core whose weight SRAM holds a location, or the die of its home. -/
def farDie (c : CoreId) (l : Nat) : Bool := homeDie l != dieOf c

end Sys2Proof.Machine
end

