-- ==== Sys2Proof/Machine/Memory.lean ====
section
/-! DEFINITION. Addresses, translation (chapter 23) and a sequencer's own loads and stores (R118, R122). -/
namespace Sys2Proof.Machine

/-! ## Translation -/

/-- The page-offset bits of a leaf at a level (R339). -/
def pageBits : Nat → Nat
  | 0 => 16
  | 1 => 21
  | _ => 30
/-- The index of an address in the table of a level (R339). -/
def tblIndex (va lvl : Nat) : Nat := if lvl = 0 then va / 2 ^ 16 % 32 else va / 2 ^ (21 + 9 * (lvl - 1)) % 512

/-- Fields of a table entry (R340). -/
def pteV (e : W64) : Bool := e.getLsbD 0
def pteLeaf (e : W64) : Bool := e.getLsbD 1
def pteR (e : W64) : Bool := e.getLsbD 2
def pteW (e : W64) : Bool := e.getLsbD 3
def pteX (e : W64) : Bool := e.getLsbD 4
def pteDup (e : W64) : Bool := e.getLsbD 6
def pteOwnH (e : W64) : Bool := e.getLsbD 7
def pteAddr (e : W64) : Nat := fld e 39 8 * 256
/-- Malformed at a level (R340), for an entry with V = 1. -/
def pteBad (e : W64) (lvl : Nat) : Bool :=
  fld e 55 40 != 0 || e.getLsbD 5 ||
  (pteLeaf e && 3 ≤ lvl) || (!pteLeaf e && lvl == 0) ||
  (!pteLeaf e && 2 ≤ lvl && fld e 11 8 != 0) ||
  (pteLeaf e && lvl < 3 && pteAddr e % 2 ^ pageBits lvl != 0)

/-- What each access kind needs of a leaf (R341). -/
def permits (e : W64) (kind : Nat) : Bool :=
  match kind with
  | 0 => pteR e
  | 1 => pteW e
  | 2 => pteX e
  | 3 => pteR e && pteW e
  | 4 => pteR e
  | _ => pteW e && !pteDup e

/-- The `pfinfo` word (R346). -/
def pfWord (kind lvl : Nat) (mig perm mal : Bool) (src : Nat) : W64 :=
  BitVec.ofNat 64 (2 ^ 63 + kind * 2 ^ 13 + lvl * 2 ^ 10 + (if mig then 2 ^ 9 else 0) + (if perm then 2 ^ 8 else 0) +
    (if mal then 2 ^ 7 else 0) + src)

/-- What a walk ends in: a leaf with its level, or a level with no valid entry, or a malformed one (R341); or it waits for a table
whose home no path joins to its die (R11). -/
inductive Walk where
  | leaf (lvl : Nat) (e : W64)
  | absent (lvl : Nat)
  | bad (lvl : Nat)
  | later
  deriving DecidableEq, Repr

/-- The value that a load takes of an uncorrectable location (R122). -/
abbrev badWord : W64 := 0x7FC00BAD
/-- The walk of R341 from the table at `t` by the walker of a TLB; entries are its relaxed loads (R342). DEDUCED (log 103): an
uncorrectable entry reads as a load of it does, and so is malformed. -/
def walk (s : State) (a va : Nat) : Nat → Nat → Walk × State
  | lvl, t =>
    let x := (t + 8 * tblIndex va lvl) / 8 % 2 ^ 37
    let (v, s) := s.load a x 0xFF none
    let e := if s.poisoned (8 * x) 8 then badWord else v
    if !s.carries (agentDie a) (homeDie (8 * x)) (8 * x) then (.later, s)
    else if !pteV e then (.absent lvl, s)
    else if pteBad e lvl then (.bad lvl, s)
    else if pteLeaf e then (.leaf lvl e, s)
    else match lvl with
      | 0 => (.bad 0, s)
      | l + 1 => walk s a va l (pteAddr e)

/-- The entry of a TLB that covers an address of a context (R343). -/
def tlbFind (tlb : List TlbE) (ctx : BitVec 12) (va : Nat) : Option TlbE :=
  tlb.find? fun e => e.ctx == ctx && va / 2 ^ pageBits e.lvl == e.page
/-- Adds an entry; when the TLB is full, an open choice goes (R343). -/
def tlbAdd (tlb : List TlbE) (cap k : Nat) (e : TlbE) : List TlbE :=
  e :: (if cap ≤ tlb.length then tlb.eraseIdx k else tlb)

/-- The TLB of a translating party: 0 the core's, 1 the copy engine's, 2 the output stream engine's (R343). -/
def Core.tlbOf (k : Core) (i : Nat) : List TlbE := if i = 0 then k.tlb else if i = 1 then k.tlbCopy else k.tlbOut
def Core.tlbPut (k : Core) (i : Nat) (t : List TlbE) : Core :=
  if i = 0 then { k with tlb := t } else if i = 1 then { k with tlbCopy := t } else { k with tlbOut := t }
def tlbCap (i : Nat) : Nat := if i = 0 then 1024 else 32

/-- The physical range of an entry's page. -/
def TlbE.range (e : TlbE) : Nat × Nat := (pteAddr e.leaf / 2 ^ pageBits e.lvl * 2 ^ pageBits e.lvl, 2 ^ pageBits e.lvl)
def inRanges (rs : List (Nat × Nat)) (l : Nat) : Bool := rs.any fun r => r.1 ≤ l && l < r.1 + r.2
/-- Whether a store of an instruction under way stands in some physical ranges, or reads there. -/
def Todo.inside (x : Todo) (rs : List (Nat × Nat)) : Bool :=
  x.ent.parts.any (fun p => inRanges rs (8 * p.word)) || x.src.any fun y => inRanges rs y.1
/-- Whether a core or an engine of its cluster still has an access under way to some physical ranges: a write not applied, one that an
instruction is still to make, or a row in its port. -/
def State.underWay (s : State) (c : CoreId) (rs : List (Nat × Nat)) : Bool :=
  ((List.range 16).map (c.val * 16 + ·) ++ (List.range 3).map (cluAgent (cluOf c))).any (fun a =>
    (s.mine a).any fun e => e.parts.any fun p => inRanges rs (8 * p.word)) ||
  (s.core c).banks.any (fun b => b.seqs.any fun q => q.todo.any (·.inside rs)) ||
  (s.core c).bufs.any (fun b => b.node == 0xFFFF && inRanges rs (256 * b.block)) ||
  (s.core c).reqs.any (fun r => r.node == 0xFFFF && r.st < 2 && inRanges rs r.addr)
/-- Remembers a leaf in a TLB. One that makes way for it while an access through it is under way is noted for a shoot-down (R353). -/
def State.tlbKeep (s : State) (c : CoreId) (i : Nat) (e : TlbE) : State :=
  let t := (s.core c).tlbOf i
  if t.length < tlbCap i then s.modCore c fun x => x.tlbPut i (tlbAdd t (tlbCap i) 0 e)
  else
    let (k, s) := s.choose t.length
    let old := (t[k]?).toList.filter fun x => s.underWay c [x.range]
    (s.modCore c fun x => x.tlbPut i (tlbAdd t (tlbCap i) k e)).modCore c fun x => { x with tlbOld := old ++ x.tlbOld }

/-- A die that reads a line of a duplicated page may keep it in a guest way: an open choice (R355, R374). Counted lines are never
held so (R256). A directory that has no free entry reclaims one, whose holders lose it (R374); how many lines it records is not given, so
that any line may make way (log 75). -/
def State.keepDup (s : State) (c : CoreId) (pa : Nat) : State :=
  if homeDie pa = dieOf c || s.fenced.contains (.guest (dieOf c)) || (s.row pa).isSome then s
  else
    let (k, s) := s.choose 2
    let m := (NMap.get? s.holders (pa / 256)).getD 0 ||| BitVec.ofNat 8 (2 ^ (dieOf c).val)
    if k = 0 then s
    else
      let (n, s) := s.choose (s.holders.length + 1)
      let h := if n = 0 then s.holders else s.holders.eraseIdx (n - 1)
      { s with holders := NMap.put h (pa / 256) m }
/-- Translates an address of a context for an access kind, through a party's TLB, the core's and then a walk (R341, R343).
Answers the physical address and whether the page is duplicated, or the cause with its `pfinfo` word; a cause of 0 is a walk that must
wait (R11). -/
def State.translate (s : State) (c : CoreId) (i : Nat) (ctx : BitVec 12) (root : W64) (va kind src : Nat) :
    Except (Byte × W64) (Nat × Bool) × State :=
  let use (lvl : Nat) (e : W64) : Except (Byte × W64) (Nat × Bool) :=
    if pteOwnH e then .error (cPageFault, pfWord kind lvl true false false src)
    else if !permits e kind then .error (cAccess, pfWord kind lvl false true false src)
    else .ok (pteAddr e / 2 ^ pageBits lvl * 2 ^ pageBits lvl + va % 2 ^ pageBits lvl, pteDup e)
  let seen (x : Except (Byte × W64) (Nat × Bool) × State) : Except (Byte × W64) (Nat × Bool) × State :=
    match x with
    | (.ok (pa, true), s) => (.ok (pa, true), if kind = 0 then s.keepDup c pa else s)
    | x => x
  seen <| match tlbFind ((s.core c).tlbOf i) ctx va with
  | some e => (use e.lvl e.leaf, s)
  | none =>
    match (if i = 0 then none else tlbFind (s.core c).tlb ctx va) with
    | some e => (use e.lvl e.leaf, s.tlbKeep c i e)
    | none =>
      match walk s (tlbAgent c i) va 4 (fld root 39 12 * 4096) with
      | (.absent l, s) => (.error (cPageFault, pfWord kind l false false false src), s)
      | (.bad l, s) => (.error (cAccess, pfWord kind l false false true src), s)
      | (.later, s) => (.error (0, 0), s)
      | (.leaf l e, s) =>
        match use l e with
        | .ok r => (.ok r, s.tlbKeep c i ⟨ctx, l, va / 2 ^ pageBits l, e⟩)
        | .error x => (.error x, s)

/-- Translation by the sequencer whose turn it is: a recorded refusal raises AccessViolation in place of the walk (R348). -/
def translate (va : W64) (kind : Nat) : Act Nat := do
  let s ← get
  let w := s.cur
  match (s.sq w).refused.find? (fun r => va.toNat / 2 ^ r.2.1 == r.1 && r.2.2 == kind) with
  | some r => throw (.trap { cause := cAccess, addr := va, refusal := some r })
  | none => pure ()
  match s.translate w.c 0 (s.bank w).ctx (s.bank w).ptroot va.toNat kind w.q.val with
  | (.ok (pa, _), s) => do set s; pure pa
  | (.error (0, _), _) => hold 13
  | (.error (cause, pf), s) =>
    throw (.trap { cause := cause, addr := va, pf := some pf, seen := (s.agent (tlbAgent w.c 0)).view.fl })

/-- Whether a TLB holds a duplicated page for an address: its consuming reads are ordinary reads (R355). -/
def State.dupAt (s : State) (c : CoreId) (i : Nat) (ctx : BitVec 12) (ea : W64) : Bool :=
  match tlbFind ((s.core c).tlbOf i) ctx ea.toNat with
  | some e => pteDup e.leaf
  | none => false

/-- The classes of an effective address (R118). -/
inductive Ea where
  | virt (va : W64)
  | sp (off : Nat)
  | bad
  deriving DecidableEq, Repr

def classify (ea : W64) : Ea :=
  if fld ea 63 57 = 0 then .virt ea
  else if fld ea 63 57 = 64 && fld ea 56 24 = 0 then .sp (fld ea 23 0)
  else .bad

/-- The class of an address (R118), which is checked before its alignment. -/
def classOk (ea : W64) : Act Unit := do
  let s ← get
  match classify ea with
  | .bad => raiseAt cAccess ea
  | .sp _ => needAt (s.cur.q != 0) cAccess ea
  | .virt _ => pure ()
/-- The location of an access of `n` bytes by the sequencer whose turn it is (R118): class, alignment, translation. C may
not address scratchpad. -/
def locate (ea : W64) (n kind : Nat) : Act Nat := do
  let s ← get
  match classify ea with
  | .bad => raiseAt cAccess ea
  | .sp off =>
    needAt (s.cur.q != 0) cAccess ea
    needAt (off % n == 0) cMisaligned ea
    pure (spLoc (cluOf s.cur.c) off)
  | .virt va =>
    needAt (va.toNat % n == 0) cMisaligned ea
    translate va kind

/-! ## A sequencer's own accesses -/

/-- An uncorrectable error at a location is consumed by a sequencer (R124, R393, R394). -/
def State.notes (s : State) (w : Who) (l : Nat) : State :=
  ((s.consumed { w with t := (s.bank w).serial } 0 w.c.val l).modSeq w fun q => { q with unc := true }).modBank w
    fun k => { k with tpend := k.tpend ||| 0x100 }
/-- An uncorrectable error at a location is consumed by the sequencer whose turn it is, which waits while the event store is full
(R362). -/
def noteUnc (l : Nat) : Act Unit := do
  let s ← get
  if 4096 ≤ s.evWaiting then hold 13
  set (s.notes s.cur l)

/-- The `n` low bytes of a word from byte `o`. -/
def extract (v : W64) (o n : Nat) : W64 := BitVec.ofNat 64 (v.toNat / 2 ^ (8 * o) % 2 ^ (8 * n))
/-- The mask of `n` bytes from byte `o`. -/
def byteMask (o n : Nat) : Byte := BitVec.ofNat 8 ((2 ^ n - 1) * 2 ^ o)

/-- The race check of a sequencer's own access (R275). -/
def raceCheck (l : Nat) (ea : W64) : Act Unit := do
  let s ← get
  needAt (!s.race (s.agent s.cur.agent).view s.cur.idx l) cMemModel ea

/-- Whether a watchpoint covers an access of `n` bytes (R416). -/
def watched (a c : W64) (ea n : Nat) (rd wr : Bool) : Bool :=
  let size := 2 ^ fld c 10 5
  let lo := a.toNat / size * size
  ((rd && c.getLsbD 0) || (wr && c.getLsbD 1)) && lo < ea + n && ea < lo + size
/-- The watchpoint check of an access by C, A or S (R416): it does not fire again on the first issue after it fired. -/
def watch (ea : W64) (n : Nat) (rd wr : Bool) : Act Unit := do
  let s ← get
  let k := s.bank s.cur
  let hit := (List.finRange 4).any fun i => watched (k.wpa.get i) (k.wpc.get i) ea.toNat n rd wr
  needAt (!hit || (s.sq s.cur).armed == some (s.sq s.cur).pc) cWatch ea

/-- Whether a consuming read must wait for the agent's own writes (R268): one in its store buffer to the word, or a fill of the
row on its way to the home, whose bytes come with their count (R247). -/
def State.ownFill (s : State) (a l : Nat) : Bool :=
  (s.agent a).sb.any (fun e => e.hits (l / 8)) ||
  (s.mine a).any fun e => e.fill.isSome && e.parts.any fun p => p.word / 32 == l / 256
/-- A scalar load of `n` bytes at a located address (R122, R270): the bytes, unextended. A home that no path joins to the die is
waited for (R11). A plain load that the agent's own pending writes supply reads them, and nothing of the row. -/
def loadAt (l n : Nat) (ea : W64) (consuming : Bool) (acq : Option Nat) : Act W64 := do
  raceCheck l ea
  let s ← get
  let a := s.cur.agent
  let own := !consuming && s.ownBytes a l n
  if consuming && s.ownFill a l then hold 13
  needAt (!s.rowSnuffed l || own) cOverrun ea
  if !own && (s.stalledHome l || !s.carries (dieOf s.cur.c) (homeDie l) l) then hold 13
  if consuming && s.rowLive l && s.eatsLate a l then hold 13
  set ((s.touch s.cur l).refetch l)
  let s ← get
  let v ← (if consuming && s.rowLive l then do
      let v := s.word (l / 8)
      let (_, r) := s.nth (l / 8) (s.lastIdx (l / 8))
      let s := s.own a (l / 8)
      let s := match r with
        | some r => s.takeParts a r.parts acq
        | none => s
      let snuffs := match s.row l with
        | some (1, _) => 1
        | _ => 0
      set ((s.eat a l).count s.cur 12 snuffs)
      pure v
    else do
      let (v, s) := s.load a (l / 8) (byteMask (l % 8) n) acq
      set s
      pure v : Act W64)
  if !own && s.poisoned l n then do
    noteUnc l
    pure (extract badWord 0 n)
  else pure (extract v (l % 8) n)

/-- A scalar load: address, then bytes. A consuming read of a duplicated page is an ordinary read (R355). -/
def loadEa (ea : W64) (n : Nat) (consuming : Bool) (acq : Option Nat) : Act W64 := do
  let l ← locate ea n (if consuming then 4 else 0)
  watch ea n true false
  let s ← get
  loadAt l n ea (consuming && !s.dupAt s.cur.c 0 (s.bank s.cur).ctx ea) acq

/-- Sign extension of the low `n` bytes. -/
def sextBytes (v : W64) (n : Nat) : W64 :=
  if n = 8 then v else ((v.setWidth (8 * n)).signExtend 64)

/-- A store entry of the sequencer whose turn it is. -/
def State.seqEnt (s : State) (parts : List WPart) : WEnt :=
  { agent := s.cur.agent, parts := parts, tagX := s.cur.idx, tagK := s.ival s.cur, who := some s.me,
    port := if s.cur.q = 3 then (s.core s.cur.c).nextId else 0 }

/-- A scalar store of `n` bytes (R122): through the store buffer; a full buffer holds the sequencer (R258). A release takes
the next interval (R268). DESIGN CHOICE (log 101): it waits for the accesses before it in the buffer, a stalled fill among them, and
does not hold its issuer. -/
def storeEa (ea : W64) (n : Nat) (v : W64) (rel : Option Nat) : Act Unit := do
  let l ← locate ea n 1
  watch ea n false true
  raceCheck l ea
  let s ← get
  if s.sbFull s.cur.agent then hold 14
  let s := s.touch s.cur l
  let p : WPart := { word := l / 8, mask := byteMask (l % 8) n, data := BitVec.ofNat 64 (v.toNat * 2 ^ (8 * (l % 8))) }
  let e := s.seqEnt [p]
  match rel with
  | none => set (s.store e)
  | some t => set ((s.store { e with rel := true, scope := t }).addIval s.cur 1)

/-- Whether the remote port of a core still holds a row that S of a bank has sent and that is not yet applied (R215). -/
def State.portBusy (s : State) (w : Who) : Bool :=
  (s.core w.c).bufs.any (fun b => b.who.b == w.b && b.who.t == (s.bank w).serial) ||
  (s.core w.c).reqs.any (fun r => !r.atomic && r.st < 2 && r.who.b == w.b && r.who.t == (s.bank w).serial)
/-- A sequencer's earlier accesses have performed: "quiet" of R268, with the rows that S has sent through its remote port
(R215). -/
def State.quietSeq (s : State) (w : Who) : Bool := s.quiet w.agent && (w.q != 3 || !s.portBusy w)
/-- Waits until the sequencer's earlier accesses have performed (R124, R125, R221). -/
def needQuiet : Act Unit := do
  let s ← get
  if !s.quietSeq s.cur then hold 13

/-- FENCE of a sequencer (R271): REL carries its own interval too. -/
def State.fenceSeq (s : State) (w : Who) (t : Nat) : State :=
  let s := s.fence w.agent t
  let v := s.ownView w
  s.modAgent w.agent fun g => { g with rel := some (v, t) }

/-! ## Atomics (R123, R268) -/

/-- The view a sequencer's write carries at once: a release's own, or REL. -/
def State.carry (s : State) (w : Who) (rel : Option Nat) : List Part :=
  match rel with
  | some t => [⟨w.agent, t, s.ownView w⟩]
  | none => match (s.agent w.agent).rel with
    | some (v, t) => [⟨w.agent, t, v⟩]
    | none => []

/-- One indivisible read-modify-write of `n` bytes at a location (RMW, R268): the old value. -/
def State.rmw (s : State) (w : Who) (l n : Nat) (f : W64 → W64) (acq rel : Option Nat) : W64 × State :=
  let a := w.agent
  let k := l / 8
  let old := extract (s.word k) (l % 8) n
  let (_, r) := s.nth k (s.lastIdx k)
  let s := match r with
    | some r => s.takeParts a r.parts acq
    | none => s
  let p : WPart := { word := k, mask := byteMask (l % 8) n, data := BitVec.ofNat 64 ((f old).toNat % 2 ^ (8 * n) * 2 ^ (8 * (l % 8))) }
  let e : WEnt := { agent := a, parts := [p], tagX := w.idx, tagK := s.ival w }
  let s := (((s.append a (s.carry w rel) p (w.idx, s.ival w)).own a k).tagCells e).stepped
  (old, if rel.isSome then s.addIval w 1 else s)

/-- An atomic of the sequencer whose turn it is at a located address (R123), on the last write at the home (R268); the holders of a
duplicate give it up first (R278). -/
def atomicAt (l n : Nat) (ea : W64) (f : W64 → W64) (acq rel : Option Nat) : Act W64 := do
  raceCheck l ea
  let s ← get
  if (s.agent s.cur.agent).sb.any (fun e => e.hits (l / 8)) then hold 13
  needAt (!s.rowLive l) cAccess ea
  needAt (!s.rowSnuffed l) cOverrun ea
  if rel.isSome then needQuiet
  if s.stalledHome l then hold 13
  if s.heldBy [l / 8] != 0 then throw (.holders (l / 256))
  set (s.touch s.cur l)
  let s ← get
  if s.poisoned l n then do
    noteUnc l
    pure (extract badWord 0 n)
  else do
    let (old, s) := s.rmw s.cur l n f acq rel
    set s
    pure old

end Sys2Proof.Machine
end

