-- ==== Sys2Proof/Machine/Operands.lean ====
section
/-! DEFINITION. Queues (R62-R68), scalar operand fields (R87, R88), window operands (R73, R86) and register results
(R54, R55, R97, R98). -/
namespace Sys2Proof.Machine

/-! ## Queues -/

/-- PROD and CONS of a queue in `qmap` (R63). -/
def prodOf (qmap : W64) (n : Nat) : Nat := qmap.toNat / 2 ^ (4 * n + 2) % 4
def consOf (qmap : W64) (n : Nat) : Nat := qmap.toNat / 2 ^ (4 * n) % 4

/-- A queue holds at most 32 entries, reserved slots included (R62, R88). -/
abbrev queueCap : Nat := 32
def Queue.full (q : Queue) : Bool := queueCap ≤ q.ents.length
def QSlot.visible (now : Nat) : QSlot → Bool
  | .word _ t => t < now
  | .row _ t => t < now
  | .resv _ => false
/-- The entries that a pop sees, head first, up to the first slot not yet visible (R67). -/
def Queue.ready (q : Queue) (now : Nat) : Nat := (q.ents.takeWhile (·.visible now)).length
def Queue.pushWord (q : Queue) (v : W64) (now : Nat) : Queue :=
  { q with ents := q.ents ++ [.word v now], pushed := q.pushed + 1 }
def Queue.pushRow (q : Queue) (r : Row) (now : Nat) : Queue :=
  { q with ents := q.ents ++ [.row r now], pushed := q.pushed + 1 }
def Queue.reserve (q : Queue) (rid : Nat) : Queue := { q with ents := q.ents ++ [.resv rid] }
/-- Fills the first slot reserved under `rid`. -/
def fillSlot (rid : Nat) (x : QSlot) : List QSlot → List QSlot
  | [] => []
  | e :: es => if e = .resv rid then x :: es else e :: fillSlot rid x es
def Queue.fillResv (q : Queue) (rid : Nat) (x : QSlot) : Queue :=
  { q with ents := fillSlot rid x q.ents, pushed := q.pushed + 1 }
/-- Gives reserved slots back without an entry (R109). -/
def Queue.unreserve (q : Queue) (rid : Nat) : Queue := { q with ents := q.ents.filter (· ≠ .resv rid) }
def Queue.drop (q : Queue) (n : Nat) : Queue := { q with ents := q.ents.drop n, popped := q.popped + BitVec.ofNat 32 n }

def Bank.modQ (k : Bank) (n : Fin 16) (f : Queue → Queue) : Bank := { k with q := vset k.q n (f (k.q.get n)) }
def State.modQ (s : State) (w : Who) (n : Fin 16) (f : Queue → Queue) : State := s.modBank w (·.modQ n f)
def State.queue (s : State) (w : Who) (n : Fin 16) : Queue := (s.bank w).q.get n

/-- A command that binds an output stream to a queue. -/
def CKind.binds (x : CKind) (n : Fin 16) : Bool :=
  match x with
  | .ostream _ q _ => q == n
  | _ => false
/-- Whether an output stream of a bank's task is bound to a queue, from its `obind` on (R218). -/
def State.obound (s : State) (w : Who) (n : Fin 16) : Bool :=
  let k := s.core w.c
  let mine (c : ECmd) : Bool := c.who.b == w.b && c.who.t == (s.bank w).serial && c.kind.binds n
  (s.bank w).ostream.any (fun o => o.st == 1 && o.q == n) || k.outFifo.any mine || k.parked.any fun p => mine p.cmd.cmd
/-- A pop of a queue by the sequencer whose turn it is is permitted (R65, R218). -/
def popOk (n : Fin 16) : Act Unit := do
  let s ← get
  let m := (s.bank s.cur).qmap
  need (prodOf m n != consOf m n && consOf m n == s.cur.q.val && !(s.cur.q == 3 && s.obound s.cur n)) cQueue
/-- A push is permitted (R65). -/
def pushOk (n : Fin 16) : Act Unit := do
  let s ← get
  let m := (s.bank s.cur).qmap
  need (prodOf m n != consOf m n && prodOf m n == s.cur.q.val) cQueue

/-- The head word of a word queue. -/
def headWord : List QSlot → W64
  | .word v _ :: _ => v
  | .row r _ :: _ => r.hdr
  | _ => 0
/-- Pops the head word, or holds while the queue is empty (R66). -/
def popWord (n : Fin 16) : Act W64 := do
  let s ← get
  let q := s.queue s.cur n
  if q.ready s.now = 0 then hold 2 n.val
  set (s.modQ s.cur n (·.drop 1))
  pure (headWord q.ents)
/-- Pops `k` rows, or holds until they are present. -/
def popRows (n : Fin 16) (k : Nat) : Act (List Row) := do
  let s ← get
  let q := s.queue s.cur n
  if q.ready s.now < k then hold 2 n.val
  set (s.modQ s.cur n (·.drop k))
  pure ((q.ents.take k).map fun e => match e with
    | .row r _ => r
    | .word v _ => ⟨v, 0⟩
    | .resv _ => ⟨0, 0⟩)
/-- A new number for reserved slots. -/
def newRid : Act Nat := do
  let s ← get
  let r := (s.bank s.cur).nextRid
  set (s.modBank s.cur fun k => { k with nextRid := r + 1 })
  pure r
/-- Reserves `k` tail slots, or holds until they are free (R88, R182). -/
def reserve (n : Fin 16) (k : Nat) : Act Nat := do
  let s ← get
  if queueCap < (s.queue s.cur n).ents.length + k then hold 3 n.val
  let r ← newRid
  modify fun s => (List.range k).foldl (fun s _ => s.modQ s.cur n (·.reserve r)) s
  pure r

/-- Whether a queued or active matrix operation of a bank's task names a row queue (R185). -/
def Core.matrixNames (k : Core) (w : Who) (n : Fin 16) : Bool :=
  let t := (k.banks.get w.b).serial
  k.mFifo.any (fun m => m.who.b == w.b && m.who.t == t && (match m.kind with
    | .op o => o.q == n
    | _ => false)) ||
  k.mRun.any (fun r => r.who.b == w.b && r.who.t == t && r.o.q == n)
/-- A queue that a matrix operation names is not the sequencer's to pop or bind anew (R185). -/
def matrixOk (n : Fin 16) : Act Unit := do
  let s ← get
  need (!(s.core s.cur.c).matrixNames s.cur n) cQueue

/-- Whether a started engine command pushes to a queue that has no room, or pops one that has no entry, for the blocked
bits of R75. -/
def Core.engineBlocked (k : Core) (n : Fin 16) (b : BankId) (pushing empty : Bool) : Bool :=
  if pushing then
    k.copyRun.any fun r => r.held != [] && r.cmd.who.b == b && (match r.cmd.kind with
      | .stream _ q _ _ => q == n
      | .gather q sp _ _ _ _ => q == n && !sp
      | .gatherq q sp _ _ _ _ => q == n && !sp
      | _ => false)
  else
    empty && ((k.outRun.any fun r => r.cmd.who.b == b && (match r.cmd.kind with
      | .ostream _ q _ => q == n
      | _ => false)) || (k.mRun.any fun r => r.who.b == b && r.o.q == n && !r.closed && r.recv < r.o.n))

/-- The entries that have landed in a queue, which are PUSHED less POPPED (R412): a reserved slot is no entry. -/
def Queue.count (q : Queue) : Nat := q.ents.countP fun e => match e with
  | .resv _ => false
  | _ => true
/-- The level byte of a queue (R75). DESIGN CHOICE (log 101): an instruction that waits on two empty queues is blocked on the first
that its check comes to, whose bit alone it sets. -/
def State.levelByte (s : State) (w : Who) (n : Fin 16) : Nat :=
  let k := s.bank w
  let q := k.q.get n
  let blocked (st who : Nat) : Bool := (List.finRange 4).any fun i =>
    i.val == who && (k.seqs.get i).stall == st && (k.seqs.get i).obj == n.val
  let unbound := prodOf k.qmap n == consOf k.qmap n
  let c := !unbound && (blocked 2 (consOf k.qmap n) || (s.core w.c).engineBlocked n w.b false (q.ready s.now == 0))
  let p := !unbound && (blocked 3 (prodOf k.qmap n) || (q.full && (s.core w.c).engineBlocked n w.b true false))
  (if c then 128 else 0) + (if p then 64 else 0) + q.count

/-! ## Operand fields -/

/-- A field that names a queue. -/
def fQueue (f : BitVec 6) : Bool := 32 ≤ f.toNat && f.toNat < 48
/-- The queue of a field 32-47. -/
def fQ (f : BitVec 6) : Fin 16 := ⟨(f.toNat - 32) % 16, by omega⟩
def fS (f : BitVec 6) : Fin 32 := ⟨f.toNat % 32, by omega⟩
def fL (f : BitVec 6) : Fin 4 := ⟨f.toNat % 4, by omega⟩

/-- The queue checks of a source field (R65, R87). -/
def srcOk (f : BitVec 6) : Act Unit :=
  if fQueue f then do
    need (f.toNat < 40) cQueue
    popOk (fQ f)
  else pure ()
/-- The queue checks of a destination field. -/
def dstOk (f : BitVec 6) : Act Unit :=
  if fQueue f then do
    need (f.toNat < 40) cQueue
    pushOk (fQ f)
  else pure ()

/-- Whether a pending write names a register (R98). -/
def Seq.pends (q : Seq) (f : BitVec 6) : Bool :=
  q.pend.any fun p => match p.dst with
    | .s n => f.toNat < 32 && n == fS f
    | .l n => 48 ≤ f.toNat && f.toNat < 52 && n == fL f
    | .cnt n => 48 ≤ f.toNat && f.toNat < 52 && n == fL f
    | _ => false
/-- The interlock of C, A and S: a read of a register whose write is pending waits (R98). -/
def interlock (f : BitVec 6) : Act Unit := do
  let s ← get
  if s.cur.q != 2 && (s.sq s.cur).pends f then hold 9

/-- The bytes from `va` of a window that the constant cache holds for a sequencer (R74). One that has written the window register
reads only bytes that its own loads since brought: an older load of another sequencer may have brought older bytes. -/
def cached (c : List CByte) (own : Bool) (q : SeqId) (win va : Nat) : Nat → Option (List Byte)
  | 0 => some []
  | n + 1 =>
    match c.find? (fun x => x.win == win && x.va == va && (!own || x.q == q)), cached c own q win (va + 1) n with
    | some x, some bs => some (x.b :: bs)
    | _, _ => none
/-- The constant cache takes the bytes that a load of a sequencer brought. -/
def Bank.cacheBytes (k : Bank) (q : SeqId) (win va n : Nat) (v : W64) : Bank :=
  { k with ccache := (List.range n).map (fun j => ⟨win, va + j, q, BitVec.ofNat 8 (v.toNat / 2 ^ (8 * j))⟩) ++
      k.ccache.filter (fun x => !(x.win == win && x.q == q && va ≤ x.va && x.va < va + n)) }

/-- A window operand (R73, R74, R86). A byte that the constant cache holds may be read from it or from memory, an open
choice; a translation is made either way. -/
def windowRead (e : W32) : Act W64 := do
  let s ← get
  let i : Fin 8 := ⟨fld e 31 29 % 8, by omega⟩
  let c := (s.bank s.cur).cwin.get i
  let off := fld e 28 12
  let n := 2 ^ fld e 11 9
  let va : W64 := BitVec.ofNat 64 (fld c 56 8 * 256 + off)
  needAt (c.getLsbD 3 && fld c 7 4 ≤ 9 && off + n ≤ 2 ^ (fld c 7 4 + 8)) cAccess va
  needAt (off % n == 0) cMisaligned va
  let l ← locate va n 0
  let s ← get
  let q := s.cur.q
  let hit := cached (s.bank s.cur).ccache (((s.bank s.cur).cwinBy.get i).getLsbD q.val) q i.val va.toNat n
  let (k, s) := if hit.isSome then s.choose 2 else (0, s)
  set s
  let v ← (match hit, k with
    | some bs, 1 => pure (BitVec.ofNat 64 (leNat bs))
    | _, _ => do
      let v ← loadAt l n va false none
      modify fun s => s.modBank s.cur (·.cacheBytes q i.val va.toNat n v)
      pure v : Act W64)
  pure (if e.getLsbD 8 then sextBytes v n else v)

/-- The cycle counter (R87). -/
def State.cycles (s : State) (c : CoreId) : W64 := BitVec.ofNat 64 (s.now - (s.core c).cyc0)

/-- The value of a source field that names no queue; `win` is the window operand read before (R87). -/
def State.fieldValue (s : State) (win : W64) (f : BitVec 6) : W64 :=
  let w := s.cur
  let n := f.toNat
  if n = 0 then 0
  else if n < 32 then (s.sq w).s.get (fS f)
  else if n < 52 then ((s.sq w).l.get (fL f)).setWidth 64
  else if n = 52 then BitVec.ofNat 64 w.c.val
  else if n = 53 then BitVec.ofNat 64 (cluOf w.c).val
  else if n = 54 then BitVec.ofNat 64 (dieOf w.c).val
  else if n = 55 then BitVec.ofNat 64 w.q.val
  else if n = 56 then s.cycles w.c
  else if n = 57 then (match (s.bank w).task with
    | some r => r.w.get 1
    | none => 0)
  else if n = 58 then (s.bank w).recid.setWidth 64
  else win
/-- Reads a source field: a queue's head is popped (R87). -/
def readField (win : W64) (f : BitVec 6) : Act W64 := do
  if fQueue f then popWord (fQ f)
  else do
    let s ← get
    pure (s.fieldValue win f)

def allOk (p : BitVec 6 → Act Unit) : List (BitVec 6) → Act Unit
  | [] => pure ()
  | f :: fs => do p f; allOk p fs
/-- The window operand of an instruction whose sources name it (R73, R86). -/
def windowOf (e : Option W32) (srcs : List (BitVec 6)) : Act W64 :=
  match srcs.contains 63, e with
  | true, some e => windowRead e
  | _, _ => pure 0
/-- Source values as an instruction's own limits see them (R117): of a queue the entry that the field would pop after the earlier fields
`seen`, none of them popped. It stops where a value is not to be had. -/
def peekFields (win : W64) (seen : List (BitVec 6)) : List (BitVec 6) → Act (List W64)
  | [] => pure []
  | f :: fs => do
    let s ← get
    let q := s.queue s.cur (fQ f)
    let k := seen.countP (· == f)
    if fQueue f && q.ready s.now ≤ k then hold 2 (fQ f).val
    let vs ← peekFields win (f :: seen) fs
    pure ((if fQueue f then headWord (q.ents.drop k) else s.fieldValue win f) :: vs)
/-- The values that `sources` would answer, with nothing popped. -/
def peekSources (e : Option W32) (fs : List (BitVec 6)) : Act (List W64) := do
  allOk srcOk fs
  let win ← windowOf e fs
  allOk interlock fs
  peekFields win [] fs
/-- Of what `x` raises, IllegalInstruction alone, and nothing of what it does: the limits of an entry come before its other checks
(R117, R119). -/
def illegalFirst (x : Act Unit) : Act Unit := fun s =>
  match x s with
  | .error (.trap t) => if t.cause = cIllegal then .error (.trap t) else .ok ((), s)
  | _ => .ok ((), s)
/-- The limits of an entry on its run-time operands (R117). -/
def limits (e : Option W32) (fs : List (BitVec 6)) (ok : List W64 → Bool) : Act Unit :=
  illegalFirst do
    let vs ← peekSources e fs
    need (ok vs) cIllegal

/-- Reads fields in order (R88). -/
def readFields (win : W64) : List (BitVec 6) → Act (List W64)
  | [] => pure []
  | f :: fs => do
    let v ← readField win f
    let vs ← readFields win fs
    pure (v :: vs)

/-- The queue checks of an instruction's fields, then its window operand, then the interlock (R90 check 5, R98), and then
the source values in order, queue heads popped. -/
def sources (e : Option W32) (srcs dsts : List (BitVec 6)) : Act (List W64) := do
  allOk srcOk srcs
  allOk dstOk dsts
  let win ← windowOf e srcs
  allOk interlock srcs
  readFields win srcs

/-- Whether the extension word is a wide immediate: no source field names 63 (R86). -/
def wideImm (e : Option W32) (srcs : List (BitVec 6)) : Option W64 :=
  match e with
  | some e => if srcs.contains 63 then none else some (sx e)
  | none => none

/-- The destination of a field: a queue reserves its tail slot (R88). -/
def destOf (f : BitVec 6) : Act Dst :=
  if f.toNat < 32 then pure (if f.toNat = 0 then .drop else .s (fS f))
  else if f.toNat < 48 then do
    let r ← reserve (fQ f) 1
    pure (.q (fQ f) r)
  else pure (.l (fL f))

/-- The files of R330: the register that a destination names. -/
def Dst.file : Dst → List (Nat × Nat)
  | .s n => [(0, n.val)]
  | .l n => [(1, n.val)]
  | .cnt n => [(1, n.val)]
  | _ => []
/-- The key of a flag or a format slot, which any sequencer of the bank may write (R330). -/
def sharedKey (r : Nat × Nat) : Nat := r.1 * 256 + r.2
/-- Notes who last wrote the flags and the format slots among some registers. -/
def Bank.noteWriter (k : Bank) (no : Nat) (rs : List (Nat × Nat)) : Bank :=
  { k with wrote := (rs.filter (5 ≤ ·.1)).foldl (fun m r => NMap.put m (sharedKey r) no) k.wrote }
/-- The instructions retained for parity repair: the last 8 that wrote registers (R330). -/
def retain (r : List (Nat × Nat)) (lat : Nat) (x : Option XEnt := none) : Act Unit :=
  if r = [] then pure () else modify fun s => s.modBank s.cur fun k =>
    let no := k.nextRet
    { (k.modSeq s.cur.q fun q => { q with ret := (⟨r, lat, x, no⟩ :: q.ret).take 8 }).noteWriter no r with nextRet := no + 1 }

/-- Makes a loop frame inactive (R113, R115). -/
def Seq.endFrame (q : Seq) (c : Fin 4) : Seq :=
  { q with frames := vset q.frames c { q.frames.get c with active := false } }

/-- Writes a register, or fills a reserved queue slot, for a sequencer (R54, R55, R88). -/
def State.landDst (s : State) (w : Who) (d : Dst) (v : W64) : State :=
  match d with
  | .s n => s.modSeq w fun q => { q with s := if n = 0 then q.s else vset q.s n v }
  | .l n => s.modSeq w fun q => { (if w.q = 2 then q.endFrame n else q) with l := vset q.l n (v.setWidth 32) }
  | .cnt n => s.modSeq w fun q => { q with l := vset q.l n (v.setWidth 32) }
  | .q n rid => s.modQ w n (·.fillResv rid (.word v s.now))
  | .drop => s

/-- Leaves a result pending on C, A or S (R98). A write of lN deactivates its frame in the instruction's own step (R115); on X it
does so at its due slot. -/
def pendWrite (d : Dst) (v : W64) (lat : Nat := 1) : Act Unit := do
  retain d.file lat
  match d with
  | .l n => modify fun s => s.modSeq s.cur (·.endFrame n)
  | _ => pure ()
  match d with
  | .drop => pure ()
  | _ => modify fun s => s.modSeq s.cur fun q => { q with pend := q.pend ++ [⟨d, v⟩] }

/-- The oldest pending write of a sequencer lands (R98, R321 step 3). -/
def State.landFirst (s : State) (w : Who) : State :=
  match (s.sq w).pend with
  | [] => s
  | p :: ps => (s.modSeq w fun q => { q with pend := ps }).landDst w p.dst p.v
/-- Every pending write of a sequencer lands, in issue order. -/
def State.landAll (s : State) (w : Who) : State :=
  (s.sq w).pend.foldl (fun s _ => s.landFirst w) s

/-- Adds an entry to X's exposed pipeline: it lands at the end of the `due`-th slot after this one (R97), which itself
still counts down at its end. It is retained for the registers it writes (R330). -/
def addX (x : XEnt) (files : List (Nat × Nat)) : Act Unit := do
  retain files x.due x
  modify fun s => s.modBank s.cur fun k => { k with xpend := k.xpend ++ [{ x with due := x.due + 1 }] }

end Sys2Proof.Machine
end

