-- ==== Sys2Proof/Machine/Flags.lean ====
section
/-! DEFINITION. Flags: the counters f and g (R69, R76, R125), C's sticky floating flags (R56) and the planes of xf (R57,
R58). -/
namespace Sys2Proof.Machine

/-! ## Counters -/

def fIdx (n : BitVec 5) : Fin 32 := ⟨n.toNat, n.isLt⟩

/-- A core flag of a bank or a flag of its cluster. -/
def State.flag (s : State) (w : Who) (r : FlagRef) : Flag :=
  if r.g then (s.clu (cluOf w.c)).g.get (fIdx r.n) else (s.bank w).f.get (fIdx r.n)
def State.modFlag (s : State) (w : Who) (r : FlagRef) (f : Flag → Flag) : State :=
  if r.g then s.modClu (cluOf w.c) fun u => { u with g := vset u.g (fIdx r.n) (f (u.g.get (fIdx r.n))) }
  else s.modBank w fun k => { k with f := vset k.f (fIdx r.n) (f (k.f.get (fIdx r.n))) }

/-- The counter after one event of a cycle (R69): none for a post past 0xFFFF and for a decrement below zero. -/
def FlagOp.act (v : BitVec 16) : FlagOp → Option (BitVec 16)
  | .arm x => some x
  | .post => if v = 0xFFFF then none else some (v + 1)
  | .dec => if v = 0 then none else some (v - 1)
/-- The place of an agent among those that arm one flag in a cycle (R69): sequencers in the order C, A, X, S. DESIGN CHOICE
(log 9): two cores of a cluster that arm one g flag in a cycle come in the order of their numbers. -/
def armKey (by_ : Byte) : Nat := by_.toNat % 4 * 4 + by_.toNat / 4
/-- The counter that the arms of a cycle leave: the last arm in order wins. -/
def armed (evs : List FlagEv) (v : BitVec 16) : BitVec 16 :=
  (evs.foldl (fun (m : Nat × BitVec 16) e =>
    match e.op with
    | .arm x => if m.1 ≤ armKey e.by_ + 1 then (armKey e.by_ + 1, x) else m
    | _ => m) (0, v)).2
/-- Events that count, one after another: the counter, the last decrementer, and the events that leave the counter unchanged
because they would overflow. -/
def countEvs (v : BitVec 16) (last : Byte) : List FlagEv → BitVec 16 × Byte × List FlagEv
  | [] => (v, last, [])
  | e :: es =>
    match e.op.act v with
    | some x => countEvs x (if e.op = .dec then e.by_ else last) es
    | none =>
      let r := countEvs v last es
      (r.1, r.2.1, e :: r.2.2)
/-- The order of a cycle's events (R69): arms, then posts, then decrements. -/
def Flag.settle (f : Flag) : BitVec 16 × Byte × List FlagEv :=
  countEvs (armed f.evs f.v) f.last (f.evs.filter (·.op == .post) ++ f.evs.filter (·.op == .dec))
/-- The end of a flag's cycle (R69, R268): the events act, and their views reach the flag. DESIGN CHOICE (log 9): an arm names no
decrementer, so a wait that ends because its flag was armed to 0 finds the one before. -/
def Flag.commit (f : Flag) : Flag :=
  let r := f.settle
  { v := r.1, last := r.2.1, evs := [], fv := f.evs.foldl (fun v e => v.join e.view) f.fv }
/-- Whether an event of this cycle would overflow, beside those that have met the flag (R69). -/
def Flag.refuses (f : Flag) (e : FlagEv) : Bool := { f with evs := f.evs ++ [e] }.settle.2.2 != []
/-- An event meets a flag; it acts at the end of the cycle. -/
def State.meet (s : State) (w : Who) (r : FlagRef) (e : FlagEv) : State := s.modFlag w r fun f => { f with evs := f.evs ++ [e] }

/-- The flags of a cluster that a task may name (R51, R125). -/
def Bank.galloc (k : Bank) : BitVec 32 :=
  match k.task with
  | some r => BitVec.ofNat 32 (fld (r.w.get 4) 63 32)
  | none => 0

/-- A sequencer's event on a flag, with its view. -/
def State.seqEv (s : State) (w : Who) (op : FlagOp) : FlagEv := ⟨op, BitVec.ofNat 8 w.idx, s.me, s.ownView w⟩
/-- The FLAG step of a sequencer's `fpost` or `fdec` (R268): the view reaches the flag, and the next interval begins. -/
def State.flagStep (s : State) (w : Who) (r : FlagRef) (op : FlagOp) : State := (s.meet w r (s.seqEv w op)).addIval w 1

/-- The FACQ step (R268, R272). -/
def State.flagAcq (s : State) (w : Who) (r : FlagRef) : State :=
  s.modAgent w.agent fun a => { a with view := a.view.join (s.flag w r).fv }

/-- An entry of the flag-wait ring (R76). -/
def flogEntry (waited : Nat) (last : Byte) (waiter : Nat) (r : FlagRef) : W64 :=
  BitVec.ofNat 64 (Nat.min waited 0xFFFFFFFF * 2 ^ 32 + last.toNat * 2 ^ 24 + waiter * 2 ^ 14 +
    (if r.g then 2 ^ 12 else 0) + r.n.toNat)
/-- The ring takes an entry at NEXT; OVF when it overwrites an entry not yet read (R76). -/
def Bank.flogAdd (k : Bank) (e : W64) : Bank :=
  let n := fld k.flogidx 5 0
  let i : Fin 64 := ⟨n % 64, by omega⟩
  let ovf := !k.flogRead.getLsbD n
  { k with
    flog := vset k.flog i e
    flogRead := k.flogRead &&& ~~~ (BitVec.ofNat 64 (2 ^ n))
    flogidx := setFld (if ovf then k.flogidx ||| 0x8000000000000000 else k.flogidx) 5 0 ((n + 1) % 64) }

/-- The completion decrement of a command (DONE, R268; R69): a core flag of a freed bank takes nothing (R132). -/
def State.complete (s : State) (w : Who) (r : Option FlagRef) (view : View) (code : Byte) : State :=
  match r with
  | none => s
  | some r =>
    if r.g then s.meet w r ⟨.dec, code, w, view⟩
    else if s.alive w then
      -- no retained instruction is the flag's last writer (R330)
      (s.meet w r ⟨.dec, code, w, view⟩).modBank w fun k => { k with wrote := NMap.del k.wrote (sharedKey (5, r.n.toNat)) }
    else s
/-- The flags of a cycle's end: an engine's event that overflows raises FlagOverflow imprecisely (R69). A sequencer's is met in its own
cycle. -/
def State.overflows (s : State) (fs : List Flag) : State :=
  fs.foldl (fun s f => f.settle.2.2.foldl (fun s e => s.imprecise e.who 0 cFlagOvf 0 e.by_) s) s

/-- The two sets of flags `fN` and `gN` of an imm9 (R125). -/
def flagOf9 (imm : BitVec 9) : FlagRef := ⟨imm.getLsbD 5, imm.setWidth 5⟩
/-- A g flag that is not allocated to the task raises AccessViolation (R125). -/
def flagOk (r : FlagRef) : Act Unit := do
  let s ← get
  need (!r.g || (s.bank s.cur).galloc.getLsbD r.n.toNat) cAccess

/-! ## Floating flags -/

/-- Raises flags into `cfs` (R56). -/
def raiseCfs (fl : Flags) : Act Unit :=
  modify fun s => s.modBank s.cur fun k => { k with cfs := k.cfs ||| fl }

/-- The five planes that the flags of the lanes set, where the mask is 1 (R58). -/
def planesOf (m : Mask) (fl : Vector Flags 1024) : Vector Mask 5 :=
  Vector.ofFn fun p => BitVec.ofFnLE (fun i : Fin 1024 => m.getLsbD i.val && (fl.get i).getLsbD p.val)

/-- Raises planes into xf (R58). -/
def Bank.raiseXf (k : Bank) (p : Vector Mask 5) : Bank := { k with xf := Vector.ofFn fun i => k.xf.get i ||| p.get i }

end Sys2Proof.Machine
end

