-- ==== Sys2Proof/Machine/Scalar.lean ====
section
/-! DEFINITION. The values of the scalar instructions (R106-R110), apart from where their operands come from. -/
namespace Sys2Proof.Machine

/-- A truth value as a register (R109). -/
def ofBool (b : Bool) : W64 := if b then 1 else 0

/-- Count of leading zero bits (R109). -/
def clz64 (x : W64) : W64 := BitVec.ofNat 64 (if x = 0 then 64 else 63 - Nat.log2 x.toNat)
/-- Count of trailing zero bits among the bits from `64 - n` up (R109). -/
def ctzFrom (x : W64) : Nat → Nat
  | 0 => 64
  | n + 1 => if x.getLsbD (63 - n) then 63 - n else ctzFrom x n
def ctz64 (x : W64) : W64 := BitVec.ofNat 64 (ctzFrom x 64)
/-- The number of one bits among the low `n` bits. -/
def onesBelow {w : Nat} (x : BitVec w) : Nat → Nat
  | 0 => 0
  | n + 1 => onesBelow x n + if x.getLsbD n then 1 else 0
def popc64 (x : W64) : W64 := BitVec.ofNat 64 (onesBelow x 64)

/-- The high 64 bits of the signed product (R106). -/
def mulHigh (x y : W64) : W64 := BitVec.ofInt 64 ((x.toInt * y.toInt) / 2 ^ 64)
/-- Signed division rounded toward zero, with the fixed results of R106. -/
def divide (x y : W64) : W64 := if y = 0 then 0xFFFFFFFFFFFFFFFF else BitVec.ofInt 64 (Int.tdiv x.toInt y.toInt)
def minS (x y : W64) : W64 := if x.slt y then x else y
def maxS (x y : W64) : W64 := if x.slt y then y else x
/-- A shift amount (R106). -/
def amount (y : W64) : Nat := y.toNat % 64

/-- The result of a scalar instruction from its sources x, y and, where d is a source, z (R106-R109). For an instruction
whose result is fixed at issue it is z (R327). -/
def scalarVal (i : Instr) (x y z : W64) : W64 :=
  match i with
  | .add _ => x + y
  | .sub _ => x - y
  | .and _ => x &&& y
  | .or _ => x ||| y
  | .xor _ => x ^^^ y
  | .shl _ => x <<< amount y
  | .shr _ => x >>> amount y
  | .sra _ => x.sshiftRight (amount y)
  | .mul _ => x * y
  | .mulh _ => mulHigh x y
  | .min _ => minS x y
  | .max _ => maxS x y
  | .div _ => divide x y
  | .addi _ => x + y
  | .andi _ => x &&& y
  | .ori _ => x ||| y
  | .xori _ => x ^^^ y
  | .shli _ => x <<< amount y
  | .shri _ => x >>> amount y
  | .srai _ => x.sshiftRight (amount y)
  | .muli _ => x * y
  | .li _ => y
  | .lcat _ => (z <<< 18) ||| y
  | .seq _ => ofBool (x == y)
  | .sne _ => ofBool (x != y)
  | .slt _ => ofBool (x.slt y)
  | .sltu _ => ofBool (x.ult y)
  | .sle _ => ofBool (x.sle y)
  | .sleu _ => ofBool (x.ule y)
  | .csel _ => y
  | .clz _ => clz64 x
  | .ctz _ => ctz64 x
  | .popc _ => popc64 x
  | _ => z

/-- An FP32 result in a scalar register: the upper half is cleared (R54). -/
def fpWord (r : W32 × Flags) : W64 × Flags := (r.1.setWidth 64, r.2)
/-- FP32 operand of a register (R54). -/
def lo32 (x : W64) : W32 := x.setWidth 32

/-- `flt` (R110): NV for a signalling NaN. -/
def flt32 (x y : W32) : W64 × Flags := (ofBool ((f32 x).lt (f32 y)), (f32 x).snan ||| (f32 y).snan)
/-- `ftoi` (R43, R110). -/
def ftoi32 (x : W32) (mode : RMode) (rho : Nat) : W64 × Flags :=
  let (i, fl) := toIntRange (-2147483648) 2147483647 mode rho (f32 x)
  (BitVec.ofInt 64 i, fl)
/-- `itof` (R110). -/
def itof64 (x : W64) (mode : RMode) (rho : Nat) : W64 × Flags :=
  fpWord (to32 mode rho (Fv.ofInt false x.toInt 0) 0)

end Sys2Proof.Machine
end

