-- ==== Sys2Proof/Machine/Vector.lean ====
section
/-! DEFINITION. The values of the vector instructions (chapter 9) on tiles and masks, and the accumulator readout of R48, R61
and R200. -/
namespace Sys2Proof.Machine

/-! ## Lanes -/

def laneRow (i : Fin 1024) : Nat := i.val / 64
def laneCol (i : Fin 1024) : Nat := i.val % 64
/-- Lane (r, c). -/
def laneAt (t : Tile) (r c : Nat) : W32 := t.get ⟨(64 * r + c) % 1024, by omega⟩
def maskOf (p : Fin 1024 → Bool) : Mask := BitVec.ofFnLE p
abbrev allOnes : Mask := BitVec.allOnes 1024
/-- m0 reads all ones (R57). -/
def Bank.maskReg (k : Bank) (n : BitVec 3) : Mask := if n = 0 then allOnes else k.m.get ⟨n.toNat, n.isLt⟩
def vIdx (n : BitVec 5) : Fin 32 := ⟨n.toNat, n.isLt⟩
def mIdx (n : BitVec 5) : Fin 8 := ⟨n.toNat % 8, by omega⟩
def Bank.tile (k : Bank) (n : BitVec 5) : Tile := k.v.get (vIdx n)

/-- A result of each lane with its flags. -/
abbrev Lanes := Vector (W32 × Flags) 1024
def lanes1 (f : W32 → W32 × Flags) (a : Tile) : Lanes := Vector.ofFn fun i => f (a.get i)
def lanes2 (f : W32 → W32 → W32 × Flags) (a b : Tile) : Lanes := Vector.ofFn fun i => f (a.get i) (b.get i)
def lanes3 (f : W32 → W32 → W32 → W32 × Flags) (a b z : Tile) : Lanes :=
  Vector.ofFn fun i => f (a.get i) (b.get i) (z.get i)
def Lanes.vals (l : Lanes) : Tile := Vector.ofFn fun i => (l.get i).1
def Lanes.flags (l : Lanes) : Vector Flags 1024 := Vector.ofFn fun i => (l.get i).2

/-- A result without flags. -/
def clean (x : W32) : W32 × Flags := (x, 0)

/-- `vabs` and `vneg` (R166). -/
def vabs32 (x : W32) : W32 × Flags := if (f32 x).isNan then (0x7FC00000, (f32 x).snan) else (x &&& 0x7FFFFFFF, 0)
def vneg32 (x : W32) : W32 × Flags := if (f32 x).isNan then (0x7FC00000, (f32 x).snan) else (x ^^^ 0x80000000, 0)

/-! ## Compares -/

/-- An FP32 compare of two lanes: NV for a signalling NaN (R168). -/
def cmp32 (p : Fv → Fv → Bool) (x y : W32) : Bool × Flags := (p (f32 x) (f32 y), (f32 x).snan ||| (f32 y).snan)

/-! ## Rounding draws (R41) -/

/-- The draws of the lanes where the mask is 1, in row-major order, and the state after. -/
def laneDraws (seed : W64) (m : Mask) : W64 × Array Nat :=
  (List.range 1024).foldl (fun (acc : W64 × Array Nat) i =>
    if m.getLsbD i then let (s, r) := draw acc.1; (s, acc.2.push r) else (acc.1, acc.2.push 0)) (seed, Array.mkEmpty 1024)
/-- The state after `n` draws. -/
def seedAfter (seed : W64) : Nat → W64
  | 0 => seed
  | n + 1 => seedAfter (draw seed).1 n

/-! ## Conversions (R170-R172) -/

def cvtFmt (e : W32) : Nat := fld e 31 26
def cvtRound (e : W32) : Nat := fld e 25 23
def cvtSide (e : W32) : Bool := e.getLsbD 22
/-- The element format and scheme of a slot's side (R71, R170). -/
def slotFmt (slot : W32) (side : Bool) : Nat := if side then fld slot 7 4 else fld slot 3 0
def slotSch (slot : W32) (side : Bool) : Nat := if side then fld slot 13 11 else fld slot 15 14

/-- The formats that `vquant` and `vdequant` accept (R171). -/
def quantFmtOk (c : Nat) : Bool := 1 ≤ c && c ≤ 11
/-- The limits of R171 on the slot and the registers; `vdequant` keeps them but for vb = vd (R172). -/
def quantOk (slot : W32) (e : W32) (f : FV) (quant : Bool) : Bool :=
  let sch := slotSch slot (cvtSide e)
  quantFmtOk (slotFmt slot (cvtSide e)) && sch ≤ 2 &&
  (sch != 2 || (f.a.getLsbD 0 == false && f.d.getLsbD 0 == false)) &&
  (!quant || f.b != f.d) && (sch != 2 || f.b != f.d + 1)

/-- The rows of a pair of tiles as one list of 2,048 elements, or of one tile as 1,024 (R171). -/
def elemAt (lo hi : Tile) (r c : Nat) : W32 := if r < 16 then laneAt lo r c else laneAt hi (r - 16) c

/-- The scale code of each tile (R171): under ST16, tile j holds columns 16 j to 16 j + 15 of 16 rows; under ST32, columns
32 j to 32 j + 31 of 32 rows. -/
def tileCode (c sch : Nat) (lo hi : Tile) (j : Nat) : Nat :=
  let n := if sch = 1 then 16 else 32
  s9Choose c ((List.range n).flatMap fun r => (List.range n).map fun k => f32 (elemAt lo hi r (n * j + k)))
/-- The scale tile that `vquant` writes to vb. -/
def scaleTile (codes : List Nat) : Tile :=
  Vector.ofFn fun i => if i.val < codes.length then BitVec.ofNat 32 (codes.getD i.val 0) else 0
def quantCodes (c sch : Nat) (lo hi : Tile) : List Nat :=
  if sch = 0 then [] else (List.range (if sch = 1 then 4 else 2)).map (tileCode c sch lo hi)

/-- One tile of codes (R36, R43-R45), its elements standing at rows from 16 `half`. -/
def quantTile (c sch : Nat) (codes : List Nat) (mode : RMode) (rho : Array Nat) (half : Nat) (t : Tile) : Lanes :=
  Vector.ofFn fun i =>
    let x := f32 (t.get i)
    let r := rho.getD (1024 * half + i.val) 0
    let (q, fl) := if sch = 0 then quantPlain c mode r x
      else quantScaled c (codes.getD (laneCol i / (if sch = 1 then 16 else 32)) 0) mode r x
    (BitVec.ofNat 32 q, fl)
/-- One tile of FP32 values (R37, R172). -/
def dequantTile (c sch : Nat) (scales : Tile) (mode : RMode) (rho : Array Nat) (half : Nat) (t : Tile) : Lanes :=
  Vector.ofFn fun i =>
    let x := (t.get i).toNat % 2 ^ fmtWidth c
    let r := rho.getD (1024 * half + i.val) 0
    if sch = 0 then to32 mode r (fmtDec c x) 0
    else dequant c ((laneAt scales 0 (laneCol i / (if sch = 1 then 16 else 32))).toNat % 512) mode r x

/-! ## Axis operations (R176-R178) -/

def rotR (t : Tile) (n : Nat) : Tile := Vector.ofFn fun i => laneAt t (laneRow i) ((laneCol i + 64 - n) % 64)
def rotC (t : Tile) (n : Nat) : Tile := Vector.ofFn fun i => laneAt t ((laneRow i + 16 - n) % 16) (laneCol i)
def bcastR (t : Tile) (k : Nat) : Tile := Vector.ofFn fun i => laneAt t (laneRow i) k
def bcastC (t : Tile) (k : Nat) : Tile := Vector.ofFn fun i => laneAt t k (laneCol i)

/-- The identity of a combining operation (R178). -/
def axisId : Nat → W32
  | 0 => 0
  | 1 => 0xFF800000
  | 2 => 0x7F800000
  | 3 => 0
  | 4 => 0x80000000
  | _ => 0x7FFFFFFF
/-- One combination (R178). -/
def axisOp (op : Nat) (x y : W32) : W32 × Flags :=
  match op with
  | 0 => fadd32 x y
  | 1 => fmax32 x y
  | 2 => fmin32 x y
  | 3 => (x + y, 0)
  | 4 => (if x.slt y then y else x, 0)
  | _ => (if x.slt y then x else y, 0)
/-- Adjacent pairs combined. -/
def pairs (op : Nat) : List W32 → List W32 × Flags
  | x :: y :: r =>
    let (v, f) := axisOp op x y
    let (vs, g) := pairs op r
    (v :: vs, f ||| g)
  | r => (r, 0)
/-- TREE of `k` levels (R50). -/
def tree (op : Nat) : Nat → List W32 → W32 × Flags
  | 0, xs => (xs.headD (axisId op), 0)
  | k + 1, xs =>
    let (ys, f) := pairs op xs
    let (v, g) := tree op k ys
    (v, f ||| g)
/-- Inclusive scan, SEQ (R50, R178). -/
def scan (op : Nat) (acc : W32) : List W32 → List W32 × Flags
  | [] => ([], 0)
  | x :: xs =>
    let (v, f) := axisOp op acc x
    let (vs, g) := scan op v xs
    (v :: vs, f ||| g)
/-- A value that a line delivers without combining it: a NaN becomes the canonical one (R24, R178). -/
def single (op : Nat) (x : W32) : W32 := if op < 3 && (f32 x).isNan then 0x7FC00000 else x
def scanAll (op : Nat) : List W32 → List W32 × Flags
  | [] => ([], 0)
  | x :: xs => let (vs, f) := scan op x xs; (single op x :: vs, f)
/-- The values that a row or column contributes: the identity where the predicate is 0 (R178). -/
def lineVals (op : Nat) (t : Tile) (m : Mask) (col : Bool) (j : Nat) : List W32 :=
  (List.range (if col then 16 else 64)).map fun k =>
    let i := if col then 64 * k + j else 64 * j + k
    if m.getLsbD i then t.get ⟨i % 1024, by omega⟩ else axisId op
/-- Reductions or scans of every line: for each line its values by position and its flags. -/
def axisLines (op : Nat) (t : Tile) (m : Mask) (col scanning : Bool) : Array (Array W32 × Flags) :=
  ((List.range (if col then 64 else 16)).map fun j =>
    let xs := lineVals op t m col j
    if scanning then let (vs, f) := scanAll op xs; (vs.toArray, f)
    else let (v, f) := tree op (if col then 4 else 6) xs; (Array.replicate (if col then 16 else 64) v, f)).toArray
def axisTile (op : Nat) (t : Tile) (m : Mask) (col scanning : Bool) : Lanes :=
  let ls := axisLines op t m col scanning
  Vector.ofFn fun i =>
    let (line, pos) := if col then (laneCol i, laneRow i) else (laneRow i, laneCol i)
    match ls[line]? with
    | some (vs, f) => (vs.getD pos 0, f)
    | none => (0, 0)

/-! ## Rows (R181, R182) -/

/-- Width, tile rows per queue row, queue rows per tile (R181). -/
def widOf : Nat → Nat × Nat × Nat
  | 0 => (32, 1, 16)
  | 1 => (16, 2, 8)
  | 2 => (8, 4, 4)
  | 3 => (6, 5, 4)
  | _ => (4, 8, 2)
/-- The bit of a payload where lane c of a tile row's place k stands (R32, R181). -/
def packBit (w k c : Nat) : Nat := k * 64 * w + c * w
/-- The tile of popped rows, with the mask of lanes drawn from poisoned rows (R182). -/
def unpackRows (wid : Nat) (rows : List Row) : Tile × Mask :=
  let (w, p, _) := widOf wid
  let rs := rows.toArray
  let bad (r : Nat) : Bool := match rs[r / p]? with
    | some x => x.hdr.getLsbD 32
    | none => false
  (Vector.ofFn fun i =>
    match rs[laneRow i / p]? with
    | some x => if x.hdr.getLsbD 32 then 0x7FC00BAD
      else BitVec.ofNat 32 (x.pay.toNat / 2 ^ packBit w (laneRow i % p) (laneCol i) % 2 ^ w)
    | none => 0,
  maskOf fun i => bad (laneRow i))
/-- The header that `vpop` delivers (R182). -/
def popHeader (rows : List Row) : W64 :=
  match rows with
  | [] => 0
  | r :: _ => setFld r.hdr 32 32 (if rows.any (·.hdr.getLsbD 32) then 1 else 0)
/-- The rows that `vpush` lands (R182). -/
def packRows (wid : Nat) (t : Tile) (m : Mask) (tag : W64) : List Row :=
  let (w, p, n) := widOf wid
  (List.range n).map fun j =>
    let pay := (List.range p).foldl (fun (acc : Nat) k =>
      if p * j + k < 16 then
        (List.range 64).foldl (fun (acc : Nat) c =>
          let i := 64 * (p * j + k) + c
          if m.getLsbD i then acc + (laneAt t (p * j + k) c).toNat % 2 ^ w * 2 ^ packBit w k c else acc) acc
      else acc) 0
    { hdr := BitVec.ofNat 64 ((tag.toNat + j) % 2 ^ 32), pay := BitVec.ofNat 2048 pay }

/-! ## Accumulator readout (R48, R61, R200) -/

def ASlot.poison (a : ASlot) : Bool := a.side.getLsbD 4
/-- One slot read out. -/
def readSlot (anchored : Bool) (anchor : Byte) (raw : Bool) (mode : RMode) (rho : Nat) (a : ASlot) : W32 × Flags :=
  if a.poison then (0x7FC00BAD, fNV)
  else if raw || !anchored then (a.v.setWidth 32, 0)
  else
    let nan := a.side.getLsbD 3
    let pinf := a.side.getLsbD 2
    let ninf := a.side.getLsbD 1
    let sat := a.side.getLsbD 0
    if nan || (pinf && ninf) then (0x7FC00000, if pinf && ninf then fNV else 0)
    else if pinf then (0x7F800000, 0)
    else if ninf then (0xFF800000, 0)
    else if a.v = 0 then (0, if sat then fOF else 0)
    else
      let (x, fl) := to32 mode rho (Fv.ofInt false a.v.toInt (anchor.toInt - 47)) 0
      (x, if sat then fl ||| fOF else fl)
/-- The slots of an accumulator as an array index: 64 row + column. -/
def Acc.slot (z : Acc) (k : Nat) : ASlot := (NMap.get? z.slots k).getD {}
/-- Sixteen rows read out, with the draws of `.rs` (R200). -/
def readBlock (z : Acc) (blk : Nat) (raw : Bool) (mode : RMode) (rho : Array Nat) : Lanes :=
  Vector.ofFn fun i => readSlot z.mode z.anchor raw mode (rho.getD i.val 0) (z.slot (1024 * blk + i.val))

/-! ## What an X instruction writes when it falls due (R97, R163, R327) -/

/-- One write of a landing instruction. -/
inductive Wr where
  | fld (f : BitVec 6) (v : W64)
  | cnt (n : Fin 4) (v : W64)
  | tile (d : BitVec 5) (t : Tile) (m : Mask)
  | mask (d : BitVec 5) (x : Mask)
  | xf (p : Vector Mask 5)
  | clr (set : BitVec 5) (m : Mask)
  | rows (rs : List Row)
  | free

def XEnt.tileCap (e : XEnt) (k : Nat) : Tile :=
  match e.caps[k]? with
  | some (.tile t) => t
  | some (.res t _) => t
  | _ => Vector.replicate 1024 0
def XEnt.maskCap (e : XEnt) (k : Nat) : Mask :=
  match e.caps[k]? with
  | some (.mask m) => m
  | _ => 0
/-- The predicate captured at issue (R326: CM). -/
def XEnt.pred (e : XEnt) : Mask := e.pm.getD allOnes

/-- A tile result with its flags, under the predicate. -/
def wrLanes (d : BitVec 5) (l : Lanes) (m : Mask) : List Wr := [.tile d l.vals m, .xf (planesOf m l.flags)]
def wrTile1 (f : FV) (e : XEnt) (g : W32 → W32 × Flags) : List Wr := wrLanes f.d (lanes1 g (e.tileCap 0)) e.pred
def wrTile2 (f : FV) (e : XEnt) (g : W32 → W32 → W32 × Flags) : List Wr :=
  wrLanes f.d (lanes2 g (e.tileCap 0) (e.tileCap 1)) e.pred
def wrTile3 (f : FV) (e : XEnt) (g : W32 → W32 → W32 → W32 × Flags) : List Wr :=
  wrLanes f.d (lanes3 g (e.tileCap 0) (e.tileCap 1) (e.tileCap 2)) e.pred
/-- An integer compare into a mask; lanes off the predicate receive 0 (R163). -/
def wrCmpI (f : FV) (e : XEnt) (p : W32 → W32 → Bool) : List Wr :=
  [.mask f.d (e.pred &&& maskOf fun i => p ((e.tileCap 0).get i) ((e.tileCap 1).get i))]
/-- An FP32 compare into a mask. -/
def wrCmpF (f : FV) (e : XEnt) (p : Fv → Fv → Bool) : List Wr :=
  let l : Vector (Bool × Flags) 1024 := Vector.ofFn fun i => cmp32 p ((e.tileCap 0).get i) ((e.tileCap 1).get i)
  [.mask f.d (e.pred &&& maskOf fun i => (l.get i).1), .xf (planesOf e.pred (Vector.ofFn fun i => (l.get i).2))]
def wrMask2 (f : FV) (e : XEnt) (g : Mask → Mask → Mask) : List Wr :=
  [.mask f.d (e.pred &&& g (e.maskCap 0) (e.maskCap 1))]
/-- A move of bit patterns under the predicate (R163). -/
def wrMove (f : FV) (e : XEnt) (t : Tile) : List Wr := [.tile f.d t e.pred]

/-- The extension word of an axis operation or the short form's parameter (R176). -/
def axisParam (f : FV) : Nat := match f.e with
  | some e => fld e 5 0
  | none => f.b.toNat
/-- The conversion word (R170). -/
def cvtWord (f : FV) : W32 := f.e.getD 0
/-- The lane that `vget` and `vput` name (R183). -/
def laneOf (f : FV) : Fin 1024 := ⟨fld (f.e.getD 0) 9 0 % 1024, by omega⟩
/-- The draws of a conversion: of each lane in the predicate, or none outside `.rs` (R170). -/
def cvtDraws (e : XEnt) (rs : Bool) (pairs : Bool) : Array Nat :=
  if !rs then #[]
  else
    let (s, a) := laneDraws e.rss e.pred
    if pairs then a ++ (laneDraws s e.pred).2 else a

def wrQuant (f : FV) (e : XEnt) : List Wr :=
  let w := cvtWord f
  let c := slotFmt e.slotv (cvtSide w)
  let sch := slotSch e.slotv (cvtSide w)
  let mode := RMode.ofCode (cvtRound w)
  let rho := cvtDraws e (cvtRound w == 3) (sch == 2)
  let codes := quantCodes c sch (e.tileCap 0) (e.tileCap 1)
  let lo := quantTile c sch codes mode rho 0 (e.tileCap 0)
  wrLanes f.d lo allOnes ++
    (if sch = 2 then wrLanes (f.d + 1) (quantTile c sch codes mode rho 1 (e.tileCap 1)) allOnes else []) ++
    (if sch = 0 then [] else [.tile f.b (scaleTile codes) allOnes])
def wrDequant (f : FV) (e : XEnt) : List Wr :=
  let w := cvtWord f
  let c := slotFmt e.slotv (cvtSide w)
  let sch := slotSch e.slotv (cvtSide w)
  let mode := RMode.ofCode (cvtRound w)
  let rho := cvtDraws e (cvtRound w == 3) (sch == 2)
  wrLanes f.d (dequantTile c sch (e.tileCap 1) mode rho 0 (e.tileCap 0)) allOnes ++
    (if sch = 2 then wrLanes (f.d + 1) (dequantTile c sch (e.tileCap 1) mode rho 1 (e.tileCap 2)) allOnes else [])
def wrFtoi (f : FV) (e : XEnt) : List Wr :=
  let w := cvtWord f
  let rho := cvtDraws e (cvtRound w == 3) false
  let l : Lanes := Vector.ofFn fun i =>
    let (v, fl) := toIntRange (-2147483648) 2147483647 (RMode.ofCode (cvtRound w)) (rho.getD i.val 0) (f32 ((e.tileCap 0).get i))
    (BitVec.ofInt 32 v, fl)
  wrLanes f.d l e.pred
def wrItof (f : FV) (e : XEnt) : List Wr :=
  let w := cvtWord f
  let rho := cvtDraws e (cvtRound w == 3) false
  let l : Lanes := Vector.ofFn fun i =>
    to32 (RMode.ofCode (cvtRound w)) (rho.getD i.val 0) (Fv.ofInt false ((e.tileCap 0).get i).toInt 0) 0
  wrLanes f.d l e.pred
def wrVmov (f : FV) (e : XEnt) : List Wr :=
  match (f.e.getD 0).toNat % 4 with
  | 0 => wrMove f e (e.tileCap 0)
  | 1 => [.mask f.d (e.pred &&& e.maskCap 0)]
  | 2 => wrMove f e (Vector.ofFn fun i => if (e.maskCap 0).getLsbD i.val then 1 else 0)
  | _ => [.mask f.d (e.pred &&& maskOf fun i => (e.tileCap 0).get i != 0)]
/-- `vsel` (R169): the m field selects; every lane is written. -/
def wrVsel (f : FV) (e : XEnt) : List Wr :=
  let t : Tile := Vector.ofFn fun i =>
    if e.pred.getLsbD i.val then (e.tileCap 0).get i
    else match f.e with
      | some x => x
      | none => (e.tileCap 1).get i
  [.tile f.d t allOnes]
def wrSplat (f : FV) (e : XEnt) : List Wr :=
  wrMove f e (Vector.replicate 1024 (match f.e with
    | some x => x
    | none => lo32 e.sv0))
def wrAxis (f : FV) (e : XEnt) (col scanning : Bool) : List Wr :=
  wrLanes f.d (axisTile (axisParam f) (e.tileCap 0) e.pred col scanning) e.pred
/-- A scalar register named by a 5-bit field. -/
def sFld (x : BitVec 5) : BitVec 6 := x.setWidth 6
/-- A result fixed at issue with its planes (R327). -/
def wrFixed (d : BitVec 5) (e : XEnt) (m : Mask) : List Wr :=
  match e.caps with
  | .res t p :: _ => [.tile d t m, .xf p]
  | _ => []
def wrVpop (f : FV) (e : XEnt) : List Wr :=
  wrFixed f.d e e.pred ++ [.fld (sFld f.b) e.sv2]
def widE (f : FV) : Nat := fld (f.e.getD 0) 2 0

/-- What an X instruction writes at its due slot. -/
def xRun (i : Instr) (e : XEnt) : List Wr :=
  let rrr (f : RRR) : List Wr := [.fld f.d (scalarVal i e.sv0 e.sv1 e.sv2)]
  let rri (f : RRI) : List Wr := [.fld f.d (scalarVal i e.sv0 e.sv1 e.sv2)]
  match i with
  | .add f | .sub f | .and f | .or f | .xor f | .shl f | .shr f | .sra f | .mul f | .mulh f | .min f | .max f | .div f => rrr f
  | .addi f | .andi f | .ori f | .xori f | .shli f | .shri f | .srai f | .muli f => rri f
  | .li f | .lcat f => [.fld f.d (scalarVal i e.sv0 e.sv1 e.sv2)]
  | .seq f | .sne f | .slt f | .sltu f | .sle f | .sleu f | .clz f | .ctz f | .popc f => rrr f
  | .csel f => if e.sv0 = 0 then (if e.nres = 0 then [] else [.free]) else rrr f
  | .call f => [.fld f.a e.sv2]
  | .loop f => [.cnt (fL (f.c.setWidth 6 >>> 2)) 0]
  | .fread f => [.fld f.d e.sv2]
  | .qpush f => [.fld f.b e.sv2]
  | .qpop f | .qpeek f => [.fld f.a e.sv2, .fld f.b e.sv1]
  | .qstat f => [.fld f.a e.sv2]
  | .fmtr f => [.fld f.d e.sv2]
  | .csrr f | .flogdatRead f => [.fld f.d e.sv2]
  | .vadd f => wrTile2 f e fadd32
  | .vsub f => wrTile2 f e fsub32
  | .vmul f => wrTile2 f e fmul32
  | .vfma f => wrTile3 f e ffma32
  | .vfms f => wrTile3 f e ffms32
  | .vmin f => wrTile2 f e fmin32
  | .vmax f => wrTile2 f e fmax32
  | .vabs f => wrTile1 f e vabs32
  | .vneg f => wrTile1 f e vneg32
  | .viadd f => wrTile2 f e fun x y => clean (x + y)
  | .visub f => wrTile2 f e fun x y => clean (x - y)
  | .vimul f => wrTile2 f e fun x y => clean (x * y)
  | .viand f => wrTile2 f e fun x y => clean (x &&& y)
  | .vior f => wrTile2 f e fun x y => clean (x ||| y)
  | .vixor f => wrTile2 f e fun x y => clean (x ^^^ y)
  | .vishl f => wrTile2 f e fun x y => clean (x <<< (y.toNat % 32))
  | .vishr f => wrTile2 f e fun x y => clean (x >>> (y.toNat % 32))
  | .vceq f => wrCmpF f e Fv.eq
  | .vclt f => wrCmpF f e Fv.lt
  | .vcle f => wrCmpF f e fun x y => x.lt y || x.eq y
  | .viceq f => wrCmpI f e fun x y => x == y
  | .vilt f => wrCmpI f e fun x y => x.slt y
  | .vsel f => wrVsel f e
  | .vmov f => wrVmov f e
  | .vsplat f => wrSplat f e
  | .vquant f => wrQuant f e
  | .vdequant f => wrDequant f e
  | .vftoi f => wrFtoi f e
  | .vitof f => wrItof f e
  | .vexp2 f => wrTile1 f e exp2
  | .vexp2d f => wrTile2 f e exp2d
  | .vlog2 f => wrTile1 f e log2
  | .vrcpSeed f => wrTile1 f e rcpSeed
  | .vrsqSeed f => wrTile1 f e rsqSeed
  | .vrotr f => wrMove f e (rotR (e.tileCap 0) (axisParam f))
  | .vrotc f => wrMove f e (rotC (e.tileCap 0) (axisParam f))
  | .vbcastr f => wrMove f e (bcastR (e.tileCap 0) (axisParam f))
  | .vbcastc f => wrMove f e (bcastC (e.tileCap 0) (axisParam f))
  | .vredr f => wrAxis f e false false
  | .vredc f => wrAxis f e true false
  | .vscanr f => wrAxis f e false true
  | .vscanc f => wrAxis f e true true
  | .mand f => wrMask2 f e fun x y => x &&& y
  | .mor f => wrMask2 f e fun x y => x ||| y
  | .mxor f => wrMask2 f e fun x y => x ^^^ y
  | .mandn f => wrMask2 f e fun x y => x &&& ~~~ y
  | .vany f => [.fld (sFld f.d) (ofBool (e.maskCap 0 &&& e.pred != 0))]
  | .vall f => [.fld (sFld f.d) (ofBool (~~~ (e.maskCap 0) &&& e.pred == 0))]
  | .mpop f => [.fld (sFld f.d) (BitVec.ofNat 64 (onesBelow (e.maskCap 0 &&& e.pred) 1024))]
  | .vflag f => [.mask f.d (e.maskCap 0 &&& e.pred)]
  | .vflagclr f => [.clr f.a e.pred]
  | .vpop f => wrVpop f e
  | .vpush f => [.rows (packRows (widE f) (e.tileCap 0) e.pred e.sv1)]
  | .vget f => [.fld (sFld f.d) e.sv2]
  | .vput f => [.tile f.d (Vector.replicate 1024 (lo32 e.sv0)) (maskOf fun i => i == laneOf f)]
  | .mread f => wrFixed (f.fmt.setWidth 5) e allOnes
  | .mstat f => [.fld (f.fmt.setWidth 6 &&& 31) e.sv2]
  | _ => []

/-- One tile write. -/
def Tile.write (old t : Tile) (m : Mask) : Tile := Vector.ofFn fun i => if m.getLsbD i.val then t.get i else old.get i

/-- One write of a landing instruction (R57, R58, R97, R163). -/
def State.landWr (s : State) (w : Who) (e : XEnt) (x : Wr) : State :=
  match x with
  | .fld f v =>
    if f.toNat < 32 then s.landDst w (if f.toNat = 0 then .drop else .s (fS f)) v
    else if f.toNat < 48 then s.landDst w (.q (fQ f) e.rid) v
    else s.landDst w (.l (fL f)) v
  | .cnt n v => s.landDst w (.cnt n) v
  | .tile d t m => s.modBank w fun k => { k with v := vset k.v (vIdx d) (Tile.write (k.tile d) t m) }
  | .mask d x => if mIdx d = 0 then s else s.modBank w fun k => { k with m := vset k.m (mIdx d) x }
  | .xf p => s.modBank w (·.raiseXf p)
  | .clr set m => s.modBank w fun k =>
      { k with xf := Vector.ofFn fun i => if set.getLsbD i.val then k.xf.get i &&& ~~~ m else k.xf.get i }
  | .rows rs => rs.foldl (fun s r => s.modQ w e.q (·.fillResv e.rid (.row r s.now))) s
  | .free => s.modQ w e.q (·.unreserve e.rid)

/-- An entry whose due slot ends lands: all its writes. -/
def State.landX (s : State) (w : Who) (e : XEnt) : State := (xRun e.i e).foldl (fun s x => s.landWr w e x) s

/-- A clear falls before the raises of its slot (R180). -/
def XEnt.clears (e : XEnt) : Bool := match e.i with
  | .vflagclr _ => true
  | _ => false

/-- The entries whose due slot has ended land in issue order, later ones over earlier (R97, R180). -/
def State.landDue (s : State) (w : Who) : State :=
  let es := (s.bank w).xpend
  let due := es.filter (·.due == 0)
  let s := s.modBank w fun k => { k with xpend := es.filter (·.due != 0) }
  let s := (due.filter (·.clears)).foldl (fun s e => s.landX w e) s
  (due.filter (fun e => !e.clears)).foldl (fun s e => s.landX w e) s

/-- One X slot of a bank passes (R92, R97): pending entries count down, and those whose due slot this is land at its end. -/
def State.xSlot (s : State) (w : Who) : State :=
  (s.modBank w fun k =>
    { k with xpend := k.xpend.map fun e => { e with due := e.due - 1 }, slots := k.slots + 1 }).landDue w

end Sys2Proof.Machine
end

