-- ==== Sys2Proof/Machine/Fetch.lean ====
section
/-! DEFINITION. Code lines and the program counter (R77-R83), successors (R81) and loop back-edges (R114). -/
namespace Sys2Proof.Machine

/-- A code line's words (R77). -/
def lineWord (l : BitVec 512) (k : Nat) : W32 := BitVec.ofNat 32 (l.toNat / 2 ^ (32 * k))
def lineOwn (l : BitVec 512) : Nat := fld (lineWord l 0) 31 28
def lineCnt (l : BitVec 512) : Nat := fld (lineWord l 0) 27 24
/-- NEXT as a signed line delta. -/
def lineNext (l : BitVec 512) : BitVec 24 := (lineWord l 0).setWidth 24

/-- The line address and the word of a PC (R80). -/
def pcLine (pc : W64) : W64 := pc &&& ~~~ (0x3F : W64)
def pcWord (pc : W64) : Nat := fld pc 5 2
/-- The PC of a word of a line. -/
def mkPc (line : W64) (w : Nat) : W64 := line + BitVec.ofNat 64 (4 * w)

/-- The place of a line in an instruction cache: context and virtual line. -/
def icKey (ctx : BitVec 12) (line : W64) : Nat := ctx.toNat * 2 ^ 64 + line.toNat

/-- The line that a sequencer has for an address: C at level 1 reads only the instruction store (R320); otherwise the
instruction cache (R83). -/
def State.lineAt (s : State) (w : Who) (line : W64) : Option (BitVec 512) :=
  let k := s.core w.c
  let b := s.bank w
  if b.level && w.q == 0 then
    match k.istore.find? (fun x => x.1 == b.ctx && x.2.1 == line.toNat) with
    | some x => some x.2.2
    | none => none
  else NMap.get? k.icache (icKey b.ctx line)

/-- The fetch checks of R82 for a PC, in their order. A line that is on its way is a fetch delay (R103). -/
def fetchCheck (pc : W64) : Act (BitVec 512) := do
  let s ← get
  let w := s.cur
  let line := pcLine pc
  let lvl1 := (s.bank w).level && w.q == 0
  if lvl1 then
    if (s.lineAt w line).isNone then throw (.trap { cause := cCodeLine, fetch := some pc })
  else do
    needAt (fld line 63 57 == 0) cAccess line
    let _ ← translate line 2
  let s ← get
  match s.lineAt w line with
  | none => throw (.fetch line)
  | some l => do
    need (lineOwn l == w.q.val) (if lineOwn l < 4 then cWrongOwner else if lineOwn l = 8 then cPoolExec else cCodeLine)
    need (lineCnt l != 0) cCodeLine
    need (1 ≤ pcWord pc && pcWord pc ≤ lineCnt l) cCodeLine
    need (!wLong (lineWord l (pcWord pc)) || pcWord pc + 1 ≤ lineCnt l) cIllegal
    pure l

/-- The successor in chain order of an instruction of `n` words (R81), or none where the chain ends. -/
def succPc (l : BitVec 512) (pc : W64) (n : Nat) : Option W64 :=
  if pcWord pc + n ≤ lineCnt l then some (pc + BitVec.ofNat 64 (4 * n))
  else if lineNext l = 0 then none
  else some (mkPc (pcLine pc + ((lineNext l).signExtend 64 <<< 6)) 1)

/-- The line from which an instruction that has already taken a turn is completed, whatever becomes of the cached one (R83): C's in a
`bar` that has arrived (R127), or that of an instruction that goes on over several turns. DEDUCED (log 102): the instruction's
successor too is found by that line. -/
def Bank.heldLine (k : Bank) (q : SeqId) : Option (BitVec 512) :=
  match (if q = 0 then k.bar else none) with
  | some b => some b.line
  | none => (k.seqs.get q).line
/-- The line of the instruction being executed. -/
def State.lineNow (s : State) (w : Who) : Option (BitVec 512) :=
  match (s.bank w).heldLine w.q with
  | some l => some l
  | none => s.lineAt w (pcLine (s.sq w).pc)
/-- The same in a turn. -/
def curLine : Act (BitVec 512) := do
  let s ← get
  match s.lineNow s.cur with
  | some l => pure l
  | none => throw (.fetch (pcLine (s.sq s.cur).pc))
/-- R81 for the instruction being executed, of `n` words. -/
def nextInChain (n : Nat) : Act W64 := do
  let l ← curLine
  let s ← get
  match succPc l (s.sq s.cur).pc n with
  | some pc => pure pc
  | none => raise cChainEnd

/-- The most recently started active frame whose END is `pc` (R114). DESIGN CHOICE (log 101): a frame that a handler makes active
(R325) counts as started when the last loop on its counter was, and of two frames started in one cycle the lower counter's goes first. -/
def nextFrame (q : Seq) (pc : W64) : Option (Fin 4) :=
  (List.finRange 4).foldl (fun best i =>
    let f := q.frames.get i
    if f.active && f.stop == pc then
      match best with
      | some j => if (q.frames.get j).born < f.born then some i else best
      | none => some i
    else best) none

/-- The back-edge of R114 at END: the sequencer with its counters and frames updated, and the PC of a repetition. -/
def backEdge (pc : W64) : Nat → Seq → Seq × Option W64
  | 0, q => (q, none)
  | n + 1, q =>
    match nextFrame q pc with
    | none => (q, none)
    | some i =>
      let f := q.frames.get i
      let c := q.l.get i
      if c.toNat + 1 < f.count.toNat then ({ q with l := vset q.l i (c + 1) }, some f.start)
      else backEdge pc n { q with frames := vset q.frames i { f with active := false } }

/-- On C, A and S a back-edge reads its counter, which waits for a pending write of it (R98). -/
def frameInterlock (q : Seq) : Bool :=
  (List.finRange 4).any fun i => (q.frames.get i).active && (q.frames.get i).stop == q.pc &&
    q.pends (BitVec.ofNat 6 (48 + i.val))

end Sys2Proof.Machine
end

