-- ==== Sys2Proof/Machine/Ops.lean ====
section
/-! DEFINITION. Taking an exception and returning from one (R319-R328), the composite fault record (R329), stops (R332,
R410) and the one way in which an instruction issues (R90, R97, R101, R114). -/
namespace Sys2Proof.Machine

/-! ## Time and trace -/

/-- `tbnow` (R419): the module time base to within 1 ns, an open choice. -/
def State.tbNow (s : State) : W64 × State :=
  let (k, s) := s.choose 3
  (BitVec.ofNat 64 (s.tb + k - 1), s)

/-- A trace record (R420): written outside the ordering machine. -/
def State.trace (s : State) (w : Who) (kind : Nat) (w2 w3 : W64) : State :=
  let d := s.die (dieOf w.c)
  if !d.trace.on || !d.trace.kinds.getLsbD (kind - 1) then s
  else
    let cap := d.trace.size * 128
    if d.trace.stopMode && cap ≤ d.trace.count then
      s.modDie (dieOf w.c) fun d => { d with trace := { d.trace with dropped := d.trace.dropped + 1 } }
    else
      let (t, s) := s.tbNow
      let w1 : W64 := BitVec.ofNat 64 ((s.bank w).corr.toNat * 2 ^ 32 + w.c.val * 2 ^ 16 + w.q.val * 2 ^ 14 + kind)
      let a := d.trace.base.toNat + d.trace.count % (if cap = 0 then 1 else cap) * 32
      let s := { s with mem := s.mem.writeN a ([t, w1, w2, w3].flatMap fun (x : W64) => leBytes 8 x.toNat) }
      s.modDie (dieOf w.c) fun d => { d with trace := { d.trace with count := d.trace.count + 1 } }

/-! ## The replay queue (R326, R327) -/

/-- Whether an X instruction rounds under `.rs` (R326). -/
def roundsRs (i : Instr) : Bool :=
  match i with
  | .vquant f | .vdequant f | .vftoi f | .vitof f => cvtRound (cvtWord f) == 3
  | .mread f => (f.e.getD 0).toNat % 16 == 3
  | _ => false

/-- The eight words of a replay entry (R326), its captures starting at tile slot `ct`. -/
def XEnt.words (e : XEnt) (ct : Nat) : List W64 :=
  let iw := (encodeWord e.i).getD 0
  let ex := e.i.ext.getD 0
  [BitVec.ofNat 64 (ex.toNat * 2 ^ 32 + iw.toNat),
    BitVec.ofNat 64 ((if roundsRs e.i then 2 ^ 14 else 0) + (if e.pm.isSome then 2 ^ 13 else 0) + ct * 2 ^ 8 +
      e.caps.length * 2 ^ 5 + e.due),
    e.sv0, e.sv1, e.sv2, if roundsRs e.i then e.rss else 0, e.slotv.setWidth 64, BitVec.ofNat 64 (e.nres * 16 + e.q.val)]
/-- Entries in the capture store's order. -/
def replayWords : List XEnt → Nat → List W64
  | [], _ => []
  | e :: es, ct => e.words ct ++ replayWords es (ct + e.caps.length)

/-! ## The composite fault record (R329) -/

/-- Started and waiting commands of each engine that serves a core, in the order of words 7-13. -/
def State.engineCounts (s : State) (c : CoreId) : List (Nat × Nat) :=
  let k := s.core c
  let u := s.clu (cluOf c)
  let lamp := u.lamp.filter fun x => match x.kind with
    | .count _ _ => false
    | _ => true
  [(k.copyRun.length, k.copyFifo.length),
    (k.mRun.length + (if k.wRun.isSome then 1 else 0), k.mFifo.length),
    (k.outRun.length, k.outFifo.length),
    (k.reqs.length, k.bufs.length),
    (lamp.countP (·.started), lamp.countP (!·.started)),
    (if u.aeRun.isSome then 1 else 0, u.aeFifo.length),
    (if k.banks.any (fun b => b.saveTo.isSome) then 1 else 0, 0)]

/-- The state word of a sequencer (R329 words 1-4). -/
def stateWord (k : Bank) (q : SeqId) (faulted : Bool) : W64 :=
  let x := k.seqs.get q
  let st := if !x.started then 0 else if faulted then 12 else x.stall
  let obj := if st = 2 || st = 3 || st = 4 || st = 6 || st = 8 then x.obj else 0
  BitVec.ofNat 64 ((if q = 2 then k.slots % 2 ^ 48 * 2 ^ 16 else 0) + (if x.objG && st == 4 then 2 ^ 9 else 0) +
    obj % 32 * 2 ^ 4 + st)

/-- `qlevlo` and `qlevhi` (R75). -/
def State.levels (s : State) (w : Who) (hi : Bool) : W64 :=
  BitVec.ofNat 64 ((List.range 8).foldl (fun acc i =>
    acc + s.levelByte w ⟨(i + if hi then 8 else 0) % 16, by omega⟩ * 2 ^ (8 * i)) 0)

/-- The token of a bank's outstanding fault (R329 word 24). -/
def Bank.token (k : Bank) : W64 :=
  match k.fault with
  | some f => f.1
  | none => 0
/-- The composite fault record as the core stands, with the faulting sequencers and the token of the fault that it records (R329). -/
def State.composite (s : State) (w : Who) (faulted : List SeqId) (tok : W64) : List W64 :=
  let k := s.bank w
  let flags := (List.range 8).map fun j =>
    BitVec.ofNat 64 ((List.range 4).foldl (fun acc i =>
      acc + (k.f.get ⟨(4 * j + i) % 32, by omega⟩).v.toNat * 2 ^ (16 * i)) 0)
  let engs := (List.finRange 7).zip (s.engineCounts w.c)
  [s.cycles w.c] ++ (List.finRange 4).map (fun q => stateWord k q (faulted.contains q)) ++
    [s.levels w false, s.levels w true] ++
    engs.map (fun e => BitVec.ofNat 64 ((k.fseq.get e.1).toNat * 2 ^ 32 + (k.fcause.get e.1).toNat * 2 ^ 16 +
      e.2.1 % 256 * 2 ^ 8 + e.2.2 % 256)) ++
    [0, BitVec.ofNat 64 ((s.core w.c).parked.length % 128)] ++ flags ++
    [tok, k.iaddr, BitVec.ofNat 64 (k.iagent.toNat * 2 ^ 8 + k.icause.toNat), 0, 0, 0, 0, 0]

/-! ## The trap frame (R324, R325) -/

/-- INFO, header word 4 (R325). -/
def infoWord (cause : Byte) (q : SeqId) (sw prec : Bool) (tag : BitVec 18) (nrq : Nat) (barw : Bool) : W64 :=
  BitVec.ofNat 64 ((if barw then 2 ^ 37 else 0) + nrq * 2 ^ 32 + tag.toNat * 2 ^ 14 + (if prec then 2 ^ 11 else 0) +
    (if sw then 2 ^ 10 else 0) + q.val * 2 ^ 8 + cause.toNat)

/-- The next PC of a sequencer; WORD 0 marks one not started (R325). -/
def Seq.pcField (q : Seq) : W64 := if q.started then q.pc else 0

def LFrame.words (f : LFrame) : List W64 := [f.start, f.stop, f.count.setWidth 64, if f.active then 1 else 0]
/-- s0-s31, l0-l3 and the loop frames of a sequencer (R324, R334). -/
def Seq.fileWords (q : Seq) : List W64 :=
  (List.finRange 32).map (fun n => if n = 0 then 0 else q.s.get n) ++
    [BitVec.ofNat 64 ((q.l.get 0).toNat + (q.l.get 1).toNat * 2 ^ 32),
     BitVec.ofNat 64 ((q.l.get 2).toNat + (q.l.get 3).toNat * 2 ^ 32)] ++
    (List.finRange 4).flatMap fun i => (q.frames.get i).words

/-- The 288 words of a trap frame or frame image (R324), for a bank already frozen, captured and drained. -/
def State.frameWords (s : State) (w : Who) (info addr : W64) (composite : List W64) : List W64 :=
  let k := s.bank w
  let c := k.seqs.get 0
  let rq := replayWords k.replay 0
  (List.finRange 4).map (fun q => (k.seqs.get q).pcField) ++
    [info, addr, BitVec.ofNat 64 (k.tpend.toNat * 2 ^ 32 + (k.seqs.get 2).waitRem.toNat),
     BitVec.ofNat 64 (k.corr.toNat * 2 ^ 32 + k.recid.toNat)] ++
    c.fileWords ++ [k.cfs.setWidth 64] ++ List.replicate 5 0 ++ composite ++
    (rq ++ List.replicate 192 0).take 192

/-- Writes 8-byte words from a physical address for an agent. -/
def State.putWords (s : State) (a pa : Nat) (ws : List W64) : State :=
  s.putBytes a pa (ws.flatMap fun (x : W64) => leBytes 8 x.toNat)

/-! ## Freezing (R321 steps 1-3) -/

/-- Steps 1 to 3 of R321: no sequencer issues; X's pending instructions enter the replay queue; the pending writes of C, A
and S land. -/
def State.freeze (s : State) (w : Who) : State :=
  let s := s.modBank w fun k => 
    { k with
      frozen := true, replay := k.replay ++ k.xpend, xpend := []
      seqs := k.seqs.map fun q => { q with waitCmd := none, exiting := none, line := if q.todo = [] then none else q.line } }
  [w.seq 0, w.seq 1, w.seq 3].foldl (fun s x => s.landAll x) s


/-- The PC is that of an unfinished `bar`: BARW (R127, R325). -/
def Bank.saveBar (k : Bank) : Bank :=
  match k.bar with
  | some b => { k with bar := none, barSaved := some (b, (k.seqs.get 0).pc) }
  | none => k

/-! ## Stopping a task (R323, R332) -/

/-- Whether a command acts for a bank's task. -/
def State.ours (s : State) (w x : Who) : Bool := x.c == w.c && x.b == w.b && x.t == (s.bank w).serial

/-- The words of a copy still to do in 256-byte blocks of which it has done some (R332): none while it waits for a page. -/
def Run.partialLeft (r : Run) : List Nat :=
  if r.tok.isSome then [] else r.left.filter fun i => (List.range 32).any fun j => !r.left.contains (32 * (i / 32) + j)
def CKind.isCopy : CKind → Bool
  | .copy _ _ _ _ _ _ _ _ _ => true
  | _ => false
/-- A copy has not come to a 256-byte boundary. -/
def Run.midBlock (r : Run) : Bool := r.cmd.kind.isCopy && r.partialLeft != []
/-- The stop of R332: a kill's steps that act at once. Copies go on to their next 256-byte boundary, and the outstanding faults' tokens
are void (R352). Its completion is the event KILL_COMPLETE. -/
def State.beginKill (s : State) (w : Who) (requeue : Bool) : State :=
  let s := s.freeze w
  let o := s.ours w
  let s := s.modBank w fun k =>
    { k with replay := [], stopping := some (.kill requeue), bar := none, fault := none, blocked := false, faults := [] }
  s.modCore w.c fun k =>
    { k with
      copyFifo := k.copyFifo.filter fun c => !o c.who
      copyRun := k.copyRun.filter fun r => !o r.cmd.who || r.midBlock
      outFifo := k.outFifo.filter fun c => !o c.who
      outRun := k.outRun.filter fun r => !o r.cmd.who
      follow := k.follow.filter fun f => !o f.2.1
      mFifo := k.mFifo.filter fun m => !o m.who
      mRun := k.mRun.map fun r => if o r.who then { r with o := { r.o with n := r.recv } } else r
      parked := k.parked.filter fun p => !o p.who }

/-- A bank that holds no task: nothing of the one it held goes on, and its queues are empty. Its items keep their values until a
task starts in it, which sets them (R51). -/
def Bank.release (k : Bank) (now : Nat) : Bank :=
  { k with
    task := none, freedAt := now + 1, frozen := false, level := false, stopping := none, suspended := false, blocked := false
    fault := none, faults := [], replay := [], xpend := [], rqEdits := [], bar := none, barSaved := none, tpend := 0
    savef := false, saveTo := none, csrPend := [], fmtPend := []
    q := Vector.replicate 16 {}
    seqs := k.seqs.map fun q => { q with started := false, pend := [], unc := false, refused := [], steps := none, todo := [] } }
/-- A bank is freed (R132, R323). The core's next task is active from the next cycle (R308). -/
def State.freeBank (s : State) (w : Who) : State :=
  s.modCore w.c fun k =>
    { k.modBank w.b (·.release s.now) with
      active := if k.active = some w.b then none else k.active
      activeFrom := if k.active = some w.b then s.now + 1 else k.activeFrom }

/-! ## Debug stops (R410, R411) -/

/-- The stop record's words past its frame image (R411). -/
def State.stopTail (s : State) (w : Who) : List W64 :=
  let k := s.bank w
  (List.finRange 16).map (fun n =>
      BitVec.ofNat 64 ((k.q.get n).pushed.toNat * 2 ^ 32 + (k.q.get n).popped.toNat)) ++
    [k.qmap, k.flogidx] ++ List.replicate 14 0 ++ (List.finRange 64).map (fun i => k.flog.get i) ++ List.replicate 128 0

/-- A stop in place of a trap (R409, R410): steps 1 to 4 of R321, then the stop record where the debugger gave an address
for one, and DebugStop. The record is a cut at the start of the cycle (R412), the state `o` where it is not this one. -/
def State.stopCore (s : State) (w : Who) (cause : Byte) (q : SeqId) (prec sw : Bool) (tag : BitVec 18) (addr : W64)
    (faulted : List SeqId) (o : Option State := none) : State :=
  let comp := (o.getD s).composite w faulted (s.bank w).token
  let tail := (o.getD s).stopTail w
  let s := s.trace w 6 (s.sq w).pc (cause.setWidth 64)
  let s := s.freeze w
  let k := s.bank w
  let info := infoWord cause q sw prec tag k.replay.length k.bar.isSome
  let words := s.frameWords w info addr comp ++ tail
  let s := match (s.core w.c).dbgRec with
    | some a => s.putWords homeAgent a.toNat words
    | none => s
  let a := ((s.core w.c).dbgRec).getD 0
  let s := s.modCore w.c fun k => { k with stopped := some a, stepping := false, stopReq := none }
  s.event 0x000F [BitVec.ofNat 64 w.c.val, a]

/-! ## Taking a trap (R321-R323) -/

/-- A trap that cannot be taken (R323): the task is stopped as a kill without requeue, with one TrapNested event. -/
def State.nested (s : State) (w : Who) (args : List W64) : State :=
  (s.beginKill w false).event 0x0005 args

/-- The token of the next fault of a core (R346). -/
def State.newToken (s : State) (w : Who) (src : Nat) : W64 × State :=
  let n := (s.core w.c).seqNo
  (BitVec.ofNat 64 (w.c.val * 2 ^ 32 + w.b.val * 2 ^ 31 + src * 2 ^ 27 + n.toNat),
   s.modCore w.c fun k => { k with seqNo := n + 1 })

/-- Step 5 of R321 once the frame is in place: s1 and s2, level 1, and C at the handler. -/
def Bank.enter (k : Bank) (info : W64) : Bank :=
  { (k.saveBar.modSeq 0 fun q =>
      { q with
        s := vset (vset q.s 1 k.tfbase) 2 info
        pc := k.tvec, stall := 1, obj := 0, objG := false, waitRem := 0, armed := none }) with
    level := true
    bornSaved := Vector.ofFn fun i => ((k.seqs.get 0).frames.get i).born
    armedSaved := (k.seqs.get 0).armed }

/-- Whether a core stops on a cause in place of its trap: on a claimed core on a stop cause (R409), during a step on any (R415). -/
def Core.stopsOn (c : Core) (t : TrapInfo) : Bool :=
  c.claimed && (t.cause = cBreak || t.cause = cStep || t.cause = cWatch) || c.stepping
/-- Whether the frame area of a bank cannot take a frame (R323): its page faults, or an atom of it is uncorrectable. -/
def State.frameFails (s : State) (w : Who) : Bool :=
  let k := s.bank w
  match s.translate w.c 0 k.ctx k.ptroot k.tfbase.toNat 1 0 with
  | (.error _, _) => true
  | (.ok (pa, _), s) => s.poisoned pa 2304
/-- Whether taking a trap raises an event: DebugStop or TrapNested (R323, R410). -/
def State.trapPosts (s : State) (w : Who) (t : TrapInfo) : Bool :=
  (s.core w.c).stopsOn t || (s.bank w).level || s.frameFails w
/-- Whether the frame of a trap has to wait for a path to its home, or to a table of its walk (R11). -/
def State.frameLater (s : State) (w : Who) (t : TrapInfo) : Bool :=
  let k := s.bank w
  !(s.core w.c).stopsOn t && !k.level && (match s.translate w.c 0 k.ctx k.ptroot k.tfbase.toNat 1 0 with
    | (.error (0, _), _) => true
    | (.error _, _) => false
    | (.ok (pa, _), s) => !s.carries (dieOf w.c) (homeDie pa) pa)
/-- Whether a trap must wait for a place in the event store (R362), or for its frame. -/
def State.trapWaits (s : State) (w : Who) (t : TrapInfo) : Bool := 4096 ≤ s.evWaiting && s.trapPosts w t || s.frameLater w t

/-- Takes a trap on the bank of `w` (R321): freeze, capture, drain, record, enter. A precise cause at level 1, or a frame
that cannot be written, is a nested trap (R323): its translation faults, or its area holds an uncorrectable atom. On a claimed
core Breakpoint, SingleStep and Watchpoint stop the core
(R409), as does any trap during a step (R415). The composite record is of the start of the cycle, the state `o` where it is not this
one (step 4). -/
def State.takeTrap (s : State) (w : Who) (t : TrapInfo) (prec : Bool := true) (o : Option State := none) : State :=
  let k := s.bank w
  let c := s.core w.c
  let faulted := if prec then [w.q] else []
  if c.stopsOn t then s.stopCore w t.cause w.q prec t.sw t.tag t.addr faulted o
  else if k.level then
    s.nested w [k.tfbase, t.cause.setWidth 64, t.fetch.getD (s.sq w).pc, 0]
  else
    let s := s.trace w 5 (s.sq w).pc (t.cause.setWidth 64)
    -- a translation fault is outstanding under its token (R346, R348)
    let s := match t.pf with
      | some pf =>
        let (tok, s) := s.newToken w w.q.val
        s.modBank w fun k => { k with pfinfo := pf, fault := some (tok, t.addr, fld pf 15 13) }
      | none => s
    let comp := (o.getD s).composite w faulted (s.bank w).token
    let pc := (s.sq w).pc
    let s := s.freeze w
    let s := s.modBank w fun k => { k with comp := comp }
    let k := s.bank w
    let info := infoWord t.cause (if prec then w.q else 0) t.sw prec t.tag k.replay.length k.bar.isSome
    let words := s.frameWords w info t.addr comp
    match s.translate w.c 0 k.ctx k.ptroot k.tfbase.toNat 1 0 with
    | (.error (cause, _), s) => s.nested w [k.tfbase, cause.setWidth 64, pc, t.cause.setWidth 64]
    | (.ok (pa, _), s) =>
      if s.poisoned pa 2304 then s.nested w [k.tfbase, cUncorr.setWidth 64, pc, t.cause.setWidth 64]
      else
        let s := s.putWords (w.seq 0).agent pa words
        s.modBank w (·.enter info)

/-! ## Returning (R328) -/

/-- The capture store of a bank: the captures of its replay entries in order (R327). -/
def Bank.captures (k : Bank) : List Cap := k.replay.flatMap (·.caps)

/-- One replay entry read back from a frame: eight words, its place, and the entry that stands live in the bank (R327,
R328). A word that `rqwr` wrote stands over the frame's (log 48). -/
def entryOf (k : Bank) (idx : Nat) (ws : List W64) : Option XEnt :=
  let g (n : Nat) : W64 := (NMap.get? k.rqEdits (8 * idx + n)).getD (ws.getD n 0)
  let iw : W32 := (g 0).setWidth 32
  let ex : W32 := BitVec.ofNat 32 (fld (g 0) 63 32)
  match decodeWord iw (if wLong iw then some ex else none) with
  | .error _ => none
  | .ok i =>
    let due := fld (g 1) 4 0
    let nt := fld (g 1) 7 5
    let ct := fld (g 1) 12 8
    let nres := fld (g 7) 8 4
    if !i.home.contains 2 || due < 1 || 20 < due || 24 < ct + nt || 16 < nres then none
    else
      let live := k.replay[idx]?
      some {
        i := i, due := due, sv0 := g 2, sv1 := g 3, sv2 := g 4
        caps := (k.captures.drop ct).take nt
        pm := if (g 1).getLsbD 13 then (match live with
          | some e => e.pm
          | none => none) else none
        rss := g 5, slotv := (g 6).setWidth 32
        rid := (match live with
          | some e => e.rid
          | none => 0)
        nres := nres, q := ⟨fld (g 7) 3 0 % 16, by omega⟩ }

/-- The replay entries of a frame, or none where one fails the checks of R328. -/
def entriesOf (k : Bank) (ws : List W64) : Nat → Nat → Option (List XEnt)
  | _, 0 => some []
  | idx, n + 1 =>
    match entryOf k idx ((ws.drop (96 + 8 * idx)).take 8), entriesOf k ws (idx + 1) n with
    | some e, some es => some (e :: es)
    | _, _ => none

/-- The live replay queue with the words that `rqwr` wrote in it (R138, R327); an entry that would not pass the checks of R328 stays
as it was. -/
def Bank.edited (k : Bank) : List XEnt :=
  if k.rqEdits = [] then k.replay
  else
    let ws := replayWords k.replay 0
    k.replay.zipIdx.map fun e => (entryOf k e.2 ((ws.drop (8 * e.2)).take 8)).getD e.1
/-- The replay queue returns to the pipeline: its entries fall due after their remaining slots (R328). -/
def Bank.thaw (k : Bank) : Bank := { k with frozen := false, xpend := k.edited ++ k.xpend, replay := [], rqEdits := [] }

/-- A PC field that `resume` accepts (R328). -/
def pcFieldOk (pc : W64) : Bool := fld pc 63 57 == 0 && fld pc 1 0 == 0 && fld pc 5 2 != 0

/-- frame_ok of R328, and the entries of the frame. -/
def frameOk (k : Bank) (ws : List W64) (anyCause : Bool) : Option (List XEnt) :=
  let info := ws.getD 4 0
  if !(isCause (fld info 7 0) || anyCause && fld info 7 0 == 0) || 24 < fld info 36 32 then none
  else if !((List.finRange 4).all fun q => !(k.seqs.get q).started || pcFieldOk (ws.getD q.val 0)) then none
  else entriesOf k ws 0 (fld info 36 32)

/-- The file of C from a frame: s1-s31, l0-l3 and the loop frames (R328). -/
def Seq.fromFrame (q : Seq) (ws : List W64) (born : Vector Nat 4) : Seq :=
  { q with
    s := Vector.ofFn fun n => if n = 0 then 0 else ws.getD (8 + n.val) 0
    l := Vector.ofFn fun n =>
      BitVec.ofNat 32 ((ws.getD (40 + n.val / 2) 0).toNat / 2 ^ (32 * (n.val % 2)))
    frames := Vector.ofFn fun n =>
      { active := (ws.getD (42 + 4 * n.val + 3) 0).getLsbD 0
        start := ws.getD (42 + 4 * n.val) 0
        stop := ws.getD (42 + 4 * n.val + 1) 0
        count := (ws.getD (42 + 4 * n.val + 2) 0).setWidth 32
        born := born.get n } }

/-- The wait of an unfinished `bar` goes on when BARW is still set and PCC unchanged (R127). DESIGN CHOICE (log 101): a tail slot
that an abandoned `bar` reserved for its result stays reserved. -/
def Bank.backToBar (k : Bank) (ws : List W64) : Bank :=
  match k.barSaved with
  | some (b, pc) =>
    if (ws.getD 4 0).getLsbD 37 && ws.getD 0 0 == pc then { k with bar := some b, barSaved := none }
    else { k with barSaved := none }
  | none => k

/-- Continues a frozen bank from its frame (R328): C's files, the PCs of the started sequencers, WAITREM, the replay
entries back in the pipeline, and the level. A register restored so has no writer retained (R330). -/
def Bank.resumeFrom (k : Bank) (ws : List W64) (es : List XEnt) (level : Bool) : Bank :=
  let seqs : Vector Seq 4 := Vector.ofFn fun q =>
    let x := k.seqs.get q
    let x := if q = 0 then { x.fromFrame ws k.bornSaved with ret := [], armed := k.armedSaved } else x
    if x.started then
      { x with pc := ws.getD q.val 0, todo := if ws.getD q.val 0 = x.pc then x.todo else []
               line := if ws.getD q.val 0 = x.pc then x.line else none, stall := 1, obj := 0, objG := false,
               waitRem := if q = 2 then BitVec.ofNat 32 (fld (ws.getD 6 0) 31 0) else x.waitRem }
    else x
  { (k.backToBar ws) with
    seqs := seqs
    cfs := (ws.getD 58 0).setWidth 5
    xpend := es, replay := [], rqEdits := [], armedSaved := none, frozen := false, level := level }

/-! ## Issue -/

/-- Where control goes after an instruction: to its successor, to a PC, or nowhere yet: what it did stands, and it goes on
in a later turn, held with a STATE of R329. `moved` is for an instruction that has gone to its successor before it acts, `stay` for
`exit` and `resume`, which have none (R132, R328): it waits, or its task is over or goes on where it was. -/
inductive Flow where
  | next
  | to (pc : W64)
  | again (st : Nat)
  | moved
  | stay (st : Nat)
  deriving DecidableEq, Repr

/-- The instructions that only level 1 may issue (R319); system register writes are checked by their own meanings. -/
def isPrivileged (i : Instr) : Bool :=
  match i with
  | .resume _ | .tlbinv _ | .rqrd _ | .rqwr _ | .pgmap _ | .pgdone _ => true
  | _ => false
/-- A vector instruction, for the count of R418. -/
def isVector (i : Instr) : Bool :=
  match encodeWord i with
  | some w => 0x30 ≤ (wMaj w).toNat && (wMaj w).toNat ≤ 0x3A
  | none => false

/-- Checks 2 to 4 of R90. -/
def entryChecks (i : Instr) : Act Unit := do
  need i.wf cIllegal
  let s ← get
  need (i.home.contains s.cur.q) cNotThis
  need (!isPrivileged i || (s.bank s.cur).level) cPrivileged

/-- The sequencer past an instruction that does not transfer control: the back-edge or the successor, whose line is checked first
(R81, R82, R114). DESIGN CHOICE (log 101): a successor in the same line meets its checks when it is decoded (R90), so that a long word
at CNT which is reached so raises IllegalInstruction itself, and the instruction before it has its effect. -/
def succOf (i : Instr) (q : Seq) : Act Seq := do
  match backEdge q.pc 4 q with
  | (q', some pc) => do
    let _ ← fetchCheck pc
    pure { q' with pc := pc }
  | (q', none) => do
    let pc ← nextInChain i.len
    if pcLine pc != pcLine q.pc then
      let _ ← fetchCheck pc
    pure { q' with pc := pc }

/-- Moves the sequencer after its instruction has taken effect: on X the slot passes; then the transfer or the successor (R81, R97).
An instruction that goes on in a later turn has its successor checked too, before its effect stands (R82). On C, A and S the
instruction's own write of a counter lands before the back-edge reads it (R98). -/
def advance (i : Instr) (flow : Flow) : Act Unit := do
  let s ← get
  let w := s.cur
  let wait := match flow with
    | .again _ => true
    | .stay _ => true
    | _ => false
  let s := if w.q = 2 && !wait then (s.xSlot w).count w 1 1 else s
  let s := if w.q = 2 && isVector i then s.count w 5 1 else s
  let s := if w.q != 2 && flow = .next && frameInterlock (s.sq w) then s.landAll w else s
  set s
  match flow with
  | .again _ => do
    let _ ← succOf i (s.sq w)
    pure ()
  | .to pc => do
    let _ ← fetchCheck pc
    modify fun s => s.modSeq w fun q => { q with pc := pc }
  | .next => do
    let q ← succOf i (s.sq w)
    modify fun s => s.modSeq w fun _ => q
  | .moved => pure ()
  | .stay _ => pure ()

/-- The sequencer has issued in this cycle, or is held by what its instruction waits for; a freed bank stays as it is. -/
def State.issued (s : State) (w : Who) (flow : Flow) : State :=
  if (s.bank w).task.isNone then s
  else match flow with
  | .again st =>
    let l := s.lineNow w
    s.modSeq w fun q => { q with stall := st, obj := 0, objG := false, last := s.now + 1, line := l }
  | .stay st => s.modSeq w fun q => { q with stall := st, obj := 0, objG := false, last := s.now + 1 }
  | _ => s.modSeq w fun q =>
    { q with stall := 1, obj := 0, objG := false, last := s.now + 1, armed := none, line := none, asked := none,
             steps := q.steps.map (· - 1) }

/-- Clears a sequencer's pending UncorrectableData; `tpend`[8] stands while another sequencer of the bank has one (R124,
R331). -/
def Bank.clearUnc (k : Bank) (q : SeqId) : Bank :=
  let k := k.modSeq q fun x => { x with unc := false }
  if k.seqs.any (·.unc) then k else { k with tpend := k.tpend &&& 0xFF }
/-- A precise trap of the sequencer whose turn it is: what its fetch or its access has read of tables stands (R342), a refusal that
raised it is used up (R348), the errors it delivers are cleared (R124, R132), and a watchpoint does not fire again at once (R416). -/
def State.trapped (s : State) (t : TrapInfo) (o : Option State := none) : State :=
  let w := s.cur
  let s := if t.seen = [] then s else s.modAgent (tlbAgent w.c 0) fun g => { g with view := g.view.join { fl := t.seen } }
  let s := match t.refusal with
    | some r => s.modSeq w fun q => { q with refused := q.refused.filter (· != r) }
    | none => s
  let s := if t.clears = [] then s else s.modBank w fun k => t.clears.foldl (fun k q => k.clearUnc q) k
  let s := if t.cause = cWatch then s.modSeq w fun q => { q with armed := some q.pc } else s
  s.takeTrap w t true o
/-- What a stop does to the state it stopped at: a hold records STATE and OBJ (R329); one for the holders of a duplicate asks them for
it, and each gives it up in its time (R278); a trap is taken, or in a cycle of the core
is one of those among which the lowest sequencer's is taken (R322). A trap that raises an event waits for a place for it (R362). -/
def State.stopped (s : State) (x : Stop) : State :=
  let w := s.cur
  match x with
  | .hold st obj g => s.modSeq w fun q =>
      { q with stall := st, obj := obj, objG := g, since := if q.stall = st && q.obj = obj then q.since else s.now }
  | .fetch line => s.modSeq w fun q => { q with stall := 10, obj := 0, objG := false, want := line }
  | .holders line =>
    let s := s.modSeq w fun q => { q with stall := 13, obj := 0, objG := false }
    match (s.sq w).asked with
    | some (l, _) =>
      if l = line then
        let (d, s) := s.choose 8
        s.giveUp [32 * line] (BitVec.ofNat 8 (2 ^ d))
      else s.modSeq w fun q => { q with asked := some (line, s.tb) }
    | none => s.modSeq w fun q => { q with asked := some (line, s.tb) }
  | .trap t =>
    if s.phase = .alone then
      if s.trapWaits w t then s.modSeq w fun q => { q with stall := 13, obj := 0, objG := false } else s.trapped t
    else { s with raised := s.raised ++ [(w, t)] }

/-- The outcome of a sequencer's turn. -/
def outcome (s : State) (r : Except Stop (Unit × State)) : Host.Outcome State Fault Refusal :=
  match r with
  | .ok (_, t) => .next t
  | .error x => .next (s.stopped x)

/-- Issues an instruction on the sequencer whose turn it is: the checks of R90, its own effect, then its successor. An
instruction that is held or traps has no effect (R101). `lim` are the limits on run-time operands, which come with the checks
that raise IllegalInstruction (R117, R119). DEDUCED (log 24): where an instruction's own check fails and a fetch check of its
successor too, its own is raised, as R94 has it for `ret` and `jmp`. -/
def issueLim (i : Instr) (s : State) (lim : Act Unit) (body : Act Flow) : Host.Outcome State Fault Refusal :=
  outcome s <| StateT.run (s := s) do
    need i.wf cIllegal
    lim
    entryChecks i
    let s0 ← get
    if s0.cur.q != 2 && frameInterlock (s0.sq s0.cur) then hold 9
    let flow ← body
    advance i flow
    modify fun s => s.issued s.cur flow
/-- Issues an instruction whose limits are all in its encoding. -/
def issue (i : Instr) (s : State) (body : Act Flow) : Host.Outcome State Fault Refusal := issueLim i s (pure ()) body

end Sys2Proof.Machine
end

