-- ==== Sys2Proof/Machine/Integer.lean ====
section
/-! DEFINITION. The scalar instructions: integer arithmetic, constants, compares (R105-R109) and C's floating point (R110). -/
namespace Sys2Proof.Machine

abbrev Out := Host.Outcome State Fault Refusal

/-- The register that a destination field names, for parity repair (R330). -/
def fieldFile (f : BitVec 6) : List (Nat × Nat) :=
  if f.toNat = 0 then [] else if f.toNat < 32 then [(0, f.toNat)]
  else if 48 ≤ f.toNat && f.toNat < 52 then [(1, f.toNat - 48)] else []

/-- Reserves under one number the tail slots that an X instruction's destination fields name (R88): the number, how many,
and the first queue. -/
def reserveX (fs : List (BitVec 6)) : Act (Nat × Nat × Fin 16) := do
  match fs.filter fQueue with
  | [] => pure (0, 0, 0)
  | q :: qs => do
    let r ← newRid
    let rec go : List (BitVec 6) → Act Unit
      | [] => pure ()
      | f :: fs => do
        let s ← get
        if (s.queue s.cur (fQ f)).full then hold 3 (fQ f).val
        set (s.modQ s.cur (fQ f) (·.reserve r))
        go fs
    go (q :: qs)
    pure (r, (q :: qs).length, fQ q)

/-- Leaves the result of a scalar instruction to land: on X at its due slot, recomputed then from its sources (R97, R327); on
C, A and S after its latency (R98). -/
def scalarResult (i : Instr) (d : BitVec 6) (lat : Nat) (x y z : W64) : Act Flow := do
  let s ← get
  if s.cur.q = 2 then do
    let (rid, n, q) ← reserveX [d]
    addX { i := i, due := lat, sv0 := x, sv1 := y, sv2 := z, rid := rid, nres := n, q := q } (fieldFile d)
  else do
    let t ← destOf d
    pendWrite t (scalarVal i x y z) lat
  pure .next

/-- The value at a place of a list of sources. -/
def nthV (vs : List W64) (n : Nat) : W64 := vs.getD n 0

/-- F-RRR with the generic long rule: sources a and b, or a and the wide immediate (R86, R106). -/
def sourcesAB (f : RRR) : Act (W64 × W64) := do
  match wideImm f.e [f.a, f.b] with
  | some y => do
    let vs ← sources f.e [f.a] [f.d]
    pure (nthV vs 0, y)
  | none => do
    let vs ← sources f.e [f.a, f.b] [f.d]
    pure (nthV vs 0, nthV vs 1)
/-- The limits of an entry on its operands a and b (R117), as `sourcesAB` takes them. -/
def limitAB (f : RRR) (ok : W64 → W64 → Bool) : Act Unit :=
  match wideImm f.e [f.a, f.b] with
  | some y => limits f.e [f.a] fun vs => ok (nthV vs 0) y
  | none => limits f.e [f.a, f.b] fun vs => ok (nthV vs 0) (nthV vs 1)
/-- Register forms (R106, R109). -/
def aluRRR (i : Instr) (f : RRR) (lat : Nat) : Act Flow := do
  let (x, y) ← sourcesAB f
  scalarResult i f.d lat x y 0
/-- Forms with one source, whose field b is reserved (R109). -/
def aluUn (i : Instr) (f : RRR) (lat : Nat) : Act Flow := do
  let vs ← sources f.e [f.a] [f.d]
  scalarResult i f.d lat (nthV vs 0) 0 0
/-- Immediate forms (R107). -/
def aluRRI (i : Instr) (f : RRI) (lat : Nat) : Act Flow := do
  let vs ← sources f.e [f.a] [f.d]
  scalarResult i f.d lat (nthV vs 0) ((wideImm f.e [f.a]).getD (sx f.imm)) 0

/-- `nop` (R105). -/
def execNop (s : State) : Out := issue .nop s (pure .next)

/-- `add` (R106), latency 1 (R102). -/
def execAdd (f : RRR) (s : State) : Out := issue (.add f) s (aluRRR (.add f) f 1)
/-- `sub` (R106), latency 1 (R102). -/
def execSub (f : RRR) (s : State) : Out := issue (.sub f) s (aluRRR (.sub f) f 1)
/-- `and` (R106), latency 1 (R102). -/
def execAnd (f : RRR) (s : State) : Out := issue (.and f) s (aluRRR (.and f) f 1)
/-- `or` (R106), latency 1 (R102). -/
def execOr (f : RRR) (s : State) : Out := issue (.or f) s (aluRRR (.or f) f 1)
/-- `xor` (R106), latency 1 (R102). -/
def execXor (f : RRR) (s : State) : Out := issue (.xor f) s (aluRRR (.xor f) f 1)
/-- `shl` (R106), latency 1 (R102). -/
def execShl (f : RRR) (s : State) : Out := issue (.shl f) s (aluRRR (.shl f) f 1)
/-- `shr` (R106), latency 1 (R102). -/
def execShr (f : RRR) (s : State) : Out := issue (.shr f) s (aluRRR (.shr f) f 1)
/-- `sra` (R106), latency 1 (R102). -/
def execSra (f : RRR) (s : State) : Out := issue (.sra f) s (aluRRR (.sra f) f 1)
/-- `mul` (R106), latency 3 (R102). -/
def execMul (f : RRR) (s : State) : Out := issue (.mul f) s (aluRRR (.mul f) f 3)
/-- `mulh` (R106), latency 3 (R102). -/
def execMulh (f : RRR) (s : State) : Out := issue (.mulh f) s (aluRRR (.mulh f) f 3)
/-- `min` (R106), latency 1 (R102). -/
def execMin (f : RRR) (s : State) : Out := issue (.min f) s (aluRRR (.min f) f 1)
/-- `max` (R106), latency 1 (R102). -/
def execMax (f : RRR) (s : State) : Out := issue (.max f) s (aluRRR (.max f) f 1)
/-- `div` (R106), latency 20 (R102). -/
def execDiv (f : RRR) (s : State) : Out := issue (.div f) s (aluRRR (.div f) f 20)
/-- `addi` (R107), latency 1 (R102). -/
def execAddi (f : RRI) (s : State) : Out := issue (.addi f) s (aluRRI (.addi f) f 1)
/-- `andi` (R107), latency 1 (R102). -/
def execAndi (f : RRI) (s : State) : Out := issue (.andi f) s (aluRRI (.andi f) f 1)
/-- `ori` (R107), latency 1 (R102). -/
def execOri (f : RRI) (s : State) : Out := issue (.ori f) s (aluRRI (.ori f) f 1)
/-- `xori` (R107), latency 1 (R102). -/
def execXori (f : RRI) (s : State) : Out := issue (.xori f) s (aluRRI (.xori f) f 1)
/-- `shli` (R107), latency 1 (R102). -/
def execShli (f : RRI) (s : State) : Out := issue (.shli f) s (aluRRI (.shli f) f 1)
/-- `shri` (R107), latency 1 (R102). -/
def execShri (f : RRI) (s : State) : Out := issue (.shri f) s (aluRRI (.shri f) f 1)
/-- `srai` (R107), latency 1 (R102). -/
def execSrai (f : RRI) (s : State) : Out := issue (.srai f) s (aluRRI (.srai f) f 1)
/-- `muli` (R107), latency 3 (R102). -/
def execMuli (f : RRI) (s : State) : Out := issue (.muli f) s (aluRRI (.muli f) f 3)
/-- `li` (R108): no source field; a long form holds the immediate in E. -/
def execLi (f : RI) (s : State) : Out := issue (.li f) s do
  let _ ← sources none [] [f.d]
  scalarResult (.li f) f.d 1 0 (match f.e with
    | some e => sx e
    | none => sx f.imm) 0
/-- `lcat` (R108): d is source and destination. -/
def execLcat (f : RI) (s : State) : Out := issue (.lcat f) s do
  let vs ← sources none [f.d] [f.d]
  scalarResult (.lcat f) f.d 1 0 (zx f.imm) (nthV vs 0)
/-- `seq` (R109). -/
def execSeq (f : RRR) (s : State) : Out := issue (.seq f) s (aluRRR (.seq f) f 1)
/-- `sne` (R109). -/
def execSne (f : RRR) (s : State) : Out := issue (.sne f) s (aluRRR (.sne f) f 1)
/-- `slt` (R109). -/
def execSlt (f : RRR) (s : State) : Out := issue (.slt f) s (aluRRR (.slt f) f 1)
/-- `sltu` (R109). -/
def execSltu (f : RRR) (s : State) : Out := issue (.sltu f) s (aluRRR (.sltu f) f 1)
/-- `sle` (R109). -/
def execSle (f : RRR) (s : State) : Out := issue (.sle f) s (aluRRR (.sle f) f 1)
/-- `sleu` (R109). -/
def execSleu (f : RRR) (s : State) : Out := issue (.sleu f) s (aluRRR (.sleu f) f 1)
/-- `csel` (R109): the tail slot of a queue is reserved at issue; when x = 0 it is given back and d keeps its value. -/
def execCsel (f : RRR) (s : State) : Out := issue (.csel f) s do
  let (x, y) ← sourcesAB f
  let s ← get
  if s.cur.q = 2 then scalarResult (.csel f) f.d 1 x y 0
  else do
    let t ← destOf f.d
    if x = 0 then
      match t with
      | .q n r => modify fun s => s.modQ s.cur n (·.unreserve r)
      | _ => pure ()
    else pendWrite t y
    pure .next
/-- `clz` (R109). -/
def execClz (f : RRR) (s : State) : Out := issue (.clz f) s (aluUn (.clz f) f 1)
/-- `ctz` (R109). -/
def execCtz (f : RRR) (s : State) : Out := issue (.ctz f) s (aluUn (.ctz f) f 1)
/-- `popc` (R109). -/
def execPopc (f : RRR) (s : State) : Out := issue (.popc f) s (aluUn (.popc f) f 1)

/-! ## Floating point on C (R110) -/

/-- A floating result: flags into `cfs`, the value to d. -/
def fpResult (d : BitVec 6) (lat : Nat) (r : W64 × Flags) : Act Flow := do
  raiseCfs r.2
  let t ← destOf d
  pendWrite t r.1 lat
  pure .next
/-- A function of two FP32 operands. -/
def fpRRR (f : RRR) (lat : Nat) (op : W32 → W32 → W64 × Flags) : Act Flow := do
  let (x, y) ← sourcesAB f
  fpResult f.d lat (op (lo32 x) (lo32 y))
/-- The rounding of `ftoi` and `itof` with its draw (R41, R110). DESIGN CHOICE (log 101): a sequencer other than X reaches its
rounding stage as the instruction issues. -/
def fpRound (f : RRR) (op : W64 → RMode → Nat → W64 × Flags) : Act Flow := do
  let vs ← sources f.e [f.a] [f.d]
  let s ← get
  let k := s.bank s.cur
  let rs := f.b == 3
  let (seed, rho) := if rs then draw k.rsseed else (k.rsseed, 0)
  set (s.modBank s.cur fun k => { k with rsseed := seed })
  fpResult f.d 3 (op (nthV vs 0) (RMode.ofCode f.b.toNat) rho)

/-- `fadd` (R110). -/
def execFadd (f : RRR) (s : State) : Out := issue (.fadd f) s (fpRRR f 4 fun x y => fpWord (fadd32 x y))
/-- `fsub` (R110). -/
def execFsub (f : RRR) (s : State) : Out := issue (.fsub f) s (fpRRR f 4 fun x y => fpWord (fsub32 x y))
/-- `fmul` (R110). -/
def execFmul (f : RRR) (s : State) : Out := issue (.fmul f) s (fpRRR f 4 fun x y => fpWord (fmul32 x y))
/-- `fmin` (R110). -/
def execFmin (f : RRR) (s : State) : Out := issue (.fmin f) s (fpRRR f 2 fun x y => fpWord (fmin32 x y))
/-- `fmax` (R110). -/
def execFmax (f : RRR) (s : State) : Out := issue (.fmax f) s (fpRRR f 2 fun x y => fpWord (fmax32 x y))
/-- `fmad` (R110): z = src(d), read last; one rounding. -/
def execFmad (f : RRR) (s : State) : Out := issue (.fmad f) s do
  let (x, y, z) ← (match wideImm f.e [f.a, f.b, f.d] with
    | some y => do
      let vs ← sources f.e [f.a, f.d] [f.d]
      pure (nthV vs 0, y, nthV vs 1)
    | none => do
      let vs ← sources f.e [f.a, f.b, f.d] [f.d]
      pure (nthV vs 0, nthV vs 1, nthV vs 2) : Act (W64 × W64 × W64))
  fpResult f.d 5 (fpWord (ffma32 (lo32 x) (lo32 y) (lo32 z)))
/-- `flt` (R110). -/
def execFlt (f : RRR) (s : State) : Out := issue (.flt f) s (fpRRR f 2 flt32)
/-- `ftoi` (R110). -/
def execFtoi (f : RRR) (s : State) : Out := issue (.ftoi f) s (fpRound f fun x m r => ftoi32 (lo32 x) m r)
/-- `itof` (R110). -/
def execItof (f : RRR) (s : State) : Out := issue (.itof f) s (fpRound f itof64)

end Sys2Proof.Machine
end

