-- ==== Sys2Proof/Machine/Paths.lean ====
section
/-! DEFINITION. The die links as paths (R370, R371, R373) and the remote port's combine buffers (R216). -/
namespace Sys2Proof.Machine

/-- 1 ms of the module time base (R258, R373). -/
abbrev oneMs : Nat := 1000000
/-- Whether no path has joined two dies for 1 ms (R373). -/
def State.cutFor (s : State) (x y : DieId) : Bool :=
  match NMap.get? s.cuts (x.val * 8 + y.val) with
  | some t => !s.reach x y && t + oneMs ≤ s.tb
  | none => false
/-- Notes since when pairs of dies have had no path. -/
def State.noteCuts (s : State) : State :=
  { s with cuts := (List.finRange 8).foldl (fun m x => (List.finRange 8).foldl (fun m y =>
      if s.reach x y then NMap.del m (x.val * 8 + y.val)
      else match NMap.get? m (x.val * 8 + y.val) with
        | some _ => m
        | none => NMap.put m (x.val * 8 + y.val) s.tb) m) s.cuts }

/-- An atomic of C, A or S on a home that a path may not reach, or whose module retrains (R123, R373, R379): it waits, and after 1 ms
without a path it is given up with the
value of R217 and LinkPoison to C. -/
def atomicFar (l n : Nat) (ea : W64) (f : W64 → W64) (acq rel : Option Nat) : Act W64 := do
  let s ← get
  if s.carries (dieOf s.cur.c) (homeDie l) l then atomicAt l n ea f acq rel
  else if s.cutFor (dieOf s.cur.c) (homeDie l) then do
    set (s.imprecise s.me 7 cLink ea (BitVec.ofNat 8 s.cur.idx))
    pure badWord
  else hold 13

/-! ## The remote port -/

/-- A port of the module. -/
def State.ulnex (s : State) (p : Nat) : Port := (NMap.get? s.ports p).getD {}
/-- The port over which a request to a node goes: its ports in service share its requests by 256-byte block (R375). DESIGN CHOICE (log
104): the block's number takes them in turn. -/
def State.portFor (s : State) (node : BitVec 16) (addr : Nat) : Option Nat :=
  let l := (List.range 18).filter fun p => (Config.route node).getLsbD p && !(s.ulnex p).fenced
  if l = [] then none else some (l.getD (addr / 256 % l.length) 0)
/-- Unacknowledged flits that a port keeps (R375). -/
abbrev portBuf : Nat := 256
/-- A request to a peer enters the replay buffer of its port under the next number (R369, R375). -/
def State.portSend (s : State) (p core req : Nat) : State :=
  let x := s.ulnex p
  { s with ports := NMap.put s.ports p { x with nextNum := x.nextNum + 1, buf := x.buf ++ [⟨x.nextNum, req, core, false⟩] } }
/-- The answer to a request, or its being given up, frees its place in the buffer. -/
def State.portFree (s : State) (core req : Nat) : State :=
  { s with ports := s.ports.map fun x => (x.1, { x.2 with buf := x.2.buf.filter fun f => !(f.core == core && f.req == req) }) }
/-- A port is fenced: what it has sent goes over the node's other ports, or is given up (R372, R373, R386). -/
def State.fencePort (s : State) (p : Nat) : State :=
  let x := s.ulnex p
  let s := { s with ports := NMap.put s.ports p { x with buf := [], fenced := true } }
  x.buf.foldl (fun s f =>
    if h : f.core < 512 then
      match (s.core ⟨f.core, h⟩).reqs.find? fun r => r.id == f.req with
      | some r => match s.portFor r.node r.addr with
        | some q => s.portSend q f.core f.req
        | none => s
      | none => s
    else s) s

/-- The destination number of a request: a die of this module, or past 16 a node. -/
def dstOf (own : Bool) (node : BitVec 16) (l : Nat) : Nat := if own then (homeDie l).val else 16 + node.toNat

/-- Rows and atomics that a port may have unacknowledged (R222). -/
abbrev portDepth : Nat := 64
def Core.portRoom (k : Core) (n : Nat) : Bool := k.reqs.length + n ≤ portDepth

/-- A request enters the port, held until what comes before it allows it to leave. -/
def State.addReq (s : State) (c : CoreId) (r : Req) : State :=
  s.modCore c fun k => { k with reqs := k.reqs ++ [r] }

/-- A combine buffer leaves as one masked write of its block (R216). -/
def CBuf.req (b : CBuf) (id tb : Nat) : Req :=
  { id := id, who := b.who, ctx := b.ctx, node := b.node, dst := dstOf (b.node = 0xFFFF) b.node (256 * b.block),
    atomic := false, addr := 256 * b.block, mask := b.mask, data := b.data, view := b.view, iv := b.iv, since := tb, nth := b.nth }
/-- Sends one buffer of a core, when the port has room. -/
def State.sendBuf (s : State) (c : CoreId) (n : Nat) : State :=
  match (s.core c).bufs[n]? with
  | none => s
  | some b =>
    if !(s.core c).portRoom 1 then s
    else
      let s := s.modCore c fun k => { k with bufs := k.bufs.eraseIdx n }
      s.addReq c (b.req b.id s.tb)
/-- Sends every open buffer of a core that has room (R216 case 3). -/
def State.flushPort (s : State) (c : CoreId) : State :=
  (List.range (s.core c).bufs.length).foldl (fun s _ => s.sendBuf c 0) s

end Sys2Proof.Machine
end

