-- ==== Sys2Proof/Machine/MemInstr.lean ====
section
/-! DEFINITION. Loads, stores, atomics and fences (R121-R124). -/
namespace Sys2Proof.Machine

/-- What a load or store says of its access (R121): offset, scope of its order, consuming. -/
structure MemForm where
  off : W64
  ord : Option Nat
  cons : Bool

/-- The signed 24-bit offset of an extension word. -/
def off24 (e : W32) : W64 := (e.setWidth 24).signExtend 64
/-- SCOPE of an extension word. -/
def scopeOf (e : W32) : Nat := fld e 31 29

/-- The short form is relaxed at sext(imm9); a long one takes its E. -/
def memForm (f : RRI) : MemForm :=
  match f.e with
  | none => ⟨sx f.imm, none, false⟩
  | some e => ⟨off24 e, if e.getLsbD 28 then some (scopeOf e) else none, e.getLsbD 27⟩

/-- A load of `n` bytes (R122). -/
def loadInstr (f : RRI) (n : Nat) (signed : Bool) : Act Flow := do
  let vs ← sources none [f.a] [f.d]
  let m := memForm f
  let v ← loadEa (nthV vs 0 + m.off) n m.cons m.ord
  let t ← destOf f.d
  pendWrite t (if signed then sextBytes v n else v) 0
  pure .next

/-- A release or fence of S at `.mod` or `.span` sends its open combine buffers first (R216), unless it traps or waits for something
else than its earlier accesses. -/
def flushFirst (scope : Nat) (k : Act Flow) : Act Flow := do
  let s ← get
  if s.cur.q = 3 && 3 ≤ scope && (s.core s.cur.c).bufs != [] then
    match StateT.run k s with
    | .error (.hold 13 _ _) | .ok _ => do
      set (s.flushPort s.cur.c)
      pure (.again 13)
    | .error x => throw x
  else k

/-- A store of the low `n` bytes of src(d) (R122). -/
def storeInstr (f : RRI) (n : Nat) : Act Flow := do
  let m := memForm f
  flushFirst (m.ord.getD 0) do
    let vs ← sources none [f.a, f.d] []
    storeEa (nthV vs 0 + m.off) n (nthV vs 1) m.ord
    pure .next

/-- `ld8` (R122). -/
def execLd8 (f : RRI) (s : State) : Out := issue (.ld8 f) s (loadInstr f 1 false)
/-- `ld16` (R122). -/
def execLd16 (f : RRI) (s : State) : Out := issue (.ld16 f) s (loadInstr f 2 false)
/-- `ld32` (R122). -/
def execLd32 (f : RRI) (s : State) : Out := issue (.ld32 f) s (loadInstr f 4 false)
/-- `ld64` (R122). -/
def execLd64 (f : RRI) (s : State) : Out := issue (.ld64 f) s (loadInstr f 8 false)
/-- `ld8s` (R122). -/
def execLd8s (f : RRI) (s : State) : Out := issue (.ld8s f) s (loadInstr f 1 true)
/-- `ld16s` (R122). -/
def execLd16s (f : RRI) (s : State) : Out := issue (.ld16s f) s (loadInstr f 2 true)
/-- `ld32s` (R122). -/
def execLd32s (f : RRI) (s : State) : Out := issue (.ld32s f) s (loadInstr f 4 true)
/-- `st8` (R122). -/
def execSt8 (f : RRI) (s : State) : Out := issue (.st8 f) s (storeInstr f 1)
/-- `st16` (R122). -/
def execSt16 (f : RRI) (s : State) : Out := issue (.st16 f) s (storeInstr f 2)
/-- `st32` (R122). -/
def execSt32 (f : RRI) (s : State) : Out := issue (.st32 f) s (storeInstr f 4)
/-- `st64` (R122). -/
def execSt64 (f : RRI) (s : State) : Out := issue (.st64 f) s (storeInstr f 8)

/-- What an atomic says of its access (R123). -/
structure AmoForm where
  off : W64
  acq : Option Nat
  rel : Option Nat
  n : Nat
def amoForm (f : RRR) : AmoForm :=
  match f.e with
  | none => ⟨0, some 2, some 2, 8⟩
  | some e => ⟨off24 e, if e.getLsbD 27 then some (scopeOf e) else none,
      if e.getLsbD 28 then some (scopeOf e) else none, if e.getLsbD 26 then 4 else 8⟩

/-- An atomic (R123): `g` gives the new value from the old, y and e, each of the operation's width. -/
def amo (f : RRR) (cas : Bool) (g : W64 → W64 → W64 → W64) : Act Flow := do
  let m := amoForm f
  flushFirst (m.rel.getD 0) do
    let vs ← sources none (if cas then [f.a, f.b, f.d] else [f.a, f.b]) [f.d]
    let ea := nthV vs 0 + m.off
    let y := extract (nthV vs 1) 0 m.n
    let x := extract (nthV vs 2) 0 m.n
    let l ← locate ea m.n 3
    watch ea m.n true true
    let v ← atomicFar l m.n ea (fun old => g old y x) m.acq m.rel
    let t ← destOf f.d
    pendWrite t v 0
    pure .next

/-- `amoadd` (R123). -/
def execAmoadd (f : RRR) (s : State) : Out := issue (.amoadd f) s (amo f false fun old y _ => old + y)
/-- `amoswp` (R123). -/
def execAmoswp (f : RRR) (s : State) : Out := issue (.amoswp f) s (amo f false fun _ y _ => y)
/-- `amocas` (R123). -/
def execAmocas (f : RRR) (s : State) : Out := issue (.amocas f) s (amo f true fun old y x => if old = x then y else old)
/-- `amoand` (R123). -/
def execAmoand (f : RRR) (s : State) : Out := issue (.amoand f) s (amo f false fun old y _ => old &&& y)
/-- `amoor` (R123). -/
def execAmoor (f : RRR) (s : State) : Out := issue (.amoor f) s (amo f false fun old y _ => old ||| y)
/-- `amoxor` (R123). -/
def execAmoxor (f : RRR) (s : State) : Out := issue (.amoxor f) s (amo f false fun old y _ => old ^^^ y)

/-- A fence at a scope (R124, R271). -/
def fenceInstr (t : Nat) : Act Flow :=
  flushFirst t do
    needQuiet
    modify fun s => s.fenceSeq s.cur t
    pure .next

/-- `fence.core` (R124). -/
def execFenceCore (f : RRR) (s : State) : Out := issue (.fenceCore f) s (fenceInstr 0)
/-- `fence.clu` (R124). -/
def execFenceClu (f : RRR) (s : State) : Out := issue (.fenceClu f) s (fenceInstr 1)
/-- `fence.die` (R124). -/
def execFenceDie (f : RRR) (s : State) : Out := issue (.fenceDie f) s (fenceInstr 2)
/-- `fence.mod` (R124). -/
def execFenceMod (f : RRR) (s : State) : Out := issue (.fenceMod f) s (fenceInstr 3)
/-- `fence.span` (R124). -/
def execFenceSpan (f : RRR) (s : State) : Out := issue (.fenceSpan f) s (fenceInstr 4)

/-- `efence` (R124): a FENCE at `.core` once earlier accesses have performed; a pending error is cleared, and the trap taken
in its place. -/
def execEfence (f : RRR) (s : State) : Out :=
  match StateT.run (s := s) (do entryChecks (.efence f); needQuiet : Act Unit) with
  | .ok (_, t) =>
    if (t.sq t.cur).unc then
      .next (t.stopped (.trap { cause := cUncorr, clears := [t.cur.q] }))
    else issue (.efence f) s (fenceInstr 0)
  | .error x => .next (s.stopped x)

end Sys2Proof.Machine
end

