-- ==== Sys2Proof/Machine/Sync.lean ====
section
/-! DEFINITION. Flags (R125, R126), barriers (R127, R284) and queue operations (R128). -/
namespace Sys2Proof.Machine

/-! ## Flags -/

/-- `farm` (R125). -/
def execFarm (f : RRI) (s : State) : Out := issue (.farm f) s do
  let vs ← sources none [f.a] []
  let r := flagOf9 f.imm
  flagOk r
  need ((nthV vs 0).toNat ≤ 0xFFFF) cFlagOvf
  modify fun s => s.meet s.cur r { s.seqEv s.cur (.arm ((nthV vs 0).setWidth 16)) with view := {} }
  retain (if r.g then [] else [(5, r.n.toNat)]) 1
  pure .next

/-- A release flag event (R125, R268): it waits for the sequencer's earlier accesses; a refused event traps without effect
(R69). While others of its core may still act in the cycle, one that would be refused is not yet decided; one that an arm of the same
cycle turns into an overflow later traps in the cycle too (`State.refusedEvents`). -/
def flagEvent (f : RRI) (op : FlagOp) : Act Flow := do
  let r := flagOf9 f.imm
  flagOk r
  needQuiet
  let s ← get
  let no := (s.flag s.cur r).refuses (s.seqEv s.cur op)
  if no && s.phase = .early then hold 1
  need (!no) cFlagOvf
  set (s.flagStep s.cur r op)
  retain (if r.g then [] else [(5, r.n.toNat)]) 1
  pure .next

/-- `fpost` (R125). -/
def execFpost (f : RRI) (s : State) : Out := issue (.fpost f) s (flagEvent f .post)
/-- `fdec` (R125). -/
def execFdec (f : RRI) (s : State) : Out := issue (.fdec f) s (flagEvent f .dec)

/-- `fread` (R125, R268: FACQ). -/
def execFread (f : RRI) (s : State) : Out := issue (.fread f) s do
  allOk dstOk [f.d]
  let r := flagOf9 f.imm
  flagOk r
  let s ← get
  set (s.flagAcq s.cur r)
  scalarResult (.fread f) f.d 1 0 0 ((s.flag s.cur r).v.setWidth 64)

/-- `fwait` (R125, R126): a wait of one cycle or more leaves an entry in the flag-wait ring (R76). -/
def execFwait (f : RRI) (s : State) : Out := issue (.fwait f) s do
  let r := flagOf9 f.imm
  flagOk r
  let s ← get
  let x := s.flag s.cur r
  if x.v != 0 then hold 4 r.n.toNat r.g
  let q := s.sq s.cur
  let waited := if q.stall = 4 && q.obj = r.n.toNat && q.objG == r.g then s.now - q.since else 0
  let s := s.flagAcq s.cur r
  if 1 ≤ waited then do
    let e := flogEntry waited x.last s.cur.q.val r
    set ((s.modBank s.cur (·.flogAdd e)).trace s.cur 9 q.pc e)
  else set s
  pure .next

/-! ## Barriers -/

/-- The open barriers of a scope instance, and the number the next one takes (R127). -/
def State.barsOf (s : State) (scope inst : Nat) : List Barrier × Nat :=
  if scope = 1 then ((s.clu ⟨inst % 128, by omega⟩).bars, (s.clu ⟨inst % 128, by omega⟩).barGen)
  else if scope = 2 then ((s.die ⟨inst % 8, by omega⟩).bars, (s.die ⟨inst % 8, by omega⟩).barGen)
  else (s.bars, s.barGen)
def State.setBars (s : State) (scope inst : Nat) (b : List Barrier) (g : Nat) : State :=
  if scope = 1 then s.modClu ⟨inst % 128, by omega⟩ fun u => { u with bars := b, barGen := g }
  else if scope = 2 then s.modDie ⟨inst % 8, by omega⟩ fun d => { d with bars := b, barGen := g }
  else { s with bars := b, barGen := g }

/-- The most arrivals of a scope. -/
def barLimit (scope : Nat) : Nat := if scope = 1 then 4 else if scope = 2 then 64 else 512

/-- The replica table's address and the root that translates it (R280). -/
def State.replicaOf (s : State) (ctx : BitVec 12) : Option (W64 × W64) :=
  match NMap.get? s.ctxs ctx.toNat with
  | none => none
  | some c => if c.blk.get 11 = 0 then none else some (c.blk.get 11, c.blk.get 1)

/-- The flip of a context's bank (R284): CUR is written as a release at `.mod` that carries every write made before it, so
that a port which reads it has no entry of before (R283). -/
def State.flip (s : State) (c : CoreId) (ctx : BitVec 12) (view : View) : State :=
  match s.replicaOf ctx, NMap.get? s.ctxs ctx.toNat with
  | some (va, root), some x =>
    match s.translate c 0 ctx root va.toNat 1 0 with
    | (.error _, s) => s
    | (.ok (pa, _), s) =>
      let w := pa / 8
      let v : View := view.join { fl := s.latest homeAgent 3 }
      let old := match x.flipped with
        | some (t, o) => if t = s.now then o else s.word w
        | none => s.word w
      let again := match x.flipped with
        | some (t, _) => t == s.now
        | none => false
      let s := (s.append homeAgent [⟨homeAgent, 3, v⟩] { word := w, mask := 1, data := s.word w ^^^ 1 }).stepped
      let y : Ctx := { x with flipped := some (s.now, old), flipView := v, flipPrev := if again then x.flipPrev else x.flipView }
      { s with ctxs := NMap.put s.ctxs ctx.toNat y }
  | _, _ => s

/-- A waiting party of a barrier is released: its FACQ with the joined view (R127, R268). -/
def closeParty (scope inst gen : Nat) (b : BarWait) : Option BarWait :=
  if b.scope = scope && b.inst = inst && b.gen = gen && !b.closed then some { b with closed := true } else none
/-- Marks the wait of a bank, and the wait that a trap saved, when its barrier closes. -/
def Bank.closeBar (scope inst gen : Nat) (k : Bank) : Option Bank :=
  match k.bar.bind (closeParty scope inst gen), k.barSaved.bind fun x => (closeParty scope inst gen x.1).map (·, x.2) with
  | none, none => none
  | some b, none => some { k with bar := some b }
  | none, some x => some { k with barSaved := some x }
  | some b, some x => some { k with bar := some b, barSaved := some x }
/-- Releases every party of a barrier: those in banks, and those whose contexts are saved, whose tasks keep the view. -/
def State.closeBarrier (s : State) (scope inst gen : Nat) (view : View) : State :=
  let s := (List.finRange 512).foldl (fun s (c : CoreId) => (List.finRange 2).foldl (fun s (b : BankId) =>
    let w : Who := ⟨c, b, 0, 0⟩
    match (s.bank w).closeBar scope inst gen with
    | some k => (s.modBank w fun _ => k).modAgent w.agent fun a => { a with view := a.view.join view }
    | none => s) s) s
  { s with saved := s.saved.map fun e =>
      match e.2.bank.closeBar scope inst gen with
      | some k => (e.1, { e.2 with bank := { k with task := k.task.map fun r => { r with view := r.view.join view } } })
      | none => e }

/-- The arrival of `bar` (R127). -/
def barArrive (f : RRI) : Act Flow := do
  let vs ← sources none [f.a] [f.d]
  let scope := fld f.imm 2 0
  let sw := f.imm.getLsbD 3
  let key := fld (nthV vs 0) 31 16
  let n := fld (nthV vs 0) 15 0
  needQuiet
  let d ← destOf f.d
  let s ← get
  let w := s.cur
  let inst := if scope = 1 then (cluOf w.c).val else if scope = 2 then (dieOf w.c).val else 0
  let ctx := (s.bank w).ctx
  let (bs, g) := s.barsOf scope inst
  let found := bs.find? fun b => b.ctx == ctx && b.key == key
  if found.isNone && 16 ≤ bs.length then hold 7
  let b : Barrier := found.getD ⟨ctx, key, g, n, sw, 0, {}⟩
  let l := (s.lineNow w).getD 0
  let b := { b with arrived := b.arrived + 1, view := b.view.join (s.ownView w) }
  let s := s.addIval w 1
  let s := s.modBank w fun k =>
    { k with bar := some ⟨scope, inst, b.gen, b.arrived - 1, n != b.n || sw != b.sw, d, false, l⟩ }
  let rest := bs.filter fun x => x.gen != b.gen
  let g := if found.isNone then g + 1 else g
  if b.arrived = b.n then do
    let s := if b.sw then s.flip w.c ctx b.view else s
    set ((s.setBars scope inst rest g).closeBarrier scope inst b.gen b.view)
  else set (s.setBars scope inst (rest ++ [b]) g)
  pure (.again 7)

/-- The number of arrivals is within its scope's limit (R127, R117); a `bar` that waits has had it checked. -/
def barLimits (f : RRI) : Act Unit := do
  let s ← get
  if (s.bank s.cur).bar.isNone then
    limits none [f.a] fun vs => 1 ≤ fld (nthV vs 0) 15 0 && fld (nthV vs 0) 15 0 ≤ barLimit (fld f.imm 2 0)
/-- `bar` (R127): it arrives once, then waits in place until its barrier has closed. -/
def execBar (f : RRI) (s : State) : Out := issueLim (.bar f) s (barLimits f) do
  let s ← get
  match (s.bank s.cur).bar with
  | none => barArrive f
  | some b => do
    if !b.closed then hold 7
    set (s.modBank s.cur fun k => { k with bar := none })
    pendWrite b.dst (BitVec.ofNat 64 ((if b.mism then 2 ^ 63 else 0) + b.idx))
    pure .next

/-! ## Queue operations -/

/-- NB of R128. -/
def nbOf (f : FQ) : Bool := f.f.getLsbD 0

/-- Leaves two results of a queue operation: on X at the next slot, else pending (R120). -/
def queueResult (i : Instr) (f : FQ) (two : Bool) (x y : W64) : Act Flow := do
  let s ← get
  if s.cur.q = 2 then do
    let (rid, n, q) ← reserveX (if two then [f.a, f.b] else [f.a])
    addX { i := i, due := 1, sv1 := y, sv2 := x, rid := rid, nres := n, q := q }
      (fieldFile f.a ++ if two then fieldFile f.b else [])
  else do
    let d ← destOf f.a
    pendWrite d x
    if two then do
      let e ← destOf f.b
      pendWrite e y
  pure .next

/-- `qpush` (R128). -/
def execQpush (f : FQ) (s : State) : Out := issue (.qpush f) s do
  need (f.q.toNat < 8) cQueue
  pushOk ⟨f.q.toNat, f.q.isLt⟩
  let q : Fin 16 := ⟨f.q.toNat, f.q.isLt⟩
  let vs ← sources f.e [f.a] (if nbOf f then [f.b] else [])
  let s ← get
  let full := (s.queue s.cur q).full
  if full && !nbOf f then hold 3 q.val
  if full && s.phase = .early then hold 1
  if !full then set (s.modQ s.cur q (·.pushWord (nthV vs 0) s.now))
  if nbOf f then do
    let v : W64 := if full then 0 else 1
    if s.cur.q = 2 then do
      let (rid, n, r) ← reserveX [f.b]
      addX { i := .qpush f, due := 1, sv2 := v, rid := rid, nres := n, q := r } (fieldFile f.b)
    else do
      let d ← destOf f.b
      pendWrite d v
  pure .next

/-- `qpop` and `qpeek` (R128). -/
def popOrPeek (i : Instr) (f : FQ) (pop : Bool) : Act Flow := do
  need (f.q.toNat < 8) cQueue
  let q : Fin 16 := ⟨f.q.toNat, f.q.isLt⟩
  popOk q
  allOk dstOk (if nbOf f then [f.a, f.b] else [f.a])
  let s ← get
  let x := s.queue s.cur q
  let empty := x.ready s.now = 0
  if empty && !nbOf f then hold 2 q.val
  if pop && !empty then set (s.modQ s.cur q (·.drop 1))
  queueResult i f (nbOf f) (if empty then 0 else headWord x.ents) (if empty then 0 else 1)
/-- `qpop` (R128). -/
def execQpop (f : FQ) (s : State) : Out := issue (.qpop f) s (popOrPeek (.qpop f) f true)
/-- `qpeek` (R128). -/
def execQpeek (f : FQ) (s : State) : Out := issue (.qpeek f) s (popOrPeek (.qpeek f) f false)

/-- `qstat` (R128): the level byte of R75 and the binding. -/
def execQstat (f : FQ) (s : State) : Out := issue (.qstat f) s do
  allOk dstOk [f.a]
  let s ← get
  let q : Fin 16 := ⟨f.q.toNat, f.q.isLt⟩
  let m := (s.bank s.cur).qmap
  queueResult (.qstat f) f false (BitVec.ofNat 64 (s.levelByte s.cur q + fld m (4 * q.val + 3) (4 * q.val) * 256)) 0

/-- A register write of the sequencer whose turn it is: it lands with the cycle's end (R75, R133). -/
def csrPut (n : Nat) (v : W64) : Act Unit :=
  modify fun s => s.modBank s.cur fun k => { k with csrPend := k.csrPend ++ [(s.cur.q, n, v)] }
/-- The write of `qmap` that a binding makes: the queue and its nibble. -/
def bindWord (q : Fin 16) (v : W64) : W64 := BitVec.ofNat 64 (16 * q.val + fld v 3 0)
/-- `qcfg` (R128): only an empty queue is bound anew, with the end of the cycle (R75): a sequencer that the queue blocks is checked
again in the next one. -/
def execQcfg (f : FQ) (s : State) : Out := issue (.qcfg f) s do
  let q : Fin 16 := ⟨f.q.toNat, f.q.isLt⟩
  let s ← get
  need ((s.queue s.cur q).ents.isEmpty) cQueue
  matrixOk q
  let vs ← sources f.e [f.a] []
  csrPut 2 (bindWord q (nthV vs 0))
  pure .next

end Sys2Proof.Machine
end

