-- ==== Sys2Proof/Machine/Records.lean ====
section
/-! DEFINITION. Continuation records (R301-R306), join blocks (R304), and the end of a task's hold on its slot. -/
namespace Sys2Proof.Machine

/-- Who offers a record (R302). -/
inductive Origin where
  | spawn (ctx : BitVec 12)
  | cont (ctx : BitVec 12)
  | host
  | peer (node : BitVec 16)
  deriving DecidableEq, Repr

/-! ## Fields of a record (R301) and of an access-control entry (R367) -/

def recCtx (w : Vector W64 8) : Nat := fld (w.get 3) 11 0
def recLevel (w : Vector W64 8) : Nat := fld (w.get 3) 23 21
def recPtok (w : Vector W64 8) : Nat := fld (w.get 3) 31 24
def recPclass (w : Vector W64 8) : Nat := fld (w.get 3) 20 19
def recMig (w : Vector W64 8) : Bool := (w.get 3).getLsbD 18
def recRst (w : Vector W64 8) : Bool := (w.get 3).getLsbD 17
def recQueue (w : Vector W64 8) : Fin 32 := ⟨(4 * recLevel w + fld (w.get 3) 13 12) % 32, by omega⟩
def recCorr (w : Vector W64 8) : W32 := BitVec.ofNat 32 (fld (w.get 3) 63 32)
def recEst (w : Vector W64 8) : Nat := fld (w.get 4) 31 0

def State.aclEntry (s : State) (ctx : Nat) : W64 := (NMap.get? s.acl ctx).getD 0
/-- The entry admits a peer node (R367). -/
def aclNode (e : W64) (node : BitVec 16) : Bool := fld e 15 0 ≤ node.toNat && node.toNat ≤ fld e 31 16
/-- Whether a context exists and is not being torn down (R315). -/
def State.ctxLive (s : State) (ctx : Nat) : Bool :=
  (NMap.get? s.ctxs ctx).isSome && !s.torn.contains ctx

/-- Whether a die has a core in service (R386) and its firmware has booted (R406). -/
def State.dieServes (s : State) (d : DieId) : Bool :=
  s.booted && (s.die d).power != .gated &&
  (List.finRange 64).any fun i =>
    let c : CoreId := ⟨64 * d.val + i.val, by omega⟩
    !(s.core c).fenced && !(s.clu (cluOf c)).fenced
/-- Checks 1 to 6 of R302: the reason of the first that fails, 0 when all pass. -/
def State.recReason (s : State) (d : DieId) (o : Origin) (w : Vector W64 8) : Nat :=
  let e := s.aclEntry (recCtx w)
  let who := match o with
    | .spawn c => c.toNat == recCtx w
    | .cont c => c.toNat == recCtx w
    | .host => e.getLsbD 63 && e.getLsbD 62
    | .peer n => e.getLsbD 63 && aclNode e n
  let entry := w.get 0
  if !s.dieServes d then 6
  else if !who then 1
  else if fld e 61 59 < recLevel w then 2
  else if !s.ctxLive (recCtx w) then 3
  else if !(fld entry 63 57 == 0 && fld entry 1 0 == 0 && fld entry 5 2 != 0 && fld (w.get 2) 5 0 == 0 &&
      recPclass w != 3 && w.get 5 == 0) then 4
  else if 65536 ≤ (s.die d).used.length then 5
  else 0

/-- The first free slot from `k` upward (R303). -/
def freeSlot (used : List Nat) : Nat → Nat → Nat
  | 0, k => k % 65536
  | n + 1, k => if used.contains (k % 65536) then freeSlot used n (k + 1) else k % 65536
/-- Takes a slot of a die's store, an open choice among the free ones: the new record id (R303). -/
def State.takeSlot (s : State) (d : DieId) : W32 × State :=
  let (k, s) := s.choose 65536
  let u := (s.die d).used
  let slot := freeSlot u u.length k
  let g := (NMap.get? (s.die d).gen slot).getD 0
  (BitVec.ofNat 32 (d.val * 2 ^ 29 + g.toNat * 2 ^ 16 + slot),
   s.modDie d fun x => { x with used := slot :: x.used, gen := NMap.put x.gen slot (g + 1) })
/-- OWNER of a record id (R246). -/
def ownerOf (id : W32) : Nat := fld id 31 29 * 2 ^ 16 + fld id 15 0
/-- Frees a slot named by an owner. -/
def State.freeSlotOf (s : State) (owner : Nat) : State :=
  s.modDie ⟨owner / 65536 % 8, by omega⟩ fun d => { d with used := d.used.filter (· != owner % 65536) }
/-- A record's slots are free again: its own, and its first when it has moved (R303). -/
def State.dropRec (s : State) (r : Rec) : State := (s.freeSlotOf (ownerOf r.id)).freeSlotOf r.owner

/-- The place of a record among those that one die accepts in a cycle (R306): host launches, spawns and continuations by the core
of the agent that placed them, peer launches by SRC, then requeued ones. -/
def Origin.key (o : Origin) (c : CoreId) : Nat :=
  match o with
  | .host => 0
  | .spawn _ => 1 + c.val
  | .cont _ => 1 + c.val
  | .peer n => 1024 + n.toNat
abbrev requeueKey : Nat := 1024 + 65536
abbrev headKey : Nat := requeueKey + 1
/-- A record in its place at the tail of a queue: before those of the same cycle that come after it. One that was requeued at the head
keeps its place (R312). -/
def insertRec (r : Rec) : List Rec → List Rec
  | [] => [r]
  | x :: xs => if x.acc = r.acc && r.key < x.key && x.key != headKey then r :: x :: xs else x :: insertRec r xs
/-- Adds a record to its queue of a die, at the head or in its place (R301, R306, R312). -/
def State.enqueue (s : State) (d : DieId) (r : Rec) (head : Bool) : State :=
  s.modDie d fun x =>
    let q := recQueue r.w
    { x with queues := vset x.queues q (if head then r :: x.queues.get q else insertRec r (x.queues.get q)) }
/-- Accepts a record (R302, R303, R305): its id. -/
def State.acceptRec (s : State) (d : DieId) (key : Nat) (w : Vector W64 8) (view : View) (src : W64) : W32 × State :=
  let (id, s) := s.takeSlot d
  (id, s.enqueue d { w := w, id := id, owner := ownerOf id, view := view, entered := s.now, src := src, acc := s.now, key := key } false)
/-- LaunchRefused (R302, R365). -/
def State.refuseRec (s : State) (reason : Nat) (seqNo corr src : W64) : State :=
  s.event 0x0002 [BitVec.ofNat 64 reason, seqNo, corr, src]

/-- Eight words as a record. -/
def recWords (l : List W64) : Vector W64 8 := Vector.ofFn fun i => l.getD i.val 0

/-- A load of a task at `.mod` of `n` words from a virtual address, for the device (R304): none where it cannot be read. -/
def State.taskLoad (s : State) (w : Who) (va : W64) (n : Nat) : Option (List W64) × State :=
  let k := s.bank w
  if fld va 63 57 != 0 || fld va 5 0 != 0 then (none, s)
  else match s.translate w.c 0 k.ctx k.ptroot va.toNat 0 0 with
    | (.error _, s) => (none, s)
    | (.ok (pa, _), s) =>
      if (s.row pa).isSome || s.poisoned pa (8 * n) then (none, s)
      else
        let (ws, s) := (List.range n).foldl (fun (acc : List W64 × State) i =>
          let (v, s) := acc.2.load w.agent (pa / 8 + i) 0xFF (some 3)
          (acc.1 ++ [v], s)) ([], s)
        (some ws, s)

/-- A step of a join block whose new COUNT is 0 places its continuation (R304, R305): CONT and the target of the block at
`pa`, the record at CONT, and the checks of R302. -/
def State.placeCont (s : State) (w : Who) (pa : Nat) : State :=
  let corr := (s.bank w).corr.setWidth 64
  let (cont, s) := s.load w.agent (pa / 8 + 1) 0xFF (some 3)
  let (tgt, s) := s.load w.agent (pa / 8 + 2) 0xFF (some 3)
  let d : DieId := if tgt.getLsbD 3 then dieOf w.c else ⟨fld tgt 2 0 % 8, by omega⟩
  match s.taskLoad w cont 8 with
  | (none, s) => s.refuseRec 8 0 corr cont
  | (some ws, s) =>
    let r := recWords ws
    match s.recReason d (.cont (s.bank w).ctx) r with
    | 0 => (s.acceptRec d ((Origin.cont 0).key w.c) r (s.ownView w) cont).2
    | n => s.refuseRec n 0 ((recCorr r).setWidth 64) cont

/-! ## Counted rows of an owner (R255, R259) -/

/-- The rows of a cluster's scratchpad and of the directories that an owner holds, as locations. -/
def State.ownedRows (s : State) (owner : Nat) : List Nat :=
  ((List.finRange 128).flatMap fun (u : CluId) =>
      ((s.clu u).cells.filter fun e => e.2.owner == owner).map fun e => spLoc u (256 * e.1)) ++
  ((List.finRange 8).flatMap fun (d : DieId) => ((s.die d).dir.filter fun e => e.2.owner == owner).map fun e => 256 * e.1)

/-- A run of consecutive rows: its first row and the remaining counts. -/
abbrev RowRun := Nat × List Nat
/-- Groups rows with their counts, in rising order, into runs of at most 65,535 (R255). DESIGN CHOICE (log 101): a longer stretch is cut
from its end, so that its first run is the short one; the rows of an `rcclose` are joined in the order of their virtual addresses; a
run of lines that passes from one die's memory into the next is reported under the die of its first row. -/
def rowRuns : List (Nat × Nat) → List RowRun
  | [] => []
  | (l, n) :: rest =>
    match rowRuns rest with
    | (b, ns) :: rs =>
      if b = l + 256 && isSp b == isSp l && ns.length < 65535 && (!isSp l || spClu b == spClu l) then (l, n :: ns) :: rs
      else (l, [n]) :: (b, ns) :: rs
    | [] => [(l, [n])]
/-- The residue record of a run as four arguments (R255). -/
def residueArgs (origin : Nat) (corr recid : W32) (r : RowRun) : List W64 :=
  let base : Nat := if isSp r.1 then 2 ^ 63 + (r.1 - 2 ^ 40) % 2 ^ 24 else r.1
  let u := spClu r.1
  let place : Nat := if isSp r.1 then (dieOfClu u).val * 32 + u.val % 16 * 2 + 1 else (locDie r.1).val * 32
  let mx := r.2.foldl Nat.max 0
  let mn := r.2.foldl Nat.min 255
  [BitVec.ofNat 64 base,
   BitVec.ofNat 64 (place * 2 ^ 40 + origin * 2 ^ 32 + mn * 2 ^ 24 + mx * 2 ^ 16 + r.2.length),
   BitVec.ofNat 64 (corr.toNat * 2 ^ 32 + r.2.foldl (· + ·) 0 % 2 ^ 32),
   recid.setWidth 64]
/-- Reports the rows among `ls` that are LIVE as residue, and releases every counted one (R255, R259). -/
def State.closeRows (s : State) (ls : List Nat) (origin : Nat) (corr recid : W32) : State :=
  let live := ls.filterMap fun l =>
    match s.row l with
    | some (n + 1, _) => some (l, n + 1)
    | _ => none
  let s := (rowRuns live).foldl (fun s r => s.event 0x0004 (residueArgs origin corr recid r)) s
  ls.foldl (fun s l => if (s.row l).isSome then s.release l else s) s

/-! ## The end of a task -/

/-- The counters and the energy estimate join the context's profile block, each at its own address (R418). -/
def State.profAdd (s : State) (w : Who) : State :=
  let k := s.bank w
  match NMap.get? s.ctxs k.ctx.toNat with
  | none => s
  | some c =>
    if c.prof = 0 then s
    else ((List.finRange 8).map (fun i => k.pmc.get i) ++ [k.energy]).zipIdx.foldl (fun s x =>
      match s.translate w.c 0 k.ctx k.ptroot (c.prof.toNat + 8 * x.2) 3 0 with
      | (.error _, s) => s
      | (.ok (pa, _), s) => (s.append homeAgent [] { word := pa / 8, mask := 0xFF, data := s.word (pa / 8) + x.1 }).stepped) s

/-- The cores whose ran list holds a correlation number (R396). -/
def State.producing (s : State) (corr : W32) : List CoreId :=
  (List.finRange 512).filter fun c => (s.core c).ran.contains corr
/-- The mask of a die's cores among some, by CLU x 4 + CORE. -/
def dieMask (d : DieId) (cs : List CoreId) : Nat :=
  (cs.filter fun c => dieOf c == d).foldl (fun (m : Nat) c => m + 2 ^ (c.val % 64)) 0
/-- One Completion event for a die that holds a producing core. -/
def State.completionEvent (s : State) (d : DieId) (cs : List CoreId) (corr recid : W32) (t : Nat) : State :=
  if dieMask d cs == 0 then s
  else s.event 0x000A
    [corr.setWidth 64, recid.setWidth 64, BitVec.ofNat 64 d.val, BitVec.ofNat 64 (dieMask d cs), BitVec.ofNat 64 t]
/-- The ticket of a root task's exit and its Completion events (R396). -/
def State.ticketFor (s : State) (corr recid : W32) : State :=
  let cs := s.producing corr
  let t := s.nextTicket
  let s := { s with nextTicket := t + 1 }
  let s := (List.finRange 8).foldl (fun s (d : DieId) => s.completionEvent d cs corr recid t) s
  if cs.isEmpty then s.event 0x000B [corr.setWidth 64, BitVec.ofNat 64 t]
  else { s with tickets := s.tickets ++ [{ id := t, corr := corr, exit := s.now, cores := cs.map (·.val) }] }

/-- The exit's decrement of its parent's join block at its turn (R132, R304), as an acquire-release atomic at `.mod` that
carries the views of all four sequencers. DEDUCED (log 103): one that is given up for want of a path (R373) is reported as functional. -/
def State.joinStep (s : State) (w : Who) (join : W64) : State :=
  let k := s.bank w
  let fail (s : State) (cls : Nat) (pa : Nat) : State :=
    s.errorReport 0 cls 1 w.c.val (BitVec.ofNat 64 pa) (k.corr.setWidth 64) (k.recid.setWidth 64)
  if join = 0 then s
  else match s.translate w.c 0 k.ctx k.ptroot join.toNat 3 0 with
    | (.error _, s) => fail s 3 0
    | (.ok (pa, _), s) =>
      if (s.row pa).isSome || s.cutFor (dieOf w.c) (homeDie pa) then fail s 3 pa
      else if s.poisoned pa 8 then fail s 1 pa
      else
        let v := [1, 2, 3].foldl (fun v q => v.join (s.ownView (w.seq q))) (s.ownView (w.seq 0))
        let s := s.modAgent (w.seq 0).agent fun g => { g with view := v }
        let (old, s) := s.rmw (w.seq 0) pa 8 (fun x => x - 1) (some 3) (some 3)
        if old = 1 then s.placeCont (w.seq 0) pa else s

/-- The last writes to all words by the agents of a core. -/
def State.writtenBy (s : State) (c : CoreId) : NMap Nat :=
  s.hist.filterMap fun kh => (kh.2.ws.findIdx? fun r => r.writer / 16 == c.val && decide (r.writer < 8192)).map fun i =>
    (kh.1, kh.2.ws.length - i)
/-- The exit's release at `.mod` (R132): from then on every agent of the module reads what the task has stored (R382, R383). -/
def State.exitRelease (s : State) (w : Who) : State :=
  let v : View := { fl := s.writtenBy w.c }
  let s := { s with
    agents := s.agents.map fun a => if a.1 < homeAgent then (a.1, { a.2 with view := a.2.view.join v }) else a
    unseen := s.unseen.join v }
  ((List.range 33).map (homeAgent + ·)).foldl (fun s a => s.modAgent a fun g => { g with view := g.view.join v }) s
/-- A task ends: the register writes of C, A and S land, its accesses are released, its residue and rows, its parked commands, its parent's join, its ticket, its profile, its slot, its bank
(R132, R259, R303, R396, R418). -/
def State.endTask (s : State) (w : Who) : State :=
  match (s.bank w).task with
  | none => s
  | some r =>
    let k := s.bank w
    let s := ([0, 1, 3].foldl (fun s q => s.landAll (w.seq q)) s).exitRelease w
    let s := s.closeRows (s.ownedRows r.owner) 1 k.corr r.id
    let o := s.ours w
    let s := s.modCore w.c fun c => { c with parked := c.parked.filter fun p => !o p.who }
    let s := s.joinStep w (r.w.get 2)
    let s := if r.w.get 2 = 0 then s.ticketFor k.corr r.id else s
    let s := s.profAdd w
    let s := s.trace w 8 (r.id.setWidth 64) 0
    (s.dropRec r).freeBank w

end Sys2Proof.Machine
end

