-- ==== Sys2Proof/Machine/Engine.lean ====
section
/-! DEFINITION. What the engines share: how a command is placed or parked (R70, R141, R142, R222), an engine's reads and
writes and their fates (R143, R144, R150, R248-R254, R351), and the completion of a command (R99, R268, R273). -/
namespace Sys2Proof.Machine

/-! ## Commands at issue -/

/-- The command extension word (R142): completion flag, `.after` flag, group, low bits. -/
structure CmdForm where
  cfl : Option FlagRef
  after : Option FlagRef
  grp : Fin 16
  low : Nat

def cmdForm (e : Option W32) : CmdForm :=
  match e with
  | none => ⟨none, none, 0, 0⟩
  | some e =>
    ⟨if e.getLsbD 31 then some ⟨e.getLsbD 30, BitVec.ofNat 5 (fld e 29 25)⟩ else none,
     if e.getLsbD 24 then some ⟨e.getLsbD 23, BitVec.ofNat 5 (fld e 22 18)⟩ else none,
     ⟨fld e 17 14 % 16, by omega⟩, fld e 13 0⟩
/-- The flags of a command are the task's (R125, R142). -/
def flagsOk : List (Option FlagRef) → Act Unit
  | [] => pure ()
  | none :: fs => flagsOk fs
  | some r :: fs => do
    flagOk r
    flagsOk fs

/-- The number of the commands accepted by an engine from a core (R329), one more. -/
def State.accept (s : State) (w : Who) (e : Fin 7) : W32 × State :=
  let n := (s.core w.c).accepted.get e + 1
  (n, s.modCore w.c fun k => { k with accepted := vset k.accepted e n })

/-- Depths of the command FIFOs (R222) and of the parked-command store (R70). -/
abbrev copyDepth : Nat := 32
abbrev outDepth : Nat := 8
abbrev matrixDepth : Nat := 16
abbrev lampDepth : Nat := 16
abbrev aeDepth : Nat := 8
abbrev parkDepth : Nat := 64

/-- A command enters the copy engine's or the output stream engine's FIFO, with the release of its issuer (R141, R268). -/
def State.enterCmd (s : State) (out : Bool) (c : ECmd) : State :=
  let (n, s) := s.accept c.who (if out then 2 else 0)
  let (v, s) := s.pushView c.who
  s.modCore c.who.c fun k =>
    let c := { c with id := k.nextId, nth := n, view := v }
    let k := { k with nextId := k.nextId + 1 }
    if out then { k with outFifo := k.outFifo ++ [c] } else { k with copyFifo := k.copyFifo ++ [c] }
/-- Whether the FIFO has room. -/
def Core.cmdRoom (k : Core) (out : Bool) : Bool :=
  if out then k.outFifo.length < outDepth else k.copyFifo.length < copyDepth

/-- Places a command or parks it (R70, R142): a full store and a full FIFO hold the issuer, and so do its earlier accesses
until they have performed. Answers whether it has parked. -/
def placeCmd (after : Option FlagRef) (out : Bool) (c : ECmd) : Act Bool := do
  let s ← get
  let k := s.core s.cur.c
  match after with
  | some r =>
    if (s.flag s.cur r).v != 0 then do
      if parkDepth ≤ k.parked.length then hold 5
      set (s.modCore s.cur.c fun k =>
        { k with parked := k.parked ++ [⟨c.who, r, s.now, if out then .outCmd c else .copyCmd c, false, (s.sq s.cur).pc⟩] })
      pure true
    else do
      if !k.cmdRoom out then hold 6 (if out then 2 else 0)
      needQuiet
      modify (·.enterCmd out c)
      pure false
  | none =>
    if !k.cmdRoom out then hold 6 (if out then 2 else 0)
    needQuiet
    modify (·.enterCmd out c)
    pure false

/-- The sequencer waits in place for engine work that it has numbered `n`. -/
def State.waitFor (s : State) (n : Nat) : State := s.modSeq s.cur fun q => { q with waitCmd := some (n, 0) }
/-- The wait is over. -/
def State.waitOver (s : State) : State := s.modSeq s.cur fun q => { q with waitCmd := none }

/-! ## Engine accesses -/

/-- An engine as it acts for a command: its issuer, its agent, the TLB it translates by, its source code (R346), the context,
the interval of its writes, the scope at which its reads acquire, the address of a refused fault (R351), and its unit as an
ErrorReport names it (R393): 16 core + code, or none for a sequencer of the core itself. -/
structure Eng where
  w : Who
  agent : Nat
  tlb : Nat
  src : Nat
  ctx : BitVec 12
  iv : W32
  acq : Option Nat := none
  refused : Option W64 := none
  unit : Option Nat := none

/-- The copy engine for a command. -/
def ECmd.copyEng (c : ECmd) : Eng := 
  ⟨c.who, engAgent c.who.c 0, 1, 4, c.ctx, c.view.int c.who.ivKey, none, none, some (16 * c.who.c.val)⟩
/-- The output stream engine for a command. -/
def ECmd.outEng (c : ECmd) : Eng := 
  ⟨c.who, engAgent c.who.c 2, 2, 5, c.ctx, c.view.int c.who.ivKey, none, none, some (16 * c.who.c.val + 2)⟩

/-- What keeps an access from delivering: a translation fault with its address and `pfinfo` word, a failure of R143, or a wait
for the engine's own earlier write. -/
inductive EStop where
  | fault (va pf : W64)
  | fail (cause : Byte) (va : W64)
  | later
  deriving DecidableEq, Repr

/-- The table root that an engine translates by: the bank's while its task lives, else the context's (R341, R366). -/
def State.rootOf (s : State) (w : Who) (ctx : BitVec 12) : W64 :=
  if s.alive w then (s.bank w).ptroot
  else match NMap.get? s.ctxs ctx.toNat with
    | some c => c.blk.get 1
    | none => 0

/-- The pieces of an access of at most 256 bytes: one in each row that it touches. -/
def rowSplit (a n : Nat) : List (Nat × Nat) :=
  let f := 256 - a % 256
  if n ≤ f then [(a, n)] else [(a, f), (a + f, n - f)]

/-- The location of one piece. -/
def State.engLocate (s : State) (g : Eng) (ea : W64) (kind : Nat) : Except EStop Nat × State :=
  match classify ea with
  | .bad => (.error (.fail cAccess ea), s)
  | .sp off => (.ok (spLoc (cluOf g.w.c) off), s)
  | .virt va =>
    if g.refused == some va then (.error (.fail cAccess va), s)
    else match s.translate g.w.c g.tlb g.ctx (s.rootOf g.w g.ctx) va.toNat kind g.src with
    | (.ok (pa, _), s) => (.ok pa, s)
    | (.error (0, _), s) => (.error .later, s)
    | (.error (cause, pf), s) => (.error (if cause = cPageFault then .fault va pf else .fail cause va), s)
/-- The locations of an access's pieces. -/
def State.engLocs (s : State) (g : Eng) (kind : Nat) : List (Nat × Nat) → Except EStop (List (Nat × Nat)) × State
  | [] => (.ok [], s)
  | (a, n) :: ps =>
    match s.engLocate g (BitVec.ofNat 64 a) kind with
    | (.error e, s) => (.error e, s)
    | (.ok l, s) =>
      match s.engLocs g kind ps with
      | (.error e, s) => (.error e, s)
      | (.ok ls, s) => (.ok ((l, n) :: ls), s)

/-- A row that a copy has consumed: it reads the row as it consumed it until it completes (R249, R253). -/
def asKept (kept : NMap KRow) (l : Nat) : Option KRow := NMap.get? kept (l / 256)
/-- The uncorrectable words of a row. -/
def State.badWords (s : State) (l : Nat) : W32 :=
  BitVec.ofNat 32 ((List.range 32).foldl (fun (m : Nat) i => if s.poisoned (256 * (l / 256) + 8 * i) 8 then m + 2 ^ i else m) 0)
/-- Whether `n` bytes at a location meet an uncorrectable word of a kept row. -/
def KRow.hits (k : KRow) (l n : Nat) : Bool :=
  (List.range 32).any fun i => k.bad.getLsbD i && l % 256 < 8 * i + 8 && 8 * i < l % 256 + n

/-- An agent reads words as the last write to each, and takes what the writes carry (R270, R276). -/
def State.takeWords (s : State) (a w n : Nat) (acq : Option Nat) : State :=
  (List.range n).foldl (fun s i =>
    let (_, r) := s.nth (w + i) (s.lastIdx (w + i))
    let s := s.own a (w + i)
    match r with
    | some r => s.takeParts a r.parts acq
    | none => s) s

/-- Takes one piece that may be read of a row that the command keeps or consumes (R248, R249, R252): its bytes, none of another row, and
whether the read met an uncorrectable error. A copy that consumes a row reads all of it then. -/
def State.engPiece (s : State) (g : Eng) (kept : NMap KRow) (keep cons : Bool) (l n : Nat) :
    Option (List Byte) × Bool × NMap KRow × State :=
  match asKept kept l with
  | some p => (some (((payBytes p.pay).drop (l % 256)).take n), p.hits l n, kept, s)
  | none =>
    let s := (s.touch g.w l).refetch l
    if cons && s.rowLive l then
      let p := bytesPay (s.mem.readN (256 * (l / 256)) 256)
      let bad := s.poisoned l n
      let kept := if keep then NMap.put kept (l / 256) ⟨p, s.badWords l⟩ else kept
      let s := if keep then s.takeWords g.agent (l / 256 * 32) 32 g.acq
        else s.takeWords g.agent (l / 8) ((l % 8 + n + 7) / 8) g.acq
      let last := match s.row l with
        | some (1, _) => 1
        | _ => 0
      (some (((payBytes p).drop (l % 256)).take n), bad, kept, (s.eat g.agent l).count g.w 12 last)
    else (none, s.poisoned l n && !s.ownBytes g.agent l n, kept, s)
/-- The bytes of an access: of each piece those taken, or those of the words loaded for it. -/
def joinPieces : List (Nat × Nat) → List (Option (List Byte)) → List W64 → List Byte
  | (l, n) :: ls, none :: os, vs =>
    let m := (l % 8 + n + 7) / 8
    cutBytes l n (vs.take m) ++ joinPieces ls os (vs.drop m)
  | _ :: ls, some bs :: os, vs => bs ++ joinPieces ls os vs
  | _, _, _ => []
/-- Reads the pieces of an access that may be read. `cons` says of a location whether the access consumes its row. What is not
consumed is loaded together, so that an indivisible write over two rows is not seen in part (R276). -/
def State.engPieces (s : State) (g : Eng) (kept : NMap KRow) (keep : Bool) (cons : Nat → Bool) (ls : List (Nat × Nat)) :
    List Byte × Bool × NMap KRow × State :=
  let (os, bad, kept, s) := ls.foldl (fun (acc : List (Option (List Byte)) × Bool × NMap KRow × State) x =>
    let (o, b, kept, s) := acc.2.2.2.engPiece g acc.2.2.1 keep (cons x.1) x.1 x.2
    (acc.1 ++ [o], acc.2.1 || b, kept, s)) ([], false, kept, s)
  let of (some_ : Bool) : List Nat := (ls.zip os).flatMap fun x => if x.2.isSome == some_ then wordsOf x.1.1 x.1.2 else []
  let (vs, s) := s.loadWords g.agent (of false) (of true) g.acq
  (joinPieces ls os vs, bad, kept, s)

/-- Whether a piece cannot be read yet: a consuming read comes after the engine's own writes of the row (R247, R268) and in its place
among those of the cycle (R249), a fenced slice or row stalls (R386), and a home that no path joins to the die is waited for
(R11). -/
def State.engLater (s : State) (g : Eng) (cons : Bool) (l n : Nat) : Bool :=
  (cons && (List.range ((l % 8 + n + 7) / 8)).any fun i => s.ownFill g.agent (l + 8 * i)) ||
  (cons && s.rowLive l && s.eatsLate g.agent l) ||
  ((s.stalledHome l || !s.carries (dieOf g.w.c) (homeDie l) l) && !s.ownBytes g.agent l n)
/-- Whether a read of a piece is an over-read (R254): not one that the agent's own pending writes supply (R270). -/
def State.overRead (s : State) (g : Eng) (cons : Bool) (l n : Nat) : Bool :=
  s.rowSnuffed l && (cons || !s.ownBytes g.agent l n)
/-- The rows of an access whose page is duplicated: a consuming read of one is an ordinary read (R355). -/
def State.dupRows (s : State) (g : Eng) (ea n : Nat) (ls : List (Nat × Nat)) : List Nat :=
  ((rowSplit ea n).zip ls).filterMap fun x => match classify (BitVec.ofNat 64 x.1.1) with
    | .virt va => if s.dupAt g.w.c g.tlb g.ctx va then some (x.2.1 / 256) else none
    | _ => none

/-- An engine's read of at most 256 bytes (R143, R248-R254, R275): its bytes or what stops it, and the rows consumed so far. A
conflict or an over-read of one row leaves every count as it is. An uncorrectable error is reported (R393); while the event store
is full the read waits (R362). What the command has consumed already it reads as it was, whatever has become of the row (R253). -/
def State.engRead (s : State) (g : Eng) (ea : W64) (n : Nat) (cons : Bool) (kept : NMap KRow := []) (keep : Bool := false) :
    Except EStop (List Byte) × NMap KRow × State :=
  match s.engLocs g (if cons then 4 else 0) (rowSplit ea.toNat n) with
  | (.error e, s) => (.error e, kept, s)
  | (.ok ls, s) =>
    let dups := if cons then s.dupRows g ea.toNat n ls else []
    let eats (l : Nat) : Bool := cons && !dups.contains (l / 256)
    let new := ls.filter fun x => (asKept kept x.1).isNone
    if new.any (fun x => s.race (s.agent g.agent).view g.w.idx x.1) then (.error (.fail cMemModel ea), kept, s)
    else if new.any (fun x => s.engLater g (eats x.1) x.1 x.2) then (.error .later, kept, s)
    else if new.any (fun x => s.overRead g (eats x.1) x.1 x.2) then (.error (.fail cOverrun ea), kept, s)
    else
      let (bs, bad, kept', t) := s.engPieces g kept keep eats ls
      if !bad then (.ok bs, kept', t)
      else if 4096 ≤ s.evWaiting then (.error .later, kept, s)
      else
        let t := match g.unit with
          | some u => t.consumed g.w 1 u ((ls.map (·.1)).headD 0)
          | none => t
        (.error (.fail cUncorr ea), kept', t)

/-- Appends a write of an engine to its store buffer. -/
def State.engStore (s : State) (g : Eng) (parts : List WPart) (ref : CmdRef) : State :=
  s.modAgent g.agent fun a => { a with sb := a.sb ++
    [{ agent := g.agent, parts := parts, tagX := g.w.idx, tagK := g.iv, cmd := some ref, who := some g.w }] }
/-- An engine's write of bytes (R143, R150, R275): indivisible when `row` is set, else word by word. Answers the location of
the first byte. -/
def State.engWrite (s : State) (g : Eng) (ea : W64) (bs : List Byte) (row : Bool) (ref : CmdRef) :
    Except EStop Nat × State :=
  match s.engLocs g 1 (rowSplit ea.toNat bs.length) with
  | (.error e, s) => (.error e, s)
  | (.ok ls, s) =>
    if ls.any (fun x => s.race (s.agent g.agent).view g.w.idx x.1) then (.error (.fail cMemModel ea), s)
    else
      let s := ls.foldl (fun s x => s.touch g.w x.1) s
      let parts := match ls with
        | [(a, n), (b, _)] => bytesParts a (bs.take n) ++ bytesParts b (bs.drop n)
        | (a, _) :: _ => bytesParts a bs
        | [] => []
      let s := if row then s.engStore g parts ref else parts.foldl (fun s p => s.engStore g [p] ref) s
      (.ok ((ls.map (·.1)).headD 0), s)

/-- An engine's translation fault (R351): it takes an entry of the bank's fault list and is posted to the host; none while the
list or the event store is full, or once the task has ended. -/
def State.postFault (s : State) (g : Eng) (va pf : W64) : Option W64 × State :=
  if !s.alive g.w || 16 ≤ (s.bank g.w).faults.length || 4096 ≤ s.evWaiting then (none, s)
  else
    let (tok, s) := s.newToken g.w g.src
    let s := s.modBank g.w fun k => { k with faults := k.faults ++ [⟨tok, va, pf⟩] }
    (some tok, s.event 0x0003 [tok, va, pf, (s.bank g.w).corr.setWidth 64])

/-! ## Completion -/

/-- Whether a write of a command is still to be applied. -/
def State.cmdPending (s : State) (agent : Nat) (ref : CmdRef) : Bool :=
  s.flight.any (fun e => e.agent == agent && e.cmd == some ref) || (s.agent agent).sb.any (fun e => e.cmd == some ref)
/-- START (R274): the engine acquires the command's view. -/
def State.engStart (s : State) (agent : Nat) (v : View) : State :=
  s.modAgent agent fun a => { a with view := a.view.join v }
/-- DONE (R268): the completion decrement with the engine's view. -/
def State.engDone (s : State) (w : Who) (cfl : Option FlagRef) (agent : Nat) (code : Byte) : State :=
  s.complete w cfl (s.agent agent).view code
/-- A command ends by a failure (R143): the cause reaches C imprecisely, and the record of R329 names the command. -/
def State.engEnd (s : State) (w : Who) (e : Fin 7) (nth : W32) (cause : Byte) (va : W64) (code : Byte) : State :=
  (s.imprecise w (pendBit cause) cause va code).engFail w e nth cause
/-- The code of a decrement by the output stream engine: a completion that a message brings comes from outside the cluster (R76, R273);
the engine itself has no code in R76, which leaves an open value. -/
def State.outCode (s : State) (far : Bool) : Byte × State :=
  if far then (0x30, s)
  else
    let (v, s) := s.fresh
    (v.setWidth 8, s)

/-- The fill of a poisoned row (R144). -/
def fillPay : Payload := BitVec.ofNat 2048 ((List.range 64).foldl (fun (a : Nat) i => a + 0x7FC00BAD * 2 ^ (32 * i)) 0)
/-- A poisoned row with a tag. -/
def poisonedRow (tag : W32) : Row := ⟨BitVec.ofNat 64 (2 ^ 32 + tag.toNat), fillPay⟩
/-- A row of a tag with bytes and zero fill. -/
def rowOf (tag : W32) (bs : List Byte) : Row := ⟨tag.setWidth 64, bytesPay bs⟩

/-- Extents (R157): the word of the record says where the value stands. -/
def extDirect (w : W64) : Option W64 := if w.getLsbD 0 then some (w &&& ~~~ (3 : W64)) else none
/-- An extent read by an engine. -/
def State.engExtent (s : State) (g : Eng) (shp : W64) (j : Nat) : Except EStop Nat × State :=
  match s.engRead g (shp + BitVec.ofNat 64 (8 * j)) 8 false with
  | (.error e, _, s) => (.error e, s)
  | (.ok bs, _, s) =>
    let w : W64 := BitVec.ofNat 64 (leNat bs)
    match extDirect w with
    | none => (.ok (fld w 63 32), s)
    | some a =>
      match s.engRead g a 4 false with
      | (.error e, _, s) => (.error e, s)
      | (.ok bs, _, s) => (.ok (leNat bs), s)

end Sys2Proof.Machine
end

