-- ==== Sys2Proof/Machine/Task.lean ====
section
/-! DEFINITION. Task operations (R129-R132). -/
namespace Sys2Proof.Machine

/-- An instruction that may raise an event waits while the pending event store is full (R362). -/
def eventRoom : Act Unit := do
  let s ← get
  if 4096 ≤ s.evWaiting then hold 13

/-- Words loaded by the sequencer whose turn it is from an address with the alignment of the whole, faults being those of
its loads (R130, R204). -/
def loadWords (ea : W64) (n : Nat) : Act (List W64) := do
  classOk ea
  needAt (ea.toNat % (8 * n) == 0) cMisaligned ea
  let rec go : Nat → Act (List W64)
    | 0 => pure []
    | k + 1 => do
      let ws ← go k
      let v ← loadEa (ea + BitVec.ofNat 64 (8 * k)) 8 false none
      pure (ws ++ [v])
  go n

/-- `spawn` (R130). A die that no path reaches is waited for (R11). -/
def execSpawn (f : RRR) (s : State) : Out := issue (.spawn f) s do
  let (x, y) ← sourcesAB f
  needQuiet
  let ws ← loadWords x 8
  let s ← get
  let d : DieId := if y.getLsbD 3 then dieOf s.cur.c else ⟨fld y 2 0 % 8, by omega⟩
  if !s.carries (dieOf s.cur.c) d x.toNat then hold 13
  let r := recWords ws
  let v ← (match s.recReason d (.spawn (s.bank s.cur).ctx) r with
    | 0 => do
      let (id, s) := s.acceptRec d ((Origin.spawn 0).key s.cur.c) r (s.ownView s.cur) x
      set (s.addIval s.cur 1)
      pure (id.setWidth 64)
    | _ => pure (BitVec.allOnes 64) : Act W64)
  let t ← destOf f.d
  pendWrite t v
  pure .next

/-- The checks of R94 on a PC. -/
def pcCheck (t : W64) : Act Unit := do
  needAt (fld t 1 0 == 0) cMisaligned t
  needAt (fld t 63 57 == 0) cAccess t
  need (fld t 5 2 != 0) cChainEnd

/-- `tstart` names a sequencer that has not started in the task, and not C (R131). -/
def tstartLimits (f : RRR) : Act Unit := do
  let s ← get
  limitAB f fun _ y => fld y 1 0 != 0 && !(s.sq (s.cur.seq ⟨fld y 1 0 % 4, by omega⟩)).started
/-- `tstart` (R131, R266). -/
def execTstart (f : RRR) (s : State) : Out := issueLim (.tstart f) s (tstartLimits f) do
  let (x, y) ← sourcesAB f
  let s ← get
  let k : SeqId := ⟨fld y 1 0 % 4, by omega⟩
  let w := s.cur.seq k
  need (k != 0 && !(s.sq w).started) cIllegal
  pcCheck x
  let v := s.ownView s.cur
  let s := s.modSeq w fun q => { q with started := true, pc := x, stall := 1, last := s.now + 1 }
  set (s.modAgent w.agent fun a => { a with view := a.view.join v })
  pure .next

/-- `join` (R131, R304). -/
def execJoin (f : RRR) (s : State) : Out := issueLim (.join f) s (limitAB f fun x _ => fld x 5 0 == 0) do
  let (x, y) ← sourcesAB f
  eventRoom
  need (fld x 5 0 == 0) cIllegal
  let l ← locate x 8 3
  watch x 8 true true
  let s ← get
  let unc := s.poisoned l 8 || !s.reach (dieOf s.cur.c) (homeDie l)
  let old ← atomicFar l 8 x (fun o => o + y) (some 3) (some 3)
  let s ← get
  set (if !unc && old + y = 0 then s.placeCont s.cur l else s)
  let t ← destOf f.d
  pendWrite t old 0
  pure .next

/-- Whether a record of equal or higher level waits on the die (R131). -/
def Die.waits (d : Die) (level : Nat) : Bool := d.queues.any fun q => q.any fun r => level ≤ recLevel r.w

/-- `yield` (R131): the checkpoint follows between instructions. -/
def execYield (f : RRR) (s : State) : Out := issue (.yield f) s do
  allOk dstOk [f.d]
  let s ← get
  let lvl := match (s.bank s.cur).task with
    | some r => recLevel r.w
    | none => 0
  let w := (s.die (dieOf s.cur.c)).waits lvl
  let t ← destOf f.d
  pendWrite t (if w then 1 else 0)
  if w then modify fun s => s.modBank s.cur fun k => { k with stopping := some (.save true) }
  pure .next

/-! ## `exit` -/

/-- A sequencer is quiescent (R132): never started, frozen by a trap, or blocked in a pop, a push, `fwait` or `bar`. -/
def Seq.quiescent (q : Seq) (frozen : Bool) : Bool := !q.started || frozen || [2, 3, 4, 7].contains q.stall
/-- Whether an engine queue that a bit of the trailer mask names holds a command of the task (R132). The vector engine has no
queue. -/
def State.engineBusy (s : State) (w : Who) (bit : Nat) : Bool :=
  let k := s.core w.c
  let u := s.clu (cluOf w.c)
  let o := s.ours w
  match bit with
  | 0 => k.copyFifo.any (fun c => o c.who) || k.copyRun.any (fun r => o r.cmd.who) || k.follow.any (fun f => o f.2.1)
  | 1 => k.mFifo.any (fun m => o m.who) || k.mRun.any (fun r => o r.who) || k.wRun.any (fun r => o r.who)
  | 3 => k.bufs.any (fun b => o b.who) || k.reqs.any (fun r => o r.who)
  | 4 => u.aeFifo.any (fun r => o r.who) || u.aeRun.any (fun r => o r.who)
  | 5 => u.lamp.any (fun l => o l.who)
  | 6 => k.outFifo.any (fun c => o c.who) || k.outRun.any (fun r => o r.cmd.who)
  | _ => false

/-- The checks of an exit's join block at issue (R304): as a C atomic would be. -/
def exitChecks (join : W64) : Act Unit :=
  if join = 0 then pure ()
  else do
    needAt (fld join 5 0 == 0) cMisaligned join
    let l ← locate join 8 3
    let s ← get
    needAt (!s.rowLive l) cAccess join
    needAt (!s.rowSnuffed l) cOverrun join

/-- The trailer mask of an `exit` (R132). -/
def exitMask (f : RRR) (vs : List W64) : Nat :=
  match wideImm f.e [f.b] with
  | some e => fld e 7 0
  | none => fld (nthV vs 0) 7 0
/-- What `exit` waits for at a step of R132: 0 that A, X and S are quiescent, 1 that the engine queues of its mask have drained, 2 that
its release can be made and its events have room. -/
def State.exitReady (s : State) (w : Who) (mask : Nat) : Nat → Bool
  | 0 => (List.finRange 4).all fun q => q == 0 || ((s.bank w).seqs.get q).quiescent (s.bank w).frozen
  | 1 => !(List.range 7).any fun b => mask.testBit b && s.engineBusy w b
  | _ =>
    let join : W64 := match (s.bank w).task with
      | some r => r.w.get 2
      | none => 0
    (List.finRange 4).all (fun q => s.quiet (w.seq q).agent) && !(join = 0 && 4096 ≤ s.tickets.length) && s.evWaiting < 4096
/-- What keeps an exit's decrement of its join block from its home (R132): a table, a slice or a path that stalls (R11, R386), until it is
given up (R373); the holders of a duplicate (R278). -/
def State.exitJoin (s : State) (w : Who) : Option Stop :=
  let k := s.bank w
  let join : W64 := match k.task with
    | some r => r.w.get 2
    | none => 0
  if join = 0 then none
  else match s.translate w.c 0 k.ctx k.ptroot join.toNat 3 0 with
    | (.error (0, _), _) => some (.hold 13 0 false)
    | (.error _, _) => none
    | (.ok (pa, _), s) =>
      if (s.row pa).isSome || s.cutFor (dieOf w.c) (homeDie pa) then none
      else if s.stalledHome pa || !s.carries (dieOf w.c) (homeDie pa) pa then some (.hold 13 0 false)
      else if s.heldBy [pa / 8] != 0 then some (.holders (pa / 256))
      else none
/-- `exit` has come to a step, in which it waits (R132). -/
def exitAt (n mask : Nat) : Act Flow := do
  modify fun s => s.modSeq s.cur fun q => { q with exiting := some (n, mask) }
  pure (.stay 11)
/-- The steps of R132 from the n-th on, one after the other, as far as none of them has to wait. Whether the others are quiescent shows
once they have had their turns of the cycle; the task's pending errors are delivered when they are. -/
def exitSteps (mask n : Nat) : Act Flow := do
  let s ← get
  let w := s.cur
  if s.phase = .early then hold 11
  if n = 0 && s.exitReady w mask 0 && (s.bank w).seqs.any (·.unc) then throw (.trap { cause := cUncorr, clears := [0, 1, 2, 3] })
  let a := if n = 0 && s.exitReady w mask 0 then 1 else n
  let b := if a = 1 && s.exitReady w mask 1 then 2 else a
  if b = 2 && (s.core w.c).bufs.any (fun x => s.ours w x.who) then do
    set (s.flushPort w.c)
    exitAt 2 mask
  else if b = 2 && s.exitReady w mask 2 then
    match s.exitJoin w with
    | some x => if n = 2 then throw x else exitAt 2 mask
    | none => do
      set (s.endTask w)
      pure (.stay 11)
  else if b = n then hold 11
  else exitAt b mask
/-- The body of an `exit` (R132): its checks (R304); then its waits, in the order of the rule. The open combine buffers go when it is
reached (R216). -/
def exitBody (f : RRR) : Act Flow := do
  let s ← get
  match (s.sq s.cur).exiting with
  | some (n, mask) => exitSteps mask n
  | none => do
    let vs ← sources f.e [f.b] []
    let s ← get
    exitChecks (match (s.bank s.cur).task with
      | some r => r.w.get 2
      | none => 0)
    let s ← get
    if (s.core s.cur.c).bufs.any (fun b => s.ours s.cur b.who) then do
      set (s.flushPort s.cur.c)
      exitAt 0 (exitMask f vs)
    else exitSteps (exitMask f vs) 0

/-- `exit` (R132). -/
def execExit (f : RRR) (s : State) : Out := issue (.exit f) s (exitBody f)

end Sys2Proof.Machine
end

