-- ==== Sys2Proof/Machine/Control.lean ====
section
/-! DEFINITION. Branches, calls, hardware loops, branch on queue and X's wait (R105, R111-R116). -/
namespace Sys2Proof.Machine

/-- The target of a branch: its own line plus the delta, at a word (R111). -/
def target (pc : W64) (delta : W64) (w : BitVec 4) : W64 := mkPc (pcLine pc + (delta <<< 6)) w.toNat
/-- The line delta: E when it replaces linedelta10 (R86). -/
def brDelta (f : BR) (srcs : List (BitVec 6)) : W64 := (wideImm f.e srcs).getD (sx f.ld)

/-- A taken branch of X's or another's stream, with its trace record (R420). -/
def transfer (kind : Nat) (pc : W64) : Act Flow := do
  modify fun s => s.trace s.cur kind (s.sq s.cur).pc pc
  pure (.to pc)

/-- A conditional branch on src(a) (R111). -/
def branch (f : BR) (taken : W64 → Bool) : Act Flow := do
  let vs ← sources f.e [f.a] []
  let s ← get
  if taken (nthV vs 0) then transfer 1 (target (s.sq s.cur).pc (brDelta f [f.a]) f.w) else pure .next

/-- `br` (R111). -/
def execBr (f : BR) (s : State) : Out := issue (.br f) s do
  let s ← get
  transfer 1 (target (s.sq s.cur).pc (brDelta f []) f.w)
/-- `brz` (R111). -/
def execBrz (f : BR) (s : State) : Out := issue (.brz f) s (branch f fun x => x == 0)
/-- `brnz` (R111). -/
def execBrnz (f : BR) (s : State) : Out := issue (.brnz f) s (branch f fun x => x != 0)
/-- `brlt` (R111). -/
def execBrlt (f : BR) (s : State) : Out := issue (.brlt f) s (branch f fun x => x.slt 0)
/-- `brge` (R111). -/
def execBrge (f : BR) (s : State) : Out := issue (.brge f) s (branch f fun x => !x.slt 0)
/-- `brle` (R111). -/
def execBrle (f : BR) (s : State) : Out := issue (.brle f) s (branch f fun x => x.sle 0)
/-- `brgt` (R111). -/
def execBrgt (f : BR) (s : State) : Out := issue (.brgt f) s (branch f fun x => !x.sle 0)

/-- The link value of a call (R94): the successor in chain order, or word 0 of its own line. -/
def linkValue : Act W64 := do
  let l ← curLine
  let s ← get
  let pc := (s.sq s.cur).pc
  pure ((succPc l pc 1).getD (pcLine pc))

/-- `call` (R112): the link to a, latency 1. -/
def execCall (f : BR) (s : State) : Out := issue (.call f) s do
  let _ ← sources none [] [f.a]
  let link ← linkValue
  let _ ← scalarResult (.call f) f.a 1 0 0 link
  let s ← get
  transfer 2 (target (s.sq s.cur).pc (sx f.ld) f.w)

/-- The checks of R94 on a target taken from a register. -/
def jumpTo (kind : Nat) (a : BitVec 6) : Act Flow := do
  let vs ← sources none [a] []
  let t := nthV vs 0
  needAt (fld t 1 0 == 0) cMisaligned t
  needAt (fld t 63 57 == 0) cAccess t
  need (fld t 5 2 != 0) cChainEnd
  transfer kind t

/-- `ret` (R112). -/
def execRet (f : BR) (s : State) : Out := issue (.ret f) s (jumpTo 3 f.a)
/-- `jmp` (R112). -/
def execJmp (f : BR) (s : State) : Out := issue (.jmp f) s (jumpTo 4 f.a)

/-- The counter of `loop` (R113). -/
def loopCounter (f : BR) : Fin 4 := ⟨fld f.c 3 2 % 4, by omega⟩

/-- Writes a loop counter at its latency without touching its frame (R102, R113). -/
def loopWrite (f : BR) (n : Fin 4) : Act Unit := do
  let s ← get
  if s.cur.q = 2 then do
    addX { i := .loop f, due := 1 } [(1, n.val)]
  else pendWrite (.cnt n) 0

/-- A frame started in place of the one on its counter (R113). -/
def Seq.beginFrame (q : Seq) (c : Fin 4) (f : LFrame) : Seq := { q with frames := vset q.frames c f }

/-- `loop` (R113). -/
def execLoop (f : BR) (s : State) : Out := issue (.loop f) s do
  let vs ← sources f.e [f.a] []
  let s ← get
  let q := s.sq s.cur
  let n := fld (nthV vs 0) 31 0
  let c := loopCounter f
  let stop := target q.pc (brDelta f [f.a]) f.w
  loopWrite f c
  if n = 0 then do
    modify fun s => s.modSeq s.cur (·.endFrame c)
    let l ← fetchCheck stop
    match succPc l stop (if wLong (lineWord l (pcWord stop)) then 2 else 1) with
    | none => raise cChainEnd
    | some pc => pure (.to pc)
  else do
    let start ← nextInChain (Instr.loop f).len
    modify fun s => s.modSeq s.cur (·.beginFrame c ⟨true, start, stop, BitVec.ofNat 32 n, s.now⟩)
    pure .next

/-- A branch on the popped head of a word queue (R116). -/
def branchQueue (f : BR) (taken : W64 → Bool) : Act Flow := do
  need (f.c.toNat < 8) cQueue
  let n : Fin 16 := ⟨f.c.toNat, f.c.isLt⟩
  popOk n
  let v ← popWord n
  let s ← get
  if taken v then transfer 1 (target (s.sq s.cur).pc (match f.e with
      | some e => sx e
      | none => sx f.ld) f.w)
  else pure .next
/-- `bqnz` (R116). -/
def execBqnz (f : BR) (s : State) : Out := issue (.bqnz f) s (branchQueue f fun x => x != 0)
/-- `bqz` (R116). -/
def execBqz (f : BR) (s : State) : Out := issue (.bqz f) s (branchQueue f fun x => x == 0)

/-- `wait n` (R105): this slot is the first of n; the others pass without an issue. -/
def execWait (f : RI) (s : State) : Out := issue (.wait f) s do
  modify fun s => s.modSeq s.cur fun q => { q with waitRem := f.imm.setWidth 32 - 1 }
  pure .next

/-- One more slot of a `wait` in progress (R92, R105). -/
def State.waitSlot (s : State) (w : Who) : State :=
  ((s.xSlot w).count w 1 1).modSeq w fun q =>
    { q with waitRem := q.waitRem - 1, stall := 1, obj := 0, last := s.now + 1, steps := q.steps.map (· - 1) }

end Sys2Proof.Machine
end

