-- ==== Sys2Proof/Machine/Turn.lean ====
section
/-! DEFINITION. What a sequencer's turn is (R221, R308, R321): whether it may issue, what it fetches, and the events of the
sequencers themselves: code lines, landings, imprecise traps and illegal words. -/
namespace Sys2Proof.Machine

/-- Whether a sequencer may issue now: its bank is active and not held by a trap, a stop, a save or a fault; it is started;
it has neither issued nor trapped in this cycle, in which no task of the core's other bank was active (R221, R308). -/
def State.mayIssue (s : State) (w : Who) : Bool :=
  let k := s.core w.c
  let b := s.bank w
  let q := s.sq w
  k.active == some w.b && b.task.isSome && q.started && !b.suspended && !b.blocked &&
  (match b.stopping with
    | none => true
    | some (.save _) => b.level
    | some (.kill _) => false) &&
  (!b.frozen || (w.q == 0 && b.level)) && q.last != s.now + 1 && q.hold ≤ s.now && k.activeFrom ≤ s.now &&
  !(s.raised.any fun r => r.1.c == w.c && r.1.q == w.q) &&
  (k.stopped.isNone || (k.stepping && (match q.steps with
    | some n => 0 < n
    | none => false)))

/-- A pending imprecise cause that is to be taken (R321). -/
def Bank.imprecisePending (k : Bank) : Bool := k.task.isSome && !k.level && !k.frozen && k.tpend.toNat % 256 != 0
/-- The lowest set bit among `n` bits from `i`. -/
def lowestBit (x : Nat) : Nat → Nat → Nat
  | 0, i => i
  | n + 1, i => if x.testBit i then i else lowestBit x n (i + 1)
/-- The imprecise trap of a bank (R322): the code of the lowest set bit, with the faulting address of its cause where R325 gives one. -/
def Bank.imprecise (k : Bank) : TrapInfo :=
  let n := lowestBit (k.tpend.toNat % 256) 8 0
  { cause := pendCause n, addr := if [cAccess, cOverrun, cMemModel].contains (pendCause n) then k.paddr.get ⟨n % 9, by omega⟩ else 0 }
/-- Takes the imprecise trap of a bank (R321, R322). -/
def State.takeImprecise (s : State) (w : Who) (o : Option State := none) : State :=
  s.takeTrap (w.seq 0) (s.bank w).imprecise false o

/-- What a sequencer's turn does. -/
inductive TurnKind where
  | idle
  | slot
  | stop (x : Stop)
  | run (i : Instr) (s : State)

/-- The instruction at a word of a line (R84). -/
def lineInstr (l : BitVec 512) (k : Nat) : Instr :=
  let w := lineWord l k
  match decodeWord w (if wLong w then some (lineWord l (k + 1)) else none) with
  | .ok i => i
  | .error _ => .illegalInstruction w

/-- The turn of a sequencer: nothing, a slot of a `wait`, a fetch that stops, or an instruction. -/
def State.turnOf (s : State) (c : CoreId) (b : BankId) (q : SeqId) : TurnKind :=
  let w : Who := ⟨c, b, q, 0⟩
  let s := { s with cur := w }
  if !s.mayIssue w then .idle
  else if w.q = 2 && (s.sq w).waitRem != 0 then .slot
  else match (s.bank w).heldLine q with
    | some l => .run (lineInstr l (pcWord (s.sq w).pc)) s
    | none => match StateT.run (fetchCheck (s.sq w).pc) s with
      | .error x => .stop x
      | .ok (l, s) => .run (lineInstr l (pcWord (s.sq w).pc)) s

/-- A bank at the end of a cycle (R221, R310, R418): its run time if it was active, and its sequencers that were held, which in a bank
that was not active are all of them. -/
def Bank.passes (k : Bank) (now : Nat) (on : Bool) : Bank :=
  if k.task.isNone then k
  else
    let held := (k.seqs.toList.filter fun q => q.started && q.last != now + 1).length
    (if on then { k with run := k.run + 1 }.count 0 1 else k).count 14 held
/-- One cycle of a core passes (R8, R310, R418). -/
def Core.tick (k : Core) (now : Nat) : Core :=
  { k with banks := Vector.ofFn fun b => (k.banks.get b).passes now (k.was == some b) }
/-- The zero test at the end of a cycle (R69, R70): parked commands whose flag is 0 are freed, and the waits so ended enter the
flag-wait rings (R76). -/
def State.zeroTest (s : State) (c : CoreId) : State :=
  let ends (p : Parked) : Bool := !p.freed && (s.flag p.who p.flag).v == 0
  let ps := (s.core c).parked
  if !ps.any ends then s
  else
    let t := s.modCore c fun k => { k with parked := ps.map fun p => if ends p then { p with freed := true } else p }
    ps.foldl (fun t p =>
      let waited := s.now + 1 - p.since
      if ends p && t.alive p.who then
        let e := flogEntry waited (s.flag p.who p.flag).last p.who.q.val p.flag
        (t.modBank p.who (·.flogAdd e)).trace p.who 9 p.pc e
      else t) t
/-- A die's idle interval starts anew while a record waits or no bank is free (R314). -/
def State.idleTick (s : State) (d : DieId) : Die :=
  let x := s.die d
  let free := (List.finRange 64).any fun i =>
    (s.core ⟨64 * d.val + i.val, by omega⟩).banks.any fun b => b.task.isNone
  if x.queues.any (fun q => q != []) || !free then { x with idleFrom := s.now + 1 } else x
/-- One minute of the time base. -/
abbrev minuteNs : Nat := 60000000000
/-- The next pass of the scrubbers begins when the period of the last one is over, with the parameter as it then stands (R389, R398). -/
def State.scrubPass (s : State) : State :=
  if s.tb < s.scrubStart + s.scrubPer.toNat * minuteNs then s
  else { s with scrubStart := s.scrubStart + s.scrubPer.toNat * minuteNs, scrubPer := s.scrubMin, scrubbed := [] }
/-- The time base after one cycle (R8): it does not slow, so a cycle at the slowest die's frequency adds the more. `tbPart` counts
in millionths of a nanosecond. -/
def State.clock (s : State) : State :=
  let mhz := s.dies.foldl (fun m d => if d.mhz.toNat = 0 then m else Nat.min m d.mhz.toNat) 3600
  let n := s.tbPart + 1000000000 / mhz
  { s with now := s.now + 1, tb := s.tb + n / 1000000, tbPart := n % 1000000 }.scrubPass

/-- A host-die core stores bytes to device memory, where its interface and the pages it owns stand (R12, R264, R361). The write keeps
the view that the core has before it, for a command that it may write (R305); at scope 0 no other agent takes it. -/
def State.hostStore (s : State) (h : Fin 32) (pa : Nat) (bs : List Byte) : State :=
  if pa + bs.length ≤ 2 ^ 40 then
    let v : View := { fl := (s.agent (hostAgent h)).view.fl }
    (((bytesParts pa bs).foldl (fun s p => (s.append (hostAgent h) [⟨hostAgent h, 0, v⟩] p).own (hostAgent h) p.word)
      (s.giveUp ((bytesParts pa bs).map (·.word)) 0xFF)).stepped).unpoison
      pa bs.length
  else s
/-- Takes the next turn: the head of the agenda, or an open one. -/
def State.popTurn (s : State) : Turn × State :=
  match s.agenda with
  | t :: ts => (t, { s with agenda := ts })
  | [] => (Config.nextTurn s.choice, { s with choice := s.choice + 1 })

/-- An encoded instruction takes effect only on a sequencer's turn. -/
def isEvent (i : Instr) : Bool :=
  match i with
  | .illegalInstruction _ => false
  | _ => (encodeWord i).isNone

/-! ## Events of the sequencers -/

/-- ILLEGAL_INSTRUCTION (R90, R91): the trap, precise, at the word. -/
def execIllegalInstruction (_w : W32) (s : State) : Out := .next (s.stopped (.trap { cause := cIllegal }))

/-- IMPRECISE_TRAP (R321, R322): taken at C of the active bank while C is at level 0 and the core not frozen, in a cycle in which no
sequencer of the bank has issued. -/
def execImpreciseTrap (c : CoreId) (s : State) : Out :=
  match (s.core c).active with
  | none => .next s
  | some b =>
    let w : Who := ⟨c, b, 0, 0⟩
    if (s.bank w).imprecisePending && (s.bank w).seqs.all (fun q => q.last != s.now + 1) && !s.trapWaits w (s.bank w).imprecise then
      .next (s.takeImprecise w)
    else .next s

/-- A code line as memory holds it. DEDUCED (log 103): an uncorrectable word of it is as a load of it (R122). -/
def State.codeLine (s : State) (pa : Nat) : BitVec 512 :=
  BitVec.ofNat 512 ((List.range 8).foldl (fun (n : Nat) i =>
    n + (if s.poisoned (pa + 8 * i) 8 then badWord.toNat else s.mem.readLe (pa + 8 * i) 8) * 2 ^ (64 * i)) 0)
/-- FETCH_LINE_ARRIVE (R83, R103): the line a sequencer waits for enters the instruction cache as memory holds it, once a path joins its
home to the core's die (R11). An uncorrectable error in it is consumed by the sequencer (R394). -/
def execFetchLineArrive (c : CoreId) (b : BankId) (q : SeqId) (s : State) : Out :=
  let w : Who := ⟨c, b, q, 0⟩
  let k := s.bank w
  let x := s.sq w
  if x.stall != 10 || (s.lineAt w x.want).isSome then .next s
  else match s.translate c 0 k.ctx k.ptroot x.want.toNat 2 q.val with
    | (.error _, _) => .next s
    | (.ok (pa, _), s) =>
      if s.stalledHome pa || !s.carries (dieOf c) (homeDie pa) pa || s.poisoned pa 64 && 4096 ≤ s.evWaiting then .next s
      else
        let l := s.codeLine pa
        let s := if s.poisoned pa 64 then s.notes w pa else s
        .next (s.modCore c fun k' => { k' with icache := NMap.put k'.icache (icKey k.ctx x.want) l })

/-- EXPOSED_WRITE_LAND (R97): the writes of X whose due slot has ended. -/
def execExposedWriteLand (c : CoreId) (b : BankId) (s : State) : Out := .next (s.landDue ⟨c, b, 2, 0⟩)

/-- REGISTER_WRITE_LAND (R98): the oldest pending write of C, A or S. -/
def execRegisterWriteLand (c : CoreId) (b : BankId) (q : SeqId) (s : State) : Out := .next (s.landFirst ⟨c, b, q, 0⟩)

end Sys2Proof.Machine
end

