-- ==== Sys2Proof/Machine/VectorInstr.lean ====
section
/-! DEFINITION. The vector instructions at issue (R163-R183): what they read and capture, and when they fall due. -/
namespace Sys2Proof.Machine

/-- A tile register field as a capture. -/
def Bank.capTile (k : Bank) (n : BitVec 5) : Cap := .tile (k.tile n)
/-- A mask register field as a capture. -/
def Bank.capMask (k : Bank) (n : BitVec 5) : Cap := .mask (k.maskReg (n.setWidth 3))
/-- The predicate captured at issue: none for m0 (R57, R326). -/
def Bank.capPred (k : Bank) (m : BitVec 3) : Option Mask := if m = 0 then none else some (k.maskReg m)

/-- Adds a vector instruction to the exposed pipeline with its captures and its predicate. -/
def vecAdd (i : Instr) (f : FV) (lat : Nat) (caps : List Cap) (files : List (Nat × Nat)) : Act Flow := do
  let s ← get
  addX { i := i, due := lat, caps := caps, pm := (s.bank s.cur).capPred f.m } files
  pure .next
/-- An instruction whose sources are tiles and whose destination is a tile. -/
def vecTiles (i : Instr) (f : FV) (lat : Nat) (srcs : List (BitVec 5)) : Act Flow := do
  let s ← get
  vecAdd i f lat (srcs.map (s.bank s.cur).capTile) [(2, f.d.toNat)]
/-- A compare of tiles into a mask. -/
def vecCmp (i : Instr) (f : FV) : Act Flow := do
  let s ← get
  vecAdd i f 2 ([f.a, f.b].map (s.bank s.cur).capTile) [(3, f.d.toNat)]
/-- An instruction whose sources are masks. -/
def vecMasks (i : Instr) (f : FV) (lat : Nat) (srcs : List (BitVec 5)) (files : List (Nat × Nat)) : Act Flow := do
  let s ← get
  vecAdd i f lat (srcs.map (s.bank s.cur).capMask) files
/-- `vmov` by KIND (R169). -/
def vecMov (f : FV) : Act Flow := do
  let s ← get
  let k := s.bank s.cur
  let kind := (f.e.getD 0).toNat % 4
  vecAdd (.vmov f) f 1 [if kind = 1 || kind = 2 then k.capMask f.a else k.capTile f.a]
    [(if kind = 1 || kind = 3 then 3 else 2, f.d.toNat)]
/-- Adds an instruction with one scalar source, field a. -/
def vecScalar (i : Instr) (f : FV) (v : W64) : Act Flow := do
  let s ← get
  addX { i := i, due := 1, sv0 := v, pm := (s.bank s.cur).capPred f.m } [(2, f.d.toNat)]
  pure .next
/-- X's scalar register by a 5-bit field. -/
def xScalar (n : BitVec 5) : Act W64 := readField 0 (sFld n)
def vecSplat (f : FV) : Act Flow := do
  let v ← (if f.e.isSome then pure 0 else xScalar f.a : Act W64)
  vecScalar (.vsplat f) f v
def vecPut (f : FV) : Act Flow := do
  let v ← xScalar f.a
  vecScalar (.vput f) f v

/-- The slot that a format field names: 63 is (`fbase` + l0) mod 64 of the issuing sequencer (R72). -/
def State.fmtNo (s : State) (w : Who) (n : Nat) : Fin 64 :=
  if n = 63 then ⟨((s.bank w).fbase.toNat + ((s.sq w).l.get 0).toNat) % 64, by omega⟩ else ⟨n % 64, by omega⟩
def State.fmtSlot (s : State) (w : Who) (n : Nat) : W32 := (s.bank w).fmt.get (s.fmtNo w n)

/-- `rsseed` before an instruction's draws, and its advance by `n` draws at issue (R41, R326). -/
def takeDraws (rs : Bool) (n : Nat) : Act W64 := do
  let s ← get
  let seed := (s.bank s.cur).rsseed
  if rs then do
    set (s.modBank s.cur fun k => { k with rsseed := seedAfter seed n })
    pure seed
  else pure 0

/-- The limits that the named slot sets (R171, R172). -/
def quantLimits (f : FV) (quant : Bool) : Act Unit := do
  let s ← get
  need (quantOk (s.fmtSlot s.cur (cvtFmt (cvtWord f))) (cvtWord f) f quant) cIllegal
/-- `vquant` and `vdequant` (R170-R172): the slot is read at issue, and its limits are checked. -/
def vecConvert (i : Instr) (f : FV) (quant : Bool) : Act Flow := do
  let w := cvtWord f
  let s ← get
  let k := s.bank s.cur
  let slot := s.fmtSlot s.cur (cvtFmt w)
  need (quantOk slot w f quant) cIllegal
  let sch := slotSch slot (cvtSide w)
  let seed ← takeDraws (cvtRound w == 3) (if sch = 2 then 2048 else 1024)
  let caps :=
    if quant then k.capTile f.a :: (if sch = 2 then [k.capTile (f.a + 1)] else [])
    else k.capTile f.a :: k.capTile f.b :: (if sch = 2 then [k.capTile (f.a + 1)] else [])
  addX { i := i, due := if sch = 2 then 8 else 6, caps := caps, slotv := slot, rss := seed }
    ((2, f.d.toNat) :: (if sch = 2 then [(2, f.d.toNat + 1)] else []) ++ (if quant && sch != 0 then [(2, f.b.toNat)] else []))
  pure .next
/-- `vftoi` and `vitof` (R170). -/
def vecRound (i : Instr) (f : FV) : Act Flow := do
  let w := cvtWord f
  let s ← get
  let k := s.bank s.cur
  let seed ← takeDraws (cvtRound w == 3) (onesBelow (k.maskReg f.m) 1024)
  addX { i := i, due := 4, caps := [k.capTile f.a], pm := k.capPred f.m, rss := seed } [(2, f.d.toNat)]
  pure .next
/-- `vflag` (R180). -/
def vecFlag (f : FV) : Act Flow := do
  let s ← get
  vecAdd (.vflag f) f 1 [.mask ((s.bank s.cur).xf.get ⟨f.a.toNat % 5, by omega⟩)] [(3, f.d.toNat)]

/-- The queue of a tile pop or push: 8-15, and a word queue raises QueueProtocol (R181). -/
def rowQueue (n : BitVec 5) : Act (Fin 16) := do
  need (8 ≤ n.toNat) cQueue
  pure ⟨n.toNat % 16, by omega⟩
/-- `vpop` (R182): the rows are popped at issue, and the result is fixed then (R327). -/
def vecPop (f : FV) : Act Flow := do
  let q ← rowQueue f.a
  popOk q
  matrixOk q
  let rows ← popRows q (widOf (widE f)).2.2
  let s ← get
  let k := s.bank s.cur
  let (t, bad) := unpackRows (widE f) rows
  let m := k.maskReg f.m
  let fl : Vector Mask 5 := Vector.ofFn fun p => if p = 0 then bad &&& m else 0
  addX { i := .vpop f, due := 2, caps := [.res t fl], pm := k.capPred f.m, sv2 := popHeader rows }
    ((2, f.d.toNat) :: fieldFile (sFld f.b))
  pure .next
/-- `vpush` (R182): the tail slots are reserved at issue. -/
def vecPush (f : FV) : Act Flow := do
  let q ← rowQueue f.d
  pushOk q
  let n := (widOf (widE f)).2.2
  let rid ← reserve q n
  let v ← xScalar f.b
  let s ← get
  let k := s.bank s.cur
  addX { i := .vpush f, due := 2, sv1 := v, caps := [k.capTile f.a], pm := k.capPred f.m, rid := rid, nres := n, q := q } []
  pure .next
/-- `vget` (R183): the lane is read at issue (R327). -/
def vecGet (f : FV) : Act Flow := do
  let s ← get
  addX { i := .vget f, due := 1, sv2 := (((s.bank s.cur).tile f.a).get (laneOf f)).setWidth 64 } (fieldFile (sFld f.d))
  pure .next

/-- `vadd` (R166), latency 4 (R165). -/
def execVadd (f : FV) (s : State) : Out := issue (.vadd f) s (vecTiles (.vadd f) f 4 [f.a, f.b])

/-- `vsub` (R166), latency 4 (R165). -/
def execVsub (f : FV) (s : State) : Out := issue (.vsub f) s (vecTiles (.vsub f) f 4 [f.a, f.b])

/-- `vmul` (R166), latency 4 (R165). -/
def execVmul (f : FV) (s : State) : Out := issue (.vmul f) s (vecTiles (.vmul f) f 4 [f.a, f.b])

/-- `vmin` (R166), latency 4 (R165). -/
def execVmin (f : FV) (s : State) : Out := issue (.vmin f) s (vecTiles (.vmin f) f 4 [f.a, f.b])

/-- `vmax` (R166), latency 4 (R165). -/
def execVmax (f : FV) (s : State) : Out := issue (.vmax f) s (vecTiles (.vmax f) f 4 [f.a, f.b])

/-- `vfma` (R166), latency 4; the addend is vd as it stands at issue. -/
def execVfma (f : FV) (s : State) : Out := issue (.vfma f) s (vecTiles (.vfma f) f 4 [f.a, f.b, f.d])

/-- `vfms` (R166), latency 4; the addend is vd as it stands at issue. -/
def execVfms (f : FV) (s : State) : Out := issue (.vfms f) s (vecTiles (.vfms f) f 4 [f.a, f.b, f.d])

/-- `vabs` (R166), latency 4. -/
def execVabs (f : FV) (s : State) : Out := issue (.vabs f) s (vecTiles (.vabs f) f 4 [f.a])

/-- `vneg` (R166), latency 4. -/
def execVneg (f : FV) (s : State) : Out := issue (.vneg f) s (vecTiles (.vneg f) f 4 [f.a])

/-- `viadd` (R167), latency 2 (R165). -/
def execViadd (f : FV) (s : State) : Out := issue (.viadd f) s (vecTiles (.viadd f) f 2 [f.a, f.b])

/-- `visub` (R167), latency 2 (R165). -/
def execVisub (f : FV) (s : State) : Out := issue (.visub f) s (vecTiles (.visub f) f 2 [f.a, f.b])

/-- `vimul` (R167), latency 2 (R165). -/
def execVimul (f : FV) (s : State) : Out := issue (.vimul f) s (vecTiles (.vimul f) f 2 [f.a, f.b])

/-- `viand` (R167), latency 2 (R165). -/
def execViand (f : FV) (s : State) : Out := issue (.viand f) s (vecTiles (.viand f) f 2 [f.a, f.b])

/-- `vior` (R167), latency 2 (R165). -/
def execVior (f : FV) (s : State) : Out := issue (.vior f) s (vecTiles (.vior f) f 2 [f.a, f.b])

/-- `vixor` (R167), latency 2 (R165). -/
def execVixor (f : FV) (s : State) : Out := issue (.vixor f) s (vecTiles (.vixor f) f 2 [f.a, f.b])

/-- `vishl` (R167), latency 2 (R165). -/
def execVishl (f : FV) (s : State) : Out := issue (.vishl f) s (vecTiles (.vishl f) f 2 [f.a, f.b])

/-- `vishr` (R167), latency 2 (R165). -/
def execVishr (f : FV) (s : State) : Out := issue (.vishr f) s (vecTiles (.vishr f) f 2 [f.a, f.b])

/-- `vceq` (R168), latency 2 (R165). -/
def execVceq (f : FV) (s : State) : Out := issue (.vceq f) s (vecCmp (.vceq f) f)

/-- `vclt` (R168), latency 2 (R165). -/
def execVclt (f : FV) (s : State) : Out := issue (.vclt f) s (vecCmp (.vclt f) f)

/-- `vcle` (R168), latency 2 (R165). -/
def execVcle (f : FV) (s : State) : Out := issue (.vcle f) s (vecCmp (.vcle f) f)

/-- `viceq` (R168), latency 2 (R165). -/
def execViceq (f : FV) (s : State) : Out := issue (.viceq f) s (vecCmp (.viceq f) f)

/-- `vilt` (R168), latency 2 (R165). -/
def execVilt (f : FV) (s : State) : Out := issue (.vilt f) s (vecCmp (.vilt f) f)

/-- `vsel` (R169), latency 1; m is the selector. -/
def execVsel (f : FV) (s : State) : Out := issue (.vsel f) s (vecTiles (.vsel f) f 1 (if f.e.isSome then [f.a] else [f.a, f.b]))

/-- `vmov` (R169), latency 1. -/
def execVmov (f : FV) (s : State) : Out := issue (.vmov f) s (vecMov f)

/-- `vsplat` (R169), latency 1; the scalar is read at issue. -/
def execVsplat (f : FV) (s : State) : Out := issue (.vsplat f) s (vecSplat f)

/-- `vquant` (R170, R171), latency 6, or 8 under ST32. -/
def execVquant (f : FV) (s : State) : Out := issueLim (.vquant f) s (quantLimits f true) (vecConvert (.vquant f) f true)

/-- `vdequant` (R170, R172), latency 6, or 8 under ST32. -/
def execVdequant (f : FV) (s : State) : Out := issueLim (.vdequant f) s (quantLimits f false) (vecConvert (.vdequant f) f false)

/-- `vftoi` (R170), latency 4. -/
def execVftoi (f : FV) (s : State) : Out := issue (.vftoi f) s (vecRound (.vftoi f) f)

/-- `vitof` (R170), latency 4. -/
def execVitof (f : FV) (s : State) : Out := issue (.vitof f) s (vecRound (.vitof f) f)

/-- `vexp2` (R173), latency 8. -/
def execVexp2 (f : FV) (s : State) : Out := issue (.vexp2 f) s (vecTiles (.vexp2 f) f 8 [f.a])

/-- `vexp2d` (R173, R174), latency 8. -/
def execVexp2d (f : FV) (s : State) : Out := issue (.vexp2d f) s (vecTiles (.vexp2d f) f 8 [f.a, f.b])

/-- `vlog2` (R173), latency 8. -/
def execVlog2 (f : FV) (s : State) : Out := issue (.vlog2 f) s (vecTiles (.vlog2 f) f 8 [f.a])

/-- `vrcp.seed` (R175), latency 6. -/
def execVrcpSeed (f : FV) (s : State) : Out := issue (.vrcpSeed f) s (vecTiles (.vrcpSeed f) f 6 [f.a])

/-- `vrsq.seed` (R175), latency 6. -/
def execVrsqSeed (f : FV) (s : State) : Out := issue (.vrsqSeed f) s (vecTiles (.vrsqSeed f) f 6 [f.a])

/-- `vrotr` (R176-R178), latency 2. -/
def execVrotr (f : FV) (s : State) : Out := issue (.vrotr f) s (vecTiles (.vrotr f) f 2 [f.a])

/-- `vbcastr` (R176-R178), latency 2. -/
def execVbcastr (f : FV) (s : State) : Out := issue (.vbcastr f) s (vecTiles (.vbcastr f) f 2 [f.a])

/-- `vredr` (R176-R178), latency 2. -/
def execVredr (f : FV) (s : State) : Out := issue (.vredr f) s (vecTiles (.vredr f) f 2 [f.a])

/-- `vscanr` (R176-R178), latency 2. -/
def execVscanr (f : FV) (s : State) : Out := issue (.vscanr f) s (vecTiles (.vscanr f) f 2 [f.a])

/-- `vrotc` (R176-R178), latency 6. -/
def execVrotc (f : FV) (s : State) : Out := issue (.vrotc f) s (vecTiles (.vrotc f) f 6 [f.a])

/-- `vbcastc` (R176-R178), latency 6. -/
def execVbcastc (f : FV) (s : State) : Out := issue (.vbcastc f) s (vecTiles (.vbcastc f) f 6 [f.a])

/-- `vredc` (R176-R178), latency 6. -/
def execVredc (f : FV) (s : State) : Out := issue (.vredc f) s (vecTiles (.vredc f) f 6 [f.a])

/-- `vscanc` (R176-R178), latency 6. -/
def execVscanc (f : FV) (s : State) : Out := issue (.vscanc f) s (vecTiles (.vscanc f) f 6 [f.a])

/-- `mand` (R179), latency 1. -/
def execMand (f : FV) (s : State) : Out := issue (.mand f) s (vecMasks (.mand f) f 1 [f.a, f.b] [(3, f.d.toNat)])

/-- `mor` (R179), latency 1. -/
def execMor (f : FV) (s : State) : Out := issue (.mor f) s (vecMasks (.mor f) f 1 [f.a, f.b] [(3, f.d.toNat)])

/-- `mxor` (R179), latency 1. -/
def execMxor (f : FV) (s : State) : Out := issue (.mxor f) s (vecMasks (.mxor f) f 1 [f.a, f.b] [(3, f.d.toNat)])

/-- `mandn` (R179), latency 1. -/
def execMandn (f : FV) (s : State) : Out := issue (.mandn f) s (vecMasks (.mandn f) f 1 [f.a, f.b] [(3, f.d.toNat)])

/-- `vany` (R179), latency 2, to X's scalar register. -/
def execVany (f : FV) (s : State) : Out := issue (.vany f) s (vecMasks (.vany f) f 2 [f.a] (fieldFile (sFld f.d)))

/-- `vall` (R179), latency 2, to X's scalar register. -/
def execVall (f : FV) (s : State) : Out := issue (.vall f) s (vecMasks (.vall f) f 2 [f.a] (fieldFile (sFld f.d)))

/-- `mpop` (R179), latency 2, to X's scalar register. -/
def execMpop (f : FV) (s : State) : Out := issue (.mpop f) s (vecMasks (.mpop f) f 2 [f.a] (fieldFile (sFld f.d)))

/-- `vflag` (R180), latency 1: the plane as it stands at issue. -/
def execVflag (f : FV) (s : State) : Out := issue (.vflag f) s (vecFlag f)

/-- `vflagclr` (R180), latency 1. -/
def execVflagclr (f : FV) (s : State) : Out := issue (.vflagclr f) s (vecAdd (.vflagclr f) f 1 [] [])

/-- `vpop` (R181, R182), latency 2. -/
def execVpop (f : FV) (s : State) : Out := issue (.vpop f) s (vecPop f)

/-- `vpush` (R181, R182), latency 2. -/
def execVpush (f : FV) (s : State) : Out := issue (.vpush f) s (vecPush f)

/-- `vget` (R183), latency 1. -/
def execVget (f : FV) (s : State) : Out := issue (.vget f) s (vecGet f)

/-- `vput` (R183), latency 1. -/
def execVput (f : FV) (s : State) : Out := issue (.vput f) s (vecPut f)

end Sys2Proof.Machine
end

