-- ==== Sys2Proof/Machine/Access.lean ====
section
/-! DEFINITION. The access sequencer's instructions (chapter 8): streams, gathers, copies, weight loads, counted cells, shape
records, loads into queues and the lamplighter, as A issues them. -/
namespace Sys2Proof.Machine

/-! ## Streams (R145-R147) -/

def qOf (f : FQ) : Fin 16 := ⟨f.q.toNat, f.q.isLt⟩
/-- The stream number in field f. -/
def kOf (f : FQ) : Fin 8 := ⟨fld f.f 2 0 % 8, by omega⟩
/-- The words of a 64-byte descriptor as a stream descriptor (R145). -/
def sdescOf (ws : List W64) : SDesc :=
  { base := nthV ws 0
    cnt := Vector.ofFn fun i => BitVec.ofNat 32 ((nthV ws (1 + i.val / 2)).toNat / 2 ^ (32 * (i.val % 2)))
    str := Vector.ofFn fun i => BitVec.ofNat 32 ((nthV ws (3 + i.val / 2)).toNat / 2 ^ (32 * (i.val % 2)))
    shp := nthV ws 5
    tagbase := BitVec.ofNat 32 (fld (nthV ws 6) 31 0)
    pgw := (nthV ws 6).getLsbD 41
    el := fld (nthV ws 6) 40 32 }
/-- A count that names an extent of SHP. -/
def cntExt (c : W32) : Option Nat := if 0xFFFFFFF8 ≤ c.toNat then some (c.toNat - 0xFFFFFFF8) else none
/-- The limits of R145 for a word or a row queue. -/
def sdescOk (d : SDesc) (word : Bool) : Act Unit := do
  need (if word then d.el == 1 || d.el == 2 || d.el == 4 || d.el == 8 else 8 ≤ d.el && d.el ≤ 256 && d.el % 8 == 0) cIllegal
  need (!(d.cnt.any fun c => (cntExt c).isSome) || (d.shp != 0 && fld d.shp 5 0 == 0)) cIllegal
  let m := if word then d.el else 8
  needAt (d.base.toNat % m == 0 && d.str.all (fun x => x.toNat % m == 0)) cMisaligned d.base

/-- The context of the sequencer whose turn it is. -/
def State.myCtx (s : State) : BitVec 12 := (s.bank s.cur).ctx

/-- The limits of a descriptor that src(a) names (R140, R119). -/
def sdescLimits (f : FQ) : Act Unit := illegalFirst do
  let vs ← peekSources none [f.a]
  let ws ← loadWords (nthV vs 0) 8
  sdescOk (sdescOf ws) (f.q.toNat < 8)
/-- `sbind` (R146). A running stream keeps its status until the engine has stopped it. -/
def execSbind (f : FQ) (s : State) : Out := issueLim (.sbind f) s (sdescLimits f) do
  pushOk (qOf f)
  let fm := cmdForm f.e
  allOk srcOk [f.a]
  flagsOk [fm.cfl, fm.after]
  let vs ← sources none [f.a] []
  let ws ← loadWords (nthV vs 0) 8
  let d := sdescOf ws
  sdescOk d (f.q.toNat < 8)
  let s ← get
  let _ ← placeCmd fm.after false
    { i := .sbind f, who := s.me, ctx := s.myCtx, cfl := fm.cfl, kind := .stream (kOf f) (qOf f) (f.f.getLsbD 3) d }
  modify fun s => s.modBank s.cur fun k =>
    if (k.stream.get (kOf f)).st = 1 then k else { k with stream := vset k.stream (kOf f) { st := 1, q := qOf f } }
  pure .next

/-- `sstop` (R147): a command of the copy engine; A waits for it unless it has parked. -/
def execSstop (f : FQ) (s : State) : Out := issue (.sstop f) s do
  let fm := cmdForm f.e
  flagsOk [fm.after]
  let s ← get
  match (s.sq s.cur).waitCmd with
  | some (n, _) => do
    if (s.core s.cur.c).copyFifo.any (·.id == n) then hold 8
    set s.waitOver
    pure .next
  | none => do
    let n := (s.core s.cur.c).nextId
    let parked ← placeCmd fm.after false { i := .sstop f, who := s.me, ctx := s.myCtx, kind := .stop (kOf f) }
    if parked then pure .next
    else do
      modify (·.waitFor n)
      pure (.again 8)

/-- A status word of a stream (R147). -/
def StreamSt.word (x : StreamSt) : W64 :=
  BitVec.ofNat 64 (x.pushed.toNat * 2 ^ 32 + (if x.pois then 8 else 0) + (if x.fail then 4 else 0) + x.st.toNat)
/-- `sstat` (R147). -/
def execSstat (f : FQ) (s : State) : Out := issue (.sstat f) s do
  allOk dstOk [f.a]
  let s ← get
  scalarResultOf f.a ((s.bank s.cur).stream.get (kOf f)).word
where
  /-- A result of A, left pending (R98). -/
  scalarResultOf (d : BitVec 6) (v : W64) : Act Flow := do
    let t ← destOf d
    pendWrite t v
    pure .next

/-! ## Gathers (R148-R151) -/

/-- The words of a gather descriptor (R148). -/
def gdescOf (ws : List W64) : GDesc :=
  { table := nthV ws 0, list := nthV ws 1
    stride := fld (nthV ws 2) 31 0, nrows := fld (nthV ws 2) 63 32
    tagbase := BitVec.ofNat 32 (fld (nthV ws 3) 31 0)
    swz := fld (nthV ws 3) 45 42, pgw := (nthV ws 3).getLsbD 41, rlen := fld (nthV ws 3) 40 32
    dbase := nthV ws 4, shp := nthV ws 5, cx := fld (nthV ws 6) 2 0 }
/-- The limits of R148. -/
def gdescOk (d : GDesc) (sp list : Bool) : Act Unit := do
  need (d.swz ≤ 4 && d.stride % 8 == 0 && 8 ≤ d.rlen && d.rlen ≤ 256 && d.rlen % 8 == 0 && (!sp || fld d.dbase 7 0 == 0)) cIllegal
  needAt (!sp || (match classify d.dbase with
    | .sp _ => true
    | _ => false)) cAccess d.dbase
  needAt (d.table.toNat % 8 == 0) cMisaligned d.table
  needAt (!list || d.list.toNat % 4 == 0) cMisaligned d.list
/-- An extent read by A (R157). -/
def readExtent (rec : W64) (j : Nat) : Act Nat := do
  classOk rec
  needAt (fld rec 5 0 == 0) cMisaligned rec
  let w ← loadEa (rec + BitVec.ofNat 64 (8 * j)) 8 false none
  match extDirect w with
  | none => pure (fld w 63 32)
  | some a => do
    let v ← loadEa a 4 false none
    pure v.toNat
def spOf (f : FQ) : Bool := f.f.getLsbD 1
/-- The queue of a gather's rows is a row queue that A produces (R149). -/
def gatherQueue (f : FQ) : Act Unit :=
  if spOf f then pure () else do
    need (8 ≤ f.q.toNat) cQueue
    pushOk (qOf f)
/-- The limits of a gather's descriptor and batch (R140, R119). -/
def gatherLimits (f : FQ) (list : Bool) : Act Unit := illegalFirst do
  let vs ← peekSources none [f.a, f.b]
  let ws ← loadWords (nthV vs 0) 8
  need (!list || fld (nthV vs 1) 47 32 != 0 || (gdescOf ws).shp != 0) cIllegal
  gdescOk (gdescOf ws) (spOf f) list
/-- Places a gather: it is outstanding in its group from its issue (R151). -/
def gatherPlace (i : Instr) (f : FQ) (kind : CKind) : Act Flow := do
  let fm := cmdForm f.e
  let s ← get
  let _ ← placeCmd fm.after false { i := i, who := s.me, ctx := s.myCtx, cfl := fm.cfl, grp := fm.grp, kind := kind }
  modify fun s => s.modBank s.cur fun k =>
    { k with grp := vset k.grp fm.grp { k.grp.get fm.grp with out := (k.grp.get fm.grp).out + 1 } }
  pure .next
/-- `gather` (R149). DESIGN CHOICE (log 95): a count of 0 is read from extent CX by A, as the instruction issues, for a command that
parks too. -/
def execGather (f : FQ) (s : State) : Out := issueLim (.gather f) s (gatherLimits f true) do
  gatherQueue f
  let fm := cmdForm f.e
  allOk srcOk [f.a, f.b]
  flagsOk [fm.cfl, fm.after]
  let vs ← sources none [f.a, f.b] []
  let ws ← loadWords (nthV vs 0) 8
  let d := gdescOf ws
  let n := fld (nthV vs 1) 47 32
  need (n != 0 || d.shp != 0) cIllegal
  gdescOk d (spOf f) true
  let n ← (if n = 0 then readExtent d.shp d.cx else pure n : Act Nat)
  gatherPlace (.gather f) f (.gather (qOf f) (spOf f) (f.f.getLsbD 0) d (fld (nthV vs 1) 31 0) n)
/-- `gatherq` (R149). -/
def execGatherq (f : FQ) (s : State) : Out := issueLim (.gatherq f) s (gatherLimits f false) do
  gatherQueue f
  let fm := cmdForm f.e
  allOk srcOk [f.a, f.b]
  flagsOk [fm.cfl, fm.after]
  let vs ← sources none [f.a, f.b] []
  let ws ← loadWords (nthV vs 0) 8
  let d := gdescOf ws
  gdescOk d (spOf f) false
  gatherPlace (.gatherq f) f (.gatherq (qOf f) (spOf f) (f.f.getLsbD 0) d (BitVec.ofNat 32 (fld (nthV vs 1) 31 0))
    (BitVec.ofNat 32 (fld (nthV vs 1) 63 32)))

/-- `gwait` (R151). -/
def execGwait (f : FQ) (s : State) : Out := issue (.gwait f) s do
  let s ← get
  if ((s.bank s.cur).grp.get (qOf f)).out != 0 then hold 8
  pure .next
/-- A group status word (R151). -/
def Group.word (g : Group) (sel : Bool) : W64 :=
  if sel then BitVec.ofNat 64 ((if g.fv then 2 ^ 32 else 0) + g.first.toNat)
  else BitVec.ofNat 64 (g.out % 2 ^ 16 * 2 ^ 48 + g.oor * 2 ^ 32 + g.pois * 2 ^ 16 + g.rows)
/-- `gstat` (R151). -/
def execGstat (f : FQ) (s : State) : Out := issue (.gstat f) s do
  allOk dstOk [f.a]
  let s ← get
  let g := (s.bank s.cur).grp.get (qOf f)
  let t ← destOf f.a
  pendWrite t (g.word (f.f.getLsbD 1))
  if f.f.getLsbD 0 then modify fun s => s.modBank s.cur fun k =>
    { k with grp := vset k.grp (qOf f) { g with rows := 0, pois := 0, oor := 0, fv := false } }
  pure .next

/-! ## Copies (R152, R153) -/

/-- Whether `n` bytes from offset `o` of the weight SRAM lie in the window of every slice they touch (R331). -/
def wsIn (r : W64) : Nat → Nat → Nat → Bool
  | 0, _, _ => true
  | k + 1, o, n =>
    if n = 0 then true
    else
      let b := o % 65536
      let m := Nat.min n (65536 - b)
      64 * fld r 10 0 ≤ b && b + m ≤ 64 * fld r 26 16 && wsIn r k (o + m) (n - m)
/-- The weight-SRAM offsets that a copy's rows write: below 4 MiB, or none (R152). -/
def wsLow (dst bytes rows : Nat) (str : W64) : Bool :=
  let last : Int := dst + (rows - 1 : Nat) * str.toInt
  0 ≤ last && last + bytes ≤ 4194304 && dst + bytes ≤ 4194304
/-- Checks and places a copy. -/
def copyPlace (i : Instr) (fm : CmdForm) (dst src : W64) (bytes rows : Nat) (sstr dstr : W64) (ws c : Bool)
    (follow : Option (W32 × W32)) : Act Flow := do
  need (!ws || wsLow dst.toNat bytes rows dstr) cIllegal
  needAt (dst.toNat % 8 == 0) cMisaligned dst
  needAt (src.toNat % 8 == 0) cMisaligned src
  needAt (sstr.toNat % 8 == 0 && dstr.toNat % 8 == 0) cMisaligned src
  let s ← get
  let r := (s.bank s.cur).wsrange
  needAt (!ws || (List.range (if dstr = 0 then 1 else rows)).all
    fun i => wsIn r 66 (dst + BitVec.ofNat 64 i * dstr).toNat bytes) cAccess dst
  let _ ← placeCmd fm.after false { i := i, who := s.me, ctx := s.myCtx, cfl := fm.cfl, kind := .copy dst src bytes rows sstr dstr ws c follow }
  pure .next
/-- A copy's size (R152). -/
def copySizeOk (n : Nat) : Bool := 8 ≤ n && n ≤ 2 ^ 32 - 8 && n % 8 == 0
/-- The limits of `copy` (R140, R119). -/
def copyLimits (f : RRR) : Act Unit :=
  limits none [f.a, f.b, f.d] fun vs =>
    copySizeOk (nthV vs 1).toNat && (!(cmdForm f.e).low.testBit 1 || wsLow (nthV vs 2).toNat (nthV vs 1).toNat 1 0)
/-- `copy` (R152). -/
def execCopy (f : RRR) (s : State) : Out := issueLim (.copy f) s (copyLimits f) do
  let fm := cmdForm f.e
  allOk srcOk [f.a, f.b, f.d]
  flagsOk [fm.cfl, fm.after]
  let vs ← sources none [f.a, f.b, f.d] []
  let n := (nthV vs 1).toNat
  need (copySizeOk n) cIllegal
  copyPlace (.copy f) fm (nthV vs 2) (nthV vs 0) n 1 0 0 (fm.low.testBit 1) (fm.low.testBit 0) none
/-- The commands that may follow a `copyf` (R153). -/
def isFollow (i : Instr) : Bool :=
  match i with
  | .mmul _ | .mswap _ | .mzero _ | .mclose _ => true
  | _ => false
/-- A follow-on as decoded: well formed, of the right kind, no E in a short form. -/
def followOf (w e : W32) : Option Instr :=
  match decodeWord w (if wLong w then some e else none) with
  | .ok i => if i.wf && isFollow i && (wLong w || e == 0) then some i else none
  | .error _ => none
/-- The follow-on that a source word holds. -/
def followIn (v : W64) : Option Instr := followOf (BitVec.ofNat 32 (fld v 31 0)) (BitVec.ofNat 32 (fld v 63 32))
/-- `copyf` (R153). -/
def execCopyf (f : RRR) (s : State) : Out :=
  issueLim (.copyf f) s (limits none [f.a, f.b, f.d] fun vs => (followIn (nthV vs 1)).isSome) do
  let fm := cmdForm f.e
  allOk srcOk [f.a, f.b, f.d]
  flagsOk [fm.cfl, fm.after]
  let vs ← sources none [f.a, f.b, f.d] []
  let w : W32 := BitVec.ofNat 32 (fld (nthV vs 1) 31 0)
  let e : W32 := BitVec.ofNat 32 (fld (nthV vs 1) 63 32)
  need (followOf w e).isSome cIllegal
  copyPlace (.copyf f) fm (nthV vs 2) (nthV vs 0) (256 * (if f.e.isSome then fm.low else 1)) 1 0 0 false false (some (w, e))
/-- The limits of a `copy2d` and its descriptor (R152, R140, R119). -/
def copy2dLimits (f : RRR) : Act Unit := illegalFirst do
  let vs ← peekSources none [f.a, f.b, f.d]
  let ws ← loadWords (nthV vs 1) 4
  let n := fld (nthV ws 0) 31 0
  let rows := fld (nthV ws 0) 63 32
  need (8 ≤ n && n % 8 == 0 && rows != 0) cIllegal
  need (!(cmdForm f.e).low.testBit 1 || wsLow (nthV vs 2).toNat n rows (nthV ws 2)) cIllegal
/-- `copy2d` (R152). -/
def execCopy2d (f : RRR) (s : State) : Out := issueLim (.copy2d f) s (copy2dLimits f) do
  let fm := cmdForm f.e
  allOk srcOk [f.a, f.b, f.d]
  flagsOk [fm.cfl, fm.after]
  let vs ← sources none [f.a, f.b, f.d] []
  let ws ← loadWords (nthV vs 1) 4
  let n := fld (nthV ws 0) 31 0
  let rows := fld (nthV ws 0) 63 32
  need (8 ≤ n && n % 8 == 0 && rows != 0) cIllegal
  copyPlace (.copy2d f) fm (nthV vs 2) (nthV vs 0) n rows (nthV ws 1) (nthV ws 2) (fm.low.testBit 1) (fm.low.testBit 0) none

/-! ## Weight loads (R154) -/

/-- ne and K of a plane (R154). -/
def planeNe (slot : W32) : Nat := fmtPerRow (slotFmt slot true)
def planeK (slot : W32) (sparse : Bool) : Nat := if sparse then 2 * planeNe slot else planeNe slot
/-- The bytes that each slice holds of a plane, rounded up to 64 (R154). -/
def planeBytes (slot : W32) (sparse : Bool) : Nat :=
  let k := planeK slot sparse
  let up (x y : Nat) : Nat := (x + y - 1) / y
  let par : Nat := match slotSch slot true with
    | 1 => up k 16 * 2
    | 2 => up k 32 * 2
    | 3 => up k 32 * 4
    | 4 => up k 64 * 4
    | 5 => up k 128 * 4
    | _ => 0
  up (256 + (if sparse then planeNe slot / 4 else 0) + par) 64 * 64
/-- The limits of a plane at an offset under a slot word (R154). -/
def wloadOk (o : Nat) (slot : W32) (t sparse : Bool) : Bool :=
  1 ≤ slotFmt slot true && slotFmt slot true ≤ 11 && !(t && 3 ≤ slotSch slot true) &&
  o % 64 == 0 && o + planeBytes slot sparse ≤ 65536
/-- The limits of `wload` (R117). -/
def wloadLimits (f : RRI) : Act Unit := illegalFirst do
  if fld f.imm 5 0 = 63 then interlock 48
  let vs ← peekSources none [f.a]
  let s ← get
  need (wloadOk (nthV vs 0).toNat (s.fmtSlot s.cur (fld f.imm 5 0)) (f.imm.getLsbD 8) (f.imm.getLsbD 7)) cIllegal
/-- `wload` (R154, R331). -/
def execWload (f : RRI) (s : State) : Out := issueLim (.wload f) s (wloadLimits f) do
  let t := f.imm.getLsbD 8
  let sparse := f.imm.getLsbD 7
  if fld f.imm 5 0 = 63 then interlock 48
  let vs ← sources none [f.a] []
  let s ← get
  let o := (nthV vs 0).toNat
  let slot := s.fmtSlot s.cur (fld f.imm 5 0)
  need (wloadOk o slot t sparse) cIllegal
  let r := (s.bank s.cur).wsrange
  needAt (64 * fld r 10 0 ≤ o && o + planeBytes slot sparse ≤ 64 * fld r 26 16) cAccess (nthV vs 0)
  if matrixDepth ≤ (s.core s.cur.c).mFifo.length then hold 6 1
  needQuiet
  modify fun s =>
    let (n, s) := s.accept s.cur 1
    let (v, s) := s.pushView s.cur
    s.modCore s.cur.c fun k =>
      { k with
        mFifo := k.mFifo ++ [{ i := .wload f, id := k.nextId, nth := n, who := s.me, view := v, kind := .wload (f.d.setWidth 5) o slot t sparse }]
        nextId := k.nextId + 1 }
  pure .next

/-! ## Counted rows (R155, R156) -/

/-- Sources a, b and d of an instruction whose fields are all sources (R86, R88). -/
def sources3 (f : RRR) : Act (W64 × W64 × W64) := do
  match wideImm f.e [f.a, f.b, f.d] with
  | some y => do
    let vs ← sources f.e [f.a, f.d] []
    pure (nthV vs 0, y, nthV vs 1)
  | none => do
    let vs ← sources f.e [f.a, f.b, f.d] []
    pure (nthV vs 0, nthV vs 1, nthV vs 2)
/-- The locations of `n` rows of 256 bytes from an address, each as its pieces. -/
def locateRows (ea : W64) (kind : Nat) : Nat → Act (List (List (Nat × Nat)))
  | 0 => pure []
  | n + 1 => do
    let ls ← pieces (rowSplit ea.toNat 256)
    let rest ← locateRows (ea + 256) kind n
    pure (ls :: rest)
where
  pieces : List (Nat × Nat) → Act (List (Nat × Nat))
    | [] => pure []
    | (a, m) :: ps => do
      let l ← locate (BitVec.ofNat 64 a) 1 kind
      let ls ← pieces ps
      pure ((l, m) :: ls)
/-- A as it reads rows itself. -/
def State.rowReader (s : State) (acq : Option Nat) : Eng := ⟨s.me, s.cur.agent, 0, s.cur.q.val, s.myCtx, 0, acq, none, none⟩
/-- The owner of the counted rows that a task fills (R246). -/
def Bank.owner (k : Bank) : Nat :=
  match k.task with
  | some r => r.owner
  | none => 0
/-- The bytes of a row that A reads for a fill: the fill of R144 where the read meets an uncorrectable error (R155). -/
def fillRead (ls : List (Nat × Nat)) : Act Payload := do
  let s ← get
  let (bs, bad, _, t) := s.engPieces (s.rowReader none) [] false (fun _ => false) ls
  if bad then do
    noteUnc ((ls.map (·.1)).headD 0)
    pure fillPay
  else do
    set t
    pure (bytesPay bs)
/-- The stores of an instruction enter the store buffer one after the other while it has room (R258); answers those that are left. A
store may read its row first (R155): an over-read ends the instruction with ReaderOverrun, imprecise, and a read that must wait
holds the rest. -/
def storeAll : List Todo → Act (List Todo)
  | [] => pure []
  | x :: xs => do
    let s ← get
    let l := match x.ent.parts with
      | p :: _ => 8 * p.word
      | [] => 0
    let touched (s : State) : State := (x.ent.parts.map (·.word / 32)).eraseDups.foldl (fun s r => s.touch s.cur (256 * r)) s
    if x.ent.parts = [] then storeAll xs
    else if s.sbFull s.cur.agent then pure (x :: xs)
    else if x.src = [] then do
      set ((touched s).store x.ent)
      storeAll xs
    else if x.src.any (fun y => s.overRead (s.rowReader none) false y.1 y.2) then do
      set (s.imprecise s.me (pendBit cOverrun) cOverrun x.srcVa (BitVec.ofNat 8 s.cur.idx))
      pure []
    else if x.src.any (fun y => s.engLater (s.rowReader none) false y.1 y.2) then pure (x :: xs)
    else do
      let pay ← fillRead x.src
      let s ← get
      set ((touched s).store { x.ent with parts := rowParts l pay })
      storeAll xs
/-- An instruction that makes stores: its checks, which give them, and what follows the last. While the buffer is full it goes on in
later turns (R221, R258). -/
def storing (checks : Act (List Todo)) (last : Act Unit) : Act Flow := do
  let s ← get
  let q := s.sq s.cur
  let xs ← (if q.todo != [] && q.todoAt == q.pc then pure q.todo else checks : Act (List Todo))
  let rest ← storeAll xs
  modify fun s => s.modSeq s.cur fun x => { x with todo := rest, todoAt := x.pc }
  if rest = [] then do
    last
    pure .next
  else pure (.again 14)
/-- The limits of an instruction that makes stores are those of its first turn. -/
def firstTurn (x : Act Unit) : Act Unit := do
  let s ← get
  let q := s.sq s.cur
  if q.todo != [] && q.todoAt == q.pc then pure () else x
/-- The limits of `rcfill` (R155, R117). -/
def fillOk (v : W64) : Bool := fld v 15 0 != 0 && fld v 23 16 != 0
def fillLimits (f : RRR) : Act Unit :=
  match wideImm f.e [f.a, f.b, f.d] with
  | some y => need (fillOk y) cIllegal
  | none => limits f.e [f.a, f.b, f.d] fun vs => fillOk (nthV vs 1)
/-- The checks of `rcfill`: both ranges are checked before anything is written (R155), and watchpoints see them (R416). DESIGN CHOICE
(log 101): an address off its boundary raises Misaligned. -/
def fillChecks (f : RRR) : Act (List Todo) := do
  let (src, v, dst) ← sources3 f
  need (fillOk v) cIllegal
  let n := fld v 15 0
  classOk dst
  needAt (fld dst 7 0 == 0) cMisaligned dst
  classOk src
  needAt (fld src 2 0 == 0) cMisaligned src
  let tos ← locateRows dst 5 n
  let froms ← locateRows src 0 n
  watch src (256 * n) true false
  watch dst (256 * n) false true
  let s ← get
  let view := (s.agent s.cur.agent).view
  needAt (!(froms.flatten.any fun x => s.race view s.cur.idx x.1)) cMemModel src
  needAt (!(tos.flatten.any fun x => s.race view s.cur.idx x.1)) cMemModel dst
  if s.sbFull s.cur.agent then hold 14
  let rid ← newRid
  let s ← get
  pure <| (froms.zip tos).zipIdx.map fun x =>
    { src := x.1.1, srcVa := src + BitVec.ofNat 64 (256 * x.2)
      ent := { s.seqEnt (rowParts ((x.1.2.map (·.1)).headD 0) 0) with
        fill := some (fld v 23 16, (s.bank s.cur).owner), instrNo := rid, va := dst + BitVec.ofNat 64 (256 * x.2) } }
/-- `rcfill` (R155, R247, R258). -/
def execRcfill (f : RRR) (s : State) : Out :=
  issueLim (.rcfill f) s (firstTurn (fillLimits f)) (storing (fillChecks f) (pure ()))

/-- `rcclose` (R156, R255, R259): it waits in place for A's earlier copy engine commands and stores. DESIGN CHOICE (log 101): an
address off its boundary raises Misaligned. -/
def execRcclose (f : RRR) (s : State) : Out :=
  issueLim (.rcclose f) s (limitAB f fun _ y => y != 0 && fld y 7 0 == 0) do
  let s ← get
  let k := s.core s.cur.c
  let n := match (s.sq s.cur).waitCmd with
    | some (n, _) => n
    | none => k.nextId
  let mine (w : Who) (id : Nat) : Bool := s.ours s.cur w && w.q == 1 && id < n
  if k.copyFifo.any (fun c => mine c.who c.id) || k.copyRun.any (fun r => mine r.cmd.who r.cmd.id) ||
      k.follow.any (fun x => mine x.2.1 x.1) || !s.quiet s.cur.agent then do
    set (s.waitFor n)
    pure (.again 8)
  else do
    let (x, y) ← sourcesAB f
    eventRoom
    need (y != 0 && fld y 7 0 == 0) cIllegal
    classOk x
    needAt (fld x 7 0 == 0) cMisaligned x
    let ls ← locateRows x 0 (y.toNat / 256)
    modify fun s =>
      let b := s.bank s.cur
      (s.closeRows (ls.flatten.map (·.1)) 0 b.corr b.recid).waitOver
    pure .next

/-- The count that a row has once an agent's own earlier stores of it have been made, in order: none where it is UNCOUNTED. -/
def State.rowAfter (s : State) (a l : Nat) : Option Nat :=
  ((s.mine a).filter fun e => e.parts.any fun p => p.word / 32 == l / 256).foldl (fun (r : Option Nat) e =>
    match e.fill, r with
    | some (n, _), _ => some n
    | none, some 0 => none
    | none, r => r) ((s.row l).map (·.1))
/-- `rcquery` (R156): it sees A's own earlier stores of the row. -/
def execRcquery (f : RRR) (s : State) : Out := issue (.rcquery f) s do
  let vs ← sources f.e [f.a] [f.d]
  let l ← locate (nthV vs 0) 1 0
  let s ← get
  let t ← destOf f.d
  pendWrite t (match s.rowAfter s.cur.agent l with
    | none => 0x100
    | some n => BitVec.ofNat 64 n)
  pure .next

/-! ## Shape records (R157, R158) -/

/-- `shload` (R158). -/
def execShload (f : RRR) (s : State) : Out := issue (.shload f) s do
  let (x, y) ← sourcesAB f
  let v ← readExtent x (fld y 2 0)
  let t ← destOf f.d
  pendWrite t (BitVec.ofNat 64 v)
  pure .next
/-- `shext` (R158). -/
def execShext (f : RRR) (s : State) : Out := issue (.shext f) s do
  let (x, y, v) ← sources3 f
  classOk x
  needAt (fld x 5 0 == 0) cMisaligned x
  let at_ := x + BitVec.ofNat 64 (8 * fld y 2 0)
  let w ← loadEa at_ 8 false none
  storeEa ((extDirect w).getD (at_ + 4)) 4 v none
  pure .next

/-! ## Loads into queues and prefetch (R159, R160) -/

/-- The form of `ldq` and `ldrow` (R159). -/
def queueForm (e : Option W32) : MemForm := memForm { e := e }
/-- `ldq` (R159). -/
def execLdq (f : FQ) (s : State) : Out := issue (.ldq f) s do
  need (f.q.toNat < 8) cQueue
  pushOk (qOf f)
  let vs ← sources none [f.a] []
  let m := queueForm f.e
  let t ← reserve (qOf f) 1
  let v ← loadEa (nthV vs 0 + m.off) 8 m.cons m.ord
  pendWrite (.q (qOf f) t) v
  pure .next
/-- A row read by A (R159): its bytes, or none where the row is poisoned. -/
def loadRow (ea : W64) (cons : Bool) (acq : Option Nat) : Act (Option (List Byte)) := do
  classOk ea
  needAt (fld ea 2 0 == 0) cMisaligned ea
  let ls ← locateRows ea (if cons then 4 else 0) 1
  let ps := ls.flatten
  watch ea 256 true false
  let s ← get
  needAt (!(ps.any fun x => s.race (s.agent s.cur.agent).view s.cur.idx x.1)) cMemModel ea
  let g := s.rowReader acq
  let dups := if cons then s.dupRows g ea.toNat 256 ps else []
  let eats (l : Nat) : Bool := cons && !dups.contains (l / 256)
  if ps.any (fun x => s.engLater g (eats x.1) x.1 x.2) then hold 13
  if ps.any (fun x => s.overRead g (eats x.1) x.1 x.2) then pure none
  else do
    let (bs, bad, _, s) := s.engPieces g [] false eats ps
    set s
    if bad then do
      noteUnc ((ps.map (·.1)).headD 0)
      pure none
    else pure (some bs)
/-- `ldrow` (R159). -/
def execLdrow (f : FQ) (s : State) : Out := issue (.ldrow f) s do
  need (8 ≤ f.q.toNat) cQueue
  pushOk (qOf f)
  let vs ← sources none [f.a, f.b] []
  let s ← get
  if (s.queue s.cur (qOf f)).full then hold 3 (qOf f).val
  let m := queueForm f.e
  let tag : W32 := BitVec.ofNat 32 (fld (nthV vs 1) 31 0)
  let r ← loadRow (nthV vs 0 + m.off) m.cons m.ord
  let row := match r with
    | some bs => rowOf tag bs
    | none => poisonedRow tag
  modify fun s => s.modQ s.cur (qOf f) (·.pushRow row s.now)
  pure .next
/-- `prefetch` (R160): what it brings in is no value; it may leave a translation. -/
def execPrefetch (f : RRI) (s : State) : Out := issue (.prefetch f) s do
  let vs ← sources none [f.a] []
  match classify (nthV vs 0 + sx f.imm) with
  | .virt va => modify fun s => (s.translate s.cur.c 0 s.myCtx (s.bank s.cur).ptroot va.toNat 0 s.cur.q.val).2
  | _ => pure ()
  pure .next

/-! ## The lamplighter (R161, R162) -/

/-- The binding of a map once the commands that wait have applied (R161). -/
def Cluster.mapNow (u : Cluster) (m : Fin 8) : Option LMap :=
  u.lamp.foldl (fun b c => match c.kind with
    | .bind n a w h => if n = m then some ⟨a, w, h⟩ else b
    | _ => b) (u.maps.get m)
/-- The bytes of a bitmap. -/
def bitmapBytes (w h : Nat) : Nat := (w * h + 63) / 64 * 8
/-- Places a lamplighter command with its release at `.clu` (R141, R222); one that has started occupies no entry. -/
def lampPlace (kind : LKind) : Act Flow := do
  let s ← get
  let q := (s.clu (cluOf s.cur.c)).lamp
  if lampDepth ≤ (q.filter fun c => !c.started && (match c.kind with
      | .count _ _ => false
      | _ => true)).length then hold 6 4
  needQuiet
  modify fun s =>
    let (n, s) := s.accept s.cur 4
    let (v, s) := s.pushView s.cur
    let id := (s.core s.cur.c).nextId
    let s := s.modCore s.cur.c fun k => { k with nextId := id + 1 }
    s.modClu (cluOf s.cur.c) fun u =>
      { u with lamp := u.lamp ++ [{ who := s.me, ctx := s.myCtx, view := v, arrived := s.now, kind := kind, nth := n, id := id }] }
  pure .next
def mapOf (v : W64) : Fin 8 := ⟨fld v 2 0 % 8, by omega⟩
/-- A map that is bound. -/
def boundMap (m : Fin 8) : Act LMap := do
  let s ← get
  match (s.clu (cluOf s.cur.c)).mapNow m with
  | some b => pure b
  | none => raise cAccess
/-- The width and height of a map (R161). -/
def mapSizeOk (x : W64) : Bool := 1 ≤ fld x 15 0 && fld x 15 0 ≤ 4096 && 1 ≤ fld x 31 16 && fld x 31 16 ≤ 4096
/-- The limits of a lamplighter instruction on its sources a, b and d (R117). -/
def limits3 (f : RRR) (ok : W64 → W64 → W64 → Bool) : Act Unit :=
  match wideImm f.e [f.a, f.b, f.d] with
  | some y => limits f.e [f.a, f.d] fun vs => ok (nthV vs 0) y (nthV vs 1)
  | none => limits f.e [f.a, f.b, f.d] fun vs => ok (nthV vs 0) (nthV vs 1) (nthV vs 2)
/-- `act.bind` (R161). DESIGN CHOICE (log 101): a bitmap off its boundary raises Misaligned. -/
def execActBind (f : RRR) (s : State) : Out := issueLim (.actBind f) s (limits3 f fun x _ _ => mapSizeOk x) do
  let (x, y, d) ← sources3 f
  let w := fld x 15 0
  let h := fld x 31 16
  need (mapSizeOk x) cIllegal
  match classify d with
  | .sp off => do
    needAt (off % 8 == 0) cMisaligned d
    needAt (off + bitmapBytes w h ≤ 2 ^ 24) cAccess d
    lampPlace (.bind (mapOf y) off w h)
  | _ => raiseAt cAccess d
/-- A run of bits within a bound map (R161). -/
def actRun (f : RRR) : Act (Fin 8 × Nat × Nat) := do
  let (x, y, d) ← sources3 f
  let n := fld d 15 0
  let t := fld x 31 0
  need (n != 0) cIllegal
  let b ← boundMap (mapOf y)
  need (t + n ≤ b.w * b.h) cAccess
  pure (mapOf y, t, n)
/-- `act.mark` (R161). -/
def execActMark (f : RRR) (s : State) : Out := issueLim (.actMark f) s (limits3 f fun _ _ d => fld d 15 0 != 0) do
  let (m, t, n) ← actRun f
  lampPlace (.mark m t n)
/-- `act.clear` (R161). -/
def execActClear (f : RRR) (s : State) : Out := issueLim (.actClear f) s (limits3 f fun _ _ d => fld d 15 0 != 0) do
  let (m, t, n) ← actRun f
  lampPlace (.clear m t n)
/-- `act.list` (R161). DESIGN CHOICE (log 101): a list off its boundary raises Misaligned. -/
def execActList (f : RRR) (s : State) : Out := issue (.actList f) s do
  let (x, y, d) ← sources3 f
  let cfl : Option FlagRef := if y.getLsbD 15 then some ⟨y.getLsbD 14, BitVec.ofNat 5 (fld y 12 8)⟩ else none
  flagsOk [cfl]
  needAt (fld x 1 0 == 0) cMisaligned x
  let _ ← boundMap (mapOf y)
  lampPlace (.list (mapOf y) x d (fld y 63 32) (y.getLsbD 3) cfl)
/-- `act.count` (R161, R162): A waits until the lamplighter reaches its place among the commands. -/
def execActCount (f : RRR) (s : State) : Out := issue (.actCount f) s do
  let vs ← (match wideImm f.e [f.b] with
    | some y => do
      allOk dstOk [f.d]
      pure [y]
    | none => sources f.e [f.b] [f.d] : Act (List W64))
  let m := mapOf (nthV vs 0)
  let s1 ← get
  let u := s1.clu (cluOf s1.cur.c)
  match (s1.sq s1.cur).waitCmd with
  | some (n, v) => do
    if u.lamp.any (fun c => match c.kind with
        | .count _ id => id == n
        | _ => false) then hold 8 4
    set s1.waitOver
    let t ← destOf f.d
    pendWrite t v
    pure .next
  | none => do
    let _ ← boundMap m
    needQuiet
    let n := (s1.core s1.cur.c).nextId
    let s := s.modCore s.cur.c fun k => { k with nextId := n + 1 }
    let (v, s) := s.pushView s.cur
    let s := s.modClu (cluOf s.cur.c) fun u =>
      { u with lamp := u.lamp ++ [{ who := s.me, ctx := s.myCtx, view := v, arrived := s.now, kind := .count m n }] }
    set (s.waitFor n)
    pure (.again 8)

/-! ## Which accesses consume -/

/-- Whether an instruction is a consuming read of a sequencer (R122, R159, R249). -/
def consumes (i : Instr) : Bool :=
  match i with
  | .ld8 f | .ld16 f | .ld32 f | .ld64 f | .ld8s f | .ld16s f | .ld32s f => (memForm f).cons
  | .ldq f | .ldrow f => (queueForm f.e).cons
  | _ => false

end Sys2Proof.Machine
end

