-- ==== Sys2Proof/Machine/Assign.lean ====
section
/-! DEFINITION. The assignment engine of a cluster (R202-R209): its instructions, the auction, a run's start and its end. -/
namespace Sys2Proof.Machine

/-! ## The descriptor (R203, R204) -/

/-- The words of a 64-byte auction descriptor. -/
def aedescOf (ws : List W64) : AEDesc :=
  let h (i : Nat) : Nat := (nthV ws (i / 2)).toNat / 2 ^ (32 * (i % 2)) % 2 ^ 32
  { score := h 0, cap := h 1, pin := h 2, pout := h 3, asgn := h 4
    rows := BitVec.ofNat 32 (h 5), cols := h 6 % 128, rlim := h 6 / 65536
    eps := BitVec.ofNat 32 (h 7), d := BitVec.ofNat 32 (h 8), shp := nthV ws 5 }
/-- The extent of SHP that ROWS names. -/
def AEDesc.rowExt (x : AEDesc) : Option Nat := if 0xFFFFFFF8 ≤ x.rows.toNat then some (x.rows.toNat - 0xFFFFFFF8) else none
/-- Whether an array reaches past the scratchpad. DESIGN CHOICE (log 97): only what a run reads or writes counts: COLS entries of CAP,
PIN and POUT, and COLS scores of the last row. -/
def AEDesc.past (x : AEDesc) (rows : Nat) : Bool :=
  [x.score + 256 * (rows - 1) + 4 * x.cols, x.cap + 2 * x.cols, x.pin + 4 * x.cols, x.pout + 4 * x.cols,
    x.asgn + 4 * rows].any (2 ^ 24 < ·)
def finite32 (x : W32) : Bool := (f32 x).finite
/-- The limits of R203 and R204. -/
def AEDesc.ok (x : AEDesc) : Bool :=
  x.score % 256 == 0 && x.cap % 2 == 0 && x.pin % 4 == 0 && x.pout % 4 == 0 && x.asgn % 4 == 0 &&
  1 ≤ x.cols && x.cols ≤ 64 && x.rlim != 0 && finite32 x.eps && !x.eps.getLsbD 31 && x.eps != 0 && finite32 x.d &&
  (match x.rowExt with
    | some _ => x.shp != 0 && fld x.shp 5 0 == 0
    | none => 1 ≤ x.rows.toNat && x.rows.toNat ≤ 1024 && !x.past x.rows.toNat)

/-! ## Instructions -/

/-- The limits of an auction descriptor (R204, R117). -/
def aecfgLimits (f : RRR) : Act Unit := illegalFirst do
  let vs ← peekSources f.e [f.a]
  let ws ← loadWords (nthV vs 0) 8
  need (aedescOf ws).ok cIllegal
/-- `aecfg` (R204): the set takes the descriptor at the end of the issue cycle (R202). -/
def execAecfg (f : RRR) (s : State) : Out := issueLim (.aecfg f) s (aecfgLimits f) do
  let vs ← sources f.e [f.a] []
  let ws ← loadWords (nthV vs 0) 8
  let d := aedescOf ws
  need d.ok cIllegal
  modify fun s => s.modBank s.cur fun k =>
    { k with
      aecfg := some d
      aecfgOld := if k.aecfgAt = s.now + 1 then k.aecfgOld else k.aecfg
      aecfgAt := s.now + 1 }
  pure .next
/-- The configuration set at the start of a cycle (R202). -/
def Bank.aeSet (k : Bank) (now : Nat) : Option AEDesc := if k.aecfgAt = now + 1 then k.aecfgOld else k.aecfg
/-- A set that has been written since the task started (R205). -/
def aerunLimits : Act Unit := do
  let s ← get
  need ((s.bank s.cur).aeSet s.now).isSome cIllegal
/-- `aerun` (R205): a snapshot of the set at the start of the cycle, with a release at `.clu` (R202). -/
def execAerun (f : RRR) (s : State) : Out := issueLim (.aerun f) s aerunLimits do
  let vs ← sources none [f.a] [f.d]
  let v := nthV vs 0
  let s ← get
  match (s.bank s.cur).aeSet s.now with
  | none => raise cIllegal
  | some desc => do
    let cfl : Option FlagRef := if v.getLsbD 15 then some ⟨v.getLsbD 14, BitVec.ofNat 5 (fld v 12 8)⟩ else none
    flagsOk [cfl]
    let u := s.clu (cluOf s.cur.c)
    if aeDepth ≤ u.aeFifo.length then hold 6 5
    needQuiet
    let t ← destOf f.d
    modify fun s =>
      let (n, s) := s.accept s.cur 5
      let (view, s) := s.pushView s.cur
      s.modClu (cluOf s.cur.c) fun u =>
        { u with
          aeFifo := u.aeFifo ++ [{ who := s.me, ctx := (s.bank s.cur).ctx, view := view, desc := desc, cons := v.getLsbD 0,
                                   cfl := cfl, id := u.aeCount, nth := n }]
          aeCount := u.aeCount + 1 }
    pendWrite t (u.aeCount.setWidth 64)
    pure .next
/-- The index of a core in its cluster. -/
def coreIdx (c : CoreId) : Fin 4 := ⟨c.val % 4, by omega⟩
/-- `aeread` (R208). -/
def execAeread (f : RRR) (s : State) : Out := issue (.aeread f) s do
  let vs ← sources none [f.a] [f.d]
  let s ← get
  let st := (s.clu (cluOf s.cur.c)).aeStatus.get (coreIdx s.cur.c)
  let t ← destOf f.d
  pendWrite t (if (nthV vs 0).getLsbD 0 then st.2 else st.1)
  pure .next

/-! ## The auction (R206) -/

/-- What a row decides in a round: no column it can afford, or a bid on a column, or a bid that overflowed. -/
inductive AEChoice where
  | decline
  | bid (c : Nat) (b : W32)
  | none
  deriving DecidableEq, Repr

/-- The greatest of some nets, the lower column on ties. -/
def bestNet : List (Nat × W32) → Option (Nat × W32)
  | [] => .none
  | x :: xs => some (xs.foldl (fun b y => if (f32 b.2).lt (f32 y.2) then y else b) x)
/-- The decision of a row from its scores, the capacities and the prices: with OVF and the flags. -/
def rowChoice (caps : List Nat) (p : List W32) (d eps : W32) (sc : List W32) : AEChoice × Bool × Flags :=
  let el := (sc.zip (caps.zip p)).zipIdx.filter fun x => x.1.2.1 != 0 && finite32 x.1.1
  let nets := el.map fun x => (x.2, fsub32 x.1.1 x.1.2.2)
  let fl := nets.foldl (fun f x => f ||| x.2.2) (0 : Flags)
  let ovf := nets.any fun x => (f32 x.2.1).isInf
  let e := (nets.filter fun x => !(f32 x.2.1).isInf).map fun x => (x.1, x.2.1)
  match bestNet e with
  | .none => (.decline, ovf, fl)
  | some (c1, v1) =>
    if (f32 v1).lt (f32 d) then (.decline, ovf, fl)
    else
      let v2 := match bestNet (e.filter (·.1 != c1)) with
        | some x => x.2
        | .none => d
      let w2 := if (f32 v2).lt (f32 d) then d else v2
      let m := fsub32 v1 w2
      let t := fadd32 (p.getD c1 0) m.1
      let b := fadd32 t.1 eps
      let fl := fl ||| m.2 ||| t.2 ||| b.2
      if (f32 b.1).isInf then (.none, true, fl) else (.bid c1 b.1, ovf, fl)
/-- A candidate of a column: its row, its bid, whether it is a newcomer. -/
structure AECand where
  row : Nat
  bid : W32
  newc : Bool
  deriving DecidableEq, Repr
/-- The order of candidates: bid descending, holders before newcomers, then the lower row. -/
def AECand.before (x y : AECand) : Bool :=
  if (f32 y.bid).lt (f32 x.bid) then true
  else if (f32 x.bid).lt (f32 y.bid) then false
  else if x.newc != y.newc then !x.newc
  else x.row < y.row
def insertCand (x : AECand) : List AECand → List AECand
  | [] => [x]
  | y :: ys => if x.before y then x :: y :: ys else y :: insertCand x ys
/-- The least bid of a column's holders. -/
def lowBid : List AECand → W32
  | [] => 0
  | x :: xs => xs.foldl (fun b y => if (f32 y.bid).lt (f32 b) then y.bid else b) x.bid

/-- The auction's variables. -/
structure Auction where
  asg : List Int
  held : List (List AECand)
  p : List W32
  rounds : Nat := 0
  ovf : Bool := false
  fl : Flags := 0
  status : Nat := 0
  deriving DecidableEq, Repr

/-- Applies the bids on one column. -/
def Auction.column (a : Auction) (caps : List Nat) (bids : List AECand) (c : Nat) : Auction :=
  match bids with
  | [] => a
  | _ =>
    let cand := (bids ++ (a.held.getD c []).map (fun (x : AECand) => { x with newc := false })).foldl (fun (l : List AECand) x => insertCand x l) []
    let cap := caps.getD c 0
    let keep := cand.take cap
    let asg := (cand.drop cap).foldl (fun (l : List Int) (x : AECand) => l.set x.row (-1)) a.asg
    let asg := keep.foldl (fun (l : List Int) (x : AECand) => l.set x.row (c : Int)) asg
    { a with
      asg := asg
      held := a.held.set c keep
      p := if keep.length = cap then a.p.set c (lowBid keep) else a.p }
/-- One turn of the loop: decide, then stop, or apply. -/
def Auction.round (a : Auction) (caps : List Nat) (d eps : W32) (rlim : Nat) (store : List (List W32)) : Auction :=
  let cs : List (Nat × AEChoice × Bool × Flags) := ((a.asg.zip store).zipIdx.filter fun x => x.1.1 == -1).map fun x => (x.2, rowChoice caps a.p d eps x.1.2)
  let a := { a with ovf := a.ovf || cs.any (·.2.2.1), fl := cs.foldl (fun f (x : Nat × AEChoice × Bool × Flags) => f ||| x.2.2.2) a.fl }
  let decl := (cs.filter fun x => x.2.1 == .decline).map (·.1)
  let bids := cs.filterMap fun x => match x.2.1 with
    | .bid c b => some (c, (⟨x.1, b, true⟩ : AECand))
    | _ => .none
  if decl == [] && bids == [] then { a with status := 1 }
  else if a.rounds = rlim then { a with status := 2 }
  else
    let a := { a with rounds := a.rounds + 1, asg := decl.foldl (fun (l : List Int) r => l.set r (-2)) a.asg }
    (List.range caps.length).foldl (fun a c => a.column caps ((bids.filter fun (x : Nat × AECand) => x.1 == c).map fun (x : Nat × AECand) => x.2) c) a
/-- The loop, at most RLIM rounds and the last look. -/
def Auction.loop (caps : List Nat) (d eps : W32) (rlim : Nat) (store : List (List W32)) : Nat → Auction → Auction
  | 0, a => a
  | n + 1, a =>
    let a := a.round caps d eps rlim store
    if a.status != 0 then a else Auction.loop caps d eps rlim store n a
/-- The scores of a row: NaN where its read failed. -/
def scoreRow (cols : Nat) (p : Option Payload) : List W32 :=
  match p with
  | some p => (List.range cols).map fun c => BitVec.ofNat 32 (p.toNat >>> (32 * c))
  | .none => List.replicate cols 0x7FC00000
def AERun.auction (r : AERun) : Auction :=
  Auction.loop r.caps r.desc.d r.desc.eps r.desc.rlim (r.store.map (scoreRow r.desc.cols)) (r.desc.rlim + 1)
    { asg := List.replicate r.rows (-1), held := List.replicate r.desc.cols [], p := r.pins }

/-! ## Runs -/

/-- The code of the assignment engine in R76. -/
abbrev aeCode : Byte := 0x20
/-- The assignment engine as it acts for a run. -/
def AERun.eng (r : AERun) : Eng :=
  ⟨r.who, cluAgent (cluOf r.who.c) 0, 0, 4, r.ctx, r.view.int r.who.ivKey, none, r.refused, some (16 * r.who.c.val + 5)⟩
def AERun.ref (r : AERun) : CmdRef := ⟨(cluOf r.who.c).val, 5, r.id.toNat⟩
/-- A scratchpad offset as an address. -/
def spEa (off : Nat) : W64 := BitVec.ofNat 64 (2 ^ 63 + off)
def State.setRun (s : State) (u : CluId) (r : AERun) : State := s.modClu u fun x => { x with aeRun := some r }
/-- A failed read ends the run with FAULT (R209). -/
def AERun.failed (r : AERun) (cause : Byte) (va : W64) : AERun := { r with started := true, fail := some (cause, va) }
def AERun.badarg (r : AERun) (n : Nat) : AERun := { r with started := true, bad := n }

/-- The rows of a run: fixed, or an extent read now (R203). -/
def State.aeRows (s : State) (r : AERun) : Except EStop Nat × State :=
  match r.desc.rowExt with
  | none => (.ok r.desc.rows.toNat, s)
  | some j => s.engExtent r.eng r.desc.shp j
/-- Copies the score rows into the store, each read once (R202, R206). -/
def State.aeScores (s : State) (r : AERun) : Nat → Except EStop (List (Option Payload)) × State
  | 0 => (.ok [], s)
  | n + 1 =>
    match s.aeScores r n with
    | (.error e, s) => (.error e, s)
    | (.ok ps, s) =>
      match s.engRead r.eng (spEa (r.desc.score + 256 * n)) (4 * r.desc.cols) r.cons with
      | (.ok bs, _, s) => (.ok (ps ++ [some (bytesPay bs)]), s)
      | (.error (.fail cause va), _, s) =>
        let s := if cause = cMemModel || cause = cUncorr then s.imprecise r.who (pendBit cause) cause va aeCode else s
        (.ok (ps ++ [none]), s)
      | (.error e, _, s) => (.error e, s)
/-- CAP and PIN, then CAUSE 3, then the scores (R206, R209), which a replay does not consume again (R391); a read that must wait starts the run anew. -/
def State.aeInputs (s : State) (r : AERun) : Except EStop AERun × State :=
  match s.engRead r.eng (spEa r.desc.cap) (2 * r.desc.cols) false with
  | (.error (.fail cause va), _, s) => (.ok (r.failed cause va), s)
  | (.error e, _, s) => (.error e, s)
  | (.ok cb, _, s) =>
    match s.engRead r.eng (spEa r.desc.pin) (4 * r.desc.cols) false with
    | (.error (.fail cause va), _, s) => (.ok (r.failed cause va), s)
    | (.error e, _, s) => (.error e, s)
    | (.ok pb, _, s) =>
      let caps := (List.range r.desc.cols).map fun c => leNat ((cb.drop (2 * c)).take 2)
      let pins := (List.range r.desc.cols).map fun c => BitVec.ofNat 32 (leNat ((pb.drop (4 * c)).take 4))
      if !pins.all finite32 then (.ok (r.badarg 3), s)
      else match (if r.replay && r.cons then (.ok r.store, s) else s.aeScores r r.rows) with
        | (.ok st, s) => (.ok { r with started := true, store := st, caps := caps, pins := pins }, s)
        | (.error e, s) => (.error e, s)
/-- The start of a run that the engine has taken (R202, R209). -/
def State.aeBegin (s : State) (u : CluId) (r : AERun) : State :=
  let s0 := s
  match s.aeRows r with
  | (.error .later, _) => s
  | (.error (.fault va pf), s) =>
    let (tok, s) := s.postFault r.eng va pf
    s.setRun u { r with tok := tok.map fun t => (t, va) }
  | (.error (.fail cause va), s) => s.setRun u (r.failed cause va)
  | (.ok n, s) =>
    if n = 0 || 1024 < n then s.setRun u (r.badarg 1)
    else if r.desc.past n then s.setRun u (r.badarg 2)
    else
      match s.aeInputs { r with rows := n } with
      | (.ok r, s) => s.setRun u r
      | (.error _, _) => s0
/-- AE_RUN_START (R202): the head of the FIFO becomes the current run, which reads its inputs; it waits for a page that its
extent lacks (R351). -/
def execAeRunStart (u : CluId) (s : State) : Out :=
  let x := s.clu u
  match x.aeRun, x.aeFifo with
  | some r, _ => if r.started || r.tok.isSome then .next s else .next (s.aeBegin u r)
  | none, [] => .next s
  | none, r :: rest =>
    let s := (s.modClu u fun x => { x with aeFifo := rest, aeRun := some r }).engStart (cluAgent u 0) r.view
    .next (s.aeBegin u r)

/-- Writes a list of 32-bit words of the outputs (R206); one that breaks the race rule is not written, and MemoryModel
reaches C (R143). -/
def State.aeWrite (s : State) (r : AERun) (off : Nat) (ws : List W32) : State :=
  ws.zipIdx.foldl (fun s x =>
    match s.engWrite r.eng (spEa (off + 4 * x.2)) (leBytes 4 x.1.toNat) false r.ref with
    | (.error (.fail cause va), s) => s.imprecise r.who (pendBit cause) cause va aeCode
    | (_, s) => s) s
/-- Word 0 of the status (R208). -/
def AERun.word (r : AERun) (a : Auction) : W64 :=
  let n (p : Int → Bool) : Nat := (a.asg.filter p).length
  BitVec.ofNat 64 (a.rounds * 2 ^ 48 + n (0 ≤ ·) * 2 ^ 37 + n (· == -2) * 2 ^ 26 + n (· == -1) * 2 ^ 15 + a.status * 2 ^ 12 +
    (if a.ovf then 2 ^ 11 else 0) + (if r.store.any (·.isNone) then 2 ^ 10 else 0) + a.fl.toNat * 2 ^ 5)
/-- A run writes its status for its core and leaves the engine. -/
def State.aeStatus (s : State) (u : CluId) (r : AERun) (w : W64) : State :=
  s.modClu u fun x =>
    { x with
      aeRun := none
      aeStatus := vset x.aeStatus (coreIdx r.who.c) (w, BitVec.ofNat 64 (r.bad * 65536 + r.id.toNat)) }
/-- AE_RUN_COMPLETE (R206, R209): a started run writes its outputs; once they are applied, its status, and its flag unless a
read failed. -/
def execAeRunComplete (u : CluId) (s : State) : Out :=
  match (s.clu u).aeRun with
  | none => .next s
  | some r =>
    if !r.started then .next s
    else match r.fail, r.out with
      | some (cause, va), _ => .next ((s.engEnd r.who 5 r.nth cause va aeCode).aeStatus u r 0x4000)
      | none, some w =>
        if s.cmdPending (cluAgent u 0) r.ref then .next s
        else .next ((s.aeStatus u r w).engDone r.who r.cfl (cluAgent u 0) aeCode)
      | none, none =>
        if r.bad != 0 then .next ((s.aeStatus u r 0x3000).engDone r.who r.cfl (cluAgent u 0) aeCode)
        else
          let a := r.auction
          let s := (s.aeWrite r r.desc.asgn (a.asg.map fun i => BitVec.ofInt 32 i)).aeWrite r r.desc.pout a.p
          .next ((if r.replay then s else s.count r.who 13 a.rounds).setRun u { r with out := some (r.word a) })

end Sys2Proof.Machine
end

