-- ==== Sys2Proof/Machine/CopyEngine.lean ====
section
/-! DEFINITION. The copy engine (R141-R153, R222-R224): what it starts, reads, pushes, writes and completes, and the commands
that leave the parked-command store (R70). -/
namespace Sys2Proof.Machine

/-! ## Runs -/

def ECmd.ref (c : ECmd) (eng : Nat) : CmdRef := ⟨c.who.c.val, eng, c.id⟩
/-- The copy engine as it acts for a run. -/
def Run.copyEng (r : Run) : Eng := { r.cmd.copyEng with refused := r.refused }
/-- Replaces a run of the copy engine by its number. -/
def State.modRun (s : State) (c : CoreId) (id : Nat) (f : Run → Run) : State :=
  s.modCore c fun k => { k with copyRun := k.copyRun.map fun r => if r.cmd.id = id then f r else r }
def State.dropRun (s : State) (c : CoreId) (id : Nat) : State :=
  s.modCore c fun k => { k with copyRun := k.copyRun.filter fun r => r.cmd.id != id }
/-- A run meets a translation fault (R351). -/
def State.runFault (s : State) (r : Run) (va pf : W64) (pos : Nat) : State :=
  let (tok, s) := s.postFault r.copyEng va pf
  s.modRun r.cmd.who.c r.cmd.id fun r => { r with tok := tok.map fun t => (t, va), pos := pos }
/-- The code of the copy engine of a command's core (R76). -/
def ECmd.code (c : ECmd) : Byte := engCode c.who.c 0
/-- A command completes (R99): its flag, and the run is over. -/
def State.runDone (s : State) (r : Run) : State :=
  (s.engDone r.cmd.who r.cmd.cfl (engAgent r.cmd.who.c 0) r.cmd.code).dropRun r.cmd.who.c r.cmd.id

/-- The stream status of a task that still holds its bank. -/
def State.modStream (s : State) (w : Who) (k : Fin 8) (f : StreamSt → StreamSt) : State :=
  if s.alive w then s.modBank w fun b => { b with stream := vset b.stream k (f (b.stream.get k)) } else s
def CKind.isStream (x : CKind) (k : Fin 8) : Bool :=
  match x with
  | .stream j _ _ _ => j == k
  | _ => false
/-- A copy engine command ends by a failure (R143); a stream's status says so (R147). DESIGN CHOICE (log 95): a gather that ends so has
not delivered its last row, and still counts as outstanding in its group (R151). -/
def State.cmdFail (s : State) (c : ECmd) (cause : Byte) (va : W64) : State :=
  let s := match c.kind with
    | .stream k _ _ _ => s.modStream c.who k fun x => { x with st := 3, fail := true }
    | _ => s
  s.engEnd c.who 0 c.nth cause va c.code
def State.runEnd (s : State) (r : Run) (cause : Byte) (va : W64) : State :=
  (s.cmdFail r.cmd cause va).dropRun r.cmd.who.c r.cmd.id
def CKind.stream? : CKind → Bool
  | .stream _ _ _ _ => true
  | _ => false
/-- Stops stream k of a task (R147): what it holds is discarded, and its flag decremented. -/
def State.stopStream (s : State) (w : Who) (k : Fin 8) : State :=
  match (s.core w.c).copyRun.find? fun r => r.cmd.kind.isStream k && r.cmd.who.b == w.b && r.cmd.who.t == w.t with
  | none => s
  | some r => (s.modStream w k fun x => { x with st := 3 }).runDone r

/-! ## COPY_ENGINE_START -/

/-- The work of a command that has started. -/
def Run.start (c : ECmd) : Run :=
  match c.kind with
  | .gather _ _ _ _ p n => { cmd := c, left := (List.range n).map (p + ·) }
  | .gatherq _ _ _ _ _ _ => { cmd := c, left := [0] }
  | .copy _ _ bytes rows _ _ _ _ _ => { cmd := c, left := List.range (bytes / 8 * rows) }
  | _ => { cmd := c }
/-- Whether a command may start now (R222): 8 streams and 16 others. -/
def Core.startRoom (k : Core) (c : ECmd) : Bool :=
  match c.kind with
  | .stop _ => true
  | .stream j _ _ _ =>
    (k.copyRun.filter fun r => r.cmd.kind.stream? && !(r.cmd.kind.isStream j && r.cmd.who.b == c.who.b)).length < 8
  | _ => (k.copyRun.filter fun r => !r.cmd.kind.stream?).length < 16
/-- COPY_ENGINE_START (R141, R222): commands start in the order of the FIFO; those of a task that is being stopped wait
(R332). -/
def execCopyEngineStart (c : CoreId) (s : State) : Out :=
  match (s.core c).copyFifo with
  | [] => .next s
  | x :: rest =>
    if s.alive x.who && (s.bank x.who).halting || !(s.core c).startRoom x then .next s
    else if (s.core c).engFenced.get 0 then
      .next ((s.modCore c fun k => { k with copyFifo := rest }).cmdFail x cUncorr 0)
    else
      let s := (s.modCore c fun k => { k with copyFifo := rest }).engStart (engAgent c 0) x.view
      match x.kind with
      | .stop k => .next (s.stopStream x.who k)
      | .stream k q _ _ =>
        let s := (s.stopStream x.who k).modStream x.who k fun _ => { st := 1, q := q }
        .next (s.modCore c fun k => { k with copyRun := k.copyRun ++ [Run.start x] })
      | _ => .next (s.modCore c fun k => { k with copyRun := k.copyRun ++ [Run.start x] })

/-! ## Elements and rows (R143, R144, R146, R149) -/

/-- A failure whose cause reaches C although the row is delivered poisoned (R143, R394). -/
def State.rowCause (s : State) (r : Run) (cause : Byte) (va : W64) : State :=
  if cause = cMemModel || cause = cUncorr then s.imprecise r.cmd.who (pendBit cause) cause va r.cmd.code else s
/-- What an engine holds of a row read: its bytes, or a poisoned row. -/
def heldRow (tag : W32) (bs : Option (List Byte)) (oor : Bool) : Held :=
  match bs with
  | some bs => ⟨.row (rowOf tag bs) 0, false, oor, tag⟩
  | none => ⟨.row (poisonedRow tag) 0, true, oor, tag⟩
/-- What an engine holds of an element read for a word queue. -/
def heldWord (bs : Option (List Byte)) : Held :=
  match bs with
  | some bs => ⟨.word (BitVec.ofNat 64 (leNat bs)) 0, false, false, 0⟩
  | none => ⟨.word badWord 0, true, false, 0⟩
/-- Whether a queue still has the sequencer that issued a command as its producer (R63). DEDUCED (log 94): where `qcfg` has bound it
anew, the push is QueueProtocol (R65), which an engine can only raise imprecisely; the queue is left as it is, and the command ends
(R143). -/
def State.pushes (s : State) (w : Who) (q : Fin 16) : Bool :=
  let m := (s.bank w).qmap
  prodOf m q != consOf m q && prodOf m q == w.q.val
/-- Pushes what an engine holds to a queue of the task's bank. -/
def State.pushHeld (s : State) (w : Who) (q : Fin 16) (h : Held) : State :=
  match h.slot with
  | .word v _ => s.modQ w q (·.pushWord v s.now)
  | .row r _ => (s.modQ w q (·.pushRow r s.now)).count w 11 1
  | .resv _ => s

/-- The point counts of a started stream: fixed, or extents read once (R145, R157). -/
def State.resolve (s : State) (g : Eng) (d : SDesc) : List (Fin 4) → Except EStop (List Nat) × State
  | [] => (.ok [], s)
  | i :: is =>
    match cntExt (d.cnt.get i) with
    | none =>
      match s.resolve g d is with
      | (.ok ns, s) => (.ok ((d.cnt.get i).toNat :: ns), s)
      | (.error e, s) => (.error e, s)
    | some j =>
      match s.engExtent g d.shp j with
      | (.error e, s) => (.error e, s)
      | (.ok n, s) =>
        match s.resolve g d is with
        | (.ok ns, s) => (.ok (n :: ns), s)
        | (.error e, s) => (.error e, s)
/-- The address of point n (R146). -/
def SDesc.point (d : SDesc) (cnts : Vector Nat 4) (n : Nat) : W64 :=
  let c0 := cnts.get 0
  let c1 := cnts.get 1
  let c2 := cnts.get 2
  let at_ (i : Fin 4) (k : Nat) : W64 := BitVec.ofNat 64 k * (d.str.get i).signExtend 64
  d.base + at_ 0 (n % c0) + at_ 1 (n / c0 % c1) + at_ 2 (n / (c0 * c1) % c2) + at_ 3 (n / (c0 * c1 * c2))
def points (cnts : Vector Nat 4) : Nat := cnts.get 0 * cnts.get 1 * cnts.get 2 * cnts.get 3
/-- The most elements that a started command holds (R224). -/
abbrev holdMax : Nat := 8

/-- A stream reads its next element (R143, R146). -/
def State.streamRead (s : State) (r : Run) (q : Fin 16) (cons : Bool) (d : SDesc) : State :=
  let word := q.val < 8
  let va := d.point r.cnts r.pos
  let tag := d.tagbase + BitVec.ofNat 32 r.pos
  let keep (s : State) (bs : Option (List Byte)) : State :=
    s.modRun r.cmd.who.c r.cmd.id fun x =>
      { x with held := x.held ++ [if word then heldWord bs else heldRow tag bs false], pos := r.pos + 1, refused := none }
  match s.engRead r.copyEng va d.el cons with
  | (.ok bs, _, s) => keep s (some bs)
  | (.error .later, _, s) => s
  | (.error (.fault va pf), _, s) => if d.pgw then s.runFault r va pf r.pos else keep s none
  | (.error (.fail cause va), _, s) => keep (s.rowCause r cause va) none
/-- A stream pushes the oldest element it holds (R146); those of a task that has ended go nowhere. -/
def State.streamPush (s : State) (r : Run) (k : Fin 8) (q : Fin 16) : State :=
  match r.held with
  | [] => s
  | h :: hs =>
    let s := s.modRun r.cmd.who.c r.cmd.id fun x => { x with held := hs }
    if !s.alive r.cmd.who then s
    else if !s.pushes r.cmd.who q then s.runEnd r cQueue 0
    else (s.pushHeld r.cmd.who q h).modStream r.cmd.who k fun x => { x with pushed := x.pushed + 1, pois := x.pois || h.pois }
/-- Whether the work of a command's task stops (R332): what its engine has read is delivered, and nothing more is read. -/
def State.halts (s : State) (w : Who) : Bool := s.alive w && (s.bank w).halting
/-- One step of a started stream: it resolves its counts, reads, pushes or is done. -/
def State.streamStep (s : State) (r : Run) (k : Fin 8) (q : Fin 16) (cons : Bool) (d : SDesc) : State :=
  if r.tok.isSome then s
  else if !r.ready then
    if s.halts r.cmd.who then s
    else match s.resolve r.copyEng d (List.finRange 4) with
    | (.ok ns, s) => s.modRun r.cmd.who.c r.cmd.id fun x =>
        { x with ready := true, cnts := Vector.ofFn fun i => ns.getD i.val 0, refused := none }
    | (.error .later, s) => s
    | (.error (.fault va pf), s) => s.runFault r va pf 0
    | (.error (.fail cause va), s) => s.runEnd r cause va
  else
    let more := r.pos < points r.cnts && r.held.length < holdMax && !s.halts r.cmd.who
    let can := r.held != [] && (!s.alive r.cmd.who || !(s.queue r.cmd.who q).full)
    if r.held = [] && points r.cnts ≤ r.pos then (s.modStream r.cmd.who k fun x => { x with st := 2 }).runDone r
    else
      let (c, s) := if more && can then s.choose 2 else (if more then 0 else 1, s)
      if c = 0 then s.streamRead r q cons d else if can then s.streamPush r k q else s
/-- STREAM_ELEMENT_PUSH (R146): a step of a stream k of the core; of the two banks', an open choice. -/
def execStreamElementPush (c : CoreId) (k : Fin 8) (s : State) : Out :=
  let rs := (s.core c).copyRun.filter fun r => r.cmd.kind.isStream k
  let (i, s) := s.choose rs.length
  match rs[i]? with
  | none => .next s
  | some r =>
    if (s.core c).engFenced.get 0 then .next (s.runEnd r cUncorr 0)
    else match r.cmd.kind with
    | .stream _ q cons d => .next (s.streamStep r k q cons d)
    | _ => .next s

/-- The counters of a gather's group (R151). -/
def State.gatherCount (s : State) (c : ECmd) (tag : W32) (pois oor rows : Bool) : State :=
  if !s.alive c.who then s
  else s.modBank c.who fun k =>
    let g := k.grp.get c.grp
    let up (p : Bool) (n : Nat) : Nat := if p then Nat.min (n + 1) 0xFFFF else n
    { k with grp := vset k.grp c.grp { g with
        oor := up oor g.oor, rows := up rows g.rows, pois := up (rows && pois) g.pois
        first := if rows && pois && !g.fv then tag else g.first
        fv := g.fv || (rows && pois) } }
/-- The bytes of a row in a scratchpad slot: chunks swizzled (R150). -/
def swizzle (p : Payload) (m : Nat) : List Byte :=
  let bs := payBytes p
  (List.range 16).flatMap fun c => (bs.drop (16 * (c ^^^ m))).take 16
/-- Writes a row to its scratchpad slot (R150). -/
def State.writeSlot (s : State) (r : Run) (d : GDesc) (h : Held) : State :=
  let j := (h.tag - d.tagbase).toNat
  match h.slot with
  | .row x _ =>
    if 2 ^ 24 < fld d.dbase 23 0 + 256 * j + 256 then s.gatherCount r.cmd h.tag false true false
    else
      let va := d.dbase + BitVec.ofNat 64 (256 * j)
      match s.engWrite r.copyEng va (swizzle x.pay (j % 2 ^ d.swz)) true (r.cmd.ref 0) with
      | (.ok _, s) => (s.gatherCount r.cmd h.tag h.pois h.oor true).count r.cmd.who 11 1
      | (.error (.fail cause va), s) => (s.rowCause r cause va).gatherCount r.cmd h.tag true h.oor true
      | (.error _, s) => s
  | _ => s
/-- A gathered row has been read: it is held for its queue, or written. -/
def State.gathered (s : State) (r : Run) (d : GDesc) (sp : Bool) (pos : Nat) (h : Held) : State :=
  let s := s.modRun r.cmd.who.c r.cmd.id fun x =>
    { x with left := x.left.filter (· != pos), held := if sp then x.held else x.held ++ [h], refused := none }
  if sp then s.writeSlot r d h else s
/-- Reads the row of an index (R149). -/
def State.gatherRow (s : State) (r : Run) (d : GDesc) (sp cons : Bool) (pos x : Nat) (tag : W32) : State :=
  if d.nrows ≤ x then s.gathered r d sp pos (heldRow tag none true)
  else
    match s.engRead r.copyEng (d.table + BitVec.ofNat 64 (x * d.stride)) d.rlen cons with
    | (.ok bs, _, s) => s.gathered r d sp pos (heldRow tag (some bs) false)
    | (.error .later, _, s) => s
    | (.error (.fault va pf), _, s) => if d.pgw then s.runFault r va pf pos else s.gathered r d sp pos (heldRow tag none false)
    | (.error (.fail cause va), _, s) => (s.rowCause r cause va).gathered r d sp pos (heldRow tag none false)
/-- Reads the list entry of a position, then its row (R143, R149). -/
def State.gatherEntry (s : State) (r : Run) (d : GDesc) (sp cons : Bool) (pos : Nat) : State :=
  let tag := d.tagbase + BitVec.ofNat 32 pos
  match s.engRead r.copyEng (d.list + BitVec.ofNat 64 (4 * pos)) 4 false with
  | (.ok bs, _, s) => s.gatherRow r d sp cons pos (leNat bs) tag
  | (.error .later, _, s) => s
  | (.error (.fault va pf), _, s) => if d.pgw then s.runFault r va pf pos else s.gathered r d sp pos (heldRow tag none false)
  | (.error (.fail cause va), _, s) => (s.rowCause r cause va).gathered r d sp pos (heldRow tag none false)
/-- Pushes the oldest row that a gather holds, in the order their reads completed (R149). -/
def State.gatherPush (s : State) (r : Run) (q : Fin 16) : State :=
  match r.held with
  | [] => s
  | h :: hs =>
    if s.alive r.cmd.who && (s.queue r.cmd.who q).full then s
    else
      let s := s.modRun r.cmd.who.c r.cmd.id fun x => { x with held := hs }
      if !s.alive r.cmd.who then s
      else if !s.pushes r.cmd.who q then s.runEnd r cQueue 0
      else (s.pushHeld r.cmd.who q h).gatherCount r.cmd h.tag h.pois h.oor true
/-- A gather is over once its rows are delivered and written (R149, R151). -/
def State.gatherDone (s : State) (r : Run) : State :=
  let s := if s.alive r.cmd.who then s.modBank r.cmd.who fun k =>
      { k with grp := vset k.grp r.cmd.grp { k.grp.get r.cmd.grp with out := (k.grp.get r.cmd.grp).out - 1 } } else s
  s.runDone r
/-- One step of a started gather, at a position where one is still to be read. -/
def State.gatherStep (s : State) (r : Run) (pos : Nat) (q : Fin 16) (sp : Bool) (read : State → State) : State :=
  if r.tok.isSome then s
  else if r.left.contains pos && !s.halts r.cmd.who && (sp || r.held.length < holdMax) && (r.refused.isNone || pos == r.pos) then read s
  else if r.held != [] then s.gatherPush r q
  else if r.left = [] && !s.cmdPending (engAgent r.cmd.who.c 0) (r.cmd.ref 0) then s.gatherDone r
  else s
/-- GATHER_ROW_DELIVER (R149): a step of a gather. -/
def execGatherRowDeliver (c : CoreId) (id pos : Nat) (s : State) : Out :=
  match (s.core c).copyRun.find? (·.cmd.id == id) with
  | none => .next s
  | some r =>
    if (s.core c).engFenced.get 0 then .next (s.runEnd r cUncorr 0)
    else match r.cmd.kind with
    | .gather q sp cons d _ _ => .next (s.gatherStep r pos q sp fun s => s.gatherEntry r d sp cons pos)
    | .gatherq q sp cons d x t => .next (s.gatherStep r pos q sp fun s => s.gatherRow r d sp cons pos x.toNat t)
    | _ => .next s

/-! ## Copies (R152, R153, R226) -/

/-- The far homes of a command with that of a location written (R273). -/
def Run.farWith (r : Run) (l : Nat) : List Nat :=
  if homeDie l = dieOf r.cmd.who.c || r.far.contains (homeDie l).val then r.far else r.far ++ [(homeDie l).val]
/-- Sends a command's completion message from a far home (R273). -/
def State.sendMsg (s : State) (src dst : Nat) (core : CoreId) (eng id : Nat) : State :=
  let key := src * 8 + dst
  let n := (NMap.get? s.msgSent key).getD 0 + 1
  { s with
    msgSent := NMap.put s.msgSent key n
    msgs := s.msgs ++ [⟨src, dst, n, core.val, eng, id⟩] }
/-- Whether a write of a command that is homed on a die is still to be applied. -/
def State.pendingAt (s : State) (agent : Nat) (ref : CmdRef) (d : Nat) : Bool :=
  (s.mine agent).any fun e => e.cmd == some ref && e.parts.any fun p => (homeDie (8 * p.word)).val == d
/-- A command of an agent whose writes have all been made (R273): a far home whose writes are applied sends its message; once all are
applied and every message has come, it is done. `far`, `sent` and `got` are those of the command, `put` notes that a home has sent. -/
def State.awaitHomes (s : State) (w : Who) (a : Nat) (ref : CmdRef) (far sent got : List Nat) (put : State → Nat → State)
    (done : State → State) : State :=
  match far.find? fun d => !sent.contains d && !s.pendingAt a ref d with
  | some d => put (s.sendMsg d (dieOf w.c).val w.c ref.eng ref.id) d
  | none => if s.cmdPending a ref || !(far.all fun d => got.contains d) then s else done s
/-- A run's completion through its homes. -/
def State.runHomes (s : State) (r : Run) (eng : Nat) (put : State → (Run → Run) → State) (done : State → State) : State :=
  s.awaitHomes r.cmd.who (engAgent r.cmd.who.c eng) (r.cmd.ref eng) r.far r.sent r.got
    (fun s d => put s fun x => { x with sent := d :: x.sent }) done
/-- Writes a copied word: to the weight SRAM, or to an address (R152). -/
def State.copyWrite (s : State) (r : Run) (ws : Bool) (va : W64) (bs : List Byte) : Except EStop Nat × State :=
  if ws then
    let l := wsLoc r.cmd.who.c va.toNat
    (.ok l, (bytesParts l bs).foldl (fun s p => s.engStore r.copyEng [p] (r.cmd.ref 0)) s)
  else s.engWrite r.copyEng va bs false (r.cmd.ref 0)
/-- One word of a copy: word `i` of those still to do. Rows that it consumes count once and stay readable by it (R248, R253). -/
def State.copyWord (s : State) (r : Run) (i : Nat) (dst src : W64) (bytes : Nat) (sstr dstr : W64) (ws cons : Bool) : State :=
  let row := BitVec.ofNat 64 (i / (bytes / 8))
  let o := BitVec.ofNat 64 (8 * (i % (bytes / 8)))
  match s.engRead r.copyEng (src + row * sstr + o) 8 cons r.kept true with
  | (.error .later, _, s) => s
  | (.error (.fault va pf), _, s) => s.runFault r va pf i
  | (.error (.fail cause va), _, s) => s.runEnd r cause va
  | (.ok bs, kept, s) =>
    let s := s.modRun r.cmd.who.c r.cmd.id fun x => { x with kept := kept }
    match s.copyWrite r ws (dst + row * dstr + o) bs with
    | (.error .later, s) => s
    | (.error (.fault va pf), s) => s.runFault r va pf i
    | (.error (.fail cause va), s) => s.runEnd r cause va
    | (.ok l, s) => s.modRun r.cmd.who.c r.cmd.id fun x =>
        { x with
          left := x.left.filter (· != i), refused := none
          far := x.farWith l }
/-! ## PARKED_RELEASE -/

/-- Whether a parked command leaves the store now (R70, R142): a zero test has freed it, its FIFO has room, its issuer's accesses have
performed, and its task is not being stopped (R332). -/
def State.leaves (s : State) (p : Parked) : Bool :=
  p.freed && (s.core p.who.c).cmdRoom p.cmd.out && s.quietSeq p.who && !(s.bank p.who).halting
/-- The freed commands of a core leave the store in the order in which they parked (R70). -/
def State.releaseParked (s : State) (c : CoreId) : State :=
  if !(s.core c).parked.any (·.freed) then s
  else (s.core c).parked.foldl (fun s p =>
    if s.leaves p then s.enterCmd p.cmd.out p.cmd.cmd else s.modCore c fun k => { k with parked := k.parked ++ [p] })
    (s.modCore c fun k => { k with parked := [] })
/-- PARKED_RELEASE (R70, R142): the commands that a zero test has freed leave the store. -/
def execParkedRelease (c : CoreId) (s : State) : Out := .next (s.releaseParked c)

end Sys2Proof.Machine
end

