-- ==== Sys2Proof/Machine/Matrix.lean ====
section
/-! DEFINITION. The matrix instructions as X issues them (R184-R201), format slots (R188, R189), and what a matrix command
is. -/
namespace Sys2Proof.Machine

/-! ## Commands -/

/-- The completion flag of an F-M command (R190). -/
def mFlag (f : FM) : Option (BitVec 5) := if f.pol.getLsbD 2 then some f.flag else none
def mZ (f : FM) : Fin 8 := ⟨f.zd.toNat, f.zd.isLt⟩
def mQ (f : FM) : Fin 16 := ⟨8 + f.rq.toNat, by omega⟩

/-- An `mmul` or `mrank` as it reads slot, tag base and scale tile (R193, R198). `bad` says that the slot's check fails. -/
def State.mop (s : State) (w : Who) (rank : Bool) (f : FM) : MOp :=
  let e := f.e.getD 0
  let x := w.seq 2
  let slot := s.fmtSlot x f.fmt.toNat
  let af := fld slot 3 0
  let sa := fld slot 15 14
  let sv : BitVec 5 := BitVec.ofNat 5 (fld e 26 22)
  let sb : BitVec 5 := BitVec.ofNat 5 (fld e 31 27)
  { rank := rank
    rej := f.pol.getLsbD 0
    mte := f.pol.getLsbD 1
    flag := mFlag f
    z := mZ f
    q := mQ f
    base := if sb = 0 then 0 else lo32 ((s.sq x).s.get ⟨sb.toNat, sb.isLt⟩)
    sv := if !rank && sa != 0 then some ((s.bank w).tile sv) else none
    n := fld e 21 12
    nc := if fld e 11 6 = 0 then 64 else fld e 11 6
    slot := slot
    bad := if rank then 2 < af else af == 0 || af == 12 || (sa == 0 && sv != 0) }

/-- X may hand a queue to an operation: it is the consumer, and no other operation names it (R193). -/
def State.mqueueOk (s : State) (w : Who) (q : Fin 16) : Bool :=
  let m := (s.bank w).qmap
  prodOf m q != consOf m q && consOf m q == 2 && !(s.core w.c).matrixNames w q

/-- A command enters the matrix FIFO, with X's release (R184, R268). -/
def State.matrixEnter (s : State) (w : Who) (i : Instr) (k : MKind) : State :=
  let (n, s) := s.accept w 1
  let (v, s) := s.pushView w
  s.modCore w.c fun c =>
    { c with mFifo := c.mFifo ++ [{ i := i, id := c.nextId, nth := n, who := w, view := v, kind := k }], nextId := c.nextId + 1 }
def Core.matrixRoom (k : Core) : Bool := k.mFifo.length < matrixDepth

/-- X hands a command to the matrix engine: a full FIFO holds X (R222). -/
def matrixPlace (i : Instr) (k : MKind) : Act Flow := do
  let s ← get
  if !(s.core s.cur.c).matrixRoom then hold 6 1
  needQuiet
  modify fun s => s.matrixEnter s.me i k
  pure .next
/-- What the slot of an operation must hold (R186, R193, R198). -/
def opLimits (rank : Bool) (f : FM) : Act Unit := do
  let s ← get
  need (!(s.mop s.cur rank f).bad) cIllegal
/-- `mmul` and `mrank` at issue (R193, R198). -/
def matrixOp (rank : Bool) (f : FM) : Act Flow := do
  let s ← get
  let o := s.mop s.cur rank f
  need (!o.bad) cIllegal
  need (s.mqueueOk s.cur o.q) cQueue
  matrixPlace (if rank then .mrank f else .mmul f) (.op o)
/-- `mmul` (R193). -/
def execMmul (f : FM) (s : State) : Out := issueLim (.mmul f) s (opLimits false f) (matrixOp false f)
/-- `mrank` (R198). -/
def execMrank (f : FM) (s : State) : Out := issueLim (.mrank f) s (opLimits true f) (matrixOp true f)
/-- `mswap` (R192). -/
def execMswap (f : FM) (s : State) : Out := issue (.mswap f) s (matrixPlace (.mswap f) (.swap (mFlag f)))
/-- `mzero` (R191): the slot is read at issue. -/
def execMzero (f : FM) (s : State) : Out := issue (.mzero f) s do
  let s ← get
  matrixPlace (.mzero f) (.zero (mZ f) (s.fmtSlot s.cur f.fmt.toNat) (mFlag f))

/-! ## Close and wait (R199) -/

/-- An operation that has popped its last row. -/
def MRun.popped (r : MRun) : Bool := r.closed || r.o.n ≤ r.recv
/-- A started operation of a task that names an accumulator and is still popping. -/
def State.closes (s : State) (w : Who) (z : Fin 8) (r : MRun) : Bool := s.ours w r.who && r.o.z == z && !r.popped
/-- A queued one, closed before or not. -/
def State.closesQ (s : State) (w : Who) (z : Fin 8) (m : MCmd) : Bool :=
  s.ours w m.who && (match m.kind with
    | .op o => o.z == z
    | _ => false)
/-- `mclose`: the oldest operation on zD that has rows to pop is closed. -/
def State.matrixClose (s : State) (w : Who) (z : Fin 8) : State :=
  let k := s.core w.c
  match k.mRun.findIdx? (s.closes w z), k.mFifo.findIdx? (s.closesQ w z) with
  | some i, _ => s.modCore w.c fun k => { k with mRun := k.mRun.modify i fun r => { r with closed := true, endAt := s.now + 1 } }
  | none, some i => s.modCore w.c fun k => { k with mFifo := k.mFifo.modify i fun m => { m with closed := true } }
  | none, none => s
/-- `mclose` (R199). -/
def execMclose (f : FM) (s : State) : Out := issue (.mclose f) s do
  modify fun s => s.matrixClose s.cur (mZ f)
  pure .next

/-- Whether a queued or active command of a bank's task names an accumulator. -/
def State.zBusy (s : State) (w : Who) (z : Fin 8) : Bool :=
  let k := s.core w.c
  k.mRun.any (fun r => s.ours w r.who && r.o.z == z) ||
  k.mFifo.any (fun m => s.ours w m.who && (match m.kind with
    | .op o => o.z == z
    | .zero y _ _ => y == z
    | _ => false))
/-- Whether the matrix engine has a command. -/
def Core.matrixBusy (k : Core) : Bool := !k.mFifo.isEmpty || !k.mRun.isEmpty || k.wRun.isSome
/-- Whether a tile of a core's banks is being replayed (R391). -/
def Core.replays (k : Core) : Bool := k.banks.any fun b => b.z.any fun z => z.replay.isSome
/-- X waits for the commands that name an accumulator, and for a replay of it (R199-R201, R391). -/
def zIdle (z : Fin 8) : Act Unit := do
  let s ← get
  if s.zBusy s.cur z || ((s.bank s.cur).z.get z).replay.isSome then hold 8 1
/-- `mwait` (R199). -/
def execMwait (f : FM) (s : State) : Out := issue (.mwait f) s do
  let s ← get
  if f.pol.getLsbD 0 then
    if (s.core s.cur.c).matrixBusy || (s.core s.cur.c).replays then hold 8 1
    pure .next
  else do
    zIdle (mZ f)
    pure .next

/-! ## Readout (R200, R201) -/

/-- The 16 rows of a block lose their slots and present bits, which the window keeps (R390). -/
def Acc.clearBlock (z : Acc) (blk : Nat) : Acc :=
  { z with
    slots := z.slots.filter fun e => e.1 / 1024 != blk
    present := z.present &&& ~~~ (BitVec.ofNat 256 (0xFFFF * 2 ^ (16 * blk)))
    win := if z.noReplay then [] else z.win ++ [.clear blk] }
/-- `mread` (R200): the lanes are converted, and cleared, at issue. -/
def execMread (f : FM) (s : State) : Out := issue (.mread f) s do
  zIdle (mZ f)
  let e := f.e.getD 0
  let raw := e.getLsbD 3
  let mode := e.toNat % 8
  let rs := mode == 3 && !raw
  let seed ← takeDraws rs 1024
  let s ← get
  let blk := fld f.flag 3 0
  let rho : Array Nat := if rs then (draws seed (List.replicate 1024 true)).2.toArray else #[]
  let l := readBlock ((s.bank s.cur).z.get (mZ f)) blk raw (RMode.ofCode mode) rho
  if f.pol.getLsbD 0 then
    set (s.modBank s.cur fun k => { k with z := vset k.z (mZ f) ((k.z.get (mZ f)).clearBlock blk) })
  addX { i := .mread f, due := 8, caps := [.res l.vals (planesOf allOnes l.flags)], rss := seed } [(2, fld f.fmt 4 0)]
  pure .next

/-- A status word of an accumulator (R201). -/
def Acc.status (z : Acc) (w : Nat) : W64 :=
  if w = 0 then z.st0 else BitVec.ofNat 64 (z.absent.toNat / 2 ^ (64 * (w - 1)))
/-- `mstat` (R201). -/
def execMstat (f : FM) (s : State) : Out := issue (.mstat f) s do
  zIdle (mZ f)
  let s ← get
  addX { i := .mstat f, due := 2, sv2 := ((s.bank s.cur).z.get (mZ f)).status f.pol.toNat }
    (fieldFile (BitVec.ofNat 6 (fld f.fmt 4 0)))
  pure .next

/-! ## Format slots (R188, R189) -/

/-- The seven formats of the ST schemes (R34). -/
def stFmt (c : Nat) : Bool := (3 ≤ c && c ≤ 9)
/-- The formats of the GA schemes (R34). -/
def gaFmt (c : Nat) : Bool := 8 ≤ c && c ≤ 11
/-- What `fmtw` accepts (R189). -/
def fmtwOk (v : W32) : Bool :=
  let af := fld v 3 0
  let wf := fld v 7 4
  let sa := fld v 15 14
  let sw := fld v 13 11
  fld v 23 17 == 0 && fld v 10 8 == 0 && af ≤ 12 && wf ≤ 12 && sa != 3 && sw ≤ 5 &&
  (sa == 0 || stFmt af) && (!(sw == 1 || sw == 2) || stFmt wf) && (sw ≤ 2 || gaFmt wf)
/-- The writes of format slots in a cycle, C before X (R188). -/
def Bank.fmtCommit (k : Bank) : Bank :=
  if k.fmtPend = [] then k
  else
    let ws := (List.finRange 4).flatMap fun q => k.fmtPend.filter (·.1 == q)
    { k with fmtPend := [], fmt := ws.foldl (fun v w => vset v ⟨w.2.1 % 64, by omega⟩ w.2.2) k.fmt }
/-- `fmtw` (R188): the slot is written at the end of the cycle. -/
def execFmtw (f : RRR) (s : State) : Out := issueLim (.fmtw f) s (limitAB f fun _ y => fmtwOk (lo32 y)) do
  let (x, y) ← sourcesAB f
  let v := lo32 y
  need (fmtwOk v) cIllegal
  modify fun s => s.modBank s.cur fun k => { k with fmtPend := k.fmtPend ++ [(s.cur.q, fld x 5 0, v)] }
  retain [(6, fld x 5 0)] 1
  pure .next
/-- `fmtr` (R188). -/
def execFmtr (f : RRR) (s : State) : Out := issue (.fmtr f) s do
  let vs ← sources f.e [f.a] [f.d]
  let s ← get
  let v := (s.bank s.cur).fmt.get ⟨fld (nthV vs 0) 5 0 % 64, by omega⟩
  scalarResult (.fmtr f) f.d 1 0 0 (v.setWidth 64)

end Sys2Proof.Machine
end

