-- ==== Sys2Proof/Machine/Parity.lean ====
section
/-! DEFINITION. The registers that an instruction reads at issue, and their parity (R330). -/
namespace Sys2Proof.Machine

/-- The scalar source fields of an instruction; a field that an extension word replaces holds 0 or 63, no register of R330. -/
def Instr.srcFields (i : Instr) : List (BitVec 6) :=
  match i with
  | .add f | .sub f | .and f | .or f | .xor f | .shl f | .shr f | .sra f | .mul f | .mulh f | .min f | .max f | .div f => [f.a, f.b]
  | .seq f | .sne f | .slt f | .sltu f | .sle f | .sleu f | .csel f | .fadd f | .fsub f | .fmul f | .fmin f | .fmax f | .flt f => [f.a, f.b]
  | .clz f | .ctz f | .popc f | .ftoi f | .itof f => [f.a]
  | .fmad f | .amocas f => [f.a, f.b, f.d]
  | .addi f | .andi f | .ori f | .xori f | .shli f | .shri f | .srai f | .muli f => [f.a]
  | .lcat f | .csrw f | .cwinWrite f | .qmapWrite f | .wsrangeWrite f | .pfblockWrite f | .wpcWrite f => [f.d]
  | .brz f | .brnz f | .brlt f | .brge f | .brle f | .brgt f | .ret f | .jmp f | .loop f => [f.a]
  | .ld8 f | .ld16 f | .ld32 f | .ld64 f | .ld8s f | .ld16s f | .ld32s f | .farm f | .bar f | .wload f | .prefetch f => [f.a]
  | .st8 f | .st16 f | .st32 f | .st64 f => [f.a, f.d]
  | .amoadd f | .amoswp f | .amoand f | .amoor f | .amoxor f | .spawn f | .tstart f | .join f => [f.a, f.b]
  | .qpush f | .qcfg f | .sbind f | .ldq f | .stword f | .obind f => [f.a]
  | .exit f | .actCount f => [f.b]
  | .gather f | .gatherq f | .ldrow f | .scatter f | .ratom f => [f.a, f.b]
  | .strow f | .strc f | .rstore f => if f.f.getLsbD 0 then [f.a, f.b] else [f.a]
  | .copy f | .copyf f | .copy2d f | .rcfill f | .shext f | .actBind f | .actMark f | .actClear f | .actList f | .rqwr f => [f.a, f.b, f.d]
  | .rcclose f | .shload f | .fmtw f | .tlbinv f | .icinv f | .rqrd f | .pgmap f | .pgdone f => [f.a, f.b]
  | .rcquery f | .fmtr f | .aecfg f | .aerun f | .aeread f | .resume f => [f.a]
  | .vsplat f => if f.e.isSome then [] else [sFld f.a]
  | .vput f => [sFld f.a]
  | .vpush f => [sFld f.b]
  | .mmul f | .mrank f => [BitVec.ofNat 6 (fld (f.e.getD 0) 31 27)]
  | _ => []
/-- The tiles that an instruction reads at issue (R163, R193, R327); ST32 pairs take two (R171, R172). -/
def State.tilesRead (s : State) (w : Who) (i : Instr) : List (BitVec 5) :=
  let pair (f : FV) : List (BitVec 5) :=
    if slotSch (s.fmtSlot w (cvtFmt (cvtWord f))) (cvtSide (cvtWord f)) = 2 then [f.a, f.a + 1] else [f.a]
  match i with
  | .vadd f | .vsub f | .vmul f | .vmin f | .vmax f | .viadd f | .visub f | .vimul f | .viand f | .vior f | .vixor f => [f.a, f.b]
  | .vishl f | .vishr f | .vceq f | .vclt f | .vcle f | .viceq f | .vilt f | .vexp2d f => [f.a, f.b]
  | .vfma f | .vfms f => [f.a, f.b, f.d]
  | .vsel f => if f.e.isSome then [f.a] else [f.a, f.b]
  | .vmov f => if [1, 2].contains ((f.e.getD 0).toNat % 4) then [] else [f.a]
  | .vabs f | .vneg f | .vftoi f | .vitof f | .vexp2 f | .vlog2 f | .vrcpSeed f | .vrsqSeed f => [f.a]
  | .vrotr f | .vrotc f | .vbcastr f | .vbcastc f | .vredr f | .vredc f | .vscanr f | .vscanc f | .vpush f | .vget f => [f.a]
  | .vquant f => pair f
  | .vdequant f => f.b :: pair f
  | .mmul f => if (s.mop w false f).sv.isSome then [BitVec.ofNat 5 (fld (f.e.getD 0) 26 22)] else []
  | _ => []
/-- The predicate of a vector instruction: m0 is no register (R57). -/
def predOf (m : BitVec 3) : List Nat := if m = 0 then [] else [m.toNat]
/-- The masks that an instruction reads. -/
def masksRead (i : Instr) : List Nat :=
  let reg (n : BitVec 5) : List Nat := predOf (n.setWidth 3)
  match i with
  | .mand f | .mor f | .mxor f | .mandn f => reg f.a ++ reg f.b ++ predOf f.m
  | .vany f | .vall f | .mpop f => reg f.a ++ predOf f.m
  | .vmov f => (if [1, 2].contains ((f.e.getD 0).toNat % 4) then reg f.a else []) ++ predOf f.m
  | .vadd f | .vsub f | .vmul f | .vfma f | .vfms f | .vmin f | .vmax f | .vabs f | .vneg f | .viadd f | .visub f | .vimul f => predOf f.m
  | .viand f | .vior f | .vixor f | .vishl f | .vishr f | .vceq f | .vclt f | .vcle f | .viceq f | .vilt f | .vsel f => predOf f.m
  | .vsplat f | .vftoi f | .vitof f | .vexp2 f | .vexp2d f | .vlog2 f | .vrcpSeed f | .vrsqSeed f | .vrotr f | .vrotc f => predOf f.m
  | .vbcastr f | .vbcastc f | .vredr f | .vredc f | .vscanr f | .vscanc f | .vflag f | .vflagclr f | .vpop f | .vpush f => predOf f.m
  | _ => []
/-- The format number of an instruction (R72). -/
def Instr.fmtField (i : Instr) : Option Nat :=
  match i with
  | .vquant f | .vdequant f => some (cvtFmt (cvtWord f))
  | .wload f => some (fld f.imm 5 0)
  | .mmul f | .mrank f | .mzero f => some f.fmt.toNat
  | _ => none
/-- The format slots that an instruction reads. -/
def State.slotsRead (s : State) (w : Who) (i : Instr) : List Nat :=
  match i with
  | .fmtr f => match StateT.run (peekSources f.e [f.a]) { s with cur := w } with
    | .ok (vs, _) => [fld (nthV vs 0) 5 0]
    | .error _ => []
  | i => match Instr.fmtField i with
    | some n => [(s.fmtNo w n).val]
    | none => []
/-- The core flags that an instruction reads: those it names, and the flag that its command is to wait for (R142). -/
def flagsRead (i : Instr) : List Nat :=
  let after (e : Option W32) : List Nat := match (cmdForm e).after with
    | some r => if r.g then [] else [r.n.toNat]
    | none => []
  match i with
  | .fpost f | .fdec f | .fread f | .fwait f => if f.imm.getLsbD 5 then [] else [fld f.imm 4 0]
  | .sbind f | .sstop f | .gather f | .gatherq f | .obind f | .ostop f => after f.e
  | .copy f | .copyf f | .copy2d f => after f.e
  | _ => []
/-- The loop counters that a sequencer reads at the end of an instruction: those of its frames that end here (R114). -/
def Seq.countersRead (q : Seq) : List Nat :=
  (List.finRange 4).filterMap fun n => if (q.frames.get n).active && (q.frames.get n).stop == q.pc then some n.val else none
/-- The registers that an instruction reads, by the files of R330: 0 scalar, 1 loop, 2 vector, 3 mask, 4 xf, 5 flag, 6 format slot. -/
def State.regsRead (s : State) (w : Who) (i : Instr) : List (Nat × Nat) :=
  (Instr.srcFields i).flatMap fieldFile ++ (s.sq w).countersRead.map (1, ·) ++ (if Instr.fmtField i = some 63 then [(1, 0)] else []) ++ (s.tilesRead w i).map (fun n => (2, n.toNat)) ++
  (masksRead i).map (3, ·) ++ (match i with
    | .vflag f => [(4, f.a.toNat)]
    | _ => []) ++ (flagsRead i).map (5, ·) ++ (s.slotsRead w i).map (6, ·)

/-- The latency of an instruction that is executed again (R330): its own, or one of those that R120 gives an access. -/
def Ret.latency (r : Ret) (s : State) : Nat × State :=
  if r.lat = 0 then
    let (k, s) := s.choose 4
    ([10, 60, 300, 420].getD k 10, s)
  else (r.lat, s)
/-- The retained instruction that last wrote a register, if it is retained still: a file of a sequencer is written by its own
instructions, a flag or a format slot by any of the bank's. -/
def Bank.lastWriter (k : Bank) (q : SeqId) (r : Nat × Nat) : Option Ret :=
  if r.1 < 5 then (k.seqs.get q).ret.find? fun x => x.regs.contains r
  else match NMap.get? k.wrote (sharedKey r) with
    | none => none
    | some n => (k.seqs.toList.flatMap (·.ret)).find? fun x => x.no == n && x.regs.contains r
/-- The queues that an instruction takes an entry of as it issues: those of its fields, and the one that it names. -/
def queuesTaken (i : Instr) : List Nat :=
  let row (n : BitVec 5) : List Nat := if 8 ≤ n.toNat && n.toNat < 16 then [n.toNat] else []
  ((Instr.srcFields i).filter fQueue).map (fun x => (fQ x).val) ++ (match i with
    | .qpop f | .strow f | .stword f | .strc f | .scatter f | .rstore f => [(qOf f).val]
    | .bqz f | .bqnz f => [f.c.toNat]
    | .vpop f => row f.a
    | _ => [])
/-- A queue entry whose word or header cannot be read. -/
def QSlot.lost (x : QSlot) : QSlot :=
  match x with
  | .word _ t => .word badWord t
  | .row r t => .row (poisonedRow (lo32 r.hdr)) t
  | .resv n => .resv n
/-- The head of a queue turns out wrong as an instruction is about to take it (R384). DESIGN CHOICE (log 104): a sequencer that takes an
uncorrectable one takes the fill word or a poisoned row, and the error is as that of a load (R122, R159, R394). -/
def State.queueError (s : State) (w : Who) (n : Fin 16) : State :=
  match (s.queue w n).ents with
  | [] => s
  | x :: xs => (s.modQ w n fun q => { q with ents := x.lost :: xs }).notes w 0
/-- PARITY_REPAIR (R330): a sequencer that is about to issue meets a parity error in a register that its instruction reads. The
register's last writer, when it is retained with good captures, executes again: the sequencer stalls for that instruction's latency
and 6 cycles, and no slot passes on X. Else the read raises UncorrectableData with the register in ADDR, and the error is reported
(R393). File 7 is that of the queues, whose code corrects an error or finds it uncorrectable (R384). -/
def execParityRepair (c : CoreId) (b : BankId) (q : SeqId) (file index : Nat) (captureOk : Bool) (s : State) : Out :=
  let w : Who := ⟨c, b, q, 0⟩
  match s.turnOf c b q with
  | .run i _ =>
    if file = 7 then
      if captureOk || 4096 ≤ s.evWaiting || !(queuesTaken i).contains index || (s.queue w ⟨index % 16, by omega⟩).ready s.now = 0 then .next s
      else .next (s.queueError w ⟨index % 16, by omega⟩)
    else if !(s.regsRead w i).contains (file, index) then .next s
    else match (s.bank w).lastWriter q (file, index), captureOk with
      | some r, true =>
        let (n, s) := r.latency s
        .next ((s.modSeq w fun x => { x with hold := s.now + n + 6 }).modBank w fun x => { x with prcnt := x.prcnt + 1 }.count 15 1)
      | _, _ =>
        let t : TrapInfo := { cause := cUncorr, addr := BitVec.ofNat 64 (file * 256 + index) }
        if 4096 ≤ s.evWaiting || s.trapWaits w t then .next s
        else .next ({ s.consumed w 0 c.val 0 with cur := w }.trapped t)
  | _ => .next s

end Sys2Proof.Machine
end

