-- ==== Sys2Proof/Machine/StoreSide.lean ====
section
/-! DEFINITION. The store sequencer's instructions (R210-R219) as S issues them: row and word stores, scatters, counted rows,
remote stores and atomics, output streams. -/
namespace Sys2Proof.Machine

/-! ## What they share (R210) -/

/-- The scope of a release that the extension word asks for (R210). -/
def sideRel (e : Option W32) : Option Nat :=
  match e with
  | some e => if e.getLsbD 28 then some (scopeOf e) else none
  | none => none
/-- OFF16. -/
def sideOff (e : Option W32) : W64 :=
  match e with
  | some e => (BitVec.ofNat 16 (fld e 15 0)).signExtend 64
  | none => 0
/-- Whether a release at a scope has open combine buffers to send first (R216). -/
def State.mustFlush (s : State) (scope : Option Nat) : Bool := 3 ≤ scope.getD 0 && (s.core s.cur.c).bufs != []
/-- The row at the head of a row queue of which S is the consumer; the fields that name scalar sources are checked before the wait
for it (R90, R210). -/
def sideRow (f : FQ) (srcs : List (BitVec 6)) : Act Row := do
  need (8 ≤ f.q.toNat) cQueue
  popOk (qOf f)
  allOk srcOk srcs
  let rs ← popRows (qOf f) 1
  pure (rs.headD ⟨0, 0⟩)
/-- LEN of R211 and R215. -/
def lenOf (f : FQ) : Nat := 256 / 2 ^ fld f.f 2 1
/-- ea of R211: with T, the row that the tag names. -/
def rowEa (f : FQ) (vs : List W64) (tag : W64) : W64 :=
  let ea := nthV vs 0 + sideOff f.e
  if f.f.getLsbD 0 then ea + BitVec.ofNat 64 (256 * (lo32 tag - lo32 (nthV vs 1)).toNat) else ea
/-- The fields of sources a and, with T or RT, b. -/
def sideFields (f : FQ) : List (BitVec 6) := if f.f.getLsbD 0 then [f.a, f.b] else [f.a]

/-- The locations of `n` bytes at an address, in pieces by row. -/
def sideLocate (ea : W64) (n kind : Nat) : Act (List (Nat × Nat)) := locateRows.pieces kind (rowSplit ea.toNat n)
/-- A store of S is checked: watchpoints, the race rule, room in the store buffer (R258, R275, R416). -/
def sideChecks (ea : W64) (n : Nat) (ls : List (Nat × Nat)) : Act Unit := do
  watch ea n false true
  let s ← get
  needAt (!(ls.any fun x => s.race (s.agent s.cur.agent).view s.cur.idx x.1)) cMemModel ea
  if s.sbFull s.cur.agent then hold 14
/-- One indivisible store of S of bytes at located pieces. -/
def State.sideEnt (s : State) (ls : List (Nat × Nat)) (bs : List Byte) (rel : Option Nat) : Todo :=
  let parts := match ls with
    | [(a, n), (b, _)] => bytesParts a (bs.take n) ++ bytesParts b (bs.drop n)
    | (a, _) :: _ => bytesParts a bs
    | [] => []
  { ent := { s.seqEnt parts with rel := rel.isSome, scope := rel.getD 0 } }
/-- A release takes the next interval (R268). -/
def sideRelease (rel : Option Nat) : Act Unit :=
  match rel with
  | some _ => modify fun s => s.addIval s.cur 1
  | none => pure ()
/-- A store instruction of S: its checks give the stores; a release at `.mod` or `.span` sends the open combine buffers first
(R216). -/
def sideStores (f : FQ) (checks : Act (List Todo)) : Act Flow :=
  flushFirst ((sideRel f.e).getD 0) (storing checks (sideRelease (sideRel f.e)))

/-! ## `strow`, `stword`, `scatter`, `strc` -/

/-- `strow` (R211). -/
def execStrow (f : FQ) (s : State) : Out := issue (.strow f) s do
  sideStores f do
    let r ← sideRow f (sideFields f)
    let vs ← sources none (sideFields f) []
    let ea := rowEa f vs r.hdr
    classOk ea
    needAt (fld ea 2 0 == 0) cMisaligned ea
    let ls ← sideLocate ea (lenOf f) 1
    sideChecks ea (lenOf f) ls
    let s ← get
    pure [s.sideEnt ls ((payBytes r.pay).take (lenOf f)) (sideRel f.e)]
/-- Pops `n` words of a word queue, or holds until they are present (R212). -/
def popWords (q : Fin 16) (n : Nat) : Act (List W64) := do
  let rs ← popRows q n
  pure (rs.map (·.hdr))
/-- The pieces of `n` words at an address. -/
def locateWords (ea : W64) : Nat → Act (List (List (Nat × Nat)))
  | 0 => pure []
  | n + 1 => do
    let ls ← locateWords ea n
    let l ← locate (ea + BitVec.ofNat 64 (8 * n)) 8 1
    pure (ls ++ [[(l, 8)]])
/-- `stword` (R212). DESIGN CHOICE (log 101): where field a names the queue of the stored words, its word is popped after them. -/
def execStword (f : FQ) (s : State) : Out := issue (.stword f) s do
  sideStores f do
    let n := f.f.toNat + 1
    need (f.q.toNat < 8) cQueue
    popOk (qOf f)
    allOk srcOk [f.a]
    let ws ← popWords (qOf f) n
    let vs ← sources none [f.a] []
    let ea := nthV vs 0 + sideOff f.e
    let ls ← locateWords ea n
    sideChecks ea (8 * n) ls.flatten
    let s ← get
    pure ((ws.zip ls).map fun x => s.sideEnt x.2 (leBytes 8 x.1.toNat) (sideRel f.e))

/-- Reads one index as a load of S (R213): none where it meets an uncorrectable error. -/
def readIndex (ea : W64) : Act (Option Nat) := do
  let l ← locate ea 4 0
  watch ea 4 true false
  let s ← get
  if s.poisoned l 4 then do
    raceCheck l ea
    needAt (!s.rowSnuffed l) cOverrun ea
    noteUnc l
    pure none
  else do
    let v ← loadAt l 4 ea false none
    pure (some v.toNat)
def readIndices (ea : W64) : Nat → Act (List (Option Nat))
  | 0 => pure []
  | n + 1 => do
    let xs ← readIndices ea n
    let x ← readIndex (ea + BitVec.ofNat 64 (4 * n))
    pure (xs ++ [x])
/-- The elements that a scatter writes, in ascending order: element number, address, location (R213). -/
def scatterPlan (a : W64) (el : Nat) : List (Option Nat) → Nat → Act (List (Nat × W64 × Nat))
  | [], _ => pure []
  | x :: xs, k =>
    match x.filter (· != 0xFFFFFFFF) with
    | none => scatterPlan a el xs (k + 1)
    | some i => do
      let ea := a + BitVec.ofNat 64 (el * i)
      let l ← locate ea el 1
      let rest ← scatterPlan a el xs (k + 1)
      pure ((k, ea, l) :: rest)
def scatterChecks (el : Nat) : List (Nat × W64 × Nat) → Act Unit
  | [] => pure ()
  | (_, ea, l) :: rest => do
    sideChecks ea el [(l, el)]
    scatterChecks el rest
/-- The elements of a scatter's row: their bytes and their number (R213). -/
def scatterEl (f : FQ) : Nat := if f.f.getLsbD 0 then 8 else 4
def scatterN (f : FQ) : Nat :=
  let nel := match f.e with
    | some e => fld e 22 16
    | none => 0
  if nel = 0 then 256 / scatterEl f else nel
/-- `scatter` (R213): every check precedes the pop and the first write. -/
def execScatter (f : FQ) (s : State) : Out := issue (.scatter f) s do
  sideStores f do
    let r ← sideRow f [f.a, f.b]
    let vs ← sources none [f.a, f.b] []
    let el := scatterEl f
    needAt ((nthV vs 0).toNat % el == 0) cMisaligned (nthV vs 0)
    let xs ← readIndices (nthV vs 1) (scatterN f)
    let plan ← scatterPlan (nthV vs 0) el xs 0
    scatterChecks el plan
    let s ← get
    pure (plan.map fun x => s.sideEnt [(x.2.2, el)] (((payBytes r.pay).drop (el * x.1)).take el) (sideRel f.e))
/-- `strc` (R214). -/
def execStrc (f : FQ) (s : State) : Out := issue (.strc f) s do
  sideStores f do
    let r ← sideRow f (sideFields f)
    let vs ← sources none (sideFields f) []
    let rc := match f.e with
      | some e => fld e 23 16
      | none => 1
    let ea := rowEa f vs r.hdr
    classOk ea
    needAt (fld ea 7 0 == 0) cMisaligned ea
    let ls ← sideLocate ea 256 5
    sideChecks ea 256 ls
    let rid ← newRid
    let s ← get
    let x := s.sideEnt ls (payBytes r.pay) (sideRel f.e)
    pure [{ x with ent := { x.ent with fill := some (rc, (s.bank s.cur).owner), instrNo := rid, va := ea } }]

/-! ## The remote port (R215-R217, R222) -/

/-- NODE of an extension word. -/
def nodeOf (e : Option W32) : BitVec 16 :=
  match e with
  | some e => BitVec.ofNat 16 (fld e 15 0)
  | none => 0xFFFF
/-- A node number that names the issuing module (R375). -/
def isOwn (n : BitVec 16) : Bool := n == 0xFFFF || n == Config.ownNode
/-- The launch addresses of a node (R376). -/
def launchBase : Nat := 0x01FFFFFFFFF00000
def isLaunch (a : W64) : Bool := launchBase ≤ a.toNat && a.toNat < launchBase + 8 * 4096

/-- The words of a block that a byte mask touches. -/
def maskWords (addr : Nat) (mask : BitVec 256) : List Nat :=
  ((List.range 32).filter fun i => fld mask (8 * i + 7) (8 * i) != 0).map fun i => addr / 8 + i
/-- The bytes of S's rows that its port still holds or has sent (R215): their words on this module. -/
def State.rowWords (s : State) (w : Who) : List Nat :=
  let k := s.core w.c
  (k.bufs.filter fun b => b.node == 0xFFFF && s.ours w b.who).flatMap (fun b => maskWords (256 * b.block) b.mask) ++
  (k.reqs.filter fun r => !r.atomic && r.node == 0xFFFF && s.ours w r.who).flatMap (fun r => maskWords r.addr r.mask)
/-- What a release of S in the port waits for (R215). -/
def State.relHold (s : State) (w : Who) (scope : Nat) : RelHold :=
  ⟨scope, s.ownView w, (s.mine w.agent).flatMap (fun e => e.parts.map (·.word)) ++ s.rowWords w, (s.agent w.agent).next⟩

/-- The mask of `n` bytes from byte `o` of a block. -/
def blockMask (o n : Nat) : BitVec 256 := BitVec.ofNat 256 ((2 ^ n - 1) * 2 ^ o)
/-- A row in its place of a block. -/
def blockData (o n : Nat) (p : Payload) : Payload := BitVec.ofNat 2048 (p.toNat % 2 ^ (8 * n) * 2 ^ (8 * o))
/-- The bytes of a block that a mask names. -/
def byteBits (m : BitVec 256) : Payload :=
  BitVec.ofNat 2048 ((List.range 256).foldl (fun acc i => if m.getLsbD i then acc + 255 * 2 ^ (8 * i) else acc) 0)
/-- Merges bytes into a buffer: later bytes replace earlier ones (R216). -/
def CBuf.merge (b : CBuf) (mask : BitVec 256) (data : Payload) (now : Nat) (view : View) (iv : W32) : CBuf :=
  { b with
    mask := b.mask ||| mask
    data := (b.data &&& ~~~ (byteBits mask)) ||| data
    merged := now, view := view, iv := iv }

/-- A row enters the port (R216): it merges into the open buffer of its block, or opens one, the oldest of sixteen being sent;
a whole buffer is sent at once. -/
def State.rowMerge (s : State) (w : Who) (ctx : BitVec 12) (node : BitVec 16) (addr n : Nat) (p : Payload) : State :=
  let (nth, s) := s.accept w 3
  let o := addr % 256
  let mask := blockMask o n
  let data := blockData o n p
  let view := s.ownView w
  let iv := s.ival w
  let i := (s.core w.c).bufs.findIdx? fun b => b.node == node && b.block == addr / 256 && s.ours w b.who
  let (i, s) := match i with
    | some i => (i, s.modCore w.c fun k => { k with bufs := k.bufs.modify i fun b => b.merge mask data s.now view iv })
    | none =>
      let s := if 16 ≤ (s.core w.c).bufs.length then s.sendBuf w.c 0 else s
      ((s.core w.c).bufs.length, s.modCore w.c fun k =>
        { k with
          bufs := k.bufs ++ [CBuf.mk node (addr / 256) mask data s.now k.nextId w ctx view iv nth]
          nextId := k.nextId + 1 })
  match (s.core w.c).bufs[i]? with
  | some b => if b.mask == BitVec.allOnes 256 then s.sendBuf w.c i else s
  | none => s
/-- A request of S enters the port by itself: a release row, a launch, an atomic. -/
def State.portReq (s : State) (w : Who) (r : Req) : State :=
  let (nth, s) := s.accept w 3
  let r := { r with nth := nth, id := (s.core w.c).nextId, who := w, view := s.ownView w, iv := s.ival w, since := s.tb }
  let s := (s.addReq w.c r).modCore w.c fun k => { k with nextId := k.nextId + 1 }
  if r.rel.isSome then s.addIval w 1 else s

/-- The header word of a replica table, read as an acquire by the port in a cycle: in the cycle of a flip the old bank is still
current (R284); after a flip the port has no entry of before (R283). -/
def State.headWord (s : State) (a k : Nat) : W64 × State :=
  let flip := (NMap.get? s.ctxs s.myCtx.toNat).bind fun x => x.flipped.map fun f => (f, x)
  match flip with
  | some ((t, old), x) =>
    let view := if t = s.now then x.flipPrev else x.flipView
    if t = s.now then (old, s.modAgent a fun g => { g with view := g.view.join view })
    else (s.word k, (s.takeWords a k 1 (some 3)).modAgent a fun g => { g with view := g.view.join view })
  | none => (s.word k, s.takeWords a k 1 (some 3))
/-- A word of the replica table, read by the port (R283): the header as an acquire, entries as relaxed loads. -/
def tableWord (va : W64) (acq : Bool) : Act W64 := do
  let l ← translate va 0
  let s ← get
  let a := engAgent s.cur.c 3
  if s.stalledHome l || !s.carries (dieOf s.cur.c) (homeDie l) l then hold 13
  if s.poisoned l 8 then do
    noteUnc l
    pure badWord
  else do
    let (v, t) := if acq then s.headWord a (l / 8) else s.load a (l / 8) 0xFF none
    set t
    pure v
/-- The destination of an expert's slot (R280-R282). -/
def resolveExpert (e slot : Nat) : Act (BitVec 16 × W64) := do
  let s ← get
  match s.replicaOf s.myCtx with
  | none => raise cAccess
  | some (base, _) => do
    let h ← tableWord base true
    need (e < fld h 31 16) cAccess
    let at_ := base + BitVec.ofNat 64 (64 + 64 * (fld h 0 0 * fld h 31 16 + e))
    let w ← tableWord at_ false
    let n := fld w 33 32
    let slots := fld w 31 0
    need (w.getLsbD 63 && n != 0 && slots != 0 && slot / n < slots) cAccess
    let b ← tableWord (at_ + BitVec.ofNat 64 (16 + 16 * (slot % n))) false
    let node ← tableWord (at_ + BitVec.ofNat 64 (24 + 16 * (slot % n))) false
    pure (BitVec.ofNat 16 (fld node 15 0), b + BitVec.ofNat 64 (256 * (slot / n)))
/-- Room in the port for `n` more requests (R222). -/
def portRoom (n : Nat) : Act Unit := do
  let s ← get
  if !(s.core s.cur.c).portRoom n then hold 6 3
/-- The buffers that a row sends as it enters the port (R216): the oldest, where it opens a seventeenth, and its own, once whole. -/
def State.rowNeed (s : State) (w : Who) (node : BitVec 16) (addr n : Nat) : Nat :=
  match (s.core w.c).bufs.find? fun b => b.node == node && b.block == addr / 256 && s.ours w b.who with
  | some b => if b.mask ||| blockMask (addr % 256) n == BitVec.allOnes 256 then 1 else 0
  | none => (if 16 ≤ (s.core w.c).bufs.length then 1 else 0) + (if n = 256 then 1 else 0)

/-- Sends a row to a node's address (R215, R216, R376). A release at `.mod` or `.span`, which a launch is, first sends the open
combine buffers of the state `s0` at which the instruction stood. -/
def rowSend (s0 : State) (node : BitVec 16) (a : W64) (n : Nat) (p : Payload) (rel : Option Nat) : Act Flow := do
  let own := isOwn node
  let launch := isLaunch a
  if own && !launch then classOk a
  needAt (a.toNat % n == 0) cMisaligned a
  let l ← (if own && !launch then locate a n 1 else pure a.toNat : Act Nat)
  let node : BitVec 16 := if own then 0xFFFF else node
  let rel := if launch then some 4 else rel
  let s ← get
  match rel with
  | none => do
    portRoom (s.rowNeed s.me node l n)
    set (s.rowMerge s.me s.myCtx node l n p)
    pure .next
  | some t =>
    if s0.mustFlush (some t) then do
      set (s0.flushPort s0.cur.c)
      pure (.again 13)
    else do
      portRoom 1
      let r : Req :=
        { id := 0, who := s.me, ctx := s.myCtx, node := node
          dst := if launch && own then (l - launchBase) / 4096 else dstOf own node l
          atomic := false, addr := l / 256 * 256, mask := blockMask (l % 256) n, data := blockData (l % 256) n p
          rel := some (s.relHold s.cur t) }
      set (s.portReq s.me r)
      pure .next
/-- `rstore` (R215): a row that names an expert, or an address of a node. -/
def execRstore (f : FQ) (s : State) : Out := issue (.rstore f) s do
  let s0 ← get
  let r ← sideRow f (sideFields f)
  let vs ← sources none (sideFields f) []
  if f.f.getLsbD 0 then do
    let (node, a) ← resolveExpert (fld (nthV vs 0) 15 0) (fld (nthV vs 1) 31 0)
    rowSend s0 node a (lenOf f) r.pay (sideRel f.e)
  else rowSend s0 (nodeOf f.e) (nthV vs 0) (lenOf f) r.pay (sideRel f.e)

/-- NR of R217: no value comes back. -/
def ratomNr (f : FQ) : Bool :=
  match f.e with
  | some e => e.getLsbD 27
  | none => false
/-- `ratom` (R217): S does not wait for the reply, which lands in the slot reserved here. -/
def execRatom (f : FQ) (s : State) : Out := issue (.ratom f) s do
  flushFirst ((sideRel f.e).getD 0) do
    let nr := ratomNr f
    if !nr then do
      need (f.q.toNat < 8) cQueue
      pushOk (qOf f)
    let vs ← sources none [f.a, f.b] []
    portRoom 1
    let w32 := f.f.getLsbD 3
    let n := if w32 then 4 else 8
    let a := nthV vs 0
    let own := isOwn (nodeOf f.e)
    if own then classOk a
    needAt (a.toNat % n == 0) cMisaligned a
    let l ← (if own then locate a n 3 else pure a.toNat : Act Nat)
    let rid ← (if nr then pure 0 else reserve (qOf f) 1 : Act Nat)
    let s ← get
    let r : Req :=
      { id := 0, who := s.me, ctx := s.myCtx, node := if own then 0xFFFF else nodeOf f.e
        dst := dstOf own (nodeOf f.e) l, atomic := true, op := ⟨fld f.f 2 0 % 5, by omega⟩, w32 := w32, nr := nr
        q := qOf f, rid := rid, addr := l, y := nthV vs 1, rel := (sideRel f.e).map (s.relHold s.cur) }
    set (s.portReq s.me r)
    pure .next

/-! ## Output streams (R218, R219) -/

/-- `obind` (R218). -/
def execObind (f : FQ) (s : State) : Out := issueLim (.obind f) s (sdescLimits f) do
  popOk (qOf f)
  let fm := cmdForm f.e
  allOk srcOk [f.a]
  flagsOk [fm.cfl, fm.after]
  let vs ← sources none [f.a] []
  let ws ← loadWords (nthV vs 0) 8
  let d := sdescOf ws
  sdescOk d (f.q.toNat < 8)
  let s ← get
  let _ ← placeCmd fm.after true
    { i := .obind f, who := s.me, ctx := s.myCtx, cfl := fm.cfl, kind := .ostream (kOf f) (qOf f) d }
  modify fun s => s.modBank s.cur fun k =>
    if (k.ostream.get (kOf f)).st = 1 then k else { k with ostream := vset k.ostream (kOf f) { st := 1, q := qOf f } }
  pure .next
/-- Whether an output stream of a bank's task is still running. -/
def State.ostreamRuns (s : State) (w : Who) (k : Fin 8) : Bool :=
  (s.core w.c).outRun.any fun r => s.ours w r.cmd.who && (match r.cmd.kind with
    | .ostream j _ _ => j == k
    | _ => false)
/-- `ostop` (R219): S waits until the stream has stopped, unless the command has parked. -/
def execOstop (f : FQ) (s : State) : Out := issue (.ostop f) s do
  let fm := cmdForm f.e
  flagsOk [fm.after]
  let s ← get
  match (s.sq s.cur).waitCmd with
  | some (n, _) => do
    if (s.core s.cur.c).outFifo.any (·.id == n) || s.ostreamRuns s.cur (kOf f) then hold 8 2
    set s.waitOver
    pure .next
  | none => do
    let n := (s.core s.cur.c).nextId
    let parked ← placeCmd fm.after true { i := .ostop f, who := s.me, ctx := s.myCtx, kind := .ostop (kOf f) }
    if parked then pure .next
    else do
      modify (·.waitFor n)
      pure (.again 8)

end Sys2Proof.Machine
end

