-- ==== Sys2Proof/Machine/OutStream.lean ====
section
/-! DEFINITION. The output stream engine (R218, R219): OSTREAM_ELEMENT_WRITE. -/
namespace Sys2Proof.Machine

/-- The output stream engine as it acts for a run. -/
def Run.outEng (r : Run) : Eng := { r.cmd.outEng with refused := r.refused }
def State.modOut (s : State) (c : CoreId) (id : Nat) (f : Run → Run) : State :=
  s.modCore c fun k => { k with outRun := k.outRun.map fun r => if r.cmd.id = id then f r else r }
def State.dropOut (s : State) (c : CoreId) (id : Nat) : State :=
  s.modCore c fun k => { k with outRun := k.outRun.filter fun r => r.cmd.id != id }
def State.modOstream (s : State) (w : Who) (k : Fin 8) (f : StreamSt → StreamSt) : State :=
  if s.alive w then s.modBank w fun b => { b with ostream := vset b.ostream k (f (b.ostream.get k)) } else s
def CKind.isOut (x : CKind) (k : Fin 8) : Bool :=
  match x with
  | .ostream j _ _ => j == k
  | .ostop j => j == k
  | _ => false
/-- A run waits for a page (R351). -/
def State.outFault (s : State) (r : Run) (va pf : W64) : State :=
  let (tok, s) := s.postFault r.outEng va pf
  s.modOut r.cmd.who.c r.cmd.id fun r => { r with tok := tok.map fun t => (t, va) }
/-- A command ends by a failure (R143), and its stream's status says so (R147, R218). -/
def State.outFail (s : State) (c : ECmd) (cause : Byte) (va : W64) : State :=
  let (code, s) := s.outCode false
  let s := match c.kind with
    | .ostream k _ _ => s.modOstream c.who k fun x => { x with st := 3, fail := true }
    | _ => s
  s.engEnd c.who 2 c.nth cause va code
def State.outEnd (s : State) (r : Run) (cause : Byte) (va : W64) : State :=
  (s.outFail r.cmd cause va).dropOut r.cmd.who.c r.cmd.id
/-- A run is over (R218, R219): its flag, and its status done or stopped. -/
def State.outDone (s : State) (r : Run) : State :=
  let (code, s) := s.outCode (r.far != [])
  let k : Fin 8 := match r.cmd.kind with
    | .ostream k _ _ => k
    | _ => 0
  ((s.modOstream r.cmd.who k fun x => { x with st := if r.stop then 3 else 2 }).engDone r.cmd.who r.cmd.cfl
    (engAgent r.cmd.who.c 2) code).dropOut r.cmd.who.c r.cmd.id

/-- The bytes that an element stores: a word's low EL, a row's first EL (R218). -/
def QSlot.stored (x : QSlot) (el : Nat) : List Byte :=
  match x with
  | .word v _ => leBytes el v.toNat
  | .row r _ => (payBytes r.pay).take el
  | .resv _ => leBytes el 0
/-- Writes the oldest element that has been popped; one that a replay writes again counts once (R391). -/
def State.outWrite (s : State) (r : Run) (k : Fin 8) (q : Fin 16) (d : SDesc) (h : Held) : State :=
  match s.engWrite r.outEng (d.point r.cnts r.pos) (h.slot.stored d.el) (8 ≤ q.val) (r.cmd.ref 2) with
  | (.error .later, s) => s
  | (.error (.fault va pf), s) => s.outFault r va pf
  | (.error (.fail cause va), s) => s.outEnd r cause va
  | (.ok l, s) =>
    (s.modOut r.cmd.who.c r.cmd.id fun x =>
      { x with
        held := x.held.drop 1, pos := x.pos + 1, refused := none, wrote := x.wrote ++ [h]
        far := x.farWith l }).modOstream r.cmd.who k fun x =>
      { x with pushed := if r.pos < r.top then x.pushed else x.pushed + 1 }
/-- Whether a queue still has the sequencer that issued a command as its consumer (R63); else the pop is QueueProtocol, as for a push
(log 94). -/
def State.popsFor (s : State) (w : Who) (q : Fin 16) : Bool :=
  let m := (s.bank w).qmap
  prodOf m q != consOf m q && consOf m q == w.q.val
/-- One step of a started output stream: it resolves its counts, pops, writes, or is done. -/
def State.outStep (s : State) (r : Run) (k : Fin 8) (q : Fin 16) (d : SDesc) : State :=
  if r.tok.isSome then s
  else if !r.ready then
    if s.halts r.cmd.who then s
    else match s.resolve r.outEng d (List.finRange 4) with
    | (.ok ns, s) => s.modOut r.cmd.who.c r.cmd.id fun x =>
        { x with ready := true, cnts := Vector.ofFn fun i => ns.getD i.val 0, refused := none }
    | (.error .later, s) => s
    | (.error (.fault va pf), s) => s.outFault r va pf
    | (.error (.fail cause va), s) => s.outEnd r cause va
  else match r.held with
    | h :: _ => s.outWrite r k q d h
    | [] =>
      if r.stop || points r.cnts ≤ r.pos then
        s.runHomes r 2 (fun s f => s.modOut r.cmd.who.c r.cmd.id f) fun s => s.outDone r
      else if s.halts r.cmd.who then s
      else if s.alive r.cmd.who && !s.popsFor r.cmd.who q then s.outEnd r cQueue 0
      else if s.alive r.cmd.who && (s.queue r.cmd.who q).ready s.now != 0 then
        match (s.queue r.cmd.who q).ents with
        | [] => s
        | x :: _ => (s.modQ r.cmd.who q (·.drop 1)).modOut r.cmd.who.c r.cmd.id fun y => { y with held := [⟨x, false, false, 0⟩] }
      else s
/-- The head of the FIFO, when it names stream k: a stop, or a bind once a running stream k has been stopped (R218). -/
def State.outStart (s : State) (c : CoreId) (x : ECmd) (k : Fin 8) : State :=
  let run := (s.core c).outRun.find? fun r => r.cmd.kind.isOut k && r.cmd.who.b == x.who.b && r.cmd.who.t == x.who.t
  let stopped (s : State) : State := match run with
    | some r => s.modOut c r.cmd.id fun y => { y with stop := true }
    | none => s
  let take (s : State) : State :=
    (s.modCore c fun k => { k with outFifo := k.outFifo.drop 1 }).engStart (engAgent c 2) x.view
  match x.kind, run with
  | .ostop _, _ => stopped (take s)
  | .ostream _ _ _, some _ => stopped s
  | .ostream _ q _, none =>
    let s := (take s).modOstream x.who k fun _ => { st := 1, q := q }
    s.modCore c fun k => { k with outRun := k.outRun ++ [{ cmd := x }] }
  | _, _ => take s
/-- OSTREAM_ELEMENT_WRITE (R218): a step of stream k: a command at the head of the FIFO starts, or a started stream goes on, an
open choice. Commands of a task that is being stopped do not start (R332). -/
def execOstreamElementWrite (c : CoreId) (k : Fin 8) (s : State) : Out :=
  let rs := (s.core c).outRun.filter fun r => r.cmd.kind.isOut k
  let head := match (s.core c).outFifo with
    | x :: _ => if x.kind.isOut k && !(s.alive x.who && (s.bank x.who).halting) then [x] else []
    | [] => []
  let (i, s) := s.choose (rs.length + head.length)
  match rs[i]?, head with
  | some r, _ => match r.cmd.kind with
    | .ostream _ q d => .next (if (s.core c).engFenced.get 2 then s.outEnd r cUncorr 0 else s.outStep r k q d)
    | _ => .next s
  | none, x :: _ =>
    if (s.core c).engFenced.get 2 then
      .next ((s.modCore c fun k => { k with outFifo := k.outFifo.drop 1 }).outFail x cUncorr 0)
    else .next (s.outStart c x k)
  | none, [] => .next s

end Sys2Proof.Machine
end

