-- ==== Sys2Proof/Machine/Remote.lean ====
section
/-! DEFINITION. The remote port and the die links in motion (R215-R217, R222, R368-R379): requests leave in their order, cross
the modules as numbered flits, are applied once at their homes, and are answered or given up. -/
namespace Sys2Proof.Machine

/-! ## Leaving the port -/

/-- What a release in the port waits for (R215): S's own earlier writes, rows and atomics. -/
def State.relReady (s : State) (r : Req) (h : RelHold) : Bool :=
  (s.mine r.who.agent).all (fun e => h.seq ≤ e.seq) && !s.rowsBefore r.who r.id &&
  (s.core r.who.c).reqs.all fun x => !(x.atomic && x.st < 2 && x.who.b == r.who.b && x.who.t == r.who.t && x.id < r.id)
/-- Whether a held request may leave: its release is ready, nothing of its block is ahead of it, a combine buffer that an
atomic follows has been sent, and for a peer a port has room (R375). -/
def State.mayLeave (s : State) (c : CoreId) (r : Req) : Bool :=
  (match r.rel with
    | some h => s.relReady r h
    | none => true) &&
  (s.core c).reqs.all (fun x => !(x.st == 0 && x.id < r.id && x.dst == r.dst && x.addr / 256 == r.addr / 256)) &&
  (!r.atomic || (s.core c).bufs.all fun b => !(b.node == r.node && b.block == r.addr / 256 && b.id < r.id)) &&
  (r.dst < 8 || match s.portFor r.node r.addr with
    | some p => (s.ulnex p).buf.length < portBuf
    | none => false)
/-- A floor of S's view for each word of its own earlier writes, as they have performed (R268). -/
def State.floorsOf (s : State) (a : Nat) (ws : List Nat) : NMap Nat :=
  ws.foldl (fun m w => NMap.put m w ((s.agent a).view.floor w)) []
/-- A request leaves: it takes the next RSEQ of its destination (R372), and a release the view it carries (R268). -/
def State.leave (s : State) (c : CoreId) (r : Req) : State :=
  let n := (NMap.get? (s.core c).rseq r.dst).getD 0 + 1
  let rel := r.rel.map fun h =>
    { h with view := if s.alive r.who then h.view.join { fl := s.floorsOf r.who.agent h.words } else h.view }
  let s := if 8 ≤ r.dst then s.count r.who 10 1 else s
  let s := match (if 8 ≤ r.dst then s.portFor r.node r.addr else none) with
    | some p => s.portSend p c.val r.id
    | none => s
  s.modCore c fun k =>
    { k with
      rseq := NMap.put k.rseq r.dst n
      reqs := k.reqs.map fun x =>
        if x.id = r.id then { x with st := 1, rseq := n, place := some (dieOf c).val, rel := rel, since := s.tb } else x }

/-- The bytes of a request's write, from its first masked byte. -/
def Req.bytes (r : Req) : List Byte :=
  ((payBytes r.data).zipIdx.filter fun x => r.mask.getLsbD x.2).map (·.1)
/-- The number of its first masked byte. -/
def Req.first (r : Req) : Nat := ((List.range 256).find? fun i => r.mask.getLsbD i).getD 0
def Req.ea (r : Req) : W64 := BitVec.ofNat 64 (r.addr + if r.atomic then 0 else r.first)
/-- A cause of a request reaches C of its issuer, and is recorded of the port (R215, R217, R329, R373). -/
def State.portFails (s : State) (r : Req) (cause : Byte) : State :=
  s.engEnd r.who 3 r.nth cause r.ea (engCode r.who.c 3)
/-- A request is over: its entry of the port is free. -/
def State.dropReq (s : State) (c : CoreId) (id : Nat) : State :=
  (s.portFree c.val id).modCore c fun k => { k with reqs := k.reqs.filter fun x => x.id != id }
/-- A reply lands in its reserved slot (R217). -/
def State.landReply (s : State) (r : Req) (v : W64) : State :=
  let s := if r.nr || !s.alive r.who then s else s.modQ r.who r.q (·.fillResv r.rid (.word v s.now))
  s.dropReq r.who.c r.id
/-- Every request of a core that may leave does so, oldest first; in a fenced port a row or atomic ends with UncorrectableData
(R386). -/
def State.leaveAll (s : State) (c : CoreId) : State :=
  (s.core c).reqs.foldl (fun s r =>
    if r.st != 0 || !s.mayLeave c r then s
    else if (s.core c).engFenced.get 3 then
      let s := s.portFails r cUncorr
      if r.atomic then s.landReply r badWord else s.dropReq c r.id
    else s.leave c r) s

/-- COMBINE_FLUSH_TIMEOUT (R216 case 2): a buffer of the core 64 cycles after its last merge. -/
def execCombineFlushTimeout (c : CoreId) (s : State) : Out :=
  match (s.core c).bufs.findIdx? fun b => b.merged + 64 ≤ s.now with
  | none => .next s
  | some i => .next (s.sendBuf c i)

/-! ## Applying at the home -/

/-- The parts of a masked write of a block (R216). -/
def maskParts (addr : Nat) (mask : BitVec 256) (data : Payload) : List WPart :=
  ((List.range 32).map fun i =>
    { word := addr / 8 + i, mask := BitVec.ofNat 8 (fld mask (8 * i + 7) (8 * i))
      data := BitVec.ofNat 64 (data.toNat / 2 ^ (64 * i)) : WPart }).filter (·.mask != 0)
/-- The new value of a remote atomic (R123, R217). -/
def atomOp (op : Fin 5) (old y : W64) : W64 :=
  match op with
  | 0 => old + y
  | 1 => y
  | 2 => old &&& y
  | 3 => old ||| y
  | _ => old ^^^ y
/-- Counts a remote access at its home for its issuer (R418). -/
def State.homeTouch (s : State) (w : Who) (l : Nat) : State :=
  if isSp l then s.count w 8 1
  else
    let s := s.count w 6 1
    if (s.bank w).observes 7 then
      let (n, s) := s.choose 9
      s.count w 7 n
    else s
/-- Offers a launch row as a record (R376): any form but 64 bytes at offset 0 is refused with reason 4. -/
def State.offerRow (s : State) (d : DieId) (node : BitVec 16) (addr : W64) (row : List Byte) (view : View) : State :=
  let ws := (List.range 8).map fun i => BitVec.ofNat 64 (leNat ((row.drop (8 * i)).take 8))
  let w := recWords (ws.modify 7 fun x => setFld x 63 48 node.toNat)
  let refuse (n : Nat) : State := s.refuseRec n ((w.get 7).setWidth 32 |>.setWidth 64) ((recCorr w).setWidth 64) addr
  if row.length = 64 && addr.toNat % 4096 = 0 then
    match s.recReason d (.peer node) w with
    | 0 => (s.acceptRec d ((Origin.peer node).key 0) w view addr).2
    | n => refuse n
  else refuse 4
/-- The agent that a core's port is. -/
def Req.agent (r : Req) : Nat := engAgent r.who.c 3
/-- The writer tag of a request's bytes (R275): S's own inside its cluster, that of an outside write elsewhere. -/
def Req.tag (r : Req) : Nat × W32 :=
  if isSp r.addr && spClu r.addr == cluOf r.who.c then (r.who.idx, r.iv) else (0x30, 0)
/-- What a release carries: S's view, at its scope (R265). -/
def Req.carried (r : Req) : List Part :=
  match r.rel with
  | some h => [⟨r.who.agent, h.scope, h.view⟩]
  | none => []
/-- An engine's access by the port breaks the race rule in its own cluster (R275). -/
def State.portRace (s : State) (r : Req) : Bool :=
  (r.tag.1 != 0x30) && s.race r.view r.who.idx r.addr
/-- S sees its own write at its place in the order of the word. -/
def State.ownBy (s : State) (r : Req) (ws : List Nat) : State :=
  if s.alive r.who then ws.foldl (fun s w => s.own r.who.agent w) s else s

/-- A row or a combined write at its home (R216): one write of its masked bytes. -/
def State.applyRow (s : State) (r : Req) : State :=
  let s := s.homeTouch r.who r.addr
  if s.portRace r then s.portFails r cMemModel
  else
    let parts := maskParts r.addr r.mask r.data
    (s.applyEnt { agent := r.agent, parts := parts, carried := r.carried, tagX := r.tag.1, tagK := r.tag.2 }).ownBy r
      (parts.map (·.word))
/-- A remote atomic meets an uncorrectable location at its home: one ErrorReport, of the row or of the cluster that holds it (R393). -/
def State.homeError (s : State) (l : Nat) : State :=
  if isSp l then s.errorReport 2 1 1 (spClu l).val (BitVec.ofNat 64 l) 0 0
  else s.errorReport 4 1 1 ((locDie l).val * 2 ^ 24 + s.hbmRowOf l) (BitVec.ofNat 64 l) 0 0
/-- A remote atomic at its home (R217): its reply and a cause. -/
def State.applyAtom (s : State) (r : Req) : W64 × Option Byte × State :=
  let s := s.homeTouch r.who r.addr
  let n := if r.w32 then 4 else 8
  if s.rowLive r.addr then (badWord, some cAccess, s)
  else if s.rowSnuffed r.addr then (badWord, some cOverrun, s)
  else if s.poisoned r.addr n then (badWord, some cUncorr, s.homeError r.addr)
  else if s.portRace r then (badWord, some cMemModel, s)
  else
    let k := r.addr / 8
    let old := extract (s.word k) (r.addr % 8) n
    let p : WPart :=
      { word := k, mask := byteMask (r.addr % 8) n
        data := BitVec.ofNat 64 ((atomOp r.op old r.y).toNat % 2 ^ (8 * n) * 2 ^ (8 * (r.addr % 8))) }
    (old, none, (s.applyEnt { agent := r.agent, parts := [p], carried := r.carried, tagX := r.tag.1, tagK := r.tag.2 }).ownBy r [k])
/-- Replaces a request of a core. -/
def State.modReq (s : State) (c : CoreId) (id : Nat) (f : Req → Req) : State :=
  s.modCore c fun k => { k with reqs := k.reqs.map fun x => if x.id = id then f x else x }
/-- The key of a source and a destination die (R372). -/
def rseqKey (c : CoreId) (d : Nat) : Nat := c.val * 8 + d
/-- Applies a request of this module at its home, in RSEQ order. -/
def State.applyReq (s : State) (r : Req) : State :=
  let c := r.who.c
  let s := { s with rseqDone := NMap.put s.rseqDone (rseqKey c r.dst) r.rseq }
  if r.node == 0xFFFF && isLaunch (BitVec.ofNat 64 r.addr) then
    let s := s.offerRow ⟨r.dst % 8, by omega⟩ Config.ownNode r.ea r.bytes (match r.rel with
      | some h => h.view
      | none => {})
    s.modReq c r.id fun x => { x with st := 2 }
  else if r.atomic then
    let (v, cause, s) := s.applyAtom r
    let s := match cause with
      | some x => s.portFails r x
      | none => s
    s.modReq c r.id fun x => { x with st := 2, reply := v, cause := cause }
  else (s.applyRow r).modReq c r.id fun x => { x with st := 2 }
/-- The requests of this module that stand at their destination and are the next of their source (R372). -/
def State.arrivals (s : State) : List Req :=
  (List.finRange 512).flatMap fun c =>
    (s.core c).reqs.filter fun r => r.st == 1 && r.dst < 8 && r.place == some r.dst && !s.stalledHome r.addr &&
      r.rseq == (NMap.get? s.rseqDone (rseqKey c r.dst)).getD 0 + 1

/-! ## Requests of peers (R372, R377) -/

/-- The source of a peer's request: an agent of a node (R372). -/
def peerKey (node agent : BitVec 16) : Nat := 4096 + node.toNat * 2 ^ 16 + agent.toNat
def peerId (p : PeerReq) : Nat := peerKey p.node p.agent
/-- The parts and bytes of a peer's write from its address upward, within a block. -/
def peerPlace (p : PeerReq) (pa : Nat) : BitVec 256 × Payload :=
  (BitVec.ofNat 256 (p.mask.toNat * 2 ^ (pa % 256)), BitVec.ofNat 2048 (p.data.toNat * 2 ^ (8 * (pa % 256))))
/-- Where a peer's request acts (R377): admitted by the entry of its context, translated in that context; none where it is refused. -/
def State.peerAt (s : State) (p : PeerReq) : Option Nat × State :=
  let e := s.aclEntry p.ctx.toNat
  if !(e.getLsbD 63 && e.getLsbD 58 && aclNode e p.node) then (none, s)
  else match NMap.get? s.ctxs p.ctx.toNat, classify p.addr with
    -- the walk is the destination's own: its core 0 stands for it
    | some c, .virt va => match walk s (tlbAgent 0 0) va.toNat 4 (fld (c.blk.get 1) 39 12 * 4096) with
      | (.leaf lvl x, s) =>
        if pteOwnH x || !permits x (if p.atomic then 3 else 1) then (none, s)
        else (some (pteAddr x / 2 ^ pageBits lvl * 2 ^ pageBits lvl + va.toNat % 2 ^ pageBits lvl), s)
      | (_, s) => (none, s)
    | _, _ => (none, s)
/-- The parts of a peer's write. -/
def peerParts (p : PeerReq) (pa : Nat) : List WPart :=
  let (mask, data) := peerPlace p pa
  maskParts (pa / 256 * 256) mask data
/-- The words that a peer's request writes. -/
def peerWords (p : PeerReq) (pa : Nat) : List Nat := if p.atomic then [pa / 8] else (peerParts p pa).map (·.word)
/-- The row of a peer's launch, its masked bytes (R376). -/
def peerRow (p : PeerReq) : List Byte := ((payBytes p.data).zipIdx.filter fun x => p.mask.getLsbD x.2).map (·.1)
/-- A peer's request takes effect (R377), or is refused with no effect; a row at a launch address is a launch (R376). A release of the
peer's port carries what its earlier writes here have left in its view (R265). Answers the reply. -/
def State.peerApply (s : State) (p : PeerReq) : W64 × State :=
  let a := peerOf p.node
  if isLaunch p.addr && !p.atomic then
    (0, s.offerRow ⟨(p.addr.toNat - launchBase) / 4096 % 8, by omega⟩ p.node p.addr (peerRow p) (s.agent a).view)
  else match s.peerAt p with
    | (none, s) => (badWord, s)
    | (some pa, s) =>
      let carried : List Part := if p.rel then [⟨a, 4, (s.agent a).view⟩] else []
      let n := if p.w32 then 4 else 8
      if !p.atomic then (0, s.applyEnt { agent := a, parts := peerParts p pa, carried := carried })
      else if pa % n != 0 || s.rowLive pa || s.rowSnuffed pa then (badWord, s)
      else if s.poisoned pa n then (badWord, s.homeError pa)
      else
        let old := extract (s.word (pa / 8)) (pa % 8) n
        let w : WPart :=
          { word := pa / 8, mask := byteMask (pa % 8) n
            data := BitVec.ofNat 64 ((atomOp p.op old (p.data.setWidth 64)).toNat % 2 ^ (8 * n) * 2 ^ (8 * (pa % 8))) }
        (old, s.applyEnt { agent := a, parts := [w], carried := carried })
/-- The holders of a duplicate that a peer's request still waits for (R278). -/
def State.peerHeld (s : State) (p : PeerReq) : Byte :=
  if isLaunch p.addr then 0
  else match s.peerAt p with
    | (some pa, s) => s.heldBy (peerWords p pa)
    | (none, _) => 0
/-- A peer's request is held here. -/
def State.peerHold (s : State) (p : PeerReq) : State :=
  if s.peerReqs.any fun x => peerId x == peerId p && x.rseq == p.rseq then s else { s with peerReqs := s.peerReqs ++ [p] }
/-- A peer's request in RSEQ order (R372): the next one is applied, an earlier one answered from the reply cache, a later one
held. One whose line has duplicates asks their holders, each of which gives it up in its time (R278). -/
def State.peerArrive (s : State) (p : PeerReq) : State :=
  let key := peerId p
  let done := (NMap.get? s.rseqDone key).getD 0
  let old := (NMap.get? s.replies key).getD []
  if p.rseq = done + 1 then
    if s.peerHeld p != 0 then
      let s := s.peerHold p
      match NMap.get? s.peerAsked key with
      | none => { s with peerAsked := NMap.put s.peerAsked key s.tb }
      | some _ =>
        let (d, s) := s.choose 8
        match s.peerAt p with
        | (some pa, _) => s.giveUp (peerWords p pa) (BitVec.ofNat 8 (2 ^ d))
        | (none, _) => s
    else
      let (v, s) := s.peerApply p
      { s with
        rseqDone := NMap.put s.rseqDone key p.rseq
        replies := NMap.put s.replies key (((p.rseq, v) :: old).take 64)
        peerReply := some (key, p.rseq, v)
        peerAsked := NMap.del s.peerAsked key
        peerReqs := s.peerReqs.filter fun x => !(peerId x == key && x.rseq == p.rseq) }
  else if ivLt done p.rseq then s.peerHold p
  else match old.find? fun x => x.1 == p.rseq with
    | some x => { s with peerReply := some (key, x.1, x.2) }
    | none => s
/-- The words of the row or atomic that a request writes. -/
def Req.words (r : Req) : List Nat := if r.atomic then [r.addr / 8] else (maskParts r.addr r.mask r.data).map (·.word)
/-- A request at its home waits until the holders of a duplicate of its line have given it up (R278); then it is applied. -/
def State.takeReq (s : State) (r : Req) : State :=
  if s.heldBy r.words = 0 then s.applyReq r
  else if r.asked.isNone then s.modReq r.who.c r.id fun x => { x with asked := some s.tb }
  else
    let (d, s) := s.choose 8
    s.giveUp r.words (BitVec.ofNat 8 (2 ^ d))
/-- REMOTE_REQUEST_ARRIVE (R372): a request of a peer arrives; or the k-th of the requests that are next in their order takes
effect at its home: those of this module, then the held ones of peers. -/
def execRemoteRequestArrive (k : Nat) (peer : Option PeerReq) (s : State) : Out :=
  match peer with
  | some p => .next (s.peerArrive p)
  | none =>
    let s := (List.finRange 512).foldl (fun s c => if (s.core c).reqs = [] then s else s.leaveAll c) s
    let rs := s.arrivals
    let ps := s.peerReqs.filter fun p => p.rseq == (NMap.get? s.rseqDone (peerId p)).getD 0 + 1
    match rs[k]? with
    | some r => if 4096 ≤ s.evWaiting then .next s else .next (s.takeReq r)
    | none => match ps[k - rs.length]? with
      | some p => .next (s.peerArrive p)
      | none => .next s
/-- PEER_LAUNCH (R376): a row arrives at one of the launch addresses, with the release at `.span` of the peer's port (R305). DESIGN CHOICE
(log 104): it is the next request of the peer's agent 0 (R372). -/
def execPeerLaunch (node : BitVec 16) (addr : BitVec 64) (row : List Byte) (s : State) : Out :=
  if !isLaunch addr || 4096 ≤ s.evWaiting || row.length ≠ 64 && row.length ≠ 128 && row.length ≠ 256 && row.length ≠ 32 then
    .next s
  else
    let key := peerKey node 0
    let n := (NMap.get? s.rseqDone key).getD 0 + 1
    let s := s.offerRow ⟨(addr.toNat - launchBase) / 4096 % 8, by omega⟩ node addr row (s.agent (peerOf node)).view
    .next { s with
      rseqDone := NMap.put s.rseqDone key n
      replies := NMap.put s.replies key (((n, (0 : W64)) :: (NMap.get? s.replies key).getD []).take 64)
      peerReply := some (key, n, 0) }

/-! ## Answers -/

/-- The oldest answered request of a destination is the next to be taken. -/
def State.oldest (s : State) (c : CoreId) (p : Req → Bool) (r : Req) : Bool :=
  (s.core c).reqs.all fun x => !(p x && x.dst == r.dst && ivLt x.rseq r.rseq)
/-- An answer that has come home. -/
def Req.home (r : Req) : Bool := r.st == 2 && r.place == some (dieOf r.who.c).val
/-- REMOTE_ACK (R222): the acknowledgement of a write frees its entry; a peer's answer to one that has left is an open choice
between an acknowledgement and a refusal (R215, R377). -/
def execRemoteAck (c : CoreId) (s : State) : Out :=
  let s := s.leaveAll c
  let ws := (s.core c).reqs.filter fun r => !r.atomic && (r.home || (8 ≤ r.dst && r.st == 1))
  let (i, s) := s.choose ws.length
  match ws[i]? with
  | none => .next s
  | some r =>
    let (no, s) := if 8 ≤ r.dst && !isLaunch (BitVec.ofNat 64 r.addr) then s.choose 2 else (0, s)
    let s := s.dropReq c r.id
    .next (if no = 1 then s.portFails r cAccess else s)
/-- The causes with which a home answers an atomic (R217). -/
def atomCauses : List Byte := [cAccess, cOverrun, cUncorr]
/-- RATOM_REPLY (R217): a reply lands, those of one destination in their order. A peer's value is open, or one of the causes of
R217. -/
def execRatomReply (c : CoreId) (s : State) : Out :=
  let s := s.leaveAll c
  let far (r : Req) : Bool := r.atomic && 8 ≤ r.dst && r.st == 1
  let ws := (s.core c).reqs.filter fun r => r.atomic && (r.home || far r) && s.oldest c (fun x => x.atomic && x.st != 0) r
  let (i, s) := s.choose ws.length
  match ws[i]? with
  | none => .next s
  | some r =>
    if r.dst < 8 then .next (s.landReply r r.reply)
    else
      let (k, s) := s.choose 4
      match atomCauses[k]? with
      | some x => .next ((s.portFails r x).landReply r badWord)
      | none =>
        let (v, s) := s.fresh
        .next (s.landReply r (extract v 0 (if r.w32 then 4 else 8)))

/-! ## The modules (R368-R371, R379) -/

def linkBack (l : LinkId) : LinkId := ⟨l.dst, l.src, l.m⟩
/-- Where a request or reply is going. -/
def Req.goal (r : Req) : Nat := if r.st == 2 then (dieOf r.who.c).val else r.dst
/-- Whether a request or reply that stands at the module's source goes on over it. -/
def State.goesOver (s : State) (l : LinkId) (r : Req) : Bool :=
  r.st != 0 && r.place == some l.src.val && r.goal < 8 && r.goal != l.src.val &&
  s.nextHop l.src ⟨r.goal % 8, by omega⟩ == some l.dst && s.moduleFor l.src l.dst r.addr == l.m
/-- The flits that the module may take next. -/
def State.toSend (s : State) (l : LinkId) : List Req :=
  (List.finRange 512).flatMap fun c => (s.core c).reqs.filter fun r => s.goesOver l r
/-- A flit enters the module's replay buffer under the next number (R369). -/
def State.sendFlit (s : State) (l : LinkId) (r : Req) : State :=
  let s := s.modLink l fun x =>
    { x with buf := x.buf ++ [⟨x.nextNum, r.id, r.who.c.val, r.st == 2⟩], nextNum := x.nextNum + 1 }
  let s := s.modReq r.who.c r.id fun x => { x with place := none }
  if r.st == 1 then s.count r.who 9 1 else s
/-- What a header's acknowledgement frees in the other direction (R369, R379). -/
def Link.acked (x : Link) (expect : W32) : Link :=
  let n := (x.buf.takeWhile fun f => ivLt f.num expect).length
  { x with buf := x.buf.drop n, sent := x.sent - n }
/-- The acknowledgement that the module's source owes goes out. -/
def State.sendAck (s : State) (l : LinkId) : State :=
  let e := (s.link (linkBack l)).expect
  (s.modLink (linkBack l) fun x => { x.acked e with owes := false })
/-- A request moves to a place, named by a flit. -/
def State.putFlit (s : State) (f : Flit) (d : DieId) : State :=
  if h : f.core < 512 then s.modReq ⟨f.core, h⟩ f.req fun x => { x with place := some d.val } else s
/-- The next flit on the wire reaches the receiver (R369). -/
def State.takeFlit (s : State) (l : LinkId) (crcOk : Bool) : State :=
  let x := s.link l
  match x.buf[x.sent]? with
  | none => s
  | some f =>
    let s := s.modLink l fun x => { x with sent := x.sent + 1 }
    if !crcOk then s.modLink l fun x => { x with nak := some (x.nak.getD x.expect) }
    else
      let s := s.sendAck l
      if f.num = x.expect && x.nak.isNone then
        (s.modLink l fun x => { x with expect := x.expect + 1, owes := true }).putFlit f l.dst
      else s
/-- FLIT_RECEIVE (R369): in one direction of a module, a flit is sent or the next one on the wire is received, an open choice. -/
def execFlitReceive (l : LinkId) (crcOk : Bool) (s : State) : Out :=
  let s := (List.finRange 512).foldl (fun s c => if dieOf c == l.src && (s.core c).reqs != [] then s.leaveAll c else s) s
  let x := s.link l
  if x.lanes = 0 || x.retraining || !adjacent l.src l.dst then .next s
  else
    let cs := if x.buf.length < 64 then s.toSend l else []
    let wire := if x.sent < x.buf.length then 1 else 0
    let (k, s) := s.choose (cs.length + wire)
    match cs[k]? with
    | some r => .next (s.sendFlit l r)
    | none => .next (s.takeFlit l crcOk)
/-- NAK_RECEIVE (R369): the sender resends from the named flit. -/
def execNakReceive (l : LinkId) (s : State) : Out :=
  match (s.link l).nak with
  | none => .next s
  | some n => .next (s.modLink l fun x =>
      { x.acked n with nak := none, sent := 0 })
/-- ACK_ONLY_FLIT (R379): the acknowledgement goes by itself from the module's source. -/
def execAckOnlyFlit (l : LinkId) (s : State) : Out :=
  if (s.link (linkBack l)).owes && !(s.link l).retraining && (s.link l).lanes != 0 then .next (s.sendAck l) else .next s

/-- LinkChange (R381). -/
def State.linkChange (s : State) (l : LinkId) (width : Nat) : State :=
  s.event 0x0007 [BitVec.ofNat 64 (width * 2 ^ 16 + l.m.val * 2 ^ 8 + Nat.max l.src.val l.dst.val * 8 + Nat.min l.src.val l.dst.val),
    s.time]
def State.modBoth (s : State) (l : LinkId) (f : Link → Link) : State := (s.modLink l f).modLink (linkBack l) f
/-- What was on its way over a module stands at its source again (R372): a flit that has not been applied. -/
def State.recall (s : State) (l : LinkId) : State :=
  let x := s.link l
  (x.buf.filter fun f => !ivLt f.num x.expect).foldl (fun s f => s.putFlit f l.src) s
def Msg.from_ (m : Msg) : DieId := ⟨m.src % 8, by omega⟩
def Msg.to_ (m : Msg) : DieId := ⟨m.dst % 8, by omega⟩
/-- Whether a message goes over a pair of dies, in the direction of a module. -/
def State.msgOver (s : State) (l : LinkId) (m : Msg) : Bool :=
  let p := s.path m.from_ m.to_ 7
  (p.zip (p.drop 1)).contains (l.src, l.dst)
/-- Each message whose path has failed may be sent again over another path, and its first copy be delivered late (R273): both are under
way, an open choice for each. -/
def State.resend (s : State) (ms : List Msg) : State :=
  ms.foldl (fun s m =>
    let (k, s) := s.choose 2
    if k = 1 then { s with msgs := s.msgs ++ [m] } else s) s
/-- A module is fenced in both directions (R370): its blocks move to the modules in service, and paths change. -/
def State.fenceLink (s : State) (l : LinkId) : State :=
  let ms := s.msgs.filter fun m => s.msgOver l m || s.msgOver (linkBack l) m
  let s := (s.recall l).recall (linkBack l)
  let s := s.modBoth l fun x => { x with lanes := 0, buf := [], sent := 0, owes := false, nak := none, retraining := false }
  let s := (s.linkChange l 0).noteCuts
  if s.pairUp l.src l.dst then s else s.resend ms
/-- LANE_FAILURE (R370): a repair keeps the width; a failure beyond repair starts a retrain at 32 lanes, or fences a module that
already is at 32. -/
def execLaneFailure (l : LinkId) (beyondRepair : Bool) (s : State) : Out :=
  let x := s.link l
  if !adjacent l.src l.dst || x.lanes = 0 || x.retraining || 4096 ≤ s.evWaiting then .next s
  else if !beyondRepair then .next (s.linkChange l x.lanes)
  else if x.lanes = 64 then .next (s.modBoth l fun x => { x with retraining := true })
  else .next (s.fenceLink l)
/-- RETRAIN_COMPLETE (R370): the module goes on at 32 lanes from its first unacknowledged flit, or is fenced. -/
def execRetrainComplete (l : LinkId) (ok : Bool) (s : State) : Out :=
  if !(s.link l).retraining || 4096 ≤ s.evWaiting then .next s
  else if ok then
    .next ((s.modBoth l fun x => { x with lanes := 32, sent := 0, nak := none, retraining := false }).linkChange l 32)
  else .next (s.fenceLink l)

/-! ## Giving up (R373) -/

/-- The requests of a port that may be given up: to a die that no path has reached for 1 ms, to a peer after as long. -/
def State.stranded (s : State) (c : CoreId) : List Req :=
  (s.core c).reqs.filter fun r =>
    if h : r.dst < 8 then s.cutFor (dieOf c) ⟨r.dst, h⟩ else r.since + oneMs ≤ s.tb
/-- The writes in flight of a core's agents whose home no path has reached for 1 ms. -/
def State.strandedWrites (s : State) (c : CoreId) : List (Nat × WEnt) :=
  (s.flight.zipIdx.map fun x => (x.2, x.1)).filter fun x =>
    (x.2.agent / 16 == c.val || (8192 ≤ x.2.agent && x.2.agent < homeAgent && (match x.2.who with
      | some w => w.c == c
      | none => false))) &&
    x.2.parts.any fun p => s.cutFor (dieOf c) (homeDie (8 * p.word))
/-- The code in R76 of the writer of an entry: a sequencer's index or an engine's code. -/
def entCode (a : Nat) : Byte :=
  if a < 8192 then
    if a % 16 < 8 then BitVec.ofNat 8 ((a / 16 % 4) * 4 + a % 4) else BitVec.ofNat 8 (0x10 + 4 * (a / 16 % 4) + a % 4)
  else if a % 4 = 0 then 0x20 else if a % 4 = 1 then 0x21 else 0x22
/-- The command of a core that a message completes (R273): that of its copy engine (0), its output stream engine (2) or its cluster's
lamplighter (4) is over, or changed. -/
def State.msgCmd (s : State) (c : CoreId) (m : Msg) (f : List Nat → Option (List Nat)) : State :=
  let run (r : Run) : Option Run := if r.cmd.id = m.id then (f r.got).map fun g => { r with got := g } else some r
  let lamp (x : LCmd) : Option LCmd := if x.id = m.id && x.who.c == c then (f x.got).map fun g => { x with got := g } else some x
  match m.eng with
  | 0 => s.modCore c fun k => { k with copyRun := k.copyRun.filterMap run }
  | 4 => s.modClu (cluOf c) fun u => { u with lamp := u.lamp.filterMap lamp }
  | _ => s.modCore c fun k => { k with outRun := k.outRun.filterMap run }
/-- A message is over: no copy of it acts from now on. DESIGN CHOICE (log 98): the number of a message that is given up counts as
delivered, so that the pair's later messages go on. -/
def State.closeMsg (s : State) (m : Msg) : State :=
  { s with
    msgs := s.msgs.filter fun x => !(x.src == m.src && x.dst == m.dst && x.seqNo == m.seqNo)
    msgDone := NMap.put s.msgDone (m.src * 8 + m.dst) m.seqNo }
/-- The number of the message that a pair of dies delivers next. -/
def State.msgNext (s : State) (m : Msg) : W32 := (NMap.get? s.msgDone (m.src * 8 + m.dst)).getD 0 + 1
/-- REQUEST_GIVE_UP (R373): one request, write or message of a core is given up, an open choice among them; a message between dies that
no path joins is dropped, and its command never completes. -/
def execRequestGiveUp (c : CoreId) (s : State) : Out :=
  match s.msgs.find? fun m => m.core == c.val && m.seqNo == s.msgNext m && s.cutFor m.from_ m.to_ with
  | some m => .next ((s.closeMsg m).msgCmd c m fun _ => none)
  | none =>
    let rs := s.stranded c
    let ws := s.strandedWrites c
    let (k, s) := s.choose (rs.length + ws.length)
    match rs[k]?, ws[k - rs.length]? with
    | some r, _ =>
      let s := s.portFails r cLink
      .next (if r.atomic then s.landReply r badWord else s.dropReq c r.id)
    | none, some (i, e) =>
      let s := { s with flight := s.flight.eraseIdx i }
      match e.who with
      | none => .next s
      | some w =>
        let va : W64 := BitVec.ofNat 64 ((e.parts.map fun p => 8 * p.word).headD 0)
        .next (s.imprecise w 7 cLink va (entCode e.agent))
    | none, none => .next s

end Sys2Proof.Machine
end

