-- ==== Sys2Proof/Machine/Homes.lean ====
section
/-! DEFINITION. The steps of store buffers, homes and paths (R267, R268, R273), counted lines at their directory (R257, R258), the
stream TLBs' prefetch (R344) and the dies' time base (R419). -/
namespace Sys2Proof.Machine

/-- DRAIN (R268). -/
def execDrain (a : Nat) (s : State) : Out := if s.canDrain a then .next (s.drainHead a) else .next s

/-- Whether a write gets from its agent to its homes (R368, R371). -/
def State.canReach (s : State) (e : WEnt) : Bool :=
  e.parts.all fun p => s.carries (agentDie e.agent) (homeDie (8 * p.word)) (8 * p.word)
/-- Marks the k-th write in flight as stalled, in the order of its die (R258). -/
def State.stall (s : State) (k : Nat) (d : DieId) : State :=
  let n := (s.die d).stallNo
  let s := s.modDie d fun x => { x with stallNo := n + 1 }
  { s with flight := s.flight.modify k fun e => { e with stalled := some (s.tb, n) } }
/-- APPLY (R268): a home applies a write that has reached it, once the dies that hold a duplicate of its lines have acknowledged that
they give it up, each in its time (R278). A counted fill that finds its directory full stalls there (R258). -/
def execApply (k : Nat) (s : State) : Out :=
  match s.flight[k]? with
  | none => .next s
  | some e =>
    if !s.canReach e || e.stalled.isSome || e.parts.any (fun p => s.stalledHome (8 * p.word)) then .next s
    else if s.heldBy e.words != 0 then
      if e.asked.isNone then .next { s with flight := s.flight.modify k fun e => { e with asked := some s.tb } }
      else
        let (d, s) := s.choose 8
        .next (s.giveUp e.words (BitVec.ofNat 8 (2 ^ d)))
    else if !s.canApply k then .next s
    else if s.mustStall e then .next (s.stall k (locDie (8 * (e.parts.map (·.word)).headD 0)))
    else .next (s.applyAt k)

/-- Whether a fill has been stalled for 1 ms (R258). -/
def WEnt.overdue (e : WEnt) (tb : Nat) : Bool := (e.stalled.getD (tb, 0)).1 + oneMs ≤ tb
/-- The stalled fill of a die that came first. -/
def State.firstStalled (s : State) (d : DieId) : Option WEnt :=
  (s.stallsAt d).foldl (fun (m : Option WEnt) e =>
    match m with
    | none => some e
    | some x => if (e.stalled.getD (0, 0)).2 < (x.stalled.getD (0, 0)).2 then some e else m) none
/-- FILL_STALL_RESUME (R258): a freed entry goes to the fill that stalled first, unless it is to be abandoned. -/
def execFillStallResume (d : DieId) (s : State) : Out :=
  match s.firstStalled d with
  | none => .next s
  | some e =>
    match s.flight.findIdx? fun x => x == e with
    | none => .next s
    | some k => if (s.die d).dirRoom && s.canApply k && !e.overdue s.tb then .next (s.applyAt k) else .next s
/-- COUNTED_FULL_TIMEOUT (R258): a fill stalled for 1 ms is abandoned with every later fill of its instruction. -/
def execCountedFullTimeout (d : DieId) (s : State) : Out :=
  match (s.stallsAt d).find? fun e => e.overdue s.tb with
  | none => .next s
  | some e =>
    let kin (x : WEnt) : Bool := x.fill.isSome && x.agent == e.agent && x.who == e.who && x.instrNo == e.instrNo
    let gone (x : WEnt) : Bool := kin x && e.seq ≤ x.seq
    let void (x : Todo) : Todo := if kin x.ent then { ent := { agent := x.ent.agent, parts := [] } } else x
    let s := { s with flight := s.flight.filter fun x => !gone x }
    let s := s.modAgent e.agent fun g => { g with sb := g.sb.filter fun x => !gone x }
    match e.who with
    | none => .next s
    | some w =>
      let s := if s.alive w then s.modSeq w fun q => { q with todo := q.todo.map void } else s
      .next (s.imprecise w 1 cCountedFull e.va (entCode e.agent))
/-- The units of a row that its write home finds uncorrectable get the poison code, with one report of each (R385, R393). Which they are
is an open choice, a bit for each word. -/
def State.foundBad (s : State) (row : Nat) : State :=
  let (v, s) := s.fresh
  if v.toNat % 2 = 0 then s
  else
    let us := ((List.range 32).filter fun i => (v.toNat / 2).testBit i).map fun i => (s.unitAt (256 * row + 8 * i)).1
    (us.eraseDups.filter fun w => !s.poison.contains w).foldl (fun s w =>
      { s with poison := w :: s.poison }.errorReport 3 2 1 ((locDie (8 * w)).val * 256 + s.sliceOf (8 * w)) (BitVec.ofNat 64 (8 * w)) 0 0) s
/-- LIVE_LINE_EVICT (R257): a live line is written home; its entry keeps count and owner. An uncorrectable unit of it is written with the
poison code (R385). -/
def execLiveLineEvict (row : Nat) (s : State) : Out :=
  let d := locDie (256 * row)
  match NMap.get? (s.die d).dir row with
  | none => .next s
  | some e =>
    if e.n = 0 || e.spilled || 4096 ≤ s.evWaiting then .next s
    else
      let s := s.foundBad row
      let p := bytesPay (s.mem.readN (256 * row) 256)
      .next (s.modDie d fun x => { x with dir := NMap.put x.dir row { e with spilled := true, home := p } })

/-- DELIVER (R273): a message whose number is the next of its pair acts once: the completion of a command whose homes have all
answered. One already delivered is discarded; one ahead is held. DESIGN CHOICE (log 104): a message has no block address, and the number of
its command chooses its module. -/
def execDeliver (k : Nat) (s : State) : Out :=
  match s.msgs[k]? with
  | none => .next s
  | some m =>
    if m.seqNo = s.msgNext m then
      if !s.carries m.from_ m.to_ (256 * m.id) then .next s
      else
        let s := { s with
          msgs := s.msgs.eraseIdx k
          msgDone := NMap.put s.msgDone (m.src * 8 + m.dst) m.seqNo }
        if h : m.core < 512 then .next (s.msgCmd ⟨m.core, h⟩ m fun g => some (m.src :: g))
        else .next s
    else if ivLt (s.msgNext m) m.seqNo then .next s
    else .next { s with msgs := s.msgs.eraseIdx k }

/-! ## Stream TLBs -/

/-- The first of `n` points from `p` on whose page of a size is another than that of `cur`. -/
def SDesc.seek (d : SDesc) (cnts : Vector Nat 4) (size cur : Nat) : Nat → Nat → Option Nat
  | 0, _ => none
  | n + 1, p =>
    let x := (d.point cnts p).toNat / size
    if x = cur then d.seek cnts size cur n (p + 1) else some x
/-- The first of some addresses whose page of a size is another than that of the first of them. -/
def otherPage (size : Nat) : List Nat → Option Nat
  | [] => none
  | a :: as => (as.find? fun b => b / size != a / size).map (· / size)
/-- The pages of a size that a command's next address outside the page of its current one may lie in, with the access kind (R344): the
next point of a stream, the next list position of a gather, the successor of a page that a copy has reached. DEDUCED (log 103): outside
a page of rows, a gather's next list position is the first that is left; outside a page of the list, it is the first that stands in another
page, or a row of its table, whose index the list gives. -/
def Run.nextPages (r : Run) (size : Nat) : List (Nat × Nat) :=
  let stream (d : SDesc) (kind : Nat) : List (Nat × Nat) :=
    ((d.seek r.cnts size ((d.point r.cnts r.pos).toNat / size) (points r.cnts - r.pos) r.pos).toList).map (·, kind)
  let rd (l : List Nat) : List (Nat × Nat) := l.map (·, 0)
  match r.cmd.kind with
  | .stream _ _ _ d => stream d 0
  | .ostream _ _ d => stream d 1
  | .gather _ _ _ d _ _ =>
    let at_ := r.left.map fun p => (d.list + BitVec.ofNat 64 (4 * p)).toNat
    rd ((at_.take 1).map (· / size) ++ (otherPage size at_).toList ++
      (if r.left = [] then [] else (List.range d.nrows).map fun x => (d.table + BitVec.ofNat 64 (x * d.stride)).toNat / size))
  | .copy dst src bytes rows sstr dstr _ _ _ =>
    ((List.range (bytes / 8 * rows)).filter fun i => !r.left.contains i).flatMap fun i =>
      let row := BitVec.ofNat 64 (i / (bytes / 8))
      let o := BitVec.ofNat 64 (8 * (i % (bytes / 8)))
      [((src + row * sstr + o).toNat / size + 1, 0), ((dst + row * dstr + o).toNat / size + 1, 1)]
  | _ => []
/-- The access kind by which a started command may have its next page translated ahead, by a page of one of the three sizes (R340). -/
def Run.mayNext (r : Run) (va : W64) : Option Nat :=
  [2 ^ 16, 2 ^ 21, 2 ^ 30].findSome? fun n => ((r.nextPages n).find? fun p => p.1 == va.toNat / n).map (·.2)
/-- STREAM_TLB_PREFETCH (R344): the stream TLB translates a command's next page; a walk that fails leaves nothing and raises
nothing. -/
def execStreamTlbPrefetch (c : CoreId) (out : Bool) (va : BitVec 64) (s : State) : Out :=
  let rs := if out then (s.core c).outRun else (s.core c).copyRun
  match classify va, rs.findSome? fun r => (r.mayNext va).map (r, ·) with
  | .virt va, some (r, kind) =>
    let g := if out then r.outEng else r.copyEng
    .next { (s.translate c g.tlb g.ctx (s.rootOf g.w g.ctx) va.toNat kind g.src).2 with holders := s.holders }
  | _, _ => .next s

/-! ## Time -/

/-- TBSKEW_MEASURE (R419): the offset of the die's copy of the time base in ps. -/
def execTbskewMeasure (d : DieId) (ps : BitVec 64) (s : State) : Out := .next (s.modDie d fun x => { x with tbskew := ps })

end Sys2Proof.Machine
end

