-- ==== Sys2Proof/Machine/Sched.lean ====
section
/-! DEFINITION. The hardware scheduler (R306-R314): dispatch, task start, activation, victims, kills and work stealing. -/
namespace Sys2Proof.Machine

/-! ## Dispatch order (R306, R307) -/

/-- The effective level of a record at the head of its queue (R307). -/
def effLevel (now : Nat) (r : Rec) : Nat := Nat.min 7 (recLevel r.w + (now - r.entered) / 2 ^ 20)
/-- The queue that is served next: the highest effective level, and among equals round-robin from the pointer. -/
def nextQueue (now rr : Nat) (qs : Vector (List Rec) 32) : Option (Fin 32) :=
  let order : List (Fin 32) := (List.range 32).map fun i => ⟨(rr + i) % 32, by omega⟩
  order.foldl (fun (best : Option (Fin 32)) q =>
    match (qs.get q).head?, best with
    | none, b => b
    | some _, none => some q
    | some r, some p =>
      match (qs.get p).head? with
      | some x => if effLevel now x < effLevel now r then some q else best
      | none => some q) none
/-- The waiting records of a die in dispatch order. -/
def dispatchOrder (now : Nat) : Nat → Nat → Vector (List Rec) 32 → List Rec
  | 0, _, _ => []
  | n + 1, rr, qs =>
    match nextQueue now rr qs with
    | none => []
    | some q =>
      match qs.get q with
      | [] => []
      | r :: rest => r :: dispatchOrder now n (q.val + 1) (vset qs q rest)
def Die.waiting (d : Die) : Nat := (d.queues.toList.map List.length).foldl (· + ·) 0

/-! ## Cores and banks -/

/-- A core that is in service: neither it nor its cluster fenced (R386). -/
def State.inUse (s : State) (c : CoreId) : Bool := !(s.core c).fenced && !(s.clu (cluOf c)).fenced
/-- The cores of a die. -/
def dieCores (d : DieId) : List CoreId := (List.finRange 512).filter fun c => dieOf c == d
/-- The core whose scan comes next: the one in service, neither under test nor waiting for its scan, whose last pass is oldest
(R395). -/
def State.nextScan (s : State) (d : DieId) : Option CoreId :=
  ((dieCores d).filter fun c => s.inUse c && !(s.core c).testing && !(s.core c).scanDue).foldl (fun (m : Option CoreId) c =>
    match m with
    | none => some c
    | some x => if (s.core c).lastPass < (s.core x).lastPass then some c else m) none
/-- 1/64 of ROT in ns (R395). -/
def State.scanGap (s : State) : Nat := s.rotMs.toNat * oneMs / 64
/-- Whether a core takes records: in service, not under test, and not about to be scanned (R395). -/
def State.takes (s : State) (c : CoreId) : Bool :=
  s.inUse c && !(s.core c).testing && !(s.core c).scanDue && s.nextScan (dieOf c) != some c
def Core.tasks (k : Core) : Nat := (k.banks.toList.filter (·.task.isSome)).length
/-- The record that has claimed a free bank, its victim's (R311), while it waits on the die. -/
def State.claimOf (s : State) (d : DieId) (w : Who) : Option Rec :=
  match (s.die d).draining.find? fun e => e.1 == (s.bank w).serial with
  | none => none
  | some e => (s.die d).queues.toList.flatten.find? fun r => r.id.toNat == e.2
/-- The free banks of a die that take records, in the order of R307: cores without a task, then those with one. -/
def State.freeBanks (s : State) (d : DieId) : List Who :=
  let cs := (dieCores d).filter s.takes
  (cs.filter (fun c => (s.core c).tasks == 0) ++ cs.filter fun c => (s.core c).tasks == 1).map fun c =>
    { c := c, b := if ((s.core c).banks.get 0).task.isNone then 0 else 1 }
/-- The free bank that takes the next record: the first that no newcomer has claimed. -/
def State.freeBankOf (s : State) (d : DieId) : Option Who := (s.freeBanks d).find? fun w => (s.claimOf d w).isNone
/-- Whether a record may take a free bank now: its context is not being torn down (R316), and the bank did not become free in the very
cycle in which the record was accepted (R307). -/
def State.eligible (s : State) (w : Who) (r : Rec) : Bool :=
  s.ctxLive (recCtx r.w) && !((s.bank w).freedAt == s.now + 1 && r.acc == s.now)

/-- A correlation number joins the ran list of a core (R396). -/
def Core.ranAdd (k : Core) (corr : W32) : Core :=
  if k.ran.contains corr then k
  else if 256 ≤ k.ran.length then { k with ranOvf := true }
  else { k with ran := k.ran ++ [corr] }
/-- A waiting task of a core becomes active (R308, R350): a suspended one lands its replay entries, unless its C was at level 1. -/
def State.activate (s : State) (w : Who) : State :=
  let s := s.modCore w.c fun k => { (k.ranAdd (s.bank w).corr) with active := some w.b }
  if (s.bank w).suspended then
    s.modBank w fun k => if k.level then { k with suspended := false } else { k.thaw with suspended := false }
  else s
/-- A bank whose record waits for its restore (R337). -/
def Bank.restoring (k : Bank) : Bool :=
  match k.task with
  | some r => r.w.get 5 != 0
  | none => false
/-- Whether a bank's task may become active. -/
def Bank.ready (k : Bank) : Bool :=
  k.blocked == false && k.stopping.isNone && (match k.task with
    | some r => r.w.get 5 == 0
    | none => false)
/-- BANK_ACTIVATE (R308, R349, R350): a core without an active task takes a waiting one, first one that was set aside. -/
def execBankActivate (c : CoreId) (s : State) : Out :=
  if (s.core c).active.isSome then .next s
  else
    let all := (List.finRange 2).filter fun b => ((s.core c).banks.get b).ready
    let set := all.filter fun b => ((s.core c).banks.get b).suspended
    let bs := if set = [] then all else set
    let (k, s) := s.choose bs.length
    match bs[k]? with
    | some b => .next (s.activate ⟨c, b, 0, 0⟩)
    | none => .next s

/-! ## Task start (R51, R266, R308) -/

/-- Every sequencer of a task starts with the intervals of its cluster (R266), C with its record's view too (R305). A sequencer is one
agent for both banks, and loses nothing of what it has seen for the other. -/
def State.startAgents (s : State) (w : Who) (view : View) : State :=
  let u := cluOf w.c
  let iv : NMap W32 := (List.finRange 16).map fun x => (u.val * 16 + x.val, (s.clu u).ival.get x)
  ([0, 1, 2, 3] : List SeqId).foldl (fun s q =>
    s.modAgent (w.seq q).agent fun g =>
      let v := if q = 0 then g.view.join view else g.view
      { g with view := { v with iv := NMap.join (fun _ y => y) v.iv iv } }) s
/-- The register values that a context gives a bank (R331, R366). -/
def Bank.fromCtx (k : Bank) (blk : Vector W64 12) (c : CoreId) (b : BankId) : Bank :=
  { k with
    ptroot := blk.get 1, tvec := blk.get 2
    tfbase := blk.get 3 + BitVec.ofNat 64 (4096 * (2 * c.val + b.val))
    wsrange := blk.get 6, spwin := blk.get 7 }
/-- Loads a record into the task-start state of a bank (R308). -/
def State.startTask (s : State) (w : Who) (r : Rec) : State :=
  let ctx := recCtx r.w
  let blk := match NMap.get? s.ctxs ctx with
    | some c => c.blk
    | none => Vector.replicate 12 0
  let weights := (NMap.get? s.weights ctx).getD (Vector.replicate 32 0)
  let s := { s with serial := s.serial + 1 }
  let s := s.modBank w fun _ =>
    (({ ({} : Bank) with
      task := some r, serial := s.serial, startCycle := s.now, weights := weights } : Bank).fromCtx blk w.c w.b).modSeq 0 fun q =>
      { q with started := true, pc := r.w.get 0, s := vset q.s 1 (r.w.get 6), stall := 1 }
  s.startAgents w r.view
/-- A record takes a bank (R307, R308): a task starts; a saved one waits for its restore (R337). -/
def State.load1 (s : State) (w : Who) (r : Rec) : State :=
  let s := s.startTask w r
  let s := s.trace w 7 (r.id.setWidth 64) 0
  if r.w.get 5 != 0 then s.modBank w fun k => { k with frozen := true }
  else if (s.core w.c).active.isNone && !(s.bank w.other).ready then s.activate w
  else s

/-! ## Victims (R310, R311) -/

/-- What a victim's end is (R310). -/
inductive Policy where
  | drain
  | kill
  | save
  deriving DecidableEq, Repr

/-- The policy for a task (R310). -/
def Die.policy (d : Die) (k : Bank) (r : Rec) : Policy :=
  let est := recEst r.w
  if recPclass r.w = 1 || (est != 0xFFFFFFFF && est - k.run < d.drainth.toNat) then .drain
  else if recRst r.w && k.run < d.killth.toNat then .kill
  else .save
/-- The candidates of a die for a newcomer: their banks and records. -/
def State.candidates (s : State) (d : DieId) (r : Rec) : List (Who × Rec) :=
  (dieCores d).flatMap fun c => (List.finRange 2).filterMap fun b =>
    let w : Who := ⟨c, b, 0, 0⟩
    let k := s.bank w
    match k.task with
    | none => none
    | some x =>
      if recPclass x.w != 2 && recPtok x.w < recPtok r.w && k.stopping.isNone && (s.die d).draining.all (fun e => e.1 != k.serial) &&
          !(k.savef && (s.die d).policy k x == .save) then some (w, x)
      else none
/-- Whether the first of two candidates is the victim rather than the second: lower PTOK, then lower LEVEL, then the later start,
then the higher core. -/
def State.sooner (s : State) (x y : Who × Rec) : Bool :=
  let a := recPtok x.2.w
  let b := recPtok y.2.w
  let la := recLevel x.2.w
  let lb := recLevel y.2.w
  let ta := (s.bank x.1).startCycle
  let tb := (s.bank y.1).startCycle
  a < b || (a == b && (la < lb || (la == lb && (tb < ta || (ta == tb && y.1.c.val < x.1.c.val)))))
/-- A newcomer that finds no free bank stops a victim by its policy (R310, R311), whose bank it claims. -/
def State.preempt (s : State) (d : DieId) (r : Rec) : State :=
  if (s.die d).draining.any (fun e => e.2 == r.id.toNat) then s
  else
    let v := (s.candidates d r).foldl (fun (m : Option (Who × Rec)) x =>
      match m with
      | none => some x
      | some y => if s.sooner x y then some x else m) none
    match v with
    | none => s
    | some (w, x) =>
      let p := (s.die d).policy (s.bank w) x
      let n := (s.bank w).serial
      let s := s.modDie d fun y => { y with draining := y.draining ++ [(n, r.id.toNat)] }
      match p with
      | .drain => s
      | .kill => s.beginKill w true
      | .save => s.modBank w fun k => { k with stopping := some (.save false) }
/-- A record leaves its queue for a bank; a drain that its claim held is over, or cancelled (R311). -/
def State.dispatchTo (s : State) (d : DieId) (w : Who) (r : Rec) (rr : Nat) : State :=
  let s := s.modDie d fun y =>
    { y with
      queues := y.queues.map fun q => q.filter fun x => x.id != r.id
      rr := rr
      draining := y.draining.filter fun e => e.2 != r.id.toNat }
  s.load1 w r
/-- The queues of a die without the records that may not take a bank now. -/
def State.queuesFor (s : State) (d : DieId) (p : Rec → Bool) : Vector (List Rec) 32 := (s.die d).queues.map fun q => q.filter p
/-- The newcomer whose victim's bank has become free (R311). -/
def State.claimed (s : State) (d : DieId) : Option (Who × Rec) :=
  (s.freeBanks d).findSome? fun w => match s.claimOf d w with
    | some r => if s.eligible w r then some (w, r) else none
    | none => none
/-- The record at the head of the queue that is served next. -/
def nextRec (now rr : Nat) (qs : Vector (List Rec) 32) : Option (Fin 32 × Rec) :=
  match nextQueue now rr qs with
  | none => none
  | some q => ((qs.get q).head?).map fun r => (q, r)
/-- Whether a die dispatches: its firmware has booted (R406), its power state lets it (R399), and no loss sequence runs (R403). -/
def State.dispatches (s : State) (d : DieId) : Bool :=
  s.booted && (s.die d).power != .gated && (s.die d).power != .idle && s.loss == .none
/-- DISPATCH (R307, R308, R310): a newcomer takes the bank that it has claimed; else the record next in dispatch order takes a free
bank, or looks for a victim. -/
def execDispatch (d : DieId) (s : State) : Out :=
  let x := s.die d
  if !s.dispatches d then .next s
  else match s.claimed d with
    | some (w, r) => .next (s.dispatchTo d w r (((List.finRange 32).find? fun q => (x.queues.get q).contains r).elim x.rr (fun q => (q.val + 1) % 32)))
    | none =>
      match s.freeBankOf d with
      | some w => match nextRec s.now x.rr (s.queuesFor d (s.eligible w)) with
        | some (q, r) => .next (s.dispatchTo d w r ((q.val + 1) % 32))
        | none => .next s
      | none => match nextRec s.now x.rr (s.queuesFor d fun r => s.ctxLive (recCtx r.w)) with
        | some (_, r) => .next (s.preempt d r)
        | none => .next s

/-! ## Kills (R332) -/

/-- A context's save areas: their size in bytes and the address of area `i` (R366). -/
def Ctx.areaSize (x : Ctx) : Nat := fld (x.blk.get 9) 63 32 * 4096
def Ctx.area (x : Ctx) (i : Nat) : Nat := (x.blk.get 8).toNat + i * x.areaSize
/-- Puts back a save area. -/
def State.freeArea (s : State) (ctx area : Nat) : State :=
  match NMap.get? s.ctxs ctx with
  | none => s
  | some x => { s with ctxs := NMap.put s.ctxs ctx { x with free := (area - (x.blk.get 8).toNat) / x.areaSize :: x.free } }

/-- Whether a command has delivered what it has read (R332), as far as its queue has room. -/
def State.delivered (s : State) (r : Run) : Bool :=
  r.held == [] || r.tok.isSome || (match r.cmd.kind with
    | .stream _ q _ _ | .gather q _ _ _ _ _ | .gatherq q _ _ _ _ _ => (s.queue r.cmd.who q).full
    | _ => false)
/-- Whether the work of a task that a stop waits for has ended (R332): rows that were read, blocks of copies, rows on their way to the accumulators, weight loads, runs
of the cluster's engines, its stores, its rows and requests in the port. -/
def State.drained (s : State) (w : Who) : Bool :=
  let o := s.ours w
  let k := s.core w.c
  let u := s.clu (cluOf w.c)
  let pend (e : WEnt) : Bool := match e.who with
    | some x => o x
    | none => false
  k.copyRun.all (fun r => !o r.cmd.who || !r.midBlock && s.delivered r) && k.outRun.all (fun r => !o r.cmd.who || s.delivered r) && k.wRun.all (fun r => !o r.who) && u.aeRun.all (fun r => !o r.who) && u.aeFifo.all (fun r => !o r.who) &&
  u.lamp.all (fun l => !o l.who) && k.bufs.all (fun b => !o b.who) && k.reqs.all (fun r => !o r.who) &&
  s.flight.all (fun e => !pend e) && s.agents.all fun a => a.2.sb.all fun e => !pend e
/-- The combine buffers of a task that is being stopped are sent (R332). -/
def State.flushOf (s : State) (w : Who) : State :=
  if (s.core w.c).bufs.any (fun b => s.ours w b.who) then s.flushPort w.c else s
/-- A requeued record enters the head or the tail of its queue, waiting anew (R312). -/
def State.requeue (s : State) (c : CoreId) (r : Rec) (head : Bool) : State :=
  s.enqueue (dieOf c) { r with entered := s.now, acc := s.now, key := if head then headKey else requeueKey } head
/-- KILL_COMPLETE (R332): the killed task's work has ended; its rows are released without residue (R262), its record is requeued
or dropped, and its bank is free. -/
def execKillComplete (c : CoreId) (b : BankId) (s : State) : Out :=
  let w : Who := ⟨c, b, 0, 0⟩
  match (s.bank w).stopping, (s.bank w).task with
  | some (.kill rq), some r =>
    let s := s.flushOf w
    if !s.drained w || (s.core c).mRun.any (fun x => s.ours w x.who) then .next s
    else
      let s := (s.ownedRows r.owner).foldl (fun s l => s.release l) s
      let s := match (s.bank w).saveTo with
        | some (area, _) => s.freeArea (s.bank w).ctx.toNat area
        | none => s
      let s := (s.modCore c fun k => { k with copyRun := k.copyRun.filter fun x => !s.ours w x.cmd.who }).freeBank w
      .next (if rq then s.requeue c r true else s.dropRec r)
  | _, _ => .next s

/-! ## Work stealing (R314) -/

/-- A record moves to a thief (R303, R314). -/
def State.moveRec (s : State) (d : DieId) (r : Rec) : State :=
  let s := if ownerOf r.id = r.owner then s else s.freeSlotOf (ownerOf r.id)
  let (id, s) := s.takeSlot d
  s.enqueue d { r with id := id, acc := s.now, key := requeueKey } false
/-- The die with the most waiting records among those that may be stolen from. -/
def State.stealFrom (s : State) (d : DieId) : Option DieId :=
  ((List.finRange 8).filter fun x => x != d && (s.die x).steal && (s.die x).waiting != 0).foldl (fun (m : Option DieId) x =>
    match m with
    | none => some x
    | some y => if (s.die y).waiting < (s.die x).waiting then some x else m) none
/-- The records that a die may dispatch in this cycle, which it keeps from a thief (R314): those that have claimed a bank, and the
next in order for its free banks; none while it does not dispatch. -/
def State.keeps (s : State) (d : DieId) (all : List Rec) : List Rec :=
  if !s.dispatches d then [] else (s.freeBanks d).filterMap (s.claimOf d) ++ all.take ((s.freeBanks d).filter fun w => (s.claimOf d w).isNone).length
/-- WORK_STEAL (R314): a die idle for 4,096 cycles takes migratable waiting records of the busiest. A claim that one of them held on a
victim's bank is over. -/
def execWorkSteal (d : DieId) (s : State) : Out :=
  let x := s.die d
  if !x.steal || x.power == .gated || s.loss != .none || x.waiting != 0 || s.now < x.idleFrom + 4096 || (s.freeBankOf d).isNone then .next s
  else match s.stealFrom d with
    | none => .next s
    | some v =>
      let y := s.die v
      let all := dispatchOrder s.now y.waiting y.rr (s.queuesFor v fun r => s.ctxLive (recCtx r.w))
      let mig := all.filter fun r => recMig r.w
      let n := Nat.min (Nat.min 16 ((mig.length + 1) / 2)) (65536 - x.used.length)
      let got := (mig.filter fun r => !(s.keeps v all).any fun g => g.id == r.id).take n
      let s := s.modDie v fun y =>
        { y with
          queues := y.queues.map fun q => q.filter fun r => !(got.any fun g => g.id == r.id)
          draining := y.draining.filter fun e => !(got.any fun g => g.id.toNat == e.2) }
      let s := got.foldl (fun s r => s.moveRec d r) s
      .next (s.modDie d fun x => { x with idleFrom := s.now })

end Sys2Proof.Machine
end

