-- ==== Sys2Proof/Machine/System.lean ====
section
/-! DEFINITION. System registers (R75, R133, R331, R345, R401, R416-R419), software traps (R134), `resume` (R135), shoot-downs
(R136, R353), instruction-cache invalidation (R137) and the pager's instructions (R138, R139, R346-R352). -/
namespace Sys2Proof.Machine

/-! ## System registers -/

/-- The assigned numbers (R75). -/
def csrAssigned (n : Nat) : Bool :=
  n ≤ 4 || (8 ≤ n && n ≤ 0x13) || n == 0x20 || (0x100 ≤ n && n ≤ 0x106) || (0x200 ≤ n && n ≤ 0x205) ||
  (0x300 ≤ n && n ≤ 0x307) || (0x310 ≤ n && n ≤ 0x320) || n == 0x360 || n == 0x361 || n == 0x400
/-- The registers that only level 1 writes (R331, R345, R416). -/
def csrLevel1 (n : Nat) : Bool := (0x100 ≤ n && n ≤ 0x105 && n != 0x102) || n == 0x200 || n == 0x202 || (0x300 ≤ n && n ≤ 0x307)

/-- `pwrstat` of a die (R401). -/
def State.pwrstat (s : State) (d : DieId) : W64 :=
  let x := s.die d
  let st : Nat := match x.power with
    | .full => 0
    | .capped => 1
    | .idle => 2
    | .gated => 3
  BitVec.ofNat 64 (x.mhz.toNat * 2 ^ 48 + (if x.cclamp then 2 ^ 33 else 0) + (if x.tclamp then 2 ^ 32 else 0) +
    (if x.power == .capped then x.cap.toNat * 2 ^ 16 else 0) + (if s.ckptArmed then 128 else 0) + st)

/-- The value of a register (R133). DESIGN CHOICE (log 91): R51 names C alone as the reader and writer of `cfs` and gives A, X and S
no fate; the model lets any sequencer read it and clear its bits. -/
def State.csrRead (s : State) (w : Who) (n : Nat) : W64 × State :=
  let k := s.bank w
  let d := s.die (dieOf w.c)
  if n = 0 then (k.fbase.setWidth 64, s)
  else if n = 1 then (k.rsseed, s)
  else if n = 2 then (k.qmap, s)
  else if n = 3 then (s.levels w false, s)
  else if n = 4 then (s.levels w true, s)
  else if 8 ≤ n && n ≤ 0xF then (k.cwin.get ⟨(n - 8) % 8, by omega⟩, s)
  else if n = 0x10 then (k.cfs.setWidth 64, s)
  else if n = 0x11 then (k.flogidx, s)
  else if n = 0x12 then (k.flog.get ⟨fld k.flogidx 13 8 % 64, by omega⟩, s)
  else if n = 0x13 then (k.galloc.setWidth 64, s)
  else if n = 0x20 then (BitVec.ofNat 64 (d.bmib.toNat * 2 ^ 32 + d.blevel.toNat), s)
  else if n = 0x100 then (k.tvec, s)
  else if n = 0x101 then (k.tfbase, s)
  else if n = 0x102 then (BitVec.ofNat 64 ((if k.savef then 2 else 0) + (if k.level then 1 else 0)), s)
  else if n = 0x103 then (k.tpend.setWidth 64, s)
  else if n = 0x104 then (k.wsrange, s)
  else if n = 0x105 then (k.spwin, s)
  else if n = 0x106 then (k.prcnt.setWidth 64, s)
  else if n = 0x200 then (k.ptroot, s)
  else if n = 0x201 then (k.pfinfo, s)
  else if n = 0x203 then (match k.faults with
    | f :: _ => f.token ||| 0x8000000000000000
    | [] => 0, s)
  else if n = 0x204 then (match k.faults with
    | f :: _ => f.addr
    | [] => 0, s)
  else if n = 0x205 then (match k.faults with
    | f :: _ => f.info
    | [] => 0, s)
  else if 0x300 ≤ n && n ≤ 0x303 then (k.wpa.get ⟨(n - 0x300) % 4, by omega⟩, s)
  else if 0x304 ≤ n && n ≤ 0x307 then (k.wpc.get ⟨(n - 0x304) % 4, by omega⟩, s)
  else if 0x310 ≤ n && n ≤ 0x317 then (k.pmc.get ⟨(n - 0x310) % 8, by omega⟩, s)
  else if 0x318 ≤ n && n ≤ 0x31F then (k.pmsel.get ⟨(n - 0x318) % 8, by omega⟩, s)
  else if n = 0x320 then (k.energy, s)
  else if n = 0x360 then s.tbNow
  else if n = 0x361 then (d.tbskew, s)
  else if n = 0x400 then (s.pwrstat (dieOf w.c), s)
  else (0, s)

/-- A bit pattern with only the bits of `m` kept. -/
abbrev keep (v m : W64) : W64 := v &&& m

/-- A write of a register whose row is `csrw` (R133): RO bits are ignored, W1C bits clear. `qmap` is written by `qcfg` alone (R128). -/
def Bank.csrSet (k : Bank) (n : Nat) (v : W64) : Bank :=
  if n = 0 then { k with fbase := v.setWidth 6 }
  else if n = 1 then { k with rsseed := v }
  else if n = 2 then
    let i := fld v 7 4
    { k with qmap := setFld k.qmap (4 * i + 3) (4 * i) (fld v 3 0) }
  else if n = 0x10 then { k with cfs := k.cfs &&& ~~~ (v.setWidth 5) }
  else if n = 0x11 then
    { k with flogidx := setFld (if v.getLsbD 63 then k.flogidx &&& 0x7FFFFFFFFFFFFFFF else k.flogidx) 13 8 (fld v 13 8) }
  else if n = 0x100 then { k with tvec := keep v 0x01FFFFFFFFFFFFFC }
  else if n = 0x101 then { k with tfbase := keep v 0x01FFFFFFFFFFF000 }
  else if n = 0x103 then
    let k := { k with tpend := k.tpend &&& ~~~ (v.setWidth 9) }
    if v.getLsbD 8 then { k with seqs := k.seqs.map fun q => { q with unc := false } } else k
  else if n = 0x105 then { k with spwin := keep v 0x01FFFFFF00FFFFFF }
  else if n = 0x200 then { k with ptroot := keep v 0x000000FFFFFFF000 }
  else if 0x300 ≤ n && n ≤ 0x303 then { k with wpa := vset k.wpa ⟨(n - 0x300) % 4, by omega⟩ v }
  else if 0x310 ≤ n && n ≤ 0x317 then { k with pmc := vset k.pmc ⟨(n - 0x310) % 8, by omega⟩ v }
  else if 0x318 ≤ n && n ≤ 0x31F then { k with pmsel := vset k.pmsel ⟨(n - 0x318) % 8, by omega⟩ (keep v 0x1F) }
  else k

/-- The limits of `wsrange` and `spwin` (R331, R366). -/
def wsrangeOk (v : W64) : Bool := fld v 10 0 < fld v 26 16 && fld v 26 16 ≤ 1024
def spwinOk (v : W64) : Bool := fld v 56 32 % 256 == 0 && fld v 56 32 ≤ 2 ^ 24 && fld v 23 0 % 256 == 0
/-- A `wpc` write within its limit (R416). -/
def wpcOk (v : W64) : Bool := fld v 1 0 == 0 || (3 ≤ fld v 10 5 && fld v 10 5 ≤ 24)

/-- The register number of an instruction. -/
def csrNum (f : RI) : Nat := fld f.imm 11 0
/-- The write of a cycle reaches its register at the end of the cycle (R75, R133). A write of `cwinN` discards what the constant
cache holds for the window (R74). -/
def Bank.csrLand (k : Bank) (q : SeqId) (n : Nat) (v : W64) : Bank :=
  if 8 ≤ n && n ≤ 0xF then
    let i : Fin 8 := ⟨(n - 8) % 8, by omega⟩
    { k with
      cwin := vset k.cwin i (keep v 0x01FFFFFFFFFFFFF8)
      cwinBy := vset k.cwinBy i (k.cwinBy.get i ||| BitVec.ofNat 4 (2 ^ q.val))
      ccache := k.ccache.filter fun x => x.win != i.val }
  else if n = 0x104 then { k with wsrange := keep v 0x07FF07FF }
  else if 0x304 ≤ n && n ≤ 0x307 then { k with wpc := vset k.wpc ⟨(n - 0x304) % 4, by omega⟩ (keep v 0x7E3) }
  else k.csrSet n v
/-- The writes of a cycle land in the order C, A, X, S, so that the last stands (R75). -/
def Bank.csrCommit (k : Bank) : Bank :=
  if k.csrPend = [] then k
  else
    let ws := (List.finRange 4).flatMap fun q => k.csrPend.filter (·.1 == q)
    { ws.foldl (fun k w => k.csrLand w.1 w.2.1 w.2.2) k with csrPend := [] }

/-- The limits of a register's write (R331, R416, R117). -/
def csrLimit (n : Nat) (v : W64) : Bool :=
  if n = 0x105 then spwinOk v else if n = 0x104 then wsrangeOk v else if 0x304 ≤ n && n ≤ 0x307 then wpcOk v else true
/-- The checks of a register access that raise IllegalInstruction (R75, R117). -/
def csrLimits (f : RI) (write : Bool) : Act Unit := do
  need (csrAssigned (csrNum f)) cIllegal
  if write then limits none [f.d] fun vs => csrLimit (csrNum f) (nthV vs 0)

/-- The checks that come before the operand: the number is assigned, and the level writes it (R75, R90, R319). -/
def csrChecks (n : Nat) (write : Bool) : Act Unit := do
  need (csrAssigned n) cIllegal
  let s ← get
  need (!write || !csrLevel1 n || ((s.bank s.cur).level && s.cur.q == 0)) cPrivileged

/-- `csrr` (R133): latency 1, exposed on X. -/
def execCsrr (f : RI) (s : State) : Out := issueLim (.csrr f) s (csrLimits f false) do
  csrChecks (csrNum f) false
  allOk dstOk [f.d]
  let s ← get
  let (v, s) := s.csrRead s.cur (csrNum f)
  set s
  scalarResult (.csrr f) f.d 1 0 0 v

/-- `csrr flogdat` (R75, R76): the entry that SEL names, which then counts as read. -/
def execFlogdatRead (f : RI) (s : State) : Out := issue (.flogdatRead f) s do
  allOk dstOk [f.d]
  let s ← get
  let k := s.bank s.cur
  let n := fld k.flogidx 13 8
  set (s.modBank s.cur fun k => { k with flogRead := k.flogRead ||| BitVec.ofNat 64 (2 ^ n) })
  scalarResult (.flogdatRead f) f.d 1 0 0 (k.flog.get ⟨n % 64, by omega⟩)

/-- The body of a `csrw` (R133). -/
def csrWrite (f : RI) : Act Flow := do
  let n := csrNum f
  csrChecks n true
  let vs ← sources none [f.d] []
  need (csrLimit n (nthV vs 0)) cIllegal
  csrPut n (nthV vs 0)
  pure .next
/-- `csrw` (R133). -/
def execCsrw (f : RI) (s : State) : Out := issueLim (.csrw f) s (csrLimits f true) (csrWrite f)
/-- `csrw cwinN` (R73, R74). -/
def execCwinWrite (f : RI) (s : State) : Out := issueLim (.cwinWrite f) s (csrLimits f true) (csrWrite f)
/-- A direct write of `qmap` (R75, R133). -/
def execQmapWrite (f : RI) (s : State) : Out := issue (.qmapWrite f) s (raise cQueue)
/-- `csrw wsrange` (R331). -/
def execWsrangeWrite (f : RI) (s : State) : Out := issueLim (.wsrangeWrite f) s (csrLimits f true) (csrWrite f)
/-- `csrw wpcN` (R416). -/
def execWpcWrite (f : RI) (s : State) : Out := issueLim (.wpcWrite f) s (csrLimits f true) (csrWrite f)

/-- Tokens compare without bit [63] (R346). -/
def tokEq (x y : W64) : Bool := (x <<< 1) == (y <<< 1)

/-- `csrw pfblock` (R349): the bank waits for the answer, and the core's other bank may run. -/
def execPfblockWrite (f : RI) (s : State) : Out := issue (.pfblockWrite f) s do
  csrChecks 0x202 true
  eventRoom
  let vs ← sources none [f.d] []
  let s ← get
  let k := s.bank s.cur
  match k.fault with
  | some (tok, addr, _) => do
    need (tokEq tok (nthV vs 0) && fld k.pfinfo 8 7 == 0) cAccess
    let s := s.event 0x0003 [tok, addr, k.pfinfo, k.corr.setWidth 64]
    let s := s.modBank s.cur fun k => { k with blocked := true }
    set (s.modCore s.cur.c fun c =>
      { c with active := if c.active = some s.cur.b then none else c.active, activeFrom := s.now + 1 })
    pure .next
  | none => raise cAccess

/-! ## Software traps -/

/-- `trap` (R134). -/
def execTrap (f : RI) (s : State) : Out := issue (.trap f) s do
  throw (.trap { cause := BitVec.ofNat 8 (fld f.imm 7 0), tag := BitVec.ofNat 18 (fld f.imm 17 8), sw := true })
/-- `brk` (R134). -/
def execBrk (f : RI) (s : State) : Out := issue (.brk f) s do
  throw (.trap { cause := cBreak, tag := f.imm })

/-! ## `resume` -/

/-- The 288 words of a frame that C has read: an uncorrectable one is as a load of it (R122, R394). -/
def State.frameRead (s : State) (pa : Nat) (bs : List Byte) : List W64 :=
  let a := bs.toArray
  (List.range 288).map fun i =>
    if s.poisoned (pa + 8 * i) 8 then badWord
    else BitVec.ofNat 64 (leNat (List.ofFn fun (j : Fin 8) => a.getD (8 * i + j.val) 0))
/-- `resume` (R135, R328). -/
def execResume (f : RRR) (s : State) : Out := issue (.resume f) s do
  let vs ← sources none [f.a] []
  let s ← get
  let k := s.bank s.cur
  need (nthV vs 0 == k.tfbase) cAccess
  needQuiet
  let pa ← translate k.tfbase 0
  let s ← get
  if s.stalledHome pa || !s.carries (dieOf s.cur.c) (homeDie pa) pa then hold 13
  if s.poisoned pa 2304 then noteUnc pa
  let s ← get
  let (bs, s) := s.loadBytes s.cur.agent pa 2304
  set s
  let ws := s.frameRead pa bs
  match frameOk k ws false with
  | none => raise cAccess
  | some es => do
    let s := s.modBank s.cur fun k =>
      let k := k.resumeFrom ws es false
      { k with fault := none, seqs := k.seqs.map fun q => { q with last := s.now + 1 } }
    set (s.modSeq s.cur fun q => { q with steps := q.steps.map (· - 1) })
    pure (.stay 1)

/-! ## Shoot-downs (R353) -/

/-- Whether an entry goes: every entry of the context, or those that cover the page. -/
def TlbE.hit (e : TlbE) (ctx : BitVec 12) (all : Bool) (va : Nat) : Bool :=
  e.ctx == ctx && (all || va / 2 ^ pageBits e.lvl == e.page)
/-- The physical ranges of the entries that go in a core. -/
def Core.gone (k : Core) (ctx : BitVec 12) (all : Bool) (va : Nat) : List (Nat × Nat) :=
  ((k.tlb ++ k.tlbCopy ++ k.tlbOut ++ k.tlbOld).filter (·.hit ctx all va)).map (·.range)
/-- The entries of a core go, and its walkers read every entry stored so far (R342). The translations of a save in progress are pinned, and
an invalidation of the whole context leaves them (R354). -/
def State.shootCore (s : State) (c : CoreId) (ctx : BitVec 12) (all : Bool) (va : Nat) : State :=
  let s := s.modCore c fun k =>
    { k with
      tlb := k.tlb.filter (fun e => !e.hit ctx all va)
      tlbCopy := k.tlbCopy.filter (fun e => !e.hit ctx all va)
      tlbOut := k.tlbOut.filter (fun e => !e.hit ctx all va)
      tlbOld := k.tlbOld.filter (fun e => !e.hit ctx all va)
      banks := if all then k.banks else k.banks.map fun b => if b.ctx = ctx then { b with pins := [] } else b }
  [0, 1, 2].foldl (fun s i => s.fence (tlbAgent c i) 4) s
/-- A shoot-down over some cores, once no access through an entry that goes is under way; none while it waits. -/
def State.shoot (s : State) (cs : List CoreId) (ctx : BitVec 12) (all : Bool) (va : Nat) : Option State :=
  if cs.any (fun c => s.underWay c ((s.core c).gone ctx all va)) then none
  else some (cs.foldl (fun s c => s.shootCore c ctx all va) s)

/-- The cores of a scope around a core (R136): core, cluster, die, module. -/
def scopeCores (c : CoreId) (t : Nat) : List CoreId :=
  (List.finRange 512).filter fun x =>
    match t with
    | 0 => x == c
    | 1 => cluOf x == cluOf c
    | 2 => dieOf x == dieOf c
    | _ => true

/-- `tlbinv` (R136, R353). -/
def execTlbinv (f : RRR) (s : State) : Out := issueLim (.tlbinv f) s (limits none [f.a, f.b] fun vs => fld (nthV vs 1) 2 0 < 4) do
  let vs ← sources none [f.a, f.b] []
  let y := nthV vs 1
  need (fld y 2 0 < 4) cIllegal
  let s ← get
  match s.shoot (scopeCores s.cur.c (fld y 2 0)) (s.bank s.cur).ctx (y.getLsbD 4) (nthV vs 0).toNat with
  | none => hold 13
  | some s => do
    set s
    pure .next

/-- Whether a cached line is one of `n` lines of a context from `a`. DESIGN CHOICE (log 92): the spec does not say whether `icinv`
drops lines of other contexts at the same virtual addresses; the model drops those of its own context. -/
def icHit (key : Nat) (ctx : BitVec 12) (a n : Nat) : Bool :=
  key / 2 ^ 64 == ctx.toNat && a ≤ key % 2 ^ 64 && key % 2 ^ 64 < a + 64 * n
/-- Drops lines from an instruction cache. -/
def Core.dropLines (k : Core) (ctx : BitVec 12) (a n : Nat) : Core :=
  { k with icache := k.icache.filter fun e => !icHit e.1 ctx a n }
/-- The limits of `icinv` (R137, R117). -/
def icinvOk (x y : W64) : Bool := fld x 5 0 == 0 && fld y 2 0 < 4 && fld y 31 8 != 0
/-- `icinv` (R137): a release of C's stores, whose earlier accesses have then performed. Its own line, where it goes, serves it to
its end (R83): its successor is found before. -/
def execIcinv (f : RRR) (s : State) : Out := issueLim (.icinv f) s (limits none [f.a, f.b] fun vs => icinvOk (nthV vs 0) (nthV vs 1)) do
  let vs ← sources none [f.a, f.b] []
  let x := nthV vs 0
  let y := nthV vs 1
  need (icinvOk x y) cIllegal
  needQuiet
  let s ← get
  let q ← succOf (.icinv f) (s.sq s.cur)
  modify fun s =>
    (scopeCores s.cur.c (fld y 2 0)).foldl (fun s c =>
      s.modCore c (·.dropLines (s.bank s.cur).ctx x.toNat (fld y 31 8))) (s.modSeq s.cur fun _ => q)
  pure .moved

/-! ## The pager -/

/-- A bank that holds a trapped or fault-blocked context (R138). -/
def Bank.trapped (k : Bank) : Bool := k.task.isSome && k.level && k.frozen

/-- A word of a live replay queue: as `rqwr` last wrote it, or as R326 gives it. -/
def Bank.rqWord (k : Bank) (entry word : Nat) : W64 :=
  match NMap.get? k.rqEdits (8 * entry + word) with
  | some v => v
  | none => (replayWords k.replay 0).getD (8 * entry + word) 0
/-- `rqrd` (R138). -/
def execRqrd (f : RRR) (s : State) : Out := issueLim (.rqrd f) s (limits none [f.a, f.b] fun vs => (nthV vs 0).toNat < 24) do
  let vs ← sources none [f.a, f.b] [f.d]
  need ((nthV vs 0).toNat < 24) cIllegal
  let s ← get
  let k := s.bank s.cur.other
  need k.trapped cAccess
  let t ← destOf f.d
  pendWrite t (k.rqWord (nthV vs 0).toNat (fld (nthV vs 1) 2 0))
  pure .next
/-- `rqwr` (R138): the word stands in the entry when it lands (R327). -/
def execRqwr (f : RRR) (s : State) : Out := issueLim (.rqwr f) s (limits none [f.a, f.b] fun vs => (nthV vs 0).toNat < 24) do
  let vs ← sources none [f.a, f.b, f.d] []
  need ((nthV vs 0).toNat < 24) cIllegal
  let s ← get
  need (s.bank s.cur.other).trapped cAccess
  modify fun s => s.modBank s.cur.other fun k =>
    { k with rqEdits := NMap.put k.rqEdits (8 * (nthV vs 0).toNat + fld (nthV vs 1) 2 0) (nthV vs 2) }
  pure .next

/-- The context whose fault the pager answers (R139, R348): its own trapped one, or the fault-blocked one of the other bank. -/
def State.pagedCtx (s : State) (w : Who) : BitVec 12 :=
  if (s.bank w).fault.isNone && (s.bank w.other).blocked then (s.bank w.other).ctx else (s.bank w).ctx
/-- The limits of an entry that `pgmap` writes (R348). -/
def pgmapOk (e : W64) : Bool := pteV e && pteLeaf e && fld e 57 56 != 3 && !pteBad e (fld e 57 56)
/-- `pgmap` (R139, R348). -/
def execPgmap (f : RRR) (s : State) : Out := issueLim (.pgmap f) s (limits none [f.a, f.b] fun vs => pgmapOk (nthV vs 1)) do
  let vs ← sources none [f.a, f.b] []
  let va := nthV vs 0
  let e := nthV vs 1
  let sz := fld e 57 56
  need (pgmapOk e) cIllegal
  needAt (fld va 63 57 == 0) cAccess va
  let s ← get
  let ctx := s.pagedCtx s.cur
  let x : TlbE := ⟨ctx, sz, va.toNat / 2 ^ pageBits sz, e⟩
  let c := s.cur.c
  let s := s.modCore c fun k =>
    { k with
      tlbOld := (k.tlb ++ k.tlbCopy ++ k.tlbOut).filter (fun e => e.hit ctx false va.toNat && s.underWay c [e.range]) ++ k.tlbOld
      tlb := k.tlb.filter (fun e => !e.hit ctx false va.toNat)
      tlbCopy := k.tlbCopy.filter (fun e => !e.hit ctx false va.toNat)
      tlbOut := k.tlbOut.filter (fun e => !e.hit ctx false va.toNat) }
  set (((s.tlbKeep c 0 x).tlbKeep c 1 x).tlbKeep c 2 x)
  pure .next

/-- A task set aside with its bank (R350): steps 1 to 3 of R321, no frame. -/
def State.suspend (s : State) (w : Who) : State :=
  (s.freeze w).modBank w fun k => { k with suspended := true }
/-- The page that a refused fault names: the page of the leaf that stopped the walk, or where there was none the smallest page. -/
def refusedPage (pf addr : W64) (kind : Nat) : Nat × Nat × Nat :=
  let bits := if pf.getLsbD 9 || pf.getLsbD 8 then pageBits (fld pf 12 10) else 16
  (addr.toNat / 2 ^ bits, bits, kind)
/-- The answer to a trapped or blocked fault of a bank (R348, R350): a bank that waited is active from the next cycle. -/
def State.answerTrapped (s : State) (w : Who) (src : SeqId) (addr : W64) (kind : Nat) (refuse : Bool) : State :=
  let blocked := (s.bank w).blocked
  let s := s.modBank w fun k =>
    let k := { k with fault := none, blocked := false }
    if refuse then k.modSeq src fun q => { q with refused := refusedPage k.pfinfo addr kind :: q.refused } else k
  if !blocked then s
  else
    let s := if (s.core w.c).active = some w.other.b then s.suspend w.other else s
    s.modCore w.c fun k => { k with active := some w.b, activeFrom := s.now + 1 }
/-- A wait for an engine fault that the answer of a token ends: the access walks again, or is refused (R351). -/
def answerTok (tok : W64) (refuse : Bool) (w : Option (W64 × W64)) (r : Option W64) : Option (W64 × W64) × Option W64 :=
  match w with
  | some (t, va) => if tokEq t tok then (none, if refuse then some va else none) else (w, r)
  | none => (none, r)
def Run.answered (tok : W64) (refuse : Bool) (r : Run) : Run :=
  { r with tok := (answerTok tok refuse r.tok r.refused).1, refused := (answerTok tok refuse r.tok r.refused).2 }
def AERun.answered (tok : W64) (refuse : Bool) (r : AERun) : AERun :=
  { r with tok := (answerTok tok refuse r.tok r.refused).1, refused := (answerTok tok refuse r.tok r.refused).2 }
def LCmd.answered (tok : W64) (refuse : Bool) (r : LCmd) : LCmd :=
  { r with tok := (answerTok tok refuse r.tok r.refused).1, refused := (answerTok tok refuse r.tok r.refused).2 }
/-- Answers the fault of a token at a core (R139, R350, R351): none when no fault is outstanding under it. -/
def State.answer (s : State) (c : CoreId) (tok : W64) (refuse : Bool) : Option State :=
  let try1 (b : BankId) : Option State :=
    let w : Who := ⟨c, b, 0, 0⟩
    let k := s.bank w
    match k.fault with
    | some (t, addr, kind) =>
      if k.task.isSome && tokEq t tok then some (s.answerTrapped w ⟨fld tok 30 27 % 4, by omega⟩ addr kind refuse)
      else none
    | none => none
  let try2 (b : BankId) : Option State :=
    let w : Who := ⟨c, b, 0, 0⟩
    if (s.bank w).faults.any (fun f => tokEq f.token tok) then
      let s := s.modBank w fun k => { k with faults := k.faults.filter fun f => !tokEq f.token tok }
      let s := s.modCore c fun k =>
        { k with copyRun := k.copyRun.map (·.answered tok refuse), outRun := k.outRun.map (·.answered tok refuse) }
      some (s.modClu (cluOf c) fun u =>
        { u with aeRun := u.aeRun.map (·.answered tok refuse), lamp := u.lamp.map (·.answered tok refuse) })
    else none
  match try1 0, try1 1, try2 0, try2 1 with
  | some s, _, _, _ => some s
  | _, some s, _, _ => some s
  | _, _, some s, _ => some s
  | _, _, _, r => r

/-- `pgdone` (R139). -/
def execPgdone (f : RRR) (s : State) : Out := issue (.pgdone f) s do
  let vs ← sources none [f.a, f.b] []
  let s ← get
  match s.answer s.cur.c (nthV vs 0) ((nthV vs 1).getLsbD 0) with
  | none => raise cAccess
  | some s => do
    set s
    pure .next

end Sys2Proof.Machine
end

