-- ==== Sys2Proof/Machine/Save.lean ====
section
/-! DEFINITION. The context-save engine (R332-R338): the checkpoint of a task into its save area, and its restore. -/
namespace Sys2Proof.Machine

/-! ## The save area (R333, R334) -/

/-- Rounds up to 4 KiB. -/
def up4k (n : Nat) : Nat := (n + 4095) / 4096 * 4096
/-- LO, HI of a `wsrange` word; BASE, SIZE of an `spwin` word (R331). -/
def wsLo (v : W64) : Nat := fld v 10 0
def wsHi (v : W64) : Nat := fld v 26 16
def spBase (v : W64) : Nat := fld v 23 0
def spSize (v : W64) : Nat := fld v 56 32
/-- The least size of a save area (R333). -/
def areaNeeds (wsr spw : W64) (cells : Nat) : Nat :=
  0x188000 + up4k (64 * (64 * (wsHi wsr - wsLo wsr))) + up4k (spSize spw) + 264 * cells
/-- Where the windows and the cells stand in the area. -/
def offWs : Nat := 0x188000
def offSp (wsr : W64) : Nat := up4k (offWs + 64 * (64 * (wsHi wsr - wsLo wsr)))
def offCells (wsr spw : W64) : Nat := up4k (offSp wsr + spSize spw)

def wordBytes (ws : List W64) : List Byte := ws.flatMap fun (x : W64) => leBytes 8 x.toNat
def tileBytes (t : Tile) : List Byte := t.toList.flatMap fun (x : W32) => leBytes 4 x.toNat
def maskBytes (m : Mask) : List Byte := leBytes 128 m.toNat
def rowBytes (r : Row) : List Byte := leBytes 8 r.hdr.toNat ++ payBytes r.pay

/-- The system registers that a save holds, in number order (R334). -/
def savedCsrs : List Nat := [0, 1, 2, 3, 4] ++ (List.range 12).map (· + 8) ++ [0x20] ++ (List.range 7).map (· + 0x100)
/-- The cluster flags allocated to a bank's task (R51). -/
def Bank.gflags (k : Bank) : List (Fin 32) := (List.finRange 32).filter fun i => k.galloc.getLsbD i.val
/-- Where the parts of the section at 0x1800 stand. Flags take a word each, an allocated cluster flag a pair of words (log 4). -/
def offFlags : Nat := 0x1800 + 8 * 25
def offPairs : Nat := offFlags + 8 * 32
def offFmt (g : Nat) : Nat := offPairs + 16 * g
def offFlog (g : Nat) : Nat := offFmt g + 4 * 64
/-- Registers, flags, format table and ring. -/
def State.regSection (s : State) (w : Who) : List Byte :=
  let k := s.bank w
  wordBytes (savedCsrs.map fun n => (s.csrRead w n).1) ++
  wordBytes ((List.finRange 32).map fun i => (k.f.get i).v.setWidth 64) ++
  wordBytes (k.gflags.flatMap fun i => [BitVec.ofNat 64 i.val, ((s.clu (cluOf w.c)).g.get i).v.setWidth 64]) ++
  ((List.finRange 64).flatMap fun i => leBytes 4 (k.fmt.get i).toNat) ++
  wordBytes ((List.finRange 64).map fun i => k.flog.get i)
/-- The entries of a queue that have landed, each at its stride, head first. -/
def Queue.section (q : Queue) : List Byte :=
  q.ents.flatMap fun x => match x with
    | .word v _ => leBytes 8 v.toNat
    | .row r _ => rowBytes r
    | .resv _ => []
/-- A capture in its tile slot. -/
def Cap.bytes (x : Cap) : List Byte :=
  match x with
  | .tile t => tileBytes t
  | .mask m => maskBytes m
  | .res t _ => tileBytes t
/-- An accumulator tile: data, side bits, control word, present vector, status (R59, R201, R334). -/
def Acc.section (z : Acc) : List Byte :=
  let slot (i : Nat) : ASlot := (NMap.get? z.slots i).getD {}
  ((List.range 16384).flatMap fun i => leBytes 8 (slot i).v.toNat) ++
  ((List.range 16384).map fun i => (slot i).side.setWidth 8) ++
  leBytes 8 (z.anchor.toNat * 2 ^ 24 + if z.mode then 2 ^ 16 else 0) ++ leBytes 32 z.present.toNat ++
  leBytes 8 z.st0.toNat ++ leBytes 32 z.absent.toNat
/-- A weight plane: for each slice its values, metadata and parameters and the slot word, with T, sparse and valid in bits of that word
that `fmtw` keeps zero (R189). DESIGN CHOICE (log 99): the order in which a plane's 33,024 bytes stand. -/
def planeSection (p : Option Plane) : List Byte :=
  match p with
  | none => List.replicate 33024 0
  | some p => (List.finRange 64).flatMap fun i =>
      payBytes (p.vals.get i) ++ leBytes 128 (p.info.get i).toNat ++ leBytes 128 (p.par.get i).toNat ++
      leBytes 4 (setFld p.slot 19 17 (1 + (if p.trans then 2 else 0) + (if p.sparse then 4 else 0))).toNat
/-- The word and E of an instruction that placed a command. -/
def instrBytes (i : Instr) : List Byte := leBytes 4 ((encodeWord i).getD 0).toNat ++ leBytes 4 (i.ext.getD 0).toNat
/-- The flag that a parked command waits for. -/
def FlagRef.bits (r : FlagRef) : Nat := r.n.toNat + if r.g then 32 else 0
/-- The parked commands of a task, in parking order: word, E, flag (log 99). -/
def State.parkedSection (s : State) (w : Who) : List Byte :=
  ((s.core w.c).parked.filter fun p => s.ours w p.who).flatMap fun p => instrBytes p.cmd.cmd.i ++ leBytes 8 p.flag.bits
/-- The words and Es of a task's engine commands, started ones first, engine by engine. -/
def State.engineWords (s : State) (w : Who) : List (List Byte) :=
  let o := s.ours w
  let k := s.core w.c
  let cmds (xs : List ECmd) : List (List Byte) := (xs.filter fun c => o c.who).map fun c => instrBytes c.i
  cmds (k.copyRun.map (·.cmd)) ++ cmds k.copyFifo ++ cmds (k.outRun.map (·.cmd)) ++ cmds k.outFifo ++
  ((k.mRun.filter fun m => o m.who).map fun m => instrBytes m.i) ++ ((k.mFifo.filter fun m => o m.who).map fun m => instrBytes m.i) ++
  (k.follow.filter fun f => o f.2.1).map fun f => leBytes 4 f.2.2.1.toNat ++ leBytes 4 f.2.2.2.1.toNat
/-- The cells that a task owns and that are LIVE (R261): cluster, cell number, count. -/
def State.liveCells (s : State) (owner : Nat) : List (CluId × Nat × Nat) :=
  (List.finRange 128).flatMap fun u =>
    ((s.clu u).cells.filter fun e => e.2.owner == owner && e.2.n != 0).map fun e => (u, e.1, e.2.n)
/-- A saved cell: its 256 bytes, then its address with its count (R261). -/
def State.cellBytes (s : State) (x : CluId × Nat × Nat) : List Byte :=
  s.mem.readN (spLoc x.1 (256 * x.2.1)) 256 ++ leBytes 8 (2 ^ 63 + 256 * x.2.1 + x.2.2)
/-- The sections whose layout R334 fixes, with their offsets. -/
def State.sections (s : State) (w : Who) (frame : List W64) (cells : List (CluId × Nat × Nat)) : List (Nat × List Byte) :=
  let k := s.bank w
  let caps := k.captures
  let n := wsHi k.wsrange - wsLo k.wsrange
  [(0x40, wordBytes frame)] ++
  ([1, 2, 3].map fun (q : SeqId) => (0x1000 + 400 * (q.val - 1), wordBytes (k.seqs.get q).fileWords)) ++
  [(0x1800, s.regSection w)] ++
  ((List.finRange 16).map fun i => (if i.val < 8 then 0x4000 + 256 * i.val else 0x4800 + 8448 * (i.val - 8), (k.q.get i).section)) ++
  ((List.finRange 32).map fun i => (0x15000 + 4096 * i.val, tileBytes (k.v.get i))) ++
  [(0x35000, ((List.range 8).map (fun n => k.maskReg (BitVec.ofNat 3 n)) ++ k.xf.toList).flatMap maskBytes)] ++
  [(0x2000, s.parkedSection w), (0x4F000, planeSection k.plane), (0x4F000 + 33024, planeSection k.shadow)] ++
  (caps.zipIdx.map fun x => (0x36000 + 4096 * x.2, x.1.bytes)) ++
  (k.replay.zipIdx.map fun x => (0x36000 + 24 * 4096 + 128 * x.2, maskBytes (x.1.pm.getD 0))) ++
  ((List.finRange 8).map fun i => (0x60000 + 0x25000 * i.val, (k.z.get i).section)) ++
  ((List.range 64).map fun i => (offWs + 64 * n * i, s.mem.readN (wsLoc w.c (65536 * i + 64 * wsLo k.wsrange)) (64 * n))) ++
  [(offSp k.wsrange, s.mem.readN (spLoc (cluOf w.c) (spBase k.spwin)) (spSize k.spwin)),
    (offCells k.wsrange k.spwin, cells.flatMap s.cellBytes)]
def State.freeWords (s : State) : Nat → List W64 × State
  | 0 => ([], s)
  | n + 1 =>
    let (v, s) := s.fresh
    let (vs, s) := s.freeWords n
    (v :: vs, s)

/-! ## The area's pages

DEDUCED (log 99): SAVEPOOL is a virtual address of the context, as the save engine's translation faults (R347) and "pinned" (R333) say. -/

/-- The physical addresses of the first `n` 4 KiB blocks from a virtual address, or none where one does not translate. -/
def State.mapArea (s : State) (w : Who) (va kind : Nat) : Nat → Option (List Nat) × State
  | 0 => (some [], s)
  | n + 1 =>
    match s.mapArea w va kind n with
    | (none, s) => (none, s)
    | (some ps, s) =>
      let k := s.bank w
      if fld (BitVec.ofNat 64 (va + 4096 * n)) 63 57 != 0 then (none, s)
      else match s.translate w.c 0 k.ctx k.ptroot (va + 4096 * n) kind 0 with
        | (.error _, s) => (none, s)
        | (.ok (pa, _), s) => (some (ps ++ [pa]), s)
/-- Where an offset of the area stands. -/
def areaAt (ps : List Nat) (off : Nat) : Nat := ps.getD (off / 4096) 0 + off % 4096
/-- Writes bytes at an offset of the area, block by block. -/
def State.areaPut (s : State) (a : Nat) (ps : List Nat) : Nat → Nat → List Byte → State
  | 0, _, _ => s
  | n + 1, off, bs =>
    if bs = [] then s
    else
      let m := 4096 - off % 4096
      (s.putBytes a (areaAt ps off) (bs.take m)).areaPut a ps n (off + m) (bs.drop m)
/-- The bytes of memory at a location. DEDUCED (log 103): an uncorrectable word of them is as a load of it (R122). -/
def State.memBytes (s : State) (l n : Nat) : List Byte :=
  if !s.poisoned l n then s.mem.readN l n
  else cutBytes l n ((wordsOf l n).map fun w => if s.poisoned (8 * w) 8 then badWord else s.word w)
/-- The bytes at an offset of the area. -/
def State.areaGet (s : State) (ps : List Nat) (off n : Nat) : List Byte :=
  (List.range ((off % 4096 + n + 4095) / 4096)).flatMap fun i =>
    let lo := Nat.max off (4096 * (off / 4096 + i))
    let hi := Nat.min (off + n) (4096 * (off / 4096 + i + 1))
    s.memBytes (areaAt ps lo) (hi - lo)
/-- Writes every section of the area for the context-save engine. What the descriptor image and progress of an engine command hold has
no layout in the spec: their bytes are free values. -/
def State.writeSections (s : State) (w : Who) (ps : List Nat) (frame : List W64) (cells : List (CluId × Nat × Nat)) : State :=
  let a := cluAgent (cluOf w.c) 2
  let put (s : State) (off : Nat) (bs : List Byte) : State := s.areaPut a ps (bs.length / 4096 + 2) off bs
  let s := (s.sections w frame cells).foldl (fun s x => put s x.1 x.2) s
  (s.engineWords w).zipIdx.foldl (fun s x =>
    let (vs, s) := s.freeWords 7
    put s (0x2400 + 64 * x.2) (x.1 ++ wordBytes vs)) s

/-! ## Saving (R332, R335, R336) -/

/-- A save fails (R336): the task thaws in place with SAVEF; under a core fence it is stopped instead (R387), and in the loss
sequence it is lost (R403). The newcomer waits for another bank (R311): its claim is moved to a number that no task has.
DESIGN CHOICE (log 101): in the record of R329 a fault counts as PageFault, and the reasons without a cause as no failed command. -/
def State.saveFail (s : State) (w : Who) (area reason : Nat) : State :=
  let k := s.bank w
  if s.loss != .none then
    { s with lossList := s.lossList ++ [(k.recid, k.corr, reason)] }.beginKill w false
  else
  let s := if reason < 3 then s else s.engFail w 6 k.saveNth (if reason = 3 then cPageFault else cUncorr)
  let s := s.event 0x0006 [k.recid.setWidth 64, k.corr.setWidth 64, BitVec.ofNat 64 area, BitVec.ofNat 64 reason]
  let s := { s with serial := s.serial + 1 }
  let s := s.modDie (dieOf w.c) fun d =>
    { d with draining := d.draining.map fun e => if e.1 = k.serial then (s.serial, e.2) else e }
  let s := s.modBank w fun k =>
    let k := if k.level then k else k.thaw
    { k with savef := true, stopping := none, saveTo := none, pins := [] }
  if (s.core w.c).fenced || (s.clu (cluOf w.c)).fenced then
    let (cls, s) := s.choose 6
    (s.errorReport 0 cls 0 w.c.val 0 (k.corr.setWidth 64) (k.recid.setWidth 64)).beginKill w false
  else s
/-- Takes a free area of a context (R333). -/
def State.takeArea (s : State) (ctx : Nat) : Option Nat × State :=
  match NMap.get? s.ctxs ctx with
  | none => (none, s)
  | some x =>
    match x.free with
    | [] => (none, s)
    | i :: is => (some (x.area i), { s with ctxs := NMap.put s.ctxs ctx { x with free := is } })
/-- The 4 KiB blocks of a context's save area (R333). -/
def State.areaBlocks (s : State) (ctx : Nat) : Nat :=
  match NMap.get? s.ctxs ctx with
  | some x => x.areaSize / 4096
  | none => 0
/-- The save begins (R332, R335): PreemptCheckpoint freezes the task, whose composite record is taken as the core stood, and SAVESEQ
becomes 0. The area's translations are pinned for it (R333, R354). -/
def State.beginSave (s : State) (w : Who) : State :=
  let ctx := (s.bank w).ctx.toNat
  let comp := s.composite w [] (s.bank w).token
  let s := (s.freeze w).modBank w fun k => if k.level then k else { k with comp := comp }
  match s.takeArea ctx with
  | (none, s) => s.saveFail w 0 1
  | (some area, s) =>
    match s.mapArea w area 1 (s.areaBlocks ctx) with
    | (none, s) => (s.freeArea ctx area).saveFail w area 3
    | (some ps, s) =>
      let n := s.saveSeq
      let (nth, s) := { s with saveSeq := if n + 1 = 0 then 1 else n + 1 }.accept w 6
      let s := s.putBytes (cluAgent (cluOf w.c) 2) (areaAt ps 4) (leBytes 4 0)
      s.modBank w fun k => { k with saveTo := some (area, n), saveNth := nth, pins := ps }
/-- PREEMPT_CHECKPOINT (R332, R338): between instructions, while C is at level 0; a fault-blocked task is taken as it stands. A trap of
the same cycle comes first (R322). -/
def execPreemptCheckpoint (c : CoreId) (b : BankId) (s : State) : Out :=
  let w : Who := ⟨c, b, 0, 0⟩
  let k := s.bank w
  match k.stopping with
  | some (.save _) =>
    if k.task.isNone || k.saveTo.isSome || (k.level && !k.blocked) || 4096 ≤ s.evWaiting || ((s.core c).stopped.isSome && s.loss == .none) ||
      k.restoring || ((s.core c).active == some b && k.imprecisePending) then .next s
    else .next (s.beginSave w)
  | _ => .next s

/-- A word of a frame image with its reserved bits zero (R6, R325, R326). -/
def frameKeep (i : Nat) (v : W64) : W64 :=
  let pc : W64 := 0x01FFFFFFFFFFFFFC
  let word : W64 := 0xFFFFFFFF
  if i < 4 then v &&& pc
  else if i = 4 then v &&& 0x3FFFFFCFFF
  else if i = 6 then v &&& 0x1FFFFFFFFFF
  else if i = 8 then 0
  else if i < 42 then v
  else if i < 58 then v &&& (if (i - 42) % 4 < 2 then pc else if (i - 42) % 4 = 2 then word else 1)
  else if i = 58 then v &&& 0x1F
  else if i < 64 then 0
  else if i < 96 then v
  else v &&& (match (i - 96) % 8 with
    | 1 => (0x7FFF : W64)
    | 6 => word
    | 7 => 0x1FF
    | _ => BitVec.allOnes 64)
/-- The frame image of a save (R334): the bank as frozen with CAUSE 0x40 and the composite record of its checkpoint; of a fault-blocked
task the frame of its trap, whose fault is dropped (R338), with its reserved bits zero. None where that frame cannot be read (R347). -/
def State.saveFrame (s : State) (w : Who) : Option (List W64) × State :=
  let k := s.bank w
  if !k.level then (some (s.frameWords w (infoWord cPreempt 0 false false 0 k.replay.length k.bar.isSome) 0 k.comp), s)
  else match s.translate w.c 0 k.ctx k.ptroot k.tfbase.toNat 0 0 with
    | (.error _, s) => (none, s)
    | (.ok (pa, _), s) =>
      if s.poisoned pa 2304 || !s.reach (dieOf w.c) (homeDie pa) then (none, s)
      else
        let ws := (List.range 288).map fun i => BitVec.ofNat 64 (s.mem.readLe (pa + 8 * i) 8)
        (some ((ws.zipIdx.map fun x => if 64 ≤ x.2 && x.2 < 96 then k.comp.getD (x.2 - 64) 0 else frameKeep x.2 x.1).modify 4
          fun x => setFld x 7 0 0x40), s)
/-- A run as a save keeps it: a wait for a page ends, and messages on their way are sent again. -/
def Run.asSaved (r : Run) : Run := { r with tok := none, refused := none, sent := r.got }
/-- The abstract part of a save. -/
def State.savedOf (s : State) (w : Who) : Saved :=
  let o := s.ours w
  let k := s.core w.c
  let bank : Bank :=
    { (s.bank w).saveBar with
      bornSaved := if (s.bank w).level then (s.bank w).bornSaved else Vector.ofFn fun i => (((s.bank w).seqs.get 0).frames.get i).born
      saveTo := none, pins := [], stopping := none, fault := none, blocked := false, suspended := false, level := false, faults := [] }
  { bank := bank
    copy := k.copyFifo.filter fun c => o c.who
    runs := (k.copyRun.filter fun r => o r.cmd.who).map (·.asSaved)
    out := k.outFifo.filter fun c => o c.who
    oruns := (k.outRun.filter fun r => o r.cmd.who).map (·.asSaved)
    m := k.mFifo.filter fun m => o m.who
    mruns := k.mRun.filter fun r => o r.who
    parked := k.parked.filter fun p => o p.who
    follow := k.follow.filter fun f => o f.2.1
    g := (s.bank w).gflags.map fun i => (i.val, (s.clu (cluOf w.c)).g.get i)
    agents := Vector.ofFn fun q => { s.agent (w.seq q).agent with sb := [] } }
/-- A task's work leaves a core. -/
def State.dropWork (s : State) (w : Who) : State :=
  let o := s.ours w
  s.modCore w.c fun k =>
    { k with
      copyFifo := k.copyFifo.filter fun c => !o c.who
      copyRun := k.copyRun.filter fun r => !o r.cmd.who
      outFifo := k.outFifo.filter fun c => !o c.who
      outRun := k.outRun.filter fun r => !o r.cmd.who
      mFifo := k.mFifo.filter fun m => !o m.who
      mRun := k.mRun.filter fun r => !o r.who
      parked := k.parked.filter fun p => !o p.who
      follow := k.follow.filter fun f => !o f.2.1 }
/-- Whether bank state that a save reads is uncorrectable (R336). -/
def State.savePoisoned (s : State) (w : Who) : Bool :=
  let k := s.bank w
  s.poison != [] &&
  (s.poisoned (spLoc (cluOf w.c) (spBase k.spwin)) (spSize k.spwin) ||
    (List.range 64).any fun i => s.poisoned (wsLoc w.c (65536 * i + 64 * wsLo k.wsrange)) (64 * (wsHi k.wsrange - wsLo k.wsrange)))
/-- The header (R335), whose reserved bytes are zero (R6). -/
def State.saveHeader (s : State) (w : Who) (n : W32) (cells : Nat) : List W64 :=
  let k := s.bank w
  [BitVec.ofNat 64 (n.toNat * 2 ^ 32 + cells), BitVec.ofNat 64 (k.corr.toNat * 2 ^ 32 + k.recid.toNat),
    BitVec.ofNat 64 w.c.val, k.wsrange, k.spwin, 0, 0, 0]
/-- The save of an area: each context has its own addresses. -/
def saveKey (ctx area : Nat) : Nat := ctx * 2 ^ 64 + area
/-- The save's bytes are written, its commit word last; the cells are released, the record is requeued and the bank is free
(R261, R312, R335, R418). -/
def State.commitSave (s : State) (w : Who) (r : Rec) (area : Nat) (ps : List Nat) (n : W32) (tail : Bool) (frame : List W64) : State :=
  let cells := s.liveCells r.owner
  let s := s.writeSections w ps frame cells
  let s := s.putBytes (cluAgent (cluOf w.c) 2) (areaAt ps 0) (wordBytes (s.saveHeader w n cells.length))
  let s := { s with saved := NMap.put s.saved (saveKey (s.bank w).ctx.toNat area) (s.savedOf w) }
  let s := cells.foldl (fun s x => s.uncount (spLoc x.1 (256 * x.2.1))) s
  let s := s.profAdd w
  let s := (s.dropWork w).freeBank w
  s.requeue w.c { r with w := vset r.w 5 (BitVec.ofNat 64 area) } (!tail)
/-- SAVE_COMMIT (R335, R336): once the task's work has ended, the save is written, or fails. Whether the engine meets a register, mask, queue or
accumulator of the bank that reads as uncorrectable is an open choice (log 44). -/
def execSaveCommit (c : CoreId) (b : BankId) (s : State) : Out :=
  let w : Who := ⟨c, b, 0, 0⟩
  match (s.bank w).saveTo, (s.bank w).task, (s.bank w).stopping with
  | some (area, n), some r, some (.save tail) =>
    let s := s.flushOf w
    let k := s.bank w
    let ctx := k.ctx.toNat
    let size := match NMap.get? s.ctxs ctx with
      | some x => x.areaSize
      | none => 0
    let need := areaNeeds k.wsrange k.spwin (s.liveCells r.owner).length
    let fail (s : State) (reason : Nat) : State := (s.freeArea ctx area).saveFail w area reason
    if !s.drained w || (s.core c).mRun.any (fun x => s.ours w x.who && x.fly != []) || k.z.any (·.replay.isSome) || 4096 ≤ s.evWaiting then .next s
    else if size < need then .next (fail s 2)
    else match (if k.pins = [] then s.mapArea w area 1 (size / 4096) else (some k.pins, s)) with
      | (none, s) => .next (fail s 3)
      | (some ps, s) =>
        let far := ps.filter fun p => !s.carries (dieOf c) (homeDie p) p
        if far.any fun p => s.cutFor (dieOf c) (homeDie p) then .next (fail s 3)
        else if far != [] then .next s
        else if s.savePoisoned w then .next (fail s 4)
        else
          let (k, s) := s.choose 2
          if k != 0 then .next (fail s 4)
          else match s.saveFrame w with
            | (none, s) => .next (fail s 3)
            | (some ws, s) => .next (s.commitSave w r area ps n tail ws)
  | _, _, _ => .next s

/-! ## Restoring (R337) -/

/-- A sequencer's file from the 50 words of a save (R334). -/
def Seq.fromFile (q : Seq) (ws : List W64) : Seq :=
  { q with
    s := Vector.ofFn fun n => if n = 0 then 0 else ws.getD n.val 0
    l := Vector.ofFn fun n => BitVec.ofNat 32 ((ws.getD (32 + n.val / 2) 0).toNat / 2 ^ (32 * (n.val % 2)))
    frames := Vector.ofFn fun n =>
      { active := (ws.getD (34 + 4 * n.val + 3) 0).getLsbD 0
        start := ws.getD (34 + 4 * n.val) 0
        stop := ws.getD (34 + 4 * n.val + 1) 0
        count := (ws.getD (34 + 4 * n.val + 2) 0).setWidth 32
        born := (q.frames.get n).born }
    ret := [], pend := [] }
/-- The words of memory from a physical address. -/
def State.memWords (s : State) (pa n : Nat) : List W64 :=
  (List.range n).map fun i => BitVec.ofNat 64 (s.mem.readLe (pa + 8 * i) 8)
/-- A moved command acts for its new place. -/
def Who.moved (w x : Who) : Who := { x with c := w.c, b := w.b, t := w.t }
/-- The engine work of a save is placed again, under new numbers (R337 step 3). -/
def State.placeWork (s : State) (w : Who) (x : Saved) : State :=
  let w := { w with t := (s.bank w).serial }
  s.modCore w.c fun k =>
    let ren (n id : Nat) : Nat := k.nextId + n + id
    let cmd (c : ECmd) : ECmd := { c with who := w.moved c.who, id := ren 0 c.id }
    let run (r : Run) : Run := { r with cmd := cmd r.cmd }
    { k with
      copyFifo := k.copyFifo ++ x.copy.map cmd
      copyRun := k.copyRun ++ x.runs.map run
      outFifo := k.outFifo ++ x.out.map cmd
      outRun := k.outRun ++ x.oruns.map run
      mFifo := k.mFifo ++ x.m.map fun m => { m with who := w.moved m.who, id := ren 0 m.id }
      mRun := k.mRun ++ x.mruns.map fun m => { m with who := w.moved m.who, id := ren 0 m.id }
      parked := k.parked ++ x.parked.map fun p =>
        { p with
          who := w.moved p.who
          cmd := match p.cmd with
            | .copyCmd c => .copyCmd { c with who := w.moved c.who }
            | .outCmd c => .outCmd { c with who := w.moved c.who } }
      follow := k.follow ++ x.follow.map fun f => (ren 0 f.1, w.moved f.2.1, f.2.2)
      nextId := k.nextId + 1 + (x.copy.map (·.id) ++ x.runs.map (·.cmd.id) ++ x.out.map (·.id) ++ x.oruns.map (·.cmd.id) ++
        x.m.map (·.id) ++ x.mruns.map (·.id) ++ x.follow.map (·.1)).foldl Nat.max 0 }
/-- Whether another resident task of the cluster holds a cluster flag (R337 step 4). -/
def State.gHeld (s : State) (w : Who) (i : Nat) : Bool :=
  (List.finRange 4).any fun j => (List.finRange 2).any fun b =>
    let x : Who := ⟨coreOf (cluOf w.c) j, b, 0, 0⟩
    !(x.c == w.c && x.b == w.b) && (s.bank x).task.isSome && (s.bank x).galloc.getLsbD i
/-- What a restore reads of an area: `n` bytes at an offset. -/
abbrev AreaRead := Nat → Nat → List Byte
def AreaRead.word (rd : AreaRead) (off : Nat) : W64 := BitVec.ofNat 64 (leNat (rd off 8))
def AreaRead.tile (rd : AreaRead) (off : Nat) : Tile :=
  let bs := rd off 4096
  Vector.ofFn fun i => BitVec.ofNat 32 (leNat ((bs.drop (4 * i.val)).take 4))
def AreaRead.mask (rd : AreaRead) (off : Nat) : Mask := BitVec.ofNat 1024 (leNat (rd off 128))
/-- A queue's landed entries as the area holds them, at its stride, head first; `j` counts them. -/
def entsFrom (rd : AreaRead) (off : Nat) : Nat → List QSlot → List QSlot
  | _, [] => []
  | j, .word _ _ :: xs => .word (rd.word (off + 8 * j)) 0 :: entsFrom rd off (j + 1) xs
  | j, .row _ _ :: xs => .row ⟨rd.word (off + 264 * j), bytesPay (rd (off + 264 * j + 8) 256)⟩ 0 :: entsFrom rd off (j + 1) xs
  | j, .resv r :: xs => .resv r :: entsFrom rd off j xs
/-- An accumulator tile of the area; its command window is its bank's. -/
def Acc.fromArea (z : Acc) (rd : AreaRead) (off : Nat) : Acc :=
  let data := rd off (8 * 16384)
  let side := rd (off + 8 * 16384) 16384
  let o := off + 9 * 16384
  let ctl := rd.word o
  { z with
    slots := (List.range 16384).filterMap fun i =>
      let x : ASlot := ⟨BitVec.ofNat 64 (leNat ((data.drop (8 * i)).take 8)), (side.getD i 0).setWidth 5⟩
      if x == {} then none else some (i, x)
    mode := ctl.getLsbD 16, anchor := BitVec.ofNat 8 (fld ctl 31 24)
    present := BitVec.ofNat 256 (leNat (rd (o + 8) 32)), st0 := rd.word (o + 40)
    absent := BitVec.ofNat 256 (leNat (rd (o + 48) 32)) }
/-- A plane of the area. -/
def planeFrom (rd : AreaRead) (off : Nat) : Option Plane :=
  let slot : W32 := (rd.word (off + 512)).setWidth 32
  if !slot.getLsbD 17 then none
  else some
    { vals := Vector.ofFn fun i => bytesPay (rd (off + 516 * i.val) 256)
      info := Vector.ofFn fun i => BitVec.ofNat 1024 (leNat (rd (off + 516 * i.val + 256) 128))
      par := Vector.ofFn fun i => BitVec.ofNat 1024 (leNat (rd (off + 516 * i.val + 384) 128))
      slot := setFld slot 19 17 0, trans := slot.getLsbD 18, sparse := slot.getLsbD 19 }
/-- The captures of the replay entries from slot `n` on. -/
def capsFrom (rd : AreaRead) : Nat → List Cap → List Cap
  | _, [] => []
  | n, c :: cs =>
    let off := 0x36000 + 4096 * n
    (match c with
      | .tile _ => .tile (rd.tile off)
      | .mask _ => .mask (rd.mask off)
      | .res _ fl => .res (rd.tile off) fl) :: capsFrom rd (n + 1) cs
/-- The replay entries with the captures that the area holds; `n` counts tile slots, `j` entries. -/
def replayFrom (rd : AreaRead) : Nat → Nat → List XEnt → List XEnt
  | _, _, [] => []
  | n, j, e :: es =>
    { e with caps := capsFrom rd n e.caps, pm := e.pm.map fun _ => rd.mask (0x36000 + 24 * 4096 + 128 * j) } ::
      replayFrom rd (n + e.caps.length) (j + 1) es
/-- A system register as a save holds it. -/
def AreaRead.csr (rd : AreaRead) (n : Nat) : W64 := rd.word (0x1800 + 8 * (savedCsrs.findIdx? (· == n)).getD 0)
/-- A bank as the sections of an area give it (R337 step 1), over the parts of it that no section holds. Read-only registers and the
identifiers are those of the new place, and reserved bits are ignored (R6). -/
def Bank.fromArea (k : Bank) (rd : AreaRead) : Bank :=
  let g := k.gflags.length
  { k with
    fbase := (rd.csr 0).setWidth 6, rsseed := rd.csr 1, qmap := rd.csr 2
    cwin := Vector.ofFn fun i => keep (rd.csr (8 + i.val)) 0x01FFFFFFFFFFFFF8
    cfs := (rd.csr 0x10).setWidth 5, flogidx := keep (rd.csr 0x11) 0x8000000000003F3F
    tvec := keep (rd.csr 0x100) 0x01FFFFFFFFFFFFFC, tfbase := keep (rd.csr 0x101) 0x01FFFFFFFFFFF000, savef := (rd.csr 0x102).getLsbD 1, tpend := (rd.csr 0x103).setWidth 9
    wsrange := keep (rd.csr 0x104) 0x07FF07FF, spwin := keep (rd.csr 0x105) 0x01FFFFFF00FFFFFF, prcnt := (rd.csr 0x106).setWidth 32
    f := Vector.ofFn fun i => { k.f.get i with v := (rd.word (offFlags + 8 * i.val)).setWidth 16 }
    fmt := Vector.ofFn fun i => BitVec.ofNat 32 (leNat (rd (offFmt g + 4 * i.val) 4)) &&& 0xFF01F8FF
    flog := Vector.ofFn fun i => keep (rd.word (offFlog g + 8 * i.val)) 0xFFFFFFFFFF00D01F
    seqs := Vector.ofFn fun q =>
      if q = 0 then k.seqs.get q
      else (k.seqs.get q).fromFile ((List.range 50).map fun i => rd.word (0x1000 + 400 * (q.val - 1) + 8 * i))
    q := Vector.ofFn fun i =>
      let off := if i.val < 8 then 0x4000 + 256 * i.val else 0x4800 + 8448 * (i.val - 8)
      { k.q.get i with ents := entsFrom rd off 0 (k.q.get i).ents }
    v := Vector.ofFn fun i => rd.tile (0x15000 + 4096 * i.val)
    m := Vector.ofFn fun i => if i.val = 0 then 0 else rd.mask (0x35000 + 128 * i.val)
    xf := Vector.ofFn fun i => rd.mask (0x35000 + 1024 + 128 * i.val)
    replay := replayFrom rd 0 0 k.replay
    plane := planeFrom rd 0x4F000, shadow := planeFrom rd (0x4F000 + 33024)
    z := Vector.ofFn fun i => (k.z.get i).fromArea rd (0x60000 + 0x25000 * i.val) }
/-- The agents of a restored task know what they knew at the save (R266, R337). -/
def State.restoreAgents (s : State) (w : Who) (x : Saved) : State :=
  let view := match x.bank.task with
    | some t => (x.agents.get 0).view.join t.view
    | none => (x.agents.get 0).view
  let s := s.startAgents w view
  ([0, 1, 2, 3] : List SeqId).foldl (fun s q =>
    s.modAgent (w.seq q).agent fun g =>
      let y := x.agents.get q
      { g with
        view := g.view.join { y.view with iv := [] }
        pa := Vector.ofFn fun t => (g.pa.get t).join (y.pa.get t)
        rel := match y.rel with
          | some r => some r
          | none => g.rel }) s
/-- The sections of a save are written back (R337 steps 1, 2 and 4). -/
def State.restoreSections (s : State) (w : Who) (r : Rec) (x : Saved) (rd : AreaRead) : State :=
  let a := cluAgent (cluOf w.c) 2
  let serial := (s.bank w).serial
  let k := { x.bank with task := some r }.fromArea rd
  let wsr := k.wsrange
  let spw := k.spwin
  let n := wsHi wsr - wsLo wsr
  let s := (List.range 64).foldl (fun s i =>
    s.putBytes a (wsLoc w.c (65536 * i + 64 * wsLo wsr)) (rd (offWs + 64 * n * i) (64 * n))) s
  let s := s.putBytes a (spLoc (cluOf w.c) (spBase spw)) (rd (offSp wsr) (spSize spw))
  let s := (List.range (leNat (rd 0 4))).foldl (fun s i =>
    let at_ := offCells wsr spw + 264 * i
    let e := AreaRead.word rd (at_ + 256)
    let l := spLoc (cluOf w.c) (fld e 23 8 * 256)
    (s.putBytes a l (rd at_ 256)).fillRow l (fld e 7 0) r.owner) s
  let s := s.modBank w fun old =>
    { k with
      serial := serial, startCycle := s.now, run := 0, pmc := Vector.replicate 8 0, energy := 0, pfinfo := 0
      stopping := old.stopping }
  let s := x.g.zipIdx.foldl (fun s e =>
    if h : e.1.1 < 32 then
      let v := { e.1.2 with v := (AreaRead.word rd (offPairs + 16 * e.2 + 8)).setWidth 16 }
      if s.gHeld w e.1.1 then s else s.modClu (cluOf w.c) fun u => { u with g := vset u.g ⟨e.1.1, h⟩ v }
    else s) s
  s.restoreAgents w x
/-- RESTORE (R337): the saved context of a dispatched record is written back, and the task goes on as a `resume` of its frame
image; a save that is not committed is discarded with reason 7. An area that does not translate is SaveFailed with reason 3 (R347); DESIGN
CHOICE (log 99): the record, whose save stands, then waits again at the tail of its queue. A block that no path joins to the core is waited for (R11). -/
def execRestore (c : CoreId) (b : BankId) (s : State) : Out :=
  let w : Who := ⟨c, b, 0, 0⟩
  match (s.bank w).task with
  | none => .next s
  | some r =>
    let area := (r.w.get 5).toNat
    let key := saveKey (s.bank w).ctx.toNat area
    let size := match NMap.get? s.ctxs (s.bank w).ctx.toNat with
      | some x => x.areaSize
      | none => 0
    let kill := match (s.bank w).stopping with
      | some (.kill _) => true
      | _ => false
    if r.w.get 5 = 0 || kill || 4096 ≤ s.evWaiting then .next s
    else
      let (ps, t) := s.mapArea w area 1 (size / 4096)
      if ps.any (fun l => l.any fun p => !t.carries (dieOf c) (homeDie p) p) then .next s
      else
      let s := t
      let seqNo := match ps with
        | some ps => s.mem.readLe (areaAt ps 4) 4
        | none => 0
      match ps, seqNo, NMap.get? s.saved key with
      | none, _, _ =>
        .next ((s.event 0x0006 [r.id.setWidth 64, (recCorr r.w).setWidth 64, BitVec.ofNat 64 area, 3]).freeBank w |>.requeue c r false)
      | _, 0, _ | _, _, none =>
        let s := (s.dropRec r).refuseRec 7 ((r.w.get 7) &&& 0xFFFFFFFF) ((recCorr r.w).setWidth 64) r.src
        .next (s.freeBank w)
      | some ps, _, some x =>
        let r := { r with w := vset r.w 5 0 }
        let rd : AreaRead := s.areaGet ps
        let s := s.restoreSections w r x rd
        let s := s.placeWork w x
        let s := s.putBytes (cluAgent (cluOf c) 2) (areaAt ps 4) (leBytes 4 0)
        let s := { s.freeArea (recCtx r.w) area with saved := NMap.del s.saved key }
        let ws := (List.range 288).map fun i => AreaRead.word rd (0x40 + 8 * i)
        let k := s.bank w
        let es := match frameOk k ws true with
          | some es => es
          | none => k.replay
        let s := s.modBank w fun k => k.resumeFrom ws es false
        .next (if (s.core c).active.isNone && !(s.bank w.other).ready then s.activate w else s)

end Sys2Proof.Machine
end

