-- ==== Sys2Proof/Machine/HostIf.lean ====
section
/-! DEFINITION. The host interface (R359-R367): its registers, rings and state page, and the commands of contexts, launches,
scheduling and paging. -/
namespace Sys2Proof.Machine

/-! ## Registers and the state page -/

/-- A ring size in force (R359). -/
def ringOk (n : BitVec 5) : Bool := 6 ≤ n.toNat && n.toNat ≤ 16
def State.modHost (s : State) (f : HostIf → HostIf) : State := { s with host := f s.host }
/-- The device writes the state page (R363), once the host has placed it, as a release at `.mod` of all that it has written before (R362);
its reserved bytes are zero (R6). -/
def State.statePage (s : State) : State :=
  let h := s.host
  if !h.en && h.stbase = 0 then s
  else s.putCarried homeAgent [⟨homeAgent, 3, { fl := s.latest homeAgent 3 }⟩] h.stbase.toNat
    (leBytes 4 h.cmdacc.toNat ++ leBytes 4 h.cmddone.toNat ++ leBytes 4 h.eviss.toNat ++ leBytes 4 h.evack.toNat ++
      leBytes 8 h.boot.toNat ++ List.replicate 40 0)

/-- What a host core reads of a register (R359): IDLE is 1 when EN is 0 and every bell has been handled; the write-only registers and
reserved bits read zero (R5, R6). -/
def HostIf.read (h : HostIf) (off : Nat) : W64 :=
  if off = 0x00 then BitVec.ofNat 64 ((if h.en then 1 else 0) + if !h.en && !h.want then 2 else 0)
  else if off = 0x08 then h.cqbase
  else if off = 0x10 then h.cqlog.setWidth 64
  else if off = 0x18 then h.eqbase
  else if off = 0x20 then h.eqlog.setWidth 64
  else if off = 0x28 then h.stbase
  else 0
/-- A host core reads a register of the interface. -/
def State.hostRead (s : State) (off : Nat) : State := s.modHost fun h => { h with rdata := h.read off }
/-- HOST_REG_WRITE (R359): the ring bases and sizes and the state page's base, ignored while EN is 1. -/
def execHostRegWrite (off : Nat) (v : W64) (s : State) : Out :=
  if s.host.en then .next s
  else .next <| s.modHost fun h =>
    if off = 0x08 then { h with cqbase := v &&& 0xFFFFFFF000 }
    else if off = 0x10 then { h with cqlog := v.setWidth 5 }
    else if off = 0x18 then { h with eqbase := v &&& 0xFFFFFFF000 }
    else if off = 0x20 then { h with eqlog := v.setWidth 5 }
    else if off = 0x28 then { h with stbase := v &&& 0xFFFFFFFFC0 }
    else h
/-- HICTL_WRITE (R359): EN, ignored while a ring size is out of force; with EN = 0 the device reads no command. -/
def execHictlWrite (v : W64) (s : State) : Out :=
  if !(ringOk s.host.cqlog && ringOk s.host.eqlog) then .next s
  else .next (s.modHost fun h => { h with en := v.getLsbD 0, want := h.want && v.getLsbD 0 }).statePage
/-- EQACK_WRITE (R362). -/
def execEqackWrite (v : W64) (s : State) : Out := .next (s.modHost fun h => { h with evack := v.setWidth 32 }).statePage

/-! ## Events (R360, R362) -/

/-- A command completes with one CmdDone event (R361, R365). -/
def State.cmdEvent (s : State) (seqNo : W32) (status detail : Nat) : State :=
  s.event 0x0001 [BitVec.ofNat 64 (detail * 2 ^ 32 + seqNo.toNat)] status

/-- The bits of the arguments that a command names; every other is reserved (R361, R365, R398, R408, R421). -/
def cmdMasks (op : Nat) : Option (List W64) :=
  let all : W64 := BitVec.allOnes 64
  [(0x0000, []), (0x0001, [all, 7]), (0x0002, [all]), (0x0003, [0xFFF]), (0x0004, [0xFFF, 0xFC000000FFFFFFFF]),
    (0x0005, [0xFF, all]), (0x0006, [all, 1]), (0x0007, [0x10FFF, all]), (0x0008, [0xFFF, all]),
    (0x0009, [0x3F07, 0xC000FFFF0000FFFF]), (0x000A, [0xFFFFFFFF]), (0x0100, [0xFF, 7, 0xFFFF, 1]), (0x0101, [1]), (0x0102, []),
    (0x0103, []), (0x0104, [all, all]), (0x0105, [all, all]), (0x0200, [0xFFFFFFFF, 0xFFFFFFFF, 0xFFFF]),
    (0x0201, [0xFFFFFF00FFFFFFFF]), (0x0202, [0xFFFFFF00FFFFFFFF]), (0x0300, [0x1FF, 1]), (0x0301, [all, all]),
    (0x0302, [0x1FF, 0xF, 0xFFFF]), (0x0303, [0x1FF, all]), (0x0304, [0xFFF, all, all]), (0x0305, [0x3FF, 0xFFF, all]),
    (0x0306, [0xFFF, all]), (0x0307, [0xFFF, all]), (0x0308, [7, all, all, 0xFFFF]),
    (0x0309, [0xFFFF, all])].lookup op
/-- Whether a command is assigned and its reserved bits are zero. -/
def Cmd.ok (c : Cmd) : Bool :=
  match cmdMasks c.op with
  | none => false
  | some ms => (List.finRange 7).all fun i => c.args.get i &&& ~~~ (ms.getD i.val 0) == 0

/-- A launch of a context whose teardown is accepted in the same cycle is refused (R316): it leaves its queue with its claim, and where the command that
made it has just completed, its completion says so. -/
def State.refuseLaunch (s : State) (d : DieId) (r : Rec) : State :=
  let s := (s.modDie d fun x =>
    { x with
      queues := x.queues.map fun q => q.filter fun y => y.id != r.id
      draining := x.draining.filter fun e => e.2 != r.id.toNat }).dropRec r
  let seqNo : W64 := (r.w.get 7) &&& 0xFFFFFFFF
  let fix (e : Event) : Event :=
    if fld (r.w.get 7) 63 48 = 0xFFFE && e.code = 1 && e.status = 0 && e.args.getD 0 0 == seqNo then
      { e with status := 3, args := [seqNo + 3 * 2 ^ 32] } else e
  (s.modHost fun h => { h with events := h.events.map fix }).refuseRec 3 seqNo ((recCorr r.w).setWidth 64) r.src
/-- Whether a record is a launch accepted in this cycle (R306, R316). -/
def State.newLaunch (s : State) (ctx : Nat) (r : Rec) : Bool :=
  recCtx r.w == ctx && r.acc == s.now && (r.key == 0 || 1024 ≤ r.key && r.key < requeueKey)
/-- A context is being torn down from the acceptance of the command until a later CTXCREATE of it completes (R315). -/
def State.tearDown (s : State) (ctx : Nat) : State :=
  let s := { s with torn := if s.torn.contains ctx then s.torn else ctx :: s.torn }
  (List.finRange 8).foldl (fun s d =>
    let rs := (s.die d).queues.toList.flatten.filter (s.newLaunch ctx)
    let s := rs.foldl (fun s r => s.refuseLaunch d r) s
    -- one that a bank has taken in the same cycle has not started
    ((List.finRange 64).flatMap fun i => [(0 : BankId), 1].map fun b => (⟨⟨64 * d.val + i.val, by omega⟩, b, 0, 0⟩ : Who)).foldl (fun s w =>
      match (s.bank w).task with
      | some r => if s.newLaunch ctx r then (s.freeBank w).refuseLaunch d r else s
      | none => s) s) s
/-- The dies that a mask names, ascending. -/
def maskDies (m : W64) : List DieId := (List.finRange 8).filter fun d => m.getLsbD d.val
/-- The parameters of a block (R313). -/
def SchedPar.ofBlock (bs : List Byte) : SchedPar :=
  let n (o k : Nat) : Nat := leNat ((bs.drop o).take k)
  { drainth := BitVec.ofNat 32 (n 0 4), killth := BitVec.ofNat 32 (n 4 4), steal := n 8 1 % 2 == 1
    blevel := BitVec.ofNat 4 (n 9 1), bmib := BitVec.ofNat 32 (n 16 4) }
/-- SCHEDPARAM is accepted (R313, R365): the device reads the block, and the named dies take it from the next cycle. -/
def State.takeParams (s : State) (dies pa : W64) : State :=
  if fld pa 5 0 != 0 then s
  else
    let p := SchedPar.ofBlock (s.mem.readN pa.toNat 64)
    (maskDies dies).foldl (fun s d => s.modDie d fun x => { x with parNext := some p }) s
/-- A die's parameters at the end of a cycle: those of the scheduler (R313) and of the trace ring, whose counts go on from the cycle's
when it is only disabled (R421). -/
def Die.parCommit (d : Die) : Die :=
  let d := match d.traceNext with
    | none => d
    | some t => { d with traceNext := none, trace := if t.on then t else { d.trace with on := false } }
  match d.parNext with
  | none => d
  | some p =>
    { d with parNext := none, drainth := p.drainth, killth := p.killth, steal := p.steal, blevel := p.blevel, bmib := p.bmib }
/-- A command is accepted (R361): one of no assigned OP, or with a reserved bit set, completes with STATUS 1; before CKPTRESTORE
any other completes with STATUS 3 (R405). -/
def State.acceptCmd (s : State) (c : Cmd) (hdr : Nat) : State :=
  let s := s.modHost fun h => { h with cmdacc := c.seqNo }
  if !c.ok || hdr != 0 then s.cmdEvent c.seqNo 1 0
  else if s.afterPower && c.op != 0x0102 then s.cmdEvent c.seqNo 3 0
  else
    let s := if c.op = 0x0102 then { s with afterPower := false } else s
    let s := if c.op = 0x0003 then s.tearDown (fld (c.args.get 0) 11 0) else s
    let s := if c.op = 0x0005 then s.takeParams (c.args.get 0) (c.args.get 1) else s
    s.modHost fun h => { h with cmds := h.cmds ++ [c] }
/-- The agent that wrote a word last, and where it is a host core its view when it made the write (R305). -/
def State.writerOf (s : State) (w : Nat) : Nat × View :=
  match (s.nth w (s.lastIdx w)).2 with
  | some r => (r.writer, match r.parts with
    | p :: _ => if p.agent = r.writer && homeAgent < r.writer then p.view else {}
    | [] => {})
  | none => (homeAgent, {})
/-- Reads slots from CMDACC + 1 on (R361) until one is not the next command, or the pending store is too full (R362). -/
def State.readSlots : Nat → State → State
  | 0, s => s
  | n + 1, s =>
    let h := s.host
    if !h.want || !h.en || 4032 < h.events.length || s.loss != .none then s
    else
      let i := h.cmdacc + 1
      let a := h.cqbase.toNat + (i.toNat % 2 ^ h.cqlog.toNat) * 64
      let w (k : Nat) : W64 := BitVec.ofNat 64 (s.mem.readLe (a + 8 * k) 8)
      if ivLt h.cqbell i || (w 0).setWidth 32 != i then s.modHost fun h => { h with want := false }
      else
        State.readSlots n (s.acceptCmd
          { seqNo := i, op := fld (w 0) 47 32, args := Vector.ofFn fun k => w (k.val + 1), by_ := (s.writerOf (a / 8)).1
            view := (s.writerOf (a / 8)).2 } (fld (w 0) 63 48))
/-- CQBELL_WRITE (R361): the device reads the slots after CMDACC. With EN = 0 it reads none (R359). -/
def execCqbellWrite (v : W64) (s : State) : Out :=
  let s := s.modHost fun h => { h with cqbell := v.setWidth 32, want := h.en }
  .next (s.readSlots 65537).statePage
/-- EVENT_WRITE (R362): the oldest pending event goes to the ring when the host has left room. -/
def execEventWrite (s : State) : Out :=
  let h := s.host
  match h.events with
  | [] => .next s
  | e :: rest =>
    let n := h.eviss + 1
    if !h.en || (BitVec.ofNat 32 (2 ^ h.eqlog.toNat)).slt (n - h.evack) then .next s
    else
      let a := h.eqbase.toNat + (n.toNat % 2 ^ h.eqlog.toNat) * 64
      let w0 : W64 := BitVec.ofNat 64 (e.status * 2 ^ 48 + e.code * 2 ^ 32 + n.toNat)
      let s := s.putBytes homeAgent (a + 8) (wordBytes ((List.range 7).map fun i => e.args.getD i 0))
      let s := s.putBytes homeAgent a (leBytes 8 w0.toNat)
      let s := s.modHost fun h =>
        { h with
          eviss := n, events := rest
          cmddone := if e.code = 1 then (e.args.getD 0 0).setWidth 32 else h.cmddone }
      .next (s.readSlots 65537).statePage

/-! ## Commands (R361, R365) -/

/-- A started command completes. -/
def State.cmdDone (s : State) (c : Cmd) (status : Nat) (detail : Nat := 0) : State :=
  (s.modHost fun h => { h with running := h.running.filter fun x => x.seqNo != c.seqNo }).cmdEvent c.seqNo status detail
/-- A turn of the commands of one OP: the next accepted command starts, no earlier than the cycle after its predecessor (R361), or
a started one goes on, an open choice. Nothing happens while the pending store is full (R362) or the loss sequence runs (R403). -/
def State.cmdTurn (s : State) (op : Nat) (start go : Cmd → State → State) : Out :=
  if 4096 ≤ s.evWaiting || s.loss != .none then .next s
  else
    let rs := s.host.running.filter (·.op == op)
    let head := match s.host.cmds with
      | c :: _ => if c.op == op && s.host.started ≤ s.now then [c] else []
      | [] => []
    let (k, s) := s.choose (rs.length + head.length)
    match rs[k]?, head with
    | some c, _ => .next (go c s)
    | none, c :: _ =>
      .next (start c (s.modHost fun h =>
        { h with cmds := h.cmds.drop 1, running := h.running ++ [c], started := s.now + 1 }))
    | none, [] => .next s
/-- A started command notes how far it has come. -/
def State.cmdNote (s : State) (c : Cmd) (n : Nat) : State :=
  s.modHost fun h => { h with running := h.running.map fun x => if x.seqNo = c.seqNo then { x with step := n } else x }
/-- A command that completes when it starts. -/
def State.cmdOnce (s : State) (op : Nat) (run : Cmd → State → State) : Out := s.cmdTurn op run fun _ s => s
/-- The words at a physical address as the device reads them. -/
def State.physWords (s : State) (pa n : Nat) : List W64 := s.memWords pa n

/-- CMD_NOP (R365). -/
def execCmdNop (s : State) : Out := s.cmdOnce 0x0000 fun c s => s.cmdDone c 0
/-- LAUNCH (R365, R302): the record at a physical address is offered as a host launch, with the view of the core that
wrote the command, as it was then (R305). -/
def execLaunch (s : State) : Out := s.cmdOnce 0x0001 fun c s =>
  let pa := c.args.get 0
  if fld pa 5 0 != 0 then s.cmdDone c 2
  else
    let ws := s.physWords pa.toNat 8
    let w := recWords (ws.modify 7 fun x => setFld (setFld x 63 48 0xFFFE) 31 0 c.seqNo.toNat)
    let d : DieId := ⟨fld (c.args.get 1) 2 0 % 8, by omega⟩
    match s.recReason d .host w with
    | 0 => ((s.acceptRec d (Origin.host.key 0) w c.view pa).2).cmdDone c 0
    | n => (s.refuseRec n (c.seqNo.setWidth 64) ((recCorr w).setWidth 64) pa).cmdDone c 3 n

/-- The block of CTXCREATE without the bits that its fields reserve, which are ignored (R6, R331, R345, R366). -/
def ctxBlock (w : Vector W64 12) : Vector W64 12 :=
  let m : List W64 := [0xFFF, 0xFFFFFFF000, BitVec.allOnes 64, 0x01FFFFFFFFFFFFFF, BitVec.allOnes 64, BitVec.allOnes 64, 0x07FF07FF,
    0x01FFFFFF00FFFFFF]
  Vector.ofFn fun i => w.get i &&& m.getD i.val (BitVec.allOnes 64)
/-- The block of CTXCREATE keeps its limits (R320, R331, R333, R366). -/
def ctxBlockOk (w : Vector W64 12) : Bool :=
  fld (w.get 2) 63 57 == 0 && fld (w.get 2) 1 0 == 0 && (w.get 3).toNat % 4096 == 0 && (w.get 4).toNat % 64 == 0 &&
  1 ≤ (w.get 5).toNat && (w.get 5).toNat ≤ 512 && wsrangeOk (w.get 6) && spwinOk (w.get 7) &&
  (w.get 8).toNat % 4096 == 0 && (w.get 11).toNat % 4096 == 0 &&
  areaNeeds (w.get 6) (w.get 7) (w.get 10).toNat ≤ fld (w.get 9) 63 32 * 4096
/-- The lines of a core's instruction store (R320): 32 KiB. -/
abbrev storeLines : Nat := 512
/-- The handler's lines stand in every core's instruction store from the line of TVEC (R320). DESIGN CHOICE (log 100): the lines of
other contexts are locked in place, and those of this one for which no room is left are not held. -/
def State.loadHandler (s : State) (w : Vector W64 12) : State :=
  let ctx : BitVec 12 := (w.get 0).setWidth 12
  let base := (w.get 2).toNat / 64 * 64
  let ls := (List.range (w.get 5).toNat).map fun i =>
    (ctx, base + 64 * i, BitVec.ofNat 512 (s.mem.readLe ((w.get 4).toNat + 64 * i) 64))
  { s with cores := s.cores.map fun k => { k with istore := (k.istore.filter (fun x => x.1 != ctx) ++ ls).take storeLines } }
/-- CTXCREATE (R366). -/
def execCtxcreate (s : State) : Out := s.cmdOnce 0x0002 fun c s =>
  let pa := c.args.get 0
  let w : Vector W64 12 := ctxBlock (Vector.ofFn fun i => BitVec.ofNat 64 (s.mem.readLe (pa.toNat + 8 * i.val) 8))
  if fld pa 5 0 != 0 || !ctxBlockOk w || (NMap.get? s.ctxs (w.get 0).toNat).isSome then s.cmdDone c 2
  else
    let s := s.loadHandler w
    let x : Ctx := { blk := w, free := List.range (fld (w.get 9) 31 0) }
    -- an earlier create does not undo a teardown that has been accepted since
    let later := s.host.cmds.any fun y => y.op == 0x0003 && fld (y.args.get 0) 11 0 == (w.get 0).toNat
    { s with
      ctxs := NMap.put s.ctxs (w.get 0).toNat x
      torn := if later then s.torn else s.torn.filter (· != (w.get 0).toNat) }.cmdDone c 0

/-- The banks that hold a task of a context. -/
def State.banksOf (s : State) (ctx : Nat) : List Who :=
  (List.finRange 512).flatMap fun c => (List.finRange 2).filterMap fun b =>
    let k := (s.core c).banks.get b
    if k.task.isSome && k.ctx.toNat == ctx then some ⟨c, b, 0, 0⟩ else none
/-- The records of a context that wait in queues are discarded, with their saves (R315) and their claims (R311). -/
def State.discardRecs (s : State) (ctx : Nat) : State :=
  (List.finRange 8).foldl (fun s d =>
    let gone := (s.die d).queues.toList.flatten.filter fun r => recCtx r.w == ctx
    let s := s.modDie d fun x =>
      { x with
        queues := x.queues.map fun q => q.filter fun r => recCtx r.w != ctx
        draining := x.draining.filter fun e => !(gone.any fun r => r.id.toNat == e.2) }
    gone.foldl (fun s r => { s.dropRec r with saved := NMap.del s.saved (saveKey ctx (r.w.get 5).toNat) }) s) s
/-- A task is stopped as a kill without requeue. -/
def State.killFor (s : State) (w : Who) : State :=
  match (s.bank w).stopping with
  | some (.kill _) => s.modBank w fun k => { k with stopping := some (.kill false) }
  | _ => s.beginKill w false
/-- CTXTEARDOWN (R315): its records are discarded and its tasks stopped; once no bank holds one, the context is gone. -/
def execCtxteardown (s : State) : Out :=
  s.cmdTurn 0x0003
    (fun c s =>
      let ctx := fld (c.args.get 0) 11 0
      if (NMap.get? s.ctxs ctx).isNone then s.cmdDone c 4
      else
        let s := s.discardRecs ctx
        (s.banksOf ctx).foldl (fun s w => s.killFor w) s)
    fun c s =>
      let ctx := fld (c.args.get 0) 11 0
      if s.banksOf ctx != [] then s
      else
        let s := s.discardRecs ctx
        let cores := s.cores.map fun (k : Core) => { k with istore := k.istore.filter fun x => x.1.toNat != ctx }
        let s : State := { s with ctxs := NMap.del s.ctxs ctx, cores := cores }
        s.cmdDone c 0
/-- ACLWRITE (R367). -/
def execAclwrite (s : State) : Out := s.cmdOnce 0x0004 fun c s =>
  { s with acl := NMap.put s.acl (fld (c.args.get 0) 11 0) (c.args.get 1) }.cmdDone c 0
/-- SCHEDPARAM (R313, R365): the dies have taken the block since its acceptance. -/
def execSchedparam (s : State) : Out := s.cmdOnce 0x0005 fun c s => s.cmdDone c (if fld (c.args.get 1) 5 0 != 0 then 2 else 0)

/-! ## Paging (R350-R358) -/

/-- The floors of all agents of one side. -/
def State.floorsAmong (s : State) (p : Nat → Bool) : View :=
  s.agents.foldl (fun v a => if p a.1 then v.join { fl := a.2.view.fl } else v) {}
/-- The agents of the host's side: the device's firmware stands for its software, and the host cores. -/
def hostSide (a : Nat) : Bool := homeAgent ≤ a && a < peerAgent
/-- A page passes to the device (R264): the host side's release at `.mod`, and the acquire of every device agent. -/
def State.takePages (s : State) : State :=
  let v := s.floorsAmong hostSide
  { s with
    agents := s.agents.map fun a => if a.1 < homeAgent then (a.1, { a.2 with view := a.2.view.join v }) else a
    unseen := s.unseen.join v }
/-- A page passes to the host (R264): the release at `.mod` of every device agent, and the host side's acquire. -/
def State.givePages (s : State) : State :=
  let v := s.floorsAmong fun a => decide (a < homeAgent)
  ((List.range 33).map (homeAgent + ·)).foldl (fun s a => s.modAgent a fun g => { g with view := g.view.join v }) s
/-- PAGEANSWER (R350, R351, R356). -/
def execPageanswer (s : State) : Out := s.cmdOnce 0x0006 fun c s =>
  let tok := c.args.get 0
  match s.takePages.answer ⟨fld tok 40 32 % 512, by omega⟩ tok ((c.args.get 1).getLsbD 0) with
  | some s => s.cmdDone c 0
  | none => s.cmdDone c 4
/-- SHOOTDOWN (R353) at module scope: it waits for every access through an entry that goes. -/
def execShootdown (s : State) : Out :=
  let go (c : Cmd) (s : State) : State :=
    match s.shoot (List.finRange 512) ((c.args.get 0).setWidth 12) ((c.args.get 0).getLsbD 16) (c.args.get 1).toNat with
    | some s => s.cmdDone c 0
    | none => s
  s.cmdTurn 0x0007 go go
/-- The page of a context's address, by its table. -/
def State.pageWalk (s : State) (ctx va : Nat) : Walk × State :=
  match NMap.get? s.ctxs ctx with
  | none => (.absent 0, s)
  | some x => walk (s.fence (tlbAgent 0 0) 4) (tlbAgent 0 0) va 4 (fld (x.blk.get 1) 39 12 * 4096)
/-- Counted lines of a range pass to the host as R264 has it: a LIVE line is written home, a SNUFFED one released;
and no die keeps a duplicate of a line of it (R356 step 3). -/
def State.uncountRange (s : State) (lo n : Nat) : State :=
  { s with
    holders := s.holders.filter fun x => !(lo ≤ 256 * x.1 && 256 * x.1 < lo + n)
    dies := s.dies.map fun d => { d with dir := d.dir.filter fun e => !(lo ≤ 256 * e.1 && 256 * e.1 < lo + n) } }
/-- Whether any agent still has an access under way to a range (R356 step 3). -/
def State.rangeBusy (s : State) (lo n : Nat) : Bool :=
  let hit (e : WEnt) : Bool := e.parts.any fun p => lo ≤ 8 * p.word && 8 * p.word < lo + n
  s.flight.any hit || s.agents.any (fun a => a.2.sb.any hit) || (List.finRange 512).any fun c => s.underWay c [(lo, n)]
/-- PAGERELEASE (R356): a shoot-down of the page, the end of every access to it, the release of its counted lines, and its passing to the
host. -/
def execPagerelease (s : State) : Out :=
  let go (c : Cmd) (s : State) : State :=
    let ctx := fld (c.args.get 0) 11 0
    let va := (c.args.get 1).toNat
    if (NMap.get? s.ctxs ctx).isNone then s.cmdDone c 4
    else match s.shoot (List.finRange 512) (BitVec.ofNat 12 ctx) false va with
      | none => s
      | some s =>
        match s.pageWalk ctx va with
        | (.leaf l e, s) =>
          let lo := pteAddr e / 2 ^ pageBits l * 2 ^ pageBits l
          let n := 2 ^ pageBits l
          if s.rangeBusy lo n then s else (s.uncountRange lo n).givePages.cmdDone c 0
        | (.later, s) => s
        | (_, s) => s.cmdDone c 0
  s.cmdTurn 0x0008 go go
/-- The bytes of a range read zero, its lines are not counted and nothing of it is uncorrectable (R358). -/
def State.wipe (s : State) (inside : Nat → Bool) : State :=
  { s with
    mem := s.mem.filter fun c => !inside c.1
    hist := s.hist.filter fun h => !inside (8 * h.1)
    poison := s.poison.filter fun p => !inside (8 * p)
    dies := s.dies.map fun d => { d with dir := d.dir.filter fun e => !inside (256 * e.1) } }
/-- GANGWRITE (R358): a write that changes G of any offset wipes what it changes. -/
def execGangwrite (s : State) : Out := s.cmdOnce 0x0009 fun c s =>
  let d : DieId := ⟨fld (c.args.get 0) 2 0 % 8, by omega⟩
  let old := (s.die d).gang
  let new := vset old ⟨fld (c.args.get 0) 13 8 % 64, by omega⟩ (c.args.get 1)
  let s := s.modDie d fun x => { x with gang := new }
  let changed (a : Nat) : Bool := a / 2 ^ 37 == d.val && gangOf old (a % 2 ^ 37 / 2 ^ 21) != gangOf new (a % 2 ^ 37 / 2 ^ 21)
  (s.wipe changed).cmdDone c 0
/-- SAVEFCLEAR (R336). -/
def execSavefclear (s : State) : Out := s.cmdOnce 0x000A fun c s =>
  let id : W32 := (c.args.get 0).setWidth 32
  let ws := (List.finRange 512).flatMap fun x => (List.finRange 2).filterMap fun b =>
    let k := (s.core x).banks.get b
    if k.task.isSome && k.recid == id then some (⟨x, b, 0, 0⟩ : Who) else none
  match ws with
  | [] => s.cmdDone c 4
  | w :: _ => (s.modBank w fun k => { k with savef := false }).cmdDone c 0

end Sys2Proof.Machine
end

