-- ==== Sys2Proof/Machine/Lamp.lean ====
section
/-! DEFINITION. The lamplighter of a cluster (R161, R162): LAMPLIGHTER_APPLY. -/
namespace Sys2Proof.Machine

/-- The code of the lamplighter in R76. -/
abbrev lampCode : Byte := 0x21
/-- The lamplighter as it acts for a command. -/
def LCmd.eng (c : LCmd) : Eng :=
  ⟨c.who, cluAgent (cluOf c.who.c) 1, 0, 4, c.ctx, c.view.int c.who.ivKey, none, c.refused, some (16 * c.who.c.val + 4)⟩
/-- Writes of lists are told from the others, so that a list's completion waits for its own. -/
def LCmd.ref (c : LCmd) (list : Bool) : CmdRef := ⟨c.who.c.val, if list then 4 else 8, c.id⟩

/-- The words of a bitmap at scratchpad offset `off` that bits t to t + n - 1 touch, each with the mask of those bits. -/
def bitWords (off t n : Nat) : List (Nat × Nat) :=
  (List.range ((t + n - 1) / 64 - t / 64 + 1)).map fun i =>
    let w := t / 64 + i
    let lo := if w * 64 < t then t - w * 64 else 0
    let hi := Nat.min 64 (t + n - w * 64)
    (off + 8 * w, 2 ^ hi - 2 ^ lo)
/-- Sets or clears bits, word by word; the first word that fails ends it. -/
def State.lampBits (s : State) (c : LCmd) (set : Bool) : List (Nat × Nat) → Except EStop Unit × State
  | [] => (.ok (), s)
  | (a, m) :: ws =>
    match s.engRead c.eng (spEa a) 8 false with
    | (.error e, _, s) => (.error e, s)
    | (.ok bs, _, s) =>
      let v : W64 := BitVec.ofNat 64 (leNat bs)
      let mask : W64 := BitVec.ofNat 64 m
      let v := if set then v ||| mask else v &&& ~~~ mask
      match s.engWrite c.eng (spEa a) (leBytes 8 v.toNat) false (c.ref false) with
      | (.error e, s) => (.error e, s)
      | (.ok _, s) => s.lampBits c set ws
/-- Zeroes `n` words of a bitmap: for a list, whose completion follows them (R99, R161), or a bind. -/
def State.lampZero (s : State) (c : LCmd) (list : Bool) (off : Nat) : Nat → Except EStop Unit × State
  | 0 => (.ok (), s)
  | n + 1 =>
    match s.lampZero c list off n with
    | (.error e, s) => (.error e, s)
    | (.ok _, s) =>
      match s.engWrite c.eng (spEa (off + 8 * n)) (leBytes 8 0) false (c.ref list) with
      | (.error e, s) => (.error e, s)
      | (.ok _, s) => (.ok (), s)
/-- The words of a bitmap, as one number. -/
def State.lampRead (s : State) (c : LCmd) (off : Nat) : Nat → Except EStop Nat × State
  | 0 => (.ok 0, s)
  | n + 1 =>
    match s.lampRead c off n with
    | (.error e, s) => (.error e, s)
    | (.ok v, s) =>
      match s.engRead c.eng (spEa (off + 8 * n)) 8 false with
      | (.error e, _, s) => (.error e, s)
      | (.ok bs, _, s) => (.ok (v + leNat bs * 2 ^ (64 * n)), s)
/-- The far homes of a command with that of a location written (R273). -/
def LCmd.farWith (c : LCmd) (l : Nat) : LCmd :=
  if homeDie l = dieOf c.who.c || c.far.contains (homeDie l).val then c else { c with far := c.far ++ [(homeDie l).val] }
/-- Writes the indices of a list, four bytes each (R161). -/
def State.lampIndices (s : State) (c : LCmd) (va : W64) : List Nat → Except EStop LCmd × State
  | [] => (.ok c, s)
  | t :: ts =>
    match s.engWrite c.eng va (leBytes 4 t) false (c.ref true) with
    | (.error e, s) => (.error e, s)
    | (.ok l, s) => s.lampIndices (c.farWith l) (va + 4) ts
/-- Writes the count to its extent (R157, R158, R161). -/
def State.lampExtent (s : State) (c : LCmd) (shape : W64) (n : Nat) : Except EStop LCmd × State :=
  if shape = 0 then (.ok c, s)
  else
    let at_ := (shape &&& ~~~ (63 : W64)) + BitVec.ofNat 64 (8 * fld shape 5 3)
    match s.engRead c.eng at_ 8 false with
    | (.error e, _, s) => (.error e, s)
    | (.ok bs, _, s) =>
      match s.engWrite c.eng ((extDirect (BitVec.ofNat 64 (leNat bs))).getD (at_ + 4)) (leBytes 4 n) false (c.ref true) with
      | (.error e, s) => (.error e, s)
      | (.ok l, s) => (.ok (c.farWith l), s)
/-- A list's work (R161): the command with the homes of its writes. -/
def State.lampList (s : State) (c : LCmd) (b : LMap) (va shape : W64) (cap : Nat) (clr : Bool) : Except EStop LCmd × State :=
  match s.lampRead c b.addr (bitmapBytes b.w b.h / 8) with
  | (.error e, s) => (.error e, s)
  | (.ok v, s) =>
    let ts := (List.range (b.w * b.h)).filter v.testBit
    match s.lampIndices c va (ts.take cap) with
    | (.error e, s) => (.error e, s)
    | (.ok c, s) =>
      match s.lampExtent c shape ts.length with
      | (.error e, s) => (.error e, s)
      | (.ok c, s) =>
        if clr then
          match s.lampZero c true b.addr (bitmapBytes b.w b.h / 8) with
          | (.error e, s) => (.error e, s)
          | (.ok _, s) => (.ok c, s)
        else (.ok c, s)

/-- The view of a core's walker as an attempt that is undone has left it, with the choices it has taken (R342). -/
def State.keepWalk (s t : State) (c : CoreId) : State :=
  if t.choice = s.choice then s
  else { s.modAgent (tlbAgent c 0) (fun g => { g with view := (t.agent (tlbAgent c 0)).view }) with choice := t.choice }
/-- A command that has started and waits stays the head, and occupies no entry of the FIFO (R222). -/
def State.lampWaits (s : State) (u : CluId) (c : LCmd) : State :=
  s.modClu u fun x => { x with lamp := { c with started := true } :: x.lamp }
/-- A command that does not fail leaves `t`; one that meets a missing page, a fenced home or no path waits as the head, with what it
did undone but for what the walker has read of tables (R342, R351, R386); one that fails ends, its cause at C (R143). -/
def State.lampEnds {α : Type} (s : State) (u : CluId) (c : LCmd) (r : Except EStop α × State) : State :=
  match r with
  | (.ok _, t) => t
  | (.error .later, t) => (s.keepWalk t c.who.c).lampWaits u c
  | (.error (.fault va pf), t) =>
    let (tok, s) := (s.keepWalk t c.who.c).postFault c.eng va pf
    s.lampWaits u { c with tok := tok.map fun t => (t, va) }
  | (.error (.fail cause va), t) => t.engEnd c.who 4 c.nth cause va lampCode
/-- Marks or clears of a command, by the binding that stands. -/
def State.lampMark (s : State) (u : CluId) (c : LCmd) : State :=
  match c.kind with
  | .mark m t n => match (s.clu u).maps.get m with
    | some b => s.lampEnds u c (s.lampBits c true (bitWords b.addr t n))
    | none => s
  | .clear m t n => match (s.clu u).maps.get m with
    | some b => s.lampEnds u c (s.lampBits c false (bitWords b.addr t n))
    | none => s
  | _ => s
/-- The marks and clears of one part, in order; where one waits, those after it wait behind it (R162). -/
def State.lampPart (s : State) (u : CluId) : List LCmd → State
  | [] => s
  | c :: cs =>
    let t := s.lampMark u c
    if (t.clu u).lamp.length = (s.clu u).lamp.length then t.lampPart u cs
    else t.modClu u fun x => { x with lamp := x.lamp.take 1 ++ cs ++ x.lamp.drop 1 }
def LCmd.isMark (c : LCmd) : Bool := match c.kind with
  | .mark _ _ _ => true
  | _ => false
def LCmd.isClear (c : LCmd) : Bool := match c.kind with
  | .clear _ _ _ => true
  | _ => false

/-- The number that a waiting `act.count` takes. -/
def State.countResult (s : State) (c : LCmd) (id : Nat) (v : W64) : State :=
  if s.alive c.who && ((s.sq c.who).waitCmd.any fun x => x.1 == id) then
    s.modSeq c.who fun q => { q with waitCmd := some (id, v) }
  else s
/-- The head command applies alone: a bind, a list, a count (R161, R162); a count whose read fails
gives an open value. -/
def State.lampHead (s : State) (u : CluId) (c : LCmd) : State :=
  match c.kind with
  | .bind m addr w h =>
    let s := s.modClu u fun x => { x with maps := vset x.maps m (some ⟨addr, w, h⟩) }
    s.lampEnds u c (s.lampZero c false addr (bitmapBytes w h / 8))
  | .list m va shape cap clr _ =>
    match (s.clu u).maps.get m with
    | none => s
    | some b =>
      match s.lampList c b va shape cap clr with
      | (.ok c, t) => t.lampWaits u { c with fin := true }
      | r => s.lampEnds u c r
  | .count m id =>
    match (s.clu u).maps.get m with
    | none => s
    | some b =>
      match s.lampRead c b.addr (bitmapBytes b.w b.h / 8) with
      | (.ok v, t) => t.countResult c id (BitVec.ofNat 64 ((List.range (b.w * b.h)).filter v.testBit).length)
      | (.error (.fail cause va), t) =>
        let (v, t) := t.fresh
        (t.engEnd c.who 4 c.nth cause va lampCode).countResult c id v
      | (.error e, t) => s.lampEnds (α := Unit) u c (.error e, t)
  | _ => s

/-- LAMPLIGHTER_APPLY (R162): the marks and clears at the head that arrived in one earlier cycle, clears first; or one bind, list
or count. A list completes once its writes are applied, through a message from each far home (R273). Commands of a task that is
being stopped go on (R332). -/
def execLamplighterApply (u : CluId) (s : State) : Out :=
  match (s.clu u).lamp with
  | [] => .next s
  | c :: rest =>
    if s.now ≤ c.arrived || c.tok.isSome then .next s
    else if c.fin then
      let cfl := match c.kind with
        | .list _ _ _ _ _ f => f
        | _ => none
      .next (s.awaitHomes c.who (cluAgent u 1) (c.ref true) c.far c.sent c.got
        (fun s d => s.modClu u fun x => { x with lamp := { c with sent := d :: c.sent } :: rest })
        fun s => (s.modClu u fun x => { x with lamp := rest }).engDone c.who cfl (cluAgent u 1) lampCode)
    else if c.isMark || c.isClear then
      let part := (c :: rest).takeWhile fun x => (x.isMark || x.isClear) && x.arrived == c.arrived
      let s := s.modClu u fun x => { x with lamp := (c :: rest).drop part.length }
      let s := part.foldl (fun s x => s.engStart (cluAgent u 1) x.view) s
      .next (s.lampPart u (part.filter (·.isClear) ++ part.filter (·.isMark)))
    else
      let s := (s.modClu u fun x => { x with lamp := rest }).engStart (cluAgent u 1) c.view
      .next (s.lampHead u c)

end Sys2Proof.Machine
end

