-- ==== Sys2Proof/Machine/MatrixEngine.lean ====
section
/-! DEFINITION. The matrix engine (R184, R191-R201, R226, R230-R243): what starts, the rows it pops, the products and ranks
that land, and completion. -/
namespace Sys2Proof.Machine

/-! ## Elements and planes (R32, R154, R240-R242) -/

/-- Element `i` of a row payload in a format: packed from the lowest bit upward (R32). -/
def rowElem (c : Nat) (p : Payload) (i : Nat) : Nat := p.toNat >>> (fmtWidth c * i) % 2 ^ fmtWidth c
/-- A value times an S9 scale; code 511 makes it NaN (R33, R195). -/
def Fv.scale (v : Fv) (c : Nat) : Fv :=
  match s9 c, v with
  | none, _ => .nan false
  | some x, .num n m e => .num n m (e + x)
  | some _, v => v

def Plane.fmt (p : Plane) : Nat := slotFmt p.slot true
def Plane.sch (p : Plane) : Nat := slotSch p.slot true
def Plane.ne (p : Plane) : Nat := planeNe p.slot
/-- The S9 container or the parameter word at an index of a slice. -/
def Plane.s9At (p : Plane) (c : Fin 64) (i : Nat) : Nat := (p.par.get c).toNat >>> (16 * i) % 512
def Plane.gaAt (p : Plane) (c : Fin 64) (i : Nat) : Nat := (p.par.get c).toNat >>> (32 * i) % 2 ^ 32
/-- Logical element `k` of a slice, stored at index `i`, under the plane's scheme. -/
def Plane.value (p : Plane) (c : Fin 64) (k i : Nat) : Fv :=
  let v := fmtDec p.fmt (rowElem p.fmt (p.vals.get c) i)
  match p.sch with
  | 1 => v.scale (p.s9At c (k / 16))
  | 2 => v.scale (p.s9At c (k / 32))
  | _ => v
/-- The kept pair of a metadata code (R154). -/
def keptPair : Nat → List Nat
  | 0 => [0, 1] | 1 => [0, 2] | 2 => [0, 3] | 3 => [1, 2] | 4 => [1, 3] | 5 => [2, 3] | _ => []
/-- For each logical position of the groups from `g` on, the index of its stored value, if it is kept (R154, R241). -/
def keptFrom (info : BitVec 1024) : Nat → Nat → Nat → List (Option Nat)
  | 0, _, _ => []
  | n + 1, g, at_ =>
    let ps := keptPair (info.toNat >>> (4 * g) % 16)
    (List.range 4).map (fun j => (ps.findIdx? (· == j)).map (at_ + ·)) ++ keptFrom info n (g + 1) (at_ + ps.length)
/-- The weights w(k, c) of a column: none where a position is pruned (R154). -/
def Plane.column (p : Plane) (c : Fin 64) : List (Option Fv) :=
  if p.sparse then
    (keptFrom (p.info.get c) (p.ne / 2) 0 0).zipIdx.map fun x => x.1.map fun i => p.value c x.2 i
  else if p.trans then
    (List.range p.ne).map fun k => some (p.value ⟨k % 64, by omega⟩ (64 * (k / 64) + c.val) (64 * (k / 64) + c.val))
  else (List.range p.ne).map fun k => some (p.value c k k)

/-! ## Products (R39, R195, R196) -/

/-- The exact sum of terms under IEEE rules: any NaN, or infinities of both signs, gives NaN, the latter with NV; an exact
zero is +0 (R195). -/
def exactSum (xs : List Fv) : Fv × Flags :=
  let pinf := xs.any (· == .inf false)
  let ninf := xs.any (· == .inf true)
  let fl := if pinf && ninf then fNV else 0
  if xs.any Fv.isNan || (pinf && ninf) then (.nan false, fl)
  else if pinf then (.inf false, 0)
  else if ninf then (.inf true, 0)
  else
    let (i, e) := xs.foldl (fun (acc : Int × Int) x => match x with
      | .num n m e => addSig acc.1 acc.2 (sig n m) e
      | _ => acc) (0, 0)
    (Fv.ofInt false i e, 0)
/-- chain(j, h, row, c) for a scheme other than GA (R195). -/
def chainSum (as : List Fv) (ws : List (Option Fv)) : Fv × Flags :=
  let ts := (as.zip ws).filterMap fun x => x.2.map fun w => Fv.mul x.1 w
  let (x, fl) := exactSum (ts.map (·.1))
  (x, ts.foldl (fun f t => f ||| t.2) fl)
/-- The group result t of R39: P and A over the kept positions, s and z from the parameter word. -/
def groupT (as : List Fv) (ws : List (Option Fv)) (par : Nat) (signed : Bool) : Fv × Flags :=
  let ps := (as.zip ws).filterMap fun x => x.2.map fun w => (x.1, w)
  let z : Int := if signed then (BitVec.ofNat 8 (par >>> 16)).toInt else ((par >>> 16 % 256 : Nat) : Int)
  let s := FFmt.fp16.dec (par % 65536)
  let d : Fv × Flags :=
    if ps.any (fun x => !x.1.finite) then (.nan false, ps.foldl (fun f x => f ||| x.1.snan) 0)
    else
      let p := (exactSum (ps.map fun x => (Fv.mul x.1 x.2).1)).1
      let a := (exactSum (ps.map (·.1))).1
      let za := (Fv.mul (Fv.ofInt false z 0) a).1
      exactSum [p, za.neg]
  let (t, f2) := Fv.mul s d.1
  let (w, fl) := to32 .rn 0 t (d.2 ||| f2)
  (f32 w, fl)
/-- The group size of a GA scheme. -/
def gaSize (sch : Nat) : Nat := if sch = 3 then 32 else if sch = 4 then 64 else 128
/-- The contributions of a row's half to a column, in order, with the flags of their products (R195, R243). -/
def Plane.contributions (p : Plane) (c : Fin 64) (h : Nat) (as : List Fv) : List Fv × Flags :=
  let k0 := h * p.ne
  let ws := (p.column c).drop k0
  if 3 ≤ p.sch then
    let g := gaSize p.sch
    let ts := (List.range ((p.ne + g - 1) / g)).map fun i =>
      groupT ((as.drop (g * i)).take g) ((ws.drop (g * i)).take g) (p.gaAt c (k0 / g + i)) (p.fmt == 8 || p.fmt == 9)
    (ts.map (·.1), ts.foldl (fun f t => f ||| t.2) 0)
  else
    let (x, fl) := chainSum as ws
    ([x], fl)
/-- accumulate(s, x) (R46, R49, R196). -/
def accumulate (anchored : Bool) (anchor : Byte) (s : ASlot) (x : Fv) : ASlot × Flags :=
  if !anchored then
    let (v, f1) := Fv.add (f32 (lo32 s.v)) x
    let (w, fl) := to32 .rn 0 v f1
    ({ s with v := w.setWidth 64 }, fl)
  else
    match x with
    | .nan _ => ({ s with side := s.side ||| 8 }, 0)
    | .inf neg => ({ s with side := s.side ||| (if neg then 2 else 4) }, 0)
    | .num neg m e =>
      let (q, _) := roundGrid neg m e (anchor.toInt - 47) .rn 0
      let sat := 2 ^ 47 - 1 < q
      let n : Int := sig neg (if sat then 2 ^ 47 - 1 else q)
      ({ v := s.v + BitVec.ofInt 64 n, side := if sat then s.side ||| 1 else s.side }, 0)
/-- All contributions to one slot, in order. -/
def accumulateAll (anchored : Bool) (anchor : Byte) (s : ASlot) (xs : List Fv) : ASlot × Flags :=
  xs.foldl (fun (acc : ASlot × Flags) x =>
    let (s, fl) := accumulate anchored anchor acc.1 x
    (s, acc.2 ||| fl)) (s, 0)
/-- Rewrites a slot; one that holds nothing is not listed. -/
def Acc.setSlot (z : Acc) (i : Nat) (x : ASlot) : Acc :=
  { z with slots := if x = {} then NMap.del z.slots i else NMap.put z.slots i x }
/-- The A elements of a half-row with their scales (R195). -/
def rowElems (o : MOp) (j h : Nat) (p : Payload) : List Fv :=
  let c := fld o.slot 3 0
  let ne := fmtPerRow c
  let t := 16 * fld o.slot 15 14
  (List.range ne).map fun i =>
    let v := fmtDec c (rowElem c p i)
    match o.sv with
    | none => v
    | some sv => v.scale (fld (laneAt sv (j / t) ((h * ne + i) / t)) 8 0)

/-! ## Ranks (R198) -/

def scoreClass : Fv → Nat
  | .nan _ => 0
  | .inf true => 1
  | .num _ _ _ => 2
  | .inf false => 3
/-- precedes(a, i, b, k). -/
def precedes (a : Fv) (i : Nat) (b : Fv) (k : Nat) : Bool :=
  if scoreClass a != scoreClass b then scoreClass b < scoreClass a
  else if scoreClass a == 2 && b.lt a then true
  else if scoreClass a == 2 && a.lt b then false
  else i < k
def rankOf (xs : List Fv) (c : Nat) : Nat :=
  match xs[c]? with
  | none => 64
  | some b => (xs.zipIdx.filter fun x => x.2 != c && precedes x.1 x.2 b c).length

/-! ## Rows landing (R194, R198, R233) -/

/-- What a popped row leaves in a column of its tile row, and its flags: poison, a rank, or a contribution (R194, R198). -/
def Bank.landCol (k : Bank) (o : MOp) (r : PRow) (c : Fin 64) (s : ASlot) : ASlot × Flags :=
  if r.row.hdr.getLsbD 32 then ({ s with side := s.side ||| 16 }, 0)
  else if o.rank then
    let xs := (List.range o.nc).map fun i => fmtDec (fld o.slot 3 0) (rowElem (fld o.slot 3 0) r.row.pay i)
    ({ v := BitVec.ofNat 64 (rankOf xs c.val), side := s.side &&& 16 }, if xs.any Fv.isNan then fNV else 0)
  else match k.plane with
    | none => (s, 0)
    | some p =>
      let z := k.z.get o.z
      let (xs, f1) := p.contributions c r.h (rowElems o r.j r.h r.row.pay)
      let (s, f2) := accumulateAll z.mode z.anchor s xs
      (s, f1 ||| f2)
/-- The columns of a popped row that have landed when `n` of them have (R233). -/
def Bank.landRow (k : Bank) (o : MOp) (r : PRow) (n : Nat) : Bank × Flags :=
  if !r.contributes then (k, 0)
  else ((List.finRange 64).filter fun c => r.col ≤ c.val && c.val < n).foldl (fun (acc : Bank × Flags) c =>
    let z := acc.1.z.get o.z
    let (x, fl) := acc.1.landCol o r c (z.slot (64 * r.j + c.val))
    ({ acc.1 with z := vset acc.1.z o.z (z.setSlot (64 * r.j + c.val) x) }, acc.2 ||| fl)) (k, 0)
/-- The columns of a row that have landed at the start of a cycle: column c lands at the end of the cycle 73 + c after the pop. -/
def PRow.landed (p : PRow) (now : Nat) : Nat := Nat.min 64 (now - (p.at_ + 73))
/-- The rows of an operation land in the order in which they were popped (R184, R233). A row whose task has ended leaves nothing. -/
def landRows (now : Nat) (o : MOp) (live : Bool) : List PRow → Bank × Flags → List PRow × Bank × Flags
  | [], (k, fl) => ([], k, fl)
  | p :: ps, (k, fl) =>
    let n := Nat.max p.col (p.landed now)
    let (k, f1) := if live then k.landRow o p n else (k, 0)
    let (rest, k, fl) := landRows now o live ps (k, fl ||| f1)
    (if n = 64 then rest else { p with col := n } :: rest, k, fl)
/-- What has landed by now of the rows in flight of the operations of a core, oldest first. -/
def State.landAllRows (s : State) (c : CoreId) : State :=
  (List.range (s.core c).mRun.length).foldl (fun s i =>
    match (s.core c).mRun[i]? with
    | none => s
    | some r =>
      if r.fly = [] then s
      else
        let (ps, k, fl) := landRows s.now r.o (s.alive r.who) r.fly (s.bank r.who, 0)
        (s.modBank r.who fun _ => k).modCore c fun k =>
          { k with mRun := k.mRun.modify i fun r => { r with fly := ps, flg := r.flg ||| fl } }) s
/-- MATRIX_CONTRIBUTION_LAND (R184, R233): the columns that have landed by the start of this cycle. -/
def execMatrixContributionLand (c : CoreId) (s : State) : Out := .next (if (s.core c).replays then s else s.landAllRows c)

/-! ## MATRIX_CMD_START -/

/-- Whether a queued command starts: the rules of R184 against the commands before it, and none of a task that is being
stopped (R332). -/
def State.matrixStarts (s : State) (k : Core) (i : Nat) : Bool :=
  match k.mFifo[i]? with
  | none => false
  | some m =>
    let earlier := k.mFifo.take i
    let swaps := earlier.any fun x => match x.kind with
      | .swap _ => true
      | _ => false
    let zeros := earlier.any fun x => match x.kind with
      | .zero _ _ _ => true
      | _ => false
    let ops := earlier.any fun x => match x.kind with
      | .op _ => true
      | _ => false
    let loads := earlier.any fun x => match x.kind with
      | .wload _ _ _ _ _ => true
      | _ => false
    !s.halts m.who &&
    (match m.kind with
      | .wload _ _ _ _ _ => !swaps && !loads && k.wRun.isNone
      | .op _ => !swaps && !zeros && !ops && k.mRun.all (·.popped)
      | _ => earlier == [] && k.mRun == [] && (match k.wRun with
        | some r => m.id < r.id
        | none => true))
/-- The code of the matrix engine in R76. -/
def matrixCode (c : CoreId) : Byte := engCode c 1
/-- A matrix command completes: its flag (R99, R184). -/
def State.matrixDone (s : State) (w : Who) (flag : Option (BitVec 5)) : State :=
  s.engDone w (flag.map fun n => ⟨false, n⟩) (engAgent w.c 1) (matrixCode w.c)
/-- The commands and rows in the windows of a core's accumulators (R390). -/
def Core.winCmds (k : Core) : Nat := (k.banks.toList.flatMap (fun b => b.z.toList.map (·.winCmds))).foldl (· + ·) 0
def Core.winRows (k : Core) : Nat := (k.banks.toList.flatMap (fun b => b.z.toList.map (·.winRows))).foldl (· + ·) 0
/-- A tile whose window would pass a limit is marked NOREPLAY, and its window is dropped (R390). -/
def Acc.window (z : Acc) (cmds rows allCmds allRows : Nat) (es : List WinE) : Acc :=
  if z.noReplay then z
  else if 32 < allCmds + cmds || 1024 < allRows + rows then { z with noReplay := true, winCmds := 0, winRows := 0, win := [] }
  else { z with winCmds := z.winCmds + cmds, winRows := z.winRows + rows, win := z.win ++ es }
def State.window (s : State) (w : Who) (z : Fin 8) (cmds rows : Nat) (es : List WinE := []) : State :=
  if !s.alive w then s
  else
    let k := s.core w.c
    s.modBank w fun b => { b with z := vset b.z z ((b.z.get z).window cmds rows k.winCmds k.winRows es) }
/-- The conflict that an `mmul` meets when it starts (R194). -/
def Bank.conflict (k : Bank) (o : MOp) : Nat :=
  let z := k.z.get o.z
  if o.rank || o.bad then 0
  else if o.slot.getLsbD 16 != z.mode || fld o.slot 31 24 != z.anchor.toNat then 1
  else match k.plane with
    | none => 2
    | some p => if fmtPerRow (fld o.slot 3 0) != p.ne then 3 else 0
/-- An operation starts (R194): its conflict, an empty present vector. DESIGN CHOICE (log 96): on an empty plane, for which the spec
gives no sp, sp is 0. -/
def State.opStart (s : State) (m : MCmd) (o : MOp) : State :=
  let k := s.bank m.who
  let cause := k.conflict o
  let sp := !o.rank && (match k.plane with
    | some p => p.sparse
    | none => false)
  let s := if s.alive m.who then
      s.modBank m.who fun k => { k with z := vset k.z o.z { k.z.get o.z with present := 0 } } else s
  let s := s.window m.who o.z 1 0
  s.modCore m.who.c fun c =>
    { c with mRun := c.mRun ++
      [{ i := m.i, id := m.id, nth := m.nth, who := m.who, o := o, cfl := o.bad || cause != 0, cause := cause, closed := m.closed, sp := sp, endAt := s.now + 1 }] }
/-- MATRIX_CMD_START (R184): of the commands that may start, an open choice. -/
def execMatrixCmdStart (c : CoreId) (s : State) : Out :=
  let k := s.core c
  let ok := if k.replays then [] else (List.range k.mFifo.length).filter (s.matrixStarts k)
  let (n, s) := s.choose ok.length
  match ok[n]? with
  | none => .next s
  | some i =>
    match k.mFifo[i]? with
    | none => .next s
    | some m =>
      let s := (s.modCore c fun k => { k with mFifo := k.mFifo.eraseIdx i }).engStart (engAgent c 1) m.view
      if (s.core c).engFenced.get 1 then .next (s.engEnd m.who 1 m.nth cUncorr 0 (matrixCode c))
      else match m.kind with
      | .op o => .next (s.opStart m o)
      | .swap flag =>
        let s := if s.alive m.who then s.modBank m.who fun k => { k with plane := k.shadow, shadow := k.plane } else s
        .next (s.matrixDone m.who flag)
      | .zero z slot flag =>
        let s := if s.alive m.who then s.modBank m.who fun k =>
            { k with z := vset k.z z { mode := slot.getLsbD 16, anchor := BitVec.ofNat 8 (fld slot 31 24) } } else s
        .next (s.matrixDone m.who flag)
      | .wload flag o slot t sparse =>
        .next (s.modCore c fun k => { k with wRun := some ⟨m.id, m.nth, m.who, flag, o, slot, t, sparse, s.now, false⟩ })

/-! ## MATRIX_ROW_POP -/

/-- What a row popped in a cycle does to its operation (R194, R236), and the tile row whose present bit it sets. DEDUCED (log 96): a row
that contributes nothing takes as long as one that does. -/
def MRun.take (r : MRun) (row : Row) (now : Nat) : MRun × Option Nat :=
  let tag := fld row.hdr 31 0
  let u := if r.sp then tag / 2 else tag
  let h := if r.sp then tag % 2 else 0
  let j := (BitVec.ofNat 32 u - r.o.base).toNat
  let r := { r with recv := r.recv + 1, popAt := now, pops := if r.popAt = now then r.pops + 1 else 1 }
  if 256 ≤ j then
    ({ r with oor := r.oor + 1, tagPend := r.tagPend || r.o.mte, fly := r.fly ++ [⟨0, h, row, false, now, 0⟩] }, none)
  else
    let again := r.seen.contains (2 * j + h)
    let counts := !(again && r.o.rej)
    let r := if again then { r with dup := r.dup + 1 } else { r with seen := (2 * j + h) :: r.seen }
    let r := if counts && row.hdr.getLsbD 32 then { r with pois := r.pois + 1 } else r
    let r := { r with fly := r.fly ++ [⟨j, h, row, counts && !r.cfl, now, 0⟩] }
    (r, if again then none else some j)
/-- The PMU code of a popped row by its format (R418). -/
def rowCode (c : Nat) : Nat := if 16 ≤ fmtWidth c then 2 else if fmtWidth c = 8 then 3 else 4
/-- A queue slot as a row. -/
def QSlot.asRow : QSlot → Row
  | .row r _ => r
  | .word v _ => ⟨v, 0⟩
  | .resv _ => ⟨0, 0⟩
/-- Whether an operation may still pop in this cycle: one row, or two under a sparse plane (R232). -/
def MRun.mayPop (r : MRun) (now : Nat) : Bool := r.popAt != now || r.pops < (if r.sp then 2 else 1)
/-- The operation that pops takes its queue's visible head (R194, R232), unless its task stops (R187, R332). The rows of a task that has ended are gone, and an
operation of it that still needs one waits for ever (R132). -/
def State.matrixPop (s : State) (c : CoreId) : State :=
  match (s.core c).mRun.findIdx? (fun r => !r.popped) with
  | none => s
  | some i =>
    match (s.core c).mRun[i]? with
    | none => s
    | some r =>
      if !r.mayPop s.now || !s.alive r.who || s.halts r.who || (s.queue r.who r.o.q).ready s.now = 0 || (s.core c).engFenced.get 1 then s
      else
        match (s.queue r.who r.o.q).ents with
        | [] => s
        | x :: _ =>
          let (r', j) := r.take x.asRow s.now
          let s := s.modQ r.who r.o.q (·.drop 1)
          let es := (r'.fly.getLast?).toList.map fun p => WinE.row r.o (s.bank r.who).plane p
          let s := (s.count r.who (rowCode (fld r.o.slot 3 0)) 1).window r.who r.o.z 0 1 es
          let s := match j with
            | some j => s.modBank r.who fun k =>
                { k with z := vset k.z r.o.z { k.z.get r.o.z with present := (k.z.get r.o.z).present ||| BitVec.ofNat 256 (2 ^ j) } }
            | none => s
          s.modCore c fun k => { k with mRun := k.mRun.modify i fun _ => r' }
/-- MATRIX_ROW_POP (R194, R232): one pop, when the cycle has one left. -/
def execMatrixRowPop (c : CoreId) (s : State) : Out := .next (if (s.core c).replays then s else s.matrixPop c)

/-! ## MATRIX_OP_COMPLETE -/

/-- The status word of a completed operation (R201). -/
def MRun.word (r : MRun) : W64 :=
  BitVec.ofNat 64 (r.recv * 2 ^ 54 + r.dup * 2 ^ 44 + r.oor * 2 ^ 34 + r.pois * 2 ^ 24 + r.flg.toNat * 2 ^ 19 +
    (if r.o.rank then 2 else 1) * 2 ^ 16 + (if r.closed then 2 ^ 15 else 0) + (if r.cfl then 2 ^ 14 else 0) +
    r.cause * 2 ^ 12 + r.o.n)
/-- The absent rows: those expected of its own bag that have not come (R197, R235). -/
def MRun.absent (r : MRun) : BitVec 256 :=
  let n := Nat.min 256 (if r.sp then (r.o.n + 1) / 2 else r.o.n)
  let come := r.seen.foldl (fun (m : BitVec 256) x => m ||| BitVec.ofNat 256 (2 ^ (x / 2))) 0
  ~~~ come &&& BitVec.ofNat 256 (2 ^ n - 1)
/-- An operation is complete: its status, and its flag (R184, R194, R201). -/
def State.opDone (s : State) (c : CoreId) (r : MRun) : State :=
  let s := s.modCore c fun k => { k with mRun := k.mRun.filter fun x => x.id != r.id }
  let s := if s.alive r.who then
      s.modBank r.who fun k => { k with z := vset k.z r.o.z { k.z.get r.o.z with st0 := r.word, absent := r.absent } } else s
  let s := if r.tagPend then s.imprecise r.who 2 cMatrixTag 0 (matrixCode c) else s
  s.matrixDone r.who r.o.flag
/-- Whether an operation is complete (R233): its rows have all been popped and have landed, in an earlier cycle. -/
def MRun.over (r : MRun) (now : Nat) : Bool := r.popped && r.fly == [] && r.endAt ≤ now
/-- MATRIX_OP_COMPLETE (R184, R194, R201, R233): an operation whose rows have all been popped and have landed. Its flag is decremented in
the cycle after that, and in the cycle after its close where none has to land. -/
def execMatrixOpComplete (c : CoreId) (s : State) : Out :=
  match (if (s.core c).replays then none else (s.core c).mRun.find? (fun r => r.over s.now)) with
  | none => .next s
  | some r => .next (s.opDone c r)

/-! ## WLOAD_COMPLETE -/

/-- Reads a plane from the weight SRAM, slice by slice (R154, R240); and whether a slice was uncorrectable. -/
def State.readPlane (s : State) (c : CoreId) (r : WRun) : List (List Byte) × Bool × State :=
  let n := planeBytes r.slot r.sparse
  (List.range 64).foldl (fun (acc : List (List Byte) × Bool × State) k =>
    let l := wsLoc c (65536 * k + r.o)
    let bad := acc.2.2.poisoned l n
    let (bs, s) := acc.2.2.loadBytes (engAgent c 1) l n
    (acc.1 ++ [bs], acc.2.1 || bad, s)) ([], false, s)
/-- The plane of the bytes of 64 slices. -/
def planeOf (r : WRun) (ss : List (List Byte)) : Plane :=
  let info := if r.sparse then planeNe r.slot / 4 else 0
  let at_ (c : Fin 64) : List Byte := ss.getD c.val []
  { vals := Vector.ofFn fun c => bytesPay ((at_ c).take 256)
    info := Vector.ofFn fun c => BitVec.ofNat 1024 (leNat (((at_ c).drop 256).take info))
    par := Vector.ofFn fun c => BitVec.ofNat 1024 (leNat ((at_ c).drop (256 + info)))
    slot := r.slot, trans := r.t, sparse := r.sparse }
/-- An error in an engine of a core fences it, with one ErrorReport (R386, R393). -/
def State.fenceEngine (s : State) (c : CoreId) (e : Fin 4) (w : Who) (cls addr : Nat) : State :=
  if s.fenced.contains (.engine c e) then s
  else
    let t := s.alive w
    let s := s.errorReport 1 cls 0 (16 * c.val + e.val) (BitVec.ofNat 64 addr) (if t then (s.bank w).corr.setWidth 64 else 0)
      (if t then (s.bank w).recid.setWidth 64 else 0)
    { s.modCore c (fun k => { k with engFenced := vset k.engFenced e true }) with
      fenced := .engine c e :: s.fenced, tests := (.engine c e, none) :: s.tests }
/-- A started `wload` reads its plane once its cycles have passed: the shadow plane is replaced and the flag decremented, in the
cycle after the rule's (R154). DEDUCED (log 67): one that reads an uncorrectable word is replayed from the weight SRAM (R187, R391);
where the replay meets it again, it ends without its flag, UncorrectableData is pending for C, and the engine is fenced (R392). -/
def State.wloadStep (s : State) (c : CoreId) : State :=
  match (s.core c).wRun with
  | none => s
  | some r =>
    if s.now ≤ r.start + 16 + planeBytes r.slot r.sparse / 32 || 4096 ≤ s.evWaiting then s
    else
      let (ss, bad, s) := s.readPlane c r
      if bad && !r.again then
        (s.consumed r.who 1 (16 * c.val + 1) (wsLoc c r.o)).modCore c fun k => { k with wRun := some { r with start := s.now, again := true } }
      else
        let s := s.modCore c fun k => { k with wRun := none }
        if bad then (s.engEnd r.who 1 r.nth cUncorr (BitVec.ofNat 64 r.o) (matrixCode c)).fenceEngine c 1 r.who 1 (wsLoc c r.o)
        else
          let s := if s.alive r.who then s.modBank r.who fun k => { k with shadow := some (planeOf r ss) } else s
          s.matrixDone r.who (some r.flag)
/-- WLOAD_COMPLETE (R154). -/
def execWloadComplete (c : CoreId) (s : State) : Out := .next (s.wloadStep c)

/-! ## FOLLOWON_PLACE (R153, R226) -/

/-- The follow-on acts for X: its queue check may fail, and then it has no effect (R153). -/
def State.followOn (s : State) (w : Who) (i : Instr) : State :=
  match i with
  | .mmul f =>
    let o := s.mop w false f
    if s.mqueueOk w o.q then s.matrixEnter w i (.op o) else s.imprecise w 6 cQueue 0 (engCode w.c 0)
  | .mswap f => s.matrixEnter w i (.swap (mFlag f))
  | .mzero f => s.matrixEnter w i (.zero (mZ f) (s.fmtSlot (w.seq 2) f.fmt.toNat) (mFlag f))
  | .mclose f => s.matrixClose w (mZ f)
  | _ => s
/-- Whether a follow-on takes an entry of the matrix FIFO. -/
def needsEntry (i : Instr) : Bool :=
  match i with
  | .mclose _ => false
  | _ => true
/-- Whether a follow-on can be placed: it needs no entry of the matrix FIFO, or one is free; not once its task stops (R332). -/
def State.followFits (s : State) (w : Who) (i : Instr) : Bool := (!needsEntry i || (s.core w.c).matrixRoom) && !s.halts w
/-- A follow-on is placed, and then the copy's flag is decremented (R226). -/
def State.followAct (s : State) (w : Who) (i : Instr) (cfl : Option FlagRef) : State :=
  (if s.alive w then s.followOn (w.seq 2) i else s).engDone w cfl (engAgent w.c 0) (engCode w.c 0)
/-- The follow-on of a landed copy that is held is placed once there is room. -/
def State.followPlace (s : State) (c : CoreId) (id : Nat) : State :=
  match (s.core c).follow.find? (·.1 == id) with
  | none => s
  | some (_, w, iw, e, cfl) =>
    match followOf iw e with
    | none => s
    | some i =>
      if !s.followFits w i then s
      else (s.modCore c fun k => { k with follow := k.follow.filter (·.1 != id) }).followAct w i cfl
/-- FOLLOWON_PLACE (R226): once there is room, the follow-on of a landed copy is placed, and then the copy's flag is
decremented. -/
def execFollowonPlace (c : CoreId) (id : Nat) (s : State) : Out := .next (s.followPlace c id)
/-- A copy's last byte has landed: its follow-on acts in this cycle, or is held while the FIFO is full; or the copy is done (R153, R199,
R226). -/
def State.copyLanded (s : State) (r : Run) : State :=
  match r.cmd.kind with
  | .copy _ _ bytes rows _ _ _ _ follow =>
    let s := s.count r.cmd.who 11 ((bytes * rows + 255) / 256)
    match follow with
    | none => s.runDone r
    | some (w, e) =>
      let s := s.dropRun r.cmd.who.c r.cmd.id
      match followOf w e with
      | none => s
      | some i =>
        if s.followFits r.cmd.who i then s.followAct r.cmd.who i r.cmd.cfl
        else s.modCore r.cmd.who.c fun k => { k with follow := k.follow ++ [(r.cmd.id, r.cmd.who, w, e, r.cmd.cfl)] }
  | _ => s.runDone r
/-- COPY_COMPLETE (R152): a step of a copy. Its words go in an open order, so that overlapping bytes may hold either value; once
all are written and applied it completes, through a message from each far home (R273). That of a task that is being stopped goes on to
a 256-byte boundary (R332). -/
def execCopyComplete (c : CoreId) (id : Nat) (s : State) : Out :=
  match (s.core c).copyRun.find? (·.cmd.id == id) with
  | none => .next s
  | some r =>
    match r.cmd.kind with
    | .copy dst src bytes _ sstr dstr ws cons _ =>
      if (s.core c).engFenced.get 0 then .next (s.runEnd r cUncorr 0)
      else if r.tok.isSome then .next s
      else
      let stopping := s.halts r.cmd.who
      if r.left != [] then
        let todo := if stopping then r.partialLeft else r.left
        let (k, s) := if r.refused.isSome then (0, s) else s.choose todo.length
        let i := if r.refused.isSome then r.pos else todo.getD k 0
        if todo = [] then .next s else
        .next (s.copyWord r i dst src bytes sstr dstr ws cons)
      else .next (s.runHomes r 0 (fun s f => s.modRun c id f) fun s => s.copyLanded r)
    | _ => .next s


/-! ## The engine in a cycle -/

/-- The commands of a fenced matrix engine end (R143, R386). -/
def State.matrixFail (s : State) (c : CoreId) : State :=
  let k := s.core c
  let s := s.modCore c fun k => { k with mRun := [], wRun := none }
  let s := k.mRun.foldl (fun s r => s.engEnd r.who 1 r.nth cUncorr 0 (matrixCode c)) s
  match k.wRun with
  | some r => s.engEnd r.who 1 r.nth cUncorr 0 (matrixCode c)
  | none => s
/-- What an entry of a window does to the slots of its tile again (R391); its flags have been raised. -/
def Bank.redo (k : Bank) (z : Fin 8) (e : WinE) : Bank :=
  match e with
  | .row o p r =>
    let t := (({ k with plane := p }.landRow { o with z := z } { r with col := 0 } 64).1.z.get z).slots
    { k with z := vset k.z z { k.z.get z with slots := t } }
  | .clear blk => { k with z := vset k.z z { k.z.get z with slots := (k.z.get z).slots.filter fun e => e.1 / 1024 != blk } }
/-- One entry of the windows that a core replays, in the order of its tiles (R391): X waits for the last. -/
def State.replayStep (s : State) (c : CoreId) : State :=
  let at_ := (List.finRange 2).flatMap fun b => (List.finRange 8).filterMap fun z =>
    (((s.core c).banks.get b).z.get z).replay.map fun es => (b, z, es)
  match at_ with
  | [] => s
  | (b, z, es) :: _ => s.modBank ⟨c, b, 0, 0⟩ fun k =>
    let k := match es with
      | [] => k
      | e :: _ => k.redo z e
    { k with z := vset k.z z { k.z.get z with replay := if es.length ≤ 1 then none else some (es.drop 1) } }
/-- A tile is discarded, and its window is to be replayed (R391): its slots are cleared, MODE and ANCHOR stand as its `mzero` gave them. Rows
that had not landed whole land afterwards. -/
def State.startReplay (s : State) (w : Who) (z : Fin 8) : State :=
  let mine (r : MRun) : Bool := s.ours w r.who && r.o.z == z
  let n := ((s.core w.c).mRun.filter mine).foldl (fun (n : Nat) r => n + r.fly.length) 0
  let s := s.modBank w fun k =>
    let t := k.z.get z
    { k with z := vset k.z z { t with slots := [], replay := some (t.win.take (t.win.length - n)) } }
  s.modCore w.c fun k =>
    { k with mRun := k.mRun.map fun r => if mine r then { r with fly := r.fly.map fun p => { p with col := 0 } } else r }
/-- What the matrix engine of a core does in a cycle besides starting commands: a held follow-on takes an entry that the last cycle has
freed (R226); what landed at the end of the last one, completions and their flags, a plane, and its pops (R154, R232, R233). While it replays a window it does nothing else (R391). -/
def State.matrixCycle (s : State) (c : CoreId) : State :=
  let s := (s.core c).follow.foldl (fun s f => s.followPlace c f.1) s
  let k := s.core c
  if k.replays then s.replayStep c
  else if k.mRun = [] && k.wRun.isNone then s
  else if k.engFenced.get 1 then s.matrixFail c
  else
    let s := s.landAllRows c
    let s := ((s.core c).mRun.filter fun r => r.over s.now).foldl (fun s r => s.opDone c r) s
    ((s.wloadStep c).matrixPop c).matrixPop c

end Sys2Proof.Machine
end

