-- ==== Sys2Proof/Machine/Reliab.lean ====
section
/-! DEFINITION. Containment, self-test and silent errors (R384-R398): fences, tests and spares, the scrubber, engine windows, the
scan rotation with its tickets, and the reliability commands. -/
namespace Sys2Proof.Machine

/-! ## Units (R393) -/

/-- UTYPE of a unit. An engine of a cluster and its scratchpad fence the cluster, and are named by it. -/
def unitType (u : FUnit) : Nat :=
  match u with
  | .core _ => 0
  | .engine _ _ => 1
  | .ae _ | .lamp _ | .csave _ | .spad _ => 2
  | .slice _ _ => 3
  | .row _ _ => 4
  | .guest _ => 5
  | .link _ => 6
  | .port _ _ => 7
/-- UNIT of a unit. -/
def unitNum (u : FUnit) : Nat :=
  match u with
  | .core c => c.val
  | .engine c e => c.val * 16 + e.val
  | .ae u | .lamp u | .csave u | .spad u => u.val
  | .slice d n => d.val * 256 + n.val
  | .row d n => d.val * 2 ^ 24 + n % 2 ^ 24
  | .guest d => d.val
  | .link l => l.m.val * 256 + Nat.max l.src.val l.dst.val * 8 + Nat.min l.src.val l.dst.val
  | .port n p => n * 32 + p
/-- The unit that ARG0 of SELFTEST or RETIRE names, if there is one. -/
def unitOf (x : W64) : Option FUnit :=
  let n := fld x 31 0
  match fld x 63 56 with
  | 0 => if h : n < 512 then some (.core ⟨n, h⟩) else none
  | 1 =>
    if h : n / 16 < 512 then
      let c : CoreId := ⟨n / 16, h⟩
      match n % 16 with
      | 0 => some (.engine c 0)
      | 1 => some (.engine c 1)
      | 2 => some (.engine c 2)
      | 3 => some (.engine c 3)
      | 4 => some (.lamp (cluOf c))
      | 5 => some (.ae (cluOf c))
      | 6 => some (.csave (cluOf c))
      | _ => none
    else none
  | 2 => if h : n < 128 then some (.spad ⟨n, h⟩) else none
  | 3 => if n < 2048 then some (.slice ⟨n / 256 % 8, by omega⟩ ⟨n % 256, by omega⟩) else none
  | 4 => if n < 2 ^ 27 then some (.row ⟨n / 2 ^ 24 % 8, by omega⟩ (n % 2 ^ 24)) else none
  | 5 => if h : n < 8 then some (.guest ⟨n, h⟩) else none
  | 6 =>
    let lo : DieId := ⟨n % 8, by omega⟩
    let hi : DieId := ⟨n / 8 % 8, by omega⟩
    if n < 2 ^ 12 && n / 64 % 4 == 0 && lo.val < hi.val && adjacent lo hi then some (.link ⟨lo, hi, ⟨n / 256 % 16, by omega⟩⟩) else none
  | 7 => if n % 32 < 18 && n / 32 == Config.ownNode.toNat then some (.port (n / 32) (n % 32)) else none
  | _ => none

/-- The cores that a unit's fence stops. -/
def unitCores (u : FUnit) : List CoreId :=
  match u with
  | .core c => [c]
  | .ae u | .lamp u | .csave u | .spad u => (List.finRange 4).map (coreOf u)
  | _ => []
/-- A unit by the name under which it is fenced: the parts of a cluster fence the cluster (R386). -/
def wholeUnit (u : FUnit) : FUnit :=
  match u with
  | .ae x | .lamp x | .csave x => .spad x
  | u => u
/-- The issuer of the oldest command that a unit works at. -/
def State.unitWho (s : State) (u : FUnit) : Option Who :=
  match u with
  | .engine c e => match e with
    | 0 => ((s.core c).copyRun.head?).map (·.cmd.who)
    | 1 => ((s.core c).mRun.head?).map (·.who)
    | 2 => ((s.core c).outRun.head?).map (·.cmd.who)
    | _ => ((s.core c).reqs.head?).map (·.who)
  | .ae x => (s.clu x).aeRun.map (·.who)
  | .lamp x => ((s.clu x).lamp.head?).map (·.who)
  | .core c => (s.core c).active.map fun b => ({ c := c, b := b, t := (s.bank ⟨c, b, 0, 0⟩).serial } : Who)
  | _ => none
/-- CORR and RECID of a task, 0 for none or one that has ended (R393). -/
def State.taskIds (s : State) (w : Option Who) : W64 × W64 :=
  match w with
  | some w => if s.alive w then ((s.bank w).corr.setWidth 64, (s.bank w).recid.setWidth 64) else (0, 0)
  | none => (0, 0)
/-- The task that an error of a unit is charged to (R393): that of the command it works at, or of the core's active bank. -/
def State.unitTask (s : State) (u : FUnit) : W64 × W64 := s.taskIds (s.unitWho u)

/-! ## Fences (R386, R387) -/

/-- The tasks of a core stop (R387): a restartable one is killed and requeued, another checkpointed; a record whose restore has
not begun goes back to its queue. -/
def State.stopTasks (s : State) (c : CoreId) : State :=
  (List.finRange 2).foldl (fun s b =>
    let w : Who := ⟨c, b, 0, 0⟩
    match (s.bank w).task with
    | none => s
    | some r =>
      if (s.bank w).stopping.isSome then s
      else if r.w.get 5 != 0 then (s.freeBank w).requeue c r true
      else if recRst r.w then s.beginKill w true
      else s.modBank w fun k => { k with stopping := some (.save false) }) s
/-- The fence of a core: a scan of it is over, and its tasks stop. -/
def State.fenceCore (s : State) (c : CoreId) : State :=
  (s.modCore c fun k => { k with fenced := true, testing := false, scanDue := false }).stopTasks c
/-- A line that a fenced slice cannot read goes home with the poison code (R388). -/
def State.loseLine (s : State) (d : DieId) (n : Fin 256) (l : Nat) : State :=
  if locDie l == d && s.sliceOf l == n.val then
    { s with poison := ((List.range 32).map fun i => (s.unitAt (l / 256 * 256 + 8 * i)).1).foldl (fun p w => if p.contains w then p else w :: p) s.poison }
  else s
/-- The lines of a slice go home as it is fenced (R388), where memory holds them already; which of them cannot be read is open. -/
def State.sliceHome (s : State) (d : DieId) (n : Fin 256) : State :=
  let (k, s) := s.choose 65536
  (List.range k).foldl (fun s _ =>
    let (l, s) := s.choose (2 ^ 40)
    s.loseLine d n l) s
/-- No line has the die as a holder of a duplicate any more (R355). -/
def State.forgetHolder (s : State) (d : DieId) : State :=
  { s with holders := s.holders.filterMap fun x =>
      let m := x.2 &&& ~~~ (BitVec.ofNat 8 (2 ^ d.val))
      if m = 0 then none else some (x.1, m) }
/-- The fence's effect on the unit. -/
def State.fenceEffect (s : State) (u : FUnit) : State :=
  match u with
  | .core c => s.fenceCore c
  | .engine c e => s.modCore c fun k => { k with engFenced := vset k.engFenced e true }
  | .ae x | .lamp x | .csave x | .spad x =>
    (unitCores u).foldl (fun s c => (s.modCore c fun k => { k with testing := false, scanDue := false }).stopTasks c)
      (s.modClu x fun y => { y with fenced := true })
  | .slice d n => (s.sliceHome d n).modDie d fun x => { x with sliceFenced := n.val :: x.sliceFenced }
  | .row d n => s.modDie d fun x => { x with rowFenced := n % 2 ^ 24 :: x.rowFenced }
  | .link l => s.modBoth l fun x => { x with retraining := x.lanes != 0 }
  | .guest d => s.forgetHolder d
  | .port _ p => s.fencePort p
/-- A unit is fenced: its work stops, and, unless it is marked lasting, its test is to begin (R386). -/
def State.fence1 (s : State) (u : FUnit) (lasting : Bool) : State :=
  let v := wholeUnit u
  let tests := s.tests.filter (·.1 != v)
  let s := { s with
    worn := if lasting then v :: s.worn.filter (· != v) else s.worn
    tests := if lasting then tests else (v, none) :: tests }
  if s.fenced.contains v then s else { s with fenced := v :: s.fenced }.fenceEffect v
/-- An error in a unit fences it with one ErrorReport, and its test begins (R386, R393); a unit already fenced stays so. -/
def State.fenceUnit (s : State) (u : FUnit) (cls : Nat) (addr : W64) (w : Option Who := none) : State :=
  if s.fenced.contains (wholeUnit u) then s
  else
    let (corr, recid) := if w.isSome then s.taskIds w else s.unitTask u
    (s.errorReport (unitType u) cls 0 (unitNum u) addr corr recid).fence1 u false
/-- A corrected error of a unit is counted; at the threshold it is reported, and the count restarts (R393). -/
def State.corrCount (s : State) (u : FUnit) : State :=
  let key := unitType u * 2 ^ 32 + unitNum u
  let n := (NMap.get? s.corrected key).getD 0 + 1
  if s.corrThreshold.toNat ≤ n then
    { s with corrected := NMap.del s.corrected key }.errorReport (unitType u) 0 1 (unitNum u) 0 0 0
  else { s with corrected := NMap.put s.corrected key n }
/-- UNIT_FENCE (R386): an error of class 1 to 4. DESIGN CHOICE (log 104): with class 0 a corrected error of the unit, which is counted and
fences nothing (R384, R393). Of the ports, those of this module are units. -/
def execUnitFence (u : FUnit) (cls : Nat) (addr : BitVec 64) (s : State) : Out :=
  let own := match u with
    | .port n _ => n == Config.ownNode.toNat
    | _ => true
  if !own || 4 < cls || 4096 ≤ s.evWaiting then .next s
  else if cls = 0 then .next (s.corrCount u)
  else .next (s.fenceUnit u cls addr)
/-- 100 µs of the time base. -/
abbrev holderNs : Nat := 100000
/-- Whether a write that waits has asked for its lines' duplicates 100 µs ago and the die still holds one of them (R278). -/
def State.holderSilent (s : State) (d : DieId) : Bool :=
  let late (asked : Option Nat) (ws : List Nat) : Bool :=
    match asked with
    | some t => t + holderNs ≤ s.tb && (s.heldBy ws).getLsbD d.val
    | none => false
  s.flight.any (fun e => late e.asked e.words) || s.cores.any (fun k => k.reqs.any fun r => late r.asked r.words) ||
  s.cores.any (fun k => k.banks.any fun b => b.seqs.any fun q => match q.asked with
    | some (line, t) => late (some t) [32 * line]
    | none => false) ||
  s.peerReqs.any fun p => match NMap.get? s.peerAsked (peerId p) with
    | some t => t + holderNs ≤ s.tb && (s.peerHeld p).getLsbD d.val
    | none => false
/-- HOLDER_FENCE_TIMEOUT (R278, R355): a holder silent for 100 µs, a functional error, fences the guest ways of its die. -/
def execHolderFenceTimeout (d : DieId) (s : State) : Out :=
  if 4096 ≤ s.evWaiting || !s.holderSilent d then .next s else .next (s.fenceUnit (.guest d) 3 0)

/-! ## Tickets and the scan rotation (R395-R397) -/

/-- A pass of a core: its ran list empties, and every ticket taken before its test started notes it; a ticket that all its producing cores
have passed for is confirmed (R397). -/
def State.scanPass (s : State) (c : CoreId) (start : Nat) : State :=
  let s := s.modCore c fun k => { k with lastPass := s.tb, ran := [], ranOvf := false, testing := false }
  let ts := s.tickets.map fun t =>
    if t.exit < start && t.cores.contains c.val && !t.passed.contains c.val then { t with passed := c.val :: t.passed } else t
  let closed (t : Ticket) : Bool := t.cores.all t.passed.contains
  let s := { s with tickets := ts.filter fun t => !closed t }
  (ts.filter closed).foldl (fun s t => s.event 0x000B [t.corr.setWidth 64, BitVec.ofNat 64 t.id]) s
/-- One Suspect (R397). -/
def State.suspect (s : State) (c : CoreId) (corr : W32) : State :=
  let k := s.core c
  s.event 0x000C [corr.setWidth 64, BitVec.ofNat 64 c.val, BitVec.ofNat 64 k.lastPass, s.time, if k.ranOvf then 1 else 0]
/-- The tickets that a failed core has part in end. -/
def State.endTickets (s : State) (c : CoreId) : State :=
  { s with tickets := s.tickets.filter fun t => !t.cores.contains c.val }
/-- The tasks whose tickets a failed core has part in, and that stand no more in its ran list. -/
def State.ticketCorrs (s : State) (c : CoreId) : List W32 :=
  ((s.tickets.filter fun t => t.cores.contains c.val && !(s.core c).ran.contains t.corr).map (·.corr)).eraseDups
/-- A core fails a scan: Suspects for its ran list, for tickets that it passed for and that are still open, and for an overflow; its tickets
end; it is fenced and tested. -/
def State.scanFail (s : State) (c : CoreId) : State :=
  let k := s.core c
  let s := (k.ran ++ s.ticketCorrs c).foldl (fun s x => s.suspect c x) s
  let s := if k.ranOvf then s.suspect c 0 else s
  ((s.endTickets c).modCore c fun k => { k with testing := false }).fenceUnit (.core c) 4 0
/-- TestResult (R393). -/
def State.testResult (s : State) (u : FUnit) (outcome state spare : Nat) : State :=
  s.event 0x0009
    [BitVec.ofNat 64 (unitType u * 2 ^ 56 + outcome * 2 ^ 48 + state * 2 ^ 40 + unitNum u), BitVec.ofNat 64 spare, 0, 0, s.time]
/-- A core whose tasks have left it starts its test; a start later than ROT after its last pass is reported (R395). -/
def State.scanBegin (s : State) (c : CoreId) : State :=
  let late := (s.core c).lastPass + s.rotMs.toNat * oneMs < s.tb
  let s := s.modCore c fun k => { k with testing := true, scanDue := false, testStart := s.now }
  if late then s.testResult (.core c) 3 1 0xFF else s
/-- The rotation comes to a core: its remaining tasks of PCLASS 0 are checkpointed, a save among them that is not yet restored waits again
in its queue; the others are waited for (R395). -/
def State.scanChoose (s : State) (c : CoreId) : State :=
  let s := s.modDie (dieOf c) fun x => { x with scanLast := s.tb }
  (List.finRange 2).foldl (fun s b =>
    let w : Who := ⟨c, b, 0, 0⟩
    match (s.bank w).task with
    | some r =>
      if recPclass r.w != 0 || (s.bank w).stopping.isSome then s
      else if r.w.get 5 != 0 then (s.freeBank w).requeue c r true
      else s.modBank w fun k => { k with stopping := some (.save false) }
    | none => s) (s.modCore c fun k => { k with scanDue := true })
/-- SCAN_START (R395): a core to which the rotation has come starts its test once its tasks have left it; starts are ROT / 64 apart, and the
core with the oldest pass is the next, also while another waits for its tasks. -/
def execScanStart (d : DieId) (s : State) : Out :=
  let x := s.die d
  if x.power == .gated || s.loss != .none || 4096 ≤ s.evWaiting then .next s
  else match (dieCores d).find? fun c => (s.core c).scanDue && (s.core c).tasks == 0 with
    | some c => .next (s.scanBegin c)
    | none =>
      if s.tb < x.scanLast + s.scanGap then .next s
      else match s.nextScan d with
        | none => .next s
        | some c =>
          let s := s.scanChoose c
          .next (if (s.core c).tasks = 0 then s.scanBegin c else s)
/-- The cycles of a core's scan or targeted test (R386, R395). -/
abbrev scanCycles : Nat := 648000
/-- SCAN_COMPLETE (R397). -/
def execScanComplete (c : CoreId) (pass : Bool) (s : State) : Out :=
  let k := s.core c
  if !k.testing || s.now < k.testStart + scanCycles || 4096 ≤ s.evWaiting then .next s
  else .next (if pass then s.scanPass c k.testStart else s.scanFail c)

/-! ## Targeted self-tests (R386, R388) -/

/-- A unit leaves its fence, and with it its mark and its test. A core of a cluster that is fenced stays out of service with it. -/
def State.unfence (s : State) (u : FUnit) : State :=
  let v := wholeUnit u
  let s := { s with fenced := s.fenced.filter (· != v), worn := s.worn.filter (· != v), tests := s.tests.filter (·.1 != v) }
  match v with
  | .core c => s.modCore c fun k => { k with fenced := false }
  | .engine c e => s.modCore c fun k => { k with engFenced := vset k.engFenced e false }
  | .ae x | .lamp x | .csave x | .spad x => s.modClu x fun y => { y with fenced := false }
  | .slice d n => s.modDie d fun x => { x with sliceFenced := x.sliceFenced.filter (· != n.val) }
  | .row d n => s.modDie d fun x => { x with rowFenced := x.rowFenced.filter (· != n % 2 ^ 24) }
  | .link l => s.modBoth l fun x => { x with retraining := false }
  | .guest _ => s
  | .port _ p => { s with ports := NMap.put s.ports p { s.ulnex p with fenced := false } }
/-- Every atom of a row is poisoned (R388). -/
def State.poisonRow (s : State) (d : DieId) (n : Nat) : State :=
  let base := d.val * 2 ^ 32
  let own (a : Nat) : Bool := s.hbmRowOf (32 * a) == n && (s.unitAt (32 * a)).1 == 4 * a && !s.poison.contains (4 * a)
  { s with poison := s.poison ++ (((List.range (2 ^ 32)).map (base + ·)).filter own).map (4 * ·) }
/-- A free spare takes the place of a lasting unit, or none does, and a lasting engine fences its core lastingly (R386). Answers the outcome of TestResult and the spare.
DESIGN CHOICE (log 78): a spare cluster that has taken over holds the scratchpad bytes, counted cells, writer tags, g flags and
lamplighter bindings of the one it replaces. -/
def State.spared (s : State) (u : FUnit) : Nat × Nat × State :=
  match u with
  | .core c =>
    let g : Fin 4 := ⟨c.val % 64 / 16, by omega⟩
    if (s.die (dieOf c)).spareCore.get g then
      let s := s.modDie (dieOf c) fun x => { x with spareCore := vset x.spareCore g false }
      -- the spare takes over when it passes its own test, an open choice
      let (k, s) := s.choose 2
      if k = 0 then (1, g.val, (s.unfence u).modCore c fun k => { k with lastPass := s.tb, ran := [], ranOvf := false })
      else (2, 0xFF, s)
    else (2, 0xFF, s)
  | .engine c _ =>
    if s.worn.contains (.core c) then (2, 0xFF, s)
    else
      let (corr, recid) := s.unitTask (.core c)
      (2, 0xFF, (s.errorReport 0 3 0 c.val 0 corr recid).fence1 (.core c) true)
  | .ae x | .lamp x | .csave x | .spad x =>
    if (s.die (dieOfClu x)).spareCluster then
      let s := s.modDie (dieOfClu x) fun y => { y with spareCluster := false }
      (1, 0, s.unfence u)
    else (2, 0xFF, s)
  | .slice d _ =>
    let n := (s.die d).spareSlices
    if n = 0 then (2, 0xFF, s)
    else (1, 8 - n, (s.unfence u).modDie d fun x => { x with spareSlices := n - 1 })
  | .row d n =>
    -- how many spare rows a pseudo-channel holds is not given
    let (k, s) := s.choose 2
    if k = 0 then
      let (v, s) := s.fresh
      (1, v.toNat % 256, s.unfence u)
    else (2, 0xFF, s.poisonRow d (n % 2 ^ 24))
  | .link l => (2, 0xFF, s.fenceLink l)
  | .guest _ | .port _ _ => (2, 0xFF, s)
/-- A unit is marked lasting: a free spare takes its place, or it stays fenced (R386). -/
def State.lasting (s : State) (u : FUnit) : Nat × Nat × State :=
  let v := wholeUnit u
  let s := { s with worn := v :: s.worn.filter (· != v), tests := s.tests.filter (·.1 != v) }
  s.spared u
/-- Whether the work that a fence stops has ended. -/
def State.unitIdle (s : State) (u : FUnit) : Bool := (unitCores u).all fun c => (s.core c).tasks == 0
/-- The SELFTEST commands of a unit complete after its TestResult (R398). -/
def State.testsDone (s : State) (u : FUnit) : State :=
  (s.host.running.filter fun c => c.op == 0x0201 && (unitOf (c.args.get 0)).map wholeUnit == some (wholeUnit u)).foldl (fun s c => s.cmdDone c 0) s
/-- A core that fails its targeted test ends the tickets it has part in with a Suspect each (R397). -/
def State.testFail (s : State) (u : FUnit) : State :=
  match u with
  | .core c =>
    ((s.tickets.filter fun t => t.cores.contains c.val).foldl (fun s t => s.suspect c t.corr) s).endTickets c
  | _ => s
/-- The cycles of a unit's targeted test (R386); how long a link or a port retrains is not fixed (R379). -/
def testCycles (u : FUnit) : Nat :=
  match u with
  | .core _ => scanCycles
  | .engine _ _ => 36000
  | .ae _ | .lamp _ | .csave _ | .spad _ => 3600000
  | .slice _ _ => 1800000
  | .row _ _ => 3600000
  | .guest _ => 360000
  | .link _ | .port _ _ => 0
/-- A core whose quarter has a free spare; the spare is tested before it takes over (R386). -/
def State.spareTest (s : State) (u : FUnit) : Bool :=
  match u with
  | .core c => (s.die (dieOf c)).spareCore.get ⟨c.val % 64 / 16, by omega⟩
  | _ => false
/-- The tests of fenced units begin as their work has ended. -/
def State.beginTests (s : State) : State :=
  if s.tests = [] then s
  else { s with tests := s.tests.map fun x => if x.2.isNone && s.unitIdle x.1 then (x.1, some s.now) else x }
/-- SELFTEST_COMPLETE (R386): a unit whose test has taken its time is transient and unfenced, or lasting; that of a core whose spare is to
take over, after the spare's own test. A core's pass counts as a scan pass (R395). -/
def execSelftestComplete (u : FUnit) (pass : Bool) (s : State) : Out :=
  let u := wholeUnit u
  match s.tests.find? (·.1 == u) with
  | some (_, some start) =>
    let n := if !pass && s.spareTest u then 2 * testCycles u else testCycles u
    if s.now < start + n || 4096 ≤ s.evWaiting then .next s
    else if pass then
      let s := s.unfence u
      let s := match u with
        | .core c => s.scanPass c start
        | .link l => s.modBoth l fun x => { x with sent := 0, nak := none }
        | _ => s
      .next ((s.testResult u 0 1 0xFF).testsDone u)
    else
      let (o, n, s) := (s.testFail u).lasting u
      .next ((s.testResult u o (if o = 1 then 1 else 0) n).testsDone u)
  | _ => .next s

/-! ## The scrubber (R385, R389, R393) -/

/-- The row that the scrubbers read now: those of a pseudo-channel follow each other at a fixed rate, each once in a pass (R389). -/
def State.scrubRow (s : State) : Nat := (s.tb - s.scrubStart) * 65536 / (s.scrubPer.toNat * minuteNs)
/-- SCRUB_ATOM (R389): the scrubber finds an atom of the row that it reads wrong: it is corrected in place, or written back with
the poison code and reported once; each once in a pass. DESIGN CHOICE (log 104): at a location of a scratchpad or a weight SRAM, which has no
scrubber, its unit turns out wrong (R384): a corrected error is counted, an uncorrectable one is met when it is read. -/
def execScrubAtom (addr : Nat) (uncorrectable : Bool) (s : State) : Out :=
  let w := (s.unitAt addr).1
  if 4096 ≤ s.evWaiting then .next s
  else if 2 ^ 40 ≤ addr then
    if uncorrectable then .next (if s.poison.contains w then s else { s with poison := w :: s.poison })
    else .next (s.corrCount (.spad (if isSp addr then spClu addr else cluOf ⟨(addr - 2 ^ 41) / 2 ^ 22 % 512, by omega⟩)))
  else if s.loss != .none || s.hbmRowOf addr % 2 ^ 16 != s.scrubRow || s.scrubbed.contains w then .next s
  else
    let u : FUnit := .row (locDie addr) (s.hbmRowOf addr)
    let s := { s with scrubbed := w :: s.scrubbed }
    if uncorrectable then
      .next (if s.poison.contains w then s
        else { s with poison := w :: s.poison }.errorReport 4 2 1 (unitNum u) (BitVec.ofNat 64 (8 * w)) 0 0)
    else .next (s.corrCount u)

/-! ## Engine windows (R390-R392) -/

/-- A matrix window is abandoned: every slot of the tile gets POISON, and UncorrectableData is pending for C. -/
def State.abandonTile (s : State) (w : Who) (z : Fin 8) : State :=
  let s := s.modBank w fun k =>
    let t := k.z.get z
    let slots : NMap ASlot := (List.range 16384).map fun i =>
      let x := (NMap.get? t.slots i).getD {}
      (i, { x with side := x.side ||| 0x10 })
    { k with z := vset k.z z { t with slots := slots, replay := none } }
  s.imprecise w 8 cUncorr 0 (matrixCode w.c)
/-- A window recovers: the error is reported, and fences nothing (R391, R393). -/
def State.recovers (s : State) (u : FUnit) (w : Who) : State :=
  let (corr, recid) := s.taskIds (some w)
  s.errorReport 1 1 1 (match u with
    | .ae x => (coreOf x 0).val * 16 + 5
    | .lamp x => (coreOf x 0).val * 16 + 4
    | u => unitNum u) 0 corr recid
/-- A copy starts again from its beginning, with the counted rows that it has consumed as they were (R253, R391). DESIGN CHOICE (log 104): a stream
or gather keeps what it holds, and delivers nothing a second time. -/
def Run.again (r : Run) : Run :=
  match r.cmd.kind with
  | .copy _ _ _ _ _ _ _ _ _ => { r with left := (Run.start r.cmd).left, pos := 0, refused := none, replay := true }
  | _ => { r with replay := true }
/-- An output stream starts again from its beginning, with the elements that it has popped (R391). -/
def Run.rewrite (r : Run) : Run :=
  { r with pos := 0, top := Nat.max r.top r.pos, held := r.wrote ++ r.held, wrote := [], refused := none, replay := true }
/-- ENGINE_WINDOW_REPLAY (R391, R392): engine 0 copy, 1 matrix, 2 output stream, 4 lamplighter, 5 assignment engine consumes an
uncorrectable error of its own storage. Its command starts again from its beginning, or the tile's window is replayed; a command whose
writes have all been made is past it. The lamplighter's has left nothing that a new beginning would find. A window that meets a second error in
its replay, or that cannot replay, is abandoned, and the unit is fenced. Of the matrix engine `id` names the tile, and with 8 added that of
bank 1. -/
def execEngineWindowReplay (c : CoreId) (eng : Fin 6) (id : Nat) (second : Bool) (s : State) : Out :=
  if 4096 ≤ s.evWaiting then .next s
  else match eng with
  | 0 => match (s.core c).copyRun.find? (·.cmd.id == id) with
    | some r =>
      if second || r.replay then .next ((s.runEnd r cUncorr 0).fenceUnit (.engine c 0) 1 0 (some r.cmd.who))
      else if r.left = [] && !r.cmd.kind.stream? then .next s
      else .next ((s.recovers (.engine c 0) r.cmd.who).modRun c id Run.again)
    | none => .next s
  | 1 =>
    let w : Who := { c := c, b := ⟨id / 8 % 2, by omega⟩ }
    let w := { w with t := (s.bank w).serial }
    let z : Fin 8 := ⟨id % 8, by omega⟩
    let t := (s.bank w).z.get z
    if (s.bank w).task.isNone then .next s
    else if second || t.noReplay || t.replay.isSome then .next ((s.abandonTile w z).fenceUnit (.engine c 1) 1 0 (some w))
    else .next ((s.recovers (.engine c 1) w).startReplay w z)
  | 2 => match (s.core c).outRun.find? (·.cmd.id == id) with
    | some r => match r.cmd.kind with
      | .ostream _ _ _ =>
        if second || r.replay then .next ((s.outEnd r cUncorr 0).fenceUnit (.engine c 2) 1 0 (some r.cmd.who))
        else .next ((s.recovers (.engine c 2) r.cmd.who).modOut c id Run.rewrite)
      | _ => .next s
    | none => .next s
  | 4 =>
    let u := cluOf c
    match (s.clu u).lamp with
    | x :: rest =>
      if second then
        .next (((s.modClu u fun y => { y with lamp := rest }).engEnd x.who 4 x.nth cUncorr 0 lampCode).fenceUnit (.lamp u) 1 0 (some x.who))
      else .next (s.recovers (.lamp u) x.who)
    | [] => .next s
  | 5 =>
    let u := cluOf c
    match (s.clu u).aeRun with
    | some r =>
      if second || r.replay then .next ((s.setRun u (r.failed cUncorr 0)).fenceUnit (.ae u) 1 0 (some r.who))
      else if r.started && r.fail.isNone && r.bad = 0 then
        .next ((s.recovers (.ae u) r.who).setRun u { r with started := false, replay := true, out := none })
      else .next s
    | none => .next s
  | _ => .next s

/-! ## Commands (R398) -/

/-- RELPARAM: all three values, or none when one is out of range. -/
def execRelparam (s : State) : Out := s.cmdOnce 0x0200 fun c s =>
  let a := fld (c.args.get 0) 31 0
  let b := fld (c.args.get 1) 31 0
  let t := fld (c.args.get 2) 15 0
  if 60 ≤ a && a ≤ 43200 && 100 ≤ b && b ≤ 2000 && 1 ≤ t then
    { s with scrubMin := BitVec.ofNat 32 a, rotMs := BitVec.ofNat 32 b, corrThreshold := BitVec.ofNat 16 t }.cmdDone c 0
  else s.cmdDone c 2
/-- CLASS and STATE of a command's ARG0 are zero. -/
def bareUnit (x : W64) : Bool := fld x 55 40 == 0
/-- SELFTEST: the named unit is fenced and tested; a unit already under test completes with that test, and one that is fenced lastingly is
tested again. The class of the fence's ErrorReport is open. -/
def execSelftest (s : State) : Out := s.cmdOnce 0x0201 fun c s =>
  match unitOf (c.args.get 0), bareUnit (c.args.get 0) with
  | some u, true =>
    if s.tests.any (·.1 == wholeUnit u) then s
    else if s.fenced.contains (wholeUnit u) then s.fence1 u false
    else
      let (k, s) := s.choose 6
      s.fenceUnit u k 0
  | _, _ => s.cmdDone c 2
/-- RETIRE: the unit is marked lasting, and a test of it is over; it is fenced with one ErrorReport of CLASS 5 and, once its tasks are gone, spared if a spare is
free. -/
def execRetire (s : State) : Out :=
  s.cmdTurn 0x0202
    (fun c s =>
      match unitOf (c.args.get 0), bareUnit (c.args.get 0) with
      | some u, true =>
        let (corr, recid) := s.unitTask u
        (s.errorReport (unitType u) 5 0 (unitNum u) 0 corr recid).fence1 u true
      | _, _ => s.cmdDone c 2)
    fun c s =>
      match unitOf (c.args.get 0) with
      | some u => if s.unitIdle u then ((s.lasting u).2.2.testsDone u).cmdDone c 0 else s
      | none => s.cmdDone c 2

end Sys2Proof.Machine
end

