-- ==== Sys2Proof/Machine/Power.lean ====
section
/-! DEFINITION. Power states, checkpoint on loss and firmware (R399-R408). -/
namespace Sys2Proof.Machine

/-! ## Clamps (R401) -/

/-- PowerReport: the new `pwrstat` word, the die, the time. -/
def State.powerReport (s : State) (d : DieId) : State :=
  let s := s.modDie d fun x => { x with lastReport := some s.tb, deferred := false }
  s.event 0x000D [s.pwrstat d, BitVec.ofNat 64 d.val, s.time]
/-- Whether a report of a die would come within 1 ms of its last. -/
def State.reportSoon (s : State) (d : DieId) : Bool :=
  match (s.die d).lastReport with
  | some t => s.tb < t + oneMs
  | none => false
/-- CLAMP_CHANGE (R401): a clamp starts or stops; the frequency is nominal without a clamp and no higher with one. -/
def execClampChange (d : DieId) (cc tc : Bool) (mhz : BitVec 16) (s : State) : Out :=
  let x := s.die d
  let f : BitVec 16 := if !cc && !tc then 3600 else if mhz.toNat < 3600 then mhz else 3600
  let s' := s.modDie d fun x => { x with cclamp := cc, tclamp := tc, mhz := f }
  if x.cclamp = cc && x.tclamp = tc then .next s'
  else if 4096 ≤ s.evWaiting then .next s
  else if s.reportSoon d then .next (s'.modDie d fun x => { x with deferred := true })
  else .next (s'.powerReport d)
/-- POWER_REPORT_DEFERRED (R401). -/
def execPowerReportDeferred (d : DieId) (s : State) : Out :=
  if !(s.die d).deferred || s.reportSoon d || 4096 ≤ s.evWaiting then .next s else .next (s.powerReport d)

/-! ## POWERSTATE (R399, R400) -/

/-- Whether a die may enter a state (R399). -/
def State.mayEnter (s : State) (d : DieId) (st cap : Nat) : Bool :=
  let tasks := (dieCores d).any fun c => (s.core c).tasks != 0
  match st with
  | 0 => true
  | 1 => 4000 ≤ cap && cap ≤ 15000
  | 2 => !tasks
  | 3 => !tasks && (s.die d).waiting == 0 && (s.die d).dir.isEmpty
  | _ => (s.die d).power == .idle || (s.die d).power == .gated
/-- A die that leaves GATED holds no translations, no line of its L2 and no duplicate, an empty directory and a zeroed scratchpad
(R399). -/
def State.leaveGated (s : State) (d : DieId) : State :=
  let inside (a : Nat) : Bool := isSp a && dieOfClu (spClu a) == d
  let s := (s.wipe inside).forgetHolder d
  let s := (dieCores d).foldl (fun s c => s.modCore c fun k => { k with tlb := [], tlbCopy := [], tlbOut := [] }) s
  let s := { s with clusters := Vector.ofFn fun u => if dieOfClu u = d then { s.clu u with cells := [], tags := [] } else s.clu u }
  s.modDie d fun x => { x with dir := [] }
/-- A die takes a state. -/
def State.enter (s : State) (d : DieId) (st : Nat) (cap : BitVec 16) : State :=
  let was := (s.die d).power == .gated
  let s := if was && st != 3 then s.leaveGated d else s
  let s := if was != (st == 3) then (dieCores d).foldl (fun s c => s.modCore c fun k => { k with cyc0 := s.now - k.cyc0 }) s else s
  s.modDie d fun x =>
    { x with
      cap := if st = 1 then cap else 0
      power := if st = 0 then .full else if st = 1 then .capped else if st = 2 then .idle else .gated }
/-- POWERSTATE (R400, R408): every named die is checked, then takes the state; OFF is for the whole module, and with SAVE runs the
sequence of R403 first. -/
def execPowerstate (s : State) : Out := s.cmdOnce 0x0100 fun c s =>
  let st := fld (c.args.get 1) 2 0
  let cap : BitVec 16 := (c.args.get 2).setWidth 16
  let ds := if st = 4 then List.finRange 8 else maskDies (c.args.get 0)
  if 4 < st then s.cmdDone c 2
  else match ds.find? fun d => !s.mayEnter d st cap.toNat with
    | some d => s.cmdDone c 3 d.val
    | none =>
      if st = 4 then
        if (c.args.get 3).getLsbD 0 then { s with loss := .stopped, image := none, lossList := [], lossTime := s.time }
        else { s with off := true }
      else (ds.foldl (fun s d => s.enter d st cap) s).cmdDone c 0

/-! ## Checkpoint on loss (R402-R405) -/

/-- CKPTARM (R402): arming writes zero over the commit record. -/
def execCkptarm (s : State) : Out := s.cmdOnce 0x0101 fun c s =>
  if !(c.args.get 0).getLsbD 0 then { s with ckptArmed := false }.cmdDone c 0
  else if s.joules < 2500 then s.cmdDone c 3
  else { s with ckptArmed := true, image := none }.cmdDone c 0
/-- HOLDUP_BANK_LOW (R402): the bank's energy changes; below 2,500 J an armed module disarms and reports. -/
def execHoldupBankLow (joules : Nat) (s : State) : Out :=
  if 4096 ≤ s.evWaiting || 3000 < joules then .next s
  else
    let s := { s with joules := joules }
    if joules < 2500 && s.ckptArmed then .next ({ s with ckptArmed := false }.event 0x000E [1]) else .next s
/-- INPUT_POWER_LOSS (R403): unarmed, the module stops at once, also in the sequence of an OFF with SAVE; armed, dispatch and command
acceptance stop as step 1. A sequence under way runs to its end. -/
def execInputPowerLoss (s : State) : Out :=
  let commanded := s.host.running.any fun c => c.op == 0x0100
  if !s.ckptArmed && (s.loss == .none || commanded) then .next { s with off := true, draft := none }
  else if s.loss != .none then .next s
  else .next { s with loss := .stopped, lossList := [], lossTime := s.time }
/-- LOSS_SAVE_TASKS (R403 step 2): every resident task is to be checkpointed, whatever its PCLASS; the step ends when none is
resident. A record whose restore has not begun waits again in its queue. -/
def execLossSaveTasks (s : State) : Out :=
  if s.loss != .stopped then .next s
  else
    let ws := (List.finRange 512).flatMap fun c => (List.finRange 2).filterMap fun b =>
      if ((s.core c).banks.get b).task.isSome then some (⟨c, b, 0, 0⟩ : Who) else none
    if ws = [] then .next { s with loss := .saved }
    else .next (ws.foldl (fun s w =>
      match (s.bank w).task with
      | none => s
      | some r =>
        if r.w.get 5 != 0 then (s.freeBank w).requeue w.c r true
        else if (s.bank w).stopping.isSome then s
        else s.modBank w fun k => { k with stopping := some (.save false) }) s)
/-- Whether every engine, store and row of the module has come to rest. -/
def State.atRest (s : State) : Bool :=
  s.flight.isEmpty && s.agents.all (fun a => a.2.sb.isEmpty) && s.msgs.isEmpty &&
  s.cores.all (fun k => k.copyFifo.isEmpty && k.copyRun.isEmpty && k.outFifo.isEmpty && k.outRun.isEmpty && k.mFifo.isEmpty && k.mRun.isEmpty && k.wRun.isNone && k.bufs.isEmpty && k.reqs.isEmpty) &&
  s.clusters.all fun u => u.aeRun.isNone && u.aeFifo.isEmpty && u.lamp.isEmpty
/-- LOSS_WRITE_BACK (R403 step 3): memory holds every write once the engines are drained. -/
def execLossWriteBack (s : State) : Out :=
  if s.loss != .saved || !s.atRest then .next s else .next { s with loss := .written }
/-- The bytes of a list of numbers below 2^64. -/
def natBytes (xs : List Nat) : List Byte := xs.flatMap (leBytes 8)
/-- The sections of an image in store order (R403 steps 4 and 5, R404): scratchpads and weight SRAM, record stores, count directories,
gang tables, the access-control table, all HBM. DESIGN CHOICE (log 84): the bytes of an entry, which R404 does not give. -/
def Image.sections (m : Image) : List Byte :=
  let cells (p : Nat → Bool) : List Byte := (m.mem.filter fun c => p c.1).flatMap fun c => leBytes 8 c.1 ++ [c.2]
  let recs : List Byte := m.dies.toList.flatMap fun d => d.queues.toList.flatMap fun q => q.flatMap fun r =>
    natBytes (r.w.toList.map BitVec.toNat ++ [r.id.toNat, r.owner])
  let dirs : List Byte := m.dies.toList.flatMap fun d => d.dir.flatMap fun e =>
    natBytes [e.1, e.2.n, e.2.owner, if e.2.spilled then 1 else 0, e.2.age] ++ leBytes 256 e.2.home.toNat
  cells (fun a => 2 ^ 40 ≤ a) ++ recs ++ dirs ++ natBytes (m.dies.toList.flatMap fun d => d.gang.toList.map BitVec.toNat) ++
    natBytes (m.acl.flatMap fun e => [e.1, e.2.toNat]) ++ cells fun a => a < 2 ^ 40
/-- The digest of an image (R404). -/
def Image.hash (m : Image) : BitVec 512 := Config.shake256 m.sections
/-- LOSS_STORE_STATE (R403 step 4): the state of the dies goes to the retention store. -/
def execLossStoreState (s : State) : Out :=
  if s.loss != .written then .next s
  else
    let m : Image := {
      time := s.lossTime, now := s.now, nlost := s.lossList.length, lost := s.lossList.take 120, digest := 0, mem := [], poison := s.poison
      cores := s.cores, clusters := s.clusters, dies := s.dies, bars := s.bars, barGen := s.barGen, ctxs := s.ctxs, acl := s.acl
      weights := s.weights, saved := s.saved, saveSeq := s.saveSeq, serial := s.serial, host := s.host, tickets := s.tickets
      nextTicket := s.nextTicket, fenced := s.fenced, worn := s.worn, corrected := s.corrected, scrubMin := s.scrubMin, rotMs := s.rotMs
      corrThreshold := s.corrThreshold, rseqDone := s.rseqDone, replies := s.replies }
    .next { s with loss := .stored, draft := some m }
/-- LOSS_STORE_HBM (R403 step 5): all HBM goes to the retention store, with the scratchpads and weight SRAM of step 4. -/
def execLossStoreHbm (s : State) : Out :=
  if s.loss != .stored then .next s
  else .next { s with loss := .hbm, draft := s.draft.map fun m => { m with mem := s.mem, digest := { m with mem := s.mem }.hash } }
/-- LOSS_COMMIT (R404): the commit record is written last. -/
def execLossCommit (s : State) : Out :=
  if s.loss != .hbm then .next s else .next { s with loss := .committed, image := s.draft, draft := none }
/-- LOSS_OFF (R403 step 7). -/
def execLossOff (s : State) : Out := if s.loss != .committed then .next s else .next { s with off := true }
/-- HOLDUP_BANK_EXHAUSTED (R403): the energy runs out before step 6, so no commit record exists. -/
def execHoldupBankExhausted (s : State) : Out :=
  if s.loss = .none || s.loss = .committed then .next s else .next { s with off := true, joules := 0, draft := none }

/-- Writes the image back (R405). The model's count of cycles goes on from the loss, so that what started earlier stays earlier; the cycle
counters, the tests and the idle intervals of the cores and dies count as since the reset, whose power states and clamps stand (R399,
R401); waiting times count anew. A core holds no translations and no lines but those of its instruction store. -/
def State.fromImage (s : State) (m : Image) : State :=
  let now := m.now + s.now
  let anew (r : Rec) : Rec := { r with entered := now }
  { s with
    now := now
    mem := m.mem, hist := [], poison := m.poison, agents := [], unseen := {}, holders := [], clusters := m.clusters
    cores := Vector.ofFn fun c =>
      let o := s.core c
      { (m.cores.get c : Core) with
        icache := [], tlb := [], tlbCopy := [], tlbOut := [], tlbOld := []
        activeFrom := now, lastPass := Nat.min (m.cores.get c).lastPass s.tb, cyc0 := m.now + o.cyc0
        scanDue := o.scanDue, testing := o.testing, testStart := m.now + o.testStart }
    dies := Vector.ofFn fun d =>
      let x : Die := m.dies.get d
      let o := s.die d
      { x with
        queues := x.queues.map fun q => q.map anew
        idleFrom := now, scanLast := Nat.min x.scanLast s.tb
        power := o.power, cap := o.cap, cclamp := o.cclamp, tclamp := o.tclamp, mhz := o.mhz, lastReport := o.lastReport
        deferred := o.deferred }
    bars := m.bars, barGen := m.barGen, ctxs := m.ctxs, acl := m.acl, weights := m.weights, saved := m.saved
    saveSeq := m.saveSeq, serial := m.serial, tickets := m.tickets
    nextTicket := m.nextTicket, fenced := m.fenced, worn := m.worn
    tests := (m.fenced.filter fun u => !m.worn.contains u).map (·, none), corrected := m.corrected, scrubMin := m.scrubMin, rotMs := m.rotMs
    corrThreshold := m.corrThreshold, rseqDone := m.rseqDone, replies := m.replies, image := none }
/-- The sequence numbers and pending events of the loss go on (R362, R405). -/
def State.hostFrom (s : State) (m : Image) : State :=
  s.modHost fun h =>
    { h with
      started := if h.started = 0 then 0 else m.now + h.started
      cmdacc := m.host.cmdacc, cmddone := m.host.cmddone, eviss := m.host.eviss, evack := m.host.evack
      events := m.host.events ++ h.events }
/-- SaveFailed for each listed loss; the area, which the record does not hold, is a free value. -/
def State.lossEvents (s : State) : List (W32 × W32 × Nat) → State
  | [] => s
  | (id, corr, reason) :: rest =>
    let (v, s) := s.fresh
    State.lossEvents (s.event 0x0006 [id.setWidth 64, corr.setWidth 64, v, BitVec.ofNat 64 reason]) rest
/-- CKPTRESTORE (R405): with no image, or one whose digest differs, STATUS 4 and a clean start; else every section is written
back, the losses are reported, and the commands that were not complete complete with STATUS 3. -/
def execCkptrestore (s : State) : Out := s.cmdOnce 0x0102 fun c s =>
  match s.image with
  | none => s.cmdDone c 4
  | some m =>
    if m.digest != m.hash then s.cmdDone c 4
    else
      let s := (s.fromImage m).hostFrom m
      let s := s.lossEvents m.lost
      let s := (m.host.running ++ m.host.cmds).foldl (fun s x => s.cmdEvent x.seqNo 3 0) s
      (s.cmdDone c 0).statePage
/-- CKPTDISCARD (R405). -/
def execCkptdiscard (s : State) : Out := s.cmdOnce 0x0103 fun c s => { s with image := none }.cmdDone c 0

/-! ## Firmware (R406, R407) -/

/-- Whether the boot ROM accepts an image (R406). -/
def imageOk (min : Byte) (im : List Byte) : Bool := Config.imageSigned im && min.toNat ≤ Config.imageSvn im
/-- A 512-bit value as 64 bytes. -/
def bytes512 (x : BitVec 512) : List Byte := leBytes 64 x.toNat
/-- What stage `k` loads without a staged image: the last staged one that has booted there, else the stage's own. -/
def State.installedAt (s : State) (k : Nat) : List (List Byte) :=
  match NMap.get? s.installed k with
  | some im => [im]
  | none => Config.bootImages k
/-- What stage `k` loads: the staged image when it belongs to the stage, else what stands there. -/
def State.stageImages (s : State) (k : Nat) : List (List Byte) :=
  match s.staged with
  | some im => if Config.imageStage im % 4 = k then [im] else s.installedAt k
  | none => s.installedAt k
/-- One stage of the boot: its measurement register and its SVN. -/
def State.bootStage (s : State) (k : Fin 4) : State :=
  let ims := s.stageImages k.val
  if !s.booted || !(ims.all (imageOk s.minSvn)) then { s with booted := false }
  else ims.foldl (fun s im =>
    { s with
      mr := vset s.mr k (Config.shake256 (bytes512 (s.mr.get k) ++ bytes512 (Config.shake256 im)))
      svn := vset s.svn k (BitVec.ofNat 8 (Config.imageSvn im)) }) s
/-- MODULE_RESET (R405, R406): everything but the retention store, the staging area and the fuses is as at reset; then firmware
boots in stages. A staged image that has booted gives the fused minimum, and stands at its stage from then on. -/
def execModuleReset (s : State) : Out :=
  let r := State.reset
  let t : State :=
    { r with
      agenda := s.agenda, choice := s.choice, image := s.image, staged := s.staged
      installed := s.installed, minSvn := s.minSvn, joules := s.joules }
  let t := (List.finRange 4).foldl (fun s k => s.bootStage k) t
  .next (match t.staged, t.booted with
    | some im, true =>
      { t with
        staged := none, installed := NMap.put t.installed (Config.imageStage im % 4) im
        minSvn := BitVec.ofNat 8 (Config.imageSvn im) }
    | _, _ => t)
/-- ATTEST (R407). -/
def execAttest (s : State) : Out := s.cmdOnce 0x0104 fun c s =>
  let a := c.args.get 0
  let b := c.args.get 1
  if fld a 5 0 != 0 || fld b 5 0 != 0 then s.cmdDone c 2
  else
    let body := s.mem.readN a.toNat 64 ++ s.mr.toList.flatMap bytes512 ++ s.svn.toList ++ leBytes 4 0 ++ leBytes 8 s.tb
    (s.putBytes homeAgent b.toNat (body ++ (Config.identitySign body).toList ++ leBytes 3 0)).cmdDone c 0
/-- FWSTAGE (R406, R408). -/
def execFwstage (s : State) : Out := s.cmdOnce 0x0105 fun c s =>
  let im := s.mem.readN (c.args.get 0).toNat (c.args.get 1).toNat
  if imageOk s.minSvn im then { s with staged := some im }.cmdDone c 0 else s.cmdDone c 2

end Sys2Proof.Machine
end

