-- ==== Sys2Proof/Machine/Debug.lean ====
section
/-! DEFINITION. Debug, trace and profiling commands (R409-R421). -/
namespace Sys2Proof.Machine

/-- The core that a command's ARG0 names. -/
def Cmd.core (c : Cmd) : CoreId := ⟨fld (c.args.get 0) 8 0 % 512, by omega⟩
/-- The bank that a stop of a core records: the active one. -/
def State.stopWho (s : State) (c : CoreId) : Who := { c := c, b := (s.core c).active.getD 0 }

/-! ## Stopping and going on (R409-R413) -/

/-- A core that a debugger's step lets run: its stop record is of the past (R415). -/
def Core.halted (k : Core) : Bool := k.stopped.isSome && !k.stepping
/-- The stop that acts at the start of a core's next cycle, with its cause and sequencer (R410): one that DBGSTOP asks for, or that of a
step whose named sequencers have issued their instructions (R415). -/
def State.stopDue (s : State) (c : CoreId) : Option (Byte × SeqId) :=
  let qs := (s.bank (s.stopWho c)).seqs
  match (s.core c).stopReq with
  | some x => some x
  | none =>
    if !(s.core c).stepping || qs.any (fun q => match q.steps with
      | some n => n != 0
      | none => false) then none
    else some (cStep, ((List.finRange 4).find? fun q => (qs.get q).steps.isSome).getD 0)
/-- Asks for the stop of a core, which acts with its next cycle (R410, R412). -/
def State.askStop (s : State) (c : CoreId) (cause : Byte) (q : SeqId) : State :=
  s.modCore c fun k => { k with stopReq := some (cause, q) }
/-- A stopped bank goes on from a frame (R413): at the level of its stop, with its wait in a `bar` under R127. At level 1 the
replay queue, and a wait that the trap saved, stay those of the trap. -/
def Bank.dbgResume (k : Bank) (ws : List W64) (es : List XEnt) : Bank :=
  let c := k.seqs.get 0
  let k1 : Bank :=
    { k with
      bornSaved := Vector.ofFn fun i => (c.frames.get i).born
      armedSaved := c.armed
      barSaved := none }
  let r := k1.saveBar.resumeFrom ws es k.level
  if k.level then
    { r with frozen := true, replay := k.replay, xpend := [], bornSaved := k.bornSaved, armedSaved := k.armedSaved, barSaved := k.barSaved }
  else r
/-- A core is no longer stopped. -/
def Core.unstop (k : Core) : Core :=
  { k with
    stopped := none, stepping := false
    banks := k.banks.map fun b => { b with seqs := b.seqs.map fun q => { q with steps := none } } }
/-- Resumes a stopped core from a record (R413): none when the record fails the checks of R328. -/
def State.dbgResume (s : State) (c : CoreId) (rec : W64) : Option State :=
  let w := s.stopWho c
  match frameOk (s.bank w) (s.memWords rec.toNat 288) true with
  | none => none
  | some es => some ((if (s.bank w).task.isNone then s
      else s.modBank w fun k => k.dbgResume (s.memWords rec.toNat 288) es).modCore c (·.unstop))
/-- A core whose stop has written no record, for want of an address, goes on as it stands (log 85). -/
def State.dbgGoOn (s : State) (c : CoreId) : State :=
  (s.modBank (s.stopWho c) fun k => if k.level || k.task.isNone then k else k.thaw).modCore c (·.unstop)
/-- DBGCLAIM (R409): a release of a stopped core resumes it. -/
def execDbgclaim (s : State) : Out := s.cmdOnce 0x0300 fun c s =>
  let x := c.core
  if (c.args.get 1).getLsbD 0 then (s.modCore x fun k => { k with claimed := true }).cmdDone c 0
  else if !(s.core x).halted then (s.modCore x fun k => { k with claimed := false }).cmdDone c 0
  else match (match (s.core x).dbgRec with
    | some a => s.dbgResume x a
    | none => some (s.dbgGoOn x)) with
    | some s => (s.modCore x fun k => { k with claimed := false, dbgRec := none }).cmdDone c 0
    | none => s.cmdDone c 2
/-- The cores that a DBGSTOP names. -/
def maskCores (mask : Nat) : List CoreId := (List.finRange 512).filter fun x => mask.testBit x.val
/-- A DBGSTOP names a core (R410, R415, R421): its record area, and the stop; a step in progress completes with STATUS 3. -/
def State.dbgStop (s : State) (area : W64) (x : CoreId × Nat) : State :=
  let s := s.modCore x.1 fun k => { k with dbgRec := some (area + BitVec.ofNat 64 (4096 * x.2)) }
  let s := (s.host.running.filter fun r => r.op == 0x0302 && r.core == x.1).foldl (fun s r => s.cmdDone r 3) s
  if (s.core x.1).halted then s else s.askStop x.1 0 0
/-- DBGSTOP (R410, R415, R421): every named core that runs stops with the start of the next cycle, and the command completes when each of
them has. -/
def execDbgstop (s : State) : Out :=
  s.cmdTurn 0x0301
    (fun c s =>
      let area := c.args.get 1
      if fld area 11 0 != 0 then s.cmdDone c 2
      else
        let mask := s.mem.readLe (c.args.get 0).toNat 64
        (((maskCores mask).zipIdx.foldl (fun s x => s.dbgStop area x) s)).cmdNote c mask)
    fun c s => if (maskCores c.step).all fun x => (s.core x).halted then s.cmdDone c 0 else s
/-- DBGRESUME (R413). -/
def execDbgresume (s : State) : Out := s.cmdOnce 0x0303 fun c s =>
  let x := c.core
  if !(s.core x).claimed || !(s.core x).halted then s.cmdDone c 3
  else match s.dbgResume x (c.args.get 1) with
    | some s => s.cmdDone c 0
    | none => s.cmdDone c 2

/-! ## Single step (R415) -/

/-- The named sequencers of a stopped core may issue n instructions. -/
def State.beginStep (s : State) (c : CoreId) (mask n : Nat) : State :=
  let w := s.stopWho c
  let s := s.modBank w fun k =>
    let k := if k.level then k else k.thaw
    { k with seqs := Vector.ofFn fun q => { k.seqs.get q with steps := if mask.testBit q.val then some n else none } }
  s.modCore c fun k => { k with stepping := true }
/-- DBGSTEP (R415): it completes once the core has stopped again. -/
def execDbgstep (s : State) : Out :=
  s.cmdTurn 0x0302
    (fun c s =>
      let x := c.core
      let n := fld (c.args.get 2) 15 0
      if !(s.core x).claimed || !(s.core x).halted then s.cmdDone c 3
      else if n = 0 then s.cmdDone c 2
      else s.beginStep x (fld (c.args.get 1) 3 0) n)
    fun c s => if (s.core c.core).stepping then s else s.cmdDone c 0
/-- STEP_COUNT_EXPIRE (R415): the named sequencers have issued their instructions; the core stops with SingleStep at the start of its
next cycle (R410, R412). -/
def execStepCountExpire (c : CoreId) (s : State) : Out :=
  match s.stopDue c with
  | some (cause, q) => .next (s.askStop c cause q)
  | none => .next s

/-! ## Patches and registers (R414, R421) -/

/-- Writes a line of a context into the instruction stores that hold it (R320), where no later fetch could bring it (R414). -/
def Core.patchStore (k : Core) (ctx : BitVec 12) (va : Nat) (l : BitVec 512) : Core :=
  { k with istore := k.istore.map fun x => if x.1 == ctx && x.2.1 == va then (x.1, x.2.1, l) else x }
/-- DBGPATCH (R414): a code line of a context is written and dropped from every instruction cache; the instruction stores take the new
words. It needs a claimed core. -/
def execDbgpatch (s : State) : Out := s.cmdOnce 0x0304 fun c s =>
  let ctx : BitVec 12 := (c.args.get 0).setWidth 12
  let va := c.args.get 1
  if !(s.cores.any (·.claimed)) then s.cmdDone c 3
  else if fld va 5 0 != 0 || fld va 63 57 != 0 then s.cmdDone c 2
  else match NMap.get? s.ctxs ctx.toNat with
    | none => s.cmdDone c 2
    | some x =>
      match walk s (tlbAgent 0 0) va.toNat 4 (fld (x.blk.get 1) 39 12 * 4096) with
      | (.leaf l e, s) =>
        if pteOwnH e || !pteX e then s.cmdDone c 2
        else
          let pa := pteAddr e / 2 ^ pageBits l * 2 ^ pageBits l + va.toNat % 2 ^ pageBits l
          let l := BitVec.ofNat 512 (s.mem.readLe (c.args.get 2).toNat 64)
          let s := s.putBytes homeAgent pa (bytes512 l)
          let cores := s.cores.map fun (k : Core) => (k.dropLines ctx va.toNat 1).patchStore ctx va.toNat l
          let s : State := { s with cores := cores }
          s.cmdDone c 0
      | (_, s) => s.cmdDone c 2
/-- DBGREGW (R416, R421): a debug register of a bank, as a level 1 `csrw`. -/
def execDbgregw (s : State) : Out := s.cmdOnce 0x0305 fun c s =>
  let w : Who := { c := c.core, b := ⟨fld (c.args.get 0) 9 9 % 2, by omega⟩ }
  let n := fld (c.args.get 1) 11 0
  let v := c.args.get 2
  if n < 0x300 || 0x320 ≤ n || !csrAssigned n || !csrLimit n v then s.cmdDone c 2
  else (s.modBank w (·.csrLand 0 n v)).cmdDone c 0

/-! ## Profiling, trace, time (R418-R420) -/

/-- EWTWRITE (R418): 32 weights of 16 bits. -/
def execEwtwrite (s : State) : Out := s.cmdOnce 0x0306 fun c s =>
  let pa := (c.args.get 1).toNat
  let t : Vector (BitVec 16) 32 := Vector.ofFn fun i => BitVec.ofNat 16 (s.mem.readLe (pa + 2 * i.val) 2)
  { s with weights := NMap.put s.weights (fld (c.args.get 0) 11 0) t }.cmdDone c 0
/-- PROFBLOCK (R418). -/
def execProfblock (s : State) : Out := s.cmdOnce 0x0307 fun c s =>
  let ctx := fld (c.args.get 0) 11 0
  let va := c.args.get 1
  if fld va 2 0 != 0 || fld va 63 57 != 0 then s.cmdDone c 2
  else match NMap.get? s.ctxs ctx with
    | none => s.cmdDone c 4
    | some x => { s with ctxs := NMap.put s.ctxs ctx { x with prof := va } }.cmdDone c 0
/-- TRACECFG (R420, R421): a ring is set up anew, or tracing is disabled, from the next cycle. -/
def execTracecfg (s : State) : Out := s.cmdOnce 0x0308 fun c s =>
  let d : DieId := ⟨fld (c.args.get 0) 2 0 % 8, by omega⟩
  let base := c.args.get 1
  let size := (c.args.get 2).toNat
  if base = 0 then (s.modDie d fun x => { x with traceNext := some { x.trace with on := false } }).cmdDone c 0
  else if fld base 11 0 != 0 || size = 0 || 2 ^ 20 < size then s.cmdDone c 2
  else
    let t : Trace :=
      { on := true, base := base, size := size, stopMode := (c.args.get 3).getLsbD 0, kinds := BitVec.ofNat 15 (fld (c.args.get 3) 15 1) }
    (s.modDie d fun x => { x with traceNext := some t }).cmdDone c 0
/-- PEERSKEW (R419): the offset to a node and its uncertainty are what the span gives: free values. A node without a route is not
found. -/
def execPeerskew (s : State) : Out := s.cmdOnce 0x0309 fun c s =>
  if Config.route ((c.args.get 0).setWidth 16) = 0 then s.cmdDone c 4
  else
    let (a, s) := s.fresh
    let (b, s) := s.fresh
    (s.putBytes homeAgent (c.args.get 1).toNat (wordBytes [a, b])).cmdDone c 0

end Sys2Proof.Machine
end

