-- ==== Sys2Proof/Machine/Dispatch.lean ====
section
/-! DEFINITION. One arm for each instruction: a direct call of its meaning. -/
namespace Sys2Proof.Machine

def exec (i : Instr) (s : State) : Host.Outcome State Fault Refusal :=
  match i with
  | .nop => Sys2Proof.Machine.execNop s
  | .add f => Sys2Proof.Machine.execAdd f s
  | .sub f => Sys2Proof.Machine.execSub f s
  | .and f => Sys2Proof.Machine.execAnd f s
  | .or f => Sys2Proof.Machine.execOr f s
  | .xor f => Sys2Proof.Machine.execXor f s
  | .shl f => Sys2Proof.Machine.execShl f s
  | .shr f => Sys2Proof.Machine.execShr f s
  | .sra f => Sys2Proof.Machine.execSra f s
  | .mul f => Sys2Proof.Machine.execMul f s
  | .mulh f => Sys2Proof.Machine.execMulh f s
  | .min f => Sys2Proof.Machine.execMin f s
  | .max f => Sys2Proof.Machine.execMax f s
  | .div f => Sys2Proof.Machine.execDiv f s
  | .addi f => Sys2Proof.Machine.execAddi f s
  | .andi f => Sys2Proof.Machine.execAndi f s
  | .ori f => Sys2Proof.Machine.execOri f s
  | .xori f => Sys2Proof.Machine.execXori f s
  | .shli f => Sys2Proof.Machine.execShli f s
  | .shri f => Sys2Proof.Machine.execShri f s
  | .srai f => Sys2Proof.Machine.execSrai f s
  | .muli f => Sys2Proof.Machine.execMuli f s
  | .li f => Sys2Proof.Machine.execLi f s
  | .lcat f => Sys2Proof.Machine.execLcat f s
  | .seq f => Sys2Proof.Machine.execSeq f s
  | .sne f => Sys2Proof.Machine.execSne f s
  | .slt f => Sys2Proof.Machine.execSlt f s
  | .sltu f => Sys2Proof.Machine.execSltu f s
  | .sle f => Sys2Proof.Machine.execSle f s
  | .sleu f => Sys2Proof.Machine.execSleu f s
  | .csel f => Sys2Proof.Machine.execCsel f s
  | .clz f => Sys2Proof.Machine.execClz f s
  | .ctz f => Sys2Proof.Machine.execCtz f s
  | .popc f => Sys2Proof.Machine.execPopc f s
  | .fadd f => Sys2Proof.Machine.execFadd f s
  | .fsub f => Sys2Proof.Machine.execFsub f s
  | .fmul f => Sys2Proof.Machine.execFmul f s
  | .fmad f => Sys2Proof.Machine.execFmad f s
  | .fmin f => Sys2Proof.Machine.execFmin f s
  | .fmax f => Sys2Proof.Machine.execFmax f s
  | .ftoi f => Sys2Proof.Machine.execFtoi f s
  | .itof f => Sys2Proof.Machine.execItof f s
  | .flt f => Sys2Proof.Machine.execFlt f s
  | .br f => Sys2Proof.Machine.execBr f s
  | .brz f => Sys2Proof.Machine.execBrz f s
  | .brnz f => Sys2Proof.Machine.execBrnz f s
  | .brlt f => Sys2Proof.Machine.execBrlt f s
  | .brge f => Sys2Proof.Machine.execBrge f s
  | .brle f => Sys2Proof.Machine.execBrle f s
  | .brgt f => Sys2Proof.Machine.execBrgt f s
  | .call f => Sys2Proof.Machine.execCall f s
  | .ret f => Sys2Proof.Machine.execRet f s
  | .jmp f => Sys2Proof.Machine.execJmp f s
  | .loop f => Sys2Proof.Machine.execLoop f s
  | .bqnz f => Sys2Proof.Machine.execBqnz f s
  | .bqz f => Sys2Proof.Machine.execBqz f s
  | .wait f => Sys2Proof.Machine.execWait f s
  | .ld8 f => Sys2Proof.Machine.execLd8 f s
  | .ld16 f => Sys2Proof.Machine.execLd16 f s
  | .ld32 f => Sys2Proof.Machine.execLd32 f s
  | .ld64 f => Sys2Proof.Machine.execLd64 f s
  | .ld8s f => Sys2Proof.Machine.execLd8s f s
  | .ld16s f => Sys2Proof.Machine.execLd16s f s
  | .ld32s f => Sys2Proof.Machine.execLd32s f s
  | .st8 f => Sys2Proof.Machine.execSt8 f s
  | .st16 f => Sys2Proof.Machine.execSt16 f s
  | .st32 f => Sys2Proof.Machine.execSt32 f s
  | .st64 f => Sys2Proof.Machine.execSt64 f s
  | .amoadd f => Sys2Proof.Machine.execAmoadd f s
  | .amoswp f => Sys2Proof.Machine.execAmoswp f s
  | .amocas f => Sys2Proof.Machine.execAmocas f s
  | .amoand f => Sys2Proof.Machine.execAmoand f s
  | .amoor f => Sys2Proof.Machine.execAmoor f s
  | .amoxor f => Sys2Proof.Machine.execAmoxor f s
  | .fenceCore f => Sys2Proof.Machine.execFenceCore f s
  | .fenceClu f => Sys2Proof.Machine.execFenceClu f s
  | .fenceDie f => Sys2Proof.Machine.execFenceDie f s
  | .fenceMod f => Sys2Proof.Machine.execFenceMod f s
  | .fenceSpan f => Sys2Proof.Machine.execFenceSpan f s
  | .efence f => Sys2Proof.Machine.execEfence f s
  | .farm f => Sys2Proof.Machine.execFarm f s
  | .fpost f => Sys2Proof.Machine.execFpost f s
  | .fdec f => Sys2Proof.Machine.execFdec f s
  | .fread f => Sys2Proof.Machine.execFread f s
  | .fwait f => Sys2Proof.Machine.execFwait f s
  | .bar f => Sys2Proof.Machine.execBar f s
  | .qpush f => Sys2Proof.Machine.execQpush f s
  | .qpop f => Sys2Proof.Machine.execQpop f s
  | .qpeek f => Sys2Proof.Machine.execQpeek f s
  | .qstat f => Sys2Proof.Machine.execQstat f s
  | .qcfg f => Sys2Proof.Machine.execQcfg f s
  | .spawn f => Sys2Proof.Machine.execSpawn f s
  | .tstart f => Sys2Proof.Machine.execTstart f s
  | .join f => Sys2Proof.Machine.execJoin f s
  | .yield f => Sys2Proof.Machine.execYield f s
  | .exit f => Sys2Proof.Machine.execExit f s
  | .sbind f => Sys2Proof.Machine.execSbind f s
  | .sstop f => Sys2Proof.Machine.execSstop f s
  | .sstat f => Sys2Proof.Machine.execSstat f s
  | .gather f => Sys2Proof.Machine.execGather f s
  | .gatherq f => Sys2Proof.Machine.execGatherq f s
  | .copy f => Sys2Proof.Machine.execCopy f s
  | .copyf f => Sys2Proof.Machine.execCopyf f s
  | .copy2d f => Sys2Proof.Machine.execCopy2d f s
  | .wload f => Sys2Proof.Machine.execWload f s
  | .rcfill f => Sys2Proof.Machine.execRcfill f s
  | .rcclose f => Sys2Proof.Machine.execRcclose f s
  | .rcquery f => Sys2Proof.Machine.execRcquery f s
  | .shload f => Sys2Proof.Machine.execShload f s
  | .shext f => Sys2Proof.Machine.execShext f s
  | .ldq f => Sys2Proof.Machine.execLdq f s
  | .ldrow f => Sys2Proof.Machine.execLdrow f s
  | .actBind f => Sys2Proof.Machine.execActBind f s
  | .actMark f => Sys2Proof.Machine.execActMark f s
  | .actClear f => Sys2Proof.Machine.execActClear f s
  | .actList f => Sys2Proof.Machine.execActList f s
  | .actCount f => Sys2Proof.Machine.execActCount f s
  | .prefetch f => Sys2Proof.Machine.execPrefetch f s
  | .gwait f => Sys2Proof.Machine.execGwait f s
  | .gstat f => Sys2Proof.Machine.execGstat f s
  | .vadd f => Sys2Proof.Machine.execVadd f s
  | .vsub f => Sys2Proof.Machine.execVsub f s
  | .vmul f => Sys2Proof.Machine.execVmul f s
  | .vfma f => Sys2Proof.Machine.execVfma f s
  | .vfms f => Sys2Proof.Machine.execVfms f s
  | .vmin f => Sys2Proof.Machine.execVmin f s
  | .vmax f => Sys2Proof.Machine.execVmax f s
  | .vabs f => Sys2Proof.Machine.execVabs f s
  | .vneg f => Sys2Proof.Machine.execVneg f s
  | .viadd f => Sys2Proof.Machine.execViadd f s
  | .visub f => Sys2Proof.Machine.execVisub f s
  | .vimul f => Sys2Proof.Machine.execVimul f s
  | .viand f => Sys2Proof.Machine.execViand f s
  | .vior f => Sys2Proof.Machine.execVior f s
  | .vixor f => Sys2Proof.Machine.execVixor f s
  | .vishl f => Sys2Proof.Machine.execVishl f s
  | .vishr f => Sys2Proof.Machine.execVishr f s
  | .vceq f => Sys2Proof.Machine.execVceq f s
  | .vclt f => Sys2Proof.Machine.execVclt f s
  | .vcle f => Sys2Proof.Machine.execVcle f s
  | .viceq f => Sys2Proof.Machine.execViceq f s
  | .vilt f => Sys2Proof.Machine.execVilt f s
  | .vsel f => Sys2Proof.Machine.execVsel f s
  | .vmov f => Sys2Proof.Machine.execVmov f s
  | .vsplat f => Sys2Proof.Machine.execVsplat f s
  | .vquant f => Sys2Proof.Machine.execVquant f s
  | .vdequant f => Sys2Proof.Machine.execVdequant f s
  | .vftoi f => Sys2Proof.Machine.execVftoi f s
  | .vitof f => Sys2Proof.Machine.execVitof f s
  | .vexp2 f => Sys2Proof.Machine.execVexp2 f s
  | .vexp2d f => Sys2Proof.Machine.execVexp2d f s
  | .vlog2 f => Sys2Proof.Machine.execVlog2 f s
  | .vrcpSeed f => Sys2Proof.Machine.execVrcpSeed f s
  | .vrsqSeed f => Sys2Proof.Machine.execVrsqSeed f s
  | .vrotr f => Sys2Proof.Machine.execVrotr f s
  | .vrotc f => Sys2Proof.Machine.execVrotc f s
  | .vbcastr f => Sys2Proof.Machine.execVbcastr f s
  | .vbcastc f => Sys2Proof.Machine.execVbcastc f s
  | .vredr f => Sys2Proof.Machine.execVredr f s
  | .vredc f => Sys2Proof.Machine.execVredc f s
  | .vscanr f => Sys2Proof.Machine.execVscanr f s
  | .vscanc f => Sys2Proof.Machine.execVscanc f s
  | .mand f => Sys2Proof.Machine.execMand f s
  | .mor f => Sys2Proof.Machine.execMor f s
  | .mxor f => Sys2Proof.Machine.execMxor f s
  | .mandn f => Sys2Proof.Machine.execMandn f s
  | .vany f => Sys2Proof.Machine.execVany f s
  | .vall f => Sys2Proof.Machine.execVall f s
  | .mpop f => Sys2Proof.Machine.execMpop f s
  | .vflag f => Sys2Proof.Machine.execVflag f s
  | .vflagclr f => Sys2Proof.Machine.execVflagclr f s
  | .vpop f => Sys2Proof.Machine.execVpop f s
  | .vpush f => Sys2Proof.Machine.execVpush f s
  | .vget f => Sys2Proof.Machine.execVget f s
  | .vput f => Sys2Proof.Machine.execVput f s
  | .exposedWriteLand c b => Sys2Proof.Machine.execExposedWriteLand c b s
  | .mmul f => Sys2Proof.Machine.execMmul f s
  | .mswap f => Sys2Proof.Machine.execMswap f s
  | .mrank f => Sys2Proof.Machine.execMrank f s
  | .mzero f => Sys2Proof.Machine.execMzero f s
  | .mread f => Sys2Proof.Machine.execMread f s
  | .mclose f => Sys2Proof.Machine.execMclose f s
  | .mwait f => Sys2Proof.Machine.execMwait f s
  | .mstat f => Sys2Proof.Machine.execMstat f s
  | .fmtw f => Sys2Proof.Machine.execFmtw f s
  | .fmtr f => Sys2Proof.Machine.execFmtr f s
  | .aecfg f => Sys2Proof.Machine.execAecfg f s
  | .aerun f => Sys2Proof.Machine.execAerun f s
  | .aeread f => Sys2Proof.Machine.execAeread f s
  | .strow f => Sys2Proof.Machine.execStrow f s
  | .stword f => Sys2Proof.Machine.execStword f s
  | .scatter f => Sys2Proof.Machine.execScatter f s
  | .strc f => Sys2Proof.Machine.execStrc f s
  | .rstore f => Sys2Proof.Machine.execRstore f s
  | .ratom f => Sys2Proof.Machine.execRatom f s
  | .obind f => Sys2Proof.Machine.execObind f s
  | .ostop f => Sys2Proof.Machine.execOstop f s
  | .csrr f => Sys2Proof.Machine.execCsrr f s
  | .csrw f => Sys2Proof.Machine.execCsrw f s
  | .cwinWrite f => Sys2Proof.Machine.execCwinWrite f s
  | .qmapWrite f => Sys2Proof.Machine.execQmapWrite f s
  | .flogdatRead f => Sys2Proof.Machine.execFlogdatRead f s
  | .wsrangeWrite f => Sys2Proof.Machine.execWsrangeWrite f s
  | .pfblockWrite f => Sys2Proof.Machine.execPfblockWrite f s
  | .wpcWrite f => Sys2Proof.Machine.execWpcWrite f s
  | .trap f => Sys2Proof.Machine.execTrap f s
  | .resume f => Sys2Proof.Machine.execResume f s
  | .tlbinv f => Sys2Proof.Machine.execTlbinv f s
  | .icinv f => Sys2Proof.Machine.execIcinv f s
  | .rqrd f => Sys2Proof.Machine.execRqrd f s
  | .rqwr f => Sys2Proof.Machine.execRqwr f s
  | .pgmap f => Sys2Proof.Machine.execPgmap f s
  | .pgdone f => Sys2Proof.Machine.execPgdone f s
  | .brk f => Sys2Proof.Machine.execBrk f s
  | .illegalInstruction w => Sys2Proof.Machine.execIllegalInstruction w s
  | .impreciseTrap c => Sys2Proof.Machine.execImpreciseTrap c s
  | .registerWriteLand c b q => Sys2Proof.Machine.execRegisterWriteLand c b q s
  | .stepCountExpire c => Sys2Proof.Machine.execStepCountExpire c s
  | .tbskewMeasure d ps => Sys2Proof.Machine.execTbskewMeasure d ps s
  | .fetchLineArrive c b q => Sys2Proof.Machine.execFetchLineArrive c b q s
  | .parkedRelease c => Sys2Proof.Machine.execParkedRelease c s
  | .drain a => Sys2Proof.Machine.execDrain a s
  | .apply k => Sys2Proof.Machine.execApply k s
  | .deliver k => Sys2Proof.Machine.execDeliver k s
  | .copyEngineStart c => Sys2Proof.Machine.execCopyEngineStart c s
  | .streamElementPush c k => Sys2Proof.Machine.execStreamElementPush c k s
  | .gatherRowDeliver c id pos => Sys2Proof.Machine.execGatherRowDeliver c id pos s
  | .copyComplete c id => Sys2Proof.Machine.execCopyComplete c id s
  | .followonPlace c id => Sys2Proof.Machine.execFollowonPlace c id s
  | .matrixCmdStart c => Sys2Proof.Machine.execMatrixCmdStart c s
  | .matrixRowPop c => Sys2Proof.Machine.execMatrixRowPop c s
  | .matrixContributionLand c => Sys2Proof.Machine.execMatrixContributionLand c s
  | .matrixOpComplete c => Sys2Proof.Machine.execMatrixOpComplete c s
  | .wloadComplete c => Sys2Proof.Machine.execWloadComplete c s
  | .ostreamElementWrite c k => Sys2Proof.Machine.execOstreamElementWrite c k s
  | .lamplighterApply u => Sys2Proof.Machine.execLamplighterApply u s
  | .aeRunStart u => Sys2Proof.Machine.execAeRunStart u s
  | .aeRunComplete u => Sys2Proof.Machine.execAeRunComplete u s
  | .combineFlushTimeout c => Sys2Proof.Machine.execCombineFlushTimeout c s
  | .remoteAck c => Sys2Proof.Machine.execRemoteAck c s
  | .ratomReply c => Sys2Proof.Machine.execRatomReply c s
  | .remoteRequestArrive k peer => Sys2Proof.Machine.execRemoteRequestArrive k peer s
  | .peerLaunch node addr row => Sys2Proof.Machine.execPeerLaunch node addr row s
  | .flitReceive lk crcOk => Sys2Proof.Machine.execFlitReceive lk crcOk s
  | .nakReceive lk => Sys2Proof.Machine.execNakReceive lk s
  | .ackOnlyFlit lk => Sys2Proof.Machine.execAckOnlyFlit lk s
  | .laneFailure lk beyondRepair => Sys2Proof.Machine.execLaneFailure lk beyondRepair s
  | .retrainComplete lk ok => Sys2Proof.Machine.execRetrainComplete lk ok s
  | .requestGiveUp c => Sys2Proof.Machine.execRequestGiveUp c s
  | .holderFenceTimeout d => Sys2Proof.Machine.execHolderFenceTimeout d s
  | .liveLineEvict row => Sys2Proof.Machine.execLiveLineEvict row s
  | .fillStallResume d => Sys2Proof.Machine.execFillStallResume d s
  | .countedFullTimeout d => Sys2Proof.Machine.execCountedFullTimeout d s
  | .parityRepair c b q file index captureOk => Sys2Proof.Machine.execParityRepair c b q file index captureOk s
  | .dispatch d => Sys2Proof.Machine.execDispatch d s
  | .bankActivate c => Sys2Proof.Machine.execBankActivate c s
  | .killComplete c b => Sys2Proof.Machine.execKillComplete c b s
  | .preemptCheckpoint c b => Sys2Proof.Machine.execPreemptCheckpoint c b s
  | .saveCommit c b => Sys2Proof.Machine.execSaveCommit c b s
  | .restore c b => Sys2Proof.Machine.execRestore c b s
  | .workSteal d => Sys2Proof.Machine.execWorkSteal d s
  | .streamTlbPrefetch c out va => Sys2Proof.Machine.execStreamTlbPrefetch c out va s
  | .unitFence u cls addr => Sys2Proof.Machine.execUnitFence u cls addr s
  | .selftestComplete u pass => Sys2Proof.Machine.execSelftestComplete u pass s
  | .engineWindowReplay c eng id second => Sys2Proof.Machine.execEngineWindowReplay c eng id second s
  | .scrubAtom addr uncorrectable => Sys2Proof.Machine.execScrubAtom addr uncorrectable s
  | .scanStart d => Sys2Proof.Machine.execScanStart d s
  | .scanComplete c pass => Sys2Proof.Machine.execScanComplete c pass s
  | .clampChange d cc tc mhz => Sys2Proof.Machine.execClampChange d cc tc mhz s
  | .powerReportDeferred d => Sys2Proof.Machine.execPowerReportDeferred d s
  | .holdupBankLow joules => Sys2Proof.Machine.execHoldupBankLow joules s
  | .inputPowerLoss => Sys2Proof.Machine.execInputPowerLoss s
  | .lossSaveTasks => Sys2Proof.Machine.execLossSaveTasks s
  | .lossWriteBack => Sys2Proof.Machine.execLossWriteBack s
  | .lossStoreState => Sys2Proof.Machine.execLossStoreState s
  | .lossStoreHbm => Sys2Proof.Machine.execLossStoreHbm s
  | .lossCommit => Sys2Proof.Machine.execLossCommit s
  | .lossOff => Sys2Proof.Machine.execLossOff s
  | .moduleReset => Sys2Proof.Machine.execModuleReset s
  | .hictlWrite v => Sys2Proof.Machine.execHictlWrite v s
  | .cqbellWrite v => Sys2Proof.Machine.execCqbellWrite v s
  | .eqackWrite v => Sys2Proof.Machine.execEqackWrite v s
  | .hostRegWrite off v => Sys2Proof.Machine.execHostRegWrite off v s
  | .eventWrite => Sys2Proof.Machine.execEventWrite s
  | .cmdNop => Sys2Proof.Machine.execCmdNop s
  | .launch => Sys2Proof.Machine.execLaunch s
  | .ctxcreate => Sys2Proof.Machine.execCtxcreate s
  | .ctxteardown => Sys2Proof.Machine.execCtxteardown s
  | .aclwrite => Sys2Proof.Machine.execAclwrite s
  | .schedparam => Sys2Proof.Machine.execSchedparam s
  | .pageanswer => Sys2Proof.Machine.execPageanswer s
  | .shootdown => Sys2Proof.Machine.execShootdown s
  | .pagerelease => Sys2Proof.Machine.execPagerelease s
  | .gangwrite => Sys2Proof.Machine.execGangwrite s
  | .savefclear => Sys2Proof.Machine.execSavefclear s
  | .relparam => Sys2Proof.Machine.execRelparam s
  | .selftest => Sys2Proof.Machine.execSelftest s
  | .retire => Sys2Proof.Machine.execRetire s
  | .powerstate => Sys2Proof.Machine.execPowerstate s
  | .ckptarm => Sys2Proof.Machine.execCkptarm s
  | .ckptrestore => Sys2Proof.Machine.execCkptrestore s
  | .ckptdiscard => Sys2Proof.Machine.execCkptdiscard s
  | .attest => Sys2Proof.Machine.execAttest s
  | .fwstage => Sys2Proof.Machine.execFwstage s
  | .dbgclaim => Sys2Proof.Machine.execDbgclaim s
  | .dbgstop => Sys2Proof.Machine.execDbgstop s
  | .dbgstep => Sys2Proof.Machine.execDbgstep s
  | .dbgresume => Sys2Proof.Machine.execDbgresume s
  | .dbgpatch => Sys2Proof.Machine.execDbgpatch s
  | .dbgregw => Sys2Proof.Machine.execDbgregw s
  | .ewtwrite => Sys2Proof.Machine.execEwtwrite s
  | .profblock => Sys2Proof.Machine.execProfblock s
  | .tracecfg => Sys2Proof.Machine.execTracecfg s
  | .peerskew => Sys2Proof.Machine.execPeerskew s
  | .holdupBankExhausted => Sys2Proof.Machine.execHoldupBankExhausted s

end Sys2Proof.Machine
end

