-- ==== Sys2Proof/Machine/Cycle.lean ====
section
/-! DEFINITION. One cycle of the module: what ends a cycle, then the turns of the next one (R8, R67-R70, R75, R221, R321, R322;
log 9). -/
namespace Sys2Proof.Machine

/-! ## The end of a cycle -/

/-- The flags that an event has met in this cycle: those of banks that hold a task, and those of clusters. -/
def State.metFlags (s : State) : List Flag :=
  let met (fs : Vector Flag 32) : List Flag := fs.toList.filter fun f => !f.evs.isEmpty
  (s.cores.toList.flatMap fun (k : Core) => k.banks.toList.flatMap fun (b : Bank) => if b.task.isSome then met b.f else []) ++
    s.clusters.toList.flatMap fun (u : Cluster) => met u.g
/-- A bank's items at the end of a cycle: its flags, registers and format slots take what the cycle has brought (R69, R75,
R188). -/
def Bank.endCycle (k : Bank) : Bank :=
  if k.task.isNone then k else { k with f := k.f.map Flag.commit }.csrCommit.fmtCommit
/-- A core at the end of a cycle. -/
def Core.endCycle (k : Core) (now : Nat) : Core := { k with banks := k.banks.map Bank.endCycle }.tick now
/-- A cluster's flags at the end of a cycle. -/
def Cluster.endCycle (u : Cluster) : Cluster :=
  if u.g.toList.any fun f => !f.evs.isEmpty then { u with g := u.g.map Flag.commit } else u
/-- The end of a cycle: flag events act, then the zero tests free parked commands (R69, R70); register writes land (R75); the dies take
accepted parameters (R313); counts and the clock go on (R8, R314, R418). -/
def State.endCycle (s : State) : State :=
  let s := s.overflows s.metFlags
  let s := { s with
    eaten := []
    cores := s.cores.map fun (k : Core) => k.endCycle s.now
    clusters := s.clusters.map Cluster.endCycle
    dies := s.dies.map Die.parCommit }
  let s := (List.finRange 512).foldl (fun s c => s.zeroTest c) s
  let s := { s with dies := Vector.ofFn fun d => s.idleTick d }
  s.beginTests.clock

/-! ## The turns of a cycle -/

/-- Which instructions act in a pass over the sequencers of a cycle. -/
inductive Pass where
  | runs
  | others
  | all
  deriving DecidableEq, Repr
/-- Whether an instruction acts in a pass: the runs of the assignment engine come first, since they enter its FIFO in the order of the
cores whatever else the cycle does (R202); consuming reads come once the others have moved their queues on, in the order of the
agents (R249). -/
def Pass.takes (p : Pass) (i : Instr) : Bool :=
  match p with
  | .runs => match i with
    | .aerun _ => true
    | _ => false
  | .others => !consumes i
  | .all => true
/-- One sequencer of a core tries to act in this cycle. -/
def State.oneTurn (s : State) (p : Pass) (c : CoreId) (q : SeqId) : State :=
  match (s.core c).active with
  | none => s
  | some b => match s.turnOf c b q with
    | .idle => s
    | .slot => if p = .runs then s else s.waitSlot ⟨c, b, q, 0⟩
    | .stop x => if p = .runs then s else { s with cur := ⟨c, b, q, 0⟩ }.stopped x
    | .run i t =>
      if !p.takes i then s
      else match exec i t with
        | .next s => s
        | _ => s
/-- The sequencers of some cores that have not yet acted try, core by core, in the order C, A, X, S (R75). -/
def State.round (p : Pass) (cs : List CoreId) (s : State) : State :=
  cs.foldl (fun s c => (List.finRange 4).foldl (fun s q => s.oneTurn p c q) s) s
/-- Whether a sequencer of some cores still waits for a slot of a queue, which a pop of the cycle may free (R67). -/
def State.unsettled (s : State) (cs : List CoreId) : Bool :=
  cs.any fun c => match (s.core c).active with
    | none => false
    | some b => ((s.core c).banks.get b).seqs.any fun q => q.started && q.stall == 3 && q.last != s.now + 1
/-- A round, and again while a full queue holds a sequencer: as often as there are sequencers in a core. DESIGN CHOICE (log 101): in a
ring of full queues, each instruction of which pops one and pushes the next, none goes first, and none acts. -/
def State.settle (p : Pass) (cs : List CoreId) (s : State) : State :=
  (List.range 3).foldl (fun s _ => if s.unsettled cs then s.round p cs else s) (s.round p cs)
/-- The turns of a cycle: a sequencer that another's pop lets go on acts in the same cycle (R67); what none of them can change
any more is decided last. -/
def State.rounds (s : State) (cs : List CoreId) : State :=
  let s := { s with phase := .early, raised := [] }.round .runs cs
  let s := (s.settle .others cs).settle .all cs
  { { s with phase := .late }.settle .all cs with phase := .alone }
/-- The flag events of the sequencers of some cores that the cycle's other events turn into ones that overflow: FlagOverflow is precise
at the instruction, which has no effect (R69, R125). -/
def State.refusedEvents (s : State) (cs : List CoreId) : List (Who × TrapInfo) :=
  let of (fs : Vector Flag 32) : List FlagEv := fs.toList.flatMap fun f => if f.evs.isEmpty then [] else f.settle.2.2
  let evs := match cs with
    | [] => []
    | c :: _ => of (s.clu (cluOf c)).g
  let evs := cs.foldl (fun l c => match (s.core c).active with
    | none => l
    | some b => l ++ of ((s.core c).banks.get b).f) evs
  evs.filterMap fun e => if e.by_.toNat < 16 && cs.contains e.who.c then some ({ e.who with t := 0 }, { cause := cFlagOvf }) else none
/-- The trap of a core in a cycle (R321, R322): the precise cause of its lowest sequencer, else a pending imprecise one. On a core that
stops on some of the causes it is the lowest sequencer's of those (R410). `s` is the core at the start of the cycle, `rs` the precise
causes that its turns have met. One that would raise an event waits for a place for it (R362). -/
def State.trapOf (s : State) (rs : List (Who × TrapInfo)) (c : CoreId) : Option (Who × Option TrapInfo) :=
  let mine := (List.finRange 4).filterMap fun q => rs.find? fun r => r.1.c == c && r.1.q == q
  match mine.find? (fun r => (s.core c).stopsOn r.2), mine with
  | some r, _ => if s.trapWaits r.1 r.2 then none else some (r.1, some r.2)
  | none, r :: _ => if s.trapWaits r.1 r.2 then none else some (r.1, some r.2)
  | none, [] => match (s.core c).active with
    | some b =>
      let w : Who := ⟨c, b, 0, 0⟩
      if (s.bank w).imprecisePending && (s.core c).activeFrom ≤ s.now && !s.trapWaits w (s.bank w).imprecise then some (w, none)
      else none
    | none => none
/-- Takes the trap of a core; `o` is the core at the start of the cycle, which its record shows (R321). -/
def State.takeOne (s : State) (x : Who × Option TrapInfo) (o : Option State) : State :=
  match x.2 with
  | some t => { s with cur := x.1 }.trapped t o
  | none => s.takeImprecise x.1 o
/-- The cycle of some cores of a cluster. No sequencer of a core that traps issues in the cycle (R321): the trap is taken on the
core as its turns found it, and the others' turns are as if that core had none. -/
def State.coresCycle (s : State) (o : Option State) : Nat → List CoreId → State
  | 0, _ => s
  | n + 1, cs =>
    let t := s.rounds cs
    let late := t.refusedEvents cs
    match cs.findSome? (fun c => s.trapOf (if t.raised.any (·.1.c == c) then t.raised ++ late else t.raised) c),
      cs.findSome? (fun c => s.trapOf late c) with
    | some x, _ => (s.takeOne x o).coresCycle o n (cs.filter (· != x.1.c))
    | none, some x => (s.takeOne x o).coresCycle o n (cs.filter (· != x.1.c))
    | none, none => { t.raised.foldl (fun t r => t.modSeq r.1 fun q => { q with stall := 13, obj := 0, objG := false }) t with raised := [] }
/-- What a core does at the start of a cycle: a waiting task becomes active (R308), freed commands leave the parked-command store (R70), and
the matrix engine goes on (R232, R233). -/
def State.coreStart (s : State) (c : CoreId) : State :=
  let s := match execBankActivate c s with
    | .next s => s
    | _ => s
  let s := s.modCore c fun k => { k with was := if k.activeFrom ≤ s.now then k.active else none }
  (s.releaseParked c).matrixCycle c
/-- A stop that the debugger has asked for, or that a step brings, acts at the start of a cycle, before any trap of it (R410, R412, R415);
it waits for a place for its event (R362). `o` is the core at the start of the cycle. -/
def State.stopCycle (s o : State) (c : CoreId) : State :=
  match s.stopDue c with
  | some (cause, q) => if 4096 ≤ s.evWaiting then s else s.stopCore ((s.stopWho c).seq q) cause q (cause != 0) false 0 0 [] (some o)
  | none => s
/-- The cycle of a cluster. -/
def State.cluCycle (s : State) (u : CluId) : State :=
  let t := (List.finRange 4).foldl (fun s i => s.coreStart (coreOf u i)) s
  let t := (List.finRange 4).foldl (fun t i => t.stopCycle s (coreOf u i)) t
  let cs := ((List.finRange 4).map (coreOf u)).filter fun c => (t.core c).active.isSome
  if cs.isEmpty then t else t.coresCycle (some s) 5 cs
/-- One cycle passes: the last one ends, and the sequencers of every core have their turns in the new one, which its events
follow (log 9). -/
def State.tick (s : State) : State := (List.finRange 128).foldl (fun s u => s.cluCycle u) s.endCycle

/-- A sequencer's turn of the agenda, outside a cycle of its core (log 3): a pending imprecise cause is taken in its place, unless
the turn raises a precise one (R321, R322). -/
def State.solo (s : State) (c : CoreId) (b : BankId) (q : SeqId) : Out :=
  let w : Who := ⟨c, b, q, 0⟩
  if (s.core c).active = some b && (s.bank w).imprecisePending then
    let t := { s with phase := .late, raised := [] }.oneTurn .all c q
    .next (match s.trapOf t.raised c with
      | some x => s.takeOne x none
      | none => s)
  else match s.turnOf c b q with
    | .idle => .next s
    | .slot => .next (s.waitSlot w)
    | .stop x => .next ({ s with cur := w }.stopped x)
    | .run i s => exec i s

end Sys2Proof.Machine
end

