-- ==== Sys2Proof/Machine/Place.lean ====
section
/-! DEFINITION. Placing one instruction for the next step: a resident task on bank 0 of core 0, a code line in memory, its
translation and its copy in the instruction cache, and that sequencer's turn (log 3). -/
namespace Sys2Proof.Machine

/-- Where the line stands: virtual and physical address. -/
abbrev placeLine : Nat := 0x10000
/-- The sequencer that runs the instruction: the first of its home set (R91). -/
def placeSeq (w : Nat) : SeqId :=
  match decode (leBytes 8 w) with
  | .ok (i, _) => i.home.headD 0
  | .error _ => 0
/-- The code line: link word, the instruction's two words, and `nop` (R77). -/
def placeBytes (q : SeqId) (w : Nat) : List Byte :=
  leBytes 4 (q.val * 2 ^ 28 + 15 * 2 ^ 24) ++ leBytes 8 w ++ List.replicate 52 0
/-- A leaf that maps the line's page for execute (R340). -/
abbrev placeLeaf : W64 := 0x10013

/-- Places an instruction of at most two words on core 0. -/
def State.place (s : State) (w : Nat) : State :=
  let q := placeSeq w
  let who : Who := ⟨0, 0, q, 0⟩
  let bs := placeBytes q w
  let s := { s with
    off := false, phase := .alone, raised := []
    agenda := .seq 0 0 q :: s.agenda
    mem := s.mem.writeN placeLine bs }
  let s := s.modCore 0 fun k =>
    { k with
      active := some 0
      activeFrom := 0
      stopped := none
      tlb := ⟨0, 0, 1, placeLeaf⟩ :: k.tlb
      icache := NMap.put k.icache (icKey 0 (BitVec.ofNat 64 placeLine)) (BitVec.ofNat 512 (leNat bs)) }
  (s.modBank who fun b =>
    { b with
      task := some { w := Vector.replicate 8 0, id := 0, owner := 0 }
      frozen := false, level := false, suspended := false, blocked := false, stopping := none, tpend := 0 }).modSeq who fun x =>
    { x with started := true, pc := BitVec.ofNat 64 (placeLine + 4), waitRem := 0, last := 0, hold := 0, refused := [] }

end Sys2Proof.Machine
end

