-- ==== Sys2Proof/Machine/Step.lean ====
section
/-! DEFINITION. One step: the next turn of the agenda, or an open one when it is empty (R263, R267). -/
namespace Sys2Proof.Machine

/-- One step of the module. A sequencer's turn that is not on the agenda is a turn of its whole cycle. -/
def step (s : State) : Host.Outcome State Fault Refusal :=
  match s.popTurn with
  | (.tick, t) => if t.off then .fault .moduleOff else .next t.tick
  | (.hostStore h pa bs, t) => if t.off then .fault .moduleOff else .next (t.hostStore h pa bs)
  | (.hostRead o, t) => if t.off then .fault .moduleOff else .next (t.hostRead o)
  | (.act i, t) =>
    if t.off && i != .moduleReset then .fault .moduleOff
    else if isEvent i then exec i t
    else .next t
  | (.seq c b q, t) =>
    if t.off then .fault .moduleOff
    else if s.agenda.isEmpty then .next t.tick
    else t.solo c b q

/-- The state with an instruction placed where the next step fetches it. -/
def State.withFetchWord (s : State) (nbits w : Nat) : State := s.place (w % 2 ^ nbits)

end Sys2Proof.Machine
end

