-- ==== Sys2Proof/Safety.lean ====
section
/-! DEFINITION. The terms in which the statements speak of a turn: what an operation answers, when an instruction may take
effect, and where it leaves its sequencer. -/
namespace Sys2Proof.Machine

/-- An operation, run in a state, answers a value and leaves a state: it is neither held nor trapped. -/
def Runs {α : Type} (a : Act α) (s : State) (v : α) (t : State) : Prop := StateT.run a s = .ok (v, t)

/-- Whether an operation answers. -/
def okRun {α : Type} (a : Act α) (s : State) : Bool :=
  match StateT.run a s with
  | .ok _ => true
  | .error _ => false

/-- An instruction passes checks 2 to 4 of R90 on the sequencer whose turn it is, and no back-edge waits for its counter
(R98): its operands keep their limits, the sequencer is of its home set, and a privileged one runs at level 1. -/
def Enters (i : Instr) (s : State) : Bool :=
  i.wf && i.home.contains s.cur.q && (!isPrivileged i || (s.bank s.cur).level) &&
    (s.cur.q == 2 || !frameInterlock (s.sq s.cur))

/-- The instructions that have limits on run-time operands, or on what they read at issue (R117, R119). -/
def hasLimits : Instr → Bool
  | .bar _ | .csrr _ | .csrw _ | .cwinWrite _ | .wsrangeWrite _ | .wpcWrite _ | .tstart _ | .join _ | .tlbinv _ | .icinv _ => true
  | .rqrd _ | .rqwr _ | .pgmap _ | .vquant _ | .vdequant _ | .sbind _ | .gather _ | .gatherq _ | .copy _ | .copyf _ | .copy2d _ => true
  | .wload _ | .rcfill _ | .rcclose _ | .actBind _ | .actMark _ | .actClear _ | .mmul _ | .mrank _ | .fmtw _ | .aecfg _ => true
  | .aerun _ | .obind _ => true
  | _ => false
/-- After an instruction's effect, control goes where it goes: the target or successor passes the fetch checks (R81, R82), a
back-edge is taken (R114), and on X the slot passes (R97). -/
def Follows (i : Instr) (flow : Flow) (s t : State) : Prop := Runs (advance i flow) s () t

/-- The state that a completed instruction leaves. -/
def State.done (t : State) (flow : Flow) : State := t.issued t.cur flow

/-! ## Results as updates -/

/-- The registers that the last writer names are retained for parity repair, with its latency, its number in the bank and on X its entry
(R330). -/
def State.retained (s : State) (r : List (Nat × Nat)) (lat : Nat) (x : Option XEnt := none) : State :=
  if r = [] then s else s.modBank s.cur fun k =>
    { (k.modSeq s.cur.q fun q => { q with ret := (⟨r, lat, x, k.nextRet⟩ :: q.ret).take 8 }).noteWriter k.nextRet r with
      nextRet := k.nextRet + 1 }
/-- A result of C, A or S is left pending (R98); one for a loop counter deactivates its frame at once (R115). -/
def State.pended (s : State) (d : Dst) (v : W64) (lat : Nat := 1) : State :=
  match d with
  | .drop => s.retained d.file lat
  | .l n => ((s.retained d.file lat).modSeq s.cur (·.endFrame n)).modSeq s.cur fun q => { q with pend := q.pend ++ [⟨d, v⟩] }
  | _ => (s.retained d.file lat).modSeq s.cur fun q => { q with pend := q.pend ++ [⟨d, v⟩] }
/-- An instruction of X that writes the registers of `files` enters the exposed pipeline (R97). -/
def State.exposed (s : State) (x : XEnt) (files : List (Nat × Nat)) : State :=
  (s.retained files x.due (some x)).modBank s.cur fun k => { k with xpend := k.xpend ++ [{ x with due := x.due + 1 }] }

/-! ## Shapes of instructions -/

/-- The integer instructions of two sources a and b, or a and the wide immediate, with their latencies (R102, R106, R109). -/
def shapeAB : Instr → Option (RRR × Nat)
  | .add f | .sub f | .and f | .or f | .xor f | .shl f | .shr f | .sra f | .min f | .max f => some (f, 1)
  | .seq f | .sne f | .slt f | .sltu f | .sle f | .sleu f => some (f, 1)
  | .mul f | .mulh f => some (f, 3)
  | .div f => some (f, 20)
  | _ => none
/-- The integer instructions of one source and an immediate (R102, R107). -/
def shapeImm : Instr → Option (RRI × Nat)
  | .addi f | .andi f | .ori f | .xori f | .shli f | .shri f | .srai f => some (f, 1)
  | .muli f => some (f, 3)
  | _ => none
/-- The integer instructions of one source (R102, R109). -/
def shapeUn : Instr → Option RRR
  | .clz f | .ctz f | .popc f => some f
  | _ => none
/-- The floating-point instructions of two sources, with their latencies and what they compute (R102, R110). -/
def shapeFp : Instr → Option (RRR × Nat × (W32 → W32 → W64 × Flags))
  | .fadd f => some (f, 4, fun x y => fpWord (fadd32 x y))
  | .fsub f => some (f, 4, fun x y => fpWord (fsub32 x y))
  | .fmul f => some (f, 4, fun x y => fpWord (fmul32 x y))
  | .fmin f => some (f, 2, fun x y => fpWord (fmin32 x y))
  | .fmax f => some (f, 2, fun x y => fpWord (fmax32 x y))
  | .flt f => some (f, 2, flt32)
  | _ => none
/-- The conditional branches on a register, with their conditions (R111). -/
def shapeBranch : Instr → Option (BR × (W64 → Bool))
  | .brz f => some (f, fun x => x == 0)
  | .brnz f => some (f, fun x => x != 0)
  | .brlt f => some (f, fun x => x.slt 0)
  | .brge f => some (f, fun x => !x.slt 0)
  | .brle f => some (f, fun x => x.sle 0)
  | .brgt f => some (f, fun x => !x.sle 0)
  | _ => none
/-- The branches on a queue's head, with their conditions (R116). -/
def shapeBranchQ : Instr → Option (BR × (W64 → Bool))
  | .bqnz f => some (f, fun x => x != 0)
  | .bqz f => some (f, fun x => x == 0)
  | _ => none

/-- The loads, with their width in bytes and whether they sign-extend (R122). -/
def shapeLoad : Instr → Option (RRI × Nat × Bool)
  | .ld8 f => some (f, 1, false)
  | .ld16 f => some (f, 2, false)
  | .ld32 f => some (f, 4, false)
  | .ld64 f => some (f, 8, false)
  | .ld8s f => some (f, 1, true)
  | .ld16s f => some (f, 2, true)
  | .ld32s f => some (f, 4, true)
  | _ => none
/-- The stores, with their width in bytes (R122). -/
def shapeStore : Instr → Option (RRI × Nat)
  | .st8 f => some (f, 1)
  | .st16 f => some (f, 2)
  | .st32 f => some (f, 4)
  | .st64 f => some (f, 8)
  | _ => none
/-- The atomics, with the new value from the old one, y and e (R123). -/
def shapeAmo : Instr → Option (RRR × Bool × (W64 → W64 → W64 → W64))
  | .amoadd f => some (f, false, fun old y _ => old + y)
  | .amoswp f => some (f, false, fun _ y _ => y)
  | .amocas f => some (f, true, fun old y x => if old = x then y else old)
  | .amoand f => some (f, false, fun old y _ => old &&& y)
  | .amoor f => some (f, false, fun old y _ => old ||| y)
  | .amoxor f => some (f, false, fun old y _ => old ^^^ y)
  | _ => none
/-- The fences, with their scopes (R124). -/
def shapeFence : Instr → Option Nat
  | .fenceCore _ => some 0
  | .fenceClu _ => some 1
  | .fenceDie _ => some 2
  | .fenceMod _ => some 3
  | .fenceSpan _ => some 4
  | _ => none
/-- Whether S must first send the rows it still combines (R216): a release or fence of S at `.mod` or `.span`. -/
def mustFlush (s : State) (scope : Nat) : Bool := s.cur.q = 3 && 3 ≤ scope && (s.core s.cur.c).bufs != []

/-- The stores that an instruction has still to make (R258). -/
def State.storesLeft (s : State) (xs : List Todo) : State := s.modSeq s.cur fun x => { x with todo := xs, todoAt := x.pc }
/-- The instructions whose stores enter the buffer one after the other, with the release that follows the last (R155, R210). -/
def shapeStoring : Instr → Option (Option Nat)
  | .rcfill _ => some none
  | .strow f | .stword f | .scatter f | .strc f => some (sideRel f.e)
  | _ => none

/-- The vector instructions whose sources are whole registers, with their latency, what they capture at issue and the registers
they write (R163-R169, R173-R180). -/
def shapeVec : Instr → Option (FV × Nat × (Bank → List Cap) × List (Nat × Nat))
  | .vadd f | .vsub f | .vmul f | .vmin f | .vmax f => some (f, 4, fun k => [k.capTile f.a, k.capTile f.b], [(2, f.d.toNat)])
  | .vfma f | .vfms f => some (f, 4, fun k => [k.capTile f.a, k.capTile f.b, k.capTile f.d], [(2, f.d.toNat)])
  | .vabs f | .vneg f => some (f, 4, fun k => [k.capTile f.a], [(2, f.d.toNat)])
  | .viadd f | .visub f | .vimul f | .viand f | .vior f | .vixor f | .vishl f | .vishr f =>
    some (f, 2, fun k => [k.capTile f.a, k.capTile f.b], [(2, f.d.toNat)])
  | .vceq f | .vclt f | .vcle f | .viceq f | .vilt f =>
    some (f, 2, fun k => [k.capTile f.a, k.capTile f.b], [(3, f.d.toNat)])
  | .vsel f => some (f, 1, fun k => if f.e.isSome then [k.capTile f.a] else [k.capTile f.a, k.capTile f.b], [(2, f.d.toNat)])
  | .vexp2 f | .vlog2 f => some (f, 8, fun k => [k.capTile f.a], [(2, f.d.toNat)])
  | .vexp2d f => some (f, 8, fun k => [k.capTile f.a, k.capTile f.b], [(2, f.d.toNat)])
  | .vrcpSeed f | .vrsqSeed f | .vrotc f | .vbcastc f | .vredc f | .vscanc f =>
    some (f, 6, fun k => [k.capTile f.a], [(2, f.d.toNat)])
  | .vrotr f | .vbcastr f | .vredr f | .vscanr f => some (f, 2, fun k => [k.capTile f.a], [(2, f.d.toNat)])
  | .mand f | .mor f | .mxor f | .mandn f => some (f, 1, fun k => [k.capMask f.a, k.capMask f.b], [(3, f.d.toNat)])
  | .vany f | .vall f | .mpop f => some (f, 2, fun k => [k.capMask f.a], fieldFile (sFld f.d))
  | .vflag f => some (f, 1, fun k => [.mask (k.xf.get ⟨f.a.toNat % 5, by omega⟩)], [(3, f.d.toNat)])
  | .vflagclr f => some (f, 1, fun _ => [], [])
  | _ => none

/-- The result of a scalar instruction completes the turn: on C, A and S it is pending under the destination that its field
reserves; on X the instruction enters the pipeline, due after its latency, with the tail slot it reserved (R88, R97, R98). -/
def LeavesScalar (i : Instr) (o : Host.Outcome State Fault Refusal) (s : State) (d : BitVec 6) (lat : Nat) (x y z : W64) : Prop :=
  (s.cur.q ≠ 2 → ∀ t u v, Runs (destOf d) s t u → Follows i .next (u.pended t (scalarVal i x y z) lat) v →
    o = .next (v.done .next)) ∧
  (s.cur.q = 2 → ∀ r u v, Runs (reserveX [d]) s r u →
    Follows i .next (u.exposed { i := i, due := lat, sv0 := x, sv1 := y, sv2 := z, rid := r.1, nres := r.2.1, q := r.2.2 }
      (fieldFile d)) v →
    o = .next (v.done .next))

/-! ## Commands -/

/-- The command that was accepted next is of an OP and may start, and no other of that OP is in progress (R361). -/
def Starts (s : State) (op : Nat) (c : Cmd) : Prop :=
  s.evWaiting < 4096 ∧ s.loss = .none ∧ s.host.running.filter (·.op == op) = [] ∧ s.host.cmds.head? = some c ∧ c.op = op ∧
    s.host.started ≤ s.now
/-- The command has started. -/
def State.begun (s : State) (c : Cmd) : State :=
  s.modHost fun h => { h with cmds := h.cmds.drop 1, running := h.running ++ [c], started := s.now + 1 }
/-- The only command of an OP in progress goes on, and none of that OP may start. -/
def GoesOn (s : State) (op : Nat) (c : Cmd) : Prop :=
  s.evWaiting < 4096 ∧ s.loss = .none ∧ s.host.running.filter (·.op == op) = [c] ∧
    ∀ x, s.host.cmds.head? = some x → x.op = op → s.now < s.host.started

/-! ## Frames -/

/-- A die is unchanged, but that a counted line which the L2 had evicted may be back in its home slice (R257). -/
def SameDie (x y : Die) : Prop :=
  y = { x with dir := y.dir } ∧
    ∀ k, (NMap.get? y.dir k).map (fun e => { e with spilled := false }) = (NMap.get? x.dir k).map fun e => { e with spilled := false }
/-- The host interface is unchanged, but for reports of errors that the turn has consumed (R393). -/
def SameHost (x y : HostIf) : Prop := ∃ es, y = { x with events := x.events ++ es } ∧ ∀ e, e ∈ es → e.code = 0x0008
/-- What a turn of a sequencer leaves alone outside its own bank: memory and its write sequences, writes on their way, the clusters
and dies with their queues, flags, counts and tags, the host interface, and every bank and sequencer but its own. -/
def KeepsOutside (s t : State) : Prop :=
  t.mem = s.mem ∧ t.hist = s.hist ∧ t.poison = s.poison ∧ t.flight = s.flight ∧ t.msgs = s.msgs ∧ t.clusters = s.clusters ∧
  (∀ d, SameDie (s.die d) (t.die d)) ∧ t.links = s.links ∧ SameHost s.host t.host ∧ t.ctxs = s.ctxs ∧ t.acl = s.acl ∧
    t.bars = s.bars ∧ t.saved = s.saved ∧
  t.tickets = s.tickets ∧ t.now = s.now ∧ t.tb = s.tb ∧ t.off = s.off ∧
  (∀ c, c ≠ s.cur.c → t.core c = s.core c) ∧
  (∀ b, b ≠ s.cur.b → (t.core s.cur.c).banks.get b = (s.core s.cur.c).banks.get b) ∧
  (∀ q, q ≠ s.cur.q → (t.bank s.cur).seqs.get q = (s.bank s.cur).seqs.get q)
/-- The flags, bindings, special registers and exception registers of a bank are unchanged. -/
def KeepsSystem (k k' : Bank) : Prop :=
  k'.task = k.task ∧ k'.f = k.f ∧ k'.fmt = k.fmt ∧ k'.flog = k.flog ∧ k'.flogidx = k.flogidx ∧ k'.cfs = k.cfs ∧ k'.fbase = k.fbase ∧
  k'.rsseed = k.rsseed ∧ k'.qmap = k.qmap ∧ k'.cwin = k.cwin ∧ k'.stream = k.stream ∧ k'.ostream = k.ostream ∧ k'.grp = k.grp ∧
  k'.aecfg = k.aecfg ∧ k'.bar = k.bar ∧ k'.level = k.level ∧ k'.frozen = k.frozen ∧ k'.stopping = k.stopping ∧
  k'.fault = k.fault ∧ k'.tvec = k.tvec ∧ k'.tfbase = k.tfbase ∧ k'.savef = k.savef ∧ k'.iaddr = k.iaddr ∧ k'.iagent = k.iagent ∧
  k'.icause = k.icause ∧ k'.wsrange = k.wsrange ∧ k'.spwin = k.spwin ∧ k'.ptroot = k.ptroot ∧ k'.pfinfo = k.pfinfo ∧
  k'.wpa = k.wpa ∧ k'.wpc = k.wpc ∧ k'.pmsel = k.pmsel ∧ k'.z = k.z ∧ k'.plane = k.plane ∧ k'.shadow = k.shadow
/-- The vector registers, masks and flag planes of a bank and the entries of X's pipeline are unchanged. -/
def KeepsVector (k k' : Bank) : Prop :=
  k'.v = k.v ∧ k'.m = k.m ∧ k'.xf = k.xf ∧ k'.xpend = k.xpend ∧ k'.slots = k.slots
/-- The frame of an instruction whose result goes to a scalar register or a queue: only its sequencer, the queues it names and, with
a window operand, the pending error of its bank may change; on X the slot that passes lands what is due. -/
def ScalarFrame (s t : State) : Prop :=
  KeepsOutside s t ∧ KeepsSystem (s.bank s.cur) (t.bank s.cur) ∧
  (s.cur.q ≠ 2 → KeepsVector (s.bank s.cur) (t.bank s.cur) ∧ (t.sq s.cur).s = (s.sq s.cur).s)

/-- The lane operations of two tiles, with what they compute (R166, R167). -/
def shapeLane2 : Instr → Option (FV × (W32 → W32 → W32 × Flags))
  | .vadd f => some (f, fadd32)
  | .vsub f => some (f, fsub32)
  | .vmul f => some (f, fmul32)
  | .vmin f => some (f, fmin32)
  | .vmax f => some (f, fmax32)
  | .viadd f => some (f, fun x y => (x + y, 0))
  | .visub f => some (f, fun x y => (x - y, 0))
  | .vimul f => some (f, fun x y => (x * y, 0))
  | .viand f => some (f, fun x y => (x &&& y, 0))
  | .vior f => some (f, fun x y => (x ||| y, 0))
  | .vixor f => some (f, fun x y => (x ^^^ y, 0))
  | .vishl f => some (f, fun x y => (x <<< (y.toNat % 32), 0))
  | .vishr f => some (f, fun x y => (x >>> (y.toNat % 32), 0))
  | _ => none

/-- The memory of the module and of the images that it keeps is in the canonical form. -/
def State.memInv (s : State) : Prop :=
  s.mem.wf = true ∧ (∀ m, s.image = some m → m.mem.wf = true) ∧ (∀ m, s.draft = some m → m.mem.wf = true)

/-- A turn is safe when it ends in a next state. -/
def Safe (o : Host.Outcome State Fault Refusal) : Prop := ∃ t, o = .next t

end Sys2Proof.Machine
end

