-- ==== Sys2Proof/Certificates/Slice0/Obligations.lean ====
section
/-! DEFINITION. The statements for the provers. -/
open Sys2Proof Sys2Proof.Machine

/-! ## Integer and floating-point instructions, constants -/

/-- The integer instructions of two sources complete (R106, R109): with x and y the values of their sources, the result of
their rule goes to d. The integer instructions with an immediate (R107), those of one source (R109), `li` and `lcat` (R108)
complete. `nop` and `wait` complete, and so does `csel`, which leaves d alone when x is 0 (R105, R109). -/
def Obligations.IntegersComplete : Prop :=
  (∀ i f lat s x y s1, shapeAB i = some (f, lat) → Enters i s = true → Runs (sourcesAB f) s (x, y) s1 →
    LeavesScalar i (exec i s) s1 f.d lat x y 0) ∧
  (∀ i f lat s vs s1, shapeImm i = some (f, lat) → Enters i s = true → Runs (sources f.e [f.a] [f.d]) s vs s1 →
    LeavesScalar i (exec i s) s1 f.d lat (nthV vs 0) ((wideImm f.e [f.a]).getD (sx f.imm)) 0) ∧
  (∀ i f s vs s1, shapeUn i = some f → Enters i s = true → Runs (sources f.e [f.a] [f.d]) s vs s1 →
    LeavesScalar i (exec i s) s1 f.d 1 (nthV vs 0) 0 0) ∧
  (∀ f s s1, Enters (.li f) s = true → Runs (sources none [] [f.d]) s [] s1 →
    LeavesScalar (.li f) (exec (.li f) s) s1 f.d 1 0 (match f.e with
      | some e => sx e
      | none => sx f.imm) 0) ∧
  (∀ f s v s1, Enters (.lcat f) s = true → Runs (sources none [f.d] [f.d]) s [v] s1 →
    LeavesScalar (.lcat f) (exec (.lcat f) s) s1 f.d 1 0 (zx f.imm) v) ∧
  (∀ s t, Enters .nop s = true → Follows .nop .next s t → exec .nop s = .next (t.done .next)) ∧
  (∀ f s t, Enters (.wait f) s = true →
    Follows (.wait f) .next (s.modSeq s.cur fun q => { q with waitRem := f.imm.setWidth 32 - 1 }) t →
    exec (.wait f) s = .next (t.done .next)) ∧
  (∀ f s x y s1 d s2 t, Enters (.csel f) s = true → s1.cur.q ≠ 2 → Runs (sourcesAB f) s (x, y) s1 → Runs (destOf f.d) s1 d s2 →
    Follows (.csel f) .next (if x = 0 then (match d with
      | .q n r => s2.modQ s2.cur n (·.unreserve r)
      | _ => s2) else s2.pended d y) t → exec (.csel f) s = .next (t.done .next)) ∧
  (∀ f s x y s1, Enters (.csel f) s = true → s1.cur.q = 2 → Runs (sourcesAB f) s (x, y) s1 →
    LeavesScalar (.csel f) (exec (.csel f) s) s1 f.d 1 x y 0)

/-- C's floating-point instructions complete (R110): flags join `cfs`, the value goes to d. That 0 times infinity plus a quiet NaN
raises NV is the model's choice (log 20). -/
def Obligations.FloatingComplete : Prop :=
  (∀ i f lat op s x y s1 d s2 t, shapeFp i = some (f, lat, op) → Enters i s = true → Runs (sourcesAB f) s (x, y) s1 →
    Runs (destOf f.d) (s1.modBank s1.cur fun k => { k with cfs := k.cfs ||| (op (lo32 x) (lo32 y)).2 }) d s2 →
    Follows i .next (s2.pended d (op (lo32 x) (lo32 y)).1 lat) t → exec i s = .next (t.done .next)) ∧
  (∀ f s x y z s1 d s2 t, Enters (.fmad f) s = true →
    (wideImm f.e [f.a, f.b, f.d] = none → Runs (sources f.e [f.a, f.b, f.d] [f.d]) s [x, y, z] s1) →
    (∀ e, wideImm f.e [f.a, f.b, f.d] = some e → e = y ∧ Runs (sources f.e [f.a, f.d] [f.d]) s [x, z] s1) →
    Runs (destOf f.d) (s1.modBank s1.cur fun k => { k with cfs := k.cfs ||| (ffma32 (lo32 x) (lo32 y) (lo32 z)).2 }) d s2 →
    Follows (.fmad f) .next (s2.pended d ((ffma32 (lo32 x) (lo32 y) (lo32 z)).1.setWidth 64) 5) t →
    exec (.fmad f) s = .next (t.done .next)) ∧
  (∀ f s x s1 d s2 t, Enters (.ftoi f) s = true → Runs (sources f.e [f.a] [f.d]) s [x] s1 →
    let r := if f.b == 3 then draw (s1.bank s1.cur).rsseed else ((s1.bank s1.cur).rsseed, 0)
    let v := ftoi32 (lo32 x) (RMode.ofCode f.b.toNat) r.2
    Runs (destOf f.d) ((s1.modBank s1.cur fun k => { k with rsseed := r.1 }).modBank s1.cur fun k => { k with cfs := k.cfs ||| v.2 }) d s2 →
    Follows (.ftoi f) .next (s2.pended d v.1 3) t → exec (.ftoi f) s = .next (t.done .next)) ∧
  (∀ f s x s1 d s2 t, Enters (.itof f) s = true → Runs (sources f.e [f.a] [f.d]) s [x] s1 →
    let r := if f.b == 3 then draw (s1.bank s1.cur).rsseed else ((s1.bank s1.cur).rsseed, 0)
    let v := itof64 x (RMode.ofCode f.b.toNat) r.2
    Runs (destOf f.d) ((s1.modBank s1.cur fun k => { k with rsseed := r.1 }).modBank s1.cur fun k => { k with cfs := k.cfs ||| v.2 }) d s2 →
    Follows (.itof f) .next (s2.pended d v.1 3) t → exec (.itof f) s = .next (t.done .next))

/-! ## Control -/

/-- Branches complete (R111, R116): taken, control goes to the word that the instruction names in the line at its distance,
and not taken to the successor. `call` leaves its link in a register and goes to its target; `ret` and `jmp` go to an aligned
address with bits [63:57] zero and a word that is not 0 (R94, R112). `loop` completes (R113): with n iterations its frame
becomes active, from the successor to END, and its counter is 0; with none its frame ends and control goes past END. -/
def Obligations.ControlCompletes : Prop :=
  (∀ f s t, Enters (.br f) s = true →
    let pc := target (s.sq s.cur).pc (brDelta f []) f.w
    Follows (.br f) (.to pc) (s.trace s.cur 1 (s.sq s.cur).pc pc) t → exec (.br f) s = .next (t.done (.to pc))) ∧
  (∀ i f p s x s1 t, shapeBranch i = some (f, p) → Enters i s = true → Runs (sources f.e [f.a] []) s [x] s1 →
    let pc := target (s1.sq s1.cur).pc (brDelta f [f.a]) f.w
    (p x = true → Follows i (.to pc) (s1.trace s1.cur 1 (s1.sq s1.cur).pc pc) t → exec i s = .next (t.done (.to pc))) ∧
    (p x = false → Follows i .next s1 t → exec i s = .next (t.done .next))) ∧
  (∀ i f p s v s1 t, f.c.toNat < 8 → shapeBranchQ i = some (f, p) → Enters i s = true →
    Runs (popOk ⟨f.c.toNat, f.c.isLt⟩) s () s → Runs (popWord ⟨f.c.toNat, f.c.isLt⟩) s v s1 →
    let pc := target (s1.sq s1.cur).pc (match f.e with
      | some e => sx e
      | none => sx f.ld) f.w
    (p v = true → Follows i (.to pc) (s1.trace s1.cur 1 (s1.sq s1.cur).pc pc) t → exec i s = .next (t.done (.to pc))) ∧
    (p v = false → Follows i .next s1 t → exec i s = .next (t.done .next))) ∧
  (∀ f s s1 link s2 u t, Enters (.call f) s = true → Runs (sources none [] [f.a]) s [] s1 → Runs linkValue s1 link s2 →
    Runs (scalarResult (.call f) f.a 1 0 0 link) s2 .next u →
    let pc := target (u.sq u.cur).pc (sx f.ld) f.w
    Follows (.call f) (.to pc) (u.trace u.cur 2 (u.sq u.cur).pc pc) t → exec (.call f) s = .next (t.done (.to pc))) ∧
  (∀ f s x s1 t, Enters (.ret f) s = true → Runs (sources none [f.a] []) s [x] s1 → fld x 1 0 = 0 → fld x 63 57 = 0 →
    fld x 5 2 ≠ 0 → Follows (.ret f) (.to x) (s1.trace s1.cur 3 (s1.sq s1.cur).pc x) t →
    exec (.ret f) s = .next (t.done (.to x))) ∧
  (∀ f s x s1 t, Enters (.jmp f) s = true → Runs (sources none [f.a] []) s [x] s1 → fld x 1 0 = 0 → fld x 63 57 = 0 →
    fld x 5 2 ≠ 0 → Follows (.jmp f) (.to x) (s1.trace s1.cur 4 (s1.sq s1.cur).pc x) t →
    exec (.jmp f) s = .next (t.done (.to x))) ∧
  (∀ f s x s1 s2, Enters (.loop f) s = true → Runs (sources f.e [f.a] []) s [x] s1 → Runs (loopWrite f (loopCounter f)) s1 () s2 →
    let stop := target (s1.sq s1.cur).pc (brDelta f [f.a]) f.w
    (fld x 31 0 ≠ 0 → ∀ start s3 t, Runs (nextInChain (Instr.loop f).len) s2 start s3 →
      Follows (.loop f) .next (s3.modSeq s3.cur
        (·.beginFrame (loopCounter f) ⟨true, start, stop, BitVec.ofNat 32 (fld x 31 0), s3.now⟩)) t →
      exec (.loop f) s = .next (t.done .next)) ∧
    (fld x 31 0 = 0 → ∀ l s3 pc t, Runs (fetchCheck stop) (s2.modSeq s2.cur (·.endFrame (loopCounter f))) l s3 →
      succPc l stop (if wLong (lineWord l (pcWord stop)) then 2 else 1) = some pc →
      Follows (.loop f) (.to pc) s3 t → exec (.loop f) s = .next (t.done (.to pc))))

/-! ## Memory -/

/-- Loads and stores complete (R122): the bytes at src(a) plus the offset, extended as the load says, go to d; the low bytes
of src(d) go to the store buffer. -/
def Obligations.LoadsAndStoresComplete : Prop :=
  (∀ i f n sg s x s1 v s2 d s3 t, shapeLoad i = some (f, n, sg) → Enters i s = true → Runs (sources none [f.a] [f.d]) s [x] s1 →
    Runs (loadEa (x + (memForm f).off) n (memForm f).cons (memForm f).ord) s1 v s2 → Runs (destOf f.d) s2 d s3 →
    Follows i .next (s3.pended d (if sg then sextBytes v n else v) 0) t → exec i s = .next (t.done .next)) ∧
  (∀ i f n s x y s1 s2 t, shapeStore i = some (f, n) → Enters i s = true → mustFlush s ((memForm f).ord.getD 0) = false →
    Runs (sources none [f.a, f.d] []) s [x, y] s1 → Runs (storeEa (x + (memForm f).off) n y (memForm f).ord) s1 () s2 →
    Follows i .next s2 t → exec i s = .next (t.done .next))

/-- Atomics complete (R123): the old value goes to d, and the new one is the operation's. -/
def Obligations.AtomicsComplete : Prop :=
  ∀ i f cas g s vs s1 l s2 s3 v s4 d s5 t, shapeAmo i = some (f, cas, g) → Enters i s = true →
    mustFlush s ((amoForm f).rel.getD 0) = false →
    Runs (sources none (if cas then [f.a, f.b, f.d] else [f.a, f.b]) [f.d]) s vs s1 →
    let n := (amoForm f).n
    let ea := nthV vs 0 + (amoForm f).off
    Runs (locate ea n 3) s1 l s2 → Runs (watch ea n true true) s2 () s3 →
    Runs (atomicFar l n ea (fun old => g old (extract (nthV vs 1) 0 n) (extract (nthV vs 2) 0 n)) (amoForm f).acq (amoForm f).rel)
      s3 v s4 →
    Runs (destOf f.d) s4 d s5 → Follows i .next (s5.pended d v 0) t → exec i s = .next (t.done .next)

/-- Fences complete once the sequencer's earlier accesses have performed (R124, R271); `efence` is a fence at `.core` when no
error is pending, and takes the trap, the error cleared, when one is. -/
def Obligations.FencesComplete : Prop :=
  (∀ i t s u, shapeFence i = some t → Enters i s = true → mustFlush s t = false → s.quietSeq s.cur = true →
    Follows i .next (s.fenceSeq s.cur t) u → exec i s = .next (u.done .next)) ∧
  (∀ f s u, Enters (.efence f) s = true → s.quietSeq s.cur = true → (s.sq s.cur).unc = false →
    Follows (.efence f) .next (s.fenceSeq s.cur 0) u → exec (.efence f) s = .next (u.done .next)) ∧
  (∀ f s, Enters (.efence f) s = true → s.quietSeq s.cur = true → (s.sq s.cur).unc = true →
    exec (.efence f) s = .next (s.stopped (.trap { cause := cUncorr, clears := [s.cur.q] })) ∧
    (s.phase = .alone → exec (.efence f) s =
      .next ((s.modBank s.cur (·.clearUnc s.cur.q)).takeTrap s.cur { cause := cUncorr, clears := [s.cur.q] })))

/-! ## Flags, barriers, queues -/

/-- The flag instructions complete (R125, R126): `farm`, and `fpost` and `fdec` of a quiet sequencer as release events, meet the flag,
and act at the end of the cycle; an event that would leave the counter's range raises FlagOverflow, once no other sequencer of the
cycle can change that (R69); `fread` and a `fwait` that finds 0 acquire. The events of a cycle act on a flag at its end: arms, then
posts, then decrements (R69). An arm sets the counter, a post adds 1 and a decrement takes 1 away; the last decrement of a cycle is the
last decrementer from then on (R76). What would leave the range 0 to 0xFFFF is refused and changes nothing; an arm above it raises
FlagOverflow. That an arm leaves the last decrementer as it was, and the order of two cores that arm one flag, are the model's choices
(log 9). -/
def Obligations.FlagsComplete : Prop :=
  (∀ f s x s1 t, Enters (.farm f) s = true → Runs (sources none [f.a] []) s [x] s1 → Runs (flagOk (flagOf9 f.imm)) s1 () s1 →
    x.toNat ≤ 0xFFFF →
    let r := flagOf9 f.imm
    Follows (.farm f) .next ((s1.meet s1.cur r { s1.seqEv s1.cur (.arm (x.setWidth 16)) with view := {} }).retained
      (if r.g then [] else [(5, r.n.toNat)]) 1) t →
    exec (.farm f) s = .next (t.done .next)) ∧
  (∀ f s x s1, Enters (.farm f) s = true → Runs (sources none [f.a] []) s [x] s1 → Runs (flagOk (flagOf9 f.imm)) s1 () s1 →
    0xFFFF < x.toNat → exec (.farm f) s = .next (s.stopped (.trap { cause := 0x21 }))) ∧
  (∀ (f : RRI) (s : State) (t : State), Enters (.fpost f) s = true → Runs (flagOk (flagOf9 f.imm)) s () s → s.quietSeq s.cur = true →
    (s.flag s.cur (flagOf9 f.imm)).refuses (s.seqEv s.cur .post) = false →
    Follows (.fpost f) .next ((s.flagStep s.cur (flagOf9 f.imm) .post).retained
      (if (flagOf9 f.imm).g then [] else [(5, (flagOf9 f.imm).n.toNat)]) 1) t → exec (.fpost f) s = .next (t.done .next)) ∧
  (∀ (f : RRI) (s : State) (t : State), Enters (.fdec f) s = true → Runs (flagOk (flagOf9 f.imm)) s () s → s.quietSeq s.cur = true →
    (s.flag s.cur (flagOf9 f.imm)).refuses (s.seqEv s.cur .dec) = false →
    Follows (.fdec f) .next ((s.flagStep s.cur (flagOf9 f.imm) .dec).retained
      (if (flagOf9 f.imm).g then [] else [(5, (flagOf9 f.imm).n.toNat)]) 1) t → exec (.fdec f) s = .next (t.done .next)) ∧
  (∀ (f : RRI) (s : State), Enters (.fpost f) s = true → Runs (flagOk (flagOf9 f.imm)) s () s → s.quietSeq s.cur = true →
    s.phase ≠ .early → (s.flag s.cur (flagOf9 f.imm)).refuses (s.seqEv s.cur .post) = true →
    exec (.fpost f) s = .next (s.stopped (.trap { cause := 0x21 }))) ∧
  (∀ (f : RRI) (s : State), Enters (.fdec f) s = true → Runs (flagOk (flagOf9 f.imm)) s () s → s.quietSeq s.cur = true →
    s.phase ≠ .early → (s.flag s.cur (flagOf9 f.imm)).refuses (s.seqEv s.cur .dec) = true →
    exec (.fdec f) s = .next (s.stopped (.trap { cause := 0x21 }))) ∧
  (∀ f s, Enters (.fread f) s = true → Runs (allOk dstOk [f.d]) s () s → Runs (flagOk (flagOf9 f.imm)) s () s →
    LeavesScalar (.fread f) (exec (.fread f) s) (s.flagAcq s.cur (flagOf9 f.imm)) f.d 1 0 0
      ((s.flag s.cur (flagOf9 f.imm)).v.setWidth 64)) ∧
  (∀ f s t, Enters (.fwait f) s = true → Runs (flagOk (flagOf9 f.imm)) s () s → (s.flag s.cur (flagOf9 f.imm)).v = 0 →
    let q := s.sq s.cur
    let r := flagOf9 f.imm
    let waited := if q.stall = 4 && q.obj = r.n.toNat && q.objG == r.g then s.now - q.since else 0
    let u := s.flagAcq s.cur r
    let e := flogEntry waited (s.flag s.cur r).last s.cur.q.val r
    Follows (.fwait f) .next (if 1 ≤ waited then (u.modBank u.cur (·.flogAdd e)).trace u.cur 9 q.pc e else u) t →
    exec (.fwait f) s = .next (t.done .next)) ∧
  (∀ (x : Flag) (e : FlagEv), x.evs = [] → e.op = .post → (x.refuses e = true ↔ x.v = 0xFFFF)) ∧
  (∀ (x : Flag) (e : FlagEv), x.evs = [] → e.op = .dec → (x.refuses e = true ↔ x.v = 0)) ∧
  (∀ (x : Flag) (e : FlagEv) (n : BitVec 16), x.evs = [e] → e.op = .arm n → x.commit.v = n ∧ x.commit.last = x.last) ∧
  (∀ (x : Flag) (ps ds : List FlagEv), (∀ e, e ∈ ps → e.op = .post) → (∀ e, e ∈ ds → e.op = .dec) →
    x.evs.Perm (ps ++ ds) → x.v.toNat + ps.length ≤ 0xFFFF → ds.length ≤ x.v.toNat + ps.length →
    x.commit.v.toNat = x.v.toNat + ps.length - ds.length ∧ x.commit.evs = []) ∧
  (∀ (x : Flag) (es : List FlagEv) (e : FlagEv), (∀ d, d ∈ es → d.op = .post ∨ d.op = .dec) → e.op = .dec → x.evs = es ++ [e] →
    let posts := (es.filter fun d => d.op == .post).length
    x.v.toNat + posts ≤ 0xFFFF → (es.filter fun d => d.op == .dec).length + 1 ≤ x.v.toNat + posts → x.commit.last = e.by_) ∧
  (∀ (x : Flag), (∀ e, e ∈ x.evs → e.op = .post) → x.commit.last = x.last) ∧
  (∀ (x : Flag) (a : FlagEv) (n : BitVec 16) (ps ds : List FlagEv), a.op = .arm n → (∀ e, e ∈ ps → e.op = .post) →
    (∀ e, e ∈ ds → e.op = .dec) → x.evs.Perm (ps ++ ds ++ [a]) → n.toNat + ps.length ≤ 0xFFFF → ds.length ≤ n.toNat + ps.length →
    x.commit.v.toNat = n.toNat + ps.length - ds.length) ∧
  (∀ (x : Flag) (e : FlagEv), x.v = 0 → x.evs = [e] → e.op = .dec → x.commit.v = 0 ∧ x.settle.2.2 = [e]) ∧
  (∀ (x : Flag) (e : FlagEv), x.v = 0xFFFF → x.evs = [e] → e.op = .post → x.commit.v = 0xFFFF ∧ x.settle.2.2 = [e])

/-- `bar` completes (R127): C arrives with its key and number, and waits in place; once its barrier has closed, d receives the
index of its arrival, with bit [63] for a party whose number or SW differed from the first arrival's. -/
def Obligations.BarrierCompletes : Prop :=
  (∀ f s x s1 d s2, Enters (.bar f) s = true → (s.bank s.cur).bar = none → (s.bank s.cur).task.isSome = true →
    Runs (sources none [f.a] [f.d]) s [x] s1 → 1 ≤ fld x 15 0 → fld x 15 0 ≤ barLimit (fld f.imm 2 0) → s1.quietSeq s1.cur = true →
    Runs (destOf f.d) s1 d s2 →
    let w := s2.cur
    let scope := fld f.imm 2 0
    let inst := if scope = 1 then (cluOf w.c).val else if scope = 2 then (dieOf w.c).val else 0
    let old := (s2.barsOf scope inst).1.find? fun b => b.ctx == (s2.bank w).ctx && b.key == fld x 31 16
    (old.isSome ∨ (s2.barsOf scope inst).1.length < 16) →
    ∃ u, Runs (barArrive f) s (.again 7) u ∧ (∀ v, Follows (.bar f) (.again 7) u v → let t := v.done (.again 7)
        exec (.bar f) s = .next t ∧ (t.sq w).stall = 7 ∧ (t.bank w).bar = (u.bank w).bar) ∧
      ∃ b, (u.bank w).bar = some b ∧ b.dst = d ∧
      b.idx = (match old with
        | some b => b.arrived
        | none => 0) ∧
      (b.mism = true ↔ ∃ o, old = some o ∧ (fld x 15 0 ≠ o.n ∨ f.imm.getLsbD 3 ≠ o.sw)) ∧
      (b.closed = true ↔ b.idx + 1 = (match old with
        | some b => b.n
        | none => fld x 15 0))) ∧
  (∀ f s b t, Enters (.bar f) s = true → (s.bank s.cur).bar = some b → b.closed = true →
    Follows (.bar f) .next ((s.modBank s.cur fun k => { k with bar := none }).pended b.dst
      (BitVec.ofNat 64 ((if b.mism then 2 ^ 63 else 0) + b.idx))) t →
    exec (.bar f) s = .next (t.done .next))

/-- The queue instructions complete (R128): a push to a queue with room; a pop or peek of its head once that is visible; under
NB each says with 1 or 0 whether it found room or a head, and does not wait; the status of a queue; a new binding of an empty
queue, which lands at the end of its cycle (R75). That on X the result of a `qpush.nb`, and those of the other three, fall due after one
slot is the model's reading (log 26). -/
def Obligations.QueuesComplete : Prop :=
  (∀ f s x s1, Enters (.qpush f) s = true → f.q.toNat < 8 → Runs (pushOk (qOf f)) s () s →
    Runs (sources f.e [f.a] (if nbOf f then [f.b] else [])) s [x] s1 →
    let full := (s1.queue s1.cur (qOf f)).full
    let u := if full then s1 else s1.modQ s1.cur (qOf f) (·.pushWord x s1.now)
    (nbOf f = false → full = false → ∀ t, Follows (.qpush f) .next u t → exec (.qpush f) s = .next (t.done .next)) ∧
    (nbOf f = true → (full = true → s.phase ≠ .early) → s1.cur.q ≠ 2 → ∀ d v t, Runs (destOf f.b) u d v →
      Follows (.qpush f) .next (v.pended d (if full then 0 else 1)) t → exec (.qpush f) s = .next (t.done .next)) ∧
    (nbOf f = true → (full = true → s.phase ≠ .early) → s1.cur.q = 2 → ∀ r v t, Runs (reserveX [f.b]) u r v →
      Follows (.qpush f) .next (v.exposed
        { i := .qpush f, due := 1, sv2 := if full then 0 else 1, rid := r.1, nres := r.2.1, q := r.2.2 } (fieldFile f.b)) t →
      exec (.qpush f) s = .next (t.done .next))) ∧
  (∀ f s u t, Enters (.qpop f) s = true → f.q.toNat < 8 → Runs (popOk (qOf f)) s () s →
    Runs (allOk dstOk (if nbOf f then [f.a, f.b] else [f.a])) s () s →
    let some? := 0 < (s.queue s.cur (qOf f)).ready s.now
    (nbOf f = true ∨ some?) →
    Runs (queueResult (.qpop f) f (nbOf f) (if some? then headWord (s.queue s.cur (qOf f)).ents else 0) (if some? then 1 else 0))
      (if some? then s.modQ s.cur (qOf f) (·.drop 1) else s) .next u →
    Follows (.qpop f) .next u t → exec (.qpop f) s = .next (t.done .next)) ∧
  (∀ f s u t, Enters (.qpeek f) s = true → f.q.toNat < 8 → Runs (popOk (qOf f)) s () s →
    Runs (allOk dstOk (if nbOf f then [f.a, f.b] else [f.a])) s () s →
    let some? := 0 < (s.queue s.cur (qOf f)).ready s.now
    (nbOf f = true ∨ some?) →
    Runs (queueResult (.qpeek f) f (nbOf f) (if some? then headWord (s.queue s.cur (qOf f)).ents else 0) (if some? then 1 else 0))
      s .next u →
    Follows (.qpeek f) .next u t → exec (.qpeek f) s = .next (t.done .next)) ∧
  (∀ f s u t, Enters (.qstat f) s = true → Runs (allOk dstOk [f.a]) s () s →
    Runs (queueResult (.qstat f) f false (BitVec.ofNat 64 (s.levelByte s.cur (qOf f) +
      fld (s.bank s.cur).qmap (4 * (qOf f).val + 3) (4 * (qOf f).val) * 256)) 0) s .next u →
    Follows (.qstat f) .next u t → exec (.qstat f) s = .next (t.done .next)) ∧
  (∀ f s x s1 t, Enters (.qcfg f) s = true → (s.queue s.cur (qOf f)).ents = [] → Runs (matrixOk (qOf f)) s () s →
    Runs (sources f.e [f.a] []) s [x] s1 →
    Follows (.qcfg f) .next (s1.modBank s1.cur fun k => { k with csrPend := k.csrPend ++ [(s1.cur.q, 2, bindWord (qOf f) x)] }) t →
    exec (.qcfg f) s = .next (t.done .next)) ∧
  (∀ (k : Bank) (p : SeqId) (q : Fin 16) (x : W64), k.csrPend = [(p, 2, bindWord q x)] →
    k.csrCommit = { k with qmap := setFld k.qmap (4 * q.val + 3) (4 * q.val) (fld x 3 0), csrPend := [] })

/-! ## Tasks -/

/-- The task instructions complete. `spawn` (R130) reads its 64-byte record and gives d the id of the accepted record, or all
ones when a check of R302 fails; a die that no path reaches is waited for. `tstart` (R131) starts a sequencer that was not started at an entry address, with C's view.
`join` (R131) adds y to the counter of its block as an acquiring and releasing atomic, gives d the old value, and places the
continuation record when the sum is 0. `yield` (R131) gives d 1 and lets the task be checkpointed when a record of its level
or higher waits. -/
def Obligations.TasksComplete : Prop :=
  (∀ f s x y s1 ws s2, Enters (.spawn f) s = true → Runs (sourcesAB f) s (x, y) s1 → s1.quietSeq s1.cur = true →
    Runs (loadWords x 8) s1 ws s2 →
    let die : DieId := if y.getLsbD 3 then dieOf s2.cur.c else ⟨fld y 2 0 % 8, by omega⟩
    s2.carries (dieOf s2.cur.c) die x.toNat = true →
    let reason := s2.recReason die (.spawn (s2.bank s2.cur).ctx) (recWords ws)
    let acc := s2.acceptRec die ((Origin.spawn 0).key s2.cur.c) (recWords ws) (s2.ownView s2.cur) x
    ∀ d u t, Runs (destOf f.d) (if reason = 0 then acc.2.addIval s2.cur 1 else s2) d u →
      Follows (.spawn f) .next (u.pended d (if reason = 0 then acc.1.setWidth 64 else BitVec.allOnes 64)) t →
      exec (.spawn f) s = .next (t.done .next)) ∧
  (∀ f s x y s1 t, Enters (.tstart f) s = true → Runs (sourcesAB f) s (x, y) s1 →
    let k : SeqId := ⟨fld y 1 0 % 4, by omega⟩
    let w := s1.cur.seq k
    k ≠ 0 → (s1.sq w).started = false → fld x 1 0 = 0 → fld x 63 57 = 0 → fld x 5 2 ≠ 0 →
    Follows (.tstart f) .next ((s1.modSeq w fun q => { q with started := true, pc := x, stall := 1, last := s1.now + 1 }).modAgent
      w.agent fun a => { a with view := a.view.join (s1.ownView s1.cur) }) t → exec (.tstart f) s = .next (t.done .next)) ∧
  (∀ f s x y s1 l s2 s3 old s4 d s5 t, Enters (.join f) s = true → Runs (sourcesAB f) s (x, y) s1 → s1.evWaiting < 4096 →
    fld x 5 0 = 0 → Runs (locate x 8 3) s1 l s2 → Runs (watch x 8 true true) s2 () s3 →
    Runs (atomicFar l 8 x (fun o => o + y) (some 3) (some 3)) s3 old s4 →
    let lost := s3.poisoned l 8 || !s3.reach (dieOf s3.cur.c) (homeDie l)
    Runs (destOf f.d) (if !lost && old + y = 0 then s4.placeCont s4.cur l else s4) d s5 →
    Follows (.join f) .next (s5.pended d old 0) t → exec (.join f) s = .next (t.done .next)) ∧
  (∀ f s d s1 t, Enters (.yield f) s = true → Runs (allOk dstOk [f.d]) s () s → Runs (destOf f.d) s d s1 →
    let lvl := match (s.bank s.cur).task with
      | some r => recLevel r.w
      | none => 0
    let w := (s.die (dieOf s.cur.c)).waits lvl
    let u := s1.pended d (if w then 1 else 0)
    Follows (.yield f) .next (if w then u.modBank u.cur fun k => { k with stopping := some (.save true) } else u) t →
    exec (.yield f) s = .next (t.done .next))

/-- `exit` ends its task (R132). It waits one thing after the other: that A, X and S are quiescent, which shows once they have had their
turns of the cycle; that the engine queues which the mask names hold no command of the task; that every store has performed, its
ticket and its event have room, and a home holds up its decrement no longer. One that finds none of them wanting ends at once; one that
waits goes on from the wait that it has come to. -/
def Obligations.ExitCompletes : Prop :=
  (∀ f s vs s1 s2 t, Enters (.exit f) s = true → (s.sq s.cur).exiting = none → Runs (sources f.e [f.b] []) s vs s1 →
    let mask := exitMask f vs
    let join := match (s1.bank s1.cur).task with
      | some r => r.w.get 2
      | none => 0
    Runs (exitChecks join) s1 () s2 → s2.phase ≠ .early →
    (s2.core s2.cur.c).bufs.any (fun b => s2.ours s2.cur b.who) = false → (s2.bank s2.cur).seqs.any (·.unc) = false →
    ((List.finRange 4).all fun q => q == 0 || ((s2.bank s2.cur).seqs.get q).quiescent (s2.bank s2.cur).frozen) = true →
    ((List.range 7).any fun b => mask.testBit b && s2.engineBusy s2.cur b) = false →
    ((List.finRange 4).all fun q => s2.quiet (s2.cur.seq q).agent) = true →
    (∀ r, (s2.bank s2.cur).task = some r → r.w.get 2 = 0 → s2.tickets.length < 4096) →
    ((s2.bank s2.cur).task = none → s2.tickets.length < 4096) → s2.evWaiting < 4096 → s2.exitJoin s2.cur = none →
    Follows (.exit f) (.stay 11) (s2.endTask s2.cur) t → exec (.exit f) s = .next (t.done (.stay 11))) ∧
  (∀ f s n mask t, Enters (.exit f) s = true → (s.sq s.cur).exiting = some (n, mask) → s.phase ≠ .early → n ≤ 2 →
    (n = 0 → (s.bank s.cur).seqs.any (·.unc) = false ∧ s.exitReady s.cur mask 0 = true) →
    (n ≤ 1 → s.exitReady s.cur mask 1 = true) → (s.core s.cur.c).bufs.any (fun b => s.ours s.cur b.who) = false →
    s.exitReady s.cur mask 2 = true → s.exitJoin s.cur = none →
    Follows (.exit f) (.stay 11) (s.endTask s.cur) t → exec (.exit f) s = .next (t.done (.stay 11))) ∧
  (∀ f s mask t, Enters (.exit f) s = true → (s.sq s.cur).exiting = some (0, mask) → s.phase ≠ .early →
    (s.bank s.cur).seqs.any (·.unc) = false → s.exitReady s.cur mask 0 = true → s.exitReady s.cur mask 1 = false →
    Follows (.exit f) (.stay 11) (s.modSeq s.cur fun q => { q with exiting := some (1, mask) }) t →
    exec (.exit f) s = .next (t.done (.stay 11)))

/-! ## System registers, traps, the pager -/

/-- Reads and writes of system registers complete (R133): `csrr` gives d the register, `csrr flogdat` the entry that SEL names, which
then counts as read (R76); `csrw` of a value within the register's limits lands at the end of its cycle, the writes of a cycle in the
order C, A, X, S (R75); a write of `cwinN` drops what the constant cache holds of the window (R74), and `csrw pfblock` blocks the bank
on its fault (R349). That A, X and S reach `cfs` as C does is the model's choice (log 91). -/
def Obligations.SystemRegistersComplete : Prop :=
  (∀ f s, Enters (.csrr f) s = true → csrAssigned (csrNum f) = true → Runs (allOk dstOk [f.d]) s () s →
    LeavesScalar (.csrr f) (exec (.csrr f) s) (s.csrRead s.cur (csrNum f)).2 f.d 1 0 0 (s.csrRead s.cur (csrNum f)).1) ∧
  (∀ f s, Enters (.flogdatRead f) s = true → Runs (allOk dstOk [f.d]) s () s →
    let n := fld (s.bank s.cur).flogidx 13 8
    LeavesScalar (.flogdatRead f) (exec (.flogdatRead f) s)
      (s.modBank s.cur fun k => { k with flogRead := k.flogRead ||| BitVec.ofNat 64 (2 ^ n) }) f.d 1 0 0
      ((s.bank s.cur).flog.get ⟨n % 64, by omega⟩)) ∧
  (∀ i f s v s1 t, i = .csrw f ∨ i = .cwinWrite f ∨ i = .wsrangeWrite f ∨ i = .wpcWrite f → Enters i s = true →
    Runs (csrChecks (csrNum f) true) s () s → Runs (sources none [f.d] []) s [v] s1 → csrLimit (csrNum f) v = true →
    Follows i .next (s1.modBank s1.cur fun k => { k with csrPend := k.csrPend ++ [(s1.cur.q, csrNum f, v)] }) t →
    exec i s = .next (t.done .next)) ∧
  (∀ (k : Bank) q n v, k.csrPend = [(q, n, v)] → k.csrCommit = { k.csrLand q n v with csrPend := [] }) ∧
  (∀ (k : Bank) p q m n v w, p < q → k.csrPend.Perm [(p, m, v), (q, n, w)] →
    k.csrCommit = { (k.csrLand p m v).csrLand q n w with csrPend := [] }) ∧
  (∀ (k : Bank) q n v, (hn : 8 ≤ n ∧ n ≤ 15) →
    (k.csrLand q n v).cwin = vset k.cwin ⟨n - 8, by omega⟩ (v &&& 0x01FFFFFFFFFFFFF8) ∧
    (k.csrLand q n v).ccache = k.ccache.filter fun x => x.win != n - 8) ∧
  (∀ (k : Bank) q v, (k.csrLand q 0x104 v).wsrange = v &&& 0x07FF07FF) ∧
  (∀ (k : Bank) q n v, (hn : 0x304 ≤ n ∧ n ≤ 0x307) → (k.csrLand q n v).wpc = vset k.wpc ⟨n - 0x304, by omega⟩ (v &&& 0x7E3)) ∧
  (∀ (k : Bank) q n v, n < 8 ∨ 15 < n ∧ n < 0x104 ∨ 0x104 < n ∧ n < 0x304 ∨ 0x307 < n → k.csrLand q n v = k.csrSet n v) ∧
  (∀ f s v s1 t tok addr kind, Enters (.pfblockWrite f) s = true → Runs (csrChecks 0x202 true) s () s → s.evWaiting < 4096 →
    Runs (sources none [f.d] []) s [v] s1 → (s1.bank s1.cur).fault = some (tok, addr, kind) → tokEq tok v = true →
    fld (s1.bank s1.cur).pfinfo 8 7 = 0 →
    let k := s1.bank s1.cur
    let u := (s1.event 0x0003 [tok, addr, k.pfinfo, k.corr.setWidth 64]).modBank s1.cur fun k => { k with blocked := true }
    Follows (.pfblockWrite f) .next
      (u.modCore s1.cur.c fun c =>
        { c with active := if c.active = some s1.cur.b then none else c.active, activeFrom := s1.now + 1 }) t →
    exec (.pfblockWrite f) s = .next (t.done .next))

/-- `trap`, `brk` and a direct write of `qmap` take their traps (R75, R133, R134): a software trap with the cause and tag of
its immediate, Breakpoint with its immediate as the tag, and QueueProtocol. `resume` at level 1, of the frame at `tfbase`,
once C's accesses have performed and a path joins the frame's home: a frame that passes R328 restores C's s1 to s31, l0 to l3, loop
frames and `cfs`, the PCs of the started sequencers, WAITREM of X, the replay entries and level 0. The word of an uncorrectable atom is
as a load of it (R122, R394). -/
def Obligations.TrapsAndResumeComplete : Prop :=
  (∀ f s, Enters (.trap f) s = true → exec (.trap f) s = .next (s.stopped (.trap
    { cause := BitVec.ofNat 8 (fld f.imm 7 0), tag := BitVec.ofNat 18 (fld f.imm 17 8), sw := true }))) ∧
  (∀ f s, Enters (.brk f) s = true → exec (.brk f) s = .next (s.stopped (.trap { cause := cBreak, tag := f.imm }))) ∧
  (∀ f s, Enters (.qmapWrite f) s = true → exec (.qmapWrite f) s = .next (s.stopped (.trap { cause := cQueue }))) ∧
  (∀ f s v s1 pa s2 s3 es, Enters (.resume f) s = true → Runs (sources none [f.a] []) s [v] s1 → v = (s1.bank s1.cur).tfbase →
    s1.quietSeq s1.cur = true → Runs (translate (s1.bank s1.cur).tfbase 0) s1 pa s2 → s2.stalledHome pa = false →
    s2.carries (dieOf s2.cur.c) (homeDie pa) pa = true → Runs (if s2.poisoned pa 2304 then noteUnc pa else pure ()) s2 () s3 →
    let r := s3.loadBytes s3.cur.agent pa 2304
    let ws := r.2.frameRead pa r.1
    frameOk (s1.bank s1.cur) ws false = some es →
    ∃ t, exec (.resume f) s = .next t ∧ (t.bank r.2.cur).level = false ∧ (t.bank r.2.cur).frozen = false ∧
    (t.bank r.2.cur).fault = none ∧
      (t.bank r.2.cur).cfs = (ws.getD 58 0).setWidth 5 ∧ (t.bank r.2.cur).xpend = es ∧ (t.bank r.2.cur).replay = [] ∧
      ((t.bank r.2.cur).seqs.get 0).s = (Vector.ofFn fun n => if n = 0 then 0 else ws.getD (8 + n.val) 0) ∧
      (∀ q, ((r.2.bank r.2.cur).seqs.get q).started = true → ((t.bank r.2.cur).seqs.get q).pc = ws.getD q.val 0) ∧
      (∀ n : Fin 4, ((t.bank r.2.cur).seqs.get 0).l.get n =
        BitVec.ofNat 32 ((ws.getD (40 + n.val / 2) 0).toNat / 2 ^ (32 * (n.val % 2)))) ∧
      (∀ n : Fin 4, let x := ((t.bank r.2.cur).seqs.get 0).frames.get n
        x.start = ws.getD (42 + 4 * n.val) 0 ∧ x.stop = ws.getD (43 + 4 * n.val) 0 ∧
        x.count = (ws.getD (44 + 4 * n.val) 0).setWidth 32 ∧ x.active = (ws.getD (45 + 4 * n.val) 0).getLsbD 0) ∧
      (((r.2.bank r.2.cur).seqs.get 2).started = true →
        ((t.bank r.2.cur).seqs.get 2).waitRem = BitVec.ofNat 32 (fld (ws.getD 6 0) 31 0)))

/-- The shoot-downs complete (R136, R137): `tlbinv` once no access is under way through an entry that goes, and `icinv` on the
context's lines, each for the cores of its scope. The pager's instructions complete (R138, R139): `rqrd` and `rqwr` on the replay
queue of a trapped context in the other bank, `pgmap` with a valid leaf entry, and `pgdone` of an outstanding fault. `icinv` takes its
successor from the lines as they stood (R83). That a shoot-down acts as a whole, and that `icinv` drops the lines of its context
alone, are the model's readings (log 46, log 92). -/
def Obligations.PagerComplete : Prop :=
  (∀ f s x y s1 s2 t, Enters (.tlbinv f) s = true → Runs (sources none [f.a, f.b] []) s [x, y] s1 → fld y 2 0 < 4 →
    s1.shoot (scopeCores s1.cur.c (fld y 2 0)) (s1.bank s1.cur).ctx (y.getLsbD 4) x.toNat = some s2 →
    Follows (.tlbinv f) .next s2 t → exec (.tlbinv f) s = .next (t.done .next)) ∧
  (∀ f s x y s1 q s2 t, Enters (.icinv f) s = true → Runs (sources none [f.a, f.b] []) s [x, y] s1 → fld y 2 0 < 4 →
    fld y 31 8 ≠ 0 → fld x 5 0 = 0 → s1.quietSeq s1.cur = true → Runs (succOf (.icinv f) (s1.sq s1.cur)) s1 q s2 →
    Follows (.icinv f) .moved ((scopeCores s2.cur.c (fld y 2 0)).foldl (fun s c =>
      s.modCore c (·.dropLines (s.bank s.cur).ctx x.toNat (fld y 31 8))) (s2.modSeq s2.cur fun _ => q)) t →
    exec (.icinv f) s = .next (t.done .moved)) ∧
  (∀ f s x y s1 d s2 t, Enters (.rqrd f) s = true → Runs (sources none [f.a, f.b] [f.d]) s [x, y] s1 → x.toNat < 24 →
    (s1.bank s1.cur.other).trapped = true → Runs (destOf f.d) s1 d s2 →
    Follows (.rqrd f) .next (s2.pended d ((s1.bank s1.cur.other).rqWord x.toNat (fld y 2 0))) t →
    exec (.rqrd f) s = .next (t.done .next)) ∧
  (∀ f s x y z s1 t, Enters (.rqwr f) s = true → Runs (sources none [f.a, f.b, f.d] []) s [x, y, z] s1 → x.toNat < 24 →
    (s1.bank s1.cur.other).trapped = true → Follows (.rqwr f) .next (s1.modBank s1.cur.other fun k =>
      { k with rqEdits := NMap.put k.rqEdits (8 * x.toNat + fld y 2 0) z }) t → exec (.rqwr f) s = .next (t.done .next)) ∧
  (∀ f s va e s1 t, Enters (.pgmap f) s = true → Runs (sources none [f.a, f.b] []) s [va, e] s1 →
    pteV e = true → pteLeaf e = true → fld e 57 56 ≠ 3 → pteBad e (fld e 57 56) = false → fld va 63 57 = 0 →
    let ctx := s1.pagedCtx s1.cur
    let x : TlbE := ⟨ctx, fld e 57 56, va.toNat / 2 ^ pageBits (fld e 57 56), e⟩
    let c := s1.cur.c
    let u := s1.modCore c fun k =>
      { k with
        tlbOld := (k.tlb ++ k.tlbCopy ++ k.tlbOut).filter (fun e => e.hit ctx false va.toNat && s1.underWay c [e.range]) ++ k.tlbOld
        tlb := k.tlb.filter (fun e => !e.hit ctx false va.toNat)
        tlbCopy := k.tlbCopy.filter (fun e => !e.hit ctx false va.toNat)
        tlbOut := k.tlbOut.filter (fun e => !e.hit ctx false va.toNat) }
    Follows (.pgmap f) .next (((u.tlbKeep c 0 x).tlbKeep c 1 x).tlbKeep c 2 x) t → exec (.pgmap f) s = .next (t.done .next)) ∧
  (∀ f s x y s1 s2 t, Enters (.pgdone f) s = true → Runs (sources none [f.a, f.b] []) s [x, y] s1 →
    s1.answer s1.cur.c x (y.getLsbD 0) = some s2 → Follows (.pgdone f) .next s2 t → exec (.pgdone f) s = .next (t.done .next))

/-! ## Vector instructions -/

/-- The vector instructions on whole registers enter X's pipeline (R97, R163, R165): their source registers and their
predicate are captured as they stand, and they fall due after their latency. -/
def Obligations.VectorsComplete : Prop :=
  ∀ i f lat caps files s t, shapeVec i = some (f, lat, caps, files) → Enters i s = true →
    Follows i .next (s.exposed
      { i := i, due := lat, caps := caps (s.bank s.cur), pm := (s.bank s.cur).capPred f.m } files) t →
    exec i s = .next (t.done .next)

/-- `vmov`, `vsplat`, `vget` and `vput` enter X's pipeline (R169, R183): a scalar source or a lane is read at issue. The tile
pops and pushes complete (R181, R182): a pop takes its rows at issue and fixes its result; a push reserves its tail slots at
issue. -/
def Obligations.MovesAndTilesComplete : Prop :=
  (∀ f s t, Enters (.vmov f) s = true →
    let k := s.bank s.cur
    let kind := (f.e.getD 0).toNat % 4
    Follows (.vmov f) .next (s.exposed
      { i := .vmov f, due := 1, caps := [if kind = 1 ∨ kind = 2 then k.capMask f.a else k.capTile f.a], pm := k.capPred f.m } [(if kind = 1 ∨ kind = 3 then 3 else 2, f.d.toNat)]) t →
    exec (.vmov f) s = .next (t.done .next)) ∧
  (∀ f s v s1 t, Enters (.vsplat f) s = true → Runs (if f.e.isSome then pure 0 else xScalar f.a) s v s1 →
    Follows (.vsplat f) .next (s1.exposed
      { i := .vsplat f, due := 1, sv0 := v, pm := (s1.bank s1.cur).capPred f.m } [(2, f.d.toNat)]) t →
    exec (.vsplat f) s = .next (t.done .next)) ∧
  (∀ f s t, Enters (.vget f) s = true → Follows (.vget f) .next (s.exposed
      { i := .vget f, due := 1, sv2 := (((s.bank s.cur).tile f.a).get (laneOf f)).setWidth 64 } (fieldFile (sFld f.d))) t →
    exec (.vget f) s = .next (t.done .next)) ∧
  (∀ f s v s1 t, Enters (.vput f) s = true → Runs (xScalar f.a) s v s1 →
    Follows (.vput f) .next (s1.exposed
      { i := .vput f, due := 1, sv0 := v, pm := (s1.bank s1.cur).capPred f.m } [(2, f.d.toNat)]) t →
    exec (.vput f) s = .next (t.done .next)) ∧
  (∀ f s rows s1 t, Enters (.vpop f) s = true → 8 ≤ f.a.toNat →
    let q : Fin 16 := ⟨f.a.toNat % 16, by omega⟩
    Runs (popOk q) s () s → Runs (matrixOk q) s () s → Runs (popRows q (widOf (widE f)).2.2) s rows s1 →
    let k := s1.bank s1.cur
    let r := unpackRows (widE f) rows
    Follows (.vpop f) .next (s1.exposed
      { i := .vpop f, due := 2, caps := [.res r.1 (Vector.ofFn fun p => if p = 0 then r.2 &&& k.maskReg f.m else 0)]
        pm := k.capPred f.m, sv2 := popHeader rows } ([(2, f.d.toNat)] ++ fieldFile (sFld f.b))) t →
        exec (.vpop f) s = .next (t.done .next)) ∧
  (∀ f s rid s1 v s2 t, Enters (.vpush f) s = true → 8 ≤ f.d.toNat →
    let q : Fin 16 := ⟨f.d.toNat % 16, by omega⟩
    let n := (widOf (widE f)).2.2
    Runs (pushOk q) s () s → Runs (reserve q n) s rid s1 → Runs (xScalar f.b) s1 v s2 →
    let k := s2.bank s2.cur
    Follows (.vpush f) .next (s2.exposed
      { i := .vpush f, due := 2, sv1 := v, caps := [k.capTile f.a], pm := k.capPred f.m, rid := rid, nres := n, q := q } []) t →
    exec (.vpush f) s = .next (t.done .next))

/-- The conversions enter X's pipeline (R170-R172): `vquant` and `vdequant` under a format slot that allows them, due after 6
slots or 8 for two tiles; `vftoi` and `vitof` after 4; under `.rs` each takes its draws from `rsseed` at issue. -/
def Obligations.ConversionsComplete : Prop :=
  (∀ (q : Bool) f s t,
    let i : Instr := if q then .vquant f else .vdequant f
    let w := cvtWord f
    let slot := s.fmtSlot s.cur (cvtFmt w)
    let sch := slotSch slot (cvtSide w)
    let k := s.bank s.cur
    Enters i s = true → quantOk slot w f q = true →
    let u := if cvtRound w = 3 then s.modBank s.cur fun k =>
      { k with rsseed := seedAfter k.rsseed (if sch = 2 then 2048 else 1024) } else s
    let hi := if sch = 2 then [k.capTile (f.a + 1)] else []
    Follows i .next (u.exposed
      { i := i, due := if sch = 2 then 8 else 6
        caps := if q then k.capTile f.a :: hi else k.capTile f.a :: k.capTile f.b :: hi
        slotv := slot, rss := if cvtRound w = 3 then k.rsseed else 0 } ((2, f.d.toNat) :: (if sch = 2 then [(2, f.d.toNat + 1)] else []) ++
        (if q && sch != 0 then [(2, f.b.toNat)] else []))) t →
    exec i s = .next (t.done .next)) ∧
  (∀ (toInt : Bool) f s t,
    let i : Instr := if toInt then .vftoi f else .vitof f
    let k := s.bank s.cur
    let rs := cvtRound (cvtWord f) = 3
    Enters i s = true →
    let u := if rs then s.modBank s.cur fun k =>
      { k with rsseed := seedAfter k.rsseed (onesBelow (k.maskReg f.m) 1024) } else s
    Follows i .next (u.exposed
      { i := i, due := 4, caps := [k.capTile f.a], pm := k.capPred f.m, rss := if rs then k.rsseed else 0 } [(2, f.d.toNat)]) t →
    exec i s = .next (t.done .next))

/-! ## The access sequencer -/

/-- The stream instructions complete (R146, R147): `sbind` reads a descriptor that meets its limits, places or parks the stream and
marks it running; `sstop` that parks completes at once, else once the engine has taken the stop; `sstat` gives d the status. The
gather instructions complete (R149, R151): a gather with a descriptor within its limits is placed or parked and becomes outstanding in
its group; `gwait` completes when its group has none outstanding; `gstat` gives d a status word and clears on request. That a parked
`sstop` completes at once, and one that the engine has taken too, that `sbind` marks its stream at issue, and that an extent is read at
issue are the model's readings (log 57, log 58, log 95). -/
def Obligations.StreamsAndGathersComplete : Prop :=
  (∀ f s x s1 ws s2 b s3 t, Enters (.sbind f) s = true → Runs (sdescLimits f) s () s → Runs (pushOk (qOf f)) s () s →
    Runs (flagsOk [(cmdForm f.e).cfl, (cmdForm f.e).after]) s () s → Runs (sources none [f.a] []) s [x] s1 →
    Runs (loadWords x 8) s1 ws s2 → Runs (sdescOk (sdescOf ws) (f.q.toNat < 8)) s2 () s2 →
    Runs (placeCmd (cmdForm f.e).after false
      { i := .sbind f, who := s2.me, ctx := s2.myCtx, cfl := (cmdForm f.e).cfl, kind := .stream (kOf f) (qOf f) (f.f.getLsbD 3) (sdescOf ws) })
      s2 b s3 →
    Follows (.sbind f) .next (s3.modBank s3.cur fun k =>
      if (k.stream.get (kOf f)).st = 1 then k else { k with stream := vset k.stream (kOf f) { st := 1, q := qOf f } }) t →
    exec (.sbind f) s = .next (t.done .next)) ∧
  (∀ f s s1 t, Enters (.sstop f) s = true → Runs (flagsOk [(cmdForm f.e).after]) s () s → (s.sq s.cur).waitCmd = none →
    ∀ b, Runs (placeCmd (cmdForm f.e).after false { i := .sstop f, who := s.me, ctx := s.myCtx, kind := .stop (kOf f) }) s b s1 →
    (b = true → Follows (.sstop f) .next s1 t → exec (.sstop f) s = .next (t.done .next)) ∧
    (b = false → Follows (.sstop f) (.again 8) (s1.waitFor (s.core s.cur.c).nextId) t →
      exec (.sstop f) s = .next (t.done (.again 8)))) ∧
  (∀ f s n v t, Enters (.sstop f) s = true → Runs (flagsOk [(cmdForm f.e).after]) s () s → (s.sq s.cur).waitCmd = some (n, v) →
    (s.core s.cur.c).copyFifo.any (·.id == n) = false → Follows (.sstop f) .next s.waitOver t →
    exec (.sstop f) s = .next (t.done .next)) ∧
  (∀ f s d s1 t, Enters (.sstat f) s = true → Runs (allOk dstOk [f.a]) s () s → Runs (destOf f.a) s d s1 →
    Follows (.sstat f) .next (s1.pended d ((s.bank s.cur).stream.get (kOf f)).word) t →
    exec (.sstat f) s = .next (t.done .next)) ∧
  (∀ f s x y s1 ws s2 n s3 u t, Enters (.gather f) s = true → Runs (gatherLimits f true) s () s → Runs (gatherQueue f) s () s →
    Runs (flagsOk [(cmdForm f.e).cfl, (cmdForm f.e).after]) s () s → Runs (sources none [f.a, f.b] []) s [x, y] s1 →
    Runs (loadWords x 8) s1 ws s2 → (fld y 47 32 ≠ 0 ∨ (gdescOf ws).shp ≠ 0) →
    Runs (gdescOk (gdescOf ws) (spOf f) true) s2 () s2 →
    Runs (if fld y 47 32 = 0 then readExtent (gdescOf ws).shp (gdescOf ws).cx else pure (fld y 47 32)) s2 n s3 →
    Runs (gatherPlace (.gather f) f (.gather (qOf f) (spOf f) (f.f.getLsbD 0) (gdescOf ws) (fld y 31 0) n)) s3 .next u →
    Follows (.gather f) .next u t → exec (.gather f) s = .next (t.done .next)) ∧
  (∀ f s x y s1 ws s2 u t, Enters (.gatherq f) s = true → Runs (gatherLimits f false) s () s → Runs (gatherQueue f) s () s →
    Runs (flagsOk [(cmdForm f.e).cfl, (cmdForm f.e).after]) s () s → Runs (sources none [f.a, f.b] []) s [x, y] s1 →
    Runs (loadWords x 8) s1 ws s2 → Runs (gdescOk (gdescOf ws) (spOf f) false) s2 () s2 →
    Runs (gatherPlace (.gatherq f) f (.gatherq (qOf f) (spOf f) (f.f.getLsbD 0) (gdescOf ws) (BitVec.ofNat 32 (fld y 31 0))
      (BitVec.ofNat 32 (fld y 63 32)))) s2 .next u →
    Follows (.gatherq f) .next u t → exec (.gatherq f) s = .next (t.done .next)) ∧
  (∀ f s t, Enters (.gwait f) s = true → ((s.bank s.cur).grp.get (qOf f)).out = 0 → Follows (.gwait f) .next s t →
    exec (.gwait f) s = .next (t.done .next)) ∧
  (∀ f s d s1 t, Enters (.gstat f) s = true → Runs (allOk dstOk [f.a]) s () s → Runs (destOf f.a) s d s1 →
    let g := (s.bank s.cur).grp.get (qOf f)
    let u := s1.pended d (g.word (f.f.getLsbD 1))
    Follows (.gstat f) .next (if f.f.getLsbD 0 then u.modBank u.cur fun k =>
      { k with grp := vset k.grp (qOf f) { g with rows := 0, pois := 0, oor := 0, fv := false } } else u) t →
    exec (.gstat f) s = .next (t.done .next))

/-- The copies complete (R152, R153): with sizes within their limits each is placed or parked; a `copyf` carries its
follow-on. `wload` is queued to the matrix engine (R154): its format slot is one of a plane, its bytes lie in its window, and
the FIFO has room. -/
def Obligations.CopiesAndWeightLoadsComplete : Prop :=
  (∀ f s x y z s1 u t, Enters (.copy f) s = true → Runs (flagsOk [(cmdForm f.e).cfl, (cmdForm f.e).after]) s () s →
    Runs (sources none [f.a, f.b, f.d] []) s [x, y, z] s1 → 8 ≤ y.toNat → y.toNat ≤ 2 ^ 32 - 8 → y.toNat % 8 = 0 →
    Runs (copyPlace (.copy f) (cmdForm f.e) z x y.toNat 1 0 0 ((cmdForm f.e).low.testBit 1) ((cmdForm f.e).low.testBit 0) none) s1 .next u →
    Follows (.copy f) .next u t → exec (.copy f) s = .next (t.done .next)) ∧
  (∀ f s x y z s1 u t, Enters (.copyf f) s = true → Runs (flagsOk [(cmdForm f.e).cfl, (cmdForm f.e).after]) s () s →
    Runs (sources none [f.a, f.b, f.d] []) s [x, y, z] s1 →
    (followOf (BitVec.ofNat 32 (fld y 31 0)) (BitVec.ofNat 32 (fld y 63 32))).isSome = true →
    Runs (copyPlace (.copyf f) (cmdForm f.e) z x (256 * (if f.e.isSome then (cmdForm f.e).low else 1)) 1 0 0 false false
      (some (BitVec.ofNat 32 (fld y 31 0), BitVec.ofNat 32 (fld y 63 32)))) s1 .next u →
    Follows (.copyf f) .next u t → exec (.copyf f) s = .next (t.done .next)) ∧
  (∀ f s x y z s1 ws s2 u t, Enters (.copy2d f) s = true → Runs (copy2dLimits f) s () s →
    Runs (flagsOk [(cmdForm f.e).cfl, (cmdForm f.e).after]) s () s →
    Runs (sources none [f.a, f.b, f.d] []) s [x, y, z] s1 → Runs (loadWords y 4) s1 ws s2 →
    let n := fld (nthV ws 0) 31 0
    let rows := fld (nthV ws 0) 63 32
    8 ≤ n → n % 8 = 0 → rows ≠ 0 →
    Runs (copyPlace (.copy2d f) (cmdForm f.e) z x n rows (nthV ws 1) (nthV ws 2) ((cmdForm f.e).low.testBit 1) ((cmdForm f.e).low.testBit 0)
      none) s2 .next u →
    Follows (.copy2d f) .next u t → exec (.copy2d f) s = .next (t.done .next)) ∧
  (∀ f s x s1 t, Enters (.wload f) s = true → Runs (wloadLimits f) s () s → (fld f.imm 5 0 = 63 → Runs (interlock 48) s () s) →
    Runs (sources none [f.a] []) s [x] s1 →
    let tr := f.imm.getLsbD 8
    let sparse := f.imm.getLsbD 7
    let slot := s1.fmtSlot s1.cur (fld f.imm 5 0)
    let r := (s1.bank s1.cur).wsrange
    1 ≤ slotFmt slot true → slotFmt slot true ≤ 11 → (tr = true → slotSch slot true < 3) → x.toNat % 64 = 0 →
    x.toNat + planeBytes slot sparse ≤ 65536 → 64 * fld r 10 0 ≤ x.toNat → x.toNat + planeBytes slot sparse ≤ 64 * fld r 26 16 →
    (s1.core s1.cur.c).mFifo.length < matrixDepth → s1.quietSeq s1.cur = true →
    let a := s1.accept s1.cur 1
    let p := a.2.pushView a.2.cur
    Follows (.wload f) .next (p.2.modCore p.2.cur.c fun k =>
      { k with
        mFifo := k.mFifo ++ [{ i := .wload f, id := k.nextId, nth := a.1, who := p.2.me, view := p.1,
                               kind := .wload (f.d.setWidth 5) x.toNat slot tr sparse }]
        nextId := k.nextId + 1 }) t →
    exec (.wload f) s = .next (t.done .next))

/-- The counted-row instructions complete (R155, R156): `rcfill` locates both ranges, which keep the race rule and meet no watchpoint,
before anything is written, and stores its rows with their counts while the store buffer has room, the rest in later turns (R258);
`rcclose` waits for A's earlier commands and stores and closes its rows; `rcquery` gives d the count, or 0x100 of an ordinary row. That
`rcquery` counts A's own earlier stores, and that `rcclose` waits for follow-ons, are the model's readings (log 59). -/
def Obligations.CountedRowsComplete : Prop :=
  (∀ f s src v dst s1 tos s2 froms s3 rid s4 rest s5 t, Enters (.rcfill f) s = true → (s.sq s.cur).todo = [] →
    Runs (sources3 f) s (src, v, dst) s1 → fld v 15 0 ≠ 0 → fld v 23 16 ≠ 0 → Runs (classOk dst) s1 () s1 → fld dst 7 0 = 0 →
    Runs (classOk src) s1 () s1 → fld src 2 0 = 0 → Runs (locateRows dst 5 (fld v 15 0)) s1 tos s2 →
    Runs (locateRows src 0 (fld v 15 0)) s2 froms s3 → Runs (watch src (256 * fld v 15 0) true false) s3 () s3 →
    Runs (watch dst (256 * fld v 15 0) false true) s3 () s3 →
    (froms.flatten.any fun x => s3.race (s3.agent s3.cur.agent).view s3.cur.idx x.1) = false →
    (tos.flatten.any fun x => s3.race (s3.agent s3.cur.agent).view s3.cur.idx x.1) = false →
    s3.sbFull s3.cur.agent = false → Runs newRid s3 rid s4 →
    Runs (storeAll ((froms.zip tos).zipIdx.map fun x =>
      { src := x.1.1, srcVa := src + BitVec.ofNat 64 (256 * x.2)
        ent := { s4.seqEnt (rowParts ((x.1.2.map (·.1)).headD 0) 0) with
          fill := some (fld v 23 16, (s4.bank s4.cur).owner), instrNo := rid, va := dst + BitVec.ofNat 64 (256 * x.2) } }))
      s4 rest s5 →
    (rest = [] → Follows (.rcfill f) .next (s5.storesLeft []) t → exec (.rcfill f) s = .next (t.done .next)) ∧
    (rest ≠ [] → Follows (.rcfill f) (.again 14) (s5.storesLeft rest) t → exec (.rcfill f) s = .next (t.done (.again 14)))) ∧
  (∀ i rel s rest s1 s2 t, shapeStoring i = some rel → Enters i s = true → mustFlush s (rel.getD 0) = false →
    (s.sq s.cur).todo ≠ [] → (s.sq s.cur).todoAt = (s.sq s.cur).pc → Runs (storeAll (s.sq s.cur).todo) s rest s1 →
    (rest = [] → Runs (sideRelease rel) (s1.storesLeft []) () s2 → Follows i .next s2 t → exec i s = .next (t.done .next)) ∧
    (rest ≠ [] → Follows i (.again 14) (s1.storesLeft rest) t → exec i s = .next (t.done (.again 14)))) ∧
  (∀ f s x y s1 ls s2 t, Enters (.rcclose f) s = true →
    let k := s.core s.cur.c
    let n := match (s.sq s.cur).waitCmd with
      | some (n, _) => n
      | none => k.nextId
    let mine (w : Who) (id : Nat) : Bool := s.ours s.cur w && w.q == 1 && id < n
    k.copyFifo.any (fun c => mine c.who c.id) = false → k.copyRun.any (fun r => mine r.cmd.who r.cmd.id) = false →
    k.follow.any (fun x => mine x.2.1 x.1) = false → s.quiet s.cur.agent = true → Runs (sourcesAB f) s (x, y) s1 →
    s1.evWaiting < 4096 → y ≠ 0 → fld y 7 0 = 0 → Runs (classOk x) s1 () s1 → fld x 7 0 = 0 →
    Runs (locateRows x 0 (y.toNat / 256)) s1 ls s2 →
    Follows (.rcclose f) .next ((s2.closeRows (ls.flatten.map (·.1)) 0 (s2.bank s2.cur).corr (s2.bank s2.cur).recid).waitOver) t →
    exec (.rcclose f) s = .next (t.done .next)) ∧
  (∀ f s x s1 l s2 d s3 t, Enters (.rcquery f) s = true → Runs (sources f.e [f.a] [f.d]) s [x] s1 →
    Runs (locate x 1 0) s1 l s2 → Runs (destOf f.d) s2 d s3 →
    Follows (.rcquery f) .next (s3.pended d (match s2.rowAfter s2.cur.agent l with
      | none => 0x100
      | some n => BitVec.ofNat 64 n)) t → exec (.rcquery f) s = .next (t.done .next))

/-- The shape instructions, the loads into queues and `prefetch` complete (R158-R160): d receives the extent, an extent is
stored, a row is pushed with its tag, a word fills the slot it reserved, and a prefetch may leave a translation, which is the model's
choice (log 13). -/
def Obligations.ShapesAndQueueLoadsComplete : Prop :=
  (∀ f s x y s1 v s2 d s3 t, Enters (.shload f) s = true → Runs (sourcesAB f) s (x, y) s1 → Runs (readExtent x (fld y 2 0)) s1 v s2 →
    Runs (destOf f.d) s2 d s3 → Follows (.shload f) .next (s3.pended d (BitVec.ofNat 64 v)) t →
    exec (.shload f) s = .next (t.done .next)) ∧
  (∀ f s x y v s1 w s2 s3 t, Enters (.shext f) s = true → Runs (sources3 f) s (x, y, v) s1 → Runs (classOk x) s1 () s1 →
    fld x 5 0 = 0 →
    let a := x + BitVec.ofNat 64 (8 * fld y 2 0)
    Runs (loadEa a 8 false none) s1 w s2 → Runs (storeEa ((extDirect w).getD (a + 4)) 4 v none) s2 () s3 →
    Follows (.shext f) .next s3 t → exec (.shext f) s = .next (t.done .next)) ∧
  (∀ f s x s1 rid s2 v s3 t, Enters (.ldq f) s = true → f.q.toNat < 8 → Runs (pushOk (qOf f)) s () s →
    Runs (sources none [f.a] []) s [x] s1 → Runs (reserve (qOf f) 1) s1 rid s2 →
    let m := queueForm f.e
    Runs (loadEa (x + m.off) 8 m.cons m.ord) s2 v s3 → Follows (.ldq f) .next (s3.pended (.q (qOf f) rid) v) t →
    exec (.ldq f) s = .next (t.done .next)) ∧
  (∀ f s x y s1 r s2 t, Enters (.ldrow f) s = true → 8 ≤ f.q.toNat → Runs (pushOk (qOf f)) s () s →
    Runs (sources none [f.a, f.b] []) s [x, y] s1 → (s1.queue s1.cur (qOf f)).full = false →
    let m := queueForm f.e
    let tag : W32 := BitVec.ofNat 32 (fld y 31 0)
    Runs (loadRow (x + m.off) m.cons m.ord) s1 r s2 →
    Follows (.ldrow f) .next (s2.modQ s2.cur (qOf f) (·.pushRow (match r with
      | some bs => rowOf tag bs
      | none => poisonedRow tag) s2.now)) t → exec (.ldrow f) s = .next (t.done .next)) ∧
  (∀ f s x s1 t, Enters (.prefetch f) s = true → Runs (sources none [f.a] []) s [x] s1 →
    Follows (.prefetch f) .next (match classify (x + sx f.imm) with
      | .virt va => (s1.translate s1.cur.c 0 s1.myCtx (s1.bank s1.cur).ptroot va.toNat 0 s1.cur.q.val).2
      | _ => s1) t → exec (.prefetch f) s = .next (t.done .next))

/-- The lamplighter's instructions complete (R161): a binding of a bitmap within the scratchpad, a run of bits within a bound
map, a list of an aligned buffer, each placed with its release; `act.count` takes its place among the commands and waits, and gives
d its count once the lamplighter has reached that place. -/
def Obligations.LamplighterComplete : Prop :=
  (∀ f s x y d s1 off u t, Enters (.actBind f) s = true → Runs (sources3 f) s (x, y, d) s1 →
    let w := fld x 15 0
    let h := fld x 31 16
    1 ≤ w → w ≤ 4096 → 1 ≤ h → h ≤ 4096 → classify d = .sp off → off % 8 = 0 → off + bitmapBytes w h ≤ 2 ^ 24 →
    Runs (lampPlace (.bind (mapOf y) off w h)) s1 .next u → Follows (.actBind f) .next u t →
    exec (.actBind f) s = .next (t.done .next)) ∧
  (∀ f s m x n s1 u t, Enters (.actMark f) s = true → Runs (actRun f) s (m, x, n) s1 → Runs (lampPlace (.mark m x n)) s1 .next u →
    Follows (.actMark f) .next u t → exec (.actMark f) s = .next (t.done .next)) ∧
  (∀ f s m x n s1 u t, Enters (.actClear f) s = true → Runs (actRun f) s (m, x, n) s1 → Runs (lampPlace (.clear m x n)) s1 .next u →
    Follows (.actClear f) .next u t → exec (.actClear f) s = .next (t.done .next)) ∧
  (∀ f s x y d s1 b u t, Enters (.actList f) s = true → Runs (sources3 f) s (x, y, d) s1 →
    let cfl : Option FlagRef := if y.getLsbD 15 then some ⟨y.getLsbD 14, BitVec.ofNat 5 (fld y 12 8)⟩ else none
    Runs (flagsOk [cfl]) s1 () s1 → fld x 1 0 = 0 → Runs (boundMap (mapOf y)) s1 b s1 →
    Runs (lampPlace (.list (mapOf y) x d (fld y 63 32) (y.getLsbD 3) cfl)) s1 .next u → Follows (.actList f) .next u t →
    exec (.actList f) s = .next (t.done .next)) ∧
  (∀ f s vs s1 n v d s2 t, Enters (.actCount f) s = true →
    (∀ y, wideImm f.e [f.b] = some y → Runs (allOk dstOk [f.d]) s () s ∧ vs = [y] ∧ s1 = s) →
    (wideImm f.e [f.b] = none → Runs (sources f.e [f.b] [f.d]) s vs s1) →
    (∀ m, (s1.sq s1.cur).waitCmd = none → Runs (boundMap (mapOf (nthV vs 0))) s1 m s1 → s1.quietSeq s1.cur = true →
      let k := (s.core s.cur.c).nextId
      let p := (s.modCore s.cur.c fun c => { c with nextId := k + 1 }).pushView s.cur
      Follows (.actCount f) (.again 8) ((p.2.modClu (cluOf p.2.cur.c) fun u =>
        { u with lamp := u.lamp ++ [{ who := p.2.me, ctx := p.2.myCtx, view := p.1, arrived := p.2.now
                                      kind := .count (mapOf (nthV vs 0)) k }] }).waitFor k) t →
      exec (.actCount f) s = .next (t.done (.again 8))) ∧
    ((s1.sq s1.cur).waitCmd = some (n, v) → ((s1.clu (cluOf s1.cur.c)).lamp.any fun c => match c.kind with
      | .count _ id => id == n
      | _ => false) = false →
    Runs (destOf f.d) s1.waitOver d s2 → Follows (.actCount f) .next (s2.pended d v) t →
    exec (.actCount f) s = .next (t.done .next)))

/-! ## The matrix instructions -/

/-- The matrix commands complete (R191-R193, R198): `mmul` and `mrank` of a queue that X consumes and a slot that passes the
checks, `mswap` and `mzero`, each entering a FIFO with room once X's accesses have performed. -/
def Obligations.MatrixCommandsComplete : Prop :=
  ∀ s, (s.core s.cur.c).matrixRoom = true → s.quietSeq s.cur = true →
    (∀ (rank : Bool) f t,
      let i : Instr := if rank then .mrank f else .mmul f
      let o := s.mop s.cur rank f
      Enters i s = true → o.bad = false → s.mqueueOk s.cur o.q = true → Follows i .next (s.matrixEnter s.me i (.op o)) t →
      exec i s = .next (t.done .next)) ∧
    (∀ f t, Enters (.mswap f) s = true → Follows (.mswap f) .next (s.matrixEnter s.me (.mswap f) (.swap (mFlag f))) t →
      exec (.mswap f) s = .next (t.done .next)) ∧
    (∀ f t, Enters (.mzero f) s = true →
      Follows (.mzero f) .next (s.matrixEnter s.me (.mzero f) (.zero (mZ f) (s.fmtSlot s.cur f.fmt.toNat) (mFlag f))) t →
      exec (.mzero f) s = .next (t.done .next))

/-- `mclose`, `mwait`, `mread` and `mstat` complete (R199-R201): a close marks the oldest operation on zD that has rows to
pop; a wait ends when nothing that it names is queued or active, nor a window of it replayed (R391); a read fixes its lanes at issue and, under `.clr`, empties
its block; a status word is read at issue. `fmtw` writes a slot, at the end of the cycle, with a word that its checks accept, X's
after C's, and `fmtr` reads one (R188, R189). -/
def Obligations.MatrixReadsComplete : Prop :=
  (∀ f s t, Enters (.mclose f) s = true → Follows (.mclose f) .next (s.matrixClose s.cur (mZ f)) t →
    exec (.mclose f) s = .next (t.done .next)) ∧
  (∀ f s t, Enters (.mwait f) s = true →
    (if f.pol.getLsbD 0 then (s.core s.cur.c).matrixBusy || (s.core s.cur.c).replays
      else s.zBusy s.cur (mZ f) || ((s.bank s.cur).z.get (mZ f)).replay.isSome) = false → Follows (.mwait f) .next s t →
    exec (.mwait f) s = .next (t.done .next)) ∧
  (∀ f s t, Enters (.mread f) s = true → s.zBusy s.cur (mZ f) = false → ((s.bank s.cur).z.get (mZ f)).replay = none →
    let e := f.e.getD 0
    let rs := e.toNat % 8 = 3 ∧ e.getLsbD 3 = false
    let k := s.bank s.cur
    let u := if rs then s.modBank s.cur fun k => { k with rsseed := seedAfter k.rsseed 1024 } else s
    let rho : Array Nat := if rs then (draws k.rsseed (List.replicate 1024 true)).2.toArray else #[]
    let l := readBlock (k.z.get (mZ f)) (fld f.flag 3 0) (e.getLsbD 3) (RMode.ofCode (e.toNat % 8)) rho
    let v := if f.pol.getLsbD 0 then u.modBank u.cur fun k =>
      { k with z := vset k.z (mZ f) ((k.z.get (mZ f)).clearBlock (fld f.flag 3 0)) } else u
    Follows (.mread f) .next (v.exposed
      { i := .mread f, due := 8, caps := [.res l.vals (planesOf allOnes l.flags)], rss := if rs then k.rsseed else 0 } [(2, fld f.fmt 4 0)]) t →
    exec (.mread f) s = .next (t.done .next)) ∧
  (∀ f s t, Enters (.mstat f) s = true → s.zBusy s.cur (mZ f) = false → ((s.bank s.cur).z.get (mZ f)).replay = none →
    Follows (.mstat f) .next (s.exposed
      { i := .mstat f, due := 2, sv2 := ((s.bank s.cur).z.get (mZ f)).status f.pol.toNat } (fieldFile (BitVec.ofNat 6 (fld f.fmt 4 0)))) t →
    exec (.mstat f) s = .next (t.done .next)) ∧
  (∀ f s x y s1 t, Enters (.fmtw f) s = true → Runs (sourcesAB f) s (x, y) s1 → fmtwOk (lo32 y) = true →
    Follows (.fmtw f) .next ((s1.modBank s1.cur fun k =>
      { k with fmtPend := k.fmtPend ++ [(s1.cur.q, fld x 5 0, lo32 y)] }).retained [(6, fld x 5 0)] 1) t →
    exec (.fmtw f) s = .next (t.done .next)) ∧
  (∀ (k : Bank) (n : Fin 64) q v, k.fmtPend = [(q, n.val, v)] → k.fmtCommit = { k with fmt := vset k.fmt n v, fmtPend := [] }) ∧
  (∀ (k : Bank) (n : Fin 64) v w, k.fmtPend.Perm [(0, n.val, v), (2, n.val, w)] → k.fmtCommit.fmt.get n = w) ∧
  (∀ f s x s1, Enters (.fmtr f) s = true → Runs (sources f.e [f.a] [f.d]) s [x] s1 →
    LeavesScalar (.fmtr f) (exec (.fmtr f) s) s1 f.d 1 0 0
      (((s1.bank s1.cur).fmt.get ⟨fld x 5 0 % 64, by omega⟩).setWidth 64))

/-- The auction's instructions complete (R204, R205, R208): `aecfg` keeps a descriptor within its limits, and the set before
it for a run of the same cycle; `aerun` queues a run of the set of the cycle's start and gives d its number; `aeread` gives d
a status word. -/
def Obligations.AuctionComplete : Prop :=
  (∀ f s x s1 ws s2 t, Enters (.aecfg f) s = true → Runs (aecfgLimits f) s () s → Runs (sources f.e [f.a] []) s [x] s1 →
    Runs (loadWords x 8) s1 ws s2 →
    (aedescOf ws).ok = true →
    Follows (.aecfg f) .next (s2.modBank s2.cur fun k =>
      { k with
        aecfg := some (aedescOf ws)
        aecfgOld := if k.aecfgAt = s2.now + 1 then k.aecfgOld else k.aecfg
        aecfgAt := s2.now + 1 }) t → exec (.aecfg f) s = .next (t.done .next)) ∧
  (∀ f s x s1 desc d s2 t, Enters (.aerun f) s = true → Runs (sources none [f.a] [f.d]) s [x] s1 →
    ((s.bank s.cur).aeSet s.now).isSome = true →
    (if (s1.bank s1.cur).aecfgAt = s1.now + 1 then (s1.bank s1.cur).aecfgOld else (s1.bank s1.cur).aecfg) = some desc →
    let cfl : Option FlagRef := if x.getLsbD 15 then some ⟨x.getLsbD 14, BitVec.ofNat 5 (fld x 12 8)⟩ else none
    let u := s1.clu (cluOf s1.cur.c)
    Runs (flagsOk [cfl]) s1 () s1 → u.aeFifo.length < aeDepth → s1.quietSeq s1.cur = true → Runs (destOf f.d) s1 d s2 →
    let a := s2.accept s2.cur 5
    let p := a.2.pushView a.2.cur
    Follows (.aerun f) .next ((p.2.modClu (cluOf p.2.cur.c) fun u =>
      { u with
        aeFifo := u.aeFifo ++ [{ who := p.2.me, ctx := (p.2.bank p.2.cur).ctx, view := p.1, desc := desc, cons := x.getLsbD 0,
                                 cfl := cfl, id := u.aeCount, nth := a.1 }]
        aeCount := u.aeCount + 1 }).pended d (u.aeCount.setWidth 64)) t → exec (.aerun f) s = .next (t.done .next)) ∧
  (∀ f s x s1 d s2 t, Enters (.aeread f) s = true → Runs (sources none [f.a] [f.d]) s [x] s1 → Runs (destOf f.d) s1 d s2 →
    let st := (s1.clu (cluOf s1.cur.c)).aeStatus.get (coreIdx s1.cur.c)
    Follows (.aeread f) .next (s2.pended d (if x.getLsbD 0 then st.2 else st.1)) t → exec (.aeread f) s = .next (t.done .next))

/-! ## The store sequencer -/

/-- The row and word stores complete (R211-R214): the row or the words are popped, the bytes located and checked, and the
stores enter the store buffer as it has room; a scatter skips the elements of the index 0xFFFF_FFFF; `strc` gives its row a count.
The release follows the last store. -/
def Obligations.SideStoresComplete : Prop :=
  ∀ f s, mustFlush s ((sideRel f.e).getD 0) = false → (s.sq s.cur).todo = [] →
  let completes (i : Instr) (s1 : State) (xs : List Todo) : Prop := ∀ rest s2 s3 t, Runs (storeAll xs) s1 rest s2 →
    (rest = [] → Runs (sideRelease (sideRel f.e)) (s2.storesLeft []) () s3 → Follows i .next s3 t → exec i s = .next (t.done .next)) ∧
    (rest ≠ [] → Follows i (.again 14) (s2.storesLeft rest) t → exec i s = .next (t.done (.again 14)))
  (∀ r s1 vs s2 ls s3 s4, Enters (.strow f) s = true → Runs (sideRow f (sideFields f)) s r s1 →
    Runs (sources none (sideFields f) []) s1 vs s2 →
    let ea := rowEa f vs r.hdr
    Runs (classOk ea) s2 () s2 → fld ea 2 0 = 0 → Runs (sideLocate ea (lenOf f) 1) s2 ls s3 →
    Runs (sideChecks ea (lenOf f) ls) s3 () s4 →
    completes (.strow f) s4 [s4.sideEnt ls ((payBytes r.pay).take (lenOf f)) (sideRel f.e)]) ∧
  (∀ ws s1 x s2 ls s3 s4, Enters (.stword f) s = true → f.q.toNat < 8 → Runs (popOk (qOf f)) s () s →
    Runs (allOk srcOk [f.a]) s () s → Runs (popWords (qOf f) (f.f.toNat + 1)) s ws s1 → Runs (sources none [f.a] []) s1 [x] s2 →
    let ea := x + sideOff f.e
    Runs (locateWords ea (f.f.toNat + 1)) s2 ls s3 → Runs (sideChecks ea (8 * (f.f.toNat + 1)) ls.flatten) s3 () s4 →
    completes (.stword f) s4 ((ws.zip ls).map fun x => s4.sideEnt x.2 (leBytes 8 x.1.toNat) (sideRel f.e))) ∧
  (∀ r s1 x y s2 xs s3 plan s4 s5, Enters (.scatter f) s = true → Runs (sideRow f [f.a, f.b]) s r s1 →
    Runs (sources none [f.a, f.b] []) s1 [x, y] s2 →
    let el := if f.f.getLsbD 0 then 8 else 4
    let nel := match f.e with
      | some e => fld e 22 16
      | none => 0
    x.toNat % el = 0 → Runs (readIndices y (if nel = 0 then 256 / el else nel)) s2 xs s3 →
    Runs (scatterPlan x el xs 0) s3 plan s4 → Runs (scatterChecks el plan) s4 () s5 →
    completes (.scatter f) s5 (plan.map fun x =>
      s5.sideEnt [(x.2.2, el)] (((payBytes r.pay).drop (el * x.1)).take el) (sideRel f.e))) ∧
  (∀ r s1 vs s2 ls s3 s4 rid s5, Enters (.strc f) s = true → Runs (sideRow f (sideFields f)) s r s1 →
    Runs (sources none (sideFields f) []) s1 vs s2 →
    let rc := match f.e with
      | some e => fld e 23 16
      | none => 1
    let ea := rowEa f vs r.hdr
    Runs (classOk ea) s2 () s2 → fld ea 7 0 = 0 → Runs (sideLocate ea 256 5) s2 ls s3 → Runs (sideChecks ea 256 ls) s3 () s4 →
    Runs newRid s4 rid s5 →
    let x := s5.sideEnt ls (payBytes r.pay) (sideRel f.e)
    completes (.strc f) s5 [{ x with ent :=
      { x.ent with fill := some (rc, (s5.bank s5.cur).owner), instrNo := rid, va := ea } }])

/-- The remote port's instructions complete (R215-R217): `rstore` sends its row to the destination of an expert's slot or to a
node's address; `ratom` sends its atomic and, unless NR, reserves the slot of the reply. The output stream instructions
complete (R218, R219): `obind` of a descriptor within its limits is placed or parked and marks its stream running; `ostop`
completes once the stream has stopped. That a parked `ostop` completes at once, and that `obind` marks its stream at issue, are the model's
readings (log 57, log 58). -/
def Obligations.PortAndOutputStreamsComplete : Prop :=
  (∀ f s r s1 vs s2 u t, Enters (.rstore f) s = true → Runs (sideRow f (sideFields f)) s r s1 →
    Runs (sources none (sideFields f) []) s1 vs s2 →
    (f.f.getLsbD 0 = true → ∃ n a s3, Runs (resolveExpert (fld (nthV vs 0) 15 0) (fld (nthV vs 1) 31 0)) s2 (n, a) s3 ∧
      Runs (rowSend s n a (lenOf f) r.pay (sideRel f.e)) s3 .next u) →
    (f.f.getLsbD 0 = false → Runs (rowSend s (nodeOf f.e) (nthV vs 0) (lenOf f) r.pay (sideRel f.e)) s2 .next u) →
    Follows (.rstore f) .next u t → exec (.rstore f) s = .next (t.done .next)) ∧
  (∀ f s x y s1 l s2 rid s3 t, Enters (.ratom f) s = true → mustFlush s ((sideRel f.e).getD 0) = false →
    let nr := match f.e with
      | some e => e.getLsbD 27
      | none => false
    let w32 := f.f.getLsbD 3
    let own := isOwn (nodeOf f.e)
    let n := if w32 then 4 else 8
    (nr = false → f.q.toNat < 8 ∧ Runs (pushOk (qOf f)) s () s) → Runs (sources none [f.a, f.b] []) s [x, y] s1 →
    Runs (portRoom 1) s1 () s1 → (own = true → Runs (classOk x) s1 () s1) → x.toNat % n = 0 →
    Runs (if own then locate x n 3 else pure x.toNat) s1 l s2 →
    Runs (if nr then pure 0 else reserve (qOf f) 1) s2 rid s3 →
    Follows (.ratom f) .next (s3.portReq s3.me
      { id := 0, who := s3.me, ctx := s3.myCtx, node := if own then 0xFFFF else nodeOf f.e
        dst := dstOf own (nodeOf f.e) l, atomic := true, op := ⟨fld f.f 2 0 % 5, by omega⟩, w32 := w32, nr := nr
        q := qOf f, rid := rid, addr := l, y := y, rel := (sideRel f.e).map (s3.relHold s3.cur) }) t →
    exec (.ratom f) s = .next (t.done .next)) ∧
  (∀ f s x s1 ws s2 b s3 t, Enters (.obind f) s = true → Runs (sdescLimits f) s () s → Runs (popOk (qOf f)) s () s →
    Runs (flagsOk [(cmdForm f.e).cfl, (cmdForm f.e).after]) s () s → Runs (sources none [f.a] []) s [x] s1 →
    Runs (loadWords x 8) s1 ws s2 → Runs (sdescOk (sdescOf ws) (f.q.toNat < 8)) s2 () s2 →
    Runs (placeCmd (cmdForm f.e).after true
      { i := .obind f, who := s2.me, ctx := s2.myCtx, cfl := (cmdForm f.e).cfl, kind := .ostream (kOf f) (qOf f) (sdescOf ws) }) s2 b s3 →
    Follows (.obind f) .next (s3.modBank s3.cur fun k =>
      if (k.ostream.get (kOf f)).st = 1 then k else { k with ostream := vset k.ostream (kOf f) { st := 1, q := qOf f } }) t →
    exec (.obind f) s = .next (t.done .next)) ∧
  (∀ f s s1 t, Enters (.ostop f) s = true → Runs (flagsOk [(cmdForm f.e).after]) s () s → (s.sq s.cur).waitCmd = none →
    ∀ b, Runs (placeCmd (cmdForm f.e).after true { i := .ostop f, who := s.me, ctx := s.myCtx, kind := .ostop (kOf f) }) s b s1 →
    (b = true → Follows (.ostop f) .next s1 t → exec (.ostop f) s = .next (t.done .next)) ∧
    (b = false → Follows (.ostop f) (.again 8) (s1.waitFor (s.core s.cur.c).nextId) t →
      exec (.ostop f) s = .next (t.done (.again 8)))) ∧
  (∀ f s n v t, Enters (.ostop f) s = true → Runs (flagsOk [(cmdForm f.e).after]) s () s → (s.sq s.cur).waitCmd = some (n, v) →
    (s.core s.cur.c).outFifo.any (·.id == n) = false → s.ostreamRuns s.cur (kOf f) = false →
    Follows (.ostop f) .next s.waitOver t → exec (.ostop f) s = .next (t.done .next))


/-! ## Events of the sequencers and the engines -/

/-- The events of the sequencers complete: an undefined word and a pending imprecise cause take their traps (R91, R321), the latter with the
address of its cause (R325); a line that a sequencer waits for enters the instruction cache as memory holds it (R83), and an
uncorrectable error in it is the sequencer's (R394); pending writes land (R97, R98); a parity error whose writer is retained is repaired
after that writer's latency and 6 cycles, and one that is not raises UncorrectableData and is reported (R330, R393); the step count of a
stepping core asks for its stop (R415); the time base is measured (R419). The latency of an access is an open one of those of R120; the
register's number in ADDR, and a queue entry whose error is not corrected, are the model's choices (log 76, log 104). -/
def Obligations.SequencerEventsComplete : Prop :=
  (∀ w s, s.phase = .alone → s.trapWaits s.cur { cause := cIllegal } = false →
    exec (.illegalInstruction w) s = .next (s.takeTrap s.cur { cause := cIllegal })) ∧
  (∀ w s, s.phase ≠ .alone →
    exec (.illegalInstruction w) s = .next { s with raised := s.raised ++ [(s.cur, { cause := cIllegal })] }) ∧
  (∀ c s b, (s.core c).active = some b → (s.bank ⟨c, b, 0, 0⟩).imprecisePending = true →
    (∀ q, ((s.bank ⟨c, b, 0, 0⟩).seqs.get q).last ≠ s.now + 1) →
    let n := lowestBit ((s.bank ⟨c, b, 0, 0⟩).tpend.toNat % 256) 8 0
    let t : TrapInfo :=
      { cause := pendCause n
        addr := if pendCause n ∈ [0x09, 0x10, 0x18] then (s.bank ⟨c, b, 0, 0⟩).paddr.get ⟨n % 9, by omega⟩ else 0 }
    s.trapWaits ⟨c, b, 0, 0⟩ t = false → exec (.impreciseTrap c) s = .next (s.takeTrap ⟨c, b, 0, 0⟩ t false)) ∧
  (∀ c b q s pa lf t, (s.sq ⟨c, b, q, 0⟩).stall = 10 → s.lineAt ⟨c, b, q, 0⟩ (s.sq ⟨c, b, q, 0⟩).want = none →
    s.translate c 0 (s.bank ⟨c, b, q, 0⟩).ctx (s.bank ⟨c, b, q, 0⟩).ptroot (s.sq ⟨c, b, q, 0⟩).want.toNat 2 q.val = (.ok (pa, lf), t) →
    t.stalledHome pa = false → t.carries (dieOf c) (homeDie pa) pa = true →
    let key := icKey (s.bank ⟨c, b, q, 0⟩).ctx (s.sq ⟨c, b, q, 0⟩).want
    (t.poisoned pa 64 = false → exec (.fetchLineArrive c b q) s =
      .next (t.modCore c fun k => { k with icache := NMap.put k.icache key (t.codeLine pa) })) ∧
    (t.poisoned pa 64 = true → t.evWaiting < 4096 → exec (.fetchLineArrive c b q) s =
      .next ((t.notes ⟨c, b, q, 0⟩ pa).modCore c fun k => { k with icache := NMap.put k.icache key (t.codeLine pa) }))) ∧
  (∀ (s : State) pa, s.mem.wf = true → (∀ i, i < 8 → s.poisoned (pa + 8 * i) 8 = false) →
    s.codeLine pa = BitVec.ofNat 512 (s.mem.readLe pa 64)) ∧
  (∀ c b s, exec (.exposedWriteLand c b) s = .next (s.landDue ⟨c, b, 2, 0⟩)) ∧
  (∀ c b q s, exec (.registerWriteLand c b q) s = .next (s.landFirst ⟨c, b, q, 0⟩)) ∧
  (∀ c b q file index s i u r, s.turnOf c b q = .run i u → file ≠ 7 → (file, index) ∈ s.regsRead ⟨c, b, q, 0⟩ i →
    (s.bank ⟨c, b, q, 0⟩).lastWriter q (file, index) = some r →
    let p := r.latency s
    (r.lat ≠ 0 → p = (r.lat, s)) ∧ (r.lat = 0 → [10, 60, 300, 420].contains p.1 = true) ∧
    exec (.parityRepair c b q file index true) s = .next ((p.2.modSeq ⟨c, b, q, 0⟩ fun x =>
      { x with hold := p.2.now + p.1 + 6 }).modBank ⟨c, b, q, 0⟩ fun x => { x with prcnt := x.prcnt + 1 }.count 15 1)) ∧
  (∀ c b q file index s i u good, s.turnOf c b q = .run i u → file ≠ 7 → (file, index) ∈ s.regsRead ⟨c, b, q, 0⟩ i →
    (good = true → (s.bank ⟨c, b, q, 0⟩).lastWriter q (file, index) = none) → s.evWaiting < 4096 →
    let t : TrapInfo := { cause := cUncorr, addr := BitVec.ofNat 64 (file * 256 + index) }
    s.trapWaits ⟨c, b, q, 0⟩ t = false → exec (.parityRepair c b q file index good) s =
      .next (({ s.consumed ⟨c, b, q, 0⟩ 0 c.val 0 with cur := ⟨c, b, q, 0⟩ } : State).takeTrap ⟨c, b, q, 0⟩ t)) ∧
  (∀ c b q file index s i u good, s.turnOf c b q = .run i u → file ≠ 7 → (file, index) ∉ s.regsRead ⟨c, b, q, 0⟩ i →
    exec (.parityRepair c b q file index good) s = .next s) ∧
  (∀ c b q (n : Fin 16) s i u x xs, s.turnOf c b q = .run i u → n.val ∈ queuesTaken i → s.evWaiting < 4096 →
    0 < (s.queue ⟨c, b, q, 0⟩ n).ready s.now → (s.queue ⟨c, b, q, 0⟩ n).ents = x :: xs →
    exec (.parityRepair c b q 7 n.val false) s =
      .next ((s.modQ ⟨c, b, q, 0⟩ n fun y => { y with ents := x.lost :: xs }).notes ⟨c, b, q, 0⟩ 0)) ∧
  (∀ c s, (s.core c).stepping = true → (s.core c).stopReq = none →
    ((s.bank (s.stopWho c)).seqs.any fun q => match q.steps with
      | some n => n != 0
      | none => false) = false →
    exec (.stepCountExpire c) s = .next (s.modCore c fun k => { k with stopReq := some (cStep,
      ((List.finRange 4).find? fun q => ((s.bank (s.stopWho c)).seqs.get q).steps.isSome).getD 0) })) ∧
  (∀ d ps s, exec (.tbskewMeasure d ps) s = .next (s.modDie d fun x => { x with tbskew := ps }))

/-- The copy engine's events complete (R70, R141, R146, R149, R152, R226): a command starts in the order of the FIFO; a stream or a
gather takes a step; a copy writes one of its words, or completes once its homes have answered; a freed parked command enters its
FIFO; a follow-on is placed. Orders that the spec leaves open are free choices (log 1, log 54). -/
def Obligations.CopyEngineCompletes : Prop :=
  (∀ c s x rest, (s.core c).copyFifo = x :: rest → s.halts x.who = false →
    (s.core c).startRoom x = true → (s.core c).engFenced.get 0 = false →
    let u := (s.modCore c fun k => { k with copyFifo := rest }).engStart (engAgent c 0) x.view
    exec (.copyEngineStart c) s = .next (match x.kind with
      | .stop k => u.stopStream x.who k
      | .stream k q _ _ => ((u.stopStream x.who k).modStream x.who k fun _ => { st := 1, q := q }).modCore c fun k =>
          { k with copyRun := k.copyRun ++ [Run.start x] }
      | _ => u.modCore c fun k => { k with copyRun := k.copyRun ++ [Run.start x] })) ∧
  (∀ c k s r k' q cons d,
    let rs := (s.core c).copyRun.filter fun r => r.cmd.kind.isStream k
    rs[(s.choose rs.length).1]? = some r → r.cmd.kind = .stream k' q cons d →
    ((s.choose rs.length).2.core c).engFenced.get 0 = false →
    exec (.streamElementPush c k) s = .next ((s.choose rs.length).2.streamStep r k q cons d)) ∧
  (∀ c id pos s r q sp cons d p n, (s.core c).copyRun.find? (·.cmd.id == id) = some r → (s.core c).engFenced.get 0 = false →
    r.cmd.kind = .gather q sp cons d p n →
    exec (.gatherRowDeliver c id pos) s = .next (s.gatherStep r pos q sp fun s => s.gatherEntry r d sp cons pos)) ∧
  (∀ c id pos s r q sp cons d x t, (s.core c).copyRun.find? (·.cmd.id == id) = some r → (s.core c).engFenced.get 0 = false →
    r.cmd.kind = .gatherq q sp cons d x t →
    exec (.gatherRowDeliver c id pos) s = .next (s.gatherStep r pos q sp fun s => s.gatherRow r d sp cons pos x.toNat t)) ∧
  (∀ c id s r dst src bytes rows sstr dstr ws cons fo, (s.core c).copyRun.find? (·.cmd.id == id) = some r →
    r.cmd.kind = .copy dst src bytes rows sstr dstr ws cons fo → r.tok = none → (s.core c).engFenced.get 0 = false →
    let todo := if s.halts r.cmd.who then r.partialLeft else r.left
    (r.left = [] → exec (.copyComplete c id) s = .next (s.runHomes r 0 (fun s f => s.modRun c id f) fun s => s.copyLanded r)) ∧
    (r.left ≠ [] → r.refused = none → todo ≠ [] → exec (.copyComplete c id) s =
      .next ((s.choose todo.length).2.copyWord r (todo.getD (s.choose todo.length).1 0) dst src bytes sstr dstr ws cons)) ∧
    (r.left ≠ [] → r.refused.isSome = true → todo ≠ [] →
      exec (.copyComplete c id) s = .next (s.copyWord r r.pos dst src bytes sstr dstr ws cons))) ∧
  (∀ c s p, (s.core c).parked = [p] → p.who.c = c → p.freed = true → (s.core c).cmdRoom p.cmd.out = true →
    (s.modCore c fun k => { k with parked := [] }).quietSeq p.who = true → (s.bank p.who).halting = false →
    exec (.parkedRelease c) s = .next ((s.modCore c fun k => { k with parked := [] }).enterCmd p.cmd.out p.cmd.cmd)) ∧
  (∀ c s p, (s.core c).parked = [p] → p.freed = false → exec (.parkedRelease c) s = .next s) ∧
  (∀ c id s w iw e cfl i, (s.core c).follow.find? (·.1 == id) = some (id, w, iw, e, cfl) → followOf iw e = some i →
    w.c = c → (needsEntry i && !(s.core c).matrixRoom) = false → s.halts w = false →
    let u := s.modCore c fun k => { k with follow := k.follow.filter (·.1 != id) }
    exec (.followonPlace c id) s = .next ((if u.alive w then u.followOn (w.seq 2) i else u).engDone w cfl (engAgent c 0)
      (engCode c 0)))

/-- The matrix engine's events complete (R154, R184, R191, R192, R194, R201): a command that may start does so, a `mswap` and a
`mzero` with their effect; the popping operation takes its queue's head; a contribution lands; an operation completes with its status
words; a weight load replaces the shadow plane. While a window of the core is replayed, none of the first four acts (R391). What an empty
plane gives, the time of a row that contributes nothing and the replay of a weight load are the model's readings (log 96, log 67). -/
def Obligations.MatrixEngineCompletes : Prop :=
  (∀ c s i m,
    (s.core c).replays = false →
    let ok := (List.range (s.core c).mFifo.length).filter (s.matrixStarts (s.core c))
    let v := (s.choose ok.length).2
    ok[(s.choose ok.length).1]? = some i → (s.core c).mFifo[i]? = some m →
    let u := (v.modCore c fun k => { k with mFifo := k.mFifo.eraseIdx i }).engStart (engAgent c 1) m.view
    (u.core c).engFenced.get 1 = false →
    exec (.matrixCmdStart c) s = .next (match m.kind with
      | .op o => u.opStart m o
      | .swap flag => (if u.alive m.who then u.modBank m.who fun k =>
          { k with plane := k.shadow, shadow := k.plane } else u).matrixDone m.who flag
      | .zero z slot flag => (if u.alive m.who then u.modBank m.who fun k =>
          { k with z := vset k.z z { mode := slot.getLsbD 16, anchor := BitVec.ofNat 8 (fld slot 31 24) } } else u).matrixDone
            m.who flag
      | .wload flag o slot t sparse => u.modCore c fun k =>
          { k with wRun := some ⟨m.id, m.nth, m.who, flag, o, slot, t, sparse, u.now, false⟩ })) ∧
  (∀ c s i r x xs, (s.core c).mRun.findIdx? (fun r => !r.popped) = some i → (s.core c).mRun[i]? = some r → s.alive r.who = true →
    r.mayPop s.now = true → 0 < (s.queue r.who r.o.q).ready s.now → (s.core c).engFenced.get 1 = false →
    (s.queue r.who r.o.q).ents = x :: xs → (s.core c).replays = false → s.halts r.who = false →
    let es := ((r.take x.asRow s.now).1.fly.getLast?).toList.map fun p => WinE.row r.o (s.bank r.who).plane p
    let u := ((s.modQ r.who r.o.q (·.drop 1)).count r.who (rowCode (fld r.o.slot 3 0)) 1).window r.who r.o.z 0 1 es
    let v := match (r.take x.asRow s.now).2 with
      | some j => u.modBank r.who fun k =>
          { k with z := vset k.z r.o.z { k.z.get r.o.z with present := (k.z.get r.o.z).present ||| BitVec.ofNat 256 (2 ^ j) } }
      | none => u
    exec (.matrixRowPop c) s = .next (v.modCore c fun k => { k with mRun := k.mRun.modify i fun _ => (r.take x.asRow s.now).1 })) ∧
  (∀ c s r p, (s.core c).mRun = [r] → r.fly = [p] → (∀ k : Nat, k < 64 → (k < p.landed s.now ↔ p.at_ + 73 + k < s.now)) ∧
    ((s.core c).replays = false →
      let n := Nat.max p.col (p.landed s.now)
    let x := if s.alive r.who then (s.bank r.who).landRow r.o p n else (s.bank r.who, 0)
    exec (.matrixContributionLand c) s = .next ((s.modBank r.who fun _ => x.1).modCore c fun k =>
      { k with mRun := k.mRun.modify 0 fun r =>
        { r with fly := if n = 64 then [] else [{ p with col := n }], flg := r.flg ||| x.2 } }))) ∧
  (∀ (r : MRun) now, r.over now = true → r.popped = true ∧ r.fly = []) ∧
  (∀ c s r, (s.core c).replays = false → (s.core c).mRun.find? (fun r => r.over s.now) = some r →
    let u := s.modCore c fun k => { k with mRun := k.mRun.filter fun x => x.id != r.id }
    let v := if u.alive r.who then u.modBank r.who fun k =>
      { k with z := vset k.z r.o.z { k.z.get r.o.z with st0 := r.word, absent := r.absent } } else u
    exec (.matrixOpComplete c) s =
      .next ((if r.tagPend then v.imprecise r.who 2 cMatrixTag 0 (matrixCode c) else v).matrixDone r.who r.o.flag)) ∧
  (∀ c s r, (s.core c).wRun = some r → r.start + 16 + planeBytes r.slot r.sparse / 32 < s.now → s.evWaiting < 4096 →
    let p := s.readPlane c r
    let u := p.2.2.modCore c fun k => { k with wRun := none }
    (p.2.1 = false → exec (.wloadComplete c) s = .next ((if u.alive r.who then u.modBank r.who fun k =>
      { k with shadow := some (planeOf r p.1) } else u).matrixDone r.who (some r.flag))) ∧
    (p.2.1 = true → r.again = false → exec (.wloadComplete c) s =
      .next ((p.2.2.consumed r.who 1 (16 * c.val + 1) (wsLoc c r.o)).modCore c fun k =>
        { k with wRun := some { r with start := p.2.2.now, again := true } })) ∧
    (p.2.1 = true → r.again = true → exec (.wloadComplete c) s =
      .next ((u.engEnd r.who 1 r.nth cUncorr (BitVec.ofNat 64 r.o) (matrixCode c)).fenceEngine c 1 r.who 1 (wsLoc c r.o))))

/-- The events of a cluster's engines and of the output stream engine complete (R162, R202, R206, R218): a run starts, writes its
outputs, or ends with its status; the lamplighter lists once its writes are applied, marks and clears together, or takes one
command; an output stream starts or takes a step. -/
def Obligations.ClusterEnginesComplete : Prop :=
  (∀ u s r rest, (s.clu u).aeRun = none → (s.clu u).aeFifo = r :: rest →
    exec (.aeRunStart u) s =
      .next (((s.modClu u fun x => { x with aeFifo := rest, aeRun := some r }).engStart (cluAgent u 0) r.view).aeBegin u r)) ∧
  (∀ u s r, (s.clu u).aeRun = some r → r.started = true →
    exec (.aeRunComplete u) s = .next (match r.fail, r.out with
      | some (cause, va), _ => (s.engEnd r.who 5 r.nth cause va aeCode).aeStatus u r 0x4000
      | none, some w => if s.cmdPending (cluAgent u 0) r.ref then s
          else (s.aeStatus u r w).engDone r.who r.cfl (cluAgent u 0) aeCode
      | none, none => if r.bad = 0 then
          let v := (s.aeWrite r r.desc.asgn (r.auction.asg.map fun i => BitVec.ofInt 32 i)).aeWrite r r.desc.pout r.auction.p
          (if r.replay then v else v.count r.who 13 r.auction.rounds).setRun u { r with out := some (r.word r.auction) }
          else (s.aeStatus u r 0x3000).engDone r.who r.cfl (cluAgent u 0) aeCode)) ∧
  (∀ u s c rest, (s.clu u).lamp = c :: rest → c.arrived < s.now → c.tok = none →
    let part := (c :: rest).takeWhile fun x => (x.isMark || x.isClear) && x.arrived == c.arrived
    let v := part.foldl (fun s x => s.engStart (cluAgent u 1) x.view)
      (s.modClu u fun x => { x with lamp := (c :: rest).drop part.length })
    exec (.lamplighterApply u) s = .next (
      if c.fin then (match c.far.find? fun d => !c.sent.contains d && !s.pendingAt (cluAgent u 1) (c.ref true) d with
        | some d => (s.sendMsg d (dieOf c.who.c).val c.who.c 4 c.id).modClu u fun x =>
            { x with lamp := { c with sent := d :: c.sent } :: rest }
        | none => if s.cmdPending (cluAgent u 1) (c.ref true) || !(c.far.all fun d => c.got.contains d) then s
          else (s.modClu u fun x => { x with lamp := rest }).engDone c.who (match c.kind with
            | .list _ _ _ _ _ f => f
            | _ => none) (cluAgent u 1) lampCode)
      else if c.isMark || c.isClear then v.lampPart u (part.filter (·.isClear) ++ part.filter (·.isMark))
      else ((s.modClu u fun x => { x with lamp := rest }).engStart (cluAgent u 1) c.view).lampHead u c)) ∧
  (∀ c k s,
    let rs := (s.core c).outRun.filter fun r => r.cmd.kind.isOut k
    let head := match (s.core c).outFifo with
      | x :: _ => if x.kind.isOut k && !s.halts x.who then [x] else []
      | [] => []
    let v := (s.choose (rs.length + head.length)).2
    (v.core c).engFenced.get 2 = false →
    (∀ r k' q d, rs[(s.choose (rs.length + head.length)).1]? = some r → r.cmd.kind = .ostream k' q d →
      exec (.ostreamElementWrite c k) s = .next (v.outStep r k q d)) ∧
    (∀ x, rs[(s.choose (rs.length + head.length)).1]? = none → head = [x] →
      exec (.ostreamElementWrite c k) s = .next (v.outStart c x k)))

/-! ## Events beyond the core -/

/-- The events of the remote port and of peers complete (R215-R217, R222, R372, R373, R376): a combine buffer is sent 64 cycles after
its last merge; a request takes effect at its home, or a peer's arrives; an acknowledgement frees its entry; a reply lands; a peer
launches; a stranded request or message is given up. The events of a die link complete (R369, R370, R379): a flit is sent or received
on a module in service; a NAK restarts from the named flit; an acknowledgement owed goes by itself; a failed lane is repaired, narrows
the module or fences it; a retrain ends. Orders that the spec leaves open are free choices (log 1); the number of a message that is
given up, and the agent of a peer's launch, are the model's choices (log 98, log 104). -/
def Obligations.RemoteEventsComplete : Prop :=
  (∀ c s i, ((s.core c).bufs.findIdx? fun b => b.merged + 64 ≤ s.now) = some i →
    exec (.combineFlushTimeout c) s = .next (s.sendBuf c i)) ∧
  (∀ k p s, exec (.remoteRequestArrive k (some p)) s = .next (s.peerArrive p)) ∧
  (∀ k s r,
    let u := (List.finRange 512).foldl (fun s c => if (s.core c).reqs = [] then s else s.leaveAll c) s
    u.arrivals[k]? = some r → u.evWaiting < 4096 →
      (u.heldBy r.words = 0 → exec (.remoteRequestArrive k none) s = .next (u.applyReq r)) ∧
      (u.heldBy r.words ≠ 0 → r.asked = none → exec (.remoteRequestArrive k none) s =
        .next (u.modReq r.who.c r.id fun x => { x with asked := some u.tb })) ∧
      (u.heldBy r.words ≠ 0 → r.asked.isSome = true → exec (.remoteRequestArrive k none) s =
        .next ((u.choose 8).2.giveUp r.words (BitVec.ofNat 8 (2 ^ (u.choose 8).1))))) ∧
  (∀ c s r,
    let u := s.leaveAll c
    let ws := (u.core c).reqs.filter fun r => !r.atomic && (r.home || (8 ≤ r.dst && r.st == 1))
    ws[(u.choose ws.length).1]? = some r → r.dst < 8 →
    exec (.remoteAck c) s = .next ((u.choose ws.length).2.dropReq c r.id)) ∧
  (∀ c s r,
    let u := s.leaveAll c
    let ws := (u.core c).reqs.filter fun r =>
      r.atomic && (r.home || (r.atomic && 8 ≤ r.dst && r.st == 1)) && u.oldest c (fun x => x.atomic && x.st != 0) r
    ws[(u.choose ws.length).1]? = some r → r.dst < 8 →
    exec (.ratomReply c) s = .next ((u.choose ws.length).2.landReply r r.reply)) ∧
  (∀ node addr row s, isLaunch addr = true → s.evWaiting < 4096 → row.length ∈ [32, 64, 128, 256] →
    let key := peerKey node 0
    let n := (NMap.get? s.rseqDone key).getD 0 + 1
    let u := s.offerRow ⟨(addr.toNat - launchBase) / 4096 % 8, by omega⟩ node addr row (s.agent (peerOf node)).view
    exec (.peerLaunch node addr row) s = .next { u with
      rseqDone := NMap.put u.rseqDone key n
      replies := NMap.put u.replies key (((n, (0 : W64)) :: (NMap.get? u.replies key).getD []).take 64)
      peerReply := some (key, n, 0) }) ∧
  (∀ c s m, (s.msgs.find? fun m => m.core == c.val && m.seqNo == s.msgNext m && s.cutFor m.from_ m.to_) = some m →
    exec (.requestGiveUp c) s = .next ((s.closeMsg m).msgCmd c m fun _ => none)) ∧
  (∀ l ok s,
    let u := (List.finRange 512).foldl (fun s c => if dieOf c == l.src && (s.core c).reqs != [] then s.leaveAll c else s) s
    let cs := if (u.link l).buf.length < 64 then u.toSend l else []
    let n := cs.length + (if (u.link l).sent < (u.link l).buf.length then 1 else 0)
    (u.link l).lanes ≠ 0 → (u.link l).retraining = false → adjacent l.src l.dst = true →
    exec (.flitReceive l ok) s = .next (match cs[(u.choose n).1]? with
      | some r => (u.choose n).2.sendFlit l r
      | none => (u.choose n).2.takeFlit l ok)) ∧
  (∀ l s n, (s.link l).nak = some n →
    exec (.nakReceive l) s = .next (s.modLink l fun x => { x.acked n with nak := none, sent := 0 })) ∧
  (∀ l s, (s.link (linkBack l)).owes = true → (s.link l).retraining = false → (s.link l).lanes ≠ 0 →
    exec (.ackOnlyFlit l) s = .next (s.sendAck l)) ∧
  (∀ l (beyond : Bool) s, adjacent l.src l.dst = true → (s.link l).lanes ≠ 0 → (s.link l).retraining = false → s.evWaiting < 4096 →
    exec (.laneFailure l beyond) s = .next (
      if beyond = false then s.linkChange l (s.link l).lanes
      else if (s.link l).lanes = 64 then s.modBoth l fun x => { x with retraining := true }
      else s.fenceLink l)) ∧
  (∀ l (ok : Bool) s, (s.link l).retraining = true → s.evWaiting < 4096 →
    exec (.retrainComplete l ok) s = .next (
      if ok then (s.modBoth l fun x => { x with lanes := 32, sent := 0, nak := none, retraining := false }).linkChange l 32
      else s.fenceLink l))

/-- The events at the homes complete (R257, R258, R268, R273, R344): a write drains; a home applies one that it may, or stalls a
counted fill; a stalled fill resumes in a freed entry, or is abandoned after 1 ms; a live line spills, what of it cannot be read becoming
uncorrectable (R385); a message whose number is next is delivered where a module carries it; a stream TLB takes its command's next page,
for the kind of its access. Orders that the spec leaves open are free choices (log 1); a message's module is the model's choice (log 104). -/
def Obligations.HomesComplete : Prop :=
  (∀ a s, s.canDrain a = true → exec (.drain a) s = .next (s.drainHead a)) ∧
  (∀ k s e, s.flight[k]? = some e → s.canReach e = true → e.stalled = none →
    (e.parts.any fun p => s.stalledHome (8 * p.word)) = false →
    (s.heldBy e.words = 0 → s.canApply k = true → exec (.apply k) s =
      .next (if s.mustStall e then s.stall k (locDie (8 * (e.parts.map (·.word)).headD 0)) else s.applyAt k)) ∧
    (s.heldBy e.words ≠ 0 → e.asked = none → exec (.apply k) s =
      .next { s with flight := s.flight.modify k fun e => { e with asked := some s.tb } }) ∧
    (s.heldBy e.words ≠ 0 → e.asked.isSome = true → exec (.apply k) s =
      .next ((s.choose 8).2.giveUp e.words (BitVec.ofNat 8 (2 ^ (s.choose 8).1))))) ∧
  (∀ d s e k, s.firstStalled d = some e → (s.flight.findIdx? fun x => x == e) = some k → (s.die d).dirRoom = true →
    s.canApply k = true → e.overdue s.tb = false → exec (.fillStallResume d) s = .next (s.applyAt k)) ∧
  (∀ d s e w, ((s.stallsAt d).find? fun e => e.overdue s.tb) = some e → e.who = some w →
    let kin (x : WEnt) : Bool := x.fill.isSome && x.agent == e.agent && x.who == e.who && x.instrNo == e.instrNo
    let gone (x : WEnt) : Bool := kin x && e.seq ≤ x.seq
    let u : State := { s with flight := s.flight.filter fun x => !gone x }
    let v := u.modAgent e.agent fun g => { g with sb := g.sb.filter fun x => !gone x }
    let void (x : Todo) : Todo := if kin x.ent then { ent := { agent := x.ent.agent, parts := [] } } else x
    exec (.countedFullTimeout d) s = .next ((if v.alive w then v.modSeq w fun q => { q with todo := q.todo.map void } else v).imprecise
      w 1 cCountedFull e.va (entCode e.agent))) ∧
  (∀ row s e, NMap.get? (s.die (locDie (256 * row))).dir row = some e → e.n ≠ 0 → e.spilled = false → s.evWaiting < 4096 →
    exec (.liveLineEvict row) s = .next ((s.foundBad row).modDie (locDie (256 * row)) fun x =>
      { x with dir := NMap.put x.dir row { e with spilled := true, home := bytesPay ((s.foundBad row).mem.readN (256 * row) 256) } })) ∧
  (∀ (s : State) row, (s.foundBad row).mem = s.mem ∧ (s.foundBad row).hist = s.hist ∧ (∀ d, (s.foundBad row).die d = s.die d) ∧
    ∀ w, w ∈ s.poison → w ∈ (s.foundBad row).poison) ∧
  (∀ k s (m : Msg) (h : m.core < 512), s.msgs[k]? = some m → m.seqNo = s.msgNext m → s.carries m.from_ m.to_ (256 * m.id) = true →
    let u : State := { s with msgs := s.msgs.eraseIdx k, msgDone := NMap.put s.msgDone (m.src * 8 + m.dst) m.seqNo }
    exec (.deliver k) s = .next (u.msgCmd ⟨m.core, h⟩ m fun g => some (m.src :: g))) ∧
  (∀ k s m, s.msgs[k]? = some m → ivLt m.seqNo (s.msgNext m) = true → ivLt (s.msgNext m) m.seqNo = false →
    m.seqNo ≠ s.msgNext m → exec (.deliver k) s = .next { s with msgs := s.msgs.eraseIdx k }) ∧
  (∀ c (out : Bool) va v s r kind, classify va = .virt v →
    ((if out then (s.core c).outRun else (s.core c).copyRun).findSome? fun r => (r.mayNext va).map (r, ·)) = some (r, kind) →
    let g := if out then r.outEng else r.copyEng
    exec (.streamTlbPrefetch c out va) s =
      .next { (s.translate c g.tlb g.ctx (s.rootOf g.w g.ctx) v.toNat kind g.src).2 with holders := s.holders })

/-- The scheduler and the context-save engine complete their events (R307, R308, R314, R332, R335, R337): a waiting bank becomes
active; the record next in order takes a free bank, or a victim is sought; a killed task's bank is freed; records are stolen; a
checkpoint begins, and commits its save, unless it meets state of the bank that reads as uncorrectable, an open choice (log 44); a saved
context that is not committed is discarded with reason 7, a committed one goes on at level 0, and one whose area does not translate is
reported with reason 3. Choices among equals are free or the model's (log 39); areas are virtual addresses, and what follows a restore's
reason 3, are the model's readings (log 99). -/
def Obligations.SchedulerCompletes : Prop :=
  (∀ c s b, (s.core c).active = none →
    let all := (List.finRange 2).filter fun b => ((s.core c).banks.get b).ready
    let set := all.filter fun b => ((s.core c).banks.get b).suspended
    let bs := if set = [] then all else set
    bs[(s.choose bs.length).1]? = some b →
    exec (.bankActivate c) s = .next ((s.choose bs.length).2.activate ⟨c, b, 0, 0⟩)) ∧
  (∀ d s, s.booted = true → (s.die d).power ≠ .gated → (s.die d).power ≠ .idle → s.loss = .none →
    (∀ w r (q : Fin 32), s.claimed d = some (w, r) →
      ((List.finRange 32).find? fun q => ((s.die d).queues.get q).contains r) = some q →
      exec (.dispatch d) s = .next (s.dispatchTo d w r ((q.val + 1) % 32))) ∧
    (∀ w q r, s.claimed d = none → s.freeBankOf d = some w →
      nextRec s.now (s.die d).rr (s.queuesFor d (s.eligible w)) = some (q, r) →
      exec (.dispatch d) s = .next (s.dispatchTo d w r ((q.val + 1) % 32))) ∧
    (∀ q r, s.claimed d = none → s.freeBankOf d = none →
      nextRec s.now (s.die d).rr (s.queuesFor d fun r => s.ctxLive (recCtx r.w)) = some (q, r) →
      exec (.dispatch d) s = .next (s.preempt d r))) ∧
  (∀ c b s r rq, (s.bank ⟨c, b, 0, 0⟩).stopping = some (.kill rq) → (s.bank ⟨c, b, 0, 0⟩).task = some r →
    let w : Who := ⟨c, b, 0, 0⟩
    let u := s.flushOf w
    u.drained w = true → ((u.core c).mRun.any fun x => u.ours w x.who) = false →
    let v := (u.ownedRows r.owner).foldl (fun s l => s.release l) u
    let y := match (v.bank w).saveTo with
      | some (area, _) => v.freeArea (v.bank w).ctx.toNat area
      | none => v
    let x := (y.modCore c fun k => { k with copyRun := k.copyRun.filter fun x => !y.ours w x.cmd.who }).freeBank w
    exec (.killComplete c b) s = .next (if rq then x.requeue c r true else x.dropRec r)) ∧
  (∀ d s v, (s.die d).steal = true → (s.die d).power ≠ .gated → s.loss = .none → (s.die d).waiting = 0 → (s.die d).idleFrom + 4096 ≤ s.now →
    (s.freeBankOf d).isSome = true → s.stealFrom d = some v →
    let y := s.die v
    let all := dispatchOrder s.now y.waiting y.rr (s.queuesFor v fun r => s.ctxLive (recCtx r.w))
    let mig := all.filter fun r => recMig r.w
    let got := (mig.filter fun r => !(s.keeps v all).any fun g => g.id == r.id).take
      (Nat.min (Nat.min 16 ((mig.length + 1) / 2)) (65536 - (s.die d).used.length))
    let u := got.foldl (fun s r => s.moveRec d r) (s.modDie v fun y =>
      { y with
        queues := y.queues.map fun q => q.filter fun r => !(got.any fun g => g.id == r.id)
        draining := y.draining.filter fun e => !(got.any fun g => g.id.toNat == e.2) })
    exec (.workSteal d) s = .next (u.modDie d fun x => { x with idleFrom := u.now })) ∧
  (∀ c b s tail, (s.bank ⟨c, b, 0, 0⟩).stopping = some (.save tail) → (s.bank ⟨c, b, 0, 0⟩).task.isSome = true →
    (s.bank ⟨c, b, 0, 0⟩).saveTo = none → ((s.bank ⟨c, b, 0, 0⟩).level = false ∨ (s.bank ⟨c, b, 0, 0⟩).blocked = true) →
    s.evWaiting < 4096 → ((s.core c).stopped = none ∨ s.loss ≠ .none) → (s.bank ⟨c, b, 0, 0⟩).restoring = false →
    ((s.core c).active ≠ some b ∨ (s.bank ⟨c, b, 0, 0⟩).imprecisePending = false) →
    exec (.preemptCheckpoint c b) s = .next (s.beginSave ⟨c, b, 0, 0⟩)) ∧
  (∀ c b s area n r tail x ps v,
    let w : Who := ⟨c, b, 0, 0⟩
    (s.bank w).saveTo = some (area, n) → (s.bank w).task = some r → (s.bank w).stopping = some (.save tail) →
    let u := s.flushOf w
    let need := areaNeeds (u.bank w).wsrange (u.bank w).spwin (u.liveCells r.owner).length
    u.drained w = true → ((u.core c).mRun.any fun x => u.ours w x.who && x.fly != []) = false →
    ((u.bank w).z.any fun z => z.replay.isSome) = false → u.evWaiting < 4096 →
    NMap.get? u.ctxs (u.bank w).ctx.toNat = some x → need ≤ x.areaSize →
    (if (u.bank w).pins = [] then u.mapArea w area 1 (x.areaSize / 4096) else (some (u.bank w).pins, u)) = (some ps, v) →
    (∀ p ∈ ps, v.carries (dieOf c) (homeDie p) p = true) → v.savePoisoned w = false →
    let p := v.choose 2
    (p.1 ≠ 0 → exec (.saveCommit c b) s = .next ((p.2.freeArea (u.bank w).ctx.toNat area).saveFail w area 4)) ∧
    (∀ ws y, p.1 = 0 → p.2.saveFrame w = (some ws, y) → exec (.saveCommit c b) s = .next (y.commitSave w r area ps n tail ws))) ∧
  (∀ (s : State) (w : Who), (s.bank w).level = false → s.saveFrame w = (some (s.frameWords w
    (infoWord cPreempt 0 false false 0 (s.bank w).replay.length (s.bank w).bar.isSome) 0 (s.bank w).comp), s)) ∧
  (∀ c b s r x ps v,
    let w : Who := ⟨c, b, 0, 0⟩
    (s.bank w).task = some r → r.w.get 5 ≠ 0 → (s.bank w).stopping = none → s.evWaiting < 4096 →
    NMap.get? s.ctxs (s.bank w).ctx.toNat = some x → s.mapArea w (r.w.get 5).toNat 1 (x.areaSize / 4096) = (some ps, v) →
    (∀ p ∈ ps, v.carries (dieOf c) (homeDie p) p = true) →
    (v.mem.readLe (areaAt ps 4) 4 = 0 → exec (.restore c b) s =
      .next (((v.dropRec r).refuseRec 7 ((r.w.get 7) &&& 0xFFFFFFFF) ((recCorr r.w).setWidth 64) r.src).freeBank w)) ∧
    (∀ y, v.mem.readLe (areaAt ps 4) 4 ≠ 0 → NMap.get? v.saved (saveKey (s.bank w).ctx.toNat (r.w.get 5).toNat) = some y →
      ∃ t, exec (.restore c b) s = .next t ∧ (t.bank w).level = false ∧ (t.bank w).frozen = false)) ∧
  (∀ c b s r x v,
    let w : Who := ⟨c, b, 0, 0⟩
    (s.bank w).task = some r → r.w.get 5 ≠ 0 → (s.bank w).stopping = none → s.evWaiting < 4096 →
    NMap.get? s.ctxs (s.bank w).ctx.toNat = some x → s.mapArea w (r.w.get 5).toNat 1 (x.areaSize / 4096) = (none, v) →
    exec (.restore c b) s = .next (((v.event 0x0006
      [r.id.setWidth 64, (recCorr r.w).setWidth 64, BitVec.ofNat 64 (r.w.get 5).toNat, 3]).freeBank w).requeue c r false))

/-- The reliability events complete (R278, R384, R386, R389, R391, R395, R397): an error fences its unit, a silent holder the guest ways
of its die; the core next in the rotation is scanned once its tasks have left it, and passes or fails; a unit whose test has taken its
time is released or lasting; an atom of the row that the scrubber reads is found wrong at most once in a pass; a copy or a tile's window
starts again, and one that cannot fences the engine. That a class 0 is a corrected error, and an error outside device memory, are the
model's choices (log 104), and so is what a spare cluster holds (log 78). -/
def Obligations.ReliabilityEventsComplete : Prop :=
  ∀ s, s.evWaiting < 4096 →
    (∀ u cls addr, (∀ n p, u = .port n p → n = Config.ownNode.toNat) → 1 ≤ cls → cls ≤ 4 →
      exec (.unitFence u cls addr) s = .next (s.fenceUnit u cls addr)) ∧
    (∀ u addr, (∀ n p, u = .port n p → n = Config.ownNode.toNat) → exec (.unitFence u 0 addr) s = .next (s.corrCount u)) ∧
    (∀ d, s.holderSilent d = true → exec (.holderFenceTimeout d) s = .next (s.fenceUnit (.guest d) 3 0)) ∧
    (∀ d, s.holderSilent d = false → exec (.holderFenceTimeout d) s = .next s) ∧
    (∀ d c, (s.die d).power ≠ .gated → s.loss = .none →
      ((dieCores d).find? fun x => (s.core x).scanDue && (s.core x).tasks == 0) = some c →
      exec (.scanStart d) s = .next (s.scanBegin c)) ∧
    (∀ d c, (s.die d).scanLast + s.scanGap ≤ s.tb → (s.die d).power ≠ .gated → s.loss = .none → s.nextScan d = some c →
      ((dieCores d).find? fun x => (s.core x).scanDue && (s.core x).tasks == 0) = none →
      ((s.core c).tasks = 0 →
        let u := (s.modDie (dieOf c) fun x => { x with scanLast := s.tb }).modCore c fun k =>
          { k with testing := true, scanDue := false, testStart := s.now }
        exec (.scanStart d) s = .next (if (s.core c).lastPass + s.rotMs.toNat * oneMs < s.tb then u.testResult (.core c) 3 1 0xFF
          else u)) ∧
      (((s.scanChoose c).core c).tasks ≠ 0 → exec (.scanStart d) s = .next (s.scanChoose c))) ∧
    (∀ c (pass : Bool), (s.core c).testing = true → (s.core c).testStart + scanCycles ≤ s.now →
      exec (.scanComplete c pass) s = .next (if pass then s.scanPass c (s.core c).testStart else s.scanFail c)) ∧
    (∀ v start, s.tests.find? (·.1 == wholeUnit v) = some (wholeUnit v, some start) →
      let u := wholeUnit v
      (start + testCycles u ≤ s.now → exec (.selftestComplete v true) s = .next (((match u with
        | .core c => (s.unfence u).scanPass c start
        | .link l => (s.unfence u).modBoth l fun x => { x with sent := 0, nak := none }
        | _ => s.unfence u).testResult u 0 1 0xFF).testsDone u)) ∧
      (start + (if s.spareTest u then 2 * testCycles u else testCycles u) ≤ s.now →
        let r := (s.testFail u).lasting u
        exec (.selftestComplete v false) s = .next ((r.2.2.testResult u r.1 (if r.1 = 1 then 1 else 0) r.2.1).testsDone u)) ∧
      (∀ pass, s.now < start + testCycles u → exec (.selftestComplete v pass) s = .next s)) ∧
    (∀ addr, addr < 2 ^ 40 → s.loss = .none → s.hbmRowOf addr % 2 ^ 16 = s.scrubRow →
      let w := (s.unitAt addr).1
      s.scrubbed.contains w = false →
      (s.poison.contains w = false → exec (.scrubAtom addr true) s =
        .next (({ s with scrubbed := w :: s.scrubbed, poison := w :: s.poison } : State).errorReport 4 2 1
          (unitNum (.row (locDie addr) (s.hbmRowOf addr))) (BitVec.ofNat 64 (8 * w)) 0 0)) ∧
      (s.poison.contains w = true → exec (.scrubAtom addr true) s = .next { s with scrubbed := w :: s.scrubbed }) ∧
      exec (.scrubAtom addr false) s =
        .next (({ s with scrubbed := w :: s.scrubbed } : State).corrCount (.row (locDie addr) (s.hbmRowOf addr)))) ∧
    (∀ addr bad, addr < 2 ^ 40 → (s.hbmRowOf addr % 2 ^ 16 ≠ s.scrubRow ∨ s.scrubbed.contains (s.unitAt addr).1 = true) →
      exec (.scrubAtom addr bad) s = .next s) ∧
    (∀ addr, 2 ^ 40 ≤ addr → s.poison.contains (addr / 8) = false →
      exec (.scrubAtom addr true) s = .next { s with poison := addr / 8 :: s.poison }) ∧
    (∀ c id (second : Bool) r, (s.core c).copyRun.find? (·.cmd.id == id) = some r →
      ((second = true ∨ r.replay = true) → exec (.engineWindowReplay c 0 id second) s =
        .next ((s.runEnd r cUncorr 0).fenceUnit (.engine c 0) 1 0 (some r.cmd.who))) ∧
      (second = false → r.replay = false → r.left ≠ [] → exec (.engineWindowReplay c 0 id second) s =
        .next ((s.recovers (.engine c 0) r.cmd.who).modRun c id Run.again))) ∧
    (∀ (r : Run) dst src bytes rows sstr dstr ws cons fo, r.cmd.kind = .copy dst src bytes rows sstr dstr ws cons fo →
      r.again.left = (Run.start r.cmd).left ∧ r.again.replay = true) ∧
    (∀ c (b : BankId) (z : Fin 8), (s.bank ⟨c, b, 0, 0⟩).task.isSome = true →
      let w : Who := ⟨c, b, 0, (s.bank ⟨c, b, 0, 0⟩).serial⟩
      let t := (s.bank w).z.get z
      (t.noReplay = false → t.replay = none → exec (.engineWindowReplay c 1 (8 * b.val + z.val) false) s =
        .next ((s.recovers (.engine c 1) w).startReplay w z)) ∧
      ((t.noReplay = true ∨ t.replay.isSome = true) → exec (.engineWindowReplay c 1 (8 * b.val + z.val) false) s =
        .next ((s.abandonTile w z).fenceUnit (.engine c 1) 1 0 (some w))) ∧
      exec (.engineWindowReplay c 1 (8 * b.val + z.val) true) s =
        .next ((s.abandonTile w z).fenceUnit (.engine c 1) 1 0 (some w)))

/-- The host interface completes its events (R359-R362): the registers are written while EN is 0, EN while the ring sizes are in force,
EVACK always; a base reads as it was written, and a write-only or reserved one as zero; the doorbell reads command slots; the oldest
pending event goes to the ring when there is room. -/
def Obligations.HostInterfaceCompletes : Prop :=
  (∀ off v s, s.host.en = false → exec (.hostRegWrite off v) s = .next (s.modHost fun h =>
    if off = 0x08 then { h with cqbase := v &&& 0xFFFFFFF000 }
    else if off = 0x10 then { h with cqlog := v.setWidth 5 }
    else if off = 0x18 then { h with eqbase := v &&& 0xFFFFFFF000 }
    else if off = 0x20 then { h with eqlog := v.setWidth 5 }
    else if off = 0x28 then { h with stbase := v &&& 0xFFFFFFFFC0 }
    else h)) ∧
  (∀ v s, s.host.en = false → ∃ t, exec (.hostRegWrite 0x08 v) s = .next t ∧ (t.hostRead 0x08).host.rdata = v &&& 0xFFFFFFF000) ∧
  (∀ v s, s.host.en = false → ∃ t, exec (.hostRegWrite 0x18 v) s = .next t ∧ (t.hostRead 0x18).host.rdata = v &&& 0xFFFFFFF000) ∧
  (∀ v s, s.host.en = false → ∃ t, exec (.hostRegWrite 0x28 v) s = .next t ∧ (t.hostRead 0x28).host.rdata = v &&& 0xFFFFFFFFC0) ∧
  (∀ off (s : State), off ∉ [0x00, 0x08, 0x10, 0x18, 0x20, 0x28] → (s.hostRead off).host.rdata = 0) ∧
  (∀ v s, ringOk s.host.cqlog = true → ringOk s.host.eqlog = true →
    exec (.hictlWrite v) s = .next (s.modHost fun h => { h with en := v.getLsbD 0, want := h.want && v.getLsbD 0 }).statePage) ∧
  (∀ v s, exec (.eqackWrite v) s = .next (s.modHost fun h => { h with evack := v.setWidth 32 }).statePage) ∧
  (∀ v s, exec (.cqbellWrite v) s =
    .next ((s.modHost fun h => { h with cqbell := v.setWidth 32, want := h.en }).readSlots 65537).statePage) ∧
  (∀ s e rest, s.host.events = e :: rest → s.host.en = true →
    (BitVec.ofNat 32 (2 ^ s.host.eqlog.toNat)).slt (s.host.eviss + 1 - s.host.evack) = false →
    let n := s.host.eviss + 1
    let a := s.host.eqbase.toNat + (n.toNat % 2 ^ s.host.eqlog.toNat) * 64
    let w0 : W64 := BitVec.ofNat 64 (e.status * 2 ^ 48 + e.code * 2 ^ 32 + n.toNat)
    let u := (s.putBytes homeAgent (a + 8) (wordBytes ((List.range 7).map fun i => e.args.getD i 0))).putBytes homeAgent a
      (leBytes 8 w0.toNat)
    exec .eventWrite s = .next ((u.modHost fun h =>
      { h with
        eviss := n, events := rest
        cmddone := if e.code = 1 then (e.args.getD 0 0).setWidth 32 else h.cmddone }).readSlots 65537).statePage)

/-- Commands for contexts, tasks and pages complete (R315, R353, R356, R358, R365-R367): each with STATUS 0 and its effect under the
conditions named here. That a shoot-down acts as a whole, and what stands in a full instruction store, are the model's readings (log
46, log 100). -/
def Obligations.ContextCommandsComplete : Prop :=
  (∀ s c, Starts s 0x0000 c → exec .cmdNop s = .next ((s.begun c).cmdDone c 0)) ∧
  (∀ s c, Starts s 0x0001 c → fld (c.args.get 0) 5 0 = 0 →
    let u := s.begun c
    let w := recWords ((u.physWords (c.args.get 0).toNat 8).modify 7 fun x =>
      setFld (setFld x 63 48 0xFFFE) 31 0 c.seqNo.toNat)
    let d : DieId := ⟨fld (c.args.get 1) 2 0 % 8, by omega⟩
    u.recReason d .host w = 0 →
    exec .launch s =
      .next ((u.acceptRec d (Origin.host.key 0) w c.view (c.args.get 0)).2.cmdDone c 0)) ∧
  (∀ s c, Starts s 0x0002 c → fld (c.args.get 0) 5 0 = 0 →
    let u := s.begun c
    let w := ctxBlock (Vector.ofFn fun i => BitVec.ofNat 64 (u.mem.readLe ((c.args.get 0).toNat + 8 * i.val) 8))
    let later := u.host.cmds.any fun y => y.op == 0x0003 && fld (y.args.get 0) 11 0 == (w.get 0).toNat
    ctxBlockOk w = true → NMap.get? u.ctxs (w.get 0).toNat = none →
    exec .ctxcreate s = .next (({ u.loadHandler w with
      ctxs := NMap.put (u.loadHandler w).ctxs (w.get 0).toNat { blk := w, free := List.range (fld (w.get 9) 31 0) }
      torn := if later then (u.loadHandler w).torn else (u.loadHandler w).torn.filter (· != (w.get 0).toNat) } : State).cmdDone c 0)) ∧
  (∀ (s : State) (c : Cmd), c.op = 0x0003 → c.ok = true → s.afterPower = false →
    (s.acceptCmd c 0).ctxLive (fld (c.args.get 0) 11 0) = false) ∧
  (∀ s c, Starts s 0x0003 c → (NMap.get? s.ctxs (fld (c.args.get 0) 11 0)).isSome = true →
    let u := (s.begun c).discardRecs (fld (c.args.get 0) 11 0)
    exec .ctxteardown s = .next ((u.banksOf (fld (c.args.get 0) 11 0)).foldl (fun s w => s.killFor w) u)) ∧
  (∀ s c, GoesOn s 0x0003 c → s.banksOf (fld (c.args.get 0) 11 0) = [] →
    let u := s.discardRecs (fld (c.args.get 0) 11 0)
    let cores := u.cores.map fun (k : Core) => { k with istore := k.istore.filter fun x => x.1.toNat != fld (c.args.get 0) 11 0 }
    exec .ctxteardown s =
      .next (({ u with ctxs := NMap.del u.ctxs (fld (c.args.get 0) 11 0), cores := cores } : State).cmdDone c 0)) ∧
  (∀ s c, Starts s 0x0004 c → exec .aclwrite s =
    .next (({ s.begun c with acl := NMap.put s.acl (fld (c.args.get 0) 11 0) (c.args.get 1) } : State).cmdDone c 0)) ∧
  (∀ (s : State) (c : Cmd) d, c.op = 0x0005 → c.ok = true → s.afterPower = false → fld (c.args.get 1) 5 0 = 0 →
    d ∈ maskDies (c.args.get 0) →
    let p := SchedPar.ofBlock (s.mem.readN (c.args.get 1).toNat 64)
    let x := ((s.acceptCmd c 0).die d).parCommit
    x.drainth = p.drainth ∧ x.killth = p.killth ∧ x.steal = p.steal ∧ x.blevel = p.blevel ∧ x.bmib = p.bmib) ∧
  (∀ s c, Starts s 0x0005 c → fld (c.args.get 1) 5 0 = 0 → exec .schedparam s = .next ((s.begun c).cmdDone c 0)) ∧
  (∀ s c, Starts s 0x0006 c → exec .pageanswer s = .next (match (s.begun c).takePages.answer
      ⟨fld (c.args.get 0) 40 32 % 512, by omega⟩ (c.args.get 0) ((c.args.get 1).getLsbD 0) with
    | some t => t.cmdDone c 0
    | none => (s.begun c).cmdDone c 4)) ∧
  (∀ s c t, Starts s 0x0007 c →
    (s.begun c).shoot (List.finRange 512) ((c.args.get 0).setWidth 12) ((c.args.get 0).getLsbD 16) (c.args.get 1).toNat = some t →
    exec .shootdown s = .next (t.cmdDone c 0)) ∧
  (∀ s c t l e v, Starts s 0x0008 c →
    (NMap.get? s.ctxs (fld (c.args.get 0) 11 0)).isSome = true →
    (s.begun c).shoot (List.finRange 512) (BitVec.ofNat 12 (fld (c.args.get 0) 11 0)) false (c.args.get 1).toNat = some t →
    t.pageWalk (fld (c.args.get 0) 11 0) (c.args.get 1).toNat = (.leaf l e, v) →
    let lo := pteAddr e / 2 ^ pageBits l * 2 ^ pageBits l
    let n := 2 ^ pageBits l
    v.rangeBusy lo n = false →
    exec .pagerelease s = .next ((v.uncountRange lo n).givePages.cmdDone c 0)) ∧
  (∀ s c, Starts s 0x0009 c →
    let d : DieId := ⟨fld (c.args.get 0) 2 0 % 8, by omega⟩
    let old := (s.die d).gang
    let new := vset old ⟨fld (c.args.get 0) 13 8 % 64, by omega⟩ (c.args.get 1)
    let changed (a : Nat) : Bool := a / 2 ^ 37 == d.val && gangOf old (a % 2 ^ 37 / 2 ^ 21) != gangOf new (a % 2 ^ 37 / 2 ^ 21)
    exec .gangwrite s = .next ((((s.begun c).modDie d fun x => { x with gang := new }).wipe changed).cmdDone c 0)) ∧
  (∀ s c w ws, Starts s 0x000A c → ((List.finRange 512).flatMap fun x => (List.finRange 2).filterMap fun b =>
      if (((s.core x).banks.get b).task.isSome && ((s.core x).banks.get b).recid == (c.args.get 0).setWidth 32) = true
      then some (⟨x, b, 0, 0⟩ : Who) else none) = w :: ws →
    exec .savefclear s = .next (((s.begun c).modBank w fun k => { k with savef := false }).cmdDone c 0))

/-- Commands of the module complete (R386, R398, R400, R402, R405-R408): its parameters within their ranges, a self-test of a unit,
the retirement of an idle one, a power state that every named die may enter, arming and disarming, a restore without an image, a
discard, an attestation, a staged image. What is open there, such as the class that SELFTEST's fence reports, is a free choice (log
77). -/
def Obligations.ModuleCommandsComplete : Prop :=
  (∀ s c, Starts s 0x0200 c →
    let a := fld (c.args.get 0) 31 0
    let b := fld (c.args.get 1) 31 0
    let t := fld (c.args.get 2) 15 0
    exec .relparam s = .next (if 60 ≤ a ∧ a ≤ 43200 ∧ 100 ≤ b ∧ b ≤ 2000 ∧ 1 ≤ t
      then ({ s.begun c with
        scrubMin := BitVec.ofNat 32 a, rotMs := BitVec.ofNat 32 b, corrThreshold := BitVec.ofNat 16 t } : State).cmdDone c 0
      else (s.begun c).cmdDone c 2)) ∧
  (∀ s c u, Starts s 0x0201 c → unitOf (c.args.get 0) = some u → bareUnit (c.args.get 0) = true →
    (s.tests.any (·.1 == wholeUnit u) = true → exec .selftest s = .next (s.begun c)) ∧
    (s.tests.any (·.1 == wholeUnit u) = false → s.fenced.contains (wholeUnit u) = true →
      exec .selftest s = .next ((s.begun c).fence1 u false)) ∧
    (s.tests.any (·.1 == wholeUnit u) = false → s.fenced.contains (wholeUnit u) = false →
      exec .selftest s = .next (((s.begun c).choose 6).2.fenceUnit u ((s.begun c).choose 6).1 0))) ∧
  (∀ s c u, Starts s 0x0202 c → unitOf (c.args.get 0) = some u → bareUnit (c.args.get 0) = true →
    let t := (s.begun c).unitTask u
    exec .retire s = .next (((s.begun c).errorReport (unitType u) 5 0 (unitNum u) 0 t.1 t.2).fence1 u true)) ∧
  (∀ s c u, GoesOn s 0x0202 c → unitOf (c.args.get 0) = some u → s.unitIdle u = true →
    exec .retire s = .next (((s.lasting u).2.2.testsDone u).cmdDone c 0)) ∧
  (∀ s c, Starts s 0x0100 c → fld (c.args.get 1) 2 0 < 4 →
    (maskDies (c.args.get 0)).find? (fun d => !(s.begun c).mayEnter d (fld (c.args.get 1) 2 0) ((c.args.get 2).setWidth 16).toNat) =
      none →
    exec .powerstate s = .next (((maskDies (c.args.get 0)).foldl (fun s d =>
      s.enter d (fld (c.args.get 1) 2 0) ((c.args.get 2).setWidth 16)) (s.begun c)).cmdDone c 0)) ∧
  (∀ s c, Starts s 0x0101 c → exec .ckptarm s = .next (
    if (c.args.get 0).getLsbD 0 = false then ({ s.begun c with ckptArmed := false } : State).cmdDone c 0
    else if s.joules < 2500 then (s.begun c).cmdDone c 3
    else ({ s.begun c with ckptArmed := true, image := none } : State).cmdDone c 0)) ∧
  (∀ s c, Starts s 0x0102 c → s.image = none → exec .ckptrestore s = .next ((s.begun c).cmdDone c 4)) ∧
  (∀ s c m, Starts s 0x0102 c → s.image = some m → m.digest = m.hash →
    exec .ckptrestore s = .next (((m.host.running ++ m.host.cmds).foldl (fun s x => s.cmdEvent x.seqNo 3 0)
      ((((s.begun c).fromImage m).hostFrom m).lossEvents m.lost)).cmdDone c 0).statePage) ∧
  (∀ s c, Starts s 0x0103 c → exec .ckptdiscard s = .next (({ s.begun c with image := none } : State).cmdDone c 0)) ∧
  (∀ s c, Starts s 0x0104 c → fld (c.args.get 0) 5 0 = 0 → fld (c.args.get 1) 5 0 = 0 →
    let body := s.mem.readN (c.args.get 0).toNat 64 ++ s.mr.toList.flatMap bytes512 ++ s.svn.toList ++ leBytes 4 0 ++ leBytes 8 s.tb
    exec .attest s = .next (((s.begun c).putBytes homeAgent (c.args.get 1).toNat
      (body ++ (Config.identitySign body).toList ++ leBytes 3 0)).cmdDone c 0)) ∧
  (∀ s c, Starts s 0x0105 c →
    let im := s.mem.readN (c.args.get 0).toNat (c.args.get 1).toNat
    exec .fwstage s = .next (if imageOk s.minSvn im then ({ s.begun c with staged := some im } : State).cmdDone c 0
      else (s.begun c).cmdDone c 2))

/-- Commands of the debugger complete (R409, R410, R413-R416, R418-R421): a claim; a stop of the named cores; a resume and a step of a
claimed stopped core; a patch of a code line that stands, which the instruction stores take too; a debug register, the energy weights, the
profile block, the trace ring, in force from the next cycle, and the skew of a peer. A stop acts at the start of the core's next cycle,
and its command completes when every named core has stopped. The words that PEERSKEW writes are free values (log 87). -/
def Obligations.DebuggerCommandsComplete : Prop :=
  (∀ s c, Starts s 0x0300 c → (c.args.get 1).getLsbD 0 = true →
    exec .dbgclaim s = .next (((s.begun c).modCore c.core fun k => { k with claimed := true }).cmdDone c 0)) ∧
  (∀ s c, Starts s 0x0300 c → (c.args.get 1).getLsbD 0 = false → ((s.core c.core).stopped = none ∨ (s.core c.core).stepping = true) →
    exec .dbgclaim s = .next (((s.begun c).modCore c.core fun k => { k with claimed := false }).cmdDone c 0)) ∧
  (∀ s c, Starts s 0x0301 c → fld (c.args.get 1) 11 0 = 0 →
    let mask := s.mem.readLe (c.args.get 0).toNat 64
    exec .dbgstop s = .next ((((List.finRange 512).filter fun (x : CoreId) => mask.testBit x.val).zipIdx.foldl (fun s x =>
      let s := s.modCore x.1 fun k => { k with dbgRec := some (c.args.get 1 + BitVec.ofNat 64 (4096 * x.2)) }
      let s := (s.host.running.filter fun r => r.op == 0x0302 && r.core == x.1).foldl (fun s r => s.cmdDone r 3) s
      if (s.core x.1).stopped.isSome && !(s.core x.1).stepping then s
      else s.modCore x.1 fun k => { k with stopReq := some (0, 0) }) (s.begun c)).cmdNote c mask)) ∧
  (∀ s c, GoesOn s 0x0301 c → (∀ x : CoreId, c.step.testBit x.val = true → (s.core x).halted = true) →
    exec .dbgstop s = .next (s.cmdDone c 0)) ∧
  (∀ s c t, Starts s 0x0303 c → (s.core c.core).claimed = true → (s.core c.core).stopped.isSome = true → (s.core c.core).stepping = false →
    (s.begun c).dbgResume c.core (c.args.get 1) = some t → exec .dbgresume s = .next (t.cmdDone c 0)) ∧
  (∀ s c, Starts s 0x0302 c → (s.core c.core).claimed = true → (s.core c.core).stopped.isSome = true →
    (s.core c.core).stepping = false → fld (c.args.get 2) 15 0 ≠ 0 →
    exec .dbgstep s = .next ((s.begun c).beginStep c.core (fld (c.args.get 1) 3 0) (fld (c.args.get 2) 15 0))) ∧
  (∀ s c, GoesOn s 0x0302 c → (s.core c.core).stepping = false → exec .dbgstep s = .next (s.cmdDone c 0)) ∧
  (∀ s c x l e t, Starts s 0x0304 c → s.cores.any (·.claimed) = true → fld (c.args.get 1) 5 0 = 0 → fld (c.args.get 1) 63 57 = 0 →
    NMap.get? s.ctxs ((c.args.get 0).setWidth 12 : BitVec 12).toNat = some x →
    walk (s.begun c) (tlbAgent 0 0) (c.args.get 1).toNat 4 (fld (x.blk.get 1) 39 12 * 4096) = (.leaf l e, t) →
    pteOwnH e = false → pteX e = true →
    let pa := pteAddr e / 2 ^ pageBits l * 2 ^ pageBits l + (c.args.get 1).toNat % 2 ^ pageBits l
    let line := BitVec.ofNat 512 (t.mem.readLe (c.args.get 2).toNat 64)
    let u := t.putBytes homeAgent pa (bytes512 line)
    exec .dbgpatch s = .next (({ u with
      cores := u.cores.map fun (k : Core) => (k.dropLines ((c.args.get 0).setWidth 12) (c.args.get 1).toNat 1).patchStore
        ((c.args.get 0).setWidth 12) (c.args.get 1).toNat line } : State).cmdDone c 0)) ∧
  (∀ s c, Starts s 0x0305 c →
    let w : Who := { c := c.core, b := ⟨fld (c.args.get 0) 9 9 % 2, by omega⟩ }
    let n := fld (c.args.get 1) 11 0
    0x300 ≤ n → n < 0x320 → csrAssigned n = true → csrLimit n (c.args.get 2) = true →
    exec .dbgregw s = .next (((s.begun c).modBank w (·.csrLand 0 n (c.args.get 2))).cmdDone c 0)) ∧
  (∀ s c, Starts s 0x0306 c → exec .ewtwrite s = .next (({ s.begun c with
    weights := NMap.put s.weights (fld (c.args.get 0) 11 0)
      (Vector.ofFn fun (i : Fin 32) => BitVec.ofNat 16 (s.mem.readLe ((c.args.get 1).toNat + 2 * i.val) 2)) } : State).cmdDone c 0)) ∧
  (∀ s c x, Starts s 0x0307 c → fld (c.args.get 1) 2 0 = 0 → fld (c.args.get 1) 63 57 = 0 →
    NMap.get? s.ctxs (fld (c.args.get 0) 11 0) = some x → exec .profblock s = .next (({ s.begun c with
      ctxs := NMap.put s.ctxs (fld (c.args.get 0) 11 0) { x with prof := c.args.get 1 } } : State).cmdDone c 0)) ∧
  (∀ s c, Starts s 0x0308 c → c.args.get 1 ≠ 0 → fld (c.args.get 1) 11 0 = 0 → c.args.get 2 ≠ 0 → (c.args.get 2).toNat ≤ 2 ^ 20 →
    let d : DieId := ⟨fld (c.args.get 0) 2 0 % 8, by omega⟩
    let t : Trace :=
      { on := true, base := c.args.get 1, size := (c.args.get 2).toNat, stopMode := (c.args.get 3).getLsbD 0
        kinds := BitVec.ofNat 15 (fld (c.args.get 3) 15 1) }
    exec .tracecfg s = .next (((s.begun c).modDie d fun x => { x with traceNext := some t }).cmdDone c 0)) ∧
  (∀ (x : Die) t, x.traceNext = some t → t.on = true → x.parCommit.trace = t ∧ x.parCommit.traceNext = none) ∧
  (∀ s c, Starts s 0x0309 c →
    let a := (s.begun c).fresh
    let b := a.2.fresh
    exec .peerskew s = .next (if Config.route ((c.args.get 0).setWidth 16) = 0 then (s.begun c).cmdDone c 4
      else (b.2.putBytes homeAgent (c.args.get 1).toNat (wordBytes [a.1, b.1])).cmdDone c 0))

/-- The power events complete (R401-R406): a clamp starts or stops, at once or with a deferred report; the hold-up bank falls below its
threshold; the input power fails; the steps of the loss sequence follow each other; its energy runs out; a module reset leaves every field
as at reset, but the retention store, the hold-up bank, and the firmware with its measurements, version numbers and fused minimum
(R405, R406), and the turns to come and the counter of free values, which are the model's own (log 1). -/
def Obligations.PowerEventsComplete : Prop :=
  (∀ d (cc tc : Bool) mhz s,
    let f : BitVec 16 := if !cc && !tc then 3600 else if mhz.toNat < 3600 then mhz else 3600
    let u := s.modDie d fun x => { x with cclamp := cc, tclamp := tc, mhz := f }
    ((s.die d).cclamp = cc ∧ (s.die d).tclamp = tc ∨ s.evWaiting < 4096) →
    exec (.clampChange d cc tc mhz) s = .next (if (s.die d).cclamp = cc ∧ (s.die d).tclamp = tc then u
      else if s.reportSoon d then u.modDie d fun x => { x with deferred := true }
      else u.powerReport d)) ∧
  (∀ d s, (s.die d).deferred = true → s.reportSoon d = false → s.evWaiting < 4096 →
    exec (.powerReportDeferred d) s = .next (s.powerReport d)) ∧
  (∀ j s, s.evWaiting < 4096 → j ≤ 3000 → exec (.holdupBankLow j) s = .next (
    if j < 2500 ∧ s.ckptArmed = true then ({ s with joules := j, ckptArmed := false } : State).event 0x000E [1]
    else { s with joules := j })) ∧
  (∀ s, s.loss = .none → exec .inputPowerLoss s = .next (
    if s.ckptArmed then { s with loss := .stopped, lossList := [], lossTime := s.time } else { s with off := true, draft := none })) ∧
  (∀ s, s.loss ≠ .none → exec .inputPowerLoss s = .next (
    if s.ckptArmed = false ∧ s.host.running.any (fun c => c.op == 0x0100) = true then { s with off := true, draft := none } else s)) ∧
  (∀ s, s.loss = .stopped → (∀ c b, ((s.core c).banks.get b).task = none) →
    exec .lossSaveTasks s = .next { s with loss := .saved }) ∧
  (∀ s, s.loss = .saved → s.atRest = true → exec .lossWriteBack s = .next { s with loss := .written }) ∧
  (∀ s, s.loss = .written → ∃ m, exec .lossStoreState s = .next { s with loss := .stored, draft := some m } ∧
    m.cores = s.cores ∧ m.clusters = s.clusters ∧ m.dies = s.dies ∧ m.ctxs = s.ctxs ∧ m.tickets = s.tickets ∧ m.acl = s.acl ∧
    m.host = s.host ∧ m.fenced = s.fenced ∧ m.worn = s.worn ∧ m.poison = s.poison ∧ m.time = s.lossTime ∧ m.now = s.now ∧
    m.nlost = s.lossList.length ∧ m.lost = s.lossList.take 120) ∧
  (∀ s, s.loss = .stored → exec .lossStoreHbm s = .next { s with
    loss := .hbm, draft := s.draft.map fun m => { m with mem := s.mem, digest := ({ m with mem := s.mem } : Image).hash } }) ∧
  (∀ s, s.loss = .hbm → exec .lossCommit s = .next { s with loss := .committed, image := s.draft, draft := none }) ∧
  (∀ s, s.loss = .committed → exec .lossOff s = .next { s with off := true }) ∧
  (∀ s, s.loss ≠ .none → s.loss ≠ .committed →
    exec .holdupBankExhausted s = .next { s with off := true, joules := 0, draft := none }) ∧
  (∀ s, ∃ t, exec .moduleReset s = .next t ∧
    t = { State.reset with
      agenda := s.agenda, choice := s.choice, image := s.image, joules := s.joules, booted := t.booted, mr := t.mr, svn := t.svn
      staged := t.staged, installed := t.installed, minSvn := t.minSvn } ∧
    (t.booted = false → t.staged = s.staged ∧ t.installed = s.installed ∧ t.minSvn = s.minSvn))

/-! ## Reset, steps, decoding -/

/-- At reset no task is resident, no core is active, stopped or claimed and no command is parked; no context, access entry, saved context,
ticket, open barrier or fenced unit exists; the host interface is off, with its registers and numbers at 0 and no command or event;
the links have all their lanes and no flit; the scheduler's parameters are 0, every die is FULL, and the reliability parameters are
their defaults. A task starts with the items named here at their reset values: C's s1 is the record's ARG, C starts at the record's
entry, `ptroot`, `tvec`, `tfbase`, `wsrange` and `spwin` are those of its context (R331), and none of the core's parked commands is its
own. That memory lists nothing is the model's choice (log 2). -/
def Obligations.ResetAndTaskStart : Prop :=
  (State.reset.mem = [] ∧ State.reset.ctxs = [] ∧ State.reset.acl = [] ∧ State.reset.saved = [] ∧ State.reset.tickets = [] ∧
    State.reset.bars = [] ∧ State.reset.fenced = [] ∧ State.reset.scrubMin = 1440 ∧ State.reset.rotMs = 2000 ∧
    State.reset.corrThreshold = 1 ∧
    (∀ h, h = State.reset.host → h.en = false ∧ h.cqbase = 0 ∧ h.cqlog = 0 ∧ h.eqbase = 0 ∧ h.eqlog = 0 ∧ h.stbase = 0 ∧ h.cqbell = 0 ∧ h.cmdacc = 0 ∧
      h.cmddone = 0 ∧ h.eviss = 0 ∧ h.evack = 0 ∧ h.cmds = [] ∧ h.running = [] ∧ h.events = []) ∧
    (∀ l, (State.reset.link l).lanes = 64 ∧ (State.reset.link l).buf = []) ∧
    (∀ c, (State.reset.core c).active = none ∧ (State.reset.core c).stopped = none ∧ (State.reset.core c).claimed = false ∧
      (State.reset.core c).parked = [] ∧ ∀ b, ((State.reset.core c).banks.get b).task = none) ∧
    (∀ d, (State.reset.die d).power = .full ∧ (State.reset.die d).drainth = 0 ∧ (State.reset.die d).killth = 0 ∧
      (State.reset.die d).steal = false ∧ (State.reset.die d).blevel = 0 ∧ (State.reset.die d).bmib = 0)) ∧
  (∀ (s : State) (w : Who) (r : Rec),
    let t := s.startTask w r
    let k := t.bank w
    (∀ q n, (k.seqs.get q).s.get n = if q = 0 ∧ n = 1 then r.w.get 6 else 0) ∧
    (∀ q n, (k.seqs.get q).l.get n = 0 ∧ (k.seqs.get q).frames.get n = { active := false, start := 0, stop := 0, count := 0 }) ∧
    (∀ q, (k.seqs.get q).waitRem = 0 ∧ (k.seqs.get q).pend = [] ∧ (k.seqs.get q).unc = false) ∧
    (k.seqs.get 0).pc = r.w.get 0 ∧ (k.seqs.get 0).started = true ∧ (∀ q, q ≠ 0 → (k.seqs.get q).started = false) ∧
    k.cfs = 0 ∧ (∀ p, k.xf.get p = 0) ∧ (∀ n i, (k.v.get n).get i = 0) ∧ (∀ n, k.m.get n = 0) ∧ k.maskReg 0 = BitVec.allOnes 1024 ∧
    (∀ n, k.z.get n = {}) ∧ k.plane = none ∧ k.shadow = none ∧ (∀ n, (k.q.get n).ents = []) ∧ (∀ n, (k.f.get n).v = 0) ∧
    (∀ n, k.fmt.get n = 0x22) ∧ (∀ n, (k.stream.get n).st = 0 ∧ (k.ostream.get n).st = 0) ∧ (∀ n, k.grp.get n = {}) ∧
    k.aecfg = none ∧ (∀ n, k.flog.get n = 0) ∧ k.flogidx = 0 ∧ k.fbase = 0 ∧ k.rsseed = 0 ∧ k.qmap = 0x07BB6666CB638241 ∧
    (∀ n, k.cwin.get n = 0) ∧ k.tpend = 0 ∧ k.savef = false ∧ k.level = false ∧ k.prcnt = 0 ∧
    k.frozen = false ∧ k.bar = none ∧ k.xpend = [] ∧ k.replay = [] ∧ k.fault = none ∧ k.blocked = false ∧ k.faults = [] ∧ k.pfinfo = 0 ∧
    k.iaddr = 0 ∧ k.iagent = 0 ∧ k.icause = 0 ∧ (∀ n, k.fseq.get n = 0 ∧ k.fcause.get n = 0) ∧
    (∀ n, k.wpa.get n = 0 ∧ k.wpc.get n = 0) ∧ (∀ n, k.pmc.get n = 0 ∧ k.pmsel.get n = 0) ∧ k.energy = 0 ∧
    (∀ x, NMap.get? s.ctxs (recCtx r.w) = some x → k.ptroot = x.blk.get 1 ∧ k.tvec = x.blk.get 2 ∧
      k.tfbase = x.blk.get 3 + BitVec.ofNat 64 (4096 * (2 * w.c.val + w.b.val)) ∧ k.wsrange = x.blk.get 6 ∧ k.spwin = x.blk.get 7) ∧
    ((∀ p, p ∈ (s.core w.c).parked → p.who.t ≤ s.serial) → ∀ p, p ∈ (t.core w.c).parked → t.ours w p.who = false))

/-- Memory lists nothing after reset, so it has its canonical form. The form is the model's own (log 2). -/
def Obligations.ResetHasMemoryForm : Prop := State.reset.memInv

/-- Every step keeps memory in its canonical form: addresses strictly rising, and no entry equal to what an unlisted address reads as,
in memory and in the images of it that a checkpoint on loss keeps. The form is the model's own (log 2). -/
def Obligations.StepKeepsMemoryForm : Prop := ∀ s t, s.memInv → step s = .next t → t.memInv

/-- Every instruction and event ends in a next state; a step faults only because the module is off, and never refuses. That turns are
taken one by one is the model's own (log 1). -/
def Obligations.EveryTurnAnswers : Prop :=
  (∀ i s, Safe (exec i s)) ∧ ∀ s, Safe (step s) ∨ (step s = .fault .moduleOff ∧ s.off = true)

/-- A step runs the decoded instruction: on the turn of a sequencer that may issue, with no imprecise trap to take and no slot of a
`wait` to pass, whose line passes the fetch checks and decodes to i at its PC, step is exec of i, and so it is for an instruction that
goes on from the line that it has kept (R83); on the turn of an event, exec of it;
a cycle, a host store and a host read pass as themselves; and with no turn on the agenda an open choice is taken as such a turn, that
of a sequencer as the turn of the whole cycle. The agenda, and a cycle as one turn, are the model's own (log 1, log 9). -/
def Obligations.StepRunsDecoded : Prop :=
  (∀ (s : State) (c : CoreId) (b : Fin 2) (q : Fin 4) (ts : List Turn),
    let w : Who := ⟨c, b, q, 0⟩
    let u : State := { s with agenda := ts, cur := w }
    s.off = false → s.agenda = .seq c b q :: ts → u.mayIssue w = true → (u.bank w).imprecisePending = false →
    (q ≠ 2 ∨ (u.sq w).waitRem = 0) →
    (∀ l v i, (u.bank w).heldLine q = none → Runs (fetchCheck (u.sq w).pc) u l v →
      decodeWord (lineWord l (pcWord (v.sq w).pc))
        (if wLong (lineWord l (pcWord (v.sq w).pc)) then some (lineWord l (pcWord (v.sq w).pc + 1)) else none) = .ok i →
      step s = exec i v) ∧
    (∀ l i, (u.bank w).heldLine q = some l →
      decodeWord (lineWord l (pcWord (u.sq w).pc))
        (if wLong (lineWord l (pcWord (u.sq w).pc)) then some (lineWord l (pcWord (u.sq w).pc + 1)) else none) = .ok i →
      step s = exec i u)) ∧
  (∀ s i ts, s.off = false → s.agenda = .act i :: ts → isEvent i = true → step s = exec i { s with agenda := ts }) ∧
  (∀ s ts, s.off = false → s.agenda = .tick :: ts → step s = .next ({ s with agenda := ts } : State).tick) ∧
  (∀ s h pa bs ts, s.off = false → s.agenda = .hostStore h pa bs :: ts →
    step s = .next (({ s with agenda := ts } : State).hostStore h pa bs)) ∧
  (∀ s o ts, s.off = false → s.agenda = .hostRead o :: ts → step s = .next (({ s with agenda := ts } : State).hostRead o)) ∧
  (∀ s, s.off = false → s.agenda = [] →
    let u : State := { s with choice := s.choice + 1 }
    step s = match Config.nextTurn s.choice with
      | .tick => .next u.tick
      | .seq _ _ _ => .next u.tick
      | .hostStore h pa bs => .next (u.hostStore h pa bs)
      | .hostRead o => .next (u.hostRead o)
      | .act i => if isEvent i = true then exec i u else .next u)

/-- Words written out from the encodings of the spec decode to their instructions (R77, R84, R86, R91 and the examples of the
entries): `add s3, s1, s2`; `addi s4, s4, -1`; `csel s5, s1, s2`; `ld64 s3, 16(s2)`; `ld64.acq.clu.c s4, 256(s5)`; `amoadd s5, s2,
s3`; `stword q6, s2, 4`. -/
def Obligations.WordsDecode : Prop :=
  decodeTableWord 32 0x02003042 = some (.add { d := 3, a := 1, b := 2 }) ∧
  decodeTableWord 32 0x040209FF = some (.addi { d := 4, a := 4, imm := 0x1FF }) ∧
  decodeTableWord 32 0x0A185042 = some (.csel { d := 5, a := 1, b := 2 }) ∧
  decodeTableWord 32 0x20618410 = some (.ld64 { d := 3, a := 2, imm := 16 }) ∧
  decodeTableWord 64 0x3800010021620A00 = some (.ld64 { d := 4, a := 5, e := some 0x38000100 }) ∧
  decodeTableWord 32 0x24005083 = some (.amoadd { d := 5, a := 2, b := 3 }) ∧
  decodeTableWord 32 0xA0160803 = some (.stword { q := 6, a := 2, f := 3 })

/-- Decoding and encoding agree, for every instruction of the opcode table that has a word: a well-formed instruction decodes from its
bytes, whatever follows them, and what a word and its extension decode to encodes to the same two words. -/
def Obligations.DecodeEncode : Prop :=
  (∀ i rest, i.wf = true → (encodeWord i).isSome = true → decode (encodeBytes i ++ rest) = .ok (i, rest)) ∧
  (∀ w e i, e.isSome = wLong w → decodeWord w e = .ok i → encodeWord i = some w ∧ i.ext = e)

/-! ## What instructions do -/

/-- The checks of R90 come in their order before anything else: an ill-formed instruction raises IllegalInstruction, one outside its
home set NotThisSequencer, and a privileged one at level 0 Privileged. Where an instruction has limits on run-time operands, which
come with the first of them (R117, R119), it may raise IllegalInstruction in place of the other two. -/
def Obligations.ChecksInOrder : Prop :=
  ∀ i s, isEvent i = false → (∀ w, i ≠ .illegalInstruction w) →
    (i.wf = false → exec i s = .next (s.stopped (.trap { cause := 0x01 }))) ∧
    (i.wf = true → i.home.contains s.cur.q = false →
      (hasLimits i = true ∧ ∃ t, t.cause = 0x01 ∧ exec i s = .next (s.stopped (.trap t))) ∨
        exec i s = .next (s.stopped (.trap { cause := 0x02 }))) ∧
    (i.wf = true → i.home.contains s.cur.q = true → isPrivileged i = true → (s.bank s.cur).level = false →
      (hasLimits i = true ∧ ∃ t, t.cause = 0x01 ∧ exec i s = .next (s.stopped (.trap t))) ∨
        exec i s = .next (s.stopped (.trap { cause := 0x07 })))

/-- The results of the integer instructions (R106, R107, R109), of `li` and `lcat` (R108) and of `csel` where its condition holds (R109). -/
def Obligations.IntegerValues : Prop :=
  ∀ (f : RRR) (x y z : W64),
    scalarVal (.add f) x y z = x + y ∧ scalarVal (.sub f) x y z = x - y ∧ scalarVal (.and f) x y z = x &&& y ∧
    scalarVal (.or f) x y z = x ||| y ∧ scalarVal (.xor f) x y z = x ^^^ y ∧
    (∀ n, (scalarVal (.shl f) x y z).getLsbD n = (decide (n < 64) && decide (y.toNat % 64 ≤ n) && x.getLsbD (n - y.toNat % 64))) ∧
    (∀ n, (scalarVal (.shr f) x y z).getLsbD n = x.getLsbD (n + y.toNat % 64)) ∧
    (scalarVal (.sra f) x y z).toInt = x.toInt / 2 ^ (y.toNat % 64) ∧
    (scalarVal (.mul f) x y z).toNat = x.toNat * y.toNat % 2 ^ 64 ∧
    (scalarVal (.mulh f) x y z).toInt = x.toInt * y.toInt / 2 ^ 64 ∧
    (scalarVal (.min f) x y z).toInt = min x.toInt y.toInt ∧ (scalarVal (.max f) x y z).toInt = max x.toInt y.toInt ∧
    (y = 0 → scalarVal (.div f) x y z = BitVec.allOnes 64) ∧
    (y ≠ 0 → ¬(x = BitVec.intMin 64 ∧ y = -1) → (scalarVal (.div f) x y z).toInt = x.toInt.tdiv y.toInt) ∧
    (x = BitVec.intMin 64 → y = -1 → scalarVal (.div f) x y z = BitVec.intMin 64) ∧
    (scalarVal (.seq f) x y z = if x = y then 1 else 0) ∧ (scalarVal (.sne f) x y z = if x = y then 0 else 1) ∧
    (scalarVal (.slt f) x y z = if x.toInt < y.toInt then 1 else 0) ∧
    (scalarVal (.sltu f) x y z = if x.toNat < y.toNat then 1 else 0) ∧
    (scalarVal (.sle f) x y z = if x.toInt ≤ y.toInt then 1 else 0) ∧
    (scalarVal (.sleu f) x y z = if x.toNat ≤ y.toNat then 1 else 0) ∧
    (∀ n, (scalarVal (.clz f) x y z).toNat = n ↔
      n ≤ 64 ∧ (∀ k, k < n → x.getLsbD (63 - k) = false) ∧ (n < 64 → x.getLsbD (63 - n) = true)) ∧
    (∀ n, (scalarVal (.ctz f) x y z).toNat = n ↔ n ≤ 64 ∧ (∀ k, k < n → x.getLsbD k = false) ∧ (n < 64 → x.getLsbD n = true)) ∧
    (scalarVal (.popc f) x y z).toNat = ((List.range 64).filter fun n => x.getLsbD n).length ∧
    scalarVal (.csel f) x y z = y ∧
    (∀ g : RRI, scalarVal (.addi g) x y z = x + y ∧ scalarVal (.andi g) x y z = x &&& y ∧ scalarVal (.ori g) x y z = x ||| y ∧
      scalarVal (.xori g) x y z = x ^^^ y ∧
      (∀ n, (scalarVal (.shli g) x y z).getLsbD n =
        (decide (n < 64) && decide (y.toNat % 64 ≤ n) && x.getLsbD (n - y.toNat % 64))) ∧
      (∀ n, (scalarVal (.shri g) x y z).getLsbD n = x.getLsbD (n + y.toNat % 64)) ∧
      (scalarVal (.srai g) x y z).toInt = x.toInt / 2 ^ (y.toNat % 64) ∧
      (scalarVal (.muli g) x y z).toNat = x.toNat * y.toNat % 2 ^ 64) ∧
    (∀ g : RI, scalarVal (.li g) x y z = y ∧
      (∀ n, (scalarVal (.lcat g) x y z).getLsbD n =
        (decide (n < 64) && decide (18 ≤ n) && z.getLsbD (n - 18) || y.getLsbD n)))

/-- Each sequencer has its own s0 to s31: a landing write changes its own register alone, a write of s0 nothing, and s0 reads zero. A
floating instruction of C takes only bits [31:0] of its FP32 sources: sources that agree there leave one result and the same flags. It
clears bits [63:32] of its FP32 result. -/
def Obligations.ScalarRegisters : Prop :=
  (∀ (s : State) (w : Who) (v : W64), s.landDst w .drop v = s ∧ (s.landDst w (.s 0) v).sq w = s.sq w) ∧
  (∀ (f : BitVec 6) (s : State), f.toNat = 0 → Runs (destOf f) s .drop s) ∧
  (∀ (win : W64) (s : State), Runs (readField win 0) s 0 s) ∧
  (∀ (win : W64) (f : BitVec 6) (s : State), 0 < f.toNat → f.toNat < 32 → Runs (readField win f) s ((s.sq s.cur).s.get (fS f)) s) ∧
  (∀ (s : State) (w : Who) (n : Fin 32) (v : W64), n ≠ 0 →
    let t := s.landDst w (.s n) v
    (t.sq w).s.get n = v ∧ (∀ m, m ≠ n → (t.sq w).s.get m = (s.sq w).s.get m) ∧
    (∀ x : Who, (x.c, x.b, x.q) ≠ (w.c, w.b, w.q) → t.sq x = s.sq x)) ∧
  (∀ i f lat op s x y x' y' s1 d s2 t, shapeFp i = some (f, lat, op) → Enters i s = true → Runs (sourcesAB f) s (x, y) s1 →
    (∀ n, n < 32 → x.getLsbD n = x'.getLsbD n) → (∀ n, n < 32 → y.getLsbD n = y'.getLsbD n) →
    Runs (destOf f.d) (s1.modBank s1.cur fun k => { k with cfs := k.cfs ||| (op (lo32 x') (lo32 y')).2 }) d s2 →
    Follows i .next (s2.pended d (op (lo32 x') (lo32 y')).1 lat) t → exec i s = .next (t.done .next)) ∧
  (∀ f s x y z x' y' z' s1 d s2 t, Enters (.fmad f) s = true → wideImm f.e [f.a, f.b, f.d] = none →
    Runs (sources f.e [f.a, f.b, f.d] [f.d]) s [x, y, z] s1 → (∀ n, n < 32 → x.getLsbD n = x'.getLsbD n) →
    (∀ n, n < 32 → y.getLsbD n = y'.getLsbD n) → (∀ n, n < 32 → z.getLsbD n = z'.getLsbD n) →
    let r := ffma32 (lo32 x') (lo32 y') (lo32 z')
    Runs (destOf f.d) (s1.modBank s1.cur fun k => { k with cfs := k.cfs ||| r.2 }) d s2 →
    Follows (.fmad f) .next (s2.pended d (r.1.setWidth 64) 5) t → exec (.fmad f) s = .next (t.done .next)) ∧
  (∀ f s x x' s1 d s2 t, Enters (.ftoi f) s = true → f.b ≠ 3 → Runs (sources f.e [f.a] [f.d]) s [x] s1 →
    (∀ n, n < 32 → x.getLsbD n = x'.getLsbD n) →
    let v := ftoi32 (lo32 x') (RMode.ofCode f.b.toNat) 0
    Runs (destOf f.d) (s1.modBank s1.cur fun k => { k with cfs := k.cfs ||| v.2 }) d s2 →
    Follows (.ftoi f) .next (s2.pended d v.1 3) t → exec (.ftoi f) s = .next (t.done .next)) ∧
  (∀ i f lat op x y, shapeFp i = some (f, lat, op) → ((op x y).1).toNat < 2 ^ 32) ∧
  (∀ (x : W64) m rho, (itof64 x m rho).1.toNat < 2 ^ 32)

/-- C, A and S interlock: while a write of a register that a source names is pending, the sources are not read; on X they are. -/
def Obligations.Interlock : Prop :=
  (∀ (e : Option W32) (srcs dsts : List (BitVec 6)) (s : State) (f : BitVec 6), s.cur.q ≠ 2 → f ∈ srcs →
    (s.sq s.cur).pends f = true → ¬∃ vs t, Runs (sources e srcs dsts) s vs t) ∧
  (∀ (f : BitVec 6) (s : State), (s.cur.q = 2 ∨ (s.sq s.cur).pends f = false) → Runs (interlock f) s () s) ∧
  (∀ (f : BitVec 6) (s : State), s.cur.q ≠ 2 → (s.sq s.cur).pends f = true → StateT.run (interlock f) s = .error (.hold 9 0 false)) ∧
  (∀ (s : State) (w : Who), (s.sq w).pend = [] → s.landFirst w = s) ∧
  (∀ (s : State) (w : Who) (p : PendW) (ps : List PendW), (s.sq w).pend = p :: ps →
    s.landFirst w = (s.modSeq w fun q => { q with pend := ps }).landDst w p.dst p.v)

/-- Within one cycle a queue applies its pops before its pushes: a pop sees the entries of the start of the cycle, the slot that it
frees takes a push, and an entry pushed is visible from the next cycle. -/
def Obligations.QueueCycle : Prop :=
  (∀ (q : Queue) v now, (q.pushWord v now).ready now = q.ready now) ∧
  (∀ (q : Queue) r now, (q.pushRow r now).ready now = q.ready now) ∧
  (∀ (q : Queue) v now t, now < t → q.ready t = q.ents.length → (q.pushWord v now).ready t = q.ents.length + 1) ∧
  (∀ (q : Queue) v now, q.ents.length = queueCap → ((q.drop 1).pushWord v now).full = true) ∧
  (∀ (q : Queue) n, 0 < n → q.ents.length ≤ queueCap → q.ents ≠ [] → (q.drop n).full = false) ∧
  (∀ (s : State) (n : Fin 16), (s.queue s.cur n).ready s.now = 0 → StateT.run (popWord n) s = .error (.hold 2 n.val false)) ∧
  (∀ (s : State) (n : Fin 16), 0 < (s.queue s.cur n).ready s.now →
    Runs (popWord n) s (headWord (s.queue s.cur n).ents) (s.modQ s.cur n (·.drop 1))) ∧
  (∀ (s : State) (n : Fin 16), (s.queue s.cur n).full = true → StateT.run (reserve n 1) s = .error (.hold 3 n.val false))

/-- A FENCE at scope t joins the agent's view with PA_t and with the index of the last write to each word by a writer whose level is
at most t, and REL becomes that view at t (R271). `efence` is a FENCE at `.core`, or takes the trap of a pending error, the error
cleared (R124). That a sequencer's REL holds its own interval besides (R266, R275) is the model's reading (log 30). -/
def Obligations.FencesJoinViews : Prop :=
  (∀ (s : State) (a t : Nat) (h : t < 5),
    let g := s.agent a
    let g' := (s.fence a t).agent a
    g'.view = (g.view.join (g.pa.get ⟨t, h⟩)).join { fl := s.latest a t } ∧ g'.rel = some (g'.view, t) ∧
    g'.sb = g.sb ∧ g'.pa = g.pa ∧ (∀ b, b ≠ a → NMap.wf s.agents = true → (s.fence a t).agent b = s.agent b) ∧
    (NMap.wf s.hist = true → ∀ w h, NMap.get? s.hist w = some h →
      NMap.get? (s.latest a t) w = ((h.ws.findIdx? fun r => level a r.writer ≤ t).map fun i => h.ws.length - i))) ∧
  (∀ (f : RRR) (s u : State), Enters (.efence f) s = true → s.quietSeq s.cur = true → (s.sq s.cur).unc = false →
    let z := s.fence s.cur.agent 0
    Follows (.efence f) .next (z.modAgent s.cur.agent fun g => { g with rel := some (z.ownView s.cur, 0) }) u →
    exec (.efence f) s = .next (u.done .next)) ∧
  (∀ (f : RRR) (s : State), Enters (.efence f) s = true → s.quietSeq s.cur = true → (s.sq s.cur).unc = true →
    exec (.efence f) s = .next (s.stopped (.trap { cause := cUncorr, clears := [s.cur.q] })))

/-- A load takes a value at or above its floor (R270): unless the agent's own writes not yet applied supply every byte, it reads the
write of some index from the floor of the word to the last, with its own writes laid over it, and the floor rises to that index. How
own writes lie over a partly covered word is the model's reading (log 11). -/
def Obligations.LoadsKeepTheirFloor : Prop :=
  ∀ (s : State) (a w : Nat) (m : Byte) (acq : Option Nat),
    let own := (s.mine a).filterMap fun e => e.parts.find? (·.word == w)
    let lay (v : W64) : W64 := own.foldl (fun v p => overlay v p.mask p.data) v
    let r := s.load a w m acq
    (m &&& ~~~ (own.foldl (fun c p => c ||| p.mask) 0) = 0 → r = (lay 0, s)) ∧
    (m &&& ~~~ (own.foldl (fun c p => c ||| p.mask) 0) ≠ 0 → (s.agent a).view.floor w ≤ s.lastIdx w →
      ∃ i, (s.agent a).view.floor w ≤ i ∧ i ≤ s.lastIdx w ∧ r.1 = lay (s.nth w i).1 ∧ r.2.mem = s.mem ∧ r.2.hist = s.hist ∧
        (0 < i → (∀ x, (s.nth w i).2 = some x → x.parts = []) → (r.2.agent a).view.floor w = i))

/-- Applying a write changes exactly its bytes (R268): each masked byte of its parts takes their data, and every other byte of memory
reads as before. -/
def Obligations.ApplyWritesItsBytes : Prop :=
  ∀ (s : State) (k : Nat) (e : WEnt), s.mem.wf = true → s.flight[k]? = some e → (e.parts.map (·.word)).Nodup →
    let t := s.applyAt k
    t.flight = s.flight.eraseIdx k ∧
    (∀ p, p ∈ e.parts → ∀ j, j < 8 → p.mask.getLsbD j = true → t.mem.read (8 * p.word + j) = p.data.extractLsb' (8 * j) 8) ∧
    (∀ a, (∀ p, p ∈ e.parts → p.word = a / 8 → p.mask.getLsbD (a % 8) = false) → t.mem.read a = s.mem.read a)

/-- The frame of the integer instructions of two sources, of an immediate and of one source (R106, R107, R109): with the result on its
way to d, only the issuing sequencer, the queues it names and its core's pipelines change. -/
def Obligations.ScalarFrames : Prop :=
  (∀ (i : Instr) (f : RRR) (lat : Nat) (s : State) (x y : W64) (s1 : State) (d : Dst) (u v : State), shapeAB i = some (f, lat) →
    Enters i s = true → Runs (sourcesAB f) s (x, y) s1 → s1.cur.q ≠ 2 →
    Runs (destOf f.d) s1 d u → Follows i .next (u.pended d (scalarVal i x y 0) lat) v → ScalarFrame s (v.done .next)) ∧
  (∀ (i : Instr) (f : RRR) (lat : Nat) (s : State) (x y : W64) (s1 : State) (r : Nat × Nat × Fin 16) (u v : State),
    shapeAB i = some (f, lat) → Enters i s = true → Runs (sourcesAB f) s (x, y) s1 → s1.cur.q = 2 →
    Runs (reserveX [f.d]) s1 r u → Follows i .next (u.exposed
      { i := i, due := lat, sv0 := x, sv1 := y, sv2 := 0, rid := r.1, nres := r.2.1, q := r.2.2 } (fieldFile f.d)) v →
    ScalarFrame s (v.done .next)) ∧
  (∀ (i : Instr) (f : RRI) (lat : Nat) (s : State) (vs : List W64) (s1 : State) (d : Dst) (u v : State) (y : W64),
    shapeImm i = some (f, lat) → Enters i s = true → Runs (sources f.e [f.a] [f.d]) s vs s1 →
    s1.cur.q ≠ 2 → Runs (destOf f.d) s1 d u → Follows i .next (u.pended d y) v → ScalarFrame s (v.done .next)) ∧
  (∀ (i : Instr) (f : RRR) (s : State) (vs : List W64) (s1 : State) (d : Dst) (u v : State) (y : W64), shapeUn i = some f →
    Enters i s = true → Runs (sources f.e [f.a] [f.d]) s vs s1 → s1.cur.q ≠ 2 →
    Runs (destOf f.d) s1 d u → Follows i .next (u.pended d y) v → ScalarFrame s (v.done .next))

/-- The frame of loads, stores and atomics (R121-R123). A plain load changes no byte of memory. A store changes none either: its bytes, at
the location of its address, stand in the store buffer as a new last entry, or merged into the youngest entry of their word. An
atomic changes no byte but those at the location of its address. -/
def Obligations.MemoryFrames : Prop :=
  (∀ ea n acq s v t, Runs (loadEa ea n false acq) s v t → t.mem = s.mem ∧ t.hist = s.hist ∧ t.flight = s.flight) ∧
  (∀ ea n v rel s l s1 t, Runs (locate ea n 1) s l s1 → Runs (storeEa ea n v rel) s () t →
    t.mem = s.mem ∧ t.hist = s.hist ∧ t.flight = s.flight ∧
    let p : WPart := { word := l / 8, mask := byteMask (l % 8) n, data := BitVec.ofNat 64 (v.toNat * 2 ^ (8 * (l % 8))) }
    let old := (s1.agent s.cur.agent).sb
    let new := (t.agent s.cur.agent).sb
    (∃ e, new = old ++ [e] ∧ e.parts = [p] ∧ e.agent = s.cur.agent ∧ (e.rel = true ↔ rel.isSome = true)) ∨
    (rel = none ∧ ∃ i x q, old[i]? = some x ∧ x.parts = [q] ∧ q.word = l / 8 ∧
      (∀ j y, i < j → old[j]? = some y → ∀ z, z ∈ y.parts → z.word ≠ l / 8) ∧
      new = old.set i { x with parts := [{ q with mask := q.mask ||| p.mask, data := overlay q.data p.mask p.data }] })) ∧
  (∀ l n ea f acq rel s v t, s.mem.wf = true → 0 < n → l % 8 + n ≤ 8 → Runs (atomicFar l n ea f acq rel) s v t →
    ∀ a, (a < l ∨ l + n ≤ a) → t.mem.read a = s.mem.read a) ∧
  (∀ l n ea f acq rel s v t, s.mem.wf = true → 0 < n → l % 8 + n ≤ 8 → s.reach (dieOf s.cur.c) (homeDie l) = true →
    s.poisoned l n = false → Runs (atomicFar l n ea f acq rel) s v t →
    v.toNat = s.mem.readLe l n ∧ t.mem.readLe l n = (f v).toNat % 2 ^ (8 * n))

/-- The lane operations of two tiles land their results (R166, R167): each lane of the predicate takes its result and raises its flags in
xf, the other lanes and the other registers keep theirs. -/
def Obligations.VectorLanding : Prop :=
  ∀ (i : Instr) (f : FV) (g : W32 → W32 → W32 × Flags) (s : State) (w : Who) (e : XEnt) (x y : Tile), shapeLane2 i = some (f, g) →
  e.i = i → e.caps = [.tile x, .tile y] →
    let t := s.landX w e
    (∀ n : Fin 1024, ((t.bank w).tile f.d).get n =
      if e.pred.getLsbD n then (g (x.get n) (y.get n)).1 else ((s.bank w).tile f.d).get n) ∧
    (∀ (p : Fin 5) (n : Fin 1024), ((t.bank w).xf.get p).getLsbD n =
      (((s.bank w).xf.get p).getLsbD n || (e.pred.getLsbD n && (g (x.get n) (y.get n)).2.getLsbD p))) ∧
    (∀ r, r ≠ f.d → (t.bank w).tile r = (s.bank w).tile r) ∧ (t.bank w).m = (s.bank w).m ∧ (t.bank w).seqs = (s.bank w).seqs ∧
    t.mem = s.mem

/-- X's exposed latency (R97): an entry with n slots to pass keeps its destination as it was through each of them and lands at the end of
the last; of two with one due slot, the later issued lands last. -/
def Obligations.ExposedLatency : Prop :=
  (∀ (s : State) (w : Who) (e : XEnt) (n : Nat), 1 < n → (s.bank w).xpend = [{ e with due := n }] →
    s.xSlot w = s.modBank w fun k => { k with xpend := [{ e with due := n - 1 }], slots := k.slots + 1 }) ∧
  (∀ (s : State) (w : Who) (e : XEnt), (s.bank w).xpend = [{ e with due := 1 }] →
    s.xSlot w = (s.modBank w fun k => { k with xpend := [], slots := k.slots + 1 }).landX w { e with due := 0 }) ∧
  (∀ (s : State) (w : Who) (e e' : XEnt), e.clears = false → e'.clears = false →
    (s.bank w).xpend = [{ e with due := 1 }, { e' with due := 1 }] →
    s.xSlot w = ((s.modBank w fun k => { k with xpend := [], slots := k.slots + 1 }).landX w { e with due := 0 }).landX w
      { e' with due := 0 })

/-- Taking a trap (R321-R325). At level 0, where the core does not stop in its place and with no translation fault, the bank freezes, its 288-word
frame goes to `tfbase`, s1 becomes `tfbase` and s2 INFO, the level 1, and C goes to `tvec`. At level 1 the task is killed with
TrapNested. The frame begins with the four PCs, INFO, the address, `tpend` with the slots that X's `wait` has left, the
correlation and record numbers, and C's s0 to s31; `cfs` is word 58, and the composite fault record words 64 to 95. -/
def Obligations.TrapEntry : Prop :=
  (∀ (s : State) (w : Who) (t : TrapInfo) (prec : Bool) (pa : Nat) (dup : Bool) (v : State),
    ((s.core w.c).claimed = false ∨ t.cause ∉ [cBreak, cStep, cWatch]) → (s.core w.c).stepping = false → (s.bank w).level = false →
    t.pf = none →
    let u := s.trace w 5 (s.sq w).pc (t.cause.setWidth 64)
    let comp := u.composite w (if prec then [w.q] else []) (u.bank w).token
    let z := (u.freeze w).modBank w fun k => { k with comp := comp }
    let k := z.bank w
    let info := infoWord t.cause (if prec then w.q else 0) t.sw prec t.tag k.replay.length k.bar.isSome
    z.translate w.c 0 k.ctx k.ptroot k.tfbase.toNat 1 0 = (.ok (pa, dup), v) → v.poisoned pa 2304 = false →
    let r := s.takeTrap w t prec
    r = (v.putWords (w.seq 0).agent pa (z.frameWords w info t.addr comp)).modBank w (·.enter info) ∧
    (r.bank w).level = true ∧ (r.bank w).frozen = true ∧ ((r.bank w).seqs.get 0).pc = k.tvec ∧
    ((r.bank w).seqs.get 0).s.get 1 = k.tfbase ∧ ((r.bank w).seqs.get 0).s.get 2 = info) ∧
  (∀ (s : State) (w : Who) (t : TrapInfo) (prec : Bool),
    ((s.core w.c).claimed = false ∨ t.cause ∉ [cBreak, cStep, cWatch]) → (s.core w.c).stepping = false → (s.bank w).level = true →
    s.takeTrap w t prec =
      (s.beginKill w false).event 0x0005 [(s.bank w).tfbase, t.cause.setWidth 64, t.fetch.getD (s.sq w).pc, 0]) ∧
  (∀ (s : State) (w : Who) (info addr : W64) (comp : List W64), comp.length = 32 →
    let k := s.bank w
    let c := k.seqs.get 0
    let ws := s.frameWords w info addr comp
    ws.length = 288 ∧ (∀ q : Fin 4, ws[q.val]? = some (if (k.seqs.get q).started then (k.seqs.get q).pc else 0)) ∧
    ws[4]? = some info ∧ ws[5]? = some addr ∧
    ws[6]? = some (BitVec.ofNat 64 (k.tpend.toNat * 2 ^ 32 + (k.seqs.get 2).waitRem.toNat)) ∧
    ws[7]? = some (BitVec.ofNat 64 (k.corr.toNat * 2 ^ 32 + k.recid.toNat)) ∧
    (∀ n : Fin 32, ws[8 + n.val]? = some (if n = 0 then 0 else c.s.get n)) ∧ ws[58]? = some (k.cfs.setWidth 64) ∧
    (∀ n, n < 32 → ws[64 + n]? = comp[n]?))
end

