-- ==== Sys2Proof/Laws/Encoding.lean ====
section
/-! SUPPORT. The instruction forms: the bits of an encoded word, and what decoding its fields gives back (R84). -/
namespace Sys2Proof

theorem lbit_getLsbD (e : Option W32) : (lbit e).getLsbD 0 = e.isSome := by
  cases e <;> simp [lbit]

/-! ## RRR -/

theorem RRR.enc_bit (maj : BitVec 7) (fn : BitVec 6) (f : RRR) (n : Nat) : (f.enc maj fn).getLsbD n =
      if n < 6 then f.b.getLsbD n else if n - 6 < 6 then f.a.getLsbD (n - 6) else if n - 6 - 6 < 6 then
      f.d.getLsbD (n - 6 - 6) else if n - 6 - 6 - 6 < 6 then fn.getLsbD (n - 6 - 6 - 6) else if n - 6 - 6 - 6
      - 6 < 1 then (lbit f.e).getLsbD (n - 6 - 6 - 6 - 6) else maj.getLsbD (n - 6 - 6 - 6 - 6 - 1) := by
  unfold RRR.enc
  change BitVec.getLsbD (w := 7 + 1 + 6 + 6 + 6 + 6) (maj ++ lbit f.e ++ fn ++ f.d ++ f.a ++ f.b) n = _
  simp only [BitVec.getLsbD_append]

theorem RRR.enc_maj (maj : BitVec 7) (fn : BitVec 6) (f : RRR) : wMaj (f.enc maj fn) = maj := by
  apply BitVec.eq_of_getLsbD_eq
  intro i hi
  unfold wMaj
  rw [BitVec.getLsbD_extractLsb', RRR.enc_bit]
  simp only [hi, decide_true, Bool.true_and]
  iterate 5 rw [if_neg (by omega)]
  congr 1
  omega

theorem RRR.enc_long (maj : BitVec 7) (fn : BitVec 6) (f : RRR) : wLong (f.enc maj fn) = f.e.isSome := by
  unfold wLong
  rw [← lbit_getLsbD, RRR.enc_bit]
  iterate 4 rw [if_neg (by omega)]
  rw [if_pos (by omega)]

theorem RRR.enc_fn (maj : BitVec 7) (fn : BitVec 6) (f : RRR) : (f.enc maj fn).extractLsb' 18 6 = fn := by
  apply BitVec.eq_of_getLsbD_eq
  intro i hi
  rw [BitVec.getLsbD_extractLsb', RRR.enc_bit]
  simp only [hi, decide_true, Bool.true_and]
  iterate 3 rw [if_neg (by omega)]
  rw [if_pos (by omega)]
  congr 1
  omega

theorem RRR.enc_b (maj : BitVec 7) (fn : BitVec 6) (f : RRR) : (f.enc maj fn).extractLsb' 0 6 = f.b := by
  apply BitVec.eq_of_getLsbD_eq
  intro i hi
  rw [BitVec.getLsbD_extractLsb', RRR.enc_bit]
  simp only [hi, decide_true, Bool.true_and]
  rw [if_pos (by omega)]
  congr 1
  omega

theorem RRR.enc_a (maj : BitVec 7) (fn : BitVec 6) (f : RRR) : (f.enc maj fn).extractLsb' 6 6 = f.a := by
  apply BitVec.eq_of_getLsbD_eq
  intro i hi
  rw [BitVec.getLsbD_extractLsb', RRR.enc_bit]
  simp only [hi, decide_true, Bool.true_and]
  rw [if_neg (by omega), if_pos (by omega)]
  congr 1
  omega

theorem RRR.enc_d (maj : BitVec 7) (fn : BitVec 6) (f : RRR) : (f.enc maj fn).extractLsb' 12 6 = f.d := by
  apply BitVec.eq_of_getLsbD_eq
  intro i hi
  rw [BitVec.getLsbD_extractLsb', RRR.enc_bit]
  simp only [hi, decide_true, Bool.true_and]
  rw [if_neg (by omega), if_neg (by omega), if_pos (by omega)]
  congr 1
  omega

/-- Decoding an encoded RRR word gives its fields back. -/
theorem RRR.dec_enc (maj : BitVec 7) (fn : BitVec 6) (f : RRR) : RRR.dec (f.enc maj fn) f.e = f := by
  unfold RRR.dec
  rw [RRR.enc_d, RRR.enc_a, RRR.enc_b]

/-! ## RRI -/

theorem RRI.enc_bit (maj : BitVec 7) (fn : BitVec 3) (f : RRI) (n : Nat) : (f.enc maj fn).getLsbD n =
      if n < 9 then f.imm.getLsbD n else if n - 9 < 6 then f.a.getLsbD (n - 9) else if n - 9 - 6 < 6 then
      f.d.getLsbD (n - 9 - 6) else if n - 9 - 6 - 6 < 3 then fn.getLsbD (n - 9 - 6 - 6) else if n - 9 - 6 - 6
      - 3 < 1 then (lbit f.e).getLsbD (n - 9 - 6 - 6 - 3) else maj.getLsbD (n - 9 - 6 - 6 - 3 - 1) := by
  unfold RRI.enc
  change BitVec.getLsbD (w := 7 + 1 + 3 + 6 + 6 + 9) (maj ++ lbit f.e ++ fn ++ f.d ++ f.a ++ f.imm) n = _
  simp only [BitVec.getLsbD_append]

theorem RRI.enc_maj (maj : BitVec 7) (fn : BitVec 3) (f : RRI) : wMaj (f.enc maj fn) = maj := by
  apply BitVec.eq_of_getLsbD_eq
  intro i hi
  unfold wMaj
  rw [BitVec.getLsbD_extractLsb', RRI.enc_bit]
  simp only [hi, decide_true, Bool.true_and]
  iterate 5 rw [if_neg (by omega)]
  congr 1
  omega

theorem RRI.enc_long (maj : BitVec 7) (fn : BitVec 3) (f : RRI) : wLong (f.enc maj fn) = f.e.isSome := by
  unfold wLong
  rw [← lbit_getLsbD, RRI.enc_bit]
  iterate 4 rw [if_neg (by omega)]
  rw [if_pos (by omega)]

theorem RRI.enc_fn (maj : BitVec 7) (fn : BitVec 3) (f : RRI) : (f.enc maj fn).extractLsb' 21 3 = fn := by
  apply BitVec.eq_of_getLsbD_eq
  intro i hi
  rw [BitVec.getLsbD_extractLsb', RRI.enc_bit]
  simp only [hi, decide_true, Bool.true_and]
  iterate 3 rw [if_neg (by omega)]
  rw [if_pos (by omega)]
  congr 1
  omega

theorem RRI.enc_imm (maj : BitVec 7) (fn : BitVec 3) (f : RRI) : (f.enc maj fn).extractLsb' 0 9 = f.imm := by
  apply BitVec.eq_of_getLsbD_eq
  intro i hi
  rw [BitVec.getLsbD_extractLsb', RRI.enc_bit]
  simp only [hi, decide_true, Bool.true_and]
  rw [if_pos (by omega)]
  congr 1
  omega

theorem RRI.enc_a (maj : BitVec 7) (fn : BitVec 3) (f : RRI) : (f.enc maj fn).extractLsb' 9 6 = f.a := by
  apply BitVec.eq_of_getLsbD_eq
  intro i hi
  rw [BitVec.getLsbD_extractLsb', RRI.enc_bit]
  simp only [hi, decide_true, Bool.true_and]
  rw [if_neg (by omega), if_pos (by omega)]
  congr 1
  omega

theorem RRI.enc_d (maj : BitVec 7) (fn : BitVec 3) (f : RRI) : (f.enc maj fn).extractLsb' 15 6 = f.d := by
  apply BitVec.eq_of_getLsbD_eq
  intro i hi
  rw [BitVec.getLsbD_extractLsb', RRI.enc_bit]
  simp only [hi, decide_true, Bool.true_and]
  rw [if_neg (by omega), if_neg (by omega), if_pos (by omega)]
  congr 1
  omega

/-- Decoding an encoded RRI word gives its fields back. -/
theorem RRI.dec_enc (maj : BitVec 7) (fn : BitVec 3) (f : RRI) : RRI.dec (f.enc maj fn) f.e = f := by
  unfold RRI.dec
  rw [RRI.enc_d, RRI.enc_a, RRI.enc_imm]

/-! ## RI -/

theorem RI.enc_bit (maj : BitVec 7) (f : RI) (n : Nat) : (f.enc maj).getLsbD n =
      if n < 18 then f.imm.getLsbD n else if n - 18 < 6 then f.d.getLsbD (n - 18) else if n - 18 - 6 < 1 then
      (lbit f.e).getLsbD (n - 18 - 6) else maj.getLsbD (n - 18 - 6 - 1) := by
  unfold RI.enc
  change BitVec.getLsbD (w := 7 + 1 + 6 + 18) (maj ++ lbit f.e ++ f.d ++ f.imm) n = _
  simp only [BitVec.getLsbD_append]

theorem RI.enc_maj (maj : BitVec 7) (f : RI) : wMaj (f.enc maj) = maj := by
  apply BitVec.eq_of_getLsbD_eq
  intro i hi
  unfold wMaj
  rw [BitVec.getLsbD_extractLsb', RI.enc_bit]
  simp only [hi, decide_true, Bool.true_and]
  iterate 3 rw [if_neg (by omega)]
  congr 1
  omega

theorem RI.enc_long (maj : BitVec 7) (f : RI) : wLong (f.enc maj) = f.e.isSome := by
  unfold wLong
  rw [← lbit_getLsbD, RI.enc_bit]
  rw [if_neg (by omega), if_neg (by omega), if_pos (by omega)]

theorem RI.enc_imm (maj : BitVec 7) (f : RI) : (f.enc maj).extractLsb' 0 18 = f.imm := by
  apply BitVec.eq_of_getLsbD_eq
  intro i hi
  rw [BitVec.getLsbD_extractLsb', RI.enc_bit]
  simp only [hi, decide_true, Bool.true_and]
  rw [if_pos (by omega)]
  congr 1
  omega

theorem RI.enc_d (maj : BitVec 7) (f : RI) : (f.enc maj).extractLsb' 18 6 = f.d := by
  apply BitVec.eq_of_getLsbD_eq
  intro i hi
  rw [BitVec.getLsbD_extractLsb', RI.enc_bit]
  simp only [hi, decide_true, Bool.true_and]
  rw [if_neg (by omega), if_pos (by omega)]
  congr 1
  omega

/-- Decoding an encoded RI word gives its fields back. -/
theorem RI.dec_enc (maj : BitVec 7) (f : RI) : RI.dec (f.enc maj) f.e = f := by
  unfold RI.dec
  rw [RI.enc_d, RI.enc_imm]

/-! ## BR -/

theorem BR.enc_bit (maj : BitVec 7) (f : BR) (n : Nat) : (f.enc maj).getLsbD n =
      if n < 4 then f.w.getLsbD n else if n - 4 < 10 then f.ld.getLsbD (n - 4) else if n - 4 - 10 < 6 then
      f.a.getLsbD (n - 4 - 10) else if n - 4 - 10 - 6 < 4 then f.c.getLsbD (n - 4 - 10 - 6) else if n - 4 - 10
      - 6 - 4 < 1 then (lbit f.e).getLsbD (n - 4 - 10 - 6 - 4) else maj.getLsbD (n - 4 - 10 - 6 - 4 - 1) := by
  unfold BR.enc
  change BitVec.getLsbD (w := 7 + 1 + 4 + 6 + 10 + 4) (maj ++ lbit f.e ++ f.c ++ f.a ++ f.ld ++ f.w) n = _
  simp only [BitVec.getLsbD_append]

theorem BR.enc_maj (maj : BitVec 7) (f : BR) : wMaj (f.enc maj) = maj := by
  apply BitVec.eq_of_getLsbD_eq
  intro i hi
  unfold wMaj
  rw [BitVec.getLsbD_extractLsb', BR.enc_bit]
  simp only [hi, decide_true, Bool.true_and]
  iterate 5 rw [if_neg (by omega)]
  congr 1
  omega

theorem BR.enc_long (maj : BitVec 7) (f : BR) : wLong (f.enc maj) = f.e.isSome := by
  unfold wLong
  rw [← lbit_getLsbD, BR.enc_bit]
  iterate 4 rw [if_neg (by omega)]
  rw [if_pos (by omega)]

theorem BR.enc_w (maj : BitVec 7) (f : BR) : (f.enc maj).extractLsb' 0 4 = f.w := by
  apply BitVec.eq_of_getLsbD_eq
  intro i hi
  rw [BitVec.getLsbD_extractLsb', BR.enc_bit]
  simp only [hi, decide_true, Bool.true_and]
  rw [if_pos (by omega)]
  congr 1
  omega

theorem BR.enc_ld (maj : BitVec 7) (f : BR) : (f.enc maj).extractLsb' 4 10 = f.ld := by
  apply BitVec.eq_of_getLsbD_eq
  intro i hi
  rw [BitVec.getLsbD_extractLsb', BR.enc_bit]
  simp only [hi, decide_true, Bool.true_and]
  rw [if_neg (by omega), if_pos (by omega)]
  congr 1
  omega

theorem BR.enc_a (maj : BitVec 7) (f : BR) : (f.enc maj).extractLsb' 14 6 = f.a := by
  apply BitVec.eq_of_getLsbD_eq
  intro i hi
  rw [BitVec.getLsbD_extractLsb', BR.enc_bit]
  simp only [hi, decide_true, Bool.true_and]
  rw [if_neg (by omega), if_neg (by omega), if_pos (by omega)]
  congr 1
  omega

theorem BR.enc_c (maj : BitVec 7) (f : BR) : (f.enc maj).extractLsb' 20 4 = f.c := by
  apply BitVec.eq_of_getLsbD_eq
  intro i hi
  rw [BitVec.getLsbD_extractLsb', BR.enc_bit]
  simp only [hi, decide_true, Bool.true_and]
  iterate 3 rw [if_neg (by omega)]
  rw [if_pos (by omega)]
  congr 1
  omega

/-- Decoding an encoded BR word gives its fields back. -/
theorem BR.dec_enc (maj : BitVec 7) (f : BR) : BR.dec (f.enc maj) f.e = f := by
  unfold BR.dec
  rw [BR.enc_c, BR.enc_a, BR.enc_ld, BR.enc_w]

/-! ## FV -/

theorem FV.enc_bit (maj : BitVec 7) (fn : BitVec 5) (f : FV) (n : Nat) : (f.enc maj fn).getLsbD n =
      if n < 1 then f.ax.getLsbD n else if n - 1 < 3 then f.m.getLsbD (n - 1) else if n - 1 - 3 < 5 then
      f.b.getLsbD (n - 1 - 3) else if n - 1 - 3 - 5 < 5 then f.a.getLsbD (n - 1 - 3 - 5) else if n - 1 - 3 - 5
      - 5 < 5 then f.d.getLsbD (n - 1 - 3 - 5 - 5) else if n - 1 - 3 - 5 - 5 - 5 < 5 then fn.getLsbD (n - 1 -
      3 - 5 - 5 - 5) else if n - 1 - 3 - 5 - 5 - 5 - 5 < 1 then (lbit f.e).getLsbD (n - 1 - 3 - 5 - 5 - 5 - 5)
      else maj.getLsbD (n - 1 - 3 - 5 - 5 - 5 - 5 - 1) := by
  unfold FV.enc
  change BitVec.getLsbD (w := 7 + 1 + 5 + 5 + 5 + 5 + 3 + 1) (maj ++ lbit f.e ++ fn ++ f.d ++ f.a ++ f.b ++ f.m ++ f.ax) n = _
  simp only [BitVec.getLsbD_append]

theorem FV.enc_maj (maj : BitVec 7) (fn : BitVec 5) (f : FV) : wMaj (f.enc maj fn) = maj := by
  apply BitVec.eq_of_getLsbD_eq
  intro i hi
  unfold wMaj
  rw [BitVec.getLsbD_extractLsb', FV.enc_bit]
  simp only [hi, decide_true, Bool.true_and]
  iterate 7 rw [if_neg (by omega)]
  congr 1
  omega

theorem FV.enc_long (maj : BitVec 7) (fn : BitVec 5) (f : FV) : wLong (f.enc maj fn) = f.e.isSome := by
  unfold wLong
  rw [← lbit_getLsbD, FV.enc_bit]
  iterate 6 rw [if_neg (by omega)]
  rw [if_pos (by omega)]

theorem FV.enc_fn (maj : BitVec 7) (fn : BitVec 5) (f : FV) : (f.enc maj fn).extractLsb' 19 5 = fn := by
  apply BitVec.eq_of_getLsbD_eq
  intro i hi
  rw [BitVec.getLsbD_extractLsb', FV.enc_bit]
  simp only [hi, decide_true, Bool.true_and]
  iterate 5 rw [if_neg (by omega)]
  rw [if_pos (by omega)]
  congr 1
  omega

theorem FV.enc_ax (maj : BitVec 7) (fn : BitVec 5) (f : FV) : (f.enc maj fn).extractLsb' 0 1 = f.ax := by
  apply BitVec.eq_of_getLsbD_eq
  intro i hi
  rw [BitVec.getLsbD_extractLsb', FV.enc_bit]
  simp only [hi, decide_true, Bool.true_and]
  rw [if_pos (by omega)]
  congr 1
  omega

theorem FV.enc_m (maj : BitVec 7) (fn : BitVec 5) (f : FV) : (f.enc maj fn).extractLsb' 1 3 = f.m := by
  apply BitVec.eq_of_getLsbD_eq
  intro i hi
  rw [BitVec.getLsbD_extractLsb', FV.enc_bit]
  simp only [hi, decide_true, Bool.true_and]
  rw [if_neg (by omega), if_pos (by omega)]
  congr 1
  omega

theorem FV.enc_b (maj : BitVec 7) (fn : BitVec 5) (f : FV) : (f.enc maj fn).extractLsb' 4 5 = f.b := by
  apply BitVec.eq_of_getLsbD_eq
  intro i hi
  rw [BitVec.getLsbD_extractLsb', FV.enc_bit]
  simp only [hi, decide_true, Bool.true_and]
  rw [if_neg (by omega), if_neg (by omega), if_pos (by omega)]
  congr 1
  omega

theorem FV.enc_a (maj : BitVec 7) (fn : BitVec 5) (f : FV) : (f.enc maj fn).extractLsb' 9 5 = f.a := by
  apply BitVec.eq_of_getLsbD_eq
  intro i hi
  rw [BitVec.getLsbD_extractLsb', FV.enc_bit]
  simp only [hi, decide_true, Bool.true_and]
  iterate 3 rw [if_neg (by omega)]
  rw [if_pos (by omega)]
  congr 1
  omega

theorem FV.enc_d (maj : BitVec 7) (fn : BitVec 5) (f : FV) : (f.enc maj fn).extractLsb' 14 5 = f.d := by
  apply BitVec.eq_of_getLsbD_eq
  intro i hi
  rw [BitVec.getLsbD_extractLsb', FV.enc_bit]
  simp only [hi, decide_true, Bool.true_and]
  iterate 4 rw [if_neg (by omega)]
  rw [if_pos (by omega)]
  congr 1
  omega

/-- Decoding an encoded FV word gives its fields back. -/
theorem FV.dec_enc (maj : BitVec 7) (fn : BitVec 5) (f : FV) : FV.dec (f.enc maj fn) f.e = f := by
  unfold FV.dec
  rw [FV.enc_d, FV.enc_a, FV.enc_b, FV.enc_m, FV.enc_ax]

/-! ## FQ -/

theorem FQ.enc_bit (maj : BitVec 7) (fn : BitVec 4) (f : FQ) (n : Nat) : (f.enc maj fn).getLsbD n =
      if n < 4 then f.f.getLsbD n else if n - 4 < 6 then f.b.getLsbD (n - 4) else if n - 4 - 6 < 6 then
      f.a.getLsbD (n - 4 - 6) else if n - 4 - 6 - 6 < 4 then f.q.getLsbD (n - 4 - 6 - 6) else if n - 4 - 6 - 6
      - 4 < 4 then fn.getLsbD (n - 4 - 6 - 6 - 4) else if n - 4 - 6 - 6 - 4 - 4 < 1 then (lbit f.e).getLsbD (n
      - 4 - 6 - 6 - 4 - 4) else maj.getLsbD (n - 4 - 6 - 6 - 4 - 4 - 1) := by
  unfold FQ.enc
  change BitVec.getLsbD (w := 7 + 1 + 4 + 4 + 6 + 6 + 4) (maj ++ lbit f.e ++ fn ++ f.q ++ f.a ++ f.b ++ f.f) n = _
  simp only [BitVec.getLsbD_append]

theorem FQ.enc_maj (maj : BitVec 7) (fn : BitVec 4) (f : FQ) : wMaj (f.enc maj fn) = maj := by
  apply BitVec.eq_of_getLsbD_eq
  intro i hi
  unfold wMaj
  rw [BitVec.getLsbD_extractLsb', FQ.enc_bit]
  simp only [hi, decide_true, Bool.true_and]
  iterate 6 rw [if_neg (by omega)]
  congr 1
  omega

theorem FQ.enc_long (maj : BitVec 7) (fn : BitVec 4) (f : FQ) : wLong (f.enc maj fn) = f.e.isSome := by
  unfold wLong
  rw [← lbit_getLsbD, FQ.enc_bit]
  iterate 5 rw [if_neg (by omega)]
  rw [if_pos (by omega)]

theorem FQ.enc_fn (maj : BitVec 7) (fn : BitVec 4) (f : FQ) : (f.enc maj fn).extractLsb' 20 4 = fn := by
  apply BitVec.eq_of_getLsbD_eq
  intro i hi
  rw [BitVec.getLsbD_extractLsb', FQ.enc_bit]
  simp only [hi, decide_true, Bool.true_and]
  iterate 4 rw [if_neg (by omega)]
  rw [if_pos (by omega)]
  congr 1
  omega

theorem FQ.enc_f (maj : BitVec 7) (fn : BitVec 4) (f : FQ) : (f.enc maj fn).extractLsb' 0 4 = f.f := by
  apply BitVec.eq_of_getLsbD_eq
  intro i hi
  rw [BitVec.getLsbD_extractLsb', FQ.enc_bit]
  simp only [hi, decide_true, Bool.true_and]
  rw [if_pos (by omega)]
  congr 1
  omega

theorem FQ.enc_b (maj : BitVec 7) (fn : BitVec 4) (f : FQ) : (f.enc maj fn).extractLsb' 4 6 = f.b := by
  apply BitVec.eq_of_getLsbD_eq
  intro i hi
  rw [BitVec.getLsbD_extractLsb', FQ.enc_bit]
  simp only [hi, decide_true, Bool.true_and]
  rw [if_neg (by omega), if_pos (by omega)]
  congr 1
  omega

theorem FQ.enc_a (maj : BitVec 7) (fn : BitVec 4) (f : FQ) : (f.enc maj fn).extractLsb' 10 6 = f.a := by
  apply BitVec.eq_of_getLsbD_eq
  intro i hi
  rw [BitVec.getLsbD_extractLsb', FQ.enc_bit]
  simp only [hi, decide_true, Bool.true_and]
  rw [if_neg (by omega), if_neg (by omega), if_pos (by omega)]
  congr 1
  omega

theorem FQ.enc_q (maj : BitVec 7) (fn : BitVec 4) (f : FQ) : (f.enc maj fn).extractLsb' 16 4 = f.q := by
  apply BitVec.eq_of_getLsbD_eq
  intro i hi
  rw [BitVec.getLsbD_extractLsb', FQ.enc_bit]
  simp only [hi, decide_true, Bool.true_and]
  iterate 3 rw [if_neg (by omega)]
  rw [if_pos (by omega)]
  congr 1
  omega

/-- Decoding an encoded FQ word gives its fields back. -/
theorem FQ.dec_enc (maj : BitVec 7) (fn : BitVec 4) (f : FQ) : FQ.dec (f.enc maj fn) f.e = f := by
  unfold FQ.dec
  rw [FQ.enc_q, FQ.enc_a, FQ.enc_b, FQ.enc_f]

/-! ## FM -/

theorem FM.enc_bit (maj : BitVec 7) (fn : BitVec 4) (f : FM) (n : Nat) : (f.enc maj fn).getLsbD n =
      if n < 3 then f.pol.getLsbD n else if n - 3 < 5 then f.flag.getLsbD (n - 3) else if n - 3 - 5 < 6 then
      f.fmt.getLsbD (n - 3 - 5) else if n - 3 - 5 - 6 < 3 then f.rq.getLsbD (n - 3 - 5 - 6) else if n - 3 - 5
      - 6 - 3 < 3 then f.zd.getLsbD (n - 3 - 5 - 6 - 3) else if n - 3 - 5 - 6 - 3 - 3 < 4 then fn.getLsbD (n -
      3 - 5 - 6 - 3 - 3) else if n - 3 - 5 - 6 - 3 - 3 - 4 < 1 then (lbit f.e).getLsbD (n - 3 - 5 - 6 - 3 - 3
      - 4) else maj.getLsbD (n - 3 - 5 - 6 - 3 - 3 - 4 - 1) := by
  unfold FM.enc
  change BitVec.getLsbD (w := 7 + 1 + 4 + 3 + 3 + 6 + 5 + 3) (maj ++ lbit f.e ++ fn ++ f.zd ++ f.rq ++ f.fmt ++ f.flag ++ f.pol) n = _
  simp only [BitVec.getLsbD_append]

theorem FM.enc_maj (maj : BitVec 7) (fn : BitVec 4) (f : FM) : wMaj (f.enc maj fn) = maj := by
  apply BitVec.eq_of_getLsbD_eq
  intro i hi
  unfold wMaj
  rw [BitVec.getLsbD_extractLsb', FM.enc_bit]
  simp only [hi, decide_true, Bool.true_and]
  iterate 7 rw [if_neg (by omega)]
  congr 1
  omega

theorem FM.enc_long (maj : BitVec 7) (fn : BitVec 4) (f : FM) : wLong (f.enc maj fn) = f.e.isSome := by
  unfold wLong
  rw [← lbit_getLsbD, FM.enc_bit]
  iterate 6 rw [if_neg (by omega)]
  rw [if_pos (by omega)]

theorem FM.enc_fn (maj : BitVec 7) (fn : BitVec 4) (f : FM) : (f.enc maj fn).extractLsb' 20 4 = fn := by
  apply BitVec.eq_of_getLsbD_eq
  intro i hi
  rw [BitVec.getLsbD_extractLsb', FM.enc_bit]
  simp only [hi, decide_true, Bool.true_and]
  iterate 5 rw [if_neg (by omega)]
  rw [if_pos (by omega)]
  congr 1
  omega

theorem FM.enc_pol (maj : BitVec 7) (fn : BitVec 4) (f : FM) : (f.enc maj fn).extractLsb' 0 3 = f.pol := by
  apply BitVec.eq_of_getLsbD_eq
  intro i hi
  rw [BitVec.getLsbD_extractLsb', FM.enc_bit]
  simp only [hi, decide_true, Bool.true_and]
  rw [if_pos (by omega)]
  congr 1
  omega

theorem FM.enc_flag (maj : BitVec 7) (fn : BitVec 4) (f : FM) : (f.enc maj fn).extractLsb' 3 5 = f.flag := by
  apply BitVec.eq_of_getLsbD_eq
  intro i hi
  rw [BitVec.getLsbD_extractLsb', FM.enc_bit]
  simp only [hi, decide_true, Bool.true_and]
  rw [if_neg (by omega), if_pos (by omega)]
  congr 1
  omega

theorem FM.enc_fmt (maj : BitVec 7) (fn : BitVec 4) (f : FM) : (f.enc maj fn).extractLsb' 8 6 = f.fmt := by
  apply BitVec.eq_of_getLsbD_eq
  intro i hi
  rw [BitVec.getLsbD_extractLsb', FM.enc_bit]
  simp only [hi, decide_true, Bool.true_and]
  rw [if_neg (by omega), if_neg (by omega), if_pos (by omega)]
  congr 1
  omega

theorem FM.enc_rq (maj : BitVec 7) (fn : BitVec 4) (f : FM) : (f.enc maj fn).extractLsb' 14 3 = f.rq := by
  apply BitVec.eq_of_getLsbD_eq
  intro i hi
  rw [BitVec.getLsbD_extractLsb', FM.enc_bit]
  simp only [hi, decide_true, Bool.true_and]
  iterate 3 rw [if_neg (by omega)]
  rw [if_pos (by omega)]
  congr 1
  omega

theorem FM.enc_zd (maj : BitVec 7) (fn : BitVec 4) (f : FM) : (f.enc maj fn).extractLsb' 17 3 = f.zd := by
  apply BitVec.eq_of_getLsbD_eq
  intro i hi
  rw [BitVec.getLsbD_extractLsb', FM.enc_bit]
  simp only [hi, decide_true, Bool.true_and]
  iterate 4 rw [if_neg (by omega)]
  rw [if_pos (by omega)]
  congr 1
  omega

/-- Decoding an encoded FM word gives its fields back. -/
theorem FM.dec_enc (maj : BitVec 7) (fn : BitVec 4) (f : FM) : FM.dec (f.enc maj fn) f.e = f := by
  unfold FM.dec
  rw [FM.enc_zd, FM.enc_rq, FM.enc_fmt, FM.enc_flag, FM.enc_pol]

end Sys2Proof
end

