-- ==== Sys2Proof/Laws/Issue.lean ====
section
/-! SUPPORT. How operations compose, and how an instruction issues. -/
namespace Sys2Proof.Machine

theorem runs_pure {α : Type} (v : α) (s : State) : Runs (pure v) s v s := rfl

theorem runs_get (s : State) : Runs get s s s := rfl

theorem runs_set (s t : State) : Runs (set t) s ⟨⟩ t := rfl

theorem runs_modify (f : State → State) (s : State) : Runs (modify f) s ⟨⟩ (f s) := rfl

theorem runs_bind {α β : Type} {a : Act α} {f : α → Act β} {s t u : State} {v : α} {w : β}
    (ha : Runs a s v t) (hf : Runs (f v) t w u) : Runs (a >>= f) s w u := by
  unfold Runs at *
  simp only [StateT.run_bind, ha]
  exact hf

/-- What a sequence answers is what its second part answers after its first. -/
theorem runs_bind_iff {α β : Type} {a : Act α} {f : α → Act β} {s u : State} {w : β} :
    Runs (a >>= f) s w u ↔ ∃ v t, Runs a s v t ∧ Runs (f v) t w u := by
  constructor
  · intro h
    unfold Runs at *
    simp only [StateT.run_bind] at h
    cases ha : StateT.run a s with
    | error x => rw [ha] at h; cases h
    | ok r => rw [ha] at h; exact ⟨r.1, r.2, rfl, h⟩
  · rintro ⟨v, t, ha, hf⟩
    exact runs_bind ha hf

theorem runs_need {b : Bool} {c : Byte} {s : State} (h : b = true) : Runs (need b c) s () s := by
  subst h; rfl

theorem runs_needAt {b : Bool} {c : Byte} {a : W64} {s : State} (h : b = true) : Runs (needAt b c a) s () s := by
  subst h; rfl

/-- An operation answers at most one thing. -/
theorem runs_unique {α : Type} {a : Act α} {s t t' : State} {v v' : α} (h : Runs a s v t) (h' : Runs a s v' t') :
    v = v' ∧ t = t' := by
  unfold Runs at *
  rw [h] at h'
  cases h'
  exact ⟨rfl, rfl⟩

/-- An operation that answers has an answer. -/
theorem runs_of_okRun {α : Type} {a : Act α} {s : State} (h : okRun a s = true) : ∃ v t, Runs a s v t := by
  unfold okRun at h
  unfold Runs
  cases hr : StateT.run a s with
  | ok r => exact ⟨r.1, r.2, rfl⟩
  | error x => rw [hr] at h; cases h

theorem enters_checks {i : Instr} {s : State} (h : Enters i s = true) : Runs (entryChecks i) s () s := by
  unfold Enters at h
  simp only [Bool.and_eq_true] at h
  obtain ⟨⟨⟨h1, h2⟩, h3⟩, -⟩ := h
  unfold entryChecks
  exact runs_bind (runs_need h1) (runs_bind (runs_get s) (runs_bind (runs_need h2) (runs_need h3)))

/-- An instruction whose limits, effect and successor stand issues: everything that `issueLim` can do when nothing stops it. -/
theorem issueLim_done {i : Instr} {s u t : State} {lim : Act Unit} {body : Act Flow} {flow : Flow} (he : Enters i s = true)
    (hl : Runs lim s () s) (hb : Runs body s flow u) (hf : Follows i flow u t) :
    issueLim i s lim body = .next (t.done flow) := by
  have hc : (s.cur.q != 2 && frameInterlock (s.sq s.cur)) = false := by
    unfold Enters at he
    simp only [Bool.and_eq_true, Bool.or_eq_true, Bool.not_eq_true', beq_iff_eq] at he
    rcases he.2 with h | h <;> simp [h]
  have hw : i.wf = true := by
    unfold Enters at he
    simp only [Bool.and_eq_true] at he
    exact he.1.1.1
  have hr : Runs (do
      need i.wf cIllegal
      lim
      entryChecks i
      let s0 ← get
      if s0.cur.q != 2 && frameInterlock (s0.sq s0.cur) then hold 9
      let flow ← body
      advance i flow
      modify fun s => s.issued s.cur flow : Act Unit) s () (t.done flow) := by
    refine runs_bind (runs_need hw) (runs_bind hl (runs_bind (enters_checks he) (runs_bind (runs_get s) ?_)))
    simp only [hc]
    exact runs_bind hb (runs_bind hf (runs_modify _ _))
  unfold issueLim outcome
  unfold Runs at hr
  rw [hr]

/-- The same of an instruction whose limits are all in its encoding. -/
theorem issue_done {i : Instr} {s u t : State} {body : Act Flow} {flow : Flow} (he : Enters i s = true)
    (hb : Runs body s flow u) (hf : Follows i flow u t) : issue i s body = .next (t.done flow) :=
  issueLim_done he (runs_pure _ _) hb hf

/-! ## What the shared operations leave -/

theorem runs_retain (r : List (Nat × Nat)) (lat : Nat) (x : Option XEnt) (s : State) :
    Runs (retain r lat x) s () (s.retained r lat x) := by
  unfold retain State.retained
  split
  · rfl
  · rfl

theorem runs_pendWrite (d : Dst) (v : W64) (lat : Nat) (s : State) : Runs (pendWrite d v lat) s () (s.pended d v lat) := by
  unfold pendWrite State.pended retain State.retained
  cases d <;> split <;> rfl

theorem runs_addX (x : XEnt) (files : List (Nat × Nat)) (s : State) : Runs (addX x files) s () (s.exposed x files) := by
  unfold addX State.exposed retain State.retained
  split <;> rfl

/-- The result of a scalar instruction on C, A and S. -/
theorem runs_scalarResult {i : Instr} {d : BitVec 6} {lat : Nat} {x y z : W64} {s s2 : State} {t : Dst}
    (hq : s.cur.q ≠ 2) (hd : Runs (destOf d) s t s2) :
    Runs (scalarResult i d lat x y z) s .next (s2.pended t (scalarVal i x y z) lat) := by
  unfold scalarResult
  refine runs_bind (runs_get s) ?_
  simp only [hq, if_false]
  exact runs_bind hd (runs_bind (runs_pendWrite _ _ _ _) (runs_pure _ _))

/-- The result of a scalar instruction on X. -/
theorem runs_scalarResult_x {i : Instr} {d : BitVec 6} {lat : Nat} {x y z : W64} {s s2 : State} {r : Nat × Nat × Fin 16}
    (hq : s.cur.q = 2) (hr : Runs (reserveX [d]) s r s2) :
    Runs (scalarResult i d lat x y z) s .next (s2.exposed
      { i := i, due := lat, sv0 := x, sv1 := y, sv2 := z, rid := r.1, nres := r.2.1, q := r.2.2 } (fieldFile d)) := by
  unfold scalarResult
  refine runs_bind (runs_get s) ?_
  simp only [hq, if_true]
  exact runs_bind hr (runs_bind (runs_addX _ _ _) (runs_pure _ _))

/-- Every instruction that issues with limits ends in a next state. -/
theorem issueLim_safe (i : Instr) (s : State) (lim : Act Unit) (body : Act Flow) : Safe (issueLim i s lim body) := by
  unfold issueLim outcome Safe
  split <;> exact ⟨_, rfl⟩

/-- Every instruction that issues through `issue` ends in a next state. -/
theorem issue_safe (i : Instr) (s : State) (body : Act Flow) : Safe (issue i s body) := by
  unfold issue issueLim outcome Safe
  split <;> exact ⟨_, rfl⟩

end Sys2Proof.Machine
end

