-- ==== Sys2Proof/Laws/State.lean ====
section
/-! SUPPORT. What each update of the state leaves: one lemma per field and update, and what it makes of the part it changes. -/
namespace Sys2Proof.Machine

/-! ## One element of a vector -/

theorem vset_get {α : Type} {n : Nat} (v : Vector α n) (i j : Fin n) (x : α) :
    (vset v i x).get j = if i = j then x else v.get j := by
  unfold vset
  simp only [Vector.get_eq_getElem, Vector.getElem_set]
  by_cases h : i = j
  · simp [h]
  · simp [h, Fin.val_ne_of_ne h]

@[simp] theorem vset_get_self {α : Type} {n : Nat} (v : Vector α n) (i : Fin n) (x : α) : (vset v i x).get i = x := by
  simp [vset_get]

theorem vset_get_ne {α : Type} {n : Nat} (v : Vector α n) {i j : Fin n} (x : α) (h : i ≠ j) :
    (vset v i x).get j = v.get j := by
  simp [vset_get, h]

@[simp] theorem replicate_get {α : Type} {n : Nat} (x : α) (i : Fin n) : (Vector.replicate n x).get i = x := by
  simp [Vector.get_eq_getElem]

/-! ## State.modCore -/

@[simp] theorem State.modCore_agenda (s : State) (c : CoreId) (f : Core → Core) : (s.modCore c f).agenda = s.agenda := rfl
@[simp] theorem State.modCore_choice (s : State) (c : CoreId) (f : Core → Core) : (s.modCore c f).choice = s.choice := rfl
@[simp] theorem State.modCore_cur (s : State) (c : CoreId) (f : Core → Core) : (s.modCore c f).cur = s.cur := rfl
@[simp] theorem State.modCore_phase (s : State) (c : CoreId) (f : Core → Core) : (s.modCore c f).phase = s.phase := rfl
@[simp] theorem State.modCore_raised (s : State) (c : CoreId) (f : Core → Core) : (s.modCore c f).raised = s.raised := rfl
@[simp] theorem State.modCore_now (s : State) (c : CoreId) (f : Core → Core) : (s.modCore c f).now = s.now := rfl
@[simp] theorem State.modCore_tb (s : State) (c : CoreId) (f : Core → Core) : (s.modCore c f).tb = s.tb := rfl
@[simp] theorem State.modCore_tbPart (s : State) (c : CoreId) (f : Core → Core) : (s.modCore c f).tbPart = s.tbPart := rfl
@[simp] theorem State.modCore_mem (s : State) (c : CoreId) (f : Core → Core) : (s.modCore c f).mem = s.mem := rfl
@[simp] theorem State.modCore_poison (s : State) (c : CoreId) (f : Core → Core) : (s.modCore c f).poison = s.poison := rfl
@[simp] theorem State.modCore_hist (s : State) (c : CoreId) (f : Core → Core) : (s.modCore c f).hist = s.hist := rfl
@[simp] theorem State.modCore_applied (s : State) (c : CoreId) (f : Core → Core) : (s.modCore c f).applied = s.applied := rfl
@[simp] theorem State.modCore_eaten (s : State) (c : CoreId) (f : Core → Core) : (s.modCore c f).eaten = s.eaten := rfl
@[simp] theorem State.modCore_holders (s : State) (c : CoreId) (f : Core → Core) : (s.modCore c f).holders = s.holders := rfl
@[simp] theorem State.modCore_agents (s : State) (c : CoreId) (f : Core → Core) : (s.modCore c f).agents = s.agents := rfl
@[simp] theorem State.modCore_unseen (s : State) (c : CoreId) (f : Core → Core) : (s.modCore c f).unseen = s.unseen := rfl
@[simp] theorem State.modCore_flight (s : State) (c : CoreId) (f : Core → Core) : (s.modCore c f).flight = s.flight := rfl
@[simp] theorem State.modCore_msgs (s : State) (c : CoreId) (f : Core → Core) : (s.modCore c f).msgs = s.msgs := rfl
@[simp] theorem State.modCore_msgSent (s : State) (c : CoreId) (f : Core → Core) : (s.modCore c f).msgSent = s.msgSent := rfl
@[simp] theorem State.modCore_msgDone (s : State) (c : CoreId) (f : Core → Core) : (s.modCore c f).msgDone = s.msgDone := rfl
@[simp] theorem State.modCore_clusters (s : State) (c : CoreId) (f : Core → Core) : (s.modCore c f).clusters = s.clusters := rfl
@[simp] theorem State.modCore_dies (s : State) (c : CoreId) (f : Core → Core) : (s.modCore c f).dies = s.dies := rfl
@[simp] theorem State.modCore_links (s : State) (c : CoreId) (f : Core → Core) : (s.modCore c f).links = s.links := rfl
@[simp] theorem State.modCore_cuts (s : State) (c : CoreId) (f : Core → Core) : (s.modCore c f).cuts = s.cuts := rfl
@[simp] theorem State.modCore_rseqDone (s : State) (c : CoreId) (f : Core → Core) : (s.modCore c f).rseqDone = s.rseqDone := rfl
@[simp] theorem State.modCore_replies (s : State) (c : CoreId) (f : Core → Core) : (s.modCore c f).replies = s.replies := rfl
@[simp] theorem State.modCore_peerReqs (s : State) (c : CoreId) (f : Core → Core) : (s.modCore c f).peerReqs = s.peerReqs := rfl
@[simp] theorem State.modCore_peerAsked (s : State) (c : CoreId) (f : Core → Core) : (s.modCore c f).peerAsked = s.peerAsked := rfl
@[simp] theorem State.modCore_peerReply (s : State) (c : CoreId) (f : Core → Core) : (s.modCore c f).peerReply = s.peerReply := rfl
@[simp] theorem State.modCore_ports (s : State) (c : CoreId) (f : Core → Core) : (s.modCore c f).ports = s.ports := rfl
@[simp] theorem State.modCore_bars (s : State) (c : CoreId) (f : Core → Core) : (s.modCore c f).bars = s.bars := rfl
@[simp] theorem State.modCore_barGen (s : State) (c : CoreId) (f : Core → Core) : (s.modCore c f).barGen = s.barGen := rfl
@[simp] theorem State.modCore_host (s : State) (c : CoreId) (f : Core → Core) : (s.modCore c f).host = s.host := rfl
@[simp] theorem State.modCore_ctxs (s : State) (c : CoreId) (f : Core → Core) : (s.modCore c f).ctxs = s.ctxs := rfl
@[simp] theorem State.modCore_torn (s : State) (c : CoreId) (f : Core → Core) : (s.modCore c f).torn = s.torn := rfl
@[simp] theorem State.modCore_acl (s : State) (c : CoreId) (f : Core → Core) : (s.modCore c f).acl = s.acl := rfl
@[simp] theorem State.modCore_weights (s : State) (c : CoreId) (f : Core → Core) : (s.modCore c f).weights = s.weights := rfl
@[simp] theorem State.modCore_saved (s : State) (c : CoreId) (f : Core → Core) : (s.modCore c f).saved = s.saved := rfl
@[simp] theorem State.modCore_saveSeq (s : State) (c : CoreId) (f : Core → Core) : (s.modCore c f).saveSeq = s.saveSeq := rfl
@[simp] theorem State.modCore_serial (s : State) (c : CoreId) (f : Core → Core) : (s.modCore c f).serial = s.serial := rfl
@[simp] theorem State.modCore_fenced (s : State) (c : CoreId) (f : Core → Core) : (s.modCore c f).fenced = s.fenced := rfl
@[simp] theorem State.modCore_worn (s : State) (c : CoreId) (f : Core → Core) : (s.modCore c f).worn = s.worn := rfl
@[simp] theorem State.modCore_tests (s : State) (c : CoreId) (f : Core → Core) : (s.modCore c f).tests = s.tests := rfl
@[simp] theorem State.modCore_corrected (s : State) (c : CoreId) (f : Core → Core) : (s.modCore c f).corrected = s.corrected := rfl
@[simp] theorem State.modCore_scrubMin (s : State) (c : CoreId) (f : Core → Core) : (s.modCore c f).scrubMin = s.scrubMin := rfl
@[simp] theorem State.modCore_scrubPer (s : State) (c : CoreId) (f : Core → Core) : (s.modCore c f).scrubPer = s.scrubPer := rfl
@[simp] theorem State.modCore_scrubStart (s : State) (c : CoreId) (f : Core → Core) : (s.modCore c f).scrubStart = s.scrubStart := rfl
@[simp] theorem State.modCore_scrubbed (s : State) (c : CoreId) (f : Core → Core) : (s.modCore c f).scrubbed = s.scrubbed := rfl
@[simp] theorem State.modCore_rotMs (s : State) (c : CoreId) (f : Core → Core) : (s.modCore c f).rotMs = s.rotMs := rfl
@[simp] theorem State.modCore_corrThreshold (s : State) (c : CoreId) (f : Core → Core) : (s.modCore c f).corrThreshold = s.corrThreshold := rfl
@[simp] theorem State.modCore_tickets (s : State) (c : CoreId) (f : Core → Core) : (s.modCore c f).tickets = s.tickets := rfl
@[simp] theorem State.modCore_nextTicket (s : State) (c : CoreId) (f : Core → Core) : (s.modCore c f).nextTicket = s.nextTicket := rfl
@[simp] theorem State.modCore_off (s : State) (c : CoreId) (f : Core → Core) : (s.modCore c f).off = s.off := rfl
@[simp] theorem State.modCore_booted (s : State) (c : CoreId) (f : Core → Core) : (s.modCore c f).booted = s.booted := rfl
@[simp] theorem State.modCore_afterPower (s : State) (c : CoreId) (f : Core → Core) : (s.modCore c f).afterPower = s.afterPower := rfl
@[simp] theorem State.modCore_joules (s : State) (c : CoreId) (f : Core → Core) : (s.modCore c f).joules = s.joules := rfl
@[simp] theorem State.modCore_ckptArmed (s : State) (c : CoreId) (f : Core → Core) : (s.modCore c f).ckptArmed = s.ckptArmed := rfl
@[simp] theorem State.modCore_loss (s : State) (c : CoreId) (f : Core → Core) : (s.modCore c f).loss = s.loss := rfl
@[simp] theorem State.modCore_lossList (s : State) (c : CoreId) (f : Core → Core) : (s.modCore c f).lossList = s.lossList := rfl
@[simp] theorem State.modCore_lossTime (s : State) (c : CoreId) (f : Core → Core) : (s.modCore c f).lossTime = s.lossTime := rfl
@[simp] theorem State.modCore_draft (s : State) (c : CoreId) (f : Core → Core) : (s.modCore c f).draft = s.draft := rfl
@[simp] theorem State.modCore_image (s : State) (c : CoreId) (f : Core → Core) : (s.modCore c f).image = s.image := rfl
@[simp] theorem State.modCore_mr (s : State) (c : CoreId) (f : Core → Core) : (s.modCore c f).mr = s.mr := rfl
@[simp] theorem State.modCore_svn (s : State) (c : CoreId) (f : Core → Core) : (s.modCore c f).svn = s.svn := rfl
@[simp] theorem State.modCore_minSvn (s : State) (c : CoreId) (f : Core → Core) : (s.modCore c f).minSvn = s.minSvn := rfl
@[simp] theorem State.modCore_staged (s : State) (c : CoreId) (f : Core → Core) : (s.modCore c f).staged = s.staged := rfl
@[simp] theorem State.modCore_installed (s : State) (c : CoreId) (f : Core → Core) : (s.modCore c f).installed = s.installed := rfl

/-! ## State.modBank -/

@[simp] theorem State.modBank_agenda (s : State) (w : Who) (f : Bank → Bank) : (s.modBank w f).agenda = s.agenda := rfl
@[simp] theorem State.modBank_choice (s : State) (w : Who) (f : Bank → Bank) : (s.modBank w f).choice = s.choice := rfl
@[simp] theorem State.modBank_cur (s : State) (w : Who) (f : Bank → Bank) : (s.modBank w f).cur = s.cur := rfl
@[simp] theorem State.modBank_phase (s : State) (w : Who) (f : Bank → Bank) : (s.modBank w f).phase = s.phase := rfl
@[simp] theorem State.modBank_raised (s : State) (w : Who) (f : Bank → Bank) : (s.modBank w f).raised = s.raised := rfl
@[simp] theorem State.modBank_now (s : State) (w : Who) (f : Bank → Bank) : (s.modBank w f).now = s.now := rfl
@[simp] theorem State.modBank_tb (s : State) (w : Who) (f : Bank → Bank) : (s.modBank w f).tb = s.tb := rfl
@[simp] theorem State.modBank_tbPart (s : State) (w : Who) (f : Bank → Bank) : (s.modBank w f).tbPart = s.tbPart := rfl
@[simp] theorem State.modBank_mem (s : State) (w : Who) (f : Bank → Bank) : (s.modBank w f).mem = s.mem := rfl
@[simp] theorem State.modBank_poison (s : State) (w : Who) (f : Bank → Bank) : (s.modBank w f).poison = s.poison := rfl
@[simp] theorem State.modBank_hist (s : State) (w : Who) (f : Bank → Bank) : (s.modBank w f).hist = s.hist := rfl
@[simp] theorem State.modBank_applied (s : State) (w : Who) (f : Bank → Bank) : (s.modBank w f).applied = s.applied := rfl
@[simp] theorem State.modBank_eaten (s : State) (w : Who) (f : Bank → Bank) : (s.modBank w f).eaten = s.eaten := rfl
@[simp] theorem State.modBank_holders (s : State) (w : Who) (f : Bank → Bank) : (s.modBank w f).holders = s.holders := rfl
@[simp] theorem State.modBank_agents (s : State) (w : Who) (f : Bank → Bank) : (s.modBank w f).agents = s.agents := rfl
@[simp] theorem State.modBank_unseen (s : State) (w : Who) (f : Bank → Bank) : (s.modBank w f).unseen = s.unseen := rfl
@[simp] theorem State.modBank_flight (s : State) (w : Who) (f : Bank → Bank) : (s.modBank w f).flight = s.flight := rfl
@[simp] theorem State.modBank_msgs (s : State) (w : Who) (f : Bank → Bank) : (s.modBank w f).msgs = s.msgs := rfl
@[simp] theorem State.modBank_msgSent (s : State) (w : Who) (f : Bank → Bank) : (s.modBank w f).msgSent = s.msgSent := rfl
@[simp] theorem State.modBank_msgDone (s : State) (w : Who) (f : Bank → Bank) : (s.modBank w f).msgDone = s.msgDone := rfl
@[simp] theorem State.modBank_clusters (s : State) (w : Who) (f : Bank → Bank) : (s.modBank w f).clusters = s.clusters := rfl
@[simp] theorem State.modBank_dies (s : State) (w : Who) (f : Bank → Bank) : (s.modBank w f).dies = s.dies := rfl
@[simp] theorem State.modBank_links (s : State) (w : Who) (f : Bank → Bank) : (s.modBank w f).links = s.links := rfl
@[simp] theorem State.modBank_cuts (s : State) (w : Who) (f : Bank → Bank) : (s.modBank w f).cuts = s.cuts := rfl
@[simp] theorem State.modBank_rseqDone (s : State) (w : Who) (f : Bank → Bank) : (s.modBank w f).rseqDone = s.rseqDone := rfl
@[simp] theorem State.modBank_replies (s : State) (w : Who) (f : Bank → Bank) : (s.modBank w f).replies = s.replies := rfl
@[simp] theorem State.modBank_peerReqs (s : State) (w : Who) (f : Bank → Bank) : (s.modBank w f).peerReqs = s.peerReqs := rfl
@[simp] theorem State.modBank_peerAsked (s : State) (w : Who) (f : Bank → Bank) : (s.modBank w f).peerAsked = s.peerAsked := rfl
@[simp] theorem State.modBank_peerReply (s : State) (w : Who) (f : Bank → Bank) : (s.modBank w f).peerReply = s.peerReply := rfl
@[simp] theorem State.modBank_ports (s : State) (w : Who) (f : Bank → Bank) : (s.modBank w f).ports = s.ports := rfl
@[simp] theorem State.modBank_bars (s : State) (w : Who) (f : Bank → Bank) : (s.modBank w f).bars = s.bars := rfl
@[simp] theorem State.modBank_barGen (s : State) (w : Who) (f : Bank → Bank) : (s.modBank w f).barGen = s.barGen := rfl
@[simp] theorem State.modBank_host (s : State) (w : Who) (f : Bank → Bank) : (s.modBank w f).host = s.host := rfl
@[simp] theorem State.modBank_ctxs (s : State) (w : Who) (f : Bank → Bank) : (s.modBank w f).ctxs = s.ctxs := rfl
@[simp] theorem State.modBank_torn (s : State) (w : Who) (f : Bank → Bank) : (s.modBank w f).torn = s.torn := rfl
@[simp] theorem State.modBank_acl (s : State) (w : Who) (f : Bank → Bank) : (s.modBank w f).acl = s.acl := rfl
@[simp] theorem State.modBank_weights (s : State) (w : Who) (f : Bank → Bank) : (s.modBank w f).weights = s.weights := rfl
@[simp] theorem State.modBank_saved (s : State) (w : Who) (f : Bank → Bank) : (s.modBank w f).saved = s.saved := rfl
@[simp] theorem State.modBank_saveSeq (s : State) (w : Who) (f : Bank → Bank) : (s.modBank w f).saveSeq = s.saveSeq := rfl
@[simp] theorem State.modBank_serial (s : State) (w : Who) (f : Bank → Bank) : (s.modBank w f).serial = s.serial := rfl
@[simp] theorem State.modBank_fenced (s : State) (w : Who) (f : Bank → Bank) : (s.modBank w f).fenced = s.fenced := rfl
@[simp] theorem State.modBank_worn (s : State) (w : Who) (f : Bank → Bank) : (s.modBank w f).worn = s.worn := rfl
@[simp] theorem State.modBank_tests (s : State) (w : Who) (f : Bank → Bank) : (s.modBank w f).tests = s.tests := rfl
@[simp] theorem State.modBank_corrected (s : State) (w : Who) (f : Bank → Bank) : (s.modBank w f).corrected = s.corrected := rfl
@[simp] theorem State.modBank_scrubMin (s : State) (w : Who) (f : Bank → Bank) : (s.modBank w f).scrubMin = s.scrubMin := rfl
@[simp] theorem State.modBank_scrubPer (s : State) (w : Who) (f : Bank → Bank) : (s.modBank w f).scrubPer = s.scrubPer := rfl
@[simp] theorem State.modBank_scrubStart (s : State) (w : Who) (f : Bank → Bank) : (s.modBank w f).scrubStart = s.scrubStart := rfl
@[simp] theorem State.modBank_scrubbed (s : State) (w : Who) (f : Bank → Bank) : (s.modBank w f).scrubbed = s.scrubbed := rfl
@[simp] theorem State.modBank_rotMs (s : State) (w : Who) (f : Bank → Bank) : (s.modBank w f).rotMs = s.rotMs := rfl
@[simp] theorem State.modBank_corrThreshold (s : State) (w : Who) (f : Bank → Bank) : (s.modBank w f).corrThreshold = s.corrThreshold := rfl
@[simp] theorem State.modBank_tickets (s : State) (w : Who) (f : Bank → Bank) : (s.modBank w f).tickets = s.tickets := rfl
@[simp] theorem State.modBank_nextTicket (s : State) (w : Who) (f : Bank → Bank) : (s.modBank w f).nextTicket = s.nextTicket := rfl
@[simp] theorem State.modBank_off (s : State) (w : Who) (f : Bank → Bank) : (s.modBank w f).off = s.off := rfl
@[simp] theorem State.modBank_booted (s : State) (w : Who) (f : Bank → Bank) : (s.modBank w f).booted = s.booted := rfl
@[simp] theorem State.modBank_afterPower (s : State) (w : Who) (f : Bank → Bank) : (s.modBank w f).afterPower = s.afterPower := rfl
@[simp] theorem State.modBank_joules (s : State) (w : Who) (f : Bank → Bank) : (s.modBank w f).joules = s.joules := rfl
@[simp] theorem State.modBank_ckptArmed (s : State) (w : Who) (f : Bank → Bank) : (s.modBank w f).ckptArmed = s.ckptArmed := rfl
@[simp] theorem State.modBank_loss (s : State) (w : Who) (f : Bank → Bank) : (s.modBank w f).loss = s.loss := rfl
@[simp] theorem State.modBank_lossList (s : State) (w : Who) (f : Bank → Bank) : (s.modBank w f).lossList = s.lossList := rfl
@[simp] theorem State.modBank_lossTime (s : State) (w : Who) (f : Bank → Bank) : (s.modBank w f).lossTime = s.lossTime := rfl
@[simp] theorem State.modBank_draft (s : State) (w : Who) (f : Bank → Bank) : (s.modBank w f).draft = s.draft := rfl
@[simp] theorem State.modBank_image (s : State) (w : Who) (f : Bank → Bank) : (s.modBank w f).image = s.image := rfl
@[simp] theorem State.modBank_mr (s : State) (w : Who) (f : Bank → Bank) : (s.modBank w f).mr = s.mr := rfl
@[simp] theorem State.modBank_svn (s : State) (w : Who) (f : Bank → Bank) : (s.modBank w f).svn = s.svn := rfl
@[simp] theorem State.modBank_minSvn (s : State) (w : Who) (f : Bank → Bank) : (s.modBank w f).minSvn = s.minSvn := rfl
@[simp] theorem State.modBank_staged (s : State) (w : Who) (f : Bank → Bank) : (s.modBank w f).staged = s.staged := rfl
@[simp] theorem State.modBank_installed (s : State) (w : Who) (f : Bank → Bank) : (s.modBank w f).installed = s.installed := rfl

/-! ## State.modSeq -/

@[simp] theorem State.modSeq_agenda (s : State) (w : Who) (f : Seq → Seq) : (s.modSeq w f).agenda = s.agenda := rfl
@[simp] theorem State.modSeq_choice (s : State) (w : Who) (f : Seq → Seq) : (s.modSeq w f).choice = s.choice := rfl
@[simp] theorem State.modSeq_cur (s : State) (w : Who) (f : Seq → Seq) : (s.modSeq w f).cur = s.cur := rfl
@[simp] theorem State.modSeq_phase (s : State) (w : Who) (f : Seq → Seq) : (s.modSeq w f).phase = s.phase := rfl
@[simp] theorem State.modSeq_raised (s : State) (w : Who) (f : Seq → Seq) : (s.modSeq w f).raised = s.raised := rfl
@[simp] theorem State.modSeq_now (s : State) (w : Who) (f : Seq → Seq) : (s.modSeq w f).now = s.now := rfl
@[simp] theorem State.modSeq_tb (s : State) (w : Who) (f : Seq → Seq) : (s.modSeq w f).tb = s.tb := rfl
@[simp] theorem State.modSeq_tbPart (s : State) (w : Who) (f : Seq → Seq) : (s.modSeq w f).tbPart = s.tbPart := rfl
@[simp] theorem State.modSeq_mem (s : State) (w : Who) (f : Seq → Seq) : (s.modSeq w f).mem = s.mem := rfl
@[simp] theorem State.modSeq_poison (s : State) (w : Who) (f : Seq → Seq) : (s.modSeq w f).poison = s.poison := rfl
@[simp] theorem State.modSeq_hist (s : State) (w : Who) (f : Seq → Seq) : (s.modSeq w f).hist = s.hist := rfl
@[simp] theorem State.modSeq_applied (s : State) (w : Who) (f : Seq → Seq) : (s.modSeq w f).applied = s.applied := rfl
@[simp] theorem State.modSeq_eaten (s : State) (w : Who) (f : Seq → Seq) : (s.modSeq w f).eaten = s.eaten := rfl
@[simp] theorem State.modSeq_holders (s : State) (w : Who) (f : Seq → Seq) : (s.modSeq w f).holders = s.holders := rfl
@[simp] theorem State.modSeq_agents (s : State) (w : Who) (f : Seq → Seq) : (s.modSeq w f).agents = s.agents := rfl
@[simp] theorem State.modSeq_unseen (s : State) (w : Who) (f : Seq → Seq) : (s.modSeq w f).unseen = s.unseen := rfl
@[simp] theorem State.modSeq_flight (s : State) (w : Who) (f : Seq → Seq) : (s.modSeq w f).flight = s.flight := rfl
@[simp] theorem State.modSeq_msgs (s : State) (w : Who) (f : Seq → Seq) : (s.modSeq w f).msgs = s.msgs := rfl
@[simp] theorem State.modSeq_msgSent (s : State) (w : Who) (f : Seq → Seq) : (s.modSeq w f).msgSent = s.msgSent := rfl
@[simp] theorem State.modSeq_msgDone (s : State) (w : Who) (f : Seq → Seq) : (s.modSeq w f).msgDone = s.msgDone := rfl
@[simp] theorem State.modSeq_clusters (s : State) (w : Who) (f : Seq → Seq) : (s.modSeq w f).clusters = s.clusters := rfl
@[simp] theorem State.modSeq_dies (s : State) (w : Who) (f : Seq → Seq) : (s.modSeq w f).dies = s.dies := rfl
@[simp] theorem State.modSeq_links (s : State) (w : Who) (f : Seq → Seq) : (s.modSeq w f).links = s.links := rfl
@[simp] theorem State.modSeq_cuts (s : State) (w : Who) (f : Seq → Seq) : (s.modSeq w f).cuts = s.cuts := rfl
@[simp] theorem State.modSeq_rseqDone (s : State) (w : Who) (f : Seq → Seq) : (s.modSeq w f).rseqDone = s.rseqDone := rfl
@[simp] theorem State.modSeq_replies (s : State) (w : Who) (f : Seq → Seq) : (s.modSeq w f).replies = s.replies := rfl
@[simp] theorem State.modSeq_peerReqs (s : State) (w : Who) (f : Seq → Seq) : (s.modSeq w f).peerReqs = s.peerReqs := rfl
@[simp] theorem State.modSeq_peerAsked (s : State) (w : Who) (f : Seq → Seq) : (s.modSeq w f).peerAsked = s.peerAsked := rfl
@[simp] theorem State.modSeq_peerReply (s : State) (w : Who) (f : Seq → Seq) : (s.modSeq w f).peerReply = s.peerReply := rfl
@[simp] theorem State.modSeq_ports (s : State) (w : Who) (f : Seq → Seq) : (s.modSeq w f).ports = s.ports := rfl
@[simp] theorem State.modSeq_bars (s : State) (w : Who) (f : Seq → Seq) : (s.modSeq w f).bars = s.bars := rfl
@[simp] theorem State.modSeq_barGen (s : State) (w : Who) (f : Seq → Seq) : (s.modSeq w f).barGen = s.barGen := rfl
@[simp] theorem State.modSeq_host (s : State) (w : Who) (f : Seq → Seq) : (s.modSeq w f).host = s.host := rfl
@[simp] theorem State.modSeq_ctxs (s : State) (w : Who) (f : Seq → Seq) : (s.modSeq w f).ctxs = s.ctxs := rfl
@[simp] theorem State.modSeq_torn (s : State) (w : Who) (f : Seq → Seq) : (s.modSeq w f).torn = s.torn := rfl
@[simp] theorem State.modSeq_acl (s : State) (w : Who) (f : Seq → Seq) : (s.modSeq w f).acl = s.acl := rfl
@[simp] theorem State.modSeq_weights (s : State) (w : Who) (f : Seq → Seq) : (s.modSeq w f).weights = s.weights := rfl
@[simp] theorem State.modSeq_saved (s : State) (w : Who) (f : Seq → Seq) : (s.modSeq w f).saved = s.saved := rfl
@[simp] theorem State.modSeq_saveSeq (s : State) (w : Who) (f : Seq → Seq) : (s.modSeq w f).saveSeq = s.saveSeq := rfl
@[simp] theorem State.modSeq_serial (s : State) (w : Who) (f : Seq → Seq) : (s.modSeq w f).serial = s.serial := rfl
@[simp] theorem State.modSeq_fenced (s : State) (w : Who) (f : Seq → Seq) : (s.modSeq w f).fenced = s.fenced := rfl
@[simp] theorem State.modSeq_worn (s : State) (w : Who) (f : Seq → Seq) : (s.modSeq w f).worn = s.worn := rfl
@[simp] theorem State.modSeq_tests (s : State) (w : Who) (f : Seq → Seq) : (s.modSeq w f).tests = s.tests := rfl
@[simp] theorem State.modSeq_corrected (s : State) (w : Who) (f : Seq → Seq) : (s.modSeq w f).corrected = s.corrected := rfl
@[simp] theorem State.modSeq_scrubMin (s : State) (w : Who) (f : Seq → Seq) : (s.modSeq w f).scrubMin = s.scrubMin := rfl
@[simp] theorem State.modSeq_scrubPer (s : State) (w : Who) (f : Seq → Seq) : (s.modSeq w f).scrubPer = s.scrubPer := rfl
@[simp] theorem State.modSeq_scrubStart (s : State) (w : Who) (f : Seq → Seq) : (s.modSeq w f).scrubStart = s.scrubStart := rfl
@[simp] theorem State.modSeq_scrubbed (s : State) (w : Who) (f : Seq → Seq) : (s.modSeq w f).scrubbed = s.scrubbed := rfl
@[simp] theorem State.modSeq_rotMs (s : State) (w : Who) (f : Seq → Seq) : (s.modSeq w f).rotMs = s.rotMs := rfl
@[simp] theorem State.modSeq_corrThreshold (s : State) (w : Who) (f : Seq → Seq) : (s.modSeq w f).corrThreshold = s.corrThreshold := rfl
@[simp] theorem State.modSeq_tickets (s : State) (w : Who) (f : Seq → Seq) : (s.modSeq w f).tickets = s.tickets := rfl
@[simp] theorem State.modSeq_nextTicket (s : State) (w : Who) (f : Seq → Seq) : (s.modSeq w f).nextTicket = s.nextTicket := rfl
@[simp] theorem State.modSeq_off (s : State) (w : Who) (f : Seq → Seq) : (s.modSeq w f).off = s.off := rfl
@[simp] theorem State.modSeq_booted (s : State) (w : Who) (f : Seq → Seq) : (s.modSeq w f).booted = s.booted := rfl
@[simp] theorem State.modSeq_afterPower (s : State) (w : Who) (f : Seq → Seq) : (s.modSeq w f).afterPower = s.afterPower := rfl
@[simp] theorem State.modSeq_joules (s : State) (w : Who) (f : Seq → Seq) : (s.modSeq w f).joules = s.joules := rfl
@[simp] theorem State.modSeq_ckptArmed (s : State) (w : Who) (f : Seq → Seq) : (s.modSeq w f).ckptArmed = s.ckptArmed := rfl
@[simp] theorem State.modSeq_loss (s : State) (w : Who) (f : Seq → Seq) : (s.modSeq w f).loss = s.loss := rfl
@[simp] theorem State.modSeq_lossList (s : State) (w : Who) (f : Seq → Seq) : (s.modSeq w f).lossList = s.lossList := rfl
@[simp] theorem State.modSeq_lossTime (s : State) (w : Who) (f : Seq → Seq) : (s.modSeq w f).lossTime = s.lossTime := rfl
@[simp] theorem State.modSeq_draft (s : State) (w : Who) (f : Seq → Seq) : (s.modSeq w f).draft = s.draft := rfl
@[simp] theorem State.modSeq_image (s : State) (w : Who) (f : Seq → Seq) : (s.modSeq w f).image = s.image := rfl
@[simp] theorem State.modSeq_mr (s : State) (w : Who) (f : Seq → Seq) : (s.modSeq w f).mr = s.mr := rfl
@[simp] theorem State.modSeq_svn (s : State) (w : Who) (f : Seq → Seq) : (s.modSeq w f).svn = s.svn := rfl
@[simp] theorem State.modSeq_minSvn (s : State) (w : Who) (f : Seq → Seq) : (s.modSeq w f).minSvn = s.minSvn := rfl
@[simp] theorem State.modSeq_staged (s : State) (w : Who) (f : Seq → Seq) : (s.modSeq w f).staged = s.staged := rfl
@[simp] theorem State.modSeq_installed (s : State) (w : Who) (f : Seq → Seq) : (s.modSeq w f).installed = s.installed := rfl

/-! ## State.modQ -/

@[simp] theorem State.modQ_agenda (s : State) (w : Who) (n : Fin 16) (f : Queue → Queue) : (s.modQ w n f).agenda = s.agenda := rfl
@[simp] theorem State.modQ_choice (s : State) (w : Who) (n : Fin 16) (f : Queue → Queue) : (s.modQ w n f).choice = s.choice := rfl
@[simp] theorem State.modQ_cur (s : State) (w : Who) (n : Fin 16) (f : Queue → Queue) : (s.modQ w n f).cur = s.cur := rfl
@[simp] theorem State.modQ_phase (s : State) (w : Who) (n : Fin 16) (f : Queue → Queue) : (s.modQ w n f).phase = s.phase := rfl
@[simp] theorem State.modQ_raised (s : State) (w : Who) (n : Fin 16) (f : Queue → Queue) : (s.modQ w n f).raised = s.raised := rfl
@[simp] theorem State.modQ_now (s : State) (w : Who) (n : Fin 16) (f : Queue → Queue) : (s.modQ w n f).now = s.now := rfl
@[simp] theorem State.modQ_tb (s : State) (w : Who) (n : Fin 16) (f : Queue → Queue) : (s.modQ w n f).tb = s.tb := rfl
@[simp] theorem State.modQ_tbPart (s : State) (w : Who) (n : Fin 16) (f : Queue → Queue) : (s.modQ w n f).tbPart = s.tbPart := rfl
@[simp] theorem State.modQ_mem (s : State) (w : Who) (n : Fin 16) (f : Queue → Queue) : (s.modQ w n f).mem = s.mem := rfl
@[simp] theorem State.modQ_poison (s : State) (w : Who) (n : Fin 16) (f : Queue → Queue) : (s.modQ w n f).poison = s.poison := rfl
@[simp] theorem State.modQ_hist (s : State) (w : Who) (n : Fin 16) (f : Queue → Queue) : (s.modQ w n f).hist = s.hist := rfl
@[simp] theorem State.modQ_applied (s : State) (w : Who) (n : Fin 16) (f : Queue → Queue) : (s.modQ w n f).applied = s.applied := rfl
@[simp] theorem State.modQ_eaten (s : State) (w : Who) (n : Fin 16) (f : Queue → Queue) : (s.modQ w n f).eaten = s.eaten := rfl
@[simp] theorem State.modQ_holders (s : State) (w : Who) (n : Fin 16) (f : Queue → Queue) : (s.modQ w n f).holders = s.holders := rfl
@[simp] theorem State.modQ_agents (s : State) (w : Who) (n : Fin 16) (f : Queue → Queue) : (s.modQ w n f).agents = s.agents := rfl
@[simp] theorem State.modQ_unseen (s : State) (w : Who) (n : Fin 16) (f : Queue → Queue) : (s.modQ w n f).unseen = s.unseen := rfl
@[simp] theorem State.modQ_flight (s : State) (w : Who) (n : Fin 16) (f : Queue → Queue) : (s.modQ w n f).flight = s.flight := rfl
@[simp] theorem State.modQ_msgs (s : State) (w : Who) (n : Fin 16) (f : Queue → Queue) : (s.modQ w n f).msgs = s.msgs := rfl
@[simp] theorem State.modQ_msgSent (s : State) (w : Who) (n : Fin 16) (f : Queue → Queue) : (s.modQ w n f).msgSent = s.msgSent := rfl
@[simp] theorem State.modQ_msgDone (s : State) (w : Who) (n : Fin 16) (f : Queue → Queue) : (s.modQ w n f).msgDone = s.msgDone := rfl
@[simp] theorem State.modQ_clusters (s : State) (w : Who) (n : Fin 16) (f : Queue → Queue) : (s.modQ w n f).clusters = s.clusters := rfl
@[simp] theorem State.modQ_dies (s : State) (w : Who) (n : Fin 16) (f : Queue → Queue) : (s.modQ w n f).dies = s.dies := rfl
@[simp] theorem State.modQ_links (s : State) (w : Who) (n : Fin 16) (f : Queue → Queue) : (s.modQ w n f).links = s.links := rfl
@[simp] theorem State.modQ_cuts (s : State) (w : Who) (n : Fin 16) (f : Queue → Queue) : (s.modQ w n f).cuts = s.cuts := rfl
@[simp] theorem State.modQ_rseqDone (s : State) (w : Who) (n : Fin 16) (f : Queue → Queue) : (s.modQ w n f).rseqDone = s.rseqDone := rfl
@[simp] theorem State.modQ_replies (s : State) (w : Who) (n : Fin 16) (f : Queue → Queue) : (s.modQ w n f).replies = s.replies := rfl
@[simp] theorem State.modQ_peerReqs (s : State) (w : Who) (n : Fin 16) (f : Queue → Queue) : (s.modQ w n f).peerReqs = s.peerReqs := rfl
@[simp] theorem State.modQ_peerAsked (s : State) (w : Who) (n : Fin 16) (f : Queue → Queue) : (s.modQ w n f).peerAsked = s.peerAsked := rfl
@[simp] theorem State.modQ_peerReply (s : State) (w : Who) (n : Fin 16) (f : Queue → Queue) : (s.modQ w n f).peerReply = s.peerReply := rfl
@[simp] theorem State.modQ_ports (s : State) (w : Who) (n : Fin 16) (f : Queue → Queue) : (s.modQ w n f).ports = s.ports := rfl
@[simp] theorem State.modQ_bars (s : State) (w : Who) (n : Fin 16) (f : Queue → Queue) : (s.modQ w n f).bars = s.bars := rfl
@[simp] theorem State.modQ_barGen (s : State) (w : Who) (n : Fin 16) (f : Queue → Queue) : (s.modQ w n f).barGen = s.barGen := rfl
@[simp] theorem State.modQ_host (s : State) (w : Who) (n : Fin 16) (f : Queue → Queue) : (s.modQ w n f).host = s.host := rfl
@[simp] theorem State.modQ_ctxs (s : State) (w : Who) (n : Fin 16) (f : Queue → Queue) : (s.modQ w n f).ctxs = s.ctxs := rfl
@[simp] theorem State.modQ_torn (s : State) (w : Who) (n : Fin 16) (f : Queue → Queue) : (s.modQ w n f).torn = s.torn := rfl
@[simp] theorem State.modQ_acl (s : State) (w : Who) (n : Fin 16) (f : Queue → Queue) : (s.modQ w n f).acl = s.acl := rfl
@[simp] theorem State.modQ_weights (s : State) (w : Who) (n : Fin 16) (f : Queue → Queue) : (s.modQ w n f).weights = s.weights := rfl
@[simp] theorem State.modQ_saved (s : State) (w : Who) (n : Fin 16) (f : Queue → Queue) : (s.modQ w n f).saved = s.saved := rfl
@[simp] theorem State.modQ_saveSeq (s : State) (w : Who) (n : Fin 16) (f : Queue → Queue) : (s.modQ w n f).saveSeq = s.saveSeq := rfl
@[simp] theorem State.modQ_serial (s : State) (w : Who) (n : Fin 16) (f : Queue → Queue) : (s.modQ w n f).serial = s.serial := rfl
@[simp] theorem State.modQ_fenced (s : State) (w : Who) (n : Fin 16) (f : Queue → Queue) : (s.modQ w n f).fenced = s.fenced := rfl
@[simp] theorem State.modQ_worn (s : State) (w : Who) (n : Fin 16) (f : Queue → Queue) : (s.modQ w n f).worn = s.worn := rfl
@[simp] theorem State.modQ_tests (s : State) (w : Who) (n : Fin 16) (f : Queue → Queue) : (s.modQ w n f).tests = s.tests := rfl
@[simp] theorem State.modQ_corrected (s : State) (w : Who) (n : Fin 16) (f : Queue → Queue) : (s.modQ w n f).corrected = s.corrected := rfl
@[simp] theorem State.modQ_scrubMin (s : State) (w : Who) (n : Fin 16) (f : Queue → Queue) : (s.modQ w n f).scrubMin = s.scrubMin := rfl
@[simp] theorem State.modQ_scrubPer (s : State) (w : Who) (n : Fin 16) (f : Queue → Queue) : (s.modQ w n f).scrubPer = s.scrubPer := rfl
@[simp] theorem State.modQ_scrubStart (s : State) (w : Who) (n : Fin 16) (f : Queue → Queue) : (s.modQ w n f).scrubStart = s.scrubStart := rfl
@[simp] theorem State.modQ_scrubbed (s : State) (w : Who) (n : Fin 16) (f : Queue → Queue) : (s.modQ w n f).scrubbed = s.scrubbed := rfl
@[simp] theorem State.modQ_rotMs (s : State) (w : Who) (n : Fin 16) (f : Queue → Queue) : (s.modQ w n f).rotMs = s.rotMs := rfl
@[simp] theorem State.modQ_corrThreshold (s : State) (w : Who) (n : Fin 16) (f : Queue → Queue) : (s.modQ w n f).corrThreshold = s.corrThreshold := rfl
@[simp] theorem State.modQ_tickets (s : State) (w : Who) (n : Fin 16) (f : Queue → Queue) : (s.modQ w n f).tickets = s.tickets := rfl
@[simp] theorem State.modQ_nextTicket (s : State) (w : Who) (n : Fin 16) (f : Queue → Queue) : (s.modQ w n f).nextTicket = s.nextTicket := rfl
@[simp] theorem State.modQ_off (s : State) (w : Who) (n : Fin 16) (f : Queue → Queue) : (s.modQ w n f).off = s.off := rfl
@[simp] theorem State.modQ_booted (s : State) (w : Who) (n : Fin 16) (f : Queue → Queue) : (s.modQ w n f).booted = s.booted := rfl
@[simp] theorem State.modQ_afterPower (s : State) (w : Who) (n : Fin 16) (f : Queue → Queue) : (s.modQ w n f).afterPower = s.afterPower := rfl
@[simp] theorem State.modQ_joules (s : State) (w : Who) (n : Fin 16) (f : Queue → Queue) : (s.modQ w n f).joules = s.joules := rfl
@[simp] theorem State.modQ_ckptArmed (s : State) (w : Who) (n : Fin 16) (f : Queue → Queue) : (s.modQ w n f).ckptArmed = s.ckptArmed := rfl
@[simp] theorem State.modQ_loss (s : State) (w : Who) (n : Fin 16) (f : Queue → Queue) : (s.modQ w n f).loss = s.loss := rfl
@[simp] theorem State.modQ_lossList (s : State) (w : Who) (n : Fin 16) (f : Queue → Queue) : (s.modQ w n f).lossList = s.lossList := rfl
@[simp] theorem State.modQ_lossTime (s : State) (w : Who) (n : Fin 16) (f : Queue → Queue) : (s.modQ w n f).lossTime = s.lossTime := rfl
@[simp] theorem State.modQ_draft (s : State) (w : Who) (n : Fin 16) (f : Queue → Queue) : (s.modQ w n f).draft = s.draft := rfl
@[simp] theorem State.modQ_image (s : State) (w : Who) (n : Fin 16) (f : Queue → Queue) : (s.modQ w n f).image = s.image := rfl
@[simp] theorem State.modQ_mr (s : State) (w : Who) (n : Fin 16) (f : Queue → Queue) : (s.modQ w n f).mr = s.mr := rfl
@[simp] theorem State.modQ_svn (s : State) (w : Who) (n : Fin 16) (f : Queue → Queue) : (s.modQ w n f).svn = s.svn := rfl
@[simp] theorem State.modQ_minSvn (s : State) (w : Who) (n : Fin 16) (f : Queue → Queue) : (s.modQ w n f).minSvn = s.minSvn := rfl
@[simp] theorem State.modQ_staged (s : State) (w : Who) (n : Fin 16) (f : Queue → Queue) : (s.modQ w n f).staged = s.staged := rfl
@[simp] theorem State.modQ_installed (s : State) (w : Who) (n : Fin 16) (f : Queue → Queue) : (s.modQ w n f).installed = s.installed := rfl

/-! ## State.modClu -/

@[simp] theorem State.modClu_agenda (s : State) (u : CluId) (f : Cluster → Cluster) : (s.modClu u f).agenda = s.agenda := rfl
@[simp] theorem State.modClu_choice (s : State) (u : CluId) (f : Cluster → Cluster) : (s.modClu u f).choice = s.choice := rfl
@[simp] theorem State.modClu_cur (s : State) (u : CluId) (f : Cluster → Cluster) : (s.modClu u f).cur = s.cur := rfl
@[simp] theorem State.modClu_phase (s : State) (u : CluId) (f : Cluster → Cluster) : (s.modClu u f).phase = s.phase := rfl
@[simp] theorem State.modClu_raised (s : State) (u : CluId) (f : Cluster → Cluster) : (s.modClu u f).raised = s.raised := rfl
@[simp] theorem State.modClu_now (s : State) (u : CluId) (f : Cluster → Cluster) : (s.modClu u f).now = s.now := rfl
@[simp] theorem State.modClu_tb (s : State) (u : CluId) (f : Cluster → Cluster) : (s.modClu u f).tb = s.tb := rfl
@[simp] theorem State.modClu_tbPart (s : State) (u : CluId) (f : Cluster → Cluster) : (s.modClu u f).tbPart = s.tbPart := rfl
@[simp] theorem State.modClu_mem (s : State) (u : CluId) (f : Cluster → Cluster) : (s.modClu u f).mem = s.mem := rfl
@[simp] theorem State.modClu_poison (s : State) (u : CluId) (f : Cluster → Cluster) : (s.modClu u f).poison = s.poison := rfl
@[simp] theorem State.modClu_hist (s : State) (u : CluId) (f : Cluster → Cluster) : (s.modClu u f).hist = s.hist := rfl
@[simp] theorem State.modClu_applied (s : State) (u : CluId) (f : Cluster → Cluster) : (s.modClu u f).applied = s.applied := rfl
@[simp] theorem State.modClu_eaten (s : State) (u : CluId) (f : Cluster → Cluster) : (s.modClu u f).eaten = s.eaten := rfl
@[simp] theorem State.modClu_holders (s : State) (u : CluId) (f : Cluster → Cluster) : (s.modClu u f).holders = s.holders := rfl
@[simp] theorem State.modClu_agents (s : State) (u : CluId) (f : Cluster → Cluster) : (s.modClu u f).agents = s.agents := rfl
@[simp] theorem State.modClu_unseen (s : State) (u : CluId) (f : Cluster → Cluster) : (s.modClu u f).unseen = s.unseen := rfl
@[simp] theorem State.modClu_flight (s : State) (u : CluId) (f : Cluster → Cluster) : (s.modClu u f).flight = s.flight := rfl
@[simp] theorem State.modClu_msgs (s : State) (u : CluId) (f : Cluster → Cluster) : (s.modClu u f).msgs = s.msgs := rfl
@[simp] theorem State.modClu_msgSent (s : State) (u : CluId) (f : Cluster → Cluster) : (s.modClu u f).msgSent = s.msgSent := rfl
@[simp] theorem State.modClu_msgDone (s : State) (u : CluId) (f : Cluster → Cluster) : (s.modClu u f).msgDone = s.msgDone := rfl
@[simp] theorem State.modClu_cores (s : State) (u : CluId) (f : Cluster → Cluster) : (s.modClu u f).cores = s.cores := rfl
@[simp] theorem State.modClu_dies (s : State) (u : CluId) (f : Cluster → Cluster) : (s.modClu u f).dies = s.dies := rfl
@[simp] theorem State.modClu_links (s : State) (u : CluId) (f : Cluster → Cluster) : (s.modClu u f).links = s.links := rfl
@[simp] theorem State.modClu_cuts (s : State) (u : CluId) (f : Cluster → Cluster) : (s.modClu u f).cuts = s.cuts := rfl
@[simp] theorem State.modClu_rseqDone (s : State) (u : CluId) (f : Cluster → Cluster) : (s.modClu u f).rseqDone = s.rseqDone := rfl
@[simp] theorem State.modClu_replies (s : State) (u : CluId) (f : Cluster → Cluster) : (s.modClu u f).replies = s.replies := rfl
@[simp] theorem State.modClu_peerReqs (s : State) (u : CluId) (f : Cluster → Cluster) : (s.modClu u f).peerReqs = s.peerReqs := rfl
@[simp] theorem State.modClu_peerAsked (s : State) (u : CluId) (f : Cluster → Cluster) : (s.modClu u f).peerAsked = s.peerAsked := rfl
@[simp] theorem State.modClu_peerReply (s : State) (u : CluId) (f : Cluster → Cluster) : (s.modClu u f).peerReply = s.peerReply := rfl
@[simp] theorem State.modClu_ports (s : State) (u : CluId) (f : Cluster → Cluster) : (s.modClu u f).ports = s.ports := rfl
@[simp] theorem State.modClu_bars (s : State) (u : CluId) (f : Cluster → Cluster) : (s.modClu u f).bars = s.bars := rfl
@[simp] theorem State.modClu_barGen (s : State) (u : CluId) (f : Cluster → Cluster) : (s.modClu u f).barGen = s.barGen := rfl
@[simp] theorem State.modClu_host (s : State) (u : CluId) (f : Cluster → Cluster) : (s.modClu u f).host = s.host := rfl
@[simp] theorem State.modClu_ctxs (s : State) (u : CluId) (f : Cluster → Cluster) : (s.modClu u f).ctxs = s.ctxs := rfl
@[simp] theorem State.modClu_torn (s : State) (u : CluId) (f : Cluster → Cluster) : (s.modClu u f).torn = s.torn := rfl
@[simp] theorem State.modClu_acl (s : State) (u : CluId) (f : Cluster → Cluster) : (s.modClu u f).acl = s.acl := rfl
@[simp] theorem State.modClu_weights (s : State) (u : CluId) (f : Cluster → Cluster) : (s.modClu u f).weights = s.weights := rfl
@[simp] theorem State.modClu_saved (s : State) (u : CluId) (f : Cluster → Cluster) : (s.modClu u f).saved = s.saved := rfl
@[simp] theorem State.modClu_saveSeq (s : State) (u : CluId) (f : Cluster → Cluster) : (s.modClu u f).saveSeq = s.saveSeq := rfl
@[simp] theorem State.modClu_serial (s : State) (u : CluId) (f : Cluster → Cluster) : (s.modClu u f).serial = s.serial := rfl
@[simp] theorem State.modClu_fenced (s : State) (u : CluId) (f : Cluster → Cluster) : (s.modClu u f).fenced = s.fenced := rfl
@[simp] theorem State.modClu_worn (s : State) (u : CluId) (f : Cluster → Cluster) : (s.modClu u f).worn = s.worn := rfl
@[simp] theorem State.modClu_tests (s : State) (u : CluId) (f : Cluster → Cluster) : (s.modClu u f).tests = s.tests := rfl
@[simp] theorem State.modClu_corrected (s : State) (u : CluId) (f : Cluster → Cluster) : (s.modClu u f).corrected = s.corrected := rfl
@[simp] theorem State.modClu_scrubMin (s : State) (u : CluId) (f : Cluster → Cluster) : (s.modClu u f).scrubMin = s.scrubMin := rfl
@[simp] theorem State.modClu_scrubPer (s : State) (u : CluId) (f : Cluster → Cluster) : (s.modClu u f).scrubPer = s.scrubPer := rfl
@[simp] theorem State.modClu_scrubStart (s : State) (u : CluId) (f : Cluster → Cluster) : (s.modClu u f).scrubStart = s.scrubStart := rfl
@[simp] theorem State.modClu_scrubbed (s : State) (u : CluId) (f : Cluster → Cluster) : (s.modClu u f).scrubbed = s.scrubbed := rfl
@[simp] theorem State.modClu_rotMs (s : State) (u : CluId) (f : Cluster → Cluster) : (s.modClu u f).rotMs = s.rotMs := rfl
@[simp] theorem State.modClu_corrThreshold (s : State) (u : CluId) (f : Cluster → Cluster) : (s.modClu u f).corrThreshold = s.corrThreshold := rfl
@[simp] theorem State.modClu_tickets (s : State) (u : CluId) (f : Cluster → Cluster) : (s.modClu u f).tickets = s.tickets := rfl
@[simp] theorem State.modClu_nextTicket (s : State) (u : CluId) (f : Cluster → Cluster) : (s.modClu u f).nextTicket = s.nextTicket := rfl
@[simp] theorem State.modClu_off (s : State) (u : CluId) (f : Cluster → Cluster) : (s.modClu u f).off = s.off := rfl
@[simp] theorem State.modClu_booted (s : State) (u : CluId) (f : Cluster → Cluster) : (s.modClu u f).booted = s.booted := rfl
@[simp] theorem State.modClu_afterPower (s : State) (u : CluId) (f : Cluster → Cluster) : (s.modClu u f).afterPower = s.afterPower := rfl
@[simp] theorem State.modClu_joules (s : State) (u : CluId) (f : Cluster → Cluster) : (s.modClu u f).joules = s.joules := rfl
@[simp] theorem State.modClu_ckptArmed (s : State) (u : CluId) (f : Cluster → Cluster) : (s.modClu u f).ckptArmed = s.ckptArmed := rfl
@[simp] theorem State.modClu_loss (s : State) (u : CluId) (f : Cluster → Cluster) : (s.modClu u f).loss = s.loss := rfl
@[simp] theorem State.modClu_lossList (s : State) (u : CluId) (f : Cluster → Cluster) : (s.modClu u f).lossList = s.lossList := rfl
@[simp] theorem State.modClu_lossTime (s : State) (u : CluId) (f : Cluster → Cluster) : (s.modClu u f).lossTime = s.lossTime := rfl
@[simp] theorem State.modClu_draft (s : State) (u : CluId) (f : Cluster → Cluster) : (s.modClu u f).draft = s.draft := rfl
@[simp] theorem State.modClu_image (s : State) (u : CluId) (f : Cluster → Cluster) : (s.modClu u f).image = s.image := rfl
@[simp] theorem State.modClu_mr (s : State) (u : CluId) (f : Cluster → Cluster) : (s.modClu u f).mr = s.mr := rfl
@[simp] theorem State.modClu_svn (s : State) (u : CluId) (f : Cluster → Cluster) : (s.modClu u f).svn = s.svn := rfl
@[simp] theorem State.modClu_minSvn (s : State) (u : CluId) (f : Cluster → Cluster) : (s.modClu u f).minSvn = s.minSvn := rfl
@[simp] theorem State.modClu_staged (s : State) (u : CluId) (f : Cluster → Cluster) : (s.modClu u f).staged = s.staged := rfl
@[simp] theorem State.modClu_installed (s : State) (u : CluId) (f : Cluster → Cluster) : (s.modClu u f).installed = s.installed := rfl

/-! ## State.modDie -/

@[simp] theorem State.modDie_agenda (s : State) (d : DieId) (f : Die → Die) : (s.modDie d f).agenda = s.agenda := rfl
@[simp] theorem State.modDie_choice (s : State) (d : DieId) (f : Die → Die) : (s.modDie d f).choice = s.choice := rfl
@[simp] theorem State.modDie_cur (s : State) (d : DieId) (f : Die → Die) : (s.modDie d f).cur = s.cur := rfl
@[simp] theorem State.modDie_phase (s : State) (d : DieId) (f : Die → Die) : (s.modDie d f).phase = s.phase := rfl
@[simp] theorem State.modDie_raised (s : State) (d : DieId) (f : Die → Die) : (s.modDie d f).raised = s.raised := rfl
@[simp] theorem State.modDie_now (s : State) (d : DieId) (f : Die → Die) : (s.modDie d f).now = s.now := rfl
@[simp] theorem State.modDie_tb (s : State) (d : DieId) (f : Die → Die) : (s.modDie d f).tb = s.tb := rfl
@[simp] theorem State.modDie_tbPart (s : State) (d : DieId) (f : Die → Die) : (s.modDie d f).tbPart = s.tbPart := rfl
@[simp] theorem State.modDie_mem (s : State) (d : DieId) (f : Die → Die) : (s.modDie d f).mem = s.mem := rfl
@[simp] theorem State.modDie_poison (s : State) (d : DieId) (f : Die → Die) : (s.modDie d f).poison = s.poison := rfl
@[simp] theorem State.modDie_hist (s : State) (d : DieId) (f : Die → Die) : (s.modDie d f).hist = s.hist := rfl
@[simp] theorem State.modDie_applied (s : State) (d : DieId) (f : Die → Die) : (s.modDie d f).applied = s.applied := rfl
@[simp] theorem State.modDie_eaten (s : State) (d : DieId) (f : Die → Die) : (s.modDie d f).eaten = s.eaten := rfl
@[simp] theorem State.modDie_holders (s : State) (d : DieId) (f : Die → Die) : (s.modDie d f).holders = s.holders := rfl
@[simp] theorem State.modDie_agents (s : State) (d : DieId) (f : Die → Die) : (s.modDie d f).agents = s.agents := rfl
@[simp] theorem State.modDie_unseen (s : State) (d : DieId) (f : Die → Die) : (s.modDie d f).unseen = s.unseen := rfl
@[simp] theorem State.modDie_flight (s : State) (d : DieId) (f : Die → Die) : (s.modDie d f).flight = s.flight := rfl
@[simp] theorem State.modDie_msgs (s : State) (d : DieId) (f : Die → Die) : (s.modDie d f).msgs = s.msgs := rfl
@[simp] theorem State.modDie_msgSent (s : State) (d : DieId) (f : Die → Die) : (s.modDie d f).msgSent = s.msgSent := rfl
@[simp] theorem State.modDie_msgDone (s : State) (d : DieId) (f : Die → Die) : (s.modDie d f).msgDone = s.msgDone := rfl
@[simp] theorem State.modDie_cores (s : State) (d : DieId) (f : Die → Die) : (s.modDie d f).cores = s.cores := rfl
@[simp] theorem State.modDie_clusters (s : State) (d : DieId) (f : Die → Die) : (s.modDie d f).clusters = s.clusters := rfl
@[simp] theorem State.modDie_links (s : State) (d : DieId) (f : Die → Die) : (s.modDie d f).links = s.links := rfl
@[simp] theorem State.modDie_cuts (s : State) (d : DieId) (f : Die → Die) : (s.modDie d f).cuts = s.cuts := rfl
@[simp] theorem State.modDie_rseqDone (s : State) (d : DieId) (f : Die → Die) : (s.modDie d f).rseqDone = s.rseqDone := rfl
@[simp] theorem State.modDie_replies (s : State) (d : DieId) (f : Die → Die) : (s.modDie d f).replies = s.replies := rfl
@[simp] theorem State.modDie_peerReqs (s : State) (d : DieId) (f : Die → Die) : (s.modDie d f).peerReqs = s.peerReqs := rfl
@[simp] theorem State.modDie_peerAsked (s : State) (d : DieId) (f : Die → Die) : (s.modDie d f).peerAsked = s.peerAsked := rfl
@[simp] theorem State.modDie_peerReply (s : State) (d : DieId) (f : Die → Die) : (s.modDie d f).peerReply = s.peerReply := rfl
@[simp] theorem State.modDie_ports (s : State) (d : DieId) (f : Die → Die) : (s.modDie d f).ports = s.ports := rfl
@[simp] theorem State.modDie_bars (s : State) (d : DieId) (f : Die → Die) : (s.modDie d f).bars = s.bars := rfl
@[simp] theorem State.modDie_barGen (s : State) (d : DieId) (f : Die → Die) : (s.modDie d f).barGen = s.barGen := rfl
@[simp] theorem State.modDie_host (s : State) (d : DieId) (f : Die → Die) : (s.modDie d f).host = s.host := rfl
@[simp] theorem State.modDie_ctxs (s : State) (d : DieId) (f : Die → Die) : (s.modDie d f).ctxs = s.ctxs := rfl
@[simp] theorem State.modDie_torn (s : State) (d : DieId) (f : Die → Die) : (s.modDie d f).torn = s.torn := rfl
@[simp] theorem State.modDie_acl (s : State) (d : DieId) (f : Die → Die) : (s.modDie d f).acl = s.acl := rfl
@[simp] theorem State.modDie_weights (s : State) (d : DieId) (f : Die → Die) : (s.modDie d f).weights = s.weights := rfl
@[simp] theorem State.modDie_saved (s : State) (d : DieId) (f : Die → Die) : (s.modDie d f).saved = s.saved := rfl
@[simp] theorem State.modDie_saveSeq (s : State) (d : DieId) (f : Die → Die) : (s.modDie d f).saveSeq = s.saveSeq := rfl
@[simp] theorem State.modDie_serial (s : State) (d : DieId) (f : Die → Die) : (s.modDie d f).serial = s.serial := rfl
@[simp] theorem State.modDie_fenced (s : State) (d : DieId) (f : Die → Die) : (s.modDie d f).fenced = s.fenced := rfl
@[simp] theorem State.modDie_worn (s : State) (d : DieId) (f : Die → Die) : (s.modDie d f).worn = s.worn := rfl
@[simp] theorem State.modDie_tests (s : State) (d : DieId) (f : Die → Die) : (s.modDie d f).tests = s.tests := rfl
@[simp] theorem State.modDie_corrected (s : State) (d : DieId) (f : Die → Die) : (s.modDie d f).corrected = s.corrected := rfl
@[simp] theorem State.modDie_scrubMin (s : State) (d : DieId) (f : Die → Die) : (s.modDie d f).scrubMin = s.scrubMin := rfl
@[simp] theorem State.modDie_scrubPer (s : State) (d : DieId) (f : Die → Die) : (s.modDie d f).scrubPer = s.scrubPer := rfl
@[simp] theorem State.modDie_scrubStart (s : State) (d : DieId) (f : Die → Die) : (s.modDie d f).scrubStart = s.scrubStart := rfl
@[simp] theorem State.modDie_scrubbed (s : State) (d : DieId) (f : Die → Die) : (s.modDie d f).scrubbed = s.scrubbed := rfl
@[simp] theorem State.modDie_rotMs (s : State) (d : DieId) (f : Die → Die) : (s.modDie d f).rotMs = s.rotMs := rfl
@[simp] theorem State.modDie_corrThreshold (s : State) (d : DieId) (f : Die → Die) : (s.modDie d f).corrThreshold = s.corrThreshold := rfl
@[simp] theorem State.modDie_tickets (s : State) (d : DieId) (f : Die → Die) : (s.modDie d f).tickets = s.tickets := rfl
@[simp] theorem State.modDie_nextTicket (s : State) (d : DieId) (f : Die → Die) : (s.modDie d f).nextTicket = s.nextTicket := rfl
@[simp] theorem State.modDie_off (s : State) (d : DieId) (f : Die → Die) : (s.modDie d f).off = s.off := rfl
@[simp] theorem State.modDie_booted (s : State) (d : DieId) (f : Die → Die) : (s.modDie d f).booted = s.booted := rfl
@[simp] theorem State.modDie_afterPower (s : State) (d : DieId) (f : Die → Die) : (s.modDie d f).afterPower = s.afterPower := rfl
@[simp] theorem State.modDie_joules (s : State) (d : DieId) (f : Die → Die) : (s.modDie d f).joules = s.joules := rfl
@[simp] theorem State.modDie_ckptArmed (s : State) (d : DieId) (f : Die → Die) : (s.modDie d f).ckptArmed = s.ckptArmed := rfl
@[simp] theorem State.modDie_loss (s : State) (d : DieId) (f : Die → Die) : (s.modDie d f).loss = s.loss := rfl
@[simp] theorem State.modDie_lossList (s : State) (d : DieId) (f : Die → Die) : (s.modDie d f).lossList = s.lossList := rfl
@[simp] theorem State.modDie_lossTime (s : State) (d : DieId) (f : Die → Die) : (s.modDie d f).lossTime = s.lossTime := rfl
@[simp] theorem State.modDie_draft (s : State) (d : DieId) (f : Die → Die) : (s.modDie d f).draft = s.draft := rfl
@[simp] theorem State.modDie_image (s : State) (d : DieId) (f : Die → Die) : (s.modDie d f).image = s.image := rfl
@[simp] theorem State.modDie_mr (s : State) (d : DieId) (f : Die → Die) : (s.modDie d f).mr = s.mr := rfl
@[simp] theorem State.modDie_svn (s : State) (d : DieId) (f : Die → Die) : (s.modDie d f).svn = s.svn := rfl
@[simp] theorem State.modDie_minSvn (s : State) (d : DieId) (f : Die → Die) : (s.modDie d f).minSvn = s.minSvn := rfl
@[simp] theorem State.modDie_staged (s : State) (d : DieId) (f : Die → Die) : (s.modDie d f).staged = s.staged := rfl
@[simp] theorem State.modDie_installed (s : State) (d : DieId) (f : Die → Die) : (s.modDie d f).installed = s.installed := rfl

/-! ## State.modAgent -/

@[simp] theorem State.modAgent_agenda (s : State) (a : Nat) (f : Agent → Agent) : (s.modAgent a f).agenda = s.agenda := rfl
@[simp] theorem State.modAgent_choice (s : State) (a : Nat) (f : Agent → Agent) : (s.modAgent a f).choice = s.choice := rfl
@[simp] theorem State.modAgent_cur (s : State) (a : Nat) (f : Agent → Agent) : (s.modAgent a f).cur = s.cur := rfl
@[simp] theorem State.modAgent_phase (s : State) (a : Nat) (f : Agent → Agent) : (s.modAgent a f).phase = s.phase := rfl
@[simp] theorem State.modAgent_raised (s : State) (a : Nat) (f : Agent → Agent) : (s.modAgent a f).raised = s.raised := rfl
@[simp] theorem State.modAgent_now (s : State) (a : Nat) (f : Agent → Agent) : (s.modAgent a f).now = s.now := rfl
@[simp] theorem State.modAgent_tb (s : State) (a : Nat) (f : Agent → Agent) : (s.modAgent a f).tb = s.tb := rfl
@[simp] theorem State.modAgent_tbPart (s : State) (a : Nat) (f : Agent → Agent) : (s.modAgent a f).tbPart = s.tbPart := rfl
@[simp] theorem State.modAgent_mem (s : State) (a : Nat) (f : Agent → Agent) : (s.modAgent a f).mem = s.mem := rfl
@[simp] theorem State.modAgent_poison (s : State) (a : Nat) (f : Agent → Agent) : (s.modAgent a f).poison = s.poison := rfl
@[simp] theorem State.modAgent_hist (s : State) (a : Nat) (f : Agent → Agent) : (s.modAgent a f).hist = s.hist := rfl
@[simp] theorem State.modAgent_applied (s : State) (a : Nat) (f : Agent → Agent) : (s.modAgent a f).applied = s.applied := rfl
@[simp] theorem State.modAgent_eaten (s : State) (a : Nat) (f : Agent → Agent) : (s.modAgent a f).eaten = s.eaten := rfl
@[simp] theorem State.modAgent_holders (s : State) (a : Nat) (f : Agent → Agent) : (s.modAgent a f).holders = s.holders := rfl
@[simp] theorem State.modAgent_unseen (s : State) (a : Nat) (f : Agent → Agent) : (s.modAgent a f).unseen = s.unseen := rfl
@[simp] theorem State.modAgent_flight (s : State) (a : Nat) (f : Agent → Agent) : (s.modAgent a f).flight = s.flight := rfl
@[simp] theorem State.modAgent_msgs (s : State) (a : Nat) (f : Agent → Agent) : (s.modAgent a f).msgs = s.msgs := rfl
@[simp] theorem State.modAgent_msgSent (s : State) (a : Nat) (f : Agent → Agent) : (s.modAgent a f).msgSent = s.msgSent := rfl
@[simp] theorem State.modAgent_msgDone (s : State) (a : Nat) (f : Agent → Agent) : (s.modAgent a f).msgDone = s.msgDone := rfl
@[simp] theorem State.modAgent_cores (s : State) (a : Nat) (f : Agent → Agent) : (s.modAgent a f).cores = s.cores := rfl
@[simp] theorem State.modAgent_clusters (s : State) (a : Nat) (f : Agent → Agent) : (s.modAgent a f).clusters = s.clusters := rfl
@[simp] theorem State.modAgent_dies (s : State) (a : Nat) (f : Agent → Agent) : (s.modAgent a f).dies = s.dies := rfl
@[simp] theorem State.modAgent_links (s : State) (a : Nat) (f : Agent → Agent) : (s.modAgent a f).links = s.links := rfl
@[simp] theorem State.modAgent_cuts (s : State) (a : Nat) (f : Agent → Agent) : (s.modAgent a f).cuts = s.cuts := rfl
@[simp] theorem State.modAgent_rseqDone (s : State) (a : Nat) (f : Agent → Agent) : (s.modAgent a f).rseqDone = s.rseqDone := rfl
@[simp] theorem State.modAgent_replies (s : State) (a : Nat) (f : Agent → Agent) : (s.modAgent a f).replies = s.replies := rfl
@[simp] theorem State.modAgent_peerReqs (s : State) (a : Nat) (f : Agent → Agent) : (s.modAgent a f).peerReqs = s.peerReqs := rfl
@[simp] theorem State.modAgent_peerAsked (s : State) (a : Nat) (f : Agent → Agent) : (s.modAgent a f).peerAsked = s.peerAsked := rfl
@[simp] theorem State.modAgent_peerReply (s : State) (a : Nat) (f : Agent → Agent) : (s.modAgent a f).peerReply = s.peerReply := rfl
@[simp] theorem State.modAgent_ports (s : State) (a : Nat) (f : Agent → Agent) : (s.modAgent a f).ports = s.ports := rfl
@[simp] theorem State.modAgent_bars (s : State) (a : Nat) (f : Agent → Agent) : (s.modAgent a f).bars = s.bars := rfl
@[simp] theorem State.modAgent_barGen (s : State) (a : Nat) (f : Agent → Agent) : (s.modAgent a f).barGen = s.barGen := rfl
@[simp] theorem State.modAgent_host (s : State) (a : Nat) (f : Agent → Agent) : (s.modAgent a f).host = s.host := rfl
@[simp] theorem State.modAgent_ctxs (s : State) (a : Nat) (f : Agent → Agent) : (s.modAgent a f).ctxs = s.ctxs := rfl
@[simp] theorem State.modAgent_torn (s : State) (a : Nat) (f : Agent → Agent) : (s.modAgent a f).torn = s.torn := rfl
@[simp] theorem State.modAgent_acl (s : State) (a : Nat) (f : Agent → Agent) : (s.modAgent a f).acl = s.acl := rfl
@[simp] theorem State.modAgent_weights (s : State) (a : Nat) (f : Agent → Agent) : (s.modAgent a f).weights = s.weights := rfl
@[simp] theorem State.modAgent_saved (s : State) (a : Nat) (f : Agent → Agent) : (s.modAgent a f).saved = s.saved := rfl
@[simp] theorem State.modAgent_saveSeq (s : State) (a : Nat) (f : Agent → Agent) : (s.modAgent a f).saveSeq = s.saveSeq := rfl
@[simp] theorem State.modAgent_serial (s : State) (a : Nat) (f : Agent → Agent) : (s.modAgent a f).serial = s.serial := rfl
@[simp] theorem State.modAgent_fenced (s : State) (a : Nat) (f : Agent → Agent) : (s.modAgent a f).fenced = s.fenced := rfl
@[simp] theorem State.modAgent_worn (s : State) (a : Nat) (f : Agent → Agent) : (s.modAgent a f).worn = s.worn := rfl
@[simp] theorem State.modAgent_tests (s : State) (a : Nat) (f : Agent → Agent) : (s.modAgent a f).tests = s.tests := rfl
@[simp] theorem State.modAgent_corrected (s : State) (a : Nat) (f : Agent → Agent) : (s.modAgent a f).corrected = s.corrected := rfl
@[simp] theorem State.modAgent_scrubMin (s : State) (a : Nat) (f : Agent → Agent) : (s.modAgent a f).scrubMin = s.scrubMin := rfl
@[simp] theorem State.modAgent_scrubPer (s : State) (a : Nat) (f : Agent → Agent) : (s.modAgent a f).scrubPer = s.scrubPer := rfl
@[simp] theorem State.modAgent_scrubStart (s : State) (a : Nat) (f : Agent → Agent) : (s.modAgent a f).scrubStart = s.scrubStart := rfl
@[simp] theorem State.modAgent_scrubbed (s : State) (a : Nat) (f : Agent → Agent) : (s.modAgent a f).scrubbed = s.scrubbed := rfl
@[simp] theorem State.modAgent_rotMs (s : State) (a : Nat) (f : Agent → Agent) : (s.modAgent a f).rotMs = s.rotMs := rfl
@[simp] theorem State.modAgent_corrThreshold (s : State) (a : Nat) (f : Agent → Agent) : (s.modAgent a f).corrThreshold = s.corrThreshold := rfl
@[simp] theorem State.modAgent_tickets (s : State) (a : Nat) (f : Agent → Agent) : (s.modAgent a f).tickets = s.tickets := rfl
@[simp] theorem State.modAgent_nextTicket (s : State) (a : Nat) (f : Agent → Agent) : (s.modAgent a f).nextTicket = s.nextTicket := rfl
@[simp] theorem State.modAgent_off (s : State) (a : Nat) (f : Agent → Agent) : (s.modAgent a f).off = s.off := rfl
@[simp] theorem State.modAgent_booted (s : State) (a : Nat) (f : Agent → Agent) : (s.modAgent a f).booted = s.booted := rfl
@[simp] theorem State.modAgent_afterPower (s : State) (a : Nat) (f : Agent → Agent) : (s.modAgent a f).afterPower = s.afterPower := rfl
@[simp] theorem State.modAgent_joules (s : State) (a : Nat) (f : Agent → Agent) : (s.modAgent a f).joules = s.joules := rfl
@[simp] theorem State.modAgent_ckptArmed (s : State) (a : Nat) (f : Agent → Agent) : (s.modAgent a f).ckptArmed = s.ckptArmed := rfl
@[simp] theorem State.modAgent_loss (s : State) (a : Nat) (f : Agent → Agent) : (s.modAgent a f).loss = s.loss := rfl
@[simp] theorem State.modAgent_lossList (s : State) (a : Nat) (f : Agent → Agent) : (s.modAgent a f).lossList = s.lossList := rfl
@[simp] theorem State.modAgent_lossTime (s : State) (a : Nat) (f : Agent → Agent) : (s.modAgent a f).lossTime = s.lossTime := rfl
@[simp] theorem State.modAgent_draft (s : State) (a : Nat) (f : Agent → Agent) : (s.modAgent a f).draft = s.draft := rfl
@[simp] theorem State.modAgent_image (s : State) (a : Nat) (f : Agent → Agent) : (s.modAgent a f).image = s.image := rfl
@[simp] theorem State.modAgent_mr (s : State) (a : Nat) (f : Agent → Agent) : (s.modAgent a f).mr = s.mr := rfl
@[simp] theorem State.modAgent_svn (s : State) (a : Nat) (f : Agent → Agent) : (s.modAgent a f).svn = s.svn := rfl
@[simp] theorem State.modAgent_minSvn (s : State) (a : Nat) (f : Agent → Agent) : (s.modAgent a f).minSvn = s.minSvn := rfl
@[simp] theorem State.modAgent_staged (s : State) (a : Nat) (f : Agent → Agent) : (s.modAgent a f).staged = s.staged := rfl
@[simp] theorem State.modAgent_installed (s : State) (a : Nat) (f : Agent → Agent) : (s.modAgent a f).installed = s.installed := rfl

/-! ## State.addIval -/

@[simp] theorem State.addIval_agenda (s : State) (w : Who) (d : W32) : (s.addIval w d).agenda = s.agenda := rfl
@[simp] theorem State.addIval_choice (s : State) (w : Who) (d : W32) : (s.addIval w d).choice = s.choice := rfl
@[simp] theorem State.addIval_cur (s : State) (w : Who) (d : W32) : (s.addIval w d).cur = s.cur := rfl
@[simp] theorem State.addIval_phase (s : State) (w : Who) (d : W32) : (s.addIval w d).phase = s.phase := rfl
@[simp] theorem State.addIval_raised (s : State) (w : Who) (d : W32) : (s.addIval w d).raised = s.raised := rfl
@[simp] theorem State.addIval_now (s : State) (w : Who) (d : W32) : (s.addIval w d).now = s.now := rfl
@[simp] theorem State.addIval_tb (s : State) (w : Who) (d : W32) : (s.addIval w d).tb = s.tb := rfl
@[simp] theorem State.addIval_tbPart (s : State) (w : Who) (d : W32) : (s.addIval w d).tbPart = s.tbPart := rfl
@[simp] theorem State.addIval_mem (s : State) (w : Who) (d : W32) : (s.addIval w d).mem = s.mem := rfl
@[simp] theorem State.addIval_poison (s : State) (w : Who) (d : W32) : (s.addIval w d).poison = s.poison := rfl
@[simp] theorem State.addIval_hist (s : State) (w : Who) (d : W32) : (s.addIval w d).hist = s.hist := rfl
@[simp] theorem State.addIval_applied (s : State) (w : Who) (d : W32) : (s.addIval w d).applied = s.applied := rfl
@[simp] theorem State.addIval_eaten (s : State) (w : Who) (d : W32) : (s.addIval w d).eaten = s.eaten := rfl
@[simp] theorem State.addIval_holders (s : State) (w : Who) (d : W32) : (s.addIval w d).holders = s.holders := rfl
@[simp] theorem State.addIval_agents (s : State) (w : Who) (d : W32) : (s.addIval w d).agents = s.agents := rfl
@[simp] theorem State.addIval_unseen (s : State) (w : Who) (d : W32) : (s.addIval w d).unseen = s.unseen := rfl
@[simp] theorem State.addIval_flight (s : State) (w : Who) (d : W32) : (s.addIval w d).flight = s.flight := rfl
@[simp] theorem State.addIval_msgs (s : State) (w : Who) (d : W32) : (s.addIval w d).msgs = s.msgs := rfl
@[simp] theorem State.addIval_msgSent (s : State) (w : Who) (d : W32) : (s.addIval w d).msgSent = s.msgSent := rfl
@[simp] theorem State.addIval_msgDone (s : State) (w : Who) (d : W32) : (s.addIval w d).msgDone = s.msgDone := rfl
@[simp] theorem State.addIval_cores (s : State) (w : Who) (d : W32) : (s.addIval w d).cores = s.cores := rfl
@[simp] theorem State.addIval_dies (s : State) (w : Who) (d : W32) : (s.addIval w d).dies = s.dies := rfl
@[simp] theorem State.addIval_links (s : State) (w : Who) (d : W32) : (s.addIval w d).links = s.links := rfl
@[simp] theorem State.addIval_cuts (s : State) (w : Who) (d : W32) : (s.addIval w d).cuts = s.cuts := rfl
@[simp] theorem State.addIval_rseqDone (s : State) (w : Who) (d : W32) : (s.addIval w d).rseqDone = s.rseqDone := rfl
@[simp] theorem State.addIval_replies (s : State) (w : Who) (d : W32) : (s.addIval w d).replies = s.replies := rfl
@[simp] theorem State.addIval_peerReqs (s : State) (w : Who) (d : W32) : (s.addIval w d).peerReqs = s.peerReqs := rfl
@[simp] theorem State.addIval_peerAsked (s : State) (w : Who) (d : W32) : (s.addIval w d).peerAsked = s.peerAsked := rfl
@[simp] theorem State.addIval_peerReply (s : State) (w : Who) (d : W32) : (s.addIval w d).peerReply = s.peerReply := rfl
@[simp] theorem State.addIval_ports (s : State) (w : Who) (d : W32) : (s.addIval w d).ports = s.ports := rfl
@[simp] theorem State.addIval_bars (s : State) (w : Who) (d : W32) : (s.addIval w d).bars = s.bars := rfl
@[simp] theorem State.addIval_barGen (s : State) (w : Who) (d : W32) : (s.addIval w d).barGen = s.barGen := rfl
@[simp] theorem State.addIval_host (s : State) (w : Who) (d : W32) : (s.addIval w d).host = s.host := rfl
@[simp] theorem State.addIval_ctxs (s : State) (w : Who) (d : W32) : (s.addIval w d).ctxs = s.ctxs := rfl
@[simp] theorem State.addIval_torn (s : State) (w : Who) (d : W32) : (s.addIval w d).torn = s.torn := rfl
@[simp] theorem State.addIval_acl (s : State) (w : Who) (d : W32) : (s.addIval w d).acl = s.acl := rfl
@[simp] theorem State.addIval_weights (s : State) (w : Who) (d : W32) : (s.addIval w d).weights = s.weights := rfl
@[simp] theorem State.addIval_saved (s : State) (w : Who) (d : W32) : (s.addIval w d).saved = s.saved := rfl
@[simp] theorem State.addIval_saveSeq (s : State) (w : Who) (d : W32) : (s.addIval w d).saveSeq = s.saveSeq := rfl
@[simp] theorem State.addIval_serial (s : State) (w : Who) (d : W32) : (s.addIval w d).serial = s.serial := rfl
@[simp] theorem State.addIval_fenced (s : State) (w : Who) (d : W32) : (s.addIval w d).fenced = s.fenced := rfl
@[simp] theorem State.addIval_worn (s : State) (w : Who) (d : W32) : (s.addIval w d).worn = s.worn := rfl
@[simp] theorem State.addIval_tests (s : State) (w : Who) (d : W32) : (s.addIval w d).tests = s.tests := rfl
@[simp] theorem State.addIval_corrected (s : State) (w : Who) (d : W32) : (s.addIval w d).corrected = s.corrected := rfl
@[simp] theorem State.addIval_scrubMin (s : State) (w : Who) (d : W32) : (s.addIval w d).scrubMin = s.scrubMin := rfl
@[simp] theorem State.addIval_scrubPer (s : State) (w : Who) (d : W32) : (s.addIval w d).scrubPer = s.scrubPer := rfl
@[simp] theorem State.addIval_scrubStart (s : State) (w : Who) (d : W32) : (s.addIval w d).scrubStart = s.scrubStart := rfl
@[simp] theorem State.addIval_scrubbed (s : State) (w : Who) (d : W32) : (s.addIval w d).scrubbed = s.scrubbed := rfl
@[simp] theorem State.addIval_rotMs (s : State) (w : Who) (d : W32) : (s.addIval w d).rotMs = s.rotMs := rfl
@[simp] theorem State.addIval_corrThreshold (s : State) (w : Who) (d : W32) : (s.addIval w d).corrThreshold = s.corrThreshold := rfl
@[simp] theorem State.addIval_tickets (s : State) (w : Who) (d : W32) : (s.addIval w d).tickets = s.tickets := rfl
@[simp] theorem State.addIval_nextTicket (s : State) (w : Who) (d : W32) : (s.addIval w d).nextTicket = s.nextTicket := rfl
@[simp] theorem State.addIval_off (s : State) (w : Who) (d : W32) : (s.addIval w d).off = s.off := rfl
@[simp] theorem State.addIval_booted (s : State) (w : Who) (d : W32) : (s.addIval w d).booted = s.booted := rfl
@[simp] theorem State.addIval_afterPower (s : State) (w : Who) (d : W32) : (s.addIval w d).afterPower = s.afterPower := rfl
@[simp] theorem State.addIval_joules (s : State) (w : Who) (d : W32) : (s.addIval w d).joules = s.joules := rfl
@[simp] theorem State.addIval_ckptArmed (s : State) (w : Who) (d : W32) : (s.addIval w d).ckptArmed = s.ckptArmed := rfl
@[simp] theorem State.addIval_loss (s : State) (w : Who) (d : W32) : (s.addIval w d).loss = s.loss := rfl
@[simp] theorem State.addIval_lossList (s : State) (w : Who) (d : W32) : (s.addIval w d).lossList = s.lossList := rfl
@[simp] theorem State.addIval_lossTime (s : State) (w : Who) (d : W32) : (s.addIval w d).lossTime = s.lossTime := rfl
@[simp] theorem State.addIval_draft (s : State) (w : Who) (d : W32) : (s.addIval w d).draft = s.draft := rfl
@[simp] theorem State.addIval_image (s : State) (w : Who) (d : W32) : (s.addIval w d).image = s.image := rfl
@[simp] theorem State.addIval_mr (s : State) (w : Who) (d : W32) : (s.addIval w d).mr = s.mr := rfl
@[simp] theorem State.addIval_svn (s : State) (w : Who) (d : W32) : (s.addIval w d).svn = s.svn := rfl
@[simp] theorem State.addIval_minSvn (s : State) (w : Who) (d : W32) : (s.addIval w d).minSvn = s.minSvn := rfl
@[simp] theorem State.addIval_staged (s : State) (w : Who) (d : W32) : (s.addIval w d).staged = s.staged := rfl
@[simp] theorem State.addIval_installed (s : State) (w : Who) (d : W32) : (s.addIval w d).installed = s.installed := rfl

/-! ## State.modHost -/

@[simp] theorem State.modHost_agenda (s : State) (f : HostIf → HostIf) : (s.modHost f).agenda = s.agenda := rfl
@[simp] theorem State.modHost_choice (s : State) (f : HostIf → HostIf) : (s.modHost f).choice = s.choice := rfl
@[simp] theorem State.modHost_cur (s : State) (f : HostIf → HostIf) : (s.modHost f).cur = s.cur := rfl
@[simp] theorem State.modHost_phase (s : State) (f : HostIf → HostIf) : (s.modHost f).phase = s.phase := rfl
@[simp] theorem State.modHost_raised (s : State) (f : HostIf → HostIf) : (s.modHost f).raised = s.raised := rfl
@[simp] theorem State.modHost_now (s : State) (f : HostIf → HostIf) : (s.modHost f).now = s.now := rfl
@[simp] theorem State.modHost_tb (s : State) (f : HostIf → HostIf) : (s.modHost f).tb = s.tb := rfl
@[simp] theorem State.modHost_tbPart (s : State) (f : HostIf → HostIf) : (s.modHost f).tbPart = s.tbPart := rfl
@[simp] theorem State.modHost_mem (s : State) (f : HostIf → HostIf) : (s.modHost f).mem = s.mem := rfl
@[simp] theorem State.modHost_poison (s : State) (f : HostIf → HostIf) : (s.modHost f).poison = s.poison := rfl
@[simp] theorem State.modHost_hist (s : State) (f : HostIf → HostIf) : (s.modHost f).hist = s.hist := rfl
@[simp] theorem State.modHost_applied (s : State) (f : HostIf → HostIf) : (s.modHost f).applied = s.applied := rfl
@[simp] theorem State.modHost_eaten (s : State) (f : HostIf → HostIf) : (s.modHost f).eaten = s.eaten := rfl
@[simp] theorem State.modHost_holders (s : State) (f : HostIf → HostIf) : (s.modHost f).holders = s.holders := rfl
@[simp] theorem State.modHost_agents (s : State) (f : HostIf → HostIf) : (s.modHost f).agents = s.agents := rfl
@[simp] theorem State.modHost_unseen (s : State) (f : HostIf → HostIf) : (s.modHost f).unseen = s.unseen := rfl
@[simp] theorem State.modHost_flight (s : State) (f : HostIf → HostIf) : (s.modHost f).flight = s.flight := rfl
@[simp] theorem State.modHost_msgs (s : State) (f : HostIf → HostIf) : (s.modHost f).msgs = s.msgs := rfl
@[simp] theorem State.modHost_msgSent (s : State) (f : HostIf → HostIf) : (s.modHost f).msgSent = s.msgSent := rfl
@[simp] theorem State.modHost_msgDone (s : State) (f : HostIf → HostIf) : (s.modHost f).msgDone = s.msgDone := rfl
@[simp] theorem State.modHost_cores (s : State) (f : HostIf → HostIf) : (s.modHost f).cores = s.cores := rfl
@[simp] theorem State.modHost_clusters (s : State) (f : HostIf → HostIf) : (s.modHost f).clusters = s.clusters := rfl
@[simp] theorem State.modHost_dies (s : State) (f : HostIf → HostIf) : (s.modHost f).dies = s.dies := rfl
@[simp] theorem State.modHost_links (s : State) (f : HostIf → HostIf) : (s.modHost f).links = s.links := rfl
@[simp] theorem State.modHost_cuts (s : State) (f : HostIf → HostIf) : (s.modHost f).cuts = s.cuts := rfl
@[simp] theorem State.modHost_rseqDone (s : State) (f : HostIf → HostIf) : (s.modHost f).rseqDone = s.rseqDone := rfl
@[simp] theorem State.modHost_replies (s : State) (f : HostIf → HostIf) : (s.modHost f).replies = s.replies := rfl
@[simp] theorem State.modHost_peerReqs (s : State) (f : HostIf → HostIf) : (s.modHost f).peerReqs = s.peerReqs := rfl
@[simp] theorem State.modHost_peerAsked (s : State) (f : HostIf → HostIf) : (s.modHost f).peerAsked = s.peerAsked := rfl
@[simp] theorem State.modHost_peerReply (s : State) (f : HostIf → HostIf) : (s.modHost f).peerReply = s.peerReply := rfl
@[simp] theorem State.modHost_ports (s : State) (f : HostIf → HostIf) : (s.modHost f).ports = s.ports := rfl
@[simp] theorem State.modHost_bars (s : State) (f : HostIf → HostIf) : (s.modHost f).bars = s.bars := rfl
@[simp] theorem State.modHost_barGen (s : State) (f : HostIf → HostIf) : (s.modHost f).barGen = s.barGen := rfl
@[simp] theorem State.modHost_ctxs (s : State) (f : HostIf → HostIf) : (s.modHost f).ctxs = s.ctxs := rfl
@[simp] theorem State.modHost_torn (s : State) (f : HostIf → HostIf) : (s.modHost f).torn = s.torn := rfl
@[simp] theorem State.modHost_acl (s : State) (f : HostIf → HostIf) : (s.modHost f).acl = s.acl := rfl
@[simp] theorem State.modHost_weights (s : State) (f : HostIf → HostIf) : (s.modHost f).weights = s.weights := rfl
@[simp] theorem State.modHost_saved (s : State) (f : HostIf → HostIf) : (s.modHost f).saved = s.saved := rfl
@[simp] theorem State.modHost_saveSeq (s : State) (f : HostIf → HostIf) : (s.modHost f).saveSeq = s.saveSeq := rfl
@[simp] theorem State.modHost_serial (s : State) (f : HostIf → HostIf) : (s.modHost f).serial = s.serial := rfl
@[simp] theorem State.modHost_fenced (s : State) (f : HostIf → HostIf) : (s.modHost f).fenced = s.fenced := rfl
@[simp] theorem State.modHost_worn (s : State) (f : HostIf → HostIf) : (s.modHost f).worn = s.worn := rfl
@[simp] theorem State.modHost_tests (s : State) (f : HostIf → HostIf) : (s.modHost f).tests = s.tests := rfl
@[simp] theorem State.modHost_corrected (s : State) (f : HostIf → HostIf) : (s.modHost f).corrected = s.corrected := rfl
@[simp] theorem State.modHost_scrubMin (s : State) (f : HostIf → HostIf) : (s.modHost f).scrubMin = s.scrubMin := rfl
@[simp] theorem State.modHost_scrubPer (s : State) (f : HostIf → HostIf) : (s.modHost f).scrubPer = s.scrubPer := rfl
@[simp] theorem State.modHost_scrubStart (s : State) (f : HostIf → HostIf) : (s.modHost f).scrubStart = s.scrubStart := rfl
@[simp] theorem State.modHost_scrubbed (s : State) (f : HostIf → HostIf) : (s.modHost f).scrubbed = s.scrubbed := rfl
@[simp] theorem State.modHost_rotMs (s : State) (f : HostIf → HostIf) : (s.modHost f).rotMs = s.rotMs := rfl
@[simp] theorem State.modHost_corrThreshold (s : State) (f : HostIf → HostIf) : (s.modHost f).corrThreshold = s.corrThreshold := rfl
@[simp] theorem State.modHost_tickets (s : State) (f : HostIf → HostIf) : (s.modHost f).tickets = s.tickets := rfl
@[simp] theorem State.modHost_nextTicket (s : State) (f : HostIf → HostIf) : (s.modHost f).nextTicket = s.nextTicket := rfl
@[simp] theorem State.modHost_off (s : State) (f : HostIf → HostIf) : (s.modHost f).off = s.off := rfl
@[simp] theorem State.modHost_booted (s : State) (f : HostIf → HostIf) : (s.modHost f).booted = s.booted := rfl
@[simp] theorem State.modHost_afterPower (s : State) (f : HostIf → HostIf) : (s.modHost f).afterPower = s.afterPower := rfl
@[simp] theorem State.modHost_joules (s : State) (f : HostIf → HostIf) : (s.modHost f).joules = s.joules := rfl
@[simp] theorem State.modHost_ckptArmed (s : State) (f : HostIf → HostIf) : (s.modHost f).ckptArmed = s.ckptArmed := rfl
@[simp] theorem State.modHost_loss (s : State) (f : HostIf → HostIf) : (s.modHost f).loss = s.loss := rfl
@[simp] theorem State.modHost_lossList (s : State) (f : HostIf → HostIf) : (s.modHost f).lossList = s.lossList := rfl
@[simp] theorem State.modHost_lossTime (s : State) (f : HostIf → HostIf) : (s.modHost f).lossTime = s.lossTime := rfl
@[simp] theorem State.modHost_draft (s : State) (f : HostIf → HostIf) : (s.modHost f).draft = s.draft := rfl
@[simp] theorem State.modHost_image (s : State) (f : HostIf → HostIf) : (s.modHost f).image = s.image := rfl
@[simp] theorem State.modHost_mr (s : State) (f : HostIf → HostIf) : (s.modHost f).mr = s.mr := rfl
@[simp] theorem State.modHost_svn (s : State) (f : HostIf → HostIf) : (s.modHost f).svn = s.svn := rfl
@[simp] theorem State.modHost_minSvn (s : State) (f : HostIf → HostIf) : (s.modHost f).minSvn = s.minSvn := rfl
@[simp] theorem State.modHost_staged (s : State) (f : HostIf → HostIf) : (s.modHost f).staged = s.staged := rfl
@[simp] theorem State.modHost_installed (s : State) (f : HostIf → HostIf) : (s.modHost f).installed = s.installed := rfl

/-! ## State.event -/

@[simp] theorem State.event_agenda (s : State) (c : Nat) (xs : List W64) (st : Nat) : (s.event c xs st).agenda = s.agenda := rfl
@[simp] theorem State.event_choice (s : State) (c : Nat) (xs : List W64) (st : Nat) : (s.event c xs st).choice = s.choice := rfl
@[simp] theorem State.event_cur (s : State) (c : Nat) (xs : List W64) (st : Nat) : (s.event c xs st).cur = s.cur := rfl
@[simp] theorem State.event_phase (s : State) (c : Nat) (xs : List W64) (st : Nat) : (s.event c xs st).phase = s.phase := rfl
@[simp] theorem State.event_raised (s : State) (c : Nat) (xs : List W64) (st : Nat) : (s.event c xs st).raised = s.raised := rfl
@[simp] theorem State.event_now (s : State) (c : Nat) (xs : List W64) (st : Nat) : (s.event c xs st).now = s.now := rfl
@[simp] theorem State.event_tb (s : State) (c : Nat) (xs : List W64) (st : Nat) : (s.event c xs st).tb = s.tb := rfl
@[simp] theorem State.event_tbPart (s : State) (c : Nat) (xs : List W64) (st : Nat) : (s.event c xs st).tbPart = s.tbPart := rfl
@[simp] theorem State.event_mem (s : State) (c : Nat) (xs : List W64) (st : Nat) : (s.event c xs st).mem = s.mem := rfl
@[simp] theorem State.event_poison (s : State) (c : Nat) (xs : List W64) (st : Nat) : (s.event c xs st).poison = s.poison := rfl
@[simp] theorem State.event_hist (s : State) (c : Nat) (xs : List W64) (st : Nat) : (s.event c xs st).hist = s.hist := rfl
@[simp] theorem State.event_applied (s : State) (c : Nat) (xs : List W64) (st : Nat) : (s.event c xs st).applied = s.applied := rfl
@[simp] theorem State.event_eaten (s : State) (c : Nat) (xs : List W64) (st : Nat) : (s.event c xs st).eaten = s.eaten := rfl
@[simp] theorem State.event_holders (s : State) (c : Nat) (xs : List W64) (st : Nat) : (s.event c xs st).holders = s.holders := rfl
@[simp] theorem State.event_agents (s : State) (c : Nat) (xs : List W64) (st : Nat) : (s.event c xs st).agents = s.agents := rfl
@[simp] theorem State.event_unseen (s : State) (c : Nat) (xs : List W64) (st : Nat) : (s.event c xs st).unseen = s.unseen := rfl
@[simp] theorem State.event_flight (s : State) (c : Nat) (xs : List W64) (st : Nat) : (s.event c xs st).flight = s.flight := rfl
@[simp] theorem State.event_msgs (s : State) (c : Nat) (xs : List W64) (st : Nat) : (s.event c xs st).msgs = s.msgs := rfl
@[simp] theorem State.event_msgSent (s : State) (c : Nat) (xs : List W64) (st : Nat) : (s.event c xs st).msgSent = s.msgSent := rfl
@[simp] theorem State.event_msgDone (s : State) (c : Nat) (xs : List W64) (st : Nat) : (s.event c xs st).msgDone = s.msgDone := rfl
@[simp] theorem State.event_cores (s : State) (c : Nat) (xs : List W64) (st : Nat) : (s.event c xs st).cores = s.cores := rfl
@[simp] theorem State.event_clusters (s : State) (c : Nat) (xs : List W64) (st : Nat) : (s.event c xs st).clusters = s.clusters := rfl
@[simp] theorem State.event_dies (s : State) (c : Nat) (xs : List W64) (st : Nat) : (s.event c xs st).dies = s.dies := rfl
@[simp] theorem State.event_links (s : State) (c : Nat) (xs : List W64) (st : Nat) : (s.event c xs st).links = s.links := rfl
@[simp] theorem State.event_cuts (s : State) (c : Nat) (xs : List W64) (st : Nat) : (s.event c xs st).cuts = s.cuts := rfl
@[simp] theorem State.event_rseqDone (s : State) (c : Nat) (xs : List W64) (st : Nat) : (s.event c xs st).rseqDone = s.rseqDone := rfl
@[simp] theorem State.event_replies (s : State) (c : Nat) (xs : List W64) (st : Nat) : (s.event c xs st).replies = s.replies := rfl
@[simp] theorem State.event_peerReqs (s : State) (c : Nat) (xs : List W64) (st : Nat) : (s.event c xs st).peerReqs = s.peerReqs := rfl
@[simp] theorem State.event_peerAsked (s : State) (c : Nat) (xs : List W64) (st : Nat) : (s.event c xs st).peerAsked = s.peerAsked := rfl
@[simp] theorem State.event_peerReply (s : State) (c : Nat) (xs : List W64) (st : Nat) : (s.event c xs st).peerReply = s.peerReply := rfl
@[simp] theorem State.event_ports (s : State) (c : Nat) (xs : List W64) (st : Nat) : (s.event c xs st).ports = s.ports := rfl
@[simp] theorem State.event_bars (s : State) (c : Nat) (xs : List W64) (st : Nat) : (s.event c xs st).bars = s.bars := rfl
@[simp] theorem State.event_barGen (s : State) (c : Nat) (xs : List W64) (st : Nat) : (s.event c xs st).barGen = s.barGen := rfl
@[simp] theorem State.event_ctxs (s : State) (c : Nat) (xs : List W64) (st : Nat) : (s.event c xs st).ctxs = s.ctxs := rfl
@[simp] theorem State.event_torn (s : State) (c : Nat) (xs : List W64) (st : Nat) : (s.event c xs st).torn = s.torn := rfl
@[simp] theorem State.event_acl (s : State) (c : Nat) (xs : List W64) (st : Nat) : (s.event c xs st).acl = s.acl := rfl
@[simp] theorem State.event_weights (s : State) (c : Nat) (xs : List W64) (st : Nat) : (s.event c xs st).weights = s.weights := rfl
@[simp] theorem State.event_saved (s : State) (c : Nat) (xs : List W64) (st : Nat) : (s.event c xs st).saved = s.saved := rfl
@[simp] theorem State.event_saveSeq (s : State) (c : Nat) (xs : List W64) (st : Nat) : (s.event c xs st).saveSeq = s.saveSeq := rfl
@[simp] theorem State.event_serial (s : State) (c : Nat) (xs : List W64) (st : Nat) : (s.event c xs st).serial = s.serial := rfl
@[simp] theorem State.event_fenced (s : State) (c : Nat) (xs : List W64) (st : Nat) : (s.event c xs st).fenced = s.fenced := rfl
@[simp] theorem State.event_worn (s : State) (c : Nat) (xs : List W64) (st : Nat) : (s.event c xs st).worn = s.worn := rfl
@[simp] theorem State.event_tests (s : State) (c : Nat) (xs : List W64) (st : Nat) : (s.event c xs st).tests = s.tests := rfl
@[simp] theorem State.event_corrected (s : State) (c : Nat) (xs : List W64) (st : Nat) : (s.event c xs st).corrected = s.corrected := rfl
@[simp] theorem State.event_scrubMin (s : State) (c : Nat) (xs : List W64) (st : Nat) : (s.event c xs st).scrubMin = s.scrubMin := rfl
@[simp] theorem State.event_scrubPer (s : State) (c : Nat) (xs : List W64) (st : Nat) : (s.event c xs st).scrubPer = s.scrubPer := rfl
@[simp] theorem State.event_scrubStart (s : State) (c : Nat) (xs : List W64) (st : Nat) : (s.event c xs st).scrubStart = s.scrubStart := rfl
@[simp] theorem State.event_scrubbed (s : State) (c : Nat) (xs : List W64) (st : Nat) : (s.event c xs st).scrubbed = s.scrubbed := rfl
@[simp] theorem State.event_rotMs (s : State) (c : Nat) (xs : List W64) (st : Nat) : (s.event c xs st).rotMs = s.rotMs := rfl
@[simp] theorem State.event_corrThreshold (s : State) (c : Nat) (xs : List W64) (st : Nat) : (s.event c xs st).corrThreshold = s.corrThreshold := rfl
@[simp] theorem State.event_tickets (s : State) (c : Nat) (xs : List W64) (st : Nat) : (s.event c xs st).tickets = s.tickets := rfl
@[simp] theorem State.event_nextTicket (s : State) (c : Nat) (xs : List W64) (st : Nat) : (s.event c xs st).nextTicket = s.nextTicket := rfl
@[simp] theorem State.event_off (s : State) (c : Nat) (xs : List W64) (st : Nat) : (s.event c xs st).off = s.off := rfl
@[simp] theorem State.event_booted (s : State) (c : Nat) (xs : List W64) (st : Nat) : (s.event c xs st).booted = s.booted := rfl
@[simp] theorem State.event_afterPower (s : State) (c : Nat) (xs : List W64) (st : Nat) : (s.event c xs st).afterPower = s.afterPower := rfl
@[simp] theorem State.event_joules (s : State) (c : Nat) (xs : List W64) (st : Nat) : (s.event c xs st).joules = s.joules := rfl
@[simp] theorem State.event_ckptArmed (s : State) (c : Nat) (xs : List W64) (st : Nat) : (s.event c xs st).ckptArmed = s.ckptArmed := rfl
@[simp] theorem State.event_loss (s : State) (c : Nat) (xs : List W64) (st : Nat) : (s.event c xs st).loss = s.loss := rfl
@[simp] theorem State.event_lossList (s : State) (c : Nat) (xs : List W64) (st : Nat) : (s.event c xs st).lossList = s.lossList := rfl
@[simp] theorem State.event_lossTime (s : State) (c : Nat) (xs : List W64) (st : Nat) : (s.event c xs st).lossTime = s.lossTime := rfl
@[simp] theorem State.event_draft (s : State) (c : Nat) (xs : List W64) (st : Nat) : (s.event c xs st).draft = s.draft := rfl
@[simp] theorem State.event_image (s : State) (c : Nat) (xs : List W64) (st : Nat) : (s.event c xs st).image = s.image := rfl
@[simp] theorem State.event_mr (s : State) (c : Nat) (xs : List W64) (st : Nat) : (s.event c xs st).mr = s.mr := rfl
@[simp] theorem State.event_svn (s : State) (c : Nat) (xs : List W64) (st : Nat) : (s.event c xs st).svn = s.svn := rfl
@[simp] theorem State.event_minSvn (s : State) (c : Nat) (xs : List W64) (st : Nat) : (s.event c xs st).minSvn = s.minSvn := rfl
@[simp] theorem State.event_staged (s : State) (c : Nat) (xs : List W64) (st : Nat) : (s.event c xs st).staged = s.staged := rfl
@[simp] theorem State.event_installed (s : State) (c : Nat) (xs : List W64) (st : Nat) : (s.event c xs st).installed = s.installed := rfl

/-! ## Core.modBank -/

@[simp] theorem Core.modBank_active (k : Core) (b : BankId) (f : Bank → Bank) : (k.modBank b f).active = k.active := rfl
@[simp] theorem Core.modBank_cyc0 (k : Core) (b : BankId) (f : Bank → Bank) : (k.modBank b f).cyc0 = k.cyc0 := rfl
@[simp] theorem Core.modBank_icache (k : Core) (b : BankId) (f : Bank → Bank) : (k.modBank b f).icache = k.icache := rfl
@[simp] theorem Core.modBank_istore (k : Core) (b : BankId) (f : Bank → Bank) : (k.modBank b f).istore = k.istore := rfl
@[simp] theorem Core.modBank_tlb (k : Core) (b : BankId) (f : Bank → Bank) : (k.modBank b f).tlb = k.tlb := rfl
@[simp] theorem Core.modBank_tlbCopy (k : Core) (b : BankId) (f : Bank → Bank) : (k.modBank b f).tlbCopy = k.tlbCopy := rfl
@[simp] theorem Core.modBank_tlbOut (k : Core) (b : BankId) (f : Bank → Bank) : (k.modBank b f).tlbOut = k.tlbOut := rfl
@[simp] theorem Core.modBank_tlbOld (k : Core) (b : BankId) (f : Bank → Bank) : (k.modBank b f).tlbOld = k.tlbOld := rfl
@[simp] theorem Core.modBank_copyFifo (k : Core) (b : BankId) (f : Bank → Bank) : (k.modBank b f).copyFifo = k.copyFifo := rfl
@[simp] theorem Core.modBank_copyRun (k : Core) (b : BankId) (f : Bank → Bank) : (k.modBank b f).copyRun = k.copyRun := rfl
@[simp] theorem Core.modBank_outFifo (k : Core) (b : BankId) (f : Bank → Bank) : (k.modBank b f).outFifo = k.outFifo := rfl
@[simp] theorem Core.modBank_outRun (k : Core) (b : BankId) (f : Bank → Bank) : (k.modBank b f).outRun = k.outRun := rfl
@[simp] theorem Core.modBank_follow (k : Core) (b : BankId) (f : Bank → Bank) : (k.modBank b f).follow = k.follow := rfl
@[simp] theorem Core.modBank_mFifo (k : Core) (b : BankId) (f : Bank → Bank) : (k.modBank b f).mFifo = k.mFifo := rfl
@[simp] theorem Core.modBank_mRun (k : Core) (b : BankId) (f : Bank → Bank) : (k.modBank b f).mRun = k.mRun := rfl
@[simp] theorem Core.modBank_wRun (k : Core) (b : BankId) (f : Bank → Bank) : (k.modBank b f).wRun = k.wRun := rfl
@[simp] theorem Core.modBank_bufs (k : Core) (b : BankId) (f : Bank → Bank) : (k.modBank b f).bufs = k.bufs := rfl
@[simp] theorem Core.modBank_reqs (k : Core) (b : BankId) (f : Bank → Bank) : (k.modBank b f).reqs = k.reqs := rfl
@[simp] theorem Core.modBank_rseq (k : Core) (b : BankId) (f : Bank → Bank) : (k.modBank b f).rseq = k.rseq := rfl
@[simp] theorem Core.modBank_parked (k : Core) (b : BankId) (f : Bank → Bank) : (k.modBank b f).parked = k.parked := rfl
@[simp] theorem Core.modBank_accepted (k : Core) (b : BankId) (f : Bank → Bank) : (k.modBank b f).accepted = k.accepted := rfl
@[simp] theorem Core.modBank_activeFrom (k : Core) (b : BankId) (f : Bank → Bank) : (k.modBank b f).activeFrom = k.activeFrom := rfl
@[simp] theorem Core.modBank_nextId (k : Core) (b : BankId) (f : Bank → Bank) : (k.modBank b f).nextId = k.nextId := rfl
@[simp] theorem Core.modBank_seqNo (k : Core) (b : BankId) (f : Bank → Bank) : (k.modBank b f).seqNo = k.seqNo := rfl
@[simp] theorem Core.modBank_claimed (k : Core) (b : BankId) (f : Bank → Bank) : (k.modBank b f).claimed = k.claimed := rfl
@[simp] theorem Core.modBank_stopped (k : Core) (b : BankId) (f : Bank → Bank) : (k.modBank b f).stopped = k.stopped := rfl
@[simp] theorem Core.modBank_dbgRec (k : Core) (b : BankId) (f : Bank → Bank) : (k.modBank b f).dbgRec = k.dbgRec := rfl
@[simp] theorem Core.modBank_stepping (k : Core) (b : BankId) (f : Bank → Bank) : (k.modBank b f).stepping = k.stepping := rfl
@[simp] theorem Core.modBank_fenced (k : Core) (b : BankId) (f : Bank → Bank) : (k.modBank b f).fenced = k.fenced := rfl
@[simp] theorem Core.modBank_lastPass (k : Core) (b : BankId) (f : Bank → Bank) : (k.modBank b f).lastPass = k.lastPass := rfl
@[simp] theorem Core.modBank_ran (k : Core) (b : BankId) (f : Bank → Bank) : (k.modBank b f).ran = k.ran := rfl
@[simp] theorem Core.modBank_ranOvf (k : Core) (b : BankId) (f : Bank → Bank) : (k.modBank b f).ranOvf = k.ranOvf := rfl
@[simp] theorem Core.modBank_scanDue (k : Core) (b : BankId) (f : Bank → Bank) : (k.modBank b f).scanDue = k.scanDue := rfl
@[simp] theorem Core.modBank_testing (k : Core) (b : BankId) (f : Bank → Bank) : (k.modBank b f).testing = k.testing := rfl
@[simp] theorem Core.modBank_testStart (k : Core) (b : BankId) (f : Bank → Bank) : (k.modBank b f).testStart = k.testStart := rfl
@[simp] theorem Core.modBank_was (k : Core) (b : BankId) (f : Bank → Bank) : (k.modBank b f).was = k.was := rfl
@[simp] theorem Core.modBank_stopReq (k : Core) (b : BankId) (f : Bank → Bank) : (k.modBank b f).stopReq = k.stopReq := rfl
@[simp] theorem Core.modBank_engFenced (k : Core) (b : BankId) (f : Bank → Bank) : (k.modBank b f).engFenced = k.engFenced := rfl

/-! ## Bank.modSeq -/

@[simp] theorem Bank.modSeq_task (k : Bank) (q : SeqId) (f : Seq → Seq) : (k.modSeq q f).task = k.task := rfl
@[simp] theorem Bank.modSeq_serial (k : Bank) (q : SeqId) (f : Seq → Seq) : (k.modSeq q f).serial = k.serial := rfl
@[simp] theorem Bank.modSeq_startCycle (k : Bank) (q : SeqId) (f : Seq → Seq) : (k.modSeq q f).startCycle = k.startCycle := rfl
@[simp] theorem Bank.modSeq_run (k : Bank) (q : SeqId) (f : Seq → Seq) : (k.modSeq q f).run = k.run := rfl
@[simp] theorem Bank.modSeq_v (k : Bank) (q : SeqId) (f : Seq → Seq) : (k.modSeq q f).v = k.v := rfl
@[simp] theorem Bank.modSeq_m (k : Bank) (q : SeqId) (f : Seq → Seq) : (k.modSeq q f).m = k.m := rfl
@[simp] theorem Bank.modSeq_xf (k : Bank) (q : SeqId) (f : Seq → Seq) : (k.modSeq q f).xf = k.xf := rfl
@[simp] theorem Bank.modSeq_slots (k : Bank) (q : SeqId) (f : Seq → Seq) : (k.modSeq q f).slots = k.slots := rfl
@[simp] theorem Bank.modSeq_xpend (k : Bank) (q : SeqId) (f : Seq → Seq) : (k.modSeq q f).xpend = k.xpend := rfl
@[simp] theorem Bank.modSeq_z (k : Bank) (q : SeqId) (f : Seq → Seq) : (k.modSeq q f).z = k.z := rfl
@[simp] theorem Bank.modSeq_plane (k : Bank) (q : SeqId) (f : Seq → Seq) : (k.modSeq q f).plane = k.plane := rfl
@[simp] theorem Bank.modSeq_shadow (k : Bank) (q : SeqId) (f : Seq → Seq) : (k.modSeq q f).shadow = k.shadow := rfl
@[simp] theorem Bank.modSeq_q (k : Bank) (q : SeqId) (f : Seq → Seq) : (k.modSeq q f).q = k.q := rfl
@[simp] theorem Bank.modSeq_f (k : Bank) (q : SeqId) (f : Seq → Seq) : (k.modSeq q f).f = k.f := rfl
@[simp] theorem Bank.modSeq_fmt (k : Bank) (q : SeqId) (f : Seq → Seq) : (k.modSeq q f).fmt = k.fmt := rfl
@[simp] theorem Bank.modSeq_flog (k : Bank) (q : SeqId) (f : Seq → Seq) : (k.modSeq q f).flog = k.flog := rfl
@[simp] theorem Bank.modSeq_flogRead (k : Bank) (q : SeqId) (f : Seq → Seq) : (k.modSeq q f).flogRead = k.flogRead := rfl
@[simp] theorem Bank.modSeq_flogidx (k : Bank) (q : SeqId) (f : Seq → Seq) : (k.modSeq q f).flogidx = k.flogidx := rfl
@[simp] theorem Bank.modSeq_cfs (k : Bank) (q : SeqId) (f : Seq → Seq) : (k.modSeq q f).cfs = k.cfs := rfl
@[simp] theorem Bank.modSeq_fbase (k : Bank) (q : SeqId) (f : Seq → Seq) : (k.modSeq q f).fbase = k.fbase := rfl
@[simp] theorem Bank.modSeq_rsseed (k : Bank) (q : SeqId) (f : Seq → Seq) : (k.modSeq q f).rsseed = k.rsseed := rfl
@[simp] theorem Bank.modSeq_qmap (k : Bank) (q : SeqId) (f : Seq → Seq) : (k.modSeq q f).qmap = k.qmap := rfl
@[simp] theorem Bank.modSeq_cwin (k : Bank) (q : SeqId) (f : Seq → Seq) : (k.modSeq q f).cwin = k.cwin := rfl
@[simp] theorem Bank.modSeq_cwinBy (k : Bank) (q : SeqId) (f : Seq → Seq) : (k.modSeq q f).cwinBy = k.cwinBy := rfl
@[simp] theorem Bank.modSeq_ccache (k : Bank) (q : SeqId) (f : Seq → Seq) : (k.modSeq q f).ccache = k.ccache := rfl
@[simp] theorem Bank.modSeq_stream (k : Bank) (q : SeqId) (f : Seq → Seq) : (k.modSeq q f).stream = k.stream := rfl
@[simp] theorem Bank.modSeq_ostream (k : Bank) (q : SeqId) (f : Seq → Seq) : (k.modSeq q f).ostream = k.ostream := rfl
@[simp] theorem Bank.modSeq_grp (k : Bank) (q : SeqId) (f : Seq → Seq) : (k.modSeq q f).grp = k.grp := rfl
@[simp] theorem Bank.modSeq_aecfg (k : Bank) (q : SeqId) (f : Seq → Seq) : (k.modSeq q f).aecfg = k.aecfg := rfl
@[simp] theorem Bank.modSeq_aecfgOld (k : Bank) (q : SeqId) (f : Seq → Seq) : (k.modSeq q f).aecfgOld = k.aecfgOld := rfl
@[simp] theorem Bank.modSeq_aecfgAt (k : Bank) (q : SeqId) (f : Seq → Seq) : (k.modSeq q f).aecfgAt = k.aecfgAt := rfl
@[simp] theorem Bank.modSeq_bar (k : Bank) (q : SeqId) (f : Seq → Seq) : (k.modSeq q f).bar = k.bar := rfl
@[simp] theorem Bank.modSeq_barSaved (k : Bank) (q : SeqId) (f : Seq → Seq) : (k.modSeq q f).barSaved = k.barSaved := rfl
@[simp] theorem Bank.modSeq_bornSaved (k : Bank) (q : SeqId) (f : Seq → Seq) : (k.modSeq q f).bornSaved = k.bornSaved := rfl
@[simp] theorem Bank.modSeq_armedSaved (k : Bank) (q : SeqId) (f : Seq → Seq) : (k.modSeq q f).armedSaved = k.armedSaved := rfl
@[simp] theorem Bank.modSeq_rqEdits (k : Bank) (q : SeqId) (f : Seq → Seq) : (k.modSeq q f).rqEdits = k.rqEdits := rfl
@[simp] theorem Bank.modSeq_level (k : Bank) (q : SeqId) (f : Seq → Seq) : (k.modSeq q f).level = k.level := rfl
@[simp] theorem Bank.modSeq_frozen (k : Bank) (q : SeqId) (f : Seq → Seq) : (k.modSeq q f).frozen = k.frozen := rfl
@[simp] theorem Bank.modSeq_stopping (k : Bank) (q : SeqId) (f : Seq → Seq) : (k.modSeq q f).stopping = k.stopping := rfl
@[simp] theorem Bank.modSeq_suspended (k : Bank) (q : SeqId) (f : Seq → Seq) : (k.modSeq q f).suspended = k.suspended := rfl
@[simp] theorem Bank.modSeq_blocked (k : Bank) (q : SeqId) (f : Seq → Seq) : (k.modSeq q f).blocked = k.blocked := rfl
@[simp] theorem Bank.modSeq_fault (k : Bank) (q : SeqId) (f : Seq → Seq) : (k.modSeq q f).fault = k.fault := rfl
@[simp] theorem Bank.modSeq_replay (k : Bank) (q : SeqId) (f : Seq → Seq) : (k.modSeq q f).replay = k.replay := rfl
@[simp] theorem Bank.modSeq_tvec (k : Bank) (q : SeqId) (f : Seq → Seq) : (k.modSeq q f).tvec = k.tvec := rfl
@[simp] theorem Bank.modSeq_tfbase (k : Bank) (q : SeqId) (f : Seq → Seq) : (k.modSeq q f).tfbase = k.tfbase := rfl
@[simp] theorem Bank.modSeq_savef (k : Bank) (q : SeqId) (f : Seq → Seq) : (k.modSeq q f).savef = k.savef := rfl
@[simp] theorem Bank.modSeq_tpend (k : Bank) (q : SeqId) (f : Seq → Seq) : (k.modSeq q f).tpend = k.tpend := rfl
@[simp] theorem Bank.modSeq_iaddr (k : Bank) (q : SeqId) (f : Seq → Seq) : (k.modSeq q f).iaddr = k.iaddr := rfl
@[simp] theorem Bank.modSeq_iagent (k : Bank) (q : SeqId) (f : Seq → Seq) : (k.modSeq q f).iagent = k.iagent := rfl
@[simp] theorem Bank.modSeq_icause (k : Bank) (q : SeqId) (f : Seq → Seq) : (k.modSeq q f).icause = k.icause := rfl
@[simp] theorem Bank.modSeq_paddr (k : Bank) (q : SeqId) (f : Seq → Seq) : (k.modSeq q f).paddr = k.paddr := rfl
@[simp] theorem Bank.modSeq_wsrange (k : Bank) (q : SeqId) (f : Seq → Seq) : (k.modSeq q f).wsrange = k.wsrange := rfl
@[simp] theorem Bank.modSeq_spwin (k : Bank) (q : SeqId) (f : Seq → Seq) : (k.modSeq q f).spwin = k.spwin := rfl
@[simp] theorem Bank.modSeq_prcnt (k : Bank) (q : SeqId) (f : Seq → Seq) : (k.modSeq q f).prcnt = k.prcnt := rfl
@[simp] theorem Bank.modSeq_ptroot (k : Bank) (q : SeqId) (f : Seq → Seq) : (k.modSeq q f).ptroot = k.ptroot := rfl
@[simp] theorem Bank.modSeq_pfinfo (k : Bank) (q : SeqId) (f : Seq → Seq) : (k.modSeq q f).pfinfo = k.pfinfo := rfl
@[simp] theorem Bank.modSeq_faults (k : Bank) (q : SeqId) (f : Seq → Seq) : (k.modSeq q f).faults = k.faults := rfl
@[simp] theorem Bank.modSeq_wpa (k : Bank) (q : SeqId) (f : Seq → Seq) : (k.modSeq q f).wpa = k.wpa := rfl
@[simp] theorem Bank.modSeq_wpc (k : Bank) (q : SeqId) (f : Seq → Seq) : (k.modSeq q f).wpc = k.wpc := rfl
@[simp] theorem Bank.modSeq_pmc (k : Bank) (q : SeqId) (f : Seq → Seq) : (k.modSeq q f).pmc = k.pmc := rfl
@[simp] theorem Bank.modSeq_pmsel (k : Bank) (q : SeqId) (f : Seq → Seq) : (k.modSeq q f).pmsel = k.pmsel := rfl
@[simp] theorem Bank.modSeq_energy (k : Bank) (q : SeqId) (f : Seq → Seq) : (k.modSeq q f).energy = k.energy := rfl
@[simp] theorem Bank.modSeq_weights (k : Bank) (q : SeqId) (f : Seq → Seq) : (k.modSeq q f).weights = k.weights := rfl
@[simp] theorem Bank.modSeq_fseq (k : Bank) (q : SeqId) (f : Seq → Seq) : (k.modSeq q f).fseq = k.fseq := rfl
@[simp] theorem Bank.modSeq_fcause (k : Bank) (q : SeqId) (f : Seq → Seq) : (k.modSeq q f).fcause = k.fcause := rfl
@[simp] theorem Bank.modSeq_nextRid (k : Bank) (q : SeqId) (f : Seq → Seq) : (k.modSeq q f).nextRid = k.nextRid := rfl
@[simp] theorem Bank.modSeq_saveTo (k : Bank) (q : SeqId) (f : Seq → Seq) : (k.modSeq q f).saveTo = k.saveTo := rfl
@[simp] theorem Bank.modSeq_saveNth (k : Bank) (q : SeqId) (f : Seq → Seq) : (k.modSeq q f).saveNth = k.saveNth := rfl
@[simp] theorem Bank.modSeq_pins (k : Bank) (q : SeqId) (f : Seq → Seq) : (k.modSeq q f).pins = k.pins := rfl
@[simp] theorem Bank.modSeq_csrPend (k : Bank) (q : SeqId) (f : Seq → Seq) : (k.modSeq q f).csrPend = k.csrPend := rfl
@[simp] theorem Bank.modSeq_fmtPend (k : Bank) (q : SeqId) (f : Seq → Seq) : (k.modSeq q f).fmtPend = k.fmtPend := rfl
@[simp] theorem Bank.modSeq_comp (k : Bank) (q : SeqId) (f : Seq → Seq) : (k.modSeq q f).comp = k.comp := rfl
@[simp] theorem Bank.modSeq_freedAt (k : Bank) (q : SeqId) (f : Seq → Seq) : (k.modSeq q f).freedAt = k.freedAt := rfl
@[simp] theorem Bank.modSeq_wrote (k : Bank) (q : SeqId) (f : Seq → Seq) : (k.modSeq q f).wrote = k.wrote := rfl
@[simp] theorem Bank.modSeq_nextRet (k : Bank) (q : SeqId) (f : Seq → Seq) : (k.modSeq q f).nextRet = k.nextRet := rfl

/-! ## Bank.modQ -/

@[simp] theorem Bank.modQ_task (k : Bank) (n : Fin 16) (f : Queue → Queue) : (k.modQ n f).task = k.task := rfl
@[simp] theorem Bank.modQ_serial (k : Bank) (n : Fin 16) (f : Queue → Queue) : (k.modQ n f).serial = k.serial := rfl
@[simp] theorem Bank.modQ_startCycle (k : Bank) (n : Fin 16) (f : Queue → Queue) : (k.modQ n f).startCycle = k.startCycle := rfl
@[simp] theorem Bank.modQ_run (k : Bank) (n : Fin 16) (f : Queue → Queue) : (k.modQ n f).run = k.run := rfl
@[simp] theorem Bank.modQ_seqs (k : Bank) (n : Fin 16) (f : Queue → Queue) : (k.modQ n f).seqs = k.seqs := rfl
@[simp] theorem Bank.modQ_v (k : Bank) (n : Fin 16) (f : Queue → Queue) : (k.modQ n f).v = k.v := rfl
@[simp] theorem Bank.modQ_m (k : Bank) (n : Fin 16) (f : Queue → Queue) : (k.modQ n f).m = k.m := rfl
@[simp] theorem Bank.modQ_xf (k : Bank) (n : Fin 16) (f : Queue → Queue) : (k.modQ n f).xf = k.xf := rfl
@[simp] theorem Bank.modQ_slots (k : Bank) (n : Fin 16) (f : Queue → Queue) : (k.modQ n f).slots = k.slots := rfl
@[simp] theorem Bank.modQ_xpend (k : Bank) (n : Fin 16) (f : Queue → Queue) : (k.modQ n f).xpend = k.xpend := rfl
@[simp] theorem Bank.modQ_z (k : Bank) (n : Fin 16) (f : Queue → Queue) : (k.modQ n f).z = k.z := rfl
@[simp] theorem Bank.modQ_plane (k : Bank) (n : Fin 16) (f : Queue → Queue) : (k.modQ n f).plane = k.plane := rfl
@[simp] theorem Bank.modQ_shadow (k : Bank) (n : Fin 16) (f : Queue → Queue) : (k.modQ n f).shadow = k.shadow := rfl
@[simp] theorem Bank.modQ_f (k : Bank) (n : Fin 16) (f : Queue → Queue) : (k.modQ n f).f = k.f := rfl
@[simp] theorem Bank.modQ_fmt (k : Bank) (n : Fin 16) (f : Queue → Queue) : (k.modQ n f).fmt = k.fmt := rfl
@[simp] theorem Bank.modQ_flog (k : Bank) (n : Fin 16) (f : Queue → Queue) : (k.modQ n f).flog = k.flog := rfl
@[simp] theorem Bank.modQ_flogRead (k : Bank) (n : Fin 16) (f : Queue → Queue) : (k.modQ n f).flogRead = k.flogRead := rfl
@[simp] theorem Bank.modQ_flogidx (k : Bank) (n : Fin 16) (f : Queue → Queue) : (k.modQ n f).flogidx = k.flogidx := rfl
@[simp] theorem Bank.modQ_cfs (k : Bank) (n : Fin 16) (f : Queue → Queue) : (k.modQ n f).cfs = k.cfs := rfl
@[simp] theorem Bank.modQ_fbase (k : Bank) (n : Fin 16) (f : Queue → Queue) : (k.modQ n f).fbase = k.fbase := rfl
@[simp] theorem Bank.modQ_rsseed (k : Bank) (n : Fin 16) (f : Queue → Queue) : (k.modQ n f).rsseed = k.rsseed := rfl
@[simp] theorem Bank.modQ_qmap (k : Bank) (n : Fin 16) (f : Queue → Queue) : (k.modQ n f).qmap = k.qmap := rfl
@[simp] theorem Bank.modQ_cwin (k : Bank) (n : Fin 16) (f : Queue → Queue) : (k.modQ n f).cwin = k.cwin := rfl
@[simp] theorem Bank.modQ_cwinBy (k : Bank) (n : Fin 16) (f : Queue → Queue) : (k.modQ n f).cwinBy = k.cwinBy := rfl
@[simp] theorem Bank.modQ_ccache (k : Bank) (n : Fin 16) (f : Queue → Queue) : (k.modQ n f).ccache = k.ccache := rfl
@[simp] theorem Bank.modQ_stream (k : Bank) (n : Fin 16) (f : Queue → Queue) : (k.modQ n f).stream = k.stream := rfl
@[simp] theorem Bank.modQ_ostream (k : Bank) (n : Fin 16) (f : Queue → Queue) : (k.modQ n f).ostream = k.ostream := rfl
@[simp] theorem Bank.modQ_grp (k : Bank) (n : Fin 16) (f : Queue → Queue) : (k.modQ n f).grp = k.grp := rfl
@[simp] theorem Bank.modQ_aecfg (k : Bank) (n : Fin 16) (f : Queue → Queue) : (k.modQ n f).aecfg = k.aecfg := rfl
@[simp] theorem Bank.modQ_aecfgOld (k : Bank) (n : Fin 16) (f : Queue → Queue) : (k.modQ n f).aecfgOld = k.aecfgOld := rfl
@[simp] theorem Bank.modQ_aecfgAt (k : Bank) (n : Fin 16) (f : Queue → Queue) : (k.modQ n f).aecfgAt = k.aecfgAt := rfl
@[simp] theorem Bank.modQ_bar (k : Bank) (n : Fin 16) (f : Queue → Queue) : (k.modQ n f).bar = k.bar := rfl
@[simp] theorem Bank.modQ_barSaved (k : Bank) (n : Fin 16) (f : Queue → Queue) : (k.modQ n f).barSaved = k.barSaved := rfl
@[simp] theorem Bank.modQ_bornSaved (k : Bank) (n : Fin 16) (f : Queue → Queue) : (k.modQ n f).bornSaved = k.bornSaved := rfl
@[simp] theorem Bank.modQ_armedSaved (k : Bank) (n : Fin 16) (f : Queue → Queue) : (k.modQ n f).armedSaved = k.armedSaved := rfl
@[simp] theorem Bank.modQ_rqEdits (k : Bank) (n : Fin 16) (f : Queue → Queue) : (k.modQ n f).rqEdits = k.rqEdits := rfl
@[simp] theorem Bank.modQ_level (k : Bank) (n : Fin 16) (f : Queue → Queue) : (k.modQ n f).level = k.level := rfl
@[simp] theorem Bank.modQ_frozen (k : Bank) (n : Fin 16) (f : Queue → Queue) : (k.modQ n f).frozen = k.frozen := rfl
@[simp] theorem Bank.modQ_stopping (k : Bank) (n : Fin 16) (f : Queue → Queue) : (k.modQ n f).stopping = k.stopping := rfl
@[simp] theorem Bank.modQ_suspended (k : Bank) (n : Fin 16) (f : Queue → Queue) : (k.modQ n f).suspended = k.suspended := rfl
@[simp] theorem Bank.modQ_blocked (k : Bank) (n : Fin 16) (f : Queue → Queue) : (k.modQ n f).blocked = k.blocked := rfl
@[simp] theorem Bank.modQ_fault (k : Bank) (n : Fin 16) (f : Queue → Queue) : (k.modQ n f).fault = k.fault := rfl
@[simp] theorem Bank.modQ_replay (k : Bank) (n : Fin 16) (f : Queue → Queue) : (k.modQ n f).replay = k.replay := rfl
@[simp] theorem Bank.modQ_tvec (k : Bank) (n : Fin 16) (f : Queue → Queue) : (k.modQ n f).tvec = k.tvec := rfl
@[simp] theorem Bank.modQ_tfbase (k : Bank) (n : Fin 16) (f : Queue → Queue) : (k.modQ n f).tfbase = k.tfbase := rfl
@[simp] theorem Bank.modQ_savef (k : Bank) (n : Fin 16) (f : Queue → Queue) : (k.modQ n f).savef = k.savef := rfl
@[simp] theorem Bank.modQ_tpend (k : Bank) (n : Fin 16) (f : Queue → Queue) : (k.modQ n f).tpend = k.tpend := rfl
@[simp] theorem Bank.modQ_iaddr (k : Bank) (n : Fin 16) (f : Queue → Queue) : (k.modQ n f).iaddr = k.iaddr := rfl
@[simp] theorem Bank.modQ_iagent (k : Bank) (n : Fin 16) (f : Queue → Queue) : (k.modQ n f).iagent = k.iagent := rfl
@[simp] theorem Bank.modQ_icause (k : Bank) (n : Fin 16) (f : Queue → Queue) : (k.modQ n f).icause = k.icause := rfl
@[simp] theorem Bank.modQ_paddr (k : Bank) (n : Fin 16) (f : Queue → Queue) : (k.modQ n f).paddr = k.paddr := rfl
@[simp] theorem Bank.modQ_wsrange (k : Bank) (n : Fin 16) (f : Queue → Queue) : (k.modQ n f).wsrange = k.wsrange := rfl
@[simp] theorem Bank.modQ_spwin (k : Bank) (n : Fin 16) (f : Queue → Queue) : (k.modQ n f).spwin = k.spwin := rfl
@[simp] theorem Bank.modQ_prcnt (k : Bank) (n : Fin 16) (f : Queue → Queue) : (k.modQ n f).prcnt = k.prcnt := rfl
@[simp] theorem Bank.modQ_ptroot (k : Bank) (n : Fin 16) (f : Queue → Queue) : (k.modQ n f).ptroot = k.ptroot := rfl
@[simp] theorem Bank.modQ_pfinfo (k : Bank) (n : Fin 16) (f : Queue → Queue) : (k.modQ n f).pfinfo = k.pfinfo := rfl
@[simp] theorem Bank.modQ_faults (k : Bank) (n : Fin 16) (f : Queue → Queue) : (k.modQ n f).faults = k.faults := rfl
@[simp] theorem Bank.modQ_wpa (k : Bank) (n : Fin 16) (f : Queue → Queue) : (k.modQ n f).wpa = k.wpa := rfl
@[simp] theorem Bank.modQ_wpc (k : Bank) (n : Fin 16) (f : Queue → Queue) : (k.modQ n f).wpc = k.wpc := rfl
@[simp] theorem Bank.modQ_pmc (k : Bank) (n : Fin 16) (f : Queue → Queue) : (k.modQ n f).pmc = k.pmc := rfl
@[simp] theorem Bank.modQ_pmsel (k : Bank) (n : Fin 16) (f : Queue → Queue) : (k.modQ n f).pmsel = k.pmsel := rfl
@[simp] theorem Bank.modQ_energy (k : Bank) (n : Fin 16) (f : Queue → Queue) : (k.modQ n f).energy = k.energy := rfl
@[simp] theorem Bank.modQ_weights (k : Bank) (n : Fin 16) (f : Queue → Queue) : (k.modQ n f).weights = k.weights := rfl
@[simp] theorem Bank.modQ_fseq (k : Bank) (n : Fin 16) (f : Queue → Queue) : (k.modQ n f).fseq = k.fseq := rfl
@[simp] theorem Bank.modQ_fcause (k : Bank) (n : Fin 16) (f : Queue → Queue) : (k.modQ n f).fcause = k.fcause := rfl
@[simp] theorem Bank.modQ_nextRid (k : Bank) (n : Fin 16) (f : Queue → Queue) : (k.modQ n f).nextRid = k.nextRid := rfl
@[simp] theorem Bank.modQ_saveTo (k : Bank) (n : Fin 16) (f : Queue → Queue) : (k.modQ n f).saveTo = k.saveTo := rfl
@[simp] theorem Bank.modQ_saveNth (k : Bank) (n : Fin 16) (f : Queue → Queue) : (k.modQ n f).saveNth = k.saveNth := rfl
@[simp] theorem Bank.modQ_pins (k : Bank) (n : Fin 16) (f : Queue → Queue) : (k.modQ n f).pins = k.pins := rfl
@[simp] theorem Bank.modQ_csrPend (k : Bank) (n : Fin 16) (f : Queue → Queue) : (k.modQ n f).csrPend = k.csrPend := rfl
@[simp] theorem Bank.modQ_fmtPend (k : Bank) (n : Fin 16) (f : Queue → Queue) : (k.modQ n f).fmtPend = k.fmtPend := rfl
@[simp] theorem Bank.modQ_comp (k : Bank) (n : Fin 16) (f : Queue → Queue) : (k.modQ n f).comp = k.comp := rfl
@[simp] theorem Bank.modQ_freedAt (k : Bank) (n : Fin 16) (f : Queue → Queue) : (k.modQ n f).freedAt = k.freedAt := rfl
@[simp] theorem Bank.modQ_wrote (k : Bank) (n : Fin 16) (f : Queue → Queue) : (k.modQ n f).wrote = k.wrote := rfl
@[simp] theorem Bank.modQ_nextRet (k : Bank) (n : Fin 16) (f : Queue → Queue) : (k.modQ n f).nextRet = k.nextRet := rfl

/-! ## What an update makes of the part it changes -/

theorem State.modCore_core (s : State) (c d : CoreId) (f : Core → Core) :
    (s.modCore c f).core d = if c = d then f (s.core d) else s.core d := by
  unfold State.modCore State.core
  simp only [vset_get]
  by_cases h : c = d
  · subst h; simp
  · simp [h]

theorem Core.modBank_get (k : Core) (b d : BankId) (f : Bank → Bank) :
    (k.modBank b f).banks.get d = if b = d then f (k.banks.get d) else k.banks.get d := by
  unfold Core.modBank
  simp only [vset_get]
  by_cases h : b = d
  · subst h; simp
  · simp [h]

theorem State.modBank_core (s : State) (w : Who) (f : Bank → Bank) (c : CoreId) :
    (s.modBank w f).core c = if w.c = c then (s.core c).modBank w.b f else s.core c := State.modCore_core _ _ _ _

theorem State.modBank_bank (s : State) (w x : Who) (f : Bank → Bank) :
    (s.modBank w f).bank x = if w.c = x.c ∧ w.b = x.b then f (s.bank x) else s.bank x := by
  unfold State.bank
  rw [State.modBank_core]
  by_cases hc : w.c = x.c
  · simp only [hc, if_true, true_and, Core.modBank_get]
  · simp [hc]

@[simp] theorem State.modBank_bank_self (s : State) (w : Who) (f : Bank → Bank) : (s.modBank w f).bank w = f (s.bank w) := by
  simp [State.modBank_bank]

theorem Bank.modSeq_get (k : Bank) (q p : SeqId) (f : Seq → Seq) :
    (k.modSeq q f).seqs.get p = if q = p then f (k.seqs.get p) else k.seqs.get p := by
  unfold Bank.modSeq
  simp only [vset_get]
  by_cases h : q = p
  · subst h; simp
  · simp [h]

@[simp] theorem Bank.modSeq_get_self (k : Bank) (q : SeqId) (f : Seq → Seq) : (k.modSeq q f).seqs.get q = f (k.seqs.get q) := by
  simp [Bank.modSeq_get]

theorem Bank.modQ_get (k : Bank) (n p : Fin 16) (f : Queue → Queue) :
    (k.modQ n f).q.get p = if n = p then f (k.q.get p) else k.q.get p := by
  unfold Bank.modQ
  simp only [vset_get]
  by_cases h : n = p
  · subst h; simp
  · simp [h]

theorem State.modSeq_bank (s : State) (w x : Who) (f : Seq → Seq) :
    (s.modSeq w f).bank x = if w.c = x.c ∧ w.b = x.b then (s.bank x).modSeq w.q f else s.bank x := State.modBank_bank _ _ _ _

theorem State.modSeq_sq (s : State) (w x : Who) (f : Seq → Seq) :
    (s.modSeq w f).sq x = if w.c = x.c ∧ w.b = x.b ∧ w.q = x.q then f (s.sq x) else s.sq x := by
  unfold State.sq
  rw [State.modSeq_bank]
  by_cases h : w.c = x.c ∧ w.b = x.b
  · simp only [h, and_self, if_true, true_and, Bank.modSeq_get]
  · rw [if_neg h, if_neg (fun h' => h ⟨h'.1, h'.2.1⟩)]

@[simp] theorem State.modSeq_sq_self (s : State) (w : Who) (f : Seq → Seq) : (s.modSeq w f).sq w = f (s.sq w) := by
  simp [State.modSeq_sq]

theorem State.modQ_bank (s : State) (w x : Who) (n : Fin 16) (f : Queue → Queue) :
    (s.modQ w n f).bank x = if w.c = x.c ∧ w.b = x.b then (s.bank x).modQ n f else s.bank x := State.modBank_bank _ _ _ _

@[simp] theorem State.modQ_queue_self (s : State) (w : Who) (n : Fin 16) (f : Queue → Queue) :
    (s.modQ w n f).queue w n = f (s.queue w n) := by
  simp [State.queue, State.modQ_bank, Bank.modQ_get]

@[simp] theorem State.modQ_sq (s : State) (w x : Who) (n : Fin 16) (f : Queue → Queue) : (s.modQ w n f).sq x = s.sq x := by
  unfold State.sq
  rw [State.modQ_bank]
  split <;> rfl

theorem State.modClu_clu (s : State) (u v : CluId) (f : Cluster → Cluster) :
    (s.modClu u f).clu v = if u = v then f (s.clu v) else s.clu v := by
  unfold State.modClu State.clu
  simp only [vset_get]
  by_cases h : u = v
  · subst h; simp
  · simp [h]

theorem State.modDie_die (s : State) (d e : DieId) (f : Die → Die) :
    (s.modDie d f).die e = if d = e then f (s.die e) else s.die e := by
  unfold State.modDie State.die
  simp only [vset_get]
  by_cases h : d = e
  · subst h; simp
  · simp [h]

@[simp] theorem State.modClu_core (s : State) (u : CluId) (f : Cluster → Cluster) (c : CoreId) : (s.modClu u f).core c = s.core c := rfl
@[simp] theorem State.modClu_bank (s : State) (u : CluId) (f : Cluster → Cluster) (w : Who) : (s.modClu u f).bank w = s.bank w := rfl
@[simp] theorem State.modClu_sq (s : State) (u : CluId) (f : Cluster → Cluster) (w : Who) : (s.modClu u f).sq w = s.sq w := rfl
@[simp] theorem State.modAgent_core (s : State) (a : Nat) (f : Agent → Agent) (c : CoreId) : (s.modAgent a f).core c = s.core c := rfl
@[simp] theorem State.modAgent_bank (s : State) (a : Nat) (f : Agent → Agent) (w : Who) : (s.modAgent a f).bank w = s.bank w := rfl
@[simp] theorem State.modAgent_sq (s : State) (a : Nat) (f : Agent → Agent) (w : Who) : (s.modAgent a f).sq w = s.sq w := rfl
@[simp] theorem State.modHost_core (s : State) (f : HostIf → HostIf) (c : CoreId) : (s.modHost f).core c = s.core c := rfl
@[simp] theorem State.modHost_bank (s : State) (f : HostIf → HostIf) (w : Who) : (s.modHost f).bank w = s.bank w := rfl
@[simp] theorem State.event_core (s : State) (n : Nat) (xs : List W64) (st : Nat) (c : CoreId) : (s.event n xs st).core c = s.core c := rfl
@[simp] theorem State.event_bank (s : State) (n : Nat) (xs : List W64) (st : Nat) (w : Who) : (s.event n xs st).bank w = s.bank w := rfl

end Sys2Proof.Machine
end

