-- ==== Sys2Proof/Laws/Store.lean ====
section
/-! SUPPORT. Sparse storage: what is read after a write, and that every operation keeps the canonical form. -/
namespace Sys2Proof

/-! ## Maps -/

theorem NMap.wf_iff {α : Type} (m : NMap α) : NMap.wf m = true ↔ m.Pairwise fun a b => a.1 < b.1 := by
  induction m with
  | nil => simp [NMap.wf]
  | cons a m ih =>
    cases m with
    | nil => simp [NMap.wf]
    | cons b m =>
      obtain ⟨i, x⟩ := a
      obtain ⟨j, y⟩ := b
      simp only [NMap.wf, Bool.and_eq_true, decide_eq_true_eq, ih]
      constructor
      · rintro ⟨h, h'⟩
        refine List.pairwise_cons.2 ⟨fun c hc => ?_, h'⟩
        rcases List.mem_cons.1 hc with rfl | hc
        · exact h
        · exact Nat.lt_trans h ((List.pairwise_cons.1 h').1 c hc)
      · intro h
        exact ⟨(List.pairwise_cons.1 h).1 _ (List.mem_cons_self ..), (List.pairwise_cons.1 h).2⟩

theorem NMap.get?_none_of_lt {α : Type} {m : NMap α} {n : Nat} (h : ∀ c ∈ m, n < c.1) : NMap.get? m n = none := by
  cases m with
  | nil => rfl
  | cons c m => simp [NMap.get?, h c (List.mem_cons_self ..)]

theorem NMap.mem_put {α : Type} {m : NMap α} {n : Nat} {x : α} {c : Nat × α} (h : c ∈ NMap.put m n x) : c = (n, x) ∨ c ∈ m := by
  induction m with
  | nil => simpa [NMap.put] using h
  | cons d m ih =>
    obtain ⟨k, v⟩ := d
    simp only [NMap.put] at h
    split at h
    · simpa using h
    · split at h
      · rcases List.mem_cons.1 h with h | h
        · exact .inl h
        · exact .inr (List.mem_cons_of_mem _ h)
      · rcases List.mem_cons.1 h with h | h
        · exact .inr (h ▸ List.mem_cons_self ..)
        · exact (ih h).imp id (List.mem_cons_of_mem _)

theorem NMap.mem_del {α : Type} {m : NMap α} {n : Nat} {c : Nat × α} (h : c ∈ NMap.del m n) : c ∈ m := by
  induction m with
  | nil => simp [NMap.del] at h
  | cons d m ih =>
    obtain ⟨k, v⟩ := d
    simp only [NMap.del] at h
    split at h
    · exact h
    · split at h
      · exact List.mem_cons_of_mem _ h
      · rcases List.mem_cons.1 h with h | h
        · exact h ▸ List.mem_cons_self ..
        · exact List.mem_cons_of_mem _ (ih h)

theorem NMap.wf_put {α : Type} {m : NMap α} (n : Nat) (x : α) (h : NMap.wf m = true) : NMap.wf (NMap.put m n x) = true := by
  rw [NMap.wf_iff] at *
  induction m with
  | nil => simp [NMap.put]
  | cons d m ih =>
    obtain ⟨k, v⟩ := d
    obtain ⟨h1, h2⟩ := List.pairwise_cons.1 h
    simp only [NMap.put]
    split
    · rename_i hlt
      refine List.pairwise_cons.2 ⟨fun c hc => ?_, h⟩
      rcases List.mem_cons.1 hc with rfl | hc
      · exact hlt
      · exact Nat.lt_trans hlt (h1 c hc)
    · split
      · rename_i heq
        exact List.pairwise_cons.2 ⟨fun c hc => heq ▸ h1 c hc, h2⟩
      · refine List.pairwise_cons.2 ⟨fun c hc => ?_, ih h2⟩
        rcases NMap.mem_put hc with rfl | hc
        · show k < n; omega
        · exact h1 c hc

theorem NMap.wf_del {α : Type} {m : NMap α} (n : Nat) (h : NMap.wf m = true) : NMap.wf (NMap.del m n) = true := by
  rw [NMap.wf_iff] at *
  induction m with
  | nil => simp [NMap.del]
  | cons d m ih =>
    obtain ⟨k, v⟩ := d
    obtain ⟨h1, h2⟩ := List.pairwise_cons.1 h
    simp only [NMap.del]
    split
    · exact h
    · split
      · exact h2
      · exact List.pairwise_cons.2 ⟨fun c hc => h1 c (NMap.mem_del hc), ih h2⟩

@[simp] theorem NMap.get?_put_self {α : Type} (m : NMap α) (n : Nat) (x : α) : NMap.get? (NMap.put m n x) n = some x := by
  induction m with
  | nil => simp [NMap.put, NMap.get?]
  | cons d m ih =>
    obtain ⟨k, v⟩ := d
    simp only [NMap.put]
    split
    · simp [NMap.get?]
    · split
      · simp [NMap.get?]
      · rename_i h1 h2
        simp [NMap.get?, h1, h2, ih]

theorem NMap.get?_put_ne {α : Type} {m : NMap α} {n a : Nat} (x : α) (hm : NMap.wf m = true) (h : a ≠ n) :
    NMap.get? (NMap.put m n x) a = NMap.get? m a := by
  rw [NMap.wf_iff] at hm
  induction m with
  | nil => simp [NMap.put, NMap.get?, h]
  | cons d m ih =>
    obtain ⟨k, v⟩ := d
    obtain ⟨h1, h2⟩ := List.pairwise_cons.1 hm
    simp only [NMap.put]
    split
    · simp only [NMap.get?, h, if_false]
      by_cases ha : a < n
      · simp only [ha, if_true]
        rw [if_pos (by omega)]
      · simp only [ha, if_false]
    · split
      · rename_i heq
        subst heq
        simp only [NMap.get?, h, if_false]
      · simp only [NMap.get?, ih h2]

/-- Putting at a key that is there leaves the others, whatever the form. -/
theorem NMap.get?_put_of_some {α : Type} {m : NMap α} {n a : Nat} {y : α} (x : α) (hn : NMap.get? m n = some y) (h : a ≠ n) :
    NMap.get? (NMap.put m n x) a = NMap.get? m a := by
  induction m with
  | nil => cases hn
  | cons c m ih =>
    simp only [NMap.get?] at hn
    simp only [NMap.put]
    split at hn
    · cases hn
    · split at hn
      · rename_i h1 h2
        subst h2
        simp [NMap.get?, h]
      · rename_i h1 h2
        simp only [h1, h2, if_false, NMap.get?, ih hn]

theorem NMap.get?_del_self {α : Type} {m : NMap α} (n : Nat) (hm : NMap.wf m = true) : NMap.get? (NMap.del m n) n = none := by
  rw [NMap.wf_iff] at hm
  induction m with
  | nil => rfl
  | cons d m ih =>
    obtain ⟨k, v⟩ := d
    obtain ⟨h1, h2⟩ := List.pairwise_cons.1 hm
    simp only [NMap.del]
    split
    · simp [NMap.get?, *]
    · split
      · rename_i heq
        exact NMap.get?_none_of_lt fun c hc => heq ▸ h1 c hc
      · simp [NMap.get?, *]

theorem NMap.get?_del_ne {α : Type} {m : NMap α} {n a : Nat} (hm : NMap.wf m = true) (h : a ≠ n) :
    NMap.get? (NMap.del m n) a = NMap.get? m a := by
  rw [NMap.wf_iff] at hm
  induction m with
  | nil => rfl
  | cons d m ih =>
    obtain ⟨k, v⟩ := d
    obtain ⟨h1, h2⟩ := List.pairwise_cons.1 hm
    simp only [NMap.del]
    split
    · rfl
    · split
      · rename_i heq
        subst heq
        simp only [NMap.get?, h, if_false]
        by_cases ha : a < n
        · rw [if_pos ha]
          exact NMap.get?_none_of_lt fun c hc => Nat.lt_trans ha (h1 c hc)
        · rw [if_neg ha]
      · simp only [NMap.get?, ih h2]

/-! ## Memory -/

theorem Memory.wf_iff (m : Memory) : m.wf = true ↔ NMap.wf m = true ∧ ∀ c ∈ m, c.2 ≠ Memory.blank := by
  simp [Memory.wf, List.all_eq_true]

theorem Memory.wf_nil : Memory.wf [] = true := rfl

/-- A write keeps the canonical form. -/
theorem Memory.wf_write {m : Memory} (a : Nat) (b : Byte) (h : m.wf = true) : (m.write a b).wf = true := by
  rw [Memory.wf_iff] at *
  unfold Memory.write
  split
  · exact ⟨NMap.wf_del a h.1, fun c hc => h.2 c (NMap.mem_del hc)⟩
  · rename_i hb
    refine ⟨NMap.wf_put a b h.1, fun c hc => ?_⟩
    rcases NMap.mem_put hc with rfl | hc
    · exact hb
    · exact h.2 c hc

theorem Memory.wf_writeN {m : Memory} (a : Nat) (bs : List Byte) (h : m.wf = true) : (m.writeN a bs).wf = true := by
  induction bs generalizing m a with
  | nil => exact h
  | cons b bs ih => exact ih _ (Memory.wf_write a b h)

/-- Removing entries keeps the canonical form. -/
theorem Memory.wf_filter {m : Memory} (p : Host.Cell → Bool) (h : m.wf = true) : Memory.wf (m.filter p) = true := by
  rw [Memory.wf_iff, NMap.wf_iff] at *
  exact ⟨List.Pairwise.filter _ h.1, fun c hc => h.2 c (List.mem_filter.1 hc).1⟩

/-- A read after a write to the same address gives the byte written. -/
theorem Memory.read_write_self {m : Memory} (a : Nat) (b : Byte) (h : m.wf = true) : (m.write a b).read a = b := by
  have hm := ((Memory.wf_iff m).1 h).1
  unfold Memory.write
  by_cases hb : b = Memory.blank
  · simp only [hb, if_true, Memory.read, NMap.get?_del_self a hm]
  · simp only [hb, if_false, Memory.read, NMap.get?_put_self]

/-- A write leaves every other address alone. -/
theorem Memory.read_write_ne {m : Memory} {a c : Nat} (b : Byte) (h : m.wf = true) (hc : c ≠ a) :
    (m.write a b).read c = m.read c := by
  have hm := ((Memory.wf_iff m).1 h).1
  unfold Memory.write
  by_cases hb : b = Memory.blank
  · simp only [hb, if_true, Memory.read, NMap.get?_del_ne hm hc]
  · simp only [hb, if_false, Memory.read, NMap.get?_put_ne b hm hc]

/-- Writing bytes upward: each address of the range reads as its byte, every other as before. -/
theorem Memory.read_writeN {m : Memory} (a c : Nat) (bs : List Byte) (h : m.wf = true) :
    (m.writeN a bs).read c = if a ≤ c ∧ c < a + bs.length then bs.getD (c - a) 0 else m.read c := by
  induction bs generalizing m a with
  | nil => rw [if_neg (by simp)]; rfl
  | cons b bs ih =>
    rw [Memory.writeN, ih _ (Memory.wf_write a b h)]
    by_cases hc : c = a
    · subst hc
      rw [if_neg (by omega), if_pos ⟨by omega, by simp⟩, Memory.read_write_self _ _ h]
      simp
    · rw [Memory.read_write_ne _ h hc]
      by_cases h' : a + 1 ≤ c ∧ c < a + 1 + bs.length
      · obtain ⟨k, hk⟩ : ∃ k, c - a = k + 1 := ⟨c - a - 1, by omega⟩
        have hk' : c - (a + 1) = k := by omega
        rw [if_pos h', if_pos ⟨by omega, by simp; omega⟩, hk, hk']
        simp
      · rw [if_neg h', if_neg (by simp; omega)]

theorem Memory.readN_length (m : Memory) (a n : Nat) : (m.readN a n).length = n := by
  induction n generalizing a with
  | zero => rfl
  | succ n ih => simp [Memory.readN, ih]

theorem Memory.readN_getD (m : Memory) (a n k : Nat) (h : k < n) : (m.readN a n).getD k 0 = m.read (a + k) := by
  induction n generalizing a k with
  | zero => omega
  | succ n ih =>
    cases k with
    | zero => simp [Memory.readN]
    | succ k =>
      have := ih (a + 1) k (by omega)
      simp only [Memory.readN, List.getD_cons_succ, this]
      congr 1
      omega

theorem Memory.readN_congr {m m' : Memory} {a n : Nat} (h : ∀ k < n, m.read (a + k) = m'.read (a + k)) :
    m.readN a n = m'.readN a n := by
  induction n generalizing a with
  | zero => rfl
  | succ n ih =>
    simp only [Memory.readN]
    rw [show m.read a = m'.read a from h 0 (by omega), ih fun k hk => ?_]
    have := h (k + 1) (by omega)
    rwa [show a + 1 + k = a + (k + 1) by omega]

/-- Bytes written are read back. -/
theorem Memory.readN_writeN {m : Memory} (a : Nat) (bs : List Byte) (h : m.wf = true) :
    (m.writeN a bs).readN a bs.length = bs := by
  refine List.ext_getElem (by rw [Memory.readN_length]) fun k h1 h2 => ?_
  have := Memory.readN_getD (m.writeN a bs) a bs.length k h2
  rw [Memory.read_writeN _ _ _ h, if_pos ⟨by omega, by omega⟩, show a + k - a = k by omega] at this
  simpa [List.getD_eq_getElem?_getD, List.getElem?_eq_getElem h1, List.getElem?_eq_getElem h2] using this

/-! ## Little-endian bytes -/

theorem leBytes_length (n v : Nat) : (leBytes n v).length = n := by
  induction n generalizing v with
  | zero => rfl
  | succ n ih => simp [leBytes, ih]

theorem leNat_leBytes (n v : Nat) : leNat (leBytes n v) = v % 256 ^ n := by
  induction n generalizing v with
  | zero => simp [leBytes, leNat, Nat.mod_one]
  | succ n ih =>
    have h := Nat.mod_mul (a := 256) (b := 256 ^ n) (x := v)
    rw [← pow_succ'] at h
    rw [leBytes, leNat, ih, BitVec.toNat_ofNat, h]

theorem leBytes_getD (n v k : Nat) (h : k < n) : (leBytes n v).getD k 0 = BitVec.ofNat 8 (v / 256 ^ k) := by
  induction n generalizing v k with
  | zero => omega
  | succ n ih =>
    cases k with
    | zero => simp [leBytes]
    | succ k =>
      simp only [leBytes, List.getD_cons_succ]
      rw [ih _ _ (by omega), Nat.div_div_eq_div_mul, pow_succ']

/-- A word written is read back. -/
theorem Memory.readLe_writeN {m : Memory} (a n v : Nat) (h : m.wf = true) :
    (m.writeN a (leBytes n v)).readLe a n = v % 256 ^ n := by
  unfold Memory.readLe
  have := Memory.readN_writeN a (leBytes n v) h
  rw [leBytes_length] at this
  rw [this, leNat_leBytes]

end Sys2Proof
end

