-- ==== Sys2Proof/Laws/Reads.lean ====
section
/-! SUPPORT. What reading operands does to the state: one relation, which every operand operation keeps. -/
namespace Sys2Proof.Machine

/-! ## The relation -/

theorem vset_vset {α : Type} {n : Nat} (v : Vector α n) (i : Fin n) (x y : α) : vset (vset v i x) i y = vset v i y := by
  unfold vset
  simp

theorem vset_get_id {α : Type} {n : Nat} (v : Vector α n) (i : Fin n) : vset v i (v.get i) = v := by
  unfold vset
  simp [Vector.get_eq_getElem]

/-- A bank after operands were read on its sequencer `q`: queues and their slot numbers, counters, the constant cache and a
pending error may have changed. -/
def BankRead (q : SeqId) (k k' : Bank) : Prop :=
  ∃ u qs r tp pm en cc, k' = { k with
    seqs := vset k.seqs q { k.seqs.get q with unc := u }, q := qs, nextRid := r, tpend := tp, pmc := pm, energy := en, ccache := cc }

/-- A core after operands were read on a bank of it: its TLBs, what it notes of entries it has evicted, and that bank may have
changed. -/
def CoreRead (b : BankId) (q : SeqId) (k k' : Core) : Prop :=
  ∃ x t0 t1 t2 old, BankRead q (k.banks.get b) x ∧
    k' = { k with banks := vset k.banks b x, tlb := t0, tlbCopy := t1, tlbOut := t2, tlbOld := old }

/-- The state after the sequencer whose turn it is has read operands: agents' views, open choices, holders of duplicates, counted
lines back in their slices, reports of errors it has consumed, and its own core. -/
def ReadFrame (s t : State) : Prop :=
  ∃ ags ch hs ds es k, (∀ d : DieId, SameDie (s.dies.get d) (ds.get d)) ∧ SameHost s.host es ∧
    CoreRead s.cur.b s.cur.q (s.core s.cur.c) k ∧
    t = { s with agents := ags, choice := ch, holders := hs, dies := ds, host := es, cores := vset s.cores s.cur.c k }

theorem SameDie.refl (x : Die) : SameDie x x := ⟨rfl, fun _ => rfl⟩
theorem SameDie.trans {x y z : Die} (h : SameDie x y) (h' : SameDie y z) : SameDie x z := by
  obtain ⟨e, h⟩ := h
  obtain ⟨e', h'⟩ := h'
  exact ⟨by rw [e', e], fun k => (h' k).trans (h k)⟩
theorem SameHost.refl (x : HostIf) : SameHost x x := ⟨[], by simp, by simp⟩
theorem SameHost.trans {x y z : HostIf} (h : SameHost x y) (h' : SameHost y z) : SameHost x z := by
  obtain ⟨es, rfl, h⟩ := h
  obtain ⟨es', rfl, h'⟩ := h'
  refine ⟨es ++ es', by simp, fun e he => ?_⟩
  rcases List.mem_append.1 he with he | he
  · exact h e he
  · exact h' e he

theorem BankRead.refl (q : SeqId) (k : Bank) : BankRead q k k :=
  ⟨(k.seqs.get q).unc, k.q, k.nextRid, k.tpend, k.pmc, k.energy, k.ccache, by rw [vset_get_id]⟩

theorem BankRead.update (q : SeqId) (k : Bank) (qs : Vector Queue 16) (r : Nat) (tp : BitVec 9) (pm : Vector W64 8) (en : W64)
    (cc : List CByte) :
    BankRead q k { k with q := qs, nextRid := r, tpend := tp, pmc := pm, energy := en, ccache := cc } :=
  ⟨(k.seqs.get q).unc, qs, r, tp, pm, en, cc, by rw [vset_get_id]⟩

theorem BankRead.trans {q : SeqId} {k k' k'' : Bank} (h : BankRead q k k') (h' : BankRead q k' k'') : BankRead q k k'' := by
  obtain ⟨u, qs, r, tp, pm, en, cc, rfl⟩ := h
  obtain ⟨u', qs', r', tp', pm', en', cc', rfl⟩ := h'
  exact ⟨u', qs', r', tp', pm', en', cc', by simp only [vset_get_self, vset_vset]⟩

theorem CoreRead.refl (b : BankId) (q : SeqId) (k : Core) : CoreRead b q k k :=
  ⟨_, k.tlb, k.tlbCopy, k.tlbOut, k.tlbOld, BankRead.refl q _, by rw [vset_get_id]⟩

theorem CoreRead.trans {b : BankId} {q : SeqId} {k k' k'' : Core} (h : CoreRead b q k k') (h' : CoreRead b q k' k'') :
    CoreRead b q k k'' := by
  obtain ⟨x, t0, t1, t2, o, hx, rfl⟩ := h
  obtain ⟨x', t0', t1', t2', o', hx', rfl⟩ := h'
  simp only [vset_get_self] at hx'
  exact ⟨x', t0', t1', t2', o', hx.trans hx', by simp only [vset_vset]⟩

/-- The frame of a change outside the cores. -/
theorem ReadFrame.of {s : State} (a : NMap Agent) (c : Nat) (hs : NMap Byte) {ds : Vector Die 8} {es : HostIf}
    (hd : ∀ d : DieId, SameDie (s.dies.get d) (ds.get d)) (he : SameHost s.host es) :
    ReadFrame s { s with agents := a, choice := c, holders := hs, dies := ds, host := es } :=
  ⟨a, c, hs, ds, es, _, hd, he, CoreRead.refl _ _ _, by unfold State.core; rw [vset_get_id]⟩

theorem ReadFrame.agents (s : State) (a : NMap Agent) (c : Nat) : ReadFrame s { s with agents := a, choice := c } :=
  ReadFrame.of a c s.holders (fun _ => SameDie.refl _) (SameHost.refl _)

theorem ReadFrame.refl (s : State) : ReadFrame s s := ReadFrame.agents s s.agents s.choice

theorem ReadFrame.trans {s t u : State} (h : ReadFrame s t) (h' : ReadFrame t u) : ReadFrame s u := by
  obtain ⟨a, c, hs, ds, es, k, hd, he, hk, rfl⟩ := h
  obtain ⟨a', c', hs', ds', es', k', hd', he', hk', rfl⟩ := h'
  simp only [State.core, vset_get_self] at hk'
  exact ⟨a', c', hs', ds', es', k', fun d => (hd d).trans (hd' d), he.trans he', CoreRead.trans hk hk', by simp only [vset_vset]⟩

theorem ReadFrame.cur {s t : State} (h : ReadFrame s t) : t.cur = s.cur := by
  obtain ⟨_, _, _, _, _, _, -, -, -, rfl⟩ := h
  rfl

/-! ## State functions -/

theorem choose_frame (s : State) (n : Nat) : ∃ c, (s.choose n).2 = { s with choice := c } := by
  unfold State.choose
  split
  · exact ⟨s.choice, rfl⟩
  · exact ⟨_, rfl⟩

theorem takeParts_frame (s : State) (a : Nat) (ps : List Part) (acq : Option Nat) :
    ∃ g, s.takeParts a ps acq = { s with agents := g } := by
  unfold State.takeParts
  split
  · exact ⟨s.agents, rfl⟩
  · exact ⟨_, rfl⟩

/-- A change of a die that keeps it the same but for its directory's slices. -/
theorem modDie_frame (s : State) (d : DieId) (f : Die → Die) (h : SameDie (s.die d) (f (s.die d))) : ReadFrame s (s.modDie d f) := by
  refine ReadFrame.of s.agents s.choice s.holders (fun e => ?_) (SameHost.refl _)
  rw [vset_get]
  split
  · rename_i he; subst he; exact h
  · exact SameDie.refl _

theorem refetch_frame (s : State) (l : Nat) : ReadFrame s (s.refetch l) := by
  unfold State.refetch
  split
  · exact ReadFrame.refl s
  · split
    · rename_i e he
      split
      · refine modDie_frame s _ _ ⟨rfl, fun k => ?_⟩
        by_cases hk : k = l / 256
        · subst hk; simp [he]
        · simp only; rw [NMap.get?_put_of_some _ he hk]
      · exact ReadFrame.refl s
    · exact ReadFrame.refl s

theorem keepDup_frame (s : State) (c : CoreId) (pa : Nat) : ReadFrame s (s.keepDup c pa) := by
  unfold State.keepDup
  split
  · exact ReadFrame.refl s
  · obtain ⟨n, hn⟩ := choose_frame s 2
    simp only [hn]
    split
    · exact ReadFrame.agents s s.agents n
    · obtain ⟨m, hm⟩ := choose_frame { s with choice := n } (s.holders.length + 1)
      simp only [hm]
      exact ReadFrame.of s.agents m _ (fun _ => SameDie.refl _) (SameHost.refl _)

/-- A load of a word changes its agent's views and takes at most one open choice. -/
theorem load_frame (s : State) (a w : Nat) (m : Byte) (acq : Option Nat) :
    ∃ g c, (s.load a w m acq).2 = { s with agents := g, choice := c } := by
  have take (u : State) (r : Option WRec) (h : ∃ g c, u = { s with agents := g, choice := c }) :
      ∃ g c, (match r with
        | some r => u.takeParts a r.parts acq
        | none => u) = { s with agents := g, choice := c } := by
    obtain ⟨g, c, rfl⟩ := h
    cases r with
    | none => exact ⟨g, c, rfl⟩
    | some r =>
      obtain ⟨g', hg⟩ := takeParts_frame { s with agents := g, choice := c } a r.parts acq
      exact ⟨g', c, hg⟩
  unfold State.load
  simp only
  split
  · exact ⟨s.agents, s.choice, rfl⟩
  · obtain ⟨c, hc⟩ := choose_frame s (s.lastIdx w - (s.agent a).view.floor w + 1)
    simp only [hc]
    refine take _ _ ?_
    split
    · exact ⟨s.agents, c, rfl⟩
    · exact ⟨_, c, rfl⟩

theorem walk_frame (a va lvl : Nat) (s : State) (t : Nat) :
    ∃ g ch, (walk s a va lvl t).2 = { s with agents := g, choice := ch } := by
  induction lvl generalizing s t with
  | zero =>
    unfold walk
    obtain ⟨g, ch, h⟩ := load_frame s a ((t + 8 * tblIndex va 0) / 8 % 2 ^ 37) 0xFF none
    simp only
    repeat (first | exact ⟨g, ch, h⟩ | split)
  | succ n ih =>
    unfold walk
    obtain ⟨g, ch, h⟩ := load_frame s a ((t + 8 * tblIndex va (n + 1)) / 8 % 2 ^ 37) 0xFF none
    simp only
    repeat' split
    all_goals first
      | exact ⟨g, ch, h⟩
      | rw [h]
        obtain ⟨g', ch', h'⟩ := ih { s with agents := g, choice := ch } _
        exact ⟨g', ch', h'⟩

/-- The frame of a change of the core. -/
theorem modCore_frame (s : State) (f : Core → Core) (h : CoreRead s.cur.b s.cur.q (s.core s.cur.c) (f (s.core s.cur.c))) :
    ReadFrame s (s.modCore s.cur.c f) :=
  ⟨s.agents, s.choice, s.holders, s.dies, s.host, _, fun _ => SameDie.refl _, SameHost.refl _, h, rfl⟩

theorem modCore_tlb_frame (s : State) (i : Nat) (t : List TlbE) : ReadFrame s (s.modCore s.cur.c fun x => x.tlbPut i t) := by
  refine modCore_frame s _ ?_
  show CoreRead _ _ (s.core s.cur.c) ((s.core s.cur.c).tlbPut i t)
  unfold Core.tlbPut
  split
  · exact ⟨_, t, _, _, _, BankRead.refl _ _, by rw [vset_get_id]⟩
  · split
    · exact ⟨_, _, t, _, _, BankRead.refl _ _, by rw [vset_get_id]⟩
    · exact ⟨_, _, _, t, _, BankRead.refl _ _, by rw [vset_get_id]⟩

theorem tlbKeep_frame (s : State) (i : Nat) (e : TlbE) : ReadFrame s (s.tlbKeep s.cur.c i e) := by
  unfold State.tlbKeep
  simp only
  split
  · exact modCore_tlb_frame s i _
  · obtain ⟨c, hc⟩ := choose_frame s ((s.core s.cur.c).tlbOf i).length
    simp only [hc]
    exact ((ReadFrame.agents s s.agents c).trans (modCore_tlb_frame { s with choice := c } i _)).trans
      (modCore_frame _ _ ⟨_, _, _, _, _, BankRead.refl _ _, by rw [vset_get_id]⟩)

/-- Translation by the core whose turn it is leaves a TLB entry, the views of its walker, and a duplicate of the page's line. -/
theorem translate_frame (s : State) (i : Nat) (ctx : BitVec 12) (root : W64) (va kind src : Nat) :
    ReadFrame s (s.translate s.cur.c i ctx root va kind src).2 := by
  have seen (x : Except (Byte × W64) (Nat × Bool) × State) (h : ReadFrame s x.2) :
      ReadFrame s (match x with
        | (.ok (pa, true), s') => ((.ok (pa, true), if kind = 0 then s'.keepDup s.cur.c pa else s') :
            Except (Byte × W64) (Nat × Bool) × State)
        | x => x).2 := by
    split
    · dsimp only
      split
      · exact h.trans (keepDup_frame _ _ _)
      · exact h
    · exact h
  unfold State.translate
  simp only
  refine seen _ ?_
  split
  · exact ReadFrame.refl s
  · split
    · exact tlbKeep_frame s i _
    · obtain ⟨g, ch, h⟩ := walk_frame (tlbAgent s.cur.c i) va 4 s (fld root 39 12 * 4096)
      have hw := ReadFrame.agents s g ch
      rw [← h] at hw
      have hc : (walk s (tlbAgent s.cur.c i) va 4 (fld root 39 12 * 4096)).2.cur = s.cur := by rw [h]
      split
      · rename_i l u heq; rw [heq] at hw; exact hw
      · rename_i l u heq; rw [heq] at hw; exact hw
      · rename_i u heq; rw [heq] at hw; exact hw
      · rename_i l e u heq
        rw [heq] at hw hc
        split
        · refine hw.trans ?_
          have := tlbKeep_frame u i ⟨ctx, l, va / 2 ^ pageBits l, e⟩
          rwa [hc] at this
        · exact hw

/-- A change of the bank of the sequencer whose turn it is that its operands may make. -/
theorem modBank_frame (s : State) (f : Bank → Bank) (h : BankRead s.cur.q (s.bank s.cur) (f (s.bank s.cur))) :
    ReadFrame s (s.modBank s.cur f) :=
  modCore_frame s _ ⟨_, _, _, _, _, h, rfl⟩

theorem count_frame (s : State) (ev n : Nat) : ReadFrame s (s.count s.cur ev n) := by
  unfold State.count
  split
  · exact modBank_frame s _ (BankRead.update ..)
  · exact ReadFrame.refl s

theorem count_cur (s : State) (w : Who) (ev n : Nat) : (s.count w ev n).cur = s.cur := by
  unfold State.count
  split <;> rfl

theorem touch_frame (s : State) (l : Nat) : ReadFrame s (s.touch s.cur l) := by
  have hch (u : State) (m ev : Nat) : ReadFrame u ((u.choose m).2.count u.cur ev (u.choose m).1) := by
    obtain ⟨c, hc⟩ := choose_frame u m
    rw [hc]
    exact (ReadFrame.agents u u.agents c).trans (count_frame { u with choice := c } ev _)
  have two (u v : State) (m ev : Nat) (b : Bool) (h : ReadFrame u v) :
      ReadFrame u (if b = true then (v.choose m).2.count u.cur ev (v.choose m).1 else v) := by
    split
    · refine h.trans ?_
      have := hch v m ev
      rwa [h.cur] at this
    · exact h
  unfold State.touch
  split
  · exact count_frame s 8 1
  · split
    · exact ReadFrame.refl s
    · simp only
      exact two s _ 4 9 _ (two s _ 9 7 _ (count_frame s 6 1))

/-! ## Operations -/

/-- An operation that only reads operands. -/
def ReadsOnly {α : Type} (a : Act α) : Prop := ∀ s v t, Runs a s v t → ReadFrame s t

theorem ReadsOnly.pure {α : Type} (v : α) : ReadsOnly (Pure.pure v : Act α) := by
  intro s w t h
  cases h
  exact ReadFrame.refl s

theorem ReadsOnly.get : ReadsOnly (MonadState.get : Act State) := by
  intro s w t h
  cases h
  exact ReadFrame.refl s

theorem ReadsOnly.bind {α β : Type} {a : Act α} {f : α → Act β} (ha : ReadsOnly a) (hf : ∀ v, ReadsOnly (f v)) :
    ReadsOnly (a >>= f) := by
  intro s w u h
  obtain ⟨v, t, h1, h2⟩ := runs_bind_iff.1 h
  exact (ha _ _ _ h1).trans (hf v _ _ _ h2)

/-- After `get`, only what holds of the state read matters. -/
theorem readsOnly_get_bind {β : Type} {f : State → Act β} (hf : ∀ s v t, Runs (f s) s v t → ReadFrame s t) :
    ReadsOnly (MonadState.get >>= f) := by
  intro s w u h
  obtain ⟨v, t, h1, h2⟩ := runs_bind_iff.1 h
  cases h1
  exact hf s w u h2

theorem readsOnly_throw {α : Type} (e : Stop) : ReadsOnly (throw e : Act α) := by
  intro s v t h
  cases h

theorem readsOnly_need (b : Bool) (c : Byte) : ReadsOnly (need b c) := by
  unfold need
  split
  · exact ReadsOnly.pure _
  · exact readsOnly_throw _

theorem readsOnly_needAt (b : Bool) (c : Byte) (a : W64) : ReadsOnly (needAt b c a) := by
  unfold needAt
  split
  · exact ReadsOnly.pure _
  · exact readsOnly_throw _

theorem readsOnly_ite {α : Type} (p : Prop) [Decidable p] {a b : Act α} (ha : ReadsOnly a) (hb : ReadsOnly b) :
    ReadsOnly (if p then a else b) := by
  split
  · exact ha
  · exact hb

/-- A `set` of a state within the frame. -/
theorem runs_set_frame {s u t : State} {v : PUnit} (h : Runs (set u : Act PUnit) s v t) (hu : ReadFrame s u) : ReadFrame s t := by
  cases h
  exact hu

/-- What `raise` and `hold` are never followed by. -/
theorem runs_throw_bind {α β : Type} {e : Stop} {f : α → Act β} {s t : State} {v : β} :
    ¬Runs ((throw e : Act α) >>= f) s v t := by
  intro h
  obtain ⟨_, _, h1, -⟩ := runs_bind_iff.1 h
  cases h1

theorem readsOnly_translate (va : W64) (kind : Nat) : ReadsOnly (translate va kind) := by
  have tail (s t : State) (v : Nat) (x : Except (Byte × W64) (Nat × Bool) × State)
      (h : Runs (match x with
        | (.ok (pa, _), s) => do set s; Pure.pure pa
        | (.error (0, _), _) => hold 13
        | (.error (cause, pf), u) =>
          throw (.trap { cause := cause, addr := va, pf := some pf, seen := (u.agent (tlbAgent s.cur.c 0)).view.fl }) : Act Nat) s v t)
      (hf : ReadFrame s x.2) : ReadFrame s t := by
    revert h hf
    split
    · intro h hf
      obtain ⟨_, _, h5, h6⟩ := runs_bind_iff.1 h
      cases h5
      cases h6
      exact hf
    · intro h _; cases h
    · intro h _; cases h
  intro s v t h
  obtain ⟨s', _, h1, h2⟩ := runs_bind_iff.1 h
  cases h1
  dsimp only at h2
  have hf := translate_frame s 0 (s.bank s.cur).ctx (s.bank s.cur).ptroot va.toNat kind s.cur.q.val
  split at h2
  · cases h2
  · exact tail _ _ _ _ h2 hf

/-- Finding the location of an address. -/
theorem readsOnly_locate (ea : W64) (n kind : Nat) : ReadsOnly (locate ea n kind) := by
  unfold locate
  refine ReadsOnly.bind ReadsOnly.get fun s => ?_
  split
  · exact readsOnly_throw _
  · exact (readsOnly_needAt _ _ _).bind fun _ => (readsOnly_needAt _ _ _).bind fun _ => ReadsOnly.pure _
  · exact (readsOnly_needAt _ _ _).bind fun _ => readsOnly_translate _ _

/-- A report of a consumed error. -/
theorem consumed_frame (s : State) (w : Who) (utype unit l : Nat) : ReadFrame s (s.consumed w utype unit l) :=
  ReadFrame.of s.agents s.choice s.holders (fun _ => SameDie.refl _) ⟨[_], rfl, by simp⟩

theorem notes_frame (s : State) (l : Nat) : ReadFrame s (s.notes s.cur l) := by
  unfold State.notes
  refine (consumed_frame s { s.cur with t := (s.bank s.cur).serial } 0 s.cur.c.val l).trans ?_
  unfold State.modSeq
  exact (modBank_frame _ _ ⟨true, _, _, _, _, _, _, rfl⟩).trans (modBank_frame _ _ (BankRead.update ..))

theorem readsOnly_noteUnc (l : Nat) : ReadsOnly (noteUnc l) := by
  unfold noteUnc
  refine readsOnly_get_bind fun s v t h => ?_
  dsimp only at h
  split at h
  · exact absurd h runs_throw_bind
  · cases h
    exact notes_frame s l

theorem readsOnly_raceCheck (l : Nat) (ea : W64) : ReadsOnly (raceCheck l ea) :=
  ReadsOnly.get.bind fun _ => readsOnly_needAt _ _ _

theorem readsOnly_watch (ea : W64) (n : Nat) (rd wr : Bool) : ReadsOnly (watch ea n rd wr) :=
  ReadsOnly.get.bind fun _ => readsOnly_needAt _ _ _

/-- A load that consumes nothing only reads. -/
theorem readsOnly_loadAt (l n : Nat) (ea : W64) (acq : Option Nat) : ReadsOnly (loadAt l n ea false acq) := by
  unfold loadAt
  refine (readsOnly_raceCheck _ _).bind fun _ => readsOnly_get_bind fun s v t h => ?_
  simp only [Bool.not_false, Bool.true_and, Bool.false_and, Bool.false_eq_true, if_false] at h
  obtain ⟨_, s1, h1, h2⟩ := runs_bind_iff.1 h
  have e1 : s1 = s := by
    revert h1
    unfold needAt
    split
    · intro h1; cases h1; rfl
    · intro h1; cases h1
  subst e1
  split at h2
  · exact absurd h2 runs_throw_bind
  · obtain ⟨_, s2, h3, h4⟩ := runs_bind_iff.1 h2
    cases h3
    have ht := (touch_frame s1 l).trans (refetch_frame (s1.touch s1.cur l) l)
    refine ht.trans ?_
    generalize (s1.touch s1.cur l).refetch l = u at h4
    obtain ⟨_, _, h5, h6⟩ := runs_bind_iff.1 h4
    cases h5
    obtain ⟨x, s3, h7, h8⟩ := runs_bind_iff.1 h6
    have hl : ReadFrame u s3 := by
      obtain ⟨_, _, h9, h10⟩ := runs_bind_iff.1 h7
      cases h10
      cases h9
      obtain ⟨g, c, hg⟩ := load_frame u s1.cur.agent (l / 8) (byteMask (l % 8) n) acq
      rw [hg]
      exact ReadFrame.agents _ g c
    refine hl.trans ?_
    split at h8
    · exact ((readsOnly_noteUnc _).bind fun _ => ReadsOnly.pure _) _ _ _ h8
    · exact ReadsOnly.pure _ _ _ _ h8

theorem readsOnly_loadEa (ea : W64) (n : Nat) (acq : Option Nat) : ReadsOnly (loadEa ea n false acq) :=
  (readsOnly_locate _ _ _).bind fun _ => (readsOnly_watch _ _ _ _).bind fun _ => ReadsOnly.get.bind fun _ => readsOnly_loadAt _ _ _ _

theorem modQ_frame (s : State) (n : Fin 16) (f : Queue → Queue) : ReadFrame s (s.modQ s.cur n f) :=
  modBank_frame s _ (BankRead.update ..)

theorem readsOnly_popWord (n : Fin 16) : ReadsOnly (popWord n) := by
  unfold popWord
  refine readsOnly_get_bind fun s v t h => ?_
  dsimp only at h
  split at h
  · exact absurd h runs_throw_bind
  · obtain ⟨_, _, h1, h2⟩ := runs_bind_iff.1 h
    cases h2
    cases h1
    exact modQ_frame s n _

theorem readsOnly_srcOk (f : BitVec 6) : ReadsOnly (srcOk f) := by
  unfold srcOk popOk
  split
  · exact (readsOnly_need _ _).bind fun _ => ReadsOnly.get.bind fun _ => readsOnly_need _ _
  · exact ReadsOnly.pure _

theorem readsOnly_dstOk (f : BitVec 6) : ReadsOnly (dstOk f) := by
  unfold dstOk pushOk
  split
  · exact (readsOnly_need _ _).bind fun _ => ReadsOnly.get.bind fun _ => readsOnly_need _ _
  · exact ReadsOnly.pure _

theorem readsOnly_allOk {p : BitVec 6 → Act Unit} (h : ∀ f, ReadsOnly (p f)) (fs : List (BitVec 6)) : ReadsOnly (allOk p fs) := by
  induction fs with
  | nil => exact ReadsOnly.pure _
  | cons f fs ih => exact (h f).bind fun _ => ih

theorem readsOnly_interlock (f : BitVec 6) : ReadsOnly (interlock f) := by
  unfold interlock
  refine ReadsOnly.get.bind fun s => ?_
  split
  · exact readsOnly_throw _
  · exact ReadsOnly.pure _

theorem readsOnly_windowRead (e : W32) : ReadsOnly (windowRead e) := by
  unfold windowRead
  refine ReadsOnly.get.bind fun s0 => (readsOnly_needAt _ _ _).bind fun _ => (readsOnly_needAt _ _ _).bind fun _ =>
    (readsOnly_locate _ _ _).bind fun l => readsOnly_get_bind fun s v t h => ?_
  dsimp only at h
  generalize cached _ _ _ _ _ _ = hit at h
  have hx : ReadFrame s (if hit.isSome = true then s.choose 2 else (0, s)).2 := by
    split
    · obtain ⟨c, hc⟩ := choose_frame s 2
      rw [hc]
      exact ReadFrame.agents s s.agents c
    · exact ReadFrame.refl s
  generalize (if hit.isSome = true then s.choose 2 else (0, s)) = x at h hx
  refine hx.trans ?_
  obtain ⟨_, s1, h1, h2⟩ := runs_bind_iff.1 h
  cases h1
  obtain ⟨y, s2, h3, h4⟩ := runs_bind_iff.1 h2
  cases h4
  split at h3
  · cases h3; exact ReadFrame.refl _
  · obtain ⟨z, s3, h5, h6⟩ := runs_bind_iff.1 h3
    refine (readsOnly_loadAt _ _ _ _ _ _ _ h5).trans ?_
    obtain ⟨_, s4, h7, h8⟩ := runs_bind_iff.1 h6
    cases h8
    cases h7
    exact modBank_frame s3 _ (BankRead.update ..)

theorem readsOnly_readField (win : W64) (f : BitVec 6) : ReadsOnly (readField win f) := by
  unfold readField
  exact readsOnly_ite _ (readsOnly_popWord _) (ReadsOnly.get.bind fun _ => ReadsOnly.pure _)

theorem readsOnly_readFields (win : W64) (fs : List (BitVec 6)) : ReadsOnly (readFields win fs) := by
  induction fs with
  | nil => exact ReadsOnly.pure _
  | cons f fs ih => exact (readsOnly_readField _ _).bind fun _ => ih.bind fun _ => ReadsOnly.pure _

theorem readsOnly_windowOf (e : Option W32) (srcs : List (BitVec 6)) : ReadsOnly (windowOf e srcs) := by
  unfold windowOf
  split
  · exact readsOnly_windowRead _
  · exact ReadsOnly.pure _

/-- Reading the sources of an instruction. -/
theorem readsOnly_sources (e : Option W32) (srcs dsts : List (BitVec 6)) : ReadsOnly (sources e srcs dsts) := by
  unfold sources
  exact (readsOnly_allOk readsOnly_srcOk _).bind fun _ => (readsOnly_allOk readsOnly_dstOk _).bind fun _ =>
    (readsOnly_windowOf _ _).bind fun _ => (readsOnly_allOk readsOnly_interlock _).bind fun _ => readsOnly_readFields _ _

theorem readsOnly_sourcesAB (f : RRR) : ReadsOnly (sourcesAB f) := by
  unfold sourcesAB
  split <;> exact (readsOnly_sources _ _ _).bind fun _ => ReadsOnly.pure _

theorem readsOnly_newRid : ReadsOnly newRid := by
  unfold newRid
  refine readsOnly_get_bind fun s v t h => ?_
  obtain ⟨_, _, h1, h2⟩ := runs_bind_iff.1 h
  cases h2
  cases h1
  exact modBank_frame s _ (BankRead.update ..)

theorem foldl_modQ_frame (n : Fin 16) (f : Queue → Queue) (xs : List Nat) (s : State) :
    ReadFrame s (xs.foldl (fun s _ => s.modQ s.cur n f) s) := by
  induction xs generalizing s with
  | nil => exact ReadFrame.refl s
  | cons x xs ih => exact (modQ_frame s n f).trans (ih _)

theorem readsOnly_reserve (n : Fin 16) (k : Nat) : ReadsOnly (reserve n k) := by
  unfold reserve
  refine ReadsOnly.get.bind fun s => ?_
  split
  · exact readsOnly_throw _
  · refine readsOnly_newRid.bind fun r => ?_
    intro s v t h
    obtain ⟨_, _, h1, h2⟩ := runs_bind_iff.1 h
    cases h2
    cases h1
    exact foldl_modQ_frame n _ _ s

/-- Reserving the destination of a scalar result. -/
theorem readsOnly_destOf (f : BitVec 6) : ReadsOnly (destOf f) := by
  unfold destOf
  split
  · exact ReadsOnly.pure _
  · split
    · exact (readsOnly_reserve _ _).bind fun _ => ReadsOnly.pure _
    · exact ReadsOnly.pure _

theorem readsOnly_reserveX (fs : List (BitVec 6)) : ReadsOnly (reserveX fs) := by
  have go (r : Nat) (gs : List (BitVec 6)) : ReadsOnly (reserveX.go r gs) := by
    induction gs with
    | nil => exact ReadsOnly.pure _
    | cons f gs ih =>
      unfold reserveX.go
      refine readsOnly_get_bind fun s v t h => ?_
      dsimp only at h
      split at h
      · exact absurd h runs_throw_bind
      · obtain ⟨_, _, h1, h2⟩ := runs_bind_iff.1 h
        cases h1
        exact (modQ_frame s _ _).trans (ih _ _ _ h2)
  unfold reserveX
  split
  · exact ReadsOnly.pure _
  · exact readsOnly_newRid.bind fun r => (go r _).bind fun _ => ReadsOnly.pure _

/-- The fetch checks. -/
theorem readsOnly_fetchCheck (pc : W64) : ReadsOnly (fetchCheck pc) := by
  have tail (w : Who) (line : W64) : ReadsOnly (do
      let s ← MonadState.get
      match s.lineAt w line with
      | none => throw (.fetch line)
      | some l => do
        need (lineOwn l == w.q.val) (if lineOwn l < 4 then cWrongOwner else if lineOwn l = 8 then cPoolExec else cCodeLine)
        need (lineCnt l != 0) cCodeLine
        need (1 ≤ pcWord pc && pcWord pc ≤ lineCnt l) cCodeLine
        need (!wLong (lineWord l (pcWord pc)) || pcWord pc + 1 ≤ lineCnt l) cIllegal
        Pure.pure l : Act (BitVec 512)) := by
    refine ReadsOnly.get.bind fun s => ?_
    split
    · exact readsOnly_throw _
    · exact (readsOnly_need _ _).bind fun _ => (readsOnly_need _ _).bind fun _ => (readsOnly_need _ _).bind fun _ =>
        (readsOnly_need _ _).bind fun _ => ReadsOnly.pure _
  unfold fetchCheck
  refine ReadsOnly.get.bind fun s => ?_
  exact readsOnly_ite _ (readsOnly_ite _ ((readsOnly_throw _).bind fun _ => tail _ _) (tail _ _))
    ((readsOnly_needAt _ _ _).bind fun _ => (readsOnly_translate _ _).bind fun _ => tail _ _)

theorem readsOnly_nextInChain (n : Nat) : ReadsOnly (nextInChain n) := by
  unfold nextInChain curLine
  refine ReadsOnly.bind (ReadsOnly.get.bind fun s => ?_) fun l => ReadsOnly.get.bind fun s => ?_
  · split
    · exact ReadsOnly.pure _
    · exact readsOnly_throw _
  · split
    · exact ReadsOnly.pure _
    · exact readsOnly_throw _

/-! ## What the relation keeps -/

theorem ReadFrame.bank {s t : State} (h : ReadFrame s t) : BankRead s.cur.q (s.bank s.cur) (t.bank s.cur) := by
  obtain ⟨a, c, hs, ds, es, k, hd, he, ⟨x, t0, t1, t2, o, hx, rfl⟩, rfl⟩ := h
  simpa [State.bank, State.core] using hx

theorem ReadFrame.sq {s t : State} (h : ReadFrame s t) : ∃ u, t.sq s.cur = { s.sq s.cur with unc := u } := by
  obtain ⟨u, _, _, _, _, _, _, hk⟩ := h.bank
  exact ⟨u, by unfold State.sq; rw [hk]; simp⟩

/-- Reading operands keeps everything outside the bank. -/
theorem ReadFrame.keepsOutside {s t : State} (h : ReadFrame s t) : KeepsOutside s t := by
  obtain ⟨u, _, _, _, _, _, _, hk⟩ := h.bank
  obtain ⟨a, c, hs, ds, es, k, hd, he, ⟨x, t0, t1, t2, o, hx, rfl⟩, rfl⟩ := h
  refine ⟨rfl, rfl, rfl, rfl, rfl, rfl, hd, rfl, he, rfl, rfl, rfl, rfl, rfl, rfl, rfl, rfl, ?_, ?_, ?_⟩
  · intro d hd
    simp [State.core, vset_get, Ne.symm hd]
  · intro b hb
    simp [State.core, vset_get, Ne.symm hb]
  · intro q hq
    rw [hk]
    simp [vset_get, Ne.symm hq]

theorem ReadFrame.keepsSystem {s t : State} (h : ReadFrame s t) : KeepsSystem (s.bank s.cur) (t.bank s.cur) := by
  obtain ⟨u, _, _, _, _, _, _, hk⟩ := h.bank
  rw [hk]
  simp [KeepsSystem]

theorem ReadFrame.keepsVector {s t : State} (h : ReadFrame s t) : KeepsVector (s.bank s.cur) (t.bank s.cur) := by
  obtain ⟨u, _, _, _, _, _, _, hk⟩ := h.bank
  rw [hk]
  simp [KeepsVector]

end Sys2Proof.Machine
end

