-- ==== Sys2Proof/Laws/Limits.lean ====
section
/-! SUPPORT. Limits on run-time operands see the values that the instruction then reads (R117): one lemma for each way in which an
entry states its limits. -/
namespace Sys2Proof.Machine

/-- What a pop of a queue's head does when it does anything. -/
theorem runs_popWord {n : Fin 16} {s t : State} {v : W64} (h : Runs (popWord n) s v t) :
    0 < (s.queue s.cur n).ready s.now ∧ v = headWord (s.queue s.cur n).ents ∧ t = s.modQ s.cur n (·.drop 1) := by
  unfold popWord at h
  obtain ⟨_, _, h1, h2⟩ := runs_bind_iff.1 h
  cases h1
  dsimp only at h2
  split at h2
  · exact absurd h2 runs_throw_bind
  · rename_i hr
    obtain ⟨_, _, h3, h4⟩ := runs_bind_iff.1 h2
    cases h3
    cases h4
    exact ⟨Nat.pos_of_ne_zero hr, rfl, rfl⟩

theorem need_state {b : Bool} {c : Byte} {s t : State} {v : Unit} (h : Runs (need b c) s v t) : t = s := by
  unfold need at h
  split at h <;> cases h
  rfl

theorem allOk_state {p : BitVec 6 → Act Unit} (hp : ∀ f s v t, Runs (p f) s v t → t = s) (fs : List (BitVec 6)) :
    ∀ s v t, Runs (allOk p fs) s v t → t = s := by
  induction fs with
  | nil => intro s v t h; cases h; rfl
  | cons f fs ih =>
    intro s v t h
    obtain ⟨_, _, h1, h2⟩ := runs_bind_iff.1 h
    rw [ih _ _ _ h2, hp _ _ _ _ h1]

theorem srcOk_state (f : BitVec 6) (s : State) (v : Unit) (t : State) (h : Runs (srcOk f) s v t) : t = s := by
  unfold srcOk at h
  split at h
  · obtain ⟨_, _, h1, h2⟩ := runs_bind_iff.1 h
    have := need_state h1
    subst this
    unfold popOk at h2
    obtain ⟨_, _, h3, h4⟩ := runs_bind_iff.1 h2
    cases h3
    exact need_state h4
  · cases h; rfl

theorem dstOk_state (f : BitVec 6) (s : State) (v : Unit) (t : State) (h : Runs (dstOk f) s v t) : t = s := by
  unfold dstOk at h
  split at h
  · obtain ⟨_, _, h1, h2⟩ := runs_bind_iff.1 h
    have := need_state h1
    subst this
    unfold pushOk at h2
    obtain ⟨_, _, h3, h4⟩ := runs_bind_iff.1 h2
    cases h3
    exact need_state h4
  · cases h; rfl

theorem interlock_state (f : BitVec 6) (s : State) (v : Unit) (t : State) (h : Runs (interlock f) s v t) : t = s := by
  unfold interlock at h
  obtain ⟨_, _, h1, h2⟩ := runs_bind_iff.1 h
  cases h1
  split at h2
  · cases h2
  · cases h2; rfl

/-! ## Peeking -/

/-- The entries that a queue has ready once `k` of them are popped. -/
theorem takeWhile_drop {α : Type} (p : α → Bool) (l : List α) (k : Nat) (h : k ≤ (l.takeWhile p).length) :
    (l.drop k).takeWhile p = (l.takeWhile p).drop k := by
  induction l generalizing k with
  | nil => simp at h; subst h; rfl
  | cons x l ih =>
    cases k with
    | zero => rfl
    | succ k =>
      by_cases hx : p x
      · simp only [List.takeWhile_cons, hx, if_true, List.length_cons] at h ⊢
        exact ih k (by omega)
      · simp [hx] at h

/-- `t` is `s` once the queue fields of `seen` have been popped. -/
structure Popped (win : W64) (seen : List (BitVec 6)) (s t : State) : Prop where
  now : t.now = s.now
  cur : t.cur = s.cur
  value : ∀ f, fQueue f = false → t.fieldValue win f = s.fieldValue win f
  ents : ∀ f, fQueue f = true → (t.queue s.cur (fQ f)).ents = (s.queue s.cur (fQ f)).ents.drop (seen.countP (· == f))
  ready : ∀ f, fQueue f = true → seen.countP (· == f) ≤ (s.queue s.cur (fQ f)).ready s.now

theorem fQ_inj {f g : BitVec 6} (hf : fQueue f = true) (hg : fQueue g = true) (h : fQ f = fQ g) : f = g := by
  simp only [fQueue, Bool.and_eq_true, decide_eq_true_eq] at hf hg
  simp only [fQ, Fin.mk.injEq] at h
  apply BitVec.eq_of_toNat_eq
  omega

theorem fieldValue_modQ (s : State) (win : W64) (n : Fin 16) (g : Queue → Queue) (f : BitVec 6) :
    (s.modQ s.cur n g).fieldValue win f = s.fieldValue win f := by
  have hb : ((s.modQ s.cur n g).bank s.cur) = (s.bank s.cur).modQ n g := by
    unfold State.modQ
    simp
  unfold State.fieldValue State.sq State.cycles Bank.recid
  simp only [State.modQ_cur, State.modQ_now, hb]
  unfold Bank.modQ
  simp only [State.modQ, State.modBank, State.modCore, State.core, Core.modBank, vset_get_self]

theorem peek_of_read (win : W64) (fs : List (BitVec 6)) :
    ∀ seen s t vs u, Popped win seen s t → Runs (readFields win fs) t vs u → Runs (peekFields win seen fs) s vs s := by
  induction fs with
  | nil => intro seen s t vs u _ h; cases h; rfl
  | cons f fs ih =>
    intro seen s t vs u hp h
    obtain ⟨v, t1, h1, h2⟩ := runs_bind_iff.1 h
    obtain ⟨ws, t2, h3, h4⟩ := runs_bind_iff.1 h2
    cases h4
    unfold readField at h1
    have key : (fQueue f && decide ((s.queue s.cur (fQ f)).ready s.now ≤ seen.countP (· == f))) = false ∧
        (if fQueue f = true then headWord ((s.queue s.cur (fQ f)).ents.drop (seen.countP (· == f))) else s.fieldValue win f) = v ∧
        Popped win (f :: seen) s t1 := by
      by_cases hf : fQueue f = true
      · rw [if_pos hf] at h1
        obtain ⟨hr, hv, ht⟩ := runs_popWord h1
        have hd : (t.queue t.cur (fQ f)).ready t.now = (s.queue s.cur (fQ f)).ready s.now - seen.countP (· == f) := by
          unfold Queue.ready
          rw [hp.cur, hp.ents f hf, hp.now, takeWhile_drop _ _ _ (hp.ready f hf), List.length_drop]
        rw [hd] at hr
        refine ⟨by simp [hf]; omega, ?_, ?_⟩
        · rw [if_pos hf, hv, hp.cur, hp.ents f hf]
        · have hq (g : BitVec 6) : t1.queue s.cur (fQ g) = if fQ f = fQ g then (t.queue s.cur (fQ g)).drop 1 else t.queue s.cur (fQ g) := by
            rw [ht, hp.cur]
            unfold State.queue State.modQ
            simp only [State.modBank_bank, Bank.modQ]
            simp only [and_self, if_true, vset_get]
            split
            · rename_i e; rw [e]
            · rfl
          refine ⟨by rw [ht]; exact hp.now, by rw [ht]; exact hp.cur, ?_, ?_, ?_⟩
          · intro g hg
            rw [ht, fieldValue_modQ]
            exact hp.value g hg
          · intro g hg
            rw [hq g, List.countP_cons]
            split
            · rename_i e
              have := fQ_inj hf hg e
              subst this
              simp only [Queue.drop, hp.ents f hf, List.drop_drop, beq_self_eq_true, if_true]
            · rename_i e
              have : (f == g) = false := by
                simp only [beq_eq_false_iff_ne]
                rintro rfl
                exact e rfl
              rw [this]
              exact hp.ents g hg
          · intro g hg
            rw [List.countP_cons]
            by_cases e : f = g
            · subst e
              simp
              omega
            · have : (f == g) = false := by simp [e]
              rw [this]
              exact hp.ready g hg
      · rw [if_neg hf] at h1
        obtain ⟨_, _, h5, h6⟩ := runs_bind_iff.1 h1
        cases h5
        cases h6
        have hf' : fQueue f = false := by simpa using hf
        refine ⟨by simp [hf'], by rw [if_neg hf]; exact (hp.value f hf').symm, ⟨hp.now, hp.cur, hp.value, ?_, ?_⟩⟩
        · intro g hg
          have : (f == g) = false := by
            simp only [beq_eq_false_iff_ne]
            rintro rfl
            exact hf hg
          rw [List.countP_cons, this]
          exact hp.ents g hg
        · intro g hg
          have : (f == g) = false := by
            simp only [beq_eq_false_iff_ne]
            rintro rfl
            exact hf hg
          rw [List.countP_cons, this]
          exact hp.ready g hg
    obtain ⟨k1, k2, k3⟩ := key
    unfold peekFields
    refine runs_bind (runs_get s) ?_
    simp only [k1, k2, Bool.false_eq_true, if_false]
    exact runs_bind (ih (f :: seen) s t1 ws _ k3 h3) (runs_pure _ _)

/-- The values that an instruction reads are those that its limits peek at. -/
theorem runs_peekSources {e : Option W32} {fs ds : List (BitVec 6)} {s s1 : State} {vs : List W64}
    (h : Runs (sources e fs ds) s vs s1) : ∃ t, Runs (peekSources e fs) s vs t := by
  unfold sources at h
  obtain ⟨_, t1, h1, h⟩ := runs_bind_iff.1 h
  obtain ⟨_, t2, h2, h⟩ := runs_bind_iff.1 h
  obtain ⟨win, t3, h3, h⟩ := runs_bind_iff.1 h
  obtain ⟨_, t4, h4, h5⟩ := runs_bind_iff.1 h
  have e1 := allOk_state srcOk_state fs _ _ _ h1
  have e2 := allOk_state dstOk_state ds _ _ _ h2
  have e4 := allOk_state interlock_state fs _ _ _ h4
  subst e1 e2 e4
  refine ⟨t4, runs_bind h1 (runs_bind h3 (runs_bind h4 (peek_of_read win fs [] t4 t4 vs s1 ⟨rfl, rfl, fun _ _ => rfl, ?_, ?_⟩ h5)))⟩
  · intro f _; rfl
  · intro f _; exact Nat.zero_le _

theorem runs_illegalFirst {x : Act Unit} {s t : State} (h : Runs x s () t) : Runs (illegalFirst x) s () s := by
  unfold illegalFirst Runs StateT.run
  unfold Runs StateT.run at h
  simp only [h]

/-- An instruction whose operands keep their limits passes them. -/
theorem runs_limits {e : Option W32} {fs ds : List (BitVec 6)} {ok : List W64 → Bool} {s s1 : State} {vs : List W64}
    (h : Runs (sources e fs ds) s vs s1) (hk : ok vs = true) : Runs (limits e fs ok) s () s := by
  obtain ⟨t, ht⟩ := runs_peekSources h
  exact runs_illegalFirst (runs_bind ht (runs_need hk))

/-- The same for an instruction of two sources, or one and the wide immediate. -/
theorem runs_limitAB {f : RRR} {ok : W64 → W64 → Bool} {s s1 : State} {x y : W64}
    (h : Runs (sourcesAB f) s (x, y) s1) (hk : ok x y = true) : Runs (limitAB f ok) s () s := by
  unfold sourcesAB at h
  unfold limitAB
  split at h
  · rename_i y' e
    obtain ⟨vs, t, h1, h2⟩ := runs_bind_iff.1 h
    cases h2
    exact runs_limits h1 hk
  · rename_i e
    obtain ⟨vs, t, h1, h2⟩ := runs_bind_iff.1 h
    cases h2
    exact runs_limits h1 hk

end Sys2Proof.Machine
end

