-- ==== Sys2Proof/Laws/Memory.lean ====
section
/-! SUPPORT. Words over memory: what a write changes (R263, R268), and the canonical form of memory across the operations that
write it. -/
namespace Sys2Proof.Machine

/-! ## Bytes of words -/

/-- Byte `j` of a word. -/
theorem byte_getLsbD (v : W64) (j i : Nat) (hi : i < 8) : (v.extractLsb' (8 * j) 8).getLsbD i = v.getLsbD (8 * j + i) := by
  simp [hi]

theorem byte_ofNat (v : W64) (j : Nat) : v.extractLsb' (8 * j) 8 = BitVec.ofNat 8 (v.toNat / 256 ^ j) := by
  apply BitVec.eq_of_toNat_eq
  rw [BitVec.extractLsb'_toNat, BitVec.toNat_ofNat, Nat.shiftRight_eq_div_pow, pow_mul]
  norm_num

/-- The bits that a byte mask stands for: bit `n` belongs to byte `n / 8`. -/
theorem maskBits_getLsbD (m : Byte) (n : Nat) (h : n < 64) : (maskBits m).getLsbD n = m.getLsbD (n / 8) := by
  revert m n
  decide +kernel

/-- A masked byte of an overlay is the data's, any other the old word's. -/
theorem overlay_byte (v d : W64) (m : Byte) (j : Nat) (h : j < 8) :
    (overlay v m d).extractLsb' (8 * j) 8 = if m.getLsbD j then d.extractLsb' (8 * j) 8 else v.extractLsb' (8 * j) 8 := by
  apply BitVec.eq_of_getLsbD_eq
  intro i hi
  have hm := maskBits_getLsbD m (8 * j + i) (by omega)
  rw [show (8 * j + i) / 8 = j by omega] at hm
  have hlt : 8 * j + i < 64 := by omega
  by_cases hj : m.getLsbD j
  · rw [if_pos hj, byte_getLsbD _ _ _ hi, byte_getLsbD _ _ _ hi]
    simp only [overlay, BitVec.getLsbD_or, BitVec.getLsbD_and, BitVec.getLsbD_not, hm, hj]
    simp
  · rw [if_neg hj, byte_getLsbD _ _ _ hi, byte_getLsbD _ _ _ hi]
    simp only [overlay, BitVec.getLsbD_or, BitVec.getLsbD_and, BitVec.getLsbD_not, hm, hj, hlt]
    simp

theorem leNat_getD (bs : List Byte) (j : Nat) : BitVec.ofNat 8 (leNat bs / 256 ^ j) = bs.getD j 0 := by
  induction bs generalizing j with
  | nil => simp [leNat]
  | cons b bs ih =>
    cases j with
    | zero =>
      apply BitVec.eq_of_toNat_eq
      have := b.isLt
      simp only [leNat, BitVec.toNat_ofNat, pow_zero, Nat.div_one, List.getD_cons_zero]
      omega
    | succ j =>
      rw [List.getD_cons_succ, ← ih j, pow_succ', ← Nat.div_div_eq_div_mul, leNat]
      congr 2
      have := b.isLt
      omega

theorem leNat_lt (bs : List Byte) : leNat bs < 256 ^ bs.length := by
  induction bs with
  | nil => simp [leNat]
  | cons b bs ih =>
    have := b.isLt
    rw [leNat, List.length_cons, pow_succ']
    omega

/-- Byte `j` of the word that memory holds. -/
theorem word_byte (s : State) (w j : Nat) (h : j < 8) : (s.word w).extractLsb' (8 * j) 8 = s.mem.read (8 * w + j) := by
  rw [byte_ofNat]
  unfold State.word Memory.readLe
  have hl := leNat_lt (s.mem.readN (8 * w) 8)
  rw [Memory.readN_length] at hl
  rw [BitVec.toNat_ofNat, Nat.mod_eq_of_lt (by norm_num at hl ⊢; exact hl), leNat_getD, Memory.readN_getD _ _ _ _ h]

/-! ## A write to a word -/

@[simp] theorem own_mem (s : State) (a w : Nat) : (s.own a w).mem = s.mem := rfl
@[simp] theorem own_hist (s : State) (a w : Nat) : (s.own a w).hist = s.hist := rfl
@[simp] theorem own_flight (s : State) (a w : Nat) : (s.own a w).flight = s.flight := rfl

/-- A write changes the masked bytes of its word and no other byte. -/
theorem append_read (s : State) (a : Nat) (ps : List Part) (p : WPart) (g : Nat × W32) (x : Nat) (h : s.mem.wf = true) :
    (s.append a ps p g).mem.read x =
      if x / 8 = p.word ∧ p.mask.getLsbD (x % 8) = true then p.data.extractLsb' (8 * (x % 8)) 8 else s.mem.read x := by
  unfold State.append
  simp only
  rw [Memory.read_writeN _ _ _ h, leBytes_length]
  by_cases hx : x / 8 = p.word
  · have hlt : x - 8 * p.word < 8 := by omega
    have hmod : x - 8 * p.word = x % 8 := by omega
    rw [if_pos ⟨by omega, by omega⟩, leBytes_getD _ _ _ hlt, ← byte_ofNat, hmod, overlay_byte _ _ _ _ (by omega)]
    by_cases hm : p.mask.getLsbD (x % 8) = true
    · rw [if_pos hm, if_pos ⟨hx, hm⟩]
    · rw [if_neg hm, if_neg (fun h => hm h.2), word_byte _ _ _ (by omega)]
      congr 1
      omega
  · rw [if_neg (by omega), if_neg (fun h => hx h.1)]

theorem append_wf (s : State) (a : Nat) (ps : List Part) (p : WPart) (g : Nat × W32) (h : s.mem.wf = true) :
    (s.append a ps p g).mem.wf = true := Memory.wf_writeN _ _ h

/-! ## The canonical form -/

/-- A state with the memory and the images of another has its form. -/
theorem memInv_of_eq {s t : State} (hm : t.mem = s.mem) (hi : t.image = s.image) (hd : t.draft = s.draft) (h : s.memInv) :
    t.memInv := by
  unfold State.memInv
  rw [hm, hi, hd]
  exact h

theorem ReadFrame.memInv {s t : State} (h : ReadFrame s t) (hs : s.memInv) : t.memInv := by
  obtain ⟨_, _, _, _, _, _, -, -, -, rfl⟩ := h
  exact hs

theorem append_memInv (s : State) (a : Nat) (ps : List Part) (p : WPart) (g : Nat × W32) (h : s.memInv) :
    (s.append a ps p g).memInv :=
  ⟨append_wf s a ps p g h.1, h.2⟩

theorem stepped_memInv (s : State) (h : s.memInv) : s.stepped.memInv := h
theorem own_memInv (s : State) (a w : Nat) (h : s.memInv) : (s.own a w).memInv := h

theorem modCore_memInv (s : State) (c : CoreId) (f : Core → Core) (h : s.memInv) : (s.modCore c f).memInv := h
theorem modBank_memInv (s : State) (w : Who) (f : Bank → Bank) (h : s.memInv) : (s.modBank w f).memInv := h
theorem modSeq_memInv (s : State) (w : Who) (f : Seq → Seq) (h : s.memInv) : (s.modSeq w f).memInv := h
theorem modClu_memInv (s : State) (u : CluId) (f : Cluster → Cluster) (h : s.memInv) : (s.modClu u f).memInv := h
theorem modDie_memInv (s : State) (d : DieId) (f : Die → Die) (h : s.memInv) : (s.modDie d f).memInv := h
theorem modAgent_memInv (s : State) (a : Nat) (f : Agent → Agent) (h : s.memInv) : (s.modAgent a f).memInv := h
theorem event_memInv (s : State) (c : Nat) (xs : List W64) (st : Nat) (h : s.memInv) : (s.event c xs st).memInv := h

/-- A fold keeps what each of its steps keeps. -/
theorem foldl_memInv {α : Type} (f : State → α → State) (xs : List α) (s : State) (hf : ∀ s x, s.memInv → (f s x).memInv)
    (h : s.memInv) : (xs.foldl f s).memInv := by
  induction xs generalizing s with
  | nil => exact h
  | cons x xs ih => exact ih _ (hf s x h)

theorem put_memInv (s : State) (a : Nat) (ps : List WPart) (h : s.memInv) : (s.put a ps).memInv :=
  foldl_memInv _ _ _ (fun s p hs => append_memInv s a [] p (0x30, 0) hs) h

theorem unpoison_memInv (s : State) (l n : Nat) (h : s.memInv) : (s.unpoison l n).memInv := by
  unfold State.unpoison
  split <;> exact h

theorem putBytes_memInv (s : State) (a l : Nat) (bs : List Byte) (h : s.memInv) : (s.putBytes a l bs).memInv :=
  unpoison_memInv _ _ _ (put_memInv _ a _ h)

theorem putCarried_memInv (s : State) (a l : Nat) (ps : List Part) (bs : List Byte) (h : s.memInv) :
    (s.putCarried a ps l bs).memInv :=
  unpoison_memInv _ _ _ (foldl_memInv _ _ _ (fun s p hs => append_memInv s a ps p (0x30, 0) hs) h)

theorem count_memInv (s : State) (w : Who) (ev n : Nat) (h : s.memInv) : (s.count w ev n).memInv := by
  unfold State.count
  split <;> exact h

theorem choose_memInv (s : State) (n : Nat) (h : s.memInv) : (s.choose n).2.memInv := by
  obtain ⟨c, hc⟩ := choose_frame s n
  rw [hc]
  exact h

theorem load_memInv (s : State) (a w : Nat) (m : Byte) (acq : Option Nat) (h : s.memInv) : (s.load a w m acq).2.memInv := by
  obtain ⟨g, c, hc⟩ := load_frame s a w m acq
  rw [hc]
  exact h

theorem uncount_memInv (s : State) (l : Nat) (h : s.memInv) : (s.uncount l).memInv := by
  unfold State.uncount
  split <;> exact h

theorem writtenBack_memInv (s : State) (l : Nat) (h : s.memInv) : (s.writtenBack l).2.memInv := by
  unfold State.writtenBack
  have hk (xs : List Nat) (acc : Payload × State) (ha : acc.2.memInv) :
      (xs.foldl (fun (acc : Payload × State) i =>
        let w := l / 256 * 32 + i
        let (k, s') := acc.2.choose (acc.2.lastIdx w + 1)
        let v := (acc.2.nth w (acc.2.lastIdx w - k)).1
        (acc.1 ||| (v.setWidth 2048 <<< (64 * i)), s')) acc).2.memInv := by
    induction xs generalizing acc with
    | nil => exact ha
    | cons x xs ih => exact ih _ (choose_memInv _ _ ha)
  exact hk (List.range 32) (0, s) h

theorem fillRow_memInv (s : State) (l n o : Nat) (h : s.memInv) : (s.fillRow l n o).memInv := by
  unfold State.fillRow
  split
  · exact h
  · simp only
    split
    · split
      · exact modDie_memInv _ _ _ h
      · exact modDie_memInv _ _ _ h
    · exact modDie_memInv _ _ _ (writtenBack_memInv s l h)

theorem hist_memInv (s : State) (x : NMap Hist) (h : s.memInv) : ({ s with hist := x } : State).memInv := h

theorem resetRow_memInv (s : State) (l : Nat) (p : Payload) (h : s.memInv) : (s.resetRow l p).memInv := by
  unfold State.resetRow
  refine hist_memInv _ _ ?_
  split
  · exact h
  · exact put_memInv _ _ _ h

theorem dropLine_memInv (s : State) (l : Nat) (e : DirE) (h : s.memInv) : (s.dropLine l e).memInv := resetRow_memInv _ _ _ h

theorem release_memInv (s : State) (l : Nat) (h : s.memInv) : (s.release l).memInv := by
  unfold State.release
  split
  · exact uncount_memInv _ _ h
  · split
    · exact h
    · refine uncount_memInv _ _ ?_
      split
      · exact h
      · exact dropLine_memInv _ _ _ h

theorem zeroRow_memInv (s : State) (l : Nat) (h : s.memInv) : (s.zeroRow l).memInv :=
  unpoison_memInv _ _ _ (resetRow_memInv _ _ _ h)

theorem refetch_memInv (s : State) (l : Nat) (h : s.memInv) : (s.refetch l).memInv := (refetch_frame s l).memInv h

theorem consume_memInv (s : State) (l : Nat) (h : s.memInv) : (s.consume l).memInv := by
  unfold State.consume
  split
  · simp only
    split
    · exact h
    · split
      · exact h
      · split
        · exact zeroRow_memInv _ _ h
        · exact h
  · split
    · exact h
    · split
      · exact h
      · split
        · exact dropLine_memInv _ _ _ h
        · exact h

theorem eat_memInv (s : State) (a l : Nat) (h : s.memInv) : (s.eat a l).memInv := consume_memInv s l h

theorem writeRows_memInv (s : State) (e : WEnt) (h : s.memInv) : (s.writeRows e).memInv := by
  unfold State.writeRows
  split
  · exact h
  · split
    · exact fillRow_memInv _ _ _ _ h
    · refine foldl_memInv _ _ _ (fun s p hs => ?_) h
      split
      · exact uncount_memInv _ _ hs
      · exact refetch_memInv _ _ hs

theorem tagCells_memInv (s : State) (e : WEnt) (h : s.memInv) : (s.tagCells e).memInv := by
  unfold State.tagCells
  refine foldl_memInv _ _ _ (fun s p hs => ?_) h
  simp only
  split <;> exact hs

/-- Applying a write keeps the canonical form. -/
theorem applyEnt_memInv (s : State) (e : WEnt) (h : s.memInv) : (s.applyEnt e).memInv := by
  unfold State.applyEnt
  simp only
  have := tagCells_memInv _ e (stepped_memInv _ <| foldl_memInv (fun s p => (s.append e.agent e.carried p (e.tagX, e.tagK)).own e.agent p.word) e.parts _
    (fun s p hs => append_memInv s e.agent e.carried p (e.tagX, e.tagK) hs) (writeRows_memInv s e h))
  split <;> exact this

theorem applyAt_memInv (s : State) (k : Nat) (h : s.memInv) : (s.applyAt k).memInv := by
  unfold State.applyAt
  split
  · exact h
  · exact applyEnt_memInv _ _ h

/-- A trace record keeps the canonical form. -/
theorem trace_memInv (s : State) (w : Who) (k : Nat) (w2 w3 : W64) (h : s.memInv) : (s.trace w k w2 w3).memInv := by
  unfold State.trace
  simp only
  split
  · exact h
  · split
    · exact h
    · refine ⟨Memory.wf_writeN _ _ ?_, ?_⟩
      · exact (choose_memInv s 3 h).1
      · exact (choose_memInv s 3 h).2

end Sys2Proof.Machine
end

