-- ==== Sys2Proof/Laws/PerInstr.lean ====
section
/-! SUPPORT. Encoding, instruction by instruction: the word of a well-formed instruction carries its length and decodes to it
(R84, R91). -/
namespace Sys2Proof.Laws

/-- The word of an instruction says how long it is, and decodes to it with its extension word. -/
def Encoding.Statement (i : Instr) : Prop :=
  i.wf = true → ∀ w, encodeWord i = some w → wLong w = i.ext.isSome ∧ decodeRaw w i.ext = .ok i

/-! ## The majors -/

theorem decodeRaw_01 (w : W32) (e : Option W32) (i : Instr) (h : wMaj w = 0x01) (hi : dec01 w e = some i) :
    decodeRaw w e = .ok i := by
  unfold decodeRaw
  rw [h, hi]
  rfl

theorem decodeRaw_02 (w : W32) (e : Option W32) (i : Instr) (h : wMaj w = 0x02) (hi : dec02 w e = some i) :
    decodeRaw w e = .ok i := by
  unfold decodeRaw
  rw [h, hi]
  rfl

theorem decodeRaw_03 (w : W32) (e : Option W32) (i : Instr) (h : wMaj w = 0x03) (hi : dec03 w e = some i) :
    decodeRaw w e = .ok i := by
  unfold decodeRaw
  rw [h, hi]
  rfl

theorem decodeRaw_04 (w : W32) (e : Option W32) (i : Instr) (h : wMaj w = 0x04) (hi : dec04 w e = some i) :
    decodeRaw w e = .ok i := by
  unfold decodeRaw
  rw [h, hi]
  rfl

theorem decodeRaw_05 (w : W32) (e : Option W32) (i : Instr) (h : wMaj w = 0x05) (hi : dec05 w e = some i) :
    decodeRaw w e = .ok i := by
  unfold decodeRaw
  rw [h, hi]
  rfl

theorem decodeRaw_06 (w : W32) (e : Option W32) (i : Instr) (h : wMaj w = 0x06) (hi : dec06 w e = some i) :
    decodeRaw w e = .ok i := by
  unfold decodeRaw
  rw [h, hi]
  rfl

theorem decodeRaw_08 (w : W32) (e : Option W32) (i : Instr) (h : wMaj w = 0x08) (hi : dec08 w e = some i) :
    decodeRaw w e = .ok i := by
  unfold decodeRaw
  rw [h, hi]
  rfl

theorem decodeRaw_09 (w : W32) (e : Option W32) (i : Instr) (h : wMaj w = 0x09) (hi : dec09 w e = some i) :
    decodeRaw w e = .ok i := by
  unfold decodeRaw
  rw [h, hi]
  rfl

theorem decodeRaw_0A (w : W32) (e : Option W32) (i : Instr) (h : wMaj w = 0x0A) (hi : dec0A w e = some i) :
    decodeRaw w e = .ok i := by
  unfold decodeRaw
  rw [h, hi]
  rfl

theorem decodeRaw_0B (w : W32) (e : Option W32) (i : Instr) (h : wMaj w = 0x0B) (hi : dec0B w e = some i) :
    decodeRaw w e = .ok i := by
  unfold decodeRaw
  rw [h, hi]
  rfl

theorem decodeRaw_0C (w : W32) (e : Option W32) (i : Instr) (h : wMaj w = 0x0C) (hi : dec0C w e = some i) :
    decodeRaw w e = .ok i := by
  unfold decodeRaw
  rw [h, hi]
  rfl

theorem decodeRaw_10 (w : W32) (e : Option W32) (i : Instr) (h : wMaj w = 0x10) (hi : dec10 w e = some i) :
    decodeRaw w e = .ok i := by
  unfold decodeRaw
  rw [h, hi]
  rfl

theorem decodeRaw_11 (w : W32) (e : Option W32) (i : Instr) (h : wMaj w = 0x11) (hi : dec11 w e = some i) :
    decodeRaw w e = .ok i := by
  unfold decodeRaw
  rw [h, hi]
  rfl

theorem decodeRaw_12 (w : W32) (e : Option W32) (i : Instr) (h : wMaj w = 0x12) (hi : dec12 w e = some i) :
    decodeRaw w e = .ok i := by
  unfold decodeRaw
  rw [h, hi]
  rfl

theorem decodeRaw_13 (w : W32) (e : Option W32) (i : Instr) (h : wMaj w = 0x13) (hi : dec13 w e = some i) :
    decodeRaw w e = .ok i := by
  unfold decodeRaw
  rw [h, hi]
  rfl

theorem decodeRaw_14 (w : W32) (e : Option W32) (i : Instr) (h : wMaj w = 0x14) (hi : dec14 w e = some i) :
    decodeRaw w e = .ok i := by
  unfold decodeRaw
  rw [h, hi]
  rfl

theorem decodeRaw_15 (w : W32) (e : Option W32) (i : Instr) (h : wMaj w = 0x15) (hi : dec15 w e = some i) :
    decodeRaw w e = .ok i := by
  unfold decodeRaw
  rw [h, hi]
  rfl

theorem decodeRaw_16 (w : W32) (e : Option W32) (i : Instr) (h : wMaj w = 0x16) (hi : dec16 w e = some i) :
    decodeRaw w e = .ok i := by
  unfold decodeRaw
  rw [h, hi]
  rfl

theorem decodeRaw_17 (w : W32) (e : Option W32) (i : Instr) (h : wMaj w = 0x17) (hi : dec17 w e = some i) :
    decodeRaw w e = .ok i := by
  unfold decodeRaw
  rw [h, hi]
  rfl

theorem decodeRaw_20 (w : W32) (e : Option W32) (i : Instr) (h : wMaj w = 0x20) (hi : dec20 w e = some i) :
    decodeRaw w e = .ok i := by
  unfold decodeRaw
  rw [h, hi]
  rfl

theorem decodeRaw_21 (w : W32) (e : Option W32) (i : Instr) (h : wMaj w = 0x21) (hi : dec21 w e = some i) :
    decodeRaw w e = .ok i := by
  unfold decodeRaw
  rw [h, hi]
  rfl

theorem decodeRaw_22 (w : W32) (e : Option W32) (i : Instr) (h : wMaj w = 0x22) (hi : dec22 w e = some i) :
    decodeRaw w e = .ok i := by
  unfold decodeRaw
  rw [h, hi]
  rfl

theorem decodeRaw_23 (w : W32) (e : Option W32) (i : Instr) (h : wMaj w = 0x23) (hi : dec23 w e = some i) :
    decodeRaw w e = .ok i := by
  unfold decodeRaw
  rw [h, hi]
  rfl

theorem decodeRaw_24 (w : W32) (e : Option W32) (i : Instr) (h : wMaj w = 0x24) (hi : dec24 w e = some i) :
    decodeRaw w e = .ok i := by
  unfold decodeRaw
  rw [h, hi]
  rfl

theorem decodeRaw_25 (w : W32) (e : Option W32) (i : Instr) (h : wMaj w = 0x25) (hi : dec25 w e = some i) :
    decodeRaw w e = .ok i := by
  unfold decodeRaw
  rw [h, hi]
  rfl

theorem decodeRaw_26 (w : W32) (e : Option W32) (i : Instr) (h : wMaj w = 0x26) (hi : dec26 w e = some i) :
    decodeRaw w e = .ok i := by
  unfold decodeRaw
  rw [h, hi]
  rfl

theorem decodeRaw_27 (w : W32) (e : Option W32) (i : Instr) (h : wMaj w = 0x27) (hi : dec27 w e = some i) :
    decodeRaw w e = .ok i := by
  unfold decodeRaw
  rw [h, hi]
  rfl

theorem decodeRaw_28 (w : W32) (e : Option W32) (i : Instr) (h : wMaj w = 0x28) (hi : dec28 w e = some i) :
    decodeRaw w e = .ok i := by
  unfold decodeRaw
  rw [h, hi]
  rfl

theorem decodeRaw_29 (w : W32) (e : Option W32) (i : Instr) (h : wMaj w = 0x29) (hi : dec29 w e = some i) :
    decodeRaw w e = .ok i := by
  unfold decodeRaw
  rw [h, hi]
  rfl

theorem decodeRaw_30 (w : W32) (e : Option W32) (i : Instr) (h : wMaj w = 0x30) (hi : dec30 w e = some i) :
    decodeRaw w e = .ok i := by
  unfold decodeRaw
  rw [h, hi]
  rfl

theorem decodeRaw_31 (w : W32) (e : Option W32) (i : Instr) (h : wMaj w = 0x31) (hi : dec31 w e = some i) :
    decodeRaw w e = .ok i := by
  unfold decodeRaw
  rw [h, hi]
  rfl

theorem decodeRaw_32 (w : W32) (e : Option W32) (i : Instr) (h : wMaj w = 0x32) (hi : dec32 w e = some i) :
    decodeRaw w e = .ok i := by
  unfold decodeRaw
  rw [h, hi]
  rfl

theorem decodeRaw_33 (w : W32) (e : Option W32) (i : Instr) (h : wMaj w = 0x33) (hi : dec33 w e = some i) :
    decodeRaw w e = .ok i := by
  unfold decodeRaw
  rw [h, hi]
  rfl

theorem decodeRaw_34 (w : W32) (e : Option W32) (i : Instr) (h : wMaj w = 0x34) (hi : dec34 w e = some i) :
    decodeRaw w e = .ok i := by
  unfold decodeRaw
  rw [h, hi]
  rfl

theorem decodeRaw_35 (w : W32) (e : Option W32) (i : Instr) (h : wMaj w = 0x35) (hi : dec35 w e = some i) :
    decodeRaw w e = .ok i := by
  unfold decodeRaw
  rw [h, hi]
  rfl

theorem decodeRaw_36 (w : W32) (e : Option W32) (i : Instr) (h : wMaj w = 0x36) (hi : dec36 w e = some i) :
    decodeRaw w e = .ok i := by
  unfold decodeRaw
  rw [h, hi]
  rfl

theorem decodeRaw_37 (w : W32) (e : Option W32) (i : Instr) (h : wMaj w = 0x37) (hi : dec37 w e = some i) :
    decodeRaw w e = .ok i := by
  unfold decodeRaw
  rw [h, hi]
  rfl

theorem decodeRaw_38 (w : W32) (e : Option W32) (i : Instr) (h : wMaj w = 0x38) (hi : dec38 w e = some i) :
    decodeRaw w e = .ok i := by
  unfold decodeRaw
  rw [h, hi]
  rfl

theorem decodeRaw_39 (w : W32) (e : Option W32) (i : Instr) (h : wMaj w = 0x39) (hi : dec39 w e = some i) :
    decodeRaw w e = .ok i := by
  unfold decodeRaw
  rw [h, hi]
  rfl

theorem decodeRaw_3A (w : W32) (e : Option W32) (i : Instr) (h : wMaj w = 0x3A) (hi : dec3A w e = some i) :
    decodeRaw w e = .ok i := by
  unfold decodeRaw
  rw [h, hi]
  rfl

theorem decodeRaw_40 (w : W32) (e : Option W32) (i : Instr) (h : wMaj w = 0x40) (hi : dec40 w e = some i) :
    decodeRaw w e = .ok i := by
  unfold decodeRaw
  rw [h, hi]
  rfl

theorem decodeRaw_41 (w : W32) (e : Option W32) (i : Instr) (h : wMaj w = 0x41) (hi : dec41 w e = some i) :
    decodeRaw w e = .ok i := by
  unfold decodeRaw
  rw [h, hi]
  rfl

theorem decodeRaw_42 (w : W32) (e : Option W32) (i : Instr) (h : wMaj w = 0x42) (hi : dec42 w e = some i) :
    decodeRaw w e = .ok i := by
  unfold decodeRaw
  rw [h, hi]
  rfl

theorem decodeRaw_43 (w : W32) (e : Option W32) (i : Instr) (h : wMaj w = 0x43) (hi : dec43 w e = some i) :
    decodeRaw w e = .ok i := by
  unfold decodeRaw
  rw [h, hi]
  rfl

theorem decodeRaw_44 (w : W32) (e : Option W32) (i : Instr) (h : wMaj w = 0x44) (hi : dec44 w e = some i) :
    decodeRaw w e = .ok i := by
  unfold decodeRaw
  rw [h, hi]
  rfl

theorem decodeRaw_45 (w : W32) (e : Option W32) (i : Instr) (h : wMaj w = 0x45) (hi : dec45 w e = some i) :
    decodeRaw w e = .ok i := by
  unfold decodeRaw
  rw [h, hi]
  rfl

theorem decodeRaw_46 (w : W32) (e : Option W32) (i : Instr) (h : wMaj w = 0x46) (hi : dec46 w e = some i) :
    decodeRaw w e = .ok i := by
  unfold decodeRaw
  rw [h, hi]
  rfl

theorem decodeRaw_47 (w : W32) (e : Option W32) (i : Instr) (h : wMaj w = 0x47) (hi : dec47 w e = some i) :
    decodeRaw w e = .ok i := by
  unfold decodeRaw
  rw [h, hi]
  rfl

theorem decodeRaw_48 (w : W32) (e : Option W32) (i : Instr) (h : wMaj w = 0x48) (hi : dec48 w e = some i) :
    decodeRaw w e = .ok i := by
  unfold decodeRaw
  rw [h, hi]
  rfl

theorem decodeRaw_49 (w : W32) (e : Option W32) (i : Instr) (h : wMaj w = 0x49) (hi : dec49 w e = some i) :
    decodeRaw w e = .ok i := by
  unfold decodeRaw
  rw [h, hi]
  rfl

theorem decodeRaw_4A (w : W32) (e : Option W32) (i : Instr) (h : wMaj w = 0x4A) (hi : dec4A w e = some i) :
    decodeRaw w e = .ok i := by
  unfold decodeRaw
  rw [h, hi]
  rfl

theorem decodeRaw_50 (w : W32) (e : Option W32) (i : Instr) (h : wMaj w = 0x50) (hi : dec50 w e = some i) :
    decodeRaw w e = .ok i := by
  unfold decodeRaw
  rw [h, hi]
  rfl

theorem decodeRaw_51 (w : W32) (e : Option W32) (i : Instr) (h : wMaj w = 0x51) (hi : dec51 w e = some i) :
    decodeRaw w e = .ok i := by
  unfold decodeRaw
  rw [h, hi]
  rfl

theorem decodeRaw_52 (w : W32) (e : Option W32) (i : Instr) (h : wMaj w = 0x52) (hi : dec52 w e = some i) :
    decodeRaw w e = .ok i := by
  unfold decodeRaw
  rw [h, hi]
  rfl

theorem decodeRaw_53 (w : W32) (e : Option W32) (i : Instr) (h : wMaj w = 0x53) (hi : dec53 w e = some i) :
    decodeRaw w e = .ok i := by
  unfold decodeRaw
  rw [h, hi]
  rfl

theorem decodeRaw_54 (w : W32) (e : Option W32) (i : Instr) (h : wMaj w = 0x54) (hi : dec54 w e = some i) :
    decodeRaw w e = .ok i := by
  unfold decodeRaw
  rw [h, hi]
  rfl

theorem decodeRaw_60 (w : W32) (e : Option W32) (i : Instr) (h : wMaj w = 0x60) (hi : dec60 w e = some i) :
    decodeRaw w e = .ok i := by
  unfold decodeRaw
  rw [h, hi]
  rfl

theorem decodeRaw_61 (w : W32) (e : Option W32) (i : Instr) (h : wMaj w = 0x61) (hi : dec61 w e = some i) :
    decodeRaw w e = .ok i := by
  unfold decodeRaw
  rw [h, hi]
  rfl

theorem decodeRaw_62 (w : W32) (e : Option W32) (i : Instr) (h : wMaj w = 0x62) (hi : dec62 w e = some i) :
    decodeRaw w e = .ok i := by
  unfold decodeRaw
  rw [h, hi]
  rfl

theorem decodeRaw_63 (w : W32) (e : Option W32) (i : Instr) (h : wMaj w = 0x63) (hi : dec63 w e = some i) :
    decodeRaw w e = .ok i := by
  unfold decodeRaw
  rw [h, hi]
  rfl

theorem decodeRaw_64 (w : W32) (e : Option W32) (i : Instr) (h : wMaj w = 0x64) (hi : dec64 w e = some i) :
    decodeRaw w e = .ok i := by
  unfold decodeRaw
  rw [h, hi]
  rfl

theorem decodeRaw_65 (w : W32) (e : Option W32) (i : Instr) (h : wMaj w = 0x65) (hi : dec65 w e = some i) :
    decodeRaw w e = .ok i := by
  unfold decodeRaw
  rw [h, hi]
  rfl

theorem decodeRaw_66 (w : W32) (e : Option W32) (i : Instr) (h : wMaj w = 0x66) (hi : dec66 w e = some i) :
    decodeRaw w e = .ok i := by
  unfold decodeRaw
  rw [h, hi]
  rfl

theorem decodeRaw_67 (w : W32) (e : Option W32) (i : Instr) (h : wMaj w = 0x67) (hi : dec67 w e = some i) :
    decodeRaw w e = .ok i := by
  unfold decodeRaw
  rw [h, hi]
  rfl

theorem decodeRaw_68 (w : W32) (e : Option W32) (i : Instr) (h : wMaj w = 0x68) (hi : dec68 w e = some i) :
    decodeRaw w e = .ok i := by
  unfold decodeRaw
  rw [h, hi]
  rfl

theorem left {a b : Bool} (h : (a && b) = true) : a = true := (Bool.and_eq_true_iff.1 h).1
theorem right {a b : Bool} (h : (a && b) = true) : b = true := (Bool.and_eq_true_iff.1 h).2

theorem FV.axis_bit (maj : BitVec 7) (fn : BitVec 5) (f : FV) : (f.enc maj fn).getLsbD 0 = f.ax.getLsbD 0 := by
  rw [FV.enc_bit, if_pos (by omega)]

/-! ## The instructions -/

theorem Encoding.nop : Encoding.Statement .nop := by
  intro _ w h; cases h; exact ⟨rfl, rfl⟩

theorem Encoding.add (f : RRR) : Encoding.Statement (.add f) := by
  intro hw w h; cases h
  exact ⟨RRR.enc_long .., decodeRaw_01 _ _ _ (RRR.enc_maj ..) (by unfold dec01; rw [RRR.enc_fn]; exact congrArg (fun x => some (Instr.add x)) (RRR.dec_enc ..))⟩

theorem Encoding.sub (f : RRR) : Encoding.Statement (.sub f) := by
  intro hw w h; cases h
  exact ⟨RRR.enc_long .., decodeRaw_01 _ _ _ (RRR.enc_maj ..) (by unfold dec01; rw [RRR.enc_fn]; exact congrArg (fun x => some (Instr.sub x)) (RRR.dec_enc ..))⟩

theorem Encoding.and (f : RRR) : Encoding.Statement (.and f) := by
  intro hw w h; cases h
  exact ⟨RRR.enc_long .., decodeRaw_01 _ _ _ (RRR.enc_maj ..) (by unfold dec01; rw [RRR.enc_fn]; exact congrArg (fun x => some (Instr.and x)) (RRR.dec_enc ..))⟩

theorem Encoding.or (f : RRR) : Encoding.Statement (.or f) := by
  intro hw w h; cases h
  exact ⟨RRR.enc_long .., decodeRaw_01 _ _ _ (RRR.enc_maj ..) (by unfold dec01; rw [RRR.enc_fn]; exact congrArg (fun x => some (Instr.or x)) (RRR.dec_enc ..))⟩

theorem Encoding.xor (f : RRR) : Encoding.Statement (.xor f) := by
  intro hw w h; cases h
  exact ⟨RRR.enc_long .., decodeRaw_01 _ _ _ (RRR.enc_maj ..) (by unfold dec01; rw [RRR.enc_fn]; exact congrArg (fun x => some (Instr.xor x)) (RRR.dec_enc ..))⟩

theorem Encoding.shl (f : RRR) : Encoding.Statement (.shl f) := by
  intro hw w h; cases h
  exact ⟨RRR.enc_long .., decodeRaw_01 _ _ _ (RRR.enc_maj ..) (by unfold dec01; rw [RRR.enc_fn]; exact congrArg (fun x => some (Instr.shl x)) (RRR.dec_enc ..))⟩

theorem Encoding.shr (f : RRR) : Encoding.Statement (.shr f) := by
  intro hw w h; cases h
  exact ⟨RRR.enc_long .., decodeRaw_01 _ _ _ (RRR.enc_maj ..) (by unfold dec01; rw [RRR.enc_fn]; exact congrArg (fun x => some (Instr.shr x)) (RRR.dec_enc ..))⟩

theorem Encoding.sra (f : RRR) : Encoding.Statement (.sra f) := by
  intro hw w h; cases h
  exact ⟨RRR.enc_long .., decodeRaw_01 _ _ _ (RRR.enc_maj ..) (by unfold dec01; rw [RRR.enc_fn]; exact congrArg (fun x => some (Instr.sra x)) (RRR.dec_enc ..))⟩

theorem Encoding.mul (f : RRR) : Encoding.Statement (.mul f) := by
  intro hw w h; cases h
  exact ⟨RRR.enc_long .., decodeRaw_01 _ _ _ (RRR.enc_maj ..) (by unfold dec01; rw [RRR.enc_fn]; exact congrArg (fun x => some (Instr.mul x)) (RRR.dec_enc ..))⟩

theorem Encoding.mulh (f : RRR) : Encoding.Statement (.mulh f) := by
  intro hw w h; cases h
  exact ⟨RRR.enc_long .., decodeRaw_01 _ _ _ (RRR.enc_maj ..) (by unfold dec01; rw [RRR.enc_fn]; exact congrArg (fun x => some (Instr.mulh x)) (RRR.dec_enc ..))⟩

theorem Encoding.min (f : RRR) : Encoding.Statement (.min f) := by
  intro hw w h; cases h
  exact ⟨RRR.enc_long .., decodeRaw_01 _ _ _ (RRR.enc_maj ..) (by unfold dec01; rw [RRR.enc_fn]; exact congrArg (fun x => some (Instr.min x)) (RRR.dec_enc ..))⟩

theorem Encoding.max (f : RRR) : Encoding.Statement (.max f) := by
  intro hw w h; cases h
  exact ⟨RRR.enc_long .., decodeRaw_01 _ _ _ (RRR.enc_maj ..) (by unfold dec01; rw [RRR.enc_fn]; exact congrArg (fun x => some (Instr.max x)) (RRR.dec_enc ..))⟩

theorem Encoding.div (f : RRR) : Encoding.Statement (.div f) := by
  intro hw w h; cases h
  exact ⟨RRR.enc_long .., decodeRaw_01 _ _ _ (RRR.enc_maj ..) (by unfold dec01; rw [RRR.enc_fn]; exact congrArg (fun x => some (Instr.div x)) (RRR.dec_enc ..))⟩

theorem Encoding.addi (f : RRI) : Encoding.Statement (.addi f) := by
  intro hw w h; cases h
  exact ⟨RRI.enc_long .., decodeRaw_02 _ _ _ (RRI.enc_maj ..) (by unfold dec02; rw [RRI.enc_fn]; exact congrArg (fun x => some (Instr.addi x)) (RRI.dec_enc ..))⟩

theorem Encoding.andi (f : RRI) : Encoding.Statement (.andi f) := by
  intro hw w h; cases h
  exact ⟨RRI.enc_long .., decodeRaw_02 _ _ _ (RRI.enc_maj ..) (by unfold dec02; rw [RRI.enc_fn]; exact congrArg (fun x => some (Instr.andi x)) (RRI.dec_enc ..))⟩

theorem Encoding.ori (f : RRI) : Encoding.Statement (.ori f) := by
  intro hw w h; cases h
  exact ⟨RRI.enc_long .., decodeRaw_02 _ _ _ (RRI.enc_maj ..) (by unfold dec02; rw [RRI.enc_fn]; exact congrArg (fun x => some (Instr.ori x)) (RRI.dec_enc ..))⟩

theorem Encoding.xori (f : RRI) : Encoding.Statement (.xori f) := by
  intro hw w h; cases h
  exact ⟨RRI.enc_long .., decodeRaw_02 _ _ _ (RRI.enc_maj ..) (by unfold dec02; rw [RRI.enc_fn]; exact congrArg (fun x => some (Instr.xori x)) (RRI.dec_enc ..))⟩

theorem Encoding.shli (f : RRI) : Encoding.Statement (.shli f) := by
  intro hw w h; cases h
  exact ⟨RRI.enc_long .., decodeRaw_02 _ _ _ (RRI.enc_maj ..) (by unfold dec02; rw [RRI.enc_fn]; exact congrArg (fun x => some (Instr.shli x)) (RRI.dec_enc ..))⟩

theorem Encoding.shri (f : RRI) : Encoding.Statement (.shri f) := by
  intro hw w h; cases h
  exact ⟨RRI.enc_long .., decodeRaw_02 _ _ _ (RRI.enc_maj ..) (by unfold dec02; rw [RRI.enc_fn]; exact congrArg (fun x => some (Instr.shri x)) (RRI.dec_enc ..))⟩

theorem Encoding.srai (f : RRI) : Encoding.Statement (.srai f) := by
  intro hw w h; cases h
  exact ⟨RRI.enc_long .., decodeRaw_02 _ _ _ (RRI.enc_maj ..) (by unfold dec02; rw [RRI.enc_fn]; exact congrArg (fun x => some (Instr.srai x)) (RRI.dec_enc ..))⟩

theorem Encoding.muli (f : RRI) : Encoding.Statement (.muli f) := by
  intro hw w h; cases h
  exact ⟨RRI.enc_long .., decodeRaw_02 _ _ _ (RRI.enc_maj ..) (by unfold dec02; rw [RRI.enc_fn]; exact congrArg (fun x => some (Instr.muli x)) (RRI.dec_enc ..))⟩

theorem Encoding.li (f : RI) : Encoding.Statement (.li f) := by
  intro hw w h; cases h
  exact ⟨RI.enc_long .., decodeRaw_03 _ _ _ (RI.enc_maj ..) (congrArg (fun x => some (Instr.li x)) (RI.dec_enc ..))⟩

theorem Encoding.lcat (f : RI) : Encoding.Statement (.lcat f) := by
  intro hw w h; cases h
  exact ⟨RI.enc_long .., decodeRaw_04 _ _ _ (RI.enc_maj ..) (congrArg (fun x => some (Instr.lcat x)) (RI.dec_enc ..))⟩

theorem Encoding.seq (f : RRR) : Encoding.Statement (.seq f) := by
  intro hw w h; cases h
  exact ⟨RRR.enc_long .., decodeRaw_05 _ _ _ (RRR.enc_maj ..) (by unfold dec05; rw [RRR.enc_fn]; exact congrArg (fun x => some (Instr.seq x)) (RRR.dec_enc ..))⟩

theorem Encoding.sne (f : RRR) : Encoding.Statement (.sne f) := by
  intro hw w h; cases h
  exact ⟨RRR.enc_long .., decodeRaw_05 _ _ _ (RRR.enc_maj ..) (by unfold dec05; rw [RRR.enc_fn]; exact congrArg (fun x => some (Instr.sne x)) (RRR.dec_enc ..))⟩

theorem Encoding.slt (f : RRR) : Encoding.Statement (.slt f) := by
  intro hw w h; cases h
  exact ⟨RRR.enc_long .., decodeRaw_05 _ _ _ (RRR.enc_maj ..) (by unfold dec05; rw [RRR.enc_fn]; exact congrArg (fun x => some (Instr.slt x)) (RRR.dec_enc ..))⟩

theorem Encoding.sltu (f : RRR) : Encoding.Statement (.sltu f) := by
  intro hw w h; cases h
  exact ⟨RRR.enc_long .., decodeRaw_05 _ _ _ (RRR.enc_maj ..) (by unfold dec05; rw [RRR.enc_fn]; exact congrArg (fun x => some (Instr.sltu x)) (RRR.dec_enc ..))⟩

theorem Encoding.sle (f : RRR) : Encoding.Statement (.sle f) := by
  intro hw w h; cases h
  exact ⟨RRR.enc_long .., decodeRaw_05 _ _ _ (RRR.enc_maj ..) (by unfold dec05; rw [RRR.enc_fn]; exact congrArg (fun x => some (Instr.sle x)) (RRR.dec_enc ..))⟩

theorem Encoding.sleu (f : RRR) : Encoding.Statement (.sleu f) := by
  intro hw w h; cases h
  exact ⟨RRR.enc_long .., decodeRaw_05 _ _ _ (RRR.enc_maj ..) (by unfold dec05; rw [RRR.enc_fn]; exact congrArg (fun x => some (Instr.sleu x)) (RRR.dec_enc ..))⟩

theorem Encoding.csel (f : RRR) : Encoding.Statement (.csel f) := by
  intro hw w h; cases h
  exact ⟨RRR.enc_long .., decodeRaw_05 _ _ _ (RRR.enc_maj ..) (by unfold dec05; rw [RRR.enc_fn]; exact congrArg (fun x => some (Instr.csel x)) (RRR.dec_enc ..))⟩

theorem Encoding.clz (f : RRR) : Encoding.Statement (.clz f) := by
  intro hw w h; cases h
  exact ⟨RRR.enc_long .., decodeRaw_05 _ _ _ (RRR.enc_maj ..) (by unfold dec05; rw [RRR.enc_fn]; exact congrArg (fun x => some (Instr.clz x)) (RRR.dec_enc ..))⟩

theorem Encoding.ctz (f : RRR) : Encoding.Statement (.ctz f) := by
  intro hw w h; cases h
  exact ⟨RRR.enc_long .., decodeRaw_05 _ _ _ (RRR.enc_maj ..) (by unfold dec05; rw [RRR.enc_fn]; exact congrArg (fun x => some (Instr.ctz x)) (RRR.dec_enc ..))⟩

theorem Encoding.popc (f : RRR) : Encoding.Statement (.popc f) := by
  intro hw w h; cases h
  exact ⟨RRR.enc_long .., decodeRaw_05 _ _ _ (RRR.enc_maj ..) (by unfold dec05; rw [RRR.enc_fn]; exact congrArg (fun x => some (Instr.popc x)) (RRR.dec_enc ..))⟩

theorem Encoding.fadd (f : RRR) : Encoding.Statement (.fadd f) := by
  intro hw w h; cases h
  exact ⟨RRR.enc_long .., decodeRaw_06 _ _ _ (RRR.enc_maj ..) (by unfold dec06; rw [RRR.enc_fn]; exact congrArg (fun x => some (Instr.fadd x)) (RRR.dec_enc ..))⟩

theorem Encoding.fsub (f : RRR) : Encoding.Statement (.fsub f) := by
  intro hw w h; cases h
  exact ⟨RRR.enc_long .., decodeRaw_06 _ _ _ (RRR.enc_maj ..) (by unfold dec06; rw [RRR.enc_fn]; exact congrArg (fun x => some (Instr.fsub x)) (RRR.dec_enc ..))⟩

theorem Encoding.fmul (f : RRR) : Encoding.Statement (.fmul f) := by
  intro hw w h; cases h
  exact ⟨RRR.enc_long .., decodeRaw_06 _ _ _ (RRR.enc_maj ..) (by unfold dec06; rw [RRR.enc_fn]; exact congrArg (fun x => some (Instr.fmul x)) (RRR.dec_enc ..))⟩

theorem Encoding.fmad (f : RRR) : Encoding.Statement (.fmad f) := by
  intro hw w h; cases h
  exact ⟨RRR.enc_long .., decodeRaw_06 _ _ _ (RRR.enc_maj ..) (by unfold dec06; rw [RRR.enc_fn]; exact congrArg (fun x => some (Instr.fmad x)) (RRR.dec_enc ..))⟩

theorem Encoding.fmin (f : RRR) : Encoding.Statement (.fmin f) := by
  intro hw w h; cases h
  exact ⟨RRR.enc_long .., decodeRaw_06 _ _ _ (RRR.enc_maj ..) (by unfold dec06; rw [RRR.enc_fn]; exact congrArg (fun x => some (Instr.fmin x)) (RRR.dec_enc ..))⟩

theorem Encoding.fmax (f : RRR) : Encoding.Statement (.fmax f) := by
  intro hw w h; cases h
  exact ⟨RRR.enc_long .., decodeRaw_06 _ _ _ (RRR.enc_maj ..) (by unfold dec06; rw [RRR.enc_fn]; exact congrArg (fun x => some (Instr.fmax x)) (RRR.dec_enc ..))⟩

theorem Encoding.ftoi (f : RRR) : Encoding.Statement (.ftoi f) := by
  intro hw w h; cases h
  exact ⟨RRR.enc_long .., decodeRaw_06 _ _ _ (RRR.enc_maj ..) (by unfold dec06; rw [RRR.enc_fn]; exact congrArg (fun x => some (Instr.ftoi x)) (RRR.dec_enc ..))⟩

theorem Encoding.itof (f : RRR) : Encoding.Statement (.itof f) := by
  intro hw w h; cases h
  exact ⟨RRR.enc_long .., decodeRaw_06 _ _ _ (RRR.enc_maj ..) (by unfold dec06; rw [RRR.enc_fn]; exact congrArg (fun x => some (Instr.itof x)) (RRR.dec_enc ..))⟩

theorem Encoding.flt (f : RRR) : Encoding.Statement (.flt f) := by
  intro hw w h; cases h
  exact ⟨RRR.enc_long .., decodeRaw_06 _ _ _ (RRR.enc_maj ..) (by unfold dec06; rw [RRR.enc_fn]; exact congrArg (fun x => some (Instr.flt x)) (RRR.dec_enc ..))⟩

theorem Encoding.br (f : BR) : Encoding.Statement (.br f) := by
  intro hw w h; cases h
  have hc : f.c = 0 := eq_of_beq (left (left (left hw)))
  exact ⟨BR.enc_long .., decodeRaw_08 _ _ _ (BR.enc_maj ..)
    (by unfold dec08; rw [BR.enc_c, hc]; exact congrArg (fun x => some (Instr.br x)) (BR.dec_enc ..))⟩

theorem Encoding.brz (f : BR) : Encoding.Statement (.brz f) := by
  intro hw w h; cases h
  have hc : f.c = 1 := eq_of_beq (left (left (left hw)))
  exact ⟨BR.enc_long .., decodeRaw_08 _ _ _ (BR.enc_maj ..)
    (by unfold dec08; rw [BR.enc_c, hc]; exact congrArg (fun x => some (Instr.brz x)) (BR.dec_enc ..))⟩

theorem Encoding.brnz (f : BR) : Encoding.Statement (.brnz f) := by
  intro hw w h; cases h
  have hc : f.c = 2 := eq_of_beq (left (left (left hw)))
  exact ⟨BR.enc_long .., decodeRaw_08 _ _ _ (BR.enc_maj ..)
    (by unfold dec08; rw [BR.enc_c, hc]; exact congrArg (fun x => some (Instr.brnz x)) (BR.dec_enc ..))⟩

theorem Encoding.brlt (f : BR) : Encoding.Statement (.brlt f) := by
  intro hw w h; cases h
  have hc : f.c = 3 := eq_of_beq (left (left (left hw)))
  exact ⟨BR.enc_long .., decodeRaw_08 _ _ _ (BR.enc_maj ..)
    (by unfold dec08; rw [BR.enc_c, hc]; exact congrArg (fun x => some (Instr.brlt x)) (BR.dec_enc ..))⟩

theorem Encoding.brge (f : BR) : Encoding.Statement (.brge f) := by
  intro hw w h; cases h
  have hc : f.c = 4 := eq_of_beq (left (left (left hw)))
  exact ⟨BR.enc_long .., decodeRaw_08 _ _ _ (BR.enc_maj ..)
    (by unfold dec08; rw [BR.enc_c, hc]; exact congrArg (fun x => some (Instr.brge x)) (BR.dec_enc ..))⟩

theorem Encoding.brle (f : BR) : Encoding.Statement (.brle f) := by
  intro hw w h; cases h
  have hc : f.c = 5 := eq_of_beq (left (left (left hw)))
  exact ⟨BR.enc_long .., decodeRaw_08 _ _ _ (BR.enc_maj ..)
    (by unfold dec08; rw [BR.enc_c, hc]; exact congrArg (fun x => some (Instr.brle x)) (BR.dec_enc ..))⟩

theorem Encoding.brgt (f : BR) : Encoding.Statement (.brgt f) := by
  intro hw w h; cases h
  have hc : f.c = 6 := eq_of_beq (left (left (left hw)))
  exact ⟨BR.enc_long .., decodeRaw_08 _ _ _ (BR.enc_maj ..)
    (by unfold dec08; rw [BR.enc_c, hc]; exact congrArg (fun x => some (Instr.brgt x)) (BR.dec_enc ..))⟩

theorem Encoding.call (f : BR) : Encoding.Statement (.call f) := by
  intro hw w h; cases h
  have hc : f.c = 0 := eq_of_beq (left (left (left hw)))
  exact ⟨BR.enc_long .., decodeRaw_09 _ _ _ (BR.enc_maj ..)
    (by unfold dec09; rw [BR.enc_c, hc]; exact congrArg (fun x => some (Instr.call x)) (BR.dec_enc ..))⟩

theorem Encoding.ret (f : BR) : Encoding.Statement (.ret f) := by
  intro hw w h; cases h
  have hc : f.c = 1 := eq_of_beq (left hw)
  exact ⟨BR.enc_long .., decodeRaw_09 _ _ _ (BR.enc_maj ..)
    (by unfold dec09; rw [BR.enc_c, hc]; exact congrArg (fun x => some (Instr.ret x)) (BR.dec_enc ..))⟩

theorem Encoding.jmp (f : BR) : Encoding.Statement (.jmp f) := by
  intro hw w h; cases h
  have hc : f.c = 2 := eq_of_beq (left hw)
  exact ⟨BR.enc_long .., decodeRaw_09 _ _ _ (BR.enc_maj ..)
    (by unfold dec09; rw [BR.enc_c, hc]; exact congrArg (fun x => some (Instr.jmp x)) (BR.dec_enc ..))⟩

theorem Encoding.loop (f : BR) : Encoding.Statement (.loop f) := by
  intro hw w h; cases h
  have hc : (f.enc 0x0A).extractLsb' 20 2 = 0 := by
    have h1 : (f.enc 0x0A).extractLsb' 20 2 = ((f.enc 0x0A).extractLsb' 20 4).extractLsb' 0 2 := by
      apply BitVec.eq_of_getLsbD_eq
      intro i hi
      simp only [BitVec.getLsbD_extractLsb', hi, decide_true, Bool.true_and, Nat.zero_add]
      rw [decide_eq_true (by omega), Bool.true_and]
    have h2 : f.c.extractLsb' 0 2 = 0 := by
      have h3 : fld f.c 1 0 = 0 := eq_of_beq (left (left (left hw)))
      exact BitVec.eq_of_toNat_eq (by rw [BitVec.extractLsb'_toNat]; exact h3)
    rw [h1, BR.enc_c, h2]
  exact ⟨BR.enc_long .., decodeRaw_0A _ _ _ (BR.enc_maj ..)
    (by unfold dec0A; rw [if_pos hc]; exact congrArg (fun x => some (Instr.loop x)) (BR.dec_enc ..))⟩

theorem Encoding.bqnz (f : BR) : Encoding.Statement (.bqnz f) := by
  intro hw w h; cases h
  have hc : f.a = 0 := eq_of_beq (left (left hw))
  exact ⟨BR.enc_long .., decodeRaw_0B _ _ _ (BR.enc_maj ..)
    (by unfold dec0B; rw [BR.enc_a, hc]; exact congrArg (fun x => some (Instr.bqnz x)) (BR.dec_enc ..))⟩

theorem Encoding.bqz (f : BR) : Encoding.Statement (.bqz f) := by
  intro hw w h; cases h
  have hc : f.a = 1 := eq_of_beq (left (left hw))
  exact ⟨BR.enc_long .., decodeRaw_0B _ _ _ (BR.enc_maj ..)
    (by unfold dec0B; rw [BR.enc_a, hc]; exact congrArg (fun x => some (Instr.bqz x)) (BR.dec_enc ..))⟩

theorem Encoding.wait (f : RI) : Encoding.Statement (.wait f) := by
  intro hw w h; cases h
  exact ⟨RI.enc_long .., decodeRaw_0C _ _ _ (RI.enc_maj ..) (congrArg (fun x => some (Instr.wait x)) (RI.dec_enc ..))⟩

theorem Encoding.ld8 (f : RRI) : Encoding.Statement (.ld8 f) := by
  intro hw w h; cases h
  exact ⟨RRI.enc_long .., decodeRaw_10 _ _ _ (RRI.enc_maj ..) (by unfold dec10; rw [RRI.enc_fn]; exact congrArg (fun x => some (Instr.ld8 x)) (RRI.dec_enc ..))⟩

theorem Encoding.ld16 (f : RRI) : Encoding.Statement (.ld16 f) := by
  intro hw w h; cases h
  exact ⟨RRI.enc_long .., decodeRaw_10 _ _ _ (RRI.enc_maj ..) (by unfold dec10; rw [RRI.enc_fn]; exact congrArg (fun x => some (Instr.ld16 x)) (RRI.dec_enc ..))⟩

theorem Encoding.ld32 (f : RRI) : Encoding.Statement (.ld32 f) := by
  intro hw w h; cases h
  exact ⟨RRI.enc_long .., decodeRaw_10 _ _ _ (RRI.enc_maj ..) (by unfold dec10; rw [RRI.enc_fn]; exact congrArg (fun x => some (Instr.ld32 x)) (RRI.dec_enc ..))⟩

theorem Encoding.ld64 (f : RRI) : Encoding.Statement (.ld64 f) := by
  intro hw w h; cases h
  exact ⟨RRI.enc_long .., decodeRaw_10 _ _ _ (RRI.enc_maj ..) (by unfold dec10; rw [RRI.enc_fn]; exact congrArg (fun x => some (Instr.ld64 x)) (RRI.dec_enc ..))⟩

theorem Encoding.ld8s (f : RRI) : Encoding.Statement (.ld8s f) := by
  intro hw w h; cases h
  exact ⟨RRI.enc_long .., decodeRaw_10 _ _ _ (RRI.enc_maj ..) (by unfold dec10; rw [RRI.enc_fn]; exact congrArg (fun x => some (Instr.ld8s x)) (RRI.dec_enc ..))⟩

theorem Encoding.ld16s (f : RRI) : Encoding.Statement (.ld16s f) := by
  intro hw w h; cases h
  exact ⟨RRI.enc_long .., decodeRaw_10 _ _ _ (RRI.enc_maj ..) (by unfold dec10; rw [RRI.enc_fn]; exact congrArg (fun x => some (Instr.ld16s x)) (RRI.dec_enc ..))⟩

theorem Encoding.ld32s (f : RRI) : Encoding.Statement (.ld32s f) := by
  intro hw w h; cases h
  exact ⟨RRI.enc_long .., decodeRaw_10 _ _ _ (RRI.enc_maj ..) (by unfold dec10; rw [RRI.enc_fn]; exact congrArg (fun x => some (Instr.ld32s x)) (RRI.dec_enc ..))⟩

theorem Encoding.st8 (f : RRI) : Encoding.Statement (.st8 f) := by
  intro hw w h; cases h
  exact ⟨RRI.enc_long .., decodeRaw_11 _ _ _ (RRI.enc_maj ..) (by unfold dec11; rw [RRI.enc_fn]; exact congrArg (fun x => some (Instr.st8 x)) (RRI.dec_enc ..))⟩

theorem Encoding.st16 (f : RRI) : Encoding.Statement (.st16 f) := by
  intro hw w h; cases h
  exact ⟨RRI.enc_long .., decodeRaw_11 _ _ _ (RRI.enc_maj ..) (by unfold dec11; rw [RRI.enc_fn]; exact congrArg (fun x => some (Instr.st16 x)) (RRI.dec_enc ..))⟩

theorem Encoding.st32 (f : RRI) : Encoding.Statement (.st32 f) := by
  intro hw w h; cases h
  exact ⟨RRI.enc_long .., decodeRaw_11 _ _ _ (RRI.enc_maj ..) (by unfold dec11; rw [RRI.enc_fn]; exact congrArg (fun x => some (Instr.st32 x)) (RRI.dec_enc ..))⟩

theorem Encoding.st64 (f : RRI) : Encoding.Statement (.st64 f) := by
  intro hw w h; cases h
  exact ⟨RRI.enc_long .., decodeRaw_11 _ _ _ (RRI.enc_maj ..) (by unfold dec11; rw [RRI.enc_fn]; exact congrArg (fun x => some (Instr.st64 x)) (RRI.dec_enc ..))⟩

theorem Encoding.amoadd (f : RRR) : Encoding.Statement (.amoadd f) := by
  intro hw w h; cases h
  exact ⟨RRR.enc_long .., decodeRaw_12 _ _ _ (RRR.enc_maj ..) (by unfold dec12; rw [RRR.enc_fn]; exact congrArg (fun x => some (Instr.amoadd x)) (RRR.dec_enc ..))⟩

theorem Encoding.amoswp (f : RRR) : Encoding.Statement (.amoswp f) := by
  intro hw w h; cases h
  exact ⟨RRR.enc_long .., decodeRaw_12 _ _ _ (RRR.enc_maj ..) (by unfold dec12; rw [RRR.enc_fn]; exact congrArg (fun x => some (Instr.amoswp x)) (RRR.dec_enc ..))⟩

theorem Encoding.amocas (f : RRR) : Encoding.Statement (.amocas f) := by
  intro hw w h; cases h
  exact ⟨RRR.enc_long .., decodeRaw_12 _ _ _ (RRR.enc_maj ..) (by unfold dec12; rw [RRR.enc_fn]; exact congrArg (fun x => some (Instr.amocas x)) (RRR.dec_enc ..))⟩

theorem Encoding.amoand (f : RRR) : Encoding.Statement (.amoand f) := by
  intro hw w h; cases h
  exact ⟨RRR.enc_long .., decodeRaw_12 _ _ _ (RRR.enc_maj ..) (by unfold dec12; rw [RRR.enc_fn]; exact congrArg (fun x => some (Instr.amoand x)) (RRR.dec_enc ..))⟩

theorem Encoding.amoor (f : RRR) : Encoding.Statement (.amoor f) := by
  intro hw w h; cases h
  exact ⟨RRR.enc_long .., decodeRaw_12 _ _ _ (RRR.enc_maj ..) (by unfold dec12; rw [RRR.enc_fn]; exact congrArg (fun x => some (Instr.amoor x)) (RRR.dec_enc ..))⟩

theorem Encoding.amoxor (f : RRR) : Encoding.Statement (.amoxor f) := by
  intro hw w h; cases h
  exact ⟨RRR.enc_long .., decodeRaw_12 _ _ _ (RRR.enc_maj ..) (by unfold dec12; rw [RRR.enc_fn]; exact congrArg (fun x => some (Instr.amoxor x)) (RRR.dec_enc ..))⟩

theorem Encoding.fenceCore (f : RRR) : Encoding.Statement (.fenceCore f) := by
  intro hw w h; cases h
  exact ⟨RRR.enc_long .., decodeRaw_13 _ _ _ (RRR.enc_maj ..) (by unfold dec13; rw [RRR.enc_fn]; exact congrArg (fun x => some (Instr.fenceCore x)) (RRR.dec_enc ..))⟩

theorem Encoding.fenceClu (f : RRR) : Encoding.Statement (.fenceClu f) := by
  intro hw w h; cases h
  exact ⟨RRR.enc_long .., decodeRaw_13 _ _ _ (RRR.enc_maj ..) (by unfold dec13; rw [RRR.enc_fn]; exact congrArg (fun x => some (Instr.fenceClu x)) (RRR.dec_enc ..))⟩

theorem Encoding.fenceDie (f : RRR) : Encoding.Statement (.fenceDie f) := by
  intro hw w h; cases h
  exact ⟨RRR.enc_long .., decodeRaw_13 _ _ _ (RRR.enc_maj ..) (by unfold dec13; rw [RRR.enc_fn]; exact congrArg (fun x => some (Instr.fenceDie x)) (RRR.dec_enc ..))⟩

theorem Encoding.fenceMod (f : RRR) : Encoding.Statement (.fenceMod f) := by
  intro hw w h; cases h
  exact ⟨RRR.enc_long .., decodeRaw_13 _ _ _ (RRR.enc_maj ..) (by unfold dec13; rw [RRR.enc_fn]; exact congrArg (fun x => some (Instr.fenceMod x)) (RRR.dec_enc ..))⟩

theorem Encoding.fenceSpan (f : RRR) : Encoding.Statement (.fenceSpan f) := by
  intro hw w h; cases h
  exact ⟨RRR.enc_long .., decodeRaw_13 _ _ _ (RRR.enc_maj ..) (by unfold dec13; rw [RRR.enc_fn]; exact congrArg (fun x => some (Instr.fenceSpan x)) (RRR.dec_enc ..))⟩

theorem Encoding.efence (f : RRR) : Encoding.Statement (.efence f) := by
  intro hw w h; cases h
  exact ⟨RRR.enc_long .., decodeRaw_13 _ _ _ (RRR.enc_maj ..) (by unfold dec13; rw [RRR.enc_fn]; exact congrArg (fun x => some (Instr.efence x)) (RRR.dec_enc ..))⟩

theorem Encoding.farm (f : RRI) : Encoding.Statement (.farm f) := by
  intro hw w h; cases h
  exact ⟨RRI.enc_long .., decodeRaw_14 _ _ _ (RRI.enc_maj ..) (by unfold dec14; rw [RRI.enc_fn]; exact congrArg (fun x => some (Instr.farm x)) (RRI.dec_enc ..))⟩

theorem Encoding.fpost (f : RRI) : Encoding.Statement (.fpost f) := by
  intro hw w h; cases h
  exact ⟨RRI.enc_long .., decodeRaw_14 _ _ _ (RRI.enc_maj ..) (by unfold dec14; rw [RRI.enc_fn]; exact congrArg (fun x => some (Instr.fpost x)) (RRI.dec_enc ..))⟩

theorem Encoding.fdec (f : RRI) : Encoding.Statement (.fdec f) := by
  intro hw w h; cases h
  exact ⟨RRI.enc_long .., decodeRaw_14 _ _ _ (RRI.enc_maj ..) (by unfold dec14; rw [RRI.enc_fn]; exact congrArg (fun x => some (Instr.fdec x)) (RRI.dec_enc ..))⟩

theorem Encoding.fread (f : RRI) : Encoding.Statement (.fread f) := by
  intro hw w h; cases h
  exact ⟨RRI.enc_long .., decodeRaw_14 _ _ _ (RRI.enc_maj ..) (by unfold dec14; rw [RRI.enc_fn]; exact congrArg (fun x => some (Instr.fread x)) (RRI.dec_enc ..))⟩

theorem Encoding.fwait (f : RRI) : Encoding.Statement (.fwait f) := by
  intro hw w h; cases h
  exact ⟨RRI.enc_long .., decodeRaw_14 _ _ _ (RRI.enc_maj ..) (by unfold dec14; rw [RRI.enc_fn]; exact congrArg (fun x => some (Instr.fwait x)) (RRI.dec_enc ..))⟩

theorem Encoding.bar (f : RRI) : Encoding.Statement (.bar f) := by
  intro hw w h; cases h
  exact ⟨RRI.enc_long .., decodeRaw_15 _ _ _ (RRI.enc_maj ..) (by unfold dec15; rw [RRI.enc_fn]; exact congrArg (fun x => some (Instr.bar x)) (RRI.dec_enc ..))⟩

theorem Encoding.qpush (f : FQ) : Encoding.Statement (.qpush f) := by
  intro hw w h; cases h
  exact ⟨FQ.enc_long .., decodeRaw_16 _ _ _ (FQ.enc_maj ..) (by unfold dec16; rw [FQ.enc_fn]; exact congrArg (fun x => some (Instr.qpush x)) (FQ.dec_enc ..))⟩

theorem Encoding.qpop (f : FQ) : Encoding.Statement (.qpop f) := by
  intro hw w h; cases h
  exact ⟨FQ.enc_long .., decodeRaw_16 _ _ _ (FQ.enc_maj ..) (by unfold dec16; rw [FQ.enc_fn]; exact congrArg (fun x => some (Instr.qpop x)) (FQ.dec_enc ..))⟩

theorem Encoding.qpeek (f : FQ) : Encoding.Statement (.qpeek f) := by
  intro hw w h; cases h
  exact ⟨FQ.enc_long .., decodeRaw_16 _ _ _ (FQ.enc_maj ..) (by unfold dec16; rw [FQ.enc_fn]; exact congrArg (fun x => some (Instr.qpeek x)) (FQ.dec_enc ..))⟩

theorem Encoding.qstat (f : FQ) : Encoding.Statement (.qstat f) := by
  intro hw w h; cases h
  exact ⟨FQ.enc_long .., decodeRaw_16 _ _ _ (FQ.enc_maj ..) (by unfold dec16; rw [FQ.enc_fn]; exact congrArg (fun x => some (Instr.qstat x)) (FQ.dec_enc ..))⟩

theorem Encoding.qcfg (f : FQ) : Encoding.Statement (.qcfg f) := by
  intro hw w h; cases h
  exact ⟨FQ.enc_long .., decodeRaw_16 _ _ _ (FQ.enc_maj ..) (by unfold dec16; rw [FQ.enc_fn]; exact congrArg (fun x => some (Instr.qcfg x)) (FQ.dec_enc ..))⟩

theorem Encoding.spawn (f : RRR) : Encoding.Statement (.spawn f) := by
  intro hw w h; cases h
  exact ⟨RRR.enc_long .., decodeRaw_17 _ _ _ (RRR.enc_maj ..) (by unfold dec17; rw [RRR.enc_fn]; exact congrArg (fun x => some (Instr.spawn x)) (RRR.dec_enc ..))⟩

theorem Encoding.tstart (f : RRR) : Encoding.Statement (.tstart f) := by
  intro hw w h; cases h
  exact ⟨RRR.enc_long .., decodeRaw_17 _ _ _ (RRR.enc_maj ..) (by unfold dec17; rw [RRR.enc_fn]; exact congrArg (fun x => some (Instr.tstart x)) (RRR.dec_enc ..))⟩

theorem Encoding.join (f : RRR) : Encoding.Statement (.join f) := by
  intro hw w h; cases h
  exact ⟨RRR.enc_long .., decodeRaw_17 _ _ _ (RRR.enc_maj ..) (by unfold dec17; rw [RRR.enc_fn]; exact congrArg (fun x => some (Instr.join x)) (RRR.dec_enc ..))⟩

theorem Encoding.yield (f : RRR) : Encoding.Statement (.yield f) := by
  intro hw w h; cases h
  exact ⟨RRR.enc_long .., decodeRaw_17 _ _ _ (RRR.enc_maj ..) (by unfold dec17; rw [RRR.enc_fn]; exact congrArg (fun x => some (Instr.yield x)) (RRR.dec_enc ..))⟩

theorem Encoding.exit (f : RRR) : Encoding.Statement (.exit f) := by
  intro hw w h; cases h
  exact ⟨RRR.enc_long .., decodeRaw_17 _ _ _ (RRR.enc_maj ..) (by unfold dec17; rw [RRR.enc_fn]; exact congrArg (fun x => some (Instr.exit x)) (RRR.dec_enc ..))⟩

theorem Encoding.sbind (f : FQ) : Encoding.Statement (.sbind f) := by
  intro hw w h; cases h
  exact ⟨FQ.enc_long .., decodeRaw_20 _ _ _ (FQ.enc_maj ..) (by unfold dec20; rw [FQ.enc_fn]; exact congrArg (fun x => some (Instr.sbind x)) (FQ.dec_enc ..))⟩

theorem Encoding.sstop (f : FQ) : Encoding.Statement (.sstop f) := by
  intro hw w h; cases h
  exact ⟨FQ.enc_long .., decodeRaw_20 _ _ _ (FQ.enc_maj ..) (by unfold dec20; rw [FQ.enc_fn]; exact congrArg (fun x => some (Instr.sstop x)) (FQ.dec_enc ..))⟩

theorem Encoding.sstat (f : FQ) : Encoding.Statement (.sstat f) := by
  intro hw w h; cases h
  exact ⟨FQ.enc_long .., decodeRaw_20 _ _ _ (FQ.enc_maj ..) (by unfold dec20; rw [FQ.enc_fn]; exact congrArg (fun x => some (Instr.sstat x)) (FQ.dec_enc ..))⟩

theorem Encoding.gather (f : FQ) : Encoding.Statement (.gather f) := by
  intro hw w h; cases h
  exact ⟨FQ.enc_long .., decodeRaw_21 _ _ _ (FQ.enc_maj ..) (by unfold dec21; rw [FQ.enc_fn]; exact congrArg (fun x => some (Instr.gather x)) (FQ.dec_enc ..))⟩

theorem Encoding.gatherq (f : FQ) : Encoding.Statement (.gatherq f) := by
  intro hw w h; cases h
  exact ⟨FQ.enc_long .., decodeRaw_21 _ _ _ (FQ.enc_maj ..) (by unfold dec21; rw [FQ.enc_fn]; exact congrArg (fun x => some (Instr.gatherq x)) (FQ.dec_enc ..))⟩

theorem Encoding.copy (f : RRR) : Encoding.Statement (.copy f) := by
  intro hw w h; cases h
  exact ⟨RRR.enc_long .., decodeRaw_22 _ _ _ (RRR.enc_maj ..) (by unfold dec22; rw [RRR.enc_fn]; exact congrArg (fun x => some (Instr.copy x)) (RRR.dec_enc ..))⟩

theorem Encoding.copyf (f : RRR) : Encoding.Statement (.copyf f) := by
  intro hw w h; cases h
  exact ⟨RRR.enc_long .., decodeRaw_22 _ _ _ (RRR.enc_maj ..) (by unfold dec22; rw [RRR.enc_fn]; exact congrArg (fun x => some (Instr.copyf x)) (RRR.dec_enc ..))⟩

theorem Encoding.copy2d (f : RRR) : Encoding.Statement (.copy2d f) := by
  intro hw w h; cases h
  exact ⟨RRR.enc_long .., decodeRaw_22 _ _ _ (RRR.enc_maj ..) (by unfold dec22; rw [RRR.enc_fn]; exact congrArg (fun x => some (Instr.copy2d x)) (RRR.dec_enc ..))⟩

theorem Encoding.wload (f : RRI) : Encoding.Statement (.wload f) := by
  intro hw w h; cases h
  exact ⟨RRI.enc_long .., decodeRaw_23 _ _ _ (RRI.enc_maj ..) (by unfold dec23; rw [RRI.enc_fn]; exact congrArg (fun x => some (Instr.wload x)) (RRI.dec_enc ..))⟩

theorem Encoding.rcfill (f : RRR) : Encoding.Statement (.rcfill f) := by
  intro hw w h; cases h
  exact ⟨RRR.enc_long .., decodeRaw_24 _ _ _ (RRR.enc_maj ..) (by unfold dec24; rw [RRR.enc_fn]; exact congrArg (fun x => some (Instr.rcfill x)) (RRR.dec_enc ..))⟩

theorem Encoding.rcclose (f : RRR) : Encoding.Statement (.rcclose f) := by
  intro hw w h; cases h
  exact ⟨RRR.enc_long .., decodeRaw_24 _ _ _ (RRR.enc_maj ..) (by unfold dec24; rw [RRR.enc_fn]; exact congrArg (fun x => some (Instr.rcclose x)) (RRR.dec_enc ..))⟩

theorem Encoding.rcquery (f : RRR) : Encoding.Statement (.rcquery f) := by
  intro hw w h; cases h
  exact ⟨RRR.enc_long .., decodeRaw_24 _ _ _ (RRR.enc_maj ..) (by unfold dec24; rw [RRR.enc_fn]; exact congrArg (fun x => some (Instr.rcquery x)) (RRR.dec_enc ..))⟩

theorem Encoding.shload (f : RRR) : Encoding.Statement (.shload f) := by
  intro hw w h; cases h
  exact ⟨RRR.enc_long .., decodeRaw_25 _ _ _ (RRR.enc_maj ..) (by unfold dec25; rw [RRR.enc_fn]; exact congrArg (fun x => some (Instr.shload x)) (RRR.dec_enc ..))⟩

theorem Encoding.shext (f : RRR) : Encoding.Statement (.shext f) := by
  intro hw w h; cases h
  exact ⟨RRR.enc_long .., decodeRaw_25 _ _ _ (RRR.enc_maj ..) (by unfold dec25; rw [RRR.enc_fn]; exact congrArg (fun x => some (Instr.shext x)) (RRR.dec_enc ..))⟩

theorem Encoding.ldq (f : FQ) : Encoding.Statement (.ldq f) := by
  intro hw w h; cases h
  exact ⟨FQ.enc_long .., decodeRaw_26 _ _ _ (FQ.enc_maj ..) (by unfold dec26; rw [FQ.enc_fn]; exact congrArg (fun x => some (Instr.ldq x)) (FQ.dec_enc ..))⟩

theorem Encoding.ldrow (f : FQ) : Encoding.Statement (.ldrow f) := by
  intro hw w h; cases h
  exact ⟨FQ.enc_long .., decodeRaw_26 _ _ _ (FQ.enc_maj ..) (by unfold dec26; rw [FQ.enc_fn]; exact congrArg (fun x => some (Instr.ldrow x)) (FQ.dec_enc ..))⟩

theorem Encoding.actBind (f : RRR) : Encoding.Statement (.actBind f) := by
  intro hw w h; cases h
  exact ⟨RRR.enc_long .., decodeRaw_27 _ _ _ (RRR.enc_maj ..) (by unfold dec27; rw [RRR.enc_fn]; exact congrArg (fun x => some (Instr.actBind x)) (RRR.dec_enc ..))⟩

theorem Encoding.actMark (f : RRR) : Encoding.Statement (.actMark f) := by
  intro hw w h; cases h
  exact ⟨RRR.enc_long .., decodeRaw_27 _ _ _ (RRR.enc_maj ..) (by unfold dec27; rw [RRR.enc_fn]; exact congrArg (fun x => some (Instr.actMark x)) (RRR.dec_enc ..))⟩

theorem Encoding.actClear (f : RRR) : Encoding.Statement (.actClear f) := by
  intro hw w h; cases h
  exact ⟨RRR.enc_long .., decodeRaw_27 _ _ _ (RRR.enc_maj ..) (by unfold dec27; rw [RRR.enc_fn]; exact congrArg (fun x => some (Instr.actClear x)) (RRR.dec_enc ..))⟩

theorem Encoding.actList (f : RRR) : Encoding.Statement (.actList f) := by
  intro hw w h; cases h
  exact ⟨RRR.enc_long .., decodeRaw_27 _ _ _ (RRR.enc_maj ..) (by unfold dec27; rw [RRR.enc_fn]; exact congrArg (fun x => some (Instr.actList x)) (RRR.dec_enc ..))⟩

theorem Encoding.actCount (f : RRR) : Encoding.Statement (.actCount f) := by
  intro hw w h; cases h
  exact ⟨RRR.enc_long .., decodeRaw_27 _ _ _ (RRR.enc_maj ..) (by unfold dec27; rw [RRR.enc_fn]; exact congrArg (fun x => some (Instr.actCount x)) (RRR.dec_enc ..))⟩

theorem Encoding.prefetch (f : RRI) : Encoding.Statement (.prefetch f) := by
  intro hw w h; cases h
  exact ⟨RRI.enc_long .., decodeRaw_28 _ _ _ (RRI.enc_maj ..) (by unfold dec28; rw [RRI.enc_fn]; exact congrArg (fun x => some (Instr.prefetch x)) (RRI.dec_enc ..))⟩

theorem Encoding.gwait (f : FQ) : Encoding.Statement (.gwait f) := by
  intro hw w h; cases h
  exact ⟨FQ.enc_long .., decodeRaw_29 _ _ _ (FQ.enc_maj ..) (by unfold dec29; rw [FQ.enc_fn]; exact congrArg (fun x => some (Instr.gwait x)) (FQ.dec_enc ..))⟩

theorem Encoding.gstat (f : FQ) : Encoding.Statement (.gstat f) := by
  intro hw w h; cases h
  exact ⟨FQ.enc_long .., decodeRaw_29 _ _ _ (FQ.enc_maj ..) (by unfold dec29; rw [FQ.enc_fn]; exact congrArg (fun x => some (Instr.gstat x)) (FQ.dec_enc ..))⟩

theorem Encoding.vadd (f : FV) : Encoding.Statement (.vadd f) := by
  intro hw w h; cases h
  exact ⟨FV.enc_long .., decodeRaw_30 _ _ _ (FV.enc_maj ..) (by unfold dec30; rw [FV.enc_fn]; exact congrArg (fun x => some (Instr.vadd x)) (FV.dec_enc ..))⟩

theorem Encoding.vsub (f : FV) : Encoding.Statement (.vsub f) := by
  intro hw w h; cases h
  exact ⟨FV.enc_long .., decodeRaw_30 _ _ _ (FV.enc_maj ..) (by unfold dec30; rw [FV.enc_fn]; exact congrArg (fun x => some (Instr.vsub x)) (FV.dec_enc ..))⟩

theorem Encoding.vmul (f : FV) : Encoding.Statement (.vmul f) := by
  intro hw w h; cases h
  exact ⟨FV.enc_long .., decodeRaw_30 _ _ _ (FV.enc_maj ..) (by unfold dec30; rw [FV.enc_fn]; exact congrArg (fun x => some (Instr.vmul x)) (FV.dec_enc ..))⟩

theorem Encoding.vfma (f : FV) : Encoding.Statement (.vfma f) := by
  intro hw w h; cases h
  exact ⟨FV.enc_long .., decodeRaw_30 _ _ _ (FV.enc_maj ..) (by unfold dec30; rw [FV.enc_fn]; exact congrArg (fun x => some (Instr.vfma x)) (FV.dec_enc ..))⟩

theorem Encoding.vfms (f : FV) : Encoding.Statement (.vfms f) := by
  intro hw w h; cases h
  exact ⟨FV.enc_long .., decodeRaw_30 _ _ _ (FV.enc_maj ..) (by unfold dec30; rw [FV.enc_fn]; exact congrArg (fun x => some (Instr.vfms x)) (FV.dec_enc ..))⟩

theorem Encoding.vmin (f : FV) : Encoding.Statement (.vmin f) := by
  intro hw w h; cases h
  exact ⟨FV.enc_long .., decodeRaw_30 _ _ _ (FV.enc_maj ..) (by unfold dec30; rw [FV.enc_fn]; exact congrArg (fun x => some (Instr.vmin x)) (FV.dec_enc ..))⟩

theorem Encoding.vmax (f : FV) : Encoding.Statement (.vmax f) := by
  intro hw w h; cases h
  exact ⟨FV.enc_long .., decodeRaw_30 _ _ _ (FV.enc_maj ..) (by unfold dec30; rw [FV.enc_fn]; exact congrArg (fun x => some (Instr.vmax x)) (FV.dec_enc ..))⟩

theorem Encoding.vabs (f : FV) : Encoding.Statement (.vabs f) := by
  intro hw w h; cases h
  exact ⟨FV.enc_long .., decodeRaw_30 _ _ _ (FV.enc_maj ..) (by unfold dec30; rw [FV.enc_fn]; exact congrArg (fun x => some (Instr.vabs x)) (FV.dec_enc ..))⟩

theorem Encoding.vneg (f : FV) : Encoding.Statement (.vneg f) := by
  intro hw w h; cases h
  exact ⟨FV.enc_long .., decodeRaw_30 _ _ _ (FV.enc_maj ..) (by unfold dec30; rw [FV.enc_fn]; exact congrArg (fun x => some (Instr.vneg x)) (FV.dec_enc ..))⟩

theorem Encoding.viadd (f : FV) : Encoding.Statement (.viadd f) := by
  intro hw w h; cases h
  exact ⟨FV.enc_long .., decodeRaw_31 _ _ _ (FV.enc_maj ..) (by unfold dec31; rw [FV.enc_fn]; exact congrArg (fun x => some (Instr.viadd x)) (FV.dec_enc ..))⟩

theorem Encoding.visub (f : FV) : Encoding.Statement (.visub f) := by
  intro hw w h; cases h
  exact ⟨FV.enc_long .., decodeRaw_31 _ _ _ (FV.enc_maj ..) (by unfold dec31; rw [FV.enc_fn]; exact congrArg (fun x => some (Instr.visub x)) (FV.dec_enc ..))⟩

theorem Encoding.vimul (f : FV) : Encoding.Statement (.vimul f) := by
  intro hw w h; cases h
  exact ⟨FV.enc_long .., decodeRaw_31 _ _ _ (FV.enc_maj ..) (by unfold dec31; rw [FV.enc_fn]; exact congrArg (fun x => some (Instr.vimul x)) (FV.dec_enc ..))⟩

theorem Encoding.viand (f : FV) : Encoding.Statement (.viand f) := by
  intro hw w h; cases h
  exact ⟨FV.enc_long .., decodeRaw_31 _ _ _ (FV.enc_maj ..) (by unfold dec31; rw [FV.enc_fn]; exact congrArg (fun x => some (Instr.viand x)) (FV.dec_enc ..))⟩

theorem Encoding.vior (f : FV) : Encoding.Statement (.vior f) := by
  intro hw w h; cases h
  exact ⟨FV.enc_long .., decodeRaw_31 _ _ _ (FV.enc_maj ..) (by unfold dec31; rw [FV.enc_fn]; exact congrArg (fun x => some (Instr.vior x)) (FV.dec_enc ..))⟩

theorem Encoding.vixor (f : FV) : Encoding.Statement (.vixor f) := by
  intro hw w h; cases h
  exact ⟨FV.enc_long .., decodeRaw_31 _ _ _ (FV.enc_maj ..) (by unfold dec31; rw [FV.enc_fn]; exact congrArg (fun x => some (Instr.vixor x)) (FV.dec_enc ..))⟩

theorem Encoding.vishl (f : FV) : Encoding.Statement (.vishl f) := by
  intro hw w h; cases h
  exact ⟨FV.enc_long .., decodeRaw_31 _ _ _ (FV.enc_maj ..) (by unfold dec31; rw [FV.enc_fn]; exact congrArg (fun x => some (Instr.vishl x)) (FV.dec_enc ..))⟩

theorem Encoding.vishr (f : FV) : Encoding.Statement (.vishr f) := by
  intro hw w h; cases h
  exact ⟨FV.enc_long .., decodeRaw_31 _ _ _ (FV.enc_maj ..) (by unfold dec31; rw [FV.enc_fn]; exact congrArg (fun x => some (Instr.vishr x)) (FV.dec_enc ..))⟩

theorem Encoding.vceq (f : FV) : Encoding.Statement (.vceq f) := by
  intro hw w h; cases h
  exact ⟨FV.enc_long .., decodeRaw_32 _ _ _ (FV.enc_maj ..) (by unfold dec32; rw [FV.enc_fn]; exact congrArg (fun x => some (Instr.vceq x)) (FV.dec_enc ..))⟩

theorem Encoding.vclt (f : FV) : Encoding.Statement (.vclt f) := by
  intro hw w h; cases h
  exact ⟨FV.enc_long .., decodeRaw_32 _ _ _ (FV.enc_maj ..) (by unfold dec32; rw [FV.enc_fn]; exact congrArg (fun x => some (Instr.vclt x)) (FV.dec_enc ..))⟩

theorem Encoding.vcle (f : FV) : Encoding.Statement (.vcle f) := by
  intro hw w h; cases h
  exact ⟨FV.enc_long .., decodeRaw_32 _ _ _ (FV.enc_maj ..) (by unfold dec32; rw [FV.enc_fn]; exact congrArg (fun x => some (Instr.vcle x)) (FV.dec_enc ..))⟩

theorem Encoding.viceq (f : FV) : Encoding.Statement (.viceq f) := by
  intro hw w h; cases h
  exact ⟨FV.enc_long .., decodeRaw_32 _ _ _ (FV.enc_maj ..) (by unfold dec32; rw [FV.enc_fn]; exact congrArg (fun x => some (Instr.viceq x)) (FV.dec_enc ..))⟩

theorem Encoding.vilt (f : FV) : Encoding.Statement (.vilt f) := by
  intro hw w h; cases h
  exact ⟨FV.enc_long .., decodeRaw_32 _ _ _ (FV.enc_maj ..) (by unfold dec32; rw [FV.enc_fn]; exact congrArg (fun x => some (Instr.vilt x)) (FV.dec_enc ..))⟩

theorem Encoding.vsel (f : FV) : Encoding.Statement (.vsel f) := by
  intro hw w h; cases h
  exact ⟨FV.enc_long .., decodeRaw_33 _ _ _ (FV.enc_maj ..) (by unfold dec33; rw [FV.enc_fn]; exact congrArg (fun x => some (Instr.vsel x)) (FV.dec_enc ..))⟩

theorem Encoding.vmov (f : FV) : Encoding.Statement (.vmov f) := by
  intro hw w h; cases h
  exact ⟨FV.enc_long .., decodeRaw_33 _ _ _ (FV.enc_maj ..) (by unfold dec33; rw [FV.enc_fn]; exact congrArg (fun x => some (Instr.vmov x)) (FV.dec_enc ..))⟩

theorem Encoding.vsplat (f : FV) : Encoding.Statement (.vsplat f) := by
  intro hw w h; cases h
  exact ⟨FV.enc_long .., decodeRaw_33 _ _ _ (FV.enc_maj ..) (by unfold dec33; rw [FV.enc_fn]; exact congrArg (fun x => some (Instr.vsplat x)) (FV.dec_enc ..))⟩

theorem Encoding.vquant (f : FV) : Encoding.Statement (.vquant f) := by
  intro hw w h; cases h
  exact ⟨FV.enc_long .., decodeRaw_34 _ _ _ (FV.enc_maj ..) (by unfold dec34; rw [FV.enc_fn]; exact congrArg (fun x => some (Instr.vquant x)) (FV.dec_enc ..))⟩

theorem Encoding.vdequant (f : FV) : Encoding.Statement (.vdequant f) := by
  intro hw w h; cases h
  exact ⟨FV.enc_long .., decodeRaw_34 _ _ _ (FV.enc_maj ..) (by unfold dec34; rw [FV.enc_fn]; exact congrArg (fun x => some (Instr.vdequant x)) (FV.dec_enc ..))⟩

theorem Encoding.vftoi (f : FV) : Encoding.Statement (.vftoi f) := by
  intro hw w h; cases h
  exact ⟨FV.enc_long .., decodeRaw_34 _ _ _ (FV.enc_maj ..) (by unfold dec34; rw [FV.enc_fn]; exact congrArg (fun x => some (Instr.vftoi x)) (FV.dec_enc ..))⟩

theorem Encoding.vitof (f : FV) : Encoding.Statement (.vitof f) := by
  intro hw w h; cases h
  exact ⟨FV.enc_long .., decodeRaw_34 _ _ _ (FV.enc_maj ..) (by unfold dec34; rw [FV.enc_fn]; exact congrArg (fun x => some (Instr.vitof x)) (FV.dec_enc ..))⟩

theorem Encoding.vexp2 (f : FV) : Encoding.Statement (.vexp2 f) := by
  intro hw w h; cases h
  exact ⟨FV.enc_long .., decodeRaw_35 _ _ _ (FV.enc_maj ..) (by unfold dec35; rw [FV.enc_fn]; exact congrArg (fun x => some (Instr.vexp2 x)) (FV.dec_enc ..))⟩

theorem Encoding.vexp2d (f : FV) : Encoding.Statement (.vexp2d f) := by
  intro hw w h; cases h
  exact ⟨FV.enc_long .., decodeRaw_35 _ _ _ (FV.enc_maj ..) (by unfold dec35; rw [FV.enc_fn]; exact congrArg (fun x => some (Instr.vexp2d x)) (FV.dec_enc ..))⟩

theorem Encoding.vlog2 (f : FV) : Encoding.Statement (.vlog2 f) := by
  intro hw w h; cases h
  exact ⟨FV.enc_long .., decodeRaw_35 _ _ _ (FV.enc_maj ..) (by unfold dec35; rw [FV.enc_fn]; exact congrArg (fun x => some (Instr.vlog2 x)) (FV.dec_enc ..))⟩

theorem Encoding.vrcpSeed (f : FV) : Encoding.Statement (.vrcpSeed f) := by
  intro hw w h; cases h
  exact ⟨FV.enc_long .., decodeRaw_35 _ _ _ (FV.enc_maj ..) (by unfold dec35; rw [FV.enc_fn]; exact congrArg (fun x => some (Instr.vrcpSeed x)) (FV.dec_enc ..))⟩

theorem Encoding.vrsqSeed (f : FV) : Encoding.Statement (.vrsqSeed f) := by
  intro hw w h; cases h
  exact ⟨FV.enc_long .., decodeRaw_35 _ _ _ (FV.enc_maj ..) (by unfold dec35; rw [FV.enc_fn]; exact congrArg (fun x => some (Instr.vrsqSeed x)) (FV.dec_enc ..))⟩

theorem Encoding.vrotr (f : FV) : Encoding.Statement (.vrotr f) := by
  intro hw w h; cases h
  have hc : f.ax = 0 := eq_of_beq (left hw)
  exact ⟨FV.enc_long .., decodeRaw_36 _ _ _ (FV.enc_maj ..)
    (by unfold dec36; rw [FV.enc_fn, FV.axis_bit, hc]; exact congrArg (fun x => some (Instr.vrotr x)) (FV.dec_enc ..))⟩

theorem Encoding.vrotc (f : FV) : Encoding.Statement (.vrotc f) := by
  intro hw w h; cases h
  have hc : f.ax = 1 := eq_of_beq (left hw)
  exact ⟨FV.enc_long .., decodeRaw_36 _ _ _ (FV.enc_maj ..)
    (by unfold dec36; rw [FV.enc_fn, FV.axis_bit, hc]; exact congrArg (fun x => some (Instr.vrotc x)) (FV.dec_enc ..))⟩

theorem Encoding.vbcastr (f : FV) : Encoding.Statement (.vbcastr f) := by
  intro hw w h; cases h
  have hc : f.ax = 0 := eq_of_beq (left hw)
  exact ⟨FV.enc_long .., decodeRaw_36 _ _ _ (FV.enc_maj ..)
    (by unfold dec36; rw [FV.enc_fn, FV.axis_bit, hc]; exact congrArg (fun x => some (Instr.vbcastr x)) (FV.dec_enc ..))⟩

theorem Encoding.vbcastc (f : FV) : Encoding.Statement (.vbcastc f) := by
  intro hw w h; cases h
  have hc : f.ax = 1 := eq_of_beq (left hw)
  exact ⟨FV.enc_long .., decodeRaw_36 _ _ _ (FV.enc_maj ..)
    (by unfold dec36; rw [FV.enc_fn, FV.axis_bit, hc]; exact congrArg (fun x => some (Instr.vbcastc x)) (FV.dec_enc ..))⟩

theorem Encoding.vredr (f : FV) : Encoding.Statement (.vredr f) := by
  intro hw w h; cases h
  have hc : f.ax = 0 := eq_of_beq (left hw)
  exact ⟨FV.enc_long .., decodeRaw_36 _ _ _ (FV.enc_maj ..)
    (by unfold dec36; rw [FV.enc_fn, FV.axis_bit, hc]; exact congrArg (fun x => some (Instr.vredr x)) (FV.dec_enc ..))⟩

theorem Encoding.vredc (f : FV) : Encoding.Statement (.vredc f) := by
  intro hw w h; cases h
  have hc : f.ax = 1 := eq_of_beq (left hw)
  exact ⟨FV.enc_long .., decodeRaw_36 _ _ _ (FV.enc_maj ..)
    (by unfold dec36; rw [FV.enc_fn, FV.axis_bit, hc]; exact congrArg (fun x => some (Instr.vredc x)) (FV.dec_enc ..))⟩

theorem Encoding.vscanr (f : FV) : Encoding.Statement (.vscanr f) := by
  intro hw w h; cases h
  have hc : f.ax = 0 := eq_of_beq (left hw)
  exact ⟨FV.enc_long .., decodeRaw_36 _ _ _ (FV.enc_maj ..)
    (by unfold dec36; rw [FV.enc_fn, FV.axis_bit, hc]; exact congrArg (fun x => some (Instr.vscanr x)) (FV.dec_enc ..))⟩

theorem Encoding.vscanc (f : FV) : Encoding.Statement (.vscanc f) := by
  intro hw w h; cases h
  have hc : f.ax = 1 := eq_of_beq (left hw)
  exact ⟨FV.enc_long .., decodeRaw_36 _ _ _ (FV.enc_maj ..)
    (by unfold dec36; rw [FV.enc_fn, FV.axis_bit, hc]; exact congrArg (fun x => some (Instr.vscanc x)) (FV.dec_enc ..))⟩

theorem Encoding.mand (f : FV) : Encoding.Statement (.mand f) := by
  intro hw w h; cases h
  exact ⟨FV.enc_long .., decodeRaw_37 _ _ _ (FV.enc_maj ..) (by unfold dec37; rw [FV.enc_fn]; exact congrArg (fun x => some (Instr.mand x)) (FV.dec_enc ..))⟩

theorem Encoding.mor (f : FV) : Encoding.Statement (.mor f) := by
  intro hw w h; cases h
  exact ⟨FV.enc_long .., decodeRaw_37 _ _ _ (FV.enc_maj ..) (by unfold dec37; rw [FV.enc_fn]; exact congrArg (fun x => some (Instr.mor x)) (FV.dec_enc ..))⟩

theorem Encoding.mxor (f : FV) : Encoding.Statement (.mxor f) := by
  intro hw w h; cases h
  exact ⟨FV.enc_long .., decodeRaw_37 _ _ _ (FV.enc_maj ..) (by unfold dec37; rw [FV.enc_fn]; exact congrArg (fun x => some (Instr.mxor x)) (FV.dec_enc ..))⟩

theorem Encoding.mandn (f : FV) : Encoding.Statement (.mandn f) := by
  intro hw w h; cases h
  exact ⟨FV.enc_long .., decodeRaw_37 _ _ _ (FV.enc_maj ..) (by unfold dec37; rw [FV.enc_fn]; exact congrArg (fun x => some (Instr.mandn x)) (FV.dec_enc ..))⟩

theorem Encoding.vany (f : FV) : Encoding.Statement (.vany f) := by
  intro hw w h; cases h
  exact ⟨FV.enc_long .., decodeRaw_37 _ _ _ (FV.enc_maj ..) (by unfold dec37; rw [FV.enc_fn]; exact congrArg (fun x => some (Instr.vany x)) (FV.dec_enc ..))⟩

theorem Encoding.vall (f : FV) : Encoding.Statement (.vall f) := by
  intro hw w h; cases h
  exact ⟨FV.enc_long .., decodeRaw_37 _ _ _ (FV.enc_maj ..) (by unfold dec37; rw [FV.enc_fn]; exact congrArg (fun x => some (Instr.vall x)) (FV.dec_enc ..))⟩

theorem Encoding.mpop (f : FV) : Encoding.Statement (.mpop f) := by
  intro hw w h; cases h
  exact ⟨FV.enc_long .., decodeRaw_37 _ _ _ (FV.enc_maj ..) (by unfold dec37; rw [FV.enc_fn]; exact congrArg (fun x => some (Instr.mpop x)) (FV.dec_enc ..))⟩

theorem Encoding.vflag (f : FV) : Encoding.Statement (.vflag f) := by
  intro hw w h; cases h
  exact ⟨FV.enc_long .., decodeRaw_38 _ _ _ (FV.enc_maj ..) (by unfold dec38; rw [FV.enc_fn]; exact congrArg (fun x => some (Instr.vflag x)) (FV.dec_enc ..))⟩

theorem Encoding.vflagclr (f : FV) : Encoding.Statement (.vflagclr f) := by
  intro hw w h; cases h
  exact ⟨FV.enc_long .., decodeRaw_38 _ _ _ (FV.enc_maj ..) (by unfold dec38; rw [FV.enc_fn]; exact congrArg (fun x => some (Instr.vflagclr x)) (FV.dec_enc ..))⟩

theorem Encoding.vpop (f : FV) : Encoding.Statement (.vpop f) := by
  intro hw w h; cases h
  exact ⟨FV.enc_long .., decodeRaw_39 _ _ _ (FV.enc_maj ..) (by unfold dec39; rw [FV.enc_fn]; exact congrArg (fun x => some (Instr.vpop x)) (FV.dec_enc ..))⟩

theorem Encoding.vpush (f : FV) : Encoding.Statement (.vpush f) := by
  intro hw w h; cases h
  exact ⟨FV.enc_long .., decodeRaw_39 _ _ _ (FV.enc_maj ..) (by unfold dec39; rw [FV.enc_fn]; exact congrArg (fun x => some (Instr.vpush x)) (FV.dec_enc ..))⟩

theorem Encoding.vget (f : FV) : Encoding.Statement (.vget f) := by
  intro hw w h; cases h
  exact ⟨FV.enc_long .., decodeRaw_3A _ _ _ (FV.enc_maj ..) (by unfold dec3A; rw [FV.enc_fn]; exact congrArg (fun x => some (Instr.vget x)) (FV.dec_enc ..))⟩

theorem Encoding.vput (f : FV) : Encoding.Statement (.vput f) := by
  intro hw w h; cases h
  exact ⟨FV.enc_long .., decodeRaw_3A _ _ _ (FV.enc_maj ..) (by unfold dec3A; rw [FV.enc_fn]; exact congrArg (fun x => some (Instr.vput x)) (FV.dec_enc ..))⟩

theorem Encoding.exposedWriteLand (c : CoreId) (b : BankId) : Encoding.Statement (.exposedWriteLand c b) := by
  intro _ w h; cases h

theorem Encoding.mmul (f : FM) : Encoding.Statement (.mmul f) := by
  intro hw w h; cases h
  exact ⟨FM.enc_long .., decodeRaw_40 _ _ _ (FM.enc_maj ..) (by unfold dec40; rw [FM.enc_fn]; exact congrArg (fun x => some (Instr.mmul x)) (FM.dec_enc ..))⟩

theorem Encoding.mswap (f : FM) : Encoding.Statement (.mswap f) := by
  intro hw w h; cases h
  exact ⟨FM.enc_long .., decodeRaw_41 _ _ _ (FM.enc_maj ..) (by unfold dec41; rw [FM.enc_fn]; exact congrArg (fun x => some (Instr.mswap x)) (FM.dec_enc ..))⟩

theorem Encoding.mrank (f : FM) : Encoding.Statement (.mrank f) := by
  intro hw w h; cases h
  exact ⟨FM.enc_long .., decodeRaw_42 _ _ _ (FM.enc_maj ..) (by unfold dec42; rw [FM.enc_fn]; exact congrArg (fun x => some (Instr.mrank x)) (FM.dec_enc ..))⟩

theorem Encoding.mzero (f : FM) : Encoding.Statement (.mzero f) := by
  intro hw w h; cases h
  exact ⟨FM.enc_long .., decodeRaw_43 _ _ _ (FM.enc_maj ..) (by unfold dec43; rw [FM.enc_fn]; exact congrArg (fun x => some (Instr.mzero x)) (FM.dec_enc ..))⟩

theorem Encoding.mread (f : FM) : Encoding.Statement (.mread f) := by
  intro hw w h; cases h
  exact ⟨FM.enc_long .., decodeRaw_44 _ _ _ (FM.enc_maj ..) (by unfold dec44; rw [FM.enc_fn]; exact congrArg (fun x => some (Instr.mread x)) (FM.dec_enc ..))⟩

theorem Encoding.mclose (f : FM) : Encoding.Statement (.mclose f) := by
  intro hw w h; cases h
  exact ⟨FM.enc_long .., decodeRaw_45 _ _ _ (FM.enc_maj ..) (by unfold dec45; rw [FM.enc_fn]; exact congrArg (fun x => some (Instr.mclose x)) (FM.dec_enc ..))⟩

theorem Encoding.mwait (f : FM) : Encoding.Statement (.mwait f) := by
  intro hw w h; cases h
  exact ⟨FM.enc_long .., decodeRaw_45 _ _ _ (FM.enc_maj ..) (by unfold dec45; rw [FM.enc_fn]; exact congrArg (fun x => some (Instr.mwait x)) (FM.dec_enc ..))⟩

theorem Encoding.mstat (f : FM) : Encoding.Statement (.mstat f) := by
  intro hw w h; cases h
  exact ⟨FM.enc_long .., decodeRaw_46 _ _ _ (FM.enc_maj ..) (by unfold dec46; rw [FM.enc_fn]; exact congrArg (fun x => some (Instr.mstat x)) (FM.dec_enc ..))⟩

theorem Encoding.fmtw (f : RRR) : Encoding.Statement (.fmtw f) := by
  intro hw w h; cases h
  exact ⟨RRR.enc_long .., decodeRaw_47 _ _ _ (RRR.enc_maj ..) (by unfold dec47; rw [RRR.enc_fn]; exact congrArg (fun x => some (Instr.fmtw x)) (RRR.dec_enc ..))⟩

theorem Encoding.fmtr (f : RRR) : Encoding.Statement (.fmtr f) := by
  intro hw w h; cases h
  exact ⟨RRR.enc_long .., decodeRaw_47 _ _ _ (RRR.enc_maj ..) (by unfold dec47; rw [RRR.enc_fn]; exact congrArg (fun x => some (Instr.fmtr x)) (RRR.dec_enc ..))⟩

theorem Encoding.aecfg (f : RRR) : Encoding.Statement (.aecfg f) := by
  intro hw w h; cases h
  exact ⟨RRR.enc_long .., decodeRaw_48 _ _ _ (RRR.enc_maj ..) (by unfold dec48; rw [RRR.enc_fn]; exact congrArg (fun x => some (Instr.aecfg x)) (RRR.dec_enc ..))⟩

theorem Encoding.aerun (f : RRR) : Encoding.Statement (.aerun f) := by
  intro hw w h; cases h
  exact ⟨RRR.enc_long .., decodeRaw_49 _ _ _ (RRR.enc_maj ..) (by unfold dec49; rw [RRR.enc_fn]; exact congrArg (fun x => some (Instr.aerun x)) (RRR.dec_enc ..))⟩

theorem Encoding.aeread (f : RRR) : Encoding.Statement (.aeread f) := by
  intro hw w h; cases h
  exact ⟨RRR.enc_long .., decodeRaw_4A _ _ _ (RRR.enc_maj ..) (by unfold dec4A; rw [RRR.enc_fn]; exact congrArg (fun x => some (Instr.aeread x)) (RRR.dec_enc ..))⟩

theorem Encoding.strow (f : FQ) : Encoding.Statement (.strow f) := by
  intro hw w h; cases h
  exact ⟨FQ.enc_long .., decodeRaw_50 _ _ _ (FQ.enc_maj ..) (by unfold dec50; rw [FQ.enc_fn]; exact congrArg (fun x => some (Instr.strow x)) (FQ.dec_enc ..))⟩

theorem Encoding.stword (f : FQ) : Encoding.Statement (.stword f) := by
  intro hw w h; cases h
  exact ⟨FQ.enc_long .., decodeRaw_50 _ _ _ (FQ.enc_maj ..) (by unfold dec50; rw [FQ.enc_fn]; exact congrArg (fun x => some (Instr.stword x)) (FQ.dec_enc ..))⟩

theorem Encoding.scatter (f : FQ) : Encoding.Statement (.scatter f) := by
  intro hw w h; cases h
  exact ⟨FQ.enc_long .., decodeRaw_51 _ _ _ (FQ.enc_maj ..) (by unfold dec51; rw [FQ.enc_fn]; exact congrArg (fun x => some (Instr.scatter x)) (FQ.dec_enc ..))⟩

theorem Encoding.strc (f : FQ) : Encoding.Statement (.strc f) := by
  intro hw w h; cases h
  exact ⟨FQ.enc_long .., decodeRaw_52 _ _ _ (FQ.enc_maj ..) (by unfold dec52; rw [FQ.enc_fn]; exact congrArg (fun x => some (Instr.strc x)) (FQ.dec_enc ..))⟩

theorem Encoding.rstore (f : FQ) : Encoding.Statement (.rstore f) := by
  intro hw w h; cases h
  exact ⟨FQ.enc_long .., decodeRaw_53 _ _ _ (FQ.enc_maj ..) (by unfold dec53; rw [FQ.enc_fn]; exact congrArg (fun x => some (Instr.rstore x)) (FQ.dec_enc ..))⟩

theorem Encoding.ratom (f : FQ) : Encoding.Statement (.ratom f) := by
  intro hw w h; cases h
  exact ⟨FQ.enc_long .., decodeRaw_53 _ _ _ (FQ.enc_maj ..) (by unfold dec53; rw [FQ.enc_fn]; exact congrArg (fun x => some (Instr.ratom x)) (FQ.dec_enc ..))⟩

theorem Encoding.obind (f : FQ) : Encoding.Statement (.obind f) := by
  intro hw w h; cases h
  exact ⟨FQ.enc_long .., decodeRaw_54 _ _ _ (FQ.enc_maj ..) (by unfold dec54; rw [FQ.enc_fn]; exact congrArg (fun x => some (Instr.obind x)) (FQ.dec_enc ..))⟩

theorem Encoding.ostop (f : FQ) : Encoding.Statement (.ostop f) := by
  intro hw w h; cases h
  exact ⟨FQ.enc_long .., decodeRaw_54 _ _ _ (FQ.enc_maj ..) (by unfold dec54; rw [FQ.enc_fn]; exact congrArg (fun x => some (Instr.ostop x)) (FQ.dec_enc ..))⟩

theorem Encoding.csrr (f : RI) : Encoding.Statement (.csrr f) := by
  intro hw w h; cases h
  have hc : csrRead f = .csrr f := by
    have h : (f.imm == 0x012) = false := Bool.eq_false_of_not_eq_true (by have := right hw; simpa using this)
    unfold csrRead
    rw [h]
    rfl
  refine ⟨RI.enc_long .., decodeRaw_60 _ _ _ (RI.enc_maj ..) ?_⟩
  show some (csrRead (RI.dec (f.enc 0x60) f.e)) = _
  rw [RI.dec_enc, hc]

theorem Encoding.csrw (f : RI) : Encoding.Statement (.csrw f) := by
  intro hw w h; cases h
  have hc : csrWrite f = .csrw f := by
    have h : csrSpecial f.imm.toNat = false := Bool.not_eq_true' _ ▸ right hw
    simp only [csrSpecial, Bool.or_eq_false_iff] at h
    obtain ⟨⟨⟨⟨h1, h2⟩, h3⟩, h4⟩, h5⟩ := h
    unfold csrWrite
    dsimp only
    rw [h1, h2, h3, h4, h5]
    rfl
  refine ⟨RI.enc_long .., decodeRaw_61 _ _ _ (RI.enc_maj ..) ?_⟩
  show some (csrWrite (RI.dec (f.enc 0x61) f.e)) = _
  rw [RI.dec_enc, hc]

theorem Encoding.cwinWrite (f : RI) : Encoding.Statement (.cwinWrite f) := by
  intro hw w h; cases h
  have hc : csrWrite f = .cwinWrite f := by
    have h : isCwin f.imm.toNat = true := right hw
    have h' := h
    simp only [isCwin, Bool.and_eq_true, decide_eq_true_eq] at h'
    unfold csrWrite
    have h1 : (f.imm.toNat == 0x002) = false := by rw [beq_eq_false_iff_ne]; omega
    dsimp only
    rw [h1, h]
    rfl
  refine ⟨RI.enc_long .., decodeRaw_61 _ _ _ (RI.enc_maj ..) ?_⟩
  show some (csrWrite (RI.dec (f.enc 0x61) f.e)) = _
  rw [RI.dec_enc, hc]

theorem Encoding.qmapWrite (f : RI) : Encoding.Statement (.qmapWrite f) := by
  intro hw w h; cases h
  have hc : csrWrite f = .qmapWrite f := by
    have h : f.imm = 0x002 := eq_of_beq (right hw)
    unfold csrWrite
    rw [h]
    rfl
  refine ⟨RI.enc_long .., decodeRaw_61 _ _ _ (RI.enc_maj ..) ?_⟩
  show some (csrWrite (RI.dec (f.enc 0x61) f.e)) = _
  rw [RI.dec_enc, hc]

theorem Encoding.flogdatRead (f : RI) : Encoding.Statement (.flogdatRead f) := by
  intro hw w h; cases h
  have hc : csrRead f = .flogdatRead f := by
    have h : f.imm = 0x012 := eq_of_beq (right hw)
    unfold csrRead
    rw [h]
    rfl
  refine ⟨RI.enc_long .., decodeRaw_60 _ _ _ (RI.enc_maj ..) ?_⟩
  show some (csrRead (RI.dec (f.enc 0x60) f.e)) = _
  rw [RI.dec_enc, hc]

theorem Encoding.wsrangeWrite (f : RI) : Encoding.Statement (.wsrangeWrite f) := by
  intro hw w h; cases h
  have hc : csrWrite f = .wsrangeWrite f := by
    have h : f.imm = 0x104 := eq_of_beq (right hw)
    unfold csrWrite
    rw [h]
    rfl
  refine ⟨RI.enc_long .., decodeRaw_61 _ _ _ (RI.enc_maj ..) ?_⟩
  show some (csrWrite (RI.dec (f.enc 0x61) f.e)) = _
  rw [RI.dec_enc, hc]

theorem Encoding.pfblockWrite (f : RI) : Encoding.Statement (.pfblockWrite f) := by
  intro hw w h; cases h
  have hc : csrWrite f = .pfblockWrite f := by
    have h : f.imm = 0x202 := eq_of_beq (right hw)
    unfold csrWrite
    rw [h]
    rfl
  refine ⟨RI.enc_long .., decodeRaw_61 _ _ _ (RI.enc_maj ..) ?_⟩
  show some (csrWrite (RI.dec (f.enc 0x61) f.e)) = _
  rw [RI.dec_enc, hc]

theorem Encoding.wpcWrite (f : RI) : Encoding.Statement (.wpcWrite f) := by
  intro hw w h; cases h
  have hc : csrWrite f = .wpcWrite f := by
    have h : isWpc f.imm.toNat = true := right hw
    have h' := h
    simp only [isWpc, Bool.and_eq_true, decide_eq_true_eq] at h'
    unfold csrWrite
    have h1 : (f.imm.toNat == 0x002) = false := by rw [beq_eq_false_iff_ne]; omega
    have h2 : isCwin f.imm.toNat = false := by
      simp only [isCwin, Bool.and_eq_false_iff, decide_eq_false_iff_not]; omega
    have h3 : (f.imm.toNat == 0x104) = false := by rw [beq_eq_false_iff_ne]; omega
    have h4 : (f.imm.toNat == 0x202) = false := by rw [beq_eq_false_iff_ne]; omega
    dsimp only
    rw [h1, h2, h3, h4, h]
    rfl
  refine ⟨RI.enc_long .., decodeRaw_61 _ _ _ (RI.enc_maj ..) ?_⟩
  show some (csrWrite (RI.dec (f.enc 0x61) f.e)) = _
  rw [RI.dec_enc, hc]

theorem Encoding.trap (f : RI) : Encoding.Statement (.trap f) := by
  intro hw w h; cases h
  exact ⟨RI.enc_long .., decodeRaw_62 _ _ _ (RI.enc_maj ..) (congrArg (fun x => some (Instr.trap x)) (RI.dec_enc ..))⟩

theorem Encoding.resume (f : RRR) : Encoding.Statement (.resume f) := by
  intro hw w h; cases h
  exact ⟨RRR.enc_long .., decodeRaw_63 _ _ _ (RRR.enc_maj ..) (by unfold dec63; rw [RRR.enc_fn]; exact congrArg (fun x => some (Instr.resume x)) (RRR.dec_enc ..))⟩

theorem Encoding.tlbinv (f : RRR) : Encoding.Statement (.tlbinv f) := by
  intro hw w h; cases h
  exact ⟨RRR.enc_long .., decodeRaw_64 _ _ _ (RRR.enc_maj ..) (by unfold dec64; rw [RRR.enc_fn]; exact congrArg (fun x => some (Instr.tlbinv x)) (RRR.dec_enc ..))⟩

theorem Encoding.icinv (f : RRR) : Encoding.Statement (.icinv f) := by
  intro hw w h; cases h
  exact ⟨RRR.enc_long .., decodeRaw_65 _ _ _ (RRR.enc_maj ..) (by unfold dec65; rw [RRR.enc_fn]; exact congrArg (fun x => some (Instr.icinv x)) (RRR.dec_enc ..))⟩

theorem Encoding.rqrd (f : RRR) : Encoding.Statement (.rqrd f) := by
  intro hw w h; cases h
  exact ⟨RRR.enc_long .., decodeRaw_66 _ _ _ (RRR.enc_maj ..) (by unfold dec66; rw [RRR.enc_fn]; exact congrArg (fun x => some (Instr.rqrd x)) (RRR.dec_enc ..))⟩

theorem Encoding.rqwr (f : RRR) : Encoding.Statement (.rqwr f) := by
  intro hw w h; cases h
  exact ⟨RRR.enc_long .., decodeRaw_66 _ _ _ (RRR.enc_maj ..) (by unfold dec66; rw [RRR.enc_fn]; exact congrArg (fun x => some (Instr.rqwr x)) (RRR.dec_enc ..))⟩

theorem Encoding.pgmap (f : RRR) : Encoding.Statement (.pgmap f) := by
  intro hw w h; cases h
  exact ⟨RRR.enc_long .., decodeRaw_67 _ _ _ (RRR.enc_maj ..) (by unfold dec67; rw [RRR.enc_fn]; exact congrArg (fun x => some (Instr.pgmap x)) (RRR.dec_enc ..))⟩

theorem Encoding.pgdone (f : RRR) : Encoding.Statement (.pgdone f) := by
  intro hw w h; cases h
  exact ⟨RRR.enc_long .., decodeRaw_67 _ _ _ (RRR.enc_maj ..) (by unfold dec67; rw [RRR.enc_fn]; exact congrArg (fun x => some (Instr.pgdone x)) (RRR.dec_enc ..))⟩

theorem Encoding.brk (f : RI) : Encoding.Statement (.brk f) := by
  intro hw w h; cases h
  exact ⟨RI.enc_long .., decodeRaw_68 _ _ _ (RI.enc_maj ..) (congrArg (fun x => some (Instr.brk x)) (RI.dec_enc ..))⟩

theorem Encoding.illegalInstruction (w : W32) : Encoding.Statement (.illegalInstruction w) := by
  intro _ w h; cases h

theorem Encoding.impreciseTrap (c : CoreId) : Encoding.Statement (.impreciseTrap c) := by
  intro _ w h; cases h

theorem Encoding.registerWriteLand (c : CoreId) (b : BankId) (q : SeqId) : Encoding.Statement (.registerWriteLand c b q) := by
  intro _ w h; cases h

theorem Encoding.stepCountExpire (c : CoreId) : Encoding.Statement (.stepCountExpire c) := by
  intro _ w h; cases h

theorem Encoding.tbskewMeasure (d : DieId) (ps : BitVec 64) : Encoding.Statement (.tbskewMeasure d ps) := by
  intro _ w h; cases h

theorem Encoding.fetchLineArrive (c : CoreId) (b : BankId) (q : SeqId) : Encoding.Statement (.fetchLineArrive c b q) := by
  intro _ w h; cases h

theorem Encoding.parkedRelease (c : CoreId) : Encoding.Statement (.parkedRelease c) := by
  intro _ w h; cases h

theorem Encoding.drain (a : Nat) : Encoding.Statement (.drain a) := by
  intro _ w h; cases h

theorem Encoding.apply (k : Nat) : Encoding.Statement (.apply k) := by
  intro _ w h; cases h

theorem Encoding.deliver (k : Nat) : Encoding.Statement (.deliver k) := by
  intro _ w h; cases h

theorem Encoding.copyEngineStart (c : CoreId) : Encoding.Statement (.copyEngineStart c) := by
  intro _ w h; cases h

theorem Encoding.streamElementPush (c : CoreId) (k : Fin 8) : Encoding.Statement (.streamElementPush c k) := by
  intro _ w h; cases h

theorem Encoding.gatherRowDeliver (c : CoreId) (id pos : Nat) : Encoding.Statement (.gatherRowDeliver c id pos) := by
  intro _ w h; cases h

theorem Encoding.copyComplete (c : CoreId) (id : Nat) : Encoding.Statement (.copyComplete c id) := by
  intro _ w h; cases h

theorem Encoding.followonPlace (c : CoreId) (id : Nat) : Encoding.Statement (.followonPlace c id) := by
  intro _ w h; cases h

theorem Encoding.matrixCmdStart (c : CoreId) : Encoding.Statement (.matrixCmdStart c) := by
  intro _ w h; cases h

theorem Encoding.matrixRowPop (c : CoreId) : Encoding.Statement (.matrixRowPop c) := by
  intro _ w h; cases h

theorem Encoding.matrixContributionLand (c : CoreId) : Encoding.Statement (.matrixContributionLand c) := by
  intro _ w h; cases h

theorem Encoding.matrixOpComplete (c : CoreId) : Encoding.Statement (.matrixOpComplete c) := by
  intro _ w h; cases h

theorem Encoding.wloadComplete (c : CoreId) : Encoding.Statement (.wloadComplete c) := by
  intro _ w h; cases h

theorem Encoding.ostreamElementWrite (c : CoreId) (k : Fin 8) : Encoding.Statement (.ostreamElementWrite c k) := by
  intro _ w h; cases h

theorem Encoding.lamplighterApply (u : CluId) : Encoding.Statement (.lamplighterApply u) := by
  intro _ w h; cases h

theorem Encoding.aeRunStart (u : CluId) : Encoding.Statement (.aeRunStart u) := by
  intro _ w h; cases h

theorem Encoding.aeRunComplete (u : CluId) : Encoding.Statement (.aeRunComplete u) := by
  intro _ w h; cases h

theorem Encoding.combineFlushTimeout (c : CoreId) : Encoding.Statement (.combineFlushTimeout c) := by
  intro _ w h; cases h

theorem Encoding.remoteAck (c : CoreId) : Encoding.Statement (.remoteAck c) := by
  intro _ w h; cases h

theorem Encoding.ratomReply (c : CoreId) : Encoding.Statement (.ratomReply c) := by
  intro _ w h; cases h

theorem Encoding.remoteRequestArrive (k : Nat) (peer : Option PeerReq) : Encoding.Statement (.remoteRequestArrive k peer) := by
  intro _ w h; cases h

theorem Encoding.peerLaunch (node : BitVec 16) (addr : BitVec 64) (row : List Byte) : Encoding.Statement (.peerLaunch node addr row) := by
  intro _ w h; cases h

theorem Encoding.flitReceive (lk : LinkId) (crcOk : Bool) : Encoding.Statement (.flitReceive lk crcOk) := by
  intro _ w h; cases h

theorem Encoding.nakReceive (lk : LinkId) : Encoding.Statement (.nakReceive lk) := by
  intro _ w h; cases h

theorem Encoding.ackOnlyFlit (lk : LinkId) : Encoding.Statement (.ackOnlyFlit lk) := by
  intro _ w h; cases h

theorem Encoding.laneFailure (lk : LinkId) (beyondRepair : Bool) : Encoding.Statement (.laneFailure lk beyondRepair) := by
  intro _ w h; cases h

theorem Encoding.retrainComplete (lk : LinkId) (ok : Bool) : Encoding.Statement (.retrainComplete lk ok) := by
  intro _ w h; cases h

theorem Encoding.requestGiveUp (c : CoreId) : Encoding.Statement (.requestGiveUp c) := by
  intro _ w h; cases h

theorem Encoding.holderFenceTimeout (d : DieId) : Encoding.Statement (.holderFenceTimeout d) := by
  intro _ w h; cases h

theorem Encoding.liveLineEvict (row : Nat) : Encoding.Statement (.liveLineEvict row) := by
  intro _ w h; cases h

theorem Encoding.fillStallResume (d : DieId) : Encoding.Statement (.fillStallResume d) := by
  intro _ w h; cases h

theorem Encoding.countedFullTimeout (d : DieId) : Encoding.Statement (.countedFullTimeout d) := by
  intro _ w h; cases h

theorem Encoding.parityRepair (c : CoreId) (b : BankId) (q : SeqId) (file index : Nat) (captureOk : Bool) : Encoding.Statement (.parityRepair c b q file index captureOk) := by
  intro _ w h; cases h

theorem Encoding.dispatch (d : DieId) : Encoding.Statement (.dispatch d) := by
  intro _ w h; cases h

theorem Encoding.bankActivate (c : CoreId) : Encoding.Statement (.bankActivate c) := by
  intro _ w h; cases h

theorem Encoding.killComplete (c : CoreId) (b : BankId) : Encoding.Statement (.killComplete c b) := by
  intro _ w h; cases h

theorem Encoding.preemptCheckpoint (c : CoreId) (b : BankId) : Encoding.Statement (.preemptCheckpoint c b) := by
  intro _ w h; cases h

theorem Encoding.saveCommit (c : CoreId) (b : BankId) : Encoding.Statement (.saveCommit c b) := by
  intro _ w h; cases h

theorem Encoding.restore (c : CoreId) (b : BankId) : Encoding.Statement (.restore c b) := by
  intro _ w h; cases h

theorem Encoding.workSteal (d : DieId) : Encoding.Statement (.workSteal d) := by
  intro _ w h; cases h

theorem Encoding.streamTlbPrefetch (c : CoreId) (out : Bool) (va : BitVec 64) : Encoding.Statement (.streamTlbPrefetch c out va) := by
  intro _ w h; cases h

theorem Encoding.unitFence (u : FUnit) (cls : Nat) (addr : BitVec 64) : Encoding.Statement (.unitFence u cls addr) := by
  intro _ w h; cases h

theorem Encoding.selftestComplete (u : FUnit) (pass : Bool) : Encoding.Statement (.selftestComplete u pass) := by
  intro _ w h; cases h

theorem Encoding.engineWindowReplay (c : CoreId) (eng : Fin 6) (id : Nat) (second : Bool) : Encoding.Statement (.engineWindowReplay c eng id second) := by
  intro _ w h; cases h

theorem Encoding.scrubAtom (addr : Nat) (uncorrectable : Bool) : Encoding.Statement (.scrubAtom addr uncorrectable) := by
  intro _ w h; cases h

theorem Encoding.scanStart (d : DieId) : Encoding.Statement (.scanStart d) := by
  intro _ w h; cases h

theorem Encoding.scanComplete (c : CoreId) (pass : Bool) : Encoding.Statement (.scanComplete c pass) := by
  intro _ w h; cases h

theorem Encoding.clampChange (d : DieId) (cc tc : Bool) (mhz : BitVec 16) : Encoding.Statement (.clampChange d cc tc mhz) := by
  intro _ w h; cases h

theorem Encoding.powerReportDeferred (d : DieId) : Encoding.Statement (.powerReportDeferred d) := by
  intro _ w h; cases h

theorem Encoding.holdupBankLow (joules : Nat) : Encoding.Statement (.holdupBankLow joules) := by
  intro _ w h; cases h

theorem Encoding.inputPowerLoss : Encoding.Statement .inputPowerLoss := by
  intro _ w h; cases h

theorem Encoding.lossSaveTasks : Encoding.Statement .lossSaveTasks := by
  intro _ w h; cases h

theorem Encoding.lossWriteBack : Encoding.Statement .lossWriteBack := by
  intro _ w h; cases h

theorem Encoding.lossStoreState : Encoding.Statement .lossStoreState := by
  intro _ w h; cases h

theorem Encoding.lossStoreHbm : Encoding.Statement .lossStoreHbm := by
  intro _ w h; cases h

theorem Encoding.lossCommit : Encoding.Statement .lossCommit := by
  intro _ w h; cases h

theorem Encoding.lossOff : Encoding.Statement .lossOff := by
  intro _ w h; cases h

theorem Encoding.moduleReset : Encoding.Statement .moduleReset := by
  intro _ w h; cases h

theorem Encoding.hictlWrite (v : W64) : Encoding.Statement (.hictlWrite v) := by
  intro _ w h; cases h

theorem Encoding.cqbellWrite (v : W64) : Encoding.Statement (.cqbellWrite v) := by
  intro _ w h; cases h

theorem Encoding.eqackWrite (v : W64) : Encoding.Statement (.eqackWrite v) := by
  intro _ w h; cases h

theorem Encoding.hostRegWrite (off : Nat) (v : W64) : Encoding.Statement (.hostRegWrite off v) := by
  intro _ w h; cases h

theorem Encoding.eventWrite : Encoding.Statement .eventWrite := by
  intro _ w h; cases h

theorem Encoding.cmdNop : Encoding.Statement .cmdNop := by
  intro _ w h; cases h

theorem Encoding.launch : Encoding.Statement .launch := by
  intro _ w h; cases h

theorem Encoding.ctxcreate : Encoding.Statement .ctxcreate := by
  intro _ w h; cases h

theorem Encoding.ctxteardown : Encoding.Statement .ctxteardown := by
  intro _ w h; cases h

theorem Encoding.aclwrite : Encoding.Statement .aclwrite := by
  intro _ w h; cases h

theorem Encoding.schedparam : Encoding.Statement .schedparam := by
  intro _ w h; cases h

theorem Encoding.pageanswer : Encoding.Statement .pageanswer := by
  intro _ w h; cases h

theorem Encoding.shootdown : Encoding.Statement .shootdown := by
  intro _ w h; cases h

theorem Encoding.pagerelease : Encoding.Statement .pagerelease := by
  intro _ w h; cases h

theorem Encoding.gangwrite : Encoding.Statement .gangwrite := by
  intro _ w h; cases h

theorem Encoding.savefclear : Encoding.Statement .savefclear := by
  intro _ w h; cases h

theorem Encoding.relparam : Encoding.Statement .relparam := by
  intro _ w h; cases h

theorem Encoding.selftest : Encoding.Statement .selftest := by
  intro _ w h; cases h

theorem Encoding.retire : Encoding.Statement .retire := by
  intro _ w h; cases h

theorem Encoding.powerstate : Encoding.Statement .powerstate := by
  intro _ w h; cases h

theorem Encoding.ckptarm : Encoding.Statement .ckptarm := by
  intro _ w h; cases h

theorem Encoding.ckptrestore : Encoding.Statement .ckptrestore := by
  intro _ w h; cases h

theorem Encoding.ckptdiscard : Encoding.Statement .ckptdiscard := by
  intro _ w h; cases h

theorem Encoding.attest : Encoding.Statement .attest := by
  intro _ w h; cases h

theorem Encoding.fwstage : Encoding.Statement .fwstage := by
  intro _ w h; cases h

theorem Encoding.dbgclaim : Encoding.Statement .dbgclaim := by
  intro _ w h; cases h

theorem Encoding.dbgstop : Encoding.Statement .dbgstop := by
  intro _ w h; cases h

theorem Encoding.dbgstep : Encoding.Statement .dbgstep := by
  intro _ w h; cases h

theorem Encoding.dbgresume : Encoding.Statement .dbgresume := by
  intro _ w h; cases h

theorem Encoding.dbgpatch : Encoding.Statement .dbgpatch := by
  intro _ w h; cases h

theorem Encoding.dbgregw : Encoding.Statement .dbgregw := by
  intro _ w h; cases h

theorem Encoding.ewtwrite : Encoding.Statement .ewtwrite := by
  intro _ w h; cases h

theorem Encoding.profblock : Encoding.Statement .profblock := by
  intro _ w h; cases h

theorem Encoding.tracecfg : Encoding.Statement .tracecfg := by
  intro _ w h; cases h

theorem Encoding.peerskew : Encoding.Statement .peerskew := by
  intro _ w h; cases h

theorem Encoding.holdupBankExhausted : Encoding.Statement .holdupBankExhausted := by
  intro _ w h; cases h

end Sys2Proof.Laws
end

