-- ==== Sys2Proof/Tests/Slice0.lean ====
section
/-! SUPPORT. The tests of this model: one witness for each clause of each obligation that has hypotheses (concrete states and
operands that meet them all), the words of the encodings written out from the spec, and an ill-formed term for each check of
`Instr.wf`. Expected values are the spec's or are worked out by hand from it. -/
namespace Sys2Proof.Tests
set_option Elab.async false
open Sys2Proof.Machine

/-- The state that an operation leaves, or its own when it does not answer. -/
def stOf {α : Type} (a : Act α) (s : State) : State :=
  match StateT.run a s with
  | .ok (_, t) => t
  | .error _ => s
/-- Whether an operation answers a value. -/
def answers {α : Type} [DecidableEq α] (a : Act α) (s : State) (v : α) : Bool :=
  match StateT.run a s with
  | .ok (w, _) => decide (w = v)
  | .error _ => false
/-- A decidable fact, evaluated by the kernel. -/
theorem dk {p : Prop} [Decidable p] (h : decide p = true := by decide +kernel) : p := of_decide_eq_true h
/-- The value that an operation answers, or `d` when it does not. -/
def valOf {α : Type} (d : α) (a : Act α) (s : State) : α :=
  match StateT.run a s with
  | .ok (v, _) => v
  | .error _ => d
theorem runs_valOf {α : Type} {a : Act α} {s : State} (d : α) (h : okRun a s = true := by decide +kernel) :
    Runs a s (valOf d a s) (stOf a s) := by
  obtain ⟨v, t, r⟩ := runs_of_okRun h
  unfold valOf stOf
  unfold Runs at r ⊢
  rw [r]
theorem runs_stOf {α : Type} [DecidableEq α] {a : Act α} {s : State} {v : α} (h : answers a s v = true := by decide +kernel) : Runs a s v (stOf a s) := by
  unfold answers at h
  unfold Runs stOf
  cases hr : StateT.run a s with
  | ok r =>
    obtain ⟨w, t⟩ := r
    rw [hr] at h
    simp only [decide_eq_true_eq] at h
    rw [h]
  | error x => rw [hr] at h; cases h

/-- A bench for one instruction: a task on bank 0 of core 0 with the instruction on its line at 0x10004, a data page at 0x20000
that may be read and written, and the turn of sequencer `q`. -/
def bench (i : Instr) (q : SeqId) (f : Bank → Bank := id) : State :=
  let w : Who := ⟨0, 0, q, 0⟩
  let bs := placeBytes q (((encodeWord i).getD 0).toNat + (i.ext.getD 0).toNat * 2 ^ 32)
  let s := { State.reset with cur := w, mem := Memory.writeN [] placeLine bs }
  let s := s.modCore 0 fun k =>
    { k with
      active := some 0
      tlb := [⟨0, 0, 1, placeLeaf⟩, ⟨0, 0, 2, 0x2000F⟩]
      istore := [(0, placeLine, BitVec.ofNat 512 (leNat bs))]
      icache := [(icKey 0 (BitVec.ofNat 64 placeLine), BitVec.ofNat 512 (leNat bs))] }
  s.modBank w fun b => f (({ b with task := some { w := Vector.replicate 8 0, id := 7, owner := 5 } } : Bank).modSeq q fun x =>
    { x with started := true, pc := BitVec.ofNat 64 (placeLine + 4) })
/-- Sets a scalar register of a sequencer. -/
def setS (q : SeqId) (n : Fin 32) (v : W64) (k : Bank) : Bank := k.modSeq q fun x => { x with s := vset x.s n v }

/-- Puts words at the tail of a queue, visible to a pop. -/
def putQ (n : Fin 16) (vs : List W64) (k : Bank) : Bank := { k with q := vset k.q n { ents := vs.map fun v => .word v 0 } }
/-- Puts rows at the tail of a queue. -/
def putR (n : Fin 16) (rs : List Row) (k : Bank) : Bank := { k with q := vset k.q n { ents := rs.map fun v => .row v 0 } }
/-- Advances the cycle count of a state. -/
def later (s : State) : State := { s with now := s.now + 5 }
/-- The task's level 1, in which the privileged instructions run. -/
def lvl1 (k : Bank) : Bank := { k with level := true }
/-- An instruction completes with its own effect, and control goes where `fl` says. -/
def Goes (i : Instr) (s : State) (fl : Flow := .next) : Prop := ∃ t : State, exec i s = .next (t.done fl)

/-! Checks: operations that answer in the state that they were given. -/

def IsCheck (a : Act Unit) : Prop := ∀ s v t, Runs a s v t → t = s
theorem runs_chk {a : Act Unit} {s : State} (c : IsCheck a) (h : answers a s () = true := by decide +kernel) : Runs a s () s := by
  have r := runs_stOf h
  have e := c _ _ _ r
  rw [e] at r
  exact r
/-- What follows an operation that is known only by what it answers. -/
theorem follows_run {i : Instr} {fl : Flow} {α : Type} [DecidableEq α] {a : Act α} {s u : State} {v : α} (e : Runs a s v u)
    (h : answers a s v = true := by decide +kernel) (g : answers (advance i fl) (stOf a s) () = true := by decide +kernel) :
    Follows i fl u (stOf (advance i fl) (stOf a s)) := by
  rw [(runs_unique e (runs_stOf h)).2]
  exact runs_stOf g
theorem chk_pure : IsCheck (pure ()) := by
  intro s v t h
  unfold Runs at h
  cases h
  rfl
theorem chk_throw (x : Stop) : IsCheck (throw x) := by
  intro s v t h
  cases h
theorem chk_need (b : Bool) (c : Byte) : IsCheck (need b c) := by
  cases b
  · exact chk_throw _
  · exact chk_pure
theorem chk_needAt (b : Bool) (c : Byte) (a : W64) : IsCheck (needAt b c a) := by
  cases b
  · exact chk_throw _
  · exact chk_pure
theorem chk_get {f : State → Act Unit} (h : ∀ s, IsCheck (f s)) : IsCheck (get >>= f) := by
  intro s v t r
  obtain ⟨u, w, a, b⟩ := runs_bind_iff.mp r
  cases a
  exact h s _ _ _ b
theorem chk_bind {a : Act Unit} {f : Unit → Act Unit} (ha : IsCheck a) (hf : IsCheck (f ())) : IsCheck (a >>= f) := by
  intro s v t r
  obtain ⟨u, w, x, y⟩ := runs_bind_iff.mp r
  rw [ha _ _ _ x] at y
  exact hf _ _ _ y
theorem chk_popOk (n : Fin 16) : IsCheck (popOk n) := chk_get fun _ => chk_need _ _
theorem chk_pushOk (n : Fin 16) : IsCheck (pushOk n) := chk_get fun _ => chk_need _ _
theorem chk_matrixOk (n : Fin 16) : IsCheck (matrixOk n) := chk_get fun _ => chk_need _ _
theorem chk_flagOk (r : FlagRef) : IsCheck (flagOk r) := chk_get fun _ => chk_need _ _
theorem chk_csr (n : Nat) (b : Bool) : IsCheck (csrChecks n b) :=
  chk_bind (chk_need _ _) (chk_get fun _ => chk_need _ _)
theorem chk_dst (f : BitVec 6) : IsCheck (Machine.dstOk f) := by
  unfold Machine.dstOk
  split
  · exact chk_bind (chk_need _ _) (chk_pushOk _)
  · exact chk_pure
theorem chk_dsts : ∀ fs, IsCheck (allOk Machine.dstOk fs)
  | [] => chk_pure
  | f :: fs => chk_bind (chk_dst f) (chk_dsts fs)
theorem chk_src (f : BitVec 6) : IsCheck (Machine.srcOk f) := fun s v t => srcOk_state f s v t
theorem chk_srcs : ∀ fs, IsCheck (allOk Machine.srcOk fs)
  | [] => chk_pure
  | f :: fs => chk_bind (chk_src f) (chk_srcs fs)
theorem chk_flags : ∀ fs, IsCheck (flagsOk fs)
  | [] => chk_pure
  | none :: fs => chk_flags fs
  | some r :: fs => chk_bind (chk_flagOk r) (chk_flags fs)
theorem chk_limits (x : Act Unit) : IsCheck (illegalFirst x) := by
  intro s v t h
  unfold illegalFirst Runs StateT.run at h
  dsimp only at h
  split at h
  · split at h <;> cases h
    rfl
  · cases h
    rfl
theorem chk_interlock (f : BitVec 6) : IsCheck (interlock f) := by
  refine chk_get fun s => ?_
  split
  · exact chk_throw _
  · exact chk_pure
theorem chk_sdesc (d : SDesc) (b : Bool) : IsCheck (sdescOk d b) :=
  chk_bind (chk_need _ _) (chk_bind (chk_need _ _) (chk_needAt _ _ _))
theorem chk_gdesc (d : GDesc) (b l : Bool) : IsCheck (gdescOk d b l) :=
  chk_bind (chk_need _ _) (chk_bind (chk_needAt _ _ _) (chk_bind (chk_needAt _ _ _) (chk_needAt _ _ _)))
theorem chk_class (ea : W64) : IsCheck (classOk ea) := by
  refine chk_get fun s => ?_
  split
  · exact chk_throw _
  · exact chk_needAt _ _ _
  · exact chk_pure
theorem chk_gqueue (f : FQ) : IsCheck (gatherQueue f) := by
  unfold gatherQueue
  split
  · exact chk_pure
  · exact chk_bind (chk_need _ _) (chk_pushOk _)
theorem chk_watch (a : W64) (n : Nat) (rd wr : Bool) : IsCheck (watch a n rd wr) := chk_get fun _ => chk_needAt _ _ _
theorem chk_room (n : Nat) : IsCheck (portRoom n) := by
  refine chk_get fun s => ?_
  split
  · exact chk_throw _
  · exact chk_pure

/-- The line on which the bench places an instruction. -/
def lineOf (i : Instr) (q : SeqId) : BitVec 512 :=
  BitVec.ofNat 512 (leNat (placeBytes q (((encodeWord i).getD 0).toNat + (i.ext.getD 0).toNat * 2 ^ 32)))

/-- A word of memory. -/
def putW (a : Nat) (v : W64) (s : State) : State := { s with mem := s.mem.writeN a (leBytes 8 v.toNat) }

theorem got {α : Type} {o : Option α} (h : o.isSome = true := by decide +kernel) : o = some (o.get h) := (Option.some_get h).symm

/-- An event ends in a next state. -/
def Ends (i : Instr) (s : State) : Prop := ∃ t, exec i s = .next t
/-- A task on bank 0 of core 0, with changes to its bank and to its core. -/
def evt (f : Bank → Bank := id) (g : Core → Core := id) : State := (bench .nop 0 f).modCore 0 g

def aCmd (k : CKind) : ECmd := { who := {}, ctx := 0, kind := k }
def aCopy : ECmd := aCmd (.copy 0x20100 0x20000 8 1 0 0 false false none)
def aStream : SDesc := sdescOf [0x20000, 1, 0, 0, 0, 0, 0x800000000, 0]
def aGather : GDesc := gdescOf [0x20000, 0x20080, 0, 0x800000000, 0, 0, 0, 0]

theorem pair1 {α β : Type} {p : α × β} {a : α} (h : p.1 = a) : p = (a, p.2) := Prod.ext h rfl

/-! ## Witnesses: each clause of a statement at a state and operands that meet its hypotheses -/

theorem witness_integers (h : Obligations.IntegersComplete) :
    let i : Instr := .add { d := 3, a := 1, b := 2 }
    let s := bench i 0 (setS 0 1 5)
    let x := bench i 2 (setS 2 1 5)
    (∃ t : State, exec i s = .next (t.done .next)) ∧ ∃ t : State, exec i x = .next (t.done .next) :=
  ⟨⟨_, (h.1 _ _ _ _ 5 0 _ rfl dk runs_stOf).1 dk (.s 3) _ _
    runs_stOf runs_stOf⟩,
   ⟨_, (h.1 _ _ _ _ 5 0 _ rfl dk runs_stOf).2 dk (0, 0, 0) _ _
    runs_stOf runs_stOf⟩⟩

theorem witness_immediates (h : Obligations.IntegersComplete) :
    let i : Instr := .addi { d := 4, a := 4, imm := 0x1FF }
    let u : Instr := .clz { d := 3, a := 1 }
    let l : Instr := .li { d := 3, imm := 0x3FFFF }
    let c : Instr := .lcat { d := 3, imm := 1 }
    (∃ t : State, exec i (bench i 0) = .next (t.done .next)) ∧ (∃ t : State, exec u (bench u 0) = .next (t.done .next)) ∧
      (∃ t : State, exec l (bench l 0) = .next (t.done .next)) ∧ ∃ t : State, exec c (bench c 0) = .next (t.done .next) :=
  ⟨⟨_, (h.2.1 _ _ _ _ [0] _ rfl dk runs_stOf).1 dk (.s 4) _ _
    runs_stOf runs_stOf⟩,
   ⟨_, (h.2.2.1 _ _ _ [0] _ rfl dk runs_stOf).1 dk (.s 3) _ _
    runs_stOf runs_stOf⟩,
   ⟨_, (h.2.2.2.1 _ _ _ dk runs_stOf).1 dk (.s 3) _ _
    runs_stOf runs_stOf⟩,
   ⟨_, (h.2.2.2.2.1 _ _ 0 _ dk runs_stOf).1 dk (.s 3) _ _
    runs_stOf runs_stOf⟩⟩

theorem witness_wait_csel (h : Obligations.IntegersComplete) :
    let w : Instr := .wait { imm := 3 }
    let c : Instr := .csel { d := 5, a := 1, b := 2 }
    (∃ t : State, exec .nop (bench .nop 0) = .next (t.done .next)) ∧ (∃ t : State, exec w (bench w 2) = .next (t.done .next)) ∧
      (∃ t : State, exec c (bench c 0) = .next (t.done .next)) ∧ ∃ t : State, exec c (bench c 2) = .next (t.done .next) :=
  ⟨⟨_, h.2.2.2.2.2.1 _ _ dk runs_stOf⟩,
   ⟨_, h.2.2.2.2.2.2.1 _ _ _ dk runs_stOf⟩,
   ⟨_, h.2.2.2.2.2.2.2.1 _ _ 0 0 _ (.s 5) _ _ dk dk runs_stOf
    runs_stOf runs_stOf⟩,
   ⟨_, (h.2.2.2.2.2.2.2.2 _ _ 0 0 _ dk dk runs_stOf).2
    dk (0, 0, 0) _ _ runs_stOf runs_stOf⟩⟩

theorem witness_floating (h : Obligations.FloatingComplete) :
    let i : Instr := .fadd { d := 3, a := 1, b := 2 }
    let m : Instr := .fmad { d := 3, a := 1, b := 2 }
    let f : Instr := .ftoi { d := 3, a := 1, b := 3 }
    let g : Instr := .itof { d := 3, a := 1, b := 3 }
    (∃ t : State, exec i (bench i 0) = .next (t.done .next)) ∧ (∃ t : State, exec m (bench m 0) = .next (t.done .next)) ∧
      (∃ t : State, exec f (bench f 0) = .next (t.done .next)) ∧ ∃ t : State, exec g (bench g 0) = .next (t.done .next) :=
  ⟨⟨_, h.1 _ _ _ _ _ 0 0 _ (.s 3) _ _ rfl dk runs_stOf runs_stOf
    runs_stOf⟩,
   ⟨_, h.2.1 _ _ 0 0 0 _ (.s 3) _ _ dk (fun _ => runs_stOf dk) (fun _ e => by cases e)
    runs_stOf runs_stOf⟩,
   ⟨_, h.2.2.1 _ _ 0 _ (.s 3) _ _ dk runs_stOf runs_stOf
    runs_stOf⟩,
   ⟨_, h.2.2.2 _ _ 0 _ (.s 3) _ _ dk runs_stOf runs_stOf
    runs_stOf⟩⟩

theorem witness_branches (h : Obligations.ControlCompletes) :
    let i : Instr := .br { w := 3 }
    let z : Instr := .brz { c := 1, a := 1, w := 3 }
    let n : Instr := .brnz { c := 2, a := 1, ld := 0, w := 3 }
    let q : Instr := .bqz { c := 3, a := 1, w := 3 }
    Goes i (bench i 0) (.to 0x1000C) ∧ Goes z (bench z 0) (.to 0x1000C) ∧ Goes n (bench n 0) ∧
      Goes q (later (bench q 0 (putQ 3 [0]))) (.to 0x1000C) ∧ Goes q (later (bench q 0 (putQ 3 [1]))) :=
  ⟨⟨_, h.1 _ _ _ dk runs_stOf⟩,
   ⟨_, (h.2.1 _ _ _ _ 0 _ _ rfl dk runs_stOf).1 dk runs_stOf⟩,
   ⟨_, (h.2.1 _ _ _ _ 0 _ _ rfl dk runs_stOf).2 dk runs_stOf⟩,
   ⟨_, (h.2.2.1 _ _ _ _ 0 _ _ dk rfl dk (runs_chk (chk_popOk _)) runs_stOf).1 dk runs_stOf⟩,
   ⟨_, (h.2.2.1 _ _ _ _ 1 _ _ dk rfl dk (runs_chk (chk_popOk _)) runs_stOf).2 dk runs_stOf⟩⟩

theorem witness_calls (h : Obligations.ControlCompletes) :
    let c : Instr := .call { a := 31, w := 3 }
    let r : Instr := .ret { c := 1, a := 31 }
    let j : Instr := .jmp { c := 2, a := 30 }
    Goes c (bench c 0) (.to 0x1000C) ∧ Goes r (bench r 0 (setS 0 31 0x10008)) (.to 0x10008) ∧
      Goes j (bench j 0 (setS 0 30 0x1003C)) (.to 0x1003C) :=
  ⟨⟨_, h.2.2.2.1 _ _ _ _ _ _ _ dk runs_stOf (runs_stOf (v := 0x10008)) runs_stOf runs_stOf⟩,
   ⟨_, h.2.2.2.2.1 _ _ 0x10008 _ _ dk runs_stOf dk dk dk runs_stOf⟩,
   ⟨_, h.2.2.2.2.2.1 _ _ 0x1003C _ _ dk runs_stOf dk dk dk runs_stOf⟩⟩

theorem witness_loop (h : Obligations.ControlCompletes) :
    let i : Instr := .loop { c := 4, a := 1, w := 3 }
    Goes i (bench i 0 (setS 0 1 2)) ∧ Goes i (bench i 0) (.to 0x10010) :=
  ⟨⟨_, (h.2.2.2.2.2.2 _ _ 2 _ _ dk runs_stOf runs_stOf).1 dk 0x10008 _ _ runs_stOf runs_stOf⟩,
   ⟨_, (h.2.2.2.2.2.2 _ _ 0 _ _ dk runs_stOf runs_stOf).2 dk (lineOf (.loop { c := 4, a := 1, w := 3 }) 0) _ 0x10010 _ runs_stOf dk
    runs_stOf⟩⟩

theorem witness_load_store (h : Obligations.LoadsAndStoresComplete) :
    let i : Instr := .ld16s { d := 3, a := 2, imm := 6 }
    let j : Instr := .st32 { d := 3, a := 2, imm := 4 }
    Goes i (bench i 0 (setS 0 2 0x20000)) ∧ Goes j (bench j 1 (setS 1 2 0x20000)) :=
  ⟨⟨_, h.1 _ _ _ _ _ 0x20000 _ 0 _ (.s 3) _ _ rfl dk runs_stOf runs_stOf runs_stOf runs_stOf⟩,
   ⟨_, h.2 _ _ _ _ 0x20000 0 _ _ _ rfl dk dk runs_stOf runs_stOf runs_stOf⟩⟩

theorem witness_atomic (h : Obligations.AtomicsComplete) :
    let i : Instr := .amocas { d := 3, a := 2, b := 4 }
    Goes i (bench i 0 (setS 0 2 0x20000)) :=
  ⟨_, h _ _ _ _ _ [0x20000, 0, 0] _ 0x20000 _ _ 0 _ (.s 3) _ _ rfl dk dk runs_stOf runs_stOf
    runs_stOf runs_stOf runs_stOf runs_stOf⟩

theorem witness_fences (h : Obligations.FencesComplete) :
    let i : Instr := .fenceSpan {}
    let e : Instr := .efence {}
    let bad := bench e 3 fun k => k.modSeq 3 fun x => { x with unc := true }
    Goes i (bench i 0) ∧ Goes e (bench e 3) ∧ ∃ t, exec e bad = .next t :=
  ⟨⟨_, h.1 _ _ _ _ rfl dk dk dk runs_stOf⟩,
   ⟨_, h.2.1 _ _ _ dk dk dk runs_stOf⟩,
   ⟨_, (h.2.2 _ _ dk dk dk).1⟩⟩

theorem witness_flags (h : Obligations.FlagsComplete) :
    let a : Instr := .farm { a := 2, imm := 31 }
    let p : Instr := .fpost { imm := 31 }
    let d : Instr := .fdec { imm := 31 }
    let r : Instr := .fread { d := 3, imm := 31 }
    let w : Instr := .fwait { imm := 31 }
    let at' (v : BitVec 16) (k : Bank) : Bank := { k with f := vset k.f 31 { k.f.get 31 with v := v } }
    Goes a (bench a 0 (setS 0 2 0xFFFF)) ∧ Goes p (bench p 0 (at' 0xFFFE)) ∧ Goes d (bench d 0 (at' 1)) ∧
      (∃ t, exec p (bench p 0 (at' 0xFFFF)) = .next t) ∧ (∃ t, exec d (bench d 0) = .next t) ∧ Goes r (bench r 0) ∧
      Goes w (bench w 0) ∧ ∃ t, exec a (bench a 0 (setS 0 2 0x10000)) = .next t :=
  let ⟨farm, farmHigh, post, dec, full, empty, read, wait, _⟩ := h;
  ⟨⟨_, farm _ _ 0xFFFF _ _ dk runs_stOf (runs_chk (chk_flagOk _)) dk runs_stOf⟩,
   ⟨_, post _ _ _ dk (runs_chk (chk_flagOk _)) dk dk runs_stOf⟩,
   ⟨_, dec _ _ _ dk (runs_chk (chk_flagOk _)) dk dk runs_stOf⟩,
   ⟨_, full _ _ dk (runs_chk (chk_flagOk _)) dk dk dk⟩,
   ⟨_, empty _ _ dk (runs_chk (chk_flagOk _)) dk dk dk⟩,
   ⟨_, (read _ _ dk (runs_chk (chk_dsts _)) (runs_chk (chk_flagOk _))).1 dk (.s 3) _ _ runs_stOf runs_stOf⟩,
   ⟨_, wait _ _ _ dk (runs_chk (chk_flagOk _)) dk runs_stOf⟩,
   ⟨_, farmHigh _ _ 0x10000 _ dk runs_stOf (runs_chk (chk_flagOk _)) dk⟩⟩

def anEv (o : FlagOp) : FlagEv := { op := o, by_ := 0 }
/-- The events of a cycle at the ends of a counter's range. -/
theorem witness_flag_cycle (h : Obligations.FlagsComplete) :
    ({ v := 0xFFFF } : Machine.Flag).refuses (anEv .post) = true ∧ ({} : Machine.Flag).refuses (anEv .dec) = true ∧
      ({ evs := [anEv (.arm 9)] } : Machine.Flag).commit.v = 9 ∧
      ({ v := 0xFFFE, evs := [anEv .post] } : Machine.Flag).commit.v.toNat = 0xFFFF ∧
      ({ evs := [anEv .dec, anEv (.arm 1)] } : Machine.Flag).commit.v.toNat = 0 ∧
      ({ v := 2, last := 3, evs := [anEv .dec] ++ [{ op := .dec, by_ := 9 }] } : Machine.Flag).commit.last = 9 ∧
      ({ last := 3, evs := [anEv .post] } : Machine.Flag).commit.last = 3 ∧
      ({ evs := [anEv .dec] } : Machine.Flag).commit.v = 0 ∧ ({ v := 0xFFFF, evs := [anEv .post] } : Machine.Flag).commit.v = 0xFFFF :=
  let ⟨_, _, _, _, _, _, _, _, full, empty, arm, events, lastDec, lastPost, armed, low, high⟩ := h;
  ⟨(full _ _ rfl rfl).2 rfl, (empty _ _ rfl rfl).2 rfl, (arm _ _ 9 rfl rfl).1,
   (events _ [anEv .post] [] (by simp [anEv]) (by simp) (.refl _) dk dk).1,
   armed _ (anEv (.arm 1)) 1 [] [anEv .dec] rfl (by simp) (by simp [anEv]) (.refl _) dk dk,
   lastDec _ [anEv .dec] { op := .dec, by_ := 9 } (by simp [anEv]) rfl rfl dk dk, lastPost _ (by simp [anEv]),
   (low _ _ rfl rfl rfl).1, (high _ _ rfl rfl rfl).1⟩

theorem witness_barrier (h : Obligations.BarrierCompletes) :
    let i : Instr := .bar { d := 3, a := 1, imm := 1 }
    let wt : BarWait := ⟨1, 0, 0, 3, true, .s 3, true, 0⟩
    (∃ t, exec i (bench i 0 (setS 0 1 0x10004)) = .next t) ∧ Goes i (bench i 0 fun k => { k with bar := some wt }) :=
  ⟨let ⟨_, e, c, _⟩ := h.1 { d := 3, a := 1, imm := 1 } _ 0x10004 _ (.s 3) _ dk dk dk runs_stOf dk dk dk runs_stOf (.inr dk)
   ⟨_, (c _ (follows_run e)).1⟩,
   ⟨_, h.2 _ _ ⟨1, 0, 0, 3, true, .s 3, true, 0⟩ _ dk dk rfl runs_stOf⟩⟩

theorem witness_pushes (h : Obligations.QueuesComplete) :
    let i : Instr := .qpush { q := 4, a := 1 }
    let n : Instr := .qpush { q := 4, a := 1, b := 3, f := 1 }
    let x : Instr := .qpush { q := 3, a := 1, b := 3, f := 1 }
    Goes i (bench i 0) ∧ Goes n (bench n 0 (putQ 4 (List.replicate 32 0))) ∧ Goes x (bench x 2) :=
  ⟨⟨_, (h.1 _ _ 0 _ dk dk (runs_chk (chk_pushOk _)) runs_stOf).1 rfl dk _ runs_stOf⟩,
   ⟨_, (h.1 _ _ 0 _ dk dk (runs_chk (chk_pushOk _)) runs_stOf).2.1 rfl (fun _ => dk) dk (.s 3) _ _ runs_stOf runs_stOf⟩,
   ⟨_, (h.1 _ _ 0 _ dk dk (runs_chk (chk_pushOk _)) runs_stOf).2.2 rfl (fun _ => dk) dk (0, 0, 0) _ _ runs_stOf runs_stOf⟩⟩

theorem witness_pops (h : Obligations.QueuesComplete) :
    let p : Instr := .qpop { q := 3, a := 4 }
    let n : Instr := .qpop { q := 3, a := 4, b := 5, f := 1 }
    let k : Instr := .qpeek { q := 3, a := 4 }
    let t : Instr := .qstat { q := 3, a := 4 }
    let c : Instr := .qcfg { q := 3, a := 1 }
    Goes p (later (bench p 0 (putQ 3 [9, 8]))) ∧ Goes n (bench n 0) ∧ Goes k (later (bench k 0 (putQ 3 [9]))) ∧ Goes t (bench t 0) ∧
      Goes c (bench c 0) :=
  ⟨⟨_, h.2.1 _ _ _ _ dk dk (runs_chk (chk_popOk _)) (runs_chk (chk_dsts _)) (.inr dk)
    runs_stOf runs_stOf⟩,
   ⟨_, h.2.1 _ _ _ _ dk dk (runs_chk (chk_popOk _)) (runs_chk (chk_dsts _)) (.inl rfl) runs_stOf
    runs_stOf⟩,
   ⟨_, h.2.2.1 _ _ _ _ dk dk (runs_chk (chk_popOk _)) (runs_chk (chk_dsts _)) (.inr dk)
    runs_stOf runs_stOf⟩,
   ⟨_, h.2.2.2.1 _ _ _ _ dk (runs_chk (chk_dsts _)) runs_stOf runs_stOf⟩,
   ⟨_, h.2.2.2.2.1 _ _ 0 _ _ dk dk (runs_chk (chk_matrixOk _)) runs_stOf runs_stOf⟩⟩

theorem witness_binding (h : Obligations.QueuesComplete) :
    ({ csrPend := [(0, 2, bindWord 15 0x9)] } : Bank).csrCommit.qmap = setFld ({} : Bank).qmap 63 60 9 :=
  (congrArg Bank.qmap (h.2.2.2.2.2 _ 0 15 0x9 rfl)).trans rfl

theorem witness_tasks (h : Obligations.TasksComplete) :
    let p : Instr := .spawn { d := 3, a := 1, b := 2 }
    let t : Instr := .tstart { a := 1, b := 2 }
    let j : Instr := .join { d := 3, a := 1, b := 2 }
    let y : Instr := .yield { d := 3 }
    Goes p (bench p 0 (setS 0 1 0x20000)) ∧ Goes t (bench t 0 fun k => setS 0 1 0x10008 (setS 0 2 3 k)) ∧
      Goes j (bench j 0 fun k => setS 0 1 0x20040 (setS 0 2 (-1) k)) ∧ Goes y (bench y 0) :=
  ⟨⟨_, h.1 _ _ 0x20000 0 _ (List.replicate 8 0) _ dk runs_stOf dk runs_stOf dk (.s 3) _ _ runs_stOf
    runs_stOf⟩,
   ⟨_, h.2.1 _ _ 0x10008 3 _ _ dk runs_stOf dk dk dk dk dk
    runs_stOf⟩,
   ⟨_, h.2.2.1 _ _ 0x20040 (-1) _ 0x20040 _ _ 0 _ (.s 3) _ _ dk runs_stOf dk dk runs_stOf
    runs_stOf runs_stOf runs_stOf runs_stOf⟩,
   ⟨_, h.2.2.2 _ _ (.s 3) _ _ dk (runs_chk (chk_dsts _)) runs_stOf runs_stOf⟩⟩

theorem witness_exit (h : Obligations.ExitCompletes) :
    let i : Instr := .exit { e := some 0x7F }
    let at' (n : Nat) (k : Bank) : Bank := k.modSeq 0 fun x => { x with exiting := some (n, 0x7F) }
    Goes i (bench i 0) (.stay 11) ∧ Goes i (bench i 0 (at' 0)) (.stay 11) ∧ Goes i (bench i 0 (at' 2)) (.stay 11) ∧
      Goes i ((bench i 0 (at' 0)).modCore 0 fun k => { k with copyRun := [Run.start aCopy] })
        (.stay 11) :=
  ⟨⟨_, h.1 _ _ [0] _ _ _ dk dk runs_stOf runs_stOf dk dk dk dk dk dk (fun _ _ _ => dk) (fun _ => dk) dk dk runs_stOf⟩,
   ⟨_, h.2.1 _ _ 0 0x7F _ dk dk dk dk (fun _ => ⟨dk, dk⟩) (fun _ => dk) dk dk dk runs_stOf⟩,
   ⟨_, h.2.1 _ _ 2 0x7F _ dk dk dk dk (fun e => by cases e) (fun e => absurd e (by decide)) dk dk dk runs_stOf⟩,
   ⟨_, h.2.2 _ _ 0x7F _ dk dk dk dk dk dk runs_stOf⟩⟩

theorem witness_registers (h : Obligations.SystemRegistersComplete) :
    let r : Instr := .csrr { d := 3, imm := 0x010 }
    let g : Instr := .flogdatRead { d := 3, imm := 0x012 }
    let w : Instr := .csrw { d := 3, imm := 0x001 }
    let c : Instr := .cwinWrite { d := 3, imm := 0x00F }
    let z : Instr := .wsrangeWrite { d := 3, imm := 0x104 }
    let p : Instr := .wpcWrite { d := 3, imm := 0x304 }
    Goes r (bench r 0) ∧ Goes g (bench g 0) ∧ Goes w (bench w 0) ∧ Goes c (bench c 0) ∧ Goes z (bench z 0 fun k => setS 0 3 0x10000 (lvl1 k)) ∧
      Goes p (bench p 0 lvl1) :=
  let ⟨read, log, write, _⟩ := h;
  ⟨⟨_, (read _ _ dk dk (runs_chk (chk_dsts _))).1 dk (.s 3) _ _ runs_stOf runs_stOf⟩,
   ⟨_, (log _ _ dk (runs_chk (chk_dsts _))).1 dk (.s 3) _ _ runs_stOf runs_stOf⟩,
   ⟨_, write _ _ _ 0 _ _ (.inl rfl) dk (runs_chk (chk_csr _ _)) runs_stOf dk runs_stOf⟩,
   ⟨_, write _ _ _ 0 _ _ (.inr (.inl rfl)) dk (runs_chk (chk_csr _ _)) runs_stOf dk runs_stOf⟩,
   ⟨_, write _ _ _ 0x10000 _ _ (.inr (.inr (.inl rfl))) dk (runs_chk (chk_csr _ _)) runs_stOf dk runs_stOf⟩,
   ⟨_, write _ _ _ 0 _ _ (.inr (.inr (.inr rfl))) dk (runs_chk (chk_csr _ _)) runs_stOf dk runs_stOf⟩⟩

/-- The writes of system registers that land at the end of a cycle. -/
theorem witness_csr_cycle (h : Obligations.SystemRegistersComplete) :
    let k : Bank := { csrPend := [(2, 0x104, 5)] }
    let p : Bank := { csrPend := [(3, 0, 1), (1, 0, 2)] }
    k.csrCommit = { k.csrLand 2 0x104 5 with csrPend := [] } ∧ p.csrCommit = { (p.csrLand 1 0 2).csrLand 3 0 1 with csrPend := [] } ∧
      (k.csrLand 0 15 9).cwin.get 7 = 8 ∧ (k.csrLand 0 0x307 1).wpc.get 3 = 1 ∧ k.csrLand 0 0x103 1 = k.csrSet 0x103 1 :=
  let ⟨_, _, _, one, two, win, _, wpc, rest, _⟩ := h;
  ⟨one _ 2 0x104 5 rfl, two _ 1 3 0 0 2 1 dk (.swap _ _ _),
   (congrArg (·.get 7) (win _ 0 15 9 dk).1).trans rfl, (congrArg (·.get 3) (wpc _ 0 0x307 1 dk)).trans rfl, rest _ 0 _ 1 dk⟩

theorem witness_pfblock (h : Obligations.SystemRegistersComplete) :
    let i : Instr := .pfblockWrite { d := 3, imm := 0x202 }
    Goes i (bench i 0 fun k => setS 0 3 0x8000000000000001 { k with level := true, fault := some (0x8000000000000001, 0x20000, 0) }) :=
  let ⟨_, _, _, _, _, _, _, _, _, block⟩ := h;
  ⟨_, block _ _ 0x8000000000000001 _ _ 0x8000000000000001 0x20000 0 dk (runs_chk (chk_csr _ _)) dk runs_stOf rfl dk dk runs_stOf⟩

theorem witness_traps (h : Obligations.TrapsAndResumeComplete) :
    let t : Instr := .trap { imm := 0x303A }
    let b : Instr := .brk { imm := 5 }
    let q : Instr := .qmapWrite { imm := 2 }
    (∃ u, exec t (bench t 2) = .next u) ∧ (∃ u, exec b (bench b 3) = .next u) ∧ ∃ u, exec q (bench q 0) = .next u :=
  ⟨⟨_, h.1 _ _ dk⟩, ⟨_, h.2.1 _ _ dk⟩, ⟨_, h.2.2.1 _ _ dk⟩⟩

theorem witness_pager (h : Obligations.PagerComplete) :
    let t : Instr := .tlbinv { a := 1, b := 2 }
    let c : Instr := .icinv { a := 1, b := 2 }
    let r : Instr := .rqrd { d := 3, a := 1, b := 2 }
    let w : Instr := .rqwr { d := 3, a := 1, b := 2 }
    let p : Instr := .pgmap { a := 1, b := 2 }
    let d : Instr := .pgdone { a := 1, b := 2 }
    let other (s : State) : State := s.modBank s.cur.other fun k =>
      { k with task := some { w := Vector.replicate 8 0, id := 8, owner := 6 }, level := true, frozen := true }
    Goes t (bench t 0 lvl1) ∧ Goes c (bench c 0 fun k => setS 0 2 0x100 (lvl1 k)) .moved ∧ Goes r (other (bench r 0 lvl1)) ∧
      Goes w (other (bench w 0 lvl1)) ∧ Goes p (bench p 0 fun k => setS 0 1 0x30000 (setS 0 2 0x3000F (lvl1 k))) ∧
      Goes d (bench d 0 fun k => { k with level := true, fault := some (0x8000000000000000, 0x20000, 0) }) :=
  ⟨⟨_, h.1 _ _ 0 0 _ _ _ dk runs_stOf dk got runs_stOf⟩,
   ⟨_, h.2.1 _ _ 0 0x100 _ _ _ _ dk runs_stOf dk dk dk dk (runs_valOf {}) runs_stOf⟩,
   ⟨_, h.2.2.1 _ _ 0 0 _ (.s 3) _ _ dk runs_stOf dk dk runs_stOf runs_stOf⟩,
   ⟨_, h.2.2.2.1 _ _ 0 0 0 _ _ dk runs_stOf dk dk runs_stOf⟩,
   ⟨_, h.2.2.2.2.1 _ _ 0x30000 0x3000F _ _ dk runs_stOf dk dk dk
    dk dk runs_stOf⟩,
   ⟨_, h.2.2.2.2.2 _ _ 0 0 _ _ _ dk runs_stOf got runs_stOf⟩⟩

/-- An agent with no write of its own and no floor, where nothing has been written. -/
def Plain (s : State) (a : Nat) : Prop := s.mine a = [] ∧ (s.agent a).view.fl = [] ∧ s.hist = []
/-- The bytes of memory's words. -/
def wordBytes (s : State) (ws : List Nat) : List Byte := ws.flatMap fun w => leBytes 8 (s.word w).toNat

theorem loadAmong_plain {s : State} {a : Nat} (p : Plain s a) (w : Nat) (acq : Option Nat) :
    s.loadAmong a w ([], []) acq = (s.word w, s) := by
  obtain ⟨hm, hv, hi⟩ := p
  have f : (s.agent a).view.floor w = 0 := by simp [View.floor, hv, NMap.get?]
  simp [State.loadAmong, State.ownMask, State.lastIdx, State.choose, hm, hi, f, State.nth, NMap.get?]

theorem fold_loads {s : State} (g : List W64 × State → Nat → List W64 × State) (h : Nat → W64)
    (e : ∀ acc x, g (acc, s) x = (acc ++ [h x], s)) (l : List Nat) (acc : List W64) :
    l.foldl g (acc, s) = (acc ++ l.map h, s) := by
  induction l generalizing acc with
  | nil => simp
  | cons x l ih => rw [List.foldl_cons, e, ih, List.map_cons, List.append_assoc, List.singleton_append]

theorem seenActs_plain {s : State} {a : Nat} (p : Plain s a) (ws : List Nat) : s.seenActs a ws = (([], []), s) := by
  have nil : (ws.flatMap fun _ => ([] : List Nat)) = [] := by simp
  have t : s.sharedActs ws = [] := by
    simp [State.sharedActs, p.2.2, NMap.get?, nil]
  simp [State.seenActs, t]

/-- It reads bytes as memory holds them. -/
theorem loadBytes_plain {s : State} {a : Nat} (p : Plain s a) (l n : Nat) (acq : Option Nat) :
    s.loadBytes a l n acq = (cutBytes l n ((wordsOf l n).map s.word), s) := by
  unfold State.loadBytes State.loadWords
  simp only [seenActs_plain p]
  rw [fold_loads _ s.word (fun acc x => by simp only [loadAmong_plain p])]
  rfl

def resumeBench : State :=
  let r : Instr := .resume { a := 1 }
  putW 0x20000 0x10008 (putW 0x20020 0x101 (bench r 0 fun k => setS 0 1 0x20000 { k with level := true, tfbase := 0x20000 }))
def rS1 : State := stOf (sources none [1] []) resumeBench
def rS2 : State := stOf (translate (rS1.bank rS1.cur).tfbase 0) rS1
theorem rA : Runs (sources none [1] []) resumeBench [0x20000] rS1 := runs_stOf
theorem rB : Runs (translate (rS1.bank rS1.cur).tfbase 0) rS1 0x20000 rS2 := runs_stOf
theorem rD : rS2.loadBytes rS2.cur.agent 0x20000 2304 =
    (cutBytes 0x20000 2304 ((wordsOf 0x20000 2304).map rS2.word), rS2) := loadBytes_plain ⟨dk, dk, dk⟩ _ _ _
theorem rC : frameOk (rS1.bank rS1.cur) ((rS2.loadBytes rS2.cur.agent 0x20000 2304).2.frameRead 0x20000
    (rS2.loadBytes rS2.cur.agent 0x20000 2304).1) false = some [] := by
  rw [rD]
  decide +kernel

theorem witness_resume (h : Obligations.TrapsAndResumeComplete) : ∃ t, exec (.resume { a := 1 }) resumeBench = .next t :=
  let ⟨t, e, _⟩ := h.2.2.2 { a := 1 } resumeBench 0x20000 rS1 0x20000 rS2 rS2 [] dk rA dk
    dk rB dk dk runs_stOf rC
  ⟨t, e⟩

theorem witness_vectors (h : Obligations.VectorsComplete) :
    let i : Instr := .vfma { d := 3, a := 1, b := 2, m := 7 }
    let c : Instr := .vceq { d := 3, a := 1, b := 2 }
    let p : Instr := .mpop { d := 3, a := 1 }
    Goes i (bench i 2) ∧ Goes c (bench c 2) ∧ Goes p (bench p 2) :=
  ⟨⟨_, h _ _ _ _ _ _ _ rfl dk runs_stOf⟩, ⟨_, h _ _ _ _ _ _ _ rfl dk runs_stOf⟩,
   ⟨_, h _ _ _ _ _ _ _ rfl dk runs_stOf⟩⟩

theorem witness_moves (h : Obligations.MovesAndTilesComplete) :
    let m : Instr := .vmov { d := 3, a := 1, e := some 3 }
    let s : Instr := .vsplat { d := 3, a := 1 }
    let g : Instr := .vget { d := 3, a := 1, e := some 1023 }
    let p : Instr := .vput { d := 3, a := 1, e := some 1023 }
    Goes m (bench m 2) ∧ Goes s (bench s 2) ∧ Goes g (bench g 2) ∧ Goes p (bench p 2) :=
  ⟨⟨_, h.1 _ _ _ dk runs_stOf⟩,
   ⟨_, h.2.1 _ _ 0 _ _ dk (runs_stOf (a := xScalar 1)) runs_stOf⟩,
   ⟨_, h.2.2.1 _ _ _ dk runs_stOf⟩, ⟨_, h.2.2.2.1 _ _ 0 _ _ dk runs_stOf runs_stOf⟩⟩

theorem witness_tiles (h : Obligations.MovesAndTilesComplete) :
    let p : Instr := .vpop { d := 3, a := 8, e := some 4 }
    let u : Instr := .vpush { d := 12, a := 1, b := 2, e := some 4 }
    Goes p (later (bench p 2 (putR 8 [⟨1, 0⟩, ⟨2, 0⟩]))) ∧ Goes u (bench u 2) :=
  ⟨⟨_, h.2.2.2.2.1 _ _ [⟨1, 0⟩, ⟨2, 0⟩] _ _ dk dk (runs_chk (chk_popOk _)) (runs_chk (chk_matrixOk _))
    runs_stOf runs_stOf⟩,
   ⟨_, h.2.2.2.2.2 _ _ 0 _ 0 _ _ dk dk (runs_chk (chk_pushOk _)) runs_stOf runs_stOf runs_stOf⟩⟩

theorem witness_conversions (h : Obligations.ConversionsComplete) :
    let q : Instr := .vquant { d := 4, a := 2, b := 6, e := some 0x01C00000 }
    let d : Instr := .vdequant { d := 4, a := 2, b := 6, e := some 0 }
    let f : Instr := .vftoi { d := 3, a := 1, e := some 0x01800000 }
    let t : Instr := .vitof { d := 3, a := 1 }
    Goes q (bench q 2) ∧ Goes d (bench d 2) ∧ Goes f (bench f 2) ∧ Goes t (bench t 2) :=
  ⟨⟨_, h.1 true _ _ _ dk dk runs_stOf⟩,
   ⟨_, h.1 false _ _ _ dk dk runs_stOf⟩,
   ⟨_, h.2 true _ _ _ dk runs_stOf⟩, ⟨_, h.2 false _ _ _ dk runs_stOf⟩⟩

theorem witness_streams (h : Obligations.StreamsAndGathersComplete) :
    let b : Instr := .sbind { q := 1, a := 1, f := 7 }
    let p : Instr := .sstop { f := 7 }
    let t : Instr := .sstat { a := 3, f := 7 }
    let stopping (k : Bank) : Bank := k.modSeq 1 fun x => { x with waitCmd := some (0, 0) }
    Goes b (putW 0x20030 0x800000000 (bench b 1 (setS 1 1 0x20000))) ∧ Goes p (bench p 1) (.again 8) ∧ Goes p (bench p 1 stopping) ∧
      Goes t (bench t 1) :=
  let ⟨bind, place, stop, stat, _⟩ := h;
  ⟨⟨_, bind _ _ 0x20000 _ [0, 0, 0, 0, 0, 0, 0x800000000, 0] _ false _ _ dk (runs_chk (chk_limits _)) (runs_chk (chk_pushOk _))
    (runs_chk (chk_flags _)) runs_stOf runs_stOf (runs_chk (chk_sdesc _ _)) runs_stOf runs_stOf⟩,
   ⟨_, (place _ _ _ _ dk (runs_chk (chk_flags _)) rfl false runs_stOf).2 rfl runs_stOf⟩,
   ⟨_, stop _ _ 0 0 _ dk (runs_chk (chk_flags _)) rfl dk runs_stOf⟩,
   ⟨_, stat _ _ (.s 3) _ _ dk (runs_chk (chk_dsts _)) runs_stOf runs_stOf⟩⟩

/-- A stop that parks on a flag completes at once. -/
theorem witness_parked_stop (h : Obligations.StreamsAndGathersComplete) :
    let i : Instr := .sstop { f := 7, e := some 0x01000000 }
    Goes i (bench i 1 fun k => { k with f := vset k.f 0 { k.f.get 0 with v := 1 } }) :=
  ⟨_, (h.2.1 _ _ _ _ dk (runs_chk (chk_flags _)) rfl true runs_stOf).1 rfl runs_stOf⟩

theorem witness_gathers (h : Obligations.StreamsAndGathersComplete) :
    let g : Instr := .gather { q := 8, a := 1, b := 2 }
    let t : Instr := .gatherq { q := 8, a := 1, b := 2 }
    let w : Instr := .gwait { q := 15 }
    let r : Instr := .gstat { q := 15, a := 3, f := 3 }
    let at' (i : Instr) : State := putW 0x20018 0x800000000 (bench i 1 fun k => setS 1 1 0x20000 (setS 1 2 0x100000000 k))
    Goes g (at' g) ∧ Goes t (at' t) ∧ Goes w (bench w 1) ∧ Goes r (bench r 1) :=
  let ⟨_, _, _, _, list, queue, wait, stat⟩ := h;
  ⟨⟨_, list _ _ 0x20000 0x100000000 _ [0, 0, 0, 0x800000000, 0, 0, 0, 0] _ 1 _ _ _ dk (runs_chk (chk_limits _))
    (runs_chk (chk_gqueue _)) (runs_chk (chk_flags _)) runs_stOf runs_stOf (.inl dk) (runs_chk (chk_gdesc _ _ _)) runs_stOf
    runs_stOf runs_stOf⟩,
   ⟨_, queue _ _ 0x20000 0x100000000 _ [0, 0, 0, 0x800000000, 0, 0, 0, 0] _ _ _ dk (runs_chk (chk_limits _))
    (runs_chk (chk_gqueue _)) (runs_chk (chk_flags _)) runs_stOf runs_stOf (runs_chk (chk_gdesc _ _ _)) runs_stOf runs_stOf⟩,
   ⟨_, wait _ _ _ dk dk runs_stOf⟩,
   ⟨_, stat _ _ (.s 3) _ _ dk (runs_chk (chk_dsts _)) runs_stOf runs_stOf⟩⟩

theorem witness_copies (h : Obligations.CopiesAndWeightLoadsComplete) :
    let c : Instr := .copy { d := 3, a := 1, b := 2 }
    let f : Instr := .copyf { d := 3, a := 1, b := 2 }
    let t : Instr := .copy2d { d := 3, a := 1, b := 2 }
    let at' (y : W64) (k : Bank) : Bank := setS 1 1 0x20000 (setS 1 2 y (setS 1 3 0x20100 k))
    let y : W64 := ((encodeWord (.mswap {})).getD 0).setWidth 64
    Goes c (bench c 1 (at' 8)) ∧ Goes f (bench f 1 (at' y)) ∧ Goes t (putW 0x20040 0x100000008 (bench t 1 (at' 0x20040))) :=
  let ⟨copy, follow, plane, _⟩ := h;
  ⟨⟨_, copy _ _ 0x20000 8 0x20100 _ _ _ dk (runs_chk (chk_flags _)) runs_stOf dk dk dk runs_stOf runs_stOf⟩,
   ⟨_, follow _ _ 0x20000 _ 0x20100 _ _ _ dk (runs_chk (chk_flags _))
    (runs_stOf (v := [_, ((encodeWord (.mswap {})).getD 0).setWidth 64, _])) dk runs_stOf runs_stOf⟩,
   ⟨_, plane _ _ 0x20000 0x20040 0x20100 _ [0x100000008, 0, 0, 0] _ _ _ dk (runs_chk (chk_limits _)) (runs_chk (chk_flags _)) runs_stOf
    runs_stOf dk dk dk runs_stOf runs_stOf⟩⟩

theorem witness_wload (h : Obligations.CopiesAndWeightLoadsComplete) :
    let i : Instr := .wload { a := 1 }
    Goes i (bench i 1 fun k => { k with wsrange := 0x04000000 }) :=
  ⟨_, h.2.2.2 _ _ 0 _ _ dk (runs_chk (chk_limits _)) (fun e => absurd e dk) runs_stOf dk dk (fun e => absurd e dk) dk dk dk dk dk dk
    runs_stOf⟩

def aTodo : Todo := { src := [(0x20100, 256)], srcVa := 0x20100, ent := { agent := 1, parts := [⟨0x4000, 0xFF, 1⟩] } }
/-- A store instruction with rows still to be stored: `n` fit. -/
def storing (i : Instr) (q : SeqId) (n : Nat) : State := bench i q fun k => k.modSeq q fun x =>
  { x with todo := List.replicate n aTodo, todoAt := BitVec.ofNat 64 (placeLine + 4) }
theorem witness_rows (h : Obligations.CountedRowsComplete) :
    let f : Instr := .rcfill { d := 3, a := 1, b := 2 }
    let c : Instr := .rcclose { a := 1, b := 2 }
    let q : Instr := .rcquery { d := 3, a := 1 }
    let at' (n : W64) (k : Bank) : Bank := setS 1 1 0x20000 (setS 1 2 n (setS 1 3 0x20100 k))
    Goes f (bench f 1 (at' 0x10001)) ∧ Goes f (storing f 1 1) ∧
      Goes c (bench c 1 fun k => setS 1 1 0x20000 (setS 1 2 0x100 k)) ∧ Goes q (bench q 1 (setS 1 1 0x20007)) :=
  let ⟨fill, rest, close, query⟩ := h;
  ⟨⟨_, (fill _ _ 0x20000 0x10001 0x20100 _ [[(0x20100, 256)]] _ [[(0x20000, 256)]] _ 0 _ [] _ _ dk dk runs_stOf dk dk (runs_chk (chk_class _)) dk
    (runs_chk (chk_class _)) dk runs_stOf runs_stOf (runs_chk (chk_watch _ _ _ _)) (runs_chk (chk_watch _ _ _ _)) dk dk dk runs_stOf
    runs_stOf).1 rfl runs_stOf⟩,
   ⟨_, (rest _ none _ [] _ _ _ rfl dk dk dk dk runs_stOf).1 rfl runs_stOf runs_stOf⟩,
   ⟨_, close _ _ 0x20000 0x100 _ [[(0x20000, 256)]] _ _ dk dk dk dk dk runs_stOf dk dk dk runs_stOf dk runs_stOf runs_stOf⟩,
   ⟨_, query _ _ 0x20007 _ 0x20007 _ (.s 3) _ _ dk runs_stOf runs_stOf runs_stOf runs_stOf⟩⟩

theorem witness_shapes (h : Obligations.ShapesAndQueueLoadsComplete) :
    let l : Instr := .shload { d := 3, a := 1, b := 2 }
    let x : Instr := .shext { d := 3, a := 1, b := 2 }
    let p : Instr := .prefetch { a := 1, imm := 64 }
    Goes l (putW 0x20038 0x900000000 (bench l 1 fun k => setS 1 1 0x20000 (setS 1 2 7 k))) ∧
      Goes x (bench x 1 fun k => setS 1 1 0x20000 (setS 1 2 7 k)) ∧ Goes p (bench p 1 (setS 1 1 0x20000)) :=
  ⟨⟨_, h.1 _ _ 0x20000 7 _ 9 _ (.s 3) _ _ dk runs_stOf runs_stOf runs_stOf runs_stOf⟩,
   ⟨_, h.2.1 _ _ 0x20000 7 0 _ 0 _ _ _ dk runs_stOf (runs_chk (chk_class _)) dk runs_stOf runs_stOf runs_stOf⟩,
   ⟨_, h.2.2.2.2 _ _ 0x20000 _ _ dk runs_stOf runs_stOf⟩⟩

theorem witness_queue_loads (h : Obligations.ShapesAndQueueLoadsComplete) :
    let q : Instr := .ldq { q := 1, a := 1 }
    let r : Instr := .ldrow { q := 8, a := 1, b := 2 }
    Goes q (bench q 1 (setS 1 1 0x20000)) ∧ Goes r (bench r 1 (setS 1 1 0x20000)) :=
  ⟨⟨_, h.2.2.1 _ _ 0x20000 _ 0 _ 0 _ _ dk dk (runs_chk (chk_pushOk _)) runs_stOf runs_stOf runs_stOf
    runs_stOf⟩,
   ⟨_, h.2.2.2.1 _ _ 0x20000 0 _ (some (List.replicate 256 0)) _ _ dk dk (runs_chk (chk_pushOk _))
    runs_stOf dk runs_stOf runs_stOf⟩⟩

/-- A map of eight by eight bits, bound as map 0. -/
def bound (s : State) : State := s.modClu 0 fun u => { u with maps := vset u.maps 0 (some ⟨0, 8, 8⟩) }

theorem chk_bound (m : Fin 8) (s : State) (v : LMap) (h : answers (boundMap m) s v = true) : Runs (boundMap m) s v s := by
  have r := runs_stOf h
  have c : ∀ t, Runs (boundMap m) s v t → t = s := by
    intro t r
    obtain ⟨u, w, a, b⟩ := runs_bind_iff.mp r
    cases a
    split at b
    · cases b; rfl
    · cases b
  have e := c _ r
  rw [e] at r
  exact r

theorem witness_lamplighter (h : Obligations.LamplighterComplete) :
    let b : Instr := .actBind { d := 3, a := 1, b := 2 }
    let m : Instr := .actMark { d := 3, a := 1, b := 2 }
    let c : Instr := .actClear { d := 3, a := 1, b := 2 }
    let l : Instr := .actList { d := 3, a := 1, b := 2 }
    let n : Instr := .actCount { d := 3, b := 2 }
    Goes b (bench b 1 fun k => setS 1 1 0x10001000 (setS 1 3 0x8000000000000000 k)) ∧
      Goes m (bound (bench m 1 fun k => setS 1 1 63 (setS 1 3 1 k))) ∧ Goes c (bound (bench c 1 (setS 1 3 64))) ∧
      Goes l (bound (bench l 1 (setS 1 1 0x20000))) ∧ Goes n (bound (bench n 1)) (.again 8) ∧
      Goes n (bench n 1 fun k => k.modSeq 1 fun x => { x with waitCmd := some (4, 9) }) :=
  ⟨⟨_, h.1 _ _ 0x10001000 0 0x8000000000000000 _ 0 _ _ dk runs_stOf dk dk dk dk
    dk dk dk runs_stOf runs_stOf⟩,
   ⟨_, h.2.1 _ _ 0 63 1 _ _ _ dk runs_stOf runs_stOf runs_stOf⟩,
   ⟨_, h.2.2.1 _ _ 0 0 64 _ _ _ dk runs_stOf runs_stOf runs_stOf⟩,
   ⟨_, h.2.2.2.1 _ _ 0x20000 0 0 _ ⟨0, 8, 8⟩ _ _ dk runs_stOf (runs_chk (chk_flags _)) dk
    (chk_bound _ _ _ dk) runs_stOf runs_stOf⟩,
   ⟨_, (h.2.2.2.2 _ _ [0] _ 4 9 (.s 3) (bench .nop 1) _ dk (fun y e => by cases e) (fun _ => runs_stOf)).1 ⟨0, 8, 8⟩ rfl
    (chk_bound _ _ _ dk) dk runs_stOf⟩,
   ⟨_, (h.2.2.2.2 _ _ [0] _ 4 9 (.s 3) _ _ dk (fun y e => by cases e) (fun _ => runs_stOf)).2 rfl dk runs_stOf runs_stOf⟩⟩

theorem witness_matrix (h : Obligations.MatrixCommandsComplete) :
    let m : Instr := .mmul { zd := 7, flag := 31, pol := 4, e := some 0x00200000 }
    let r : Instr := .mrank { zd := 1, e := some 0x00001040 }
    let s : Instr := .mswap {}
    let z : Instr := .mzero { zd := 7 }
    Goes m (bench m 2) ∧ Goes r (bench r 2) ∧ Goes s (bench s 2) ∧ Goes z (bench z 2) :=
  ⟨⟨_, (h _ dk dk).1 false _ _ dk dk dk runs_stOf⟩,
   ⟨_, (h _ dk dk).1 true _ _ dk dk dk runs_stOf⟩,
   ⟨_, (h _ dk dk).2.1 _ _ dk runs_stOf⟩,
   ⟨_, (h _ dk dk).2.2 _ _ dk runs_stOf⟩⟩

theorem witness_matrix_reads (h : Obligations.MatrixReadsComplete) :
    let c : Instr := .mclose { zd := 7 }
    let w : Instr := .mwait { pol := 1 }
    let r : Instr := .mread { zd := 7, fmt := 3, flag := 15, pol := 1, e := some 3 }
    let t : Instr := .mstat { zd := 7, fmt := 3, pol := 4 }
    let u : Instr := .fmtw { a := 1, b := 2 }
    let v : Instr := .fmtr { d := 3, a := 1 }
    Goes c (bench c 2) ∧ Goes w (bench w 2) ∧ Goes r (bench r 2) ∧ Goes t (bench t 2) ∧
      Goes u (bench u 0 fun k => setS 0 1 63 (setS 0 2 0x33 k)) ∧ Goes v (bench v 0) :=
  ⟨⟨_, h.1 _ _ _ dk runs_stOf⟩, ⟨_, h.2.1 _ _ _ dk dk runs_stOf⟩,
   ⟨_, h.2.2.1 _ _ _ dk dk dk runs_stOf⟩,
   ⟨_, h.2.2.2.1 _ _ _ dk dk dk runs_stOf⟩,
   ⟨_, h.2.2.2.2.1 _ _ 63 0x33 _ _ dk runs_stOf dk runs_stOf⟩,
   ⟨_, (h.2.2.2.2.2.2.2 _ _ 0 _ dk runs_stOf).1 dk (.s 3) _ _ runs_stOf runs_stOf⟩⟩

/-- The writes of format slots that land at the end of a cycle. -/
theorem witness_fmt_cycle (h : Obligations.MatrixReadsComplete) :
    ({ fmtPend := [(0, 63, 5)] } : Bank).fmtCommit.fmt.get 63 = 5 ∧ ({ fmtPend := [(2, 0, 7), (0, 0, 5)] } : Bank).fmtCommit.fmt.get 0 = 7 :=
  let ⟨_, _, _, _, _, one, two, _⟩ := h;
  ⟨by rw [one _ 63 0 5 rfl]; exact vset_get_self _ _ _, two _ 0 5 7 (.swap _ _ _)⟩

theorem witness_auction (h : Obligations.AuctionComplete) :
    let c : Instr := .aecfg { a := 1 }
    let r : Instr := .aerun { d := 3, a := 1 }
    let d : Instr := .aeread { d := 3, a := 1 }
    let x : AEDesc := aedescOf [0, 0, 0x100000000, 0x3F80000000010001, 0, 0, 0, 0]
    Goes c (putW 0x20010 0x100000000 (putW 0x20018 0x3F80000000010001 (bench c 0 (setS 0 1 0x20000)))) ∧
      Goes r (bench r 0 fun k => { k with aecfg := some x }) ∧ Goes d (bench d 0) :=
  ⟨⟨_, h.1 _ _ 0x20000 _ [0, 0, 0x100000000, 0x3F80000000010001, 0, 0, 0, 0] _ _ dk (runs_chk (chk_limits _)) runs_stOf runs_stOf
    dk runs_stOf⟩,
   ⟨_, h.2.1 _ _ 0 _ (aedescOf [0, 0, 0x100000000, 0x3F80000000010001, 0, 0, 0, 0]) (.s 3) _ _ dk runs_stOf dk
    dk (runs_chk (chk_flags _)) dk dk runs_stOf runs_stOf⟩,
   ⟨_, h.2.2 _ _ 0 _ (.s 3) _ _ dk runs_stOf runs_stOf runs_stOf⟩⟩

theorem witness_row_stores (h : Obligations.SideStoresComplete) :
    let i : Instr := .strow { q := 12, a := 1 }
    let c : Instr := .strc { q := 12, a := 1 }
    let at' (i : Instr) : State := later (bench i 3 fun k => putR 12 [⟨1, 5⟩] (setS 3 1 0x20100 k))
    Goes i (at' i) ∧ Goes c (at' c) :=
  ⟨⟨_, ((h _ _ dk dk).1 ⟨1, 5⟩ _ [0x20100] _ [(0x20100, 256)] _ _ dk runs_stOf runs_stOf (runs_chk (chk_class _)) dk
    runs_stOf runs_stOf [] _ _ _ runs_stOf).1 rfl runs_stOf runs_stOf⟩,
   ⟨_, ((h _ _ dk dk).2.2.2 ⟨1, 5⟩ _ [0x20100] _ [(0x20100, 256)] _ _ 0 _ dk runs_stOf runs_stOf (runs_chk (chk_class _)) dk
    runs_stOf runs_stOf runs_stOf [] _ _ _ runs_stOf).1 rfl runs_stOf runs_stOf⟩⟩

theorem witness_word_stores (h : Obligations.SideStoresComplete) :
    let w : Instr := .stword { q := 6, a := 1 }
    let s : Instr := .scatter { q := 12, a := 1, b := 2, e := some 0x00010000 }
    Goes w (later (bench w 3 fun k => putQ 6 [9] (setS 3 1 0x20008 k))) ∧
      Goes s (later (bench s 3 fun k => putR 12 [⟨1, 5⟩] (setS 3 1 0x20100 (setS 3 2 0x20000 k)))) :=
  ⟨⟨_, ((h _ _ dk dk).2.1 [9] _ 0x20008 _ [[(0x20008, 8)]] _ _ dk dk (runs_chk (chk_popOk _)) (runs_chk (chk_srcs _)) runs_stOf
    runs_stOf runs_stOf runs_stOf [] _ _ _ runs_stOf).1 rfl runs_stOf runs_stOf⟩,
   ⟨_, ((h _ _ dk dk).2.2.1 ⟨1, 5⟩ _ 0x20100 0x20000 _ [some 0] _ [(0, 0x20100, 0x20100)] _ _ dk runs_stOf runs_stOf dk
    runs_stOf runs_stOf runs_stOf [] _ _ _ runs_stOf).1 rfl runs_stOf runs_stOf⟩⟩

theorem witness_port (h : Obligations.PortAndOutputStreamsComplete) :
    let i : Instr := .rstore { q := 12, a := 1, f := 6 }
    let x : Instr := .rstore { q := 12, a := 1, b := 2, f := 1 }
    let a : Instr := .ratom { q := 7, a := 1, b := 2 }
    let row (s : State) : State := later s
    let table (s : State) : State :=
      putW 0x20000 0x10000 (putW 0x20040 0x8000000100000001 (putW 0x20050 0x20100 (putW 0x20058 0xFFFF
        { s with ctxs := [(0, { blk := (Vector.replicate 12 0).set 11 0x20000, free := [] })] })))
    Goes i (row (bench i 3 fun k => putR 12 [⟨1, 5⟩] (setS 3 1 0x20020 k))) ∧
      Goes x (row (table (bench x 3 (putR 12 [⟨1, 5⟩])))) ∧ Goes a (bench a 3 (setS 3 1 0x20000)) :=
  ⟨⟨_, h.1 _ _ ⟨1, 5⟩ _ [0x20020] _ _ _ dk runs_stOf runs_stOf (fun e => absurd e dk) (fun _ => runs_stOf) runs_stOf⟩,
   ⟨_, h.1 _ _ ⟨1, 5⟩ _ [0, 0] _ _ _ dk runs_stOf runs_stOf
    (fun _ => ⟨0xFFFF, 0x20100, _, runs_stOf, runs_stOf⟩) (fun e => absurd e dk) runs_stOf⟩,
   ⟨_, h.2.1 _ _ 0x20000 0 _ 0x20000 _ 0 _ _ dk dk (fun _ => ⟨dk, runs_chk (chk_pushOk _)⟩) runs_stOf (runs_chk (chk_room _))
    (fun _ => runs_chk (chk_class _)) dk runs_stOf runs_stOf runs_stOf⟩⟩

theorem witness_output_streams (h : Obligations.PortAndOutputStreamsComplete) :
    let b : Instr := .obind { q := 12, a := 1, f := 7 }
    let p : Instr := .ostop { f := 7, e := some 0x01000000 }
    let w : Instr := .ostop { f := 7 }
    Goes b (putW 0x20030 0x800000000 (bench b 3 (setS 3 1 0x20000))) ∧
      Goes p (bench p 3 fun k => { k with f := vset k.f 0 { k.f.get 0 with v := 1 } }) ∧ Goes w (bench w 3) (.again 8) ∧
      Goes w (bench w 3 fun k => k.modSeq 3 fun x => { x with waitCmd := some (0, 0) }) :=
  let ⟨_, _, bind, place, stop⟩ := h;
  ⟨⟨_, bind _ _ 0x20000 _ [0, 0, 0, 0, 0, 0, 0x800000000, 0] _ false _ _ dk (runs_chk (chk_limits _)) (runs_chk (chk_popOk _))
    (runs_chk (chk_flags _)) runs_stOf runs_stOf (runs_chk (chk_sdesc _ _)) runs_stOf runs_stOf⟩,
   ⟨_, (place _ _ _ _ dk (runs_chk (chk_flags _)) rfl true runs_stOf).1 rfl runs_stOf⟩,
   ⟨_, (place _ _ _ _ dk (runs_chk (chk_flags _)) rfl false runs_stOf).2 rfl runs_stOf⟩,
   ⟨_, stop _ _ 0 0 _ dk (runs_chk (chk_flags _)) rfl dk dk runs_stOf⟩⟩

/-- The turn of a sequencer runs an instruction. -/
theorem turn_run (i : Instr) {s : State} {c : CoreId} {b : BankId} {q : SeqId} (h : (match s.turnOf c b q with
    | .run j _ => decide (j = i)
    | _ => false) = true := by decide +kernel) : ∃ u, s.turnOf c b q = .run i u := by
  split at h
  · rename_i j u e
    rw [of_decide_eq_true h] at e
    exact ⟨u, e⟩
  · cases h
/-- A turn of an addition that reads s1. -/
def reads (r : List Ret := []) : State := bench (.add { d := 3, a := 1, b := 2 }) 0 fun k => k.modSeq 0 fun x => { x with ret := r }
/-- A turn of a `qpop` of queue 3, which holds a word. -/
def popping : State := later (bench (.qpop { q := 3, a := 4 }) 0 (putQ 3 [9]))

theorem witness_sequencer_events (h : Obligations.SequencerEventsComplete) :
    Ends (.illegalInstruction 0) ({ evt id with phase := .alone }) ∧ Ends (.illegalInstruction 0) ({ evt id with phase := .early }) ∧
    Ends (.impreciseTrap 0) (evt fun k => { k with tpend := 1 }) ∧
    Ends (.exposedWriteLand 0 0) (evt id) ∧ Ends (.registerWriteLand 0 0 3) (evt id) ∧
    Ends (.stepCountExpire 0) (evt id fun k => { k with stepping := true }) ∧ Ends (.tbskewMeasure 0 500) (evt id) :=
  let ⟨trap, raise, late, _, _, exposed, register, _, _, _, _, expire, skew⟩ := h;
  ⟨⟨_, trap _ _ dk dk⟩, ⟨_, raise _ _ dk⟩, ⟨_, late _ _ 0 rfl dk dk dk⟩, ⟨_, exposed _ _ _⟩, ⟨_, register _ _ _ _⟩,
   ⟨_, expire _ _ rfl dk dk⟩, ⟨_, skew _ _ _⟩⟩

/-- A line that arrives, in a word of which an uncorrectable error stands or does not. -/
theorem witness_line (h : Obligations.SequencerEventsComplete) :
    let s := evt fun k => k.modSeq 0 fun x => { x with stall := 10, want := 0x10040 }
    Ends (.fetchLineArrive 0 0 0) s ∧ Ends (.fetchLineArrive 0 0 0) { s with poison := [0x2008] } ∧
      s.codeLine 0x10040 = BitVec.ofNat 512 (s.mem.readLe 0x10040 64) :=
  ⟨⟨_, (h.2.2.2.1 _ _ _ _ 0x10040 false _ rfl dk (pair1 dk) dk dk).1 dk⟩,
   ⟨_, (h.2.2.2.1 _ _ _ _ 0x10040 false _ rfl dk (pair1 dk) dk dk).2 dk dk⟩, h.2.2.2.2.1 _ _ dk (fun _ _ => rfl)⟩

theorem witness_parity (h : Obligations.SequencerEventsComplete) :
    Ends (.parityRepair 0 0 0 0 1 true) (reads [⟨[(0, 1)], 3, none, 0⟩]) ∧
    (({ regs := [(0, 1)], lat := 0 } : Ret).latency reads).1 ∈ [10, 60, 300, 420] ∧ Ends (.parityRepair 0 0 0 0 1 true) reads ∧
    Ends (.parityRepair 0 0 0 6 255 false) reads ∧ Ends (.parityRepair 0 0 0 7 3 false) popping :=
  let ⟨_, _, _, _, _, _, _, repair, lost, other, entry, _⟩ := h;
  let ⟨_, t⟩ := turn_run (.add { d := 3, a := 1, b := 2 }) (s := reads [⟨[(0, 1)], 3, none, 0⟩]) (c := 0) (b := 0) (q := 0);
  let ⟨_, a⟩ := turn_run (.add { d := 3, a := 1, b := 2 }) (s := reads [⟨[(0, 1)], 0, none, 0⟩]) (c := 0) (b := 0) (q := 0);
  let ⟨_, u⟩ := turn_run (.add { d := 3, a := 1, b := 2 }) (s := reads) (c := 0) (b := 0) (q := 0);
  let ⟨_, p⟩ := turn_run (.qpop { q := 3, a := 4 }) (s := popping) (c := 0) (b := 0) (q := 0);
  ⟨⟨_, (repair _ _ _ 0 1 _ _ _ ⟨[(0, 1)], 3, none, 0⟩ t dk dk dk).2.2⟩,
   List.contains_iff_mem.mp ((repair _ _ _ 0 1 _ _ _ ⟨[(0, 1)], 0, none, 0⟩ a dk dk dk).2.1 rfl),
   ⟨_, lost _ _ _ _ _ _ _ _ _ u dk dk (fun _ => dk) dk dk⟩, ⟨_, other _ _ _ _ _ _ _ _ _ u dk dk⟩,
   ⟨_, entry _ _ _ 3 _ _ _ _ [] p dk dk dk rfl⟩⟩

theorem witness_copy_engine (h : Obligations.CopyEngineCompletes) :
    Ends (.copyEngineStart 0) (evt id fun k => { k with copyFifo := [aCopy] }) ∧
    Ends (.streamElementPush 0 7) (evt id fun k => { k with copyRun := [Run.start (aCmd (.stream 7 1 false aStream))] }) ∧
    Ends (.gatherRowDeliver 0 0 0) (evt id fun k => { k with copyRun := [Run.start (aCmd (.gather 8 false false aGather 0 1))] }) ∧
    Ends (.gatherRowDeliver 0 0 0) (evt id fun k => { k with copyRun := [Run.start (aCmd (.gatherq 8 false false aGather 0 0))] }) :=
  let ⟨start, stream, list, queue, _⟩ := h;
  ⟨⟨_, start _ _ aCopy [] rfl dk dk dk⟩,
   ⟨_, stream _ _ _ (Run.start (aCmd (.stream 7 1 false aStream))) 7 1 false aStream dk dk dk⟩,
   ⟨_, list _ _ _ _ (Run.start (aCmd (.gather 8 false false aGather 0 1))) 8 false false aGather 0 1 dk dk dk⟩,
   ⟨_, queue _ _ _ _ (Run.start (aCmd (.gatherq 8 false false aGather 0 0))) 8 false false aGather 0 0 dk dk dk⟩⟩

/-- A copy of one word that it has still to write, has written, or has written in a refused page. -/
def copying (r : Run) : State := evt id fun k => { k with copyRun := [r] }
theorem witness_copy_complete (h : Obligations.CopyEngineCompletes) :
    let r := Run.start aCopy
    Ends (.copyComplete 0 0) (copying r) ∧ Ends (.copyComplete 0 0) (copying { r with left := [] }) ∧
    Ends (.copyComplete 0 0) (copying { r with refused := some 0 }) :=
  let ⟨_, _, _, _, copy, _⟩ := h;
  ⟨⟨_, (copy _ _ _ (Run.start aCopy) 0x20100 0x20000 8 1 0 0 false false none dk dk dk dk).2.1 dk dk dk⟩,
   ⟨_, (copy _ _ _ { Run.start aCopy with left := [] } 0x20100 0x20000 8 1 0 0 false false none dk dk dk dk).1 rfl⟩,
   ⟨_, (copy _ _ _ { Run.start aCopy with refused := some 0 } 0x20100 0x20000 8 1 0 0 false false none dk dk dk dk).2.2 dk rfl dk⟩⟩

theorem witness_parked (h : Obligations.CopyEngineCompletes) :
    let p : Parked := ⟨{}, ⟨false, 0⟩, 0, .copyCmd aCopy, true, 0⟩
    let w : W32 := (encodeWord (.mswap {})).getD 0
    Ends (.parkedRelease 0) (evt id fun k => { k with parked := [p] }) ∧
    Ends (.parkedRelease 0) (evt id fun k => { k with parked := [{ p with freed := false }] }) ∧
    Ends (.followonPlace 0 4) (evt id fun k => { k with follow := [(4, {}, w, 0, none)] }) :=
  let ⟨_, _, _, _, _, freed, waits, follow⟩ := h;
  ⟨⟨_, freed _ _ ⟨{}, ⟨false, 0⟩, 0, .copyCmd aCopy, true, 0⟩ rfl rfl rfl dk dk dk⟩,
   ⟨_, waits _ _ ⟨{}, ⟨false, 0⟩, 0, .copyCmd aCopy, false, 0⟩ rfl rfl⟩,
   ⟨_, follow _ _ _ {} ((encodeWord (.mswap {})).getD 0) 0 none (.mswap {}) dk dk dk dk dk⟩⟩

def anOp : MOp := { rank := false, rej := false, mte := false, flag := none, z := 1, q := 8, base := 0, sv := none, n := 2, nc := 0, slot := 0x22, bad := false }
def aRun : MRun := { id := 4, who := {}, o := anOp }

def aLoad : WRun := ⟨3, 0, {}, 0, 0, 0x22, false, false, 0, false⟩
theorem witness_matrix_engine (h : Obligations.MatrixEngineCompletes) :
    let fl : PRow := ⟨0, 0, ⟨1, 5⟩, true, 0, 0⟩
    Ends (.matrixCmdStart 0) (evt id fun k => { k with mFifo := [{ who := {}, kind := .swap none }] }) ∧
    Ends (.matrixRowPop 0) (later (evt (putR 8 [⟨1, 5⟩]) fun k => { k with mRun := [aRun] })) ∧
    Ends (.matrixContributionLand 0) (evt id fun k => { k with mRun := [{ aRun with fly := [fl] }] }) ∧
    Ends (.matrixOpComplete 0) (evt id fun k => { k with mRun := [{ aRun with recv := 2 }] }) ∧
    ({ aRun with recv := 2 } : MRun).popped = true :=
  let ⟨start, pop, land, ended, done, _⟩ := h;
  ⟨⟨_, start _ _ 0 { who := {}, kind := .swap none } dk dk dk dk⟩,
   ⟨_, pop _ _ 0 aRun (.row ⟨1, 5⟩ 0) [] dk dk dk dk dk dk dk dk dk⟩,
   ⟨_, (land _ _ { aRun with fly := [⟨0, 0, ⟨1, 5⟩, true, 0, 0⟩] } ⟨0, 0, ⟨1, 5⟩, true, 0, 0⟩ dk dk).2 dk⟩,
   ⟨_, done _ _ { aRun with recv := 2 } dk dk⟩, (ended { aRun with recv := 2 } 0 rfl).1⟩

/-- A weight load at its end, of a window in which the units of `ps` are poisoned. -/
def loading (r : WRun) (ps : List Nat := []) : State :=
  { evt id (fun k => { k with wRun := some r }) with now := 100000, poison := ps }
theorem witness_weight_load (h : Obligations.MatrixEngineCompletes) :
    Ends (.wloadComplete 0) (loading aLoad) :=
  let ⟨_, _, _, _, _, load⟩ := h;
  ⟨_, (load _ _ aLoad dk dk dk).1 dk⟩
/-- A load of an uncorrectable byte, at first and when it replays. -/
theorem witness_weight_replay (h : Obligations.MatrixEngineCompletes) :
    Ends (.wloadComplete 0) (loading aLoad [wsLoc 0 0 / 8]) ∧
    Ends (.wloadComplete 0) (loading { aLoad with again := true } [wsLoc 0 0 / 8]) := by
  obtain ⟨_, _, _, _, _, load⟩ := h
  have first := (load 0 (loading aLoad [wsLoc 0 0 / 8]) aLoad dk dk dk).2.1 dk rfl
  have second := (load 0 (loading { aLoad with again := true } [wsLoc 0 0 / 8]) { aLoad with again := true } dk dk dk).2.2 dk rfl
  exact ⟨⟨_, first⟩, ⟨_, second⟩⟩

def aeDesc : AEDesc := aedescOf [0, 0, 0x100000000, 0x3F80000000010001, 0, 0, 0, 0]
def aeRun : AERun := { who := {}, ctx := 0, view := {}, desc := aeDesc, cons := false, cfl := none, id := 0 }
def lamp (k : LKind) : LCmd := { who := {}, ctx := 0, view := {}, arrived := 0, kind := k }

theorem witness_cluster_engines (h : Obligations.ClusterEnginesComplete) :
    let on (f : Cluster → Cluster) : State := (evt id).modClu 0 f
    Ends (.aeRunStart 0) (on fun u => { u with aeFifo := [aeRun] }) ∧
    Ends (.aeRunComplete 0) (on fun u => { u with aeRun := some { aeRun with started := true, bad := 1 } }) ∧
    Ends (.lamplighterApply 0) (later (on fun u => { u with lamp := [lamp (.bind 0 0 8 8)] })) ∧
    Ends (.ostreamElementWrite 0 7) (evt id fun k => { k with outRun := [Run.start (aCmd (.ostream 7 12 aStream))] }) ∧
    Ends (.ostreamElementWrite 0 7) (evt id fun k => { k with outFifo := [aCmd (.ostream 7 12 aStream)] }) :=
  ⟨⟨_, h.1 _ _ aeRun [] dk dk⟩,
   ⟨_, h.2.1 _ _ { aeRun with started := true, bad := 1 } dk dk⟩,
   ⟨_, h.2.2.1 _ _ (lamp (.bind 0 0 8 8)) [] dk dk dk⟩,
   ⟨_, (h.2.2.2 _ _ _ dk).1 (Run.start (aCmd (.ostream 7 12 aStream))) 7 12 aStream dk dk⟩,
   ⟨_, (h.2.2.2 _ _ _ dk).2 (aCmd (.ostream 7 12 aStream)) dk dk⟩⟩

def aReq (at' : Bool) (st : Nat) : Req :=
  { id := 2, who := {}, ctx := 0, node := 0xFFFF, dst := 0, rseq := 1, atomic := at', addr := 0x20000, mask := 0xFF, st := st
    place := some 0 }
def buf : CBuf := { node := 0xFFFF, block := 0x200, mask := 0xFF, data := 1, merged := 0, id := 3, who := {}, ctx := 0, view := {}, iv := 0 }
def aMsg : Msg := { src := 0, dst := 1, seqNo := 1, core := 0, eng := 0, id := 9 }

/-- Where every request of the module has left its port, none leaves. -/
theorem leaveAll_idle (s : State) (c : CoreId) (h : ((s.core c).reqs.all fun r => r.st != 0) = true) : s.leaveAll c = s := by
  have k : ∀ (l : List Req), (l.all fun r => r.st != 0) = true → l.foldl (fun s r =>
      if r.st != 0 || !s.mayLeave c r then s
      else if (s.core c).engFenced.get 3 then
        let s := s.portFails r cUncorr
        if r.atomic then s.landReply r badWord else s.dropReq c r.id
      else s.leave c r) s = s := by
    intro l
    induction l with
    | nil => intro _; rfl
    | cons x l ih =>
      intro hx
      simp only [List.all_cons, Bool.and_eq_true] at hx
      simp only [List.foldl_cons, hx.1, Bool.true_or, if_true]
      exact ih hx.2
  exact k _ h
theorem fold_idle {α : Type} (s : State) (f : State → α → State) (h : ∀ c, f s c = s) : ∀ l : List α, l.foldl f s = s
  | [] => rfl
  | c :: l => by rw [List.foldl_cons, h c]; exact fold_idle s f h l

def portState (r : Req) (hs : NMap Byte) : State := { evt id fun k => { k with reqs := [r] } with holders := hs }
theorem portState_idle (r : Req) (hs : NMap Byte) (hr : r.st ≠ 0) (c : CoreId) :
    (((portState r hs).core c).reqs.all fun r => r.st != 0) = true := by
  have p : (portState r hs).core c = (evt id fun k => { k with reqs := [r] }).core c := rfl
  rw [p]
  by_cases e : c = 0
  · subst e
    simp [evt, State.modCore_core, hr]
  · have k : (evt id fun k => { k with reqs := [r] }).core c = {} := by
      unfold evt bench
      have e' : (0 : CoreId) ≠ c := fun x => e x.symm
      simp only [State.modCore_core, State.modBank_core, e', if_false]
      exact Vector.getElem_replicate _
    rw [k]; rfl
theorem witness_arrival (h : Obligations.RemoteEventsComplete) :
    Ends (.remoteRequestArrive 0 none) (portState (aReq false 1) []) ∧
    Ends (.remoteRequestArrive 0 none) (portState (aReq false 1) [(0x200, 2)]) ∧
    Ends (.remoteRequestArrive 0 none) (portState { aReq false 1 with asked := some 0 } [(0x200, 2)]) := by
  have go (r : Req) (hs : NMap Byte) (hr : r.st ≠ 0) := h.2.2.1 0 (portState r hs) r
  have e (r : Req) (hs : NMap Byte) (hr : r.st ≠ 0) :
      (List.finRange 512).foldl (fun s c => if (s.core c).reqs = [] then s else s.leaveAll c) (portState r hs) = portState r hs :=
    fold_idle _ _ (fun c => by
      split
      · rfl
      · exact leaveAll_idle _ _ (portState_idle r hs hr c)) _
  refine ⟨?_, ?_, ?_⟩
  · have := go (aReq false 1) [] dk
    rw [e _ _ dk] at this
    exact ⟨_, (this dk dk).1 dk⟩
  · have := go (aReq false 1) [(0x200, 2)] dk
    rw [e _ _ dk] at this
    exact ⟨_, (this dk dk).2.1 dk rfl⟩
  · have := go { aReq false 1 with asked := some 0 } [(0x200, 2)] dk
    rw [e _ _ dk] at this
    exact ⟨_, (this dk dk).2.2 dk rfl⟩

theorem witness_remote (h : Obligations.RemoteEventsComplete) :
    Ends (.combineFlushTimeout 0) ({ evt id (fun k => { k with bufs := [buf] }) with now := 64 }) ∧
    Ends (.remoteAck 0) (evt id fun k => { k with reqs := [aReq false 2] }) ∧
    Ends (.ratomReply 0) (evt id fun k => { k with reqs := [aReq true 2] }) ∧
    Ends (.peerLaunch 3 0x01FFFFFFFFF00000 (List.replicate 64 0)) (evt id) :=
  ⟨⟨_, h.1 _ _ 0 dk⟩,
   ⟨_, h.2.2.2.1 _ _ (aReq false 2) dk dk⟩,
   ⟨_, h.2.2.2.2.1 _ _ (aReq true 2) dk dk⟩,
   ⟨_, h.2.2.2.2.2.1 _ _ _ _ dk dk dk⟩⟩

def aLink : LinkId := ⟨0, 1, 0⟩
def cutOff : State := { State.reset with
  links := ((List.range 16).map (16 + ·) ++ (List.range 16).map (64 + ·)).map fun k => (k, ({ lanes := 0 } : Link))
  cuts := [(1, 0)], tb := oneMs, msgs := [{ src := 0, dst := 1, seqNo := 1, core := 0, eng := 0, id := 9 }] }

theorem witness_give_up (h : Obligations.RemoteEventsComplete) : Ends (.requestGiveUp 0) cutOff :=
  ⟨_, h.2.2.2.2.2.2.1 _ _ { src := 0, dst := 1, seqNo := 1, core := 0, eng := 0, id := 9 } dk⟩

theorem reset_idle (c : CoreId) : (State.reset.core c).reqs = [] := by
  have k : State.reset.core c = {} := Vector.getElem_replicate _
  rw [k]

theorem idle_fold (s : State) (l : LinkId) (hs : ∀ c, (s.core c).reqs = []) :
    (List.finRange 512).foldl (fun s c => if dieOf c == l.src && (s.core c).reqs != [] then s.leaveAll c else s) s = s :=
  fold_idle _ _ (fun c => by
    simp only [hs c, bne_self_eq_false, Bool.and_false, Bool.false_eq_true, if_false]) _
theorem flit_idle (h : Obligations.RemoteEventsComplete) (s : State) (l : LinkId) (ok : Bool) (hs : ∀ c, (s.core c).reqs = [])
    (h1 : (s.link l).lanes ≠ 0) (h2 : (s.link l).retraining = false) (h3 : adjacent l.src l.dst = true) :
    Ends (.flitReceive l ok) s := by
  have e := congrArg (·.link l) (idle_fold s l hs)
  exact ⟨_, h.2.2.2.2.2.2.2.1 l ok s (fun x => h1 ((congrArg (·.lanes) e).symm.trans x)) ((congrArg (·.retraining) e).trans h2) h3⟩
theorem witness_flit (h : Obligations.RemoteEventsComplete) : Ends (.flitReceive aLink true) State.reset :=
  flit_idle h _ _ _ reset_idle dk dk dk

theorem witness_link_events (h : Obligations.RemoteEventsComplete) :
    let on (k : Nat) (x : Link) : State := { State.reset with links := [(k, x)] }
    Ends (.nakReceive aLink) (on 16 { nak := some 1 }) ∧ Ends (.ackOnlyFlit aLink) (on 128 { owes := true }) ∧
    Ends (.laneFailure aLink true) State.reset ∧ Ends (.retrainComplete aLink true) (on 16 { retraining := true }) :=
  ⟨⟨_, h.2.2.2.2.2.2.2.2.1 _ _ 1 dk⟩,
   ⟨_, h.2.2.2.2.2.2.2.2.2.1 _ _ dk dk dk⟩,
   ⟨_, h.2.2.2.2.2.2.2.2.2.2.1 _ _ _ dk dk dk dk⟩,
   ⟨_, h.2.2.2.2.2.2.2.2.2.2.2 _ _ _ dk dk⟩⟩

def anEnt (fill : Option (Nat × Nat)) (stalled : Option (Nat × Nat)) : WEnt :=
  { agent := 1, parts := [⟨0x4000, 0xFF, 7⟩], who := some {}, fill := fill, stalled := stalled }

/-- A message with a number from die 0 to die 1. -/
def numbered (n : W32) : Msg := { src := 0, dst := 1, seqNo := n, core := 0, eng := 0, id := 9 }
/-- A write in flight, with the dies that hold a duplicate of its line. -/
def inFlight (e : WEnt) (hs : NMap Byte := []) : State := { evt id with flight := [e], holders := hs }
theorem witness_apply (h : Obligations.HomesComplete) :
    let e := anEnt none none
    Ends (.apply 0) (inFlight e) ∧ Ends (.apply 0) (inFlight e [(0x200, 4)]) ∧
    Ends (.apply 0) (inFlight { e with asked := some 0 } [(0x200, 4)]) :=
  ⟨⟨_, (h.2.1 _ _ (anEnt none none) dk dk dk dk).1 dk dk⟩, ⟨_, (h.2.1 _ _ (anEnt none none) dk dk dk dk).2.1 dk rfl⟩,
   ⟨_, (h.2.1 _ _ { anEnt none none with asked := some 0 } dk dk dk dk).2.2 dk rfl⟩⟩

theorem witness_homes (h : Obligations.HomesComplete) :
    Ends (.drain 1) ((evt id).modAgent 1 fun g => { g with sb := [anEnt none none] }) ∧
    Ends (.fillStallResume 0) (inFlight (anEnt (some (1, 5)) (some (0, 0)))) ∧
    Ends (.countedFullTimeout 0) ({ inFlight (anEnt (some (1, 5)) (some (0, 0))) with tb := oneMs }) ∧
    Ends (.liveLineEvict 0x200) ((evt id).modDie 0 fun d => { d with dir := [(0x200, ⟨1, 5, false, 0, 0⟩)] }) ∧
    (State.reset.foundBad 0x200).hist = [] ∧
    Ends (.deliver 0) ({ evt id with msgs := [numbered 1] }) ∧ Ends (.deliver 0) ({ evt id with msgs := [numbered 0] }) ∧
    Ends (.streamTlbPrefetch 0 false 0x30000) (evt id fun k => { k with copyRun := [{ Run.start aCopy with left := [] }] }) :=
  let ⟨drain, _, resume, late, evict, found, deliver, discard, page⟩ := h;
  ⟨⟨_, drain _ _ dk⟩, ⟨_, resume _ _ (anEnt (some (1, 5)) (some (0, 0))) 0 dk dk dk dk dk⟩,
   ⟨_, late _ _ (anEnt (some (1, 5)) (some (0, 0))) {} dk rfl⟩, ⟨_, evict _ _ ⟨1, 5, false, 0, 0⟩ dk dk rfl dk⟩, (found State.reset 0x200).2.1,
   ⟨_, deliver _ _ (numbered 1) dk dk dk dk⟩, ⟨_, discard _ _ (numbered 0) dk dk dk dk⟩,
   ⟨_, page _ _ _ 0x30000 _ { Run.start aCopy with left := [] } 0 dk dk⟩⟩

/-- A record that may migrate, with SAVE in word 5. -/
def rec (save : W64) : Rec := { w := ((Vector.replicate 8 0).set 3 0x40000).set 5 save, id := 9, owner := 6 }
def bankRec (save : W64) (k : Bank) : Bank := { k with task := some (rec save) }
def withCtx (s : State) : State :=
  { s with ctxs := [(0, { blk := (Vector.replicate 12 0).set 9 0x19000000001, free := [0] })] }

/-- A die with a record that waits. -/
def waiting (g : Die → Die := id) : State := (withCtx State.reset).modDie 0 fun d => g { d with queues := vset d.queues 5 [rec 0] }
/-- A die of which no core takes a record. -/
def busy : State := { waiting with cores := Vector.replicate 512 { testing := true } }
theorem witness_dispatch (h : Obligations.SchedulerCompletes) :
    Ends (.dispatch 0) (waiting fun d => { d with draining := [(0, 9)] }) ∧ Ends (.dispatch 0) (waiting id) ∧ Ends (.dispatch 0) busy :=
  ⟨⟨_, (h.2.1 0 (waiting fun d => { d with draining := [(0, 9)] }) dk dk dk dk).1 ⟨1, 0, 0, 0⟩ (rec 0) 5 dk dk⟩,
   ⟨_, (h.2.1 0 (waiting id) dk dk dk dk).2.1 _ 5 (rec 0) dk got dk⟩,
   ⟨_, (h.2.1 0 busy dk dk dk dk).2.2 5 (rec 0) dk dk dk⟩⟩

theorem witness_scheduler (h : Obligations.SchedulerCompletes) :
    Ends (.bankActivate 0) (evt id fun k => { k with active := none }) ∧
    Ends (.killComplete 0 0) (evt fun k => { k with stopping := some (.kill false) }) ∧
    Ends (.preemptCheckpoint 0 0) (evt fun k => { k with stopping := some (.save false) }) :=
  ⟨⟨_, h.1 _ _ 0 rfl dk⟩,
   ⟨_, h.2.2.1 _ _ _ { w := Vector.replicate 8 0, id := 7, owner := 5 } false dk dk dk dk⟩,
   ⟨_, h.2.2.2.2.1 _ _ _ false dk dk dk (.inl dk) dk (.inl dk) dk (.inr dk)⟩⟩

theorem witness_steal (h : Obligations.SchedulerCompletes) :
    Ends (.workSteal 0) ({ (State.reset.modDie 1 fun d => { d with steal := true, queues := vset d.queues 5 [rec 0, rec 0] }).modDie 0
      (fun d => { d with steal := true }) with now := 4096 }) :=
  ⟨_, h.2.2.2.1 _ _ 1 dk dk dk dk dk dk dk⟩

/-- The pages of a save area at 0x20_0000, which the core's TLB maps to itself. -/
def areaPages (n : Nat) : List Nat := (List.range n).map fun i => 0x200000 + 4096 * i
def mapped (s : State) : State := withCtx (s.modCore 0 fun k => { k with tlb := ⟨0, 1, 1, 0x10000000020000F⟩ :: k.tlb })
def saveBench : State := mapped (evt fun k => { bankRec 0 k with saveTo := some (0x200000, 1), stopping := some (.save false) })
theorem witness_save_frame (h : Obligations.SchedulerCompletes) : ∃ ws, saveBench.saveFrame ⟨0, 0, 0, 0⟩ = (some ws, saveBench) :=
  ⟨_, h.2.2.2.2.2.2.1 saveBench ⟨0, 0, 0, 0⟩ dk⟩
theorem either {n : Nat} {p : Prop} (a : n ≠ 0 → p) (b : n = 0 → p) : p := if h : n = 0 then b h else a h
theorem witness_save (h : Obligations.SchedulerCompletes) : Ends (.saveCommit 0 0) saveBench :=
  let r := h.2.2.2.2.2.1 0 0 saveBench 0x200000 1 (rec 0) false _ (areaPages 400) _ dk dk dk dk dk dk dk got dk (pair1 dk) dk dk;
  either (fun c => ⟨_, r.1 c⟩) fun c => ⟨_, r.2 _ _ c (h.2.2.2.2.2.2.1 _ _ dk)⟩

def aSave : Saved :=
  { bank := {}, copy := [], runs := [], out := [], oruns := [], m := [], mruns := [], parked := [], follow := [], g := []
    agents := Vector.replicate 4 {} }
/-- A task to be restored from its save area, whose commit word is `n`. -/
def restoreBench (n : W64) : State := { putW 0x200000 n (mapped (evt (bankRec 0x200000))) with saved := [(0x200000, aSave)] }
theorem witness_restore (h : Obligations.SchedulerCompletes) :
    Ends (.restore 0 0) (restoreBench 0) ∧ Ends (.restore 0 0) (restoreBench 0x100000000) ∧
    Ends (.restore 0 0) (withCtx (evt (bankRec 0x200000))) :=
  let go (n : W64) := h.2.2.2.2.2.2.2.1 0 0 (restoreBench n) (rec 0x200000);
  ⟨⟨_, (go 0 _ (areaPages 400) _ dk dk dk dk got (pair1 dk) dk).1 dk⟩,
   let ⟨t, e, _⟩ := (go 0x100000000 _ (areaPages 400) _ dk dk dk dk got (pair1 dk) dk).2 _ dk got
   ⟨t, e⟩,
   ⟨_, h.2.2.2.2.2.2.2.2 0 0 (withCtx (evt (bankRec 0x200000))) (rec 0x200000) _ _ dk dk dk dk got (pair1 dk)⟩⟩

theorem witness_reliability (h : Obligations.ReliabilityEventsComplete) :
    Ends (.unitFence (.ae 0) 4 0) State.reset ∧ Ends (.unitFence (.ae 0) 0 0) State.reset ∧
    Ends (.holderFenceTimeout 7) ({ inFlight { anEnt none none with asked := some 0 } [(0x200, 128)] with tb := 100000 }) ∧
    Ends (.holderFenceTimeout 7) State.reset :=
  ⟨⟨_, (h _ dk).1 _ _ _ (fun _ _ e => by cases e) dk dk⟩, ⟨_, (h _ dk).2.1 _ _ (fun _ _ e => by cases e)⟩,
   ⟨_, (h _ dk).2.2.1 _ dk⟩, ⟨_, (h _ dk).2.2.2.1 _ dk⟩⟩

theorem witness_tests (h : Obligations.ReliabilityEventsComplete) :
    let failing (n : Nat) : State := { State.reset with fenced := [.spad 0], tests := [(.spad 0, some 0)], now := n }
    Ends (.scanStart 0) (State.reset.modCore 0 fun k => { k with scanDue := true }) ∧
    Ends (.scanStart 0) ({ State.reset with tb := 1000000000 }) ∧ Ends (.scanStart 0) ({ evt id with tb := 1000000000 }) ∧
    Ends (.scanComplete 0 true) ({ State.reset.modCore 0 (fun k => { k with testing := true }) with now := 10000000 }) ∧
    Ends (.selftestComplete (.ae 0) true) (failing 3600000) ∧ Ends (.selftestComplete (.ae 0) false) (failing 3600000) ∧
    Ends (.selftestComplete (.ae 0) true) (failing 3599999) :=
  ⟨⟨_, (h _ dk).2.2.2.2.1 _ 0 dk dk dk⟩, ⟨_, ((h _ dk).2.2.2.2.2.1 _ 0 dk dk dk dk dk).1 dk⟩,
   ⟨_, ((h _ dk).2.2.2.2.2.1 _ 0 dk dk dk dk dk).2 dk⟩, ⟨_, (h _ dk).2.2.2.2.2.2.1 _ _ dk dk⟩,
   ⟨_, ((h _ dk).2.2.2.2.2.2.2.1 (.ae 0) 0 dk).1 dk⟩, ⟨_, ((h _ dk).2.2.2.2.2.2.2.1 (.ae 0) 0 dk).2.1 dk⟩,
   ⟨_, ((h _ dk).2.2.2.2.2.2.2.1 (.ae 0) 0 dk).2.2 _ dk⟩⟩

/-- The instant at which the scrubbers read the row of address 0, whichever it is; its first atom is uncorrectable already or not. -/
def scrubs (ps : List Nat) : State := { State.reset with tb := Config.hbmRow 0 % 65536 * 1318359375, poison := ps }
theorem scrubs_row (ps : List Nat) : (scrubs ps).hbmRowOf 0 % 2 ^ 16 = (scrubs ps).scrubRow := by
  have p : (scrubs ps).scrubPer.toNat * minuteNs = 86400000000000 := by
    show (1440 : W32).toNat * minuteNs = 86400000000000
    decide
  have t : (scrubs ps).tb - (scrubs ps).scrubStart = Config.hbmRow 0 % 65536 * 1318359375 := Nat.sub_zero _
  unfold State.scrubRow State.hbmRowOf
  rw [p, t]
  dsimp only
  omega
theorem witness_scrub (h : Obligations.ReliabilityEventsComplete) :
    Ends (.scrubAtom 0 true) (scrubs []) ∧ Ends (.scrubAtom 0 true) (scrubs [0]) ∧ Ends (.scrubAtom 0 false) (scrubs []) ∧
    Ends (.scrubAtom 0 true) ({ scrubs [] with scrubbed := [0] }) ∧ Ends (.scrubAtom 0xFFFFFFFFFFF true) State.reset :=
  let ⟨_, _, _, _, _, _, _, _, atom, _⟩ := h (scrubs []) dk;
  let ⟨_, _, _, _, _, _, _, _, lost, _⟩ := h (scrubs [0]) dk;
  ⟨⟨_, (atom 0 dk rfl (scrubs_row _) rfl).1 rfl⟩, ⟨_, (lost 0 dk rfl (scrubs_row _) rfl).2.1 rfl⟩,
   ⟨_, (atom 0 dk rfl (scrubs_row _) rfl).2.2⟩, ⟨_, (h _ dk).2.2.2.2.2.2.2.2.2.1 0 true dk (.inr dk)⟩,
   ⟨_, (h _ dk).2.2.2.2.2.2.2.2.2.2.1 _ dk dk⟩⟩

theorem witness_replay (h : Obligations.ReliabilityEventsComplete) :
    let s := evt id fun k => { k with copyRun := [Run.start aCopy] }
    let kept := evt fun k => { k with z := vset k.z 1 { k.z.get 1 with noReplay := true } }
    Ends (.engineWindowReplay 0 0 0 true) s ∧ Ends (.engineWindowReplay 0 0 0 false) s ∧ (Run.start aCopy).again.replay = true ∧
    Ends (.engineWindowReplay 0 1 1 false) (evt id) ∧ Ends (.engineWindowReplay 0 1 1 false) kept ∧ Ends (.engineWindowReplay 0 1 1 true) (evt id) :=
  ⟨⟨_, ((h _ dk).2.2.2.2.2.2.2.2.2.2.2.1 _ _ _ (Run.start aCopy) dk).1 (.inl rfl)⟩,
   ⟨_, ((h _ dk).2.2.2.2.2.2.2.2.2.2.2.1 _ _ _ (Run.start aCopy) dk).2 rfl rfl dk⟩,
   ((h State.reset dk).2.2.2.2.2.2.2.2.2.2.2.2.1 (Run.start aCopy) _ _ _ _ _ _ _ _ _ rfl).2,
   ⟨_, ((h _ dk).2.2.2.2.2.2.2.2.2.2.2.2.2 0 0 1 dk).1 dk dk⟩, ⟨_, ((h _ dk).2.2.2.2.2.2.2.2.2.2.2.2.2 0 0 1 dk).2.1 (.inl dk)⟩,
   ⟨_, ((h _ dk).2.2.2.2.2.2.2.2.2.2.2.2.2 0 0 1 dk).2.2⟩⟩

theorem witness_host (h : Obligations.HostInterfaceCompletes) :
    let on (f : HostIf → HostIf) : State := { State.reset with host := f State.reset.host }
    Ends (.hostRegWrite 0x28 64) State.reset ∧ Ends (.hostRegWrite 0x08 0xFFF) State.reset ∧ Ends (.hostRegWrite 0x18 0xFFF) State.reset ∧
    Ends (.hictlWrite 1) (on fun h => { h with cqlog := 6, eqlog := 16 }) ∧
    Ends .eventWrite (on fun h => { h with en := true, cqlog := 6, eqlog := 6, events := [{ code := 3, args := [] }] }) ∧
    (State.reset.hostRead 0x30).host.rdata = 0 :=
  let ⟨write, base, ring, _, zero, ctl, _, _, event⟩ := h;
  let ⟨t, e, _⟩ := base 0xFFF State.reset dk;
  let ⟨u, f, _⟩ := ring 0xFFF State.reset dk;
  ⟨⟨_, write _ _ _ dk⟩, ⟨t, e⟩, ⟨u, f⟩, ⟨_, ctl _ _ dk dk⟩, ⟨_, event _ { code := 3, args := [] } [] dk dk dk⟩, zero _ _ dk⟩

def cmd (op : Nat) (l : List W64) : Cmd := { seqNo := 1, op := op, args := Vector.ofFn fun i => l.getD i.val 0 }
/-- A state in which a command may start. -/
def asks (op : Nat) (l : List W64) (s : State := State.reset) : State := { s with host := { s.host with cmds := [cmd op l] } }
/-- A state in which a command has started. -/
def goes (op : Nat) (l : List W64) (s : State := State.reset) : State := { s with host := { s.host with running := [cmd op l] } }
theorem starts {op : Nat} {l : List W64} {s : State} (h : (s.evWaiting < 4096 && decide (s.loss = .none) &&
    (s.host.running.filter (·.op == op)).isEmpty && s.host.started ≤ s.now) = true := by decide +kernel) :
    Starts (asks op l s) op (cmd op l) := by
  simp only [Bool.and_eq_true, decide_eq_true_eq, List.isEmpty_iff] at h
  exact ⟨h.1.1.1, h.1.1.2, h.1.2, rfl, rfl, h.2⟩
theorem goesOn {op : Nat} {l : List W64} {s : State} (h : (s.evWaiting < 4096 && decide (s.loss = .none) && s.host.cmds.isEmpty) =
    true := by decide +kernel) : GoesOn (goes op l s) op (cmd op l) := by
  simp only [Bool.and_eq_true, decide_eq_true_eq, List.isEmpty_iff] at h
  refine ⟨h.1.1, h.1.2, ?_, fun x hx => ?_⟩
  · show List.filter _ [cmd op l] = [cmd op l]
    simp [cmd]
  · exact absurd (h.2 ▸ hx : ([] : List Cmd).head? = some x) (by simp)

/-- The record of a launch and the context block of a creation, in memory. -/
def launchMem : State :=
  putW 0x20000 0x10004 { State.reset with acl := [(0, 0xC000000000000000)], ctxs := [(0, { blk := Vector.replicate 12 0, free := [0] })] }
def blockMem : State := putW 0x20028 1 (putW 0x20030 0x10000 (putW 0x20048 0x20000000001 State.reset))

theorem banksOf_none (s : State) (ctx : Nat) (hs : s.cores = State.reset.cores) : s.banksOf ctx = [] := by
  have k : ∀ c, s.core c = {} := fun c => (congrArg (fun v : Vector Core 512 => v.get c) hs).trans (Vector.getElem_replicate _)
  simp [State.banksOf, k]

theorem witness_context_commands (h : Obligations.ContextCommandsComplete) :
    Ends .cmdNop (asks 0 []) ∧ Ends .launch (asks 1 [0x20000, 7] launchMem) ∧ Ends .ctxcreate (asks 2 [0x20000] blockMem) ∧
    Ends .ctxteardown (asks 3 [] launchMem) ∧ Ends .ctxteardown (goes 3 []) ∧ Ends .aclwrite (asks 4 [4095, 1]) ∧
    Ends .schedparam (asks 5 [0xFF, 0x20000]) ∧ Ends .pageanswer (asks 6 []) :=
  ⟨⟨_, h.1 _ _ starts⟩, ⟨_, h.2.1 _ _ starts dk dk⟩,
   ⟨_, h.2.2.1 _ _ starts dk dk dk⟩,
   ⟨_, h.2.2.2.2.1 _ _ starts dk⟩, ⟨_, h.2.2.2.2.2.1 _ _ goesOn (banksOf_none _ _ rfl)⟩,
   ⟨_, h.2.2.2.2.2.2.1 _ _ starts⟩, ⟨_, h.2.2.2.2.2.2.2.2.1 _ _ starts dk⟩, ⟨_, h.2.2.2.2.2.2.2.2.2.1 _ _ starts⟩⟩

/-- What a command does at its acceptance: a context is being torn down, and the dies take scheduling parameters. -/
theorem witness_acceptance (h : Obligations.ContextCommandsComplete) :
    let s : State := { State.reset with afterPower := false }
    (s.acceptCmd (cmd 3 [9]) 0).ctxLive 9 = false ∧
    ((s.acceptCmd (cmd 5 [0xFF, 0x20000]) 0).die 7).parCommit.bmib = (SchedPar.ofBlock (s.mem.readN 0x20000 64)).bmib :=
  let ⟨_, _, _, tear, _, _, _, par, _⟩ := h;
  ⟨tear _ (cmd 3 [9]) rfl dk rfl, (par _ (cmd 5 [0xFF, 0x20000]) 7 rfl dk rfl dk dk).2.2.2.2⟩

theorem shoot_some (s : State) (cs : List CoreId) (ctx : BitVec 12) (all : Bool) (va : Nat) (hs : s.cores = State.reset.cores) :
    s.shoot cs ctx all va = some (cs.foldl (fun s c => s.shootCore c ctx all va) s) := by
  have k : ∀ c, s.core c = {} := fun c => (congrArg (fun v : Vector Core 512 => v.get c) hs).trans (Vector.getElem_replicate _)
  simp [State.shoot, State.underWay, k, Core.gone, inRanges]

theorem witness_page_commands (h : Obligations.ContextCommandsComplete) :
    Ends .shootdown (asks 7 []) ∧ Ends .gangwrite (asks 9 [7, 1]) ∧ Ends .savefclear (asks 10 [7] (evt id)) :=
  ⟨⟨_, h.2.2.2.2.2.2.2.2.2.2.1 _ _ _ starts (shoot_some _ _ _ _ _ rfl)⟩, ⟨_, h.2.2.2.2.2.2.2.2.2.2.2.2.1 _ _ starts⟩,
   ⟨_, h.2.2.2.2.2.2.2.2.2.2.2.2.2 _ _ _ _ starts (List.cons_head_tail dk).symm⟩⟩

/-- Agents with nothing stored and no floor: what the shoot-downs of an idle module leave. -/
def bare (g : Agent) : Prop := g.sb = [] ∧ g.view = {} ∧ ∀ t, g.pa.get t = {}
def Bare (m : NMap Agent) : Prop := ∀ x, x ∈ m → bare x.2
theorem bare_put {m : NMap Agent} (k : Nat) {g : Agent} (h : Bare m) (hg : bare g) : Bare (NMap.put m k g) := by
  induction m with
  | nil => intro x hx; simp [NMap.put] at hx; exact hx ▸ hg
  | cons y m ih =>
    intro x hx
    simp only [NMap.put] at hx
    have t := ih fun x hx => h x (List.mem_cons_of_mem _ hx)
    split at hx
    · rcases List.mem_cons.1 hx with r | r
      · exact r ▸ hg
      · exact h x r
    · split at hx
      · rcases List.mem_cons.1 hx with r | r
        · exact r ▸ hg
        · exact h x (List.mem_cons_of_mem _ r)
      · rcases List.mem_cons.1 hx with r | r
        · exact h x (r ▸ List.mem_cons_self)
        · exact t x r
theorem bare_new : bare {} := ⟨rfl, rfl, fun t => by simp⟩
theorem bare_get {m : NMap Agent} (k : Nat) (h : Bare m) : bare ((NMap.get? m k).getD {}) := by
  induction m with
  | nil => exact bare_new
  | cons y m ih =>
    simp only [NMap.get?]
    split
    · exact bare_new
    · split
      · exact h y List.mem_cons_self
      · exact ih fun x hx => h x (List.mem_cons_of_mem _ hx)
/-- A state that differs in its agents alone, which are bare. -/
def Same (s t : State) : Prop := s.unseen = {} ∧ ∃ m, Bare m ∧ t = { s with agents := m }
theorem agent_bare {t : State} (a : Nat) (hu : t.unseen = {}) (hm : Bare t.agents) : bare (t.agent a) := by
  have e : t.agent a = (NMap.get? t.agents a).getD {} := by
    unfold State.agent
    rw [hu]
    split <;> rfl
  rw [e]
  exact bare_get a hm
theorem same_fence {s t : State} (a n : Nat) (hn : n < 5) (hh : s.hist = []) (h : Same s t) : Same s (t.fence a n) := by
  obtain ⟨hu, m, hm, rfl⟩ := h
  refine ⟨hu, _, bare_put a hm ?_, rfl⟩
  have g : bare (({ s with agents := m } : State).agent a) := agent_bare a hu hm
  have j : View.join {} {} = {} := rfl
  have l : ({ s with agents := m } : State).latest a n = [] := by simp [State.latest, hh]
  have p : (({ s with agents := m } : State).agent a).pa[n]? = some {} := by
    rw [Vector.getElem?_eq_getElem hn]; exact congrArg some (g.2.2 ⟨n, hn⟩)
  refine ⟨g.1, ?_, g.2.2⟩
  simp only [p, g.2.1, l, j]
theorem same_shoot {s t : State} (cs : List CoreId) (x : BitVec 12) (b : Bool) (va : Nat) (hc : s.cores = State.reset.cores)
    (hh : s.hist = []) (h : Same s t) : Same s (cs.foldl (fun s c => s.shootCore c x b va) t) := by
  induction cs generalizing t with
  | nil => exact h
  | cons c cs ih =>
    refine ih (same_fence _ 4 dk hh (same_fence _ 4 dk hh (same_fence _ 4 dk hh ?_)))
    obtain ⟨hu, m, hm, rfl⟩ := h
    refine ⟨hu, m, hm, ?_⟩
    have k : s.cores.get c = {} := (congrArg (fun v : Vector Core 512 => v.get c) hc).trans (Vector.getElem_replicate _)
    have e : vset s.cores c (s.cores.get c) = s.cores := Vector.set_getElem_self ..
    show State.modCore _ c _ = _
    unfold State.modCore
    refine congrArg (fun v => { s with cores := v, agents := m }) (Eq.trans ?_ e)
    refine congrArg (vset s.cores c) ?_
    show ({ s.cores.get c with
      tlb := _, tlbCopy := _, tlbOut := _, tlbOld := _
      banks := if b then (s.cores.get c).banks else (s.cores.get c).banks.map fun (y : Bank) =>
        if y.ctx = x then { y with pins := [] } else y } : Core) = s.cores.get c
    rw [k]
    have e : (({} : Core).banks.map fun (y : Bank) => if y.ctx = x then { y with pins := [] } else y) = ({} : Core).banks := by
      show (Vector.replicate 2 ({} : Bank)).map _ = Vector.replicate 2 ({} : Bank)
      rw [Vector.map_replicate]
      split <;> rfl
    cases b
    · exact congrArg (fun v => ({ banks := v } : Core)) e
    · rfl
theorem bare_load {t : State} (a w : Nat) (hf : t.flight = []) (hh : t.hist = []) (g : bare (t.agent a)) :
    t.load a w 0xFF none = (t.word w, t) := by
  have k : t.mine a = [] := by simp only [State.mine, hf, List.filter_nil, List.nil_append]; exact g.1
  have v : (t.agent a).view.floor w = 0 := by rw [g.2.1]; rfl
  have n : t.lastIdx w = 0 := by simp [State.lastIdx, hh, NMap.get?]
  have x : t.nth w 0 = (t.word w, none) := by simp [State.nth, hh, NMap.get?]
  have z : ¬((0xFF : Byte) &&& ~~~0 = 0) := by decide
  have c : t.choose (0 - 0 + 1) = (0, t) := rfl
  unfold State.load
  simp only [k, v, n, List.filterMap_nil, List.foldl_nil, z, if_false, c, x, Nat.add_zero, if_true]
/-- A load in such a state reads memory and leaves the state. -/
theorem same_load {s t : State} (a w : Nat) (hf : s.flight = []) (hh : s.hist = []) (h : Same s t) :
    t.load a w 0xFF none = (s.word w, t) := by
  obtain ⟨hu, m, hm, rfl⟩ := h
  exact bare_load a w hf hh (agent_bare a hu hm)
theorem same_refl {s : State} (h : s.agents = []) (hu : s.unseen = {}) : Same s s := ⟨hu, [], by intro x hx; simp at hx, by rw [← h]⟩
theorem same_walk {s t : State} (c va l r : Nat) (hf : s.flight = []) (hh : s.hist = []) (ha : s.agents = [])
    (h : Same s t) : walk t c va l r = ((walk s c va l r).1, t) := by
  have p (l n : Nat) : t.poisoned l n = s.poisoned l n := by obtain ⟨_, m, -, rfl⟩ := h; rfl
  have q (x y : DieId) (l : Nat) : t.carries x y l = s.carries x y l := by obtain ⟨_, m, -, rfl⟩ := h; rfl
  induction l generalizing r with
  | zero =>
    unfold walk
    simp only [same_load _ _ hf hh h, same_load _ _ hf hh (same_refl ha h.1), p, q]
    repeat' split
    all_goals rfl
  | succ l ih =>
    unfold walk
    simp only [same_load _ _ hf hh h, same_load _ _ hf hh (same_refl ha h.1), p, q]
    repeat' split
    all_goals first | rfl | exact ih _
theorem same_page {s t : State} (ctx va : Nat) {x : Ctx} {l : Nat} {e : W64} (hf : s.flight = []) (hh : s.hist = [])
    (ha : s.agents = []) (h : Same s t) (hx : NMap.get? s.ctxs ctx = some x)
    (hw : (walk s (tlbAgent 0 0) va 4 (fld (x.blk.get 1) 39 12 * 4096)).1 = .leaf l e) :
    t.pageWalk ctx va = (.leaf l e, t.fence (tlbAgent 0 0) 4) := by
  have f := same_fence (tlbAgent 0 0) 4 dk hh h
  have y : NMap.get? t.ctxs ctx = some x := by obtain ⟨_, m, -, rfl⟩ := h; exact hx
  simp only [State.pageWalk, y]
  exact (same_walk (tlbAgent 0 0) va 4 _ hf hh ha f).trans (by rw [hw])
theorem bare_busy {t : State} (lo n : Nat) (hf : t.flight = []) (hc : t.cores = State.reset.cores)
    (hu : t.unseen = {}) (hm : Bare t.agents) : t.rangeBusy lo n = false := by
  have k : ∀ c, t.core c = {} := fun c => (congrArg (fun v : Vector Core 512 => v.get c) hc).trans (Vector.getElem_replicate _)
  have g : ∀ a, t.mine a = [] := fun a => by
    simp only [State.mine, hf, List.filter_nil, List.nil_append]; exact (agent_bare a hu hm).1
  have v : (t.agents.any fun a => a.2.sb.any fun (e : WEnt) => e.parts.any fun p => lo ≤ 8 * p.word && 8 * p.word < lo + n) =
      false := by
    rw [List.any_eq_false]; intro x hx; simp [(hm x hx).1]
  have u : ∀ c rs, t.underWay c rs = false := fun c rs => by simp [State.underWay, k, g]
  unfold State.rangeBusy
  simp only [hf, v, u, List.any_nil, Bool.false_or]
  simp
theorem same_busy {s t : State} (lo n : Nat) (hf : s.flight = []) (hc : s.cores = State.reset.cores) (h : Same s t) :
    t.rangeBusy lo n = false := by
  obtain ⟨hu, m, hm, rfl⟩ := h
  exact bare_busy lo n hf hc hu hm
/-- The tables of the page of address 0 under the root 0x30000: a leaf of level 2. -/
def pageMem : State :=
  putW 0x30000 0x31001 (putW 0x31000 0x32001 (putW 0x32000 0xF { State.reset with
    ctxs := [(0, { blk := vset (Vector.replicate 12 0) 1 0x30000, free := [] })] }))
theorem witness_page_release (h : Obligations.ContextCommandsComplete) : Ends .pagerelease (asks 8 [] pageMem) := by
  have r := same_shoot (s := (asks 8 [] pageMem).begun (cmd 8 [])) (List.finRange 512) 0 false 0 rfl rfl (same_refl rfl rfl)
  have f := same_fence (tlbAgent 0 0) 4 dk rfl r
  have w : (walk ((asks 8 [] pageMem).begun (cmd 8 [])) (tlbAgent 0 0) 0 4 0x30000).1 = .leaf 2 0xF := by decide +kernel
  exact ⟨_, h.2.2.2.2.2.2.2.2.2.2.2.1 _ _ _ 2 0xF _ starts dk (shoot_some _ _ _ _ _ rfl)
    (same_page 0 0 rfl rfl rfl r rfl w) (same_busy (s := (asks 8 [] pageMem).begun (cmd 8 [])) _ _ rfl rfl f)⟩

def anImage : Image :=
  { time := 0, now := 0, nlost := 0, lost := [], digest := 0, mem := [], poison := [], cores := State.reset.cores
    clusters := State.reset.clusters, dies := State.reset.dies, bars := [], barGen := 0, ctxs := [], acl := [], weights := []
    saved := [], saveSeq := 1, serial := 0, host := {}, tickets := [], nextTicket := 0, fenced := [], corrected := []
    scrubMin := 1440, rotMs := 2000, corrThreshold := 1, rseqDone := [], replies := [] }
theorem hash_digest (m : Image) (d : BitVec 512) : { m with digest := d }.hash = m.hash := rfl
/-- The image with its digest. -/
def goodImage : Image := { anImage with digest := anImage.hash }

theorem witness_module_commands (h : Obligations.ModuleCommandsComplete) :
    let u : W64 := 0x0100000000000005
    let again : State := { State.reset with tests := [(.spad 0, none)] }
    let shut : State := { State.reset with fenced := [.spad 0] }
    Ends .relparam (asks 0x200 [60, 100, 1]) ∧ Ends .selftest (asks 0x201 [u]) ∧ Ends .selftest (asks 0x201 [u] shut) ∧
    Ends .selftest (asks 0x201 [u] again) ∧ Ends .retire (asks 0x202 [u]) ∧ Ends .retire (goes 0x202 [u]) ∧
    Ends .powerstate (asks 0x100 [0x80, 1, 15000]) :=
  ⟨⟨_, h.1 _ _ starts⟩,
   ⟨_, (h.2.1 _ _ (.ae 0) starts dk dk).2.2 dk dk⟩, ⟨_, (h.2.1 _ _ (.ae 0) starts dk dk).2.1 dk dk⟩,
   ⟨_, (h.2.1 _ _ (.ae 0) starts dk dk).1 dk⟩, ⟨_, h.2.2.1 _ _ (.ae 0) starts dk dk⟩,
   ⟨_, h.2.2.2.1 _ _ (.ae 0) goesOn dk dk⟩,
   ⟨_, h.2.2.2.2.1 _ _ starts dk dk⟩⟩

theorem witness_checkpoint_commands (h : Obligations.ModuleCommandsComplete) :
    Ends .ckptarm (asks 0x101 [1]) ∧ Ends .ckptrestore (asks 0x102 []) ∧
    Ends .ckptrestore (asks 0x102 [] { State.reset with image := some goodImage }) ∧ Ends .ckptdiscard (asks 0x103 []) ∧
    Ends .attest (asks 0x104 [0x20000, 0x30000]) ∧ Ends .fwstage (asks 0x105 [0, 64]) :=
  ⟨⟨_, h.2.2.2.2.2.1 _ _ starts⟩,
   ⟨_, h.2.2.2.2.2.2.1 _ _ starts rfl⟩, ⟨_, h.2.2.2.2.2.2.2.1 _ _ goodImage starts rfl (hash_digest _ _).symm⟩,
   ⟨_, h.2.2.2.2.2.2.2.2.1 _ _ starts⟩,
   ⟨_, h.2.2.2.2.2.2.2.2.2.1 _ _ starts dk dk⟩, ⟨_, h.2.2.2.2.2.2.2.2.2.2 _ _ starts⟩⟩

/-- Core 0 claimed and stopped. -/
def held : State := evt id fun k => { k with claimed := true, stopped := some 0 }
theorem witness_debugger (h : Obligations.DebuggerCommandsComplete) :
    Ends .dbgclaim (asks 0x300 [0, 1]) ∧ Ends .dbgclaim (asks 0x300 [0, 0]) ∧ Ends .dbgstop (asks 0x301 [0x20000, 0x30000]) ∧
    Ends .dbgstop (goes 0x301 []) ∧ Ends .dbgresume (asks 0x303 [0, 0x20000] (putW 0x20000 0x10008 held)) ∧
    Ends .dbgstep (asks 0x302 [0, 1, 5] held) ∧ Ends .dbgstep (goes 0x302 []) ∧ Ends .dbgregw (asks 0x305 [0, 0x300, 1] held) :=
  ⟨⟨_, h.1 _ _ starts dk⟩, ⟨_, h.2.1 _ _ starts dk (.inl dk)⟩, ⟨_, h.2.2.1 _ _ starts dk⟩,
   ⟨_, h.2.2.2.1 _ _ goesOn (fun x e => absurd e (by
     have z : (cmd 0x301 []).step = 0 := rfl
     rw [z, Nat.zero_testBit]; exact Bool.false_ne_true))⟩,
   ⟨_, h.2.2.2.2.1 _ _ _ starts dk dk dk got⟩,
   ⟨_, h.2.2.2.2.2.1 _ _ starts dk dk dk dk⟩,
   ⟨_, h.2.2.2.2.2.2.1 _ _ goesOn dk⟩,
   ⟨_, h.2.2.2.2.2.2.2.2.1 _ _ starts dk dk dk dk⟩⟩
theorem witness_debugger_module (h : Obligations.DebuggerCommandsComplete) :
    let t : Trace := { on := true, base := 0x20000, size := 64 }
    Ends .ewtwrite (asks 0x306 [0, 0x20000]) ∧ Ends .tracecfg (asks 0x308 [7, 0x20000, 64, 0]) ∧
    ({ traceNext := some t } : Die).parCommit.trace = t ∧ Ends .peerskew (asks 0x309 [4, 0x20000]) :=
  ⟨⟨_, h.2.2.2.2.2.2.2.2.2.1 _ _ starts⟩,
   ⟨_, h.2.2.2.2.2.2.2.2.2.2.2.1 _ _ starts dk dk dk dk⟩,
   (h.2.2.2.2.2.2.2.2.2.2.2.2.1 { traceNext := some { on := true, base := 0x20000, size := 64 } } _ rfl rfl).1,
   ⟨_, h.2.2.2.2.2.2.2.2.2.2.2.2.2 _ _ starts⟩⟩

/-- A table walk to a large leaf at address 0. -/
def tables : State :=
  { putW 0 0x1001 (putW 0x1000 0x2001 (putW 0x2000 0x13 held)) with ctxs := [(0, { blk := Vector.replicate 12 0, free := [0] })] }
theorem witness_debugger_context (h : Obligations.DebuggerCommandsComplete) :
    let s : State := { State.reset with ctxs := [(0, { blk := Vector.replicate 12 0, free := [0] })] }
    Ends .profblock (asks 0x307 [0, 0x20000] s) ∧
    Ends .dbgpatch (asks 0x304 [0, 0x10000, 0x20000] tables) :=
  ⟨⟨_, h.2.2.2.2.2.2.2.2.2.2.1 _ _ { blk := Vector.replicate 12 0, free := [0] } starts dk dk
    dk⟩,
   ⟨_, h.2.2.2.2.2.2.2.1 _ _ { blk := Vector.replicate 12 0, free := [0] } 2 0x13 _ starts dk dk
    dk dk (pair1 dk) dk dk⟩⟩

theorem rests (l : LossStep) : ({ State.reset with loss := l } : State).atRest = true := by
  have a : (Vector.replicate 512 ({} : Core)).all (fun k => k.copyFifo.isEmpty && k.copyRun.isEmpty && k.outFifo.isEmpty &&
      k.outRun.isEmpty && k.mFifo.isEmpty && k.mRun.isEmpty && k.wRun.isNone && k.bufs.isEmpty && k.reqs.isEmpty) = true := by
    rw [Vector.all_replicate]; rfl
  have b : (Vector.replicate 128 ({} : Cluster)).all (fun u => u.aeRun.isNone && u.aeFifo.isEmpty && u.lamp.isEmpty) = true := by
    rw [Vector.all_replicate]; rfl
  exact Bool.and_eq_true_iff.mpr ⟨Bool.and_eq_true_iff.mpr ⟨rfl, a⟩, b⟩

theorem witness_power (h : Obligations.PowerEventsComplete) :
    let at' (l : LossStep) : State := { State.reset with loss := l }
    Ends (.clampChange 0 true false 3000) State.reset ∧
    Ends (.powerReportDeferred 0) (State.reset.modDie 0 fun d => { d with deferred := true }) ∧
    Ends (.holdupBankLow 2499) ({ State.reset with ckptArmed := true }) ∧ Ends .inputPowerLoss State.reset ∧
    Ends .inputPowerLoss (at' .stopped) ∧
    Ends .lossWriteBack (at' .saved) ∧ Ends .lossStoreHbm (at' .stored) ∧ Ends .lossCommit (at' .hbm) ∧ Ends .lossOff (at' .committed) ∧
    Ends .holdupBankExhausted (at' .stored) :=
  let ⟨clamp, report, low, power, again, _, back, _, hbm, commit, off, gone, _⟩ := h;
  ⟨⟨_, clamp _ _ _ _ _ (.inr dk)⟩, ⟨_, report _ _ dk dk dk⟩,
   ⟨_, low _ _ dk dk⟩, ⟨_, power _ rfl⟩, ⟨_, again _ dk⟩, ⟨_, back _ rfl (rests _)⟩,
   ⟨_, hbm _ rfl⟩, ⟨_, commit _ rfl⟩, ⟨_, off _ rfl⟩, ⟨_, gone _ dk dk⟩⟩

theorem witness_loss (h : Obligations.PowerEventsComplete) :
    Ends .lossSaveTasks ({ State.reset with loss := .stopped }) ∧ Ends .lossStoreState ({ State.reset with loss := .written }) :=
  ⟨⟨_, h.2.2.2.2.2.1 _ rfl (fun c b => by
    have k : State.reset.core c = {} := Vector.getElem_replicate _
    show ((State.reset.core c).banks.get b).task = none
    rw [k]
    exact congrArg Bank.task (Vector.getElem_replicate _))⟩,
   let ⟨_, e, _⟩ := h.2.2.2.2.2.2.2.1 { State.reset with loss := .written } rfl
   ⟨_, e⟩⟩

/-- The agenda's head as one turn. -/
def turn (t : Turn) (s : State) : State := { s with agenda := [t] }

theorem witness_module_reset (h : Obligations.PowerEventsComplete) : Ends .moduleReset State.reset :=
  let ⟨_, e, _⟩ := h.2.2.2.2.2.2.2.2.2.2.2.2 State.reset
  ⟨_, e⟩

theorem witness_form (h : Obligations.StepKeepsMemoryForm) (r : Obligations.ResetHasMemoryForm) :
    ∃ t, step (turn .tick State.reset) = .next t ∧ t.memInv :=
  ⟨_, rfl, h (turn .tick State.reset) _ r rfl⟩

theorem witness_step (h : Obligations.StepRunsDecoded) :
    let i : Instr := .addi { d := 4, a := 4, imm := 0x1FF }
    let u : State := { bench i 0 with agenda := [], cur := ⟨0, 0, 0, 0⟩ }
    step (turn (.seq 0 0 0) (bench i 0)) = exec i (stOf (fetchCheck 0x10004) u) :=
  (h.1 _ 0 0 0 [] rfl rfl dk dk (.inl dk)).1 (lineOf (.addi { d := 4, a := 4, imm := 0x1FF }) 0) _ _
    dk runs_stOf dk
/-- A barrier's wait goes on from the line that it keeps. -/
theorem witness_held (h : Obligations.StepRunsDecoded) :
    let i : Instr := .bar { d := 3, a := 1, imm := 1 }
    let s := bench .nop 0 fun k => { k with bar := some ⟨1, 0, 0, 3, true, .s 3, true, lineOf i 0⟩ }
    step (turn (.seq 0 0 0) s) = exec i { s with agenda := [], cur := ⟨0, 0, 0, 0⟩ } :=
  (h.1 _ 0 0 0 [] rfl rfl dk dk (.inl dk)).2 (lineOf (.bar { d := 3, a := 1, imm := 1 }) 0) _ dk dk

theorem witness_turns (h : Obligations.StepRunsDecoded) :
    step (turn (.act .cmdNop) State.reset) = exec .cmdNop { turn (.act .cmdNop) State.reset with agenda := [] } ∧
      (∃ t, step (turn .tick State.reset) = .next t) ∧ (∃ t, step (turn (.hostStore 0 0 [1]) State.reset) = .next t) ∧
      (∃ t, step (turn (.hostRead 8) State.reset) = .next t) ∧ ∃ o, step State.reset = o :=
  ⟨h.2.1 _ _ _ rfl rfl rfl, ⟨_, h.2.2.1 _ _ rfl rfl⟩, ⟨_, h.2.2.2.1 _ _ _ _ _ rfl rfl⟩, ⟨_, h.2.2.2.2.1 _ _ _ rfl rfl⟩,
   ⟨_, h.2.2.2.2.2 _ rfl rfl⟩⟩

theorem witness_encoding (h : Obligations.DecodeEncode) :
    decode (encodeBytes (.add { d := 3, a := 1, b := 2 }) ++ [0xFF]) = .ok (.add { d := 3, a := 1, b := 2 }, [0xFF]) ∧
      encodeWord (.add { d := 3, a := 1, b := 2 }) = some 0x02003042 :=
  ⟨h.1 _ _ dk dk, (h.2 0x02003042 none _ dk dk).1⟩

theorem witness_checks (h : Obligations.ChecksInOrder) :
    let bad : Instr := .addi { d := 63, a := 4 }
    let far : Instr := .vadd {}
    let pri : Instr := .resume { a := 1 }
    Ends bad (bench bad 0) ∧ Ends far (bench far 0) ∧ Ends pri (bench pri 0) :=
  have stops {i : Instr} {s : State} {x : Stop} (e : (hasLimits i = true ∧ ∃ t : TrapInfo, t.cause = 0x01 ∧ exec i s =
      .next (s.stopped (.trap t))) ∨ exec i s = .next (s.stopped x)) : Ends i s :=
    e.elim (fun x => let ⟨_, _, _, e⟩ := x; ⟨_, e⟩) fun e => ⟨_, e⟩;
  ⟨⟨_, (h (.addi { d := 63, a := 4 }) _ dk (fun w e => by cases e)).1 dk⟩,
   stops ((h (.vadd {}) _ dk (fun w e => by cases e)).2.1 dk dk),
   stops ((h (.resume { a := 1 }) _ dk (fun w e => by cases e)).2.2 dk dk dk dk)⟩

/-- Both sides of each bound of the division. -/
theorem witness_division (h : Obligations.IntegerValues) :
    scalarVal (.div {}) 7 0 0 = BitVec.allOnes 64 ∧ (scalarVal (.div {}) (BitVec.intMin 64) 1 0).toInt = -(2 ^ 63) ∧
      scalarVal (.div {}) (BitVec.intMin 64) (-1) 0 = BitVec.intMin 64 ∧
      (scalarVal (.lcat {}) 0 1 1).getLsbD 18 = true := by
  have a := h {} 7 0 0
  have b := h {} (BitVec.intMin 64) 1 0
  have c := h {} (BitVec.intMin 64) (-1) 0
  refine ⟨a.2.2.2.2.2.2.2.2.2.2.2.2.1 rfl, (b.2.2.2.2.2.2.2.2.2.2.2.2.2.1 dk dk).trans dk,
    c.2.2.2.2.2.2.2.2.2.2.2.2.2.2.1 rfl rfl, ?_⟩
  obtain ⟨_, _, _, _, _, _, _, _, _, _, _, _, _, _, _, _, _, _, _, _, _, _, _, _, _, _, k⟩ := h {} 0 1 1
  exact ((k {}).2 18).trans dk

theorem witness_scalars (h : Obligations.ScalarRegisters) :
    Runs (destOf 0) State.reset .drop State.reset ∧ Runs (readField 0 31) (bench .nop 3) 0 (bench .nop 3) ∧
      ((State.reset.landDst {} (.s 31) 5).sq {}).s.get 31 = 5 ∧
      (State.reset.landDst {} (.s 31) 5).sq { q := 1 } = State.reset.sq { q := 1 } ∧
      (fpWord (fadd32 (lo32 1) (lo32 2))).1.toNat < 2 ^ 32 :=
  ⟨h.2.1 0 _ rfl, h.2.2.2.1 0 31 _ dk dk, (h.2.2.2.2.1 _ _ 31 5 dk).1,
   (h.2.2.2.2.1 _ _ 31 5 dk).2.2 _ dk,
   h.2.2.2.2.2.2.2.2.1 (.fadd {}) {} _ (fun x y => fpWord (fadd32 x y)) _ _ rfl⟩
/-- Sources that differ above bit 31 alone. -/
theorem witness_low_words (h : Obligations.ScalarRegisters) :
    let i : Instr := .fadd { d := 3, a := 1, b := 2 }
    let m : Instr := .fmad { d := 3, a := 1, b := 2 }
    let f : Instr := .ftoi { d := 3, a := 1, b := 0 }
    Goes i (bench i 0 (setS 0 1 0x100000001)) ∧ Goes m (bench m 0 (setS 0 1 0x100000001)) ∧ Goes f (bench f 0 (setS 0 1 0x100000001)) :=
  ⟨⟨_, h.2.2.2.2.2.1 _ _ _ _ _ 0x100000001 0 1 0 _ (.s 3) _ _ rfl dk runs_stOf dk dk runs_stOf runs_stOf⟩,
   ⟨_, h.2.2.2.2.2.2.1 _ _ 0x100000001 0 0 1 0 0 _ (.s 3) _ _ dk dk runs_stOf dk dk dk runs_stOf runs_stOf⟩,
   ⟨_, h.2.2.2.2.2.2.2.1 _ _ 0x100000001 1 _ (.s 3) _ _ dk dk runs_stOf dk runs_stOf runs_stOf⟩⟩

/-- A sequencer with a write of s3 pending. -/
def waits (q : SeqId) : State := bench .nop q fun k => k.modSeq q fun x => { x with pend := [⟨.s 3, 9⟩] }
theorem witness_interlock (h : Obligations.Interlock) :
    (¬∃ vs t, Runs (sources none [1, 3] []) (waits 0) vs t) ∧ Runs (interlock 3) (waits 2) () (waits 2) ∧
      StateT.run (interlock 3) (waits 3) = .error (.hold 9 0 false) ∧ (bench .nop 0).landFirst (bench .nop 0).cur = bench .nop 0 ∧
      (waits 0).landFirst (waits 0).cur =
        ((waits 0).modSeq (waits 0).cur fun q => { q with pend := [] }).landDst (waits 0).cur (.s 3) 9 :=
  ⟨h.1 _ _ _ _ 3 dk dk dk, h.2.1 _ _ (.inl dk),
   h.2.2.1 _ _ dk dk, h.2.2.2.1 _ _ dk,
   h.2.2.2.2 _ _ ⟨.s 3, 9⟩ [] dk⟩

theorem witness_queue_cycle (h : Obligations.QueueCycle) :
    let q : Queue := { ents := List.replicate 32 (.word 7 0) }
    (q.pushWord 5 4).ready 5 = 33 ∧ ((q.drop 1).pushWord 5 4).full = true ∧ (q.drop 1).full = false ∧
      StateT.run (popWord 3) (bench .nop 0) = .error (.hold 2 3 false) ∧
      Runs (popWord 3) (later (bench .nop 0 (putQ 3 [8]))) 8 ((later (bench .nop 0 (putQ 3 [8]))).modQ (bench .nop 0).cur 3 (·.drop 1)) ∧
      StateT.run (reserve 4 1) (bench .nop 0 (putQ 4 (List.replicate 32 0))) = .error (.hold 3 4 false) :=
  ⟨h.2.2.1 _ _ 4 5 dk dk, h.2.2.2.1 _ _ _ dk,
   h.2.2.2.2.1 _ _ dk dk dk, h.2.2.2.2.2.1 _ _ dk,
   h.2.2.2.2.2.2.1 (later (bench .nop 0 (putQ 3 [8]))) 3 dk, h.2.2.2.2.2.2.2 _ _ dk⟩

/-- A word written once by agent 5, an agent 1 with a floor at it, and a release of agent 1 in flight. -/
def written : State :=
  { bench .nop 0 with hist := [(0x4000, { init := 0, ws := [{ val := 7, writer := 5, parts := [] }] })]
                      flight := [anEnt none none] }

theorem witness_fence (h : Obligations.FencesJoinViews) :
    ((written.fence 1 4).agent 1).rel = some (((written.fence 1 4).agent 1).view, 4) ∧
      (written.fence 1 4).agent 2 = written.agent 2 ∧ NMap.get? (written.latest 1 4) 0x4000 = some 1 ∧
      Goes (.efence {}) (bench (.efence {}) 3) ∧
      ∃ t, exec (.efence {}) (bench (.efence {}) 3 fun k => k.modSeq 3 fun x => { x with unc := true }) = .next t :=
  ⟨(h.1 written 1 4 dk).2.1, (h.1 written 1 4 dk).2.2.2.2.1 2 dk dk,
   ((h.1 written 1 4 dk).2.2.2.2.2 dk 0x4000 _ rfl).trans dk,
   ⟨_, h.2.1 _ _ _ dk dk dk runs_stOf⟩,
   ⟨_, h.2.2 _ _ dk dk dk⟩⟩

theorem witness_floor (h : Obligations.LoadsKeepTheirFloor) :
    (written.load 1 0x4000 0xFF none = (7, written)) ∧
      (∃ i, 0 ≤ i ∧ i ≤ 1 ∧ (written.load 2 0x4000 0xFF none).1 = (written.nth 0x4000 i).1) := by
  refine ⟨((h written 1 0x4000 0xFF none).1 dk).trans ?_, ?_⟩
  · exact Prod.ext dk rfl
  · obtain ⟨i, h1, h2, h3, -⟩ := (h written 2 0x4000 0xFF none).2 dk dk
    exact ⟨i, Nat.zero_le _, h2, h3⟩

theorem witness_applied (h : Obligations.ApplyWritesItsBytes) :
    (written.applyAt 0).mem.read 0x20000 = 7 ∧ (written.applyAt 0).mem.read 0x20008 = written.mem.read 0x20008 := by
  have k := h written 0 (anEnt none none) dk dk dk
  exact ⟨k.2.1 ⟨0x4000, 0xFF, 7⟩ dk 0 dk dk, k.2.2 0x20008 dk⟩

theorem witness_frames (h : Obligations.ScalarFrames) :
    let i : Instr := .add { d := 3, a := 1, b := 2 }
    let m : Instr := .muli { d := 3, a := 1, imm := 5 }
    let u : Instr := .popc { d := 3, a := 1 }
    (∃ t, ScalarFrame (bench i 0) t) ∧ (∃ t, ScalarFrame (bench i 2) t) ∧ (∃ t, ScalarFrame (bench m 1) t) ∧
      ∃ t, ScalarFrame (bench u 3) t :=
  ⟨⟨_, h.1 (.add { d := 3, a := 1, b := 2 }) _ _ (bench (.add { d := 3, a := 1, b := 2 }) 0) 0 0 _ (.s 3) _ _ rfl dk
    runs_stOf dk runs_stOf runs_stOf⟩,
   ⟨_, h.2.1 (.add { d := 3, a := 1, b := 2 }) _ _ (bench (.add { d := 3, a := 1, b := 2 }) 2) 0 0 _ (0, 0, 0) _ _ rfl
    dk runs_stOf dk runs_stOf runs_stOf⟩,
   ⟨_, h.2.2.1 (.muli { d := 3, a := 1, imm := 5 }) _ _ (bench (.muli { d := 3, a := 1, imm := 5 }) 1) [0] _ (.s 3) _ _ 0 rfl
    dk runs_stOf dk runs_stOf runs_stOf⟩,
   ⟨_, h.2.2.2 (.popc { d := 3, a := 1 }) _ (bench (.popc { d := 3, a := 1 }) 3) [0] _ (.s 3) _ _ 0 rfl dk runs_stOf
    dk runs_stOf runs_stOf⟩⟩

theorem witness_memory_frames (h : Obligations.MemoryFrames) :
    let s := bench .nop 0
    (stOf (loadEa 0x20000 8 false none) s).mem = s.mem ∧ (stOf (storeEa 0x20000 4 9 none) s).mem = s.mem ∧
      (stOf (atomicFar 0x20000 4 0x20000 (fun o => o + 5) none none) s).mem.read 0x20004 = s.mem.read 0x20004 ∧
      (stOf (atomicFar 0x20000 4 0x20000 (fun o => o + 5) none none) s).mem.readLe 0x20000 4 = 5 :=
  ⟨(h.1 _ _ _ _ 0 _ runs_stOf).1, (h.2.1 _ _ _ _ _ 0x20000 _ _ runs_stOf runs_stOf).1,
   h.2.2.1 0x20000 4 0x20000 (fun o => o + 5) none none _ 0 _ dk dk dk runs_stOf _ (.inr dk),
   (h.2.2.2 0x20000 4 0x20000 (fun o => o + 5) none none (bench .nop 0) 0 _ dk dk dk
    dk dk runs_stOf).2.trans dk⟩

def aTile (x : W32) : Tile := Vector.replicate 1024 x
theorem witness_landing (h : Obligations.VectorLanding) :
    let e : XEnt := { i := .viadd { d := 3 }, due := 0, caps := [.tile (aTile 2), .tile (aTile 3)], pm := some 1 }
    (((bench .nop 2).landX (bench .nop 2).cur e).bank (bench .nop 2).cur).tile 4 = ((bench .nop 2).bank (bench .nop 2).cur).tile 4 :=
  (h (.viadd { d := 3 }) { d := 3 } (fun x y => (x + y, 0)) (bench .nop 2) (bench .nop 2).cur
    { i := .viadd { d := 3 }, due := 0, caps := [.tile (aTile 2), .tile (aTile 3)], pm := some 1 } (aTile 2) (aTile 3) rfl rfl rfl).2.2.1
    4 dk

def piped (es : List XEnt) : State := bench .nop 2 fun k => { k with xpend := es }
theorem witness_latency (h : Obligations.ExposedLatency) :
    let e (n : Nat) : XEnt := { i := .li { d := 3 }, due := n }
    ((piped [e 2]).bank (piped [e 2]).cur).xpend = [e 2] ∧
    (∃ t, (piped [e 2]).xSlot (piped [e 2]).cur = t) ∧ (∃ t, (piped [e 1]).xSlot (piped [e 1]).cur = t) ∧
      ∃ t, (piped [e 1, e 1]).xSlot (piped [e 1, e 1]).cur = t :=
  ⟨rfl, ⟨_, h.1 (piped [{ i := .li { d := 3 }, due := 2 }]) _ { i := .li { d := 3 }, due := 2 } 2 dk rfl⟩,
   ⟨_, h.2.1 (piped [{ i := .li { d := 3 }, due := 1 }]) _ { i := .li { d := 3 }, due := 1 } rfl⟩,
   ⟨_, h.2.2 (piped [{ i := .li { d := 3 }, due := 1 }, { i := .li { d := 3 }, due := 1 }]) _ { i := .li { d := 3 }, due := 1 }
    { i := .li { d := 3 }, due := 1 } rfl rfl rfl⟩⟩

theorem witness_trap_entry (h : Obligations.TrapEntry) :
    let s := bench .nop 0 fun k => { k with tfbase := 0x20000, tvec := 0x30004 }
    let w : Who := ⟨0, 0, 0, 0⟩
    ((s.takeTrap w { cause := 9 } true).bank w).level = true ∧
      (∃ t, (bench .nop 0 lvl1).takeTrap w { cause := 9 } true = t) ∧
      (s.frameWords w 5 6 (List.replicate 32 1))[4]? = some 5 := by
  intro s w
  exact ⟨(h.1 s w { cause := 9 } true 0x20000 false _ dk dk dk rfl (pair1 dk) dk).2.1,
    ⟨_, h.2.1 (bench .nop 0 lvl1) w { cause := 9 } true dk dk dk⟩, (h.2.2 s w 5 6 (List.replicate 32 1) dk).2.2.1⟩

/-! ## A word of every instruction, written out from the encodings of R84 to R86 and the function tables -/

theorem test_words_0 :
    decodeTableWord 32 0x00000000 = some .nop := by
  decide +kernel

theorem test_words_1 :
    decodeTableWord 32 0x0201C9F2 = some (.add { d := 28, a := 39, b := 50 }) ∧
    decodeTableWord 32 0x0205C9F2 = some (.sub { d := 28, a := 39, b := 50 }) ∧
    decodeTableWord 32 0x0209C9F2 = some (.and { d := 28, a := 39, b := 50 }) ∧
    decodeTableWord 32 0x020D582B = some (.or { d := 21, a := 32, b := 43 }) ∧
    decodeTableWord 32 0x0211C9F2 = some (.xor { d := 28, a := 39, b := 50 }) ∧
    decodeTableWord 32 0x0215C9F2 = some (.shl { d := 28, a := 39, b := 50 }) ∧
    decodeTableWord 32 0x0219C9F2 = some (.shr { d := 28, a := 39, b := 50 }) ∧
    decodeTableWord 32 0x021DC9F2 = some (.sra { d := 28, a := 39, b := 50 }) ∧
    decodeTableWord 32 0x0221C9F2 = some (.mul { d := 28, a := 39, b := 50 }) ∧
    decodeTableWord 32 0x02263B88 = some (.mulh { d := 35, a := 46, b := 8 }) ∧
    decodeTableWord 32 0x0229C9F2 = some (.min { d := 28, a := 39, b := 50 }) ∧
    decodeTableWord 32 0x022DC9F2 = some (.max { d := 28, a := 39, b := 50 }) ∧
    decodeTableWord 32 0x0231C9F2 = some (.div { d := 28, a := 39, b := 50 }) := by
  decide +kernel

theorem test_words_2 :
    decodeTableWord 32 0x0411DC37 = some (.addi { d := 35, a := 46, imm := 55 }) ∧
    decodeTableWord 32 0x0431DC37 = some (.andi { d := 35, a := 46, imm := 55 }) ∧
    decodeTableWord 32 0x044E4E30 = some (.ori { d := 28, a := 39, imm := 48 }) ∧
    decodeTableWord 32 0x0471DC37 = some (.xori { d := 35, a := 46, imm := 55 }) ∧
    decodeTableWord 32 0x0491DC37 = some (.shli { d := 35, a := 46, imm := 55 }) ∧
    decodeTableWord 32 0x04B1DC37 = some (.shri { d := 35, a := 46, imm := 55 }) ∧
    decodeTableWord 32 0x04D1DC37 = some (.srai { d := 35, a := 46, imm := 55 }) ∧
    decodeTableWord 32 0x04F1DC37 = some (.muli { d := 35, a := 46, imm := 55 }) := by
  decide +kernel

theorem test_words_3 :
    decodeTableWord 32 0x0654001E = some (.li { d := 21, imm := 30 }) := by
  decide +kernel

theorem test_words_4 :
    decodeTableWord 32 0x088C002C = some (.lcat { d := 35, imm := 44 }) := by
  decide +kernel

theorem test_words_5 :
    decodeTableWord 32 0x0A01C9F2 = some (.seq { d := 28, a := 39, b := 50 }) ∧
    decodeTableWord 32 0x0A05C9F2 = some (.sne { d := 28, a := 39, b := 50 }) ∧
    decodeTableWord 32 0x0A09C9F2 = some (.slt { d := 28, a := 39, b := 50 }) ∧
    decodeTableWord 32 0x0A0E3B88 = some (.sltu { d := 35, a := 46, b := 8 }) ∧
    decodeTableWord 32 0x0A11C9F2 = some (.sle { d := 28, a := 39, b := 50 }) ∧
    decodeTableWord 32 0x0A163B88 = some (.sleu { d := 35, a := 46, b := 8 }) ∧
    decodeTableWord 32 0x0A1A3B88 = some (.csel { d := 35, a := 46, b := 8 }) ∧
    decodeTableWord 32 0x0A1DC9C0 = some (.clz { d := 28, a := 39 }) ∧
    decodeTableWord 32 0x0A21C9C0 = some (.ctz { d := 28, a := 39 }) ∧
    decodeTableWord 32 0x0A263B80 = some (.popc { d := 35, a := 46 }) := by
  decide +kernel

theorem test_words_6 :
    decodeTableWord 32 0x0C023B88 = some (.fadd { d := 35, a := 46, b := 8 }) ∧
    decodeTableWord 32 0x0C063B88 = some (.fsub { d := 35, a := 46, b := 8 }) ∧
    decodeTableWord 32 0x0C0A3B88 = some (.fmul { d := 35, a := 46, b := 8 }) ∧
    decodeTableWord 32 0x0C0E3B88 = some (.fmad { d := 35, a := 46, b := 8 }) ∧
    decodeTableWord 32 0x0C123B88 = some (.fmin { d := 35, a := 46, b := 8 }) ∧
    decodeTableWord 32 0x0C163B88 = some (.fmax { d := 35, a := 46, b := 8 }) ∧
    decodeTableWord 32 0x0C1A3B82 = some (.ftoi { d := 35, a := 46, b := 2 }) ∧
    decodeTableWord 32 0x0C1E3B81 = some (.itof { d := 35, a := 46, b := 1 }) ∧
    decodeTableWord 32 0x0C21C9F2 = some (.flt { d := 28, a := 39, b := 50 }) := by
  decide +kernel

theorem test_words_8 :
    decodeTableWord 32 0x1000013E = some (.br { ld := 19, w := 14 }) ∧
    decodeTableWord 32 0x10170251 = some (.brz { c := 1, a := 28, ld := 37, w := 1 }) ∧
    decodeTableWord 32 0x1028C2C7 = some (.brnz { c := 2, a := 35, ld := 44, w := 7 }) ∧
    decodeTableWord 32 0x1038C2C7 = some (.brlt { c := 3, a := 35, ld := 44, w := 7 }) ∧
    decodeTableWord 32 0x1048C2C7 = some (.brge { c := 4, a := 35, ld := 44, w := 7 }) ∧
    decodeTableWord 32 0x1058C2C7 = some (.brle { c := 5, a := 35, ld := 44, w := 7 }) ∧
    decodeTableWord 32 0x1068C2C7 = some (.brgt { c := 6, a := 35, ld := 44, w := 7 }) := by
  decide +kernel

theorem test_words_9 :
    decodeTableWord 32 0x1208C2C7 = some (.call { a := 35, ld := 44, w := 7 }) ∧
    decodeTableWord 32 0x12170000 = some (.ret { c := 1, a := 28 }) ∧
    decodeTableWord 32 0x12270000 = some (.jmp { c := 2, a := 28 }) := by
  decide +kernel

theorem test_words_10 :
    decodeTableWord 32 0x144B8372 = some (.loop { c := 4, a := 46, ld := 55, w := 2 }) := by
  decide +kernel

theorem test_words_11 :
    decodeTableWord 32 0x161002C7 = some (.bqnz { c := 1, ld := 44, w := 7 }) ∧
    decodeTableWord 32 0x16A04251 = some (.bqz { c := 10, a := 1, ld := 37, w := 1 }) := by
  decide +kernel

theorem test_words_12 :
    decodeTableWord 32 0x18000021 = some (.wait { imm := 33 }) := by
  decide +kernel

theorem test_words_16 :
    decodeTableWord 32 0x200E4E30 = some (.ld8 { d := 28, a := 39, imm := 48 }) ∧
    decodeTableWord 32 0x2031DC37 = some (.ld16 { d := 35, a := 46, imm := 55 }) ∧
    decodeTableWord 32 0x2051DC37 = some (.ld32 { d := 35, a := 46, imm := 55 }) ∧
    decodeTableWord 32 0x2071DC37 = some (.ld64 { d := 35, a := 46, imm := 55 }) ∧
    decodeTableWord 32 0x2091DC37 = some (.ld8s { d := 35, a := 46, imm := 55 }) ∧
    decodeTableWord 32 0x20B5083E = some (.ld16s { d := 42, a := 4, imm := 62 }) ∧
    decodeTableWord 32 0x20D5083E = some (.ld32s { d := 42, a := 4, imm := 62 }) := by
  decide +kernel

theorem test_words_17 :
    decodeTableWord 32 0x220E4E30 = some (.st8 { d := 28, a := 39, imm := 48 }) ∧
    decodeTableWord 32 0x2231DC37 = some (.st16 { d := 35, a := 46, imm := 55 }) ∧
    decodeTableWord 32 0x2251DC37 = some (.st32 { d := 35, a := 46, imm := 55 }) ∧
    decodeTableWord 32 0x2271DC37 = some (.st64 { d := 35, a := 46, imm := 55 }) := by
  decide +kernel

theorem test_words_18 :
    decodeTableWord 32 0x240312D6 = some (.amoadd { d := 49, a := 11, b := 22 }) ∧
    decodeTableWord 32 0x240712D6 = some (.amoswp { d := 49, a := 11, b := 22 }) ∧
    decodeTableWord 32 0x240B12D6 = some (.amocas { d := 49, a := 11, b := 22 }) ∧
    decodeTableWord 32 0x240F12D6 = some (.amoand { d := 49, a := 11, b := 22 }) ∧
    decodeTableWord 32 0x2412A10F = some (.amoor { d := 42, a := 4, b := 15 }) ∧
    decodeTableWord 32 0x241712D6 = some (.amoxor { d := 49, a := 11, b := 22 }) := by
  decide +kernel

theorem test_words_19 :
    decodeTableWord 32 0x26000000 = some (.fenceCore {}) ∧
    decodeTableWord 32 0x26040000 = some (.fenceClu {}) ∧
    decodeTableWord 32 0x26080000 = some (.fenceDie {}) ∧
    decodeTableWord 32 0x260C0000 = some (.fenceMod {}) ∧
    decodeTableWord 32 0x26100000 = some (.fenceSpan {}) ∧
    decodeTableWord 32 0x26200000 = some (.efence {}) := by
  decide +kernel

theorem test_words_20 :
    decodeTableWord 32 0x28004637 = some (.farm { a := 35, imm := 55 }) ∧
    decodeTableWord 32 0x28200033 = some (.fpost { imm := 51 }) ∧
    decodeTableWord 32 0x2840002C = some (.fdec { imm := 44 }) ∧
    decodeTableWord 32 0x2875003E = some (.fread { d := 42, imm := 62 }) ∧
    decodeTableWord 32 0x28800033 = some (.fwait { imm := 51 }) := by
  decide +kernel

theorem test_words_21 :
    decodeTableWord 32 0x2A0E4E0B = some (.bar { d := 28, a := 39, imm := 11 }) := by
  decide +kernel

theorem test_words_22 :
    decodeTableWord 32 0x2C0810F1 = some (.qpush { q := 8, a := 4, b := 15, f := 1 }) ∧
    decodeTableWord 32 0x2C11B881 = some (.qpop { q := 1, a := 46, b := 8, f := 1 }) ∧
    decodeTableWord 32 0x2C2810F1 = some (.qpeek { q := 8, a := 4, b := 15, f := 1 }) ∧
    decodeTableWord 32 0x2C381000 = some (.qstat { q := 8, a := 4 }) ∧
    decodeTableWord 32 0x2C41B800 = some (.qcfg { q := 1, a := 46 }) := by
  decide +kernel

theorem test_words_23 :
    decodeTableWord 32 0x2E02A10F = some (.spawn { d := 42, a := 4, b := 15 }) ∧
    decodeTableWord 32 0x2E040C4B = some (.tstart { a := 49, b := 11 }) ∧
    decodeTableWord 32 0x2E0A3B88 = some (.join { d := 35, a := 46, b := 8 }) ∧
    decodeTableWord 32 0x2E0EA000 = some (.yield { d := 42 }) ∧
    decodeTableWord 32 0x2E100023 = some (.exit { b := 35 }) := by
  decide +kernel

theorem test_words_32 :
    decodeTableWord 32 0x40081009 = some (.sbind { q := 8, a := 4, f := 9 }) ∧
    decodeTableWord 32 0x40100001 = some (.sstop { f := 1 }) ∧
    decodeTableWord 32 0x4020A803 = some (.sstat { a := 42, f := 3 }) := by
  decide +kernel

theorem test_words_33 :
    decodeTableWord 32 0x42002D63 = some (.gather { a := 11, b := 22, f := 3 }) ∧
    decodeTableWord 32 0x421049D3 = some (.gatherq { a := 18, b := 29, f := 3 }) := by
  decide +kernel

theorem test_words_34 :
    decodeTableWord 32 0x44023B88 = some (.copy { d := 35, a := 46, b := 8 }) ∧
    decodeTableWord 32 0x4406A10F = some (.copyf { d := 42, a := 4, b := 15 }) ∧
    decodeTableWord 32 0x440B12D6 = some (.copy2d { d := 49, a := 11, b := 22 }) := by
  decide +kernel

theorem test_words_35 :
    decodeTableWord 32 0x46040914 = some (.wload { d := 8, a := 4, imm := 276 }) := by
  decide +kernel

theorem test_words_36 :
    decodeTableWord 32 0x480312D6 = some (.rcfill { d := 49, a := 11, b := 22 }) ∧
    decodeTableWord 32 0x480401D2 = some (.rcclose { a := 7, b := 18 }) ∧
    decodeTableWord 32 0x48087480 = some (.rcquery { d := 7, a := 18 }) := by
  decide +kernel

theorem test_words_37 :
    decodeTableWord 32 0x4A0312D6 = some (.shload { d := 49, a := 11, b := 22 }) ∧
    decodeTableWord 32 0x4A06A10F = some (.shext { d := 42, a := 4, b := 15 }) := by
  decide +kernel

theorem test_words_38 :
    decodeTableWord 32 0x4C0A9C00 = some (.ldq { q := 10, a := 39 }) ∧
    decodeTableWord 32 0x4C1810F0 = some (.ldrow { q := 8, a := 4, b := 15 }) := by
  decide +kernel

theorem test_words_39 :
    decodeTableWord 32 0x4E00E664 = some (.actBind { d := 14, a := 25, b := 36 }) ∧
    decodeTableWord 32 0x4E04E664 = some (.actMark { d := 14, a := 25, b := 36 }) ∧
    decodeTableWord 32 0x4E09582B = some (.actClear { d := 21, a := 32, b := 43 }) ∧
    decodeTableWord 32 0x4E0CE664 = some (.actList { d := 14, a := 25, b := 36 }) ∧
    decodeTableWord 32 0x4E115020 = some (.actCount { d := 21, b := 32 }) := by
  decide +kernel

theorem test_words_40 :
    decodeTableWord 32 0x50001C48 = some (.prefetch { a := 14, imm := 72 }) := by
  decide +kernel

theorem test_words_41 :
    decodeTableWord 32 0x52080000 = some (.gwait { q := 8 }) ∧
    decodeTableWord 32 0x52181003 = some (.gstat { q := 8, a := 4, f := 3 }) := by
  decide +kernel

theorem test_words_48 :
    decodeTableWord 32 0x60005974 = some (.vadd { d := 1, a := 12, b := 23, m := 2 }) ∧
    decodeTableWord 32 0x60085974 = some (.vsub { d := 1, a := 12, b := 23, m := 2 }) ∧
    decodeTableWord 32 0x60105974 = some (.vmul { d := 1, a := 12, b := 23, m := 2 }) ∧
    decodeTableWord 32 0x60185974 = some (.vfma { d := 1, a := 12, b := 23, m := 2 }) ∧
    decodeTableWord 32 0x60205974 = some (.vfms { d := 1, a := 12, b := 23, m := 2 }) ∧
    decodeTableWord 32 0x60285974 = some (.vmin { d := 1, a := 12, b := 23, m := 2 }) ∧
    decodeTableWord 32 0x60305974 = some (.vmax { d := 1, a := 12, b := 23, m := 2 }) ∧
    decodeTableWord 32 0x6038580E = some (.vabs { d := 1, a := 12, m := 7 }) ∧
    decodeTableWord 32 0x6040580E = some (.vneg { d := 1, a := 12, m := 7 }) := by
  decide +kernel

theorem test_words_49 :
    decodeTableWord 32 0x620227E2 = some (.viadd { d := 8, a := 19, b := 30, m := 1 }) ∧
    decodeTableWord 32 0x620A27E2 = some (.visub { d := 8, a := 19, b := 30, m := 1 }) ∧
    decodeTableWord 32 0x621227E2 = some (.vimul { d := 8, a := 19, b := 30, m := 1 }) ∧
    decodeTableWord 32 0x621A27E2 = some (.viand { d := 8, a := 19, b := 30, m := 1 }) ∧
    decodeTableWord 32 0x62205974 = some (.vior { d := 1, a := 12, b := 23, m := 2 }) ∧
    decodeTableWord 32 0x622A27E2 = some (.vixor { d := 8, a := 19, b := 30, m := 1 }) ∧
    decodeTableWord 32 0x623227E2 = some (.vishl { d := 8, a := 19, b := 30, m := 1 }) ∧
    decodeTableWord 32 0x623A27E2 = some (.vishr { d := 8, a := 19, b := 30, m := 1 }) := by
  decide +kernel

theorem test_words_50 :
    decodeTableWord 32 0x64005974 = some (.vceq { d := 1, a := 12, b := 23, m := 2 }) ∧
    decodeTableWord 32 0x64085974 = some (.vclt { d := 1, a := 12, b := 23, m := 2 }) ∧
    decodeTableWord 32 0x64105974 = some (.vcle { d := 1, a := 12, b := 23, m := 2 }) ∧
    decodeTableWord 32 0x641867E2 = some (.viceq { d := 1, a := 19, b := 30, m := 1 }) ∧
    decodeTableWord 32 0x64205974 = some (.vilt { d := 1, a := 12, b := 23, m := 2 }) := by
  decide +kernel

theorem test_words_51 :
    decodeTableWord 32 0x66005974 = some (.vsel { d := 1, a := 12, b := 23, m := 2 }) ∧
    decodeTableWord 32 0x6608580E = some (.vmov { d := 1, a := 12, m := 7 }) ∧
    decodeTableWord 32 0x6613F40A = some (.vsplat { d := 15, a := 26, m := 5 }) := by
  decide +kernel

theorem test_words_52 :
    decodeTableWord 32 0x6803F450 = some (.vquant { d := 15, a := 26, b := 5 }) ∧
    decodeTableWord 32 0x680F5130 = some (.vdequant { d := 29, a := 8, b := 19 }) ∧
    decodeTableWord 32 0x6812260C = some (.vftoi { d := 8, a := 19, m := 6 }) ∧
    decodeTableWord 32 0x681A260C = some (.vitof { d := 8, a := 19, m := 6 }) := by
  decide +kernel

theorem test_words_53 :
    decodeTableWord 32 0x6A02260C = some (.vexp2 { d := 8, a := 19, m := 6 }) ∧
    decodeTableWord 32 0x6A0BF452 = some (.vexp2d { d := 15, a := 26, b := 5, m := 1 }) ∧
    decodeTableWord 32 0x6A12260C = some (.vlog2 { d := 8, a := 19, m := 6 }) ∧
    decodeTableWord 32 0x6A191E04 = some (.vrcpSeed { d := 4, a := 15, m := 2 }) ∧
    decodeTableWord 32 0x6A211E04 = some (.vrsqSeed { d := 4, a := 15, m := 2 }) := by
  decide +kernel

theorem test_words_54 :
    decodeTableWord 32 0x6C0227E2 = some (.vrotr { d := 8, a := 19, b := 30, m := 1 }) ∧
    decodeTableWord 32 0x6C0226E3 = some (.vrotc { d := 8, a := 19, b := 14, m := 1, ax := 1 }) ∧
    decodeTableWord 32 0x6C0D82CE = some (.vbcastr { d := 22, a := 1, b := 12, m := 7 }) ∧
    decodeTableWord 32 0x6C0D82CF = some (.vbcastc { d := 22, a := 1, b := 12, m := 7, ax := 1 }) ∧
    decodeTableWord 32 0x6C122632 = some (.vredr { d := 8, a := 19, b := 3, m := 1 }) ∧
    decodeTableWord 32 0x6C122643 = some (.vredc { d := 8, a := 19, b := 4, m := 1, ax := 1 }) ∧
    decodeTableWord 32 0x6C1BF432 = some (.vscanr { d := 15, a := 26, b := 3, m := 1 }) ∧
    decodeTableWord 32 0x6C1BF423 = some (.vscanc { d := 15, a := 26, b := 2, m := 1, ax := 1 }) := by
  decide +kernel

theorem test_words_55 :
    decodeTableWord 32 0x6E004874 = some (.mand { d := 1, a := 4, b := 7, m := 2 }) ∧
    decodeTableWord 32 0x6E088A16 = some (.mor { d := 2, a := 5, b := 1, m := 3 }) ∧
    decodeTableWord 32 0x6E104874 = some (.mxor { d := 1, a := 4, b := 7, m := 2 }) ∧
    decodeTableWord 32 0x6E184662 = some (.mandn { d := 1, a := 3, b := 6, m := 1 }) ∧
    decodeTableWord 32 0x6E20480E = some (.vany { d := 1, a := 4, m := 7 }) ∧
    decodeTableWord 32 0x6E28480E = some (.vall { d := 1, a := 4, m := 7 }) ∧
    decodeTableWord 32 0x6E30480E = some (.mpop { d := 1, a := 4, m := 7 }) := by
  decide +kernel

theorem test_words_56 :
    decodeTableWord 32 0x7000460C = some (.vflag { d := 1, a := 3, m := 6 }) ∧
    decodeTableWord 32 0x70083A02 = some (.vflagclr { a := 29, m := 1 }) := by
  decide +kernel

theorem test_words_57 :
    decodeTableWord 32 0x72005974 = some (.vpop { d := 1, a := 12, b := 23, m := 2 }) ∧
    decodeTableWord 32 0x720A27E2 = some (.vpush { d := 8, a := 19, b := 30, m := 1 }) := by
  decide +kernel

theorem test_words_65 :
    decodeTableWord 32 0x82000044 = some (.mswap { flag := 8, pol := 4 }) := by
  decide +kernel

theorem test_words_67 :
    decodeTableWord 32 0x860204F4 = some (.mzero { zd := 1, fmt := 4, flag := 30, pol := 4 }) := by
  decide +kernel

theorem test_words_68 :
    decodeTableWord 32 0x88021371 = some (.mread { zd := 1, fmt := 19, flag := 14, pol := 1 }) := by
  decide +kernel

theorem test_words_69 :
    decodeTableWord 32 0x8A0E0000 = some (.mclose { zd := 7 }) ∧
    decodeTableWord 32 0x8A100001 = some (.mwait { pol := 1 }) := by
  decide +kernel

theorem test_words_70 :
    decodeTableWord 32 0x8C021303 = some (.mstat { zd := 1, fmt := 19, pol := 3 }) := by
  decide +kernel

theorem test_words_71 :
    decodeTableWord 32 0x8E0008EE = some (.fmtw { a := 35, b := 46 }) ∧
    decodeTableWord 32 0x8E063B80 = some (.fmtr { d := 35, a := 46 }) := by
  decide +kernel

theorem test_words_72 :
    decodeTableWord 32 0x90000A80 = some (.aecfg { a := 42 }) := by
  decide +kernel

theorem test_words_73 :
    decodeTableWord 32 0x9202A100 = some (.aerun { d := 42, a := 4 }) := by
  decide +kernel

theorem test_words_74 :
    decodeTableWord 32 0x940312C0 = some (.aeread { d := 49, a := 11 }) := by
  decide +kernel

theorem test_words_80 :
    decodeTableWord 32 0xA00810F3 = some (.strow { q := 8, a := 4, b := 15, f := 3 }) ∧
    decodeTableWord 32 0xA01F2C05 = some (.stword { q := 15, a := 11, f := 5 }) := by
  decide +kernel

theorem test_words_81 :
    decodeTableWord 32 0xA20649D1 = some (.scatter { q := 6, a := 18, b := 29, f := 1 }) := by
  decide +kernel

theorem test_words_82 :
    decodeTableWord 32 0xA401B881 = some (.strc { q := 1, a := 46, b := 8, f := 1 }) := by
  decide +kernel

theorem test_words_83 :
    decodeTableWord 32 0xA60F2D63 = some (.rstore { q := 15, a := 11, b := 22, f := 3 }) ∧
    decodeTableWord 32 0xA61810FC = some (.ratom { q := 8, a := 4, b := 15, f := 12 }) := by
  decide +kernel

theorem test_words_84 :
    decodeTableWord 32 0xA8081006 = some (.obind { q := 8, a := 4, f := 6 }) ∧
    decodeTableWord 32 0xA8100001 = some (.ostop { f := 1 }) := by
  decide +kernel

theorem test_words_96 :
    decodeTableWord 32 0xC08C002C = some (.csrr { d := 35, imm := 44 }) := by
  decide +kernel

theorem test_words_97 :
    decodeTableWord 32 0xC28C002C = some (.csrw { d := 35, imm := 44 }) := by
  decide +kernel

theorem test_words_98 :
    decodeTableWord 32 0xC4002109 = some (.trap { imm := 8457 }) := by
  decide +kernel

theorem test_words_99 :
    decodeTableWord 32 0xC6000C40 = some (.resume { a := 49 }) := by
  decide +kernel

theorem test_words_100 :
    decodeTableWord 32 0xC8000C4B = some (.tlbinv { a := 49, b := 11 }) := by
  decide +kernel

theorem test_words_101 :
    decodeTableWord 32 0xCA000A84 = some (.icinv { a := 42, b := 4 }) := by
  decide +kernel

theorem test_words_102 :
    decodeTableWord 32 0xCC023B88 = some (.rqrd { d := 35, a := 46, b := 8 }) ∧
    decodeTableWord 32 0xCC063B88 = some (.rqwr { d := 35, a := 46, b := 8 }) := by
  decide +kernel

theorem test_words_103 :
    decodeTableWord 32 0xCE000A84 = some (.pgmap { a := 42, b := 4 }) ∧
    decodeTableWord 32 0xCE040C4B = some (.pgdone { a := 49, b := 11 }) := by
  decide +kernel

theorem test_words_104 :
    decodeTableWord 32 0xD000001A = some (.brk { imm := 26 }) := by
  decide +kernel

/-! ## Ill-formed terms, one for each check of `Instr.wf` -/

/-- Operand fields that name nothing, and destinations that may not be written (R87, R90). -/
theorem test_wf_fields :
    Instr.wf (.add { d := 52, a := 1, b := 2 }) = false ∧ Instr.wf (.add { d := 1, a := 59, b := 2 }) = false ∧
    Instr.wf (.add { d := 1, a := 2, b := 62 }) = false ∧ Instr.wf (.ld8 { d := 1, a := 63 }) = false ∧
    Instr.wf (.copy { d := 1, a := 2, b := 63 }) = false ∧ Instr.wf (.csrw { d := 60, imm := 1 }) = false := by decide
/-- The generic long rule and window descriptors (R86): a short form that names 63, two fields of 63, an imm32 over a field
that is not zero, a register number beyond the windows and reserved bits. -/
theorem test_wf_long :
    Instr.wf (.add { d := 1, a := 63, b := 2 }) = false ∧ Instr.wf (.add { d := 1, a := 63, b := 63, e := some 0 }) = false ∧
    Instr.wf (.add { d := 1, a := 2, b := 3, e := some 7 }) = false ∧
    Instr.wf (.add { d := 1, a := 63, b := 2, e := some 0x800 }) = false ∧
    Instr.wf (.add { d := 1, a := 63, b := 2, e := some 0x700 }) = false ∧
    Instr.wf (.add { d := 1, a := 63, b := 2, e := some 1 }) = false ∧
    Instr.wf (.addi { d := 1, a := 2, imm := 3, e := some 7 }) = false ∧
    Instr.wf (.clz { d := 1, a := 2, e := some 0 }) = false ∧ Instr.wf (.clz { d := 1, a := 2, b := 1 }) = false := by decide
/-- Shifts beyond 63 and literals (R107, R108). -/
theorem test_wf_imm :
    Instr.wf (.shli { d := 1, a := 2, imm := 64 }) = false ∧ Instr.wf (.srai { d := 1, a := 2, e := some 64 }) = false ∧
    Instr.wf (.li { d := 1, imm := 2, e := some 3 }) = false ∧ Instr.wf (.lcat { d := 1, imm := 2, e := some 3 }) = false ∧
    Instr.wf (.ftoi { d := 1, a := 2, b := 4 }) = false := by decide
/-- Branches, calls, loops and waits (R111 to R117). -/
theorem test_wf_branches :
    Instr.wf (.br { c := 1, w := 2 }) = false ∧ Instr.wf (.br { w := 0 }) = false ∧ Instr.wf (.brz { c := 1, a := 3 }) = false ∧
    Instr.wf (.brz { c := 2, a := 3, w := 2 }) = false ∧ Instr.wf (.brz { c := 1, a := 60, w := 2 }) = false ∧
    Instr.wf (.brz { c := 1, a := 3, ld := 4, w := 2, e := some 9 }) = false ∧
    Instr.wf (.call { a := 52, w := 1 }) = false ∧ Instr.wf (.ret { c := 1, a := 3, w := 1 }) = false ∧
    Instr.wf (.jmp { c := 2, a := 3, ld := 1 }) = false ∧ Instr.wf (.loop { c := 1, a := 3, w := 1 }) = false ∧
    Instr.wf (.bqnz { a := 1, w := 1 }) = false ∧ Instr.wf (.bqz { a := 0, w := 1 }) = false ∧ Instr.wf (.wait { imm := 0 }) = false := by decide
/-- The extension words of loads, stores, atomics and row stores (R121, R123, R210): scopes, order bits, reserved bits, an
imm9 that is not zero. -/
theorem test_wf_memory :
    Instr.wf (.ld8 { d := 1, a := 2, e := some 0xA0000000 }) = false ∧ Instr.wf (.ld8 { d := 1, a := 2, e := some 0x20000000 }) = false ∧
    Instr.wf (.ld8 { d := 1, a := 2, e := some 0x01000000 }) = false ∧ Instr.wf (.st8 { d := 1, a := 2, e := some 0x08000000 }) = false ∧
    Instr.wf (.ld8 { d := 1, a := 2, imm := 1, e := some 0 }) = false ∧
    Instr.wf (.amoadd { d := 1, a := 2, b := 3, e := some 0x20000000 }) = false ∧
    Instr.wf (.amoadd { d := 1, a := 2, b := 3, e := some 0x02000000 }) = false ∧
    Instr.wf (.strow { a := 1, b := 2, e := some 0x00010000 }) = false ∧ Instr.wf (.strow { a := 1, b := 2, f := 8 }) = false ∧
    Instr.wf (.stword { a := 1, b := 2 }) = false ∧ Instr.wf (.scatter { a := 1, b := 2, e := some 0x00410000 }) = false ∧
    Instr.wf (.strc { a := 1, f := 1, e := some 0 }) = false ∧ Instr.wf (.ratom { a := 1, b := 2, f := 5 }) = false ∧
    Instr.wf (.ratom { q := 1, a := 1, b := 2, f := 1, e := some 0x08000000 }) = false ∧
    Instr.wf (.rstore { a := 1, b := 2, f := 1, e := some 1 }) = false := by decide
/-- Fields that must be zero in fences, flags, barriers, queue and task instructions. -/
theorem test_wf_zero :
    Instr.wf (.fenceDie { d := 1 }) = false ∧ Instr.wf (.farm { a := 1, imm := 64 }) = false ∧ Instr.wf (.fpost { a := 1 }) = false ∧
    Instr.wf (.fread { d := 1, a := 1 }) = false ∧ Instr.wf (.bar { d := 1, a := 2, imm := 4 }) = false ∧
    Instr.wf (.bar { d := 1, a := 2, imm := 9 }) = false ∧ Instr.wf (.qpush { q := 1, a := 2, b := 3, f := 0 }) = false ∧
    Instr.wf (.qpush { q := 1, a := 2, b := 3, f := 2 }) = false ∧ Instr.wf (.qpop { q := 1, a := 52 }) = false ∧
    Instr.wf (.qstat { a := 1, f := 1 }) = false ∧ Instr.wf (.qcfg { a := 1, b := 1 }) = false ∧ Instr.wf (.tstart { d := 1 }) = false ∧
    Instr.wf (.yield { d := 1, a := 1 }) = false ∧ Instr.wf (.exit { b := 1, e := some 0x80 }) = false ∧ Instr.wf (.exit { b := 63 }) = false := by decide
/-- The command extension word (R142), the copy and stream commands, weight loads and the caches' commands. -/
theorem test_wf_commands :
    Instr.wf (.sbind { a := 1, e := some 0x02000000 }) = false ∧ Instr.wf (.sbind { a := 1, e := some 0x00040000 }) = false ∧
    Instr.wf (.sbind { a := 1, e := some 0x00004000 }) = false ∧ Instr.wf (.sbind { a := 1, e := some 1 }) = false ∧
    Instr.wf (.sstop { e := some 0x80000000 }) = false ∧ Instr.wf (.sstat { a := 1, e := some 1 }) = false ∧
    Instr.wf (.gather { q := 1, a := 1, b := 2, f := 2 }) = false ∧ Instr.wf (.copyf { d := 1, a := 2, b := 3, e := some 0 }) = false ∧
    Instr.wf (.copy { d := 1, a := 2, b := 3, e := some 4 }) = false ∧ Instr.wf (.wload { d := 32, a := 1 }) = false ∧
    Instr.wf (.wload { d := 1, a := 1, imm := 0x180 }) = false ∧ Instr.wf (.wload { d := 1, a := 1, imm := 0x40 }) = false ∧
    Instr.wf (.rcclose { d := 1 }) = false ∧ Instr.wf (.rcquery { d := 1, a := 1, b := 1 }) = false ∧ Instr.wf (.ldq { a := 1, b := 1 }) = false ∧
    Instr.wf (.ldrow { a := 1, f := 1 }) = false ∧ Instr.wf (.prefetch { d := 1, a := 1 }) = false ∧ Instr.wf (.gwait { a := 1 }) = false ∧
    Instr.wf (.gstat { a := 1, f := 4 }) = false ∧ Instr.wf (.actCount { d := 1, a := 1 }) = false ∧
    Instr.wf (.obind { a := 1, b := 1 }) = false ∧ Instr.wf (.ostop { q := 1 }) = false := by decide
/-- Vector instructions: the axis bit, masks, unary forms, axis parameters and extension words (R163 to R180). -/
theorem test_wf_vector :
    Instr.wf (.vadd { d := 1, ax := 1 }) = false ∧ Instr.wf (.vadd { d := 1, e := some 0 }) = false ∧ Instr.wf (.vabs { d := 1, b := 1 }) = false ∧
    Instr.wf (.vceq { d := 8 }) = false ∧ Instr.wf (.vsel { b := 1, e := some 0 }) = false ∧ Instr.wf (.vmov { d := 1, e := some 4 }) = false ∧
    Instr.wf (.vmov { d := 9, a := 1, e := some 1 }) = false ∧ Instr.wf (.vmov { d := 1, a := 9, e := some 2 }) = false ∧
    Instr.wf (.vsplat { a := 1, e := some 0 }) = false ∧ Instr.wf (.vquant { d := 3, a := 1, b := 3 }) = false ∧
    Instr.wf (.vquant { d := 3, a := 1, b := 4, m := 1 }) = false ∧ Instr.wf (.vdequant { d := 3, e := some 0x02000000 }) = false ∧
    Instr.wf (.vftoi { d := 1, b := 1 }) = false ∧ Instr.wf (.vitof { d := 1, e := some 1 }) = false ∧ Instr.wf (.vrotc { b := 16, ax := 1 }) = false ∧
    Instr.wf (.vredr { b := 6 }) = false ∧ Instr.wf (.vscanc { b := 1, ax := 0 }) = false ∧ Instr.wf (.mand { d := 1, a := 2, b := 8 }) = false ∧
    Instr.wf (.vany { d := 1, a := 8 }) = false ∧ Instr.wf (.vflag { d := 1, a := 5 }) = false ∧ Instr.wf (.vflagclr { a := 0 }) = false ∧
    Instr.wf (.vpop { a := 16 }) = false ∧ Instr.wf (.vpush { d := 1, e := some 5 }) = false ∧ Instr.wf (.vget { d := 1, a := 2 }) = false ∧
    Instr.wf (.vput { d := 1, a := 2, e := some 0x400 }) = false := by decide
/-- Matrix instructions: the flag field, a count of rows outside 1 to 512, reserved fields (R190 to R200). -/
theorem test_wf_matrix :
    Instr.wf (.mmul { e := none }) = false ∧ Instr.wf (.mmul { e := some 0 }) = false ∧ Instr.wf (.mmul { e := some 0x00201000 }) = false ∧
    Instr.wf (.mmul { flag := 1, e := some 0x1000 }) = false ∧ Instr.wf (.mmul { e := some 0x1001 }) = false ∧
    Instr.wf (.mrank { e := some 0x00401000 }) = false ∧ Instr.wf (.mswap { zd := 1 }) = false ∧ Instr.wf (.mzero { rq := 1 }) = false ∧
    Instr.wf (.mread { zd := 1, fmt := 32 }) = false ∧ Instr.wf (.mclose { pol := 1 }) = false ∧ Instr.wf (.mwait { zd := 1, pol := 1 }) = false ∧
    Instr.wf (.mstat { pol := 5 }) = false := by decide
/-- Tables, the auction engine and the system instructions: `csrr` and `csrw` of a register that another row owns, a register
number beyond 12 bits, a cause that `trap` may not name (R133, R134). -/
theorem test_wf_system :
    Instr.wf (.fmtw { d := 1 }) = false ∧ Instr.wf (.fmtr { b := 1 }) = false ∧ Instr.wf (.aecfg { b := 1 }) = false ∧
    Instr.wf (.aerun { d := 1, e := some 0 }) = false ∧ Instr.wf (.aeread { d := 1, b := 1 }) = false ∧
    Instr.wf (.csrr { d := 1, imm := 0x012 }) = false ∧ Instr.wf (.csrw { d := 1, imm := 0x002 }) = false ∧
    Instr.wf (.csrr { d := 1, imm := 0x1000 }) = false ∧ Instr.wf (.cwinWrite { d := 1, imm := 0x010 }) = false ∧
    Instr.wf (.qmapWrite { d := 1, imm := 3 }) = false ∧ Instr.wf (.flogdatRead { d := 1, imm := 3 }) = false ∧
    Instr.wf (.wsrangeWrite { d := 1, imm := 3 }) = false ∧ Instr.wf (.pfblockWrite { d := 1, imm := 3 }) = false ∧
    Instr.wf (.wpcWrite { d := 1, imm := 0x308 }) = false ∧ Instr.wf (.trap { imm := 0x0B }) = false ∧ Instr.wf (.trap { imm := 0 }) = false ∧
    Instr.wf (.resume { d := 1 }) = false ∧ Instr.wf (.tlbinv { a := 63 }) = false ∧ Instr.wf (.rqrd { d := 52 }) = false ∧
    Instr.wf (.rqwr { d := 63 }) = false ∧ Instr.wf (.pgmap { d := 1 }) = false ∧ Instr.wf (.pgdone { e := some 0 }) = false ∧
    Instr.wf (.brk { d := 1 }) = false ∧ Instr.wf (.icinv { b := 59 }) = false := by decide
/-- The decoder refuses an ill-formed word by name. -/
theorem test_decode_refuses : decodeTableWord 32 0x02034001 = none ∧ decodeTableWord 32 0x0C180044 = none := by decide +kernel

/-! ## Words that the spec itself gives as examples of its entries -/

theorem test_examples_0 :
    -- wait 7
    decodeTableWord 32 0x18000007 = some (.wait { imm := 7 }) ∧
    -- div s5, s6, s7
    decodeTableWord 32 0x02305187 = some (.div { d := 5, a := 6, b := 7 }) ∧
    -- li s6, 0x7FC0_0BAD
    decodeTableWord 64 0x7FC00BAD07180000 = some (.li { d := 6, e := some 0x7FC00BAD }) ∧
    -- li s3, 8
    decodeTableWord 32 0x060C0008 = some (.li { d := 3, imm := 8 }) ∧
    -- fmad s4, s1, s2
    decodeTableWord 32 0x0C0C4042 = some (.fmad { d := 4, a := 1, b := 2 }) ∧
    -- ftoi.rz s2, s1
    decodeTableWord 32 0x0C182041 = some (.ftoi { d := 2, a := 1, b := 1 }) ∧
    -- ret s31
    decodeTableWord 32 0x1217C000 = some (.ret { c := 1, a := 31 }) ∧
    -- st64 8(s2), s3
    decodeTableWord 32 0x22618408 = some (.st64 { d := 3, a := 2, imm := 8 }) ∧
    -- bar.clu s7, s6
    decodeTableWord 32 0x2A038C01 = some (.bar { d := 7, a := 6, imm := 1 }) ∧
    -- qpop s4, q1
    decodeTableWord 32 0x2C111000 = some (.qpop { q := 1, a := 4 }) ∧
    -- qstat s4, q9
    decodeTableWord 32 0x2C391000 = some (.qstat { q := 9, a := 4 }) ∧
    -- tstart s6, s7
    decodeTableWord 32 0x2E040187 = some (.tstart { a := 6, b := 7 }) := by
  decide +kernel

theorem test_examples_1 :
    -- exit 0x03
    decodeTableWord 64 0x000000032F100000 = some (.exit { e := some 3 }) ∧
    -- csrr s3, fbase
    decodeTableWord 32 0xC00C0000 = some (.csrr { d := 3, imm := 0 }) ∧
    -- csrw rsseed, s2
    decodeTableWord 32 0xC2080001 = some (.csrw { d := 2, imm := 1 }) ∧
    -- trap 0x07, 42
    decodeTableWord 32 0xC4002A07 = some (.trap { imm := 0x2A07 }) ∧
    -- brk 5
    decodeTableWord 32 0xD0000005 = some (.brk { imm := 5 }) ∧
    -- pgdone s1, s0
    decodeTableWord 32 0xCE040040 = some (.pgdone { a := 1, b := 0 }) ∧
    -- sbind q8, s4, st2
    decodeTableWord 32 0x40081002 = some (.sbind { q := 8, a := 4, f := 2 }) ∧
    -- sstop st2
    decodeTableWord 32 0x40100002 = some (.sstop { f := 2 }) ∧
    -- sstat s5, st2
    decodeTableWord 32 0x40201402 = some (.sstat { a := 5, f := 2 }) ∧
    -- gwait grp2
    decodeTableWord 32 0x52020000 = some (.gwait { q := 2 }) ∧
    -- gstat s4, grp2
    decodeTableWord 32 0x52121000 = some (.gstat { q := 2, a := 4 }) ∧
    -- copy s1, s2, s3
    decodeTableWord 32 0x44001083 = some (.copy { d := 1, a := 2, b := 3 }) := by
  decide +kernel

theorem test_examples_2 :
    -- wload.sparse f5, s2, 4
    decodeTableWord 32 0x46028484 = some (.wload { d := 5, a := 2, imm := 0x84 }) ∧
    -- rcfill s6, s7, s8
    decodeTableWord 32 0x480061C8 = some (.rcfill { d := 6, a := 7, b := 8 }) ∧
    -- shload s3, s4, s5
    decodeTableWord 32 0x4A003105 = some (.shload { d := 3, a := 4, b := 5 }) ∧
    -- ldq q5, s4
    decodeTableWord 32 0x4C051000 = some (.ldq { q := 5, a := 4 }) ∧
    -- prefetch 64(s2)
    decodeTableWord 32 0x50000440 = some (.prefetch { a := 2, imm := 64 }) ∧
    -- act.list s1, s2, s3
    decodeTableWord 32 0x4E0C1083 = some (.actList { d := 1, a := 2, b := 3 }) ∧
    -- vadd v3, v1, v2
    decodeTableWord 32 0x6000C220 = some (.vadd { d := 3, a := 1, b := 2 }) ∧
    -- vfma v4, v1, v2
    decodeTableWord 32 0x60190220 = some (.vfma { d := 4, a := 1, b := 2 }) ∧
    -- viadd v3, v1, v2
    decodeTableWord 32 0x6200C220 = some (.viadd { d := 3, a := 1, b := 2 }) ∧
    -- vclt m1, v1, v2
    decodeTableWord 32 0x64084220 = some (.vclt { d := 1, a := 1, b := 2 }) ∧
    -- vsel v7, v1, v2, m1
    decodeTableWord 32 0x6601C222 = some (.vsel { d := 7, a := 1, b := 2, m := 1 }) ∧
    -- vsplat v2, s5
    decodeTableWord 32 0x66108A00 = some (.vsplat { d := 2, a := 5 }) := by
  decide +kernel

theorem test_examples_3 :
    -- vsplat v2, 0x3F80_0000
    decodeTableWord 64 0x3F80000067108000 = some (.vsplat { d := 2, e := some 0x3F800000 }) ∧
    -- vftoi.rz v3, v1
    decodeTableWord 64 0x008000006910C200 = some (.vftoi { d := 3, a := 1, e := some 0x00800000 }) ∧
    -- vquant v4, v2, v6, 5
    decodeTableWord 64 0x1400000069010460 = some (.vquant { d := 4, a := 2, b := 6, e := some 0x14000000 }) ∧
    -- vexp2d v5, v1, v2
    decodeTableWord 32 0x6A094220 = some (.vexp2d { d := 5, a := 1, b := 2 }) ∧
    -- vrotr v2, v1, 40
    decodeTableWord 64 0x000000286D008200 = some (.vrotr { d := 2, a := 1, e := some 40 }) ∧
    -- vredr v6, v1, fmax
    decodeTableWord 32 0x6C118210 = some (.vredr { d := 6, a := 1, b := 1 }) ∧
    -- vredc v6, v1, fmax
    decodeTableWord 32 0x6C118211 = some (.vredc { d := 6, a := 1, b := 1, ax := 1 }) ∧
    -- vscanr v4, v1, fadd
    decodeTableWord 32 0x6C190200 = some (.vscanr { d := 4, a := 1, b := 0 }) ∧
    -- vany s3, m1
    decodeTableWord 32 0x6E20C200 = some (.vany { d := 3, a := 1 }) ∧
    -- vflag m2, 4
    decodeTableWord 32 0x70008800 = some (.vflag { d := 2, a := 4 }) ∧
    -- vflagclr 0b1_0000
    decodeTableWord 32 0x70082000 = some (.vflagclr { a := 16 }) ∧
    -- vpop v2, q8, s0
    decodeTableWord 32 0x72009000 = some (.vpop { d := 2, a := 8 }) := by
  decide +kernel

theorem test_examples_4 :
    -- vpush q12, v3, s4
    decodeTableWord 32 0x720B0640 = some (.vpush { d := 12, a := 3, b := 4 }) ∧
    -- vget s3, v5[2, 17]
    decodeTableWord 64 0x000000917500CA00 = some (.vget { d := 3, a := 5, e := some 0x91 }) ∧
    -- vput v5[2, 17], s3
    decodeTableWord 64 0x0000009175094600 = some (.vput { d := 5, a := 3, e := some 0x91 }) ∧
    -- fmtw s1, s2
    decodeTableWord 32 0x8E000042 = some (.fmtw { a := 1, b := 2 }) ∧
    -- fmtr s3, s1
    decodeTableWord 32 0x8E043040 = some (.fmtr { d := 3, a := 1 }) ∧
    -- mzero z1, 3
    decodeTableWord 32 0x86020300 = some (.mzero { zd := 1, fmt := 3 }) ∧
    -- mswap f7
    decodeTableWord 32 0x8200003C = some (.mswap { flag := 7, pol := 4 }) ∧
    -- mmul z2, q9, s3, 6, 5, f6
    decodeTableWord 64 0x1800600081044534 = some (.mmul { zd := 2, rq := 1, fmt := 5, flag := 6, pol := 4, e := some 0x18006000 }) ∧
    -- mclose z2
    decodeTableWord 32 0x8A040000 = some (.mclose { zd := 2 }) ∧
    -- mread v4, z2, 0
    decodeTableWord 32 0x88040400 = some (.mread { zd := 2, fmt := 4 }) ∧
    -- mstat s5, z2, 0
    decodeTableWord 32 0x8C040500 = some (.mstat { zd := 2, fmt := 5 }) ∧
    -- aecfg s4
    decodeTableWord 32 0x90000100 = some (.aecfg { a := 4 }) := by
  decide +kernel

theorem test_examples_5 :
    -- aerun s5, s6
    decodeTableWord 32 0x92005180 = some (.aerun { d := 5, a := 6 }) ∧
    -- aeread s7, s1
    decodeTableWord 32 0x94007040 = some (.aeread { d := 7, a := 1 }) ∧
    -- strow q12, s4
    decodeTableWord 32 0xA00C1000 = some (.strow { q := 12, a := 4 }) ∧
    -- strow.t q12, s4, s5
    decodeTableWord 32 0xA00C1051 = some (.strow { q := 12, a := 4, b := 5, f := 1 }) ∧
    -- scatter q13, s2, s3
    decodeTableWord 32 0xA20D0830 = some (.scatter { q := 13, a := 2, b := 3 }) ∧
    -- strc.rc 1 q12, s4
    decodeTableWord 32 0xA40C1000 = some (.strc { q := 12, a := 4 }) ∧
    -- strc.rc 3 q12, s4
    decodeTableWord 64 0x00030000A50C1000 = some (.strc { q := 12, a := 4, e := some 0x00030000 }) ∧
    -- rstore q12, s4
    decodeTableWord 32 0xA60C1000 = some (.rstore { q := 12, a := 4 }) ∧
    -- rstore.rt q12, s4, s5
    decodeTableWord 32 0xA60C1051 = some (.rstore { q := 12, a := 4, b := 5, f := 1 }) ∧
    -- ratom.add q7, s2, s3
    decodeTableWord 32 0xA6170830 = some (.ratom { q := 7, a := 2, b := 3 }) ∧
    -- obind q13, s4, st1
    decodeTableWord 32 0xA80D1001 = some (.obind { q := 13, a := 4, f := 1 }) ∧
    -- ostop st1
    decodeTableWord 32 0xA8100001 = some (.ostop { f := 1 }) := by
  decide +kernel

/-- Rows that the opcode table gives no pattern of their own: `mrank` (R190, R198), and the register forms of R133, which
share the words of `csrw` and `csrr` and differ in the register number. -/
theorem test_words_by_register :
    decodeTableWord 64 0x1800600085044534 = some (.mrank { zd := 2, rq := 1, fmt := 5, flag := 6, pol := 4, e := some 0x18006000 }) ∧
    decodeTableWord 32 0xC208000F = some (.cwinWrite { d := 2, imm := 0xF }) ∧
    decodeTableWord 32 0xC2080002 = some (.qmapWrite { d := 2, imm := 2 }) ∧
    decodeTableWord 32 0xC00C0012 = some (.flogdatRead { d := 3, imm := 0x12 }) ∧
    decodeTableWord 32 0xC2080104 = some (.wsrangeWrite { d := 2, imm := 0x104 }) ∧
    decodeTableWord 32 0xC2080202 = some (.pfblockWrite { d := 2, imm := 0x202 }) ∧
    decodeTableWord 32 0xC2080307 = some (.wpcWrite { d := 2, imm := 0x307 }) := by
  decide +kernel

/-! ## Values that the spec gives in its examples -/

/-- R106: `add` of 5 and −7, `div` of −7 by 2; R107: 10 − 1. -/
theorem test_integer_examples :
    scalarVal (.add {}) 5 (-7) 0 = -2 ∧ scalarVal (.div {}) (-7) 2 0 = -3 ∧ scalarVal (.addi {}) 10 (-1) 0 = 9 := by decide
/-- R110: 2 × 3 + 0.5; `ftoi.rz` of −2.75; R166: 1.5 + 2^−30; R23 and R110: an exact zero difference, NaN operands of `fmin`. -/
theorem test_float_examples :
    ffma32 0x40000000 0x40400000 0x3F000000 = (0x40D00000, 0) ∧ ftoi32 0xC0300000 .rz 0 = (-2, fNX) ∧
    fadd32 0x3FC00000 0x30800000 = (0x3FC00000, fNX) ∧ fsub32 0x3FC00000 0x3FC00000 = (0, 0) ∧
    fmin32 0x7FC00000 0x3F800000 = (0x3F800000, 0) ∧ fmin32 0x7FA00000 0x7FC00000 = (0x7FC00000, fNV) := by decide +kernel
/-- R25, R42: infinity less infinity, overflow, underflow. -/
theorem test_float_flags :
    fsub32 0x7F800000 0x7F800000 = (0x7FC00000, fNV) ∧ fadd32 0x7F7FFFFF 0x7F7FFFFF = (0x7F800000, fOF ||| fNX) ∧
    fmul32 0x00800001 0x3F000000 = (0x00400000, fUF ||| fNX) ∧ fmul32 0x00800000 0x3F000000 = (0x00400000, 0) := by decide +kernel
/-- R175: the worked seed of 3.0 and the Newton step that refines it. -/
theorem test_seed_example :
    rcpSeed 0x40400000 = (0x3EAAA700, 0) ∧ ffms32 0x40400000 0x3EAAA700 0x3F800000 = (0x38B00000, 0) ∧
    ffma32 0x3EAAA700 0x38B00000 0x3EAAA700 = (0x3EAAAAAB, fNX) := by decide +kernel
/-- R174: 2^(3 − 5), and equal infinities. -/
theorem test_exp2d_example : exp2d 0x40400000 0x40A00000 = (0x3E800000, 0) ∧ exp2d 0x7F800000 0x7F800000 = (0x3F800000, 0) := by
  decide +kernel
/-- R26 to R30: landmark codes of F8A, F8B, F6A, F6B and F4, dequantised at scale 1. -/
theorem test_narrow_codes :
    (dequant 3 256 .rn 0 0x01).1 = 0x3B000000 ∧ (dequant 3 256 .rn 0 0x7F).1 = 0x43F00000 ∧ (dequant 4 256 .rn 0 0x04).1 = 0x38800000 ∧
    (dequant 4 256 .rn 0 0xFF).1 = 0xC7E00000 ∧ (dequant 5 256 .rn 0 0x1F).1 = 0x40F00000 ∧ (dequant 6 256 .rn 0 0x1F).1 = 0x41E00000 ∧
    (dequant 7 256 .rn 0 0xD).1 = 0xC0400000 ∧ (dequant 9 256 .rn 0 0x8).1 = 0xC1000000 := by decide +kernel
/-- R37: the worked tile: amax 100 gives code 254, 37.3 becomes 0x71, and 0x71 is 36.0. -/
theorem test_quant_example :
    s9Choose 3 [f32 0x42C80000, f32 0x42153333] = 254 ∧ (quantScaled 3 254 .rn 0 (f32 0x42153333)).1 = 0x71 ∧
    dequant 3 254 .rn 0 0x71 = (0x42100000, 0) := by decide +kernel
/-- R41: a draw from `rsseed` 0 starts from the constant. -/
theorem test_draw : draw 0 = draw 0x9E3779B97F4A7C15 := by decide +kernel

end Sys2Proof.Tests
end

section
/-! PROOFS. Every instruction and event ends in a next state, and so does every step of a module that is on (R2, R90, R399). -/
namespace Sys2Proof.Machine

/-! ## Answers that end in a next state -/

@[simp] theorem safe_next (t : State) : Safe (.next t) := ⟨t, rfl⟩

theorem safe_ite {c : Prop} [Decidable c] {o o' : Out} (h : Safe o) (h' : Safe o') : Safe (if c then o else o') := by
  split
  · exact h
  · exact h'

/-- The answer of an event with a single condition. -/
theorem safe_ite_next (c : Prop) [Decidable c] (s t : State) : Safe (if c then .next s else .next t) :=
  safe_ite (safe_next s) (safe_next t)

/-! ## The instruction that issues in a way of its own, and the events of the sequencers -/

/-- `efence` traps on an error that it has waited for, and issues as the others do without one (R124). -/
theorem execEfence_safe (f : RRR) (s : State) : Safe (execEfence f s) := by
  unfold execEfence
  split
  · exact safe_ite (safe_next _) (issue_safe _ _ _)
  · exact safe_next _

theorem execImpreciseTrap_safe (c : CoreId) (s : State) : Safe (execImpreciseTrap c s) := by
  unfold execImpreciseTrap
  split
  · exact safe_next _
  · exact safe_ite_next _ _ _

theorem execFetchLineArrive_safe (c : CoreId) (b : BankId) (q : SeqId) (s : State) : Safe (execFetchLineArrive c b q s) := by
  unfold execFetchLineArrive
  refine safe_ite (safe_next _) ?_
  split
  · exact safe_next _
  · exact safe_ite_next _ _ _

theorem execParityRepair_safe (c : CoreId) (b : BankId) (q : SeqId) (file index : Nat) (captureOk : Bool) (s : State) :
    Safe (execParityRepair c b q file index captureOk s) := by
  unfold execParityRepair
  split
  · refine safe_ite (safe_ite_next _ _ _) (safe_ite (safe_next _) ?_)
    split
    · exact safe_next _
    · exact safe_ite_next _ _ _
  · exact safe_next _

theorem execStepCountExpire_safe (c : CoreId) (s : State) : Safe (execStepCountExpire c s) := by
  unfold execStepCountExpire
  split
  · exact safe_next _
  · exact safe_next _

/-! ## The engines -/

theorem execCopyEngineStart_safe (c : CoreId) (s : State) : Safe (execCopyEngineStart c s) := by
  unfold execCopyEngineStart
  split
  · exact safe_next _
  · refine safe_ite (safe_next _) (safe_ite (safe_next _) ?_)
    extract_lets
    split
    · exact safe_next _
    · exact safe_next _
    · exact safe_next _

theorem execStreamElementPush_safe (c : CoreId) (k : Fin 8) (s : State) : Safe (execStreamElementPush c k s) := by
  unfold execStreamElementPush
  extract_lets runs
  split
  split
  · exact safe_next _
  · refine safe_ite (safe_next _) ?_
    split
    · exact safe_next _
    · exact safe_next _

theorem execGatherRowDeliver_safe (c : CoreId) (id pos : Nat) (s : State) : Safe (execGatherRowDeliver c id pos s) := by
  unfold execGatherRowDeliver
  split
  · exact safe_next _
  · refine safe_ite (safe_next _) ?_
    split
    · exact safe_next _
    · exact safe_next _
    · exact safe_next _

theorem execCopyComplete_safe (c : CoreId) (id : Nat) (s : State) : Safe (execCopyComplete c id s) := by
  unfold execCopyComplete
  split
  · exact safe_next _
  · split
    · refine safe_ite (safe_next _) (safe_ite (safe_next _) (safe_ite ?_ (safe_next _)))
      extract_lets todo
      split
      exact safe_ite_next _ _ _
    · exact safe_next _

theorem execMatrixCmdStart_safe (c : CoreId) (s : State) : Safe (execMatrixCmdStart c s) := by
  unfold execMatrixCmdStart
  extract_lets core startable
  split
  split
  · exact safe_next _
  · split
    · exact safe_next _
    · refine safe_ite (safe_next _) ?_
      split
      · exact safe_next _
      · exact safe_next _
      · exact safe_next _
      · exact safe_next _

theorem execMatrixOpComplete_safe (c : CoreId) (s : State) : Safe (execMatrixOpComplete c s) := by
  unfold execMatrixOpComplete
  split
  · exact safe_next _
  · exact safe_next _

theorem execOstreamElementWrite_safe (c : CoreId) (k : Fin 8) (s : State) : Safe (execOstreamElementWrite c k s) := by
  unfold execOstreamElementWrite
  extract_lets runs head
  split
  split
  · split
    · exact safe_next _
    · exact safe_next _
  · exact safe_ite_next _ _ _
  · exact safe_next _

theorem execLamplighterApply_safe (u : CluId) (s : State) : Safe (execLamplighterApply u s) := by
  unfold execLamplighterApply
  split
  · exact safe_next _
  · exact safe_ite (safe_next _) (safe_ite (safe_next _) (safe_ite_next _ _ _))

theorem execAeRunStart_safe (u : CluId) (s : State) : Safe (execAeRunStart u s) := by
  unfold execAeRunStart
  extract_lets cluster
  split
  · exact safe_ite_next _ _ _
  · exact safe_next _
  · exact safe_next _

theorem execAeRunComplete_safe (u : CluId) (s : State) : Safe (execAeRunComplete u s) := by
  unfold execAeRunComplete
  split
  · exact safe_next _
  · refine safe_ite (safe_next _) ?_
    split
    · exact safe_next _
    · exact safe_ite_next _ _ _
    · exact safe_ite_next _ _ _

theorem execEngineWindowReplay_safe (c : CoreId) (eng : Fin 6) (id : Nat) (second : Bool) (s : State) :
    Safe (execEngineWindowReplay c eng id second s) := by
  unfold execEngineWindowReplay
  refine safe_ite (safe_next _) ?_
  split
  · split
    · exact safe_ite (safe_next _) (safe_ite_next _ _ _)
    · exact safe_next _
  · exact safe_ite (safe_next _) (safe_ite_next _ _ _)
  · split
    · split
      · exact safe_ite_next _ _ _
      · exact safe_next _
    · exact safe_next _
  · extract_lets cluster
    split
    · exact safe_ite_next _ _ _
    · exact safe_next _
  · extract_lets cluster
    split
    · exact safe_ite (safe_next _) (safe_ite_next _ _ _)
    · exact safe_next _
  · exact safe_next _

theorem execStreamTlbPrefetch_safe (c : CoreId) (out : Bool) (va : BitVec 64) (s : State) :
    Safe (execStreamTlbPrefetch c out va s) := by
  unfold execStreamTlbPrefetch
  extract_lets runs
  split
  · exact safe_next _
  · exact safe_next _

/-! ## Homes, ports and die links -/

theorem execApply_safe (k : Nat) (s : State) : Safe (execApply k s) := by
  unfold execApply
  split
  · exact safe_next _
  · refine safe_ite (safe_next _) (safe_ite (safe_ite (safe_next _) ?_) (safe_ite (safe_next _) (safe_ite_next _ _ _)))
    split
    exact safe_next _

theorem execDeliver_safe (k : Nat) (s : State) : Safe (execDeliver k s) := by
  unfold execDeliver
  split
  · exact safe_next _
  · refine safe_ite (safe_ite (safe_next _) ?_) (safe_ite_next _ _ _)
    extract_lets
    split
    · exact safe_next _
    · exact safe_next _

theorem execFillStallResume_safe (d : DieId) (s : State) : Safe (execFillStallResume d s) := by
  unfold execFillStallResume
  split
  · exact safe_next _
  · split
    · exact safe_next _
    · exact safe_ite_next _ _ _

theorem execCountedFullTimeout_safe (d : DieId) (s : State) : Safe (execCountedFullTimeout d s) := by
  unfold execCountedFullTimeout
  split
  · exact safe_next _
  · extract_lets
    split
    · exact safe_next _
    · exact safe_next _

theorem execLiveLineEvict_safe (row : Nat) (s : State) : Safe (execLiveLineEvict row s) := by
  unfold execLiveLineEvict
  extract_lets die
  split
  · exact safe_next _
  · exact safe_ite_next _ _ _

theorem execCombineFlushTimeout_safe (c : CoreId) (s : State) : Safe (execCombineFlushTimeout c s) := by
  unfold execCombineFlushTimeout
  split
  · exact safe_next _
  · exact safe_next _

/-- The state after the cores have sent their requests, the arrival and the peer's request are named before the cases are split: else the
kernel evaluates the fold over the 512 cores to compare two of the matches. -/
theorem execRemoteRequestArrive_safe (k : Nat) (peer : Option PeerReq) (s : State) : Safe (execRemoteRequestArrive k peer s) := by
  unfold execRemoteRequestArrive
  dsimp only
  generalize List.foldl _ s _ = t
  generalize (List.filter _ t.peerReqs)[k - t.arrivals.length]? = later
  generalize t.arrivals[k]? = arrival
  cases peer with
  | some p => exact safe_next _
  | none =>
    cases arrival with
    | some r => exact safe_ite_next _ _ _
    | none =>
      cases later with
      | some p => exact safe_next _
      | none => exact safe_next _

theorem execRemoteAck_safe (c : CoreId) (s : State) : Safe (execRemoteAck c s) := by
  unfold execRemoteAck
  extract_lets t waiting
  split
  split
  · exact safe_next _
  · split
    exact safe_next _

theorem execRatomReply_safe (c : CoreId) (s : State) : Safe (execRatomReply c s) := by
  unfold execRatomReply
  extract_lets t far waiting
  split
  split
  · exact safe_next _
  · refine safe_ite (safe_next _) ?_
    split
    split
    · exact safe_next _
    · split
      exact safe_next _

theorem execFlitReceive_safe (l : LinkId) (crcOk : Bool) (s : State) : Safe (execFlitReceive l crcOk s) := by
  unfold execFlitReceive
  extract_lets t link sendable wire
  refine safe_ite (safe_next _) ?_
  split
  split
  · exact safe_next _
  · exact safe_next _

theorem execNakReceive_safe (l : LinkId) (s : State) : Safe (execNakReceive l s) := by
  unfold execNakReceive
  split
  · exact safe_next _
  · exact safe_next _

theorem execRequestGiveUp_safe (c : CoreId) (s : State) : Safe (execRequestGiveUp c s) := by
  unfold execRequestGiveUp
  split
  · exact safe_next _
  · extract_lets requests writes
    split
    split
    · exact safe_next _
    · extract_lets
      split
      · exact safe_next _
      · exact safe_next _
    · exact safe_next _

/-! ## The scheduler -/

theorem execBankActivate_safe (c : CoreId) (s : State) : Safe (execBankActivate c s) := by
  unfold execBankActivate
  refine safe_ite (safe_next _) ?_
  extract_lets ready suspended banks
  split
  split
  · exact safe_next _
  · exact safe_next _

theorem execDispatch_safe (d : DieId) (s : State) : Safe (execDispatch d s) := by
  unfold execDispatch
  refine safe_ite (safe_next _) ?_
  split
  · exact safe_next _
  · split
    · split
      · exact safe_next _
      · exact safe_next _
    · split
      · exact safe_next _
      · exact safe_next _

theorem execKillComplete_safe (c : CoreId) (b : BankId) (s : State) : Safe (execKillComplete c b s) := by
  unfold execKillComplete
  extract_lets w
  split
  · exact safe_ite_next _ _ _
  · exact safe_next _

theorem execWorkSteal_safe (d : DieId) (s : State) : Safe (execWorkSteal d s) := by
  unfold execWorkSteal
  refine safe_ite (safe_next _) ?_
  split
  · exact safe_next _
  · exact safe_next _

theorem execPreemptCheckpoint_safe (c : CoreId) (b : BankId) (s : State) : Safe (execPreemptCheckpoint c b s) := by
  unfold execPreemptCheckpoint
  extract_lets w bank
  split
  · exact safe_ite_next _ _ _
  · exact safe_next _

theorem execSaveCommit_safe (c : CoreId) (b : BankId) (s : State) : Safe (execSaveCommit c b s) := by
  unfold execSaveCommit
  extract_lets w
  split
  · extract_lets
    refine safe_ite (safe_next _) (safe_ite (safe_next _) ?_)
    split
    · exact safe_next _
    · refine safe_ite (safe_next _) (safe_ite (safe_next _) (safe_ite (safe_next _) ?_))
      split
      refine safe_ite (safe_next _) ?_
      split
      · exact safe_next _
      · exact safe_next _
  · exact safe_next _

theorem execRestore_safe (c : CoreId) (b : BankId) (s : State) : Safe (execRestore c b s) := by
  unfold execRestore
  extract_lets w
  split
  · exact safe_next _
  · extract_lets area key size
    refine safe_ite (safe_next _) ?_
    split
    refine safe_ite (safe_next _) ?_
    extract_lets
    split
    · exact safe_next _
    · exact safe_next _
    · exact safe_next _
    · exact safe_next _

/-! ## Reliability and power -/

theorem execScanStart_safe (d : DieId) (s : State) : Safe (execScanStart d s) := by
  unfold execScanStart
  extract_lets die
  refine safe_ite (safe_next _) ?_
  split
  · exact safe_next _
  · refine safe_ite (safe_next _) ?_
    split
    · exact safe_next _
    · exact safe_next _

theorem execSelftestComplete_safe (u : FUnit) (pass : Bool) (s : State) : Safe (execSelftestComplete u pass s) := by
  unfold execSelftestComplete
  extract_lets unit
  split
  · refine safe_ite (safe_next _) (safe_ite (safe_next _) ?_)
    split
    exact safe_next _
  · exact safe_next _

theorem execScrubAtom_safe (addr : Nat) (uncorrectable : Bool) (s : State) : Safe (execScrubAtom addr uncorrectable s) := by
  unfold execScrubAtom
  exact safe_ite (safe_next _) (safe_ite (safe_ite_next _ _ _) (safe_ite (safe_next _) (safe_ite_next _ _ _)))

/-! ## Commands of the host -/

theorem execEventWrite_safe (s : State) : Safe (execEventWrite s) := by
  unfold execEventWrite
  extract_lets host
  split
  · exact safe_next _
  · exact safe_ite_next _ _ _

/-- A command waits, starts or goes on, whatever its OP and its acts are (R361). -/
theorem cmdTurn_safe (s : State) (op : Nat) (start go : Cmd → State → State) : Safe (s.cmdTurn op start go) := by
  unfold State.cmdTurn
  refine safe_ite (safe_next _) ?_
  extract_lets running head
  split
  split
  · exact safe_next _
  · exact safe_next _
  · exact safe_next _

/-- So does a command that takes one turn. -/
theorem cmdOnce_safe (s : State) (op : Nat) (run : Cmd → State → State) : Safe (s.cmdOnce op run) :=
  cmdTurn_safe s op run _

theorem execShootdown_safe (s : State) : Safe (execShootdown s) := by
  unfold execShootdown
  exact cmdTurn_safe s _ _ _

theorem execPagerelease_safe (s : State) : Safe (execPagerelease s) := by
  unfold execPagerelease
  exact cmdTurn_safe s _ _ _

/-! ## The instructions and events together -/

/-- Every instruction of a sequencer issues; every event chooses among next states (R2, R90). `exec` is opened before the cases, so that
each meets its own meaning. -/
theorem exec_safe (i : Instr) (s : State) : Safe (exec i s) := by
  delta exec
  cases i with
  -- the instructions that issue: held, trapped or done
  | nop | add _ | sub _ | and _ | or _ | xor _ | shl _ | shr _ | sra _ | mul _ | mulh _ | min _ | max _ | div _ | addi _
  | andi _ | ori _ | xori _ | shli _ | shri _ | srai _ | muli _ | li _ | lcat _ | seq _ | sne _ | slt _ | sltu _ | sle _
  | sleu _ | csel _ | clz _ | ctz _ | popc _ | fadd _ | fsub _ | fmul _ | fmad _ | fmin _ | fmax _ | ftoi _ | itof _ | flt _
  | br _ | brz _ | brnz _ | brlt _ | brge _ | brle _ | brgt _ | call _ | ret _ | jmp _ | loop _ | bqnz _ | bqz _ | wait _
  | ld8 _ | ld16 _ | ld32 _ | ld64 _ | ld8s _ | ld16s _ | ld32s _ | st8 _ | st16 _ | st32 _ | st64 _ | amoadd _ | amoswp _
  | amocas _ | amoand _ | amoor _ | amoxor _ | fenceCore _ | fenceClu _ | fenceDie _ | fenceMod _ | fenceSpan _ | farm _
  | fpost _ | fdec _ | fread _ | fwait _ | bar _ | qpush _ | qpop _ | qpeek _ | qstat _ | qcfg _ | spawn _ | tstart _ | join _
  | yield _ | exit _ | sbind _ | sstop _ | sstat _ | gather _ | gatherq _ | copy _ | copyf _ | copy2d _ | wload _ | rcfill _
  | rcclose _ | rcquery _ | shload _ | shext _ | ldq _ | ldrow _ | actBind _ | actMark _ | actClear _ | actList _ | actCount _
  | prefetch _ | gwait _ | gstat _ | vadd _ | vsub _ | vmul _ | vfma _ | vfms _ | vmin _ | vmax _ | vabs _ | vneg _ | viadd _
  | visub _ | vimul _ | viand _ | vior _ | vixor _ | vishl _ | vishr _ | vceq _ | vclt _ | vcle _ | viceq _ | vilt _ | vsel _
  | vmov _ | vsplat _ | vquant _ | vdequant _ | vftoi _ | vitof _ | vexp2 _ | vexp2d _ | vlog2 _ | vrcpSeed _ | vrsqSeed _
  | vrotr _ | vrotc _ | vbcastr _ | vbcastc _ | vredr _ | vredc _ | vscanr _ | vscanc _ | mand _ | mor _ | mxor _ | mandn _
  | vany _ | vall _ | mpop _ | vflag _ | vflagclr _ | vpop _ | vpush _ | vget _ | vput _ | mmul _ | mswap _ | mrank _ | mzero _
  | mread _ | mclose _ | mwait _ | mstat _ | fmtw _ | fmtr _ | aecfg _ | aerun _ | aeread _ | strow _ | stword _ | scatter _
  | strc _ | rstore _ | ratom _ | obind _ | ostop _ | csrr _ | csrw _ | cwinWrite _ | qmapWrite _ | flogdatRead _
  | wsrangeWrite _ | pfblockWrite _ | wpcWrite _ | trap _ | resume _ | tlbinv _ | icinv _ | rqrd _ | rqwr _ | pgmap _
  | pgdone _ | brk _ =>
    exact issueLim_safe _ _ _ _
  -- the commands of the host
  | ctxteardown | retire | dbgstop | dbgstep =>
    exact cmdTurn_safe _ _ _ _
  | cmdNop | launch | ctxcreate | aclwrite | schedparam | pageanswer | gangwrite | savefclear | relparam | selftest
  | powerstate | ckptarm | ckptrestore | ckptdiscard | attest | fwstage | dbgclaim | dbgresume | dbgpatch | dbgregw | ewtwrite
  | profblock | tracecfg | peerskew =>
    exact cmdOnce_safe _ _ _
  -- the events of one outcome, and those that a condition guards
  | exposedWriteLand _ _ | illegalInstruction _ | registerWriteLand _ _ _ | tbskewMeasure _ _ | parkedRelease _
  | followonPlace _ _ | matrixRowPop _ | matrixContributionLand _ | wloadComplete _ | moduleReset | cqbellWrite _
  | eqackWrite _ =>
    exact safe_next _
  | drain _ | peerLaunch _ _ _ | ackOnlyFlit _ | holderFenceTimeout _ | scanComplete _ _ | powerReportDeferred _
  | lossWriteBack | lossStoreState | lossStoreHbm | lossCommit | lossOff | hictlWrite _ | hostRegWrite _ _
  | holdupBankExhausted =>
    exact safe_ite_next _ _ _
  | laneFailure _ _ | clampChange _ _ _ _ =>
    exact safe_ite (safe_next _) (safe_ite (safe_next _) (safe_ite_next _ _ _))
  | retrainComplete _ _ | unitFence _ _ _ | holdupBankLow _ | inputPowerLoss | lossSaveTasks =>
    exact safe_ite (safe_next _) (safe_ite_next _ _ _)
  -- the others, by their own lemmas
  | efence f => exact execEfence_safe f s
  | impreciseTrap c => exact execImpreciseTrap_safe c s
  | stepCountExpire c => exact execStepCountExpire_safe c s
  | fetchLineArrive c b q => exact execFetchLineArrive_safe c b q s
  | apply k => exact execApply_safe k s
  | deliver k => exact execDeliver_safe k s
  | copyEngineStart c => exact execCopyEngineStart_safe c s
  | streamElementPush c k => exact execStreamElementPush_safe c k s
  | gatherRowDeliver c id pos => exact execGatherRowDeliver_safe c id pos s
  | copyComplete c id => exact execCopyComplete_safe c id s
  | matrixCmdStart c => exact execMatrixCmdStart_safe c s
  | matrixOpComplete c => exact execMatrixOpComplete_safe c s
  | ostreamElementWrite c k => exact execOstreamElementWrite_safe c k s
  | lamplighterApply u => exact execLamplighterApply_safe u s
  | aeRunStart u => exact execAeRunStart_safe u s
  | aeRunComplete u => exact execAeRunComplete_safe u s
  | combineFlushTimeout c => exact execCombineFlushTimeout_safe c s
  | remoteAck c => exact execRemoteAck_safe c s
  | ratomReply c => exact execRatomReply_safe c s
  | remoteRequestArrive k peer => exact execRemoteRequestArrive_safe k peer s
  | flitReceive lk crcOk => exact execFlitReceive_safe lk crcOk s
  | nakReceive lk => exact execNakReceive_safe lk s
  | requestGiveUp c => exact execRequestGiveUp_safe c s
  | liveLineEvict row => exact execLiveLineEvict_safe row s
  | fillStallResume d => exact execFillStallResume_safe d s
  | countedFullTimeout d => exact execCountedFullTimeout_safe d s
  | parityRepair c b q file index captureOk => exact execParityRepair_safe c b q file index captureOk s
  | dispatch d => exact execDispatch_safe d s
  | bankActivate c => exact execBankActivate_safe c s
  | killComplete c b => exact execKillComplete_safe c b s
  | preemptCheckpoint c b => exact execPreemptCheckpoint_safe c b s
  | saveCommit c b => exact execSaveCommit_safe c b s
  | restore c b => exact execRestore_safe c b s
  | workSteal d => exact execWorkSteal_safe d s
  | streamTlbPrefetch c out va => exact execStreamTlbPrefetch_safe c out va s
  | selftestComplete u pass => exact execSelftestComplete_safe u pass s
  | engineWindowReplay c eng id second => exact execEngineWindowReplay_safe c eng id second s
  | scrubAtom addr uncorrectable => exact execScrubAtom_safe addr uncorrectable s
  | scanStart d => exact execScanStart_safe d s
  | eventWrite => exact execEventWrite_safe s
  | shootdown => exact execShootdown_safe s
  | pagerelease => exact execPagerelease_safe s

/-! ## Turns and steps -/

/-- A sequencer's turn of the agenda: nothing, a slot, a hold or trap, or the instruction. -/
theorem solo_safe (s : State) (c : CoreId) (b : BankId) (q : SeqId) : Safe (s.solo c b q) := by
  unfold State.solo
  refine safe_ite (safe_next _) ?_
  split
  · exact safe_next _
  · exact safe_next _
  · exact safe_next _
  · exact exec_safe _ _

@[simp] theorem popTurn_off (s : State) : s.popTurn.2.off = s.off := by
  unfold State.popTurn
  split <;> rfl

/-- An answer that faults under a condition which only an OFF module meets (R399). -/
theorem safe_or_off {off : Bool} {c : Prop} [Decidable c] {o : Out} (hc : c → off = true) (ho : Safe o) :
    Safe (if c then .fault .moduleOff else o) ∨ ((if c then .fault .moduleOff else o) = .fault .moduleOff ∧ off = true) := by
  by_cases h : c
  · exact .inr ⟨if_pos h, hc h⟩
  · rw [if_neg h]
    exact .inl ho

theorem step_safe_or_off (s : State) : Safe (step s) ∨ (step s = .fault .moduleOff ∧ s.off = true) := by
  rw [← popTurn_off s]
  unfold step
  obtain ⟨turn, t⟩ := s.popTurn
  cases turn with
  | tick => exact safe_or_off id (safe_next _)
  | hostStore h pa bs => exact safe_or_off id (safe_next _)
  | hostRead o => exact safe_or_off id (safe_next _)
  | act i =>
    refine safe_or_off (fun h => ?_) (safe_ite (exec_safe i t) (safe_next t))
    rw [Bool.and_eq_true] at h
    exact h.1
  | seq c b q => exact safe_or_off id (safe_ite (safe_next _) (solo_safe t c b q))

/-- Settles O44: `exec` by the constructors of the instruction, a step by its turn. -/
theorem everyTurnAnswers : Obligations.EveryTurnAnswers := by
  unfold Obligations.EveryTurnAnswers
  exact ⟨exec_safe, step_safe_or_off⟩

end Sys2Proof.Machine
end

section
/-! PROOFS. The conversions of the vector sequencer enter its pipeline (R41, R170-R172). -/
namespace Sys2Proof.Machine

/-! ## The draws and the conversions at issue -/

/-- An update of a bank depends only on what it makes of that bank as it stands. -/
theorem State.modBank_congr {s : State} {w : Who} {f g : Bank → Bank} (h : f (s.bank w) = g (s.bank w)) :
    s.modBank w f = s.modBank w g :=
  congrArg (fun k : Bank => s.modCore w.c fun c => { c with banks := vset c.banks w.b k }) h

/-- The state after an instruction has taken its draws at issue, `n` of them by its bank, when its rounding `rs` asks for them
(R41, R326). -/
def State.drawn (s : State) (rs : Prop) [Decidable rs] (n : Bank → Nat) : State :=
  if rs then s.modBank s.cur fun k => { k with rsseed := seedAfter k.rsseed (n k) } else s

theorem runs_takeDraws (rs : Prop) [Decidable rs] (n : Bank → Nat) (s : State) :
    Runs (takeDraws (decide rs) (n (s.bank s.cur))) s (if rs then (s.bank s.cur).rsseed else 0) (s.drawn rs n) := by
  unfold takeDraws State.drawn
  refine runs_bind (runs_get s) ?_
  by_cases h : rs
  · simp only [h, decide_true, if_true]
    rw [State.modBank_congr (g := fun k => { k with rsseed := seedAfter k.rsseed (n (s.bank s.cur)) }) rfl]
    exact runs_bind (runs_set _ _) (runs_pure _ _)
  · simp only [h, decide_false, Bool.false_eq_true, if_false]
    exact runs_pure _ _

theorem runs_quantLimits {f : FV} {quant : Bool} {s : State}
    (h : quantOk (s.fmtSlot s.cur (cvtFmt (cvtWord f))) (cvtWord f) f quant = true) : Runs (quantLimits f quant) s () s :=
  runs_bind (runs_get s) (runs_need h)

/-- A conversion under a format slot captures the slot and the tiles it reads, a pair of source tiles under ST32, and is exposed for
the registers it writes; its draws, one an element, advance `rsseed` at issue (R41, R170-R172). -/
theorem runs_vecConvert {i : Instr} {f : FV} {quant : Bool} {s : State}
    (h : quantOk (s.fmtSlot s.cur (cvtFmt (cvtWord f))) (cvtWord f) f quant = true) :
    let w := cvtWord f
    let slot := s.fmtSlot s.cur (cvtFmt w)
    let sch := slotSch slot (cvtSide w)
    let k := s.bank s.cur
    let hi := if sch = 2 then [k.capTile (f.a + 1)] else []
    Runs (vecConvert i f quant) s .next ((s.drawn (cvtRound w = 3) fun _ => if sch = 2 then 2048 else 1024).exposed
      { i := i, due := if sch = 2 then 8 else 6
        caps := if quant then k.capTile f.a :: hi else k.capTile f.a :: k.capTile f.b :: hi
        slotv := slot, rss := if cvtRound w = 3 then k.rsseed else 0 }
      ((2, f.d.toNat) :: (if sch = 2 then [(2, f.d.toNat + 1)] else []) ++
        (if quant && sch != 0 then [(2, f.b.toNat)] else []))) :=
  runs_bind (runs_get s) (runs_bind (runs_need h)
    (runs_bind (runs_takeDraws (cvtRound (cvtWord f) = 3) (fun _ => _) s) (runs_bind (runs_addX _ _ _) (runs_pure _ _))))

/-- A conversion between FP32 and integers captures its source and its predicate; under `.rs` it takes one draw for each lane that
the predicate admits (R41, R170). -/
theorem runs_vecRound (i : Instr) (f : FV) (s : State) :
    let k := s.bank s.cur
    let rs := cvtRound (cvtWord f) = 3
    Runs (vecRound i f) s .next ((s.drawn rs fun k => onesBelow (k.maskReg f.m) 1024).exposed
      { i := i, due := 4, caps := [k.capTile f.a], pm := k.capPred f.m, rss := if rs then k.rsseed else 0 } [(2, f.d.toNat)]) :=
  runs_bind (runs_get s)
    (runs_bind (runs_takeDraws (cvtRound (cvtWord f) = 3) (fun k => onesBelow (k.maskReg f.m) 1024) s)
      (runs_bind (runs_addX _ _ _) (runs_pure _ _)))

/-! ## The statement -/

/-- A conversion between FP32 and the codes of a format, in either direction, completes under a slot that allows it. -/
theorem exec_convert_done (quant : Bool) (f : FV) {s u t : State} :
    let i : Instr := if quant then .vquant f else .vdequant f
    Enters i s = true → quantOk (s.fmtSlot s.cur (cvtFmt (cvtWord f))) (cvtWord f) f quant = true →
    Runs (vecConvert i f quant) s .next u → Follows i .next u t → exec i s = .next (t.done .next) := by
  intro i he hok hb hf
  cases quant with
  | true => exact issueLim_done he (runs_quantLimits hok) hb hf
  | false => exact issueLim_done he (runs_quantLimits hok) hb hf

/-- A conversion between FP32 and integers, in either direction, completes. -/
theorem exec_round_done (toInt : Bool) (f : FV) {s u t : State} :
    let i : Instr := if toInt then .vftoi f else .vitof f
    Enters i s = true → Runs (vecRound i f) s .next u → Follows i .next u t → exec i s = .next (t.done .next) := by
  intro i he hb hf
  cases toInt with
  | true => exact issue_done he hb hf
  | false => exact issue_done he hb hf

/-- Settles O17: the conversions by format slot and those with integers, each by what its body leaves exposed. -/
theorem conversionsComplete : Obligations.ConversionsComplete := by
  unfold Obligations.ConversionsComplete
  constructor
  · intro quant f s t i w slot sch k he hok u hi hf
    exact exec_convert_done quant f he hok (runs_vecConvert hok) hf
  · intro toInt f s t i k rs he u hf
    exact exec_round_done toInt f he (runs_vecRound i f s) hf

end Sys2Proof.Machine
end

section
/-! PROOFS. Rules that the proofs of this part share: operations that stop the turn, results of scalar instructions, updates that change
nothing. -/
namespace Sys2Proof.Machine

/-! ## Operations that stop -/

/-- An operation stops the turn: it is held or trapped. -/
def Stops {α : Type} (a : Act α) (s : State) (x : Stop) : Prop := StateT.run a s = .error x

theorem stops_throw {α : Type} (x : Stop) (s : State) : Stops (throw x : Act α) s x := rfl

/-- A sequence stops when its first part does. -/
theorem stops_bind {α β : Type} {a : Act α} {f : α → Act β} {s : State} {x : Stop} (h : Stops a s x) : Stops (a >>= f) s x := by
  unfold Stops at *
  simp only [StateT.run_bind, h]
  rfl

/-- It stops when its second part does, after the first has answered. -/
theorem stops_bind_of_runs {α β : Type} {a : Act α} {f : α → Act β} {s t : State} {v : α} {x : Stop} (ha : Runs a s v t)
    (h : Stops (f v) t x) : Stops (a >>= f) s x := by
  unfold Stops Runs at *
  simp only [StateT.run_bind, ha]
  exact h

theorem stops_need {b : Bool} {c : Byte} {s : State} (h : b = false) : Stops (need b c) s (.trap { cause := c }) := by
  subst h; rfl

theorem enters_wf {i : Instr} {s : State} (h : Enters i s = true) : i.wf = true := by
  unfold Enters at h
  simp only [Bool.and_eq_true] at h
  obtain ⟨⟨⟨hw, -⟩, -⟩, -⟩ := h
  exact hw

/-- No back-edge of an instruction that enters waits for its counter (R98). -/
theorem enters_interlock {i : Instr} {s : State} (h : Enters i s = true) :
    (s.cur.q != 2 && frameInterlock (s.sq s.cur)) = false := by
  unfold Enters at h
  simp only [Bool.and_eq_true, Bool.or_eq_true, Bool.not_eq_true', beq_iff_eq] at h
  rcases h.2 with hq | hf
  · simp [hq]
  · simp [hf]

theorem outcome_stops {a : Act Unit} {s : State} {x : Stop} (h : Stops a s x) : outcome s (StateT.run a s) = .next (s.stopped x) := by
  unfold Stops at h
  rw [h]
  rfl

/-- An instruction that enters and whose effect stops leaves the state as it stops there. -/
theorem issueLim_stops {i : Instr} {s : State} {lim : Act Unit} {body : Act Flow} {x : Stop} (he : Enters i s = true)
    (hl : Runs lim s () s) (hb : Stops body s x) : issueLim i s lim body = .next (s.stopped x) := by
  refine outcome_stops (stops_bind_of_runs (runs_need (enters_wf he)) (stops_bind_of_runs hl
    (stops_bind_of_runs (enters_checks he) (stops_bind_of_runs (runs_get s) ?_))))
  simp only [enters_interlock he]
  exact stops_bind hb

theorem issue_stops {i : Instr} {s : State} {body : Act Flow} {x : Stop} (he : Enters i s = true) (hb : Stops body s x) :
    issue i s body = .next (s.stopped x) :=
  issueLim_stops he (runs_pure _ _) hb

/-! ## Scalar results -/

/-- An instruction whose body ends with a scalar result leaves it, on X and elsewhere. -/
theorem leavesScalar_issueLim {i : Instr} {s s1 : State} {lim : Act Unit} {body : Act Flow} {d : BitVec 6} {lat : Nat} {x y z : W64}
    (he : Enters i s = true) (hl : Runs lim s () s)
    (hb : ∀ u, Runs (scalarResult i d lat x y z) s1 .next u → Runs body s .next u) :
    LeavesScalar i (issueLim i s lim body) s1 d lat x y z :=
  ⟨fun hq _ _ _ hd hf => issueLim_done he hl (hb _ (runs_scalarResult hq hd)) hf,
   fun hq _ _ _ hr hf => issueLim_done he hl (hb _ (runs_scalarResult_x hq hr)) hf⟩

theorem leavesScalar_issue {i : Instr} {s s1 : State} {body : Act Flow} {d : BitVec 6} {lat : Nat} {x y z : W64}
    (he : Enters i s = true) (hb : ∀ u, Runs (scalarResult i d lat x y z) s1 .next u → Runs body s .next u) :
    LeavesScalar i (issue i s body) s1 d lat x y z :=
  leavesScalar_issueLim he (runs_pure _ _) hb

theorem runs_needQuiet {s : State} (h : s.quietSeq s.cur = true) : Runs needQuiet s () s := by
  unfold needQuiet
  refine runs_bind (runs_get s) ?_
  rw [h]
  exact runs_pure _ _

/-! ## What is kept -/

/-- An update that leaves its core as it was leaves the state as it was. -/
theorem State.modCore_id {s : State} {c : CoreId} {f : Core → Core} (h : f (s.core c) = s.core c) : s.modCore c f = s :=
  congrArg (fun v : Vector Core 512 => { s with cores := v }) ((congrArg (vset s.cores c) h).trans (vset_get_id s.cores c))

/-- So does an update that leaves its bank as it was. -/
theorem State.modBank_id {s : State} {w : Who} {f : Bank → Bank} (h : f (s.bank w) = s.bank w) : s.modBank w f = s :=
  State.modCore_id (congrArg (fun v : Vector Bank 2 => { s.core w.c with banks := v })
    ((congrArg (vset (s.core w.c).banks w.b) h).trans (vset_get_id (s.core w.c).banks w.b)))

theorem ReadFrame.phase {s t : State} (h : ReadFrame s t) : t.phase = s.phase := by
  obtain ⟨_, _, _, _, _, _, -, -, -, rfl⟩ := h
  rfl

end Sys2Proof.Machine
end

section
/-! PROOFS. Scalar registers and C's floating-point instructions (R54, R88, R110). -/
namespace Sys2Proof.Machine

/-! ## Floating results -/

/-- The rounding draw of `ftoi` and `itof`, and the seed that it leaves (R41). -/
def roundDraw (f : RRR) (k : Bank) : W64 × Nat := if f.b == 3 then draw k.rsseed else (k.rsseed, 0)

theorem runs_fpResult {d : BitVec 6} {lat : Nat} {r : W64 × Flags} {s s2 : State} {t : Dst}
    (hd : Runs (destOf d) (s.modBank s.cur fun k => { k with cfs := k.cfs ||| r.2 }) t s2) :
    Runs (fpResult d lat r) s .next (s2.pended t r.1 lat) :=
  runs_bind (runs_modify _ _) (runs_bind hd (runs_bind (runs_pendWrite _ _ _ _) (runs_pure _ _)))

theorem runs_fpRRR {f : RRR} {lat : Nat} {op : W32 → W32 → W64 × Flags} {s s1 s2 : State} {x y : W64} {d : Dst}
    (hs : Runs (sourcesAB f) s (x, y) s1)
    (hd : Runs (destOf f.d) (s1.modBank s1.cur fun k => { k with cfs := k.cfs ||| (op (lo32 x) (lo32 y)).2 }) d s2) :
    Runs (fpRRR f lat op) s .next (s2.pended d (op (lo32 x) (lo32 y)).1 lat) :=
  runs_bind hs (runs_fpResult hd)

/-- A floating instruction of two sources is its function of their low words. -/
theorem exec_shapeFp {i : Instr} {f : RRR} {lat : Nat} {op : W32 → W32 → W64 × Flags} (h : shapeFp i = some (f, lat, op))
    (s : State) : exec i s = issue i s (fpRRR f lat op) := by
  unfold shapeFp at h
  split at h <;> cases h <;> rfl

theorem exec_fp_done {i : Instr} {f : RRR} {lat : Nat} {op : W32 → W32 → W64 × Flags} {s s1 s2 t : State} {x y : W64} {d : Dst}
    (hi : shapeFp i = some (f, lat, op)) (he : Enters i s = true) (hs : Runs (sourcesAB f) s (x, y) s1)
    (hd : Runs (destOf f.d) (s1.modBank s1.cur fun k => { k with cfs := k.cfs ||| (op (lo32 x) (lo32 y)).2 }) d s2)
    (hf : Follows i .next (s2.pended d (op (lo32 x) (lo32 y)).1 lat) t) : exec i s = .next (t.done .next) := by
  rw [exec_shapeFp hi]
  exact issue_done he (runs_fpRRR hs hd) hf

/-- `fmad` reads a, b or the wide immediate, and then d. -/
def fmadSources (f : RRR) : Act (W64 × W64 × W64) :=
  match wideImm f.e [f.a, f.b, f.d] with
  | some y => do
    let vs ← sources f.e [f.a, f.d] [f.d]
    pure (nthV vs 0, y, nthV vs 1)
  | none => do
    let vs ← sources f.e [f.a, f.b, f.d] [f.d]
    pure (nthV vs 0, nthV vs 1, nthV vs 2)

theorem runs_fmadSources {f : RRR} {s s1 : State} {x y z : W64}
    (hn : wideImm f.e [f.a, f.b, f.d] = none → Runs (sources f.e [f.a, f.b, f.d] [f.d]) s [x, y, z] s1)
    (hw : ∀ e, wideImm f.e [f.a, f.b, f.d] = some e → e = y ∧ Runs (sources f.e [f.a, f.d] [f.d]) s [x, z] s1) :
    Runs (fmadSources f) s (x, y, z) s1 := by
  unfold fmadSources
  cases h : wideImm f.e [f.a, f.b, f.d] with
  | none => exact runs_bind (hn h) (runs_pure _ _)
  | some e =>
    obtain ⟨rfl, hs⟩ := hw e h
    exact runs_bind hs (runs_pure _ _)

theorem exec_fmad_done {f : RRR} {s s1 s2 t : State} {x y z : W64} {d : Dst} (he : Enters (.fmad f) s = true)
    (hs : Runs (fmadSources f) s (x, y, z) s1)
    (hd : Runs (destOf f.d) (s1.modBank s1.cur fun k => { k with cfs := k.cfs ||| (ffma32 (lo32 x) (lo32 y) (lo32 z)).2 }) d s2)
    (hf : Follows (.fmad f) .next (s2.pended d ((ffma32 (lo32 x) (lo32 y) (lo32 z)).1.setWidth 64) 5) t) :
    exec (.fmad f) s = .next (t.done .next) :=
  issue_done he (runs_bind hs (runs_fpResult (r := fpWord (ffma32 (lo32 x) (lo32 y) (lo32 z))) hd)) hf

/-- A rounded conversion takes its draw, which advances `rsseed`, and leaves its result (R41, R110). -/
theorem runs_fpRound {f : RRR} {op : W64 → RMode → Nat → W64 × Flags} {s s1 s2 : State} {x : W64} {d : Dst}
    (hs : Runs (sources f.e [f.a] [f.d]) s [x] s1) :
    let r := roundDraw f (s1.bank s1.cur)
    let v := op x (RMode.ofCode f.b.toNat) r.2
    Runs (destOf f.d) ((s1.modBank s1.cur fun k => { k with rsseed := r.1 }).modBank s1.cur fun k => { k with cfs := k.cfs ||| v.2 })
      d s2 →
    Runs (fpRound f op) s .next (s2.pended d v.1 3) := fun hd =>
  runs_bind hs (runs_bind (runs_get _) (runs_bind (runs_set _ _) (runs_fpResult hd)))

/-- Under a mode other than `.rs` a rounded conversion takes no draw, and `rsseed` stays. -/
theorem runs_fpRound_noDraw {f : RRR} {op : W64 → RMode → Nat → W64 × Flags} {s s1 s2 : State} {x : W64} {d : Dst}
    (hb : f.b ≠ 3) (hs : Runs (sources f.e [f.a] [f.d]) s [x] s1) :
    let v := op x (RMode.ofCode f.b.toNat) 0
    Runs (destOf f.d) (s1.modBank s1.cur fun k => { k with cfs := k.cfs ||| v.2 }) d s2 →
    Runs (fpRound f op) s .next (s2.pended d v.1 3) := by
  intro v hd
  have hr : roundDraw f (s1.bank s1.cur) = ((s1.bank s1.cur).rsseed, 0) := if_neg (by simpa using hb)
  have hid : (s1.modBank s1.cur fun k => { k with rsseed := (s1.bank s1.cur).rsseed }) = s1 := State.modBank_id rfl
  have h := runs_fpRound (op := op) (s2 := s2) (d := d) hs
  rw [hr] at h
  dsimp only at h
  rw [hid] at h
  exact h hd

/-- Settles O2: each floating instruction by what its body leaves pending. -/
theorem floatingComplete : Obligations.FloatingComplete := by
  unfold Obligations.FloatingComplete
  refine ⟨?_, ?_, ?_, ?_⟩
  · intro i f lat op s x y s1 d s2 t hi he hs hd hf
    exact exec_fp_done hi he hs hd hf
  · intro f s x y z s1 d s2 t he hn hw hd hf
    exact exec_fmad_done he (runs_fmadSources hn hw) hd hf
  · intro f s x s1 d s2 t he hs r v hd hf
    exact issue_done he (runs_fpRound hs hd) hf
  · intro f s x s1 d s2 t he hs r v hd hf
    exact issue_done he (runs_fpRound hs hd) hf

/-! ## Scalar registers -/

theorem lo32_congr {x y : W64} (h : ∀ n, n < 32 → x.getLsbD n = y.getLsbD n) : lo32 x = lo32 y := by
  apply BitVec.eq_of_getLsbD_eq
  intro n hn
  simp [lo32, hn, h n hn]

theorem runs_destOf_zero {f : BitVec 6} (h : f.toNat = 0) (s : State) : Runs (destOf f) s .drop s := by
  unfold destOf
  rw [if_pos (by omega), if_pos h]
  exact runs_pure _ _

theorem runs_readField_scalar (win : W64) {f : BitVec 6} (h : f.toNat < 32) (s : State) :
    Runs (readField win f) s (if f.toNat = 0 then 0 else (s.sq s.cur).s.get (fS f)) s := by
  have hq : fQueue f = false := by simp [fQueue]; omega
  have hv : s.fieldValue win f = if f.toNat = 0 then 0 else (s.sq s.cur).s.get (fS f) := by
    unfold State.fieldValue
    simp only [h, if_true]
  unfold readField
  rw [hq, ← hv]
  exact runs_bind (runs_get s) (runs_pure _ _)

theorem landDst_zero_sq (s : State) (w : Who) (v : W64) : (s.landDst w (.s 0) v).sq w = s.sq w := by
  unfold State.landDst
  simp

/-- A landing write of a scalar register other than s0 (R54). -/
theorem landDst_s (s : State) (w : Who) {n : Fin 32} (h : n ≠ 0) (v : W64) :
    s.landDst w (.s n) v = s.modSeq w fun q => { q with s := vset q.s n v } := by
  unfold State.landDst
  simp only [h, if_false]

theorem fpWord_lt (r : W32 × Flags) : (fpWord r).1.toNat < 2 ^ 32 := by
  have := r.1.isLt
  simp only [fpWord, BitVec.toNat_setWidth]
  omega

theorem ofBool_lt (b : Bool) : (ofBool b).toNat < 2 ^ 32 := by
  cases b <;> decide

/-- The result of a floating instruction of two sources fits the low word: it is an FP32 word or a truth value (R54, R110). -/
theorem shapeFp_lt {i : Instr} {f : RRR} {lat : Nat} {op : W32 → W32 → W64 × Flags} (h : shapeFp i = some (f, lat, op))
    (x y : W32) : (op x y).1.toNat < 2 ^ 32 := by
  unfold shapeFp at h
  split at h
  case h_6 => cases h; exact ofBool_lt _
  case h_7 => cases h
  all_goals cases h; exact fpWord_lt _

/-- Settles O50: registers by what a landing write updates, floating instructions by the low words that they take and leave. -/
theorem scalarRegisters : Obligations.ScalarRegisters := by
  unfold Obligations.ScalarRegisters
  refine ⟨fun s w v => ⟨rfl, landDst_zero_sq s w v⟩, fun f s h => runs_destOf_zero h s,
    fun win s => runs_readField_scalar win (f := 0) (by decide) s, ?_, ?_, ?_, ?_, ?_, fun i f lat op x y hi => shapeFp_lt hi x y,
    fun x m rho => fpWord_lt _⟩
  · intro win f s h0 h1
    have := runs_readField_scalar win h1 s
    rwa [if_neg (by omega)] at this
  · intro s w n v hn t
    have ht : t = _ := landDst_s s w hn v
    refine ⟨by simp [ht], fun m hm => ?_, fun x hx => ?_⟩
    · rw [ht, State.modSeq_sq_self]
      exact vset_get_ne _ _ (Ne.symm hm)
    · rw [ht, State.modSeq_sq, if_neg]
      rintro ⟨hc, hb, hq⟩
      exact hx (by rw [hc, hb, hq])
  · intro i f lat op s x y x' y' s1 d s2 t hi he hs hx hy hd hf
    rw [← lo32_congr hx, ← lo32_congr hy] at hd hf
    exact exec_fp_done hi he hs hd hf
  · intro f s x y z x' y' z' s1 d s2 t he hw hs hx hy hz r hd hf
    simp only [r, ← lo32_congr hx, ← lo32_congr hy, ← lo32_congr hz] at hd hf
    exact exec_fmad_done he (runs_fmadSources (fun _ => hs) (fun e h => by rw [hw] at h; cases h)) hd hf
  · intro f s x x' s1 d s2 t he hb hs hx v hd hf
    rw [show v = _ from congrArg (fun y => ftoi32 y _ 0) (lo32_congr hx).symm] at hd hf
    exact issue_done he (runs_fpRound_noDraw hb hs hd) hf

end Sys2Proof.Machine
end

section
/-! PROOFS. Reads and writes of system registers (R74-R76, R133, R331, R349). -/
namespace Sys2Proof.Machine

/-! ## Access -/

/-- The checks before a register access establish that its number is assigned (R75). -/
theorem csrAssigned_of_checks {n : Nat} {wr : Bool} {s t : State} (h : Runs (csrChecks n wr) s () t) : csrAssigned n = true := by
  unfold csrChecks need at h
  by_contra hn
  rw [if_neg hn] at h
  exact runs_throw_bind h

theorem runs_csrChecks_read {n : Nat} (h : csrAssigned n = true) (s : State) : Runs (csrChecks n false) s () s :=
  runs_bind (runs_need h) (runs_bind (runs_get s) (runs_need rfl))

theorem runs_csrLimits_read {f : RI} (h : csrAssigned (csrNum f) = true) (s : State) : Runs (csrLimits f false) s () s :=
  runs_bind (runs_need h) (runs_pure _ _)

theorem runs_csrLimits_write {f : RI} {s s1 : State} {v : W64} (h : csrAssigned (csrNum f) = true)
    (hs : Runs (sources none [f.d] []) s [v] s1) (hv : csrLimit (csrNum f) v = true) : Runs (csrLimits f true) s () s :=
  runs_bind (runs_need h) (runs_limits hs hv)

/-- A write of a register within its limits is left to land at the end of the cycle (R75, R133). -/
theorem runs_csrWrite {f : RI} {s s1 : State} {v : W64} (hc : Runs (csrChecks (csrNum f) true) s () s)
    (hs : Runs (sources none [f.d] []) s [v] s1) (hv : csrLimit (csrNum f) v = true) :
    Runs (csrWrite f) s .next (s1.modBank s1.cur fun k => { k with csrPend := k.csrPend ++ [(s1.cur.q, csrNum f, v)] }) :=
  runs_bind hc (runs_bind hs (runs_bind (runs_need hv) (runs_bind (runs_modify _ _) (runs_pure _ _))))

theorem exec_csrw {i : Instr} {f : RI} (hi : i = .csrw f ∨ i = .cwinWrite f ∨ i = .wsrangeWrite f ∨ i = .wpcWrite f)
    (s : State) : exec i s = issueLim i s (csrLimits f true) (csrWrite f) := by
  rcases hi with rfl | rfl | rfl | rfl <;> rfl

/-! ## Landing -/

/-- The one write of a cycle lands, of whichever sequencer it is (R75). -/
theorem csrCommit_one {k : Bank} {q : SeqId} {n : Nat} {v : W64} (h : k.csrPend = [(q, n, v)]) :
    k.csrCommit = { k.csrLand q n v with csrPend := [] } := by
  have hw : ((List.finRange 4).flatMap fun p => [(q, n, v)].filter (·.1 == p)) = [(q, n, v)] := by
    fin_cases q <;> rfl
  unfold Bank.csrCommit
  rw [h, if_neg (List.cons_ne_nil _ _)]
  simp only [hw, List.foldl_cons, List.foldl_nil]

/-- Two writes of different sequencers in their order. -/
theorem inOrder_two {α : Type} {p q : SeqId} (h : p < q) (x y : α) :
    ((List.finRange 4).flatMap fun r => [(p, x), (q, y)].filter (·.1 == r)) = [(p, x), (q, y)] := by
  fin_cases p <;> fin_cases q <;> simp at h <;> rfl

/-- The writes of one sequencer, of two of different ones. -/
theorem filter_of_perm_two {α : Type} {p q : SeqId} (hne : p ≠ q) {x y : α} {l : List (SeqId × α)} (h : l.Perm [(p, x), (q, y)])
    (r : SeqId) : l.filter (·.1 == r) = [(p, x), (q, y)].filter (·.1 == r) := by
  have hf := h.filter (·.1 == r)
  by_cases hp : p = r
  · have hq : (q == r) = false := beq_false_of_ne fun hq => hne (hp.trans hq.symm)
    simp only [List.filter_cons, hp, hq, beq_self_eq_true, if_true, List.filter_nil, Bool.false_eq_true, if_false] at hf ⊢
    exact List.perm_singleton.1 hf
  · have hp : (p == r) = false := beq_false_of_ne hp
    by_cases hq : q = r
    · simp only [List.filter_cons, hp, hq, beq_self_eq_true, if_true, List.filter_nil, Bool.false_eq_true, if_false] at hf ⊢
      exact List.perm_singleton.1 hf
    · have hq : (q == r) = false := beq_false_of_ne hq
      simp only [List.filter_cons, hp, hq, List.filter_nil, Bool.false_eq_true, if_false] at hf ⊢
      exact List.perm_nil.1 hf

/-- Two writes of different sequencers land in the order of these, however they stand in the list (R75). -/
theorem csrCommit_two {k : Bank} {p q : SeqId} {m n : Nat} {v w : W64} (hpq : p < q) (h : k.csrPend.Perm [(p, m, v), (q, n, w)]) :
    k.csrCommit = { (k.csrLand p m v).csrLand q n w with csrPend := [] } := by
  have hw : ((List.finRange 4).flatMap fun r => k.csrPend.filter (·.1 == r)) = [(p, m, v), (q, n, w)] := by
    rw [← inOrder_two hpq (m, v) (n, w)]
    exact List.flatMap_congr fun r _ => filter_of_perm_two (ne_of_lt hpq) h r
  have hne : k.csrPend ≠ [] := fun h0 => by rw [h0] at h; exact absurd h.length_eq (by simp)
  unfold Bank.csrCommit
  rw [if_neg hne]
  simp only [hw, List.foldl_cons, List.foldl_nil]

/-- A write of `cwinN` lands in its register, and the constant cache drops the window (R73, R74). -/
theorem csrLand_cwin (k : Bank) (q : SeqId) {n : Nat} (v : W64) (hn : 8 ≤ n ∧ n ≤ 15) :
    (k.csrLand q n v).cwin = vset k.cwin ⟨n - 8, by omega⟩ (v &&& 0x01FFFFFFFFFFFFF8) ∧
      (k.csrLand q n v).ccache = k.ccache.filter fun x => x.win != n - 8 := by
  have hc : (decide (8 ≤ n) && decide (n ≤ 0xF)) = true := by simp [hn]
  have hm : (n - 8) % 8 = n - 8 := by omega
  unfold Bank.csrLand
  simp only [hc, if_true, hm, keep, and_self]

theorem csrLand_wsrange (k : Bank) (q : SeqId) (v : W64) : (k.csrLand q 0x104 v).wsrange = v &&& 0x07FF07FF := rfl

theorem csrLand_wpc (k : Bank) (q : SeqId) {n : Nat} (v : W64) (hn : 0x304 ≤ n ∧ n ≤ 0x307) :
    (k.csrLand q n v).wpc = vset k.wpc ⟨n - 0x304, by omega⟩ (v &&& 0x7E3) := by
  have h1 : ¬(8 ≤ n && n ≤ 0xF) = true := by simp; omega
  have h2 : n ≠ 0x104 := by omega
  have hc : (decide (0x304 ≤ n) && decide (n ≤ 0x307)) = true := by simp [hn]
  have hm : (n - 0x304) % 4 = n - 0x304 := by omega
  unfold Bank.csrLand
  rw [if_neg h1, if_neg h2, if_pos hc]
  simp only [hm, keep]

/-- The other registers take their writes as `csrw`'s row says. -/
theorem csrLand_other (k : Bank) (q : SeqId) {n : Nat} (v : W64)
    (hn : n < 8 ∨ 15 < n ∧ n < 0x104 ∨ 0x104 < n ∧ n < 0x304 ∨ 0x307 < n) : k.csrLand q n v = k.csrSet n v := by
  have h1 : ¬(8 ≤ n && n ≤ 0xF) = true := by simp; omega
  have h2 : n ≠ 0x104 := by omega
  have h3 : ¬(0x304 ≤ n && n ≤ 0x307) = true := by simp; omega
  unfold Bank.csrLand
  rw [if_neg h1, if_neg h2, if_neg h3]

/-! ## `pfblock` -/

theorem runs_eventRoom {s : State} (h : s.evWaiting < 4096) : Runs eventRoom s () s := by
  unfold eventRoom
  refine runs_bind (runs_get s) ?_
  rw [if_neg (by omega)]
  exact runs_pure _ _

theorem exec_pfblock_done {f : RI} {s s1 t : State} {v tok addr : W64} {kind : Nat} (he : Enters (.pfblockWrite f) s = true)
    (hc : Runs (csrChecks 0x202 true) s () s) (hr : s.evWaiting < 4096) (hs : Runs (sources none [f.d] []) s [v] s1)
    (hf : (s1.bank s1.cur).fault = some (tok, addr, kind)) (ht : tokEq tok v = true) (hp : fld (s1.bank s1.cur).pfinfo 8 7 = 0) :
    let k := s1.bank s1.cur
    let u := (s1.event 0x0003 [tok, addr, k.pfinfo, k.corr.setWidth 64]).modBank s1.cur fun k => { k with blocked := true }
    Follows (.pfblockWrite f) .next
      (u.modCore s1.cur.c fun c =>
        { c with active := if c.active = some s1.cur.b then none else c.active, activeFrom := s1.now + 1 }) t →
    exec (.pfblockWrite f) s = .next (t.done .next) := by
  intro k u hfo
  refine issue_done he (runs_bind hc (runs_bind (runs_eventRoom hr) (runs_bind hs (runs_bind (runs_get s1) ?_)))) hfo
  simp only [hf]
  refine runs_bind (runs_need ?_) (runs_bind (runs_set _ _) (runs_pure _ _))
  simp [nthV, ht, hp]

/-! ## The statement -/

/-- Settles O12: each access by what its body does, and a cycle's end by what each register takes. -/
theorem systemRegistersComplete : Obligations.SystemRegistersComplete := by
  unfold Obligations.SystemRegistersComplete
  refine ⟨?_, ?_, ?_, fun k q n v => csrCommit_one, fun k p q m n v w => csrCommit_two, fun k q n v => csrLand_cwin k q v,
    csrLand_wsrange, fun k q n v => csrLand_wpc k q v, fun k q n v => csrLand_other k q v,
    fun f s v s1 t tok addr kind => exec_pfblock_done⟩
  · intro f s he ha hd
    exact leavesScalar_issueLim he (runs_csrLimits_read ha s) fun u hu =>
      runs_bind (runs_csrChecks_read ha s) (runs_bind hd (runs_bind (runs_get s) (runs_bind (runs_set _ _) hu)))
  · intro f s he hd n
    exact leavesScalar_issue he fun u hu => runs_bind hd (runs_bind (runs_get s) (runs_bind (runs_set _ _) hu))
  · intro i f s v s1 t hi he hc hs hv hf
    rw [exec_csrw hi]
    exact issueLim_done he (runs_csrLimits_write (csrAssigned_of_checks hc) hs hv) (runs_csrWrite hc hs hv) hf

end Sys2Proof.Machine
end

section
/-! PROOFS. Queues within a cycle, and the queue instructions (R62-R67, R75, R88, R128). -/
namespace Sys2Proof.Machine

/-! ## The entries of a queue -/

/-- An entry of this cycle is not yet visible. -/
theorem ready_append_now (q : Queue) {x : QSlot} {now p : Nat} (h : x.visible now = false) :
    ({ q with ents := q.ents ++ [x], pushed := p } : Queue).ready now = q.ready now := by
  unfold Queue.ready
  simp only [List.takeWhile_append, List.takeWhile_cons, h, Bool.false_eq_true, if_false, List.append_nil]
  split <;> simp_all

theorem pushWord_ready_now (q : Queue) (v : W64) (now : Nat) : (q.pushWord v now).ready now = q.ready now :=
  ready_append_now q (by simp [QSlot.visible])

theorem pushRow_ready_now (q : Queue) (r : Row) (now : Nat) : (q.pushRow r now).ready now = q.ready now :=
  ready_append_now q (by simp [QSlot.visible])

theorem pushWord_ready_later (q : Queue) (v : W64) {now t : Nat} (ht : now < t) (h : q.ready t = q.ents.length) :
    (q.pushWord v now).ready t = q.ents.length + 1 := by
  unfold Queue.ready at *
  simp only [Queue.pushWord, List.takeWhile_append, h, if_true, List.length_append]
  simp [QSlot.visible, ht]

theorem pushWord_drop_full (q : Queue) (v : W64) (now : Nat) (h : q.ents.length = queueCap) :
    ((q.drop 1).pushWord v now).full = true := by
  simp [Queue.full, Queue.pushWord, Queue.drop, h]

theorem drop_full (q : Queue) {n : Nat} (hn : 0 < n) (h : q.ents.length ≤ queueCap) (he : q.ents ≠ []) :
    (q.drop n).full = false := by
  have := List.length_pos_iff.2 he
  simp only [Queue.full, Queue.drop, List.length_drop, decide_eq_false_iff_not]
  omega

/-- A pop of a queue with no visible entry is held (R66). -/
theorem popWord_stops {s : State} {n : Fin 16} (h : (s.queue s.cur n).ready s.now = 0) :
    Stops (popWord n) s (.hold 2 n.val false) := by
  unfold popWord
  refine stops_bind_of_runs (runs_get s) ?_
  simp only [h, if_true]
  exact stops_bind (stops_throw _ s)

theorem popWord_runs {s : State} {n : Fin 16} (h : 0 < (s.queue s.cur n).ready s.now) :
    Runs (popWord n) s (headWord (s.queue s.cur n).ents) (s.modQ s.cur n (·.drop 1)) := by
  unfold popWord
  refine runs_bind (runs_get s) ?_
  simp only [Nat.ne_of_gt h, if_false]
  exact runs_bind (runs_set _ _) (runs_pure _ _)

/-- A reservation in a full queue is held (R88). -/
theorem reserve_stops {s : State} {n : Fin 16} (h : (s.queue s.cur n).full = true) :
    Stops (reserve n 1) s (.hold 3 n.val false) := by
  have hf : queueCap < (s.queue s.cur n).ents.length + 1 := Nat.lt_succ_of_le (of_decide_eq_true h)
  unfold reserve
  refine stops_bind_of_runs (runs_get s) ?_
  simp only [hf, if_true]
  exact stops_bind (stops_throw _ s)

/-- Settles O52: what a queue's entries are after a push or a pop, and when either is held. -/
theorem queueCycle : Obligations.QueueCycle := by
  unfold Obligations.QueueCycle
  exact ⟨pushWord_ready_now, pushRow_ready_now, fun q v _ _ => pushWord_ready_later q v, pushWord_drop_full,
    fun q _ => drop_full q, fun _ _ => popWord_stops, fun _ _ => popWord_runs, fun _ _ => reserve_stops⟩

/-! ## Pushes -/

/-- A push, as the queue has room or not: nothing reaches a full queue. -/
def State.pushed (s : State) (q : Fin 16) (x : W64) : State :=
  if (s.queue s.cur q).full then s else s.modQ s.cur q (·.pushWord x s.now)

/-- The answer of a push under NB: whether it found room. -/
def pushAnswer (f : FQ) (onX full : Bool) : Act Flow := do
  let v : W64 := if full then 0 else 1
  if onX then do
    let (rid, n, r) ← reserveX [f.b]
    addX { i := .qpush f, due := 1, sv2 := v, rid := rid, nres := n, q := r } (fieldFile f.b)
  else do
    let d ← destOf f.b
    pendWrite d v
  pure .next

theorem runs_pushAnswer {f : FQ} {full : Bool} {s s2 : State} {d : Dst} (hd : Runs (destOf f.b) s d s2) :
    Runs (pushAnswer f false full) s .next (s2.pended d (if full then 0 else 1)) :=
  runs_bind hd (runs_bind (runs_pendWrite _ _ _ _) (runs_pure _ _))

theorem runs_pushAnswer_x {f : FQ} {full : Bool} {s s2 : State} {r : Nat × Nat × Fin 16} (hr : Runs (reserveX [f.b]) s r s2) :
    Runs (pushAnswer f true full) s .next (s2.exposed
      { i := .qpush f, due := 1, sv2 := if full then 0 else 1, rid := r.1, nres := r.2.1, q := r.2.2 } (fieldFile f.b)) :=
  runs_bind hr (runs_bind (runs_addX _ _ _) (runs_pure _ _))

/-- A push completes: without NB when there is room, with NB by its answer (R128). -/
theorem exec_qpush_done {f : FQ} {s s1 u t : State} {x : W64} (he : Enters (.qpush f) s = true) (hq : f.q.toNat < 8)
    (hp : Runs (pushOk (qOf f)) s () s) (hs : Runs (sources f.e [f.a] (if nbOf f then [f.b] else [])) s [x] s1)
    (hw : (s1.queue s1.cur (qOf f)).full = true → nbOf f = true ∧ s1.phase ≠ .early)
    (ha : if nbOf f then Runs (pushAnswer f (s1.cur.q = 2) (s1.queue s1.cur (qOf f)).full) (s1.pushed (qOf f) x) .next u
      else u = s1.pushed (qOf f) x)
    (hf : Follows (.qpush f) .next u t) : exec (.qpush f) s = .next (t.done .next) := by
  refine issue_done he (runs_bind (runs_need (by simpa using hq)) (runs_bind hp (runs_bind hs (runs_bind (runs_get s1) ?_)))) hf
  unfold State.pushed qOf at ha
  unfold qOf at hw
  cases hfull : (s1.queue s1.cur ⟨f.q.toNat, f.q.isLt⟩).full with
  | false =>
    cases hnb : nbOf f with
    | false =>
      simp only [hfull, hnb, Bool.not_false, Bool.false_eq_true, if_true, if_false, Bool.false_and] at ha ⊢
      rw [ha]
      exact runs_bind (runs_set _ _) (runs_pure _ _)
    | true =>
      simp only [hfull, hnb, Bool.not_false, Bool.false_eq_true, if_true, if_false, Bool.false_and, pushAnswer,
        decide_eq_true_eq] at ha ⊢
      exact runs_bind (runs_set _ _) ha
  | true =>
    obtain ⟨hnb, hphase⟩ := hw hfull
    simp only [hfull, hnb, hphase, Bool.not_true, Bool.and_false, Bool.false_eq_true, if_true, if_false,
      decide_false, pushAnswer, decide_eq_true_eq] at ha ⊢
    exact ha

/-! ## Pops and peeks -/

/-- A pop or a peek answers when the queue has a visible head, and under NB in any case (R128). -/
theorem runs_popOrPeek {i : Instr} {f : FQ} {pop : Bool} {s u : State} (hq : f.q.toNat < 8) (hp : Runs (popOk (qOf f)) s () s)
    (hd : Runs (allOk dstOk (if nbOf f then [f.a, f.b] else [f.a])) s () s)
    (hw : nbOf f = true ∨ 0 < (s.queue s.cur (qOf f)).ready s.now)
    (hr : Runs (queueResult i f (nbOf f)
        (if 0 < (s.queue s.cur (qOf f)).ready s.now then headWord (s.queue s.cur (qOf f)).ents else 0)
        (if 0 < (s.queue s.cur (qOf f)).ready s.now then 1 else 0))
      (if 0 < (s.queue s.cur (qOf f)).ready s.now then (if pop then s.modQ s.cur (qOf f) (·.drop 1) else s) else s) .next u) :
    Runs (popOrPeek i f pop) s .next u := by
  refine runs_bind (runs_need (by simpa using hq)) (runs_bind hp (runs_bind hd (runs_bind (runs_get s) ?_)))
  unfold qOf at hw hr
  by_cases he : (s.queue s.cur ⟨f.q.toNat, f.q.isLt⟩).ready s.now = 0
  · have hnb := hw.resolve_right (by omega)
    simp only [he, hnb, Nat.lt_irrefl, if_true, if_false, Bool.not_true, Bool.and_false, Bool.false_eq_true, decide_true] at hr ⊢
    exact hr
  · simp only [Nat.pos_of_ne_zero he, he, if_true, if_false, decide_false, Bool.false_and, Bool.not_false, Bool.and_true,
      Bool.false_eq_true] at hr ⊢
    cases pop with
    | true => exact runs_bind (runs_set _ _) hr
    | false => exact hr

/-! ## Bindings -/

/-- The word that binds a queue names it in its high nibble and the binding in its low one. -/
theorem bindWord_fields (q : Fin 16) (x : W64) :
    fld (bindWord q x) 7 4 = q.val ∧ fld (bindWord q x) 3 0 = fld x 3 0 := by
  have hq := q.isLt
  unfold bindWord fld
  simp only [BitVec.toNat_ofNat, Nat.shiftRight_eq_div_pow]
  omega

/-- A binding lands in its queue's nibble of `qmap` (R63, R75). -/
theorem csrLand_bindWord (k : Bank) (p : SeqId) (q : Fin 16) (x : W64) :
    k.csrLand p 2 (bindWord q x) = { k with qmap := setFld k.qmap (4 * q.val + 3) (4 * q.val) (fld x 3 0) } := by
  obtain ⟨hi, lo⟩ := bindWord_fields q x
  unfold Bank.csrLand Bank.csrSet
  simp [hi, lo]

theorem exec_qcfg_done {f : FQ} {s s1 t : State} {x : W64} (he : Enters (.qcfg f) s = true)
    (hempty : (s.queue s.cur (qOf f)).ents = []) (hm : Runs (matrixOk (qOf f)) s () s) (hs : Runs (sources f.e [f.a] []) s [x] s1)
    (hf : Follows (.qcfg f) .next
      (s1.modBank s1.cur fun k => { k with csrPend := k.csrPend ++ [(s1.cur.q, 2, bindWord (qOf f) x)] }) t) :
    exec (.qcfg f) s = .next (t.done .next) :=
  issue_done he (runs_bind (runs_get s) (runs_bind (runs_need (List.isEmpty_iff.2 hempty)) (runs_bind hm (runs_bind hs
    (runs_bind (runs_modify _ _) (runs_pure _ _)))))) hf

/-! ## The statement -/

/-- Settles O9: each queue instruction by what its body does to the queue and leaves as its answer. -/
theorem queuesComplete : Obligations.QueuesComplete := by
  unfold Obligations.QueuesComplete
  refine ⟨?_, ?_, ?_, ?_, fun f s x s1 t => exec_qcfg_done, ?_⟩
  · intro f s x s1 he hq hp hs full u
    have hph : s1.phase = s.phase := ReadFrame.phase (readsOnly_sources _ _ _ _ _ _ hs)
    refine ⟨fun hnb hfull t hf => ?_, fun hnb hfp hx d v t hd hf => ?_, fun hnb hfp hx r v t hr hf => ?_⟩
    · refine exec_qpush_done he hq hp hs (fun h => ?_) ?_ hf
      · rw [show (s1.queue s1.cur (qOf f)).full = false from hfull] at h
        cases h
      · rw [if_neg (by simp [hnb])]; rfl
    · refine exec_qpush_done he hq hp hs (fun h => ⟨hnb, hph ▸ hfp h⟩) ?_ hf
      rw [if_pos hnb, decide_eq_false hx]
      exact runs_pushAnswer hd
    · refine exec_qpush_done he hq hp hs (fun h => ⟨hnb, hph ▸ hfp h⟩) ?_ hf
      rw [if_pos hnb, decide_eq_true hx]
      exact runs_pushAnswer_x hr
  · intro f s u t he hq hp hd some? hw hr hf
    exact issue_done he (runs_popOrPeek hq hp hd hw hr) hf
  · intro f s u t he hq hp hd some? hw hr hf
    exact issue_done he (runs_popOrPeek hq hp hd hw (by rwa [if_neg Bool.false_ne_true, ite_self])) hf
  · intro f s u t he hd hr hf
    exact issue_done he (runs_bind hd (runs_bind (runs_get s) hr)) hf
  · intro k p q x h
    rw [csrCommit_one h, csrLand_bindWord]

end Sys2Proof.Machine
end

section
/-! PROOFS. The flag instructions, and what the events of a cycle make of a flag (R69, R76, R125, R126). -/
namespace Sys2Proof.Machine

/-! ## The events of a cycle, one after another -/

theorem act_post {v : BitVec 16} (h : v.toNat + 1 ≤ 0xFFFF) : ∃ u, FlagOp.act v .post = some u ∧ u.toNat = v.toNat + 1 := by
  refine ⟨v + 1, if_neg ?_, ?_⟩
  · rintro rfl
    simp at h
  · bv_omega

theorem act_dec {v : BitVec 16} (h : 1 ≤ v.toNat) : ∃ u, FlagOp.act v .dec = some u ∧ u.toNat = v.toNat - 1 := by
  refine ⟨v - 1, if_neg ?_, ?_⟩
  · rintro rfl
    simp at h
  · bv_omega

/-- Posts and decrements of a cycle are counted in two halves. -/
theorem countEvs_append (v : BitVec 16) (l : Byte) (xs ys : List FlagEv) :
    countEvs v l (xs ++ ys) =
      ((countEvs (countEvs v l xs).1 (countEvs v l xs).2.1 ys).1, (countEvs (countEvs v l xs).1 (countEvs v l xs).2.1 ys).2.1,
        (countEvs v l xs).2.2 ++ (countEvs (countEvs v l xs).1 (countEvs v l xs).2.1 ys).2.2) := by
  induction xs generalizing v l with
  | nil => rfl
  | cons x xs ih =>
    simp only [List.cons_append, countEvs]
    cases x.op.act v with
    | some u => exact ih u _
    | none => simp only [ih, List.cons_append]

/-- Posts within the range all count, and leave the last decrementer. -/
theorem countEvs_posts {ps : List FlagEv} (hp : ∀ e, e ∈ ps → e.op = .post) (v : BitVec 16) (l : Byte)
    (h : v.toNat + ps.length ≤ 0xFFFF) :
    (countEvs v l ps).1.toNat = v.toNat + ps.length ∧ (countEvs v l ps).2 = (l, []) := by
  induction ps generalizing v with
  | nil => exact ⟨rfl, rfl⟩
  | cons e ps ih =>
    rw [List.length_cons] at h ⊢
    have he : e.op = .post := hp e List.mem_cons_self
    obtain ⟨u, hu, hn⟩ := act_post (v := v) (by omega)
    obtain ⟨h1, h2⟩ := ih (fun e he => hp e (List.mem_cons_of_mem _ he)) u (by omega)
    simp only [countEvs, he, hu, reduceCtorEq, if_false]
    exact ⟨by omega, h2⟩

/-- Decrements within the range all count, and the last of them is the last decrementer. -/
theorem countEvs_decs {ds : List FlagEv} (hd : ∀ e, e ∈ ds → e.op = .dec) (v : BitVec 16) (l : Byte)
    (h : ds.length ≤ v.toNat) :
    (countEvs v l ds).1.toNat = v.toNat - ds.length ∧ (countEvs v l ds).2 = ((ds.map (·.by_)).getLastD l, []) := by
  induction ds generalizing v l with
  | nil => exact ⟨rfl, rfl⟩
  | cons e ds ih =>
    rw [List.length_cons] at h ⊢
    have he : e.op = .dec := hd e List.mem_cons_self
    obtain ⟨u, hu, hn⟩ := act_dec (v := v) (by omega)
    obtain ⟨h1, h2⟩ := ih (fun e he => hd e (List.mem_cons_of_mem _ he)) u e.by_ (by omega)
    simp only [countEvs, he, hu, if_true, List.map_cons, List.getLastD_cons]
    exact ⟨by omega, h2⟩

/-- Without a decrement the last decrementer stays, also where posts are refused. -/
theorem countEvs_last {ps : List FlagEv} (hp : ∀ e, e ∈ ps → e.op = .post) (v : BitVec 16) (l : Byte) :
    (countEvs v l ps).2.1 = l := by
  induction ps generalizing v with
  | nil => rfl
  | cons e ps ih =>
    have he : e.op = .post := hp e List.mem_cons_self
    have ih := fun v => ih (fun e he => hp e (List.mem_cons_of_mem _ he)) v
    simp only [countEvs, he, reduceCtorEq, if_false]
    cases FlagOp.act v .post with
    | some u => exact ih u
    | none => exact ih v

/-! ## Arms -/

/-- One event's part in what the arms of a cycle leave: the key of the arm that stands, and its value. -/
def armStep (m : Nat × BitVec 16) (e : FlagEv) : Nat × BitVec 16 :=
  match e.op with
  | .arm x => if m.1 ≤ armKey e.by_ + 1 then (armKey e.by_ + 1, x) else m
  | _ => m

theorem armed_eq (evs : List FlagEv) (v : BitVec 16) : armed evs v = (evs.foldl armStep (0, v)).2 := rfl

theorem armStep_of_ne {e : FlagEv} (h : ∀ x, e.op ≠ .arm x) (m : Nat × BitVec 16) : armStep m e = m := by
  unfold armStep
  split
  · rename_i x hx
    exact absurd hx (h x)
  · rfl

theorem foldl_armStep {evs : List FlagEv} (h : ∀ e, e ∈ evs → ∀ x, e.op ≠ .arm x) (m : Nat × BitVec 16) :
    evs.foldl armStep m = m := by
  induction evs with
  | nil => rfl
  | cons e evs ih =>
    rw [List.foldl_cons, armStep_of_ne (h e List.mem_cons_self)]
    exact ih fun e he => h e (List.mem_cons_of_mem _ he)

/-- Without an arm the counter stays. -/
theorem armed_of_none {evs : List FlagEv} (h : ∀ e, e ∈ evs → ∀ x, e.op ≠ .arm x) (v : BitVec 16) : armed evs v = v := by
  rw [armed_eq, foldl_armStep h]

/-- With one arm, wherever it stands among the events, the counter is its value. -/
theorem armed_of_one {xs ys : List FlagEv} {a : FlagEv} {n : BitVec 16} (ha : a.op = .arm n)
    (hx : ∀ e, e ∈ xs → ∀ x, e.op ≠ .arm x) (hy : ∀ e, e ∈ ys → ∀ x, e.op ≠ .arm x) (v : BitVec 16) :
    armed (xs ++ a :: ys) v = n := by
  rw [armed_eq, List.foldl_append, foldl_armStep hx, List.foldl_cons, foldl_armStep hy]
  simp [armStep, ha]

/-! ## The end of a cycle -/

/-- The posts and the decrements among events. -/
abbrev postsOf (es : List FlagEv) : List FlagEv := es.filter (·.op == .post)
abbrev decsOf (es : List FlagEv) : List FlagEv := es.filter (·.op == .dec)

theorem mem_postsOf {es : List FlagEv} : ∀ e, e ∈ postsOf es → e.op = .post := fun _ he => eq_of_beq (List.mem_filter.1 he).2
theorem mem_decsOf {es : List FlagEv} : ∀ e, e ∈ decsOf es → e.op = .dec := fun _ he => eq_of_beq (List.mem_filter.1 he).2

theorem postsOf_append (xs ys : List FlagEv) : postsOf (xs ++ ys) = postsOf xs ++ postsOf ys := List.filter_append ..
theorem decsOf_append (xs ys : List FlagEv) : decsOf (xs ++ ys) = decsOf xs ++ decsOf ys := List.filter_append ..

theorem postsOf_posts {es : List FlagEv} (h : ∀ e, e ∈ es → e.op = .post) : postsOf es = es :=
  List.filter_eq_self.2 fun e he => by simp [h e he]
theorem decsOf_decs {es : List FlagEv} (h : ∀ e, e ∈ es → e.op = .dec) : decsOf es = es :=
  List.filter_eq_self.2 fun e he => by simp [h e he]
theorem postsOf_decs {es : List FlagEv} (h : ∀ e, e ∈ es → e.op = .dec) : postsOf es = [] :=
  List.filter_eq_nil_iff.2 fun e he => by simp [h e he]
theorem decsOf_posts {es : List FlagEv} (h : ∀ e, e ∈ es → e.op = .post) : decsOf es = [] :=
  List.filter_eq_nil_iff.2 fun e he => by simp [h e he]

/-- A cycle whose counts stay within the range leaves the armed value plus its posts, less its decrements, and refuses none (R69). -/
theorem settle_inRange (x : Flag) (hp : (armed x.evs x.v).toNat + (postsOf x.evs).length ≤ 0xFFFF)
    (hd : (decsOf x.evs).length ≤ (armed x.evs x.v).toNat + (postsOf x.evs).length) :
    x.settle.1.toNat = (armed x.evs x.v).toNat + (postsOf x.evs).length - (decsOf x.evs).length ∧
      x.settle.2 = (((decsOf x.evs).map (·.by_)).getLastD x.last, []) := by
  obtain ⟨hp1, hp2⟩ := countEvs_posts mem_postsOf (armed x.evs x.v) x.last hp
  have hl := congrArg Prod.fst hp2
  have hr := congrArg Prod.snd hp2
  dsimp only at hl hr
  obtain ⟨hd1, hd2⟩ := countEvs_decs (ds := decsOf x.evs) mem_decsOf (countEvs (armed x.evs x.v) x.last (postsOf x.evs)).1 x.last
    (by omega)
  unfold Flag.settle
  rw [countEvs_append, hl, hr]
  exact ⟨by rw [hd1, hp1], by rw [hd2]; rfl⟩

/-- The counts of a cycle depend on how many events of each kind there are, not on their order. -/
theorem perm_lengths {es ps ds as : List FlagEv} (hp : ∀ e, e ∈ ps → e.op = .post) (hd : ∀ e, e ∈ ds → e.op = .dec)
    (ha : ∀ e, e ∈ as → e.op ≠ .post ∧ e.op ≠ .dec) (h : es.Perm (ps ++ ds ++ as)) :
    (postsOf es).length = ps.length ∧ (decsOf es).length = ds.length := by
  have hpa : postsOf as = [] := List.filter_eq_nil_iff.2 fun e he => by simp [(ha e he).1]
  have hda : decsOf as = [] := List.filter_eq_nil_iff.2 fun e he => by simp [(ha e he).2]
  have h1 : (postsOf es).length = (postsOf (ps ++ ds ++ as)).length := (h.filter (·.op == .post)).length_eq
  have h2 : (decsOf es).length = (decsOf (ps ++ ds ++ as)).length := (h.filter (·.op == .dec)).length_eq
  rw [postsOf_append, postsOf_append, postsOf_posts hp, postsOf_decs hd, hpa] at h1
  rw [decsOf_append, decsOf_append, decsOf_posts hp, decsOf_decs hd, hda] at h2
  exact ⟨by simpa using h1, by simpa using h2⟩

theorem commit_counts {x : Flag} {ps ds : List FlagEv} (hp : ∀ e, e ∈ ps → e.op = .post) (hd : ∀ e, e ∈ ds → e.op = .dec)
    (h : x.evs.Perm (ps ++ ds)) (h1 : x.v.toNat + ps.length ≤ 0xFFFF) (h2 : ds.length ≤ x.v.toNat + ps.length) :
    x.commit.v.toNat = x.v.toNat + ps.length - ds.length := by
  obtain ⟨lp, ld⟩ := perm_lengths (as := []) hp hd (by simp) (by simpa using h)
  have ha : armed x.evs x.v = x.v := armed_of_none (fun e he n => by
    rcases List.mem_append.1 (h.mem_iff.1 he) with he | he
    · simp [hp e he]
    · simp [hd e he]) x.v
  obtain ⟨hc, -⟩ := settle_inRange x (by rw [ha, lp]; exact h1) (by rw [ha, lp, ld]; exact h2)
  rwa [ha, lp, ld] at hc

/-- The same where the cycle has an arm: the counts start from its value. -/
theorem commit_armed {x : Flag} {a : FlagEv} {n : BitVec 16} {ps ds : List FlagEv} (ha : a.op = .arm n)
    (hp : ∀ e, e ∈ ps → e.op = .post) (hd : ∀ e, e ∈ ds → e.op = .dec) (h : x.evs.Perm (ps ++ ds ++ [a]))
    (h1 : n.toNat + ps.length ≤ 0xFFFF) (h2 : ds.length ≤ n.toNat + ps.length) :
    x.commit.v.toNat = n.toNat + ps.length - ds.length := by
  obtain ⟨lp, ld⟩ := perm_lengths (as := [a]) hp hd (by simp [ha]) h
  have harm : armed x.evs x.v = n := by
    obtain ⟨xs, ys, hxy⟩ := List.append_of_mem (h.mem_iff.2 (List.mem_append_right _ List.mem_cons_self))
    have hrest : (xs ++ ys).Perm (ps ++ ds) := by
      rw [hxy] at h
      exact ((List.perm_middle.symm.trans h).trans List.perm_append_comm).cons_inv
    have hne : ∀ e, e ∈ xs ++ ys → ∀ m, e.op ≠ .arm m := fun e he m => by
      rcases List.mem_append.1 (hrest.mem_iff.1 he) with he | he
      · simp [hp e he]
      · simp [hd e he]
    rw [hxy]
    exact armed_of_one ha (fun e he => hne e (List.mem_append_left _ he)) (fun e he => hne e (List.mem_append_right _ he)) x.v
  obtain ⟨hc, -⟩ := settle_inRange x (by rw [harm, lp]; exact h1) (by rw [harm, lp, ld]; exact h2)
  rwa [harm, lp, ld] at hc

/-- The last decrement of a cycle is the last decrementer (R76). -/
theorem commit_last {x : Flag} {es : List FlagEv} {e : FlagEv} (h : ∀ d, d ∈ es → d.op = .post ∨ d.op = .dec)
    (he : e.op = .dec) (hx : x.evs = es ++ [e]) (h1 : x.v.toNat + (postsOf es).length ≤ 0xFFFF)
    (h2 : (decsOf es).length + 1 ≤ x.v.toNat + (postsOf es).length) : x.commit.last = e.by_ := by
  have hp : postsOf x.evs = postsOf es := by rw [hx]; simp [he]
  have hd : decsOf x.evs = decsOf es ++ [e] := by rw [hx]; simp [he]
  have ha : armed x.evs x.v = x.v := armed_of_none (fun d hd n => by
    rw [hx] at hd
    rcases List.mem_append.1 hd with hd | hd
    · rcases h d hd with h | h <;> simp [h]
    · rw [List.mem_singleton.1 hd, he]; simp) x.v
  obtain ⟨-, hc⟩ := settle_inRange x (by rw [ha, hp]; exact h1) (by rw [ha, hp, hd, List.length_append]; exact h2)
  calc x.commit.last = x.settle.2.1 := rfl
    _ = ((decsOf x.evs).map (·.by_)).getLastD x.last := by rw [hc]
    _ = e.by_ := by rw [hd]; simp

/-- Posts alone leave the last decrementer. -/
theorem commit_posts_last {x : Flag} (h : ∀ e, e ∈ x.evs → e.op = .post) : x.commit.last = x.last := by
  show (countEvs _ _ (postsOf x.evs ++ decsOf x.evs)).2.1 = x.last
  rw [postsOf_posts h, decsOf_posts h, List.append_nil]
  exact countEvs_last h _ _

/-- What one event makes of a flag that met no other in its cycle. -/
theorem settle_one {x : Flag} {e : FlagEv} (h : x.evs = [e]) :
    (∀ n, e.op = .arm n → x.settle = (n, x.last, [])) ∧
    (e.op = .post ∨ e.op = .dec → x.settle = countEvs x.v x.last [e]) := by
  refine ⟨fun n he => ?_, fun he => ?_⟩
  · simp [Flag.settle, h, he, armed_eq, armStep, countEvs]
  · rcases he with he | he <;> simp [Flag.settle, h, he, armed_eq, armStep]

theorem countEvs_one (v : BitVec 16) (l : Byte) (e : FlagEv) :
    countEvs v l [e] = match e.op.act v with
      | some u => (u, if e.op = .dec then e.by_ else l, [])
      | none => (v, l, [e]) := by
  unfold countEvs
  cases e.op.act v <;> rfl

/-- An event that meets a flag alone is refused where it does not act on the counter. -/
theorem refuses_alone {x : Flag} {e : FlagEv} (h : x.evs = []) (he : e.op = .post ∨ e.op = .dec) :
    x.refuses e = true ↔ e.op.act x.v = none := by
  have hs : ({ x with evs := x.evs ++ [e] } : Flag).settle = countEvs x.v x.last [e] := (settle_one (by simp [h])).2 he
  unfold Flag.refuses
  rw [hs, countEvs_one]
  cases e.op.act x.v <;> simp

/-- An event that does not act leaves the counter, and is refused. -/
theorem settle_refused {x : Flag} {e : FlagEv} (h : x.evs = [e]) (he : e.op = .post ∨ e.op = .dec) (ha : e.op.act x.v = none) :
    x.commit.v = x.v ∧ x.settle.2.2 = [e] := by
  have hs : x.settle = (x.v, x.last, [e]) := by
    rw [(settle_one h).2 he, countEvs_one, ha]
  exact ⟨congrArg Prod.fst hs, by rw [hs]⟩

/-! ## The instructions -/

/-- An event on an allocated flag of a quiet sequencer meets the flag when its counter can take it (R69, R125). -/
theorem runs_flagEvent {f : RRI} {op : FlagOp} {s : State} (hr : Runs (flagOk (flagOf9 f.imm)) s () s)
    (hq : s.quietSeq s.cur = true) (hn : (s.flag s.cur (flagOf9 f.imm)).refuses (s.seqEv s.cur op) = false) :
    Runs (flagEvent f op) s .next ((s.flagStep s.cur (flagOf9 f.imm) op).retained
      (if (flagOf9 f.imm).g then [] else [(5, (flagOf9 f.imm).n.toNat)]) 1) := by
  unfold flagEvent
  refine runs_bind hr (runs_bind (runs_needQuiet hq) (runs_bind (runs_get s) ?_))
  simp only [hn, Bool.false_and, Bool.false_eq_true, if_false]
  exact runs_bind (runs_need rfl) (runs_bind (runs_set _ _) (runs_bind (runs_retain _ _ _ _) (runs_pure _ _)))

/-- One that the counter cannot take raises FlagOverflow, unless others of the core may still act in the cycle (R69). -/
theorem stops_flagEvent {f : RRI} {op : FlagOp} {s : State} (hr : Runs (flagOk (flagOf9 f.imm)) s () s)
    (hq : s.quietSeq s.cur = true) (hp : s.phase ≠ .early)
    (hn : (s.flag s.cur (flagOf9 f.imm)).refuses (s.seqEv s.cur op) = true) :
    Stops (flagEvent f op) s (.trap { cause := cFlagOvf }) := by
  unfold flagEvent
  refine stops_bind_of_runs hr (stops_bind_of_runs (runs_needQuiet hq) (stops_bind_of_runs (runs_get s) ?_))
  simp only [hn, hp, decide_false, Bool.and_false, Bool.false_eq_true, if_false]
  exact stops_bind (stops_need rfl)

/-- `farm` of a value within the range meets the flag as an arm, without a view (R125). -/
theorem exec_farm_done {f : RRI} {s s1 t : State} {x : W64} (he : Enters (.farm f) s = true)
    (hs : Runs (sources none [f.a] []) s [x] s1) (hr : Runs (flagOk (flagOf9 f.imm)) s1 () s1) (hx : x.toNat ≤ 0xFFFF)
    (hf : Follows (.farm f) .next ((s1.meet s1.cur (flagOf9 f.imm)
      { s1.seqEv s1.cur (.arm (x.setWidth 16)) with view := {} }).retained
        (if (flagOf9 f.imm).g then [] else [(5, (flagOf9 f.imm).n.toNat)]) 1) t) :
    exec (.farm f) s = .next (t.done .next) :=
  issue_done he (runs_bind hs (runs_bind hr (runs_bind (runs_need (decide_eq_true hx)) (runs_bind (runs_modify _ _)
    (runs_bind (runs_retain _ _ _ _) (runs_pure _ _)))))) hf

theorem exec_farm_overflow {f : RRI} {s s1 : State} {x : W64} (he : Enters (.farm f) s = true)
    (hs : Runs (sources none [f.a] []) s [x] s1) (hr : Runs (flagOk (flagOf9 f.imm)) s1 () s1) (hx : 0xFFFF < x.toNat) :
    exec (.farm f) s = .next (s.stopped (.trap { cause := 0x21 })) :=
  issue_stops he (stops_bind_of_runs hs (stops_bind_of_runs hr (stops_bind (stops_need (decide_eq_false (not_le.2 hx))))))

/-- `fwait` on a flag at 0 acquires its view; a wait that lasted leaves an entry in the ring (R76, R125, R126). -/
theorem exec_fwait_done {f : RRI} {s t : State} (he : Enters (.fwait f) s = true) (hr : Runs (flagOk (flagOf9 f.imm)) s () s)
    (hv : (s.flag s.cur (flagOf9 f.imm)).v = 0) :
    let q := s.sq s.cur
    let r := flagOf9 f.imm
    let waited := if q.stall = 4 && q.obj = r.n.toNat && q.objG == r.g then s.now - q.since else 0
    let u := s.flagAcq s.cur r
    let e := flogEntry waited (s.flag s.cur r).last s.cur.q.val r
    Follows (.fwait f) .next (if 1 ≤ waited then (u.modBank u.cur (·.flogAdd e)).trace u.cur 9 q.pc e else u) t →
    exec (.fwait f) s = .next (t.done .next) := by
  intro q r waited u e hf
  refine issue_done he (runs_bind hr (runs_bind (runs_get s) ?_)) hf
  simp only [hv, bne_self_eq_false, Bool.false_eq_true, if_false]
  by_cases hw : 1 ≤ waited
  · rw [if_pos hw, if_pos hw]
    exact runs_bind (runs_set _ _) (runs_pure _ _)
  · rw [if_neg hw, if_neg hw]
    exact runs_bind (runs_set _ _) (runs_pure _ _)

/-! ## The statement -/

/-- Settles O7: the instructions by what their bodies do to the flag, and a cycle's end by the counts of its events. -/
theorem flagsComplete : Obligations.FlagsComplete := by
  unfold Obligations.FlagsComplete
  refine ⟨fun f s x s1 t he hs hr hx hf => exec_farm_done he hs hr hx hf, fun f s x s1 he hs hr hx => exec_farm_overflow he hs hr hx,
    fun f s t he hr hq hn hf => issue_done he (runs_flagEvent hr hq hn) hf,
    fun f s t he hr hq hn hf => issue_done he (runs_flagEvent hr hq hn) hf,
    fun f s he hr hq hp hn => issue_stops he (stops_flagEvent hr hq hp hn),
    fun f s he hr hq hp hn => issue_stops he (stops_flagEvent hr hq hp hn), ?_,
    fun f s t he hr hv => exec_fwait_done he hr hv, ?_, ?_, ?_, ?_,
    fun x es e h he hx h1 h2 => commit_last h he hx h1 h2, fun x h => commit_posts_last h,
    fun x a n ps ds ha hp hd h h1 h2 => commit_armed ha hp hd h h1 h2, ?_, ?_⟩
  · intro f s he hd hr
    exact leavesScalar_issue he fun u hu => runs_bind hd (runs_bind hr (runs_bind (runs_get s) (runs_bind (runs_set _ _) hu)))
  · intro x e hx he
    rw [refuses_alone hx (.inl he), he]
    simp [FlagOp.act]
  · intro x e hx he
    rw [refuses_alone hx (.inr he), he]
    simp [FlagOp.act]
  · intro x e n hx he
    have hs := (settle_one hx).1 n he
    exact ⟨congrArg Prod.fst hs, congrArg (·.2.1) hs⟩
  · intro x ps ds hp hd h h1 h2
    exact ⟨commit_counts hp hd h h1 h2, rfl⟩
  · intro x e hv hx he
    have := settle_refused hx (.inr he) (by rw [he, hv]; rfl)
    rwa [hv] at this
  · intro x e hv hx he
    have := settle_refused hx (.inl he) (by rw [he, hv]; rfl)
    rwa [hv] at this

end Sys2Proof.Machine
end

section
/-! PROOFS. The events of the copy engine (R70, R141, R146, R149, R152, R226). -/
namespace Sys2Proof.Machine

/-! ## Starts -/

/-- What a command does once it has left the FIFO (R141, R147): it stops a stream, takes a stream's number over, or is a run. -/
def State.cmdStarted (u : State) (c : CoreId) (x : ECmd) : State :=
  match x.kind with
  | .stop k => u.stopStream x.who k
  | .stream k q _ _ =>
    ((u.stopStream x.who k).modStream x.who k fun _ => { st := 1, q := q }).modCore c fun k =>
      { k with copyRun := k.copyRun ++ [Run.start x] }
  | _ => u.modCore c fun k => { k with copyRun := k.copyRun ++ [Run.start x] }

theorem exec_copyEngineStart {c : CoreId} {s : State} {x : ECmd} {rest : List ECmd} (hq : (s.core c).copyFifo = x :: rest)
    (hh : s.halts x.who = false) (hr : (s.core c).startRoom x = true) (hf : (s.core c).engFenced.get 0 = false) :
    exec (.copyEngineStart c) s =
      .next (((s.modCore c fun k => { k with copyFifo := rest }).engStart (engAgent c 0) x.view).cmdStarted c x) := by
  change execCopyEngineStart c s = _
  unfold State.halts at hh
  unfold execCopyEngineStart State.cmdStarted
  simp only [hq, hh, hr, hf, Bool.not_true, Bool.or_self, Bool.false_eq_true, if_false]
  cases x.kind <;> rfl

/-! ## Steps -/

theorem exec_streamElementPush {c : CoreId} {k k' : Fin 8} {s : State} {r : Run} {q : Fin 16} {cons : Bool} {d : SDesc}
    (hr : ((s.core c).copyRun.filter fun r => r.cmd.kind.isStream k)[(s.choose
      ((s.core c).copyRun.filter fun r => r.cmd.kind.isStream k).length).1]? = some r)
    (hk : r.cmd.kind = .stream k' q cons d)
    (hf : ((s.choose ((s.core c).copyRun.filter fun r => r.cmd.kind.isStream k).length).2.core c).engFenced.get 0 = false) :
    exec (.streamElementPush c k) s =
      .next ((s.choose ((s.core c).copyRun.filter fun r => r.cmd.kind.isStream k).length).2.streamStep r k q cons d) := by
  change execStreamElementPush c k s = _
  unfold execStreamElementPush
  simp only [hr, hk, hf, Bool.false_eq_true, if_false]

/-- A gather's step is that of its kind: over a list, or of the one row of a queued index (R149). -/
theorem exec_gatherRowDeliver {c : CoreId} {id pos : Nat} {s : State} {r : Run}
    (hr : (s.core c).copyRun.find? (·.cmd.id == id) = some r) (hf : (s.core c).engFenced.get 0 = false) :
    (∀ q sp cons d p n, r.cmd.kind = .gather q sp cons d p n →
      exec (.gatherRowDeliver c id pos) s = .next (s.gatherStep r pos q sp fun s => s.gatherEntry r d sp cons pos)) ∧
    (∀ q sp cons d x t, r.cmd.kind = .gatherq q sp cons d x t →
      exec (.gatherRowDeliver c id pos) s = .next (s.gatherStep r pos q sp fun s => s.gatherRow r d sp cons pos x.toNat t)) := by
  change (∀ q sp cons d p n, _ → execGatherRowDeliver c id pos s = _) ∧
    (∀ q sp cons d x t, _ → execGatherRowDeliver c id pos s = _)
  unfold execGatherRowDeliver
  constructor
  · intro q sp cons d p n hk
    simp only [hr, hf, hk, Bool.false_eq_true, if_false]
  · intro q sp cons d x t hk
    simp only [hr, hf, hk, Bool.false_eq_true, if_false]

/-! ## Copies -/

/-- The words that a copy may write next: all that are left, or those up to a 256-byte boundary of a task that stops (R332). -/
def State.copyTodo (s : State) (r : Run) : List Nat := if s.halts r.cmd.who then r.partialLeft else r.left

section
variable {c : CoreId} {id : Nat} {s : State} {r : Run} {dst src : W64} {bytes rows : Nat} {sstr dstr : W64} {ws cons : Bool}
  {fo : Option (W32 × W32)} (hr : (s.core c).copyRun.find? (·.cmd.id == id) = some r)
  (hk : r.cmd.kind = .copy dst src bytes rows sstr dstr ws cons fo) (ht : r.tok = none) (hf : (s.core c).engFenced.get 0 = false)
include hr hk ht hf

/-- A copy with no word left completes through its homes (R152, R273). -/
theorem exec_copyComplete_over (hl : r.left = []) :
    exec (.copyComplete c id) s = .next (s.runHomes r 0 (fun s f => s.modRun c id f) fun s => s.copyLanded r) := by
  change execCopyComplete c id s = _
  unfold execCopyComplete
  simp only [hr, hk, hf, ht, hl, Option.isSome_none, bne_self_eq_false, Bool.false_eq_true, if_false]

/-- One with words left writes any of them. -/
theorem exec_copyComplete_word (hl : r.left ≠ []) (hd : s.copyTodo r ≠ []) (hn : r.refused = none) :
    exec (.copyComplete c id) s = .next ((s.choose (s.copyTodo r).length).2.copyWord r
      ((s.copyTodo r).getD (s.choose (s.copyTodo r).length).1 0) dst src bytes sstr dstr ws cons) := by
  change execCopyComplete c id s = _
  have hb : (r.left != []) = true := bne_iff_ne.2 hl
  unfold State.copyTodo at *
  unfold execCopyComplete
  simp only [hr, hk, hf, ht, hb, hn, hd, Option.isSome_none, Bool.false_eq_true, if_false, if_true]

/-- One that a page has refused a word tries that word again (R351). -/
theorem exec_copyComplete_refused (hl : r.left ≠ []) (hd : s.copyTodo r ≠ []) (hn : r.refused.isSome = true) :
    exec (.copyComplete c id) s = .next (s.copyWord r r.pos dst src bytes sstr dstr ws cons) := by
  change execCopyComplete c id s = _
  have hb : (r.left != []) = true := bne_iff_ne.2 hl
  unfold State.copyTodo at hd
  unfold execCopyComplete
  simp only [hr, hk, hf, ht, hb, hn, hd, Option.isSome_none, Bool.false_eq_true, if_false, if_true]
end

/-! ## Parked commands and follow-ons -/

theorem exec_parkedRelease_freed {c : CoreId} {s : State} {p : Parked} (hp : (s.core c).parked = [p]) (hc : p.who.c = c)
    (hfr : p.freed = true) (hroom : (s.core c).cmdRoom p.cmd.out = true)
    (hq : (s.modCore c fun k => { k with parked := [] }).quietSeq p.who = true) (hh : (s.bank p.who).halting = false) :
    exec (.parkedRelease c) s = .next ((s.modCore c fun k => { k with parked := [] }).enterCmd p.cmd.out p.cmd.cmd) := by
  have hb : (s.modCore c fun k => { k with parked := [] }).bank p.who = s.bank p.who := by
    unfold State.bank
    rw [State.modCore_core, if_pos hc.symm]
  have hr : ((s.modCore c fun k => { k with parked := [] }).core c).cmdRoom p.cmd.out = true := by
    rw [State.modCore_core, if_pos rfl]
    exact hroom
  have hl : (s.modCore c fun k => { k with parked := [] }).leaves p = true := by
    unfold State.leaves
    rw [hb, hfr, hq, hh, hc, hr]
    rfl
  change Host.Outcome.next (s.releaseParked c) = _
  unfold State.releaseParked
  simp only [hp, List.any_cons, List.any_nil, hfr, Bool.or_false, Bool.not_true, Bool.false_eq_true, if_false, List.foldl_cons,
    List.foldl_nil, hl, if_true]

theorem exec_parkedRelease_waits {c : CoreId} {s : State} {p : Parked} (hp : (s.core c).parked = [p]) (hfr : p.freed = false) :
    exec (.parkedRelease c) s = .next s := by
  change Host.Outcome.next (s.releaseParked c) = _
  unfold State.releaseParked
  rw [hp, if_pos (by simp [hfr])]

theorem exec_followonPlace {c : CoreId} {id : Nat} {s : State} {w : Who} {iw e : W32} {cfl : Option FlagRef} {i : Instr}
    (hfi : (s.core c).follow.find? (·.1 == id) = some (id, w, iw, e, cfl)) (hi : followOf iw e = some i) (hc : w.c = c)
    (hroom : (needsEntry i && !(s.core c).matrixRoom) = false) (hh : s.halts w = false) :
    let u := s.modCore c fun k => { k with follow := k.follow.filter (·.1 != id) }
    exec (.followonPlace c id) s =
      .next ((if u.alive w then u.followOn (w.seq 2) i else u).engDone w cfl (engAgent c 0) (engCode c 0)) := by
  intro u
  have hfit : s.followFits w i = true := by
    unfold State.followFits
    rw [hc, hh]
    revert hroom
    cases needsEntry i <;> cases (s.core c).matrixRoom <;> simp
  change Host.Outcome.next (s.followPlace c id) = _
  unfold State.followPlace
  simp only [hfi, hi, hfit, Bool.not_true, Bool.false_eq_true, if_false]
  unfold State.followAct
  rw [hc]

/-! ## The statement -/

/-- Settles O29: each event by the step that it takes. -/
theorem copyEngineCompletes : Obligations.CopyEngineCompletes := by
  unfold Obligations.CopyEngineCompletes
  refine ⟨?_, ?_, ?_, ?_, ?_, fun c s p => exec_parkedRelease_freed, fun c s p => exec_parkedRelease_waits,
    fun c id s w iw e cfl i => exec_followonPlace⟩
  · intro c s x rest hq hh hr hf u
    rw [exec_copyEngineStart hq hh hr hf]
    unfold State.cmdStarted
    cases x.kind <;> rfl
  · intro c k s r k' q cons d rs hr hk hf
    exact exec_streamElementPush hr hk hf
  · intro c id pos s r q sp cons d p n hr hf hk
    exact (exec_gatherRowDeliver hr hf).1 q sp cons d p n hk
  · intro c id pos s r q sp cons d x t hr hf hk
    exact (exec_gatherRowDeliver hr hf).2 q sp cons d x t hk
  · intro c id s r dst src bytes rows sstr dstr ws cons fo hr hk ht hf todo
    exact ⟨exec_copyComplete_over hr hk ht hf, fun hl hn hd => exec_copyComplete_word hr hk ht hf hl hd hn,
      fun hl hn hd => exec_copyComplete_refused hr hk ht hf hl hd hn⟩

end Sys2Proof.Machine
end

section
/-! PROOFS. The module right after reset, and the bank in which a task starts (R52, R70, R305, R308, R313, R331, R359, R398, R399). -/
namespace Sys2Proof.Machine

/-! ## Reset -/

/-- At reset every core is a fresh one. -/
theorem reset_core (c : CoreId) : State.reset.core c = {} := replicate_get _ c

/-- At reset every die is a fresh one. -/
theorem reset_die (d : DieId) : State.reset.die d = {} := replicate_get _ d

/-! ## The bank of a task that starts -/

/-- C of a task that starts: at the record's entry, with its ARG in s1 (R308). -/
def startSeq (r : Rec) : Seq :=
  { ({} : Seq) with started := true, pc := r.w.get 0, s := vset (Vector.replicate 32 0) 1 (r.w.get 6), stall := 1 }

/-- The block of a task's context (R366). -/
def State.ctxBlk (s : State) (r : Rec) : Vector W64 12 :=
  match NMap.get? s.ctxs (recCtx r.w) with
  | some c => c.blk
  | none => Vector.replicate 12 0

/-- The bank of a task that starts: a fresh one but for the task, C, and what its context gives. -/
def State.startBank (s : State) (w : Who) (r : Rec) : Bank :=
  { ({} : Bank) with
    task := some r, serial := s.serial + 1, startCycle := s.now
    weights := (NMap.get? s.weights (recCtx r.w)).getD (Vector.replicate 32 0)
    seqs := vset (Vector.replicate 4 {}) 0 (startSeq r)
    ptroot := (s.ctxBlk r).get 1, tvec := (s.ctxBlk r).get 2
    tfbase := (s.ctxBlk r).get 3 + BitVec.ofNat 64 (4096 * (2 * w.c.val + w.b.val))
    wsrange := (s.ctxBlk r).get 6, spwin := (s.ctxBlk r).get 7 }

theorem startAgents_core (s : State) (w : Who) (v : View) (c : CoreId) : (s.startAgents w v).core c = s.core c := rfl

/-- A task start sets its bank and no other part of its core. -/
theorem startTask_core (s : State) (w : Who) (r : Rec) :
    (s.startTask w r).core w.c = (s.core w.c).modBank w.b fun _ => s.startBank w r := by
  unfold State.startTask
  rw [startAgents_core, State.modBank_core, if_pos rfl]
  rfl

theorem startTask_bank (s : State) (w : Who) (r : Rec) : (s.startTask w r).bank w = s.startBank w r := by
  unfold State.bank
  rw [startTask_core, Core.modBank_get, if_pos rfl]

theorem startBank_seq (s : State) (w : Who) (r : Rec) (q : SeqId) :
    (s.startBank w r).seqs.get q = if q = 0 then startSeq r else {} := by
  show (vset _ 0 _).get q = _
  rw [vset_get, replicate_get]
  simp only [eq_comm]

/-- C's s1 is the record's ARG; every other scalar register of the task is 0 (R308). -/
theorem startBank_s (s : State) (w : Who) (r : Rec) (q : SeqId) (n : Fin 32) :
    (((s.startBank w r).seqs.get q).s).get n = if q = 0 ∧ n = 1 then r.w.get 6 else 0 := by
  rw [startBank_seq]
  by_cases hq : q = 0
  · simp [hq, startSeq, vset_get, eq_comm]
  · simp [hq]

/-- No sequencer of the task has a loop, a wait, a pending result or an error. -/
theorem startBank_idle (s : State) (w : Who) (r : Rec) (q : SeqId) (n : Fin 4) :
    let x := (s.startBank w r).seqs.get q
    (x.l.get n = 0 ∧ x.frames.get n = { active := false, start := 0, stop := 0, count := 0 }) ∧
      x.waitRem = 0 ∧ x.pend = [] ∧ x.unc = false := by
  intro x
  have hx : x = if q = 0 then startSeq r else {} := startBank_seq s w r q
  rw [hx]
  split <;> simp [startSeq]

theorem startBank_started (s : State) (w : Who) (r : Rec) (q : SeqId) :
    ((s.startBank w r).seqs.get q).started = decide (q = 0) := by
  rw [startBank_seq]
  by_cases h : q = 0 <;> simp [h, startSeq]

theorem ctxBlk_of_some {s : State} {r : Rec} {x : Ctx} (h : NMap.get? s.ctxs (recCtx r.w) = some x) : s.ctxBlk r = x.blk := by
  unfold State.ctxBlk
  rw [h]

/-- A parked command of an earlier task is not of the task that starts (R70). -/
theorem startTask_ours {s : State} {w x : Who} {r : Rec} (h : x.t ≤ s.serial) : (s.startTask w r).ours w x = false := by
  have hs : ((s.startTask w r).bank w).serial = s.serial + 1 := by rw [startTask_bank]; rfl
  unfold State.ours
  rw [hs, beq_false_of_ne (a := x.t) (by omega), Bool.and_false]

/-! ## The statement -/

/-- Settles O41: reset by evaluation, and a task's start by the bank that it sets. -/
theorem resetAndTaskStart : Obligations.ResetAndTaskStart := by
  unfold Obligations.ResetAndTaskStart
  constructor
  · refine ⟨rfl, rfl, rfl, rfl, rfl, rfl, rfl, rfl, rfl, rfl, ?_, fun l => ⟨rfl, rfl⟩, fun c => ?_, fun d => ?_⟩
    · rintro h rfl
      exact ⟨rfl, rfl, rfl, rfl, rfl, rfl, rfl, rfl, rfl, rfl, rfl, rfl, rfl, rfl⟩
    · rw [reset_core]
      exact ⟨rfl, rfl, rfl, rfl, fun b => by rw [replicate_get]⟩
    · rw [reset_die]
      exact ⟨rfl, rfl, rfl, rfl, rfl, rfl⟩
  · intro s w r t k
    have hk : k = s.startBank w r := startTask_bank s w r
    have hp : (t.core w.c).parked = (s.core w.c).parked := by
      show ((s.startTask w r).core w.c).parked = _
      rw [startTask_core]
      rfl
    clear_value k
    subst hk
    have idle := startBank_idle s w r
    refine ⟨startBank_s s w r, fun q n => (idle q n).1, fun q => (idle q 0).2, ?_, startBank_started s w r 0, fun q hq => ?_, rfl,
      replicate_get 0, fun n i => ?_, replicate_get 0, rfl, replicate_get ({} : Acc), rfl, rfl,
      fun n => congrArg Queue.ents (replicate_get ({} : Queue) n), fun n => congrArg Flag.v (replicate_get ({} : Flag) n),
      replicate_get 0x22,
      fun n => ⟨congrArg StreamSt.st (replicate_get ({} : StreamSt) n), congrArg StreamSt.st (replicate_get ({} : StreamSt) n)⟩,
      replicate_get ({} : Group), rfl, replicate_get 0, rfl, rfl, rfl, rfl, replicate_get 0, rfl, rfl, rfl, rfl, rfl, rfl, rfl, rfl,
      rfl, rfl, rfl, rfl, rfl, rfl, rfl, fun n => ⟨replicate_get 0 n, replicate_get 0 n⟩,
      fun n => ⟨replicate_get 0 n, replicate_get 0 n⟩, fun n => ⟨replicate_get 0 n, replicate_get 0 n⟩, rfl, fun x hx => ?_,
      fun hold p hm => ?_⟩
    · rw [startBank_seq]; rfl
    · rw [startBank_started, decide_eq_false hq]
    · show ((Vector.replicate 32 (Vector.replicate 1024 0)).get n).get i = (0 : W32)
      rw [replicate_get, replicate_get]
    · show (s.ctxBlk r).get 1 = _ ∧ (s.ctxBlk r).get 2 = _ ∧ (s.ctxBlk r).get 3 + _ = _ ∧ (s.ctxBlk r).get 6 = _ ∧
        (s.ctxBlk r).get 7 = _
      rw [ctxBlk_of_some hx]
      exact ⟨rfl, rfl, rfl, rfl, rfl⟩
    · rw [hp] at hm
      exact startTask_ours (hold p hm)

end Sys2Proof.Machine
end

section
/-! PROOFS. Traps that instructions take, and `resume` (R75, R133-R135, R328). -/
namespace Sys2Proof.Machine

/-! ## Traps -/

theorem exec_trap_stops {f : RI} {s : State} (he : Enters (.trap f) s = true) :
    exec (.trap f) s = .next (s.stopped (.trap
      { cause := BitVec.ofNat 8 (fld f.imm 7 0), tag := BitVec.ofNat 18 (fld f.imm 17 8), sw := true })) :=
  issue_stops he (stops_throw _ s)

theorem exec_brk_stops {f : RI} {s : State} (he : Enters (.brk f) s = true) :
    exec (.brk f) s = .next (s.stopped (.trap { cause := cBreak, tag := f.imm })) :=
  issue_stops he (stops_throw _ s)

theorem exec_qmapWrite_stops {f : RI} {s : State} (he : Enters (.qmapWrite f) s = true) :
    exec (.qmapWrite f) s = .next (s.stopped (.trap { cause := cQueue })) :=
  issue_stops he (stops_throw _ s)

/-! ## Updates that keep the files of the sequencers -/

/-- Two sequencers agree in what a frame restores: the PC, the registers, the loop frames and WAITREM (R328). -/
def Seq.SameFile (x y : Seq) : Prop :=
  x.pc = y.pc ∧ x.s = y.s ∧ x.l = y.l ∧ x.frames = y.frames ∧ x.waitRem = y.waitRem

theorem Seq.SameFile.trans {x y z : Seq} (h : x.SameFile y) (h' : y.SameFile z) : x.SameFile z := by
  obtain ⟨a1, a2, a3, a4, a5⟩ := h
  obtain ⟨b1, b2, b3, b4, b5⟩ := h'
  exact ⟨a1.trans b1, a2.trans b2, a3.trans b3, a4.trans b4, a5.trans b5⟩

/-- Two banks agree but for what their sequencers have besides these. -/
def Bank.SameFiles (k k' : Bank) : Prop :=
  (∃ v, k' = { k with seqs := v }) ∧ ∀ q, (k'.seqs.get q).SameFile (k.seqs.get q)

theorem Bank.SameFiles.refl (k : Bank) : k.SameFiles k := ⟨⟨k.seqs, rfl⟩, fun _ => ⟨rfl, rfl, rfl, rfl, rfl⟩⟩

theorem Bank.SameFiles.modSeq {k k' : Bank} (h : k.SameFiles k') (q : SeqId) {f : Seq → Seq} (hf : ∀ x, (f x).SameFile x) :
    k.SameFiles (k'.modSeq q f) := by
  obtain ⟨⟨v, rfl⟩, hq⟩ := h
  refine ⟨⟨_, rfl⟩, fun p => ?_⟩
  rw [Bank.modSeq_get]
  split
  · exact (hf (v.get p)).trans (hq p)
  · exact hq p

/-! ## `resume` -/

/-- What a frame makes of a sequencer (R328). -/
def Seq.resumed (x : Seq) (q : SeqId) (ws : List W64) (born : Vector Nat 4) (armed : Option W64) : Seq :=
  let x := if q = 0 then { x.fromFrame ws born with ret := [], armed := armed } else x
  if x.started then
    { x with pc := ws.getD q.val 0, todo := if ws.getD q.val 0 = x.pc then x.todo else []
             line := if ws.getD q.val 0 = x.pc then x.line else none, stall := 1, obj := 0, objG := false,
             waitRem := if q = 2 then BitVec.ofNat 32 (fld (ws.getD 6 0) 31 0) else x.waitRem }
  else x

theorem resumeFrom_seq (k : Bank) (ws : List W64) (es : List XEnt) (level : Bool) (q : SeqId) :
    (k.resumeFrom ws es level).seqs.get q = (k.seqs.get q).resumed q ws k.bornSaved k.armedSaved := by
  unfold Bank.resumeFrom
  simp only [Vector.get_eq_getElem, Vector.getElem_ofFn]
  rfl

/-- A started sequencer goes on at the PC of the frame. -/
theorem resumed_pc {x : Seq} (h : x.started = true) (q : SeqId) (ws : List W64) (born : Vector Nat 4) (armed : Option W64) :
    (x.resumed q ws born armed).pc = ws.getD q.val 0 := by
  unfold Seq.resumed
  by_cases hq : q = 0
  · simp [hq, Seq.fromFrame, h]
  · simp [hq, h]

/-- X goes on with the WAITREM of the frame. -/
theorem resumed_waitRem {x : Seq} (h : x.started = true) (ws : List W64) (born : Vector Nat 4) (armed : Option W64) :
    (x.resumed 2 ws born armed).waitRem = BitVec.ofNat 32 (fld (ws.getD 6 0) 31 0) := by
  unfold Seq.resumed
  simp [h]

/-- C has the registers and loop frames of the frame, started or not. -/
theorem resumed_file (x : Seq) (ws : List W64) (born : Vector Nat 4) (armed : Option W64) :
    let y := x.resumed 0 ws born armed
    let z := x.fromFrame ws born
    y.s = z.s ∧ y.l = z.l ∧ y.frames = z.frames := by
  unfold Seq.resumed
  simp only [if_true]
  split <;> exact ⟨rfl, rfl, rfl⟩

theorem fromFrame_l (x : Seq) (ws : List W64) (born : Vector Nat 4) (n : Fin 4) :
    (x.fromFrame ws born).l.get n = BitVec.ofNat 32 ((ws.getD (40 + n.val / 2) 0).toNat / 2 ^ (32 * (n.val % 2))) := by
  unfold Seq.fromFrame
  simp only [Vector.get_eq_getElem, Vector.getElem_ofFn]

/-- The words of a frame that hold a loop frame of C (R325). -/
theorem fromFrame_frames (x : Seq) (ws : List W64) (born : Vector Nat 4) (n : Fin 4) :
    (x.fromFrame ws born).frames.get n =
      { active := (ws.getD (45 + 4 * n.val) 0).getLsbD 0, start := ws.getD (42 + 4 * n.val) 0, stop := ws.getD (43 + 4 * n.val) 0
        count := (ws.getD (44 + 4 * n.val) 0).setWidth 32, born := born.get n } := by
  unfold Seq.fromFrame
  simp only [Vector.get_eq_getElem, Vector.getElem_ofFn, Nat.add_right_comm]

/-- The bank that `resume` leaves (R328): what the frame says, no fault, and its sequencers issue from the next cycle. -/
def Bank.resumedAt (k : Bank) (ws : List W64) (es : List XEnt) (now : Nat) : Bank :=
  { k.resumeFrom ws es false with
    fault := none, seqs := (k.resumeFrom ws es false).seqs.map fun q => { q with last := now + 1 } }

theorem isVector_resume (f : RRR) : isVector (.resume f) = false := by
  have hw : wMaj (f.enc 0x63 0) = 0x63 := RRR.enc_maj 0x63 0 f
  show (0x30 ≤ (wMaj (f.enc 0x63 0)).toNat && (wMaj (f.enc 0x63 0)).toNat ≤ 0x3A) = false
  rw [hw]
  rfl

/-- A scalar instruction that stays where it is leaves nothing to advance (R132, R328). -/
theorem follows_stay {i : Instr} (h : isVector i = false) (st : Nat) (s : State) : Follows i (.stay st) s s := by
  unfold Follows advance
  refine runs_bind (runs_get s) ?_
  simp only [h, Bool.not_true, Bool.and_false, Bool.false_eq_true, if_false, reduceCtorEq, decide_false, Bool.false_and]
  exact runs_bind (runs_set _ _) (runs_pure _ _)

/-- The state in which the body of `resume` ends. -/
def State.resumed (s : State) (ws : List W64) (es : List XEnt) : State :=
  (s.modBank s.cur fun k => k.resumedAt ws es s.now).modSeq s.cur fun q => { q with steps := q.steps.map (· - 1) }

/-- The end of `resume`, once its frame at `pa` has been read, for a bank `k` as it stood (R135, R328). -/
def resumeRead (k : Bank) (pa : Nat) (r : List Byte × State) : Act Flow := do
  set r.2
  match frameOk k (r.2.frameRead pa r.1) false with
  | none => raise cAccess
  | some es => do
    set (r.2.resumed (r.2.frameRead pa r.1) es)
    pure (.stay 1)

theorem runs_resumeRead {k : Bank} {pa : Nat} {r : List Byte × State} {es : List XEnt}
    (hf : frameOk k (r.2.frameRead pa r.1) false = some es) (s : State) :
    Runs (resumeRead k pa r) s (.stay 1) (r.2.resumed (r.2.frameRead pa r.1) es) := by
  refine runs_bind (runs_set _ _) ?_
  rw [hf]
  exact runs_bind (runs_set _ _) (runs_pure _ _)

/-- `resume` issues and ends where its frame has put the bank (R135): nothing is moved past it, and only its STATE is noted. -/
theorem exec_resume_done {f : RRR} {s s1 s2 s3 : State} {pa : Nat} {r : List Byte × State} {es : List XEnt}
    (he : Enters (.resume f) s = true)
    (hs : Runs (sources none [f.a] []) s [(s1.bank s1.cur).tfbase] s1) (hq : s1.quietSeq s1.cur = true)
    (ht : Runs (translate (s1.bank s1.cur).tfbase 0) s1 pa s2) (hst : s2.stalledHome pa = false)
    (hc : s2.carries (dieOf s2.cur.c) (homeDie pa) pa = true)
    (hn : Runs (if s2.poisoned pa 2304 then noteUnc pa else pure ()) s2 () s3) (hb : s3.loadBytes s3.cur.agent pa 2304 = r)
    (hf : frameOk (s1.bank s1.cur) (r.2.frameRead pa r.1) false = some es) :
    exec (.resume f) s = .next ((r.2.resumed (r.2.frameRead pa r.1) es).done (.stay 1)) := by
  have hr : Runs (do
      let s ← get
      resumeRead (s1.bank s1.cur) pa (s.loadBytes s.cur.agent pa 2304)) s3 (.stay 1) (r.2.resumed (r.2.frameRead pa r.1) es) := by
    refine runs_bind (runs_get s3) ?_
    rw [hb]
    exact runs_resumeRead hf _
  refine issue_done he (runs_bind hs (runs_bind (runs_get s1) (runs_bind (runs_need (by simp [nthV])) (runs_bind (runs_needQuiet hq)
    (runs_bind ht (runs_bind (runs_get s2) ?_)))))) (follows_stay (isVector_resume f) _ _)
  simp only [hst, hc, Bool.not_true, Bool.or_self, Bool.false_eq_true, if_false]
  by_cases hp : s2.poisoned pa 2304 = true
  · rw [if_pos hp] at hn ⊢
    exact runs_bind hn hr
  · rw [if_neg hp] at hn ⊢
    cases hn
    exact hr

/-! ## What `resume` restores -/

/-- What the end of the turn adds to the bank is no part of what a frame restores. -/
theorem resumed_done_bank (s : State) (ws : List W64) (es : List XEnt) :
    ((s.bank s.cur).resumedAt ws es s.now).SameFiles (((s.resumed ws es).done (.stay 1)).bank s.cur) := by
  have h1 : (s.resumed ws es).bank s.cur =
      ((s.bank s.cur).resumedAt ws es s.now).modSeq s.cur.q fun q => { q with steps := q.steps.map (· - 1) } := by
    unfold State.resumed
    rw [State.modSeq_bank, if_pos ⟨rfl, rfl⟩, State.modBank_bank_self]
  have hb : ((s.bank s.cur).resumedAt ws es s.now).SameFiles ((s.resumed ws es).bank s.cur) := by
    rw [h1]
    exact (Bank.SameFiles.refl _).modSeq _ fun x => ⟨rfl, rfl, rfl, rfl, rfl⟩
  show Bank.SameFiles _ (((s.resumed ws es).issued s.cur (.stay 1)).bank s.cur)
  unfold State.issued
  split
  · exact hb
  · show Bank.SameFiles _ (((s.resumed ws es).modSeq s.cur _).bank s.cur)
    rw [State.modSeq_bank, if_pos ⟨rfl, rfl⟩]
    exact hb.modSeq _ fun x => ⟨rfl, rfl, rfl, rfl, rfl⟩

/-- A sequencer of the bank that `resume` leaves, in what a frame restores. -/
theorem resumedAt_seq (k : Bank) (ws : List W64) (es : List XEnt) (now : Nat) (q : SeqId) :
    ((k.resumedAt ws es now).seqs.get q).SameFile ((k.seqs.get q).resumed q ws k.bornSaved k.armedSaved) := by
  rw [← resumeFrom_seq k ws es false]
  unfold Bank.resumedAt
  simp only [Vector.get_eq_getElem, Vector.getElem_map]
  exact ⟨rfl, rfl, rfl, rfl, rfl⟩

section
variable {k k' : Bank} {ws : List W64} {es : List XEnt} {now : Nat} (h : (k.resumedAt ws es now).SameFiles k')
include h

/-- What a frame sets in the bank itself (R328). -/
theorem restored_bank : k'.level = false ∧ k'.frozen = false ∧ k'.fault = none ∧ k'.cfs = (ws.getD 58 0).setWidth 5 ∧
    k'.xpend = es ∧ k'.replay = [] := by
  obtain ⟨⟨seqs, rfl⟩, -⟩ := h
  exact ⟨rfl, rfl, rfl, rfl, rfl, rfl⟩

theorem restored_seq (q : SeqId) : (k'.seqs.get q).SameFile ((k.seqs.get q).resumed q ws k.bornSaved k.armedSaved) :=
  (h.2 q).trans (resumedAt_seq k ws es now q)

/-- What it sets in C. -/
theorem restored_file :
    (k'.seqs.get 0).s = (Vector.ofFn fun n => if n = 0 then 0 else ws.getD (8 + n.val) 0) ∧
    (∀ n : Fin 4, (k'.seqs.get 0).l.get n =
      BitVec.ofNat 32 ((ws.getD (40 + n.val / 2) 0).toNat / 2 ^ (32 * (n.val % 2)))) ∧
    ∀ n : Fin 4, (k'.seqs.get 0).frames.get n =
      { active := (ws.getD (45 + 4 * n.val) 0).getLsbD 0, start := ws.getD (42 + 4 * n.val) 0, stop := ws.getD (43 + 4 * n.val) 0
        count := (ws.getD (44 + 4 * n.val) 0).setWidth 32, born := k.bornSaved.get n } := by
  obtain ⟨-, hs, hl, hf, -⟩ := restored_seq h 0
  obtain ⟨rs, rl, rf⟩ := resumed_file (k.seqs.get 0) ws k.bornSaved k.armedSaved
  refine ⟨hs.trans rs, fun n => ?_, fun n => ?_⟩
  · rw [hl, rl, fromFrame_l]
  · rw [hf, rf, fromFrame_frames]

/-- What it sets in every started sequencer. -/
theorem restored_started : (∀ q, (k.seqs.get q).started = true → (k'.seqs.get q).pc = ws.getD q.val 0) ∧
    ((k.seqs.get 2).started = true → (k'.seqs.get 2).waitRem = BitVec.ofNat 32 (fld (ws.getD 6 0) 31 0)) := by
  refine ⟨fun q hst => ?_, fun hst => ?_⟩
  · obtain ⟨hpc, -⟩ := restored_seq h q
    rw [hpc, resumed_pc hst]
  · obtain ⟨-, -, -, -, hw⟩ := restored_seq h 2
    rw [hw, resumed_waitRem hst]
end

/-- Settles O13: the traps by the stops of their bodies, `resume` by the bank that its frame makes. -/
theorem trapsAndResumeComplete : Obligations.TrapsAndResumeComplete := by
  unfold Obligations.TrapsAndResumeComplete
  refine ⟨fun f s => exec_trap_stops, fun f s => exec_brk_stops, fun f s => exec_qmapWrite_stops, ?_⟩
  intro f s v s1 pa s2 s3 es he hs hv hq ht hst hc hn
  rw [hv] at hs
  generalize hb : s3.loadBytes s3.cur.agent pa 2304 = r
  intro r' ws hf
  refine ⟨_, exec_resume_done he hs hq ht hst hc hn hb hf, ?_⟩
  have hfiles := resumed_done_bank r.2 ws es
  generalize ((r.2.resumed ws es).done (.stay 1)).bank r.2.cur = k at hfiles ⊢
  obtain ⟨level, frozen, fault, cfs, xpend, replay⟩ := restored_bank hfiles
  obtain ⟨hs, hl, hfr⟩ := restored_file hfiles
  obtain ⟨hpc, hw⟩ := restored_started hfiles
  refine ⟨level, frozen, fault, cfs, xpend, replay, hs, hpc, hl, fun n => ?_, hw⟩
  intro x
  have hx : x = _ := hfr n
  rw [hx]
  exact ⟨rfl, rfl, rfl, rfl⟩

end Sys2Proof.Machine
end

section
/-! PROOFS. Words and instructions: what a word decodes to encodes to it again, and the bytes of an instruction decode to it (R3, R84-R86,
R90, R91). -/
namespace Sys2Proof
open BitVec (extractLsb'_append_extractLsb'_eq_extractLsb' extractLsb'_eq_self)

/-! ## The fields of a word make it up -/

/-- The L bit is bit 24 of a word that has an extension word exactly when it says so. -/
theorem lbit_of_long {w : W32} {e : Option W32} (hl : e.isSome = wLong w) : lbit e = w.extractLsb' 24 1 := by
  refine BitVec.eq_of_getLsbD_eq fun n hn => ?_
  obtain rfl : n = 0 := by omega
  rw [lbit_getLsbD, hl, wLong, BitVec.getLsbD_extractLsb']
  rfl

section
variable {w : W32} {e : Option W32} {maj : BitVec 7} (hl : e.isSome = wLong w) (hm : (wMaj w).toNat = maj.toNat)
include hl hm

theorem RRR.enc_dec {fn : BitVec 6} (hf : (w.extractLsb' 18 6).toNat = fn.toNat) : (RRR.dec w e).enc maj fn = w := by
  rw [← BitVec.eq_of_toNat_eq hm, ← BitVec.eq_of_toNat_eq hf, RRR.enc, RRR.dec, lbit_of_long hl, wMaj]
  simp only [extractLsb'_append_extractLsb'_eq_extractLsb', extractLsb'_eq_self]

theorem RRI.enc_dec {fn : BitVec 3} (hf : (w.extractLsb' 21 3).toNat = fn.toNat) : (RRI.dec w e).enc maj fn = w := by
  rw [← BitVec.eq_of_toNat_eq hm, ← BitVec.eq_of_toNat_eq hf, RRI.enc, RRI.dec, lbit_of_long hl, wMaj]
  simp only [extractLsb'_append_extractLsb'_eq_extractLsb', extractLsb'_eq_self]

theorem RI.enc_dec : (RI.dec w e).enc maj = w := by
  rw [← BitVec.eq_of_toNat_eq hm, RI.enc, RI.dec, lbit_of_long hl, wMaj]
  simp only [extractLsb'_append_extractLsb'_eq_extractLsb', extractLsb'_eq_self]

theorem BR.enc_dec : (BR.dec w e).enc maj = w := by
  rw [← BitVec.eq_of_toNat_eq hm, BR.enc, BR.dec, lbit_of_long hl, wMaj]
  simp only [extractLsb'_append_extractLsb'_eq_extractLsb', extractLsb'_eq_self]

theorem FV.enc_dec {fn : BitVec 5} (hf : (w.extractLsb' 19 5).toNat = fn.toNat) : (FV.dec w e).enc maj fn = w := by
  rw [← BitVec.eq_of_toNat_eq hm, ← BitVec.eq_of_toNat_eq hf, FV.enc, FV.dec, lbit_of_long hl, wMaj]
  simp only [extractLsb'_append_extractLsb'_eq_extractLsb', extractLsb'_eq_self]

theorem FQ.enc_dec {fn : BitVec 4} (hf : (w.extractLsb' 20 4).toNat = fn.toNat) : (FQ.dec w e).enc maj fn = w := by
  rw [← BitVec.eq_of_toNat_eq hm, ← BitVec.eq_of_toNat_eq hf, FQ.enc, FQ.dec, lbit_of_long hl, wMaj]
  simp only [extractLsb'_append_extractLsb'_eq_extractLsb', extractLsb'_eq_self]

theorem FM.enc_dec {fn : BitVec 4} (hf : (w.extractLsb' 20 4).toNat = fn.toNat) : (FM.dec w e).enc maj fn = w := by
  rw [← BitVec.eq_of_toNat_eq hm, ← BitVec.eq_of_toNat_eq hf, FM.enc, FM.dec, lbit_of_long hl, wMaj]
  simp only [extractLsb'_append_extractLsb'_eq_extractLsb', extractLsb'_eq_self]
end

/-! ## From a word to its instruction and back -/

/-- An instruction's words are these. -/
def Instr.HasWords (i : Instr) (w : W32) (e : Option W32) : Prop := encodeWord i = some w ∧ i.ext = e

section
variable {w : W32} {e : Option W32} (hl : e.isSome = wLong w)
include hl

/-- The words of `csrr` are those of its row for every register. -/
theorem csrRead_hasWords (hm : (wMaj w).toNat = 0x60) : (csrRead (.dec w e)).HasWords w e := by
  have hw : (RI.dec w e).enc 0x60 = w := RI.enc_dec hl hm
  unfold csrRead
  split
  · exact ⟨congrArg some hw, rfl⟩
  · exact ⟨congrArg some hw, rfl⟩

/-- The words of `csrw` are those of its row for every register. -/
theorem csrWrite_hasWords (hm : (wMaj w).toNat = 0x61) : (csrWrite (.dec w e)).HasWords w e := by
  have hw : (RI.dec w e).enc 0x61 = w := RI.enc_dec hl hm
  unfold csrWrite
  extract_lets n
  split_ifs
  all_goals exact ⟨congrArg some hw, rfl⟩
end

/-- A function that is assigned reads an instruction. -/
theorem some_of_ok {o : Option Instr} {x : DecodeError} {i : Instr}
    (h : (match o with | some j => Except.ok j | none => .error x) = .ok i) : o = some i := by
  cases o with
  | none => cases h
  | some j => cases h; rfl

/-- What check 1 of R90 reads from a word and its extension has these two words: the majors by their forms. The cases are
numbered as the majors stand in `decodeRaw`. -/
theorem hasWords_of_decodeRaw {w : W32} {e : Option W32} {i : Instr} (hl : e.isSome = wLong w) (h : decodeRaw w e = .ok i) :
    i.HasWords w e := by
  unfold decodeRaw at h
  dsimp only at h
  split at h
  -- the all-zero word is `nop`
  case h_1 =>
    split at h
    next hz =>
      obtain ⟨rfl, rfl⟩ := hz
      cases h
      exact ⟨rfl, rfl⟩
    next => cases h
  case h_67 => cases h
  -- F-RI
  case h_4 | h_5 | h_12 | h_60 | h_66 =>
    cases h
    exact ⟨congrArg some (RI.enc_dec hl ‹_›), rfl⟩
  case h_58 hm =>
    cases h
    exact csrRead_hasWords hl hm
  case h_59 hm =>
    cases h
    exact csrWrite_hasWords hl hm
  -- every other form has functions
  all_goals replace h := some_of_ok h
  -- F-RRR
  case h_2 | h_6 | h_7 | h_15 | h_16 | h_20 | h_23 | h_25 | h_26 | h_28 | h_49 | h_50 | h_51 | h_52 | h_61 | h_62 | h_63 | h_64
      | h_65 =>
    simp only [dec01, dec05, dec06, dec12, dec13, dec17, dec22, dec24, dec25, dec27, dec47, dec48, dec49, dec4A, dec63, dec64, dec65,
      dec66, dec67] at h
    split at h <;> cases h
    all_goals exact ⟨congrArg some (RRR.enc_dec hl ‹_› ‹_›), rfl⟩
  -- F-RRI
  case h_3 | h_13 | h_14 | h_17 | h_18 | h_24 | h_29 =>
    simp only [dec02, dec10, dec11, dec14, dec15, dec23, dec28] at h
    split at h <;> cases h
    all_goals exact ⟨congrArg some (RRI.enc_dec hl ‹_› ‹_›), rfl⟩
  -- F-BR, whose function is a field of its own
  case h_8 | h_9 | h_10 | h_11 =>
    simp only [dec08, dec09, dec0A, dec0B] at h
    split at h <;> cases h
    all_goals exact ⟨congrArg some (BR.enc_dec hl ‹_›), rfl⟩
  -- F-Q
  case h_19 | h_21 | h_22 | h_27 | h_30 | h_53 | h_54 | h_55 | h_56 | h_57 =>
    simp only [dec16, dec20, dec21, dec26, dec29, dec50, dec51, dec52, dec53, dec54] at h
    split at h <;> cases h
    all_goals exact ⟨congrArg some (FQ.enc_dec hl ‹_› ‹_›), rfl⟩
  -- F-V, and its axis operations
  case h_31 | h_32 | h_33 | h_34 | h_35 | h_36 | h_38 | h_39 | h_40 | h_41 =>
    simp only [dec30, dec31, dec32, dec33, dec34, dec35, dec37, dec38, dec39, dec3A] at h
    split at h <;> cases h
    all_goals exact ⟨congrArg some (FV.enc_dec hl ‹_› ‹_›), rfl⟩
  case h_37 =>
    simp only [dec36] at h
    split at h <;> cases h
    all_goals split <;> exact ⟨congrArg some (FV.enc_dec hl ‹_› ‹_›), rfl⟩
  -- F-M
  case h_42 | h_43 | h_44 | h_45 | h_46 | h_47 | h_48 =>
    simp only [dec40, dec41, dec42, dec43, dec44, dec45, dec46] at h
    split at h <;> cases h
    all_goals exact ⟨congrArg some (FM.enc_dec hl ‹_› ‹_›), rfl⟩

/-! ## From an instruction to its words and back -/

section
open Laws.Encoding

/-- Each constructor has its own law of encoding. -/
theorem encoding_statement (i : Instr) : Statement i :=
  Instr.casesOn (motive := Statement) i
    nop add sub and or xor shl shr sra mul mulh min max div addi andi ori xori shli shri srai muli li lcat seq sne slt sltu
    sle sleu csel clz ctz popc fadd fsub fmul fmad fmin fmax ftoi itof flt br brz brnz brlt brge brle brgt call ret jmp loop
    bqnz bqz wait ld8 ld16 ld32 ld64 ld8s ld16s ld32s st8 st16 st32 st64 amoadd amoswp amocas amoand amoor amoxor fenceCore
    fenceClu fenceDie fenceMod fenceSpan efence farm fpost fdec fread fwait bar qpush qpop qpeek qstat qcfg spawn tstart join
    yield exit sbind sstop sstat gather gatherq copy copyf copy2d wload rcfill rcclose rcquery shload shext ldq ldrow actBind
    actMark actClear actList actCount prefetch gwait gstat vadd vsub vmul vfma vfms vmin vmax vabs vneg viadd visub vimul
    viand vior vixor vishl vishr vceq vclt vcle viceq vilt vsel vmov vsplat vquant vdequant vftoi vitof vexp2 vexp2d vlog2
    vrcpSeed vrsqSeed vrotr vrotc vbcastr vbcastc vredr vredc vscanr vscanc mand mor mxor mandn vany vall mpop vflag vflagclr
    vpop vpush vget vput exposedWriteLand mmul mswap mrank mzero mread mclose mwait mstat fmtw fmtr aecfg aerun aeread strow
    stword scatter strc rstore ratom obind ostop csrr csrw cwinWrite qmapWrite flogdatRead wsrangeWrite pfblockWrite wpcWrite
    trap resume tlbinv icinv rqrd rqwr pgmap pgdone brk illegalInstruction impreciseTrap registerWriteLand stepCountExpire
    tbskewMeasure fetchLineArrive parkedRelease drain apply deliver copyEngineStart streamElementPush gatherRowDeliver
    copyComplete followonPlace matrixCmdStart matrixRowPop matrixContributionLand matrixOpComplete wloadComplete
    ostreamElementWrite lamplighterApply aeRunStart aeRunComplete combineFlushTimeout remoteAck ratomReply remoteRequestArrive
    peerLaunch flitReceive nakReceive ackOnlyFlit laneFailure retrainComplete requestGiveUp holderFenceTimeout liveLineEvict
    fillStallResume countedFullTimeout parityRepair dispatch bankActivate killComplete preemptCheckpoint saveCommit restore
    workSteal streamTlbPrefetch unitFence selftestComplete engineWindowReplay scrubAtom scanStart scanComplete clampChange
    powerReportDeferred holdupBankLow inputPowerLoss lossSaveTasks lossWriteBack lossStoreState lossStoreHbm lossCommit
    lossOff moduleReset hictlWrite cqbellWrite eqackWrite hostRegWrite eventWrite cmdNop launch ctxcreate ctxteardown aclwrite
    schedparam pageanswer shootdown pagerelease gangwrite savefclear relparam selftest retire powerstate ckptarm ckptrestore
    ckptdiscard attest fwstage dbgclaim dbgstop dbgstep dbgresume dbgpatch dbgregw ewtwrite profblock tracecfg peerskew
    holdupBankExhausted
end

theorem takeW32_bytesW32 (w : W32) (rest : List Byte) : takeW32 (bytesW32 w ++ rest) = some (w, rest) := by
  have hw : w.extractLsb' 24 8 ++ w.extractLsb' 16 8 ++ w.extractLsb' 8 8 ++ w.extractLsb' 0 8 = w := by
    simp only [extractLsb'_append_extractLsb'_eq_extractLsb', extractLsb'_eq_self]
  exact congrArg (fun x => some (x, rest)) hw

/-- The bytes of a word, and of its extension where its L bit asks for one, are read as those words, whatever follows. -/
theorem decode_bytes {w : W32} {e : Option W32} (hl : wLong w = e.isSome) (rest : List Byte) :
    decode ((w :: e.toList).flatMap bytesW32 ++ rest) = (decodeWord w e).map (·, rest) := by
  rw [List.flatMap_cons, List.append_assoc, decode, takeW32_bytesW32]
  cases e with
  | none => simp [hl]
  | some e => simp [hl, takeW32_bytesW32]

/-- The bytes of a well-formed instruction decode to it, whatever follows them. -/
theorem decode_encodeBytes {i : Instr} (hw : i.wf = true) (he : (encodeWord i).isSome = true) (rest : List Byte) :
    decode (encodeBytes i ++ rest) = .ok (i, rest) := by
  obtain ⟨w, hi⟩ := Option.isSome_iff_exists.1 he
  obtain ⟨hl, hr⟩ := encoding_statement i hw w hi
  have hd : decodeWord w i.ext = .ok i := by rw [decodeWord, hr]; exact if_pos hw
  rw [encodeBytes, encode, hi]
  exact (decode_bytes hl rest).trans (by rw [hd]; rfl)

/-- A word that passes checks 1 and 2 of R90 passes the first. -/
theorem decodeRaw_of_decodeWord {w : W32} {e : Option W32} {i : Instr} (h : decodeWord w e = .ok i) : decodeRaw w e = .ok i := by
  unfold decodeWord at h
  split at h
  · cases h
  · split at h
    · cases h
      assumption
    · cases h

/-- Settles O47: the bytes by the laws of encoding of each instruction, the words by the forms of the majors. -/
theorem decodeEncode : Obligations.DecodeEncode := by
  unfold Obligations.DecodeEncode
  exact ⟨fun i rest hw he => decode_encodeBytes hw he rest,
    fun w e i hl h => hasWords_of_decodeRaw hl (decodeRaw_of_decodeWord h)⟩

/-- Settles O46: the decoder is run on each word. -/
theorem wordsDecode : Obligations.WordsDecode := by
  unfold Obligations.WordsDecode
  decide


end Sys2Proof
end
section
/-! PROOFS. The checks of R90 in their order, with the limits on run-time operands among them (R117, R119). -/
namespace Sys2Proof.Machine

/-! ## Limits raise IllegalInstruction alone -/

/-- An operation changes nothing, and all that it can raise is IllegalInstruction. -/
def OnlyIllegal (a : Act Unit) (s : State) : Prop :=
  Runs a s () s ∨ ∃ t : TrapInfo, t.cause = cIllegal ∧ Stops a s (.trap t)

theorem onlyIllegal_pure (s : State) : OnlyIllegal (pure ()) s := .inl (runs_pure _ _)

theorem onlyIllegal_need (b : Bool) (s : State) : OnlyIllegal (need b cIllegal) s := by
  cases b with
  | true => exact .inl (runs_need rfl)
  | false => exact .inr ⟨_, rfl, stops_need rfl⟩

theorem onlyIllegal_illegalFirst (x : Act Unit) (s : State) : OnlyIllegal (illegalFirst x) s := by
  unfold OnlyIllegal Runs Stops illegalFirst StateT.run
  beta_reduce
  split
  · split
    · exact .inr ⟨_, ‹_›, rfl⟩
    · exact .inl rfl
  · exact .inl rfl

theorem onlyIllegal_bind {a b : Act Unit} {s : State} (ha : OnlyIllegal a s) (hb : OnlyIllegal b s) :
    OnlyIllegal (a >>= fun _ => b) s := by
  rcases ha with ha | ⟨t, ht, ha⟩
  · rcases hb with hb | ⟨t, ht, hb⟩
    · exact .inl (runs_bind ha hb)
    · exact .inr ⟨t, ht, stops_bind_of_runs ha hb⟩
  · exact .inr ⟨t, ht, stops_bind ha⟩

/-- Limits that look at the state. -/
theorem onlyIllegal_get {f : State → Act Unit} {s : State} (h : OnlyIllegal (f s) s) : OnlyIllegal (get >>= f) s := by
  rcases h with h | ⟨t, ht, h⟩
  · exact .inl (runs_bind (runs_get s) h)
  · exact .inr ⟨t, ht, stops_bind_of_runs (runs_get s) h⟩

theorem onlyIllegal_ite {c : Prop} [Decidable c] {a b : Act Unit} {s : State} (ha : OnlyIllegal a s) (hb : OnlyIllegal b s) :
    OnlyIllegal (if c then a else b) s := by
  split
  · exact ha
  · exact hb

theorem onlyIllegal_limits (e : Option W32) (fs : List (BitVec 6)) (ok : List W64 → Bool) (s : State) :
    OnlyIllegal (limits e fs ok) s := onlyIllegal_illegalFirst _ s

theorem onlyIllegal_limitAB (f : RRR) (ok : W64 → W64 → Bool) (s : State) : OnlyIllegal (limitAB f ok) s := by
  unfold limitAB
  split
  · exact onlyIllegal_limits _ _ _ s
  · exact onlyIllegal_limits _ _ _ s

theorem onlyIllegal_limits3 (f : RRR) (ok : W64 → W64 → W64 → Bool) (s : State) : OnlyIllegal (limits3 f ok) s := by
  unfold limits3
  split
  · exact onlyIllegal_limits _ _ _ s
  · exact onlyIllegal_limits _ _ _ s

theorem onlyIllegal_barLimits (f : RRI) (s : State) : OnlyIllegal (barLimits f) s :=
  onlyIllegal_get (onlyIllegal_ite (onlyIllegal_limits _ _ _ s) (onlyIllegal_pure s))

theorem onlyIllegal_csrLimits (f : RI) (write : Bool) (s : State) : OnlyIllegal (csrLimits f write) s :=
  onlyIllegal_bind (onlyIllegal_need _ s) (onlyIllegal_ite (onlyIllegal_limits _ _ _ s) (onlyIllegal_pure s))

theorem onlyIllegal_fillLimits (f : RRR) (s : State) : OnlyIllegal (firstTurn (fillLimits f)) s := by
  refine onlyIllegal_get (onlyIllegal_ite (onlyIllegal_pure s) ?_)
  unfold fillLimits
  split
  · exact onlyIllegal_need _ s
  · exact onlyIllegal_limits _ _ _ s

/-! ## The checks at issue -/

/-- An answer to an instruction that fails a check of R90 is the trap of the first that it fails; IllegalInstruction may come in place
of the other two where the instruction has limits on run-time operands. -/
def StopsInOrder (i : Instr) (s : State) (o : Out) : Prop :=
  let limited : Prop := hasLimits i = true ∧ ∃ t : TrapInfo, t.cause = cIllegal ∧ o = .next (s.stopped (.trap t))
  (i.wf = false → o = .next (s.stopped (.trap { cause := cIllegal }))) ∧
  (i.wf = true → i.home.contains s.cur.q = false → limited ∨ o = .next (s.stopped (.trap { cause := cNotThis }))) ∧
  (i.wf = true → i.home.contains s.cur.q = true → isPrivileged i = true → (s.bank s.cur).level = false →
    limited ∨ o = .next (s.stopped (.trap { cause := cPrivileged })))

section
variable {i : Instr} {s : State}

theorem stops_entryChecks_wf (hw : i.wf = false) : Stops (entryChecks i) s (.trap { cause := cIllegal }) :=
  stops_bind (stops_need hw)

theorem stops_entryChecks_home (hw : i.wf = true) (hh : i.home.contains s.cur.q = false) :
    Stops (entryChecks i) s (.trap { cause := cNotThis }) :=
  stops_bind_of_runs (runs_need hw) (stops_bind_of_runs (runs_get s) (stops_bind (stops_need hh)))

theorem stops_entryChecks_level (hw : i.wf = true) (hh : i.home.contains s.cur.q = true) (hp : isPrivileged i = true)
    (hl : (s.bank s.cur).level = false) : Stops (entryChecks i) s (.trap { cause := cPrivileged }) :=
  stops_bind_of_runs (runs_need hw) (stops_bind_of_runs (runs_get s) (stops_bind_of_runs (runs_need hh)
    (stops_need (by rw [hp, hl]; rfl))))

/-- What the first checks of an instruction raise, its issue raises, unless its limits raise IllegalInstruction first. -/
theorem issueLim_checks {lim : Act Unit} {body : Act Flow} {x : Stop} (hw : i.wf = true) (hlim : OnlyIllegal lim s)
    (hx : Stops (entryChecks i) s x) :
    (∃ t : TrapInfo, t.cause = cIllegal ∧ issueLim i s lim body = .next (s.stopped (.trap t))) ∨
      issueLim i s lim body = .next (s.stopped x) := by
  rcases hlim with hr | ⟨t, ht, hs⟩
  · exact .inr (outcome_stops (stops_bind_of_runs (runs_need hw) (stops_bind_of_runs hr (stops_bind hx))))
  · exact .inl ⟨t, ht, outcome_stops (stops_bind_of_runs (runs_need hw) (stops_bind hs))⟩

/-- An instruction that issues with limits. -/
theorem stopsInOrder_issueLim {lim : Act Unit} {body : Act Flow} (hi : hasLimits i = true) (hlim : OnlyIllegal lim s) :
    StopsInOrder i s (issueLim i s lim body) := by
  refine ⟨fun hw => outcome_stops (stops_bind (stops_need hw)), fun hw hh => ?_, fun hw hh hp hl => ?_⟩
  · exact (issueLim_checks hw hlim (stops_entryChecks_home hw hh)).imp_left (⟨hi, ·⟩)
  · exact (issueLim_checks hw hlim (stops_entryChecks_level hw hh hp hl)).imp_left (⟨hi, ·⟩)

/-- An answer that is the stop of the first checks. -/
theorem stopsInOrder_of_checks {o : Out} (h : ∀ x, Stops (entryChecks i) s x → o = .next (s.stopped x)) : StopsInOrder i s o :=
  ⟨fun hw => h _ (stops_entryChecks_wf hw), fun hw hh => .inr (h _ (stops_entryChecks_home hw hh)),
    fun hw hh hp hl => .inr (h _ (stops_entryChecks_level hw hh hp hl))⟩

/-- An instruction that issues without limits. -/
theorem stopsInOrder_issue {body : Act Flow} : StopsInOrder i s (issue i s body) := by
  refine stopsInOrder_of_checks fun x hx => ?_
  cases hw : i.wf with
  | false =>
    have hx' : Except.error (.trap { cause := cIllegal }) = Except.error x := (stops_entryChecks_wf hw).symm.trans hx
    cases hx'
    exact outcome_stops (stops_bind (stops_need hw))
  | true => exact outcome_stops (stops_bind_of_runs (runs_need hw) (stops_bind_of_runs (runs_pure _ _) (stops_bind hx)))

/-- `efence` makes its first checks before it waits (R124). -/
theorem stopsInOrder_execEfence (f : RRR) : StopsInOrder (.efence f) s (execEfence f s) := by
  refine stopsInOrder_of_checks fun x hx => ?_
  have h : Stops (do entryChecks (.efence f); needQuiet : Act Unit) s x := stops_bind hx
  unfold Stops at h
  rw [execEfence, h]
end

/-! ## The instructions -/

/-- Every encoded instruction makes the checks of R90 first; those with limits name the lemma of their limits. `exec` is opened before
the cases, so that each meets its own meaning. -/
theorem exec_stopsInOrder (i : Instr) (s : State) (he : isEvent i = false) (hi : ∀ w, i ≠ .illegalInstruction w) :
    StopsInOrder i s (exec i s) := by
  delta exec
  cases i with
  -- limits that see the state, or that an immediate may set
  | bar f => exact stopsInOrder_issueLim rfl (onlyIllegal_barLimits f s)
  | rcfill f => exact stopsInOrder_issueLim rfl (onlyIllegal_fillLimits f s)
  | csrr f => exact stopsInOrder_issueLim rfl (onlyIllegal_csrLimits f false s)
  | csrw f | cwinWrite f | wsrangeWrite f | wpcWrite f => exact stopsInOrder_issueLim rfl (onlyIllegal_csrLimits f true s)
  | tstart f => exact stopsInOrder_issueLim rfl (onlyIllegal_get (onlyIllegal_limitAB f _ s))
  | join f | rcclose f | fmtw f => exact stopsInOrder_issueLim rfl (onlyIllegal_limitAB f _ s)
  | actBind f | actMark f | actClear f => exact stopsInOrder_issueLim rfl (onlyIllegal_limits3 f _ s)
  | vquant f | vdequant f | mmul f | mrank f | aerun f =>
    exact stopsInOrder_issueLim rfl (onlyIllegal_get (onlyIllegal_need _ s))
  -- limits of operands, and of descriptors that operands name
  | tlbinv f | icinv f | rqrd f | rqwr f | pgmap f | copy f | copyf f | copy2d f | wload f | sbind f | obind f | gather f | gatherq f
  | aecfg f =>
    exact stopsInOrder_issueLim rfl (onlyIllegal_illegalFirst _ s)
  | efence f => exact stopsInOrder_execEfence f
  -- no limits
  | nop | add _ | sub _ | and _ | or _ | xor _ | shl _ | shr _ | sra _ | mul _ | mulh _ | min _ | max _ | div _ | addi _
  | andi _ | ori _ | xori _ | shli _ | shri _ | srai _ | muli _ | li _ | lcat _ | seq _ | sne _ | slt _ | sltu _ | sle _
  | sleu _ | csel _ | clz _ | ctz _ | popc _ | fadd _ | fsub _ | fmul _ | fmad _ | fmin _ | fmax _ | ftoi _ | itof _ | flt _
  | br _ | brz _ | brnz _ | brlt _ | brge _ | brle _ | brgt _ | call _ | ret _ | jmp _ | loop _ | bqnz _ | bqz _ | wait _
  | ld8 _ | ld16 _ | ld32 _ | ld64 _ | ld8s _ | ld16s _ | ld32s _ | st8 _ | st16 _ | st32 _ | st64 _ | amoadd _ | amoswp _
  | amocas _ | amoand _ | amoor _ | amoxor _ | fenceCore _ | fenceClu _ | fenceDie _ | fenceMod _ | fenceSpan _ | farm _
  | fpost _ | fdec _ | fread _ | fwait _ | qpush _ | qpop _ | qpeek _ | qstat _ | qcfg _ | spawn _
  | yield _ | exit _ | sstop _ | sstat _ | rcquery _ | shload _ | shext _ | ldq _ | ldrow _ | actList _ | actCount _
  | prefetch _ | gwait _ | gstat _ | vadd _ | vsub _ | vmul _ | vfma _ | vfms _ | vmin _ | vmax _ | vabs _ | vneg _ | viadd _
  | visub _ | vimul _ | viand _ | vior _ | vixor _ | vishl _ | vishr _ | vceq _ | vclt _ | vcle _ | viceq _ | vilt _ | vsel _
  | vmov _ | vsplat _ | vftoi _ | vitof _ | vexp2 _ | vexp2d _ | vlog2 _ | vrcpSeed _ | vrsqSeed _
  | vrotr _ | vrotc _ | vbcastr _ | vbcastc _ | vredr _ | vredc _ | vscanr _ | vscanc _ | mand _ | mor _ | mxor _ | mandn _
  | vany _ | vall _ | mpop _ | vflag _ | vflagclr _ | vpop _ | vpush _ | vget _ | vput _ | mswap _ | mzero _
  | mread _ | mclose _ | mwait _ | mstat _ | fmtr _ | aeread _ | strow _ | stword _ | scatter _
  | strc _ | rstore _ | ratom _ | ostop _ | qmapWrite _ | flogdatRead _ | pfblockWrite _ | trap _ | resume _ | pgdone _ | brk _ =>
    exact stopsInOrder_issue
  -- an undefined word is not an instruction, and the others are events
  | illegalInstruction w => exact absurd rfl (hi w)
  | _ => cases he

/-- Settles O48: whatever stops the first checks stops the instruction, unless its limits come first. -/
theorem checksInOrder : Obligations.ChecksInOrder := by
  unfold Obligations.ChecksInOrder
  exact exec_stopsInOrder

end Sys2Proof.Machine
end

section
/-! PROOFS. A step takes the next turn of the agenda, and a sequencer's turn runs the instruction that its line holds (R82, R83, R90,
R92, R267). -/
namespace Sys2Proof.Machine

/-! ## A sequencer's turn -/

theorem lineInstr_of_decode {l : BitVec 512} {k : Nat} {i : Instr}
    (h : decodeWord (lineWord l k) (if wLong (lineWord l k) then some (lineWord l (k + 1)) else none) = .ok i) : lineInstr l k = i := by
  unfold lineInstr
  dsimp only
  rw [h]

/-- No slot of a `wait` is left to pass. -/
theorem no_waitSlot {q : SeqId} {n : W32} (h : q ≠ 2 ∨ n = 0) : (decide (q = 2) && n != 0) = false := by
  rcases h with h | h
  · simp [h]
  · simp [h]

section
variable {s u : State} {c : CoreId} {b : BankId} {q : SeqId} (hu : { s with cur := ⟨c, b, q, 0⟩ } = u)
  (hm : u.mayIssue ⟨c, b, q, 0⟩ = true) (hw : q ≠ 2 ∨ (u.sq ⟨c, b, q, 0⟩).waitRem = 0)
include hu hm hw

/-- A sequencer that may issue, with no slot of a `wait` to pass, runs what the line that it has kept holds at its PC (R83). -/
theorem turnOf_held {l : BitVec 512} (hl : (u.bank ⟨c, b, q, 0⟩).heldLine q = some l) :
    s.turnOf c b q = .run (lineInstr l (pcWord (u.sq ⟨c, b, q, 0⟩).pc)) u := by
  unfold State.turnOf
  dsimp only
  simp only [hu, hm, no_waitSlot hw, hl, Bool.not_true, Bool.false_eq_true, if_false]

/-- One that has kept no line runs what the line that it fetches holds (R82). -/
theorem turnOf_fetched {l : BitVec 512} {v : State} (hl : (u.bank ⟨c, b, q, 0⟩).heldLine q = none)
    (hf : Runs (fetchCheck (u.sq ⟨c, b, q, 0⟩).pc) u l v) :
    s.turnOf c b q = .run (lineInstr l (pcWord (v.sq ⟨c, b, q, 0⟩).pc)) v := by
  unfold Runs at hf
  unfold State.turnOf
  dsimp only
  simp only [hu, hm, no_waitSlot hw, hl, hf, Bool.not_true, Bool.false_eq_true, if_false]
end

/-- With no imprecise trap to take, the turn is what it runs. -/
theorem solo_run {s t : State} {c : CoreId} {b : BankId} {q : SeqId} {i : Instr} (hp : (s.bank ⟨c, b, q, 0⟩).imprecisePending = false)
    (ht : s.turnOf c b q = .run i t) : s.solo c b q = exec i t := by
  unfold State.solo
  simp only [hp, ht, Bool.and_false, Bool.false_eq_true, if_false]

/-! ## The turns of a step -/

/-- What a turn answers while the module is on; a sequencer's turn that is not listed on the agenda is a turn of its whole cycle. -/
def State.turnAnswer (t : State) (listed : Bool) : Turn → Out
  | .tick => .next t.tick
  | .hostStore h pa bs => .next (t.hostStore h pa bs)
  | .hostRead o => .next (t.hostRead o)
  | .act i => if isEvent i then exec i t else .next t
  | .seq c b q => if listed then t.solo c b q else .next t.tick

/-- A step of a module that is on is the turn that it takes. -/
theorem step_of_popTurn {s t : State} {turn : Turn} (h : s.popTurn = (turn, t)) (ho : t.off = false) :
    step s = t.turnAnswer (!s.agenda.isEmpty) turn := by
  have hn : ¬t.off = true := by rw [ho]; exact Bool.false_ne_true
  unfold step
  rw [h]
  cases turn with
  | tick | hostStore _ _ _ | hostRead _ => exact if_neg hn
  | act i => exact if_neg fun hc => hn (Bool.and_eq_true_iff.1 hc).1
  | seq c b q =>
    refine (if_neg hn).trans ?_
    rw [State.turnAnswer]
    cases s.agenda <;> rfl

theorem step_listed {s : State} {turn : Turn} {ts : List Turn} (ho : s.off = false) (h : s.agenda = turn :: ts) :
    step s = State.turnAnswer { s with agenda := ts } true turn := by
  have hp : s.popTurn = (turn, { s with agenda := ts }) := by rw [State.popTurn, h]
  rw [step_of_popTurn hp ho, h]
  rfl

theorem step_open {s : State} (ho : s.off = false) (h : s.agenda = []) :
    step s = State.turnAnswer { s with choice := s.choice + 1 } false (Config.nextTurn s.choice) := by
  have hp : s.popTurn = (Config.nextTurn s.choice, { s with choice := s.choice + 1 }) := by rw [State.popTurn, h]
  rw [step_of_popTurn hp ho, h]
  rfl

/-- Settles O45: the turn of the agenda's head, and what a sequencer's turn runs. -/
theorem stepRunsDecoded : Obligations.StepRunsDecoded := by
  unfold Obligations.StepRunsDecoded
  refine ⟨?_, fun s i ts ho h hi => (step_listed ho h).trans (if_pos hi), fun s ts ho h => step_listed ho h,
    fun s c pa bs ts ho h => step_listed ho h, fun s o ts ho h => step_listed ho h, ?_⟩
  · intro s c b q ts w u ho ha hm hp hw
    rw [step_listed ho ha]
    have hu : ({ ({ s with agenda := ts } : State) with cur := w } : State) = u := rfl
    refine ⟨fun l v i hl hf hd => ?_, fun l i hl hd => ?_⟩
    · rw [← lineInstr_of_decode hd]
      exact solo_run hp (turnOf_fetched hu hm hw hl hf)
    · rw [← lineInstr_of_decode hd]
      exact solo_run hp (turnOf_held hu hm hw hl)
  · intro s ho h u
    rw [step_open ho h]
    cases Config.nextTurn s.choice <;> rfl

end Sys2Proof.Machine
end

section
/-! PROOFS. Branches, calls, returns, jumps and loops (R94, R111-R113, R116). -/
namespace Sys2Proof.Machine

/-! ## Transfers -/

theorem runs_transfer (kind : Nat) (pc : W64) (s : State) :
    Runs (transfer kind pc) s (.to pc) (s.trace s.cur kind (s.sq s.cur).pc pc) :=
  runs_bind (runs_modify _ _) (runs_pure _ _)

/-- A transfer to a target that is worked out in the state. -/
theorem runs_transfer_get (kind : Nat) (pc : State → W64) (s : State) :
    Runs (do let s ← get; transfer kind (pc s)) s (.to (pc s)) (s.trace s.cur kind (s.sq s.cur).pc (pc s)) :=
  runs_bind (runs_get s) (runs_transfer kind (pc s) s)

/-- A branch that is taken. -/
theorem runs_taken {c : Prop} [Decidable c] (hc : c) (pc : State → W64) (s : State) :
    Runs (do let s ← get; if c then transfer 1 (pc s) else pure .next) s (.to (pc s))
      (s.trace s.cur 1 (s.sq s.cur).pc (pc s)) := by
  simp only [if_pos hc]
  exact runs_transfer_get 1 pc s

/-- A branch that is not. -/
theorem runs_untaken {c : Prop} [Decidable c] (hc : ¬c) (pc : State → W64) (s : State) :
    Runs (do let s ← get; if c then transfer 1 (pc s) else pure .next) s .next s := by
  simp only [if_neg hc]
  exact runs_bind (runs_get s) (runs_pure _ _)

/-! ## Branches -/

theorem exec_branch {i : Instr} {f : BR} {p : W64 → Bool} (h : shapeBranch i = some (f, p)) (s : State) :
    exec i s = issue i s (branch f p) := by
  unfold shapeBranch at h
  split at h <;> cases h
  all_goals rfl

theorem exec_branchQueue {i : Instr} {f : BR} {p : W64 → Bool} (h : shapeBranchQ i = some (f, p)) (s : State) :
    exec i s = issue i s (branchQueue f p) := by
  unfold shapeBranchQ at h
  split at h <;> cases h
  all_goals rfl

/-- A conditional branch on a register (R111). -/
theorem runs_branch {f : BR} {p : W64 → Bool} {s s1 : State} {x : W64} (hs : Runs (sources f.e [f.a] []) s [x] s1) :
    let pc := target (s1.sq s1.cur).pc (brDelta f [f.a]) f.w
    (p x = true → Runs (branch f p) s (.to pc) (s1.trace s1.cur 1 (s1.sq s1.cur).pc pc)) ∧
      (p x = false → Runs (branch f p) s .next s1) :=
  ⟨fun h => runs_bind hs (runs_taken h (fun s => target (s.sq s.cur).pc (brDelta f [f.a]) f.w) s1),
    fun h => runs_bind hs (runs_untaken (Bool.eq_false_iff.1 h) (fun s => target (s.sq s.cur).pc (brDelta f [f.a]) f.w) s1)⟩

/-- The line delta of a branch on a queue, which has no source that may be a window (R116). -/
def queueDelta (f : BR) : W64 :=
  match f.e with
  | some e => sx e
  | none => sx f.ld

/-- A branch on the head of a queue (R116). -/
theorem runs_branchQueue {f : BR} {p : W64 → Bool} {s s1 : State} {v : W64} (hc : f.c.toNat < 8)
    (ho : Runs (popOk ⟨f.c.toNat, f.c.isLt⟩) s () s) (hv : Runs (popWord ⟨f.c.toNat, f.c.isLt⟩) s v s1) :
    let pc := target (s1.sq s1.cur).pc (queueDelta f) f.w
    (p v = true → Runs (branchQueue f p) s (.to pc) (s1.trace s1.cur 1 (s1.sq s1.cur).pc pc)) ∧
      (p v = false → Runs (branchQueue f p) s .next s1) := by
  have hn : Runs (need (f.c.toNat < 8) cQueue) s () s := runs_need (decide_eq_true hc)
  refine ⟨fun h => runs_bind hn (runs_bind ho (runs_bind hv ?_)), fun h => runs_bind hn (runs_bind ho (runs_bind hv ?_))⟩
  · exact runs_taken h (fun s => target (s.sq s.cur).pc (queueDelta f) f.w) s1
  · exact runs_untaken (Bool.eq_false_iff.1 h) (fun s => target (s.sq s.cur).pc (queueDelta f) f.w) s1

/-! ## Calls, returns and jumps -/

/-- A call leaves its link, the successor in chain order, and goes to its target (R94, R112). -/
theorem exec_call_done {f : BR} {s s1 s2 u t : State} {link : W64} (he : Enters (.call f) s = true)
    (hs : Runs (sources none [] [f.a]) s [] s1) (hl : Runs linkValue s1 link s2)
    (hr : Runs (scalarResult (.call f) f.a 1 0 0 link) s2 .next u) :
    let pc := target (u.sq u.cur).pc (sx f.ld) f.w
    Follows (.call f) (.to pc) (u.trace u.cur 2 (u.sq u.cur).pc pc) t → exec (.call f) s = .next (t.done (.to pc)) :=
  fun hf => issue_done he (runs_bind hs (runs_bind hl (runs_bind hr
    (runs_transfer_get 2 (fun u => target (u.sq u.cur).pc (sx f.ld) f.w) u)))) hf

/-- A jump to an address that meets the checks of R94. -/
theorem runs_jumpTo {kind : Nat} {a : BitVec 6} {s s1 : State} {x : W64} (hs : Runs (sources none [a] []) s [x] s1)
    (h1 : fld x 1 0 = 0) (h2 : fld x 63 57 = 0) (h3 : fld x 5 2 ≠ 0) :
    Runs (jumpTo kind a) s (.to x) (s1.trace s1.cur kind (s1.sq s1.cur).pc x) :=
  runs_bind hs (runs_bind (runs_needAt (beq_iff_eq.2 h1)) (runs_bind (runs_needAt (beq_iff_eq.2 h2))
    (runs_bind (runs_need (bne_iff_ne.2 h3)) (runs_transfer kind x s1))))

/-! ## Loops -/

section
variable {f : BR} {s s1 s2 : State} {x : W64} (he : Enters (.loop f) s = true) (hs : Runs (sources f.e [f.a] []) s [x] s1)
  (hw : Runs (loopWrite f (loopCounter f)) s1 () s2)
include he hs hw

/-- `loop` with iterations makes its frame active, from the successor to END. -/
theorem exec_loop_begins (hn : fld x 31 0 ≠ 0) {start : W64} {s3 t : State} (hc : Runs (nextInChain (Instr.loop f).len) s2 start s3)
    (hf : Follows (.loop f) .next (s3.modSeq s3.cur (·.beginFrame (loopCounter f)
      ⟨true, start, target (s1.sq s1.cur).pc (brDelta f [f.a]) f.w, BitVec.ofNat 32 (fld x 31 0), s3.now⟩)) t) :
    exec (.loop f) s = .next (t.done .next) := by
  have hx : ¬fld (nthV [x] 0) 31 0 = 0 := hn
  refine issue_done he (runs_bind hs (runs_bind (runs_get s1) (runs_bind hw ?_))) hf
  rw [if_neg hx]
  exact runs_bind hc (runs_bind (runs_modify _ _) (runs_pure _ _))

/-- `loop` with no iterations ends its frame and goes past END. -/
theorem exec_loop_passes (hn : fld x 31 0 = 0) {l : BitVec 512} {s3 t : State} {pc : W64} :
    let stop := target (s1.sq s1.cur).pc (brDelta f [f.a]) f.w
    Runs (fetchCheck stop) (s2.modSeq s2.cur (·.endFrame (loopCounter f))) l s3 →
    succPc l stop (if wLong (lineWord l (pcWord stop)) then 2 else 1) = some pc →
    Follows (.loop f) (.to pc) s3 t → exec (.loop f) s = .next (t.done (.to pc)) := by
  intro stop hl hp hf
  have hx : fld (nthV [x] 0) 31 0 = 0 := hn
  refine issue_done he (runs_bind hs (runs_bind (runs_get s1) (runs_bind hw ?_))) hf
  rw [if_pos hx]
  refine runs_bind (runs_modify _ _) (runs_bind hl ?_)
  rw [hp]
  exact runs_pure _ _
end

/-! ## The statement -/

/-- Settles O3: each instruction by what its body answers. -/
theorem controlCompletes : Obligations.ControlCompletes := by
  unfold Obligations.ControlCompletes
  refine ⟨?_, ?_, ?_, ?_, ?_, ?_, ?_⟩
  · intro f s t he pc hf
    exact issue_done he (runs_transfer_get 1 (fun s => target (s.sq s.cur).pc (brDelta f []) f.w) s) hf
  · intro i f p s x s1 t hi he hs pc
    rw [exec_branch hi]
    obtain ⟨taken, untaken⟩ := runs_branch (p := p) hs
    exact ⟨fun h hf => issue_done he (taken h) hf, fun h hf => issue_done he (untaken h) hf⟩
  · intro i f p s v s1 t hc hi he ho hv pc
    rw [exec_branchQueue hi]
    obtain ⟨taken, untaken⟩ := runs_branchQueue (p := p) hc ho hv
    exact ⟨fun h hf => issue_done he (taken h) hf, fun h hf => issue_done he (untaken h) hf⟩
  · intro f s s1 link s2 u t he hs hl hr
    exact exec_call_done he hs hl hr
  · intro f s x s1 t he hs h1 h2 h3 hf
    exact issue_done he (runs_jumpTo hs h1 h2 h3) hf
  · intro f s x s1 t he hs h1 h2 h3 hf
    exact issue_done he (runs_jumpTo hs h1 h2 h3) hf
  · intro f s x s1 s2 he hs hw stop
    exact ⟨fun hn start s3 t hc hf => exec_loop_begins he hs hw hn hc hf,
      fun hn l s3 pc t hl hp hf => exec_loop_passes he hs hw hn hl hp hf⟩

end Sys2Proof.Machine
end

section
/-! PROOFS. The events of the sequencers (R83, R91, R97, R98, R321, R325, R330, R393, R394, R415, R419). -/
namespace Sys2Proof

/-! ## Little-endian numbers -/

theorem leNat_append (xs ys : List Byte) : leNat (xs ++ ys) = leNat xs + 256 ^ xs.length * leNat ys := by
  induction xs with
  | nil => simp [leNat]
  | cons x xs ih =>
    rw [List.cons_append, leNat, leNat, ih, List.length_cons, pow_succ']
    ring

theorem Memory.readN_add (m : Memory) (a k n : Nat) : m.readN a (k + n) = m.readN a k ++ m.readN (a + k) n := by
  induction k generalizing a with
  | zero => simp [Memory.readN]
  | succ k ih =>
    rw [Nat.succ_add, Memory.readN, Memory.readN, ih, List.cons_append, Nat.add_right_comm]
    rfl

theorem Memory.readLe_add (m : Memory) (a k n : Nat) : m.readLe a (k + n) = m.readLe a k + 256 ^ k * m.readLe (a + k) n := by
  rw [Memory.readLe, Memory.readN_add, leNat_append, Memory.readN_length]
  rfl

/-- Words that follow one another are one little-endian number (R3). -/
theorem Memory.readLe_words (m : Memory) (pa n : Nat) :
    (List.range n).foldl (fun acc i => acc + m.readLe (pa + 8 * i) 8 * 2 ^ (64 * i)) 0 = m.readLe pa (8 * n) := by
  induction n with
  | zero => rfl
  | succ n ih =>
    rw [List.range_succ, List.foldl_append, ih, Nat.mul_succ, Memory.readLe_add, List.foldl_cons, List.foldl_nil, Nat.mul_comm (256 ^ _),
      show (256 : Nat) = 2 ^ 8 from rfl, ← pow_mul, show 8 * (8 * n) = 64 * n by omega]

end Sys2Proof

namespace Sys2Proof.Machine

/-! ## Traps -/

/-- A precise trap that has read no table, used up no refusal and delivers no error changes nothing before it is taken. -/
theorem trapped_of_plain {s : State} {t : TrapInfo} (hs : t.seen = []) (hr : t.refusal = none) (hc : t.clears = [])
    (hw : t.cause ≠ cWatch) : s.trapped t = s.takeTrap s.cur t := by
  unfold State.trapped
  simp only [hs, hr, hc, hw, if_true, if_false]

section
variable {s : State} {t : TrapInfo}

theorem stopped_trap_alone (hp : s.phase = .alone) (hw : s.trapWaits s.cur t = false) : s.stopped (.trap t) = s.trapped t := by
  unfold State.stopped
  simp only [hp, hw, if_true, Bool.false_eq_true, if_false]

/-- In a cycle of the core a trap is one of those of which the lowest sequencer's is taken (R322). -/
theorem stopped_trap_raised (hp : s.phase ≠ .alone) : s.stopped (.trap t) = { s with raised := s.raised ++ [(s.cur, t)] } := by
  unfold State.stopped
  simp only [hp, if_false]
end

/-- An undefined word, on a turn of its own, takes its trap (R91). -/
theorem exec_illegalInstruction_alone {w : W32} {s : State} (hp : s.phase = .alone)
    (hw : s.trapWaits s.cur { cause := cIllegal } = false) :
    exec (.illegalInstruction w) s = .next (s.takeTrap s.cur { cause := cIllegal }) :=
  congrArg Host.Outcome.next ((stopped_trap_alone hp hw).trans (trapped_of_plain rfl rfl rfl (by decide)))

/-- A pending imprecise cause is taken at C, the address with it where R325 gives one (R321). -/
theorem exec_impreciseTrap_takes {c : CoreId} {s : State} {b : BankId} (ha : (s.core c).active = some b)
    (hp : (s.bank ⟨c, b, 0, 0⟩).imprecisePending = true) (hq : ∀ q, ((s.bank ⟨c, b, 0, 0⟩).seqs.get q).last ≠ s.now + 1)
    (hw : s.trapWaits ⟨c, b, 0, 0⟩ (s.bank ⟨c, b, 0, 0⟩).imprecise = false) :
    exec (.impreciseTrap c) s = .next (s.takeTrap ⟨c, b, 0, 0⟩ (s.bank ⟨c, b, 0, 0⟩).imprecise false) := by
  have hl : (s.bank ⟨c, b, 0, 0⟩).seqs.all (fun q => q.last != s.now + 1) = true := by
    rw [Vector.all_eq_true]
    exact fun i hi => bne_iff_ne.2 (hq ⟨i, hi⟩)
  show execImpreciseTrap c s = _
  unfold execImpreciseTrap
  simp only [ha, hp, hl, hw, Bool.not_false, Bool.and_true, if_true]
  rfl

theorem imprecise_eq (k : Bank) :
    let n := lowestBit (k.tpend.toNat % 256) 8 0
    k.imprecise =
      { cause := pendCause n, addr := if pendCause n ∈ [0x09, 0x10, 0x18] then k.paddr.get ⟨n % 9, by omega⟩ else 0 } := by
  intro n
  unfold Bank.imprecise
  simp only [List.contains_iff_mem]
  rfl

/-! ## Code lines -/

/-- A line none of whose words is uncorrectable is the 64 bytes that memory holds. -/
theorem codeLine_of_clean {s : State} {pa : Nat} (h : ∀ i, i < 8 → s.poisoned (pa + 8 * i) 8 = false) :
    s.codeLine pa = BitVec.ofNat 512 (s.mem.readLe pa 64) := by
  rw [State.codeLine, ← Memory.readLe_words s.mem pa 8]
  refine congrArg _ (List.foldl_ext _ _ _ fun acc i hi => ?_)
  rw [h i (List.mem_range.1 hi)]
  rfl

section
variable {c : CoreId} {b : BankId} {q : SeqId} {s t : State} {pa : Nat} {lf : Bool}
  (hs : (s.sq ⟨c, b, q, 0⟩).stall = 10) (hl : s.lineAt ⟨c, b, q, 0⟩ (s.sq ⟨c, b, q, 0⟩).want = none)
  (ht : s.translate c 0 (s.bank ⟨c, b, q, 0⟩).ctx (s.bank ⟨c, b, q, 0⟩).ptroot (s.sq ⟨c, b, q, 0⟩).want.toNat 2 q.val =
    (.ok (pa, lf), t))
  (hh : t.stalledHome pa = false) (hc : t.carries (dieOf c) (homeDie pa) pa = true)
include hs hl ht hh hc

/-- A line that a sequencer waits for enters the instruction cache; an uncorrectable error in it is the sequencer's, which has a place
for its report (R83, R394). -/
theorem exec_fetchLineArrive_enters (hw : t.poisoned pa 64 = true → t.evWaiting < 4096) :
    exec (.fetchLineArrive c b q) s = .next ((if t.poisoned pa 64 then t.notes ⟨c, b, q, 0⟩ pa else t).modCore c fun k =>
      { k with icache := NMap.put k.icache (icKey (s.bank ⟨c, b, q, 0⟩).ctx (s.sq ⟨c, b, q, 0⟩).want) (t.codeLine pa) }) := by
  have hn : (t.poisoned pa 64 && decide (4096 ≤ t.evWaiting)) = false := by
    cases hp : t.poisoned pa 64 with
    | false => rfl
    | true => simpa using hw hp
  show execFetchLineArrive c b q s = _
  unfold execFetchLineArrive
  simp only [hs, hl, ht, hh, hc, hn, Option.isSome_none, bne_self_eq_false, Bool.or_false, Bool.not_true, Bool.false_eq_true, if_false]
end

/-! ## Parity -/

/-- The latency of an instruction that is executed again is its own, or for an access one of those of R120 (R330). -/
theorem latency_own {r : Ret} (h : r.lat ≠ 0) (s : State) : r.latency s = (r.lat, s) := if_neg h

theorem latency_access {r : Ret} (h : r.lat = 0) (s : State) : [10, 60, 300, 420].contains (r.latency s).1 = true := by
  have hl : (r.latency s).1 = [10, 60, 300, 420].getD (s.choose 4).1 10 := by rw [Ret.latency, if_pos h]
  rw [hl]
  rcases (s.choose 4).1 with _ | _ | _ | _ | _
  all_goals rfl

section
variable {c : CoreId} {b : BankId} {q : SeqId} {file index : Nat} {s u : State} {i : Instr} (ht : s.turnOf c b q = .run i u)
include ht

/-- A parity error whose writer is retained with good captures is repaired (R330). -/
theorem exec_parityRepair_repairs {r : Ret} (hf : file ≠ 7) (hr : (file, index) ∈ s.regsRead ⟨c, b, q, 0⟩ i)
    (hw : (s.bank ⟨c, b, q, 0⟩).lastWriter q (file, index) = some r) :
    let p := r.latency s
    exec (.parityRepair c b q file index true) s = .next ((p.2.modSeq ⟨c, b, q, 0⟩ fun x =>
      { x with hold := p.2.now + p.1 + 6 }).modBank ⟨c, b, q, 0⟩ fun x => { x with prcnt := x.prcnt + 1 }.count 15 1) := by
  intro p
  show execParityRepair c b q file index true s = _
  unfold execParityRepair
  simp only [ht, hf, List.contains_iff_mem.2 hr, hw, Bool.not_true, Bool.false_eq_true, if_false]
  rfl

/-- One whose writer is not raises UncorrectableData with the register in ADDR, and is reported (R330, R393). -/
theorem exec_parityRepair_traps {good : Bool} (hf : file ≠ 7) (hr : (file, index) ∈ s.regsRead ⟨c, b, q, 0⟩ i)
    (hw : good = true → (s.bank ⟨c, b, q, 0⟩).lastWriter q (file, index) = none) (he : s.evWaiting < 4096) :
    let t : TrapInfo := { cause := cUncorr, addr := BitVec.ofNat 64 (file * 256 + index) }
    s.trapWaits ⟨c, b, q, 0⟩ t = false → exec (.parityRepair c b q file index good) s =
      .next (({ s.consumed ⟨c, b, q, 0⟩ 0 c.val 0 with cur := ⟨c, b, q, 0⟩ } : State).takeTrap ⟨c, b, q, 0⟩ t) := by
  intro t hn
  have hc : ¬(decide (4096 ≤ s.evWaiting) || s.trapWaits ⟨c, b, q, 0⟩ t) = true := by
    rw [hn, Bool.or_false, decide_eq_true_iff]
    exact Nat.not_le.2 he
  have hu : cUncorr ≠ cWatch := by decide
  have htrap := congrArg (Host.Outcome.next (φ := Fault) (ρ := Refusal))
    (trapped_of_plain (s := { s.consumed ⟨c, b, q, 0⟩ 0 c.val 0 with cur := ⟨c, b, q, 0⟩ }) (t := t) rfl rfl rfl hu)
  show execParityRepair c b q file index good s = _
  unfold execParityRepair
  simp only [ht, hf, List.contains_iff_mem.2 hr, Bool.not_true, Bool.false_eq_true, if_false]
  cases good with
  | true =>
    rw [hw rfl]
    exact (if_neg hc).trans htrap
  | false =>
    cases (s.bank ⟨c, b, q, 0⟩).lastWriter q (file, index) with
    | none => exact (if_neg hc).trans htrap
    | some r => exact (if_neg hc).trans htrap

/-- A register that the instruction does not read is not looked at. -/
theorem exec_parityRepair_other {good : Bool} (hf : file ≠ 7) (hr : (file, index) ∉ s.regsRead ⟨c, b, q, 0⟩ i) :
    exec (.parityRepair c b q file index good) s = .next s := by
  have hr' : (s.regsRead ⟨c, b, q, 0⟩ i).contains (file, index) = false :=
    Bool.eq_false_iff.2 fun h => hr (List.contains_iff_mem.1 h)
  show execParityRepair c b q file index good s = _
  unfold execParityRepair
  simp only [ht, hf, hr', Bool.not_false, if_true, if_false]

/-- The head of a queue that the instruction is about to take turns out wrong (R384). -/
theorem exec_parityRepair_queue {n : Fin 16} {x : QSlot} {xs : List QSlot} (hn : n.val ∈ queuesTaken i) (he : s.evWaiting < 4096)
    (hr : 0 < (s.queue ⟨c, b, q, 0⟩ n).ready s.now) (hx : (s.queue ⟨c, b, q, 0⟩ n).ents = x :: xs) :
    exec (.parityRepair c b q 7 n.val false) s =
      .next ((s.modQ ⟨c, b, q, 0⟩ n fun y => { y with ents := x.lost :: xs }).notes ⟨c, b, q, 0⟩ 0) := by
  have hq : (⟨n.val % 16, Nat.mod_lt _ (by decide)⟩ : Fin 16) = n := Fin.ext (Nat.mod_eq_of_lt n.isLt)
  have he' : decide (4096 ≤ s.evWaiting) = false := decide_eq_false (Nat.not_le.2 he)
  have hr' : decide ((s.queue ⟨c, b, q, 0⟩ n).ready s.now = 0) = false := decide_eq_false (Nat.ne_of_gt hr)
  show execParityRepair c b q 7 n.val false s = _
  unfold execParityRepair State.queueError
  simp only [ht, hq, he', hr', hx, List.contains_iff_mem.2 hn, Bool.not_true, Bool.or_false, Bool.false_eq_true, if_true, if_false]
end

/-! ## The step count -/

/-- A stepping core whose sequencers have issued their instructions asks for its stop (R415). -/
theorem exec_stepCountExpire_asks {c : CoreId} {s : State} (hs : (s.core c).stepping = true) (hr : (s.core c).stopReq = none)
    (hn : ((s.bank (s.stopWho c)).seqs.any fun q => match q.steps with
      | some n => n != 0
      | none => false) = false) :
    exec (.stepCountExpire c) s = .next (s.askStop c cStep
      (((List.finRange 4).find? fun q => ((s.bank (s.stopWho c)).seqs.get q).steps.isSome).getD 0)) := by
  have hd : s.stopDue c = some (cStep,
      ((List.finRange 4).find? fun q => ((s.bank (s.stopWho c)).seqs.get q).steps.isSome).getD 0) := by
    unfold State.stopDue
    rw [hr, hs]
    exact if_neg fun h => Bool.false_ne_true (hn.symm.trans h)
  show execStepCountExpire c s = _
  rw [execStepCountExpire, hd]

/-! ## The statement -/

/-- Settles O28: each event by what it makes of the state that its conditions describe. -/
theorem sequencerEventsComplete : Obligations.SequencerEventsComplete := by
  unfold Obligations.SequencerEventsComplete
  refine ⟨fun w s => exec_illegalInstruction_alone, ?_, ?_, ?_, fun s pa _ => codeLine_of_clean, fun c b s => rfl, fun c b q s => rfl,
    ?_, ?_, ?_, ?_, ?_, fun d ps s => rfl⟩
  · intro w s hp
    exact congrArg Host.Outcome.next (stopped_trap_raised hp)
  · intro c s b ha hp hq n t
    have hi : (s.bank ⟨c, b, 0, 0⟩).imprecise = t := imprecise_eq _
    rw [← hi]
    exact exec_impreciseTrap_takes ha hp hq
  · intro c b q s pa lf t hs hl ht hh hc key
    refine ⟨fun hp => ?_, fun hp he => ?_⟩
    · rw [exec_fetchLineArrive_enters hs hl ht hh hc fun h => absurd (hp.symm.trans h) Bool.false_ne_true, if_neg (by simp [hp])]
    · rw [exec_fetchLineArrive_enters hs hl ht hh hc fun _ => he, if_pos hp]
  · intro c b q file index s i u r ht hf hr hw p
    exact ⟨fun h => latency_own h s, fun h => latency_access h s, exec_parityRepair_repairs ht hf hr hw⟩
  · intro c b q file index s i u good ht hf hr hw he t
    exact exec_parityRepair_traps ht hf hr hw he
  · intro c b q file index s i u good ht hf hr
    exact exec_parityRepair_other ht hf hr
  · intro c b q n s i u x xs ht hn he hr hx
    exact exec_parityRepair_queue ht hn he hr hx
  · intro c s hs hr hn
    exact exec_stepCountExpire_asks hs hr hn

end Sys2Proof.Machine
end

section
/-! PROOFS. The interlock of C, A and S, and X's exposed pipeline (R92, R97, R98, R165, R180). -/
namespace Sys2Proof.Machine

/-! ## The interlock of C, A and S -/

/-- An operation that answers does not stop. -/
theorem Stops.not_runs {α : Type} {a : Act α} {s t : State} {x : Stop} {v : α} (h : Stops a s x) : ¬Runs a s v t := by
  unfold Stops Runs at *
  rw [h]
  nofun

/-- Where the interlock does not hold a field, it answers and leaves the state. -/
theorem runs_interlock {f : BitVec 6} {s : State} (h : s.cur.q = 2 ∨ (s.sq s.cur).pends f = false) : Runs (interlock f) s () s := by
  unfold interlock
  refine runs_bind (runs_get s) ?_
  have hc : (s.cur.q != 2 && (s.sq s.cur).pends f) = false := by
    rcases h with h | h <;> simp [h]
  rw [hc]
  exact runs_pure _ _

/-- On C, A and S it holds a field that names a register with a pending write, in the state of R329 that shows it. -/
theorem stops_interlock {f : BitVec 6} {s : State} (hq : s.cur.q ≠ 2) (h : (s.sq s.cur).pends f = true) :
    Stops (interlock f) s (.hold 9 0 false) := by
  unfold interlock
  refine stops_bind_of_runs (runs_get s) ?_
  have hc : (s.cur.q != 2 && (s.sq s.cur).pends f) = true := by
    simp [hq, h]
  rw [hc]
  exact stops_throw _ _

/-- Checks that leave the state as it was all pass there, when they pass one after the other. -/
theorem runs_of_mem_allOk {p : BitVec 6 → Act Unit} (hp : ∀ f s v t, Runs (p f) s v t → t = s) {fs : List (BitVec 6)} {f : BitVec 6}
    {s t : State} {v : Unit} (hf : f ∈ fs) (h : Runs (allOk p fs) s v t) : Runs (p f) s () s := by
  induction fs with
  | nil => cases hf
  | cons g fs ih =>
    obtain ⟨_, _, hg, hfs⟩ := runs_bind_iff.1 h
    obtain rfl := hp _ _ _ _ hg
    rcases List.mem_cons.1 hf with rfl | hf
    · exact hg
    · exact ih hf hfs

/-- Reading operands keeps the pending writes that the interlock looks at. -/
theorem ReadFrame.pends {s t : State} (h : ReadFrame s t) (f : BitVec 6) : (t.sq t.cur).pends f = (s.sq s.cur).pends f := by
  obtain ⟨_, hu⟩ := h.sq
  rw [h.cur, hu]
  rfl

/-- The checks and the window operand come before the interlock, and leave the pending writes as they were. -/
theorem runs_interlock_of_sources {e : Option W32} {srcs dsts : List (BitVec 6)} {s t : State} {vs : List W64} {f : BitVec 6}
    (h : Runs (sources e srcs dsts) s vs t) (hf : f ∈ srcs) :
    ∃ u, ReadFrame s u ∧ Runs (interlock f) u () u := by
  obtain ⟨_, _, hsrc, h⟩ := runs_bind_iff.1 h
  obtain ⟨_, _, hdst, h⟩ := runs_bind_iff.1 h
  obtain ⟨_, u, hwin, h⟩ := runs_bind_iff.1 h
  obtain ⟨_, _, hil, -⟩ := runs_bind_iff.1 h
  obtain rfl := allOk_state srcOk_state _ _ _ _ hsrc
  obtain rfl := allOk_state dstOk_state _ _ _ _ hdst
  exact ⟨u, readsOnly_windowOf _ _ _ _ _ hwin, runs_of_mem_allOk interlock_state hf hil⟩

theorem landFirst_nil {s : State} {w : Who} (h : (s.sq w).pend = []) : s.landFirst w = s := by
  unfold State.landFirst
  rw [h]

theorem landFirst_cons {s : State} {w : Who} {p : PendW} {ps : List PendW} (h : (s.sq w).pend = p :: ps) :
    s.landFirst w = (s.modSeq w fun q => { q with pend := ps }).landDst w p.dst p.v := by
  unfold State.landFirst
  rw [h]

/-! ## The statement of the interlock -/

/-- Settles O51: what comes before the interlock leaves the pending writes, so a source that a write is pending for stops the reading. -/
theorem interlockHolds : Obligations.Interlock := by
  unfold Obligations.Interlock
  refine ⟨?_, fun f s => runs_interlock, fun f s => stops_interlock, fun s w => landFirst_nil, fun s w p ps => landFirst_cons⟩
  rintro e srcs dsts s f hq hf hp ⟨vs, t, h⟩
  obtain ⟨u, hu, hil⟩ := runs_interlock_of_sources h hf
  exact (stops_interlock (hu.cur ▸ hq) ((hu.pends f).trans hp)).not_runs hil

/-! ## X's exposed pipeline -/

/-- Two updates of a core, one after the other. -/
theorem State.modCore_modCore (s : State) (c : CoreId) (f g : Core → Core) :
    (s.modCore c f).modCore c g = s.modCore c fun k => g (f k) := by
  unfold State.modCore
  simp only [vset_vset, vset_get_self]

/-- Two updates of a bank, one after the other. -/
theorem State.modBank_modBank (s : State) (w : Who) (f g : Bank → Bank) :
    (s.modBank w f).modBank w g = s.modBank w fun k => g (f k) := by
  unfold State.modBank Core.modBank
  simp only [State.modCore_modCore, vset_vset, vset_get_self]

/-- An entry with one slot fewer to pass. -/
def XEnt.tick (e : XEnt) : XEnt := { e with due := e.due - 1 }

/-- Entries land: the clears first, then the others, each kind in issue order (R97, R180). -/
def State.landEntries (s : State) (w : Who) (es : List XEnt) : State :=
  (es.filter fun e => !e.clears).foldl (fun s e => s.landX w e) ((es.filter (·.clears)).foldl (fun s e => s.landX w e) s)

@[simp] theorem State.landEntries_nil (s : State) (w : Who) : s.landEntries w [] = s := rfl

theorem State.landEntries_one (s : State) (w : Who) (e : XEnt) : s.landEntries w [e] = s.landX w e := by
  unfold State.landEntries
  cases h : e.clears <;> simp [h]

theorem State.landEntries_two {e e' : XEnt} (h : e.clears = false) (h' : e'.clears = false) (s : State) (w : Who) :
    s.landEntries w [e, e'] = (s.landX w e).landX w e' := by
  unfold State.landEntries
  simp [h, h']

/-- A slot of X: each entry counts down, those with no slot left to pass land, and the others stay in the pipeline. -/
theorem xSlot_eq (s : State) (w : Who) (es : List XEnt) (h : (s.bank w).xpend.map XEnt.tick = es) :
    s.xSlot w = (s.modBank w fun k => { k with xpend := es.filter (·.due != 0), slots := k.slots + 1 }).landEntries w
      (es.filter (·.due == 0)) := by
  subst h
  unfold State.xSlot State.landDue
  simp only [State.modBank_bank_self, State.modBank_modBank]
  rfl

/-- Where no entry is due, all stay. -/
theorem xSlot_of_waiting {s : State} {w : Who} {es : List XEnt} (h : (s.bank w).xpend.map XEnt.tick = es)
    (hes : ∀ e, e ∈ es → e.due ≠ 0) : s.xSlot w = s.modBank w fun k => { k with xpend := es, slots := k.slots + 1 } := by
  have hdue : es.filter (·.due == 0) = [] := List.filter_eq_nil_iff.2 fun e he => by simp [hes e he]
  have hstay : es.filter (·.due != 0) = es := List.filter_eq_self.2 fun e he => by simp [hes e he]
  rw [xSlot_eq s w es h, hdue, hstay, State.landEntries_nil]

/-- Where every entry is due, all land. -/
theorem xSlot_of_due {s : State} {w : Who} {es : List XEnt} (h : (s.bank w).xpend.map XEnt.tick = es)
    (hes : ∀ e, e ∈ es → e.due = 0) :
    s.xSlot w = (s.modBank w fun k => { k with xpend := [], slots := k.slots + 1 }).landEntries w es := by
  have hdue : es.filter (·.due == 0) = es := List.filter_eq_self.2 fun e he => by simp [hes e he]
  have hstay : es.filter (·.due != 0) = [] := List.filter_eq_nil_iff.2 fun e he => by simp [hes e he]
  rw [xSlot_eq s w es h, hdue, hstay]

/-- Settles O59: with a slot left to pass the entry stays in the pipeline; with none it lands, after the entries issued before it. -/
theorem exposedLatency : Obligations.ExposedLatency := by
  unfold Obligations.ExposedLatency
  refine ⟨fun s w e n hn hp => ?_, fun s w e hp => ?_, fun s w e e' he he' hp => ?_⟩
  · exact xSlot_of_waiting (es := [{ e with due := n - 1 }]) (congrArg (List.map XEnt.tick) hp)
      (List.forall_mem_singleton.2 (Nat.sub_ne_zero_of_lt hn))
  · exact (xSlot_of_due (es := [{ e with due := 0 }]) (congrArg (List.map XEnt.tick) hp)
      (List.forall_mem_singleton.2 rfl)).trans (State.landEntries_one _ w _)
  · exact (xSlot_of_due (es := [{ e with due := 0 }, { e' with due := 0 }]) (congrArg (List.map XEnt.tick) hp) (by simp)).trans
      (State.landEntries_two (e := { e with due := 0 }) (e' := { e' with due := 0 }) he he' _ w)

/-! ## Vector instructions on whole registers -/

theorem runs_vecAdd (i : Instr) (f : FV) (lat : Nat) (caps : List Cap) (files : List (Nat × Nat)) (s : State) :
    Runs (vecAdd i f lat caps files) s .next
      (s.exposed { i := i, due := lat, caps := caps, pm := (s.bank s.cur).capPred f.m } files) :=
  runs_bind (runs_get s) (runs_bind (runs_addX _ _ _) (runs_pure _ _))

theorem runs_vecTiles (i : Instr) (f : FV) (lat : Nat) (srcs : List (BitVec 5)) (s : State) :
    Runs (vecTiles i f lat srcs) s .next (s.exposed
      { i := i, due := lat, caps := srcs.map (s.bank s.cur).capTile, pm := (s.bank s.cur).capPred f.m } [(2, f.d.toNat)]) :=
  runs_bind (runs_get s) (runs_vecAdd _ _ _ _ _ _)

theorem runs_vecCmp (i : Instr) (f : FV) (s : State) :
    Runs (vecCmp i f) s .next (s.exposed
      { i := i, due := 2, caps := [f.a, f.b].map (s.bank s.cur).capTile, pm := (s.bank s.cur).capPred f.m } [(3, f.d.toNat)]) :=
  runs_bind (runs_get s) (runs_vecAdd _ _ _ _ _ _)

theorem runs_vecMasks (i : Instr) (f : FV) (lat : Nat) (srcs : List (BitVec 5)) (files : List (Nat × Nat)) (s : State) :
    Runs (vecMasks i f lat srcs files) s .next (s.exposed
      { i := i, due := lat, caps := srcs.map (s.bank s.cur).capMask, pm := (s.bank s.cur).capPred f.m } files) :=
  runs_bind (runs_get s) (runs_vecAdd _ _ _ _ _ _)

theorem runs_vecFlag (f : FV) (s : State) :
    Runs (vecFlag f) s .next (s.exposed
      { i := .vflag f, due := 1, caps := [.mask ((s.bank s.cur).xf.get ⟨f.a.toNat % 5, by omega⟩)], pm := (s.bank s.cur).capPred f.m }
      [(3, f.d.toNat)]) :=
  runs_bind (runs_get s) (runs_vecAdd _ _ _ _ _ _)

/-- `vsel` captures its second source only where no extension word stands for it (R169). -/
theorem vsel_caps (f : FV) (k : Bank) : (if f.e.isSome then [f.a] else [f.a, f.b]).map k.capTile =
    if f.e.isSome then [k.capTile f.a] else [k.capTile f.a, k.capTile f.b] :=
  apply_ite (List.map k.capTile) _ _ _

/-- Settles O15: each kind of vector instruction by what its sources are. -/
theorem vectorsComplete : Obligations.VectorsComplete := by
  unfold Obligations.VectorsComplete
  intro i f lat caps files s t h he hf
  cases i with
  -- tiles into a tile
  | vadd _ | vsub _ | vmul _ | vmin _ | vmax _ | vfma _ | vfms _ | vabs _ | vneg _ | viadd _ | visub _ | vimul _ | viand _ | vior _
  | vixor _ | vishl _ | vishr _ | vexp2 _ | vexp2d _ | vlog2 _ | vrcpSeed _ | vrsqSeed _ | vrotr _ | vrotc _ | vbcastr _ | vbcastc _
  | vredr _ | vredc _ | vscanr _ | vscanc _ =>
    cases h
    exact issue_done he (runs_vecTiles _ _ _ _ _) hf
  | vsel _ =>
    cases h
    refine issue_done he (runs_vecTiles _ _ _ _ _) ?_
    rwa [vsel_caps]
  -- tiles into a mask
  | vceq _ | vclt _ | vcle _ | viceq _ | vilt _ =>
    cases h
    exact issue_done he (runs_vecCmp _ _ _) hf
  -- masks into a mask or a scalar register
  | mand _ | mor _ | mxor _ | mandn _ | vany _ | vall _ | mpop _ =>
    cases h
    exact issue_done he (runs_vecMasks _ _ _ _ _ _) hf
  -- flag planes
  | vflag _ =>
    cases h
    exact issue_done he (runs_vecFlag _ _) hf
  | vflagclr _ =>
    cases h
    exact issue_done he (runs_vecAdd _ _ _ _ _ _) hf
  | _ => cases h

end Sys2Proof.Machine
end

section
/-! PROOFS. The values of the integer instructions and constants, each by what characterizes it (R106-R109). -/
namespace Sys2Proof.Machine

/-! ## Shifts, products and quotients -/

theorem shl_getLsbD (x : W64) (m n : Nat) :
    (x <<< m).getLsbD n = (decide (n < 64) && decide (m ≤ n) && x.getLsbD (n - m)) := by
  rw [BitVec.getLsbD_shiftLeft, ← decide_not]
  simp only [Nat.not_lt]

theorem shl_amount_getLsbD (x y : W64) (n : Nat) : (x <<< amount y).getLsbD n =
    (decide (n < 64) && decide (y.toNat % 64 ≤ n) && x.getLsbD (n - y.toNat % 64)) := shl_getLsbD x _ n

theorem shr_amount_getLsbD (x y : W64) (n : Nat) : (x >>> amount y).getLsbD n = x.getLsbD (n + y.toNat % 64) := by
  rw [BitVec.getLsbD_ushiftRight, Nat.add_comm, amount]

theorem sra_amount_toInt (x y : W64) : (x.sshiftRight (amount y)).toInt = x.toInt / 2 ^ (y.toNat % 64) := by
  rw [BitVec.toInt_sshiftRight, Int.shiftRight_eq_div_pow, amount]
  norm_cast

/-- The high half of a product of two signed words is a signed word. -/
theorem mulHigh_toInt (x y : W64) : (mulHigh x y).toInt = x.toInt * y.toInt / 2 ^ 64 := by
  have hlo : -2 ^ (64 * 2 - 2) ≤ x.toInt * y.toInt := BitVec.le_toInt_mul_toInt
  have hhi : x.toInt * y.toInt ≤ 2 ^ (64 * 2 - 2) := BitVec.toInt_mul_toInt_le
  unfold mulHigh
  rw [BitVec.toInt_ofInt]
  exact Int.bmod_eq_of_le (by omega) (by omega)

theorem minS_toInt (x y : W64) : (minS x y).toInt = min x.toInt y.toInt := by
  unfold minS
  rw [apply_ite BitVec.toInt]
  simp only [BitVec.slt_iff_toInt_lt]
  split <;> omega

theorem maxS_toInt (x y : W64) : (maxS x y).toInt = max x.toInt y.toInt := by
  unfold maxS
  rw [apply_ite BitVec.toInt]
  simp only [BitVec.slt_iff_toInt_lt]
  split <;> omega

/-- Division by a word that is not 0 is the signed division of words. -/
theorem divide_eq_sdiv {y : W64} (hy : y ≠ 0) (x : W64) : divide x y = x.sdiv y := by
  refine BitVec.eq_of_toInt_eq ?_
  rw [divide, if_neg hy, BitVec.toInt_ofInt, BitVec.toInt_sdiv]

theorem divide_toInt {x y : W64} (hy : y ≠ 0) (h : ¬(x = BitVec.intMin 64 ∧ y = -1)) :
    (divide x y).toInt = x.toInt.tdiv y.toInt := by
  rw [divide_eq_sdiv hy]
  exact BitVec.toInt_sdiv_of_ne_or_ne x y (not_and_or.1 h)

theorem divide_intMin : divide (BitVec.intMin 64) (-1) = BitVec.intMin 64 := by
  rw [divide_eq_sdiv (by decide)]
  exact BitVec.intMin_sdiv_neg_one

/-! ## Compares -/

theorem ofBool_eq_ite {b : Bool} {p : Prop} [Decidable p] (h : b = true ↔ p) : ofBool b = if p then 1 else 0 :=
  ite_congr (propext h) (fun _ => rfl) fun _ => rfl

/-! ## Counts of bits -/

/-- `n` is the first of 64 places where `p` holds, 64 when there is none. -/
def FirstSet (p : Nat → Bool) (n : Nat) : Prop := n ≤ 64 ∧ (∀ k, k < n → p k = false) ∧ (n < 64 → p n = true)

theorem FirstSet.not_lt {p : Nat → Bool} {m n : Nat} (hm : FirstSet p m) (hn : FirstSet p n) : ¬m < n := by
  obtain ⟨-, -, hset⟩ := hm
  obtain ⟨hle, hclear, -⟩ := hn
  intro h
  have := hset (by omega)
  rw [hclear m h] at this
  cases this

/-- There is one such place. -/
theorem FirstSet.eq_iff {p : Nat → Bool} {m : Nat} (hm : FirstSet p m) (n : Nat) : m = n ↔ FirstSet p n :=
  ⟨fun h => h ▸ hm, fun hn => Nat.le_antisymm (Nat.not_lt.1 (hn.not_lt hm)) (Nat.not_lt.1 (hm.not_lt hn))⟩

theorem clz64_firstSet (x : W64) : FirstSet (fun k => x.getLsbD (63 - k)) (clz64 x).toNat := by
  by_cases hx : x = 0
  · subst hx
    exact ⟨by decide, fun k _ => BitVec.getLsbD_zero, fun h => absurd h (by decide)⟩
  · have h0 : x.toNat ≠ 0 := fun h => hx (BitVec.eq_of_toNat_eq h)
    have hlog : Nat.log2 x.toNat < 64 := (Nat.log2_lt h0).2 x.isLt
    have hn : (clz64 x).toNat = 63 - Nat.log2 x.toNat := by
      rw [clz64, if_neg hx, BitVec.toNat_ofNat]
      omega
    rw [hn]
    refine ⟨by omega, fun k hk => ?_, fun _ => ?_⟩
    · exact Nat.testBit_lt_two_pow ((Nat.log2_lt h0).1 (by omega))
    · show x.getLsbD (63 - (63 - Nat.log2 x.toNat)) = true
      rw [show 63 - (63 - Nat.log2 x.toNat) = Nat.log2 x.toNat by omega]
      exact Nat.testBit_log2 h0

/-- The count of trailing zeros from a place up to which all bits are 0. -/
theorem ctzFrom_firstSet (x : W64) (n : Nat) (hn : n ≤ 64) (h : ∀ k, k < 64 - n → x.getLsbD k = false) :
    FirstSet (fun k => x.getLsbD k) (ctzFrom x n) := by
  induction n with
  | zero => exact ⟨Nat.le_refl _, h, fun h => absurd h (Nat.lt_irrefl _)⟩
  | succ n ih =>
    unfold ctzFrom
    cases hb : x.getLsbD (63 - n) with
    | true =>
      rw [if_pos rfl]
      exact ⟨by omega, fun k hk => h k (by omega), fun _ => hb⟩
    | false =>
      rw [if_neg Bool.false_ne_true]
      refine ih (by omega) fun k hk => ?_
      rcases Nat.lt_or_ge k (63 - n) with hlt | hge
      · exact h k (by omega)
      · rw [show k = 63 - n by omega]
        exact hb

theorem ctz64_firstSet (x : W64) : FirstSet (fun k => x.getLsbD k) (ctz64 x).toNat := by
  have h := ctzFrom_firstSet x 64 (Nat.le_refl _) fun k hk => absurd hk (by omega)
  have hn : (ctz64 x).toNat = ctzFrom x 64 := by
    rw [ctz64, BitVec.toNat_ofNat]
    exact Nat.mod_eq_of_lt (Nat.lt_of_le_of_lt h.1 (by decide))
  rwa [hn]

theorem onesBelow_eq_length {w : Nat} (x : BitVec w) (n : Nat) :
    onesBelow x n = ((List.range n).filter fun k => x.getLsbD k).length := by
  induction n with
  | zero => rfl
  | succ n ih =>
    rw [onesBelow, ih, List.range_succ, List.filter_append, List.length_append]
    cases h : x.getLsbD n <;> simp [h]

theorem popc64_toNat (x : W64) : (popc64 x).toNat = ((List.range 64).filter fun n => x.getLsbD n).length := by
  have hle : ((List.range 64).filter fun n => x.getLsbD n).length ≤ 64 :=
    (List.length_filter_le _ _).trans (List.length_range ..).le
  rw [popc64, onesBelow_eq_length, BitVec.toNat_ofNat]
  exact Nat.mod_eq_of_lt (Nat.lt_of_le_of_lt hle (by decide))

/-! ## Constants -/

theorem lcat_getLsbD (y z : W64) (n : Nat) : ((z <<< 18) ||| y).getLsbD n =
    (decide (n < 64) && decide (18 ≤ n) && z.getLsbD (n - 18) || y.getLsbD n) := by
  rw [BitVec.getLsbD_or, shl_getLsbD]

/-! ## The statement -/

/-- Settles O49: each value by the lemma that characterizes it. -/
theorem integerValues : Obligations.IntegerValues := by
  unfold Obligations.IntegerValues
  intro f x y z
  refine ⟨rfl, rfl, rfl, rfl, rfl, shl_amount_getLsbD x y, shr_amount_getLsbD x y, sra_amount_toInt x y, BitVec.toNat_mul x y,
    mulHigh_toInt x y, minS_toInt x y, maxS_toInt x y, fun hy => if_pos hy, fun hy h => divide_toInt hy h, ?_,
    ofBool_eq_ite beq_iff_eq, ?_, ofBool_eq_ite BitVec.slt_iff_toInt_lt, ofBool_eq_ite BitVec.ult_iff_toNat_lt,
    ofBool_eq_ite BitVec.sle_iff_toInt_le, ofBool_eq_ite BitVec.ule_iff_toNat_le, fun n => (clz64_firstSet x).eq_iff n,
    fun n => (ctz64_firstSet x).eq_iff n, popc64_toNat x, rfl, fun g => ?_, fun g => ⟨rfl, lcat_getLsbD y z⟩⟩
  · rintro rfl rfl
    exact divide_intMin
  · exact (ofBool_eq_ite bne_iff_ne).trans (ite_not ..)
  · exact ⟨rfl, rfl, rfl, rfl, shl_amount_getLsbD x y, shr_amount_getLsbD x y, sra_amount_toInt x y, BitVec.toNat_mul x y⟩

end Sys2Proof.Machine
end

section
/-! PROOFS. The integer instructions, `li`, `lcat`, `nop`, `wait` and `csel` complete (R105-R109). -/
namespace Sys2Proof.Machine

/-! ## The instructions by their shapes -/

theorem exec_shapeAB {i : Instr} {f : RRR} {lat : Nat} (h : shapeAB i = some (f, lat)) (s : State) :
    exec i s = issue i s (aluRRR i f lat) := by
  unfold shapeAB at h
  split at h <;> cases h <;> rfl

theorem exec_shapeImm {i : Instr} {f : RRI} {lat : Nat} (h : shapeImm i = some (f, lat)) (s : State) :
    exec i s = issue i s (aluRRI i f lat) := by
  unfold shapeImm at h
  split at h <;> cases h <;> rfl

theorem exec_shapeUn {i : Instr} {f : RRR} (h : shapeUn i = some f) (s : State) : exec i s = issue i s (aluUn i f 1) := by
  unfold shapeUn at h
  split at h <;> cases h <;> rfl

/-! ## `csel` -/

/-- What `csel` leaves on C, A and S once its destination is reserved: the reserved slot given back where x is 0, the write of y
pending elsewhere (R109). -/
def State.selected (s : State) (d : Dst) (x y : W64) : State :=
  if x = 0 then (match d with
    | .q n r => s.modQ s.cur n (·.unreserve r)
    | _ => s) else s.pended d y

theorem exec_csel_done {f : RRR} {s s1 s2 t : State} {x y : W64} {d : Dst} (he : Enters (.csel f) s = true) (hq : s1.cur.q ≠ 2)
    (hs : Runs (sourcesAB f) s (x, y) s1) (hd : Runs (destOf f.d) s1 d s2) (hf : Follows (.csel f) .next (s2.selected d x y) t) :
    exec (.csel f) s = .next (t.done .next) := by
  refine issue_done he (runs_bind hs (runs_bind (runs_get s1) ?_)) hf
  simp only [hq, if_false]
  refine runs_bind hd ?_
  unfold State.selected
  by_cases hx : x = 0
  · simp only [hx, if_true]
    cases d with
    | q n r => exact runs_bind (runs_modify _ _) (runs_pure _ _)
    | _ => exact runs_bind (runs_pure _ _) (runs_pure _ _)
  · simp only [hx, if_false]
    exact runs_bind (runs_pendWrite _ _ _ _) (runs_pure _ _)

/-- On X `csel` enters the pipeline, which decides at its due slot. -/
theorem exec_csel_leaves_x {f : RRR} {s s1 : State} {x y : W64} (he : Enters (.csel f) s = true) (hq : s1.cur.q = 2)
    (hs : Runs (sourcesAB f) s (x, y) s1) : LeavesScalar (.csel f) (exec (.csel f) s) s1 f.d 1 x y 0 := by
  refine leavesScalar_issue he fun u hu => runs_bind hs (runs_bind (runs_get s1) ?_)
  simp only [hq, if_true]
  exact hu

/-! ## The statement -/

/-- Settles O1: each shape by what its body reads, and then leaves as its result. -/
theorem integersComplete : Obligations.IntegersComplete := by
  unfold Obligations.IntegersComplete
  refine ⟨?_, ?_, ?_, ?_, ?_, ?_, ?_, ?_, fun f s x y s1 => exec_csel_leaves_x⟩
  · intro i f lat s x y s1 hi he hs
    rw [exec_shapeAB hi]
    exact leavesScalar_issue he fun u hu => runs_bind hs hu
  · intro i f lat s vs s1 hi he hs
    rw [exec_shapeImm hi]
    exact leavesScalar_issue he fun u hu => runs_bind hs hu
  · intro i f s vs s1 hi he hs
    rw [exec_shapeUn hi]
    exact leavesScalar_issue he fun u hu => runs_bind hs hu
  · intro f s s1 he hs
    exact leavesScalar_issue he fun u hu => runs_bind hs hu
  · intro f s v s1 he hs
    exact leavesScalar_issue he fun u hu => runs_bind hs hu
  · intro s t he hf
    exact issue_done he (runs_pure _ _) hf
  · intro f s t he hf
    exact issue_done he (runs_bind (runs_modify _ _) (runs_pure _ _)) hf
  · intro f s x y s1 d s2 t he hq hs hd hf
    exact exec_csel_done he hq hs hd hf

end Sys2Proof.Machine
end

section
/-! PROOFS. What a scalar instruction leaves alone, from its operands to its successor (R81, R97, R98, R106-R109). -/
namespace Sys2Proof.Machine

/-! ## Steps of a turn within the frame -/

theorem KeepsOutside.trans {s t u : State} (hc : t.cur = s.cur) (h : KeepsOutside s t) (h' : KeepsOutside t u) :
    KeepsOutside s u := by
  obtain ⟨a1, a2, a3, a4, a5, a6, die, a7, host, a8, a9, a10, a11, a12, a13, a14, a15, core, bank, seq⟩ := h
  obtain ⟨b1, b2, b3, b4, b5, b6, die', b7, host', b8, b9, b10, b11, b12, b13, b14, b15, core', bank', seq'⟩ := h'
  rw [hc] at core' bank' seq'
  exact ⟨b1.trans a1, b2.trans a2, b3.trans a3, b4.trans a4, b5.trans a5, b6.trans a6, fun d => (die d).trans (die' d), b7.trans a7,
    host.trans host', b8.trans a8, b9.trans a9, b10.trans a10, b11.trans a11, b12.trans a12, b13.trans a13, b14.trans a14,
    b15.trans a15, fun c hne => (core' c hne).trans (core c hne), fun b hne => (bank' b hne).trans (bank b hne),
    fun q hne => (seq' q hne).trans (seq q hne)⟩

theorem KeepsSystem.trans {k k' k'' : Bank} (h : KeepsSystem k k') (h' : KeepsSystem k' k'') : KeepsSystem k k'' := by
  unfold KeepsSystem at *
  simp only [h', h, and_self]

theorem KeepsVector.trans {k k' k'' : Bank} (h : KeepsVector k k') (h' : KeepsVector k' k'') : KeepsVector k k'' := by
  unfold KeepsVector at *
  simp only [h', h, and_self]

/-- Part of a sequencer's turn that stays within the frame of a scalar instruction. -/
def ScalarStep (s t : State) : Prop := t.cur = s.cur ∧ ScalarFrame s t

theorem ScalarStep.trans {s t u : State} (h : ScalarStep s t) (h' : ScalarStep t u) : ScalarStep s u := by
  obtain ⟨hc, out, sys, vec⟩ := h
  obtain ⟨hc', out', sys', vec'⟩ := h'
  rw [hc] at sys' vec'
  refine ⟨hc'.trans hc, out.trans hc out', sys.trans sys', fun hq => ?_⟩
  obtain ⟨v, r⟩ := vec hq
  obtain ⟨v', r'⟩ := vec' hq
  exact ⟨v.trans v', r'.trans r⟩

theorem ReadFrame.scalarStep {s t : State} (h : ReadFrame s t) : ScalarStep s t := by
  refine ⟨h.cur, h.keepsOutside, h.keepsSystem, fun _ => ⟨h.keepsVector, ?_⟩⟩
  obtain ⟨u, hu⟩ := h.sq
  rw [hu]

theorem ScalarStep.refl (s : State) : ScalarStep s s := (ReadFrame.refl s).scalarStep

/-- An update of a bank that keeps the flags and system registers, the other sequencers and, off X, the vector registers and the
scalar ones. -/
def KeepsScalar (q : SeqId) (k k' : Bank) : Prop :=
  KeepsSystem k k' ∧ (∀ p, p ≠ q → k'.seqs.get p = k.seqs.get p) ∧
    (q ≠ 2 → KeepsVector k k' ∧ (k'.seqs.get q).s = (k.seqs.get q).s)

theorem modBank_scalarStep {s : State} {f : Bank → Bank} (h : KeepsScalar s.cur.q (s.bank s.cur) (f (s.bank s.cur))) :
    ScalarStep s (s.modBank s.cur f) := by
  obtain ⟨sys, seqs, vec⟩ := h
  refine ⟨rfl, ⟨rfl, rfl, rfl, rfl, rfl, rfl, fun d => SameDie.refl _, rfl, SameHost.refl _, rfl, rfl, rfl, rfl, rfl, rfl, rfl, rfl,
    fun c hne => ?_, fun b hne => ?_, ?_⟩, ?_, ?_⟩
  · rw [State.modBank_core, if_neg (Ne.symm hne)]
  · rw [State.modBank_core, if_pos rfl, Core.modBank_get, if_neg (Ne.symm hne)]
  · rwa [State.modBank_bank_self]
  · rwa [State.modBank_bank_self]
  · unfold State.sq
    rwa [State.modBank_bank_self]

theorem keepsScalar_modSeq {q : SeqId} {f : Seq → Seq} {k : Bank} (h : q ≠ 2 → (f (k.seqs.get q)).s = (k.seqs.get q).s) :
    KeepsScalar q k (k.modSeq q f) := by
  refine ⟨by simp [KeepsSystem], fun p hne => ?_, fun hq => ⟨by simp [KeepsVector], ?_⟩⟩
  · rw [Bank.modSeq_get, if_neg (Ne.symm hne)]
  · rw [Bank.modSeq_get_self, h hq]

theorem modSeq_scalarStep {s : State} {f : Seq → Seq} (h : s.cur.q ≠ 2 → (f (s.sq s.cur)).s = (s.sq s.cur).s) :
    ScalarStep s (s.modSeq s.cur f) :=
  modBank_scalarStep (keepsScalar_modSeq h)

theorem modQ_scalarStep (s : State) (n : Fin 16) (f : Queue → Queue) : ScalarStep s (s.modQ s.cur n f) :=
  (modQ_frame s n f).scalarStep

/-- Steps one after another, of the same sequencer's turn. -/
theorem foldl_scalarStep {α : Type} {w : Who} {f : State → α → State} (h : ∀ s x, s.cur = w → ScalarStep s (f s x)) (xs : List α)
    {s : State} (hw : s.cur = w) : ScalarStep s (xs.foldl f s) := by
  induction xs generalizing s with
  | nil => exact ScalarStep.refl s
  | cons x xs ih =>
    have hx := h s x hw
    exact hx.trans (ih (hx.1.trans hw))

/-! ## Results -/

theorem retained_scalarStep (s : State) (r : List (Nat × Nat)) (lat : Nat) (x : Option XEnt) : ScalarStep s (s.retained r lat x) := by
  unfold State.retained
  split
  · exact ScalarStep.refl s
  · obtain ⟨sys, seqs, vec⟩ := keepsScalar_modSeq (q := s.cur.q) (k := s.bank s.cur)
      (f := fun q => { q with ret := (⟨r, lat, x, (s.bank s.cur).nextRet⟩ :: q.ret).take 8 }) fun _ => rfl
    exact modBank_scalarStep ⟨sys, seqs, vec⟩

theorem pended_scalarStep (s : State) (d : Dst) (v : W64) (lat : Nat) : ScalarStep s (s.pended d v lat) := by
  have hr := retained_scalarStep s d.file lat none
  unfold State.pended
  cases d with
  | drop => exact hr
  | l n =>
    refine hr.trans ((modSeq_scalarStep fun _ => ?_).trans (modSeq_scalarStep fun _ => ?_)) <;> rfl
  | _ => exact hr.trans (modSeq_scalarStep fun _ => rfl)

/-- A result on X enters its pipeline, which the frame of X leaves open. -/
theorem exposed_scalarStep {s : State} (hq : s.cur.q = 2) (x : XEnt) (files : List (Nat × Nat)) : ScalarStep s (s.exposed x files) := by
  have hr := retained_scalarStep s files x.due (some x)
  unfold State.exposed
  rw [← hr.1] at hq ⊢
  exact hr.trans (modBank_scalarStep ⟨by simp [KeepsSystem], fun _ _ => rfl, fun hne => absurd hq hne⟩)

/-! ## X's slot -/

section
variable {s : State} (hq : s.cur.q = 2)
include hq

/-- On X an update of the bank may change the vector registers, masks and flag planes and the pipeline. -/
theorem modBank_scalarStep_x {f : Bank → Bank} (hk : KeepsSystem (s.bank s.cur) (f (s.bank s.cur)))
    (hs : (f (s.bank s.cur)).seqs = (s.bank s.cur).seqs) : ScalarStep s (s.modBank s.cur f) :=
  modBank_scalarStep ⟨hk, fun _ _ => by rw [hs], fun hne => absurd hq hne⟩

theorem modSeq_scalarStep_x (f : Seq → Seq) : ScalarStep s (s.modSeq s.cur f) :=
  modSeq_scalarStep fun hne => absurd hq hne

theorem landDst_scalarStep (d : Dst) (v : W64) : ScalarStep s (s.landDst s.cur d v) := by
  unfold State.landDst
  cases d with
  | s n => exact modSeq_scalarStep_x hq _
  | l n => exact modSeq_scalarStep_x hq _
  | cnt n => exact modSeq_scalarStep_x hq _
  | q n r => exact modQ_scalarStep s n _
  | drop => exact ScalarStep.refl s

theorem landWr_scalarStep (e : XEnt) (x : Wr) : ScalarStep s (s.landWr s.cur e x) := by
  unfold State.landWr
  cases x with
  | fld f v =>
    dsimp only
    split
    · exact landDst_scalarStep hq _ v
    · split
      · exact landDst_scalarStep hq _ v
      · exact landDst_scalarStep hq _ v
  | cnt n v => exact landDst_scalarStep hq _ v
  | tile d t m => exact modBank_scalarStep_x hq (by simp [KeepsSystem]) rfl
  | mask d x =>
    dsimp only
    split
    · exact ScalarStep.refl s
    · exact modBank_scalarStep_x hq (by simp [KeepsSystem]) rfl
  | xf p => exact modBank_scalarStep_x hq (by simp [KeepsSystem, Bank.raiseXf]) rfl
  | clr set m => exact modBank_scalarStep_x hq (by simp [KeepsSystem]) rfl
  | rows rs => exact foldl_scalarStep (w := s.cur) (fun _ _ ht => ht ▸ modQ_scalarStep _ _ _) rs rfl
  | free => exact modQ_scalarStep s _ _

theorem landX_scalarStep (e : XEnt) : ScalarStep s (s.landX s.cur e) :=
  foldl_scalarStep (w := s.cur) (fun _ x ht => ht ▸ landWr_scalarStep (ht ▸ hq) e x) _ rfl

theorem landDue_scalarStep : ScalarStep s (s.landDue s.cur) := by
  have land (es : List XEnt) {t : State} (ht : t.cur = s.cur) : ScalarStep t (es.foldl (fun u e => u.landX s.cur e) t) :=
    foldl_scalarStep (fun u e hu => hu ▸ landX_scalarStep (hu ▸ hq) e) es ht
  have h1 : ScalarStep s (s.modBank s.cur fun k => { k with xpend := (s.bank s.cur).xpend.filter (·.due != 0) }) :=
    modBank_scalarStep_x hq (by simp [KeepsSystem]) rfl
  have h2 := h1.trans (land (((s.bank s.cur).xpend.filter (·.due == 0)).filter (·.clears)) h1.1)
  exact h2.trans (land _ h2.1)

theorem xSlot_scalarStep : ScalarStep s (s.xSlot s.cur) := by
  have h1 : ScalarStep s (s.modBank s.cur fun k =>
      { k with xpend := k.xpend.map fun e => { e with due := e.due - 1 }, slots := k.slots + 1 }) :=
    modBank_scalarStep_x hq (by simp [KeepsSystem]) rfl
  exact h1.trans (landDue_scalarStep (s := s.modBank s.cur _) hq)

end

/-! ## The successor -/

theorem backEdge_s (pc : W64) (n : Nat) (q : Seq) : (backEdge pc n q).1.s = q.s := by
  induction n generalizing q with
  | zero => rfl
  | succ n ih =>
    unfold backEdge
    split
    · rfl
    · dsimp only
      split
      · rfl
      · exact ih _

/-- Finding the successor only reads, and keeps the scalar registers. -/
theorem runs_succOf {i : Instr} {q q' : Seq} {s t : State} (h : Runs (succOf i q) s q' t) : ReadFrame s t ∧ q'.s = q.s := by
  have hb := backEdge_s q.pc 4 q
  unfold succOf at h
  split at h
  · rename_i q1 pc heq
    rw [heq] at hb
    obtain ⟨l, t1, h1, h2⟩ := runs_bind_iff.1 h
    cases h2
    exact ⟨readsOnly_fetchCheck _ _ _ _ h1, hb⟩
  · rename_i q1 heq
    rw [heq] at hb
    obtain ⟨pc, t1, h1, h2⟩ := runs_bind_iff.1 h
    have hr := readsOnly_nextInChain _ _ _ _ h1
    dsimp only at h2
    split at h2
    · obtain ⟨l, t2, h3, h4⟩ := runs_bind_iff.1 h2
      cases h4
      exact ⟨hr.trans (readsOnly_fetchCheck _ _ _ _ h3), hb⟩
    · cases h2
      exact ⟨hr, hb⟩

/-- The state in which an instruction that goes on to its successor looks for it: on X its slot has passed and the counts have grown;
elsewhere the pending writes have landed if a back-edge waits for one (R97, R98, R418). -/
def State.slotPassed (s : State) (i : Instr) : State :=
  let t := if s.cur.q = 2 then (s.xSlot s.cur).count s.cur 1 1 else s
  let u := if s.cur.q = 2 && isVector i then t.count s.cur 5 1 else t
  if s.cur.q != 2 && frameInterlock (u.sq s.cur) then u.landAll s.cur else u

theorem slotPassed_x {s : State} (hq : s.cur.q = 2) (i : Instr) : s.slotPassed i =
    if isVector i then ((s.xSlot s.cur).count s.cur 1 1).count s.cur 5 1 else (s.xSlot s.cur).count s.cur 1 1 := by
  simp [State.slotPassed, hq]

/-- On C, A and S nothing passes where no back-edge waits. -/
theorem slotPassed_of_not_x {s : State} (hq : s.cur.q ≠ 2) (h : frameInterlock (s.sq s.cur) = false) (i : Instr) :
    s.slotPassed i = s := by
  simp [State.slotPassed, hq, h]

theorem count_scalarStep {s t : State} (h : ScalarStep s t) (ev n : Nat) : ScalarStep s (t.count s.cur ev n) :=
  h.trans (h.1 ▸ (count_frame t ev n).scalarStep)

theorem slotPassed_scalarStep {s : State} (hf : s.cur.q ≠ 2 → frameInterlock (s.sq s.cur) = false) (i : Instr) :
    ScalarStep s (s.slotPassed i) := by
  by_cases hq : s.cur.q = 2
  · have h1 := count_scalarStep (xSlot_scalarStep hq) 1 1
    rw [slotPassed_x hq]
    split
    · exact count_scalarStep h1 5 1
    · exact h1
  · rw [slotPassed_of_not_x hq (hf hq)]
    exact ScalarStep.refl s

/-- An instruction that goes on to its successor moves its sequencer there. -/
theorem follows_next {i : Instr} {s t : State} (h : Follows i .next s t) :
    ∃ q u, Runs (succOf i ((s.slotPassed i).sq s.cur)) (s.slotPassed i) q u ∧ t = u.modSeq s.cur fun _ => q := by
  unfold Follows advance at h
  obtain ⟨_, _, h1, h2⟩ := runs_bind_iff.1 h
  cases h1
  obtain ⟨_, _, h3, h4⟩ := runs_bind_iff.1 h2
  cases h3
  obtain ⟨q, u, h5, h6⟩ := runs_bind_iff.1 h4
  cases h6
  simp only [Bool.not_false, Bool.and_true, decide_true, decide_eq_true_eq] at h5
  exact ⟨q, u, h5, rfl⟩

theorem follows_scalarStep {i : Instr} {s t : State} (hf : s.cur.q ≠ 2 → frameInterlock (s.sq s.cur) = false)
    (h : Follows i .next s t) : ScalarStep s t := by
  obtain ⟨q, u, hs, rfl⟩ := follows_next h
  obtain ⟨hr, hregs⟩ := runs_succOf hs
  have hp := slotPassed_scalarStep hf i
  have hu := hp.trans hr.scalarStep
  obtain ⟨_, hsq⟩ := hr.sq
  rw [← hu.1]
  refine hu.trans (modSeq_scalarStep fun _ => ?_)
  rw [hregs, hu.1, ← hp.1, hsq]

theorem done_scalarStep (s : State) : ScalarStep s (s.done .next) := by
  unfold State.done State.issued
  split
  · exact ScalarStep.refl s
  · exact modSeq_scalarStep fun _ => rfl

/-! ## Back-edges and pending counters -/

/-- The loop counter that a destination writes. -/
def Dst.counter : Dst → Option (Fin 4)
  | .l n | .cnt n => some n
  | _ => none

theorem Seq.pends_counter (q : Seq) (i : Fin 4) :
    q.pends (BitVec.ofNat 6 (48 + i.val)) = q.pend.any fun p => p.dst.counter == some i := by
  unfold Seq.pends
  congr 1
  funext p
  fin_cases i <;> cases p.dst <;> simp [Dst.counter, fL]

/-- A back-edge waits for no counter when no active frame that ends here has a pending write of its counter. -/
theorem frameInterlock_eq_false {q : Seq} : frameInterlock q = false ↔
    ∀ i, (q.frames.get i).active = true → (q.frames.get i).stop = q.pc → ∀ p ∈ q.pend, p.dst.counter ≠ some i := by
  simp [frameInterlock, Seq.pends_counter]

theorem frameInterlock_append {q : Seq} {d : Dst} (h : frameInterlock q = false)
    (hd : ∀ i, d.counter = some i → (q.frames.get i).active = false) (v : W64) :
    frameInterlock { q with pend := q.pend ++ [⟨d, v⟩] } = false := by
  rw [frameInterlock_eq_false] at h ⊢
  intro i ha hs p hp
  rcases List.mem_append.1 hp with hp | hp
  · exact h i ha hs p hp
  · rw [List.mem_singleton.1 hp]
    intro hc
    exact absurd (hd i hc) (by simp [ha])

theorem endFrame_frames (q : Seq) (n i : Fin 4) : (q.endFrame n).frames.get i =
    if n = i then { q.frames.get i with active := false } else q.frames.get i := by
  unfold Seq.endFrame
  rw [vset_get]
  by_cases h : n = i
  · subst h
    simp
  · simp [h]

theorem frameInterlock_endFrame {q : Seq} (h : frameInterlock q = false) (n : Fin 4) : frameInterlock (q.endFrame n) = false := by
  rw [frameInterlock_eq_false] at h ⊢
  intro i
  rw [endFrame_frames]
  split
  · intro ha
    cases ha
  · exact h i

theorem ReadFrame.frameInterlock {s t : State} (h : ReadFrame s t) :
    Machine.frameInterlock (t.sq t.cur) = Machine.frameInterlock (s.sq s.cur) := by
  obtain ⟨u, hu⟩ := h.sq
  rw [h.cur, hu]
  rfl

theorem retained_sq (s : State) (r : List (Nat × Nat)) (lat : Nat) (x : Option XEnt) :
    ∃ rs, (s.retained r lat x).sq s.cur = { s.sq s.cur with ret := rs } := by
  unfold State.retained
  split
  · exact ⟨_, rfl⟩
  · refine ⟨(⟨r, lat, x, (s.bank s.cur).nextRet⟩ :: (s.sq s.cur).ret).take 8, ?_⟩
    unfold State.sq
    rw [State.modBank_bank_self]
    exact vset_get_self (s.bank s.cur).seqs s.cur.q _

/-- A pending result holds back no back-edge: one for a counter ends its frame (R98, R115). -/
theorem frameInterlock_pended {s : State} {d : Dst} (hd : ∀ n, d ≠ .cnt n) (h : frameInterlock (s.sq s.cur) = false) (v : W64)
    (lat : Nat) : frameInterlock ((s.pended d v lat).sq s.cur) = false := by
  obtain ⟨rs, hr⟩ := retained_sq s d.file lat none
  have hret : frameInterlock ((s.retained d.file lat).sq s.cur) = false := by
    rw [hr]
    exact h
  unfold State.pended
  cases d with
  | drop => exact hret
  | cnt n => exact absurd rfl (hd n)
  | l n =>
    rw [State.modSeq_sq_self, State.modSeq_sq_self]
    refine frameInterlock_append (frameInterlock_endFrame hret n) (fun i hc => ?_) v
    rw [endFrame_frames, if_pos (Option.some.inj hc)]
  | s n | q n r =>
    rw [State.modSeq_sq_self]
    exact frameInterlock_append hret (fun _ hc => by cases hc) v

theorem runs_destOf_ne_cnt {f : BitVec 6} {s t : State} {d : Dst} (h : Runs (destOf f) s d t) (n : Fin 4) : d ≠ .cnt n := by
  unfold destOf at h
  split at h
  · cases h
    split <;> simp
  · split at h
    · obtain ⟨r, u, -, h2⟩ := runs_bind_iff.1 h
      cases h2
      simp
    · cases h
      simp

/-! ## The statement -/

/-- The turn of an instruction whose result goes to a register or a queue, on C, A and S. -/
theorem pended_scalarFrame {i : Instr} {s s1 u v : State} {f : BitVec 6} {d : Dst} {y : W64} {lat : Nat} (he : Enters i s = true)
    (hr : ReadFrame s s1) (hq : s1.cur.q ≠ 2) (hd : Runs (destOf f) s1 d u) (hf : Follows i .next (u.pended d y lat) v) :
    ScalarFrame s (v.done .next) := by
  have hu := hr.trans (readsOnly_destOf _ _ _ _ hd)
  have hp := pended_scalarStep u d y lat
  have hi : frameInterlock (s.sq s.cur) = false := by
    have := enters_interlock he
    rw [hr.cur] at hq
    simpa [hq] using this
  have hv := follows_scalarStep (fun _ => hp.1 ▸ frameInterlock_pended (runs_destOf_ne_cnt hd) (hu.frameInterlock ▸ hi) y lat) hf
  exact (((hu.scalarStep.trans hp).trans hv).trans (done_scalarStep v)).2

/-- The same on X. -/
theorem exposed_scalarFrame {i : Instr} {s s1 u v : State} {fs : List (BitVec 6)} {r : Nat × Nat × Fin 16} {e : XEnt}
    {files : List (Nat × Nat)} (hr : ReadFrame s s1) (hq : s1.cur.q = 2) (hd : Runs (reserveX fs) s1 r u)
    (hf : Follows i .next (u.exposed e files) v) : ScalarFrame s (v.done .next) := by
  have hu := readsOnly_reserveX _ _ _ _ hd
  rw [← hu.cur] at hq
  have hx := exposed_scalarStep hq e files
  have hv := follows_scalarStep (fun hne => absurd hq (hx.1 ▸ hne)) hf
  exact ((((hr.trans hu).scalarStep.trans hx).trans hv).trans (done_scalarStep v)).2

/-- Settles O56: each form by the reads of its sources and the place of its result. -/
theorem scalarFrames : Obligations.ScalarFrames := by
  unfold Obligations.ScalarFrames
  refine ⟨?_, ?_, ?_, ?_⟩
  · intro i f lat s x y s1 d u v _ he hs hq hd hf
    exact pended_scalarFrame he (readsOnly_sourcesAB _ _ _ _ hs) hq hd hf
  · intro i f lat s x y s1 r u v _ _ hs hq hd hf
    exact exposed_scalarFrame (readsOnly_sourcesAB _ _ _ _ hs) hq hd hf
  · intro i f lat s vs s1 d u v y _ he hs hq hd hf
    exact pended_scalarFrame he (readsOnly_sources _ _ _ _ _ _ hs) hq hd hf
  · intro i f s vs s1 d u v y _ he hs hq hd hf
    exact pended_scalarFrame he (readsOnly_sources _ _ _ _ _ _ hs) hq hd hf

end Sys2Proof.Machine
end

section
/-! PROOFS. Loads, stores, atomics and fences complete, and what a fence makes of its agent (R121-R124, R271). -/
namespace Sys2Proof

/-- What a filter of the values of a sparse map leaves at a key. -/
theorem NMap.get?_filterMap {α β : Type} {m : NMap α} (hm : NMap.wf m = true) (f : α → Option β) (n : Nat) :
    NMap.get? (m.filterMap fun kx => (f kx.2).map (kx.1, ·)) n = (NMap.get? m n).bind f := by
  rw [NMap.wf_iff] at hm
  induction m with
  | nil => rfl
  | cons kx m ih =>
    obtain ⟨k, x⟩ := kx
    obtain ⟨hk, hm⟩ := List.pairwise_cons.1 hm
    have hlt (h : n ≤ k) : NMap.get? m n = none := NMap.get?_none_of_lt fun c hc => Nat.lt_of_le_of_lt h (hk c hc)
    cases hx : f x with
    | none =>
      rw [List.filterMap_cons_none (by simp [hx]), ih hm, NMap.get?]
      split
      · rw [hlt (by omega)]
      · split
        · rw [hlt (by omega), Option.bind_some, hx]
          rfl
        · rfl
    | some y =>
      rw [List.filterMap_cons_some (b := (k, y)) (by simp [hx]), NMap.get?, NMap.get?, ih hm]
      split
      · rfl
      · split
        · rw [Option.bind_some, hx]
        · rfl

end Sys2Proof

namespace Sys2Proof.Machine

/-! ## The instructions by their shapes -/

theorem exec_shapeLoad {i : Instr} {f : RRI} {n : Nat} {sg : Bool} (h : shapeLoad i = some (f, n, sg)) (s : State) :
    exec i s = issue i s (loadInstr f n sg) := by
  unfold shapeLoad at h
  split at h <;> cases h <;> rfl

theorem exec_shapeStore {i : Instr} {f : RRI} {n : Nat} (h : shapeStore i = some (f, n)) (s : State) :
    exec i s = issue i s (storeInstr f n) := by
  unfold shapeStore at h
  split at h <;> cases h <;> rfl

theorem exec_shapeAmo {i : Instr} {f : RRR} {cas : Bool} {g : W64 → W64 → W64 → W64} (h : shapeAmo i = some (f, cas, g)) (s : State) :
    exec i s = issue i s (amo f cas g) := by
  unfold shapeAmo at h
  split at h <;> cases h <;> rfl

theorem exec_shapeFence {i : Instr} {t : Nat} (h : shapeFence i = some t) (s : State) : exec i s = issue i s (fenceInstr t) := by
  unfold shapeFence at h
  split at h <;> cases h <;> rfl

/-! ## What their bodies leave -/

/-- A release or fence that finds no open combine buffer goes on at once (R216). -/
theorem runs_flushFirst {scope : Nat} {k : Act Flow} {s t : State} {fl : Flow} (hm : mustFlush s scope = false) (h : Runs k s fl t) :
    Runs (flushFirst scope k) s fl t := by
  refine runs_bind (runs_get s) ?_
  unfold mustFlush at hm
  simp only [hm]
  exact h

theorem runs_loadInstr {f : RRI} {n : Nat} {sg : Bool} {s s1 s2 s3 : State} {x v : W64} {d : Dst}
    (hs : Runs (sources none [f.a] [f.d]) s [x] s1)
    (hv : Runs (loadEa (x + (memForm f).off) n (memForm f).cons (memForm f).ord) s1 v s2) (hd : Runs (destOf f.d) s2 d s3) :
    Runs (loadInstr f n sg) s .next (s3.pended d (if sg then sextBytes v n else v) 0) :=
  runs_bind hs (runs_bind hv (runs_bind hd (runs_bind (runs_pendWrite _ _ _ _) (runs_pure _ _))))

theorem runs_storeInstr {f : RRI} {n : Nat} {s s1 s2 : State} {x y : W64} (hm : mustFlush s ((memForm f).ord.getD 0) = false)
    (hs : Runs (sources none [f.a, f.d] []) s [x, y] s1)
    (he : Runs (storeEa (x + (memForm f).off) n y (memForm f).ord) s1 () s2) : Runs (storeInstr f n) s .next s2 :=
  runs_flushFirst hm (runs_bind hs (runs_bind he (runs_pure _ _)))

theorem runs_fenceInstr {t : Nat} {s : State} (hm : mustFlush s t = false) (hq : s.quietSeq s.cur = true) :
    Runs (fenceInstr t) s .next (s.fenceSeq s.cur t) :=
  runs_flushFirst hm (runs_bind (runs_needQuiet hq) (runs_bind (runs_modify _ _) (runs_pure _ _)))

/-! ## `efence` -/

section
variable {f : RRR} {s : State} (he : Enters (.efence f) s = true) (hq : s.quietSeq s.cur = true)
include he hq

/-- What `efence` does before it looks for a pending error passes (R124). -/
theorem runs_efenceStart : Runs (do entryChecks (.efence f); needQuiet : Act Unit) s () s :=
  runs_bind (enters_checks he) (runs_needQuiet hq)

theorem exec_efence_done {u : State} (hu : (s.sq s.cur).unc = false) (hf : Follows (.efence f) .next (s.fenceSeq s.cur 0) u) :
    exec (.efence f) s = .next (u.done .next) := by
  have h := runs_efenceStart he hq
  unfold Runs at h
  show execEfence f s = _
  unfold execEfence
  rw [h]
  refine (if_neg (by simp [hu])).trans (issue_done he (runs_fenceInstr ?_ hq) hf)
  simp [mustFlush]

theorem exec_efence_stops (hu : (s.sq s.cur).unc = true) :
    exec (.efence f) s = .next (s.stopped (.trap { cause := cUncorr, clears := [s.cur.q] })) := by
  have h := runs_efenceStart he hq
  unfold Runs at h
  show execEfence f s = _
  unfold execEfence
  rw [h]
  exact if_pos hu
end

/-! ## Loads, stores and atomics -/

/-- Settles O4: a load by the bytes that it reads, a store by the entry that it makes. -/
theorem loadsAndStoresComplete : Obligations.LoadsAndStoresComplete := by
  unfold Obligations.LoadsAndStoresComplete
  constructor
  · intro i f n sg s x s1 v s2 d s3 t hi he hs hv hd hf
    rw [exec_shapeLoad hi]
    exact issue_done he (runs_loadInstr hs hv hd) hf
  · intro i f n s x y s1 s2 t hi he hm hs hst hf
    rw [exec_shapeStore hi]
    exact issue_done he (runs_storeInstr hm hs hst) hf

/-- Settles O5: the body of an atomic step by step. -/
theorem atomicsComplete : Obligations.AtomicsComplete := by
  unfold Obligations.AtomicsComplete
  intro i f cas g s vs s1 l s2 s3 v s4 d s5 t hi he hm hs n ea hl hw ha hd hf
  rw [exec_shapeAmo hi]
  exact issue_done he (runs_flushFirst hm (runs_bind hs (runs_bind hl (runs_bind hw (runs_bind ha (runs_bind hd
    (runs_bind (runs_pendWrite _ _ _ _) (runs_pure _ _)))))))) hf

/-! ## A trap that has to wait -/

/-- A trap on a turn of its own that raises an event, or whose frame waits for a path, leaves its sequencer waiting (R11, R362). -/
theorem stopped_trap_waits {s : State} {t : TrapInfo} (hp : s.phase = .alone) (hw : s.trapWaits s.cur t = true) :
    s.stopped (.trap t) = s.modSeq s.cur fun q => { q with stall := 13, obj := 0, objG := false } := by
  unfold State.stopped
  simp only [hp, hw, if_true]

/-- At level 1 a trap ends in the stop of a kill, where the core does not stop in its place (R323). -/
theorem takeTrap_nested {s : State} {w : Who} {t : TrapInfo} (hc : (s.core w.c).stopsOn t = false) (hl : (s.bank w).level = true) :
    s.takeTrap w t = s.nested w [(s.bank w).tfbase, t.cause.setWidth 64, t.fetch.getD (s.sq w).pc, 0] := by
  unfold State.takeTrap
  simp only [hc, hl, if_true, Bool.false_eq_true, if_false]

theorem nested_stopping (s : State) (w : Who) (args : List W64) : ((s.nested w args).bank w).stopping = some (.kill false) := by
  unfold State.nested State.beginKill
  rw [State.event_bank]
  generalize s.freeze w = t
  unfold State.bank
  rw [State.modCore_core, if_pos rfl]
  show (((t.modBank w _).bank w).stopping) = _
  rw [State.modBank_bank_self]

@[simp] theorem clearUnc_level (k : Bank) (q : SeqId) : (k.clearUnc q).level = k.level := by
  unfold Bank.clearUnc
  dsimp only
  split <;> rfl

/-- The bank of a task at level 1 whose C has a pending error. -/
def erringBank : Bank :=
  ({ task := some { w := Vector.replicate 8 0, id := 7, owner := 5 }, level := true } : Bank).modSeq 0 fun q =>
    { q with started := true, unc := true }

/-- That task in a module whose event store is full (R362). -/
def fullStore : State :=
  ({ host := { events := List.replicate 4096 { code := 0, args := [] } } } : State).modBank {} fun _ => erringBank

theorem fullStore_bank : fullStore.bank fullStore.cur = erringBank := State.modBank_bank_self _ _ _

/-- No debugger has claimed its core, and it is not stepping. -/
theorem fullStore_stopsOn (f : Bank → Bank) (t : TrapInfo) :
    ((fullStore.modBank fullStore.cur f).core fullStore.cur.c).stopsOn t = false := by
  have hc : fullStore.core fullStore.cur.c = ({} : Core).modBank 0 fun _ => erringBank := by
    show (({ host := _ } : State).modBank {} _).core (({} : Who).c) = _
    rw [State.modBank_core, if_pos rfl]
    exact congrArg (Core.modBank · 0 _) (replicate_get _ _)
  rw [State.modBank_core, if_pos rfl, hc]
  rfl

theorem fullStore_evWaiting : fullStore.evWaiting = 4096 := List.length_replicate

theorem fullStore_waits (t : TrapInfo) : fullStore.trapWaits fullStore.cur t = true := by
  have hl : (fullStore.bank fullStore.cur).level = true := by rw [fullStore_bank]; rfl
  unfold State.trapWaits State.trapPosts
  rw [fullStore_evWaiting, hl]
  simp

theorem fullStore_enters : Enters (.efence {}) fullStore = true := by
  unfold Enters State.sq
  rw [fullStore_bank]
  rfl

/-- The waiting trap and the trap taken differ in what becomes of the task: only the second ends it. -/
theorem fullStore_not_trapped (t : TrapInfo) :
    fullStore.stopped (.trap t) ≠ (fullStore.modBank fullStore.cur (·.clearUnc 0)).takeTrap fullStore.cur t := by
  intro h
  have hs : ((fullStore.stopped (.trap t)).bank fullStore.cur).stopping = none := by
    rw [stopped_trap_waits rfl (fullStore_waits t), State.modSeq_bank, if_pos ⟨rfl, rfl⟩, fullStore_bank]
    rfl
  rw [h, takeTrap_nested (fullStore_stopsOn _ t), nested_stopping] at hs
  · cases hs
  · rw [State.modBank_bank_self, clearUnc_level, fullStore_bank]
    rfl

/-- Refutes O6: `efence` with a pending error, at level 1 while the event store is full, waits for a place for TrapNested (R362), where
the last clause would have it take its trap at once. -/
theorem not_fencesComplete : ¬ Obligations.FencesComplete := by
  unfold Obligations.FencesComplete
  rintro ⟨-, -, h⟩
  have hq : fullStore.quietSeq fullStore.cur = true := rfl
  have hu : (fullStore.sq fullStore.cur).unc = true := by
    unfold State.sq
    rw [fullStore_bank]
    rfl
  obtain ⟨hstop, htrap⟩ := h {} fullStore fullStore_enters hq hu
  exact fullStore_not_trapped _ (Host.Outcome.next.inj (hstop.symm.trans (htrap rfl)))

/-! ## FENCE -/

@[simp] theorem State.modAgent_agent_self (s : State) (a : Nat) (f : Agent → Agent) : (s.modAgent a f).agent a = f (s.agent a) := by
  unfold State.modAgent State.agent
  simp only [NMap.get?_put_self, Option.getD_some]

theorem State.modAgent_agent_ne {s : State} {a b : Nat} (f : Agent → Agent) (hw : NMap.wf s.agents = true) (h : b ≠ a) :
    (s.modAgent a f).agent b = s.agent b := by
  unfold State.modAgent State.agent
  simp only [NMap.get?_put_ne _ hw h]

/-- A fence changes its agent's view and REL alone (R271). -/
theorem fence_agent (s : State) (a t : Nat) (h : t < 5) :
    let g := s.agent a
    let v := (g.view.join (g.pa.get ⟨t, h⟩)).join { fl := s.latest a t }
    (s.fence a t).agent a = { g with view := v, rel := some (v, t) } := by
  intro g v
  have hp : (s.agent a).pa[t]? = some (g.pa.get ⟨t, h⟩) := Vector.getElem?_eq_getElem h
  unfold State.fence
  simp only [State.modAgent_agent_self, hp]
  rfl

/-- LATEST_t of a word is the index of its last write by a writer of level at most t (R271). -/
theorem latest_get? {s : State} {w : Nat} {h : Hist} (hs : NMap.wf s.hist = true) (hw : NMap.get? s.hist w = some h) (a t : Nat) :
    NMap.get? (s.latest a t) w = (h.ws.findIdx? fun r => level a r.writer ≤ t).map fun i => h.ws.length - i := by
  have he : s.latest a t = s.hist.filterMap fun kh =>
      ((kh.2.ws.findIdx? fun r => level a r.writer ≤ t).map fun i => kh.2.ws.length - i).map (kh.1, ·) := by
    unfold State.latest
    congr 1
    funext kh
    dsimp only
    cases kh.2.ws.findIdx? _ <;> rfl
  rw [he, NMap.get?_filterMap hs (fun x => (x.ws.findIdx? fun r => level a r.writer ≤ t).map fun i => x.ws.length - i), hw]
  rfl

/-- Settles O53: a fence by what it makes of its agent, `efence` by the fence of its body or by its stop. -/
theorem fencesJoinViews : Obligations.FencesJoinViews := by
  unfold Obligations.FencesJoinViews
  refine ⟨?_, fun f s u he hq hu => exec_efence_done he hq hu, fun f s => exec_efence_stops⟩
  intro s a t h g g'
  have hg : g' = _ := fence_agent s a t h
  refine ⟨by rw [hg], by rw [hg], by rw [hg], by rw [hg], fun b hb hw => State.modAgent_agent_ne _ hw hb, ?_⟩
  intro hs w x hw
  exact latest_get? hs hw a t

end Sys2Proof.Machine
end


section
/-! PROOFS. What loads, stores and atomics leave of memory, and where a store stands in its buffer (R121-R123, R268, R269). -/

namespace Sys2Proof

/-! ## Lists from their ends -/

/-- The first of the reversed list with a property is the last of the list. -/
theorem last_of_findIdx?_reverse {α : Type} {l : List α} {p : α → Bool} {i : Nat} (h : l.reverse.findIdx? p = some i) :
    ∃ k x, k + i + 1 = l.length ∧ l[k]? = some x ∧ l.reverse[i]? = some x ∧ p x = true ∧
      ∀ j y, k < j → l[j]? = some y → p y = false := by
  obtain ⟨hi, hp, hlt⟩ := List.findIdx?_eq_some_iff_getElem.1 h
  have hlen := List.length_reverse (as := l)
  have hx : l.reverse[i]? = some l.reverse[i] := List.getElem?_eq_getElem hi
  refine ⟨l.length - 1 - i, l.reverse[i], by omega, ?_, hx, hp, fun j y hj hy => ?_⟩
  · rw [← List.getElem?_reverse (by omega), hx]
  · have hjl := (List.getElem?_eq_some_iff.1 hy).1
    have hr : l.reverse[l.length - 1 - j]? = some y := by
      rw [List.getElem?_reverse (by omega), show l.length - 1 - (l.length - 1 - j) = j by omega, hy]
    obtain ⟨_, rfl⟩ := List.getElem?_eq_some_iff.1 hr
    exact Bool.eq_false_iff.2 (hlt (l.length - 1 - j) (by omega))

theorem reverse_modify_reverse {α : Type} {l : List α} {i k : Nat} {x : α} (hk : k + i + 1 = l.length) (hx : l[k]? = some x)
    (f : α → α) : (l.reverse.modify i f).reverse = l.set k (f x) := by
  have hlen : (l.reverse.modify i f).length = l.length := by simp
  refine List.ext_getElem? fun j => ?_
  by_cases hj : j < l.length
  · rw [List.getElem?_reverse (by omega), hlen, List.getElem?_modify, List.getElem?_reverse (by omega), List.getElem?_set,
      show l.length - 1 - (l.length - 1 - j) = j by omega]
    by_cases hkj : k = j
    · subst hkj
      rw [if_pos rfl, if_pos hj, hx]
      simp [show i = l.length - 1 - k by omega]
    · rw [if_neg hkj]
      simp [show ¬i = l.length - 1 - j by omega]
  · rw [List.getElem?_eq_none (by rw [List.length_reverse]; omega), List.getElem?_eq_none (by rw [List.length_set]; omega)]

/-! ## Bytes of a word in memory -/

theorem Memory.readLe_lt (m : Memory) (a n : Nat) : m.readLe a n < 256 ^ n := by
  have h := Machine.leNat_lt (m.readN a n)
  rwa [Memory.readN_length] at h

/-- The middle of a little-endian number is what stands there (R3). -/
theorem Memory.readLe_mid (m : Memory) (a k n r : Nat) :
    m.readLe a (k + (n + r)) / 256 ^ k % 256 ^ n = m.readLe (a + k) n := by
  have hk := m.readLe_lt a k
  have hn := m.readLe_lt (a + k) n
  rw [Memory.readLe_add, Nat.add_mul_div_left _ _ (by positivity), Nat.div_eq_of_lt hk, Nat.zero_add, Memory.readLe_add,
    Nat.add_mul_mod_self_left, Nat.mod_eq_of_lt hn]

/-- Memory whose bytes from an address are those of a number holds it there. -/
theorem Memory.readLe_of_bytes {m : Memory} {a n v : Nat} (h : ∀ k, k < n → m.read (a + k) = BitVec.ofNat 8 (v / 256 ^ k)) :
    m.readLe a n = v % 256 ^ n := by
  have hb : m.readN a n = leBytes n v := by
    refine List.ext_getElem (by rw [Memory.readN_length, leBytes_length]) fun k h1 h2 => ?_
    have hk : k < n := by rwa [leBytes_length] at h2
    have e1 := Memory.readN_getD m a n k hk
    have e2 := leBytes_getD n v k hk
    rw [List.getD_eq_getElem _ _ h1] at e1
    rw [List.getD_eq_getElem _ _ h2] at e2
    rw [e1, e2, h k hk]
  rw [Memory.readLe, hb, leNat_leBytes]

end Sys2Proof

namespace Sys2Proof.Machine

/-! ## Counting an access -/

/-- A state that differs only in its cores and in the choices it has taken. -/
def State.CoresOnly (s t : State) : Prop := ∃ ch cs, t = { s with choice := ch, cores := cs }

theorem State.CoresOnly.refl (s : State) : s.CoresOnly s := ⟨s.choice, s.cores, rfl⟩

theorem State.CoresOnly.trans {s t u : State} (h : s.CoresOnly t) (h' : t.CoresOnly u) : s.CoresOnly u := by
  obtain ⟨_, _, rfl⟩ := h
  obtain ⟨ch, cs, rfl⟩ := h'
  exact ⟨ch, cs, rfl⟩

theorem choose_coresOnly (s : State) (n : Nat) : s.CoresOnly (s.choose n).2 := by
  obtain ⟨c, hc⟩ := choose_frame s n
  exact ⟨c, s.cores, hc⟩

theorem count_coresOnly (s : State) (w : Who) (ev n : Nat) : s.CoresOnly (s.count w ev n) := by
  unfold State.count
  split
  · exact ⟨_, _, rfl⟩
  · exact State.CoresOnly.refl s

/-- Counting the accesses and flits of an access changes nothing that the access is about (R418). -/
theorem touch_coresOnly (s : State) (w : Who) (l : Nat) : s.CoresOnly (s.touch w l) := by
  have open' (b : Bool) (u : State) (ev m : Nat) :
      u.CoresOnly (if b = true then (u.choose m).2.count w ev (u.choose m).1 else u) := by
    split
    · exact (choose_coresOnly u m).trans (count_coresOnly _ w ev _)
    · exact State.CoresOnly.refl u
  unfold State.touch
  split
  · exact count_coresOnly s w 8 1
  · split
    · exact State.CoresOnly.refl s
    · exact ((count_coresOnly s w 6 1).trans (open' _ _ 7 9)).trans (open' _ _ 9 4)

/-! ## Checks that leave the state -/

theorem needAt_state {b : Bool} {c : Byte} {a : W64} {s t : State} {v : Unit} (h : Runs (needAt b c a) s v t) : t = s := by
  unfold needAt at h
  split at h <;> cases h
  rfl

theorem watch_state {ea : W64} {n : Nat} {rd wr : Bool} {s t : State} {v : Unit} (h : Runs (watch ea n rd wr) s v t) : t = s := by
  obtain ⟨_, _, h1, h2⟩ := runs_bind_iff.1 h
  cases h1
  exact needAt_state h2

theorem raceCheck_state {l : Nat} {ea : W64} {s t : State} {v : Unit} (h : Runs (raceCheck l ea) s v t) : t = s := by
  obtain ⟨_, _, h1, h2⟩ := runs_bind_iff.1 h
  cases h1
  exact needAt_state h2

/-- What follows such a check runs in the state before it. -/
theorem runs_after_check {α : Type} {a : Act Unit} {f : Unit → Act α} {s t : State} {v : α} (ha : ∀ {u x}, Runs a s x u → u = s)
    (h : Runs (a >>= f) s v t) : Runs (f ()) s v t := by
  obtain ⟨_, _, h1, h2⟩ := runs_bind_iff.1 h
  rwa [ha h1] at h2

theorem runs_after_get {α : Type} {f : State → Act α} {s t : State} {v : α} (h : Runs (get >>= f) s v t) : Runs (f s) s v t := by
  obtain ⟨_, _, h1, h2⟩ := runs_bind_iff.1 h
  cases h1
  exact h2

theorem runs_after_set {α : Type} {f : PUnit → Act α} {s t u : State} {v : α} (h : Runs (set u >>= f) s v t) :
    Runs (f ⟨⟩) u v t := by
  obtain ⟨_, _, h1, h2⟩ := runs_bind_iff.1 h
  cases h1
  exact h2

theorem needQuiet_state {s t : State} {v : Unit} (h : Runs needQuiet s v t) : t = s := by
  have h1 := runs_after_get h
  split at h1
  · cases h1
  · cases h1
    rfl

/-- The same where the check is made under a condition alone. -/
theorem runs_after_check_if {α : Type} {c : Prop} [Decidable c] {a : Act Unit} {f : Unit → Act α} {s t : State} {v : α}
    (ha : ∀ {u x}, Runs a s x u → u = s) (h : Runs (if c then a >>= f else f ()) s v t) : Runs (f ()) s v t := by
  split at h
  · exact runs_after_check ha h
  · exact h

/-- What answers has not met a condition to stop. -/
theorem runs_past_stop {α β : Type} {c : Prop} [Decidable c] {x : Stop} {f : β → Act α} {a : Act α} {s t : State} {v : α}
    (h : Runs (if c then (throw x : Act β) >>= f else a) s v t) : ¬c ∧ Runs a s v t := by
  by_cases hc : c
  · rw [if_pos hc] at h
    exact absurd h runs_throw_bind
  · rw [if_neg hc] at h
    exact ⟨hc, h⟩

/-! ## The store buffer -/

/-- The entry that a store makes, with its number and the view of the last fence before it (R268). -/
def State.numbered (s : State) (e : WEnt) : WEnt :=
  let e' : WEnt := { e with seq := (s.agent e.agent).next }
  match (s.agent e.agent).rel with
  | some (v, t) => if e.rel then e' else { e' with carried := [⟨e.agent, t, v⟩] }
  | none => e'

theorem numbered_same (s : State) (e : WEnt) : (s.numbered e).parts = e.parts ∧ (s.numbered e).agent = e.agent ∧
    (s.numbered e).rel = e.rel := by
  unfold State.numbered
  dsimp only
  split
  · split <;> exact ⟨rfl, rfl, rfl⟩
  · exact ⟨rfl, rfl, rfl⟩

/-- The mask and the bytes of a store laid over an entry that stands in the buffer. -/
def WEnt.merged (x : WEnt) (p : WPart) : WEnt :=
  { x with parts := x.parts.map fun q => { q with mask := q.mask ||| p.mask, data := overlay q.data p.mask p.data } }

/-- A store of one word becomes a new last entry, or merges into the youngest entry of its word, where neither is a release (R269). -/
theorem store_cases (s : State) {e : WEnt} {p : WPart} (hp : e.parts = [p]) :
    let a := e.agent
    let sb := (s.agent a).sb
    ∃ u : State, (∃ ags ch, u = { s with agents := ags, choice := ch }) ∧ (u.agent a).sb = sb ∧
      (s.store e = (u.modAgent a fun g => { g with sb := g.sb ++ [s.numbered e] }) ∨
        ∃ i x, sb.reverse.findIdx? (·.hits p.word) = some i ∧ sb.reverse[i]? = some x ∧ x.parts.length = 1 ∧ e.rel = false ∧
          s.store e = u.modAgent a fun g => { g with sb := (g.sb.reverse.modify i (·.merged p)).reverse }) := by
  intro a sb
  obtain ⟨hparts, -, hrel⟩ := numbered_same s e
  generalize hst : s.store e = t
  unfold State.store at hst
  extract_lets e0 s1 e1 sb1 at hst
  have hg : s1.agent a = { s.agent a with next := (s.agent a).next + 1 } := State.modAgent_agent_self s a _
  have he : e1 = s.numbered e := by
    unfold State.numbered
    simp only [e1, hg]
    rfl
  have hsb : sb1 = sb := by simp only [sb1, hg]; rfl
  clear_value e1 sb1
  subst he hsb
  rw [hparts.trans hp] at hst
  dsimp -zeta only at hst
  extract_lets young ok at hst
  have hc : ∃ ch, (if ok = true then s1.choose 2 else (0, s1)).2 = { s1 with choice := ch } := by
    split
    · exact choose_frame s1 2
    · exact ⟨s1.choice, rfl⟩
  generalize (if ok = true then s1.choose 2 else (0, s1)) = c at hst hc
  obtain ⟨ch, hc⟩ := hc
  refine ⟨c.2, ⟨s1.agents, ch, hc⟩, (by rw [hc]; show (s1.agent a).sb = sb; rw [hg]), ?_⟩
  split at hst
  · rename_i i hok hy
    obtain ⟨hok, -⟩ := Bool.and_eq_true_iff.1 hok
    simp only [ok, hy, Bool.and_eq_true, Bool.not_eq_true'] at hok
    obtain ⟨⟨hr, -⟩, hx⟩ := hok
    split at hx
    · rename_i x hxs
      obtain ⟨hlen, -⟩ := Bool.and_eq_true_iff.1 hx
      exact .inr ⟨i, x, hy, hxs, beq_iff_eq.1 hlen, hrel ▸ hr, hst.symm⟩
    · cases hx
  · exact .inl hst.symm

theorem hits_single {e : WEnt} {q : WPart} {w : Nat} (hq : e.parts = [q]) (h : e.hits w = true) : q.word = w := by
  simpa [WEnt.hits, hq] using h

theorem word_ne_of_not_hits {e : WEnt} {w : Nat} (h : e.hits w = false) (z : WPart) (hz : z ∈ e.parts) : z.word ≠ w := by
  simpa using List.any_eq_false.1 h z hz

/-- Where a store of one word stands in the buffer `new` of its agent, which was `old`. -/
def StandsIn (e : WEnt) (p : WPart) (old new : List WEnt) : Prop :=
  (∃ x, new = old ++ [x] ∧ x.parts = [p] ∧ x.agent = e.agent ∧ x.rel = e.rel) ∨
  (e.rel = false ∧ ∃ i x q, old[i]? = some x ∧ x.parts = [q] ∧ q.word = p.word ∧
    (∀ j y, i < j → old[j]? = some y → ∀ z, z ∈ y.parts → z.word ≠ p.word) ∧
    new = old.set i { x with parts := [{ q with mask := q.mask ||| p.mask, data := overlay q.data p.mask p.data }] })

theorem store_standsIn (s : State) {e : WEnt} {p : WPart} (hp : e.parts = [p]) :
    StandsIn e p (s.agent e.agent).sb ((s.store e).agent e.agent).sb := by
  obtain ⟨u, -, hsb, hst | ⟨i, x, hyoung, hx, hlen, hrel, hst⟩⟩ := store_cases s hp
  · obtain ⟨hparts, hagent, hrel⟩ := numbered_same s e
    refine .inl ⟨s.numbered e, ?_, hparts.trans hp, hagent, hrel⟩
    rw [hst, State.modAgent_agent_self, hsb]
  · obtain ⟨k, y, hk, hy, hy', hhits, hlater⟩ := last_of_findIdx?_reverse hyoung
    obtain rfl : y = x := Option.some.inj (hy'.symm.trans hx)
    obtain ⟨q, hq⟩ := List.length_eq_one_iff.1 hlen
    refine .inr ⟨hrel, k, y, q, hy, hq, hits_single hq hhits, fun j z hj hz => word_ne_of_not_hits (hlater j z hj hz), ?_⟩
    rw [hst, State.modAgent_agent_self, hsb, reverse_modify_reverse hk hy, WEnt.merged, hq]
    rfl

/-- Memory, its write sequences and the writes on their way are those of another state. -/
def State.SameMemory (s t : State) : Prop := t.mem = s.mem ∧ t.hist = s.hist ∧ t.flight = s.flight

theorem ReadFrame.sameMemory {s t : State} (h : ReadFrame s t) : s.SameMemory t := by
  obtain ⟨_, _, _, _, _, _, -, -, -, rfl⟩ := h
  exact ⟨rfl, rfl, rfl⟩

theorem store_sameMemory (s : State) {e : WEnt} {p : WPart} (hp : e.parts = [p]) : s.SameMemory (s.store e) := by
  obtain ⟨u, ⟨_, _, hu⟩, -, hst | ⟨_, _, -, -, -, -, hst⟩⟩ := store_cases s hp
  · rw [hst, hu]
    exact ⟨rfl, rfl, rfl⟩
  · rw [hst, hu]
    exact ⟨rfl, rfl, rfl⟩

/-! ## Stores -/

/-- The part of a word that a store of `n` bytes at a location writes (R122). -/
def storePart (l n : Nat) (v : W64) : WPart :=
  { word := l / 8, mask := byteMask (l % 8) n, data := BitVec.ofNat 64 (v.toNat * 2 ^ (8 * (l % 8))) }

/-- The entry of a store, a release at a scope where one is given. -/
def State.storeEnt (s : State) (l n : Nat) (v : W64) : Option Nat → WEnt
  | none => s.seqEnt [storePart l n v]
  | some t => { s.seqEnt [storePart l n v] with rel := true, scope := t }

theorem storeEnt_same (s : State) (l n : Nat) (v : W64) (rel : Option Nat) : (s.storeEnt l n v rel).parts = [storePart l n v] ∧
    (s.storeEnt l n v rel).agent = s.cur.agent ∧ (s.storeEnt l n v rel).rel = rel.isSome := by
  cases rel <;> exact ⟨rfl, rfl, rfl⟩

/-- A store that completes has put its entry in the buffer of its sequencer (R122). -/
theorem runs_storeEa_store {ea v : W64} {n l : Nat} {rel : Option Nat} {s s1 t : State} (hl : Runs (locate ea n 1) s l s1)
    (h : Runs (storeEa ea n v rel) s () t) :
    let u := s1.touch s1.cur l
    t = if rel.isSome then (u.store (u.storeEnt l n v rel)).addIval u.cur 1 else u.store (u.storeEnt l n v rel) := by
  unfold storeEa at h
  obtain ⟨_, _, hl', h1⟩ := runs_bind_iff.1 h
  obtain ⟨rfl, rfl⟩ := runs_unique hl hl'
  have h2 := runs_after_get (runs_after_check raceCheck_state (runs_after_check watch_state h1))
  obtain ⟨-, h3⟩ := runs_past_stop h2
  cases rel with
  | none => cases h3; rfl
  | some k => cases h3; rfl

/-- What a store leaves of memory, and where it stands in the buffer (R122, R268, R269). -/
theorem storeEa_frame {ea v : W64} {n l : Nat} {rel : Option Nat} {s s1 t : State} (hl : Runs (locate ea n 1) s l s1)
    (h : Runs (storeEa ea n v rel) s () t) :
    s.SameMemory t ∧ ∃ e : WEnt, e.agent = s.cur.agent ∧ e.rel = rel.isSome ∧
      StandsIn e (storePart l n v) (s1.agent s.cur.agent).sb (t.agent s.cur.agent).sb := by
  have hr := readsOnly_locate _ _ _ _ _ _ hl
  have ht := runs_storeEa_store hl h
  obtain ⟨_, _, hu⟩ := touch_coresOnly s1 s1.cur l
  rw [hu] at ht
  dsimp only at ht
  generalize hw : ({ s1 with choice := _, cores := _ } : State) = u at ht
  have hcur : u.cur = s.cur := by rw [← hw]; exact hr.cur
  have hag : u.agent s.cur.agent = s1.agent s.cur.agent := by rw [← hw]; rfl
  have hmem : s.SameMemory u := by rw [← hw]; exact hr.sameMemory
  obtain ⟨hparts, hagent, hrel⟩ := storeEnt_same u l n v rel
  obtain ⟨h1, h2, h3⟩ := store_sameMemory u hparts
  obtain ⟨h4, h5, h6⟩ := hmem
  have hin := store_standsIn u hparts
  rw [hagent, hcur, hag] at hin
  refine ⟨?_, u.storeEnt l n v rel, hagent.trans (by rw [hcur]), hrel, ?_⟩
  · rw [ht]
    split <;> exact ⟨h1.trans h4, h2.trans h5, h3.trans h6⟩
  · rw [ht]
    split <;> exact hin

/-! ## Atomics -/

/-- The mask of `n` bytes from byte `o` names those bytes. -/
theorem byteMask_getLsbD {o n j : Nat} (hj : j < 8) : (byteMask o n).getLsbD j = (decide (o ≤ j) && decide (j < o + n)) := by
  rw [byteMask, BitVec.getLsbD_ofNat, Nat.testBit_mul_two_pow, Nat.testBit_two_pow_sub_one]
  by_cases h : o ≤ j
  · simp [hj, h, show j - o < n ↔ j < o + n by omega]
  · simp [h]

theorem tagCells_mem (s : State) (e : WEnt) : (s.tagCells e).mem = s.mem := by
  unfold State.tagCells
  generalize e.parts = ps
  induction ps generalizing s with
  | nil => rfl
  | cons p ps ih =>
    rw [List.foldl_cons, ih]
    dsimp only
    split <;> rfl

/-- The part of a word that an atomic writes (R123). -/
def rmwPart (s : State) (l n : Nat) (f : W64 → W64) : WPart :=
  { word := l / 8, mask := byteMask (l % 8) n,
    data := BitVec.ofNat 64 ((f (extract (s.word (l / 8)) (l % 8) n)).toNat % 2 ^ (8 * n) * 2 ^ (8 * (l % 8))) }

theorem rmw_value (s : State) (w : Who) (l n : Nat) (f : W64 → W64) (acq rel : Option Nat) :
    (s.rmw w l n f acq rel).1 = extract (s.word (l / 8)) (l % 8) n := rfl

/-- The state in which an atomic writes: its agent has taken the view of the write that it read (R268). -/
def State.rmwTaken (s : State) (w : Who) (l : Nat) (acq : Option Nat) : State :=
  match (s.nth (l / 8) (s.lastIdx (l / 8))).2 with
  | some r => s.takeParts w.agent r.parts acq
  | none => s

theorem rmwTaken_mem (s : State) (w : Who) (l : Nat) (acq : Option Nat) : (s.rmwTaken w l acq).mem = s.mem := by
  unfold State.rmwTaken
  split
  · rename_i r _
    obtain ⟨g, hg⟩ := takeParts_frame s w.agent r.parts acq
    rw [hg]
  · rfl

theorem rmw_mem (s : State) (w : Who) (l n : Nat) (f : W64 → W64) (acq rel : Option Nat) :
    let u := s.rmwTaken w l acq
    (s.rmw w l n f acq rel).2.mem = (u.append w.agent (u.carry w rel) (rmwPart s l n f) (w.idx, u.ival w)).mem := by
  have hmem (b : Bool) (u : State) (e : WEnt) : (if b then (u.tagCells e).stepped.addIval w 1 else (u.tagCells e).stepped).mem = u.mem := by
    rw [← tagCells_mem u e]
    split <;> rfl
  intro u
  exact hmem rel.isSome _ _

/-- An atomic writes memory as one write of its word does. -/
theorem rmw_read {s : State} {w : Who} {l n : Nat} {f : W64 → W64} {acq rel : Option Nat} (hw : s.mem.wf = true) (x : Nat) :
    (s.rmw w l n f acq rel).2.mem.read x = if x / 8 = l / 8 ∧ (byteMask (l % 8) n).getLsbD (x % 8) = true then
      (rmwPart s l n f).data.extractLsb' (8 * (x % 8)) 8 else s.mem.read x := by
  have hm := rmwTaken_mem s w l acq
  rw [rmw_mem, append_read _ _ _ _ _ _ (by rw [hm]; exact hw), hm]
  rfl

/-- An atomic changes no byte but those at its location (R123). -/
theorem rmw_read_outside {s : State} {w : Who} {l n : Nat} {f : W64 → W64} {acq rel : Option Nat} (hw : s.mem.wf = true)
    {x : Nat} (hx : x < l ∨ l + n ≤ x) : (s.rmw w l n f acq rel).2.mem.read x = s.mem.read x := by
  rw [rmw_read hw, byteMask_getLsbD (by omega), if_neg]
  simp only [Bool.and_eq_true, decide_eq_true_eq]
  omega

/-- The value at a location is read out of its word (R3). -/
theorem extract_word (s : State) {l n : Nat} (h : l % 8 + n ≤ 8) : (extract (s.word (l / 8)) (l % 8) n).toNat = s.mem.readLe l n := by
  have hw : (s.word (l / 8)).toNat = s.mem.readLe (8 * (l / 8)) (l % 8 + (n + (8 - (l % 8 + n)))) := by
    rw [show l % 8 + (n + (8 - (l % 8 + n))) = 8 by omega]
    exact Nat.mod_eq_of_lt (s.mem.readLe_lt _ 8)
  have hp (k : Nat) : 2 ^ (8 * k) = 256 ^ k := pow_mul 2 8 k
  have hmid := s.mem.readLe_mid (8 * (l / 8)) (l % 8) n (8 - (l % 8 + n))
  rw [show 8 * (l / 8) + l % 8 = l by omega] at hmid
  rw [extract, BitVec.toNat_ofNat, hw, hp, hp, hmid]
  exact Nat.mod_eq_of_lt (Nat.lt_of_lt_of_le (s.mem.readLe_lt l n)
    (Nat.pow_le_pow_right (by norm_num : 0 < 256) (by omega : n ≤ 8)))

/-- An atomic leaves its operation's value, cut to its width, at its location (R123). -/
theorem rmw_readLe {s : State} {w : Who} {l n : Nat} {f : W64 → W64} {acq rel : Option Nat} (hw : s.mem.wf = true) (h : l % 8 + n ≤ 8) :
    (s.rmw w l n f acq rel).2.mem.readLe l n = (f (extract (s.word (l / 8)) (l % 8) n)).toNat % 2 ^ (8 * n) := by
  generalize hy : (f (extract (s.word (l / 8)) (l % 8) n)).toNat % 2 ^ (8 * n) = y
  have hp (k : Nat) : 2 ^ (8 * k) = 256 ^ k := pow_mul 2 8 k
  have hlt : y < 256 ^ n := by
    rw [← hy, hp]
    exact Nat.mod_lt _ (by positivity)
  have hb : ∀ k, k < n → (s.rmw w l n f acq rel).2.mem.read (l + k) = BitVec.ofNat 8 (y / 256 ^ k) := by
    intro k hk
    have hj : (l + k) % 8 = l % 8 + k := by omega
    rw [rmw_read hw, hj, byteMask_getLsbD (by omega), if_pos (by simp; omega), byte_ofNat, rmwPart, hy]
    have hfit : y * 256 ^ (l % 8) < 2 ^ 64 :=
      calc y * 256 ^ (l % 8) < 256 ^ n * 256 ^ (l % 8) := Nat.mul_lt_mul_of_pos_right hlt (by positivity)
        _ = 256 ^ (n + l % 8) := (pow_add _ _ _).symm
        _ ≤ 256 ^ 8 := Nat.pow_le_pow_right (by norm_num) (by omega)
        _ = 2 ^ 64 := by norm_num
    rw [BitVec.toNat_ofNat, hp, Nat.mod_eq_of_lt hfit, Nat.mul_comm, pow_add, Nat.mul_div_mul_left _ _ (by positivity)]
  rw [Memory.readLe_of_bytes hb, Nat.mod_eq_of_lt hlt]

/-! ## An atomic on its home -/

/-- What an atomic that answers has done: past its checks it has counted its access, then noted an uncorrectable unit, or read and
written its word (R123, R268). -/
theorem runs_atomicAt_cases {l n : Nat} {ea : W64} {f : W64 → W64} {acq rel : Option Nat} {s t : State} {v : W64}
    (h : Runs (atomicAt l n ea f acq rel) s v t) :
    let u := s.touch s.cur l
    (u.poisoned l n = true ∧ Runs (noteUnc l) u () t) ∨
      (u.poisoned l n = false ∧ v = (u.rmw u.cur l n f acq rel).1 ∧ t = (u.rmw u.cur l n f acq rel).2) := by
  intro u
  unfold atomicAt at h
  have h1 := runs_after_get (runs_after_check raceCheck_state h)
  obtain ⟨-, h2⟩ := runs_past_stop h1
  have h3 := runs_after_check needAt_state (runs_after_check needAt_state h2)
  obtain ⟨-, h4⟩ := runs_past_stop (runs_after_check_if needQuiet_state h3)
  obtain ⟨-, h5⟩ := runs_past_stop h4
  have h6 := runs_after_get (runs_after_set h5)
  split at h6
  · rename_i hp
    obtain ⟨_, _, hn, h7⟩ := runs_bind_iff.1 h6
    cases h7
    exact .inl ⟨hp, hn⟩
  · rename_i hp
    cases runs_after_set h6
    exact .inr ⟨Bool.eq_false_iff.2 hp, rfl, rfl⟩

/-- An atomic in memory of the canonical form changes no byte but those at its location (R123). -/
theorem atomicAt_read_outside {l n : Nat} {ea : W64} {f : W64 → W64} {acq rel : Option Nat} {s t : State} {v : W64}
    (hw : s.mem.wf = true) (h : Runs (atomicAt l n ea f acq rel) s v t) {x : Nat} (hx : x < l ∨ l + n ≤ x) :
    t.mem.read x = s.mem.read x := by
  obtain ⟨_, _, hu⟩ := touch_coresOnly s s.cur l
  have hmem : (s.touch s.cur l).mem = s.mem := by rw [hu]
  obtain ⟨-, hn⟩ | ⟨-, -, rfl⟩ := runs_atomicAt_cases h
  · obtain ⟨hm, -, -⟩ := (readsOnly_noteUnc _ _ _ _ hn).sameMemory
    rw [hm, hmem]
  · rw [rmw_read_outside (by rw [hmem]; exact hw) hx, hmem]

/-- An atomic on a word whose units are correct answers the old value and leaves the new one (R123). -/
theorem atomicAt_value {l n : Nat} {ea : W64} {f : W64 → W64} {acq rel : Option Nat} {s t : State} {v : W64}
    (hw : s.mem.wf = true) (hfit : l % 8 + n ≤ 8) (hp : s.poisoned l n = false) (h : Runs (atomicAt l n ea f acq rel) s v t) :
    v.toNat = s.mem.readLe l n ∧ t.mem.readLe l n = (f v).toNat % 2 ^ (8 * n) := by
  obtain ⟨_, _, hu⟩ := touch_coresOnly s s.cur l
  have hmem : (s.touch s.cur l).mem = s.mem := by rw [hu]
  have hpois : (s.touch s.cur l).poisoned l n = s.poisoned l n := by rw [hu]; rfl
  obtain ⟨hq, -⟩ | ⟨-, rfl, rfl⟩ := runs_atomicAt_cases h
  · rw [hpois, hp] at hq
    cases hq
  · rw [rmw_value, extract_word _ hfit, rmw_readLe (by rw [hmem]; exact hw) hfit, hmem]
    exact ⟨rfl, rfl⟩

/-- An atomic of a sequencer is one on its home, or was given up where no path has joined the dies for 1 ms (R373). -/
theorem runs_atomicFar_cases {l n : Nat} {ea : W64} {f : W64 → W64} {acq rel : Option Nat} {s t : State} {v : W64}
    (h : Runs (atomicFar l n ea f acq rel) s v t) :
    Runs (atomicAt l n ea f acq rel) s v t ∨
      (s.cutFor (dieOf s.cur.c) (homeDie l) = true ∧ t = s.imprecise s.me 7 cLink ea (BitVec.ofNat 8 s.cur.idx)) := by
  have h1 := runs_after_get h
  split at h1
  · exact .inl h1
  · split at h1
    · rename_i hc
      cases runs_after_set h1
      exact .inr ⟨hc, rfl⟩
    · cases h1

theorem imprecise_mem (s : State) (w : Who) (b : Nat) (c : Byte) (a : W64) (g : Byte) : (s.imprecise w b c a g).mem = s.mem := by
  unfold State.imprecise
  split <;> rfl

theorem cutFor_reach {s : State} {x y : DieId} (h : s.reach x y = true) : s.cutFor x y = false := by
  unfold State.cutFor
  split
  · rw [h]
    rfl
  · rfl

/-- Settles O57: a load only reads, a store by the entry that it makes, an atomic by its one write of its word. -/
theorem memoryFrames : Obligations.MemoryFrames := by
  unfold Obligations.MemoryFrames
  refine ⟨?_, ?_, ?_, ?_⟩
  · intro ea n acq s v t h
    exact (readsOnly_loadEa _ _ _ _ _ _ h).sameMemory
  · intro ea n v rel s l s1 t hl h
    obtain ⟨⟨hmem, hhist, hflight⟩, e, hagent, hrel, hin⟩ := storeEa_frame hl h
    refine ⟨hmem, hhist, hflight, ?_⟩
    obtain ⟨x, hnew, hparts, hxa, hxr⟩ | ⟨hrel', h'⟩ := hin
    · exact .inl ⟨x, hnew, hparts, hxa.trans hagent, by rw [hxr, hrel]⟩
    · exact .inr ⟨Option.isNone_iff_eq_none.1 (by rw [← Option.not_isSome, ← hrel, hrel']; rfl), h'⟩
  · intro l n ea f acq rel s v t hw _ _ h a ha
    obtain h | ⟨-, rfl⟩ := runs_atomicFar_cases h
    · exact atomicAt_read_outside hw h ha
    · rw [imprecise_mem]
  · intro l n ea f acq rel s v t hw _ hfit hr hp h
    obtain h | ⟨hc, -⟩ := runs_atomicFar_cases h
    · exact atomicAt_value hw hfit hp h
    · rw [cutFor_reach hr] at hc
      cases hc

end Sys2Proof.Machine
end


section
/-! PROOFS. A `bar` arrives, waits and completes (R127, R284). -/
namespace Sys2Proof.Machine

/-! ## What keeps the wait of a bank -/

/-- The sequencer whose turn it is, and its bank's task and wait on a barrier, are those of another state. -/
def State.SameWait (s t : State) : Prop :=
  t.cur = s.cur ∧ (t.bank s.cur).bar = (s.bank s.cur).bar ∧ (t.bank s.cur).task = (s.bank s.cur).task

theorem State.SameWait.refl (s : State) : s.SameWait s := ⟨rfl, rfl, rfl⟩

theorem State.SameWait.trans {s t u : State} (h : s.SameWait t) (h' : t.SameWait u) : s.SameWait u := by
  obtain ⟨hc, hb, ht⟩ := h
  obtain ⟨hc', hb', ht'⟩ := h'
  rw [hc] at hb' ht'
  exact ⟨hc'.trans hc, hb'.trans hb, ht'.trans ht⟩

theorem ReadFrame.sameWait {s t : State} (h : ReadFrame s t) : s.SameWait t := by
  have hk := h.keepsSystem
  unfold KeepsSystem at hk
  exact ⟨h.cur, by simp only [hk], by simp only [hk]⟩

/-- The flip of a context's bank is a write of the module (R284). -/
theorem flip_sameWait (s : State) (ctx : BitVec 12) (view : View) : s.SameWait (s.flip s.cur.c ctx view) := by
  unfold State.flip
  split
  · rename_i va root x _ _
    have hw := (translate_frame s 0 ctx root va.toNat 1 0).sameWait
    split
    · rename_i u heq
      rw [heq] at hw
      exact hw
    · rename_i u heq
      rw [heq] at hw
      exact hw
  · exact State.SameWait.refl s

theorem setBars_sameWait (s : State) (scope inst : Nat) (b : List Barrier) (g : Nat) : s.SameWait (s.setBars scope inst b g) := by
  unfold State.setBars
  split
  · exact ⟨rfl, rfl, rfl⟩
  · split <;> exact ⟨rfl, rfl, rfl⟩

/-! ## A barrier closes -/

/-- A bank once its barrier has closed. -/
def Bank.released (k : Bank) (scope inst gen : Nat) : Bank := (k.closeBar scope inst gen).getD k

/-- Only the waits of a released bank change: one of the barrier is closed. -/
theorem released_wait (k : Bank) (scope inst gen : Nat) : (k.released scope inst gen).task = k.task ∧
    (k.released scope inst gen).bar = k.bar.map fun b => (closeParty scope inst gen b).getD b := by
  have hb : (k.bar.bind (closeParty scope inst gen)).or k.bar = k.bar.map fun b => (closeParty scope inst gen b).getD b := by
    cases k.bar with
    | none => rfl
    | some b => cases h : closeParty scope inst gen b <;> simp [h]
  rw [← hb]
  unfold Bank.released Bank.closeBar
  cases k.bar.bind (closeParty scope inst gen) with
  | none => cases k.barSaved.bind fun x => (closeParty scope inst gen x.1).map (·, x.2) <;> exact ⟨rfl, rfl⟩
  | some b => cases k.barSaved.bind fun x => (closeParty scope inst gen x.1).map (·, x.2) <;> exact ⟨rfl, rfl⟩

/-- The release of the parties of one bank. -/
def State.releaseBank (s : State) (scope inst gen : Nat) (view : View) (c : CoreId) (b : BankId) : State :=
  match (s.bank ⟨c, b, 0, 0⟩).closeBar scope inst gen with
  | some k => (s.modBank ⟨c, b, 0, 0⟩ fun _ => k).modAgent (Who.agent ⟨c, b, 0, 0⟩) fun a => { a with view := a.view.join view }
  | none => s

theorem releaseBank_bank (s : State) (scope inst gen : Nat) (view : View) (c : CoreId) (b : BankId) (w : Who) :
    (s.releaseBank scope inst gen view c b).cur = s.cur ∧ (s.releaseBank scope inst gen view c b).bank w =
      if c = w.c ∧ b = w.b then (s.bank w).released scope inst gen else s.bank w := by
  unfold State.releaseBank
  split
  · rename_i k heq
    refine ⟨rfl, ?_⟩
    show (State.modBank s _ _).bank w = _
    rw [State.modBank_bank]
    split
    · rename_i h
      obtain ⟨rfl, rfl⟩ := h
      unfold Bank.released
      rw [show s.bank w = s.bank ⟨w.c, w.b, 0, 0⟩ from rfl, heq]
      rfl
    · rfl
  · rename_i heq
    refine ⟨rfl, ?_⟩
    split
    · rename_i h
      obtain ⟨rfl, rfl⟩ := h
      unfold Bank.released
      rw [show s.bank w = s.bank ⟨w.c, w.b, 0, 0⟩ from rfl, heq]
      rfl
    · rfl

/-- A fold that keeps a property keeps it; one whose step at an element of the list gives another that it keeps gives that. -/
theorem foldl_turns {α σ : Type} {f : σ → α → σ} {P Q : σ → Prop} {l : List α} {a : α} (ha : a ∈ l)
    (hP : ∀ s x, P s → P (f s x)) (hPQ : ∀ s, P s → Q (f s a)) (hQ : ∀ s x, Q s → Q (f s x)) {s : σ} (h : P s) :
    Q (l.foldl f s) := by
  obtain ⟨l1, l2, rfl⟩ := List.append_of_mem ha
  rw [List.foldl_append, List.foldl_cons]
  exact List.foldlRecOn l2 f (hPQ _ (List.foldlRecOn l1 f h fun s hs x _ => hP s x hs)) fun s hs x _ => hQ s x hs

/-- The turn is `w`'s, whose bank runs the task of a record and waits on one of two barriers. -/
def State.WaitsOn (s : State) (w : Who) (r : Option Rec) (b b' : BarWait) : Prop :=
  s.cur = w ∧ (s.bank w).task = r ∧ ((s.bank w).bar = some b ∨ (s.bank w).bar = some b')

section
variable {scope inst gen : Nat} {s : State} {w : Who} {r : Option Rec} {b : BarWait}

/-- A released bank whose wait is one of the barrier's, closed or not, waits on it no longer. -/
theorem released_closes {k : Bank} (hopen : b.closed = false) (hscope : b.scope = scope) (hinst : b.inst = inst) (hgen : b.gen = gen)
    (h : k.bar = some b ∨ k.bar = some { b with closed := true }) :
    (k.released scope inst gen).bar = some { b with closed := true } := by
  obtain ⟨-, hk⟩ := released_wait k scope inst gen
  rw [hk]
  obtain h | h := h
  · rw [h]
    simp [closeParty, hscope, hinst, hgen, hopen]
  · rw [h]
    simp [closeParty]

/-- A step of the release closes the wait of the bank it is about, and leaves it closed. -/
theorem releaseBank_waitsOn (view : View) (c : CoreId) (k : BankId) (hopen : b.closed = false) (hscope : b.scope = scope)
    (hinst : b.inst = inst) (hgen : b.gen = gen) {b' : BarWait} (hb : b' = b ∨ b' = { b with closed := true })
    (h : s.WaitsOn w r b' { b with closed := true }) : (s.releaseBank scope inst gen view c k).WaitsOn w r
      (if c = w.c ∧ k = w.b then { b with closed := true } else b') { b with closed := true } := by
  obtain ⟨hcur, htask, hbar⟩ := h
  obtain ⟨hc, hk⟩ := releaseBank_bank s scope inst gen view c k w
  obtain ⟨ht, -⟩ := released_wait (s.bank w) scope inst gen
  refine ⟨hc.trans hcur, ?_⟩
  rw [hk]
  split
  · refine ⟨ht.trans htask, .inl (released_closes hopen hscope hinst hgen ?_)⟩
    obtain rfl | rfl := hb
    · exact hbar
    · exact hbar.elim .inr .inr
  · exact ⟨htask, hbar⟩

/-- Releasing the banks of some cores closes the wait of one among them. -/
theorem foldl_releaseBank (view : View) (hopen : b.closed = false) (hscope : b.scope = scope) (hinst : b.inst = inst)
    (hgen : b.gen = gen) {cs : List CoreId} {bs : List BankId} (hc : w.c ∈ cs) (hb : w.b ∈ bs)
    (h : s.WaitsOn w r b { b with closed := true }) :
    (cs.foldl (fun s c => bs.foldl (fun s k => s.releaseBank scope inst gen view c k) s) s).WaitsOn w r
      { b with closed := true } { b with closed := true } := by
  have hkeep (b' : BarWait) (hb : b' = b ∨ b' = { b with closed := true }) (u : State) (c : CoreId) (k : BankId)
      (hu : u.WaitsOn w r b' { b with closed := true }) :
      (u.releaseBank scope inst gen view c k).WaitsOn w r b' { b with closed := true } := by
    obtain ⟨h1, h2, h3⟩ := releaseBank_waitsOn view c k hopen hscope hinst hgen hb hu
    refine ⟨h1, h2, ?_⟩
    split at h3
    · exact .inr (h3.elim id id)
    · exact h3
  have hcloses (u : State) (hu : u.WaitsOn w r b { b with closed := true }) :
      (u.releaseBank scope inst gen view w.c w.b).WaitsOn w r { b with closed := true } { b with closed := true } := by
    have h := releaseBank_waitsOn view w.c w.b hopen hscope hinst hgen (.inl rfl) hu
    rwa [if_pos ⟨rfl, rfl⟩] at h
  have hcore (b' : BarWait) (hb : b' = b ∨ b' = { b with closed := true }) (u : State) (c : CoreId)
      (hu : u.WaitsOn w r b' { b with closed := true }) :
      (bs.foldl (fun s k => s.releaseBank scope inst gen view c k) u).WaitsOn w r b' { b with closed := true } :=
    List.foldlRecOn (motive := fun u : State => u.WaitsOn w r b' { b with closed := true }) _ _ hu fun u hu k _ => hkeep b' hb u c k hu
  refine foldl_turns (P := fun u : State => u.WaitsOn w r b { b with closed := true })
    (Q := fun u : State => u.WaitsOn w r { b with closed := true } { b with closed := true })
    hc (hcore b (.inl rfl)) (fun u hu => ?_) (hcore _ (.inr rfl)) h
  exact foldl_turns (P := fun u : State => u.WaitsOn w r b { b with closed := true })
    (Q := fun u : State => u.WaitsOn w r { b with closed := true } { b with closed := true })
    hb (hkeep b (.inl rfl) · w.c) hcloses (hkeep _ (.inr rfl) · w.c) hu

/-- The saved contexts are not among what a bank waits on. -/
theorem WaitsOn.withSaved {b' : BarWait} (h : s.WaitsOn w r b b') (sv : NMap Saved) :
    ({ s with saved := sv } : State).WaitsOn w r b b' := h

/-- What closing a barrier leaves of the bank of one of its parties (R127). -/
theorem closeBarrier_closes (view : View) (hopen : b.closed = false) (hscope : b.scope = scope) (hinst : b.inst = inst)
    (hgen : b.gen = gen) (hcur : s.cur = w) (htask : (s.bank w).task = r) (hbar : (s.bank w).bar = some b) :
    (s.closeBarrier scope inst gen view).WaitsOn w r { b with closed := true } { b with closed := true } := by
  have h := foldl_releaseBank view hopen hscope hinst hgen (List.mem_finRange w.c) (List.mem_finRange w.b) ⟨hcur, htask, .inl hbar⟩
  unfold State.closeBarrier
  extract_lets u
  have hu : u.WaitsOn w r { b with closed := true } { b with closed := true } := h
  clear_value u
  exact WaitsOn.withSaved hu _
end

/-! ## An arrival -/

/-- The number of the cluster, die or module whose barriers a core's `bar` joins (R127). -/
def barInst (scope : Nat) (c : CoreId) : Nat := if scope = 1 then (cluOf c).val else if scope = 2 then (dieOf c).val else 0

/-- The open barrier that an arrival joins. -/
def State.barOpen (s : State) (f : RRI) (x : W64) : Option Barrier :=
  (s.barsOf (fld f.imm 2 0) (barInst (fld f.imm 2 0) s.cur.c)).1.find? fun b => b.ctx == (s.bank s.cur).ctx && b.key == fld x 31 16

/-- The barrier as the arrival finds it, a new one where none is open. -/
def State.barFound (s : State) (f : RRI) (x : W64) : Barrier :=
  (s.barOpen f x).getD ⟨(s.bank s.cur).ctx, fld x 31 16, (s.barsOf (fld f.imm 2 0) (barInst (fld f.imm 2 0) s.cur.c)).2, fld x 15 0,
    f.imm.getLsbD 3, 0, {}⟩

/-- What the bank of the arrival waits on, while the barrier is open. -/
def State.barWait (s : State) (f : RRI) (x : W64) (d : Dst) : BarWait :=
  let b := s.barFound f x
  ⟨fld f.imm 2 0, barInst (fld f.imm 2 0) s.cur.c, b.gen, b.arrived, fld x 15 0 != b.n || f.imm.getLsbD 3 != b.sw, d, false,
    (s.lineNow s.cur).getD 0⟩

/-- The barrier with the arrival in it, whose view its party carries. -/
def State.barNow (s : State) (f : RRI) (x : W64) : Barrier :=
  { s.barFound f x with arrived := (s.barFound f x).arrived + 1, view := (s.barFound f x).view.join (s.ownView s.cur) }

/-- The arrival's bank waits, and its sequencer is in a new interval (R275). -/
def State.barJoined (s : State) (f : RRI) (x : W64) (d : Dst) : State :=
  (s.addIval s.cur 1).modBank s.cur fun k => { k with bar := some (s.barWait f x d) }

/-- The state that an arrival leaves (R127). -/
def State.barAfter (s : State) (f : RRI) (x : W64) (d : Dst) : State :=
  let scope := fld f.imm 2 0
  let inst := barInst scope s.cur.c
  let b := s.barNow f x
  let rest := (s.barsOf scope inst).1.filter fun y => y.gen != b.gen
  let g := if (s.barOpen f x).isNone then (s.barsOf scope inst).2 + 1 else (s.barsOf scope inst).2
  let u := s.barJoined f x d
  if b.arrived = b.n then
    ((if b.sw then u.flip s.cur.c (s.bank s.cur).ctx b.view else u).setBars scope inst rest g).closeBarrier scope inst b.gen b.view
  else u.setBars scope inst (rest ++ [b]) g

section
variable {f : RRI} {s s1 s2 : State} {x : W64} {d : Dst}

theorem runs_of_cond {α : Type} {c : Prop} [Decidable c] {a b : Act α} {s t : State} {v : α} (hc : c) (h : Runs a s v t) :
    Runs (if c then a else b) s v t := by
  rwa [if_pos hc]

theorem runs_of_not {α : Type} {c : Prop} [Decidable c] {a b : Act α} {s t : State} {v : α} (hc : ¬c) (h : Runs b s v t) :
    Runs (if c then a else b) s v t := by
  rwa [if_neg hc]

theorem runs_barArrive (hs : Runs (sources none [f.a] [f.d]) s [x] s1) (hq : s1.quietSeq s1.cur = true)
    (hd : Runs (destOf f.d) s1 d s2)
    (hroom : (s2.barOpen f x).isSome ∨ (s2.barsOf (fld f.imm 2 0) (barInst (fld f.imm 2 0) s2.cur.c)).1.length < 16) :
    Runs (barArrive f) s (.again 7) (s2.barAfter f x d) := by
  have hfull : ¬((s2.barOpen f x).isNone &&
      decide (16 ≤ (s2.barsOf (fld f.imm 2 0) (barInst (fld f.imm 2 0) s2.cur.c)).1.length)) = true := by
    rw [Bool.and_eq_true, decide_eq_true_eq]
    rintro ⟨h1, h2⟩
    obtain h | h := hroom
    · simp [Option.isNone_iff_eq_none.1 h1] at h
    · omega
  refine runs_bind hs (runs_bind (runs_needQuiet hq) (runs_bind hd (runs_bind (runs_get s2) ?_)))
  refine runs_of_not hfull ?_
  unfold State.barAfter
  by_cases hlast : (s2.barNow f x).arrived = (s2.barNow f x).n
  · rw [if_pos hlast]
    exact runs_of_cond hlast (runs_bind (runs_set _ _) (runs_pure _ _))
  · rw [if_neg hlast]
    exact runs_of_not hlast (runs_bind (runs_set _ _) (runs_pure _ _))

/-- An arrival waits on its barrier, which it has closed if it was the last (R127). -/
theorem barAfter_waitsOn (s : State) (f : RRI) (x : W64) (d : Dst) :
    let b := { s.barWait f x d with closed := decide ((s.barFound f x).arrived + 1 = (s.barFound f x).n) }
    (s.barAfter f x d).WaitsOn s.cur (s.bank s.cur).task b b := by
  intro b
  have hcur : (s.barJoined f x d).cur = s.cur := rfl
  have hbank : (s.barJoined f x d).bank s.cur = { s.bank s.cur with bar := some (s.barWait f x d) } := State.modBank_bank_self _ _ _
  have hflip (c : Bool) (ctx : BitVec 12) (v : View) : (s.barJoined f x d).SameWait
      (if c then (s.barJoined f x d).flip s.cur.c ctx v else s.barJoined f x d) := by
    split
    · exact flip_sameWait _ ctx v
    · exact State.SameWait.refl _
  unfold State.barAfter
  extract_lets scope inst n rest g u
  by_cases hlast : n.arrived = n.n
  · rw [if_pos hlast]
    obtain ⟨h1, h2, h3⟩ := (hflip n.sw (s.bank s.cur).ctx n.view).trans (setBars_sameWait _ scope inst rest g)
    rw [hcur] at h1 h2 h3
    rw [hbank] at h2 h3
    have hb : b = { s.barWait f x d with closed := true } := 
      congrArg (fun c => { s.barWait f x d with closed := c }) (decide_eq_true hlast)
    rw [hb]
    exact closeBarrier_closes n.view rfl rfl rfl rfl h1 h3 h2
  · rw [if_neg hlast]
    obtain ⟨h1, h2, h3⟩ := setBars_sameWait u scope inst (rest ++ [n]) g
    rw [hcur] at h1 h2 h3
    rw [hbank] at h2 h3
    have hb : b = s.barWait f x d :=
      congrArg (fun c => { s.barWait f x d with closed := c }) (decide_eq_false hlast)
    rw [hb]
    exact ⟨h1, h3, .inl h2⟩
end

/-! ## The turn of a `bar` -/

/-- Going on in a later turn only reads, to check the successor (R82). -/
theorem follows_again {i : Instr} {st : Nat} {s t : State} (h : Follows i (.again st) s t) : ReadFrame s t := by
  have hcount : ReadFrame s (if (s.cur.q = 2 && isVector i) = true then s.count s.cur 5 1 else s) := by
    split
    · exact count_frame s 5 1
    · exact ReadFrame.refl s
  unfold Follows advance at h
  have h1 := runs_after_get h
  simp only [Bool.not_true, Bool.and_false, Bool.false_eq_true, if_false, reduceCtorEq, decide_false, Bool.false_and] at h1
  obtain ⟨_, _, h2, h3⟩ := runs_bind_iff.1 (runs_after_set h1)
  cases h3
  exact hcount.trans (runs_succOf h2).1

/-- A sequencer of a task that goes on in a later turn shows what it waits for (R329). -/
theorem done_again {s : State} (st : Nat) (h : (s.bank s.cur).task.isSome = true) :
    ((s.done (.again st)).sq s.cur).stall = st ∧ ((s.done (.again st)).bank s.cur).bar = (s.bank s.cur).bar := by
  have ht : ¬(s.bank s.cur).task.isNone = true := by
    rw [← Option.not_isSome, h]
    decide
  unfold State.done State.issued
  rw [if_neg ht]
  refine ⟨by rw [State.modSeq_sq_self], ?_⟩
  rw [State.modSeq_bank, if_pos ⟨rfl, rfl⟩]
  rfl

theorem runs_barLimits {f : RRI} {s s1 : State} {x : W64} (hs : Runs (sources none [f.a] [f.d]) s [x] s1)
    (h1 : 1 ≤ fld x 15 0) (h2 : fld x 15 0 ≤ barLimit (fld f.imm 2 0)) : Runs (barLimits f) s () s := by
  refine runs_bind (runs_get s) ?_
  by_cases hb : (s.bank s.cur).bar.isNone = true
  · exact runs_of_cond hb (runs_limits hs (by rw [Bool.and_eq_true, decide_eq_true_eq, decide_eq_true_eq]; exact ⟨h1, h2⟩))
  · exact runs_of_not hb (runs_pure _ _)

/-- A `bar` that waits has had its number checked (R127). -/
theorem runs_barLimits_waiting {f : RRI} {s : State} {b : BarWait} (hb : (s.bank s.cur).bar = some b) : Runs (barLimits f) s () s := by
  refine runs_bind (runs_get s) (runs_of_not ?_ (runs_pure _ _))
  rw [hb]
  exact Bool.false_ne_true

theorem exec_bar_arrives {f : RRI} {s s1 u v : State} {x : W64} (he : Enters (.bar f) s = true) (hb : (s.bank s.cur).bar = none)
    (hs : Runs (sources none [f.a] [f.d]) s [x] s1) (h1 : 1 ≤ fld x 15 0) (h2 : fld x 15 0 ≤ barLimit (fld f.imm 2 0))
    (hu : Runs (barArrive f) s (.again 7) u) (hf : Follows (.bar f) (.again 7) u v) : exec (.bar f) s = .next (v.done (.again 7)) := by
  refine issueLim_done he (runs_barLimits hs h1 h2) (runs_bind (runs_get s) ?_) hf
  rw [hb]
  exact hu

theorem exec_bar_closed {f : RRI} {s t : State} {b : BarWait} (he : Enters (.bar f) s = true) (hb : (s.bank s.cur).bar = some b)
    (hc : b.closed = true) (hf : Follows (.bar f) .next ((s.modBank s.cur fun k => { k with bar := none }).pended b.dst
      (BitVec.ofNat 64 ((if b.mism then 2 ^ 63 else 0) + b.idx))) t) : exec (.bar f) s = .next (t.done .next) := by
  refine issueLim_done he (runs_barLimits_waiting hb) (runs_bind (runs_get s) ?_) hf
  rw [hb]
  refine runs_of_not (by rw [hc]; decide) (runs_bind (runs_set _ _) (runs_bind (runs_pendWrite _ _ _ _) (runs_pure _ _)))

/-- What a wait says of its barrier: its place among the arrivals, and whether its number or SW is not the first arrival's (R127). -/
theorem barWait_says (s : State) (f : RRI) (x : W64) (d : Dst) :
    (s.barWait f x d).idx = (match s.barOpen f x with
      | some b => b.arrived
      | none => 0) ∧
    ((s.barWait f x d).mism = true ↔ ∃ o, s.barOpen f x = some o ∧ (fld x 15 0 ≠ o.n ∨ f.imm.getLsbD 3 ≠ o.sw)) ∧
    (s.barFound f x).n = (match s.barOpen f x with
      | some b => b.n
      | none => fld x 15 0) := by
  unfold State.barWait State.barFound
  cases s.barOpen f x with
  | none => simp
  | some o => simp

/-- Settles O8: an arrival by the state that it leaves, a closed wait by its result. -/
theorem barrierCompletes : Obligations.BarrierCompletes := by
  unfold Obligations.BarrierCompletes
  refine ⟨?_, fun f s b t => exec_bar_closed⟩
  intro f s x s1 d s2 he hbar htask hs h1 h2 hq hd w scope inst old hroom
  have hu := runs_barArrive hs hq hd hroom
  obtain ⟨hcur, ht, hb⟩ := barAfter_waitsOn s2 f x d
  obtain ⟨hc2, -, ht2⟩ := ((readsOnly_sources _ _ _ _ _ _ hs).trans (readsOnly_destOf _ _ _ _ hd)).sameWait
  obtain ⟨hidx, hmism, hn⟩ := barWait_says s2 f x d
  refine ⟨_, hu, fun v hf => ?_, _, hb.elim id id, rfl, hidx, hmism, ?_⟩
  · obtain ⟨hvc, hvb, hvt⟩ := (follows_again hf).sameWait
    rw [hcur] at hvc hvb hvt
    have hsome : (v.bank v.cur).task.isSome = true := by rw [hvc, hvt, ht, hc2, ht2, htask]
    obtain ⟨hstall, hwait⟩ := done_again 7 hsome
    rw [hvc] at hstall hwait
    exact ⟨exec_bar_arrives he hbar hs h1 h2 hu hf, hstall, hwait.trans hvb⟩
  · exact decide_eq_true_iff.trans (iff_of_eq (congrArg ((s2.barFound f x).arrived + 1 = ·) hn))

end Sys2Proof.Machine
end


section
/-! PROOFS. The task instructions complete (R130-R132). -/
namespace Sys2Proof.Machine

/-! ## `spawn` -/

theorem acceptRec_cur (s : State) (d : DieId) (key : Nat) (w : Vector W64 8) (v : View) (src : W64) :
    (s.acceptRec d key w v src).2.cur = s.cur := by
  obtain ⟨_, _, h⟩ := choose_coresOnly s 65536
  show (s.choose 65536).2.cur = s.cur
  rw [h]

section
variable {f : RRR} {s s1 s2 u t : State} {x y : W64} {ws : List W64} {d : Dst}

/-- A spawn answers the id of the record that its die accepts, or all ones (R130). -/
theorem exec_spawn (he : Enters (.spawn f) s = true) (hs : Runs (sourcesAB f) s (x, y) s1) (hq : s1.quietSeq s1.cur = true)
    (hw : Runs (loadWords x 8) s1 ws s2) :
    let die : DieId := if y.getLsbD 3 then dieOf s2.cur.c else ⟨fld y 2 0 % 8, by omega⟩
    let reason := s2.recReason die (.spawn (s2.bank s2.cur).ctx) (recWords ws)
    let acc := s2.acceptRec die ((Origin.spawn 0).key s2.cur.c) (recWords ws) (s2.ownView s2.cur) x
    s2.carries (dieOf s2.cur.c) die x.toNat = true →
    Runs (destOf f.d) (if reason = 0 then acc.2.addIval s2.cur 1 else s2) d u →
    Follows (.spawn f) .next (u.pended d (if reason = 0 then acc.1.setWidth 64 else BitVec.allOnes 64)) t →
    exec (.spawn f) s = .next (t.done .next) := by
  intro die reason acc hc hd hf
  refine issue_done he (runs_bind hs (runs_bind (runs_needQuiet hq) (runs_bind hw (runs_bind (runs_get s2) ?_)))) hf
  have hpath : (!s2.carries (dieOf s2.cur.c) die x.toNat) = false := by rw [hc]; rfl
  refine runs_of_not (Bool.eq_false_iff.1 hpath) (runs_bind ?_ (runs_bind hd (runs_bind (runs_pendWrite _ _ _ _) (runs_pure _ _))))
  by_cases hr : reason = 0
  · rw [if_pos hr, if_pos hr]
    split
    · have hrun : Runs (do set (acc.2.addIval acc.2.cur 1); pure (acc.1.setWidth 64) : Act W64) s2 (acc.1.setWidth 64)
          (acc.2.addIval acc.2.cur 1) := runs_bind (runs_set _ _) (runs_pure _ _)
      have hcur : acc.2.addIval acc.2.cur 1 = acc.2.addIval s2.cur 1 := congrArg (acc.2.addIval · 1) (acceptRec_cur ..)
      exact (congrArg (Runs _ s2 _) hcur).mp hrun
    · rename_i hne
      exact absurd hr hne
  · rw [if_neg hr, if_neg hr]
    split
    · rename_i h0
      exact absurd h0 hr
    · exact runs_pure _ _
end

/-! ## `tstart` -/

/-- Reading operands starts no sequencer. -/
theorem ReadFrame.started {s t : State} (h : ReadFrame s t) (q : SeqId) : (t.sq (t.cur.seq q)).started = (s.sq (s.cur.seq q)).started := by
  rw [h.cur]
  obtain ⟨_, _, _, _, _, _, _, hk⟩ := h.bank
  show ((t.bank s.cur).seqs.get q).started = ((s.bank s.cur).seqs.get q).started
  rw [hk]
  show Seq.started ((vset _ _ _).get q) = _
  rw [vset_get]
  split
  · rename_i hq
    subst hq
    rfl
  · rfl

section
variable {f : RRR} {s s1 t : State} {x y : W64}

theorem runs_tstartLimits (hs : Runs (sourcesAB f) s (x, y) s1) (hk : fld y 1 0 ≠ 0)
    (hq : (s1.sq (s1.cur.seq ⟨fld y 1 0 % 4, by omega⟩)).started = false) : Runs (tstartLimits f) s () s := by
  rw [(readsOnly_sourcesAB _ _ _ _ hs).started] at hq
  refine runs_bind (runs_get s) (runs_limitAB hs ?_)
  rw [hq, Bool.and_eq_true, bne_iff_ne]
  exact ⟨hk, rfl⟩

/-- A PC at a word past the first of a line of a mapped address passes its checks (R94). -/
theorem runs_pcCheck {x : W64} (h0 : fld x 1 0 = 0) (h1 : fld x 63 57 = 0) (h2 : fld x 5 2 ≠ 0) (s : State) : Runs (pcCheck x) s () s :=
  runs_bind (runs_needAt (beq_iff_eq.2 h0)) (runs_bind (runs_needAt (beq_iff_eq.2 h1)) (runs_need (bne_iff_ne.2 h2)))

/-- A sequencer of the task that has not started starts at the address, with the view of C (R131, R266). -/
theorem exec_tstart (he : Enters (.tstart f) s = true) (hs : Runs (sourcesAB f) s (x, y) s1) :
    let k : SeqId := ⟨fld y 1 0 % 4, by omega⟩
    let w := s1.cur.seq k
    k ≠ 0 → (s1.sq w).started = false → fld x 1 0 = 0 → fld x 63 57 = 0 → fld x 5 2 ≠ 0 →
    Follows (.tstart f) .next ((s1.modSeq w fun q => { q with started := true, pc := x, stall := 1, last := s1.now + 1 }).modAgent
      w.agent fun a => { a with view := a.view.join (s1.ownView s1.cur) }) t → exec (.tstart f) s = .next (t.done .next) := by
  intro k w hk hq h0 h1 h2 hf
  have hy : fld y 1 0 ≠ 0 := by
    intro h
    exact hk (Fin.ext (by simp [k, h]))
  have hok : (k != 0 && !(s1.sq w).started) = true := by
    rw [hq, Bool.and_eq_true, bne_iff_ne]
    exact ⟨hk, rfl⟩
  exact issueLim_done he (runs_tstartLimits hs hy hq) (runs_bind hs (runs_bind (runs_get s1) (runs_bind (runs_need hok)
    (runs_bind (runs_pcCheck h0 h1 h2 s1) (runs_bind (runs_set _ _) (runs_pure _ _)))))) hf
end

/-! ## `join` and `yield` -/

section
variable {f : RRR} {s s1 s2 s3 s4 s5 t : State} {x y old : W64} {l : Nat} {d : Dst}

/-- The old value of the counter of a join block goes to d, and a sum of 0 places its continuation (R131, R304). -/
theorem exec_join (he : Enters (.join f) s = true) (hs : Runs (sourcesAB f) s (x, y) s1) (hr : s1.evWaiting < 4096)
    (hx : fld x 5 0 = 0) (hl : Runs (locate x 8 3) s1 l s2) (hw : Runs (watch x 8 true true) s2 () s3)
    (ha : Runs (atomicFar l 8 x (fun o => o + y) (some 3) (some 3)) s3 old s4) :
    let lost := s3.poisoned l 8 || !s3.reach (dieOf s3.cur.c) (homeDie l)
    Runs (destOf f.d) (if !lost && old + y = 0 then s4.placeCont s4.cur l else s4) d s5 →
    Follows (.join f) .next (s5.pended d old 0) t → exec (.join f) s = .next (t.done .next) := by
  intro lost hd hf
  refine issueLim_done he (runs_limitAB hs (beq_iff_eq.2 hx)) ?_ hf
  exact runs_bind hs (runs_bind (runs_eventRoom hr) (runs_bind (runs_need (beq_iff_eq.2 hx)) (runs_bind hl (runs_bind hw
    (runs_bind (runs_get s3) (runs_bind ha (runs_bind (runs_get s4) (runs_bind (runs_set _ _) (runs_bind hd
      (runs_bind (runs_pendWrite _ _ _ _) (runs_pure _ _)))))))))))
end

/-- The level of the task of a bank, as `yield` compares it (R131). -/
def Bank.yieldLevel (k : Bank) : Nat :=
  match k.task with
  | some r => recLevel r.w
  | none => 0

/-- A yield says whether a record of its level or higher waits, and lets the task be checkpointed if so (R131). -/
theorem exec_yield {f : RRR} {s s1 t : State} {d : Dst} (he : Enters (.yield f) s = true) (hc : Runs (allOk dstOk [f.d]) s () s)
    (hd : Runs (destOf f.d) s d s1) :
    let w := (s.die (dieOf s.cur.c)).waits (s.bank s.cur).yieldLevel
    let u := s1.pended d (if w then 1 else 0)
    Follows (.yield f) .next (if w then u.modBank u.cur fun k => { k with stopping := some (.save true) } else u) t →
    exec (.yield f) s = .next (t.done .next) := by
  intro w u hf
  refine issue_done he (runs_bind hc (runs_bind (runs_get s) (runs_bind hd (runs_bind (runs_pendWrite _ _ _ _) ?_)))) hf
  by_cases hw : w = true
  · rw [if_pos hw]
    exact runs_of_cond hw (runs_bind (runs_modify _ _) (runs_pure _ _))
  · rw [if_neg hw]
    exact runs_of_not hw (runs_pure _ _)

/-- Settles O10: each instruction by the run of its body. -/
theorem tasksComplete : Obligations.TasksComplete := by
  unfold Obligations.TasksComplete
  refine ⟨?_, ?_, ?_, ?_⟩
  · intro f s x y s1 ws s2 he hs hq hw die hc reason acc d u t hd hf
    exact exec_spawn he hs hq hw hc hd hf
  · intro f s x y s1 t he hs
    exact exec_tstart he hs
  · intro f s x y s1 l s2 s3 old s4 d s5 t he hs hr hx hl hw ha
    exact exec_join he hs hr hx hl hw ha
  · intro f s d s1 t he hc hd
    exact exec_yield he hc hd

end Sys2Proof.Machine
end


section
/-! PROOFS. `exit` takes its waits one after the other and ends its task (R132). -/
namespace Sys2Proof.Machine

/-- The step that an `exit` at the n-th reaches without waiting (R132). -/
def State.exitReached (s : State) (mask n : Nat) : Nat :=
  let a := if n = 0 && s.exitReady s.cur mask 0 then 1 else n
  if a = 1 && s.exitReady s.cur mask 1 then 2 else a

section
variable {s : State} {mask n : Nat} (hphase : s.phase ≠ .early)
  (hunc : n = 0 → s.exitReady s.cur mask 0 = true → (s.bank s.cur).seqs.any (·.unc) = false)

theorem exitReached_last (h0 : n = 0 → s.exitReady s.cur mask 0 = true) (h1 : n ≤ 1 → s.exitReady s.cur mask 1 = true)
    (hn : n ≤ 2) : s.exitReached mask n = 2 := by
  unfold State.exitReached
  obtain rfl | rfl | rfl : n = 0 ∨ n = 1 ∨ n = 2 := by omega
  · simp [h0 rfl, h1 (by omega)]
  · simp [h1 (by omega)]
  · simp

theorem exitReached_drain (h0 : s.exitReady s.cur mask 0 = true) (h1 : s.exitReady s.cur mask 1 = false) :
    s.exitReached mask 0 = 1 := by
  simp [State.exitReached, h0, h1]

include hunc in
theorem not_exit_errs : ¬(n = 0 && s.exitReady s.cur mask 0 && (s.bank s.cur).seqs.any (·.unc)) = true := by
  intro hc
  simp only [Bool.and_eq_true, decide_eq_true_eq] at hc
  obtain ⟨⟨hn, hr⟩, hu⟩ := hc
  rw [hunc hn hr] at hu
  cases hu

include hphase hunc

/-- An `exit` that finds none of its waits wanting ends its task (R132). -/
theorem runs_exitSteps_end (hreach : s.exitReached mask n = 2) (hb : (s.core s.cur.c).bufs.any (fun x => s.ours s.cur x.who) = false)
    (h2 : s.exitReady s.cur mask 2 = true) (hj : s.exitJoin s.cur = none) : Runs (exitSteps mask n) s (.stay 11) (s.endTask s.cur) := by
  have hbufs : ¬(s.exitReached mask n = 2 && (s.core s.cur.c).bufs.any (fun x => s.ours s.cur x.who)) = true := by
    rw [hb, Bool.and_false]
    exact Bool.false_ne_true
  have hready : (s.exitReached mask n = 2 && s.exitReady s.cur mask 2) = true := by
    rw [hreach, h2]
    rfl
  refine runs_bind (runs_get s) (runs_of_not hphase (runs_of_not (not_exit_errs hunc) (runs_of_not hbufs (runs_of_cond hready ?_))))
  rw [hj]
  exact runs_bind (runs_set _ _) (runs_pure _ _)

/-- An `exit` that reaches the drain of its engines waits there (R132). -/
theorem runs_exitSteps_drain (hreach : s.exitReached mask n = 1) (hn : n ≠ 1) :
    Runs (exitSteps mask n) s (.stay 11) (s.modSeq s.cur fun q => { q with exiting := some (1, mask) }) := by
  have hlast (b : Bool) : ¬(s.exitReached mask n = 2 && b) = true := by
    rw [hreach]
    exact Bool.false_ne_true
  have hmoves : ¬s.exitReached mask n = n := by
    rw [hreach]
    exact Ne.symm hn
  have hrun : Runs (exitAt (s.exitReached mask n) mask) s (.stay 11) (s.modSeq s.cur fun q => { q with exiting := some (1, mask) }) := by
    rw [hreach]
    exact runs_bind (runs_modify _ _) (runs_pure _ _)
  exact runs_bind (runs_get s) (runs_of_not hphase (runs_of_not (not_exit_errs hunc) (runs_of_not (hlast _) (runs_of_not (hlast _)
    (runs_of_not hmoves hrun)))))
end

/-! ## The waits as `exit` tests them -/

/-- The join block that a task's exit names (R129). -/
def Bank.joinOf (k : Bank) : W64 :=
  match k.task with
  | some r => r.w.get 2
  | none => 0

theorem exitReady_drained {s : State} {w : Who} {mask : Nat}
    (h : ((List.range 7).any fun b => mask.testBit b && s.engineBusy w b) = false) : s.exitReady w mask 1 = true := by
  show (!(List.range 7).any fun b => mask.testBit b && s.engineBusy w b) = true
  rw [h]
  rfl

/-- The release can be made once every store has performed and its ticket and its event have room (R132). -/
theorem exitReady_release {s : State} {w : Who} {mask : Nat} (hq : ((List.finRange 4).all fun q => s.quiet (w.seq q).agent) = true)
    (ht : ∀ r, (s.bank w).task = some r → r.w.get 2 = 0 → s.tickets.length < 4096)
    (hn : (s.bank w).task = none → s.tickets.length < 4096) (he : s.evWaiting < 4096) : s.exitReady w mask 2 = true := by
  have hroom : (s.bank w).joinOf = 0 → s.tickets.length < 4096 := by
    unfold Bank.joinOf
    cases hk : (s.bank w).task with
    | none => exact fun _ => hn hk
    | some r => exact ht r hk
  have htickets : (!((s.bank w).joinOf = 0 && decide (4096 ≤ s.tickets.length))) = true := by
    rw [Bool.not_eq_true', Bool.and_eq_false_iff, decide_eq_false_iff_not, decide_eq_false_iff_not]
    by_cases hj : (s.bank w).joinOf = 0
    · exact .inr (by have := hroom hj; omega)
    · exact .inl hj
  show (_ && _ && decide (s.evWaiting < 4096)) = true
  rw [Bool.and_eq_true, Bool.and_eq_true, decide_eq_true_eq]
  exact ⟨⟨hq, htickets⟩, he⟩

/-! ## The turns of `exit` -/

/-- An `exit` that has begun goes on from its step. -/
theorem exec_exit_on {f : RRR} {s u t : State} {n mask : Nat} (he : Enters (.exit f) s = true)
    (hx : (s.sq s.cur).exiting = some (n, mask)) (hu : Runs (exitSteps mask n) s (.stay 11) u) (hf : Follows (.exit f) (.stay 11) u t) :
    exec (.exit f) s = .next (t.done (.stay 11)) := by
  refine issue_done he (runs_bind (runs_get s) ?_) hf
  rw [hx]
  exact hu

/-- One that begins, with no open combine buffer, takes its checks and its first step (R216, R304). -/
theorem exec_exit_first {f : RRR} {s s1 s2 u t : State} {vs : List W64} (he : Enters (.exit f) s = true)
    (hx : (s.sq s.cur).exiting = none) (hs : Runs (sources f.e [f.b] []) s vs s1)
    (hc : Runs (exitChecks (s1.bank s1.cur).joinOf) s1 () s2) (hb : (s2.core s2.cur.c).bufs.any (fun b => s2.ours s2.cur b.who) = false)
    (hu : Runs (exitSteps (exitMask f vs) 0) s2 (.stay 11) u) (hf : Follows (.exit f) (.stay 11) u t) :
    exec (.exit f) s = .next (t.done (.stay 11)) := by
  refine issue_done he (runs_bind (runs_get s) ?_) hf
  rw [hx]
  refine runs_bind hs (runs_bind (runs_get s1) (runs_bind hc (runs_bind (runs_get s2) (runs_of_not ?_ hu))))
  rw [hb]
  exact Bool.false_ne_true

/-- Settles O11: the waits that `exit` finds wanting no longer, then the end or the wait that it comes to. -/
theorem exitCompletes : Obligations.ExitCompletes := by
  unfold Obligations.ExitCompletes
  refine ⟨?_, ?_, ?_⟩
  · intro f s vs s1 s2 t he hx hs mask join hc hphase hb hunc hq0 hdrained hquiet ht hn hev hj hf
    have h1 := exitReady_drained hdrained
    exact exec_exit_first he hx hs hc hb (runs_exitSteps_end hphase (fun _ _ => hunc)
      (exitReached_last (fun _ => hq0) (fun _ => h1) (Nat.zero_le 2)) hb (exitReady_release hquiet ht hn hev) hj) hf
  · intro f s n mask t he hx hphase hn h0 h1 hb h2 hj hf
    exact exec_exit_on he hx (runs_exitSteps_end hphase (fun h _ => (h0 h).1) (exitReached_last (fun h => (h0 h).2) h1 hn) hb h2 hj) hf
  · intro f s mask t he hx hphase hunc h0 h1 hf
    exact exec_exit_on he hx (runs_exitSteps_drain hphase (fun _ _ => hunc) (exitReached_drain h0 h1) (by decide)) hf

end Sys2Proof.Machine
end


section
/-! PROOFS. The shoot-downs and the pager's instructions complete (R136-R139, R348, R350, R353). -/
namespace Sys2Proof.Machine

/-! ## Fewer operands -/

theorem runs_allOk_left {p : BitVec 6 → Act Unit} (hp : ∀ f s v t, Runs (p f) s v t → t = s) {fs gs : List (BitVec 6)} {s t : State}
    (h : Runs (allOk p (fs ++ gs)) s () t) : Runs (allOk p fs) s () s := by
  induction fs with
  | nil => exact runs_pure _ _
  | cons f fs ih =>
    obtain ⟨_, u, h1, h2⟩ := runs_bind_iff.1 h
    obtain rfl := hp _ _ _ _ h1
    exact runs_bind h1 (ih h2)

theorem runs_readFields_left {win : W64} {fs gs : List (BitVec 6)} {s t : State} {vs : List W64}
    (h : Runs (readFields win (fs ++ gs)) s vs t) : ∃ u, Runs (readFields win fs) s (vs.take fs.length) u := by
  induction fs generalizing s t vs with
  | nil => exact ⟨s, runs_pure _ _⟩
  | cons f fs ih =>
    obtain ⟨v, s1, h1, h2⟩ := runs_bind_iff.1 h
    obtain ⟨ws, s2, h3, h4⟩ := runs_bind_iff.1 h2
    cases h4
    obtain ⟨u, hu⟩ := ih h3
    exact ⟨u, runs_bind h1 (runs_bind hu (runs_pure _ _))⟩

theorem windowOf_none (fs : List (BitVec 6)) : windowOf none fs = pure 0 := by
  unfold windowOf
  split
  · rename_i h
    cases h
  · rfl

/-- Of operands that can be read, the first ones can. -/
theorem runs_sources_left {fs gs ds : List (BitVec 6)} {s t : State} {vs : List W64} (h : Runs (sources none (fs ++ gs) ds) s vs t) :
    ∃ u, Runs (sources none fs ds) s (vs.take fs.length) u := by
  unfold sources at h
  obtain ⟨_, s1, h1, h⟩ := runs_bind_iff.1 h
  obtain ⟨_, s2, h2, h⟩ := runs_bind_iff.1 h
  obtain ⟨win, s3, h3, h⟩ := runs_bind_iff.1 h
  obtain ⟨_, s4, h4, h5⟩ := runs_bind_iff.1 h
  obtain rfl := allOk_state srcOk_state _ _ _ _ h1
  obtain rfl := allOk_state dstOk_state _ _ _ _ h2
  rw [windowOf_none] at h3
  cases h3
  obtain rfl := allOk_state interlock_state _ _ _ _ h4
  obtain ⟨u, hu⟩ := runs_readFields_left h5
  refine ⟨u, runs_bind (runs_allOk_left srcOk_state h1) (runs_bind h2 (runs_bind ?_
    (runs_bind (runs_allOk_left interlock_state h4) hu)))⟩
  rw [windowOf_none]
  exact runs_pure _ _

/-! ## Shoot-downs -/

section
variable {f : RRR} {s s1 s2 t : State} {x y : W64}

/-- A shoot-down over its scope acts once no access through an entry that goes is under way (R136, R353). -/
theorem exec_tlbinv (he : Enters (.tlbinv f) s = true) (hs : Runs (sources none [f.a, f.b] []) s [x, y] s1) (hy : fld y 2 0 < 4)
    (hd : s1.shoot (scopeCores s1.cur.c (fld y 2 0)) (s1.bank s1.cur).ctx (y.getLsbD 4) x.toNat = some s2)
    (hf : Follows (.tlbinv f) .next s2 t) : exec (.tlbinv f) s = .next (t.done .next) := by
  have hk : decide (fld y 2 0 < 4) = true := decide_eq_true hy
  refine issueLim_done he (runs_limits hs hk) (runs_bind hs (runs_bind (runs_need hk) (runs_bind (runs_get s1) ?_))) hf
  have hd' : s1.shoot (scopeCores s1.cur.c (fld (nthV [x, y] 1) 2 0)) (s1.bank s1.cur).ctx ((nthV [x, y] 1).getLsbD 4)
      (nthV [x, y] 0).toNat = some s2 := hd
  rw [hd']
  exact runs_bind (runs_set _ _) (runs_pure _ _)

/-- `icinv` finds its successor, then drops the lines of its context over its scope (R83, R137). -/
theorem exec_icinv {q : Seq} (he : Enters (.icinv f) s = true) (hs : Runs (sources none [f.a, f.b] []) s [x, y] s1) (hy : fld y 2 0 < 4)
    (hn : fld y 31 8 ≠ 0) (hx : fld x 5 0 = 0) (hq : s1.quietSeq s1.cur = true) (hn' : Runs (succOf (.icinv f) (s1.sq s1.cur)) s1 q s2)
    (hf : Follows (.icinv f) .moved ((scopeCores s2.cur.c (fld y 2 0)).foldl (fun s c =>
      s.modCore c (·.dropLines (s.bank s.cur).ctx x.toNat (fld y 31 8))) (s2.modSeq s2.cur fun _ => q)) t) :
    exec (.icinv f) s = .next (t.done .moved) := by
  have hk : icinvOk x y = true := by
    unfold icinvOk
    rw [Bool.and_eq_true, Bool.and_eq_true, beq_iff_eq, decide_eq_true_eq, bne_iff_ne]
    exact ⟨⟨hx, hy⟩, hn⟩
  exact issueLim_done he (runs_limits hs hk) (runs_bind hs (runs_bind (runs_need hk) (runs_bind (runs_needQuiet hq)
    (runs_bind (runs_get s1) (runs_bind hn' (runs_bind (runs_modify _ _) (runs_pure _ _))))))) hf

/-! ## The pager -/

/-- A word of the replay queue of a trapped context in the other bank goes to d (R138). -/
theorem exec_rqrd {d : Dst} (he : Enters (.rqrd f) s = true) (hs : Runs (sources none [f.a, f.b] [f.d]) s [x, y] s1)
    (hx : x.toNat < 24) (hk : (s1.bank s1.cur.other).trapped = true) (hd : Runs (destOf f.d) s1 d s2)
    (hf : Follows (.rqrd f) .next (s2.pended d ((s1.bank s1.cur.other).rqWord x.toNat (fld y 2 0))) t) :
    exec (.rqrd f) s = .next (t.done .next) := by
  have hx' : decide (x.toNat < 24) = true := decide_eq_true hx
  exact issueLim_done he (runs_limits hs hx') (runs_bind hs (runs_bind (runs_need hx') (runs_bind (runs_get s1) (runs_bind (runs_need hk)
    (runs_bind hd (runs_bind (runs_pendWrite _ _ _ _) (runs_pure _ _))))))) hf

/-- A word is noted for the replay queue of a trapped context in the other bank (R138). -/
theorem exec_rqwr {z : W64} (he : Enters (.rqwr f) s = true) (hs : Runs (sources none [f.a, f.b, f.d] []) s [x, y, z] s1)
    (hx : x.toNat < 24) (hk : (s1.bank s1.cur.other).trapped = true) (hf : Follows (.rqwr f) .next (s1.modBank s1.cur.other fun k =>
      { k with rqEdits := NMap.put k.rqEdits (8 * x.toNat + fld y 2 0) z }) t) : exec (.rqwr f) s = .next (t.done .next) := by
  have hx' : decide (x.toNat < 24) = true := decide_eq_true hx
  obtain ⟨u, hu⟩ := runs_sources_left (fs := [f.a, f.b]) (gs := [f.d]) hs
  exact issueLim_done he (runs_limits hu hx') (runs_bind hs (runs_bind (runs_need hx') (runs_bind (runs_get s1) (runs_bind (runs_need hk)
    (runs_bind (runs_modify _ _) (runs_pure _ _)))))) hf

theorem pgmapOk_of {e : W64} (hv : pteV e = true) (hl : pteLeaf e = true) (hz : fld e 57 56 ≠ 3) (hb : pteBad e (fld e 57 56) = false) :
    pgmapOk e = true := by
  unfold pgmapOk
  rw [hv, hl, hb, bne_iff_ne.2 hz]
  rfl

/-- A fault outstanding under a token is answered (R139, R350, R351). -/
theorem exec_pgdone (he : Enters (.pgdone f) s = true) (hs : Runs (sources none [f.a, f.b] []) s [x, y] s1)
    (ha : s1.answer s1.cur.c x (y.getLsbD 0) = some s2) (hf : Follows (.pgdone f) .next s2 t) :
    exec (.pgdone f) s = .next (t.done .next) := by
  refine issue_done he (runs_bind hs (runs_bind (runs_get s1) ?_)) hf
  have ha' : s1.answer s1.cur.c (nthV [x, y] 0) ((nthV [x, y] 1).getLsbD 0) = some s2 := ha
  rw [ha']
  exact runs_bind (runs_set _ _) (runs_pure _ _)
end

/-- Settles O14: each instruction by the run of its body; `pgmap` by the checks of its entry. -/
theorem pagerComplete : Obligations.PagerComplete := by
  unfold Obligations.PagerComplete
  refine ⟨fun f s x y s1 s2 t => exec_tlbinv, fun f s x y s1 q s2 t => exec_icinv, fun f s x y s1 d s2 t => exec_rqrd,
    fun f s x y z s1 t => exec_rqwr, ?_, fun f s x y s1 s2 t => exec_pgdone⟩
  intro f s va e s1 t he hs hv hl hz hb hva ctx x c u hf
  have hk := pgmapOk_of hv hl hz hb
  exact issueLim_done he (runs_limits hs hk) (runs_bind hs (runs_bind (runs_need hk) (runs_bind (runs_needAt (beq_iff_eq.2 hva))
    (runs_bind (runs_get s1) (runs_bind (runs_set _ _) (runs_pure _ _)))))) hf

end Sys2Proof.Machine
end


section
/-! PROOFS. Rules that the access sequencer's instructions share: the checks that their operands have passed, and their limits (R90, R117,
R119). -/
namespace Sys2Proof.Machine

/-- The queue checks of operands that can be read pass before they are read. -/
theorem runs_srcOk_of_sources {e : Option W32} {fs ds : List (BitVec 6)} {s t : State} {vs : List W64}
    (h : Runs (sources e fs ds) s vs t) : Runs (allOk srcOk fs) s () s := by
  obtain ⟨_, u, hsrc, -⟩ := runs_bind_iff.1 h
  obtain rfl := allOk_state srcOk_state _ _ _ _ hsrc
  exact hsrc

/-- A check that has passed holds. -/
theorem need_holds {b : Bool} {c : Byte} {s t : State} {v : Unit} (h : Runs (need b c) s v t) : b = true := by
  cases b with
  | true => rfl
  | false => cases h

/-- A check made under a condition, which passes where it is made, is followed by the rest. -/
theorem runs_checked_if {α : Type} {c : Prop} [Decidable c] {a : Act Unit} {g : Unit → Act α} {s t : State} {v : α}
    (ha : c → Runs a s () s) (hg : Runs (g ()) s v t) : Runs (if c then a >>= g else g ()) s v t := by
  by_cases h : c
  · exact runs_of_cond h (runs_bind (ha h) hg)
  · exact runs_of_not h hg

section
variable {f : RRR} {s s1 : State} {x y z : W64}

/-- Three sources are read by fields, or two by fields and the wide immediate between them. -/
theorem runs_sources3_cases (h : Runs (sources3 f) s (x, y, z) s1) :
    (wideImm f.e [f.a, f.b, f.d] = some y ∧ ∃ vs, Runs (sources f.e [f.a, f.d] []) s vs s1 ∧ nthV vs 0 = x ∧ nthV vs 1 = z) ∨
    (wideImm f.e [f.a, f.b, f.d] = none ∧
      ∃ vs, Runs (sources f.e [f.a, f.b, f.d] []) s vs s1 ∧ nthV vs 0 = x ∧ nthV vs 1 = y ∧ nthV vs 2 = z) := by
  unfold sources3 at h
  split at h
  · rename_i y' e
    obtain ⟨vs, _, h1, h2⟩ := runs_bind_iff.1 h
    cases h2
    exact .inl ⟨e, vs, h1, rfl, rfl⟩
  · rename_i e
    obtain ⟨vs, _, h1, h2⟩ := runs_bind_iff.1 h
    cases h2
    exact .inr ⟨e, vs, h1, rfl, rfl, rfl⟩

/-- An instruction of three sources whose values keep its limits passes them. -/
theorem runs_limits3 {ok : W64 → W64 → W64 → Bool} (h : Runs (sources3 f) s (x, y, z) s1) (hk : ok x y z = true) :
    Runs (limits3 f ok) s () s := by
  unfold limits3
  obtain ⟨e, vs, hs, rfl, rfl⟩ | ⟨e, vs, hs, rfl, rfl, rfl⟩ := runs_sources3_cases h
  · rw [e]
    exact runs_limits hs hk
  · rw [e]
    exact runs_limits hs hk
end

end Sys2Proof.Machine
end


section
/-! PROOFS. The stream and gather instructions complete (R146, R147, R149, R151). -/
namespace Sys2Proof.Machine

/-! ## Streams -/

section
variable {f : FQ} {s t : State}

/-- A stream that has been placed is marked running at issue; one that runs keeps its status until the engine has stopped it (R146,
log 58). -/
def State.streamBound (s : State) (f : FQ) : State :=
  s.modBank s.cur fun k =>
    if (k.stream.get (kOf f)).st = 1 then k else { k with stream := vset k.stream (kOf f) { st := 1, q := qOf f } }

theorem exec_sbind_done {x : W64} {s1 s2 s3 : State} {ws : List W64} {b : Bool} (he : Enters (.sbind f) s = true)
    (hl : Runs (sdescLimits f) s () s) (hp : Runs (pushOk (qOf f)) s () s)
    (hfl : Runs (flagsOk [(cmdForm f.e).cfl, (cmdForm f.e).after]) s () s) (hs : Runs (sources none [f.a] []) s [x] s1)
    (hw : Runs (loadWords x 8) s1 ws s2) (hd : Runs (sdescOk (sdescOf ws) (f.q.toNat < 8)) s2 () s2)
    (hc : Runs (placeCmd (cmdForm f.e).after false
      { i := .sbind f, who := s2.me, ctx := s2.myCtx, cfl := (cmdForm f.e).cfl, kind := .stream (kOf f) (qOf f) (f.f.getLsbD 3) (sdescOf ws) })
      s2 b s3) (hf : Follows (.sbind f) .next (s3.streamBound f) t) : exec (.sbind f) s = .next (t.done .next) :=
  issueLim_done he hl (runs_bind hp (runs_bind (runs_srcOk_of_sources hs) (runs_bind hfl (runs_bind hs (runs_bind hw (runs_bind hd
    (runs_bind (runs_get s2) (runs_bind hc (runs_bind (runs_modify _ _) (runs_pure _ _)))))))))) hf

/-- A stop that is placed completes when it has parked, and waits for the engine otherwise (R147, log 57). -/
theorem exec_sstop_placed {s1 : State} {b : Bool} (he : Enters (.sstop f) s = true)
    (hfl : Runs (flagsOk [(cmdForm f.e).after]) s () s) (hw : (s.sq s.cur).waitCmd = none)
    (hc : Runs (placeCmd (cmdForm f.e).after false { i := .sstop f, who := s.me, ctx := s.myCtx, kind := .stop (kOf f) }) s b s1) :
    (b = true → Follows (.sstop f) .next s1 t → exec (.sstop f) s = .next (t.done .next)) ∧
    (b = false → Follows (.sstop f) (.again 8) (s1.waitFor (s.core s.cur.c).nextId) t →
      exec (.sstop f) s = .next (t.done (.again 8))) := by
  constructor
  · rintro rfl hf
    refine issue_done he (runs_bind hfl (runs_bind (runs_get s) ?_)) hf
    rw [hw]
    exact runs_bind hc (runs_pure _ _)
  · rintro rfl hf
    refine issue_done he (runs_bind hfl (runs_bind (runs_get s) ?_)) hf
    rw [hw]
    exact runs_bind hc (runs_bind (runs_modify _ _) (runs_pure _ _))

/-- A stop that the engine has taken completes (R147, log 57). -/
theorem exec_sstop_taken {n : Nat} {v : W64} (he : Enters (.sstop f) s = true) (hfl : Runs (flagsOk [(cmdForm f.e).after]) s () s)
    (hw : (s.sq s.cur).waitCmd = some (n, v)) (hq : (s.core s.cur.c).copyFifo.any (·.id == n) = false)
    (hf : Follows (.sstop f) .next s.waitOver t) : exec (.sstop f) s = .next (t.done .next) := by
  refine issue_done he (runs_bind hfl (runs_bind (runs_get s) ?_)) hf
  rw [hw]
  exact runs_of_not (Bool.eq_false_iff.1 hq) (runs_bind (runs_set _ _) (runs_pure _ _))

theorem exec_sstat_done {d : Dst} {s1 : State} (he : Enters (.sstat f) s = true) (hc : Runs (allOk dstOk [f.a]) s () s)
    (hd : Runs (destOf f.a) s d s1) (hf : Follows (.sstat f) .next (s1.pended d ((s.bank s.cur).stream.get (kOf f)).word) t) :
    exec (.sstat f) s = .next (t.done .next) :=
  issue_done he (runs_bind hc (runs_bind (runs_get s) (runs_bind hd (runs_bind (runs_pendWrite _ _ _ _) (runs_pure _ _))))) hf

/-! ## Gathers -/

/-- A gather's count is read from its shape's extent when its batch gives none (R149, log 95). -/
theorem exec_gather_done {x y : W64} {s1 s2 s3 u : State} {ws : List W64} {n : Nat} (he : Enters (.gather f) s = true)
    (hl : Runs (gatherLimits f true) s () s) (hq : Runs (gatherQueue f) s () s)
    (hfl : Runs (flagsOk [(cmdForm f.e).cfl, (cmdForm f.e).after]) s () s) (hs : Runs (sources none [f.a, f.b] []) s [x, y] s1)
    (hw : Runs (loadWords x 8) s1 ws s2) (hn : fld y 47 32 ≠ 0 ∨ (gdescOf ws).shp ≠ 0)
    (hd : Runs (gdescOk (gdescOf ws) (spOf f) true) s2 () s2)
    (hx : Runs (if fld y 47 32 = 0 then readExtent (gdescOf ws).shp (gdescOf ws).cx else pure (fld y 47 32)) s2 n s3)
    (hp : Runs (gatherPlace (.gather f) f (.gather (qOf f) (spOf f) (f.f.getLsbD 0) (gdescOf ws) (fld y 31 0) n)) s3 .next u)
    (hf : Follows (.gather f) .next u t) : exec (.gather f) s = .next (t.done .next) := by
  have hcount : (fld y 47 32 != 0 || (gdescOf ws).shp != 0) = true := by
    rw [Bool.or_eq_true, bne_iff_ne, bne_iff_ne]
    exact hn
  exact issueLim_done he hl (runs_bind hq (runs_bind (runs_srcOk_of_sources hs) (runs_bind hfl (runs_bind hs (runs_bind hw
    (runs_bind (runs_need hcount) (runs_bind hd (runs_bind hx hp)))))))) hf

theorem exec_gatherq_done {x y : W64} {s1 s2 u : State} {ws : List W64} (he : Enters (.gatherq f) s = true)
    (hl : Runs (gatherLimits f false) s () s) (hq : Runs (gatherQueue f) s () s)
    (hfl : Runs (flagsOk [(cmdForm f.e).cfl, (cmdForm f.e).after]) s () s) (hs : Runs (sources none [f.a, f.b] []) s [x, y] s1)
    (hw : Runs (loadWords x 8) s1 ws s2) (hd : Runs (gdescOk (gdescOf ws) (spOf f) false) s2 () s2)
    (hp : Runs (gatherPlace (.gatherq f) f (.gatherq (qOf f) (spOf f) (f.f.getLsbD 0) (gdescOf ws) (BitVec.ofNat 32 (fld y 31 0))
      (BitVec.ofNat 32 (fld y 63 32)))) s2 .next u) (hf : Follows (.gatherq f) .next u t) :
    exec (.gatherq f) s = .next (t.done .next) :=
  issueLim_done he hl (runs_bind hq (runs_bind (runs_srcOk_of_sources hs) (runs_bind hfl (runs_bind hs (runs_bind hw
    (runs_bind hd hp)))))) hf

theorem exec_gwait_done (he : Enters (.gwait f) s = true) (h0 : ((s.bank s.cur).grp.get (qOf f)).out = 0)
    (hf : Follows (.gwait f) .next s t) : exec (.gwait f) s = .next (t.done .next) := by
  have hout : ¬(((s.bank s.cur).grp.get (qOf f)).out != 0) = true := by
    rw [bne_iff_ne]
    exact not_not_intro h0
  exact issue_done he (runs_bind (runs_get s) (runs_of_not hout (runs_pure _ _))) hf

/-- A status read of a group with its counters cleared, where the instruction asks for it (R151). -/
def State.groupRead (s : State) (f : FQ) (g : Group) : State :=
  if f.f.getLsbD 0 then s.modBank s.cur fun k =>
    { k with grp := vset k.grp (qOf f) { g with rows := 0, pois := 0, oor := 0, fv := false } } else s

theorem exec_gstat_done {d : Dst} {s1 : State} (he : Enters (.gstat f) s = true) (hc : Runs (allOk dstOk [f.a]) s () s)
    (hd : Runs (destOf f.a) s d s1) :
    let g := (s.bank s.cur).grp.get (qOf f)
    Follows (.gstat f) .next ((s1.pended d (g.word (f.f.getLsbD 1))).groupRead f g) t → exec (.gstat f) s = .next (t.done .next) := by
  intro g hf
  refine issue_done he (runs_bind hc (runs_bind (runs_get s) (runs_bind hd (runs_bind (runs_pendWrite _ _ _ _) ?_)))) hf
  by_cases h : f.f.getLsbD 0 = true
  · refine runs_of_cond h ?_
    rw [State.groupRead, if_pos h]
    exact runs_bind (runs_modify _ _) (runs_pure _ _)
  · refine runs_of_not h ?_
    rw [State.groupRead, if_neg h]
    exact runs_pure _ _
end

/-! ## The statement -/

/-- Settles O18: each instruction by the run of its body. -/
theorem streamsAndGathersComplete : Obligations.StreamsAndGathersComplete := by
  unfold Obligations.StreamsAndGathersComplete
  exact ⟨fun f s x s1 ws s2 b s3 t => exec_sbind_done, fun f s s1 t he hfl hw b => exec_sstop_placed he hfl hw,
    fun f s n v t => exec_sstop_taken, fun f s d s1 t => exec_sstat_done, fun f s x y s1 ws s2 n s3 u t => exec_gather_done,
    fun f s x y s1 ws s2 u t => exec_gatherq_done, fun f s t => exec_gwait_done, fun f s d s1 t => exec_gstat_done⟩

end Sys2Proof.Machine
end


section
/-! PROOFS. Copies are placed and weight loads queued (R141, R152-R154). -/
namespace Sys2Proof.Machine

/-! ## Copies -/

/-- A copy that is placed keeps the limits of its destination in the weight SRAM (R152). -/
theorem wsLow_of_copyPlace {i : Instr} {fm : CmdForm} {dst src : W64} {bytes rows : Nat} {sstr dstr : W64} {ws c : Bool}
    {follow : Option (W32 × W32)} {s t : State} {fl : Flow}
    (h : Runs (copyPlace i fm dst src bytes rows sstr dstr ws c follow) s fl t) :
    (!ws || wsLow dst.toNat bytes rows dstr) = true := by
  obtain ⟨_, _, hn, -⟩ := runs_bind_iff.1 h
  exact need_holds hn

theorem copySizeOk_of {n : Nat} (h8 : 8 ≤ n) (hmax : n ≤ 2 ^ 32 - 8) (hmod : n % 8 = 0) : copySizeOk n = true := by
  unfold copySizeOk
  rw [Bool.and_eq_true, Bool.and_eq_true, decide_eq_true_eq, decide_eq_true_eq, beq_iff_eq]
  exact ⟨⟨h8, hmax⟩, hmod⟩

section
variable {f : RRR} {s s1 u t : State} {x y z : W64}

theorem exec_copy_done (he : Enters (.copy f) s = true) (hfl : Runs (flagsOk [(cmdForm f.e).cfl, (cmdForm f.e).after]) s () s)
    (hs : Runs (sources none [f.a, f.b, f.d] []) s [x, y, z] s1) (h8 : 8 ≤ y.toNat) (hmax : y.toNat ≤ 2 ^ 32 - 8)
    (hmod : y.toNat % 8 = 0)
    (hp : Runs (copyPlace (.copy f) (cmdForm f.e) z x y.toNat 1 0 0 ((cmdForm f.e).low.testBit 1) ((cmdForm f.e).low.testBit 0) none)
      s1 .next u)
    (hf : Follows (.copy f) .next u t) : exec (.copy f) s = .next (t.done .next) := by
  have hsize := copySizeOk_of h8 hmax hmod
  have hlim : Runs (copyLimits f) s () s := runs_limits hs (Bool.and_eq_true_iff.2 ⟨hsize, wsLow_of_copyPlace hp⟩)
  exact issueLim_done he hlim (runs_bind (runs_srcOk_of_sources hs) (runs_bind hfl (runs_bind hs (runs_bind (runs_need hsize) hp)))) hf

theorem exec_copyf_done (he : Enters (.copyf f) s = true) (hfl : Runs (flagsOk [(cmdForm f.e).cfl, (cmdForm f.e).after]) s () s)
    (hs : Runs (sources none [f.a, f.b, f.d] []) s [x, y, z] s1)
    (hfo : (followOf (BitVec.ofNat 32 (fld y 31 0)) (BitVec.ofNat 32 (fld y 63 32))).isSome = true)
    (hp : Runs (copyPlace (.copyf f) (cmdForm f.e) z x (256 * (if f.e.isSome then (cmdForm f.e).low else 1)) 1 0 0 false false
      (some (BitVec.ofNat 32 (fld y 31 0), BitVec.ofNat 32 (fld y 63 32)))) s1 .next u)
    (hf : Follows (.copyf f) .next u t) : exec (.copyf f) s = .next (t.done .next) :=
  issueLim_done he (runs_limits hs hfo)
    (runs_bind (runs_srcOk_of_sources hs) (runs_bind hfl (runs_bind hs (runs_bind (runs_need hfo) hp)))) hf

theorem exec_copy2d_done {ws : List W64} {s2 : State} (he : Enters (.copy2d f) s = true) (hl : Runs (copy2dLimits f) s () s)
    (hfl : Runs (flagsOk [(cmdForm f.e).cfl, (cmdForm f.e).after]) s () s)
    (hs : Runs (sources none [f.a, f.b, f.d] []) s [x, y, z] s1) (hw : Runs (loadWords y 4) s1 ws s2) :
    let n := fld (nthV ws 0) 31 0
    let rows := fld (nthV ws 0) 63 32
    8 ≤ n → n % 8 = 0 → rows ≠ 0 →
    Runs (copyPlace (.copy2d f) (cmdForm f.e) z x n rows (nthV ws 1) (nthV ws 2) ((cmdForm f.e).low.testBit 1)
      ((cmdForm f.e).low.testBit 0) none) s2 .next u →
    Follows (.copy2d f) .next u t → exec (.copy2d f) s = .next (t.done .next) := by
  intro n rows h8 hmod hrows hp hf
  have hsize : (8 ≤ n && n % 8 == 0 && rows != 0) = true := by
    rw [Bool.and_eq_true, Bool.and_eq_true, decide_eq_true_eq, beq_iff_eq, bne_iff_ne]
    exact ⟨⟨h8, hmod⟩, hrows⟩
  exact issueLim_done he hl (runs_bind (runs_srcOk_of_sources hs) (runs_bind hfl (runs_bind hs (runs_bind hw
    (runs_bind (runs_need hsize) hp))))) hf
end

/-! ## Weight loads -/

/-- The command of a `wload` in the matrix engine's FIFO, with its issuer's view and next number (R154). -/
def State.wloadQueued (s : State) (f : RRI) (o : Nat) (slot : W32) : State :=
  let a := s.accept s.cur 1
  let p := a.2.pushView a.2.cur
  p.2.modCore p.2.cur.c fun k =>
    { k with
      mFifo := k.mFifo ++ [{ i := .wload f, id := k.nextId, nth := a.1, who := p.2.me, view := p.1,
                             kind := .wload (f.d.setWidth 5) o slot (f.imm.getLsbD 8) (f.imm.getLsbD 7) }]
      nextId := k.nextId + 1 }

theorem wloadOk_of {o : Nat} {slot : W32} {tr sparse : Bool} (h1 : 1 ≤ slotFmt slot true) (h11 : slotFmt slot true ≤ 11)
    (htr : tr = true → slotSch slot true < 3) (hal : o % 64 = 0) (hin : o + planeBytes slot sparse ≤ 65536) :
    wloadOk o slot tr sparse = true := by
  have hsch : (tr && decide (3 ≤ slotSch slot true)) = false := by
    rw [Bool.and_eq_false_iff, decide_eq_false_iff_not]
    by_cases h : tr = true
    · exact .inr (by have := htr h; omega)
    · exact .inl (Bool.eq_false_iff.2 h)
  unfold wloadOk
  rw [hsch, decide_eq_true h1, decide_eq_true h11, beq_iff_eq.2 hal, decide_eq_true hin]
  rfl

theorem exec_wload_done {f : RRI} {s s1 t : State} {x : W64} (he : Enters (.wload f) s = true) (hl : Runs (wloadLimits f) s () s)
    (hi : fld f.imm 5 0 = 63 → Runs (interlock 48) s () s) (hs : Runs (sources none [f.a] []) s [x] s1) :
    let slot := s1.fmtSlot s1.cur (fld f.imm 5 0)
    let n := planeBytes slot (f.imm.getLsbD 7)
    let r := (s1.bank s1.cur).wsrange
    wloadOk x.toNat slot (f.imm.getLsbD 8) (f.imm.getLsbD 7) = true → 64 * fld r 10 0 ≤ x.toNat → x.toNat + n ≤ 64 * fld r 26 16 →
    (s1.core s1.cur.c).mFifo.length < matrixDepth → s1.quietSeq s1.cur = true →
    Follows (.wload f) .next (s1.wloadQueued f x.toNat slot) t → exec (.wload f) s = .next (t.done .next) := by
  intro slot n r hok hlo hhi hroom hq hf
  have hrange : (64 * fld r 10 0 ≤ x.toNat && x.toNat + n ≤ 64 * fld r 26 16) = true := by
    rw [Bool.and_eq_true, decide_eq_true_eq, decide_eq_true_eq]
    exact ⟨hlo, hhi⟩
  exact issueLim_done he hl (runs_checked_if hi (runs_bind hs (runs_bind (runs_get s1) (runs_bind (runs_need hok)
    (runs_bind (runs_needAt hrange) (runs_of_not (Nat.not_le_of_lt hroom) (runs_bind (runs_needQuiet hq)
      (runs_bind (runs_modify _ _) (runs_pure _ _))))))))) hf

/-! ## The statement -/

/-- Settles O19: each command by the run of its body; a `copy` keeps the limits of its entry because it is placed. -/
theorem copiesAndWeightLoadsComplete : Obligations.CopiesAndWeightLoadsComplete := by
  unfold Obligations.CopiesAndWeightLoadsComplete
  refine ⟨fun f s x y z s1 u t => exec_copy_done, fun f s x y z s1 u t => exec_copyf_done,
    fun f s x y z s1 ws s2 u t => exec_copy2d_done, ?_⟩
  intro f s x s1 t he hl hi hs tr sparse slot r h1 h11 htr hal hin hlo hhi hroom hq a p hf
  exact exec_wload_done he hl hi hs (wloadOk_of h1 h11 htr hal hin) hlo hhi hroom hq hf

end Sys2Proof.Machine
end


section
/-! PROOFS. The counted-row instructions complete (R155, R156, R258). -/
namespace Sys2Proof.Machine

/-! ## Stores that enter the buffer one after the other -/

/-- Whether an instruction still has stores to make, of an earlier turn at the same word (R258). -/
def Seq.storesPend (q : Seq) : Bool := q.todo != [] && q.todoAt == q.pc

theorem storesPend_of_none {q : Seq} (h : q.todo = []) : ¬q.storesPend = true := by
  rw [Seq.storesPend, h]
  exact Bool.false_ne_true

theorem storesPend_of_some {q : Seq} (h : q.todo ≠ []) (hpc : q.todoAt = q.pc) : q.storesPend = true := by
  rw [Seq.storesPend, Bool.and_eq_true, bne_iff_ne, beq_iff_eq]
  exact ⟨h, hpc⟩

section
variable {checks : Act (List Todo)} {last : Act Unit} {s s1 s2 s3 : State} {xs rest : List Todo}

/-- The stores of an instruction's turn: those that its checks give in its first turn, then those that are left (R258). -/
def storesOf (q : Seq) (checks : Act (List Todo)) : Act (List Todo) := if q.storesPend then pure q.todo else checks

/-- Once its last store is in the buffer, an instruction makes its release and completes. -/
theorem runs_storing_all (hx : Runs (storesOf (s.sq s.cur) checks) s xs s1) (hs : Runs (storeAll xs) s1 [] s2)
    (hl : Runs last (s2.storesLeft []) () s3) : Runs (storing checks last) s .next s3 :=
  runs_bind (runs_get s) (runs_bind hx (runs_bind hs (runs_bind (runs_modify _ _) (runs_of_cond rfl (runs_bind hl (runs_pure _ _))))))

/-- With stores left it goes on in a later turn. -/
theorem runs_storing_some (hx : Runs (storesOf (s.sq s.cur) checks) s xs s1) (hs : Runs (storeAll xs) s1 rest s2) (hr : rest ≠ []) :
    Runs (storing checks last) s (.again 14) (s2.storesLeft rest) :=
  runs_bind (runs_get s) (runs_bind hx (runs_bind hs (runs_bind (runs_modify _ _) (runs_of_not hr (runs_pure _ _)))))
end

/-! ## `rcfill` -/

theorem fillOk_of {v : W64} (hn : fld v 15 0 ≠ 0) (hc : fld v 23 16 ≠ 0) : fillOk v = true := by
  rw [fillOk, Bool.and_eq_true, bne_iff_ne, bne_iff_ne]
  exact ⟨hn, hc⟩

theorem runs_fillLimits {f : RRR} {s s1 : State} {src v dst : W64} (h : Runs (sources3 f) s (src, v, dst) s1) (hv : fillOk v = true) :
    Runs (fillLimits f) s () s := by
  unfold fillLimits
  obtain ⟨e, -⟩ | ⟨e, vs, hs, -, rfl, -⟩ := runs_sources3_cases h
  · rw [e]
    exact runs_need hv
  · rw [e]
    exact runs_limits hs hv

/-- The stores of a fill, a row each: a row of the source to a row of the destination, with the count and the owner of the rows (R155,
R246). -/
def State.fillRows (s : State) (src v dst : W64) (rid : Nat) (froms tos : List (List (Nat × Nat))) : List Todo :=
  (froms.zip tos).zipIdx.map fun x =>
    { src := x.1.1, srcVa := src + BitVec.ofNat 64 (256 * x.2)
      ent := { s.seqEnt (rowParts ((x.1.2.map (·.1)).headD 0) 0) with
        fill := some (fld v 23 16, (s.bank s.cur).owner), instrNo := rid, va := dst + BitVec.ofNat 64 (256 * x.2) } }

section
variable {f : RRR} {s s1 s2 s3 s4 : State} {src v dst : W64} {tos froms : List (List (Nat × Nat))} {rid : Nat}

/-- The checks of `rcfill` pass before anything is written (R155). -/
theorem runs_fillChecks (hs : Runs (sources3 f) s (src, v, dst) s1) (hv : fillOk v = true) (hcd : Runs (classOk dst) s1 () s1)
    (had : fld dst 7 0 = 0) (hcs : Runs (classOk src) s1 () s1) (has : fld src 2 0 = 0)
    (hto : Runs (locateRows dst 5 (fld v 15 0)) s1 tos s2) (hfrom : Runs (locateRows src 0 (fld v 15 0)) s2 froms s3)
    (hws : Runs (watch src (256 * fld v 15 0) true false) s3 () s3) (hwd : Runs (watch dst (256 * fld v 15 0) false true) s3 () s3)
    (hrs : (froms.flatten.any fun x => s3.race (s3.agent s3.cur.agent).view s3.cur.idx x.1) = false)
    (hrd : (tos.flatten.any fun x => s3.race (s3.agent s3.cur.agent).view s3.cur.idx x.1) = false)
    (hroom : s3.sbFull s3.cur.agent = false) (hrid : Runs newRid s3 rid s4) :
    Runs (fillChecks f) s (s4.fillRows src v dst rid froms tos) s4 :=
  runs_bind hs (runs_bind (runs_need hv) (runs_bind hcd (runs_bind (runs_needAt (beq_iff_eq.2 had)) (runs_bind hcs
    (runs_bind (runs_needAt (beq_iff_eq.2 has)) (runs_bind hto (runs_bind hfrom (runs_bind hws (runs_bind hwd (runs_bind (runs_get s3)
      (runs_bind (runs_needAt (congrArg not hrs)) (runs_bind (runs_needAt (congrArg not hrd)) (runs_of_not (Bool.eq_false_iff.1 hroom)
        (runs_bind hrid (runs_bind (runs_get s4) (runs_pure _ _))))))))))))))))

/-- The first turn of `rcfill` makes the stores that its checks give, all of them or those for which the buffer has room. -/
theorem exec_rcfill_first {s5 t : State} {rest : List Todo} (he : Enters (.rcfill f) s = true) (h0 : (s.sq s.cur).todo = [])
    (hs : Runs (sources3 f) s (src, v, dst) s1) (hv : fillOk v = true)
    (hc : Runs (fillChecks f) s (s4.fillRows src v dst rid froms tos) s4)
    (hst : Runs (storeAll (s4.fillRows src v dst rid froms tos)) s4 rest s5) :
    (rest = [] → Follows (.rcfill f) .next (s5.storesLeft []) t → exec (.rcfill f) s = .next (t.done .next)) ∧
    (rest ≠ [] → Follows (.rcfill f) (.again 14) (s5.storesLeft rest) t → exec (.rcfill f) s = .next (t.done (.again 14))) := by
  have hlim : Runs (firstTurn (fillLimits f)) s () s :=
    runs_bind (runs_get s) (runs_of_not (storesPend_of_none h0) (runs_fillLimits hs hv))
  have hx : Runs (storesOf (s.sq s.cur) (fillChecks f)) s (s4.fillRows src v dst rid froms tos) s4 :=
    runs_of_not (storesPend_of_none h0) hc
  constructor
  · rintro rfl hf
    exact issueLim_done he hlim (runs_storing_all hx hst (runs_pure _ _)) hf
  · intro hr hf
    exact issueLim_done he hlim (runs_storing_some hx hst hr) hf
end

/-! ## Later turns of the instructions that make stores -/

/-- In a later turn an instruction that makes stores passes its limits, and its body goes on with the stores: an `rcfill` tests its limits
in its first turn alone, and a store of S has no combine buffer to send (R155, R210, R216). -/
theorem exec_shapeStoring {i : Instr} {rel : Option Nat} {s : State} (h : shapeStoring i = some rel)
    (hm : mustFlush s (rel.getD 0) = false) (hp : (s.sq s.cur).storesPend = true) :
    ∃ lim body, exec i s = issueLim i s lim body ∧ Runs lim s () s ∧
      ∃ checks, ∀ fl t, Runs (storing checks (sideRelease rel)) s fl t → Runs body s fl t := by
  cases i with
  | rcfill f =>
    cases h
    exact ⟨_, _, rfl, runs_bind (runs_get s) (runs_of_cond hp (runs_pure _ _)), fillChecks f, fun _ _ hr => hr⟩
  | strow f => cases h; exact ⟨_, _, rfl, runs_pure _ _, _, fun _ _ hr => runs_flushFirst hm hr⟩
  | stword f => cases h; exact ⟨_, _, rfl, runs_pure _ _, _, fun _ _ hr => runs_flushFirst hm hr⟩
  | scatter f => cases h; exact ⟨_, _, rfl, runs_pure _ _, _, fun _ _ hr => runs_flushFirst hm hr⟩
  | strc f => cases h; exact ⟨_, _, rfl, runs_pure _ _, _, fun _ _ hr => runs_flushFirst hm hr⟩
  | _ => cases h

theorem exec_storing_later {i : Instr} {rel : Option Nat} {s s1 s2 t : State} {rest : List Todo} (h : shapeStoring i = some rel)
    (he : Enters i s = true) (hm : mustFlush s (rel.getD 0) = false) (h0 : (s.sq s.cur).todo ≠ [])
    (hpc : (s.sq s.cur).todoAt = (s.sq s.cur).pc) (hs : Runs (storeAll (s.sq s.cur).todo) s rest s1) :
    (rest = [] → Runs (sideRelease rel) (s1.storesLeft []) () s2 → Follows i .next s2 t → exec i s = .next (t.done .next)) ∧
    (rest ≠ [] → Follows i (.again 14) (s1.storesLeft rest) t → exec i s = .next (t.done (.again 14))) := by
  have hp := storesPend_of_some h0 hpc
  obtain ⟨lim, body, e, hl, checks, hb⟩ := exec_shapeStoring h hm hp
  have hx : Runs (storesOf (s.sq s.cur) checks) s (s.sq s.cur).todo s := runs_of_cond hp (runs_pure _ _)
  rw [e]
  constructor
  · rintro rfl hr hf
    exact issueLim_done he hl (hb _ _ (runs_storing_all hx hs hr)) hf
  · intro hr hf
    exact issueLim_done he hl (hb _ _ (runs_storing_some hx hs hr)) hf

/-! ## `rcclose` and `rcquery` -/

theorem exec_rcclose_done {f : RRR} {s s1 s2 t : State} {x y : W64} {ls : List (List (Nat × Nat))} (he : Enters (.rcclose f) s = true) :
    let k := s.core s.cur.c
    let n := match (s.sq s.cur).waitCmd with
      | some (n, _) => n
      | none => k.nextId
    let mine (w : Who) (id : Nat) : Bool := s.ours s.cur w && w.q == 1 && id < n
    k.copyFifo.any (fun c => mine c.who c.id) = false → k.copyRun.any (fun r => mine r.cmd.who r.cmd.id) = false →
    k.follow.any (fun x => mine x.2.1 x.1) = false → s.quiet s.cur.agent = true → Runs (sourcesAB f) s (x, y) s1 →
    s1.evWaiting < 4096 → y ≠ 0 → fld y 7 0 = 0 → Runs (classOk x) s1 () s1 → fld x 7 0 = 0 →
    Runs (locateRows x 0 (y.toNat / 256)) s1 ls s2 →
    Follows (.rcclose f) .next ((s2.closeRows (ls.flatten.map (·.1)) 0 (s2.bank s2.cur).corr (s2.bank s2.cur).recid).waitOver) t →
    exec (.rcclose f) s = .next (t.done .next) := by
  intro k n mine hq hrun hfo hquiet hs hev hy hya hc hxa hl hf
  have hsize : (y != 0 && fld y 7 0 == 0) = true := by
    rw [Bool.and_eq_true, bne_iff_ne, beq_iff_eq]
    exact ⟨hy, hya⟩
  have hdone : ¬(k.copyFifo.any (fun c => mine c.who c.id) || k.copyRun.any (fun r => mine r.cmd.who r.cmd.id) ||
      k.follow.any (fun x => mine x.2.1 x.1) || !s.quiet s.cur.agent) = true := by
    rw [hq, hrun, hfo, hquiet]
    exact Bool.false_ne_true
  exact issueLim_done he (runs_limitAB hs hsize) (runs_bind (runs_get s) (runs_of_not hdone (runs_bind hs
    (runs_bind (runs_eventRoom hev) (runs_bind (runs_need hsize) (runs_bind hc (runs_bind (runs_needAt (beq_iff_eq.2 hxa))
      (runs_bind hl (runs_bind (runs_modify _ _) (runs_pure _ _)))))))))) hf

theorem exec_rcquery_done {f : RRR} {s s1 s2 s3 t : State} {x : W64} {l : Nat} {d : Dst} (he : Enters (.rcquery f) s = true)
    (hs : Runs (sources f.e [f.a] [f.d]) s [x] s1) (hl : Runs (locate x 1 0) s1 l s2) (hd : Runs (destOf f.d) s2 d s3)
    (hf : Follows (.rcquery f) .next (s3.pended d (match s2.rowAfter s2.cur.agent l with
      | none => 0x100
      | some n => BitVec.ofNat 64 n)) t) : exec (.rcquery f) s = .next (t.done .next) :=
  issue_done he (runs_bind hs (runs_bind hl (runs_bind (runs_get s2) (runs_bind hd (runs_bind (runs_pendWrite _ _ _ _)
    (runs_pure _ _)))))) hf

/-! ## The statement -/

/-- Settles O20: the first turn of a fill by its checks, later turns by the stores that are left, the others by the run of their bodies. -/
theorem countedRowsComplete : Obligations.CountedRowsComplete := by
  unfold Obligations.CountedRowsComplete
  refine ⟨?_, fun i rel s rest s1 s2 t => exec_storing_later, fun f s x y s1 ls s2 t => exec_rcclose_done,
    fun f s x s1 l s2 d s3 t => exec_rcquery_done⟩
  intro f s src v dst s1 tos s2 froms s3 rid s4 rest s5 t he h0 hs hn hc hcd had hcs has hto hfrom hws hwd hrs hrd hroom hrid hst
  have hv := fillOk_of hn hc
  exact exec_rcfill_first he h0 hs hv (runs_fillChecks hs hv hcd had hcs has hto hfrom hws hwd hrs hrd hroom hrid) hst

end Sys2Proof.Machine
end


section
/-! PROOFS. The shape instructions, loads into queues and `prefetch` complete (R158-R160). -/
namespace Sys2Proof.Machine

/-! ## Shape records -/

section
variable {f : RRR} {s s1 s2 s3 t : State} {x y : W64}

theorem exec_shload_done {v : Nat} {d : Dst} (he : Enters (.shload f) s = true) (hs : Runs (sourcesAB f) s (x, y) s1)
    (hv : Runs (readExtent x (fld y 2 0)) s1 v s2) (hd : Runs (destOf f.d) s2 d s3)
    (hf : Follows (.shload f) .next (s3.pended d (BitVec.ofNat 64 v)) t) : exec (.shload f) s = .next (t.done .next) :=
  issue_done he (runs_bind hs (runs_bind hv (runs_bind hd (runs_bind (runs_pendWrite _ _ _ _) (runs_pure _ _))))) hf

/-- An extent is stored in its record, or where its record says (R158). -/
theorem exec_shext_done {v w : W64} (he : Enters (.shext f) s = true) (hs : Runs (sources3 f) s (x, y, v) s1)
    (hc : Runs (classOk x) s1 () s1) (hx : fld x 5 0 = 0) :
    let a := x + BitVec.ofNat 64 (8 * fld y 2 0)
    Runs (loadEa a 8 false none) s1 w s2 → Runs (storeEa ((extDirect w).getD (a + 4)) 4 v none) s2 () s3 →
    Follows (.shext f) .next s3 t → exec (.shext f) s = .next (t.done .next) := by
  intro a hw hst hf
  exact issue_done he (runs_bind hs (runs_bind hc (runs_bind (runs_needAt (beq_iff_eq.2 hx)) (runs_bind hw (runs_bind hst
    (runs_pure _ _)))))) hf
end

/-! ## Loads into queues -/

section
variable {f : FQ} {s s1 s2 s3 t : State} {x y : W64}

theorem exec_ldq_done {rid : Nat} {v : W64} (he : Enters (.ldq f) s = true) (hq : f.q.toNat < 8) (hp : Runs (pushOk (qOf f)) s () s)
    (hs : Runs (sources none [f.a] []) s [x] s1) (hr : Runs (reserve (qOf f) 1) s1 rid s2) :
    let m := queueForm f.e
    Runs (loadEa (x + m.off) 8 m.cons m.ord) s2 v s3 → Follows (.ldq f) .next (s3.pended (.q (qOf f) rid) v) t →
    exec (.ldq f) s = .next (t.done .next) := by
  intro m hv hf
  exact issue_done he (runs_bind (runs_need (decide_eq_true hq)) (runs_bind hp (runs_bind hs (runs_bind hr (runs_bind hv
    (runs_bind (runs_pendWrite _ _ _ _) (runs_pure _ _))))))) hf

/-- The row that a load pushes: the bytes read under their tag, or a poisoned row where the read failed (R159). -/
def loadedRow (tag : W32) (r : Option (List Byte)) : Row :=
  match r with
  | some bs => rowOf tag bs
  | none => poisonedRow tag

theorem exec_ldrow_done {r : Option (List Byte)} (he : Enters (.ldrow f) s = true) (hq : 8 ≤ f.q.toNat)
    (hp : Runs (pushOk (qOf f)) s () s) (hs : Runs (sources none [f.a, f.b] []) s [x, y] s1)
    (hroom : (s1.queue s1.cur (qOf f)).full = false) :
    let m := queueForm f.e
    Runs (loadRow (x + m.off) m.cons m.ord) s1 r s2 →
    Follows (.ldrow f) .next (s2.modQ s2.cur (qOf f) (·.pushRow (loadedRow (BitVec.ofNat 32 (fld y 31 0)) r) s2.now)) t →
    exec (.ldrow f) s = .next (t.done .next) := by
  intro m hr hf
  exact issue_done he (runs_bind (runs_need (decide_eq_true hq)) (runs_bind hp (runs_bind hs (runs_bind (runs_get s1)
    (runs_of_not (Bool.eq_false_iff.1 hroom) (runs_bind hr (runs_bind (runs_modify _ _) (runs_pure _ _)))))))) hf
end

/-! ## `prefetch` -/

/-- What a prefetch of an address may leave: the translation of a virtual one (R160, log 13). -/
def State.prefetched (s : State) (ea : W64) : State :=
  match classify ea with
  | .virt va => (s.translate s.cur.c 0 s.myCtx (s.bank s.cur).ptroot va.toNat 0 s.cur.q.val).2
  | _ => s

theorem exec_prefetch_done {f : RRI} {s s1 t : State} {x : W64} (he : Enters (.prefetch f) s = true)
    (hs : Runs (sources none [f.a] []) s [x] s1) (hf : Follows (.prefetch f) .next (s1.prefetched (x + sx f.imm)) t) :
    exec (.prefetch f) s = .next (t.done .next) := by
  refine issue_done he (runs_bind hs ?_) hf
  show Runs (match classify (x + sx f.imm) with
    | .virt va => _
    | _ => _) _ _ _
  unfold State.prefetched
  cases classify (x + sx f.imm) with
  | virt va => exact runs_bind (runs_modify _ _) (runs_pure _ _)
  | _ => exact runs_pure _ _

/-! ## The statement -/

/-- Settles O21: each instruction by the run of its body. -/
theorem shapesAndQueueLoadsComplete : Obligations.ShapesAndQueueLoadsComplete := by
  unfold Obligations.ShapesAndQueueLoadsComplete
  exact ⟨fun f s x y s1 v s2 d s3 t => exec_shload_done, fun f s x y v s1 w s2 s3 t => exec_shext_done,
    fun f s x s1 rid s2 v s3 t => exec_ldq_done, fun f s x y s1 r s2 t => exec_ldrow_done, fun f s x s1 t => exec_prefetch_done⟩

end Sys2Proof.Machine
end


section
/-! PROOFS. The lamplighter's instructions complete (R161, R162). -/
namespace Sys2Proof.Machine

section
variable {f : RRR} {s s1 u t : State}

/-! ## Bindings, runs of bits and lists -/

theorem mapSizeOk_of {x : W64} (hw1 : 1 ≤ fld x 15 0) (hw : fld x 15 0 ≤ 4096) (hh1 : 1 ≤ fld x 31 16) (hh : fld x 31 16 ≤ 4096) :
    mapSizeOk x = true := by
  rw [mapSizeOk, decide_eq_true hw1, decide_eq_true hw, decide_eq_true hh1, decide_eq_true hh]
  rfl

/-- A bitmap of a size within its limits and of aligned bytes within the scratchpad is bound (R161). -/
theorem exec_actBind_done {x y d : W64} {off : Nat} (he : Enters (.actBind f) s = true) (hs : Runs (sources3 f) s (x, y, d) s1)
    (hsize : mapSizeOk x = true) (hd : classify d = .sp off) (hal : off % 8 = 0)
    (hin : off + bitmapBytes (fld x 15 0) (fld x 31 16) ≤ 2 ^ 24)
    (hp : Runs (lampPlace (.bind (mapOf y) off (fld x 15 0) (fld x 31 16))) s1 .next u) (hf : Follows (.actBind f) .next u t) :
    exec (.actBind f) s = .next (t.done .next) := by
  refine issueLim_done he (runs_limits3 hs hsize) (runs_bind hs (runs_bind (runs_need hsize) ?_)) hf
  show Runs (match classify d with
    | .sp off => _
    | _ => _) _ _ _
  rw [hd]
  exact runs_bind (runs_needAt (beq_iff_eq.2 hal)) (runs_bind (runs_needAt (decide_eq_true hin)) hp)

/-- A run of bits that is read within its map has a bit, as its entry asks (R117, R161). -/
theorem runs_limits3_of_actRun {r : Fin 8 × Nat × Nat} (h : Runs (actRun f) s r s1) :
    Runs (limits3 f fun _ _ d => fld d 15 0 != 0) s () s := by
  obtain ⟨⟨x, y, d⟩, s2, hs, h⟩ := runs_bind_iff.1 h
  obtain ⟨_, _, hn, -⟩ := runs_bind_iff.1 h
  exact runs_limits3 hs (need_holds hn)

theorem exec_actMark_done {m : Fin 8} {x n : Nat} (he : Enters (.actMark f) s = true) (hr : Runs (actRun f) s (m, x, n) s1)
    (hp : Runs (lampPlace (.mark m x n)) s1 .next u) (hf : Follows (.actMark f) .next u t) :
    exec (.actMark f) s = .next (t.done .next) :=
  issueLim_done he (runs_limits3_of_actRun hr) (runs_bind hr hp) hf

theorem exec_actClear_done {m : Fin 8} {x n : Nat} (he : Enters (.actClear f) s = true) (hr : Runs (actRun f) s (m, x, n) s1)
    (hp : Runs (lampPlace (.clear m x n)) s1 .next u) (hf : Follows (.actClear f) .next u t) :
    exec (.actClear f) s = .next (t.done .next) :=
  issueLim_done he (runs_limits3_of_actRun hr) (runs_bind hr hp) hf

theorem exec_actList_done {x y d : W64} {b : LMap} (he : Enters (.actList f) s = true) (hs : Runs (sources3 f) s (x, y, d) s1) :
    let cfl : Option FlagRef := if y.getLsbD 15 then some ⟨y.getLsbD 14, BitVec.ofNat 5 (fld y 12 8)⟩ else none
    Runs (flagsOk [cfl]) s1 () s1 → fld x 1 0 = 0 → Runs (boundMap (mapOf y)) s1 b s1 →
    Runs (lampPlace (.list (mapOf y) x d (fld y 63 32) (y.getLsbD 3) cfl)) s1 .next u → Follows (.actList f) .next u t →
    exec (.actList f) s = .next (t.done .next) := by
  intro cfl hfl hx hb hp hf
  exact issue_done he (runs_bind hs (runs_bind hfl (runs_bind (runs_needAt (beq_iff_eq.2 hx)) (runs_bind hb hp)))) hf

/-! ## `act.count` -/

/-- The source of `act.count`: a field, or the wide immediate. -/
def countSource (f : RRR) : Act (List W64) :=
  match wideImm f.e [f.b] with
  | some y => do
    allOk dstOk [f.d]
    pure [y]
  | none => sources f.e [f.b] [f.d]

theorem runs_countSource {vs : List W64} (hi : ∀ y, wideImm f.e [f.b] = some y → Runs (allOk dstOk [f.d]) s () s ∧ vs = [y] ∧ s1 = s)
    (hs : wideImm f.e [f.b] = none → Runs (sources f.e [f.b] [f.d]) s vs s1) : Runs (countSource f) s vs s1 := by
  unfold countSource
  cases hw : wideImm f.e [f.b] with
  | some y =>
    obtain ⟨hc, rfl, rfl⟩ := hi y hw
    exact runs_bind hc (runs_pure _ _)
  | none => exact hs hw

theorem readsOnly_countSource (f : RRR) : ReadsOnly (countSource f) := by
  unfold countSource
  split
  · exact (readsOnly_allOk readsOnly_dstOk _).bind fun _ => ReadsOnly.pure _
  · exact readsOnly_sources _ _ _

/-- Reading operands takes no number of the core's commands. -/
theorem ReadFrame.nextId {s t : State} (h : ReadFrame s t) : (t.core t.cur.c).nextId = (s.core s.cur.c).nextId := by
  obtain ⟨_, _, _, _, _, _, -, -, ⟨_, _, _, _, _, -, rfl⟩, rfl⟩ := h
  unfold State.core
  rw [vset_get_self]

/-- `act.count` takes its place among the commands of the lamplighter, with its issuer's view (R161, log 62). -/
def State.countPlaced (s : State) (m : Fin 8) : State :=
  let k := (s.core s.cur.c).nextId
  let p := (s.modCore s.cur.c fun c => { c with nextId := k + 1 }).pushView s.cur
  (p.2.modClu (cluOf p.2.cur.c) fun u =>
    { u with lamp := u.lamp ++ [{ who := p.2.me, ctx := p.2.myCtx, view := p.1, arrived := p.2.now, kind := .count m k }] }).waitFor k

theorem exec_actCount_placed {vs : List W64} {m : LMap} (he : Enters (.actCount f) s = true) (hv : Runs (countSource f) s vs s1)
    (hw : (s1.sq s1.cur).waitCmd = none) (hm : Runs (boundMap (mapOf (nthV vs 0))) s1 m s1) (hq : s1.quietSeq s1.cur = true)
    (hf : Follows (.actCount f) (.again 8) (s.countPlaced (mapOf (nthV vs 0))) t) :
    exec (.actCount f) s = .next (t.done (.again 8)) := by
  have hid := (readsOnly_countSource f _ _ _ hv).nextId
  refine issue_done he (runs_bind hv (runs_bind (runs_get s1) ?_)) hf
  rw [hw]
  refine runs_bind hm (runs_bind (runs_needQuiet hq) ?_)
  unfold State.countPlaced
  rw [← hid]
  exact runs_bind (runs_set _ _) (runs_pure _ _)

/-- Once the lamplighter has reached that place, d receives the count (R162). -/
theorem exec_actCount_taken {vs : List W64} {n : Nat} {v : W64} {d : Dst} {s2 : State} (he : Enters (.actCount f) s = true)
    (hv : Runs (countSource f) s vs s1) (hw : (s1.sq s1.cur).waitCmd = some (n, v))
    (hl : ((s1.clu (cluOf s1.cur.c)).lamp.any fun c => match c.kind with
      | .count _ id => id == n
      | _ => false) = false)
    (hd : Runs (destOf f.d) s1.waitOver d s2) (hf : Follows (.actCount f) .next (s2.pended d v) t) :
    exec (.actCount f) s = .next (t.done .next) := by
  refine issue_done he (runs_bind hv (runs_bind (runs_get s1) ?_)) hf
  rw [hw]
  exact runs_of_not (Bool.eq_false_iff.1 hl) (runs_bind (runs_set _ _) (runs_bind hd (runs_bind (runs_pendWrite _ _ _ _) (runs_pure _ _))))
end

/-! ## The statement -/

/-- Settles O22: each command by the run of its body; `act.count` by whether it waits already. -/
theorem lamplighterComplete : Obligations.LamplighterComplete := by
  unfold Obligations.LamplighterComplete
  refine ⟨?_, fun f s m x n s1 u t => exec_actMark_done, fun f s m x n s1 u t => exec_actClear_done,
    fun f s x y d s1 b u t => exec_actList_done, ?_⟩
  · intro f s x y d s1 off u t he hs w h hw1 hw hh1 hh hd hal hin hp hf
    exact exec_actBind_done he hs (mapSizeOk_of hw1 hw hh1 hh) hd hal hin hp hf
  · intro f s vs s1 n v d s2 t he hi hs
    have hv := runs_countSource hi hs
    exact ⟨fun m hw hm hq => exec_actCount_placed he hv hw hm hq, fun hw hl hd hf => exec_actCount_taken he hv hw hl hd hf⟩

end Sys2Proof.Machine
end


section
/-! PROOFS. The events of the matrix engine (R154, R184, R191, R192, R194, R201, R233). -/
namespace Sys2Proof.Machine

/-! ## Starts -/

/-- What a matrix command does once it has left the FIFO (R184): an operation starts, planes are swapped, a tile is cleared, or a weight
load begins. -/
def State.matrixStarted (u : State) (c : CoreId) (m : MCmd) : State :=
  match m.kind with
  | .op o => u.opStart m o
  | .swap flag => (if u.alive m.who then u.modBank m.who fun k =>
      { k with plane := k.shadow, shadow := k.plane } else u).matrixDone m.who flag
  | .zero z slot flag => (if u.alive m.who then u.modBank m.who fun k =>
      { k with z := vset k.z z { mode := slot.getLsbD 16, anchor := BitVec.ofNat 8 (fld slot 31 24) } } else u).matrixDone m.who flag
  | .wload flag o slot t sparse => u.modCore c fun k =>
      { k with wRun := some ⟨m.id, m.nth, m.who, flag, o, slot, t, sparse, u.now, false⟩ }

theorem exec_matrixCmdStart {c : CoreId} {s : State} {i : Nat} {m : MCmd} (hr : (s.core c).replays = false) :
    let ok := (List.range (s.core c).mFifo.length).filter (s.matrixStarts (s.core c))
    let v := (s.choose ok.length).2
    ok[(s.choose ok.length).1]? = some i → (s.core c).mFifo[i]? = some m →
    let u := (v.modCore c fun k => { k with mFifo := k.mFifo.eraseIdx i }).engStart (engAgent c 1) m.view
    (u.core c).engFenced.get 1 = false → exec (.matrixCmdStart c) s = .next (u.matrixStarted c m) := by
  intro ok v hi hm u hf
  change execMatrixCmdStart c s = _
  unfold execMatrixCmdStart State.matrixStarted
  simp only [hr, Bool.false_eq_true, if_false]
  simp only [ok] at hi
  simp only [u, v, ok] at hf
  simp only [hi, hm, hf, Bool.false_eq_true, if_false]
  cases m.kind <;> rfl

/-! ## Pops -/

theorem modQ_plane (s : State) (w : Who) (n : Fin 16) (g : Queue → Queue) : ((s.modQ w n g).bank w).plane = (s.bank w).plane := by
  rw [State.modQ_bank, if_pos ⟨rfl, rfl⟩]
  rfl

/-- The operation that pops takes the head of its queue (R194, R232), with an entry of its tile's window. -/
def State.rowPopped (s : State) (c : CoreId) (i : Nat) (r : MRun) (x : QSlot) : State :=
  let es := ((r.take x.asRow s.now).1.fly.getLast?).toList.map fun p => WinE.row r.o (s.bank r.who).plane p
  let u := ((s.modQ r.who r.o.q (·.drop 1)).count r.who (rowCode (fld r.o.slot 3 0)) 1).window r.who r.o.z 0 1 es
  let v := match (r.take x.asRow s.now).2 with
    | some j => u.modBank r.who fun k =>
        { k with z := vset k.z r.o.z { k.z.get r.o.z with present := (k.z.get r.o.z).present ||| BitVec.ofNat 256 (2 ^ j) } }
    | none => u
  v.modCore c fun k => { k with mRun := k.mRun.modify i fun _ => (r.take x.asRow s.now).1 }

theorem exec_matrixRowPop {c : CoreId} {s : State} {i : Nat} {r : MRun} {x : QSlot} {xs : List QSlot}
    (hi : (s.core c).mRun.findIdx? (fun r => !r.popped) = some i) (hr : (s.core c).mRun[i]? = some r) (ha : s.alive r.who = true)
    (hp : r.mayPop s.now = true) (hq : 0 < (s.queue r.who r.o.q).ready s.now) (hf : (s.core c).engFenced.get 1 = false)
    (hx : (s.queue r.who r.o.q).ents = x :: xs) (hre : (s.core c).replays = false) (hh : s.halts r.who = false) :
    exec (.matrixRowPop c) s = .next (s.rowPopped c i r x) := by
  change Host.Outcome.next (if (s.core c).replays = true then s else s.matrixPop c) = _
  have hq' : ¬(s.queue r.who r.o.q).ready s.now = 0 := by omega
  unfold State.matrixPop State.rowPopped
  rcases ht : r.take x.asRow s.now with ⟨r', _ | j⟩ <;>
    simp only [hre, hi, hr, ha, hp, hq', hf, hx, hh, ht, modQ_plane, Bool.not_true, Bool.or_self, decide_false, Bool.false_eq_true,
      if_false]

/-! ## Contributions -/

/-- Column k of a row has landed from the cycle after the 73 + k-th that follows its pop (R233). -/
theorem lt_landed_iff {p : PRow} {now k : Nat} (hk : k < 64) : k < p.landed now ↔ p.at_ + 73 + k < now := by
  show k < min 64 (now - (p.at_ + 73)) ↔ _
  rw [Nat.lt_min]
  omega

/-- The last row in flight of an operation lands what has come of it, and leaves with its last column. -/
theorem landRows_one (now : Nat) (o : MOp) (live : Bool) (p : PRow) (k : Bank) :
    let n := Nat.max p.col (p.landed now)
    let x := if live then k.landRow o p n else (k, 0)
    landRows now o live [p] (k, 0) = (if n = 64 then [] else [{ p with col := n }], x.1, x.2) := by
  intro n x
  have h : (0 : Flags) ||| x.2 = x.2 := BitVec.zero_or
  rw [← h]
  rfl

theorem exec_matrixContributionLand {c : CoreId} {s : State} {r : MRun} {p : PRow} (hr : (s.core c).mRun = [r]) (hp : r.fly = [p])
    (hre : (s.core c).replays = false) :
    let n := Nat.max p.col (p.landed s.now)
    let x := if s.alive r.who then (s.bank r.who).landRow r.o p n else (s.bank r.who, 0)
    exec (.matrixContributionLand c) s = .next ((s.modBank r.who fun _ => x.1).modCore c fun k =>
      { k with mRun := k.mRun.modify 0 fun r =>
        { r with fly := if n = 64 then [] else [{ p with col := n }], flg := r.flg ||| x.2 } }) := by
  intro n x
  have hland : landRows s.now r.o (s.alive r.who) r.fly (s.bank r.who, 0) =
      (if n = 64 then [] else [{ p with col := n }], x.1, x.2) := by
    rw [hp]
    exact landRows_one _ _ _ _ _
  have hfly : ¬r.fly = [] := by simp [hp]
  change Host.Outcome.next (if (s.core c).replays = true then s else s.landAllRows c) = _
  unfold State.landAllRows
  simp only [hre, hr, hfly, hland, List.length_singleton, List.range_one, List.foldl_cons, List.foldl_nil, List.getElem?_cons_zero,
    Bool.false_eq_true, if_false]

/-! ## Completions -/

theorem over_iff (r : MRun) (now : Nat) : r.over now = true ↔ r.popped = true ∧ r.fly = [] ∧ r.endAt ≤ now := by
  rw [MRun.over, Bool.and_eq_true, Bool.and_eq_true, decide_eq_true_eq, beq_iff_eq, and_assoc]

theorem exec_matrixOpComplete {c : CoreId} {s : State} {r : MRun} (hre : (s.core c).replays = false)
    (hr : (s.core c).mRun.find? (fun r => r.over s.now) = some r) : exec (.matrixOpComplete c) s = .next (s.opDone c r) := by
  change execMatrixOpComplete c s = _
  unfold execMatrixOpComplete
  simp only [hre, hr, Bool.false_eq_true, if_false]

/-! ## Weight loads -/

/-- What becomes of a weight load whose plane has been read, `bad` where a word of it was uncorrectable (R154, log 67). -/
def State.planeRead (s : State) (c : CoreId) (r : WRun) (ss : List (List Byte)) (bad : Bool) : State :=
  let u := s.modCore c fun k => { k with wRun := none }
  if bad && !r.again then (s.consumed r.who 1 (16 * c.val + 1) (wsLoc c r.o)).modCore c fun k =>
    { k with wRun := some { r with start := s.now, again := true } }
  else if bad then (u.engEnd r.who 1 r.nth cUncorr (BitVec.ofNat 64 r.o) (matrixCode c)).fenceEngine c 1 r.who 1 (wsLoc c r.o)
  else (if u.alive r.who then u.modBank r.who fun k => { k with shadow := some (planeOf r ss) } else u).matrixDone r.who (some r.flag)

/-- A weight load whose cycles have passed reads its plane. The read is rewritten as a whole, so that its 64 slices are not unfolded. -/
theorem exec_wloadComplete {c : CoreId} {s t : State} {r : WRun} {ss : List (List Byte)} {bad : Bool} (hr : (s.core c).wRun = some r)
    (ht : r.start + 16 + planeBytes r.slot r.sparse / 32 < s.now) (he : s.evWaiting < 4096) (hp : s.readPlane c r = (ss, bad, t)) :
    exec (.wloadComplete c) s = .next (t.planeRead c r ss bad) := by
  have hwaits : ¬(s.now ≤ r.start + 16 + planeBytes r.slot r.sparse / 32 || 4096 ≤ s.evWaiting) = true := by
    rw [Bool.or_eq_true, decide_eq_true_eq, decide_eq_true_eq]
    omega
  change Host.Outcome.next (s.wloadStep c) = _
  unfold State.wloadStep
  split
  · rename_i h
    cases hr.symm.trans h
  · rename_i r' h
    obtain rfl := Option.some.inj (hr.symm.trans h)
    rw [if_neg hwaits, hp]
    rfl

/-! ## The statement -/

/-- Settles O30: each event by the step that it takes; a row's columns by the cycles in which they land. -/
theorem matrixEngineCompletes : Obligations.MatrixEngineCompletes := by
  unfold Obligations.MatrixEngineCompletes
  refine ⟨?_, fun c s i r x xs => exec_matrixRowPop, ?_, ?_, ?_, ?_⟩
  · intro c s i m hr ok v hi hm u hf
    exact exec_matrixCmdStart hr hi hm hf
  · intro c s r p hr hp
    exact ⟨fun k hk => lt_landed_iff hk, exec_matrixContributionLand hr hp⟩
  · intro r now h
    obtain ⟨hpop, hfly, -⟩ := (over_iff r now).1 h
    exact ⟨hpop, hfly⟩
  · intro c s r hre hr
    exact exec_matrixOpComplete hre hr
  · intro c s r hr ht he p
    have hp : s.readPlane c r = p := rfl
    clear_value p
    obtain ⟨ss, bad, t⟩ := p
    intro u
    have h := exec_wloadComplete hr ht he hp
    unfold State.planeRead at h
    refine ⟨?_, ?_, ?_⟩
    · rintro rfl
      exact h
    · rintro rfl ha
      rw [h, ha]
      rfl
    · rintro rfl ha
      rw [h, ha]
      rfl

end Sys2Proof.Machine
end


section
/-! PROOFS. The events of a cluster's engines and of the output stream engine (R162, R202, R206, R208, R218). -/
namespace Sys2Proof.Machine

/-! ## The assignment engine -/

/-- The head of the FIFO becomes the current run (R202). -/
theorem exec_aeRunStart {u : CluId} {s : State} {r : AERun} {rest : List AERun} (h0 : (s.clu u).aeRun = none)
    (hq : (s.clu u).aeFifo = r :: rest) : exec (.aeRunStart u) s =
      .next (((s.modClu u fun x => { x with aeFifo := rest, aeRun := some r }).engStart (cluAgent u 0) r.view).aeBegin u r) := by
  change execAeRunStart u s = _
  unfold execAeRunStart
  simp only [h0, hq]

/-- The outputs of a run are written and its status word is kept until they are applied; a replay counts no round again (R206, R391). -/
def State.aeOutputs (s : State) (u : CluId) (r : AERun) : State :=
  let v := (s.aeWrite r r.desc.asgn (r.auction.asg.map fun i => BitVec.ofInt 32 i)).aeWrite r r.desc.pout r.auction.p
  (if r.replay then v else v.count r.who 13 r.auction.rounds).setRun u { r with out := some (r.word r.auction) }

section
variable {u : CluId} {s : State} {r : AERun} (hr : (s.clu u).aeRun = some r) (hs : r.started = true)
include hr hs

theorem exec_aeRunComplete_failed {cause : Byte} {va : W64} (hf : r.fail = some (cause, va)) :
    exec (.aeRunComplete u) s = .next ((s.engEnd r.who 5 r.nth cause va aeCode).aeStatus u r 0x4000) := by
  change execAeRunComplete u s = _
  unfold execAeRunComplete
  simp only [hr, hs, hf, Bool.not_true, Bool.false_eq_true, if_false]

theorem exec_aeRunComplete_written {w : W64} (hf : r.fail = none) (ho : r.out = some w) :
    exec (.aeRunComplete u) s = .next (if s.cmdPending (cluAgent u 0) r.ref then s
      else (s.aeStatus u r w).engDone r.who r.cfl (cluAgent u 0) aeCode) := by
  change execAeRunComplete u s = _
  unfold execAeRunComplete
  simp only [hr, hs, hf, ho, Bool.not_true, Bool.false_eq_true, if_false]
  split <;> rfl

theorem exec_aeRunComplete_writes (hf : r.fail = none) (ho : r.out = none) :
    exec (.aeRunComplete u) s = .next (if r.bad = 0 then s.aeOutputs u r
      else (s.aeStatus u r 0x3000).engDone r.who r.cfl (cluAgent u 0) aeCode) := by
  change execAeRunComplete u s = _
  unfold execAeRunComplete State.aeOutputs
  simp only [hr, hs, hf, ho, Bool.not_true, Bool.false_eq_true, if_false]
  by_cases hb : r.bad = 0
  · rw [if_neg (by rw [bne_iff_ne]; exact not_not_intro hb), if_pos hb]
  · rw [if_pos (bne_iff_ne.2 hb), if_neg hb]
end

/-! ## The lamplighter -/

/-- A list that has been written completes through its homes; the marks and clears of one cycle are applied together, clears first; any
other command alone (R162, R273). -/
theorem exec_lamplighterApply {u : CluId} {s : State} {c : LCmd} {rest : List LCmd} (hq : (s.clu u).lamp = c :: rest)
    (ha : c.arrived < s.now) (ht : c.tok = none) :
    let part := (c :: rest).takeWhile fun x => (x.isMark || x.isClear) && x.arrived == c.arrived
    let v := part.foldl (fun s x => s.engStart (cluAgent u 1) x.view)
      (s.modClu u fun x => { x with lamp := (c :: rest).drop part.length })
    let cfl := match c.kind with
      | .list _ _ _ _ _ f => f
      | _ => none
    exec (.lamplighterApply u) s = .next (
      if c.fin then s.awaitHomes c.who (cluAgent u 1) (c.ref true) c.far c.sent c.got
        (fun s d => s.modClu u fun x => { x with lamp := { c with sent := d :: c.sent } :: rest })
        fun s => (s.modClu u fun x => { x with lamp := rest }).engDone c.who cfl (cluAgent u 1) lampCode
      else if c.isMark || c.isClear then v.lampPart u (part.filter (·.isClear) ++ part.filter (·.isMark))
      else ((s.modClu u fun x => { x with lamp := rest }).engStart (cluAgent u 1) c.view).lampHead u c) := by
  intro part v cfl
  have hready : (decide (s.now ≤ c.arrived) || c.tok.isSome) = false := by
    rw [ht, decide_eq_false (Nat.not_le_of_lt ha)]
    rfl
  change execLamplighterApply u s = _
  unfold execLamplighterApply
  rw [hq]
  show (if _ then Host.Outcome.next s else _) = _
  rw [if_neg (Bool.eq_false_iff.1 hready)]
  by_cases hfin : c.fin = true
  · rw [if_pos hfin]
    exact congrArg Host.Outcome.next (if_pos hfin).symm
  · rw [if_neg hfin, if_neg hfin]
    by_cases hm : (c.isMark || c.isClear) = true
    · rw [if_pos hm]
      exact congrArg Host.Outcome.next (if_pos hm).symm
    · rw [if_neg hm]
      exact congrArg Host.Outcome.next (if_neg hm).symm

/-! ## The output stream engine -/

/-- The runs of an output stream on a core. -/
def State.outRuns (s : State) (c : CoreId) (k : Fin 8) : List Run := (s.core c).outRun.filter fun r => r.cmd.kind.isOut k
/-- The command at the head of its FIFO, when it names that stream and its task is not being stopped (R218, R332). -/
def State.outHead (s : State) (c : CoreId) (k : Fin 8) : List ECmd :=
  match (s.core c).outFifo with
  | x :: _ => if x.kind.isOut k && !s.halts x.who then [x] else []
  | [] => []

/-- What is done once the open choice has named a run, or none: a step of the run, or a start of the head. -/
def State.outTurn (s : State) (c : CoreId) (k : Fin 8) (r : Option Run) (head : List ECmd) : Out :=
  match r, head with
  | some r, _ => match r.cmd.kind with
    | .ostream _ q d => .next (if (s.core c).engFenced.get 2 then s.outEnd r cUncorr 0 else s.outStep r k q d)
    | _ => .next s
  | none, x :: _ =>
    if (s.core c).engFenced.get 2 then .next ((s.modCore c fun k => { k with outFifo := k.outFifo.drop 1 }).outFail x cUncorr 0)
    else .next (s.outStart c x k)
  | none, [] => .next s

section
variable (c : CoreId) (k : Fin 8) (s : State)

/-- The choice among the runs of a stream and the head of the FIFO. -/
def State.outChoice : Nat × State := s.choose ((s.outRuns c k).length + (s.outHead c k).length)

theorem exec_ostreamElementWrite : exec (.ostreamElementWrite c k) s =
    (s.outChoice c k).2.outTurn c k (s.outRuns c k)[(s.outChoice c k).1]? (s.outHead c k) := rfl
end

section
variable {c : CoreId} {k : Fin 8} {s : State} (hf : ((s.outChoice c k).2.core c).engFenced.get 2 = false)
include hf

/-- A started stream that is chosen takes a step (R218). -/
theorem exec_ostreamElementWrite_step {r : Run} {k' : Fin 8} {q : Fin 16} {d : SDesc}
    (hr : (s.outRuns c k)[(s.outChoice c k).1]? = some r) (hk : r.cmd.kind = .ostream k' q d) :
    exec (.ostreamElementWrite c k) s = .next ((s.outChoice c k).2.outStep r k q d) := by
  rw [exec_ostreamElementWrite, hr]
  unfold State.outTurn
  simp only [hk, hf, Bool.false_eq_true, if_false]

/-- Where none is chosen, the command at the head starts. -/
theorem exec_ostreamElementWrite_start {x : ECmd} (hr : (s.outRuns c k)[(s.outChoice c k).1]? = none) (hx : s.outHead c k = [x]) :
    exec (.ostreamElementWrite c k) s = .next ((s.outChoice c k).2.outStart c x k) := by
  rw [exec_ostreamElementWrite, hr, hx]
  unfold State.outTurn
  simp only [hf, Bool.false_eq_true, if_false]
end

/-! ## The statement -/

/-- Settles O31: each event by the step that it takes. -/
theorem clusterEnginesComplete : Obligations.ClusterEnginesComplete := by
  unfold Obligations.ClusterEnginesComplete
  refine ⟨fun u s r rest => exec_aeRunStart, ?_, ?_, ?_⟩
  · intro u s r hr hs
    cases hf : r.fail with
    | some e => exact exec_aeRunComplete_failed hr hs hf
    | none =>
      cases ho : r.out with
      | some w => exact exec_aeRunComplete_written hr hs hf ho
      | none =>
        have h := exec_aeRunComplete_writes hr hs hf ho
        unfold State.aeOutputs at h
        rwa [hf] at h
  · intro u s c rest hq ha ht part v
    exact exec_lamplighterApply hq ha ht
  · intro c k s rs head v hf
    exact ⟨fun r k' q d hr hk => exec_ostreamElementWrite_step hf hr hk, fun x hr hx => exec_ostreamElementWrite_start hf hr hx⟩

end Sys2Proof.Machine
end


section
/-! PROOFS. The lane operations of two tiles as they land under their predicate (R163, R166, R167). -/
namespace Sys2Proof.Machine

/-! ## Lanes, tiles and planes -/

theorem lanes2_vals_get (g : W32 → W32 → W32 × Flags) (x y : Tile) (n : Fin 1024) :
    (lanes2 g x y).vals.get n = (g (x.get n) (y.get n)).1 := by
  simp [Lanes.vals, lanes2]

theorem lanes2_flags_get (g : W32 → W32 → W32 × Flags) (x y : Tile) (n : Fin 1024) :
    (lanes2 g x y).flags.get n = (g (x.get n) (y.get n)).2 := by
  simp [Lanes.flags, lanes2]

theorem Tile.write_get (old t : Tile) (m : Mask) (n : Fin 1024) :
    (Tile.write old t m).get n = if m.getLsbD n then t.get n else old.get n := by
  simp [Tile.write]

theorem planesOf_get (m : Mask) (fl : Vector Flags 1024) (p : Fin 5) (n : Fin 1024) :
    ((planesOf m fl).get p).getLsbD n = (m.getLsbD n && (fl.get n).getLsbD p) := by
  simp [planesOf]

theorem Bank.raiseXf_get (k : Bank) (p : Vector Mask 5) (i : Fin 5) : (k.raiseXf p).xf.get i = k.xf.get i ||| p.get i := by
  simp [Bank.raiseXf]

theorem vIdx_ne {r d : BitVec 5} (h : r ≠ d) : vIdx d ≠ vIdx r := fun he =>
  h (BitVec.eq_of_toNat_eq (congrArg Fin.val he).symm)

/-! ## Lanes that land -/

/-- A bank after lanes have landed in a register under a predicate, with their flags raised in xf (R58, R163). -/
def Bank.landed (k : Bank) (d : BitVec 5) (l : Lanes) (m : Mask) : Bank :=
  { k with v := vset k.v (vIdx d) (Tile.write (k.tile d) l.vals m) }.raiseXf (planesOf m l.flags)

/-- An entry whose writes are a tile of lanes with their flags lands them in its bank. -/
theorem landX_lanes {e : XEnt} {d : BitVec 5} {l : Lanes} {m : Mask} (h : xRun e.i e = wrLanes d l m) (s : State) (w : Who) :
    s.landX w e = s.modBank w fun k => k.landed d l m := by
  unfold State.landX
  rw [h]
  exact State.modBank_modBank _ _ _ _

section
variable (k : Bank) (d : BitVec 5) (l : Lanes) (m : Mask)

/-- Each lane of the predicate takes its result, and the others keep theirs. -/
theorem Bank.landed_tile_get (n : Fin 1024) :
    ((k.landed d l m).tile d).get n = if m.getLsbD n then l.vals.get n else (k.tile d).get n := by
  rw [← Tile.write_get]
  exact congrArg (Vector.get · n) (vset_get_self _ _ _)

theorem Bank.landed_tile_ne {r : BitVec 5} (h : r ≠ d) : (k.landed d l m).tile r = k.tile r :=
  vset_get_ne _ _ (vIdx_ne h)

/-- Flags are raised over those that a plane holds. -/
theorem Bank.landed_xf (p : Fin 5) (n : Fin 1024) :
    ((k.landed d l m).xf.get p).getLsbD n = ((k.xf.get p).getLsbD n || (m.getLsbD n && (l.flags.get n).getLsbD p)) := by
  unfold Bank.landed
  rw [Bank.raiseXf_get, BitVec.getLsbD_or, planesOf_get]

@[simp] theorem Bank.landed_m : (k.landed d l m).m = k.m := rfl
@[simp] theorem Bank.landed_seqs : (k.landed d l m).seqs = k.seqs := rfl
end

/-! ## What a lane operation writes -/

theorem XEnt.tileCap_of_get {e : XEnt} {k : Nat} {t : Tile} (h : e.caps[k]? = some (.tile t)) : e.tileCap k = t := by
  unfold XEnt.tileCap
  rw [h]

/-- A lane operation of two tiles writes what it computes of its captures. -/
theorem xRun_lane2 {i : Instr} {f : FV} {g : W32 → W32 → W32 × Flags} (h : shapeLane2 i = some (f, g)) (e : XEnt) :
    xRun i e = wrTile2 f e g := by
  cases i with
  | vadd _ | vsub _ | vmul _ | vmin _ | vmax _ | viadd _ | visub _ | vimul _ | viand _ | vior _ | vixor _ | vishl _ | vishr _ =>
    cases h
    rfl
  | _ => cases h

/-! ## The statement -/

/-- Settles O58: the two captured tiles make one tile of lanes, which lands in the bank. -/
theorem vectorLanding : Obligations.VectorLanding := by
  unfold Obligations.VectorLanding
  intro i f g s w e x y hshape hi hcaps t
  have hx : e.tileCap 0 = x := XEnt.tileCap_of_get (congrArg (·[0]?) hcaps)
  have hy : e.tileCap 1 = y := XEnt.tileCap_of_get (congrArg (·[1]?) hcaps)
  have hrun : xRun e.i e = wrLanes f.d (lanes2 g x y) e.pred := by
    rw [hi, xRun_lane2 hshape, wrTile2, hx, hy]
  have ht : t = s.modBank w fun k => k.landed f.d (lanes2 g x y) e.pred := landX_lanes hrun s w
  have hbank : t.bank w = (s.bank w).landed f.d (lanes2 g x y) e.pred := by
    rw [ht, State.modBank_bank_self]
  rw [hbank]
  refine ⟨fun n => ?_, fun p n => ?_, fun r hr => Bank.landed_tile_ne _ _ _ _ hr, Bank.landed_m _ _ _ _,
    Bank.landed_seqs _ _ _ _, ?_⟩
  · rw [Bank.landed_tile_get, lanes2_vals_get]
  · rw [Bank.landed_xf, lanes2_flags_get]
  · rw [ht, State.modBank_mem]

end Sys2Proof.Machine
end


section
/-! PROOFS. Moves between files and the tile pops and pushes enter X's pipeline (R169, R181-R183). -/
namespace Sys2Proof.Machine

/-! ## Moves between files -/

/-- `vmov` captures a mask or a tile and is exposed for a mask or a tile, by its KIND (R169). -/
theorem runs_vecMov (f : FV) (s : State) :
    let k := s.bank s.cur
    let kind := (f.e.getD 0).toNat % 4
    Runs (vecMov f) s .next (s.exposed
      { i := .vmov f, due := 1, caps := [if kind = 1 ∨ kind = 2 then k.capMask f.a else k.capTile f.a], pm := k.capPred f.m }
      [(if kind = 1 ∨ kind = 3 then 3 else 2, f.d.toNat)]) := by
  intro k kind
  refine runs_bind (runs_get s) ?_
  simp only [Bool.or_eq_true, decide_eq_true_eq]
  exact runs_vecAdd _ _ _ _ _ _

/-- An instruction with a scalar source captures its value (R169, R183). -/
theorem runs_vecScalar (i : Instr) (f : FV) (v : W64) (s : State) :
    Runs (vecScalar i f v) s .next (s.exposed
      { i := i, due := 1, sv0 := v, pm := (s.bank s.cur).capPred f.m } [(2, f.d.toNat)]) :=
  runs_bind (runs_get s) (runs_bind (runs_addX _ _ _) (runs_pure _ _))

/-- `vget` reads its lane at issue (R183). -/
theorem runs_vecGet (f : FV) (s : State) :
    Runs (vecGet f) s .next (s.exposed
      { i := .vget f, due := 1, sv2 := (((s.bank s.cur).tile f.a).get (laneOf f)).setWidth 64 } (fieldFile (sFld f.d))) :=
  runs_bind (runs_get s) (runs_bind (runs_addX _ _ _) (runs_pure _ _))

/-! ## Tile pops and pushes -/

/-- A tile pop or push names a queue of rows (R181). -/
theorem runs_rowQueue {n : BitVec 5} (h : 8 ≤ n.toNat) (s : State) : Runs (rowQueue n) s ⟨n.toNat % 16, by omega⟩ s :=
  runs_bind (runs_need (decide_eq_true h)) (runs_pure _ _)

/-- `vpop` fixes its result, the lanes of poisoned rows and its header from the rows that it takes at issue (R182, R327). -/
theorem runs_vecPop {f : FV} {s s1 : State} {rows : List Row} (h8 : 8 ≤ f.a.toNat) :
    let q : Fin 16 := ⟨f.a.toNat % 16, by omega⟩
    let k := s1.bank s1.cur
    let r := unpackRows (widE f) rows
    Runs (popOk q) s () s → Runs (matrixOk q) s () s → Runs (popRows q (widOf (widE f)).2.2) s rows s1 →
    Runs (vecPop f) s .next (s1.exposed
      { i := .vpop f, due := 2, caps := [.res r.1 (Vector.ofFn fun p => if p = 0 then r.2 &&& k.maskReg f.m else 0)]
        pm := k.capPred f.m, sv2 := popHeader rows } ([(2, f.d.toNat)] ++ fieldFile (sFld f.b))) := by
  intro q k r hpop hmat hrows
  refine runs_bind (runs_rowQueue h8 s) (runs_bind hpop (runs_bind hmat (runs_bind hrows (runs_bind (runs_get s1) ?_))))
  subst r
  cases unpackRows (widE f) rows with
  | mk tile bad => exact runs_bind (runs_addX _ _ _) (runs_pure _ _)

/-- `vpush` captures its tile and its tag, with the tail slots that it reserves at issue (R182). -/
theorem runs_vecPush {f : FV} {s s1 s2 : State} {rid : Nat} {v : W64} (h8 : 8 ≤ f.d.toNat) :
    let q : Fin 16 := ⟨f.d.toNat % 16, by omega⟩
    let n := (widOf (widE f)).2.2
    let k := s2.bank s2.cur
    Runs (pushOk q) s () s → Runs (reserve q n) s rid s1 → Runs (xScalar f.b) s1 v s2 →
    Runs (vecPush f) s .next (s2.exposed
      { i := .vpush f, due := 2, sv1 := v, caps := [k.capTile f.a], pm := k.capPred f.m, rid := rid, nres := n, q := q } []) := by
  intro q n k hpush hres hv
  exact runs_bind (runs_rowQueue h8 s) (runs_bind hpush (runs_bind hres (runs_bind hv
    (runs_bind (runs_get s2) (runs_bind (runs_addX _ _ _) (runs_pure _ _))))))

/-! ## The statement -/

/-- Settles O16: each instruction by what its body leaves exposed. -/
theorem movesAndTilesComplete : Obligations.MovesAndTilesComplete := by
  unfold Obligations.MovesAndTilesComplete
  refine ⟨?_, ?_, ?_, ?_, ?_, ?_⟩
  · intro f s t he k kind hf
    exact issue_done he (runs_vecMov f s) hf
  · intro f s v s1 t he hv hf
    exact issue_done he (runs_bind hv (runs_vecScalar _ f v s1)) hf
  · intro f s t he hf
    exact issue_done he (runs_vecGet f s) hf
  · intro f s v s1 t he hv hf
    exact issue_done he (runs_bind hv (runs_vecScalar _ f v s1)) hf
  · intro f s rows s1 t he h8 q hpop hmat hrows k r hf
    exact issue_done he (runs_vecPop h8 hpop hmat hrows) hf
  · intro f s rid s1 v s2 t he h8 q n hpush hres hv k hf
    exact issue_done he (runs_vecPush h8 hpush hres hv) hf

end Sys2Proof.Machine
end


section
/-! PROOFS. Matrix commands enter the matrix FIFO (R184, R191-R193, R198, R222). -/
namespace Sys2Proof.Machine

section
variable {f : FM} {s t : State} (hroom : (s.core s.cur.c).matrixRoom = true) (hq : s.quietSeq s.cur = true)
include hroom hq

/-- X hands over a command when the FIFO has room and X's accesses have performed (R184, R222). -/
theorem runs_matrixPlace (i : Instr) (k : MKind) : Runs (matrixPlace i k) s .next (s.matrixEnter s.me i k) := by
  have hheld : ¬(!(s.core s.cur.c).matrixRoom) = true := by
    rw [hroom]
    exact Bool.false_ne_true
  exact runs_bind (runs_get s) (runs_of_not hheld (runs_bind (runs_needQuiet hq) (runs_bind (runs_modify _ _) (runs_pure _ _))))

/-- An operation enters the FIFO when its slot passes its check and X may hand over its queue; the slot's check is its limit too (R193,
R198). -/
theorem exec_matrixOp_done {rank : Bool} :
    let i : Instr := if rank then .mrank f else .mmul f
    let o := s.mop s.cur rank f
    Enters i s = true → o.bad = false → s.mqueueOk s.cur o.q = true → Follows i .next (s.matrixEnter s.me i (.op o)) t →
    exec i s = .next (t.done .next) := by
  intro i o he hbad hqueue hf
  have hslot : (!o.bad) = true := by rw [hbad]; rfl
  have hlim : Runs (opLimits rank f) s () s := runs_bind (runs_get s) (runs_need hslot)
  have hbody : Runs (matrixOp rank f) s .next (s.matrixEnter s.me i (.op o)) :=
    runs_bind (runs_get s) (runs_bind (runs_need hslot) (runs_bind (runs_need hqueue) (runs_matrixPlace hroom hq i (.op o))))
  cases rank with
  | true => exact issueLim_done he hlim hbody hf
  | false => exact issueLim_done he hlim hbody hf

theorem exec_mswap_done (he : Enters (.mswap f) s = true)
    (hf : Follows (.mswap f) .next (s.matrixEnter s.me (.mswap f) (.swap (mFlag f))) t) : exec (.mswap f) s = .next (t.done .next) :=
  issue_done he (runs_matrixPlace hroom hq _ _) hf

/-- A zero enters the FIFO with its slot as it stands at issue (R191). -/
theorem exec_mzero_done (he : Enters (.mzero f) s = true)
    (hf : Follows (.mzero f) .next (s.matrixEnter s.me (.mzero f) (.zero (mZ f) (s.fmtSlot s.cur f.fmt.toNat) (mFlag f))) t) :
    exec (.mzero f) s = .next (t.done .next) :=
  issue_done he (runs_bind (runs_get s) (runs_matrixPlace hroom hq _ _)) hf
end

/-! ## The statement -/

/-- Settles O23: each command by the run of its body, which places it in the FIFO. -/
theorem matrixCommandsComplete : Obligations.MatrixCommandsComplete := by
  unfold Obligations.MatrixCommandsComplete
  intro s hroom hq
  exact ⟨fun rank f t => exec_matrixOp_done hroom hq, fun f t => exec_mswap_done hroom hq, fun f t => exec_mzero_done hroom hq⟩

end Sys2Proof.Machine
end


section
/-! PROOFS. Matrix closes, waits and reads, and the format instructions (R188, R189, R199-R201). -/
namespace Sys2Proof.Machine

/-! ## Close and wait -/

section
variable {f : FM} {s t : State}

theorem exec_mclose_done (he : Enters (.mclose f) s = true) (hf : Follows (.mclose f) .next (s.matrixClose s.cur (mZ f)) t) :
    exec (.mclose f) s = .next (t.done .next) :=
  issue_done he (runs_bind (runs_modify _ _) (runs_pure _ _)) hf

/-- An accumulator is idle when no command that is queued or active names it, nor is a window of it replayed (R391). -/
theorem runs_zIdle {z : Fin 8} (h : (s.zBusy s.cur z || ((s.bank s.cur).z.get z).replay.isSome) = false) : Runs (zIdle z) s () s :=
  runs_bind (runs_get s) (runs_of_not (Bool.eq_false_iff.1 h) (runs_pure _ _))

theorem runs_zIdle_of {z : Fin 8} (hz : s.zBusy s.cur z = false) (hr : ((s.bank s.cur).z.get z).replay = none) :
    Runs (zIdle z) s () s :=
  runs_zIdle (by rw [hz, hr]; rfl)

/-- A wait names every command of the engine and every replay of its core, or those of one accumulator (R199). -/
theorem exec_mwait_done (he : Enters (.mwait f) s = true)
    (hw : (if f.pol.getLsbD 0 then (s.core s.cur.c).matrixBusy || (s.core s.cur.c).replays
      else s.zBusy s.cur (mZ f) || ((s.bank s.cur).z.get (mZ f)).replay.isSome) = false)
    (hf : Follows (.mwait f) .next s t) : exec (.mwait f) s = .next (t.done .next) := by
  refine issue_done he (runs_bind (runs_get s) ?_) hf
  by_cases hall : f.pol.getLsbD 0 = true
  · rw [if_pos hall] at hw
    exact runs_of_cond hall (runs_of_not (Bool.eq_false_iff.1 hw) (runs_pure _ _))
  · rw [if_neg hall] at hw
    exact runs_of_not hall (runs_bind (runs_zIdle hw) (runs_pure _ _))
end

/-! ## Reads -/

section
variable {f : FM} {s t : State}

/-- Draws change no accumulator. -/
theorem State.drawn_z (s : State) (rs : Prop) [Decidable rs] (n : Bank → Nat) : ((s.drawn rs n).bank s.cur).z = (s.bank s.cur).z := by
  unfold State.drawn
  split
  · rw [State.modBank_bank_self]
  · rfl

theorem State.drawn_cur (s : State) (rs : Prop) [Decidable rs] (n : Bank → Nat) : (s.drawn rs n).cur = s.cur := by
  unfold State.drawn
  split
  · exact State.modBank_cur _ _ _
  · rfl

/-- A read under `.clr` leaves its block empty (R200). -/
def State.blockRead (s : State) (f : FM) : State :=
  if f.pol.getLsbD 0 then s.modBank s.cur fun k =>
    { k with z := vset k.z (mZ f) ((k.z.get (mZ f)).clearBlock (fld f.flag 3 0)) } else s

/-- The draws by which a read rounds its lanes: those that follow its seed, where it takes any (R41, R200). -/
def readDraws (rs : Prop) [Decidable rs] (seed : W64) : Array Nat :=
  if rs then (draws seed (List.replicate 1024 true)).2.toArray else #[]

/-- A read makes them of the seed that `takeDraws` answers. -/
theorem readDraws_taken {b : Bool} {rs : Prop} [Decidable rs] (h : b = decide rs) (seed : W64) :
    (if b then (draws (if rs then seed else 0) (List.replicate 1024 true)).2.toArray else #[]) = readDraws rs seed := by
  subst h
  unfold readDraws
  by_cases hrs : rs
  · simp only [hrs, decide_true, if_true]
  · simp only [hrs, decide_false, if_false, Bool.false_eq_true]

/-- A read ends with its block emptied, where it asks for that, and its result in the pipeline. -/
theorem runs_readEnd (f : FM) (s : State) (x : XEnt) (files : List (Nat × Nat)) :
    Runs (do
      if f.pol.getLsbD 0 then
        set (s.modBank s.cur fun k => { k with z := vset k.z (mZ f) ((k.z.get (mZ f)).clearBlock (fld f.flag 3 0)) })
      addX x files
      pure .next : Act Flow) s .next ((s.blockRead f).exposed x files) := by
  have hadd (u : State) : Runs (do addX x files; pure .next : Act Flow) u .next (u.exposed x files) :=
    runs_bind (runs_addX _ _ _) (runs_pure _ _)
  by_cases hclr : f.pol.getLsbD 0 = true
  · have hempty : s.blockRead f = s.modBank s.cur _ := if_pos hclr
    rw [hempty]
    exact runs_of_cond hclr (runs_bind (runs_set _ _) (hadd _))
  · have hkept : s.blockRead f = s := if_neg hclr
    rw [hkept]
    exact runs_of_not hclr (hadd s)

/-- A read converts the lanes of its block as they stand, with draws under `.rs` unless it is raw (R200). -/
theorem exec_mread_done (he : Enters (.mread f) s = true) (hz : s.zBusy s.cur (mZ f) = false)
    (hr : ((s.bank s.cur).z.get (mZ f)).replay = none) :
    let e := f.e.getD 0
    let rs := e.toNat % 8 = 3 ∧ e.getLsbD 3 = false
    let k := s.bank s.cur
    let l := readBlock (k.z.get (mZ f)) (fld f.flag 3 0) (e.getLsbD 3) (RMode.ofCode (e.toNat % 8)) (readDraws rs k.rsseed)
    Follows (.mread f) .next (((s.drawn rs fun _ => 1024).blockRead f).exposed
      { i := .mread f, due := 8, caps := [.res l.vals (planesOf allOnes l.flags)], rss := if rs then k.rsseed else 0 } [(2, fld f.fmt 4 0)]) t →
    exec (.mread f) s = .next (t.done .next) := by
  intro e rs k l hf
  have hrs : (e.toNat % 8 == 3 && !e.getLsbD 3) = decide rs := by
    rw [Bool.eq_iff_iff, Bool.and_eq_true, beq_iff_eq, Bool.not_eq_true', decide_eq_true_iff]
  have hl : l = readBlock (((s.drawn rs fun _ => 1024).bank (s.drawn rs fun _ => 1024).cur).z.get (mZ f)) (fld f.flag 3 0)
      (e.getLsbD 3) (RMode.ofCode (e.toNat % 8))
      (if e.toNat % 8 == 3 && !e.getLsbD 3 then
        (draws (if rs then k.rsseed else 0) (List.replicate 1024 true)).2.toArray else #[]) := by
    rw [State.drawn_cur, State.drawn_z, readDraws_taken hrs]
  rw [hl] at hf
  exact issue_done he (runs_bind (runs_zIdle_of hz hr) (runs_bind (hrs ▸ runs_takeDraws rs (fun _ => 1024) s)
    (runs_bind (runs_get _) (runs_readEnd f _ _ _)))) hf

theorem exec_mstat_done (he : Enters (.mstat f) s = true) (hz : s.zBusy s.cur (mZ f) = false)
    (hr : ((s.bank s.cur).z.get (mZ f)).replay = none)
    (hf : Follows (.mstat f) .next (s.exposed
      { i := .mstat f, due := 2, sv2 := ((s.bank s.cur).z.get (mZ f)).status f.pol.toNat } (fieldFile (BitVec.ofNat 6 (fld f.fmt 4 0)))) t) :
    exec (.mstat f) s = .next (t.done .next) :=
  issue_done he (runs_bind (runs_zIdle_of hz hr) (runs_bind (runs_get s) (runs_bind (runs_addX _ _ _) (runs_pure _ _)))) hf
end

/-! ## Format slots -/

section
variable {f : RRR} {s s1 t : State} {x y : W64}

/-- A word that the checks accept is left to be written at the end of the cycle (R188, R189). -/
theorem exec_fmtw_done (he : Enters (.fmtw f) s = true) (hs : Runs (sourcesAB f) s (x, y) s1) (hok : fmtwOk (lo32 y) = true)
    (hf : Follows (.fmtw f) .next ((s1.modBank s1.cur fun k =>
      { k with fmtPend := k.fmtPend ++ [(s1.cur.q, fld x 5 0, lo32 y)] }).retained [(6, fld x 5 0)] 1) t) :
    exec (.fmtw f) s = .next (t.done .next) :=
  issueLim_done he (runs_limitAB hs hok) (runs_bind hs (runs_bind (runs_need hok) (runs_bind (runs_modify _ _)
    (runs_bind (runs_retain _ _ _ _) (runs_pure _ _))))) hf

theorem exec_fmtr_leaves (he : Enters (.fmtr f) s = true) (hs : Runs (sources f.e [f.a] [f.d]) s [x] s1) :
    LeavesScalar (.fmtr f) (exec (.fmtr f) s) s1 f.d 1 0 0
      (((s1.bank s1.cur).fmt.get ⟨fld x 5 0 % 64, by omega⟩).setWidth 64) :=
  leavesScalar_issue he fun _ h => runs_bind hs (runs_bind (runs_get s1) h)
end

/-- The writes of a cycle in the order in which they are applied: by sequencer (R188). -/
def fmtOrder (ps : List (SeqId × Nat × W32)) : List (SeqId × Nat × W32) :=
  (List.finRange 4).flatMap fun q => ps.filter (·.1 == q)

/-- The write of one slot in a vector of slots. -/
def fmtWrite (v : Vector W32 64) (w : SeqId × Nat × W32) : Vector W32 64 := vset v ⟨w.2.1 % 64, by omega⟩ w.2.2

theorem Bank.fmtCommit_of_ne {k : Bank} (h : k.fmtPend ≠ []) :
    k.fmtCommit = { k with fmtPend := [], fmt := (fmtOrder k.fmtPend).foldl fmtWrite k.fmt } :=
  if_neg h

theorem fmtWrite_slot (v : Vector W32 64) (q : SeqId) (n : Fin 64) (w : W32) : fmtWrite v (q, n.val, w) = vset v n w :=
  congrArg (vset v · w) (Fin.ext (Nat.mod_eq_of_lt n.isLt))

theorem fmtOrder_single (p : SeqId × Nat × W32) : fmtOrder [p] = [p] := by
  obtain ⟨q, n, v⟩ := p
  fin_cases q <;> rfl

/-- C's write comes before X's, whichever was issued first. -/
theorem fmtOrder_c_x {ps : List (SeqId × Nat × W32)} {a b : Nat × W32} (h : ps.Perm [(0, a), (2, b)]) :
    fmtOrder ps = [(0, a), (2, b)] := by
  obtain rfl | rfl := List.perm_pair.1 h
  · rfl
  · rfl

/-- A cycle's only write of a slot lands in it. -/
theorem Bank.fmtCommit_single {k : Bank} {n : Fin 64} {q : SeqId} {v : W32} (h : k.fmtPend = [(q, n.val, v)]) :
    k.fmtCommit = { k with fmt := vset k.fmt n v, fmtPend := [] } := by
  have hne : k.fmtPend ≠ [] := h ▸ List.cons_ne_nil _ _
  rw [Bank.fmtCommit_of_ne hne, h, fmtOrder_single, List.foldl_cons, fmtWrite_slot, List.foldl_nil]

/-- Where C and X write the same slot in a cycle, it holds X's word. -/
theorem Bank.fmtCommit_c_x {k : Bank} {n : Fin 64} {v w : W32} (h : k.fmtPend.Perm [(0, n.val, v), (2, n.val, w)]) :
    k.fmtCommit.fmt.get n = w := by
  have hne : k.fmtPend ≠ [] := fun h0 => List.cons_ne_nil _ _ (h0 ▸ h).nil_eq.symm
  rw [Bank.fmtCommit_of_ne hne, fmtOrder_c_x h, List.foldl_cons, List.foldl_cons, List.foldl_nil, fmtWrite_slot, fmtWrite_slot]
  exact vset_get_self _ _ _

/-! ## The statement -/

/-- Settles O24: each instruction by the run of its body, and the end of a cycle by the order of its writes of slots. -/
theorem matrixReadsComplete : Obligations.MatrixReadsComplete := by
  unfold Obligations.MatrixReadsComplete
  exact ⟨fun f s t => exec_mclose_done, fun f s t => exec_mwait_done, fun f s t => exec_mread_done, fun f s t => exec_mstat_done,
    fun f s x y s1 t => exec_fmtw_done, fun k n q v => Bank.fmtCommit_single, fun k n v w => Bank.fmtCommit_c_x,
    fun f s x s1 => exec_fmtr_leaves⟩

end Sys2Proof.Machine
end

section
/-! PROOFS. The auction's instructions complete (R202, R204, R205, R208). -/
namespace Sys2Proof.Machine

section
variable {f : RRR} {s s1 s2 t : State} {x : W64}

/-- A set takes a descriptor at the end of the cycle, and keeps the one before it for a run of that cycle (R202, R204). -/
def State.aeConfigured (s : State) (d : AEDesc) : State :=
  s.modBank s.cur fun k =>
    { k with
      aecfg := some d
      aecfgOld := if k.aecfgAt = s.now + 1 then k.aecfgOld else k.aecfg
      aecfgAt := s.now + 1 }

theorem exec_aecfg_done {ws : List W64} (he : Enters (.aecfg f) s = true) (hl : Runs (aecfgLimits f) s () s)
    (hs : Runs (sources f.e [f.a] []) s [x] s1) (hw : Runs (loadWords x 8) s1 ws s2) (hd : (aedescOf ws).ok = true)
    (hf : Follows (.aecfg f) .next (s2.aeConfigured (aedescOf ws)) t) : exec (.aecfg f) s = .next (t.done .next) :=
  issueLim_done he hl (runs_bind hs (runs_bind hw (runs_bind (runs_need hd) (runs_bind (runs_modify _ _) (runs_pure _ _))))) hf

/-- The run that an `aerun` of word `x` queues at its cluster's engine, with its issuer's view (R205). -/
def State.aeQueued (s : State) (desc : AEDesc) (x : W64) (cfl : Option FlagRef) : State :=
  let a := s.accept s.cur 5
  let p := a.2.pushView a.2.cur
  p.2.modClu (cluOf p.2.cur.c) fun u =>
    { u with
      aeFifo := u.aeFifo ++ [{ who := p.2.me, ctx := (p.2.bank p.2.cur).ctx, view := p.1, desc := desc, cons := x.getLsbD 0,
                               cfl := cfl, id := u.aeCount, nth := a.1 }]
      aeCount := u.aeCount + 1 }

/-- A run is of the set at the start of the cycle, and d receives its number in the cluster (R202, R205). -/
theorem exec_aerun_done {desc : AEDesc} {d : Dst} (he : Enters (.aerun f) s = true) (hs : Runs (sources none [f.a] [f.d]) s [x] s1)
    (hset0 : ((s.bank s.cur).aeSet s.now).isSome = true) (hset : (s1.bank s1.cur).aeSet s1.now = some desc) :
    let cfl : Option FlagRef := if x.getLsbD 15 then some ⟨x.getLsbD 14, BitVec.ofNat 5 (fld x 12 8)⟩ else none
    let u := s1.clu (cluOf s1.cur.c)
    Runs (flagsOk [cfl]) s1 () s1 → u.aeFifo.length < aeDepth → s1.quietSeq s1.cur = true → Runs (destOf f.d) s1 d s2 →
    Follows (.aerun f) .next ((s2.aeQueued desc x cfl).pended d (u.aeCount.setWidth 64)) t →
    exec (.aerun f) s = .next (t.done .next) := by
  intro cfl u hfl hroom hq hd hf
  have hlim : Runs aerunLimits s () s := runs_bind (runs_get s) (runs_need hset0)
  refine issueLim_done he hlim (runs_bind hs (runs_bind (runs_get s1) ?_)) hf
  rw [hset]
  exact runs_bind hfl (runs_of_not (Nat.not_le_of_lt hroom) (runs_bind (runs_needQuiet hq) (runs_bind hd
    (runs_bind (runs_modify _ _) (runs_bind (runs_pendWrite _ _ _ _) (runs_pure _ _))))))

theorem exec_aeread_done {d : Dst} (he : Enters (.aeread f) s = true) (hs : Runs (sources none [f.a] [f.d]) s [x] s1)
    (hd : Runs (destOf f.d) s1 d s2) :
    let st := (s1.clu (cluOf s1.cur.c)).aeStatus.get (coreIdx s1.cur.c)
    Follows (.aeread f) .next (s2.pended d (if x.getLsbD 0 then st.2 else st.1)) t → exec (.aeread f) s = .next (t.done .next) := by
  intro st hf
  exact issue_done he (runs_bind hs (runs_bind (runs_get s1) (runs_bind hd (runs_bind (runs_pendWrite _ _ _ _) (runs_pure _ _))))) hf
end

/-! ## The statement -/

/-- Settles O25: each instruction by the run of its body. -/
theorem auctionComplete : Obligations.AuctionComplete := by
  unfold Obligations.AuctionComplete
  exact ⟨fun f s x s1 ws s2 t => exec_aecfg_done, fun f s x s1 desc d s2 t => exec_aerun_done,
    fun f s x s1 d s2 t => exec_aeread_done⟩

end Sys2Proof.Machine
end


section
/-! PROOFS. The row and word stores of S complete (R210-R214, R258). -/
namespace Sys2Proof.Machine

/-! ## The first turn of a store -/

/-- From the state that an instruction's checks leave, its first turn makes its stores: with the last in the buffer it makes its release
and completes, and otherwise it goes on in a later turn (R210, R258). -/
def StoresEnter (i : Instr) (s s1 : State) (rel : Option Nat) (xs : List Todo) : Prop :=
  ∀ rest s2 s3 t, Runs (storeAll xs) s1 rest s2 →
    (rest = [] → Runs (sideRelease rel) (s2.storesLeft []) () s3 → Follows i .next s3 t → exec i s = .next (t.done .next)) ∧
    (rest ≠ [] → Follows i (.again 14) (s2.storesLeft rest) t → exec i s = .next (t.done (.again 14)))

section
variable {f : FQ} {s : State} (hm : mustFlush s ((sideRel f.e).getD 0) = false) (h0 : (s.sq s.cur).todo = [])
include hm h0

theorem storesEnter_of_checks {i : Instr} {checks : Act (List Todo)} {xs : List Todo} {s1 : State} (he : Enters i s = true)
    (hi : exec i s = issue i s (sideStores f checks)) (hc : Runs checks s xs s1) : StoresEnter i s s1 (sideRel f.e) xs := by
  intro rest s2 s3 t hst
  have hx : Runs (storesOf (s.sq s.cur) checks) s xs s1 := runs_of_not (storesPend_of_none h0) hc
  rw [hi]
  constructor
  · rintro rfl hr hf
    exact issue_done he (runs_flushFirst hm (runs_storing_all hx hst hr)) hf
  · intro hr hf
    exact issue_done he (runs_flushFirst hm (runs_storing_some hx hst hr)) hf

/-! ## The instructions -/

section
variable {r : Row} {vs : List W64} {ls : List (Nat × Nat)} {s1 s2 s3 s4 : State}

/-- A `strow` makes one store of the first LEN bytes of its row (R211). -/
theorem exec_strow_first (he : Enters (.strow f) s = true) (hr : Runs (sideRow f (sideFields f)) s r s1)
    (hs : Runs (sources none (sideFields f) []) s1 vs s2) :
    let ea := rowEa f vs r.hdr
    Runs (classOk ea) s2 () s2 → fld ea 2 0 = 0 → Runs (sideLocate ea (lenOf f) 1) s2 ls s3 →
    Runs (sideChecks ea (lenOf f) ls) s3 () s4 →
    StoresEnter (.strow f) s s4 (sideRel f.e) [s4.sideEnt ls ((payBytes r.pay).take (lenOf f)) (sideRel f.e)] := by
  intro ea hcl hal hl hc
  exact storesEnter_of_checks hm h0 he rfl (runs_bind hr (runs_bind hs (runs_bind hcl (runs_bind (runs_needAt (beq_iff_eq.2 hal))
    (runs_bind hl (runs_bind hc (runs_bind (runs_get s4) (runs_pure _ _))))))))

/-- A `strc` makes one store of its whole row, which gives it its count and the task's owner (R214). -/
theorem exec_strc_first {rid : Nat} {s5 : State} (he : Enters (.strc f) s = true) (hr : Runs (sideRow f (sideFields f)) s r s1)
    (hs : Runs (sources none (sideFields f) []) s1 vs s2) :
    let rc := match f.e with
      | some e => fld e 23 16
      | none => 1
    let ea := rowEa f vs r.hdr
    Runs (classOk ea) s2 () s2 → fld ea 7 0 = 0 → Runs (sideLocate ea 256 5) s2 ls s3 → Runs (sideChecks ea 256 ls) s3 () s4 →
    Runs newRid s4 rid s5 →
    let x := s5.sideEnt ls (payBytes r.pay) (sideRel f.e)
    StoresEnter (.strc f) s s5 (sideRel f.e) [{ x with ent :=
      { x.ent with fill := some (rc, (s5.bank s5.cur).owner), instrNo := rid, va := ea } }] := by
  intro rc ea hcl hal hl hc hrid x
  exact storesEnter_of_checks hm h0 he rfl (runs_bind hr (runs_bind hs (runs_bind hcl (runs_bind (runs_needAt (beq_iff_eq.2 hal))
    (runs_bind hl (runs_bind hc (runs_bind hrid (runs_bind (runs_get s5) (runs_pure _ _)))))))))
end

/-- A `stword` makes one store of each word that it pops (R212, log 68). -/
theorem exec_stword_first {ws : List W64} {x : W64} {ls : List (List (Nat × Nat))} {s1 s2 s3 s4 : State}
    (he : Enters (.stword f) s = true) (hq : f.q.toNat < 8) (hp : Runs (popOk (qOf f)) s () s) (ha : Runs (allOk srcOk [f.a]) s () s)
    (hw : Runs (popWords (qOf f) (f.f.toNat + 1)) s ws s1) (hs : Runs (sources none [f.a] []) s1 [x] s2) :
    let ea := x + sideOff f.e
    Runs (locateWords ea (f.f.toNat + 1)) s2 ls s3 → Runs (sideChecks ea (8 * (f.f.toNat + 1)) ls.flatten) s3 () s4 →
    StoresEnter (.stword f) s s4 (sideRel f.e) ((ws.zip ls).map fun p => s4.sideEnt p.2 (leBytes 8 p.1.toNat) (sideRel f.e)) := by
  intro ea hl hc
  exact storesEnter_of_checks hm h0 he rfl (runs_bind (runs_need (decide_eq_true hq)) (runs_bind hp (runs_bind ha (runs_bind hw
    (runs_bind hs (runs_bind hl (runs_bind hc (runs_bind (runs_get s4) (runs_pure _ _)))))))))

/-- A `scatter` makes one store of each element that its indices place (R213, log 68). -/
theorem exec_scatter_first {r : Row} {x y : W64} {xs : List (Option Nat)} {plan : List (Nat × W64 × Nat)} {s1 s2 s3 s4 s5 : State}
    (he : Enters (.scatter f) s = true) (hr : Runs (sideRow f [f.a, f.b]) s r s1) (hs : Runs (sources none [f.a, f.b] []) s1 [x, y] s2)
    (hal : x.toNat % scatterEl f = 0) (hi : Runs (readIndices y (scatterN f)) s2 xs s3)
    (hp : Runs (scatterPlan x (scatterEl f) xs 0) s3 plan s4) (hc : Runs (scatterChecks (scatterEl f) plan) s4 () s5) :
    StoresEnter (.scatter f) s s5 (sideRel f.e) (plan.map fun p =>
      s5.sideEnt [(p.2.2, scatterEl f)] (((payBytes r.pay).drop (scatterEl f * p.1)).take (scatterEl f)) (sideRel f.e)) :=
  storesEnter_of_checks hm h0 he rfl (runs_bind hr (runs_bind hs (runs_bind (runs_needAt (beq_iff_eq.2 hal)) (runs_bind hi (runs_bind hp
    (runs_bind hc (runs_bind (runs_get s5) (runs_pure _ _))))))))
end

/-! ## The statement -/

/-- Settles O26: each instruction by the run of its checks, which give the stores of its first turn. -/
theorem sideStoresComplete : Obligations.SideStoresComplete := by
  unfold Obligations.SideStoresComplete
  intro f s hm h0
  exact ⟨fun r s1 vs s2 ls s3 s4 => exec_strow_first hm h0, fun ws s1 x s2 ls s3 s4 => exec_stword_first hm h0,
    fun r s1 x y s2 xs s3 plan s4 s5 => exec_scatter_first hm h0, fun r s1 vs s2 ls s3 s4 rid s5 => exec_strc_first hm h0⟩

end Sys2Proof.Machine
end


section
/-! PROOFS. The remote port's instructions and the output stream instructions complete (R215-R219). -/
namespace Sys2Proof.Machine

section
variable {f : FQ} {s s1 s2 s3 t : State} {x y : W64}

/-! ## The remote port -/

/-- Two checks made under a condition, which pass where they are made, are followed by the rest. -/
theorem runs_checked_twice_if {α : Type} {c : Prop} [Decidable c] {a b : Act Unit} {g : Unit → Act α} {v : α}
    (ha : c → Runs a s () s) (hb : c → Runs b s () s) (hg : Runs (g ()) s v t) :
    Runs (if c then a >>= fun _ => b >>= g else g ()) s v t := by
  by_cases h : c
  · exact runs_of_cond h (runs_bind (ha h) (runs_bind (hb h) hg))
  · exact runs_of_not h hg

/-- A row goes to the destination of an expert's slot, or to the address of a node (R215). -/
theorem exec_rstore_done {r : Row} {vs : List W64} {u : State} (he : Enters (.rstore f) s = true)
    (hr : Runs (sideRow f (sideFields f)) s r s1) (hs : Runs (sources none (sideFields f) []) s1 vs s2)
    (hx : f.f.getLsbD 0 = true → ∃ n a s3, Runs (resolveExpert (fld (nthV vs 0) 15 0) (fld (nthV vs 1) 31 0)) s2 (n, a) s3 ∧
      Runs (rowSend s n a (lenOf f) r.pay (sideRel f.e)) s3 .next u)
    (hn : f.f.getLsbD 0 = false → Runs (rowSend s (nodeOf f.e) (nthV vs 0) (lenOf f) r.pay (sideRel f.e)) s2 .next u)
    (hf : Follows (.rstore f) .next u t) : exec (.rstore f) s = .next (t.done .next) := by
  refine issue_done he (runs_bind (runs_get s) (runs_bind hr (runs_bind hs ?_))) hf
  by_cases h : f.f.getLsbD 0 = true
  · obtain ⟨n, a, s3, hres, hsend⟩ := hx h
    exact runs_of_cond h (runs_bind hres hsend)
  · exact runs_of_not h (hn (Bool.eq_false_iff.2 h))

/-- The request of an atomic of value `y` at an address or location `l` (R217). -/
def State.atomicReq (s : State) (f : FQ) (l rid : Nat) (y : W64) : Req :=
  let own := isOwn (nodeOf f.e)
  { id := 0, who := s.me, ctx := s.myCtx, node := if own then 0xFFFF else nodeOf f.e
    dst := dstOf own (nodeOf f.e) l, atomic := true, op := ⟨fld f.f 2 0 % 5, by omega⟩, w32 := f.f.getLsbD 3, nr := ratomNr f
    q := qOf f, rid := rid, addr := l, y := y, rel := (sideRel f.e).map (s.relHold s.cur) }

/-- An atomic goes out once its reply has a slot, or asks for none (R217). -/
theorem exec_ratom_done {l rid : Nat} (he : Enters (.ratom f) s = true) (hm : mustFlush s ((sideRel f.e).getD 0) = false) :
    let own := isOwn (nodeOf f.e)
    let n := if f.f.getLsbD 3 then 4 else 8
    (ratomNr f = false → f.q.toNat < 8 ∧ Runs (pushOk (qOf f)) s () s) → Runs (sources none [f.a, f.b] []) s [x, y] s1 →
    Runs (portRoom 1) s1 () s1 → (own = true → Runs (classOk x) s1 () s1) → x.toNat % n = 0 →
    Runs (if own then locate x n 3 else pure x.toNat) s1 l s2 → Runs (if ratomNr f then pure 0 else reserve (qOf f) 1) s2 rid s3 →
    Follows (.ratom f) .next (s3.portReq s3.me (s3.atomicReq f l rid y)) t → exec (.ratom f) s = .next (t.done .next) := by
  intro own n hq hs hroom hcl hal hl hrid hf
  have hreply (h : (!ratomNr f) = true) := hq ((Bool.not_eq_true' _).mp h)
  refine issue_done he (runs_flushFirst hm (runs_checked_twice_if (fun h => runs_need (decide_eq_true (hreply h).1))
    (fun h => (hreply h).2) (runs_bind hs (runs_bind hroom ?_)))) hf
  exact runs_checked_if hcl (runs_bind (runs_needAt (beq_iff_eq.2 hal)) (runs_bind hl (runs_bind hrid (runs_bind (runs_get s3)
    (runs_bind (runs_set _ _) (runs_pure _ _))))))

/-! ## Output streams -/

/-- An output stream that has been placed is marked running at issue; one that runs keeps its status (R218, log 58). -/
def State.ostreamBound (s : State) (f : FQ) : State :=
  s.modBank s.cur fun k =>
    if (k.ostream.get (kOf f)).st = 1 then k else { k with ostream := vset k.ostream (kOf f) { st := 1, q := qOf f } }

theorem exec_obind_done {ws : List W64} {b : Bool} (he : Enters (.obind f) s = true) (hl : Runs (sdescLimits f) s () s)
    (hp : Runs (popOk (qOf f)) s () s) (hfl : Runs (flagsOk [(cmdForm f.e).cfl, (cmdForm f.e).after]) s () s)
    (hs : Runs (sources none [f.a] []) s [x] s1) (hw : Runs (loadWords x 8) s1 ws s2)
    (hd : Runs (sdescOk (sdescOf ws) (f.q.toNat < 8)) s2 () s2)
    (hc : Runs (placeCmd (cmdForm f.e).after true
      { i := .obind f, who := s2.me, ctx := s2.myCtx, cfl := (cmdForm f.e).cfl, kind := .ostream (kOf f) (qOf f) (sdescOf ws) }) s2 b s3)
    (hf : Follows (.obind f) .next (s3.ostreamBound f) t) : exec (.obind f) s = .next (t.done .next) :=
  issueLim_done he hl (runs_bind hp (runs_bind (runs_srcOk_of_sources hs) (runs_bind hfl (runs_bind hs (runs_bind hw (runs_bind hd
    (runs_bind (runs_get s2) (runs_bind hc (runs_bind (runs_modify _ _) (runs_pure _ _)))))))))) hf

/-- A stop that is placed completes when it has parked, and waits for the engine otherwise (R219, log 57). -/
theorem exec_ostop_placed {b : Bool} (he : Enters (.ostop f) s = true) (hfl : Runs (flagsOk [(cmdForm f.e).after]) s () s)
    (hw : (s.sq s.cur).waitCmd = none)
    (hc : Runs (placeCmd (cmdForm f.e).after true { i := .ostop f, who := s.me, ctx := s.myCtx, kind := .ostop (kOf f) }) s b s1) :
    (b = true → Follows (.ostop f) .next s1 t → exec (.ostop f) s = .next (t.done .next)) ∧
    (b = false → Follows (.ostop f) (.again 8) (s1.waitFor (s.core s.cur.c).nextId) t →
      exec (.ostop f) s = .next (t.done (.again 8))) := by
  constructor
  · rintro rfl hf
    refine issue_done he (runs_bind hfl (runs_bind (runs_get s) ?_)) hf
    rw [hw]
    exact runs_bind hc (runs_pure _ _)
  · rintro rfl hf
    refine issue_done he (runs_bind hfl (runs_bind (runs_get s) ?_)) hf
    rw [hw]
    exact runs_bind hc (runs_bind (runs_modify _ _) (runs_pure _ _))

/-- A stop completes once the engine has taken it and the stream has stopped (R219). -/
theorem exec_ostop_stopped {n : Nat} {v : W64} (he : Enters (.ostop f) s = true) (hfl : Runs (flagsOk [(cmdForm f.e).after]) s () s)
    (hw : (s.sq s.cur).waitCmd = some (n, v)) (hq : (s.core s.cur.c).outFifo.any (·.id == n) = false)
    (hrun : s.ostreamRuns s.cur (kOf f) = false) (hf : Follows (.ostop f) .next s.waitOver t) :
    exec (.ostop f) s = .next (t.done .next) := by
  have hover : ¬((s.core s.cur.c).outFifo.any (·.id == n) || s.ostreamRuns s.cur (kOf f)) = true := by
    rw [hq, hrun]
    exact Bool.false_ne_true
  refine issue_done he (runs_bind hfl (runs_bind (runs_get s) ?_)) hf
  rw [hw]
  exact runs_of_not hover (runs_bind (runs_set _ _) (runs_pure _ _))
end

/-! ## The statement -/

/-- Settles O27: each instruction by the run of its body. -/
theorem portAndOutputStreamsComplete : Obligations.PortAndOutputStreamsComplete := by
  unfold Obligations.PortAndOutputStreamsComplete
  exact ⟨fun f s r s1 vs s2 u t => exec_rstore_done,
    fun f s x y s1 l s2 rid s3 t => exec_ratom_done, fun f s x s1 ws s2 b s3 t => exec_obind_done,
    fun f s s1 t he hfl hw b => exec_ostop_placed he hfl hw, fun f s n v t => exec_ostop_stopped⟩

end Sys2Proof.Machine
end

section
/-! PROOFS. The canonical form of memory: the rules by which answers, operations and their compositions keep it (log 2). -/
namespace Sys2Proof.Machine

/-! ## States -/

theorem ite_memInv {p : Prop} [Decidable p] {s t : State} (hs : s.memInv) (ht : t.memInv) : (if p then s else t).memInv := by
  split
  · exact hs
  · exact ht

/-- A state with the memory and the images of one that has the form. -/
theorem memInv_of_parts {s t : State} (h : s.memInv) (hm : t.mem = s.mem) (hi : t.image = s.image) (hd : t.draft = s.draft) :
    t.memInv := memInv_of_eq hm hi hd h

/-- The state that a pair is matched with has the form of the pair's. -/
theorem memInv_of_snd {α : Type} {p : α × State} {a : α} {t : State} (e : p = (a, t)) (h : p.2.memInv) : t.memInv := by
  subst e
  exact h

theorem memInv_of_snd_snd {α β : Type} {p : α × β × State} {a : α} {b : β} {t : State} (e : p = (a, b, t)) (h : p.2.2.memInv) :
    t.memInv := by
  subst e
  exact h

theorem memInv_of_snd_snd_snd {α β γ : Type} {p : α × β × γ × State} {a : α} {b : β} {c : γ} {t : State} (e : p = (a, b, c, t))
    (h : p.2.2.2.memInv) : t.memInv := by
  subst e
  exact h

/-- A fold over pairs keeps what each of its steps keeps. -/
theorem foldl_snd_memInv {α β : Type} (f : β × State → α → β × State) (xs : List α) (p : β × State)
    (hf : ∀ p x, p.2.memInv → (f p x).2.memInv) (h : p.2.memInv) : (xs.foldl f p).2.memInv := by
  induction xs generalizing p with
  | nil => exact h
  | cons x xs ih => exact ih _ (hf p x h)

theorem foldl_snd_snd_snd_memInv {α β γ δ : Type} (f : β × γ × δ × State → α → β × γ × δ × State) (xs : List α) (p : β × γ × δ × State)
    (hf : ∀ p x, p.2.2.2.memInv → (f p x).2.2.2.memInv) (h : p.2.2.2.memInv) : (xs.foldl f p).2.2.2.memInv := by
  induction xs generalizing p with
  | nil => exact h
  | cons x xs ih => exact ih _ (hf p x h)

/-! ## Operations -/

/-- An operation that keeps the canonical form of memory when it answers. -/
def KeepsForm {α : Type} (a : Act α) : Prop := ∀ s v t, s.memInv → Runs a s v t → t.memInv

section
variable {α β : Type} {a b : Act α} {f : α → Act β} {t : State}

theorem keepsForm_pure (v : α) : KeepsForm (pure v : Act α) := by
  intro s w t hs h
  cases h
  exact hs

theorem keepsForm_throw (e : Stop) : KeepsForm (throw e : Act α) := by
  intro s v t _ h
  cases h

theorem KeepsForm.bind (ha : KeepsForm a) (hf : ∀ v, KeepsForm (f v)) : KeepsForm (a >>= f) := by
  intro s w u hs h
  obtain ⟨v, t, h1, h2⟩ := runs_bind_iff.1 h
  exact hf v _ _ _ (ha _ _ _ hs h1) h2

/-- What is read by `get` has the form too, and what is done with it may use that. -/
theorem keepsForm_get {f : State → Act β} (hf : ∀ s, s.memInv → KeepsForm (f s)) : KeepsForm (get >>= f) := by
  intro s w u hs h
  obtain ⟨v, t, h1, h2⟩ := runs_bind_iff.1 h
  cases h1
  exact hf s hs _ _ _ hs h2

theorem keepsForm_set (ht : t.memInv) : KeepsForm (set t : Act PUnit) := by
  intro s v u _ h
  cases h
  exact ht

theorem keepsForm_modify {g : State → State} (hg : ∀ s, s.memInv → (g s).memInv) : KeepsForm (modify g : Act PUnit) := by
  intro s v u hs h
  cases h
  exact hg s hs

theorem keepsForm_ite {p : Prop} [Decidable p] (ha : KeepsForm a) (hb : KeepsForm b) : KeepsForm (if p then a else b) := by
  split
  · exact ha
  · exact hb

theorem raise_keepsForm (c : Byte) : KeepsForm (raise c : Act α) := keepsForm_throw _
theorem raiseAt_keepsForm (c : Byte) (x : W64) : KeepsForm (raiseAt c x : Act α) := keepsForm_throw _
theorem hold_keepsForm (st obj : Nat) (g : Bool) : KeepsForm (hold st obj g : Act α) := keepsForm_throw _

/-- What comes after a stop is never done. -/
theorem keepsForm_throw_bind (e : Stop) : KeepsForm ((throw e : Act α) >>= f) := fun _ _ _ _ h => absurd h runs_throw_bind
theorem keepsForm_raise_bind (c : Byte) : KeepsForm ((raise c : Act α) >>= f) := keepsForm_throw_bind _
theorem keepsForm_raiseAt_bind (c : Byte) (x : W64) : KeepsForm ((raiseAt c x : Act α) >>= f) := keepsForm_throw_bind _
theorem keepsForm_hold_bind (st obj : Nat) (g : Bool) : KeepsForm ((hold st obj g : Act α) >>= f) := keepsForm_throw_bind _

theorem keepsForm_when {p : Prop} [Decidable p] {a : Act PUnit} {f : PUnit → Act β} (ha : KeepsForm a) (hf : KeepsForm (f ⟨⟩)) :
    KeepsForm (if p then a >>= f else f ⟨⟩) := keepsForm_ite (ha.bind fun _ => hf) hf

theorem ReadsOnly.keepsForm (h : ReadsOnly a) : KeepsForm a := fun s v t hs hr => (h s v t hr).memInv hs
end

theorem need_keepsForm {p : Bool} {c : Byte} : KeepsForm (need p c) := (readsOnly_need p c).keepsForm
theorem needAt_keepsForm {p : Bool} {c : Byte} {x : W64} : KeepsForm (needAt p c x) := (readsOnly_needAt p c x).keepsForm

/-! Operations that only read keep the form. -/

theorem sources_keepsForm {e : Option W32} {srcs dsts : List (BitVec 6)} : KeepsForm (sources e srcs dsts) := (readsOnly_sources _ _ _).keepsForm
theorem sourcesAB_keepsForm {f : RRR} : KeepsForm (sourcesAB f) := (readsOnly_sourcesAB _).keepsForm
theorem destOf_keepsForm {f : BitVec 6} : KeepsForm (destOf f) := (readsOnly_destOf _).keepsForm
theorem locate_keepsForm {ea : W64} {n kind : Nat} : KeepsForm (locate ea n kind) := (readsOnly_locate _ _ _).keepsForm
theorem watch_keepsForm {ea : W64} {n : Nat} {rd wr : Bool} : KeepsForm (watch ea n rd wr) := (readsOnly_watch _ _ _ _).keepsForm
theorem noteUnc_keepsForm {l : Nat} : KeepsForm (noteUnc l) := (readsOnly_noteUnc _).keepsForm
theorem fetchCheck_keepsForm {pc : W64} : KeepsForm (fetchCheck pc) := (readsOnly_fetchCheck _).keepsForm
theorem raceCheck_keepsForm {l : Nat} {ea : W64} : KeepsForm (raceCheck l ea) := (readsOnly_raceCheck _ _).keepsForm
theorem reserve_keepsForm {n : Fin 16} {k : Nat} : KeepsForm (reserve n k) := (readsOnly_reserve _ _).keepsForm
theorem reserveX_keepsForm {fs : List (BitVec 6)} : KeepsForm (reserveX fs) := (readsOnly_reserveX _).keepsForm
theorem translate_keepsForm {va : W64} {kind : Nat} : KeepsForm (translate va kind) := (readsOnly_translate _ _).keepsForm
theorem nextInChain_keepsForm {n : Nat} : KeepsForm (nextInChain n) := (readsOnly_nextInChain _).keepsForm
theorem readField_keepsForm {win : W64} {f : BitVec 6} : KeepsForm (readField win f) := (readsOnly_readField _ _).keepsForm
theorem popWord_keepsForm {n : Fin 16} : KeepsForm (popWord n) := (readsOnly_popWord _).keepsForm
theorem interlock_keepsForm {f : BitVec 6} : KeepsForm (interlock f) := (readsOnly_interlock _).keepsForm
theorem dstOk_keepsForm {f : BitVec 6} : KeepsForm (dstOk f) := (readsOnly_dstOk _).keepsForm
theorem srcOk_keepsForm {f : BitVec 6} : KeepsForm (srcOk f) := (readsOnly_srcOk _).keepsForm
theorem newRid_keepsForm : KeepsForm newRid := readsOnly_newRid.keepsForm

/-! ## Answers of turns -/

/-- A turn whose next state has the canonical form. -/
def EndsInForm (o : Out) : Prop := ∀ t, o = .next t → t.memInv

section
variable {t : State} {o o' : Out}

theorem endsInForm_next (h : t.memInv) : EndsInForm (.next t) := by
  intro u hu
  cases hu
  exact h

theorem endsInForm_ite {p : Prop} [Decidable p] (h : EndsInForm o) (h' : EndsInForm o') : EndsInForm (if p then o else o') := by
  split
  · exact h
  · exact h'
end

end Sys2Proof.Machine
end

section
/-! PROOFS. The canonical form of memory across accesses, operands and the operations that instructions share (log 2). -/
namespace Sys2Proof.Machine

/-! ## Agents, events and the state of a core -/

theorem fresh_memInv {s : State} (h : s.memInv) : s.fresh.2.memInv := h

theorem errorReport_memInv {s : State} {utype cls state unit : Nat} {addr corr recid : W64} (h : s.memInv) :
    (s.errorReport utype cls state unit addr corr recid).memInv :=
  event_memInv _ _ _ _ h

theorem consumed_memInv {s : State} {w : Who} {utype unit l : Nat} (h : s.memInv) : (s.consumed w utype unit l).memInv :=
  errorReport_memInv h

theorem imprecise_memInv {s : State} {w : Who} {bit : Nat} {cause : Byte} {addr : W64} {agent : Byte} (h : s.memInv) :
    (s.imprecise w bit cause addr agent).memInv :=
  ite_memInv (modBank_memInv _ _ _ h) h

theorem touch_memInv {s : State} {w : Who} {l : Nat} (h : s.memInv) : (s.touch w l).memInv := by
  unfold State.touch
  refine ite_memInv (count_memInv _ _ _ _ h) ?_
  refine ite_memInv h ?_
  extract_lets +onlyGivenNames s1 s2
  have hs1 : s1.memInv := count_memInv _ _ _ _ h
  have hs2 : s2.memInv := by
    unfold s2
    refine ite_memInv ?_ hs1
    split
    rename_i e
    exact count_memInv _ _ _ _ (memInv_of_snd e (choose_memInv _ _ hs1))
  refine ite_memInv ?_ hs2
  split
  rename_i e
  exact count_memInv _ _ _ _ (memInv_of_snd e (choose_memInv _ _ hs2))

theorem engFail_memInv {s : State} {w : Who} {e : Fin 7} {seqNo : W32} {cause : Byte} (h : s.memInv) :
    (s.engFail w e seqNo cause).memInv :=
  modBank_memInv _ _ _ h

/-! ## Views and the order of accesses -/

theorem addIval_memInv {s : State} {w : Who} {d : W32} (h : s.memInv) : (s.addIval w d).memInv :=
  modClu_memInv _ _ _ h

theorem giveUp_memInv {s : State} {ws : List Nat} {m : Byte} (h : s.memInv) : (s.giveUp ws m).memInv :=
  h

theorem modLink_memInv {s : State} {l : LinkId} {f : Link → Link} (h : s.memInv) : (s.modLink l f).memInv :=
  h

theorem takeParts_memInv {s : State} {a : Nat} {parts : List Part} {acq : Option Nat} (h : s.memInv) : (s.takeParts a parts acq).memInv :=
  ite_memInv h (modAgent_memInv _ _ _ h)

theorem seenActs_memInv {s : State} {a : Nat} {ws : List Nat} (h : s.memInv) : (s.seenActs a ws).2.memInv := by
  unfold State.seenActs
  refine foldl_snd_memInv _ _ _ (fun p x hs => ?_) h
  split
  · exact hs
  · split
    · exact hs
    · split
      rename_i e2
      split <;> exact memInv_of_snd e2 (choose_memInv _ _ hs)

theorem loadAmong_memInv {s : State} {a w : Nat} {x : List Nat × List Nat} {acq : Option Nat} (h : s.memInv) :
    (s.loadAmong a w x acq).2.memInv := by
  unfold State.loadAmong
  extract_lets +onlyGivenNames _
  split
  · exact h
  · extract_lets +onlyGivenNames _ _
    split
    rename_i e1
    split
    extract_lets +onlyGivenNames s1 s2
    have hs1 : s1.memInv := ite_memInv (memInv_of_snd e1 (choose_memInv _ _ h)) (modAgent_memInv _ _ _ (memInv_of_snd e1
        (choose_memInv _ _ h)))
    have hs2 : s2.memInv := by
      unfold s2
      split
      · exact takeParts_memInv hs1
      · exact hs1
    exact hs2

theorem loadWords_memInv {s : State} {a : Nat} {ws near : List Nat} {acq : Option Nat} (h : s.memInv) :
    (s.loadWords a ws near acq).2.memInv := by
  unfold State.loadWords
  split
  rename_i e
  refine foldl_snd_memInv _ _ _ (fun p x hs => ?_) (memInv_of_snd e (seenActs_memInv h))
  split
  rename_i e1
  exact memInv_of_snd e1 (loadAmong_memInv hs)

theorem loadBytes_memInv {s : State} {a l n : Nat} {acq : Option Nat} (h : s.memInv) : (s.loadBytes a l n acq).2.memInv := by
  unfold State.loadBytes
  split
  rename_i e
  exact memInv_of_snd e (loadWords_memInv h)

theorem store_memInv {s : State} {e : WEnt} (h : s.memInv) : (s.store e).memInv := by
  unfold State.store
  extract_lets +onlyGivenNames _ _ s1 _ _
  have hs1 : s1.memInv := modAgent_memInv _ _ _ h
  split
  · extract_lets +onlyGivenNames _ _
    split
    rename_i e4
    split
    · refine modAgent_memInv _ _ _ ?_
      refine memInv_of_snd e4 ?_
      split
      · exact choose_memInv _ _ hs1
      · exact hs1
    · refine modAgent_memInv _ _ _ ?_
      refine memInv_of_snd e4 ?_
      split
      · exact choose_memInv _ _ hs1
      · exact hs1
  · exact modAgent_memInv _ _ _ hs1

theorem drainHead_memInv {s : State} {a : Nat} (h : s.memInv) : (s.drainHead a).memInv := by
  unfold State.drainHead
  split <;> exact h

theorem fence_memInv {s : State} {a t : Nat} (h : s.memInv) : (s.fence a t).memInv :=
  modAgent_memInv _ _ _ h

theorem pushView_memInv {s : State} {w : Who} (h : s.memInv) : (s.pushView w).2.memInv :=
  addIval_memInv h

/-! ## Memory, loads and stores -/

theorem walk_memInv {s : State} {a va lvl t : Nat} (h : s.memInv) : (walk s a va lvl t).2.memInv := by
  obtain ⟨g, ch, hw⟩ := walk_frame a va lvl s t
  rw [hw]
  exact h

theorem tlbKeep_memInv {s : State} {c : CoreId} {i : Nat} {e : TlbE} (h : s.memInv) : (s.tlbKeep c i e).memInv := by
  unfold State.tlbKeep
  refine ite_memInv (modCore_memInv _ _ _ h) ?_
  split
  rename_i e1
  exact modCore_memInv _ _ _ (modCore_memInv _ _ _ (memInv_of_snd e1 (choose_memInv _ _ h)))

theorem keepDup_memInv {s : State} {c : CoreId} {pa : Nat} (h : s.memInv) : (s.keepDup c pa).memInv := by
  unfold State.keepDup
  refine ite_memInv h ?_
  split
  rename_i e
  refine ite_memInv (memInv_of_snd e (choose_memInv _ _ h)) ?_
  split
  rename_i e1
  exact memInv_of_parts (memInv_of_snd e1 (choose_memInv _ _ (memInv_of_snd e (choose_memInv _ _ h)))) rfl rfl rfl

theorem translate_memInv {s : State} {c : CoreId} {i : Nat} {ctx : BitVec 12} {root : W64} {va kind src : Nat} (h : s.memInv) :
    (s.translate c i ctx root va kind src).2.memInv := by
  unfold State.translate
  extract_lets +onlyGivenNames _ seen
  have hseen : ∀ (x : Except (Byte × W64) (Nat × Bool) × State), x.2.memInv → (seen x).2.memInv := by
    intro x hs
    unfold seen
    split
    · exact ite_memInv (keepDup_memInv hs) hs
    · exact hs
  refine hseen _ ?_
  split
  · exact h
  · split
    · exact tlbKeep_memInv h
    · split
      · rename_i e2
        exact memInv_of_snd e2 (walk_memInv h)
      · rename_i e2
        exact memInv_of_snd e2 (walk_memInv h)
      · rename_i e2
        exact memInv_of_snd e2 (walk_memInv h)
      · rename_i e3
        split
        · exact tlbKeep_memInv (memInv_of_snd e3 (walk_memInv h))
        · exact memInv_of_snd e3 (walk_memInv h)

theorem classOk_keepsForm {ea : W64} : KeepsForm (classOk ea) := by
  unfold classOk
  refine keepsForm_get (fun s _ => ?_)
  split
  · exact raiseAt_keepsForm _ _
  · exact needAt_keepsForm
  · exact keepsForm_pure _

theorem notes_memInv {s : State} {w : Who} {l : Nat} (h : s.memInv) : (s.notes w l).memInv :=
  modBank_memInv _ _ _ (modSeq_memInv _ _ _ (consumed_memInv h))

theorem loadAt_keepsForm {l n : Nat} {ea : W64} {consuming : Bool} {acq : Option Nat} : KeepsForm (loadAt l n ea consuming acq) := by
  unfold loadAt
  refine raceCheck_keepsForm.bind fun v => keepsForm_get (fun s hs => ?_)
  refine keepsForm_ite (keepsForm_hold_bind _ _ _) ?_
  refine needAt_keepsForm.bind fun _ => keepsForm_ite (keepsForm_hold_bind _ _ _) ?_
  refine keepsForm_ite (keepsForm_hold_bind _ _ _) ?_
  refine (keepsForm_set (refetch_memInv _ _ (touch_memInv hs))).bind fun _ => keepsForm_get (fun s1 hs1 => ?_)
  refine KeepsForm.bind ?_ (fun _ => keepsForm_ite (noteUnc_keepsForm.bind fun _ => keepsForm_pure _) (keepsForm_pure _))
  refine keepsForm_ite ?_ ?_
  · extract_lets +onlyGivenNames _
    split
    refine KeepsForm.bind ?_ (fun _ => keepsForm_pure _)
    refine keepsForm_set ?_
    refine count_memInv _ _ _ _ ?_
    refine eat_memInv _ _ _ ?_
    split
    · exact takeParts_memInv (own_memInv _ _ _ hs1)
    · exact own_memInv _ _ _ hs1
  · split
    rename_i e
    exact (keepsForm_set (memInv_of_snd e (load_memInv _ _ _ _ _ hs1))).bind fun _ => keepsForm_pure _

theorem loadEa_keepsForm {ea : W64} {n : Nat} {consuming : Bool} {acq : Option Nat} : KeepsForm (loadEa ea n consuming acq) :=
  locate_keepsForm.bind fun _ => watch_keepsForm.bind fun _ => keepsForm_get (fun _ _ => loadAt_keepsForm)

theorem storeEa_keepsForm {ea : W64} {n : Nat} {v : W64} {rel : Option Nat} : KeepsForm (storeEa ea n v rel) := by
  unfold storeEa
  refine locate_keepsForm.bind fun _ => watch_keepsForm.bind fun _ => raceCheck_keepsForm.bind fun _ => keepsForm_get (fun s hs => ?_)
  refine keepsForm_ite (keepsForm_hold_bind _ _ _) ?_
  split
  · exact keepsForm_set (store_memInv (touch_memInv hs))
  · exact keepsForm_set (addIval_memInv (store_memInv (touch_memInv hs)))

theorem needQuiet_keepsForm : KeepsForm needQuiet :=
  keepsForm_get (fun _ _ => keepsForm_ite (hold_keepsForm _ _ _) (keepsForm_pure _))

theorem fenceSeq_memInv {s : State} {w : Who} {t : Nat} (h : s.memInv) : (s.fenceSeq w t).memInv :=
  modAgent_memInv _ _ _ (fence_memInv h)

theorem rmw_memInv {s : State} {w : Who} {l n : Nat} {f : W64 → W64} {acq rel : Option Nat} (h : s.memInv) :
    (s.rmw w l n f acq rel).2.memInv := by
  unfold State.rmw
  extract_lets +onlyGivenNames _ _ _
  split
  extract_lets +onlyGivenNames s1 _ _ s2
  have hs1 : s1.memInv := by
    unfold s1
    split
    · exact takeParts_memInv h
    · exact h
  have hs2 : s2.memInv := stepped_memInv _ (tagCells_memInv _ _ (own_memInv _ _ _ (append_memInv _ _ _ _ _ hs1)))
  exact ite_memInv (addIval_memInv hs2) hs2

theorem atomicAt_keepsForm {l n : Nat} {ea : W64} {f : W64 → W64} {acq rel : Option Nat} : KeepsForm (atomicAt l n ea f acq rel) := by
  unfold atomicAt
  refine raceCheck_keepsForm.bind fun v => keepsForm_get (fun s hs => ?_)
  refine keepsForm_ite (keepsForm_hold_bind _ _ _) ?_
  refine needAt_keepsForm.bind fun _ => needAt_keepsForm.bind fun _ => keepsForm_when needQuiet_keepsForm ?_
  refine keepsForm_ite (keepsForm_hold_bind _ _ _) ?_
  refine keepsForm_ite (keepsForm_throw_bind _) ?_
  refine (keepsForm_set (touch_memInv hs)).bind fun _ => keepsForm_get (fun s1 hs1 => ?_)
  refine keepsForm_ite (noteUnc_keepsForm.bind fun _ => keepsForm_pure _) ?_
  split
  rename_i e
  exact (keepsForm_set (memInv_of_snd e (rmw_memInv hs1))).bind fun _ => keepsForm_pure _

/-! ## Operands -/

theorem modQ_memInv {s : State} {w : Who} {n : Fin 16} {f : Queue → Queue} (h : s.memInv) : (s.modQ w n f).memInv :=
  modBank_memInv _ _ _ h

theorem popOk_keepsForm {n : Fin 16} : KeepsForm (popOk n) :=
  keepsForm_get (fun _ _ => need_keepsForm)

theorem pushOk_keepsForm {n : Fin 16} : KeepsForm (pushOk n) :=
  keepsForm_get (fun _ _ => need_keepsForm)

theorem popRows_keepsForm {n : Fin 16} {k : Nat} : KeepsForm (popRows n k) :=
  keepsForm_get (fun _ hs => keepsForm_ite (keepsForm_hold_bind _ _ _) ((keepsForm_set (modQ_memInv hs)).bind fun _ => keepsForm_pure _))

theorem matrixOk_keepsForm {n : Fin 16} : KeepsForm (matrixOk n) :=
  keepsForm_get (fun _ _ => need_keepsForm)

theorem allOk_keepsForm {p : BitVec 6 → Act Unit} {fs : List (BitVec 6)} (hp : ∀ f, KeepsForm (p f)) : KeepsForm (allOk p fs) := by
  induction fs with
  | nil => exact keepsForm_pure _
  | cons f fs ih => exact (hp f).bind fun _ => ih

theorem dstsOk_keepsForm {fs : List (BitVec 6)} : KeepsForm (allOk dstOk fs) :=
  allOk_keepsForm fun _ => dstOk_keepsForm
theorem srcsOk_keepsForm {fs : List (BitVec 6)} : KeepsForm (allOk srcOk fs) :=
  allOk_keepsForm fun _ => srcOk_keepsForm

theorem peekFields_keepsForm {win : W64} {seen fs : List (BitVec 6)} : KeepsForm (peekFields win seen fs) := by
  induction fs generalizing seen with
  | nil => exact keepsForm_pure _
  | cons f fs ih => exact keepsForm_get fun s _ => keepsForm_ite (keepsForm_hold_bind _ _ _) (ih.bind fun _ => keepsForm_pure _)

theorem peekSources_keepsForm {e : Option W32} {fs : List (BitVec 6)} : KeepsForm (peekSources e fs) :=
  (readsOnly_allOk readsOnly_srcOk fs).keepsForm.bind fun _ => (readsOnly_windowOf e fs).keepsForm.bind fun _ =>
    (readsOnly_allOk readsOnly_interlock fs).keepsForm.bind fun _ => peekFields_keepsForm

/-- Limits change nothing, whatever they read. -/
theorem illegalFirst_keepsForm {x : Act Unit} : KeepsForm (illegalFirst x) := by
  intro s v t hs h
  unfold Runs illegalFirst StateT.run at h
  dsimp only at h
  split at h
  · split at h
    · cases h
    · cases h
      exact hs
  · cases h
    exact hs

theorem limits_keepsForm {e : Option W32} {fs : List (BitVec 6)} {ok : List W64 → Bool} : KeepsForm (limits e fs ok) :=
  illegalFirst_keepsForm

theorem retain_keepsForm {r : List (Nat × Nat)} {lat : Nat} {x : Option XEnt} : KeepsForm (retain r lat x) :=
  keepsForm_ite (keepsForm_pure _) (keepsForm_modify (fun _ hs => modBank_memInv _ _ _ hs))

theorem landDst_memInv {s : State} {w : Who} {d : Dst} {v : W64} (h : s.memInv) : (s.landDst w d v).memInv := by
  unfold State.landDst
  split
  · exact modSeq_memInv _ _ _ h
  · exact modSeq_memInv _ _ _ h
  · exact modSeq_memInv _ _ _ h
  · exact modQ_memInv h
  · exact h

theorem pendWrite_keepsForm {d : Dst} {v : W64} {lat : Nat} : KeepsForm (pendWrite d v lat) := by
  unfold pendWrite
  refine retain_keepsForm.bind fun _ => ?_
  extract_lets +onlyGivenNames rest
  have hrest : ∀ x, KeepsForm (rest x) := by
    intro _
    unfold rest
    split
    · exact keepsForm_pure _
    · exact keepsForm_modify (fun s hs => modSeq_memInv _ _ _ hs)
  split
  · exact (keepsForm_modify (fun s hs => modSeq_memInv _ _ _ hs)).bind fun _ => hrest ()
  · exact hrest ()

theorem landFirst_memInv {s : State} {w : Who} (h : s.memInv) : (s.landFirst w).memInv := by
  unfold State.landFirst
  split
  · exact h
  · exact landDst_memInv (modSeq_memInv _ _ _ h)

theorem landAll_memInv {s : State} {w : Who} (h : s.memInv) : (s.landAll w).memInv :=
  foldl_memInv _ _ _ (fun _ _ hs => landFirst_memInv hs) h

theorem addX_keepsForm {x : XEnt} {files : List (Nat × Nat)} : KeepsForm (addX x files) :=
  retain_keepsForm.bind fun _ => keepsForm_modify (fun _ hs => modBank_memInv _ _ _ hs)

/-! ## Flags -/

theorem modFlag_memInv {s : State} {w : Who} {r : FlagRef} {f : Flag → Flag} (h : s.memInv) : (s.modFlag w r f).memInv :=
  ite_memInv (modClu_memInv _ _ _ h) (modBank_memInv _ _ _ h)

theorem meet_memInv {s : State} {w : Who} {r : FlagRef} {e : FlagEv} (h : s.memInv) : (s.meet w r e).memInv :=
  modFlag_memInv h

theorem flagStep_memInv {s : State} {w : Who} {r : FlagRef} {op : FlagOp} (h : s.memInv) : (s.flagStep w r op).memInv :=
  addIval_memInv (meet_memInv h)

theorem flagAcq_memInv {s : State} {w : Who} {r : FlagRef} (h : s.memInv) : (s.flagAcq w r).memInv :=
  modAgent_memInv _ _ _ h

theorem complete_memInv {s : State} {w : Who} {r : Option FlagRef} {view : View} {code : Byte} (h : s.memInv) :
    (s.complete w r view code).memInv := by
  unfold State.complete
  split
  · exact h
  · exact ite_memInv (meet_memInv h) (ite_memInv (modBank_memInv _ _ _ (meet_memInv h)) h)

theorem overflows_memInv {s : State} {fs : List Flag} (h : s.memInv) : (s.overflows fs).memInv :=
  foldl_memInv _ _ _ (fun _ _ hs => foldl_memInv _ _ _ (fun _ _ hs1 => imprecise_memInv hs1) hs) h

theorem flagOk_keepsForm {r : FlagRef} : KeepsForm (flagOk r) :=
  keepsForm_get (fun _ _ => need_keepsForm)

theorem raiseCfs_keepsForm {fl : Flags} : KeepsForm (raiseCfs fl) :=
  keepsForm_modify (fun _ hs => modBank_memInv _ _ _ hs)

/-! ## The vector sequencer -/

theorem landWr_memInv {s : State} {w : Who} {e : XEnt} {x : Wr} (h : s.memInv) : (s.landWr w e x).memInv := by
  unfold State.landWr
  split
  · exact ite_memInv (landDst_memInv h) (ite_memInv (landDst_memInv h) (landDst_memInv h))
  · exact landDst_memInv h
  · exact modBank_memInv _ _ _ h
  · exact ite_memInv h (modBank_memInv _ _ _ h)
  · exact modBank_memInv _ _ _ h
  · exact modBank_memInv _ _ _ h
  · exact foldl_memInv _ _ _ (fun _ _ hs => modQ_memInv hs) h
  · exact modQ_memInv h

theorem landX_memInv {s : State} {w : Who} {e : XEnt} (h : s.memInv) : (s.landX w e).memInv :=
  foldl_memInv _ _ _ (fun _ _ hs => landWr_memInv hs) h

theorem landDue_memInv {s : State} {w : Who} (h : s.memInv) : (s.landDue w).memInv :=
  foldl_memInv _ _ _ (fun _ _ hs => landX_memInv hs) (foldl_memInv _ _ _ (fun _ _ hs => landX_memInv hs) (modBank_memInv _ _ _ h))

theorem xSlot_memInv {s : State} {w : Who} (h : s.memInv) : (s.xSlot w).memInv :=
  landDue_memInv (modBank_memInv _ _ _ h)

/-! ## Fetches -/

theorem curLine_keepsForm : KeepsForm curLine := by
  unfold curLine
  refine keepsForm_get (fun s _ => ?_)
  split
  · exact keepsForm_pure _
  · exact keepsForm_throw _

/-! ## Shared operations: issue, outcomes and traps -/

theorem tbNow_memInv {s : State} (h : s.memInv) : s.tbNow.2.memInv := by
  unfold State.tbNow
  split
  rename_i e
  exact memInv_of_snd e (choose_memInv _ _ h)

theorem putWords_memInv {s : State} {a pa : Nat} {ws : List W64} (h : s.memInv) : (s.putWords a pa ws).memInv :=
  putBytes_memInv _ _ _ _ h

theorem freeze_memInv {s : State} {w : Who} (h : s.memInv) : (s.freeze w).memInv :=
  foldl_memInv _ _ _ (fun _ _ hs => landAll_memInv hs) (modBank_memInv _ _ _ h)

theorem beginKill_memInv {s : State} {w : Who} {requeue : Bool} (h : s.memInv) : (s.beginKill w requeue).memInv := by
  unfold State.beginKill
  exact modCore_memInv _ _ _ (modBank_memInv _ _ _ (freeze_memInv h))

theorem freeBank_memInv {s : State} {w : Who} (h : s.memInv) : (s.freeBank w).memInv :=
  modCore_memInv _ _ _ h

theorem stopCore_memInv {s : State} {w : Who} {cause : Byte} {q : SeqId} {prec sw : Bool} {tag : BitVec 18} {addr : W64}
    {faulted : List SeqId} {o : Option State} (h : s.memInv) : (s.stopCore w cause q prec sw tag addr faulted o).memInv := by
  unfold State.stopCore
  refine event_memInv _ _ _ _ ?_
  refine modCore_memInv _ _ _ ?_
  split
  · exact putWords_memInv (freeze_memInv (trace_memInv _ _ _ _ _ h))
  · exact freeze_memInv (trace_memInv _ _ _ _ _ h)

theorem nested_memInv {s : State} {w : Who} {args : List W64} (h : s.memInv) : (s.nested w args).memInv :=
  event_memInv _ _ _ _ (beginKill_memInv h)

theorem newToken_memInv {s : State} {w : Who} {src : Nat} (h : s.memInv) : (s.newToken w src).2.memInv :=
  modCore_memInv _ _ _ h

theorem takeTrap_memInv {s : State} {w : Who} {t : TrapInfo} {prec : Bool} {o : Option State} (h : s.memInv) :
    (s.takeTrap w t prec o).memInv := by
  unfold State.takeTrap
  refine ite_memInv (stopCore_memInv h) ?_
  refine ite_memInv (nested_memInv h) ?_
  extract_lets +onlyGivenNames s1 s2 _ _ s3 s4 _ _ _
  have hs1 : s1.memInv := trace_memInv _ _ _ _ _ h
  have hs2 : s2.memInv := by
    unfold s2
    split
    · split
      rename_i e1
      exact modBank_memInv _ _ _ (memInv_of_snd e1 (newToken_memInv hs1))
    · exact hs1
  have hs3 : s3.memInv := freeze_memInv hs2
  have hs4 : s4.memInv := modBank_memInv _ _ _ hs3
  split
  · rename_i e
    exact nested_memInv (memInv_of_snd e (translate_memInv hs4))
  · rename_i e
    exact ite_memInv (nested_memInv (memInv_of_snd e (translate_memInv hs4))) (modBank_memInv _ _ _ (putWords_memInv (memInv_of_snd e
        (translate_memInv hs4))))

theorem entryChecks_keepsForm {i : Instr} : KeepsForm (entryChecks i) :=
  need_keepsForm.bind fun _ => keepsForm_get (fun _ _ => need_keepsForm.bind fun _ => need_keepsForm)

theorem succOf_keepsForm {i : Instr} {q : Seq} : KeepsForm (succOf i q) := by
  unfold succOf
  split
  · exact fetchCheck_keepsForm.bind fun _ => keepsForm_pure _
  · exact nextInChain_keepsForm.bind fun _ => keepsForm_ite (fetchCheck_keepsForm.bind fun _ => keepsForm_pure _) (keepsForm_pure _)

theorem advance_keepsForm {i : Instr} {flow : Flow} : KeepsForm (advance i flow) := by
  unfold advance
  refine keepsForm_get (fun s hs => ?_)
  extract_lets +onlyGivenNames _ _ s1 s2 s3
  have hs1 : s1.memInv := ite_memInv (count_memInv _ _ _ _ (xSlot_memInv hs)) hs
  have hs2 : s2.memInv := ite_memInv (count_memInv _ _ _ _ hs1) hs1
  have hs3 : s3.memInv := ite_memInv (landAll_memInv hs2) hs2
  refine (keepsForm_set hs3).bind fun v => ?_
  split
  · exact succOf_keepsForm.bind fun _ => keepsForm_pure _
  · exact fetchCheck_keepsForm.bind fun _ => keepsForm_modify (fun s4 hs4 => modSeq_memInv _ _ _ hs4)
  · exact succOf_keepsForm.bind fun _ => keepsForm_modify (fun s4 hs4 => modSeq_memInv _ _ _ hs4)
  · exact keepsForm_pure _
  · exact keepsForm_pure _

theorem issued_memInv {s : State} {w : Who} {flow : Flow} (h : s.memInv) : (s.issued w flow).memInv := by
  unfold State.issued
  refine ite_memInv h ?_
  split <;> exact modSeq_memInv _ _ _ h

theorem trapped_memInv {s : State} {t : TrapInfo} {o : Option State} (h : s.memInv) : (s.trapped t o).memInv := by
  unfold State.trapped
  extract_lets +onlyGivenNames _ s1 s2 s3 s4
  have hs1 : s1.memInv := ite_memInv h (modAgent_memInv _ _ _ h)
  have hs2 : s2.memInv := by
    unfold s2
    split
    · exact modSeq_memInv _ _ _ hs1
    · exact hs1
  have hs3 : s3.memInv := ite_memInv hs2 (modBank_memInv _ _ _ hs2)
  have hs4 : s4.memInv := ite_memInv (modSeq_memInv _ _ _ hs3) hs3
  exact takeTrap_memInv hs4

theorem stopped_memInv {s : State} {x : Stop} (h : s.memInv) : (s.stopped x).memInv := by
  unfold State.stopped
  extract_lets +onlyGivenNames _
  split
  · exact modSeq_memInv _ _ _ h
  · exact modSeq_memInv _ _ _ h
  · extract_lets +onlyGivenNames s1
    have hs1 : s1.memInv := modSeq_memInv _ _ _ h
    split
    · refine ite_memInv ?_ (modSeq_memInv _ _ _ hs1)
      split
      rename_i e1
      exact giveUp_memInv (memInv_of_snd e1 (choose_memInv _ _ hs1))
    · exact modSeq_memInv _ _ _ hs1
  · exact ite_memInv (ite_memInv (modSeq_memInv _ _ _ h) (trapped_memInv h)) h

/-- What an instruction's turn ends in: its own effect, or the stop that it met. -/
theorem outcome_endsInForm {s : State} {a : Act Unit} (h : s.memInv) (ha : KeepsForm a) : EndsInForm (outcome s (StateT.run a s)) := by
  unfold outcome
  split
  · rename_i v t e
    exact endsInForm_next (ha s v t h e)
  · exact endsInForm_next (stopped_memInv h)

theorem issueLim_endsInForm {i : Instr} {s : State} {lim : Act Unit} {body : Act Flow} (h : s.memInv) (hl : KeepsForm lim)
    (hb : KeepsForm body) : EndsInForm (issueLim i s lim body) :=
  outcome_endsInForm h <| need_keepsForm.bind fun _ => hl.bind fun _ => entryChecks_keepsForm.bind fun _ => keepsForm_get fun _ _ =>
    keepsForm_ite (keepsForm_hold_bind _ _ _)
      (hb.bind fun _ => advance_keepsForm.bind fun _ => keepsForm_modify fun _ hs => issued_memInv hs)

theorem issue_endsInForm {i : Instr} {s : State} {body : Act Flow} (h : s.memInv) (hb : KeepsForm body) : EndsInForm (issue i s body) :=
  issueLim_endsInForm h (keepsForm_pure _) hb

end Sys2Proof.Machine
end

section
/-! PROOFS. The canonical form of memory across scalar instructions, synchronization and tasks (log 2). -/
namespace Sys2Proof.Machine

/-! ## Integer and floating-point instructions -/

theorem scalarResult_keepsForm {i : Instr} {d : BitVec 6} {lat : Nat} {x y z : W64} : KeepsForm (scalarResult i d lat x y z) := by
  unfold scalarResult
  refine keepsForm_get (fun s _ => ?_)
  refine keepsForm_ite ?_ (destOf_keepsForm.bind fun _ => pendWrite_keepsForm.bind fun _ => keepsForm_pure _)
  refine reserveX_keepsForm.bind fun _ => ?_
  split
  exact addX_keepsForm.bind fun _ => keepsForm_pure _

theorem limitAB_keepsForm {f : RRR} {ok : W64 → W64 → Bool} : KeepsForm (limitAB f ok) := by
  unfold limitAB
  split <;> exact limits_keepsForm

theorem aluRRR_keepsForm {i : Instr} {f : RRR} {lat : Nat} : KeepsForm (aluRRR i f lat) := by
  unfold aluRRR
  refine sourcesAB_keepsForm.bind fun _ => ?_
  split
  exact scalarResult_keepsForm

theorem aluUn_keepsForm {i : Instr} {f : RRR} {lat : Nat} : KeepsForm (aluUn i f lat) :=
  sources_keepsForm.bind fun _ => scalarResult_keepsForm

theorem aluRRI_keepsForm {i : Instr} {f : RRI} {lat : Nat} : KeepsForm (aluRRI i f lat) :=
  sources_keepsForm.bind fun _ => scalarResult_keepsForm

theorem execCsel_endsInForm {f : RRR} {s : State} (h : s.memInv) : EndsInForm (execCsel f s) := by
  unfold execCsel
  refine issue_endsInForm h ?_
  refine sourcesAB_keepsForm.bind fun v => ?_
  split
  refine keepsForm_get (fun s1 hs => ?_)
  refine keepsForm_ite scalarResult_keepsForm ?_
  refine destOf_keepsForm.bind fun _ => keepsForm_ite ?_ (pendWrite_keepsForm.bind fun _ => keepsForm_pure _)
  split
  · exact (keepsForm_modify (fun _ hs1 => modQ_memInv hs1)).bind fun _ => keepsForm_pure _
  · exact keepsForm_pure _

theorem fpResult_keepsForm {d : BitVec 6} {lat : Nat} {r : W64 × Flags} : KeepsForm (fpResult d lat r) :=
  raiseCfs_keepsForm.bind fun _ => destOf_keepsForm.bind fun _ => pendWrite_keepsForm.bind fun _ => keepsForm_pure _

theorem fpRRR_keepsForm {f : RRR} {lat : Nat} {op : W32 → W32 → W64 × Flags} : KeepsForm (fpRRR f lat op) := by
  unfold fpRRR
  refine sourcesAB_keepsForm.bind fun _ => ?_
  split
  exact fpResult_keepsForm

theorem fpRound_keepsForm {f : RRR} {op : W64 → RMode → Nat → W64 × Flags} : KeepsForm (fpRound f op) := by
  unfold fpRound
  refine sources_keepsForm.bind fun v => keepsForm_get (fun s hs => ?_)
  extract_lets +onlyGivenNames _ _
  split
  exact (keepsForm_set (modBank_memInv _ _ _ hs)).bind fun _ => fpResult_keepsForm

theorem execFmad_endsInForm {f : RRR} {s : State} (h : s.memInv) : EndsInForm (execFmad f s) := by
  unfold execFmad
  refine issue_endsInForm h ?_
  refine KeepsForm.bind ?_ (fun _ => ?_)
  · split <;> exact sources_keepsForm.bind fun _ => keepsForm_pure _
  · split
    exact fpResult_keepsForm

/-! ## Branches -/

theorem noteCuts_memInv {s : State} (h : s.memInv) : s.noteCuts.memInv := h

theorem atomicFar_keepsForm {l n : Nat} {ea : W64} {f : W64 → W64} {acq rel : Option Nat} : KeepsForm (atomicFar l n ea f acq rel) :=
  keepsForm_get (fun _ hs => keepsForm_ite atomicAt_keepsForm (keepsForm_ite ((keepsForm_set (imprecise_memInv hs)).bind fun _ =>
      keepsForm_pure _) (hold_keepsForm _ _ _)))

theorem portSend_memInv {s : State} {p core req : Nat} (h : s.memInv) : (s.portSend p core req).memInv :=
  h

theorem portFree_memInv {s : State} {core req : Nat} (h : s.memInv) : (s.portFree core req).memInv :=
  h

theorem fencePort_memInv {s : State} {p : Nat} (h : s.memInv) : (s.fencePort p).memInv := by
  unfold State.fencePort
  refine foldl_memInv _ _ _ (fun _ x hs => ?_) h
  split
  · split
    · split
      · exact portSend_memInv hs
      · exact hs
    · exact hs
  · exact hs

theorem addReq_memInv {s : State} {c : CoreId} {r : Req} (h : s.memInv) : (s.addReq c r).memInv :=
  modCore_memInv _ _ _ h

theorem sendBuf_memInv {s : State} {c : CoreId} {n : Nat} (h : s.memInv) : (s.sendBuf c n).memInv := by
  unfold State.sendBuf
  split
  · exact h
  · exact ite_memInv h (addReq_memInv (modCore_memInv _ _ _ h))

theorem flushPort_memInv {s : State} {c : CoreId} (h : s.memInv) : (s.flushPort c).memInv :=
  foldl_memInv _ _ _ (fun _ _ hs => sendBuf_memInv hs) h

/-! ## Loads, stores, atomics and fences -/

theorem loadInstr_keepsForm {f : RRI} {n : Nat} {signed : Bool} : KeepsForm (loadInstr f n signed) :=
  sources_keepsForm.bind fun _ => loadEa_keepsForm.bind fun _ => destOf_keepsForm.bind fun _ => pendWrite_keepsForm.bind fun _ =>
      keepsForm_pure _

theorem flushFirst_keepsForm {scope : Nat} {k : Act Flow} (hk : KeepsForm k) : KeepsForm (flushFirst scope k) := by
  refine keepsForm_get fun s hs => keepsForm_ite ?_ hk
  split
  · exact (keepsForm_set (flushPort_memInv hs)).bind fun _ => keepsForm_pure _
  · exact (keepsForm_set (flushPort_memInv hs)).bind fun _ => keepsForm_pure _
  · exact keepsForm_throw _

theorem storeInstr_keepsForm {f : RRI} {n : Nat} : KeepsForm (storeInstr f n) :=
  flushFirst_keepsForm (sources_keepsForm.bind fun _ => storeEa_keepsForm.bind fun _ => keepsForm_pure _)

theorem amo_keepsForm {f : RRR} {cas : Bool} {g : W64 → W64 → W64 → W64} : KeepsForm (amo f cas g) :=
  flushFirst_keepsForm (sources_keepsForm.bind fun _ => locate_keepsForm.bind fun _ => watch_keepsForm.bind fun _ =>
      atomicFar_keepsForm.bind fun _ => destOf_keepsForm.bind fun _ => pendWrite_keepsForm.bind fun _ => keepsForm_pure _)

theorem fenceInstr_keepsForm {t : Nat} : KeepsForm (fenceInstr t) :=
  flushFirst_keepsForm (needQuiet_keepsForm.bind fun _ => (keepsForm_modify (fun _ hs => fenceSeq_memInv hs)).bind fun _ =>
      keepsForm_pure _)

theorem execEfence_endsInForm {f : RRR} {s : State} (h : s.memInv) : EndsInForm (execEfence f s) := by
  unfold execEfence
  split
  next t e =>
    have ht : t.memInv := entryChecks_keepsForm.bind (fun _ => needQuiet_keepsForm) _ _ _ h e
    exact endsInForm_ite (endsInForm_next (stopped_memInv ht)) (issue_endsInForm h fenceInstr_keepsForm)
  next e => exact endsInForm_next (stopped_memInv h)

/-! ## Flags, barriers and queue instructions -/

theorem execFarm_endsInForm {f : RRI} {s : State} (h : s.memInv) : EndsInForm (execFarm f s) :=
  issue_endsInForm h (sources_keepsForm.bind fun _ => flagOk_keepsForm.bind fun _ => need_keepsForm.bind fun _ =>
      (keepsForm_modify (fun _ hs => meet_memInv hs)).bind fun _ => retain_keepsForm.bind fun _ => keepsForm_pure _)

theorem flagEvent_keepsForm {f : RRI} {op : FlagOp} : KeepsForm (flagEvent f op) :=
  flagOk_keepsForm.bind fun _ => needQuiet_keepsForm.bind fun _ => keepsForm_get (fun _ hs =>
      keepsForm_ite (keepsForm_hold_bind _ _ _) (need_keepsForm.bind fun _ => (keepsForm_set (flagStep_memInv hs)).bind fun _ =>
      retain_keepsForm.bind fun _ => keepsForm_pure _))

theorem execFread_endsInForm {f : RRI} {s : State} (h : s.memInv) : EndsInForm (execFread f s) :=
  issue_endsInForm h (dstsOk_keepsForm.bind fun _ => flagOk_keepsForm.bind fun _ => keepsForm_get (fun _ hs =>
      (keepsForm_set (flagAcq_memInv hs)).bind fun _ => scalarResult_keepsForm))

theorem execFwait_endsInForm {f : RRI} {s : State} (h : s.memInv) : EndsInForm (execFwait f s) :=
  issue_endsInForm h (flagOk_keepsForm.bind fun _ => keepsForm_get (fun _ hs =>
      keepsForm_ite (keepsForm_hold_bind _ _ _) (keepsForm_ite ((keepsForm_set (trace_memInv _ _ _ _ _ (modBank_memInv _ _ _
      (flagAcq_memInv hs)))).bind fun _ => keepsForm_pure _) ((keepsForm_set (flagAcq_memInv hs)).bind fun _ => keepsForm_pure _))))

theorem setBars_memInv {s : State} {scope inst : Nat} {b : List Barrier} {g : Nat} (h : s.memInv) : (s.setBars scope inst b g).memInv :=
  ite_memInv (modClu_memInv _ _ _ h) (ite_memInv (modDie_memInv _ _ _ h) h)

theorem flip_memInv {s : State} {c : CoreId} {ctx : BitVec 12} {view : View} (h : s.memInv) : (s.flip c ctx view).memInv := by
  unfold State.flip
  split
  · split
    · rename_i e2
      exact memInv_of_snd e2 (translate_memInv h)
    · rename_i e2
      extract_lets +onlyGivenNames _ _ _ _ s1 _
      have hs1 : s1.memInv := stepped_memInv _ (append_memInv _ _ _ _ _ (memInv_of_snd e2 (translate_memInv h)))
      exact hs1
  · exact h

theorem setSaved_memInv {s : State} {xs : List (Nat × Saved)} (h : s.memInv) : { s with saved := xs }.memInv :=
  h

theorem closeBarrier_memInv {s : State} {scope inst gen : Nat} {view : View} (h : s.memInv) :
    (s.closeBarrier scope inst gen view).memInv := by
  unfold State.closeBarrier
  refine setSaved_memInv (foldl_memInv _ _ _ (fun t c ht => foldl_memInv _ _ _ (fun u b hu => ?_) ht) h)
  extract_lets +onlyGivenNames _
  split
  · exact modAgent_memInv _ _ _ (modBank_memInv _ _ _ hu)
  · exact hu

theorem barArrive_keepsForm {f : RRI} : KeepsForm (barArrive f) := by
  unfold barArrive
  refine sources_keepsForm.bind fun v => needQuiet_keepsForm.bind fun _ => destOf_keepsForm.bind fun _ => keepsForm_get (fun s hs => ?_)
  extract_lets +onlyGivenNames _ _ _
  split
  exact keepsForm_ite (keepsForm_hold_bind _ _ _) (keepsForm_ite ((keepsForm_set (closeBarrier_memInv (setBars_memInv (ite_memInv
      (flip_memInv (modBank_memInv _ _ _ (addIval_memInv hs))) (modBank_memInv _ _ _ (addIval_memInv hs)))))).bind fun _ =>
      keepsForm_pure _) ((keepsForm_set (setBars_memInv (modBank_memInv _ _ _ (addIval_memInv hs)))).bind fun _ => keepsForm_pure _))

theorem barLimits_keepsForm {f : RRI} : KeepsForm (barLimits f) :=
  keepsForm_get (fun _ _ => keepsForm_ite limits_keepsForm (keepsForm_pure _))

theorem execBar_endsInForm {f : RRI} {s : State} (h : s.memInv) : EndsInForm (execBar f s) := by
  unfold execBar
  refine issueLim_endsInForm h barLimits_keepsForm ?_
  refine keepsForm_get (fun _ hs => ?_)
  split
  · exact barArrive_keepsForm
  · exact keepsForm_ite (keepsForm_hold_bind _ _ _) ((keepsForm_set (modBank_memInv _ _ _ hs)).bind fun _ =>
        pendWrite_keepsForm.bind fun _ => keepsForm_pure _)

theorem queueResult_keepsForm {i : Instr} {f : FQ} {two : Bool} {x y : W64} : KeepsForm (queueResult i f two x y) := by
  unfold queueResult
  refine keepsForm_get (fun s _ => ?_)
  refine keepsForm_ite ?_ (destOf_keepsForm.bind fun _ => pendWrite_keepsForm.bind fun _ => keepsForm_ite (destOf_keepsForm.bind fun _ =>
      pendWrite_keepsForm.bind fun _ => keepsForm_pure _) (keepsForm_pure _))
  refine reserveX_keepsForm.bind fun _ => ?_
  split
  exact addX_keepsForm.bind fun _ => keepsForm_pure _

theorem execQpush_endsInForm {f : FQ} {s : State} (h : s.memInv) : EndsInForm (execQpush f s) := by
  unfold execQpush
  refine issue_endsInForm h ?_
  refine need_keepsForm.bind fun v => pushOk_keepsForm.bind fun _ => sources_keepsForm.bind fun _ => keepsForm_get (fun _ hs => ?_)
  refine keepsForm_ite (keepsForm_hold_bind _ _ _) ?_
  refine keepsForm_ite (keepsForm_hold_bind _ _ _) ?_
  refine keepsForm_when (keepsForm_set (modQ_memInv hs)) ?_
  refine keepsForm_ite ?_ (keepsForm_pure _)
  refine keepsForm_ite ?_ (destOf_keepsForm.bind fun _ => pendWrite_keepsForm.bind fun _ => keepsForm_pure _)
  refine reserveX_keepsForm.bind fun _ => ?_
  split
  exact addX_keepsForm.bind fun _ => keepsForm_pure _

theorem popOrPeek_keepsForm {i : Instr} {f : FQ} {pop : Bool} : KeepsForm (popOrPeek i f pop) :=
  need_keepsForm.bind fun _ => popOk_keepsForm.bind fun _ => dstsOk_keepsForm.bind fun _ => keepsForm_get (fun _ hs =>
      keepsForm_ite (keepsForm_hold_bind _ _ _) (keepsForm_when (keepsForm_set (modQ_memInv hs)) queueResult_keepsForm))

theorem csrPut_keepsForm {n : Nat} {v : W64} : KeepsForm (csrPut n v) :=
  keepsForm_modify (fun _ hs => modBank_memInv _ _ _ hs)

theorem execQcfg_endsInForm {f : FQ} {s : State} (h : s.memInv) : EndsInForm (execQcfg f s) :=
  issue_endsInForm h (keepsForm_get (fun _ _ => need_keepsForm.bind fun _ => matrixOk_keepsForm.bind fun _ =>
      sources_keepsForm.bind fun _ => csrPut_keepsForm.bind fun _ => keepsForm_pure _))

/-! ## Records and banks -/

theorem takeSlot_memInv {s : State} {d : DieId} (h : s.memInv) : (s.takeSlot d).2.memInv := by
  unfold State.takeSlot
  split
  rename_i e
  exact modDie_memInv _ _ _ (memInv_of_snd e (choose_memInv _ _ h))

theorem freeSlotOf_memInv {s : State} {owner : Nat} (h : s.memInv) : (s.freeSlotOf owner).memInv :=
  modDie_memInv _ _ _ h

theorem dropRec_memInv {s : State} {r : Rec} (h : s.memInv) : (s.dropRec r).memInv :=
  freeSlotOf_memInv (freeSlotOf_memInv h)

theorem enqueue_memInv {s : State} {d : DieId} {r : Rec} {head : Bool} (h : s.memInv) : (s.enqueue d r head).memInv :=
  modDie_memInv _ _ _ h

theorem acceptRec_memInv {s : State} {d : DieId} {key : Nat} {w : Vector W64 8} {view : View} {src : W64} (h : s.memInv) :
    (s.acceptRec d key w view src).2.memInv := by
  unfold State.acceptRec
  split
  rename_i e
  exact enqueue_memInv (memInv_of_snd e (takeSlot_memInv h))

theorem refuseRec_memInv {s : State} {reason : Nat} {seqNo corr src : W64} (h : s.memInv) : (s.refuseRec reason seqNo corr src).memInv :=
  event_memInv _ _ _ _ h

theorem taskLoad_memInv {s : State} {w : Who} {va : W64} {n : Nat} (h : s.memInv) : (s.taskLoad w va n).2.memInv := by
  unfold State.taskLoad
  extract_lets +onlyGivenNames _
  split
  · exact h
  · split
    · rename_i e1
      exact memInv_of_snd e1 (translate_memInv h)
    · rename_i e1
      split
      · exact memInv_of_snd e1 (translate_memInv h)
      · split
        rename_i e3
        refine memInv_of_snd e3 ?_
        refine foldl_snd_memInv _ _ _ (fun p x hs => ?_) (memInv_of_snd e1 (translate_memInv h))
        split
        rename_i e4
        exact memInv_of_snd e4 (load_memInv _ _ _ _ _ hs)

theorem placeCont_memInv {s : State} {w : Who} {pa : Nat} (h : s.memInv) : (s.placeCont w pa).memInv := by
  unfold State.placeCont
  extract_lets +onlyGivenNames _
  split
  rename_i e
  split
  rename_i e1
  extract_lets +onlyGivenNames _
  split
  · rename_i e2
    exact refuseRec_memInv (memInv_of_snd e2 (taskLoad_memInv (memInv_of_snd e1 (load_memInv _ _ _ _ _ (memInv_of_snd e
        (load_memInv _ _ _ _ _ h))))))
  · rename_i e2
    extract_lets +onlyGivenNames _
    split
    · exact acceptRec_memInv (memInv_of_snd e2 (taskLoad_memInv (memInv_of_snd e1 (load_memInv _ _ _ _ _ (memInv_of_snd e
          (load_memInv _ _ _ _ _ h))))))
    · exact refuseRec_memInv (memInv_of_snd e2 (taskLoad_memInv (memInv_of_snd e1 (load_memInv _ _ _ _ _ (memInv_of_snd e
          (load_memInv _ _ _ _ _ h))))))

theorem closeRows_memInv {s : State} {ls : List Nat} {origin : Nat} {corr recid : W32} (h : s.memInv) :
    (s.closeRows ls origin corr recid).memInv :=
  foldl_memInv _ _ _ (fun _ _ hs => ite_memInv (release_memInv _ _ hs) hs) (foldl_memInv _ _ _ (fun _ _ hs => event_memInv _ _ _ _ hs) h)

theorem profAdd_memInv {s : State} {w : Who} (h : s.memInv) : (s.profAdd w).memInv := by
  unfold State.profAdd
  extract_lets +onlyGivenNames _
  split
  · exact h
  · refine ite_memInv h ?_
    refine foldl_memInv _ _ _ (fun _ x hs => ?_) h
    split
    · rename_i e1
      exact memInv_of_snd e1 (translate_memInv hs)
    · rename_i e1
      exact stepped_memInv _ (append_memInv _ _ _ _ _ (memInv_of_snd e1 (translate_memInv hs)))

theorem completionEvent_memInv {s : State} {d : DieId} {cs : List CoreId} {corr recid : W32} {t : Nat} (h : s.memInv) :
    (s.completionEvent d cs corr recid t).memInv :=
  ite_memInv h (event_memInv _ _ _ _ h)

theorem ticketFor_memInv {s : State} {corr recid : W32} (h : s.memInv) : (s.ticketFor corr recid).memInv := by
  unfold State.ticketFor
  extract_lets +onlyGivenNames _ _ s1 s2
  have hs1 : s1.memInv := h
  have hs2 : s2.memInv := foldl_memInv _ _ _ (fun _ _ hs => completionEvent_memInv hs) hs1
  clear_value s1 s2
  exact ite_memInv (event_memInv _ _ _ _ hs2) hs2

theorem joinStep_memInv {s : State} {w : Who} {join : W64} (h : s.memInv) : (s.joinStep w join).memInv := by
  unfold State.joinStep
  refine ite_memInv h ?_
  split
  · rename_i e
    exact errorReport_memInv (memInv_of_snd e (translate_memInv h))
  · rename_i e
    refine ite_memInv (errorReport_memInv (memInv_of_snd e (translate_memInv h))) ?_
    refine ite_memInv (errorReport_memInv (memInv_of_snd e (translate_memInv h))) ?_
    extract_lets +onlyGivenNames _ s1
    have hs1 : s1.memInv := modAgent_memInv _ _ _ (memInv_of_snd e (translate_memInv h))
    split
    rename_i e1
    exact ite_memInv (placeCont_memInv (memInv_of_snd e1 (rmw_memInv hs1))) (memInv_of_snd e1 (rmw_memInv hs1))

theorem exitRelease_memInv {s : State} {w : Who} (h : s.memInv) : (s.exitRelease w).memInv :=
  foldl_memInv _ _ _ (fun _ _ hs => modAgent_memInv _ _ _ hs) h

theorem endTask_memInv {s : State} {w : Who} (h : s.memInv) : (s.endTask w).memInv := by
  unfold State.endTask
  split
  · exact h
  · exact freeBank_memInv (dropRec_memInv (trace_memInv _ _ _ _ _ (profAdd_memInv (ite_memInv (ticketFor_memInv (joinStep_memInv
        (modCore_memInv _ _ _ (closeRows_memInv (exitRelease_memInv (foldl_memInv _ _ _ (fun _ _ hs =>
        landAll_memInv hs) h)))))) (joinStep_memInv (modCore_memInv _ _ _ (closeRows_memInv (exitRelease_memInv (foldl_memInv _ _ _
        (fun _ _ hs => landAll_memInv hs) h)))))))))

/-! ## What the engines share -/

theorem flagsOk_keepsForm {fs : List (Option FlagRef)} : KeepsForm (flagsOk fs) := by
  induction fs with
  | nil => exact keepsForm_pure _
  | cons f fs ih =>
    cases f with
    | none => exact ih
    | some r => exact flagOk_keepsForm.bind fun _ => ih

theorem accept_memInv {s : State} {w : Who} {e : Fin 7} (h : s.memInv) : (s.accept w e).2.memInv :=
  modCore_memInv _ _ _ h

theorem enterCmd_memInv {s : State} {out : Bool} {c : ECmd} (h : s.memInv) : (s.enterCmd out c).memInv := by
  unfold State.enterCmd
  split
  rename_i e
  split
  rename_i e1
  exact modCore_memInv _ _ _ (memInv_of_snd e1 (pushView_memInv (memInv_of_snd e (accept_memInv h))))

theorem placeCmd_keepsForm {after : Option FlagRef} {out : Bool} {c : ECmd} : KeepsForm (placeCmd after out c) := by
  unfold placeCmd
  refine keepsForm_get (fun s hs => ?_)
  extract_lets +onlyGivenNames _
  split
  · exact keepsForm_ite (keepsForm_ite (keepsForm_hold_bind _ _ _) ((keepsForm_set (modCore_memInv _ _ _ hs)).bind fun _ =>
        keepsForm_pure _)) (keepsForm_ite (keepsForm_hold_bind _ _ _) (needQuiet_keepsForm.bind fun v => (keepsForm_modify (fun s1 hs1 =>
        enterCmd_memInv hs1)).bind fun _ => keepsForm_pure _))
  · exact keepsForm_ite (keepsForm_hold_bind _ _ _) (needQuiet_keepsForm.bind fun v => (keepsForm_modify (fun s1 hs1 =>
        enterCmd_memInv hs1)).bind fun _ => keepsForm_pure _)

theorem waitFor_memInv {s : State} {n : Nat} (h : s.memInv) : (s.waitFor n).memInv :=
  modSeq_memInv _ _ _ h

theorem waitOver_memInv {s : State} (h : s.memInv) : s.waitOver.memInv := modSeq_memInv _ _ _ h

theorem engLocate_memInv {s : State} {g : Eng} {ea : W64} {kind : Nat} (h : s.memInv) : (s.engLocate g ea kind).2.memInv := by
  unfold State.engLocate
  split
  · exact h
  · exact h
  · split
    · exact h
    · split
      · rename_i e2
        exact memInv_of_snd e2 (translate_memInv h)
      · rename_i e2
        exact memInv_of_snd e2 (translate_memInv h)
      · rename_i e3
        exact memInv_of_snd e3 (translate_memInv h)

theorem engLocs_memInv {s : State} {g : Eng} {kind : Nat} {ps : List (Nat × Nat)} (h : s.memInv) : (s.engLocs g kind ps).2.memInv := by
  induction ps generalizing s with
  | nil => exact h
  | cons p ps ih =>
    unfold State.engLocs
    split
    · rename_i e
      exact memInv_of_snd e (engLocate_memInv h)
    · rename_i e
      split
      · rename_i e'
        exact memInv_of_snd e' (ih (memInv_of_snd e (engLocate_memInv h)))
      · rename_i e'
        exact memInv_of_snd e' (ih (memInv_of_snd e (engLocate_memInv h)))

theorem takeWords_memInv {s : State} {a w n : Nat} {acq : Option Nat} (h : s.memInv) : (s.takeWords a w n acq).memInv := by
  unfold State.takeWords
  refine foldl_memInv _ _ _ (fun _ x hs => ?_) h
  split
  extract_lets +onlyGivenNames s2
  have hs2 : s2.memInv := own_memInv _ _ _ hs
  split
  · exact takeParts_memInv hs2
  · exact hs2

theorem engPiece_memInv {s : State} {g : Eng} {kept : NMap KRow} {keep cons : Bool} {l n : Nat} (h : s.memInv) :
    (s.engPiece g kept keep cons l n).2.2.2.memInv := by
  unfold State.engPiece
  split
  · exact h
  · extract_lets +onlyGivenNames s1
    have hs1 : s1.memInv := refetch_memInv _ _ (touch_memInv h)
    split
    · exact count_memInv _ _ _ _ (eat_memInv _ _ _ (ite_memInv (takeWords_memInv hs1) (takeWords_memInv hs1)))
    · exact hs1

theorem engPieces_memInv {s : State} {g : Eng} {kept : NMap KRow} {keep : Bool} {cons : Nat → Bool} {ls : List (Nat × Nat)}
    (h : s.memInv) : (s.engPieces g kept keep cons ls).2.2.2.memInv := by
  unfold State.engPieces
  split
  rename_i e
  extract_lets +onlyGivenNames _
  split
  rename_i e1
  refine memInv_of_snd e1 ?_
  refine loadWords_memInv ?_
  refine memInv_of_snd_snd_snd e ?_
  refine foldl_snd_snd_snd_memInv _ _ _ (fun p x hs => ?_) h
  split
  rename_i e2
  exact memInv_of_snd_snd_snd e2 (engPiece_memInv hs)

theorem engRead_memInv {s : State} {g : Eng} {ea : W64} {n : Nat} {cons : Bool} {kept : NMap KRow} {keep : Bool} (h : s.memInv) :
    (s.engRead g ea n cons kept keep).2.2.memInv := by
  unfold State.engRead
  split
  · rename_i e1
    exact memInv_of_snd e1 (engLocs_memInv h)
  · rename_i e
    extract_lets +onlyGivenNames _ _ _
    split
    · exact memInv_of_snd e (engLocs_memInv h)
    · split
      · exact memInv_of_snd e (engLocs_memInv h)
      · split
        · exact memInv_of_snd e (engLocs_memInv h)
        · split
          rename_i e4
          split
          · exact memInv_of_snd_snd_snd e4 (engPieces_memInv (memInv_of_snd e (engLocs_memInv h)))
          · split
            · exact memInv_of_snd e (engLocs_memInv h)
            · extract_lets +onlyGivenNames t2
              have ht2 : t2.memInv := by
                unfold t2
                split
                · exact consumed_memInv (memInv_of_snd_snd_snd e4 (engPieces_memInv (memInv_of_snd e (engLocs_memInv h))))
                · exact memInv_of_snd_snd_snd e4 (engPieces_memInv (memInv_of_snd e (engLocs_memInv h)))
              exact ht2

theorem engStore_memInv {s : State} {g : Eng} {parts : List WPart} {ref : CmdRef} (h : s.memInv) : (s.engStore g parts ref).memInv :=
  modAgent_memInv _ _ _ h

theorem engWrite_memInv {s : State} {g : Eng} {ea : W64} {bs : List Byte} {row : Bool} {ref : CmdRef} (h : s.memInv) :
    (s.engWrite g ea bs row ref).2.memInv := by
  unfold State.engWrite
  split
  · rename_i e1
    exact memInv_of_snd e1 (engLocs_memInv h)
  · rename_i e
    split
    · exact memInv_of_snd e (engLocs_memInv h)
    · exact ite_memInv (engStore_memInv (foldl_memInv _ _ _ (fun _ _ hs => touch_memInv hs) (memInv_of_snd e (engLocs_memInv h))))
          (foldl_memInv _ _ _ (fun _ _ hs => engStore_memInv hs) (foldl_memInv _ _ _ (fun _ _ hs =>
          touch_memInv hs) (memInv_of_snd e (engLocs_memInv h))))

theorem postFault_memInv {s : State} {g : Eng} {va pf : W64} (h : s.memInv) : (s.postFault g va pf).2.memInv := by
  unfold State.postFault
  split
  · exact h
  · split
    rename_i e1
    exact event_memInv _ _ _ _ (modBank_memInv _ _ _ (memInv_of_snd e1 (newToken_memInv h)))

theorem engStart_memInv {s : State} {agent : Nat} {v : View} (h : s.memInv) : (s.engStart agent v).memInv :=
  modAgent_memInv _ _ _ h

theorem engDone_memInv {s : State} {w : Who} {cfl : Option FlagRef} {agent : Nat} {code : Byte} (h : s.memInv) :
    (s.engDone w cfl agent code).memInv :=
  complete_memInv h

theorem engEnd_memInv {s : State} {w : Who} {e : Fin 7} {nth : W32} {cause : Byte} {va : W64} {code : Byte} (h : s.memInv) :
    (s.engEnd w e nth cause va code).memInv :=
  engFail_memInv (imprecise_memInv h)

theorem outCode_memInv {s : State} {far : Bool} (h : s.memInv) : (s.outCode far).2.memInv := by
  unfold State.outCode
  split
  · exact h
  · split
    rename_i e1
    exact memInv_of_snd e1 (fresh_memInv h)

theorem engExtent_memInv {s : State} {g : Eng} {shp : W64} {j : Nat} (h : s.memInv) : (s.engExtent g shp j).2.memInv := by
  unfold State.engExtent
  split
  · rename_i e1
    exact memInv_of_snd_snd e1 (engRead_memInv h)
  · rename_i e
    extract_lets +onlyGivenNames _
    split
    · exact memInv_of_snd_snd e (engRead_memInv h)
    · split
      · rename_i e3
        exact memInv_of_snd_snd e3 (engRead_memInv (memInv_of_snd_snd e (engRead_memInv h)))
      · rename_i e2
        exact memInv_of_snd_snd e2 (engRead_memInv (memInv_of_snd_snd e (engRead_memInv h)))

/-! ## Tasks -/

theorem eventRoom_keepsForm : KeepsForm eventRoom :=
  keepsForm_get (fun _ _ => keepsForm_ite (hold_keepsForm _ _ _) (keepsForm_pure _))

theorem loadWords_go_keepsForm {ea : W64} {k : Nat} : KeepsForm (loadWords.go ea k) := by
  induction k with
  | zero => exact keepsForm_pure _
  | succ k ih => exact ih.bind fun _ => loadEa_keepsForm.bind fun _ => keepsForm_pure _

theorem loadWords_keepsForm {ea : W64} {n : Nat} : KeepsForm (loadWords ea n) :=
  classOk_keepsForm.bind fun _ => needAt_keepsForm.bind fun _ => loadWords_go_keepsForm

theorem execSpawn_endsInForm {f : RRR} {s : State} (h : s.memInv) : EndsInForm (execSpawn f s) := by
  unfold execSpawn
  refine issue_endsInForm h ?_
  refine sourcesAB_keepsForm.bind fun v => ?_
  split
  refine needQuiet_keepsForm.bind fun _ => loadWords_keepsForm.bind fun _ => keepsForm_get (fun _ hs => ?_)
  refine keepsForm_ite (keepsForm_hold_bind _ _ _) ?_
  refine KeepsForm.bind ?_ (fun _ => destOf_keepsForm.bind fun _ => pendWrite_keepsForm.bind fun _ => keepsForm_pure _)
  split
  · split
    rename_i e1
    exact (keepsForm_set (addIval_memInv (memInv_of_snd e1 (acceptRec_memInv hs)))).bind fun _ => keepsForm_pure _
  · exact keepsForm_pure _

theorem pcCheck_keepsForm {t : W64} : KeepsForm (pcCheck t) :=
  needAt_keepsForm.bind fun _ => needAt_keepsForm.bind fun _ => need_keepsForm

theorem tstartLimits_keepsForm {f : RRR} : KeepsForm (tstartLimits f) :=
  keepsForm_get (fun _ _ => limitAB_keepsForm)

theorem execTstart_endsInForm {f : RRR} {s : State} (h : s.memInv) : EndsInForm (execTstart f s) := by
  unfold execTstart
  refine issueLim_endsInForm h tstartLimits_keepsForm ?_
  refine sourcesAB_keepsForm.bind fun v => ?_
  split
  exact keepsForm_get (fun _ hs => need_keepsForm.bind fun _ => pcCheck_keepsForm.bind fun _ =>
      (keepsForm_set (modAgent_memInv _ _ _ (modSeq_memInv _ _ _ hs))).bind fun _ => keepsForm_pure _)

theorem execJoin_endsInForm {f : RRR} {s : State} (h : s.memInv) : EndsInForm (execJoin f s) := by
  unfold execJoin
  refine issueLim_endsInForm h limitAB_keepsForm ?_
  refine sourcesAB_keepsForm.bind fun v => ?_
  split
  exact eventRoom_keepsForm.bind fun _ => need_keepsForm.bind fun _ => locate_keepsForm.bind fun _ => watch_keepsForm.bind fun _ =>
      keepsForm_get (fun s1 hs => atomicFar_keepsForm.bind fun _ => keepsForm_get (fun _ hs1 =>
      (keepsForm_set (ite_memInv (placeCont_memInv hs1) hs1)).bind fun _ => destOf_keepsForm.bind fun _ =>
      pendWrite_keepsForm.bind fun _ => keepsForm_pure _))

theorem exitChecks_keepsForm {join : W64} : KeepsForm (exitChecks join) :=
  keepsForm_ite (keepsForm_pure _) (needAt_keepsForm.bind fun _ => locate_keepsForm.bind fun _ => keepsForm_get (fun _ _ =>
      needAt_keepsForm.bind fun _ => needAt_keepsForm))

theorem exitAt_keepsForm {n mask : Nat} : KeepsForm (exitAt n mask) :=
  (keepsForm_modify (fun _ hs => modSeq_memInv _ _ _ hs)).bind fun _ => keepsForm_pure _

theorem exitSteps_keepsForm {mask n : Nat} : KeepsForm (exitSteps mask n) := by
  unfold exitSteps
  refine keepsForm_get (fun s hs => ?_)
  refine keepsForm_ite (keepsForm_hold_bind _ _ _) ?_
  refine keepsForm_ite (keepsForm_throw_bind _) ?_
  refine keepsForm_ite ((keepsForm_set (flushPort_memInv hs)).bind fun _ => exitAt_keepsForm) ?_
  refine keepsForm_ite ?_ (keepsForm_ite (hold_keepsForm _ _ _) exitAt_keepsForm)
  split
  · exact keepsForm_ite (keepsForm_throw _) exitAt_keepsForm
  · exact (keepsForm_set (endTask_memInv hs)).bind fun _ => keepsForm_pure _

theorem exitBody_keepsForm {f : RRR} : KeepsForm (exitBody f) := by
  unfold exitBody
  refine keepsForm_get (fun s hs => ?_)
  split
  · exact exitSteps_keepsForm
  · exact sources_keepsForm.bind fun _ => keepsForm_get (fun _ _ => exitChecks_keepsForm.bind fun _ => keepsForm_get (fun s2 hs2 =>
        keepsForm_ite ((keepsForm_set (flushPort_memInv hs2)).bind fun _ => exitAt_keepsForm) exitSteps_keepsForm))

/-! ## Configuration -/

theorem transfer_keepsForm {kind : Nat} {pc : W64} : KeepsForm (transfer kind pc) :=
  (keepsForm_modify (fun _ hs => trace_memInv _ _ _ _ _ hs)).bind fun _ => keepsForm_pure _

theorem branch_keepsForm {f : BR} {taken : W64 → Bool} : KeepsForm (branch f taken) :=
  sources_keepsForm.bind fun _ => keepsForm_get (fun _ _ => keepsForm_ite transfer_keepsForm (keepsForm_pure _))

theorem linkValue_keepsForm : KeepsForm linkValue :=
  curLine_keepsForm.bind fun _ => keepsForm_get (fun _ _ => keepsForm_pure _)

theorem execCall_endsInForm {f : BR} {s : State} (h : s.memInv) : EndsInForm (execCall f s) :=
  issue_endsInForm h (sources_keepsForm.bind fun _ => linkValue_keepsForm.bind fun _ => scalarResult_keepsForm.bind fun _ =>
      keepsForm_get (fun _ _ => transfer_keepsForm))

theorem jumpTo_keepsForm {kind : Nat} {a : BitVec 6} : KeepsForm (jumpTo kind a) :=
  sources_keepsForm.bind fun _ => needAt_keepsForm.bind fun _ => needAt_keepsForm.bind fun _ => need_keepsForm.bind fun _ =>
      transfer_keepsForm

theorem loopWrite_keepsForm {f : BR} {n : Fin 4} : KeepsForm (loopWrite f n) :=
  keepsForm_get (fun _ _ => keepsForm_ite addX_keepsForm pendWrite_keepsForm)

theorem execLoop_endsInForm {f : BR} {s : State} (h : s.memInv) : EndsInForm (execLoop f s) := by
  unfold execLoop
  refine issue_endsInForm h ?_
  refine sources_keepsForm.bind fun v => keepsForm_get (fun s1 hs => ?_)
  refine loopWrite_keepsForm.bind fun _ => keepsForm_ite ?_ (nextInChain_keepsForm.bind fun _ => (keepsForm_modify (fun _ hs1 =>
      modSeq_memInv _ _ _ hs1)).bind fun _ => keepsForm_pure _)
  refine (keepsForm_modify (fun _ hs1 => modSeq_memInv _ _ _ hs1)).bind fun _ => fetchCheck_keepsForm.bind fun _ => ?_
  split
  · exact raise_keepsForm _
  · exact keepsForm_pure _

theorem branchQueue_keepsForm {f : BR} {taken : W64 → Bool} : KeepsForm (branchQueue f taken) :=
  need_keepsForm.bind fun _ => popOk_keepsForm.bind fun _ => popWord_keepsForm.bind fun _ => keepsForm_get (fun _ _ =>
      keepsForm_ite transfer_keepsForm (keepsForm_pure _))

theorem waitSlot_memInv {s : State} {w : Who} (h : s.memInv) : (s.waitSlot w).memInv :=
  modSeq_memInv _ _ _ (count_memInv _ _ _ _ (xSlot_memInv h))

/-! ## Turns of a sequencer -/

theorem takeImprecise_memInv {s : State} {w : Who} {o : Option State} (h : s.memInv) : (s.takeImprecise w o).memInv :=
  takeTrap_memInv h

theorem zeroTest_memInv {s : State} {c : CoreId} (h : s.memInv) : (s.zeroTest c).memInv :=
  ite_memInv h (foldl_memInv _ _ _ (fun _ _ hs => ite_memInv (trace_memInv _ _ _ _ _ (modBank_memInv _ _ _ hs)) hs)
      (modCore_memInv _ _ _ h))

theorem scrubPass_memInv {s : State} (h : s.memInv) : s.scrubPass.memInv := ite_memInv h h

theorem clock_memInv {s : State} (h : s.memInv) : s.clock.memInv := scrubPass_memInv h

theorem hostStore_memInv {s : State} {k : Fin 32} {pa : Nat} {bs : List Byte} (h : s.memInv) : (s.hostStore k pa bs).memInv :=
  ite_memInv (unpoison_memInv _ _ _ (stepped_memInv _ (foldl_memInv _ _ _
    (fun _ _ hs => own_memInv _ _ _ (append_memInv _ _ _ _ _ hs)) (giveUp_memInv h)))) h

theorem popTurn_memInv {s : State} (h : s.memInv) : s.popTurn.2.memInv := by
  unfold State.popTurn
  split <;> exact h

theorem execImpreciseTrap_endsInForm {c : CoreId} {s : State} (h : s.memInv) : EndsInForm (execImpreciseTrap c s) := by
  unfold execImpreciseTrap
  split
  · exact endsInForm_next h
  · exact endsInForm_ite (endsInForm_next (takeImprecise_memInv h)) (endsInForm_next h)

theorem execFetchLineArrive_endsInForm {c : CoreId} {b : BankId} {q : SeqId} {s : State} (h : s.memInv) : EndsInForm
    (execFetchLineArrive c b q s) := by
  unfold execFetchLineArrive
  refine endsInForm_ite (endsInForm_next h) ?_
  split
  · exact endsInForm_next h
  · rename_i e
    exact endsInForm_ite (endsInForm_next (memInv_of_snd e (translate_memInv h))) (endsInForm_next (modCore_memInv _ _ _ (ite_memInv
        (notes_memInv (memInv_of_snd e (translate_memInv h))) (memInv_of_snd e (translate_memInv h)))))

end Sys2Proof.Machine
end

section
/-! PROOFS. The canonical form of memory across the vector, access and matrix sequencers and their engines (log 2). -/
namespace Sys2Proof.Machine

/-! ## Vector instructions -/

theorem vecAdd_keepsForm {i : Instr} {f : FV} {lat : Nat} {caps : List Cap} {files : List (Nat × Nat)} : KeepsForm
    (vecAdd i f lat caps files) :=
  keepsForm_get (fun _ _ => addX_keepsForm.bind fun _ => keepsForm_pure _)

theorem vecTiles_keepsForm {i : Instr} {f : FV} {lat : Nat} {srcs : List (BitVec 5)} : KeepsForm (vecTiles i f lat srcs) :=
  keepsForm_get (fun _ _ => vecAdd_keepsForm)

theorem vecCmp_keepsForm {i : Instr} {f : FV} : KeepsForm (vecCmp i f) :=
  keepsForm_get (fun _ _ => vecAdd_keepsForm)

theorem vecMasks_keepsForm {i : Instr} {f : FV} {lat : Nat} {srcs : List (BitVec 5)} {files : List (Nat × Nat)} : KeepsForm
    (vecMasks i f lat srcs files) :=
  keepsForm_get (fun _ _ => vecAdd_keepsForm)

theorem vecMov_keepsForm {f : FV} : KeepsForm (vecMov f) :=
  keepsForm_get (fun _ _ => vecAdd_keepsForm)

theorem vecScalar_keepsForm {i : Instr} {f : FV} {v : W64} : KeepsForm (vecScalar i f v) :=
  keepsForm_get (fun _ _ => addX_keepsForm.bind fun _ => keepsForm_pure _)

theorem xScalar_keepsForm {n : BitVec 5} : KeepsForm (xScalar n) := readField_keepsForm

theorem vecSplat_keepsForm {f : FV} : KeepsForm (vecSplat f) :=
  (keepsForm_ite (keepsForm_pure _) xScalar_keepsForm).bind fun _ => vecScalar_keepsForm

theorem vecPut_keepsForm {f : FV} : KeepsForm (vecPut f) :=
  xScalar_keepsForm.bind fun _ => vecScalar_keepsForm

theorem takeDraws_keepsForm {rs : Bool} {n : Nat} : KeepsForm (takeDraws rs n) :=
  keepsForm_get (fun _ hs => keepsForm_ite ((keepsForm_set (modBank_memInv _ _ _ hs)).bind fun _ => keepsForm_pure _) (keepsForm_pure _))

theorem quantLimits_keepsForm {f : FV} {quant : Bool} : KeepsForm (quantLimits f quant) :=
  keepsForm_get (fun _ _ => need_keepsForm)

theorem vecConvert_keepsForm {i : Instr} {f : FV} {quant : Bool} : KeepsForm (vecConvert i f quant) :=
  keepsForm_get (fun _ _ => need_keepsForm.bind fun _ => takeDraws_keepsForm.bind fun _ => addX_keepsForm.bind fun _ => keepsForm_pure _)

theorem vecRound_keepsForm {i : Instr} {f : FV} : KeepsForm (vecRound i f) :=
  keepsForm_get (fun _ _ => takeDraws_keepsForm.bind fun _ => addX_keepsForm.bind fun _ => keepsForm_pure _)

theorem vecFlag_keepsForm {f : FV} : KeepsForm (vecFlag f) :=
  keepsForm_get (fun _ _ => vecAdd_keepsForm)

theorem rowQueue_keepsForm {n : BitVec 5} : KeepsForm (rowQueue n) :=
  need_keepsForm.bind fun _ => keepsForm_pure _

theorem vecPop_keepsForm {f : FV} : KeepsForm (vecPop f) := by
  unfold vecPop
  refine rowQueue_keepsForm.bind fun v => popOk_keepsForm.bind fun _ => matrixOk_keepsForm.bind fun _ => popRows_keepsForm.bind fun _ =>
      keepsForm_get (fun s _ => ?_)
  extract_lets +onlyGivenNames _
  split
  exact addX_keepsForm.bind fun _ => keepsForm_pure _

theorem vecPush_keepsForm {f : FV} : KeepsForm (vecPush f) :=
  rowQueue_keepsForm.bind fun _ => pushOk_keepsForm.bind fun _ => reserve_keepsForm.bind fun _ => xScalar_keepsForm.bind fun _ =>
      keepsForm_get (fun _ _ => addX_keepsForm.bind fun _ => keepsForm_pure _)

theorem vecGet_keepsForm {f : FV} : KeepsForm (vecGet f) :=
  keepsForm_get (fun _ _ => addX_keepsForm.bind fun _ => keepsForm_pure _)

/-! ## Instructions of the access sequencer -/

theorem sdescOk_keepsForm {d : SDesc} {word : Bool} : KeepsForm (sdescOk d word) :=
  need_keepsForm.bind fun _ => need_keepsForm.bind fun _ => needAt_keepsForm

theorem sdescLimits_keepsForm {f : FQ} : KeepsForm (sdescLimits f) := illegalFirst_keepsForm

theorem execSbind_endsInForm {f : FQ} {s : State} (h : s.memInv) : EndsInForm (execSbind f s) :=
  issueLim_endsInForm h sdescLimits_keepsForm (pushOk_keepsForm.bind fun _ => srcsOk_keepsForm.bind fun _ =>
      flagsOk_keepsForm.bind fun _ => sources_keepsForm.bind fun _ => loadWords_keepsForm.bind fun _ => sdescOk_keepsForm.bind fun _ =>
      keepsForm_get (fun _ _ => placeCmd_keepsForm.bind fun _ => (keepsForm_modify (fun _ hs1 =>
      modBank_memInv _ _ _ hs1)).bind fun _ => keepsForm_pure _))

theorem execSstop_endsInForm {f : FQ} {s : State} (h : s.memInv) : EndsInForm (execSstop f s) := by
  unfold execSstop
  refine issue_endsInForm h ?_
  refine flagsOk_keepsForm.bind fun v => keepsForm_get (fun s1 hs => ?_)
  split
  · exact keepsForm_ite (keepsForm_hold_bind _ _ _) ((keepsForm_set (waitOver_memInv hs)).bind fun _ => keepsForm_pure _)
  · exact placeCmd_keepsForm.bind fun _ => keepsForm_ite (keepsForm_pure _) ((keepsForm_modify (fun _ hs1 =>
        waitFor_memInv hs1)).bind fun _ => keepsForm_pure _)

theorem scalarResultOf_keepsForm {d : BitVec 6} {v : W64} : KeepsForm (execSstat.scalarResultOf d v) :=
  destOf_keepsForm.bind fun _ => pendWrite_keepsForm.bind fun _ => keepsForm_pure _

theorem execSstat_endsInForm {f : FQ} {s : State} (h : s.memInv) : EndsInForm (execSstat f s) :=
  issue_endsInForm h (dstsOk_keepsForm.bind fun _ => keepsForm_get fun _ _ => scalarResultOf_keepsForm)

theorem gdescOk_keepsForm {d : GDesc} {sp list : Bool} : KeepsForm (gdescOk d sp list) :=
  need_keepsForm.bind fun _ => needAt_keepsForm.bind fun _ => needAt_keepsForm.bind fun _ => needAt_keepsForm

theorem readExtent_keepsForm {rec : W64} {j : Nat} : KeepsForm (readExtent rec j) := by
  unfold readExtent
  refine classOk_keepsForm.bind fun _ => needAt_keepsForm.bind fun _ => loadEa_keepsForm.bind fun _ => ?_
  split
  · exact keepsForm_pure _
  · exact loadEa_keepsForm.bind fun _ => keepsForm_pure _

theorem gatherQueue_keepsForm {f : FQ} : KeepsForm (gatherQueue f) :=
  keepsForm_ite (keepsForm_pure _) (need_keepsForm.bind fun _ => pushOk_keepsForm)

theorem gatherLimits_keepsForm {f : FQ} {list : Bool} : KeepsForm (gatherLimits f list) :=
  illegalFirst_keepsForm

theorem gatherPlace_keepsForm {i : Instr} {f : FQ} {kind : CKind} : KeepsForm (gatherPlace i f kind) :=
  keepsForm_get (fun _ _ => placeCmd_keepsForm.bind fun _ => (keepsForm_modify (fun _ hs1 => modBank_memInv _ _ _ hs1)).bind fun _ =>
      keepsForm_pure _)

theorem execGather_endsInForm {f : FQ} {s : State} (h : s.memInv) : EndsInForm (execGather f s) :=
  issueLim_endsInForm h gatherLimits_keepsForm (gatherQueue_keepsForm.bind fun _ => srcsOk_keepsForm.bind fun _ =>
      flagsOk_keepsForm.bind fun _ => sources_keepsForm.bind fun _ => loadWords_keepsForm.bind fun _ => need_keepsForm.bind fun _ =>
      gdescOk_keepsForm.bind fun _ => (keepsForm_ite readExtent_keepsForm (keepsForm_pure _)).bind fun _ => gatherPlace_keepsForm)

theorem execGatherq_endsInForm {f : FQ} {s : State} (h : s.memInv) : EndsInForm (execGatherq f s) :=
  issueLim_endsInForm h gatherLimits_keepsForm (gatherQueue_keepsForm.bind fun _ => srcsOk_keepsForm.bind fun _ =>
      flagsOk_keepsForm.bind fun _ => sources_keepsForm.bind fun _ => loadWords_keepsForm.bind fun _ => gdescOk_keepsForm.bind fun _ =>
      gatherPlace_keepsForm)

theorem copyPlace_keepsForm {i : Instr} {fm : CmdForm} {dst src : W64} {bytes rows : Nat} {sstr dstr : W64} {ws c : Bool}
    {follow : Option (W32 × W32)} : KeepsForm (copyPlace i fm dst src bytes rows sstr dstr ws c follow) :=
  need_keepsForm.bind fun _ => needAt_keepsForm.bind fun _ => needAt_keepsForm.bind fun _ => needAt_keepsForm.bind fun _ =>
      keepsForm_get (fun _ _ => needAt_keepsForm.bind fun _ => placeCmd_keepsForm.bind fun _ => keepsForm_pure _)

theorem copyLimits_keepsForm {f : RRR} : KeepsForm (copyLimits f) := limits_keepsForm

theorem execCopy_endsInForm {f : RRR} {s : State} (h : s.memInv) : EndsInForm (execCopy f s) :=
  issueLim_endsInForm h copyLimits_keepsForm (srcsOk_keepsForm.bind fun _ => flagsOk_keepsForm.bind fun _ =>
      sources_keepsForm.bind fun _ => need_keepsForm.bind fun _ => copyPlace_keepsForm)

theorem execCopyf_endsInForm {f : RRR} {s : State} (h : s.memInv) : EndsInForm (execCopyf f s) :=
  issueLim_endsInForm h limits_keepsForm (srcsOk_keepsForm.bind fun _ => flagsOk_keepsForm.bind fun _ => sources_keepsForm.bind fun _ =>
      need_keepsForm.bind fun _ => copyPlace_keepsForm)

theorem copy2dLimits_keepsForm {f : RRR} : KeepsForm (copy2dLimits f) := illegalFirst_keepsForm

theorem execCopy2d_endsInForm {f : RRR} {s : State} (h : s.memInv) : EndsInForm (execCopy2d f s) :=
  issueLim_endsInForm h copy2dLimits_keepsForm (srcsOk_keepsForm.bind fun _ => flagsOk_keepsForm.bind fun _ =>
      sources_keepsForm.bind fun _ => loadWords_keepsForm.bind fun _ => need_keepsForm.bind fun _ => copyPlace_keepsForm)

theorem wloadLimits_keepsForm {f : RRI} : KeepsForm (wloadLimits f) := illegalFirst_keepsForm

theorem execWload_endsInForm {f : RRI} {s : State} (h : s.memInv) : EndsInForm (execWload f s) := by
  unfold execWload
  refine issueLim_endsInForm h wloadLimits_keepsForm ?_
  refine keepsForm_when interlock_keepsForm ?_
  refine sources_keepsForm.bind fun v => keepsForm_get (fun s1 hs => ?_)
  refine need_keepsForm.bind fun _ => needAt_keepsForm.bind fun _ => keepsForm_ite (keepsForm_hold_bind _ _ _) ?_
  refine needQuiet_keepsForm.bind fun _ => KeepsForm.bind ?_ (fun _ => keepsForm_pure _)
  refine keepsForm_modify (fun _ hs1 => ?_)
  split
  rename_i e
  split
  rename_i e1
  exact modCore_memInv _ _ _ (memInv_of_snd e1 (pushView_memInv (memInv_of_snd e (accept_memInv hs1))))

theorem sources3_keepsForm {f : RRR} : KeepsForm (sources3 f) := by
  unfold sources3
  split <;> exact sources_keepsForm.bind fun _ => keepsForm_pure _

theorem locateRows_pieces_keepsForm (kind : Nat) (ps : List (Nat × Nat)) : KeepsForm (locateRows.pieces kind ps) := by
  induction ps with
  | nil => exact keepsForm_pure _
  | cons p ps ih => exact locate_keepsForm.bind fun _ => ih.bind fun _ => keepsForm_pure _

theorem locateRows_keepsForm {ea : W64} {kind n : Nat} : KeepsForm (locateRows ea kind n) := by
  induction n generalizing ea with
  | zero => exact keepsForm_pure _
  | succ n ih => exact (locateRows_pieces_keepsForm _ _).bind fun _ => ih.bind fun _ => keepsForm_pure _

theorem fillRead_keepsForm {ls : List (Nat × Nat)} : KeepsForm (fillRead ls) := by
  unfold fillRead
  refine keepsForm_get (fun s hs => ?_)
  split
  rename_i e
  exact keepsForm_ite (noteUnc_keepsForm.bind fun _ => keepsForm_pure _) ((keepsForm_set (memInv_of_snd_snd_snd e
      (engPieces_memInv hs))).bind fun _ => keepsForm_pure _)

theorem storeAll_keepsForm {xs : List Todo} : KeepsForm (storeAll xs) := by
  induction xs with
  | nil => exact keepsForm_pure _
  | cons x xs ih =>
    unfold storeAll
    refine keepsForm_get fun s hs => ?_
    extract_lets +onlyGivenNames _ touched
    have htouched : ∀ t : State, t.memInv → (touched t).memInv := fun t ht => foldl_memInv _ _ _ (fun _ _ hu => touch_memInv hu) ht
    refine keepsForm_ite ih (keepsForm_ite (keepsForm_pure _) (keepsForm_ite ?_ (keepsForm_ite ?_ (keepsForm_ite (keepsForm_pure _) ?_))))
    · exact (keepsForm_set (store_memInv (htouched s hs))).bind fun _ => ih
    · exact (keepsForm_set (imprecise_memInv hs)).bind fun _ => keepsForm_pure _
    · exact fillRead_keepsForm.bind fun _ => keepsForm_get fun t ht => (keepsForm_set (store_memInv (htouched t ht))).bind fun _ => ih

theorem storing_keepsForm {checks : Act (List Todo)} {last : Act Unit} (hchecks : KeepsForm checks) (hlast : KeepsForm last) :
    KeepsForm (storing checks last) :=
  keepsForm_get (fun _ _ => (keepsForm_ite (keepsForm_pure _) hchecks).bind fun _ => storeAll_keepsForm.bind fun _ =>
      (keepsForm_modify (fun _ hs1 => modSeq_memInv _ _ _ hs1)).bind fun _ => keepsForm_ite (hlast.bind fun _ =>
      keepsForm_pure _) (keepsForm_pure _))

theorem firstTurn_keepsForm {x : Act Unit} (hx : KeepsForm x) : KeepsForm (firstTurn x) :=
  keepsForm_get (fun _ _ => keepsForm_ite (keepsForm_pure _) hx)

theorem fillLimits_keepsForm {f : RRR} : KeepsForm (fillLimits f) := by
  unfold fillLimits
  split
  · exact need_keepsForm
  · exact limits_keepsForm

theorem fillChecks_keepsForm {f : RRR} : KeepsForm (fillChecks f) := by
  unfold fillChecks
  refine sources3_keepsForm.bind fun _ => ?_
  split
  exact need_keepsForm.bind fun _ => classOk_keepsForm.bind fun _ => needAt_keepsForm.bind fun _ => classOk_keepsForm.bind fun _ =>
      needAt_keepsForm.bind fun _ => locateRows_keepsForm.bind fun _ => locateRows_keepsForm.bind fun _ => watch_keepsForm.bind fun _ =>
      watch_keepsForm.bind fun _ => keepsForm_get (fun s _ => needAt_keepsForm.bind fun _ => needAt_keepsForm.bind fun _ =>
      keepsForm_ite (keepsForm_hold_bind _ _ _) (newRid_keepsForm.bind fun _ => keepsForm_get (fun _ _ => keepsForm_pure _)))

theorem execRcfill_endsInForm {f : RRR} {s : State} (h : s.memInv) : EndsInForm (execRcfill f s) :=
  issueLim_endsInForm h (firstTurn_keepsForm fillLimits_keepsForm) (storing_keepsForm fillChecks_keepsForm (keepsForm_pure _))

theorem execRcclose_endsInForm {f : RRR} {s : State} (h : s.memInv) : EndsInForm (execRcclose f s) := by
  unfold execRcclose
  refine issueLim_endsInForm h limitAB_keepsForm ?_
  refine keepsForm_get (fun s1 hs => ?_)
  refine keepsForm_ite ((keepsForm_set (waitFor_memInv hs)).bind fun _ => keepsForm_pure _) ?_
  refine sourcesAB_keepsForm.bind fun v => ?_
  split
  exact eventRoom_keepsForm.bind fun _ => need_keepsForm.bind fun _ => classOk_keepsForm.bind fun _ => needAt_keepsForm.bind fun _ =>
      locateRows_keepsForm.bind fun _ => (keepsForm_modify (fun _ hs1 => waitOver_memInv (closeRows_memInv hs1))).bind fun _ =>
      keepsForm_pure _

theorem execRcquery_endsInForm {f : RRR} {s : State} (h : s.memInv) : EndsInForm (execRcquery f s) :=
  issue_endsInForm h (sources_keepsForm.bind fun _ => locate_keepsForm.bind fun _ => keepsForm_get (fun _ _ =>
      destOf_keepsForm.bind fun _ => pendWrite_keepsForm.bind fun _ => keepsForm_pure _))

theorem execShload_endsInForm {f : RRR} {s : State} (h : s.memInv) : EndsInForm (execShload f s) := by
  unfold execShload
  refine issue_endsInForm h ?_
  refine sourcesAB_keepsForm.bind fun _ => ?_
  split
  exact readExtent_keepsForm.bind fun _ => destOf_keepsForm.bind fun _ => pendWrite_keepsForm.bind fun _ => keepsForm_pure _

theorem execShext_endsInForm {f : RRR} {s : State} (h : s.memInv) : EndsInForm (execShext f s) := by
  unfold execShext
  refine issue_endsInForm h ?_
  refine sources3_keepsForm.bind fun _ => ?_
  split
  exact classOk_keepsForm.bind fun _ => needAt_keepsForm.bind fun _ => loadEa_keepsForm.bind fun _ => storeEa_keepsForm.bind fun _ =>
      keepsForm_pure _

theorem execLdq_endsInForm {f : FQ} {s : State} (h : s.memInv) : EndsInForm (execLdq f s) :=
  issue_endsInForm h (need_keepsForm.bind fun _ => pushOk_keepsForm.bind fun _ => sources_keepsForm.bind fun _ =>
      reserve_keepsForm.bind fun _ => loadEa_keepsForm.bind fun _ => pendWrite_keepsForm.bind fun _ => keepsForm_pure _)

theorem loadRow_keepsForm {ea : W64} {cons : Bool} {acq : Option Nat} : KeepsForm (loadRow ea cons acq) := by
  unfold loadRow
  refine classOk_keepsForm.bind fun v => needAt_keepsForm.bind fun _ => locateRows_keepsForm.bind fun _ => watch_keepsForm.bind fun _ =>
      keepsForm_get (fun s hs => ?_)
  refine needAt_keepsForm.bind fun _ => keepsForm_ite (keepsForm_hold_bind _ _ _) ?_
  refine keepsForm_ite (keepsForm_pure _) ?_
  split
  rename_i e
  exact (keepsForm_set (memInv_of_snd_snd_snd e (engPieces_memInv hs))).bind fun _ => keepsForm_ite (noteUnc_keepsForm.bind fun _ =>
      keepsForm_pure _) (keepsForm_pure _)

theorem execLdrow_endsInForm {f : FQ} {s : State} (h : s.memInv) : EndsInForm (execLdrow f s) :=
  issue_endsInForm h (need_keepsForm.bind fun _ => pushOk_keepsForm.bind fun _ => sources_keepsForm.bind fun _ =>
      keepsForm_get (fun _ _ => keepsForm_ite (keepsForm_hold_bind _ _ _) (loadRow_keepsForm.bind fun _ =>
      (keepsForm_modify (fun _ hs1 => modQ_memInv hs1)).bind fun _ => keepsForm_pure _)))

theorem execPrefetch_endsInForm {f : RRI} {s : State} (h : s.memInv) : EndsInForm (execPrefetch f s) := by
  unfold execPrefetch
  refine issue_endsInForm h ?_
  refine sources_keepsForm.bind fun v => ?_
  extract_lets +onlyGivenNames rest
  have hrest : ∀ x, KeepsForm (rest x) := fun _ => keepsForm_pure _
  split
  · exact (keepsForm_modify (fun _ hs => translate_memInv hs)).bind fun _ => hrest ()
  · exact hrest ()

theorem lampPlace_keepsForm {kind : LKind} : KeepsForm (lampPlace kind) := by
  unfold lampPlace
  refine keepsForm_get (fun s hs => ?_)
  refine keepsForm_ite (keepsForm_hold_bind _ _ _) ?_
  refine needQuiet_keepsForm.bind fun v => KeepsForm.bind ?_ (fun _ => keepsForm_pure _)
  refine keepsForm_modify (fun s1 hs1 => ?_)
  split
  rename_i e
  split
  rename_i e1
  exact modClu_memInv _ _ _ (modCore_memInv _ _ _ (memInv_of_snd e1 (pushView_memInv (memInv_of_snd e (accept_memInv hs1)))))

theorem boundMap_keepsForm {m : Fin 8} : KeepsForm (boundMap m) := by
  unfold boundMap
  refine keepsForm_get (fun s _ => ?_)
  split
  · exact keepsForm_pure _
  · exact raise_keepsForm _

theorem limits3_keepsForm {f : RRR} {ok : W64 → W64 → W64 → Bool} : KeepsForm (limits3 f ok) := by
  unfold limits3
  split <;> exact limits_keepsForm

theorem execActBind_endsInForm {f : RRR} {s : State} (h : s.memInv) : EndsInForm (execActBind f s) := by
  unfold execActBind
  refine issueLim_endsInForm h limits3_keepsForm ?_
  refine sources3_keepsForm.bind fun _ => ?_
  split
  refine need_keepsForm.bind fun _ => ?_
  split
  · exact needAt_keepsForm.bind fun _ => needAt_keepsForm.bind fun _ => lampPlace_keepsForm
  · exact raiseAt_keepsForm _ _

theorem actRun_keepsForm {f : RRR} : KeepsForm (actRun f) := by
  unfold actRun
  refine sources3_keepsForm.bind fun _ => ?_
  split
  exact need_keepsForm.bind fun _ => boundMap_keepsForm.bind fun _ => need_keepsForm.bind fun _ => keepsForm_pure _

theorem execActMark_endsInForm {f : RRR} {s : State} (h : s.memInv) : EndsInForm (execActMark f s) := by
  unfold execActMark
  refine issueLim_endsInForm h limits3_keepsForm ?_
  refine actRun_keepsForm.bind fun _ => ?_
  split
  exact lampPlace_keepsForm

theorem execActClear_endsInForm {f : RRR} {s : State} (h : s.memInv) : EndsInForm (execActClear f s) := by
  unfold execActClear
  refine issueLim_endsInForm h limits3_keepsForm ?_
  refine actRun_keepsForm.bind fun _ => ?_
  split
  exact lampPlace_keepsForm

theorem execActList_endsInForm {f : RRR} {s : State} (h : s.memInv) : EndsInForm (execActList f s) := by
  unfold execActList
  refine issue_endsInForm h ?_
  refine sources3_keepsForm.bind fun _ => ?_
  split
  exact flagsOk_keepsForm.bind fun _ => needAt_keepsForm.bind fun _ => boundMap_keepsForm.bind fun _ => lampPlace_keepsForm

theorem execActCount_endsInForm {f : RRR} {s : State} (h : s.memInv) : EndsInForm (execActCount f s) := by
  unfold execActCount
  refine issue_endsInForm h ?_
  refine KeepsForm.bind ?_ (fun v => ?_)
  · split
    · exact dstsOk_keepsForm.bind fun _ => keepsForm_pure _
    · exact sources_keepsForm
  · refine keepsForm_get (fun _ hs => ?_)
    extract_lets +onlyGivenNames _
    split
    · exact keepsForm_ite (keepsForm_hold_bind _ _ _) ((keepsForm_set (waitOver_memInv hs)).bind fun _ => destOf_keepsForm.bind fun _ =>
          pendWrite_keepsForm.bind fun _ => keepsForm_pure _)
    · refine boundMap_keepsForm.bind fun _ => needQuiet_keepsForm.bind fun _ => ?_
      extract_lets +onlyGivenNames _ s2
      have hs2 : s2.memInv := modCore_memInv _ _ _ h
      split
      rename_i e1
      exact (keepsForm_set (waitFor_memInv (modClu_memInv _ _ _ (memInv_of_snd e1 (pushView_memInv hs2))))).bind fun _ => keepsForm_pure _

/-! ## The auction -/

theorem aecfgLimits_keepsForm {f : RRR} : KeepsForm (aecfgLimits f) := illegalFirst_keepsForm

theorem execAecfg_endsInForm {f : RRR} {s : State} (h : s.memInv) : EndsInForm (execAecfg f s) :=
  issueLim_endsInForm h aecfgLimits_keepsForm (sources_keepsForm.bind fun _ => loadWords_keepsForm.bind fun _ =>
      need_keepsForm.bind fun _ => (keepsForm_modify (fun _ hs => modBank_memInv _ _ _ hs)).bind fun _ => keepsForm_pure _)

theorem aerunLimits_keepsForm : KeepsForm aerunLimits := keepsForm_get (fun _ _ => need_keepsForm)

theorem execAerun_endsInForm {f : RRR} {s : State} (h : s.memInv) : EndsInForm (execAerun f s) := by
  unfold execAerun
  refine issueLim_endsInForm h aerunLimits_keepsForm ?_
  refine sources_keepsForm.bind fun v => keepsForm_get (fun s1 hs => ?_)
  split
  · exact raise_keepsForm _
  · refine flagsOk_keepsForm.bind fun _ => keepsForm_ite (keepsForm_hold_bind _ _ _) ?_
    refine needQuiet_keepsForm.bind fun _ => destOf_keepsForm.bind fun _ => KeepsForm.bind ?_ (fun _ => pendWrite_keepsForm.bind fun _ =>
        keepsForm_pure _)
    refine keepsForm_modify (fun _ hs1 => ?_)
    split
    rename_i e1
    split
    rename_i e2
    exact modClu_memInv _ _ _ (memInv_of_snd e2 (pushView_memInv (memInv_of_snd e1 (accept_memInv hs1))))

theorem execAeread_endsInForm {f : RRR} {s : State} (h : s.memInv) : EndsInForm (execAeread f s) :=
  issue_endsInForm h (sources_keepsForm.bind fun _ => keepsForm_get (fun _ _ => destOf_keepsForm.bind fun _ =>
      pendWrite_keepsForm.bind fun _ => keepsForm_pure _))

theorem setRun_memInv {s : State} {u : CluId} {r : AERun} (h : s.memInv) : (s.setRun u r).memInv :=
  modClu_memInv _ _ _ h

theorem aeRows_memInv {s : State} {r : AERun} (h : s.memInv) : (s.aeRows r).2.memInv := by
  unfold State.aeRows
  split
  · exact h
  · exact engExtent_memInv h

theorem aeScores_memInv {s : State} {r : AERun} {n : Nat} (h : s.memInv) : (s.aeScores r n).2.memInv := by
  induction n with
  | zero => exact h
  | succ n ih =>
    unfold State.aeScores
    split
    next e => exact memInv_of_snd e ih
    next ps t e =>
      have ht : t.memInv := memInv_of_snd e ih
      split
      next e => exact memInv_of_snd_snd e (engRead_memInv ht)
      next e =>
        have hu := memInv_of_snd_snd e (engRead_memInv ht)
        exact ite_memInv (imprecise_memInv hu) hu
      next e => exact memInv_of_snd_snd e (engRead_memInv ht)

theorem aeInputs_memInv {s : State} {r : AERun} (h : s.memInv) : (s.aeInputs r).2.memInv := by
  unfold State.aeInputs
  split
  · rename_i e
    exact memInv_of_snd_snd e (engRead_memInv h)
  · rename_i e2
    exact memInv_of_snd_snd e2 (engRead_memInv h)
  · rename_i e
    split
    · rename_i e1
      exact memInv_of_snd_snd e1 (engRead_memInv (memInv_of_snd_snd e (engRead_memInv h)))
    · rename_i e3
      exact memInv_of_snd_snd e3 (engRead_memInv (memInv_of_snd_snd e (engRead_memInv h)))
    · rename_i e1
      extract_lets +onlyGivenNames _ _
      split
      · exact memInv_of_snd_snd e1 (engRead_memInv (memInv_of_snd_snd e (engRead_memInv h)))
      · split
        · rename_i e3
          refine memInv_of_snd e3 ?_
          split
          · exact memInv_of_snd_snd e1 (engRead_memInv (memInv_of_snd_snd e (engRead_memInv h)))
          · exact aeScores_memInv (memInv_of_snd_snd e1 (engRead_memInv (memInv_of_snd_snd e (engRead_memInv h))))
        · rename_i e4
          refine memInv_of_snd e4 ?_
          split
          · exact memInv_of_snd_snd e1 (engRead_memInv (memInv_of_snd_snd e (engRead_memInv h)))
          · exact aeScores_memInv (memInv_of_snd_snd e1 (engRead_memInv (memInv_of_snd_snd e (engRead_memInv h))))

theorem aeBegin_memInv {s : State} {u : CluId} {r : AERun} (h : s.memInv) : (s.aeBegin u r).memInv := by
  unfold State.aeBegin
  extract_lets +onlyGivenNames s0
  have hs0 : s0.memInv := h
  split
  · exact h
  · rename_i e
    split
    rename_i e1
    exact setRun_memInv (memInv_of_snd e1 (postFault_memInv (memInv_of_snd e (aeRows_memInv h))))
  · rename_i e
    exact setRun_memInv (memInv_of_snd e (aeRows_memInv h))
  · rename_i e
    refine ite_memInv (setRun_memInv (memInv_of_snd e (aeRows_memInv h))) ?_
    refine ite_memInv (setRun_memInv (memInv_of_snd e (aeRows_memInv h))) ?_
    split
    · rename_i e1
      exact setRun_memInv (memInv_of_snd e1 (aeInputs_memInv (memInv_of_snd e (aeRows_memInv h))))
    · exact hs0

theorem execAeRunStart_endsInForm {u : CluId} {s : State} (h : s.memInv) : EndsInForm (execAeRunStart u s) := by
  unfold execAeRunStart
  extract_lets +onlyGivenNames _
  split
  · exact endsInForm_ite (endsInForm_next h) (endsInForm_next (aeBegin_memInv h))
  · exact endsInForm_next h
  · exact endsInForm_next (aeBegin_memInv (engStart_memInv (modClu_memInv _ _ _ h)))

theorem aeWrite_memInv {s : State} {r : AERun} {off : Nat} {ws : List W32} (h : s.memInv) : (s.aeWrite r off ws).memInv := by
  unfold State.aeWrite
  refine foldl_memInv _ _ _ (fun _ x hs => ?_) h
  split
  · rename_i e
    exact imprecise_memInv (memInv_of_snd e (engWrite_memInv hs))
  · rename_i e1
    exact memInv_of_snd e1 (engWrite_memInv hs)

theorem aeStatus_memInv {s : State} {u : CluId} {r : AERun} {w : W64} (h : s.memInv) : (s.aeStatus u r w).memInv :=
  modClu_memInv _ _ _ h

theorem execAeRunComplete_endsInForm {u : CluId} {s : State} (h : s.memInv) : EndsInForm (execAeRunComplete u s) := by
  unfold execAeRunComplete
  split
  · exact endsInForm_next h
  · refine endsInForm_ite (endsInForm_next h) ?_
    split
    · exact endsInForm_next (aeStatus_memInv (engEnd_memInv h))
    · exact endsInForm_ite (endsInForm_next h) (endsInForm_next (engDone_memInv (aeStatus_memInv h)))
    · exact endsInForm_ite (endsInForm_next (engDone_memInv (aeStatus_memInv h))) (endsInForm_next (setRun_memInv (ite_memInv
          (aeWrite_memInv (aeWrite_memInv h)) (count_memInv _ _ _ _ (aeWrite_memInv (aeWrite_memInv h))))))

/-! ## The copy engine -/

theorem modRun_memInv {s : State} {c : CoreId} {id : Nat} {f : Run → Run} (h : s.memInv) : (s.modRun c id f).memInv :=
  modCore_memInv _ _ _ h

theorem dropRun_memInv {s : State} {c : CoreId} {id : Nat} (h : s.memInv) : (s.dropRun c id).memInv :=
  modCore_memInv _ _ _ h

theorem runFault_memInv {s : State} {r : Run} {va pf : W64} {pos : Nat} (h : s.memInv) : (s.runFault r va pf pos).memInv := by
  unfold State.runFault
  split
  rename_i e
  exact modRun_memInv (memInv_of_snd e (postFault_memInv h))

theorem runDone_memInv {s : State} {r : Run} (h : s.memInv) : (s.runDone r).memInv :=
  dropRun_memInv (engDone_memInv h)

theorem modStream_memInv {s : State} {w : Who} {k : Fin 8} {f : StreamSt → StreamSt} (h : s.memInv) : (s.modStream w k f).memInv :=
  ite_memInv (modBank_memInv _ _ _ h) h

theorem cmdFail_memInv {s : State} {c : ECmd} {cause : Byte} {va : W64} (h : s.memInv) : (s.cmdFail c cause va).memInv := by
  unfold State.cmdFail
  refine engEnd_memInv ?_
  split
  · exact modStream_memInv h
  · exact h

theorem runEnd_memInv {s : State} {r : Run} {cause : Byte} {va : W64} (h : s.memInv) : (s.runEnd r cause va).memInv :=
  dropRun_memInv (cmdFail_memInv h)

theorem stopStream_memInv {s : State} {w : Who} {k : Fin 8} (h : s.memInv) : (s.stopStream w k).memInv := by
  unfold State.stopStream
  split
  · exact h
  · exact runDone_memInv (modStream_memInv h)

theorem execCopyEngineStart_endsInForm {c : CoreId} {s : State} (h : s.memInv) : EndsInForm (execCopyEngineStart c s) := by
  unfold execCopyEngineStart
  split
  · exact endsInForm_next h
  · refine endsInForm_ite (endsInForm_next h) ?_
    refine endsInForm_ite (endsInForm_next (cmdFail_memInv (modCore_memInv _ _ _ h))) ?_
    extract_lets +onlyGivenNames s1
    have hs1 : s1.memInv := engStart_memInv (modCore_memInv _ _ _ h)
    split
    · exact endsInForm_next (stopStream_memInv hs1)
    · exact endsInForm_next (modCore_memInv _ _ _ (modStream_memInv (stopStream_memInv hs1)))
    · exact endsInForm_next (modCore_memInv _ _ _ hs1)

theorem rowCause_memInv {s : State} {r : Run} {cause : Byte} {va : W64} (h : s.memInv) : (s.rowCause r cause va).memInv :=
  ite_memInv (imprecise_memInv h) h

theorem pushHeld_memInv {s : State} {w : Who} {q : Fin 16} {h : Held} (hm : s.memInv) : (s.pushHeld w q h).memInv := by
  unfold State.pushHeld
  split
  · exact modQ_memInv hm
  · exact count_memInv _ _ _ _ (modQ_memInv hm)
  · exact hm

theorem resolve_memInv {s : State} {g : Eng} {d : SDesc} {is : List (Fin 4)} (h : s.memInv) : (s.resolve g d is).2.memInv := by
  induction is generalizing s with
  | nil => exact h
  | cons i is ih =>
    unfold State.resolve
    split
    · split <;> next e => exact memInv_of_snd e (ih h)
    · split
      next e => exact memInv_of_snd e (engExtent_memInv h)
      next e =>
        have ht := memInv_of_snd e (engExtent_memInv h)
        split <;> next e => exact memInv_of_snd e (ih ht)

theorem streamRead_memInv {s : State} {r : Run} {q : Fin 16} {cons : Bool} {d : SDesc} (h : s.memInv) :
    (s.streamRead r q cons d).memInv := by
  unfold State.streamRead
  extract_lets +onlyGivenNames _ _ _ keep
  have hkeep : ∀ (s : State) (bs : Option (List Byte)), s.memInv → (keep s bs).memInv := fun _ _ hs => modRun_memInv hs
  split
  · rename_i e
    exact hkeep _ _ (memInv_of_snd_snd e (engRead_memInv h))
  · rename_i e
    exact memInv_of_snd_snd e (engRead_memInv h)
  · rename_i e
    exact ite_memInv (runFault_memInv (memInv_of_snd_snd e (engRead_memInv h))) (hkeep _ _ (memInv_of_snd_snd e (engRead_memInv h)))
  · rename_i e
    exact hkeep _ _ (rowCause_memInv (memInv_of_snd_snd e (engRead_memInv h)))

theorem streamPush_memInv {s : State} {r : Run} {k : Fin 8} {q : Fin 16} (h : s.memInv) : (s.streamPush r k q).memInv := by
  unfold State.streamPush
  split
  · exact h
  · exact ite_memInv (modRun_memInv h) (ite_memInv (runEnd_memInv (modRun_memInv h)) (modStream_memInv (pushHeld_memInv
        (modRun_memInv h))))

theorem streamStep_memInv {s : State} {r : Run} {k : Fin 8} {q : Fin 16} {cons : Bool} {d : SDesc} (h : s.memInv) :
    (s.streamStep r k q cons d).memInv := by
  unfold State.streamStep
  refine ite_memInv h ?_
  refine ite_memInv ?_ ?_
  · refine ite_memInv h ?_
    split
    · rename_i e
      exact modRun_memInv (memInv_of_snd e (resolve_memInv h))
    · rename_i e
      exact memInv_of_snd e (resolve_memInv h)
    · rename_i e
      exact runFault_memInv (memInv_of_snd e (resolve_memInv h))
    · rename_i e
      exact runEnd_memInv (memInv_of_snd e (resolve_memInv h))
  · refine ite_memInv (runDone_memInv (modStream_memInv h)) ?_
    split
    rename_i e
    refine ite_memInv ?_ ?_
    · refine streamRead_memInv ?_
      refine memInv_of_snd e ?_
      split
      · exact choose_memInv _ _ h
      · exact h
    · refine ite_memInv ?_ ?_
      · refine streamPush_memInv ?_
        refine memInv_of_snd e ?_
        split
        · exact choose_memInv _ _ h
        · exact h
      · refine memInv_of_snd e ?_
        split
        · exact choose_memInv _ _ h
        · exact h

theorem execStreamElementPush_endsInForm {c : CoreId} {k : Fin 8} {s : State} (h : s.memInv) : EndsInForm
    (execStreamElementPush c k s) := by
  unfold execStreamElementPush
  extract_lets +onlyGivenNames _
  split
  rename_i e
  split
  · exact endsInForm_next (memInv_of_snd e (choose_memInv _ _ h))
  · refine endsInForm_ite (endsInForm_next (runEnd_memInv (memInv_of_snd e (choose_memInv _ _ h)))) ?_
    split
    · exact endsInForm_next (streamStep_memInv (memInv_of_snd e (choose_memInv _ _ h)))
    · exact endsInForm_next (memInv_of_snd e (choose_memInv _ _ h))

theorem gatherCount_memInv {s : State} {c : ECmd} {tag : W32} {pois oor rows : Bool} (h : s.memInv) :
    (s.gatherCount c tag pois oor rows).memInv :=
  ite_memInv h (modBank_memInv _ _ _ h)

theorem writeSlot_memInv {s : State} {r : Run} {d : GDesc} {h : Held} (hm : s.memInv) : (s.writeSlot r d h).memInv := by
  unfold State.writeSlot
  extract_lets +onlyGivenNames _
  split
  · refine ite_memInv (gatherCount_memInv hm) ?_
    extract_lets +onlyGivenNames _
    split
    · rename_i e1
      exact count_memInv _ _ _ _ (gatherCount_memInv (memInv_of_snd e1 (engWrite_memInv hm)))
    · rename_i e1
      exact gatherCount_memInv (rowCause_memInv (memInv_of_snd e1 (engWrite_memInv hm)))
    · rename_i e2
      exact memInv_of_snd e2 (engWrite_memInv hm)
  · exact hm

theorem gathered_memInv {s : State} {r : Run} {d : GDesc} {sp : Bool} {pos : Nat} {h : Held} (hm : s.memInv) :
    (s.gathered r d sp pos h).memInv :=
  ite_memInv (writeSlot_memInv (modRun_memInv hm)) (modRun_memInv hm)

theorem gatherRow_memInv {s : State} {r : Run} {d : GDesc} {sp cons : Bool} {pos x : Nat} {tag : W32} (h : s.memInv) :
    (s.gatherRow r d sp cons pos x tag).memInv := by
  unfold State.gatherRow
  refine ite_memInv (gathered_memInv h) ?_
  split
  · rename_i e
    exact gathered_memInv (memInv_of_snd_snd e (engRead_memInv h))
  · rename_i e
    exact memInv_of_snd_snd e (engRead_memInv h)
  · rename_i e
    exact ite_memInv (runFault_memInv (memInv_of_snd_snd e (engRead_memInv h))) (gathered_memInv (memInv_of_snd_snd e (engRead_memInv h)))
  · rename_i e
    exact gathered_memInv (rowCause_memInv (memInv_of_snd_snd e (engRead_memInv h)))

theorem gatherEntry_memInv {s : State} {r : Run} {d : GDesc} {sp cons : Bool} {pos : Nat} (h : s.memInv) :
    (s.gatherEntry r d sp cons pos).memInv := by
  unfold State.gatherEntry
  extract_lets +onlyGivenNames _
  split
  · rename_i e
    exact gatherRow_memInv (memInv_of_snd_snd e (engRead_memInv h))
  · rename_i e
    exact memInv_of_snd_snd e (engRead_memInv h)
  · rename_i e
    exact ite_memInv (runFault_memInv (memInv_of_snd_snd e (engRead_memInv h))) (gathered_memInv (memInv_of_snd_snd e (engRead_memInv h)))
  · rename_i e
    exact gathered_memInv (rowCause_memInv (memInv_of_snd_snd e (engRead_memInv h)))

theorem gatherPush_memInv {s : State} {r : Run} {q : Fin 16} (h : s.memInv) : (s.gatherPush r q).memInv := by
  unfold State.gatherPush
  split
  · exact h
  · exact ite_memInv h (ite_memInv (modRun_memInv h) (ite_memInv (runEnd_memInv (modRun_memInv h)) (gatherCount_memInv (pushHeld_memInv
        (modRun_memInv h)))))

theorem gatherDone_memInv {s : State} {r : Run} (h : s.memInv) : (s.gatherDone r).memInv :=
  runDone_memInv (ite_memInv (modBank_memInv _ _ _ h) h)

theorem gatherStep_memInv {s : State} {r : Run} {pos : Nat} {q : Fin 16} {sp : Bool} {read : State → State} (h : s.memInv)
    (hread : ∀ t, t.memInv → (read t).memInv) : (s.gatherStep r pos q sp read).memInv :=
  ite_memInv h (ite_memInv (hread _ h) (ite_memInv (gatherPush_memInv h) (ite_memInv (gatherDone_memInv h) h)))

theorem execGatherRowDeliver_endsInForm {c : CoreId} {id pos : Nat} {s : State} (h : s.memInv) : EndsInForm
    (execGatherRowDeliver c id pos s) := by
  unfold execGatherRowDeliver
  split
  · exact endsInForm_next h
  · refine endsInForm_ite (endsInForm_next (runEnd_memInv h)) ?_
    split
    · exact endsInForm_next (gatherStep_memInv h (fun a hs => gatherEntry_memInv hs))
    · exact endsInForm_next (gatherStep_memInv h (fun a hs => gatherRow_memInv hs))
    · exact endsInForm_next h

theorem sendMsg_memInv {s : State} {src dst : Nat} {core : CoreId} {eng id : Nat} (h : s.memInv) :
    (s.sendMsg src dst core eng id).memInv :=
  h

theorem awaitHomes_memInv {s : State} {w : Who} {a : Nat} {ref : CmdRef} {far sent got : List Nat} {put : State → Nat → State}
    {done : State → State} (h : s.memInv) (hput : ∀ t d, t.memInv → (put t d).memInv) (hdone : ∀ t, t.memInv → (done t).memInv) :
    (s.awaitHomes w a ref far sent got put done).memInv := by
  unfold State.awaitHomes
  split
  · exact hput _ _ (sendMsg_memInv h)
  · exact ite_memInv h (hdone _ h)

theorem runHomes_memInv {s : State} {r : Run} {eng : Nat} {put : State → (Run → Run) → State} {done : State → State} (h : s.memInv)
    (hput : ∀ t d, t.memInv → (put t d).memInv) (hdone : ∀ t, t.memInv → (done t).memInv) : (s.runHomes r eng put done).memInv :=
  awaitHomes_memInv h (fun t _ => hput t _) hdone

theorem copyWrite_memInv {s : State} {r : Run} {ws : Bool} {va : W64} {bs : List Byte} (h : s.memInv) :
    (s.copyWrite r ws va bs).2.memInv := by
  unfold State.copyWrite
  split
  · exact foldl_memInv _ _ _ (fun _ _ hs => engStore_memInv hs) h
  · exact engWrite_memInv h

theorem copyWord_memInv {s : State} {r : Run} {i : Nat} {dst src : W64} {bytes : Nat} {sstr dstr : W64} {ws cons : Bool} (h : s.memInv) :
    (s.copyWord r i dst src bytes sstr dstr ws cons).memInv := by
  unfold State.copyWord
  extract_lets +onlyGivenNames _ _
  split
  · rename_i e
    exact memInv_of_snd_snd e (engRead_memInv h)
  · rename_i e
    exact runFault_memInv (memInv_of_snd_snd e (engRead_memInv h))
  · rename_i e
    exact runEnd_memInv (memInv_of_snd_snd e (engRead_memInv h))
  · rename_i e
    extract_lets +onlyGivenNames s1
    have hs1 : s1.memInv := modRun_memInv (memInv_of_snd_snd e (engRead_memInv h))
    split
    · rename_i e1
      exact memInv_of_snd e1 (copyWrite_memInv hs1)
    · rename_i e1
      exact runFault_memInv (memInv_of_snd e1 (copyWrite_memInv hs1))
    · rename_i e1
      exact runEnd_memInv (memInv_of_snd e1 (copyWrite_memInv hs1))
    · rename_i e1
      exact modRun_memInv (memInv_of_snd e1 (copyWrite_memInv hs1))

theorem releaseParked_memInv {s : State} {c : CoreId} (h : s.memInv) : (s.releaseParked c).memInv :=
  ite_memInv h (foldl_memInv _ _ _ (fun _ _ hs => ite_memInv (enterCmd_memInv hs) (modCore_memInv _ _ _ hs)) (modCore_memInv _ _ _ h))

/-! ## Matrix instructions -/

theorem matrixEnter_memInv {s : State} {w : Who} {i : Instr} {k : MKind} (h : s.memInv) : (s.matrixEnter w i k).memInv := by
  unfold State.matrixEnter
  split
  rename_i e
  split
  rename_i e1
  exact modCore_memInv _ _ _ (memInv_of_snd e1 (pushView_memInv (memInv_of_snd e (accept_memInv h))))

theorem matrixPlace_keepsForm {i : Instr} {k : MKind} : KeepsForm (matrixPlace i k) :=
  keepsForm_get (fun _ _ => keepsForm_ite (keepsForm_hold_bind _ _ _) (needQuiet_keepsForm.bind fun _ =>
      (keepsForm_modify (fun _ hs1 => matrixEnter_memInv hs1)).bind fun _ => keepsForm_pure _))

theorem opLimits_keepsForm {rank : Bool} {f : FM} : KeepsForm (opLimits rank f) :=
  keepsForm_get (fun _ _ => need_keepsForm)

theorem matrixOp_keepsForm {rank : Bool} {f : FM} : KeepsForm (matrixOp rank f) :=
  keepsForm_get (fun _ _ => need_keepsForm.bind fun _ => need_keepsForm.bind fun _ => matrixPlace_keepsForm)

theorem matrixClose_memInv {s : State} {w : Who} {z : Fin 8} (h : s.memInv) : (s.matrixClose w z).memInv := by
  unfold State.matrixClose
  extract_lets +onlyGivenNames _
  split
  · exact modCore_memInv _ _ _ h
  · exact modCore_memInv _ _ _ h
  · exact h

theorem zIdle_keepsForm {z : Fin 8} : KeepsForm (zIdle z) :=
  keepsForm_get (fun _ _ => keepsForm_ite (hold_keepsForm _ _ _) (keepsForm_pure _))

theorem execMwait_endsInForm {f : FM} {s : State} (h : s.memInv) : EndsInForm (execMwait f s) :=
  issue_endsInForm h (keepsForm_get (fun _ _ => keepsForm_ite (keepsForm_ite (keepsForm_hold_bind _ _ _) (keepsForm_pure _))
      (zIdle_keepsForm.bind fun _ => keepsForm_pure _)))

theorem execMread_endsInForm {f : FM} {s : State} (h : s.memInv) : EndsInForm (execMread f s) :=
  issue_endsInForm h (zIdle_keepsForm.bind fun _ => takeDraws_keepsForm.bind fun _ => keepsForm_get (fun _ hs =>
      keepsForm_when (keepsForm_set (modBank_memInv _ _ _ hs)) (addX_keepsForm.bind fun _ => keepsForm_pure _)))

theorem execMstat_endsInForm {f : FM} {s : State} (h : s.memInv) : EndsInForm (execMstat f s) :=
  issue_endsInForm h (zIdle_keepsForm.bind fun _ => keepsForm_get (fun _ _ => addX_keepsForm.bind fun _ => keepsForm_pure _))

theorem execFmtw_endsInForm {f : RRR} {s : State} (h : s.memInv) : EndsInForm (execFmtw f s) := by
  unfold execFmtw
  refine issueLim_endsInForm h limitAB_keepsForm ?_
  refine sourcesAB_keepsForm.bind fun v => ?_
  split
  exact need_keepsForm.bind fun _ => (keepsForm_modify (fun _ hs => modBank_memInv _ _ _ hs)).bind fun _ =>
      retain_keepsForm.bind fun _ => keepsForm_pure _

/-! ## Parity -/

theorem latency_memInv {r : Ret} {s : State} (h : s.memInv) : (r.latency s).2.memInv := by
  unfold Ret.latency
  split
  · split
    rename_i e1
    exact memInv_of_snd e1 (choose_memInv _ _ h)
  · exact h

theorem queueError_memInv {s : State} {w : Who} {n : Fin 16} (h : s.memInv) : (s.queueError w n).memInv := by
  unfold State.queueError
  split
  · exact h
  · exact notes_memInv (modQ_memInv h)

theorem execParityRepair_endsInForm {c : CoreId} {b : BankId} {q : SeqId} {file index : Nat} {captureOk : Bool} {s : State}
    (h : s.memInv) : EndsInForm (execParityRepair c b q file index captureOk s) := by
  unfold execParityRepair
  extract_lets +onlyGivenNames w
  split
  · refine endsInForm_ite (endsInForm_ite (endsInForm_next h) (endsInForm_next (queueError_memInv h))) ?_
    refine endsInForm_ite (endsInForm_next h) ?_
    split
    · split
      rename_i e2
      exact endsInForm_next (modBank_memInv _ _ _ (modSeq_memInv _ _ _ (memInv_of_snd e2 (latency_memInv h))))
    · exact endsInForm_ite (endsInForm_next h) (endsInForm_next (trapped_memInv (memInv_of_parts (s := s.consumed w 0 (↑c) 0)
          (consumed_memInv h) rfl rfl rfl)))
  · exact endsInForm_next h

end Sys2Proof.Machine
end

section
/-! PROOFS. The canonical form of memory across the store sequencer, the remote port, the homes and the scheduler (log 2). -/
namespace Sys2Proof.Machine

/-! ## Instructions of the store sequencer -/

theorem sideRow_keepsForm {f : FQ} {srcs : List (BitVec 6)} : KeepsForm (sideRow f srcs) :=
  need_keepsForm.bind fun _ => popOk_keepsForm.bind fun _ => srcsOk_keepsForm.bind fun _ => popRows_keepsForm.bind fun _ =>
      keepsForm_pure _

theorem sideLocate_keepsForm {ea : W64} {n kind : Nat} : KeepsForm (sideLocate ea n kind) :=
  locateRows_pieces_keepsForm _ _

theorem sideChecks_keepsForm {ea : W64} {n : Nat} {ls : List (Nat × Nat)} : KeepsForm (sideChecks ea n ls) :=
  watch_keepsForm.bind fun _ => keepsForm_get (fun _ _ => needAt_keepsForm.bind fun _ =>
      keepsForm_ite (hold_keepsForm _ _ _) (keepsForm_pure _))

theorem sideRelease_keepsForm {rel : Option Nat} : KeepsForm (sideRelease rel) := by
  unfold sideRelease
  split
  · exact keepsForm_modify (fun s hs => addIval_memInv hs)
  · exact keepsForm_pure _

theorem sideStores_keepsForm {f : FQ} {checks : Act (List Todo)} (hchecks : KeepsForm checks) : KeepsForm (sideStores f checks) :=
  flushFirst_keepsForm (storing_keepsForm hchecks sideRelease_keepsForm)

theorem execStrow_endsInForm {f : FQ} {s : State} (h : s.memInv) : EndsInForm (execStrow f s) :=
  issue_endsInForm h (sideStores_keepsForm (sideRow_keepsForm.bind fun _ => sources_keepsForm.bind fun _ =>
      classOk_keepsForm.bind fun _ => needAt_keepsForm.bind fun _ => sideLocate_keepsForm.bind fun _ =>
      sideChecks_keepsForm.bind fun _ => keepsForm_get (fun _ _ => keepsForm_pure _)))

theorem popWords_keepsForm {q : Fin 16} {n : Nat} : KeepsForm (popWords q n) :=
  popRows_keepsForm.bind fun _ => keepsForm_pure _

theorem locateWords_keepsForm {ea : W64} {n : Nat} : KeepsForm (locateWords ea n) := by
  induction n with
  | zero => exact keepsForm_pure _
  | succ n ih => exact ih.bind fun _ => locate_keepsForm.bind fun _ => keepsForm_pure _

theorem execStword_endsInForm {f : FQ} {s : State} (h : s.memInv) : EndsInForm (execStword f s) :=
  issue_endsInForm h (sideStores_keepsForm (need_keepsForm.bind fun _ => popOk_keepsForm.bind fun _ => srcsOk_keepsForm.bind fun _ =>
      popWords_keepsForm.bind fun _ => sources_keepsForm.bind fun _ => locateWords_keepsForm.bind fun _ =>
      sideChecks_keepsForm.bind fun _ => keepsForm_get (fun _ _ => keepsForm_pure _)))

theorem readIndex_keepsForm {ea : W64} : KeepsForm (readIndex ea) :=
  locate_keepsForm.bind fun _ => watch_keepsForm.bind fun _ => keepsForm_get (fun _ _ => keepsForm_ite (raceCheck_keepsForm.bind fun _ =>
      needAt_keepsForm.bind fun _ => noteUnc_keepsForm.bind fun _ => keepsForm_pure _) (loadAt_keepsForm.bind fun _ => keepsForm_pure _))

theorem readIndices_keepsForm {ea : W64} {n : Nat} : KeepsForm (readIndices ea n) := by
  induction n with
  | zero => exact keepsForm_pure _
  | succ n ih => exact ih.bind fun _ => readIndex_keepsForm.bind fun _ => keepsForm_pure _

theorem scatterPlan_keepsForm {a : W64} {el k : Nat} {xs : List (Option Nat)} : KeepsForm (scatterPlan a el xs k) := by
  induction xs generalizing k with
  | nil => exact keepsForm_pure _
  | cons x xs ih =>
    unfold scatterPlan
    split
    · exact ih
    · exact locate_keepsForm.bind fun _ => ih.bind fun _ => keepsForm_pure _

theorem scatterChecks_keepsForm {el : Nat} {xs : List (Nat × W64 × Nat)} : KeepsForm (scatterChecks el xs) := by
  induction xs with
  | nil => exact keepsForm_pure _
  | cons x xs ih => exact sideChecks_keepsForm.bind fun _ => ih

theorem execScatter_endsInForm {f : FQ} {s : State} (h : s.memInv) : EndsInForm (execScatter f s) :=
  issue_endsInForm h (sideStores_keepsForm (sideRow_keepsForm.bind fun _ => sources_keepsForm.bind fun _ =>
      needAt_keepsForm.bind fun _ => readIndices_keepsForm.bind fun _ => scatterPlan_keepsForm.bind fun _ =>
      scatterChecks_keepsForm.bind fun _ => keepsForm_get (fun _ _ => keepsForm_pure _)))

theorem execStrc_endsInForm {f : FQ} {s : State} (h : s.memInv) : EndsInForm (execStrc f s) :=
  issue_endsInForm h (sideStores_keepsForm (sideRow_keepsForm.bind fun _ => sources_keepsForm.bind fun _ =>
      classOk_keepsForm.bind fun _ => needAt_keepsForm.bind fun _ => sideLocate_keepsForm.bind fun _ =>
      sideChecks_keepsForm.bind fun _ => newRid_keepsForm.bind fun _ => keepsForm_get (fun _ _ => keepsForm_pure _)))

theorem rowMerge_memInv {s : State} {w : Who} {ctx : BitVec 12} {node : BitVec 16} {addr n : Nat} {p : Payload} (h : s.memInv) :
    (s.rowMerge w ctx node addr n p).memInv := by
  unfold State.rowMerge
  split
  rename_i e
  extract_lets +onlyGivenNames _ _ _ _ _ i
  split
  rename_i e1
  split
  · refine ite_memInv ?_ ?_
    · refine sendBuf_memInv ?_
      refine memInv_of_snd e1 ?_
      clear_value i
      split
      · exact modCore_memInv _ _ _ (memInv_of_snd e (accept_memInv h))
      · exact modCore_memInv _ _ _ (ite_memInv (sendBuf_memInv (memInv_of_snd e (accept_memInv h))) (memInv_of_snd e (accept_memInv h)))
    · refine memInv_of_snd e1 ?_
      clear_value i
      split
      · exact modCore_memInv _ _ _ (memInv_of_snd e (accept_memInv h))
      · exact modCore_memInv _ _ _ (ite_memInv (sendBuf_memInv (memInv_of_snd e (accept_memInv h))) (memInv_of_snd e (accept_memInv h)))
  · refine memInv_of_snd e1 ?_
    clear_value i
    split
    · exact modCore_memInv _ _ _ (memInv_of_snd e (accept_memInv h))
    · exact modCore_memInv _ _ _ (ite_memInv (sendBuf_memInv (memInv_of_snd e (accept_memInv h))) (memInv_of_snd e (accept_memInv h)))

theorem portReq_memInv {s : State} {w : Who} {r : Req} (h : s.memInv) : (s.portReq w r).memInv := by
  unfold State.portReq
  split
  rename_i e
  exact ite_memInv (addIval_memInv (modCore_memInv _ _ _ (addReq_memInv (memInv_of_snd e (accept_memInv h))))) (modCore_memInv _ _ _
      (addReq_memInv (memInv_of_snd e (accept_memInv h))))

theorem headWord_memInv {s : State} {a k : Nat} (h : s.memInv) : (s.headWord a k).2.memInv := by
  unfold State.headWord
  extract_lets +onlyGivenNames flip
  clear_value flip
  split
  · extract_lets +onlyGivenNames _
    split
    · exact modAgent_memInv _ _ _ h
    · exact modAgent_memInv _ _ _ (takeWords_memInv h)
  · exact takeWords_memInv h

theorem tableWord_keepsForm {va : W64} {acq : Bool} : KeepsForm (tableWord va acq) := by
  unfold tableWord
  refine translate_keepsForm.bind fun v => keepsForm_get (fun s hs => ?_)
  refine keepsForm_ite (keepsForm_hold_bind _ _ _) ?_
  refine keepsForm_ite (noteUnc_keepsForm.bind fun _ => keepsForm_pure _) ?_
  split
  rename_i e
  refine KeepsForm.bind ?_ (fun _ => keepsForm_pure _)
  refine keepsForm_set ?_
  refine memInv_of_snd e ?_
  split
  · exact headWord_memInv hs
  · exact load_memInv _ _ _ _ _ hs

theorem resolveExpert_keepsForm {e slot : Nat} : KeepsForm (resolveExpert e slot) := by
  unfold resolveExpert
  refine keepsForm_get (fun s _ => ?_)
  split
  · exact raise_keepsForm _
  · exact tableWord_keepsForm.bind fun _ => need_keepsForm.bind fun _ => tableWord_keepsForm.bind fun _ => need_keepsForm.bind fun _ =>
        tableWord_keepsForm.bind fun _ => tableWord_keepsForm.bind fun _ => keepsForm_pure _

theorem portRoom_keepsForm {n : Nat} : KeepsForm (portRoom n) :=
  keepsForm_get (fun _ _ => keepsForm_ite (hold_keepsForm _ _ _) (keepsForm_pure _))

theorem rowSend_keepsForm {s0 : State} {node : BitVec 16} {a : W64} {n : Nat} {p : Payload} {rel : Option Nat} (h0 : s0.memInv) :
    KeepsForm (rowSend s0 node a n p rel) := by
  unfold rowSend
  refine keepsForm_when classOk_keepsForm (needAt_keepsForm.bind fun _ => ?_)
  refine (keepsForm_ite locate_keepsForm (keepsForm_pure _)).bind fun _ => ?_
  extract_lets _ r
  refine keepsForm_get fun s hs => ?_
  clear_value r
  split
  · exact portRoom_keepsForm.bind fun _ => (keepsForm_set (rowMerge_memInv hs)).bind fun _ => keepsForm_pure _
  · refine keepsForm_ite ((keepsForm_set (flushPort_memInv h0)).bind fun _ => keepsForm_pure _) ?_
    exact portRoom_keepsForm.bind fun _ => (keepsForm_set (portReq_memInv hs)).bind fun _ => keepsForm_pure _

theorem execRstore_endsInForm {f : FQ} {s : State} (h : s.memInv) : EndsInForm (execRstore f s) := by
  unfold execRstore
  refine issue_endsInForm h ?_
  refine keepsForm_get (fun _ hs => ?_)
  refine sideRow_keepsForm.bind fun v => sources_keepsForm.bind fun _ => keepsForm_ite ?_ (rowSend_keepsForm hs)
  refine resolveExpert_keepsForm.bind fun _ => ?_
  split
  exact rowSend_keepsForm hs

theorem execRatom_endsInForm {f : FQ} {s : State} (h : s.memInv) : EndsInForm (execRatom f s) := by
  unfold execRatom
  refine issue_endsInForm h (flushFirst_keepsForm ?_)
  extract_lets nr _ _ _ rest
  have hrest : ∀ x, KeepsForm (rest x) := by
    intro x
    refine sources_keepsForm.bind fun _ => portRoom_keepsForm.bind fun _ => keepsForm_when classOk_keepsForm ?_
    refine needAt_keepsForm.bind fun _ => (keepsForm_ite locate_keepsForm (keepsForm_pure _)).bind fun _ => ?_
    refine (keepsForm_ite (keepsForm_pure _) reserve_keepsForm).bind fun _ => keepsForm_get fun t ht => ?_
    exact (keepsForm_set (portReq_memInv ht)).bind fun _ => keepsForm_pure _
  exact keepsForm_ite (need_keepsForm.bind fun _ => pushOk_keepsForm.bind fun _ => hrest ()) (hrest ())

theorem execObind_endsInForm {f : FQ} {s : State} (h : s.memInv) : EndsInForm (execObind f s) :=
  issueLim_endsInForm h sdescLimits_keepsForm (popOk_keepsForm.bind fun _ => srcsOk_keepsForm.bind fun _ =>
      flagsOk_keepsForm.bind fun _ => sources_keepsForm.bind fun _ => loadWords_keepsForm.bind fun _ => sdescOk_keepsForm.bind fun _ =>
      keepsForm_get (fun _ _ => placeCmd_keepsForm.bind fun _ => (keepsForm_modify (fun _ hs1 =>
      modBank_memInv _ _ _ hs1)).bind fun _ => keepsForm_pure _))

theorem execOstop_endsInForm {f : FQ} {s : State} (h : s.memInv) : EndsInForm (execOstop f s) := by
  unfold execOstop
  refine issue_endsInForm h ?_
  refine flagsOk_keepsForm.bind fun v => keepsForm_get (fun s1 hs => ?_)
  split
  · exact keepsForm_ite (keepsForm_hold_bind _ _ _) ((keepsForm_set (waitOver_memInv hs)).bind fun _ => keepsForm_pure _)
  · exact placeCmd_keepsForm.bind fun _ => keepsForm_ite (keepsForm_pure _) ((keepsForm_modify (fun _ hs1 =>
        waitFor_memInv hs1)).bind fun _ => keepsForm_pure _)

/-! ## Output streams -/

theorem modOut_memInv {s : State} {c : CoreId} {id : Nat} {f : Run → Run} (h : s.memInv) : (s.modOut c id f).memInv :=
  modCore_memInv _ _ _ h

theorem dropOut_memInv {s : State} {c : CoreId} {id : Nat} (h : s.memInv) : (s.dropOut c id).memInv :=
  modCore_memInv _ _ _ h

theorem modOstream_memInv {s : State} {w : Who} {k : Fin 8} {f : StreamSt → StreamSt} (h : s.memInv) : (s.modOstream w k f).memInv :=
  ite_memInv (modBank_memInv _ _ _ h) h

theorem outFault_memInv {s : State} {r : Run} {va pf : W64} (h : s.memInv) : (s.outFault r va pf).memInv := by
  unfold State.outFault
  split
  rename_i e
  exact modOut_memInv (memInv_of_snd e (postFault_memInv h))

theorem outFail_memInv {s : State} {c : ECmd} {cause : Byte} {va : W64} (h : s.memInv) : (s.outFail c cause va).memInv := by
  unfold State.outFail
  split
  rename_i e
  refine engEnd_memInv ?_
  split
  · exact modOstream_memInv (memInv_of_snd e (outCode_memInv h))
  · exact memInv_of_snd e (outCode_memInv h)

theorem outEnd_memInv {s : State} {r : Run} {cause : Byte} {va : W64} (h : s.memInv) : (s.outEnd r cause va).memInv :=
  dropOut_memInv (outFail_memInv h)

theorem outDone_memInv {s : State} {r : Run} (h : s.memInv) : (s.outDone r).memInv := by
  unfold State.outDone
  split
  rename_i e
  exact dropOut_memInv (engDone_memInv (modOstream_memInv (memInv_of_snd e (outCode_memInv h))))

theorem outWrite_memInv {s : State} {r : Run} {k : Fin 8} {q : Fin 16} {d : SDesc} {h : Held} (hm : s.memInv) :
    (s.outWrite r k q d h).memInv := by
  unfold State.outWrite
  split
  · rename_i e
    exact memInv_of_snd e (engWrite_memInv hm)
  · rename_i e
    exact outFault_memInv (memInv_of_snd e (engWrite_memInv hm))
  · rename_i e
    exact outEnd_memInv (memInv_of_snd e (engWrite_memInv hm))
  · rename_i e
    exact modOstream_memInv (modOut_memInv (memInv_of_snd e (engWrite_memInv hm)))

theorem outStep_memInv {s : State} {r : Run} {k : Fin 8} {q : Fin 16} {d : SDesc} (h : s.memInv) : (s.outStep r k q d).memInv := by
  unfold State.outStep
  refine ite_memInv h ?_
  refine ite_memInv ?_ ?_
  · refine ite_memInv h ?_
    split
    · rename_i e
      exact modOut_memInv (memInv_of_snd e (resolve_memInv h))
    · rename_i e
      exact memInv_of_snd e (resolve_memInv h)
    · rename_i e
      exact outFault_memInv (memInv_of_snd e (resolve_memInv h))
    · rename_i e
      exact outEnd_memInv (memInv_of_snd e (resolve_memInv h))
  · split
    · exact outWrite_memInv h
    · refine ite_memInv (runHomes_memInv h (fun _ _ hs => modOut_memInv hs) (fun _ hs => outDone_memInv hs)) ?_
      refine ite_memInv h ?_
      refine ite_memInv (outEnd_memInv h) ?_
      refine ite_memInv ?_ h
      split
      · exact h
      · exact modOut_memInv (modQ_memInv h)

theorem outStart_memInv {s : State} {c : CoreId} {x : ECmd} {k : Fin 8} (h : s.memInv) : (s.outStart c x k).memInv := by
  unfold State.outStart
  extract_lets +onlyGivenNames run stopped take
  have hstopped : ∀ (s : State), s.memInv → (stopped s).memInv := by
    intro _ hs
    unfold stopped
    clear_value run
    split
    · exact modOut_memInv hs
    · exact hs
  have htake : ∀ (s : State), s.memInv → (take s).memInv := fun _ hs => engStart_memInv (modCore_memInv _ _ _ hs)
  clear_value run
  split
  · exact hstopped _ (htake _ h)
  · exact hstopped _ h
  · exact modCore_memInv _ _ _ (modOstream_memInv (htake _ h))
  · exact htake _ h

theorem execOstreamElementWrite_endsInForm {c : CoreId} {k : Fin 8} {s : State} (h : s.memInv) : EndsInForm
    (execOstreamElementWrite c k s) := by
  unfold execOstreamElementWrite
  extract_lets +onlyGivenNames _ head
  split
  rename_i e
  clear_value head
  split
  · split
    · exact endsInForm_next (ite_memInv (outEnd_memInv (memInv_of_snd e (choose_memInv _ _ h))) (outStep_memInv (memInv_of_snd e
          (choose_memInv _ _ h))))
    · exact endsInForm_next (memInv_of_snd e (choose_memInv _ _ h))
  · exact endsInForm_ite (endsInForm_next (outFail_memInv (modCore_memInv _ _ _ (memInv_of_snd e (choose_memInv _ _ h)))))
        (endsInForm_next (outStart_memInv (memInv_of_snd e (choose_memInv _ _ h))))
  · exact endsInForm_next (memInv_of_snd e (choose_memInv _ _ h))

/-! ## The remote port and its events -/

theorem leave_memInv {s : State} {c : CoreId} {r : Req} (h : s.memInv) : (s.leave c r).memInv := by
  unfold State.leave
  refine modCore_memInv _ _ _ ?_
  split
  · exact portSend_memInv (ite_memInv (count_memInv _ _ _ _ h) h)
  · exact ite_memInv (count_memInv _ _ _ _ h) h

theorem portFails_memInv {s : State} {r : Req} {cause : Byte} (h : s.memInv) : (s.portFails r cause).memInv :=
  engEnd_memInv h

theorem dropReq_memInv {s : State} {c : CoreId} {id : Nat} (h : s.memInv) : (s.dropReq c id).memInv :=
  modCore_memInv _ _ _ (portFree_memInv h)

theorem landReply_memInv {s : State} {r : Req} {v : W64} (h : s.memInv) : (s.landReply r v).memInv :=
  dropReq_memInv (ite_memInv h (modQ_memInv h))

theorem leaveAll_memInv {s : State} {c : CoreId} (h : s.memInv) : (s.leaveAll c).memInv :=
  foldl_memInv _ _ _ (fun _ _ hs => ite_memInv hs (ite_memInv (ite_memInv (landReply_memInv (portFails_memInv hs)) (dropReq_memInv
      (portFails_memInv hs))) (leave_memInv hs))) h

theorem execCombineFlushTimeout_endsInForm {c : CoreId} {s : State} (h : s.memInv) : EndsInForm (execCombineFlushTimeout c s) := by
  unfold execCombineFlushTimeout
  split
  · exact endsInForm_next h
  · exact endsInForm_next (sendBuf_memInv h)

theorem homeTouch_memInv {s : State} {w : Who} {l : Nat} (h : s.memInv) : (s.homeTouch w l).memInv := by
  unfold State.homeTouch
  refine ite_memInv (count_memInv _ _ _ _ h) ?_
  refine ite_memInv ?_ (count_memInv _ _ _ _ h)
  split
  rename_i e
  exact count_memInv _ _ _ _ (memInv_of_snd e (choose_memInv _ _ (count_memInv _ _ _ _ h)))

theorem offerRow_memInv {s : State} {d : DieId} {node : BitVec 16} {addr : W64} {row : List Byte} {view : View} (h : s.memInv) :
    (s.offerRow d node addr row view).memInv := by
  unfold State.offerRow
  refine ite_memInv ?_ (refuseRec_memInv h)
  split
  · exact acceptRec_memInv h
  · exact refuseRec_memInv h

theorem ownBy_memInv {s : State} {r : Req} {ws : List Nat} (h : s.memInv) : (s.ownBy r ws).memInv :=
  ite_memInv (foldl_memInv _ _ _ (fun _ _ hs => own_memInv _ _ _ hs) h) h

theorem applyRow_memInv {s : State} {r : Req} (h : s.memInv) : (s.applyRow r).memInv :=
  ite_memInv (portFails_memInv (homeTouch_memInv h)) (ownBy_memInv (applyEnt_memInv _ _ (homeTouch_memInv h)))

theorem homeError_memInv {s : State} {l : Nat} (h : s.memInv) : (s.homeError l).memInv :=
  ite_memInv (errorReport_memInv h) (errorReport_memInv h)

theorem applyAtom_memInv {s : State} {r : Req} (h : s.memInv) : (s.applyAtom r).2.2.memInv := by
  unfold State.applyAtom
  extract_lets +onlyGivenNames s1 _
  have hs1 : s1.memInv := homeTouch_memInv h
  split
  · exact hs1
  · split
    · exact hs1
    · split
      · exact homeError_memInv hs1
      · split
        · exact hs1
        · exact ownBy_memInv (applyEnt_memInv _ _ hs1)

theorem modReq_memInv {s : State} {c : CoreId} {id : Nat} {f : Req → Req} (h : s.memInv) : (s.modReq c id f).memInv :=
  modCore_memInv _ _ _ h

theorem applyReq_memInv {s : State} {r : Req} (h : s.memInv) : (s.applyReq r).memInv := by
  unfold State.applyReq
  refine ite_memInv (modReq_memInv (offerRow_memInv h)) ?_
  refine ite_memInv ?_ (modReq_memInv (applyRow_memInv h))
  split
  rename_i e
  refine modReq_memInv ?_
  split
  · exact portFails_memInv (memInv_of_snd_snd e (applyAtom_memInv h))
  · exact memInv_of_snd_snd e (applyAtom_memInv h)

theorem peerAt_memInv {s : State} {p : PeerReq} (h : s.memInv) : (s.peerAt p).2.memInv := by
  unfold State.peerAt
  extract_lets +onlyGivenNames _
  split
  · exact h
  · split
    · split
      · rename_i e4
        split
        · split <;> exact memInv_of_snd e4 (walk_memInv h)
        · split <;> exact memInv_of_snd e4 (walk_memInv h)
      · rename_i e5
        exact memInv_of_snd e5 (walk_memInv h)
    · exact h

theorem peerApply_memInv {s : State} {p : PeerReq} (h : s.memInv) : (s.peerApply p).2.memInv := by
  unfold State.peerApply
  extract_lets +onlyGivenNames _
  split
  · exact offerRow_memInv h
  · split
    · rename_i e1
      exact memInv_of_snd e1 (peerAt_memInv h)
    · rename_i e1
      extract_lets +onlyGivenNames _ _
      split
      · exact applyEnt_memInv _ _ (memInv_of_snd e1 (peerAt_memInv h))
      · split
        · exact memInv_of_snd e1 (peerAt_memInv h)
        · split
          · exact homeError_memInv (memInv_of_snd e1 (peerAt_memInv h))
          · exact applyEnt_memInv _ _ (memInv_of_snd e1 (peerAt_memInv h))

theorem peerHold_memInv {s : State} {p : PeerReq} (h : s.memInv) : (s.peerHold p).memInv :=
  ite_memInv h h

theorem peerArrive_memInv {s : State} {p : PeerReq} (h : s.memInv) : (s.peerArrive p).memInv := by
  unfold State.peerArrive
  refine ite_memInv ?_ ?_
  · refine ite_memInv ?_ ?_
    · extract_lets +onlyGivenNames s1
      have hs1 : s1.memInv := peerHold_memInv h
      split
      · exact hs1
      · split
        rename_i e1
        split
        · exact giveUp_memInv (memInv_of_snd e1 (choose_memInv _ _ hs1))
        · exact memInv_of_snd e1 (choose_memInv _ _ hs1)
    · split
      rename_i e
      exact memInv_of_parts (memInv_of_snd e (peerApply_memInv h)) rfl rfl rfl
  · refine ite_memInv (peerHold_memInv h) ?_
    split <;> exact h

theorem takeReq_memInv {s : State} {r : Req} (h : s.memInv) : (s.takeReq r).memInv := by
  unfold State.takeReq
  refine ite_memInv (applyReq_memInv h) ?_
  refine ite_memInv (modReq_memInv h) ?_
  split
  rename_i e
  exact giveUp_memInv (memInv_of_snd e (choose_memInv _ _ h))

theorem leaves_memInv {s : State} {cs : List CoreId} (h : s.memInv) :
    (cs.foldl (fun s c => if (s.core c).reqs = [] then s else s.leaveAll c) s).memInv :=
  foldl_memInv _ _ _ (fun _ _ hs => ite_memInv hs (leaveAll_memInv hs)) h

/-- The state after the cores have sent their requests is named before the cases are split: else the kernel evaluates the fold over
the 512 cores to compare two of the matches. -/
theorem execRemoteRequestArrive_endsInForm {k : Nat} {peer : Option PeerReq} {s : State} (h : s.memInv) :
    EndsInForm (execRemoteRequestArrive k peer s) := by
  have ht := leaves_memInv (cs := List.finRange 512) h
  unfold execRemoteRequestArrive
  dsimp only
  revert ht
  generalize List.foldl _ s _ = t
  generalize (List.filter _ t.peerReqs)[k - t.arrivals.length]? = later
  generalize t.arrivals[k]? = arrival
  intro ht
  cases peer with
  | some p => exact endsInForm_next (peerArrive_memInv h)
  | none =>
    cases arrival with
    | some r => exact endsInForm_ite (endsInForm_next ht) (endsInForm_next (takeReq_memInv ht))
    | none =>
      cases later with
      | some p => exact endsInForm_next (peerArrive_memInv ht)
      | none => exact endsInForm_next ht

theorem execRemoteAck_endsInForm {c : CoreId} {s : State} (h : s.memInv) : EndsInForm (execRemoteAck c s) := by
  unfold execRemoteAck
  extract_lets +onlyGivenNames s1 _
  have hs1 : s1.memInv := leaveAll_memInv h
  split
  rename_i e
  split
  · exact endsInForm_next (memInv_of_snd e (choose_memInv _ _ hs1))
  · split
    rename_i e2
    extract_lets +onlyGivenNames s2
    have hs2 : s2.memInv := by
      unfold s2
      refine dropReq_memInv ?_
      refine memInv_of_snd e2 ?_
      split
      · exact choose_memInv _ _ (memInv_of_snd e (choose_memInv _ _ hs1))
      · exact memInv_of_snd e (choose_memInv _ _ hs1)
    exact endsInForm_next (ite_memInv (portFails_memInv hs2) hs2)

theorem execRatomReply_endsInForm {c : CoreId} {s : State} (h : s.memInv) : EndsInForm (execRatomReply c s) := by
  unfold execRatomReply
  extract_lets +onlyGivenNames s1 _ _
  have hs1 : s1.memInv := leaveAll_memInv h
  split
  rename_i e
  split
  · exact endsInForm_next (memInv_of_snd e (choose_memInv _ _ hs1))
  · refine endsInForm_ite (endsInForm_next (landReply_memInv (memInv_of_snd e (choose_memInv _ _ hs1)))) ?_
    split
    rename_i e2
    split
    · exact endsInForm_next (landReply_memInv (portFails_memInv (memInv_of_snd e2 (choose_memInv _ _ (memInv_of_snd e
          (choose_memInv _ _ hs1))))))
    · split
      rename_i e4
      exact endsInForm_next (landReply_memInv (memInv_of_snd e4 (fresh_memInv (memInv_of_snd e2 (choose_memInv _ _ (memInv_of_snd e
          (choose_memInv _ _ hs1)))))))

theorem sendFlit_memInv {s : State} {l : LinkId} {r : Req} (h : s.memInv) : (s.sendFlit l r).memInv :=
  ite_memInv (count_memInv _ _ _ _ (modReq_memInv (modLink_memInv h))) (modReq_memInv (modLink_memInv h))

theorem sendAck_memInv {s : State} {l : LinkId} (h : s.memInv) : (s.sendAck l).memInv :=
  modLink_memInv h

theorem putFlit_memInv {s : State} {f : Flit} {d : DieId} (h : s.memInv) : (s.putFlit f d).memInv := by
  unfold State.putFlit
  split
  · exact modReq_memInv h
  · exact h

theorem takeFlit_memInv {s : State} {l : LinkId} {crcOk : Bool} (h : s.memInv) : (s.takeFlit l crcOk).memInv := by
  unfold State.takeFlit
  extract_lets +onlyGivenNames _
  split
  · exact h
  · exact ite_memInv (modLink_memInv (modLink_memInv h)) (ite_memInv (putFlit_memInv (modLink_memInv (sendAck_memInv (modLink_memInv h))))
        (sendAck_memInv (modLink_memInv h)))

theorem execFlitReceive_endsInForm {l : LinkId} {crcOk : Bool} {s : State} (h : s.memInv) : EndsInForm (execFlitReceive l crcOk s) := by
  unfold execFlitReceive
  extract_lets +onlyGivenNames s1 _
  have hs1 : s1.memInv := foldl_memInv _ _ _ (fun _ _ hs => ite_memInv (leaveAll_memInv hs) hs) h
  refine endsInForm_ite (endsInForm_next hs1) ?_
  extract_lets +onlyGivenNames _ _
  split
  rename_i e
  split
  · exact endsInForm_next (sendFlit_memInv (memInv_of_snd e (choose_memInv _ _ hs1)))
  · exact endsInForm_next (takeFlit_memInv (memInv_of_snd e (choose_memInv _ _ hs1)))

theorem execNakReceive_endsInForm {l : LinkId} {s : State} (h : s.memInv) : EndsInForm (execNakReceive l s) := by
  unfold execNakReceive
  split
  · exact endsInForm_next h
  · exact endsInForm_next (modLink_memInv h)

theorem linkChange_memInv {s : State} {l : LinkId} {width : Nat} (h : s.memInv) : (s.linkChange l width).memInv :=
  event_memInv _ _ _ _ h

theorem modBoth_memInv {s : State} {l : LinkId} {f : Link → Link} (h : s.memInv) : (s.modBoth l f).memInv :=
  modLink_memInv (modLink_memInv h)

theorem recall_memInv {s : State} {l : LinkId} (h : s.memInv) : (s.recall l).memInv :=
  foldl_memInv _ _ _ (fun _ _ hs => putFlit_memInv hs) h

theorem resend_memInv {s : State} {ms : List Msg} (h : s.memInv) : (s.resend ms).memInv := by
  unfold State.resend
  refine foldl_memInv _ _ _ (fun _ x hs => ?_) h
  split
  rename_i e
  exact ite_memInv (memInv_of_parts (memInv_of_snd e (choose_memInv _ _ hs)) rfl rfl rfl) (memInv_of_snd e (choose_memInv _ _ hs))

theorem fenceLink_memInv {s : State} {l : LinkId} (h : s.memInv) : (s.fenceLink l).memInv :=
  ite_memInv (noteCuts_memInv (linkChange_memInv (modBoth_memInv (recall_memInv (recall_memInv h))))) (resend_memInv (noteCuts_memInv
      (linkChange_memInv (modBoth_memInv (recall_memInv (recall_memInv h))))))

theorem execLaneFailure_endsInForm {l : LinkId} {beyondRepair : Bool} {s : State} (h : s.memInv) : EndsInForm
    (execLaneFailure l beyondRepair s) :=
  endsInForm_ite (endsInForm_next h) (endsInForm_ite (endsInForm_next (linkChange_memInv h)) (endsInForm_ite (endsInForm_next
      (modBoth_memInv h)) (endsInForm_next (fenceLink_memInv h))))

theorem execRetrainComplete_endsInForm {l : LinkId} {ok : Bool} {s : State} (h : s.memInv) : EndsInForm (execRetrainComplete l ok s) :=
  endsInForm_ite (endsInForm_next h) (endsInForm_ite (endsInForm_next (linkChange_memInv (modBoth_memInv h))) (endsInForm_next
      (fenceLink_memInv h)))

theorem msgCmd_memInv {s : State} {c : CoreId} {m : Msg} {f : List Nat → Option (List Nat)} (h : s.memInv) : (s.msgCmd c m f).memInv := by
  unfold State.msgCmd
  extract_lets +onlyGivenNames _ _
  split
  · exact modCore_memInv _ _ _ h
  · exact modClu_memInv _ _ _ h
  · exact modCore_memInv _ _ _ h

theorem closeMsg_memInv {s : State} {m : Msg} (h : s.memInv) : (s.closeMsg m).memInv := h

theorem execRequestGiveUp_endsInForm {c : CoreId} {s : State} (h : s.memInv) : EndsInForm (execRequestGiveUp c s) := by
  unfold execRequestGiveUp
  split
  · exact endsInForm_next (msgCmd_memInv (closeMsg_memInv h))
  · extract_lets +onlyGivenNames _ _
    split
    rename_i e1
    split
    · exact endsInForm_next (ite_memInv (landReply_memInv (portFails_memInv (memInv_of_snd e1 (choose_memInv _ _ h)))) (dropReq_memInv
          (portFails_memInv (memInv_of_snd e1 (choose_memInv _ _ h)))))
    · extract_lets +onlyGivenNames s1
      have hs1 : s1.memInv := memInv_of_parts (memInv_of_snd e1 (choose_memInv _ _ h)) rfl rfl rfl
      split
      · exact endsInForm_next hs1
      · exact endsInForm_next (imprecise_memInv hs1)
    · exact endsInForm_next (memInv_of_snd e1 (choose_memInv _ _ h))

/-! ## Events at the homes -/

theorem stall_memInv {s : State} {k : Nat} {d : DieId} (h : s.memInv) : (s.stall k d).memInv := h

theorem execApply_endsInForm {k : Nat} {s : State} (h : s.memInv) : EndsInForm (execApply k s) := by
  unfold execApply
  split
  · exact endsInForm_next h
  · refine endsInForm_ite (endsInForm_next h) ?_
    refine endsInForm_ite ?_ (endsInForm_ite (endsInForm_next h) (endsInForm_ite (endsInForm_next (stall_memInv h)) (endsInForm_next
        (applyAt_memInv _ _ h))))
    refine endsInForm_ite (endsInForm_next h) ?_
    split
    rename_i e2
    exact endsInForm_next (giveUp_memInv (memInv_of_snd e2 (choose_memInv _ _ h)))

theorem execFillStallResume_endsInForm {d : DieId} {s : State} (h : s.memInv) : EndsInForm (execFillStallResume d s) := by
  unfold execFillStallResume
  split
  · exact endsInForm_next h
  · split
    · exact endsInForm_next h
    · exact endsInForm_ite (endsInForm_next (applyAt_memInv _ _ h)) (endsInForm_next h)

theorem execCountedFullTimeout_endsInForm {d : DieId} {s : State} (h : s.memInv) : EndsInForm (execCountedFullTimeout d s) := by
  unfold execCountedFullTimeout
  split
  · exact endsInForm_next h
  · extract_lets +onlyGivenNames _ _ _ s1 s2
    have hs1 : s1.memInv := h
    have hs2 : s2.memInv := modAgent_memInv _ _ _ hs1
    split
    · exact endsInForm_next hs2
    · exact endsInForm_next (imprecise_memInv (ite_memInv (modSeq_memInv _ _ _ hs2) hs2))

theorem foundBad_memInv {s : State} {row : Nat} (h : s.memInv) : (s.foundBad row).memInv := by
  unfold State.foundBad
  split
  rename_i e
  exact ite_memInv (memInv_of_snd e (fresh_memInv h)) (foldl_memInv _ _ _ (fun _ _ hs =>
      errorReport_memInv hs) (memInv_of_snd e (fresh_memInv h)))

theorem execLiveLineEvict_endsInForm {row : Nat} {s : State} (h : s.memInv) : EndsInForm (execLiveLineEvict row s) := by
  unfold execLiveLineEvict
  extract_lets +onlyGivenNames _
  split
  · exact endsInForm_next h
  · exact endsInForm_ite (endsInForm_next h) (endsInForm_next (modDie_memInv _ _ _ (foundBad_memInv h)))

theorem execDeliver_endsInForm {k : Nat} {s : State} (h : s.memInv) : EndsInForm (execDeliver k s) := by
  unfold execDeliver
  split
  · exact endsInForm_next h
  · refine endsInForm_ite ?_ (endsInForm_ite (endsInForm_next h) (endsInForm_next h))
    refine endsInForm_ite (endsInForm_next h) ?_
    extract_lets +onlyGivenNames s1
    have hs1 : s1.memInv := h
    split
    · exact endsInForm_next (msgCmd_memInv hs1)
    · exact endsInForm_next hs1

theorem execStreamTlbPrefetch_endsInForm {c : CoreId} {out : Bool} {va : BitVec 64} {s : State} (h : s.memInv) : EndsInForm
    (execStreamTlbPrefetch c out va s) := by
  unfold execStreamTlbPrefetch
  extract_lets +onlyGivenNames _
  split
  · exact endsInForm_next (memInv_of_parts (translate_memInv h) rfl rfl rfl)
  · exact endsInForm_next h

/-! ## The scheduler -/

theorem activate_memInv {s : State} {w : Who} (h : s.memInv) : (s.activate w).memInv :=
  ite_memInv (modBank_memInv _ _ _ (modCore_memInv _ _ _ h)) (modCore_memInv _ _ _ h)

theorem execBankActivate_endsInForm {c : CoreId} {s : State} (h : s.memInv) : EndsInForm (execBankActivate c s) := by
  unfold execBankActivate
  refine endsInForm_ite (endsInForm_next h) ?_
  extract_lets +onlyGivenNames _ _ _
  split
  rename_i e
  split
  · exact endsInForm_next (activate_memInv (memInv_of_snd e (choose_memInv _ _ h)))
  · exact endsInForm_next (memInv_of_snd e (choose_memInv _ _ h))

theorem startAgents_memInv {s : State} {w : Who} {view : View} (h : s.memInv) : (s.startAgents w view).memInv :=
  foldl_memInv _ _ _ (fun _ _ hs => modAgent_memInv _ _ _ hs) h

theorem startTask_memInv {s : State} {w : Who} {r : Rec} (h : s.memInv) : (s.startTask w r).memInv :=
  startAgents_memInv (modBank_memInv _ _ _ h)

theorem load1_memInv {s : State} {w : Who} {r : Rec} (h : s.memInv) : (s.load1 w r).memInv :=
  ite_memInv (modBank_memInv _ _ _ (trace_memInv _ _ _ _ _ (startTask_memInv h))) (ite_memInv (activate_memInv (trace_memInv _ _ _ _ _
      (startTask_memInv h))) (trace_memInv _ _ _ _ _ (startTask_memInv h)))

theorem preempt_memInv {s : State} {d : DieId} {r : Rec} (h : s.memInv) : (s.preempt d r).memInv := by
  unfold State.preempt
  refine ite_memInv h ?_
  extract_lets +onlyGivenNames v
  clear_value v
  split
  · exact h
  · extract_lets +onlyGivenNames p _ s1
    have hs1 : s1.memInv := modDie_memInv _ _ _ h
    clear_value p
    split
    · exact hs1
    · exact beginKill_memInv hs1
    · exact modBank_memInv _ _ _ hs1

theorem dispatchTo_memInv {s : State} {d : DieId} {w : Who} {r : Rec} {rr : Nat} (h : s.memInv) : (s.dispatchTo d w r rr).memInv :=
  load1_memInv (modDie_memInv _ _ _ h)

theorem execDispatch_endsInForm {d : DieId} {s : State} (h : s.memInv) : EndsInForm (execDispatch d s) := by
  unfold execDispatch
  refine endsInForm_ite (endsInForm_next h) ?_
  split
  · exact endsInForm_next (dispatchTo_memInv h)
  · split
    · split
      · exact endsInForm_next (dispatchTo_memInv h)
      · exact endsInForm_next h
    · split
      · exact endsInForm_next (preempt_memInv h)
      · exact endsInForm_next h

theorem freeArea_memInv {s : State} {ctx area : Nat} (h : s.memInv) : (s.freeArea ctx area).memInv := by
  unfold State.freeArea
  split <;> exact h

theorem flushOf_memInv {s : State} {w : Who} (h : s.memInv) : (s.flushOf w).memInv :=
  ite_memInv (flushPort_memInv h) h

theorem requeue_memInv {s : State} {c : CoreId} {r : Rec} {head : Bool} (h : s.memInv) : (s.requeue c r head).memInv :=
  enqueue_memInv h

theorem execKillComplete_endsInForm {c : CoreId} {b : BankId} {s : State} (h : s.memInv) : EndsInForm (execKillComplete c b s) := by
  unfold execKillComplete
  extract_lets +onlyGivenNames _
  split
  · refine endsInForm_ite (endsInForm_next (flushOf_memInv h)) ?_
    extract_lets +onlyGivenNames s1 s2 s3
    have hs1 : s1.memInv := foldl_memInv _ _ _ (fun _ _ hs => release_memInv _ _ hs) (flushOf_memInv h)
    have hs2 : s2.memInv := by
      unfold s2
      split
      · exact freeArea_memInv hs1
      · exact hs1
    have hs3 : s3.memInv := freeBank_memInv (modCore_memInv _ _ _ hs2)
    exact endsInForm_next (ite_memInv (requeue_memInv hs3) (dropRec_memInv hs3))
  · exact endsInForm_next h

theorem moveRec_memInv {s : State} {d : DieId} {r : Rec} (h : s.memInv) : (s.moveRec d r).memInv := by
  unfold State.moveRec
  extract_lets +onlyGivenNames s1
  have hs1 : s1.memInv := ite_memInv h (freeSlotOf_memInv h)
  split
  rename_i e
  exact enqueue_memInv (memInv_of_snd e (takeSlot_memInv hs1))

theorem execWorkSteal_endsInForm {d : DieId} {s : State} (h : s.memInv) : EndsInForm (execWorkSteal d s) := by
  unfold execWorkSteal
  refine endsInForm_ite (endsInForm_next h) ?_
  split
  · exact endsInForm_next h
  · exact endsInForm_next (modDie_memInv _ _ _ (foldl_memInv _ _ _ (fun _ _ hs => moveRec_memInv hs) (modDie_memInv _ _ _ h)))

end Sys2Proof.Machine
end

section
/-! PROOFS. The canonical form of memory across system instructions, context saves and the host interface (log 2). -/
namespace Sys2Proof.Machine

/-! ## System instructions -/

theorem ite_snd_memInv {α : Type} {p : Prop} [Decidable p] {x y : α × State} (hx : x.2.memInv) (hy : y.2.memInv) :
    (if p then x else y).2.memInv := by
  split
  · exact hx
  · exact hy

/-- Only the time base, of all the control registers, takes a free value when it is read. -/
theorem csrRead_memInv {s : State} {w : Who} {n : Nat} (h : s.memInv) : (s.csrRead w n).2.memInv := by
  unfold State.csrRead
  extract_lets k d
  iterate 28 refine ite_snd_memInv h ?_
  refine ite_snd_memInv (tbNow_memInv h) ?_
  iterate 2 refine ite_snd_memInv h ?_
  exact h

theorem csrLimits_keepsForm {f : RI} {write : Bool} : KeepsForm (csrLimits f write) :=
  need_keepsForm.bind fun _ => keepsForm_ite limits_keepsForm (keepsForm_pure _)

theorem csrChecks_keepsForm {n : Nat} {write : Bool} : KeepsForm (csrChecks n write) :=
  need_keepsForm.bind fun _ => keepsForm_get (fun _ _ => need_keepsForm)

theorem execCsrr_endsInForm {f : RI} {s : State} (h : s.memInv) : EndsInForm (execCsrr f s) := by
  unfold execCsrr
  refine issueLim_endsInForm h csrLimits_keepsForm ?_
  refine csrChecks_keepsForm.bind fun v => dstsOk_keepsForm.bind fun _ => keepsForm_get (fun _ hs => ?_)
  split
  rename_i e
  exact (keepsForm_set (memInv_of_snd e (csrRead_memInv hs))).bind fun _ => scalarResult_keepsForm

theorem execFlogdatRead_endsInForm {f : RI} {s : State} (h : s.memInv) : EndsInForm (execFlogdatRead f s) :=
  issue_endsInForm h (dstsOk_keepsForm.bind fun _ => keepsForm_get (fun _ hs => (keepsForm_set (modBank_memInv _ _ _ hs)).bind fun _ =>
      scalarResult_keepsForm))

theorem csrWrite_keepsForm {f : RI} : KeepsForm (csrWrite f) :=
  csrChecks_keepsForm.bind fun _ => sources_keepsForm.bind fun _ => need_keepsForm.bind fun _ => csrPut_keepsForm.bind fun _ =>
      keepsForm_pure _

theorem execPfblockWrite_endsInForm {f : RI} {s : State} (h : s.memInv) : EndsInForm (execPfblockWrite f s) := by
  unfold execPfblockWrite
  refine issue_endsInForm h ?_
  refine csrChecks_keepsForm.bind fun v => eventRoom_keepsForm.bind fun _ => sources_keepsForm.bind fun _ => keepsForm_get (fun _ hs =>
      ?_)
  extract_lets +onlyGivenNames _
  split
  · exact need_keepsForm.bind fun _ => (keepsForm_set (modCore_memInv _ _ _ (modBank_memInv _ _ _
        (event_memInv _ _ _ _ hs)))).bind fun _ => keepsForm_pure _
  · exact raise_keepsForm _

theorem execResume_endsInForm {f : RRR} {s : State} (h : s.memInv) : EndsInForm (execResume f s) := by
  unfold execResume
  refine issue_endsInForm h ?_
  refine sources_keepsForm.bind fun v => keepsForm_get (fun _ hs => ?_)
  refine need_keepsForm.bind fun _ => needQuiet_keepsForm.bind fun _ => translate_keepsForm.bind fun _ => keepsForm_get (fun s2 _ => ?_)
  refine keepsForm_ite (keepsForm_hold_bind _ _ _) ?_
  refine keepsForm_when noteUnc_keepsForm ?_
  refine keepsForm_get (fun _ hs2 => ?_)
  split
  rename_i e
  refine (keepsForm_set (memInv_of_snd e (loadBytes_memInv hs2))).bind fun _ => ?_
  extract_lets +onlyGivenNames _
  split
  · exact raise_keepsForm _
  · exact (keepsForm_set (modSeq_memInv _ _ _ (modBank_memInv _ _ _ (memInv_of_snd e (loadBytes_memInv hs2))))).bind fun _ =>
        keepsForm_pure _

theorem shootCore_memInv {s : State} {c : CoreId} {ctx : BitVec 12} {all : Bool} {va : Nat} (h : s.memInv) :
    (s.shootCore c ctx all va).memInv :=
  foldl_memInv _ _ _ (fun _ _ hs => fence_memInv hs) (modCore_memInv _ _ _ h)

theorem shoot_memInv {s t : State} {cs : List CoreId} {ctx : BitVec 12} {all : Bool} {va : Nat} (e : s.shoot cs ctx all va = some t)
    (h : s.memInv) : t.memInv := by
  unfold State.shoot at e
  split at e
  · exact absurd e (by simp)
  · cases e
    exact foldl_memInv _ _ _ (fun _ _ hs => shootCore_memInv hs) h

theorem execTlbinv_endsInForm {f : RRR} {s : State} (h : s.memInv) : EndsInForm (execTlbinv f s) := by
  unfold execTlbinv
  refine issueLim_endsInForm h limits_keepsForm (sources_keepsForm.bind fun _ => ?_)
  refine need_keepsForm.bind fun _ => keepsForm_get fun t ht => ?_
  split
  · exact hold_keepsForm _ _ _
  next e => exact (keepsForm_set (shoot_memInv e ht)).bind fun _ => keepsForm_pure _

theorem execIcinv_endsInForm {f : RRR} {s : State} (h : s.memInv) : EndsInForm (execIcinv f s) :=
  issueLim_endsInForm h limits_keepsForm (sources_keepsForm.bind fun _ => need_keepsForm.bind fun _ => needQuiet_keepsForm.bind fun _ =>
      keepsForm_get (fun _ _ => succOf_keepsForm.bind fun _ => (keepsForm_modify (fun _ hs1 => foldl_memInv _ _ _ (fun _ _ hs2 =>
      modCore_memInv _ _ _ hs2) (modSeq_memInv _ _ _ hs1))).bind fun _ => keepsForm_pure _))

theorem execRqrd_endsInForm {f : RRR} {s : State} (h : s.memInv) : EndsInForm (execRqrd f s) :=
  issueLim_endsInForm h limits_keepsForm (sources_keepsForm.bind fun _ => need_keepsForm.bind fun _ => keepsForm_get (fun _ _ =>
      need_keepsForm.bind fun _ => destOf_keepsForm.bind fun _ => pendWrite_keepsForm.bind fun _ => keepsForm_pure _))

theorem execRqwr_endsInForm {f : RRR} {s : State} (h : s.memInv) : EndsInForm (execRqwr f s) :=
  issueLim_endsInForm h limits_keepsForm (sources_keepsForm.bind fun _ => need_keepsForm.bind fun _ => keepsForm_get (fun _ _ =>
      need_keepsForm.bind fun _ => (keepsForm_modify (fun _ hs1 => modBank_memInv _ _ _ hs1)).bind fun _ => keepsForm_pure _))

theorem execPgmap_endsInForm {f : RRR} {s : State} (h : s.memInv) : EndsInForm (execPgmap f s) :=
  issueLim_endsInForm h limits_keepsForm (sources_keepsForm.bind fun _ => need_keepsForm.bind fun _ => needAt_keepsForm.bind fun _ =>
      keepsForm_get (fun _ hs => (keepsForm_set (tlbKeep_memInv (tlbKeep_memInv (tlbKeep_memInv
      (modCore_memInv _ _ _ hs))))).bind fun _ => keepsForm_pure _))

theorem suspend_memInv {s : State} {w : Who} (h : s.memInv) : (s.suspend w).memInv :=
  modBank_memInv _ _ _ (freeze_memInv h)

theorem answerTrapped_memInv {s : State} {w : Who} {src : SeqId} {addr : W64} {kind : Nat} {refuse : Bool} (h : s.memInv) :
    (s.answerTrapped w src addr kind refuse).memInv :=
  ite_memInv (modBank_memInv _ _ _ h) (modCore_memInv _ _ _ (ite_memInv (suspend_memInv (modBank_memInv _ _ _ h))
      (modBank_memInv _ _ _ h)))

theorem answer_memInv {s t : State} {c : CoreId} {tok : W64} {refuse : Bool} (e : s.answer c tok refuse = some t) (h : s.memInv) :
    t.memInv := by
  unfold State.answer at e
  extract_lets trapped waiting at e
  have ht : ∀ b u, trapped b = some u → u.memInv := by
    intro b u hu
    simp only [trapped] at hu
    split at hu
    · split at hu
      · cases hu
        exact answerTrapped_memInv h
      · exact absurd hu (by simp)
    · exact absurd hu (by simp)
  have hw : ∀ b u, waiting b = some u → u.memInv := by
    intro b u hu
    simp only [waiting] at hu
    split at hu
    · cases hu
      exact modClu_memInv _ _ _ (modCore_memInv _ _ _ (modBank_memInv _ _ _ h))
    · exact absurd hu (by simp)
  clear_value trapped waiting
  split at e
  next e0 => exact ht 0 _ (e0.trans e)
  next e1 _ => exact ht 1 _ (e1.trans e)
  next e2 _ _ => exact hw 0 _ (e2.trans e)
  next => exact hw 1 _ e

theorem execPgdone_endsInForm {f : RRR} {s : State} (h : s.memInv) : EndsInForm (execPgdone f s) := by
  unfold execPgdone
  refine issue_endsInForm h (sources_keepsForm.bind fun _ => keepsForm_get fun t ht => ?_)
  split
  · exact raise_keepsForm _
  next e => exact (keepsForm_set (answer_memInv e ht)).bind fun _ => keepsForm_pure _

/-! ## The context-save engine -/

theorem freeWords_memInv {s : State} {n : Nat} (h : s.memInv) : (s.freeWords n).2.memInv := by
  induction n generalizing s with
  | zero => exact h
  | succ n ih => exact ih (fresh_memInv h)

theorem mapArea_memInv {s : State} {w : Who} {va kind n : Nat} (h : s.memInv) : (s.mapArea w va kind n).2.memInv := by
  induction n with
  | zero => exact h
  | succ n ih =>
    unfold State.mapArea
    split
    next e => exact memInv_of_snd e ih
    next e =>
      have ht := memInv_of_snd e ih
      refine ite_snd_memInv ht ?_
      split <;> next e => exact memInv_of_snd e (translate_memInv ht)

theorem areaPut_memInv {s : State} {a off n : Nat} {ps : List Nat} {bs : List Byte} (h : s.memInv) :
    (s.areaPut a ps n off bs).memInv := by
  induction n generalizing s off bs with
  | zero => exact h
  | succ n ih => exact ite_memInv h (ih (putBytes_memInv _ _ _ _ h))

theorem writeSections_memInv {s : State} {w : Who} {ps : List Nat} {frame : List W64} {cells : List (CluId × Nat × Nat)} (h : s.memInv) :
    (s.writeSections w ps frame cells).memInv := by
  unfold State.writeSections
  refine foldl_memInv _ _ _ (fun _ x hs => ?_) (foldl_memInv _ _ _ (fun _ _ hs => areaPut_memInv hs) h)
  split
  rename_i e
  exact areaPut_memInv (memInv_of_snd e (freeWords_memInv hs))

theorem saveFail_memInv {s : State} {w : Who} {area reason : Nat} (h : s.memInv) : (s.saveFail w area reason).memInv := by
  unfold State.saveFail
  refine ite_memInv (beginKill_memInv h) ?_
  refine ite_memInv ?_ (modBank_memInv _ _ _ (modDie_memInv _ _ _ (memInv_of_parts (ite_memInv h (engFail_memInv h)) rfl rfl rfl)))
  split
  rename_i e
  exact beginKill_memInv (errorReport_memInv (memInv_of_snd e (choose_memInv _ _ (modBank_memInv _ _ _ (modDie_memInv _ _ _
      (memInv_of_parts (ite_memInv h (engFail_memInv h)) rfl rfl rfl))))))

theorem takeArea_memInv {s : State} {ctx : Nat} (h : s.memInv) : (s.takeArea ctx).2.memInv := by
  unfold State.takeArea
  split
  · exact h
  · split <;> exact h

theorem beginSave_memInv {s : State} {w : Who} (h : s.memInv) : (s.beginSave w).memInv := by
  unfold State.beginSave
  extract_lets +onlyGivenNames _ _ s1
  have hs1 : s1.memInv := modBank_memInv _ _ _ (freeze_memInv h)
  split
  · rename_i e
    exact saveFail_memInv (memInv_of_snd e (takeArea_memInv hs1))
  · rename_i e
    split
    · rename_i e1
      exact saveFail_memInv (freeArea_memInv (memInv_of_snd e1 (mapArea_memInv (memInv_of_snd e (takeArea_memInv hs1)))))
    · rename_i e1
      extract_lets +onlyGivenNames _
      split
      rename_i e2
      exact modBank_memInv _ _ _ (putBytes_memInv _ _ _ _ (memInv_of_snd e2 (accept_memInv (memInv_of_parts (memInv_of_snd e1
          (mapArea_memInv (memInv_of_snd e (takeArea_memInv hs1)))) rfl rfl rfl))))

theorem execPreemptCheckpoint_endsInForm {c : CoreId} {b : BankId} {s : State} (h : s.memInv) : EndsInForm
    (execPreemptCheckpoint c b s) := by
  unfold execPreemptCheckpoint
  extract_lets +onlyGivenNames _ _
  split
  · exact endsInForm_ite (endsInForm_next h) (endsInForm_next (beginSave_memInv h))
  · exact endsInForm_next h

theorem saveFrame_memInv {s : State} {w : Who} (h : s.memInv) : (s.saveFrame w).2.memInv := by
  unfold State.saveFrame
  extract_lets +onlyGivenNames _
  split
  · exact h
  · split
    · rename_i e1
      exact memInv_of_snd e1 (translate_memInv h)
    · rename_i e1
      split <;> exact memInv_of_snd e1 (translate_memInv h)

theorem dropWork_memInv {s : State} {w : Who} (h : s.memInv) : (s.dropWork w).memInv :=
  modCore_memInv _ _ _ h

theorem commitSave_memInv {s : State} {w : Who} {r : Rec} {area : Nat} {ps : List Nat} {n : W32} {tail : Bool} {frame : List W64}
    (h : s.memInv) : (s.commitSave w r area ps n tail frame).memInv :=
  requeue_memInv (freeBank_memInv (dropWork_memInv (profAdd_memInv (foldl_memInv _ _ _ (fun _ _ hs =>
      uncount_memInv _ _ hs) (memInv_of_parts (putBytes_memInv _ _ _ _ (writeSections_memInv h)) rfl rfl rfl)))))

theorem execSaveCommit_endsInForm {c : CoreId} {b : BankId} {s : State} (h : s.memInv) : EndsInForm (execSaveCommit c b s) := by
  unfold execSaveCommit
  extract_lets +onlyGivenNames _
  split
  · extract_lets +onlyGivenNames s1 _ _ _ _ fail
    have hs1 : s1.memInv := flushOf_memInv h
    have hfail : ∀ (s : State) (reason : Nat), s.memInv → (fail s reason).memInv := fun _ _ hs => saveFail_memInv (freeArea_memInv hs)
    refine endsInForm_ite (endsInForm_next hs1) ?_
    refine endsInForm_ite (endsInForm_next (hfail _ _ hs1)) ?_
    split
    · rename_i e3
      refine endsInForm_next ?_
      refine hfail _ _ ?_
      refine memInv_of_snd e3 ?_
      split
      · exact mapArea_memInv hs1
      · exact hs1
    · rename_i e3
      refine endsInForm_ite ?_ ?_
      · refine endsInForm_next ?_
        refine hfail _ _ ?_
        refine memInv_of_snd e3 ?_
        split
        · exact mapArea_memInv hs1
        · exact hs1
      · refine endsInForm_ite ?_ ?_
        · refine endsInForm_next ?_
          refine memInv_of_snd e3 ?_
          split
          · exact mapArea_memInv hs1
          · exact hs1
        · refine endsInForm_ite ?_ ?_
          · refine endsInForm_next ?_
            refine hfail _ _ ?_
            refine memInv_of_snd e3 ?_
            split
            · exact mapArea_memInv hs1
            · exact hs1
          · split
            rename_i e4
            refine endsInForm_ite ?_ ?_
            · refine endsInForm_next ?_
              refine hfail _ _ ?_
              refine memInv_of_snd e4 ?_
              refine choose_memInv _ _ ?_
              refine memInv_of_snd e3 ?_
              split
              · exact mapArea_memInv hs1
              · exact hs1
            · split
              · rename_i e5
                refine endsInForm_next ?_
                refine hfail _ _ ?_
                refine memInv_of_snd e5 ?_
                refine saveFrame_memInv ?_
                refine memInv_of_snd e4 ?_
                refine choose_memInv _ _ ?_
                refine memInv_of_snd e3 ?_
                split
                · exact mapArea_memInv hs1
                · exact hs1
              · rename_i e5
                refine endsInForm_next ?_
                refine commitSave_memInv ?_
                refine memInv_of_snd e5 ?_
                refine saveFrame_memInv ?_
                refine memInv_of_snd e4 ?_
                refine choose_memInv _ _ ?_
                refine memInv_of_snd e3 ?_
                split
                · exact mapArea_memInv hs1
                · exact hs1
  · exact endsInForm_next h

theorem placeWork_memInv {s : State} {w : Who} {x : Saved} (h : s.memInv) : (s.placeWork w x).memInv :=
  modCore_memInv _ _ _ h

theorem restoreAgents_memInv {s : State} {w : Who} {x : Saved} (h : s.memInv) : (s.restoreAgents w x).memInv :=
  foldl_memInv _ _ _ (fun _ _ hs => modAgent_memInv _ _ _ hs) (startAgents_memInv h)

theorem restoreSections_memInv {s : State} {w : Who} {r : Rec} {x : Saved} {rd : AreaRead} (h : s.memInv) :
    (s.restoreSections w r x rd).memInv := by
  unfold State.restoreSections
  refine restoreAgents_memInv ?_
  refine foldl_memInv _ _ _ (fun _ _ hs => ?_) (modBank_memInv _ _ _ (foldl_memInv _ _ _ (fun _ _ hs =>
      fillRow_memInv _ _ _ _ (putBytes_memInv _ _ _ _ hs)) (putBytes_memInv _ _ _ _ (foldl_memInv _ _ _ (fun _ _ hs =>
      putBytes_memInv _ _ _ _ hs) h))))
  split
  · exact ite_memInv hs (modClu_memInv _ _ _ hs)
  · exact hs

theorem execRestore_endsInForm {c : CoreId} {b : BankId} {s : State} (h : s.memInv) : EndsInForm (execRestore c b s) := by
  unfold execRestore
  extract_lets +onlyGivenNames _
  split
  · exact endsInForm_next h
  · refine endsInForm_ite (endsInForm_next h) ?_
    split
    rename_i e1
    refine endsInForm_ite (endsInForm_next h) ?_
    extract_lets +onlyGivenNames s1 seqNo
    have hs1 : s1.memInv := memInv_of_snd e1 (mapArea_memInv h)
    clear_value seqNo
    split
    · exact endsInForm_next (requeue_memInv (freeBank_memInv (event_memInv _ _ _ _ hs1)))
    · exact endsInForm_next (freeBank_memInv (refuseRec_memInv (dropRec_memInv hs1)))
    · exact endsInForm_next (freeBank_memInv (refuseRec_memInv (dropRec_memInv hs1)))
    · exact endsInForm_next (ite_memInv (activate_memInv (modBank_memInv _ _ _ (memInv_of_parts (freeArea_memInv (putBytes_memInv _ _ _ _
          (placeWork_memInv (restoreSections_memInv hs1)))) rfl rfl rfl))) (modBank_memInv _ _ _ (memInv_of_parts (freeArea_memInv
          (putBytes_memInv _ _ _ _ (placeWork_memInv (restoreSections_memInv hs1)))) rfl rfl rfl)))

/-! ## The host interface -/

theorem modHost_memInv {s : State} {f : HostIf → HostIf} (h : s.memInv) : (s.modHost f).memInv := h

theorem statePage_memInv {s : State} (h : s.memInv) : s.statePage.memInv :=
  ite_memInv h (putCarried_memInv _ _ _ _ _ h)

theorem hostRead_memInv {s : State} {off : Nat} (h : s.memInv) : (s.hostRead off).memInv :=
  modHost_memInv h

theorem cmdEvent_memInv {s : State} {seqNo : W32} {status detail : Nat} (h : s.memInv) : (s.cmdEvent seqNo status detail).memInv :=
  event_memInv _ _ _ _ h

theorem refuseLaunch_memInv {s : State} {d : DieId} {r : Rec} (h : s.memInv) : (s.refuseLaunch d r).memInv :=
  refuseRec_memInv (modHost_memInv (dropRec_memInv (modDie_memInv _ _ _ h)))

theorem tearDown_memInv {s : State} {ctx : Nat} (h : s.memInv) : (s.tearDown ctx).memInv := by
  unfold State.tearDown
  refine foldl_memInv _ _ _ (fun s1 x hs => ?_) h
  refine foldl_memInv _ _ _ (fun _ _ hs1 => ?_) (foldl_memInv _ _ _ (fun _ _ hs1 => refuseLaunch_memInv hs1) hs)
  split
  · exact ite_memInv (refuseLaunch_memInv (freeBank_memInv hs1)) hs1
  · exact hs1

theorem takeParams_memInv {s : State} {dies pa : W64} (h : s.memInv) : (s.takeParams dies pa).memInv :=
  ite_memInv h (foldl_memInv _ _ _ (fun _ _ hs => modDie_memInv _ _ _ hs) h)

theorem acceptCmd_memInv {s : State} {c : Cmd} {hdr : Nat} (h : s.memInv) : (s.acceptCmd c hdr).memInv :=
  ite_memInv (cmdEvent_memInv (modHost_memInv h)) (ite_memInv (cmdEvent_memInv (modHost_memInv h)) (modHost_memInv (ite_memInv
      (takeParams_memInv (ite_memInv (tearDown_memInv (ite_memInv h (modHost_memInv h))) (ite_memInv h (modHost_memInv h)))) (ite_memInv
      (tearDown_memInv (ite_memInv h (modHost_memInv h))) (ite_memInv h (modHost_memInv h))))))

theorem readSlots_memInv {s : State} {n : Nat} (h : s.memInv) : (State.readSlots n s).memInv := by
  induction n generalizing s with
  | zero => exact h
  | succ n ih => exact ite_memInv h (ite_memInv (modHost_memInv h) (ih (acceptCmd_memInv h)))

theorem execEventWrite_endsInForm {s : State} (h : s.memInv) : EndsInForm (execEventWrite s) := by
  unfold execEventWrite
  extract_lets +onlyGivenNames _
  split
  · exact endsInForm_next h
  · exact endsInForm_ite (endsInForm_next h) (endsInForm_next (statePage_memInv (readSlots_memInv (modHost_memInv (putBytes_memInv _ _ _ _
        (putBytes_memInv _ _ _ _ h))))))

theorem cmdDone_memInv {s : State} {c : Cmd} {status detail : Nat} (h : s.memInv) : (s.cmdDone c status detail).memInv :=
  cmdEvent_memInv (modHost_memInv h)

theorem cmdTurn_endsInForm {s : State} {op : Nat} {start go : Cmd → State → State} (h : s.memInv)
    (hstart : ∀ c t, t.memInv → (start c t).memInv) (hgo : ∀ c t, t.memInv → (go c t).memInv) : EndsInForm (s.cmdTurn op start go) := by
  unfold State.cmdTurn
  refine endsInForm_ite (endsInForm_next h) ?_
  extract_lets +onlyGivenNames _ head
  split
  rename_i e
  clear_value head
  split
  · exact endsInForm_next (hgo _ _ (memInv_of_snd e (choose_memInv _ _ h)))
  · exact endsInForm_next (hstart _ _ (modHost_memInv (memInv_of_snd e (choose_memInv _ _ h))))
  · exact endsInForm_next (memInv_of_snd e (choose_memInv _ _ h))

theorem cmdNote_memInv {s : State} {c : Cmd} {n : Nat} (h : s.memInv) : (s.cmdNote c n).memInv :=
  modHost_memInv h

theorem cmdOnce_endsInForm {s : State} {op : Nat} {run : Cmd → State → State} (h : s.memInv)
    (hrun : ∀ c t, t.memInv → (run c t).memInv) : EndsInForm (s.cmdOnce op run) :=
  cmdTurn_endsInForm h hrun (fun _ _ hs => hs)

theorem execLaunch_endsInForm {s : State} (h : s.memInv) : EndsInForm (execLaunch s) := by
  unfold execLaunch
  refine cmdOnce_endsInForm h (fun a _ hs => ?_)
  refine ite_memInv (cmdDone_memInv hs) ?_
  extract_lets +onlyGivenNames _ _ _
  split
  · exact cmdDone_memInv (acceptRec_memInv hs)
  · exact cmdDone_memInv (refuseRec_memInv hs)

theorem loadHandler_memInv {s : State} {w : Vector W64 12} (h : s.memInv) : (s.loadHandler w).memInv :=
  h

theorem execCtxcreate_endsInForm {s : State} (h : s.memInv) : EndsInForm (execCtxcreate s) := by
  unfold execCtxcreate
  refine cmdOnce_endsInForm h (fun a _ hs => ?_)
  refine ite_memInv (cmdDone_memInv hs) ?_
  extract_lets +onlyGivenNames s1 _ _
  have hs1 : s1.memInv := loadHandler_memInv hs
  exact cmdDone_memInv hs1

theorem discardRecs_memInv {s : State} {ctx : Nat} (h : s.memInv) : (s.discardRecs ctx).memInv :=
  foldl_memInv _ _ _ (fun _ _ hs => foldl_memInv _ _ _ (fun s2 x1 hs1 => memInv_of_parts (s := s2.dropRec x1)
      (dropRec_memInv hs1) rfl rfl rfl) (modDie_memInv _ _ _ hs)) h

theorem killFor_memInv {s : State} {w : Who} (h : s.memInv) : (s.killFor w).memInv := by
  unfold State.killFor
  split
  · exact modBank_memInv _ _ _ h
  · exact beginKill_memInv h

theorem setCtxs_memInv {s : State} {xs : NMap Ctx} {cs : Vector Core 512} (h : s.memInv) : { s with ctxs := xs, cores := cs }.memInv :=
  h

theorem execCtxteardown_endsInForm {s : State} (h : s.memInv) : EndsInForm (execCtxteardown s) := by
  unfold execCtxteardown
  refine cmdTurn_endsInForm h (fun c t ht => ?_) fun c t ht => ?_
  · exact ite_memInv (cmdDone_memInv ht) (foldl_memInv _ _ _ (fun _ _ hu => killFor_memInv hu) (discardRecs_memInv ht))
  · exact ite_memInv ht (cmdDone_memInv (setCtxs_memInv (discardRecs_memInv ht)))

theorem takePages_memInv {s : State} (h : s.memInv) : s.takePages.memInv := h

theorem givePages_memInv {s : State} (h : s.memInv) : s.givePages.memInv :=
  foldl_memInv _ _ _ (fun _ _ hs => modAgent_memInv _ _ _ hs) h

theorem execPageanswer_endsInForm {s : State} (h : s.memInv) : EndsInForm (execPageanswer s) := by
  unfold execPageanswer
  refine cmdOnce_endsInForm h fun c t ht => ?_
  extract_lets tok
  split
  next e => exact cmdDone_memInv (answer_memInv e (takePages_memInv ht))
  next => exact cmdDone_memInv ht

theorem execShootdown_endsInForm {s : State} (h : s.memInv) : EndsInForm (execShootdown s) := by
  unfold execShootdown
  extract_lets go
  have hgo : ∀ c t, t.memInv → (go c t).memInv := by
    intro c t ht
    unfold go
    split
    next e => exact cmdDone_memInv (shoot_memInv e ht)
    next => exact ht
  exact cmdTurn_endsInForm h hgo hgo

theorem pageWalk_memInv {s : State} {ctx va : Nat} (h : s.memInv) : (s.pageWalk ctx va).2.memInv := by
  unfold State.pageWalk
  split
  · exact h
  · exact walk_memInv (fence_memInv h)

theorem uncountRange_memInv {s : State} {lo n : Nat} (h : s.memInv) : (s.uncountRange lo n).memInv :=
  h

theorem execPagerelease_endsInForm {s : State} (h : s.memInv) : EndsInForm (execPagerelease s) := by
  unfold execPagerelease
  extract_lets go
  have hgo : ∀ c t, t.memInv → (go c t).memInv := by
    intro c t ht
    unfold go
    refine ite_memInv (cmdDone_memInv ht) ?_
    split
    next => exact ht
    next e =>
      have hu := shoot_memInv e ht
      split
      next e => exact ite_memInv (memInv_of_snd e (pageWalk_memInv hu)) (cmdDone_memInv (givePages_memInv (uncountRange_memInv
          (memInv_of_snd e (pageWalk_memInv hu)))))
      next e => exact memInv_of_snd e (pageWalk_memInv hu)
      next e => exact cmdDone_memInv (memInv_of_snd e (pageWalk_memInv hu))
  exact cmdTurn_endsInForm h hgo hgo

theorem wipe_memInv {s : State} {inside : Nat → Bool} (h : s.memInv) : (s.wipe inside).memInv :=
  ⟨Memory.wf_filter _ h.1, h.2⟩

theorem execSavefclear_endsInForm {s : State} (h : s.memInv) : EndsInForm (execSavefclear s) := by
  unfold execSavefclear
  refine cmdOnce_endsInForm h (fun a _ hs => ?_)
  extract_lets +onlyGivenNames _ ws
  clear_value ws
  split
  · exact cmdDone_memInv hs
  · exact cmdDone_memInv (modBank_memInv _ _ _ hs)

end Sys2Proof.Machine
end

section
/-! PROOFS. The canonical form of memory across the engines of a cluster, reliability, power and the debugger (log 2). -/
namespace Sys2Proof.Machine

/-! ## The lamplighter -/

theorem lampBits_memInv {s : State} {c : LCmd} {set : Bool} {ws : List (Nat × Nat)} (h : s.memInv) : (s.lampBits c set ws).2.memInv := by
  induction ws generalizing s with
  | nil => exact h
  | cons w ws ih =>
    unfold State.lampBits
    split
    next e => exact memInv_of_snd_snd e (engRead_memInv h)
    next e =>
      have ht := memInv_of_snd_snd e (engRead_memInv h)
      dsimp only
      split
      next e => exact memInv_of_snd e (engWrite_memInv ht)
      next e => exact ih (memInv_of_snd e (engWrite_memInv ht))

theorem lampZero_memInv {s : State} {c : LCmd} {list : Bool} {off n : Nat} (h : s.memInv) : (s.lampZero c list off n).2.memInv := by
  induction n with
  | zero => exact h
  | succ n ih =>
    unfold State.lampZero
    split
    next e => exact memInv_of_snd e ih
    next e => split <;> next e' => exact memInv_of_snd e' (engWrite_memInv (memInv_of_snd e ih))

theorem lampRead_memInv {s : State} {c : LCmd} {off n : Nat} (h : s.memInv) : (s.lampRead c off n).2.memInv := by
  induction n with
  | zero => exact h
  | succ n ih =>
    unfold State.lampRead
    split
    next e => exact memInv_of_snd e ih
    next e => split <;> next e' => exact memInv_of_snd_snd e' (engRead_memInv (memInv_of_snd e ih))

theorem lampIndices_memInv {s : State} {c : LCmd} {va : W64} {ts : List Nat} (h : s.memInv) : (s.lampIndices c va ts).2.memInv := by
  induction ts generalizing s c va with
  | nil => exact h
  | cons t ts ih =>
    unfold State.lampIndices
    split
    next e => exact memInv_of_snd e (engWrite_memInv h)
    next e => exact ih (memInv_of_snd e (engWrite_memInv h))

theorem lampExtent_memInv {s : State} {c : LCmd} {shape : W64} {n : Nat} (h : s.memInv) : (s.lampExtent c shape n).2.memInv := by
  unfold State.lampExtent
  split
  · exact h
  · extract_lets +onlyGivenNames _
    split
    · rename_i e2
      exact memInv_of_snd_snd e2 (engRead_memInv h)
    · rename_i e1
      split
      · rename_i e3
        exact memInv_of_snd e3 (engWrite_memInv (memInv_of_snd_snd e1 (engRead_memInv h)))
      · rename_i e2
        exact memInv_of_snd e2 (engWrite_memInv (memInv_of_snd_snd e1 (engRead_memInv h)))

theorem lampList_memInv {s : State} {c : LCmd} {b : LMap} {va shape : W64} {cap : Nat} {clr : Bool} (h : s.memInv) :
    (s.lampList c b va shape cap clr).2.memInv := by
  unfold State.lampList
  split
  · rename_i e1
    exact memInv_of_snd e1 (lampRead_memInv h)
  · rename_i e
    extract_lets +onlyGivenNames _
    split
    · rename_i e2
      exact memInv_of_snd e2 (lampIndices_memInv (memInv_of_snd e (lampRead_memInv h)))
    · rename_i e1
      split
      · rename_i e3
        exact memInv_of_snd e3 (lampExtent_memInv (memInv_of_snd e1 (lampIndices_memInv (memInv_of_snd e (lampRead_memInv h)))))
      · rename_i e2
        split
        · split
          · rename_i e5
            exact memInv_of_snd e5 (lampZero_memInv (memInv_of_snd e2 (lampExtent_memInv (memInv_of_snd e1 (lampIndices_memInv
                (memInv_of_snd e (lampRead_memInv h)))))))
          · rename_i e4
            exact memInv_of_snd e4 (lampZero_memInv (memInv_of_snd e2 (lampExtent_memInv (memInv_of_snd e1 (lampIndices_memInv
                (memInv_of_snd e (lampRead_memInv h)))))))
        · exact memInv_of_snd e2 (lampExtent_memInv (memInv_of_snd e1 (lampIndices_memInv (memInv_of_snd e (lampRead_memInv h)))))

theorem keepWalk_memInv {s t : State} {c : CoreId} (h : s.memInv) : (s.keepWalk t c).memInv :=
  ite_memInv h h

theorem lampWaits_memInv {s : State} {u : CluId} {c : LCmd} (h : s.memInv) : (s.lampWaits u c).memInv :=
  modClu_memInv _ _ _ h

theorem lampEnds_memInv {α : Type} {s : State} {u : CluId} {c : LCmd} {r : Except EStop α × State} (h : s.memInv) (hr : r.2.memInv) :
    (s.lampEnds u c r).memInv := by
  unfold State.lampEnds
  split
  next => exact hr
  next => exact lampWaits_memInv (keepWalk_memInv h)
  next => exact lampWaits_memInv (postFault_memInv (keepWalk_memInv h))
  next => exact engEnd_memInv hr

theorem lampMark_memInv {s : State} {u : CluId} {c : LCmd} (h : s.memInv) : (s.lampMark u c).memInv := by
  unfold State.lampMark
  split
  · split
    · exact lampEnds_memInv h (lampBits_memInv h)
    · exact h
  · split
    · exact lampEnds_memInv h (lampBits_memInv h)
    · exact h
  · exact h

theorem lampPart_memInv {s : State} {u : CluId} {cs : List LCmd} (h : s.memInv) : (s.lampPart u cs).memInv := by
  induction cs generalizing s with
  | nil => exact h
  | cons c cs ih => exact ite_memInv (ih (lampMark_memInv h)) (modClu_memInv _ _ _ (lampMark_memInv h))

theorem countResult_memInv {s : State} {c : LCmd} {id : Nat} {v : W64} (h : s.memInv) : (s.countResult c id v).memInv :=
  ite_memInv (modSeq_memInv _ _ _ h) h

theorem lampHead_memInv {s : State} {u : CluId} {c : LCmd} (h : s.memInv) : (s.lampHead u c).memInv := by
  unfold State.lampHead
  split
  · exact lampEnds_memInv (modClu_memInv _ _ _ h) (lampZero_memInv (modClu_memInv _ _ _ h))
  · split
    next => exact h
    next =>
      split
      next e => exact lampWaits_memInv (memInv_of_snd e (lampList_memInv h))
      next => exact lampEnds_memInv h (lampList_memInv h)
  · split
    next => exact h
    next =>
      split
      next e => exact countResult_memInv (memInv_of_snd e (lampRead_memInv h))
      next e => exact countResult_memInv (engEnd_memInv (fresh_memInv (memInv_of_snd e (lampRead_memInv h))))
      next e => exact lampEnds_memInv h (memInv_of_snd e (lampRead_memInv h))
  · exact h

theorem execLamplighterApply_endsInForm {u : CluId} {s : State} (h : s.memInv) : EndsInForm (execLamplighterApply u s) := by
  unfold execLamplighterApply
  split
  · exact endsInForm_next h
  · exact endsInForm_ite (endsInForm_next h) (endsInForm_ite (endsInForm_next (awaitHomes_memInv h (fun _ _ hs =>
        modClu_memInv _ _ _ hs) (fun _ hs => engDone_memInv (modClu_memInv _ _ _ hs)))) (endsInForm_ite (endsInForm_next (lampPart_memInv
        (foldl_memInv _ _ _ (fun _ _ hs => engStart_memInv hs) (modClu_memInv _ _ _ h)))) (endsInForm_next (lampHead_memInv
        (engStart_memInv (modClu_memInv _ _ _ h))))))

/-! ## The matrix engine -/

theorem landAllRows_memInv {s : State} {c : CoreId} (h : s.memInv) : (s.landAllRows c).memInv := by
  unfold State.landAllRows
  refine foldl_memInv _ _ _ (fun _ x hs => ?_) h
  split
  · exact hs
  · refine ite_memInv hs ?_
    split
    exact modCore_memInv _ _ _ (modBank_memInv _ _ _ hs)

theorem matrixDone_memInv {s : State} {w : Who} {flag : Option (BitVec 5)} (h : s.memInv) : (s.matrixDone w flag).memInv :=
  engDone_memInv h

theorem window_memInv {s : State} {w : Who} {z : Fin 8} {cmds rows : Nat} {es : List WinE} (h : s.memInv) :
    (s.window w z cmds rows es).memInv :=
  ite_memInv h (modBank_memInv _ _ _ h)

theorem opStart_memInv {s : State} {m : MCmd} {o : MOp} (h : s.memInv) : (s.opStart m o).memInv :=
  modCore_memInv _ _ _ (window_memInv (ite_memInv (modBank_memInv _ _ _ h) h))

theorem execMatrixCmdStart_endsInForm {c : CoreId} {s : State} (h : s.memInv) : EndsInForm (execMatrixCmdStart c s) := by
  unfold execMatrixCmdStart
  extract_lets +onlyGivenNames _ _
  split
  rename_i e
  split
  · exact endsInForm_next (memInv_of_snd e (choose_memInv _ _ h))
  · split
    · exact endsInForm_next (memInv_of_snd e (choose_memInv _ _ h))
    · extract_lets +onlyGivenNames s1
      have hs1 : s1.memInv := engStart_memInv (modCore_memInv _ _ _ (memInv_of_snd e (choose_memInv _ _ h)))
      refine endsInForm_ite (endsInForm_next (engEnd_memInv hs1)) ?_
      split
      · exact endsInForm_next (opStart_memInv hs1)
      · exact endsInForm_next (matrixDone_memInv (ite_memInv (modBank_memInv _ _ _ hs1) hs1))
      · exact endsInForm_next (matrixDone_memInv (ite_memInv (modBank_memInv _ _ _ hs1) hs1))
      · exact endsInForm_next (modCore_memInv _ _ _ hs1)

theorem matrixPop_memInv {s : State} {c : CoreId} (h : s.memInv) : (s.matrixPop c).memInv := by
  unfold State.matrixPop
  split
  · exact h
  · split
    · exact h
    · refine ite_memInv h ?_
      split
      · exact h
      · split
        refine modCore_memInv _ _ _ ?_
        split
        · exact modBank_memInv _ _ _ (window_memInv (count_memInv _ _ _ _ (modQ_memInv h)))
        · exact window_memInv (count_memInv _ _ _ _ (modQ_memInv h))

theorem opDone_memInv {s : State} {c : CoreId} {r : MRun} (h : s.memInv) : (s.opDone c r).memInv :=
  matrixDone_memInv (ite_memInv (imprecise_memInv (ite_memInv (modBank_memInv _ _ _ (modCore_memInv _ _ _ h)) (modCore_memInv _ _ _ h)))
      (ite_memInv (modBank_memInv _ _ _ (modCore_memInv _ _ _ h)) (modCore_memInv _ _ _ h)))

theorem execMatrixOpComplete_endsInForm {c : CoreId} {s : State} (h : s.memInv) : EndsInForm (execMatrixOpComplete c s) := by
  unfold execMatrixOpComplete
  split
  · exact endsInForm_next h
  · exact endsInForm_next (opDone_memInv h)

/-- A fold over triples keeps what each of its steps keeps. The step's answer is named: of a step that takes a pair apart, the kernel
would else evaluate the pair. -/
theorem foldl_snd_snd_memInv {α β γ : Type} (f : β × γ × State → α → β × γ × State) (xs : List α) (p : β × γ × State)
    (hf : ∀ p x q, p.2.2.memInv → f p x = q → q.2.2.memInv) (h : p.2.2.memInv) : (xs.foldl f p).2.2.memInv := by
  induction xs generalizing p with
  | nil => exact h
  | cons x xs ih => exact ih _ (hf p x _ h rfl)

theorem readPlane_memInv {s : State} {c : CoreId} {r : WRun} (h : s.memInv) : (s.readPlane c r).2.2.memInv := by
  rw [State.readPlane]
  refine foldl_snd_snd_memInv _ _ _ (fun p k q ht e => ?_) h
  extract_lets at e
  split at e
  next e' =>
    cases e
    exact memInv_of_snd e' (loadBytes_memInv ht)

theorem fenceEngine_memInv {s : State} {c : CoreId} {e : Fin 4} {w : Who} {cls addr : Nat} (h : s.memInv) :
    (s.fenceEngine c e w cls addr).memInv := by
  unfold State.fenceEngine
  refine ite_memInv h ?_
  extract_lets +onlyGivenNames _ s1 __src
  have hs1 : s1.memInv := errorReport_memInv h
  have h__src : __src.memInv := modCore_memInv _ _ _ hs1
  exact h__src

theorem wloadStep_memInv {s : State} {c : CoreId} (h : s.memInv) : (s.wloadStep c).memInv := by
  unfold State.wloadStep
  split
  · exact h
  · refine ite_memInv h ?_
    split
    rename_i e1
    refine ite_memInv (modCore_memInv _ _ _ (consumed_memInv (memInv_of_snd_snd e1 (readPlane_memInv h)))) ?_
    extract_lets +onlyGivenNames s1
    have hs1 : s1.memInv := modCore_memInv _ _ _ (memInv_of_snd_snd e1 (readPlane_memInv h))
    exact ite_memInv (fenceEngine_memInv (engEnd_memInv hs1)) (matrixDone_memInv (ite_memInv (modBank_memInv _ _ _ hs1) hs1))

theorem followOn_memInv {s : State} {w : Who} {i : Instr} (h : s.memInv) : (s.followOn w i).memInv := by
  unfold State.followOn
  split
  · exact ite_memInv (matrixEnter_memInv h) (imprecise_memInv h)
  · exact matrixEnter_memInv h
  · exact matrixEnter_memInv h
  · exact matrixClose_memInv h
  · exact h

theorem followAct_memInv {s : State} {w : Who} {i : Instr} {cfl : Option FlagRef} (h : s.memInv) : (s.followAct w i cfl).memInv :=
  engDone_memInv (ite_memInv (followOn_memInv h) h)

theorem followPlace_memInv {s : State} {c : CoreId} {id : Nat} (h : s.memInv) : (s.followPlace c id).memInv := by
  unfold State.followPlace
  split
  · exact h
  · split
    · exact h
    · exact ite_memInv h (followAct_memInv (modCore_memInv _ _ _ h))

theorem copyLanded_memInv {s : State} {r : Run} (h : s.memInv) : (s.copyLanded r).memInv := by
  unfold State.copyLanded
  split
  · extract_lets +onlyGivenNames s1
    have hs1 : s1.memInv := count_memInv _ _ _ _ h
    split
    · exact runDone_memInv hs1
    · extract_lets +onlyGivenNames s2
      have hs2 : s2.memInv := dropRun_memInv hs1
      split
      · exact hs2
      · exact ite_memInv (followAct_memInv hs2) (modCore_memInv _ _ _ hs2)
  · exact runDone_memInv h

theorem execCopyComplete_endsInForm {c : CoreId} {id : Nat} {s : State} (h : s.memInv) : EndsInForm (execCopyComplete c id s) := by
  unfold execCopyComplete
  split
  · exact endsInForm_next h
  · split
    · refine endsInForm_ite (endsInForm_next (runEnd_memInv h)) ?_
      refine endsInForm_ite (endsInForm_next h) ?_
      refine endsInForm_ite ?_ (endsInForm_next (runHomes_memInv h (fun _ _ hs => modRun_memInv hs) (fun a hs => copyLanded_memInv hs)))
      extract_lets +onlyGivenNames _
      split
      rename_i e2
      refine endsInForm_ite ?_ ?_
      · refine endsInForm_next ?_
        refine memInv_of_snd e2 ?_
        split
        · exact h
        · exact choose_memInv _ _ h
      · refine endsInForm_next ?_
        refine copyWord_memInv ?_
        refine memInv_of_snd e2 ?_
        split
        · exact h
        · exact choose_memInv _ _ h
    · exact endsInForm_next h

theorem matrixFail_memInv {s : State} {c : CoreId} (h : s.memInv) : (s.matrixFail c).memInv := by
  unfold State.matrixFail
  extract_lets +onlyGivenNames _ s1 s2
  have hs1 : s1.memInv := modCore_memInv _ _ _ h
  have hs2 : s2.memInv := foldl_memInv _ _ _ (fun _ _ hs => engEnd_memInv hs) hs1
  split
  · exact engEnd_memInv hs2
  · exact hs2

theorem replayStep_memInv {s : State} {c : CoreId} (h : s.memInv) : (s.replayStep c).memInv := by
  unfold State.replayStep
  extract_lets +onlyGivenNames at_
  clear_value at_
  split
  · exact h
  · exact modBank_memInv _ _ _ h

theorem startReplay_memInv {s : State} {w : Who} {z : Fin 8} (h : s.memInv) : (s.startReplay w z).memInv :=
  modCore_memInv _ _ _ (modBank_memInv _ _ _ h)

theorem matrixCycle_memInv {s : State} {c : CoreId} (h : s.memInv) : (s.matrixCycle c).memInv := by
  unfold State.matrixCycle
  extract_lets +onlyGivenNames s1 _
  have hs1 : s1.memInv := foldl_memInv _ _ _ (fun _ _ hs => followPlace_memInv hs) h
  exact ite_memInv (replayStep_memInv hs1) (ite_memInv hs1 (ite_memInv (matrixFail_memInv hs1) (matrixPop_memInv (matrixPop_memInv
      (wloadStep_memInv (foldl_memInv _ _ _ (fun _ _ hs => opDone_memInv hs) (landAllRows_memInv hs1)))))))

/-! ## Reliability -/

theorem stopTasks_memInv {s : State} {c : CoreId} (h : s.memInv) : (s.stopTasks c).memInv := by
  unfold State.stopTasks
  refine foldl_memInv _ _ _ (fun _ x hs => ?_) h
  extract_lets +onlyGivenNames _
  split
  · exact hs
  · exact ite_memInv hs (ite_memInv (requeue_memInv (freeBank_memInv hs)) (ite_memInv (beginKill_memInv hs) (modBank_memInv _ _ _ hs)))

theorem fenceCore_memInv {s : State} {c : CoreId} (h : s.memInv) : (s.fenceCore c).memInv :=
  stopTasks_memInv (modCore_memInv _ _ _ h)

theorem setPoison_memInv {s : State} {ws : List Nat} (h : s.memInv) : { s with poison := ws }.memInv :=
  h

theorem loseLine_memInv {s : State} {d : DieId} {n : Fin 256} {l : Nat} (h : s.memInv) : (s.loseLine d n l).memInv :=
  ite_memInv (setPoison_memInv h) h

theorem sliceHome_memInv {s : State} {d : DieId} {n : Fin 256} (h : s.memInv) : (s.sliceHome d n).memInv := by
  unfold State.sliceHome
  split
  rename_i e
  refine foldl_memInv _ _ _ (fun _ x hs => ?_) (memInv_of_snd e (choose_memInv _ _ h))
  split
  rename_i e1
  exact loseLine_memInv (memInv_of_snd e1 (choose_memInv _ _ hs))

theorem forgetHolder_memInv {s : State} {d : DieId} (h : s.memInv) : (s.forgetHolder d).memInv := h

theorem fenceEffect_memInv {s : State} {u : FUnit} (h : s.memInv) : (s.fenceEffect u).memInv := by
  unfold State.fenceEffect
  split
  · exact fenceCore_memInv h
  · exact modCore_memInv _ _ _ h
  · exact foldl_memInv _ _ _ (fun _ _ hs => stopTasks_memInv (modCore_memInv _ _ _ hs)) (modClu_memInv _ _ _ h)
  · exact foldl_memInv _ _ _ (fun _ _ hs => stopTasks_memInv (modCore_memInv _ _ _ hs)) (modClu_memInv _ _ _ h)
  · exact foldl_memInv _ _ _ (fun _ _ hs => stopTasks_memInv (modCore_memInv _ _ _ hs)) (modClu_memInv _ _ _ h)
  · exact foldl_memInv _ _ _ (fun _ _ hs => stopTasks_memInv (modCore_memInv _ _ _ hs)) (modClu_memInv _ _ _ h)
  · exact modDie_memInv _ _ _ (sliceHome_memInv h)
  · exact modDie_memInv _ _ _ h
  · exact modBoth_memInv h
  · exact forgetHolder_memInv h
  · exact fencePort_memInv h

theorem fence1_memInv {s : State} {u : FUnit} {lasting : Bool} (h : s.memInv) : (s.fence1 u lasting).memInv :=
  ite_memInv h (fenceEffect_memInv h)

theorem fenceUnit_memInv {s : State} {u : FUnit} {cls : Nat} {addr : W64} {w : Option Who} (h : s.memInv) :
    (s.fenceUnit u cls addr w).memInv := by
  unfold State.fenceUnit
  refine ite_memInv h ?_
  split
  exact fence1_memInv (errorReport_memInv h)

theorem corrCount_memInv {s : State} {u : FUnit} (h : s.memInv) : (s.corrCount u).memInv :=
  ite_memInv (errorReport_memInv h) h

theorem execUnitFence_endsInForm {u : FUnit} {cls : Nat} {addr : BitVec 64} {s : State} (h : s.memInv) : EndsInForm
    (execUnitFence u cls addr s) :=
  endsInForm_ite (endsInForm_next h) (endsInForm_ite (endsInForm_next (corrCount_memInv h)) (endsInForm_next (fenceUnit_memInv h)))

theorem scanPass_memInv {s : State} {c : CoreId} {start : Nat} (h : s.memInv) : (s.scanPass c start).memInv :=
  foldl_memInv _ _ _ (fun _ _ hs => event_memInv _ _ _ _ hs) h

theorem suspect_memInv {s : State} {c : CoreId} {corr : W32} (h : s.memInv) : (s.suspect c corr).memInv :=
  event_memInv _ _ _ _ h

theorem endTickets_memInv {s : State} {c : CoreId} (h : s.memInv) : (s.endTickets c).memInv := h

theorem scanFail_memInv {s : State} {c : CoreId} (h : s.memInv) : (s.scanFail c).memInv := by
  unfold State.scanFail
  exact fenceUnit_memInv (modCore_memInv _ _ _ (endTickets_memInv (ite_memInv (suspect_memInv (foldl_memInv _ _ _ (fun _ _ hs =>
      suspect_memInv hs) h)) (foldl_memInv _ _ _ (fun _ _ hs => suspect_memInv hs) h))))

theorem testResult_memInv {s : State} {u : FUnit} {outcome state spare : Nat} (h : s.memInv) :
    (s.testResult u outcome state spare).memInv :=
  event_memInv _ _ _ _ h

theorem scanBegin_memInv {s : State} {c : CoreId} (h : s.memInv) : (s.scanBegin c).memInv :=
  ite_memInv (testResult_memInv (modCore_memInv _ _ _ h)) (modCore_memInv _ _ _ h)

theorem scanChoose_memInv {s : State} {c : CoreId} (h : s.memInv) : (s.scanChoose c).memInv := by
  unfold State.scanChoose
  refine foldl_memInv _ _ _ (fun _ x hs => ?_) (modCore_memInv _ _ _ (modDie_memInv _ _ _ h))
  extract_lets +onlyGivenNames _
  split
  · exact ite_memInv hs (ite_memInv (requeue_memInv (freeBank_memInv hs)) (modBank_memInv _ _ _ hs))
  · exact hs

theorem execScanStart_endsInForm {d : DieId} {s : State} (h : s.memInv) : EndsInForm (execScanStart d s) := by
  unfold execScanStart
  refine endsInForm_ite (endsInForm_next h) ?_
  split
  · exact endsInForm_next (scanBegin_memInv h)
  · refine endsInForm_ite (endsInForm_next h) ?_
    split
    · exact endsInForm_next h
    · exact endsInForm_next (ite_memInv (scanBegin_memInv (scanChoose_memInv h)) (scanChoose_memInv h))

theorem unfence_memInv {s : State} {u : FUnit} (h : s.memInv) : (s.unfence u).memInv := by
  unfold State.unfence
  extract_lets +onlyGivenNames v s1
  have hs1 : s1.memInv := h
  clear_value v
  split
  · exact modCore_memInv _ _ _ hs1
  · exact modCore_memInv _ _ _ hs1
  · exact modClu_memInv _ _ _ hs1
  · exact modClu_memInv _ _ _ hs1
  · exact modClu_memInv _ _ _ hs1
  · exact modClu_memInv _ _ _ hs1
  · exact modDie_memInv _ _ _ hs1
  · exact modDie_memInv _ _ _ hs1
  · exact modBoth_memInv hs1
  · exact hs1
  · exact hs1

theorem poisonRow_memInv {s : State} {d : DieId} {n : Nat} (h : s.memInv) : (s.poisonRow d n).memInv :=
  h

theorem spared_memInv {s : State} {u : FUnit} (h : s.memInv) : (s.spared u).2.2.memInv := by
  unfold State.spared
  split
  · extract_lets +onlyGivenNames _
    split
    · extract_lets +onlyGivenNames s1
      have hs1 : s1.memInv := modDie_memInv _ _ _ h
      split
      rename_i e1
      split
      · exact modCore_memInv _ _ _ (unfence_memInv (memInv_of_snd e1 (choose_memInv _ _ hs1)))
      · exact memInv_of_snd e1 (choose_memInv _ _ hs1)
    · exact h
  · split
    · exact h
    · split
      exact fence1_memInv (errorReport_memInv h)
  · split
    · exact unfence_memInv (modDie_memInv _ _ _ h)
    · exact h
  · split
    · exact unfence_memInv (modDie_memInv _ _ _ h)
    · exact h
  · split
    · exact unfence_memInv (modDie_memInv _ _ _ h)
    · exact h
  · split
    · exact unfence_memInv (modDie_memInv _ _ _ h)
    · exact h
  · extract_lets +onlyGivenNames _
    split
    · exact h
    · exact modDie_memInv _ _ _ (unfence_memInv h)
  · split
    rename_i e
    split
    · split
      rename_i e2
      exact unfence_memInv (memInv_of_snd e2 (fresh_memInv (memInv_of_snd e (choose_memInv _ _ h))))
    · exact poisonRow_memInv (memInv_of_snd e (choose_memInv _ _ h))
  · exact fenceLink_memInv h
  · exact h
  · exact h

theorem lasting_memInv {s : State} {u : FUnit} (h : s.memInv) : (s.lasting u).2.2.memInv :=
  spared_memInv h

theorem testsDone_memInv {s : State} {u : FUnit} (h : s.memInv) : (s.testsDone u).memInv :=
  foldl_memInv _ _ _ (fun _ _ hs => cmdDone_memInv hs) h

theorem testFail_memInv {s : State} {u : FUnit} (h : s.memInv) : (s.testFail u).memInv := by
  unfold State.testFail
  split
  · exact endTickets_memInv (foldl_memInv _ _ _ (fun _ _ hs => suspect_memInv hs) h)
  · exact h

theorem beginTests_memInv {s : State} (h : s.memInv) : s.beginTests.memInv := ite_memInv h h

theorem execSelftestComplete_endsInForm {u : FUnit} {pass : Bool} {s : State} (h : s.memInv) : EndsInForm
    (execSelftestComplete u pass s) := by
  unfold execSelftestComplete
  extract_lets +onlyGivenNames u1
  split
  · refine endsInForm_ite (endsInForm_next h) ?_
    refine endsInForm_ite ?_ ?_
    · refine endsInForm_next ?_
      refine testsDone_memInv ?_
      refine testResult_memInv ?_
      clear_value u1
      split
      · exact scanPass_memInv (unfence_memInv h)
      · exact modBoth_memInv (unfence_memInv h)
      · exact unfence_memInv h
    · split
      rename_i e1
      exact endsInForm_next (testsDone_memInv (testResult_memInv (memInv_of_snd_snd e1 (lasting_memInv (testFail_memInv h)))))
  · exact endsInForm_next h

theorem execScrubAtom_endsInForm {addr : Nat} {uncorrectable : Bool} {s : State} (h : s.memInv) : EndsInForm
    (execScrubAtom addr uncorrectable s) :=
  endsInForm_ite (endsInForm_next h) (endsInForm_ite (endsInForm_ite (endsInForm_next (ite_memInv h h)) (endsInForm_next
      (corrCount_memInv h))) (endsInForm_ite (endsInForm_next h) (endsInForm_ite (endsInForm_next (ite_memInv h (errorReport_memInv h)))
      (endsInForm_next (corrCount_memInv h)))))

theorem abandonTile_memInv {s : State} {w : Who} {z : Fin 8} (h : s.memInv) : (s.abandonTile w z).memInv :=
  imprecise_memInv (modBank_memInv _ _ _ h)

theorem recovers_memInv {s : State} {u : FUnit} {w : Who} (h : s.memInv) : (s.recovers u w).memInv := by
  unfold State.recovers
  split
  exact errorReport_memInv h

theorem execEngineWindowReplay_endsInForm {c : CoreId} {eng : Fin 6} {id : Nat} {second : Bool} {s : State} (h : s.memInv) : EndsInForm
    (execEngineWindowReplay c eng id second s) := by
  unfold execEngineWindowReplay
  refine endsInForm_ite (endsInForm_next h) ?_
  split
  · split
    · exact endsInForm_ite (endsInForm_next (fenceUnit_memInv (runEnd_memInv h))) (endsInForm_ite (endsInForm_next h) (endsInForm_next
          (modRun_memInv (recovers_memInv h))))
    · exact endsInForm_next h
  · exact endsInForm_ite (endsInForm_next h) (endsInForm_ite (endsInForm_next (fenceUnit_memInv (abandonTile_memInv h))) (endsInForm_next
        (startReplay_memInv (recovers_memInv h))))
  · split
    · split
      · exact endsInForm_ite (endsInForm_next (fenceUnit_memInv (outEnd_memInv h))) (endsInForm_next (modOut_memInv (recovers_memInv h)))
      · exact endsInForm_next h
    · exact endsInForm_next h
  · extract_lets +onlyGivenNames _
    split
    · exact endsInForm_ite (endsInForm_next (fenceUnit_memInv (engEnd_memInv (modClu_memInv _ _ _ h)))) (endsInForm_next
          (recovers_memInv h))
    · exact endsInForm_next h
  · extract_lets +onlyGivenNames _
    split
    · exact endsInForm_ite (endsInForm_next (fenceUnit_memInv (setRun_memInv h))) (endsInForm_ite (endsInForm_next (setRun_memInv
          (recovers_memInv h))) (endsInForm_next h))
    · exact endsInForm_next h
  · exact endsInForm_next h

theorem execSelftest_endsInForm {s : State} (h : s.memInv) : EndsInForm (execSelftest s) := by
  unfold execSelftest
  refine cmdOnce_endsInForm h (fun a _ hs => ?_)
  split
  · refine ite_memInv hs ?_
    refine ite_memInv (fence1_memInv hs) ?_
    split
    rename_i e2
    exact fenceUnit_memInv (memInv_of_snd e2 (choose_memInv _ _ hs))
  · exact cmdDone_memInv hs

theorem execRetire_endsInForm {s : State} (h : s.memInv) : EndsInForm (execRetire s) := by
  unfold execRetire
  refine cmdTurn_endsInForm h (fun a _ hs => ?_) (fun a _ hs => ?_)
  · split
    · split
      exact fence1_memInv (errorReport_memInv hs)
    · exact cmdDone_memInv hs
  · split
    · exact ite_memInv (cmdDone_memInv (testsDone_memInv (lasting_memInv hs))) hs
    · exact cmdDone_memInv hs

/-! ## Power and the checkpoint on loss -/

theorem powerReport_memInv {s : State} {d : DieId} (h : s.memInv) : (s.powerReport d).memInv :=
  event_memInv _ _ _ _ (modDie_memInv _ _ _ h)

theorem execClampChange_endsInForm {d : DieId} {cc tc : Bool} {mhz : BitVec 16} {s : State} (h : s.memInv) : EndsInForm
    (execClampChange d cc tc mhz s) :=
  endsInForm_ite (endsInForm_next (modDie_memInv _ _ _ h)) (endsInForm_ite (endsInForm_next h) (endsInForm_ite (endsInForm_next
      (modDie_memInv _ _ _ (modDie_memInv _ _ _ h))) (endsInForm_next (powerReport_memInv (modDie_memInv _ _ _ h)))))

theorem setClusters_memInv {s : State} {us : Vector Cluster 128} (h : s.memInv) : { s with clusters := us }.memInv :=
  h

theorem leaveGated_memInv {s : State} {d : DieId} (h : s.memInv) : (s.leaveGated d).memInv := by
  unfold State.leaveGated
  extract_lets inside t u v
  have ht : t.memInv := forgetHolder_memInv (wipe_memInv h)
  have hu : u.memInv := by
    unfold u
    refine foldl_memInv _ _ _ (fun x c hx => ?_) ht
    exact modCore_memInv _ _ _ hx
  clear_value u
  have hv : v.memInv := setClusters_memInv hu
  exact modDie_memInv _ _ _ hv

theorem enter_memInv {s : State} {d : DieId} {st : Nat} {cap : BitVec 16} (h : s.memInv) : (s.enter d st cap).memInv :=
  modDie_memInv _ _ _ (ite_memInv (foldl_memInv _ _ _ (fun _ _ hs => modCore_memInv _ _ _ hs) (ite_memInv (leaveGated_memInv h) h))
      (ite_memInv (leaveGated_memInv h) h))

/-- Dropping the image drops what is asked of it. -/
theorem dropImage_memInv {s : State} (h : s.memInv) : { s with image := none }.memInv :=
  ⟨h.1, fun _ hm => (Option.some_ne_none _ hm.symm).elim, h.2.2⟩

theorem dropDraft_memInv {s : State} (h : s.memInv) : { s with draft := none }.memInv :=
  ⟨h.1, h.2.1, fun _ hm => (Option.some_ne_none _ hm.symm).elim⟩

theorem execPowerstate_endsInForm {s : State} (h : s.memInv) : EndsInForm (execPowerstate s) := by
  unfold execPowerstate
  refine cmdOnce_endsInForm h fun c t ht => ?_
  extract_lets st cap ds
  refine ite_memInv (cmdDone_memInv ht) ?_
  split
  next => exact cmdDone_memInv ht
  next =>
    refine ite_memInv (ite_memInv ?_ ht) (cmdDone_memInv (foldl_memInv _ _ _ (fun _ _ hs => enter_memInv hs) ht))
    exact dropImage_memInv ht

theorem execCkptarm_endsInForm {s : State} (h : s.memInv) : EndsInForm (execCkptarm s) :=
  cmdOnce_endsInForm h fun _ _ ht => ite_memInv (cmdDone_memInv ht) (ite_memInv (cmdDone_memInv ht) (cmdDone_memInv
      (dropImage_memInv ht)))

theorem execHoldupBankLow_endsInForm {joules : Nat} {s : State} (h : s.memInv) : EndsInForm (execHoldupBankLow joules s) :=
  endsInForm_ite (endsInForm_next h) (endsInForm_ite (endsInForm_next (event_memInv _ _ _ _ h)) (endsInForm_next h))

theorem execInputPowerLoss_endsInForm {s : State} (h : s.memInv) : EndsInForm (execInputPowerLoss s) := by
  unfold execInputPowerLoss
  extract_lets commanded
  exact endsInForm_ite (endsInForm_next (dropDraft_memInv h)) (endsInForm_ite (endsInForm_next h) (endsInForm_next h))

theorem execLossSaveTasks_endsInForm {s : State} (h : s.memInv) : EndsInForm (execLossSaveTasks s) := by
  unfold execLossSaveTasks
  refine endsInForm_ite (endsInForm_next h) ?_
  refine endsInForm_ite (endsInForm_next h) ?_
  refine endsInForm_next ?_
  refine foldl_memInv _ _ _ (fun _ x hs => ?_) h
  split
  · exact hs
  · exact ite_memInv (requeue_memInv (freeBank_memInv hs)) (ite_memInv hs (modBank_memInv _ _ _ hs))

theorem execLossStoreState_endsInForm {s : State} (h : s.memInv) : EndsInForm (execLossStoreState s) := by
  unfold execLossStoreState
  refine endsInForm_ite (endsInForm_next h) ?_
  extract_lets m
  refine endsInForm_next ⟨h.1, h.2.1, fun n hn => ?_⟩
  cases hn
  rfl

theorem execLossStoreHbm_endsInForm {s : State} (h : s.memInv) : EndsInForm (execLossStoreHbm s) := by
  unfold execLossStoreHbm
  refine endsInForm_ite (endsInForm_next h) (endsInForm_next ⟨h.1, h.2.1, fun n hn => ?_⟩)
  obtain ⟨m, _, rfl⟩ := Option.map_eq_some_iff.1 hn
  exact h.1

theorem execLossCommit_endsInForm {s : State} (h : s.memInv) : EndsInForm (execLossCommit s) := by
  unfold execLossCommit
  exact endsInForm_ite (endsInForm_next h) (endsInForm_next ⟨h.1, h.2.2, fun _ hm => (Option.some_ne_none _ hm.symm).elim⟩)

theorem execHoldupBankExhausted_endsInForm {s : State} (h : s.memInv) : EndsInForm (execHoldupBankExhausted s) := by
  unfold execHoldupBankExhausted
  exact endsInForm_ite (endsInForm_next h) (endsInForm_next (dropDraft_memInv h))

/-- What is restored from an image whose memory has the form has it. -/
theorem fromImage_memInv {s : State} {m : Image} (h : s.memInv) (hm : m.mem.wf = true) : (s.fromImage m).memInv :=
  ⟨hm, fun _ hn => (Option.some_ne_none _ hn.symm).elim, h.2.2⟩

theorem hostFrom_memInv {s : State} {m : Image} (h : s.memInv) : (s.hostFrom m).memInv :=
  modHost_memInv h

theorem lossEvents_memInv {s : State} {es : List (W32 × W32 × Nat)} (h : s.memInv) : (s.lossEvents es).memInv := by
  induction es generalizing s with
  | nil => exact h
  | cons e es ih => exact ih (event_memInv _ _ _ _ (fresh_memInv h))

theorem execCkptrestore_endsInForm {s : State} (h : s.memInv) : EndsInForm (execCkptrestore s) := by
  unfold execCkptrestore
  refine cmdOnce_endsInForm h fun c t ht => ?_
  split
  next => exact cmdDone_memInv ht
  next m hm =>
    refine ite_memInv (cmdDone_memInv ht) (statePage_memInv (cmdDone_memInv (foldl_memInv _ _ _ (fun _ _ hs => cmdEvent_memInv hs) ?_)))
    exact lossEvents_memInv (hostFrom_memInv (fromImage_memInv ht (ht.2.1 m hm)))

theorem execCkptdiscard_endsInForm {s : State} (h : s.memInv) : EndsInForm (execCkptdiscard s) :=
  cmdOnce_endsInForm h fun _ _ ht => cmdDone_memInv (dropImage_memInv ht)

theorem bootStage_memInv {s : State} {k : Fin 4} (h : s.memInv) : (s.bootStage k).memInv :=
  ite_memInv h (foldl_memInv _ _ _ (fun _ _ hs => hs) h)

theorem reset_memInv : State.reset.memInv :=
  ⟨rfl, fun _ hm => (Option.some_ne_none _ hm.symm).elim, fun _ hm => (Option.some_ne_none _ hm.symm).elim⟩

theorem execModuleReset_endsInForm {s : State} (h : s.memInv) : EndsInForm (execModuleReset s) := by
  unfold execModuleReset
  extract_lets r t u
  have ht : t.memInv := ⟨reset_memInv.1, h.2.1, reset_memInv.2.2⟩
  have hu : u.memInv := foldl_memInv _ _ _ (fun _ _ hs => bootStage_memInv hs) ht
  clear_value u
  refine endsInForm_next ?_
  split
  · exact hu
  · exact hu

theorem execAttest_endsInForm {s : State} (h : s.memInv) : EndsInForm (execAttest s) :=
  cmdOnce_endsInForm h (fun _ _ hs => ite_memInv (cmdDone_memInv hs) (cmdDone_memInv (putBytes_memInv _ _ _ _ hs)))

/-! ## The debugger -/

theorem askStop_memInv {s : State} {c : CoreId} {cause : Byte} {q : SeqId} (h : s.memInv) : (s.askStop c cause q).memInv :=
  modCore_memInv _ _ _ h

theorem dbgResume_memInv {s t : State} {c : CoreId} {rec : W64} (e : s.dbgResume c rec = some t) (h : s.memInv) : t.memInv := by
  unfold State.dbgResume at e
  dsimp only at e
  split at e
  · exact absurd e (by simp)
  · cases e
    exact modCore_memInv _ _ _ (ite_memInv h (modBank_memInv _ _ _ h))

theorem dbgGoOn_memInv {s : State} {c : CoreId} (h : s.memInv) : (s.dbgGoOn c).memInv :=
  modCore_memInv _ _ _ (modBank_memInv _ _ _ h)

theorem execDbgclaim_endsInForm {s : State} (h : s.memInv) : EndsInForm (execDbgclaim s) := by
  unfold execDbgclaim
  refine cmdOnce_endsInForm h fun c t ht => ?_
  extract_lets x
  refine ite_memInv (cmdDone_memInv (modCore_memInv _ _ _ ht)) (ite_memInv (cmdDone_memInv (modCore_memInv _ _ _ ht)) ?_)
  have hgo : ∀ u, (match (t.core x).dbgRec with
      | some a => t.dbgResume x a
      | none => some (t.dbgGoOn x)) = some u → u.memInv := by
    intro u e
    split at e
    · exact dbgResume_memInv e ht
    · cases e
      exact dbgGoOn_memInv ht
  split
  next e => exact cmdDone_memInv (modCore_memInv _ _ _ (hgo _ e))
  next => exact cmdDone_memInv ht

theorem dbgStop_memInv {s : State} {area : W64} {x : CoreId × Nat} (h : s.memInv) : (s.dbgStop area x).memInv :=
  ite_memInv (foldl_memInv _ _ _ (fun _ _ hs => cmdDone_memInv hs) (modCore_memInv _ _ _ h)) (askStop_memInv (foldl_memInv _ _ _
      (fun _ _ hs => cmdDone_memInv hs) (modCore_memInv _ _ _ h)))

theorem execDbgstop_endsInForm {s : State} (h : s.memInv) : EndsInForm (execDbgstop s) :=
  cmdTurn_endsInForm h (fun _ _ hs => ite_memInv (cmdDone_memInv hs) (cmdNote_memInv (foldl_memInv _ _ _ (fun _ _ hs1 =>
      dbgStop_memInv hs1) hs))) (fun _ _ hs => ite_memInv (cmdDone_memInv hs) hs)

theorem execDbgresume_endsInForm {s : State} (h : s.memInv) : EndsInForm (execDbgresume s) := by
  unfold execDbgresume
  refine cmdOnce_endsInForm h fun c t ht => ?_
  extract_lets x
  refine ite_memInv (cmdDone_memInv ht) ?_
  split
  next e => exact cmdDone_memInv (dbgResume_memInv e ht)
  next => exact cmdDone_memInv ht

theorem beginStep_memInv {s : State} {c : CoreId} {mask n : Nat} (h : s.memInv) : (s.beginStep c mask n).memInv :=
  modCore_memInv _ _ _ (modBank_memInv _ _ _ h)

theorem execDbgstep_endsInForm {s : State} (h : s.memInv) : EndsInForm (execDbgstep s) :=
  cmdTurn_endsInForm h (fun _ _ hs => ite_memInv (cmdDone_memInv hs) (ite_memInv (cmdDone_memInv hs) (beginStep_memInv hs)))
      (fun _ _ hs => ite_memInv hs (cmdDone_memInv hs))

theorem execStepCountExpire_endsInForm {c : CoreId} {s : State} (h : s.memInv) : EndsInForm (execStepCountExpire c s) := by
  unfold execStepCountExpire
  split
  · exact endsInForm_next (askStop_memInv h)
  · exact endsInForm_next h

theorem execDbgpatch_endsInForm {s : State} (h : s.memInv) : EndsInForm (execDbgpatch s) := by
  unfold execDbgpatch
  refine cmdOnce_endsInForm h (fun a _ hs => ?_)
  refine ite_memInv (cmdDone_memInv hs) ?_
  refine ite_memInv (cmdDone_memInv hs) ?_
  split
  · exact cmdDone_memInv hs
  · split
    · rename_i e1
      exact ite_memInv (cmdDone_memInv (memInv_of_snd e1 (walk_memInv hs))) (cmdDone_memInv (memInv_of_parts (putBytes_memInv _ _ _ _
          (memInv_of_snd e1 (walk_memInv hs))) rfl rfl rfl))
    · rename_i e2
      exact cmdDone_memInv (memInv_of_snd e2 (walk_memInv hs))

theorem execProfblock_endsInForm {s : State} (h : s.memInv) : EndsInForm (execProfblock s) := by
  unfold execProfblock
  refine cmdOnce_endsInForm h (fun a _ hs => ?_)
  refine ite_memInv (cmdDone_memInv hs) ?_
  split <;> exact cmdDone_memInv hs

theorem execTracecfg_endsInForm {s : State} (h : s.memInv) : EndsInForm (execTracecfg s) :=
  cmdOnce_endsInForm h (fun _ _ hs => ite_memInv (cmdDone_memInv (modDie_memInv _ _ _ hs)) (ite_memInv (cmdDone_memInv hs) (cmdDone_memInv
      (modDie_memInv _ _ _ hs))))

theorem execPeerskew_endsInForm {s : State} (h : s.memInv) : EndsInForm (execPeerskew s) := by
  unfold execPeerskew
  refine cmdOnce_endsInForm h (fun a _ hs => ?_)
  refine ite_memInv (cmdDone_memInv hs) ?_
  split
  rename_i e
  split
  rename_i e1
  exact cmdDone_memInv (putBytes_memInv _ _ _ _ (memInv_of_snd e1 (fresh_memInv (memInv_of_snd e (fresh_memInv hs)))))

end Sys2Proof.Machine
end

section
/-! PROOFS. Every step keeps memory and the images of it in their canonical form, which they have after reset (R263, R268, log 2). -/
namespace Sys2Proof.Machine

/-! ## Instructions and events -/

/-- Each instruction and event keeps the canonical form; those of one kind do so for one reason. -/
theorem exec_endsInForm {s : State} (i : Instr) (h : s.memInv) : EndsInForm (exec i s) := by
  delta exec
  cases i with
  | nop => exact issue_endsInForm h (keepsForm_pure _)
  | add _ | sub _ | and _ | or _ | xor _ | shl _ | shr _ | sra _ | mul _ | mulh _ | min _ | max _ | div _ | seq _ | sne _ | slt _
  | sltu _ | sle _ | sleu _ =>
    exact issue_endsInForm h aluRRR_keepsForm
  | addi _ | andi _ | ori _ | xori _ | shli _ | shri _ | srai _ | muli _ => exact issue_endsInForm h aluRRI_keepsForm
  | li _ | lcat _ => exact issue_endsInForm h (sources_keepsForm.bind fun _ => scalarResult_keepsForm)
  | csel _ => exact execCsel_endsInForm h
  | clz _ | ctz _ | popc _ => exact issue_endsInForm h aluUn_keepsForm
  | fadd _ | fsub _ | fmul _ | fmin _ | fmax _ | flt _ => exact issue_endsInForm h fpRRR_keepsForm
  | fmad _ => exact execFmad_endsInForm h
  | ftoi _ | itof _ => exact issue_endsInForm h fpRound_keepsForm
  | br _ => exact issue_endsInForm h (keepsForm_get (fun _ _ => transfer_keepsForm))
  | brz _ | brnz _ | brlt _ | brge _ | brle _ | brgt _ => exact issue_endsInForm h branch_keepsForm
  | call _ => exact execCall_endsInForm h
  | ret _ | jmp _ => exact issue_endsInForm h jumpTo_keepsForm
  | loop _ => exact execLoop_endsInForm h
  | bqnz _ | bqz _ => exact issue_endsInForm h branchQueue_keepsForm
  | wait _ => exact issue_endsInForm h ((keepsForm_modify (fun _ hs => modSeq_memInv _ _ _ hs)).bind fun _ => keepsForm_pure _)
  | ld8 _ | ld16 _ | ld32 _ | ld64 _ | ld8s _ | ld16s _ | ld32s _ => exact issue_endsInForm h loadInstr_keepsForm
  | st8 _ | st16 _ | st32 _ | st64 _ => exact issue_endsInForm h storeInstr_keepsForm
  | amoadd _ | amoswp _ | amocas _ | amoand _ | amoor _ | amoxor _ => exact issue_endsInForm h amo_keepsForm
  | fenceCore _ | fenceClu _ | fenceDie _ | fenceMod _ | fenceSpan _ => exact issue_endsInForm h fenceInstr_keepsForm
  | efence _ => exact execEfence_endsInForm h
  | farm _ => exact execFarm_endsInForm h
  | fpost _ | fdec _ => exact issue_endsInForm h flagEvent_keepsForm
  | fread _ => exact execFread_endsInForm h
  | fwait _ => exact execFwait_endsInForm h
  | bar _ => exact execBar_endsInForm h
  | qpush _ => exact execQpush_endsInForm h
  | qpop _ | qpeek _ => exact issue_endsInForm h popOrPeek_keepsForm
  | qstat _ => exact issue_endsInForm h (dstsOk_keepsForm.bind fun _ => keepsForm_get (fun _ _ => queueResult_keepsForm))
  | qcfg _ => exact execQcfg_endsInForm h
  | spawn _ => exact execSpawn_endsInForm h
  | tstart _ => exact execTstart_endsInForm h
  | join _ => exact execJoin_endsInForm h
  | yield _ | gstat _ =>
    exact issue_endsInForm h (dstsOk_keepsForm.bind fun v => keepsForm_get (fun s1 hs => destOf_keepsForm.bind fun _ =>
        pendWrite_keepsForm.bind fun _ => keepsForm_when (keepsForm_modify (fun _ hs1 => modBank_memInv _ _ _ hs1)) (keepsForm_pure _)))
  | exit _ => exact issue_endsInForm h exitBody_keepsForm
  | sbind _ => exact execSbind_endsInForm h
  | sstop _ => exact execSstop_endsInForm h
  | sstat _ => exact execSstat_endsInForm h
  | gather _ => exact execGather_endsInForm h
  | gatherq _ => exact execGatherq_endsInForm h
  | copy _ => exact execCopy_endsInForm h
  | copyf _ => exact execCopyf_endsInForm h
  | copy2d _ => exact execCopy2d_endsInForm h
  | wload _ => exact execWload_endsInForm h
  | rcfill _ => exact execRcfill_endsInForm h
  | rcclose _ => exact execRcclose_endsInForm h
  | rcquery _ => exact execRcquery_endsInForm h
  | shload _ => exact execShload_endsInForm h
  | shext _ => exact execShext_endsInForm h
  | ldq _ => exact execLdq_endsInForm h
  | ldrow _ => exact execLdrow_endsInForm h
  | actBind _ => exact execActBind_endsInForm h
  | actMark _ => exact execActMark_endsInForm h
  | actClear _ => exact execActClear_endsInForm h
  | actList _ => exact execActList_endsInForm h
  | actCount _ => exact execActCount_endsInForm h
  | prefetch _ => exact execPrefetch_endsInForm h
  | gwait _ => exact issue_endsInForm h (keepsForm_get (fun _ _ => keepsForm_ite (keepsForm_hold_bind _ _ _) (keepsForm_pure _)))
  | vadd _ | vsub _ | vmul _ | vfma _ | vfms _ | vmin _ | vmax _ | vabs _ | vneg _ | viadd _ | visub _ | vimul _ | viand _ | vior _
  | vixor _ | vishl _ | vishr _ | vsel _ | vexp2 _ | vexp2d _ | vlog2 _ | vrcpSeed _ | vrsqSeed _ | vrotr _ | vrotc _ | vbcastr _
  | vbcastc _ | vredr _ | vredc _ | vscanr _ | vscanc _ =>
    exact issue_endsInForm h vecTiles_keepsForm
  | vceq _ | vclt _ | vcle _ | viceq _ | vilt _ => exact issue_endsInForm h vecCmp_keepsForm
  | vmov _ => exact issue_endsInForm h vecMov_keepsForm
  | vsplat _ => exact issue_endsInForm h vecSplat_keepsForm
  | vquant _ | vdequant _ => exact issueLim_endsInForm h quantLimits_keepsForm vecConvert_keepsForm
  | vftoi _ | vitof _ => exact issue_endsInForm h vecRound_keepsForm
  | mand _ | mor _ | mxor _ | mandn _ | vany _ | vall _ | mpop _ => exact issue_endsInForm h vecMasks_keepsForm
  | vflag _ => exact issue_endsInForm h vecFlag_keepsForm
  | vflagclr _ => exact issue_endsInForm h vecAdd_keepsForm
  | vpop _ => exact issue_endsInForm h vecPop_keepsForm
  | vpush _ => exact issue_endsInForm h vecPush_keepsForm
  | vget _ => exact issue_endsInForm h vecGet_keepsForm
  | vput _ => exact issue_endsInForm h vecPut_keepsForm
  | exposedWriteLand _ _ => exact endsInForm_next (landDue_memInv h)
  | mmul _ | mrank _ => exact issueLim_endsInForm h opLimits_keepsForm matrixOp_keepsForm
  | mswap _ => exact issue_endsInForm h matrixPlace_keepsForm
  | mzero _ => exact issue_endsInForm h (keepsForm_get (fun _ _ => matrixPlace_keepsForm))
  | mread _ => exact execMread_endsInForm h
  | mclose _ => exact issue_endsInForm h ((keepsForm_modify (fun _ hs => matrixClose_memInv hs)).bind fun _ => keepsForm_pure _)
  | mwait _ => exact execMwait_endsInForm h
  | mstat _ => exact execMstat_endsInForm h
  | fmtw _ => exact execFmtw_endsInForm h
  | fmtr _ => exact issue_endsInForm h (sources_keepsForm.bind fun _ => keepsForm_get (fun _ _ => scalarResult_keepsForm))
  | aecfg _ => exact execAecfg_endsInForm h
  | aerun _ => exact execAerun_endsInForm h
  | aeread _ => exact execAeread_endsInForm h
  | strow _ => exact execStrow_endsInForm h
  | stword _ => exact execStword_endsInForm h
  | scatter _ => exact execScatter_endsInForm h
  | strc _ => exact execStrc_endsInForm h
  | rstore _ => exact execRstore_endsInForm h
  | ratom _ => exact execRatom_endsInForm h
  | obind _ => exact execObind_endsInForm h
  | ostop _ => exact execOstop_endsInForm h
  | csrr _ => exact execCsrr_endsInForm h
  | csrw _ | cwinWrite _ | wsrangeWrite _ | wpcWrite _ => exact issueLim_endsInForm h csrLimits_keepsForm csrWrite_keepsForm
  | qmapWrite _ => exact issue_endsInForm h (raise_keepsForm _)
  | flogdatRead _ => exact execFlogdatRead_endsInForm h
  | pfblockWrite _ => exact execPfblockWrite_endsInForm h
  | trap _ | brk _ => exact issue_endsInForm h (keepsForm_throw _)
  | resume _ => exact execResume_endsInForm h
  | tlbinv _ => exact execTlbinv_endsInForm h
  | icinv _ => exact execIcinv_endsInForm h
  | rqrd _ => exact execRqrd_endsInForm h
  | rqwr _ => exact execRqwr_endsInForm h
  | pgmap _ => exact execPgmap_endsInForm h
  | pgdone _ => exact execPgdone_endsInForm h
  | illegalInstruction _ => exact endsInForm_next (stopped_memInv h)
  | impreciseTrap _ => exact execImpreciseTrap_endsInForm h
  | registerWriteLand _ _ _ => exact endsInForm_next (landFirst_memInv h)
  | stepCountExpire _ => exact execStepCountExpire_endsInForm h
  | tbskewMeasure _ _ => exact endsInForm_next (modDie_memInv _ _ _ h)
  | fetchLineArrive _ _ _ => exact execFetchLineArrive_endsInForm h
  | parkedRelease _ => exact endsInForm_next (releaseParked_memInv h)
  | drain _ => exact endsInForm_ite (endsInForm_next (drainHead_memInv h)) (endsInForm_next h)
  | apply _ => exact execApply_endsInForm h
  | deliver _ => exact execDeliver_endsInForm h
  | copyEngineStart _ => exact execCopyEngineStart_endsInForm h
  | streamElementPush _ _ => exact execStreamElementPush_endsInForm h
  | gatherRowDeliver _ _ _ => exact execGatherRowDeliver_endsInForm h
  | copyComplete _ _ => exact execCopyComplete_endsInForm h
  | followonPlace _ _ => exact endsInForm_next (followPlace_memInv h)
  | matrixCmdStart _ => exact execMatrixCmdStart_endsInForm h
  | matrixRowPop _ => exact endsInForm_next (ite_memInv h (matrixPop_memInv h))
  | matrixContributionLand _ => exact endsInForm_next (ite_memInv h (landAllRows_memInv h))
  | matrixOpComplete _ => exact execMatrixOpComplete_endsInForm h
  | wloadComplete _ => exact endsInForm_next (wloadStep_memInv h)
  | ostreamElementWrite _ _ => exact execOstreamElementWrite_endsInForm h
  | lamplighterApply _ => exact execLamplighterApply_endsInForm h
  | aeRunStart _ => exact execAeRunStart_endsInForm h
  | aeRunComplete _ => exact execAeRunComplete_endsInForm h
  | combineFlushTimeout _ => exact execCombineFlushTimeout_endsInForm h
  | remoteAck _ => exact execRemoteAck_endsInForm h
  | ratomReply _ => exact execRatomReply_endsInForm h
  | remoteRequestArrive _ _ => exact execRemoteRequestArrive_endsInForm h
  | peerLaunch _ _ _ => exact endsInForm_ite (endsInForm_next h) (endsInForm_next (memInv_of_parts (offerRow_memInv h) rfl rfl rfl))
  | flitReceive _ _ => exact execFlitReceive_endsInForm h
  | nakReceive _ => exact execNakReceive_endsInForm h
  | ackOnlyFlit _ => exact endsInForm_ite (endsInForm_next (sendAck_memInv h)) (endsInForm_next h)
  | laneFailure _ _ => exact execLaneFailure_endsInForm h
  | retrainComplete _ _ => exact execRetrainComplete_endsInForm h
  | requestGiveUp _ => exact execRequestGiveUp_endsInForm h
  | holderFenceTimeout _ => exact endsInForm_ite (endsInForm_next h) (endsInForm_next (fenceUnit_memInv h))
  | liveLineEvict _ => exact execLiveLineEvict_endsInForm h
  | fillStallResume _ => exact execFillStallResume_endsInForm h
  | countedFullTimeout _ => exact execCountedFullTimeout_endsInForm h
  | parityRepair _ _ _ _ _ _ => exact execParityRepair_endsInForm h
  | dispatch _ => exact execDispatch_endsInForm h
  | bankActivate _ => exact execBankActivate_endsInForm h
  | killComplete _ _ => exact execKillComplete_endsInForm h
  | preemptCheckpoint _ _ => exact execPreemptCheckpoint_endsInForm h
  | saveCommit _ _ => exact execSaveCommit_endsInForm h
  | restore _ _ => exact execRestore_endsInForm h
  | workSteal _ => exact execWorkSteal_endsInForm h
  | streamTlbPrefetch _ _ _ => exact execStreamTlbPrefetch_endsInForm h
  | unitFence _ _ _ => exact execUnitFence_endsInForm h
  | selftestComplete _ _ => exact execSelftestComplete_endsInForm h
  | engineWindowReplay _ _ _ _ => exact execEngineWindowReplay_endsInForm h
  | scrubAtom _ _ => exact execScrubAtom_endsInForm h
  | scanStart _ => exact execScanStart_endsInForm h
  | scanComplete _ _ => exact endsInForm_ite (endsInForm_next h) (endsInForm_next (ite_memInv (scanPass_memInv h) (scanFail_memInv h)))
  | clampChange _ _ _ _ => exact execClampChange_endsInForm h
  | powerReportDeferred _ => exact endsInForm_ite (endsInForm_next h) (endsInForm_next (powerReport_memInv h))
  | holdupBankLow _ => exact execHoldupBankLow_endsInForm h
  | inputPowerLoss => exact execInputPowerLoss_endsInForm h
  | lossSaveTasks => exact execLossSaveTasks_endsInForm h
  | lossWriteBack | lossOff => exact endsInForm_ite (endsInForm_next h) (endsInForm_next h)
  | lossStoreState => exact execLossStoreState_endsInForm h
  | lossStoreHbm => exact execLossStoreHbm_endsInForm h
  | lossCommit => exact execLossCommit_endsInForm h
  | moduleReset => exact execModuleReset_endsInForm h
  | hictlWrite _ => exact endsInForm_ite (endsInForm_next h) (endsInForm_next (statePage_memInv (modHost_memInv h)))
  | cqbellWrite _ => exact endsInForm_next (statePage_memInv (readSlots_memInv (modHost_memInv h)))
  | eqackWrite _ => exact endsInForm_next (statePage_memInv (modHost_memInv h))
  | hostRegWrite _ _ => exact endsInForm_ite (endsInForm_next h) (endsInForm_next (modHost_memInv h))
  | eventWrite => exact execEventWrite_endsInForm h
  | cmdNop | aclwrite | schedparam | ewtwrite => exact cmdOnce_endsInForm h (fun _ _ hs => cmdDone_memInv hs)
  | launch => exact execLaunch_endsInForm h
  | ctxcreate => exact execCtxcreate_endsInForm h
  | ctxteardown => exact execCtxteardown_endsInForm h
  | pageanswer => exact execPageanswer_endsInForm h
  | shootdown => exact execShootdown_endsInForm h
  | pagerelease => exact execPagerelease_endsInForm h
  | gangwrite => exact cmdOnce_endsInForm h (fun _ _ hs => cmdDone_memInv (wipe_memInv (modDie_memInv _ _ _ hs)))
  | savefclear => exact execSavefclear_endsInForm h
  | relparam | fwstage => exact cmdOnce_endsInForm h (fun _ _ hs => ite_memInv (cmdDone_memInv hs) (cmdDone_memInv hs))
  | selftest => exact execSelftest_endsInForm h
  | retire => exact execRetire_endsInForm h
  | powerstate => exact execPowerstate_endsInForm h
  | ckptarm => exact execCkptarm_endsInForm h
  | ckptrestore => exact execCkptrestore_endsInForm h
  | ckptdiscard => exact execCkptdiscard_endsInForm h
  | attest => exact execAttest_endsInForm h
  | dbgclaim => exact execDbgclaim_endsInForm h
  | dbgstop => exact execDbgstop_endsInForm h
  | dbgstep => exact execDbgstep_endsInForm h
  | dbgresume => exact execDbgresume_endsInForm h
  | dbgpatch => exact execDbgpatch_endsInForm h
  | dbgregw => exact cmdOnce_endsInForm h (fun a _ hs => ite_memInv (cmdDone_memInv hs) (cmdDone_memInv (modBank_memInv _ _ _ hs)))
  | profblock => exact execProfblock_endsInForm h
  | tracecfg => exact execTracecfg_endsInForm h
  | peerskew => exact execPeerskew_endsInForm h
  | holdupBankExhausted => exact execHoldupBankExhausted_endsInForm h

/-! ## Cycles -/

theorem setDies_memInv {s : State} {ds : Vector Die 8} (h : s.memInv) : { s with dies := ds }.memInv :=
  h

theorem endCycle_memInv {s : State} (h : s.memInv) : s.endCycle.memInv := by
  unfold State.endCycle
  extract_lets t u v w
  have ht : t.memInv := overflows_memInv h
  clear_value t
  have hu : u.memInv := ht
  have hv : v.memInv := by
    unfold v
    refine foldl_memInv _ _ _ (fun x c hx => ?_) hu
    exact zeroTest_memInv hx
  have hw : w.memInv := setDies_memInv hv
  exact clock_memInv (beginTests_memInv hw)

theorem turnOf_memInv {s t : State} {c : CoreId} {b : BankId} {q : SeqId} {i : Instr} (e : s.turnOf c b q = .run i t) (h : s.memInv) :
    t.memInv := by
  unfold State.turnOf at e
  extract_lets w u at e
  have hu : u.memInv := h
  split at e
  · exact absurd e (by simp)
  · split at e
    · exact absurd e (by simp)
    · split at e
      · injection e with _ e
        exact e ▸ hu
      · split at e
        · exact absurd e (by simp)
        next hf =>
          injection e with _ e
          exact e ▸ fetchCheck_keepsForm _ _ _ hu hf

theorem setCur_memInv {s : State} {w : Who} (h : s.memInv) : { s with cur := w }.memInv := h

theorem oneTurn_memInv {s : State} {p : Pass} {c : CoreId} {q : SeqId} (h : s.memInv) : (s.oneTurn p c q).memInv := by
  unfold State.oneTurn
  split
  · exact h
  · split
    next => exact h
    next => exact ite_memInv h (waitSlot_memInv h)
    next => exact ite_memInv h (stopped_memInv (setCur_memInv h))
    next i t e =>
      refine ite_memInv h ?_
      split
      next e' => exact exec_endsInForm i (turnOf_memInv e h) _ e'
      next => exact h

theorem round_memInv {p : Pass} {cs : List CoreId} {s : State} (h : s.memInv) : (State.round p cs s).memInv :=
  foldl_memInv _ _ _ (fun _ _ hs => foldl_memInv _ _ _ (fun _ _ hs1 => oneTurn_memInv hs1) hs) h

theorem settle_memInv {s : State} {p : Pass} {cs : List CoreId} (h : s.memInv) : (s.settle p cs).memInv := by
  unfold State.settle
  exact foldl_memInv _ _ _ (fun _ _ ht => ite_memInv (round_memInv ht) ht) (round_memInv h)

theorem setPhase_memInv {s : State} {p : Phase} (h : s.memInv) : { s with phase := p }.memInv := h

theorem raising_memInv {s : State} {p : Phase} {xs : List (Who × TrapInfo)} (h : s.memInv) :
    { s with phase := p, raised := xs }.memInv := h

theorem rounds_memInv {s : State} {cs : List CoreId} (h : s.memInv) : (s.rounds cs).memInv := by
  unfold State.rounds
  extract_lets t u
  have ht : t.memInv := by
    unfold t
    exact round_memInv (raising_memInv h)
  have hu : u.memInv := settle_memInv (settle_memInv ht)
  clear_value u
  exact setPhase_memInv (settle_memInv (setPhase_memInv hu))

theorem takeOne_memInv {s : State} {x : Who × Option TrapInfo} {o : Option State} (h : s.memInv) : (s.takeOne x o).memInv := by
  unfold State.takeOne
  split
  · exact trapped_memInv h
  · exact takeImprecise_memInv h

theorem setRaised_memInv {s : State} {xs : List (Who × TrapInfo)} (h : s.memInv) : { s with raised := xs }.memInv :=
  h

theorem coresCycle_memInv {s : State} {o : Option State} {n : Nat} {cs : List CoreId} (h : s.memInv) : (s.coresCycle o n cs).memInv := by
  induction n generalizing s cs with
  | zero => exact h
  | succ n ih =>
    unfold State.coresCycle
    extract_lets t late
    have ht : t.memInv := rounds_memInv h
    clear_value t
    split
    · exact ih (takeOne_memInv h)
    · exact ih (takeOne_memInv h)
    · exact setRaised_memInv (foldl_memInv _ _ _ (fun _ _ hu => modSeq_memInv _ _ _ hu) ht)

theorem coreStart_memInv {s : State} {c : CoreId} (h : s.memInv) : (s.coreStart c).memInv := by
  unfold State.coreStart
  extract_lets t u
  have ht : t.memInv := by
    unfold t
    split
    next e => exact execBankActivate_endsInForm h _ e
    next => exact h
  have hu : u.memInv := modCore_memInv _ _ _ ht
  exact matrixCycle_memInv (releaseParked_memInv hu)

theorem stopCycle_memInv {s o : State} {c : CoreId} (h : s.memInv) : (s.stopCycle o c).memInv := by
  unfold State.stopCycle
  split
  · exact ite_memInv h (stopCore_memInv h)
  · exact h

theorem cluCycle_memInv {s : State} {u : CluId} (h : s.memInv) : (s.cluCycle u).memInv := by
  unfold State.cluCycle
  extract_lets t v cs
  have ht : t.memInv := foldl_memInv _ _ _ (fun _ _ hx => coreStart_memInv hx) h
  have hv : v.memInv := foldl_memInv _ _ _ (fun _ _ hx => stopCycle_memInv hx) ht
  exact ite_memInv hv (coresCycle_memInv hv)

theorem tick_memInv {s : State} (h : s.memInv) : s.tick.memInv :=
  foldl_memInv _ _ _ (fun _ _ hx => cluCycle_memInv hx) (endCycle_memInv h)

theorem solo_endsInForm {s : State} {c : CoreId} {b : BankId} {q : SeqId} (h : s.memInv) : EndsInForm (s.solo c b q) := by
  unfold State.solo
  extract_lets w t
  have ht : t.memInv := by
    unfold t
    exact oneTurn_memInv (raising_memInv h)
  refine endsInForm_ite (endsInForm_next ?_) ?_
  · split
    · exact takeOne_memInv h
    · exact h
  · split
    next => exact endsInForm_next h
    next => exact endsInForm_next (waitSlot_memInv h)
    next => exact endsInForm_next (stopped_memInv (setCur_memInv h))
    next e => exact exec_endsInForm _ (turnOf_memInv e h)

/-! ## Steps -/

theorem turnAnswer_endsInForm {s : State} {listed : Bool} {turn : Turn} (h : s.memInv) : EndsInForm (s.turnAnswer listed turn) := by
  cases turn with
  | tick => exact endsInForm_next (tick_memInv h)
  | hostStore k pa bs => exact endsInForm_next (hostStore_memInv h)
  | hostRead o => exact endsInForm_next (hostRead_memInv h)
  | act i => exact endsInForm_ite (exec_endsInForm i h) (endsInForm_next h)
  | seq c b q => exact endsInForm_ite (solo_endsInForm h) (endsInForm_next (tick_memInv h))

theorem endsInForm_fault {f : Fault} : EndsInForm (.fault f) := fun _ h => absurd h (by simp)

theorem step_endsInForm {s : State} (h : s.memInv) : EndsInForm (step s) := by
  have hp := popTurn_memInv h
  rcases e : s.popTurn with ⟨turn, t⟩
  rw [e] at hp
  cases ho : t.off with
  | false =>
    rw [step_of_popTurn e ho]
    exact turnAnswer_endsInForm hp
  | true =>
    unfold step
    rw [e]
    cases turn with
    | act i => exact endsInForm_ite endsInForm_fault (endsInForm_ite (exec_endsInForm i hp) (endsInForm_next hp))
    | tick => exact endsInForm_ite endsInForm_fault (endsInForm_next (tick_memInv hp))
    | hostStore k pa bs => exact endsInForm_ite endsInForm_fault (endsInForm_next (hostStore_memInv hp))
    | hostRead o => exact endsInForm_ite endsInForm_fault (endsInForm_next (hostRead_memInv hp))
    | seq c b q =>
      exact endsInForm_ite endsInForm_fault (endsInForm_ite (endsInForm_next (tick_memInv hp)) (solo_endsInForm hp))

/-- Settles O42: memory lists nothing after reset, and no image is kept. -/
theorem resetHasMemoryForm : Obligations.ResetHasMemoryForm := reset_memInv

/-- Settles O43: each operation that ends a turn keeps the canonical form of memory and of the images of it. -/
theorem stepKeepsMemoryForm : Obligations.StepKeepsMemoryForm :=
  fun _ _ h e => step_endsInForm h _ e

end Sys2Proof.Machine
end

section
/-! PROOFS. Applying a write changes exactly its bytes (R268). -/
namespace Sys2Proof.Machine

/-! ## What the homes do to the row of a write leaves memory -/

theorem State.SameMemory.refl (s : State) : s.SameMemory s := ⟨rfl, rfl, rfl⟩

theorem State.SameMemory.trans {s t u : State} (h : s.SameMemory t) (h' : t.SameMemory u) : s.SameMemory u := by
  obtain ⟨hm, hh, hf⟩ := h
  obtain ⟨hm', hh', hf'⟩ := h'
  exact ⟨hm'.trans hm, hh'.trans hh, hf'.trans hf⟩

theorem modDie_sameMemory (s : State) (d : DieId) (f : Die → Die) : s.SameMemory (s.modDie d f) := ⟨rfl, rfl, rfl⟩

theorem foldl_sameMemory {α : Type} {f : State → α → State} (hf : ∀ (s : State) x, s.SameMemory (f s x)) (xs : List α) (s : State) :
    s.SameMemory (xs.foldl f s) := by
  induction xs generalizing s with
  | nil => exact .refl s
  | cons x xs ih => exact (hf s x).trans (ih _)

theorem choose_sameMemory (s : State) (n : Nat) : s.SameMemory (s.choose n).2 := by
  obtain ⟨c, hc⟩ := choose_frame s n
  rw [hc]
  exact .refl s

theorem writtenBack_sameMemory (s : State) (l : Nat) : s.SameMemory (s.writtenBack l).2 := by
  unfold State.writtenBack
  suffices h : ∀ (xs : List Nat) (acc : Payload × State), s.SameMemory acc.2 →
      s.SameMemory (xs.foldl (fun (acc : Payload × State) i =>
        let w := l / 256 * 32 + i
        let (k, s') := acc.2.choose (acc.2.lastIdx w + 1)
        let v := (acc.2.nth w (acc.2.lastIdx w - k)).1
        (acc.1 ||| (v.setWidth 2048 <<< (64 * i)), s')) acc).2 from h _ _ (.refl s)
  intro xs
  induction xs with
  | nil => exact fun _ h => h
  | cons x xs ih => exact fun acc h => ih _ (h.trans (choose_sameMemory _ _))

theorem fillRow_sameMemory (s : State) (l n o : Nat) : s.SameMemory (s.fillRow l n o) := by
  unfold State.fillRow
  split
  · exact .refl s
  · dsimp only
    split
    · split
      · exact .refl s
      · exact .refl s
    · exact (writtenBack_sameMemory s l).trans (modDie_sameMemory _ _ _)

theorem uncount_sameMemory (s : State) (l : Nat) : s.SameMemory (s.uncount l) := by
  unfold State.uncount
  split <;> exact .refl s

theorem writeRows_sameMemory (s : State) (e : WEnt) : s.SameMemory (s.writeRows e) := by
  unfold State.writeRows
  split
  · exact .refl s
  · split
    · exact fillRow_sameMemory s _ _ _
    · refine foldl_sameMemory (fun t p => ?_) _ s
      split
      · exact uncount_sameMemory t _
      · exact (refetch_frame t _).sameMemory

theorem tagCells_flight (s : State) (e : WEnt) : (s.tagCells e).flight = s.flight := by
  unfold State.tagCells
  refine (foldl_sameMemory (fun t p => ?_) e.parts s).2.2
  dsimp only
  split <;> exact .refl t

/-! ## The parts of a write -/

/-- One part of a write. -/
def State.writePart (s : State) (e : WEnt) (p : WPart) : State := (s.append e.agent e.carried p (e.tagX, e.tagK)).own e.agent p.word

theorem writePart_read {s : State} {e : WEnt} {p : WPart} (hw : s.mem.wf = true) (a : Nat) : (s.writePart e p).mem.read a =
    if a / 8 = p.word ∧ p.mask.getLsbD (a % 8) = true then p.data.extractLsb' (8 * (a % 8)) 8 else s.mem.read a := by
  rw [State.writePart, own_mem]
  exact append_read s e.agent e.carried p _ a hw

theorem writePart_wf {s : State} {e : WEnt} {p : WPart} (hw : s.mem.wf = true) : (s.writePart e p).mem.wf = true := by
  rw [State.writePart, own_mem]
  exact append_wf s e.agent e.carried p _ hw

/-- The parts of a write, one after the other. -/
def State.writeParts (s : State) (e : WEnt) (ps : List WPart) : State := ps.foldl (fun s p => s.writePart e p) s

theorem applyEnt_memory (s : State) (e : WEnt) :
    (s.applyEnt e).mem = ((s.writeRows e).writeParts e e.parts).mem ∧
      (s.applyEnt e).flight = ((s.writeRows e).writeParts e e.parts).flight := by
  let u := ((s.writeRows e).writeParts e e.parts).stepped
  have hm : (s.applyEnt e).mem = (u.tagCells e).mem := by
    unfold State.applyEnt
    dsimp only
    split <;> rfl
  have hf : (s.applyEnt e).flight = (u.tagCells e).flight := by
    unfold State.applyEnt
    dsimp only
    split <;> rfl
  exact ⟨hm.trans (tagCells_mem u e), hf.trans (tagCells_flight u e)⟩

section
variable (e : WEnt)

theorem writeParts_cons (s : State) (p : WPart) (ps : List WPart) :
    s.writeParts e (p :: ps) = (s.writePart e p).writeParts e ps := rfl

theorem writeParts_flight (s : State) (ps : List WPart) : (s.writeParts e ps).flight = s.flight := by
  induction ps generalizing s with
  | nil => rfl
  | cons p ps ih => exact ih _

/-- A byte that no part masks keeps its value. -/
theorem writeParts_read_outside {s : State} {ps : List WPart} {a : Nat} (hw : s.mem.wf = true)
    (ha : ∀ p, p ∈ ps → p.word = a / 8 → p.mask.getLsbD (a % 8) = false) : (s.writeParts e ps).mem.read a = s.mem.read a := by
  induction ps generalizing s with
  | nil => rfl
  | cons p ps ih =>
    rw [writeParts_cons, ih (writePart_wf hw) fun q hq => ha q (List.mem_cons_of_mem _ hq), writePart_read hw, if_neg]
    rintro ⟨hx, hm⟩
    rw [ha p List.mem_cons_self hx.symm] at hm
    exact Bool.false_ne_true hm

/-- A byte that a part masks takes that part's data, no other part having its word. -/
theorem writeParts_read_mem {s : State} {ps : List WPart} {p : WPart} {j : Nat} (hw : s.mem.wf = true) (hn : (ps.map (·.word)).Nodup)
    (hp : p ∈ ps) (hj : j < 8) (hm : p.mask.getLsbD j = true) :
    (s.writeParts e ps).mem.read (8 * p.word + j) = p.data.extractLsb' (8 * j) 8 := by
  have hword : (8 * p.word + j) / 8 = p.word := by omega
  have hbyte : (8 * p.word + j) % 8 = j := by omega
  induction ps generalizing s with
  | nil => exact absurd hp List.not_mem_nil
  | cons q ps ih =>
    rw [List.map_cons, List.nodup_cons] at hn
    obtain ⟨hq, hn⟩ := hn
    rw [writeParts_cons]
    have hw' : (s.writePart e q).mem.wf = true := writePart_wf hw
    rcases List.mem_cons.1 hp with rfl | hp
    · have hout : ∀ r, r ∈ ps → r.word = (8 * p.word + j) / 8 → r.mask.getLsbD ((8 * p.word + j) % 8) = false := fun r hr hrw =>
        absurd (List.mem_map.2 ⟨r, hr, hrw.trans hword⟩) hq
      rw [writeParts_read_outside e hw' hout, writePart_read hw, hword, hbyte, if_pos ⟨rfl, hm⟩]
    · exact ih hw' hn hp
end

/-- Settles O55: what the homes do to the row leaves memory, and the parts are written one after the other. -/
theorem applyWritesItsBytes : Obligations.ApplyWritesItsBytes := by
  intro s k e hw hk hn
  let u : State := { s with flight := s.flight.eraseIdx k }
  have ht : s.applyAt k = u.applyEnt e := by
    unfold State.applyAt
    rw [hk]
  obtain ⟨hm, hf⟩ := applyEnt_memory u e
  obtain ⟨hrm, -, hrf⟩ := writeRows_sameMemory u e
  have hw' : (u.writeRows e).mem.wf = true := by
    rw [hrm]
    exact hw
  dsimp only
  rw [ht, hm, hf]
  refine ⟨(writeParts_flight e _ _).trans hrf, fun p hp j hj hb => writeParts_read_mem e hw' hn hp hj hb, fun a ha => ?_⟩
  rw [writeParts_read_outside e hw' ha, hrm]

end Sys2Proof.Machine
end

section
/-! PROOFS. A load takes a value at or above its floor (R270). -/
namespace Sys2Proof.Machine

theorem choose_lt (s : State) {n : Nat} (h : 0 < n) : (s.choose n).1 < n := by
  unfold State.choose
  split
  · exact h
  · exact Nat.mod_lt _ h

theorem choose_nth (s : State) (n w i : Nat) : (s.choose n).2.nth w i = s.nth w i := by
  obtain ⟨c, hc⟩ := choose_frame s n
  rw [hc]
  rfl

theorem setFloor_floor (v : View) (w i : Nat) : (v.setFloor w i).floor w = i := by
  rw [View.floor, View.setFloor, NMap.get?_put_self, Option.getD_some]

theorem takeParts_nil (s : State) (a : Nat) (acq : Option Nat) : s.takeParts a [] acq = s := if_pos rfl

/-- What an agent's own writes, not yet applied, have of a word. -/
def State.ownParts (s : State) (a w : Nat) : List WPart := (s.mine a).filterMap fun e => e.parts.find? (·.word == w)

/-- The state of an agent that has read the write of index `i` of a word, `r`. -/
def State.reading (s : State) (a w i : Nat) (r : Option WRec) (acq : Option Nat) : State :=
  let s := if i = 0 then s else s.modAgent a fun g => { g with view := g.view.setFloor w i }
  match r with
  | some r => s.takeParts a r.parts acq
  | none => s

/-- The floor rises to the write that was read, where that carries nothing. -/
theorem reading_floor (s : State) (a w i : Nat) (r : Option WRec) (acq : Option Nat) (hi : 0 < i) (hr : ∀ x, r = some x → x.parts = []) :
    ((s.reading a w i r acq).agent a).view.floor w = i := by
  have hf : ((s.modAgent a fun g => { g with view := g.view.setFloor w i }).agent a).view.floor w = i := by
    rw [State.modAgent_agent_self]
    exact setFloor_floor _ w i
  unfold State.reading
  rw [if_neg (Nat.ne_of_gt hi)]
  cases r with
  | none => exact hf
  | some x =>
    dsimp only
    rw [hr x rfl, takeParts_nil]
    exact hf

section
variable (s : State) (a w : Nat) (m : Byte) (acq : Option Nat)

/-- Own writes that cover what is asked for supply it all. -/
theorem load_own (h : m &&& ~~~ ((s.ownParts a w).foldl (fun c p => c ||| p.mask) 0) = 0) :
    s.load a w m acq = ((s.ownParts a w).foldl (fun v p => overlay v p.mask p.data) 0, s) := if_pos h

/-- Else the load reads a write from the floor of the word on, an open choice. -/
theorem load_above (h : m &&& ~~~ ((s.ownParts a w).foldl (fun c p => c ||| p.mask) 0) ≠ 0) :
    let f := (s.agent a).view.floor w
    let c := s.choose (s.lastIdx w - f + 1)
    s.load a w m acq = ((s.ownParts a w).foldl (fun v p => overlay v p.mask p.data) (s.nth w (f + c.1)).1,
      c.2.reading a w (f + c.1) (s.nth w (f + c.1)).2 acq) := by
  intro f c
  unfold State.ownParts at h ⊢
  unfold State.load
  dsimp only
  rw [if_neg h, choose_nth]
  rfl
end

/-- Settles O54: the load reads a free choice among the writes from the floor on, and raises the floor to it. -/
theorem loadsKeepTheirFloor : Obligations.LoadsKeepTheirFloor := by
  intro s a w m acq own lay r
  refine ⟨load_own s a w m acq, fun h hf => ?_⟩
  have hr : r = _ := load_above s a w m acq h
  obtain ⟨g, c, hframe⟩ := load_frame s a w m acq
  have hk : (s.choose (s.lastIdx w - (s.agent a).view.floor w + 1)).1 < _ := choose_lt s (Nat.succ_pos _)
  refine ⟨(s.agent a).view.floor w + (s.choose (s.lastIdx w - (s.agent a).view.floor w + 1)).1, Nat.le_add_right _ _, by omega, ?_, ?_, ?_,
    fun hi hp => ?_⟩
  · rw [hr]
    rfl
  · rw [show r.2 = _ from hframe]
  · rw [show r.2 = _ from hframe]
  · rw [hr]
    exact reading_floor _ a w _ _ acq hi hp

end Sys2Proof.Machine
end

section
/-! PROOFS. Taking a trap: the bank it leaves, and the layout of the frame (R321-R325). -/
namespace Sys2Proof.Machine

/-! ## Operations that leave the banks, or how far they are frozen -/

theorem modCore_keepsBank (s : State) (c : CoreId) {f : Core → Core} (hf : ∀ k, (f k).banks = k.banks) (w : Who) :
    (s.modCore c f).bank w = s.bank w := by
  rw [State.bank, State.modCore_core]
  split
  · rw [hf]
    rfl
  · rfl

theorem tlbPut_banks (k : Core) (i : Nat) (t : List TlbE) : (k.tlbPut i t).banks = k.banks := by
  unfold Core.tlbPut
  split
  · rfl
  · split <;> rfl

theorem choose_bank (s : State) (n : Nat) (w : Who) : (s.choose n).2.bank w = s.bank w := by
  obtain ⟨c, hc⟩ := choose_frame s n
  rw [hc]
  rfl

theorem tlbKeep_bank (s : State) (c : CoreId) (i : Nat) (e : TlbE) (w : Who) : (s.tlbKeep c i e).bank w = s.bank w := by
  unfold State.tlbKeep
  dsimp only
  split
  · exact modCore_keepsBank s c (fun k => tlbPut_banks k _ _) w
  · refine (modCore_keepsBank _ c ?_ w).trans ((modCore_keepsBank _ c ?_ w).trans (choose_bank s _ w))
    · exact fun _ => rfl
    · exact fun k => tlbPut_banks k _ _

theorem keepDup_bank (s : State) (c : CoreId) (pa : Nat) (w : Who) : (s.keepDup c pa).bank w = s.bank w := by
  unfold State.keepDup
  split
  · rfl
  · dsimp only
    split
    · exact choose_bank s _ w
    · exact (choose_bank _ _ w).trans (choose_bank s _ w)

/-- A translation takes TLB entries and counts reads of the page table: the banks stay. -/
theorem translate_bank (s : State) (c : CoreId) (i : Nat) (ctx : BitVec 12) (root : W64) (va kind src : Nat) (w : Who) :
    (s.translate c i ctx root va kind src).2.bank w = s.bank w := by
  have seen (x : Except (Byte × W64) (Nat × Bool) × State) (h : x.2.bank w = s.bank w) :
      (match x with
        | (.ok (pa, true), s') => ((.ok (pa, true), if kind = 0 then s'.keepDup c pa else s') :
            Except (Byte × W64) (Nat × Bool) × State)
        | x => x).2.bank w = s.bank w := by
    split
    · dsimp only
      split
      · exact (keepDup_bank _ _ _ w).trans h
      · exact h
    · exact h
  unfold State.translate
  dsimp only
  refine seen _ ?_
  split
  · rfl
  · split
    · exact tlbKeep_bank s c i _ w
    · obtain ⟨g, ch, h⟩ := walk_frame (tlbAgent c i) va 4 s (fld root 39 12 * 4096)
      have hw : (walk s (tlbAgent c i) va 4 (fld root 39 12 * 4096)).2.bank w = s.bank w := by
        rw [h]
        rfl
      split
      next e => rw [e] at hw; exact hw
      next e => rw [e] at hw; exact hw
      next e => rw [e] at hw; exact hw
      next e =>
        rw [e] at hw
        split
        · exact (tlbKeep_bank _ c i _ w).trans hw
        · exact hw

theorem unpoison_cores (s : State) (l n : Nat) : (s.unpoison l n).cores = s.cores := by
  unfold State.unpoison
  split <;> rfl

theorem putWords_bank (s : State) (a pa : Nat) (ws : List W64) (w : Who) : (s.putWords a pa ws).bank w = s.bank w := by
  have hput (ps : List WPart) (t : State) : (t.put a ps).cores = t.cores := by
    unfold State.put
    show (ps.foldl _ t).cores = t.cores
    induction ps generalizing t with
    | nil => rfl
    | cons p ps ih => exact ih _
  have hcores : (s.putWords a pa ws).cores = s.cores := by
    unfold State.putWords State.putBytes
    rw [unpoison_cores, hput]
    rfl
  rw [State.bank, State.core, hcores]
  rfl

theorem landDst_frozen (s : State) (x : Who) (d : Dst) (v : W64) (w : Who) : ((s.landDst x d v).bank w).frozen = (s.bank w).frozen := by
  have hseq (f : Seq → Seq) : ((s.modSeq x f).bank w).frozen = (s.bank w).frozen := by
    rw [State.modSeq_bank]
    split <;> rfl
  cases d with
  | s n => exact hseq _
  | l n => exact hseq _
  | cnt n => exact hseq _
  | q n rid =>
    show ((s.modQ x n _).bank w).frozen = _
    rw [State.modQ_bank]
    split <;> rfl
  | drop => rfl

theorem landAll_frozen (s : State) (x w : Who) : ((s.landAll x).bank w).frozen = (s.bank w).frozen := by
  have hfirst (t : State) : ((t.landFirst x).bank w).frozen = (t.bank w).frozen := by
    unfold State.landFirst
    split
    · rfl
    · rw [landDst_frozen, State.modSeq_bank]
      split <;> rfl
  unfold State.landAll
  generalize (s.sq x).pend = ps
  induction ps generalizing s with
  | nil => rfl
  | cons p ps ih => exact (ih _).trans (hfirst s)

theorem freeze_frozen (s : State) (w : Who) : ((s.freeze w).bank w).frozen = true := by
  unfold State.freeze
  simp only [List.foldl_cons, List.foldl_nil, landAll_frozen, State.modBank_bank_self]

theorem freeze_comp_frozen (s : State) (w : Who) (comp : List W64) :
    (((s.freeze w).modBank w fun k => { k with comp := comp }).bank w).frozen = true := by
  have h := freeze_frozen s w
  rw [State.modBank_bank_self]
  generalize (s.freeze w).bank w = k at h ⊢
  exact h

/-! ## The bank that a trap enters -/

theorem saveBar_seqs (k : Bank) : k.saveBar.seqs = k.seqs := by
  unfold Bank.saveBar
  split <;> rfl

theorem saveBar_frozen (k : Bank) : k.saveBar.frozen = k.frozen := by
  unfold Bank.saveBar
  split <;> rfl

theorem enter_level (k : Bank) (info : W64) : (k.enter info).level = true := rfl

theorem enter_frozen (k : Bank) (info : W64) : (k.enter info).frozen = k.frozen := saveBar_frozen k

/-- C goes to the vector with the area in s1 and INFO in s2 (R321). -/
theorem enter_seq (k : Bank) (info : W64) : ((k.enter info).seqs.get 0).pc = k.tvec ∧ ((k.enter info).seqs.get 0).s.get 1 = k.tfbase ∧
    ((k.enter info).seqs.get 0).s.get 2 = info := by
  have hseqs : (k.enter info).seqs = vset k.saveBar.seqs 0 _ := rfl
  rw [hseqs, saveBar_seqs, vset_get_self]
  exact ⟨rfl, by simp [vset_get], by simp⟩

/-! ## The layout of the frame -/

theorem fileWords_length (q : Seq) : q.fileWords.length = 50 := by
  simp [Seq.fileWords, LFrame.words]

theorem fileWords_s (q : Seq) (n : Fin 32) : q.fileWords[n.val]? = some (if n = 0 then 0 else q.s.get n) := by
  unfold Seq.fileWords
  rw [List.append_assoc, List.getElem?_append_left (by simp)]
  simp

/-- The eight words that a frame begins with. -/
def Bank.frameHead (k : Bank) (info addr : W64) : List W64 :=
  (List.finRange 4).map (fun q => (k.seqs.get q).pcField) ++
    [info, addr, BitVec.ofNat 64 (k.tpend.toNat * 2 ^ 32 + (k.seqs.get 2).waitRem.toNat),
     BitVec.ofNat 64 (k.corr.toNat * 2 ^ 32 + k.recid.toNat)]

theorem frameHead_length (k : Bank) (info addr : W64) : (k.frameHead info addr).length = 8 := by
  simp [Bank.frameHead]

section
variable (s : State) (w : Who) (info addr : W64) (comp : List W64)

/-- The words of the replay queue, which end the frame. -/
def Bank.frameTail (k : Bank) : List W64 := (replayWords k.replay 0 ++ List.replicate 192 0).take 192

theorem frameTail_length (k : Bank) : k.frameTail.length = 192 := by
  rw [Bank.frameTail, List.length_take, List.length_append, List.length_replicate]
  omega

theorem frameWords_eq : s.frameWords w info addr comp = (s.bank w).frameHead info addr ++ (((s.bank w).seqs.get 0).fileWords ++
    ([(s.bank w).cfs.setWidth 64] ++ (List.replicate 5 0 ++ (comp ++ (s.bank w).frameTail)))) := by
  simp only [State.frameWords, Bank.frameHead, Bank.frameTail, List.append_assoc]

theorem frameWords_length (hc : comp.length = 32) : (s.frameWords w info addr comp).length = 288 := by
  simp only [frameWords_eq, List.length_append, frameHead_length, fileWords_length, frameTail_length, hc, List.length_replicate,
    List.length_singleton]

theorem frameWords_head {n : Nat} (hn : n < 8) : (s.frameWords w info addr comp)[n]? = ((s.bank w).frameHead info addr)[n]? := by
  rw [frameWords_eq, List.getElem?_append_left (by rw [frameHead_length]; exact hn)]

theorem frameWords_file {n : Nat} (hn : n < 50) : (s.frameWords w info addr comp)[8 + n]? = ((s.bank w).seqs.get 0).fileWords[n]? := by
  rw [frameWords_eq, List.getElem?_append_right (by rw [frameHead_length]; omega), frameHead_length, Nat.add_sub_cancel_left,
    List.getElem?_append_left (by rw [fileWords_length]; exact hn)]

theorem frameWords_cfs : (s.frameWords w info addr comp)[58]? = some ((s.bank w).cfs.setWidth 64) := by
  rw [frameWords_eq, List.getElem?_append_right (by rw [frameHead_length]; omega), frameHead_length,
    List.getElem?_append_right (by rw [fileWords_length]), fileWords_length]
  rfl

theorem frameWords_composite {n : Nat} (hn : n < comp.length) : (s.frameWords w info addr comp)[64 + n]? = comp[n]? := by
  rw [frameWords_eq, List.getElem?_append_right (by rw [frameHead_length]; omega), frameHead_length,
    List.getElem?_append_right (by rw [fileWords_length]; omega), fileWords_length,
    List.getElem?_append_right (by rw [List.length_singleton]; omega), List.length_singleton,
    List.getElem?_append_right (by rw [List.length_replicate]; omega), List.length_replicate,
    show 64 + n - 8 - 50 - 1 - 5 = n by omega, List.getElem?_append_left hn]
end

/-! ## Entry -/

theorem stopsOn_false {c : Core} {t : TrapInfo} (hc : c.claimed = false ∨ t.cause ∉ [cBreak, cStep, cWatch]) (hs : c.stepping = false) :
    c.stopsOn t = false := by
  unfold Core.stopsOn
  rw [hs, Bool.or_false]
  rcases hc with hc | hc
  · rw [hc, Bool.false_and]
  · simp only [List.mem_cons, List.not_mem_nil, or_false, not_or] at hc
    obtain ⟨hb, hp, hw⟩ := hc
    rw [decide_eq_false hb, decide_eq_false hp, decide_eq_false hw]
    exact Bool.and_false _

/-- At level 1 a trap kills the task. -/
theorem takeTrap_at_level1 {s : State} {w : Who} {t : TrapInfo} {prec : Bool} (hc : (s.core w.c).stopsOn t = false)
    (hl : (s.bank w).level = true) :
    s.takeTrap w t prec = s.nested w [(s.bank w).tfbase, t.cause.setWidth 64, t.fetch.getD (s.sq w).pc, 0] := by
  unfold State.takeTrap
  extract_lets k c faulted
  rw [if_neg (Bool.eq_false_iff.1 hc), if_pos hl]

/-- At level 0 it enters the bank, once the frame's area translates and is not uncorrectable. -/
theorem takeTrap_enters {s : State} {w : Who} {t : TrapInfo} {prec : Bool} {pa : Nat} {dup : Bool} {v : State}
    (hc : (s.core w.c).stopsOn t = false) (hl : (s.bank w).level = false) (hpf : t.pf = none) :
    let u := s.trace w 5 (s.sq w).pc (t.cause.setWidth 64)
    let comp := u.composite w (if prec then [w.q] else []) (u.bank w).token
    let z := (u.freeze w).modBank w fun k => { k with comp := comp }
    let k := z.bank w
    let info := infoWord t.cause (if prec then w.q else 0) t.sw prec t.tag k.replay.length k.bar.isSome
    z.translate w.c 0 k.ctx k.ptroot k.tfbase.toNat 1 0 = (.ok (pa, dup), v) → v.poisoned pa 2304 = false →
    s.takeTrap w t prec = (v.putWords (w.seq 0).agent pa (z.frameWords w info t.addr comp)).modBank w (·.enter info) := by
  intro u comp z k info htr hp
  unfold State.takeTrap
  extract_lets k0 c0 faulted s1 comp' pc s2 s3 k' info' words
  have h1 : s1 = u := by
    unfold s1
    rw [hpf]
  rw [if_neg (Bool.eq_false_iff.1 hc), if_neg (Bool.eq_false_iff.1 hl)]
  clear_value s1
  subst h1
  rw [show s3.translate w.c 0 k'.ctx k'.ptroot k'.tfbase.toNat 1 0 = _ from htr]
  dsimp -zeta only
  rw [if_neg (Bool.eq_false_iff.1 hp)]
  rfl

/-- Settles O60: the branches of the entry, the bank that it leaves, and the frame's words by their place. -/
theorem trapEntry : Obligations.TrapEntry := by
  refine ⟨?_, ?_, ?_⟩
  · intro s w t prec pa dup v hc hs hl hpf u comp z k info htr hp r
    have hr : r = _ := takeTrap_enters (stopsOn_false hc hs) hl hpf htr hp
    have hbank : v.bank w = k := by
      have := translate_bank z w.c 0 k.ctx k.ptroot k.tfbase.toNat 1 0 w
      rwa [htr] at this
    have hrb : r.bank w = k.enter info := by
      rw [hr, State.modBank_bank_self, putWords_bank, hbank]
    have hfrozen : k.frozen = true := freeze_comp_frozen u w comp
    rw [hrb]
    exact ⟨hr, rfl, (enter_frozen k info).trans hfrozen, enter_seq k info⟩
  · intro s w t prec hc hs hl
    rw [takeTrap_at_level1 (stopsOn_false hc hs) hl, State.nested]
  · intro s w info addr comp hcomp k c ws
    refine ⟨frameWords_length s w info addr comp hcomp, fun q => ?_, frameWords_head s w info addr comp (by omega),
      frameWords_head s w info addr comp (by omega), frameWords_head s w info addr comp (by omega),
      frameWords_head s w info addr comp (by omega), fun n => ?_, frameWords_cfs s w info addr comp,
      fun n hn => frameWords_composite s w info addr comp (by omega)⟩
    · refine (frameWords_head s w info addr comp (by omega)).trans ?_
      rw [Bank.frameHead, List.getElem?_append_left (by simp)]
      simp [Seq.pcField, k]
    · exact (frameWords_file s w info addr comp (by omega)).trans (fileWords_s c n)

end Sys2Proof.Machine
end

section
/-! PROOFS. The events at the homes complete (R257, R258, R268, R273, R344, R385). -/
namespace Sys2Proof.Machine

variable {s : State} {d : DieId} {k : Nat} {e : WEnt}

theorem execDrain_done {a : Nat} (h : s.canDrain a = true) : execDrain a s = .next (s.drainHead a) := if_pos h

/-! ## Writes at their home -/

/-- A write that has reached its homes, behind no stalled fill, is asked for by those that hold a duplicate, or is applied. -/
theorem execApply_reached (hk : s.flight[k]? = some e) (hr : s.canReach e = true) (hst : e.stalled = none)
    (hh : (e.parts.any fun p => s.stalledHome (8 * p.word)) = false) : execApply k s =
      if s.heldBy e.words != 0 then
        if e.asked.isNone then .next { s with flight := s.flight.modify k fun e => { e with asked := some s.tb } }
        else .next ((s.choose 8).2.giveUp e.words (BitVec.ofNat 8 (2 ^ (s.choose 8).1)))
      else if !s.canApply k then .next s
      else if s.mustStall e then .next (s.stall k (locDie (8 * (e.parts.map (·.word)).headD 0)))
      else .next (s.applyAt k) := by
  unfold execApply
  rw [hk]
  dsimp only
  rw [hr, hst, hh]
  rfl

theorem execFillStallResume_done (hf : s.firstStalled d = some e) (hk : (s.flight.findIdx? fun x => x == e) = some k)
    (hd : (s.die d).dirRoom = true) (ha : s.canApply k = true) (ho : e.overdue s.tb = false) :
    execFillStallResume d s = .next (s.applyAt k) := by
  unfold execFillStallResume
  rw [hf]
  dsimp only
  rw [hk]
  dsimp only
  rw [hd, ha, ho]
  rfl

theorem execCountedFullTimeout_done {w : Who} (hf : ((s.stallsAt d).find? fun e => e.overdue s.tb) = some e) (hw : e.who = some w) :
    let kin (x : WEnt) : Bool := x.fill.isSome && x.agent == e.agent && x.who == e.who && x.instrNo == e.instrNo
    let gone (x : WEnt) : Bool := kin x && e.seq ≤ x.seq
    let u : State := { s with flight := s.flight.filter fun x => !gone x }
    let v := u.modAgent e.agent fun g => { g with sb := g.sb.filter fun x => !gone x }
    let void (x : Todo) : Todo := if kin x.ent then { ent := { agent := x.ent.agent, parts := [] } } else x
    execCountedFullTimeout d s = .next ((if v.alive w then v.modSeq w fun q => { q with todo := q.todo.map void } else v).imprecise
      w 1 cCountedFull e.va (entCode e.agent)) := by
  intro kin gone u v void
  unfold execCountedFullTimeout
  rw [hf]
  dsimp -zeta only
  extract_lets
  split
  next h => exact absurd (h.symm.trans hw) (Option.some_ne_none w).symm
  next h =>
    cases h.symm.trans hw
    rfl

/-! ## Lines of the directory -/

theorem execLiveLineEvict_done {row : Nat} {e : DirE} (hg : NMap.get? (s.die (locDie (256 * row))).dir row = some e) (hn : e.n ≠ 0)
    (hs : e.spilled = false) (hw : s.evWaiting < 4096) :
    execLiveLineEvict row s = .next ((s.foundBad row).modDie (locDie (256 * row)) fun x =>
      { x with dir := NMap.put x.dir row { e with spilled := true, home := bytesPay ((s.foundBad row).mem.readN (256 * row) 256) } }) := by
  unfold execLiveLineEvict
  dsimp only
  rw [hg]
  dsimp only
  rw [decide_eq_false hn, hs, decide_eq_false (Nat.not_le.2 hw)]
  rfl

/-- What the units that a home finds bad leave: memory and the directories stay, and units take the poison code. -/
def State.FindsBad (s t : State) : Prop :=
  t.mem = s.mem ∧ t.hist = s.hist ∧ (∀ d, t.die d = s.die d) ∧ ∀ w, w ∈ s.poison → w ∈ t.poison

theorem State.FindsBad.trans {s t u : State} (h : s.FindsBad t) (h' : t.FindsBad u) : s.FindsBad u := by
  obtain ⟨hm, hh, hd, hp⟩ := h
  obtain ⟨hm', hh', hd', hp'⟩ := h'
  exact ⟨hm'.trans hm, hh'.trans hh, fun d => (hd' d).trans (hd d), fun w hw => hp' w (hp w hw)⟩

theorem foundBad_keeps (s : State) (row : Nat) : s.FindsBad (s.foundBad row) := by
  have hfold (f : State → Nat → State) (hf : ∀ t w, State.FindsBad t (f t w)) (us : List Nat) (t : State) :
      t.FindsBad (us.foldl f t) := by
    induction us generalizing t with
    | nil => exact ⟨rfl, rfl, fun _ => rfl, fun _ h => h⟩
    | cons w us ih => exact (hf t w).trans (ih _)
  have hfresh : s.FindsBad s.fresh.2 := ⟨rfl, rfl, fun _ => rfl, fun _ h => h⟩
  unfold State.foundBad
  dsimp only
  split
  · exact hfresh
  · refine hfresh.trans (hfold _ (fun t w => ?_) _ _)
    exact ⟨rfl, rfl, fun _ => rfl, fun _ h => List.mem_cons_of_mem w h⟩

/-! ## Messages and stream TLBs -/

theorem execDeliver_next {m : Msg} (h : m.core < 512) (hk : s.msgs[k]? = some m) (hn : m.seqNo = s.msgNext m)
    (hc : s.carries m.from_ m.to_ (256 * m.id) = true) :
    let u : State := { s with msgs := s.msgs.eraseIdx k, msgDone := NMap.put s.msgDone (m.src * 8 + m.dst) m.seqNo }
    execDeliver k s = .next (u.msgCmd ⟨m.core, h⟩ m fun g => some (m.src :: g)) := by
  intro u
  unfold execDeliver
  rw [hk]
  dsimp -zeta only
  rw [if_pos hn, hc]
  exact dif_pos h

theorem execDeliver_again {m : Msg} (hk : s.msgs[k]? = some m) (ha : ivLt (s.msgNext m) m.seqNo = false) (hn : m.seqNo ≠ s.msgNext m) :
    execDeliver k s = .next { s with msgs := s.msgs.eraseIdx k } := by
  unfold execDeliver
  rw [hk]
  dsimp only
  rw [if_neg hn, ha]
  rfl

theorem execStreamTlbPrefetch_done {c : CoreId} {out : Bool} {va v : W64} {r : Run} {kind : Nat} (hv : classify va = .virt v)
    (hr : ((if out then (s.core c).outRun else (s.core c).copyRun).findSome? fun r => (r.mayNext va).map (r, ·)) = some (r, kind)) :
    let g := if out then r.outEng else r.copyEng
    execStreamTlbPrefetch c out va s =
      .next { (s.translate c g.tlb g.ctx (s.rootOf g.w g.ctx) v.toNat kind g.src).2 with holders := s.holders } := by
  unfold execStreamTlbPrefetch
  dsimp only
  rw [hv, hr]

end Sys2Proof.Machine

namespace Sys2Proof.Machine

/-- Settles O33: each event at a home, in the branch that its conditions name. -/
theorem homesComplete : Obligations.HomesComplete := by
  refine ⟨fun a s h => execDrain_done h, fun k s e hk hr hst hh => ?_, fun d s e k hf hk hd ha ho => execFillStallResume_done hf hk hd ha ho,
    fun d s e w hf hw => execCountedFullTimeout_done hf hw, fun row s e hg hn hs hw => execLiveLineEvict_done hg hn hs hw,
    fun s row => foundBad_keeps s row, fun k s m h hk hn hc => execDeliver_next h hk hn hc,
    fun k s m hk _ ha hn => execDeliver_again hk ha hn, fun c out va v s r kind hv hr => execStreamTlbPrefetch_done hv hr⟩
  have happly : exec (.apply k) s = _ := execApply_reached hk hr hst hh
  refine ⟨fun h0 ha => ?_, fun h0 ha => ?_, fun h0 ha => ?_⟩
  · rw [happly, if_neg (by simp [h0]), if_neg (by simp [ha])]
    split <;> rfl
  · rw [happly, if_pos (bne_iff_ne.2 h0), ha]
    rfl
  · rw [happly, if_pos (bne_iff_ne.2 h0), if_neg (by simp [Option.isSome_iff_ne_none.1 ha])]

end Sys2Proof.Machine
end

section
/-! PROOFS. The events of reliability: errors, scans, self-tests, the scrubber and the engines' windows (R278, R384-R397). -/
namespace Sys2Proof.Machine

variable {s : State} {d : DieId} {c : CoreId}

/-! ## Errors -/

theorem execUnitFence_own {u : FUnit} {cls : Nat} {addr : W64} (hw : s.evWaiting < 4096)
    (ho : ∀ n p, u = .port n p → n = Config.ownNode.toNat) (hc : cls ≤ 4) :
    execUnitFence u cls addr s = .next (if cls = 0 then s.corrCount u else s.fenceUnit u cls addr) := by
  unfold execUnitFence
  dsimp only
  rw [if_neg]
  · exact (apply_ite Host.Outcome.next _ _ _).symm
  · cases u with
    | port n p => simp [ho n p rfl, Nat.not_lt.2 hc, Nat.not_le.2 hw]
    | _ => simp [Nat.not_lt.2 hc, Nat.not_le.2 hw]

theorem execHolderFenceTimeout_eq (hw : s.evWaiting < 4096) :
    execHolderFenceTimeout d s = .next (if s.holderSilent d then s.fenceUnit (.guest d) 3 0 else s) := by
  unfold execHolderFenceTimeout
  cases s.holderSilent d <;> simp [Nat.not_le.2 hw]

/-! ## The scan rotation -/

theorem execScanStart_found (hw : s.evWaiting < 4096) (hp : (s.die d).power ≠ .gated) (hl : s.loss = .none)
    (hf : ((dieCores d).find? fun x => (s.core x).scanDue && (s.core x).tasks == 0) = some c) :
    execScanStart d s = .next (s.scanBegin c) := by
  unfold execScanStart
  dsimp only
  rw [if_neg (by simp [hp, hl, Nat.not_le.2 hw]), hf]

theorem execScanStart_chosen (hw : s.evWaiting < 4096) (hp : (s.die d).power ≠ .gated) (hl : s.loss = .none)
    (hf : ((dieCores d).find? fun x => (s.core x).scanDue && (s.core x).tasks == 0) = none)
    (ht : (s.die d).scanLast + s.scanGap ≤ s.tb) (hn : s.nextScan d = some c) :
    execScanStart d s = .next (if ((s.scanChoose c).core c).tasks = 0 then (s.scanChoose c).scanBegin c else s.scanChoose c) := by
  unfold execScanStart
  dsimp only
  rw [if_neg (by simp [hp, hl, Nat.not_le.2 hw]), hf]
  dsimp only
  rw [if_neg (Nat.not_lt.2 ht), hn]

/-- A core without tasks has none in either bank. -/
theorem task_none_of_tasks {k : Core} (h : k.tasks = 0) (b : BankId) : (k.banks.get b).task = none := by
  have hb : k.banks.get b ∈ k.banks.toList := by
    rw [Vector.get_eq_getElem]
    exact Vector.mem_toList_iff.2 (Vector.getElem_mem b.isLt)
  have hn := List.filter_eq_nil_iff.1 (List.length_eq_zero_iff.1 h) _ hb
  simpa using hn

theorem modCore_modCore (s : State) (c : CoreId) (f g : Core → Core) :
    (s.modCore c f).modCore c g = s.modCore c (fun k => g (f k)) := by
  unfold State.modCore
  simp only [vset_get_self, vset_vset]

/-- A core that holds no task is only noted as due. -/
theorem scanChoose_idle (h : (s.core c).tasks = 0) : s.scanChoose c =
    (s.modDie (dieOf c) fun x => { x with scanLast := s.tb }).modCore c fun k => { k with scanDue := true } := by
  unfold State.scanChoose
  dsimp only
  refine List.foldl_fixed' (fun b => ?_) _
  have hb : (((s.modDie (dieOf c) fun x => { x with scanLast := s.tb }).modCore c fun k =>
      { k with scanDue := true }).bank ⟨c, b, 0, 0⟩).task = none := by
    rw [modCore_keepsBank]
    · exact task_none_of_tasks h b
    · exact fun _ => rfl
  rw [hb]

theorem scanBegin_scanChoose_idle (h : (s.core c).tasks = 0) :
    ((s.scanChoose c).core c).tasks = 0 ∧
    (s.scanChoose c).scanBegin c =
      let u := (s.modDie (dieOf c) fun x => { x with scanLast := s.tb }).modCore c fun k =>
        { k with testing := true, scanDue := false, testStart := s.now }
      if (s.core c).lastPass + s.rotMs.toNat * oneMs < s.tb then u.testResult (.core c) 3 1 0xFF else u := by
  rw [scanChoose_idle h]
  constructor
  · rw [State.modCore_core, if_pos rfl]
    exact h
  · unfold State.scanBegin
    dsimp only
    rw [modCore_modCore, State.modCore_core, if_pos rfl]
    rfl

theorem execScanComplete_done {pass : Bool} (hw : s.evWaiting < 4096) (ht : (s.core c).testing = true)
    (hn : (s.core c).testStart + scanCycles ≤ s.now) :
    execScanComplete c pass s = .next (if pass then s.scanPass c (s.core c).testStart else s.scanFail c) := by
  unfold execScanComplete
  dsimp only
  rw [if_neg (by simp [ht, Nat.not_lt.2 hn, Nat.not_le.2 hw])]

/-! ## Self-tests -/

theorem wholeUnit_idem (u : FUnit) : wholeUnit (wholeUnit u) = wholeUnit u := by cases u <;> rfl

theorem execSelftestComplete_pass {v : FUnit} {start : Nat} (hw : s.evWaiting < 4096)
    (hf : s.tests.find? (·.1 == wholeUnit v) = some (wholeUnit v, some start)) (hn : start + testCycles (wholeUnit v) ≤ s.now) :
    execSelftestComplete v true s = .next (((match wholeUnit v with
      | .core c => (s.unfence (wholeUnit v)).scanPass c start
      | .link l => (s.unfence (wholeUnit v)).modBoth l fun x => { x with sent := 0, nak := none }
      | _ => s.unfence (wholeUnit v)).testResult (wholeUnit v) 0 1 0xFF).testsDone (wholeUnit v)) := by
  unfold execSelftestComplete
  dsimp only
  rw [hf]
  dsimp only
  exact (if_neg (by simp [Nat.not_lt.2 hn, Nat.not_le.2 hw])).trans (if_pos rfl)

theorem execSelftestComplete_fail {v : FUnit} {start : Nat} (hw : s.evWaiting < 4096)
    (hf : s.tests.find? (·.1 == wholeUnit v) = some (wholeUnit v, some start))
    (hn : start + (if s.spareTest (wholeUnit v) then 2 * testCycles (wholeUnit v) else testCycles (wholeUnit v)) ≤ s.now) :
    let r := (s.testFail (wholeUnit v)).lasting (wholeUnit v)
    execSelftestComplete v false s =
      .next ((r.2.2.testResult (wholeUnit v) r.1 (if r.1 = 1 then 1 else 0) r.2.1).testsDone (wholeUnit v)) := by
  unfold execSelftestComplete
  dsimp only
  rw [hf]
  dsimp only
  rw [if_neg (by simp [Nat.not_lt.2 hn, Nat.not_le.2 hw]), if_neg Bool.false_ne_true]

theorem execSelftestComplete_early {v : FUnit} {pass : Bool} {start : Nat}
    (hf : s.tests.find? (·.1 == wholeUnit v) = some (wholeUnit v, some start)) (hn : s.now < start + testCycles (wholeUnit v)) :
    execSelftestComplete v pass s = .next s := by
  have hlt : s.now < start + (if (!pass && s.spareTest (wholeUnit v)) = true then 2 * testCycles (wholeUnit v)
      else testCycles (wholeUnit v)) := by
    split <;> omega
  unfold execSelftestComplete
  dsimp only
  rw [hf]
  dsimp only
  rw [if_pos (by simp only [hlt, decide_true, Bool.true_or])]

/-! ## The scrubber -/

theorem execScrubAtom_row {addr : Nat} {bad : Bool} (hw : s.evWaiting < 4096) (ha : addr < 2 ^ 40) (hl : s.loss = .none)
    (hr : s.hbmRowOf addr % 2 ^ 16 = s.scrubRow) (hs : s.scrubbed.contains (s.unitAt addr).1 = false) :
    let w := (s.unitAt addr).1
    let u : State := { s with scrubbed := w :: s.scrubbed }
    execScrubAtom addr bad s = .next (if bad then (if s.poison.contains w then u else
      ({ u with poison := w :: s.poison } : State).errorReport 4 2 1
        (unitNum (.row (locDie addr) (s.hbmRowOf addr))) (BitVec.ofNat 64 (8 * w)) 0 0)
      else u.corrCount (.row (locDie addr) (s.hbmRowOf addr))) := by
  unfold execScrubAtom
  dsimp only
  rw [if_neg (Nat.not_le.2 hw), if_neg (Nat.not_le.2 ha), if_neg (by rw [hs, hr, hl]; simp)]
  exact (apply_ite Host.Outcome.next _ _ _).symm

theorem execScrubAtom_other {addr : Nat} {bad : Bool} (ha : addr < 2 ^ 40)
    (h : s.hbmRowOf addr % 2 ^ 16 ≠ s.scrubRow ∨ s.scrubbed.contains (s.unitAt addr).1 = true) :
    execScrubAtom addr bad s = .next s := by
  have hc : (s.loss != .none || s.hbmRowOf addr % 2 ^ 16 != s.scrubRow || s.scrubbed.contains (s.unitAt addr).1) = true := by
    cases h with
    | inl h => rw [bne_iff_ne.2 h]; simp
    | inr h => rw [h]; simp
  unfold execScrubAtom
  dsimp only
  rw [if_neg (Nat.not_le.2 ha), if_pos hc]
  exact ite_self _

theorem execScrubAtom_sram {addr : Nat} (hw : s.evWaiting < 4096) (ha : 2 ^ 40 ≤ addr) (hp : s.poison.contains (addr / 8) = false) :
    execScrubAtom addr true s = .next { s with poison := addr / 8 :: s.poison } := by
  have hu : (s.unitAt addr).1 = addr / 8 := by
    unfold State.unitAt
    rw [if_pos ha]
  unfold execScrubAtom
  dsimp only
  rw [hu, if_neg (Nat.not_le.2 hw), if_pos ha, if_pos rfl, if_neg (Bool.eq_false_iff.1 hp)]

/-! ## The engines' windows -/

theorem execEngineWindowReplay_copy {id : Nat} {second : Bool} {r : Run} (hw : s.evWaiting < 4096)
    (hf : (s.core c).copyRun.find? (·.cmd.id == id) = some r) :
    execEngineWindowReplay c 0 id second s =
      if second || r.replay then .next ((s.runEnd r cUncorr 0).fenceUnit (.engine c 0) 1 0 (some r.cmd.who))
      else if r.left = [] && !r.cmd.kind.stream? then .next s
      else .next ((s.recovers (.engine c 0) r.cmd.who).modRun c id Run.again) := by
  unfold execEngineWindowReplay
  rw [if_neg (Nat.not_le.2 hw)]
  dsimp only
  rw [hf]
  rfl

theorem execEngineWindowReplay_tile {b : BankId} {z : Fin 8} {second : Bool} (hw : s.evWaiting < 4096)
    (ht : (s.bank ⟨c, b, 0, 0⟩).task.isSome = true) :
    let w : Who := ⟨c, b, 0, (s.bank ⟨c, b, 0, 0⟩).serial⟩
    let t := (s.bank w).z.get z
    execEngineWindowReplay c 1 (8 * b.val + z.val) second s =
      .next (if second || t.noReplay || t.replay.isSome then (s.abandonTile w z).fenceUnit (.engine c 1) 1 0 (some w)
        else (s.recovers (.engine c 1) w).startReplay w z) := by
  have hb : (⟨(8 * b.val + z.val) / 8 % 2, by omega⟩ : BankId) = b := Fin.ext (by simp only; omega)
  have hz : (⟨(8 * b.val + z.val) % 8, by omega⟩ : Fin 8) = z := Fin.ext (by simp only; omega)
  have hs : ¬ (s.bank ⟨c, b, 0, (s.bank ⟨c, b, 0, 0⟩).serial⟩).task.isNone = true := by
    change ¬ (s.bank ⟨c, b, 0, 0⟩).task.isNone = true
    rw [← Option.not_isSome, ht]
    exact Bool.false_ne_true
  unfold execEngineWindowReplay
  rw [if_neg (Nat.not_le.2 hw)]
  dsimp only
  rw [hb, hz, if_neg hs]
  exact (apply_ite Host.Outcome.next _ _ _).symm

end Sys2Proof.Machine

namespace Sys2Proof.Machine

/-- Settles O35: each event has the effect that its clause names, case by case over the guards of its definition. -/
theorem reliabilityEventsComplete : Obligations.ReliabilityEventsComplete := by
  unfold Obligations.ReliabilityEventsComplete
  intro s hw
  refine ⟨fun u cls addr ho h1 h4 => ?_, fun u addr ho => ?_, fun d hs => ?_, fun d hs => ?_,
    fun d c hp hl hf => ?_, fun d c ht hp hl hn hf => ⟨fun h0 => ?_, fun h0 => ?_⟩,
    fun c pass ht hn => execScanComplete_done hw ht hn,
    fun v start hf => ⟨fun hn => execSelftestComplete_pass hw hf hn, fun hn => execSelftestComplete_fail hw hf hn,
      fun pass hn => execSelftestComplete_early hf hn⟩,
    fun addr ha hl hr hs => ⟨fun hp => ?_, fun hp => ?_, ?_⟩,
    fun addr bad ha h => execScrubAtom_other ha h, fun addr ha hp => execScrubAtom_sram hw ha hp,
    fun c id second r hf => ⟨fun h => ?_, fun h2 hr hl => ?_⟩, fun r dst src bytes rows sstr dstr ws cons fo hk => ?_,
    fun c b z ht => ⟨fun hn hr => ?_, fun h => ?_, ?_⟩⟩
  · exact (execUnitFence_own hw ho h4).trans (congrArg Host.Outcome.next (if_neg (by omega)))
  · exact (execUnitFence_own hw ho (Nat.zero_le 4)).trans (congrArg Host.Outcome.next (if_pos rfl))
  · exact (execHolderFenceTimeout_eq hw).trans (congrArg Host.Outcome.next (if_pos hs))
  · exact (execHolderFenceTimeout_eq hw).trans (congrArg Host.Outcome.next (if_neg (Bool.eq_false_iff.1 hs)))
  · have h := execScanStart_found hw hp hl hf
    exact h
  · obtain ⟨hidle, hbegin⟩ := scanBegin_scanChoose_idle h0
    refine (execScanStart_chosen hw hp hl hf ht hn).trans ?_
    rw [if_pos hidle, hbegin]
  · exact (execScanStart_chosen hw hp hl hf ht hn).trans (congrArg Host.Outcome.next (if_neg h0))
  · exact (execScrubAtom_row (bad := true) hw ha hl hr hs).trans (congrArg Host.Outcome.next ((if_pos rfl).trans (if_neg (Bool.eq_false_iff.1 hp))))
  · exact (execScrubAtom_row (bad := true) hw ha hl hr hs).trans (congrArg Host.Outcome.next ((if_pos rfl).trans (if_pos hp)))
  · exact (execScrubAtom_row (bad := false) hw ha hl hr hs).trans (congrArg Host.Outcome.next (if_neg Bool.false_ne_true))
  · exact (execEngineWindowReplay_copy hw hf).trans (if_pos (by simpa using h))
  · exact (execEngineWindowReplay_copy hw hf).trans ((if_neg (by simp [h2, hr])).trans (if_neg (by simp [hl])))
  · unfold Run.again
    rw [hk]
    exact ⟨rfl, rfl⟩
  · refine (execEngineWindowReplay_tile hw ht).trans (congrArg Host.Outcome.next (if_neg ?_))
    rw [hn, hr]
    exact Bool.false_ne_true
  · refine (execEngineWindowReplay_tile hw ht).trans (congrArg Host.Outcome.next (if_pos ?_))
    simpa using h
  · exact (execEngineWindowReplay_tile (second := true) hw ht).trans (congrArg Host.Outcome.next (if_pos rfl))

end Sys2Proof.Machine
end

section
/-! PROOFS. The events of the scheduler and of the context-save engine (R307-R314, R332-R337, R347). -/
namespace Sys2Proof.Machine

variable {s : State} {d : DieId} {c : CoreId} {b : BankId} {w : Who} {r : Rec}

/-! ## The scheduler -/

theorem execBankActivate_ready (ha : (s.core c).active = none) :
    let all := (List.finRange 2).filter fun b => ((s.core c).banks.get b).ready
    let set := all.filter fun b => ((s.core c).banks.get b).suspended
    let bs := if set = [] then all else set
    bs[(s.choose bs.length).1]? = some b → execBankActivate c s = .next ((s.choose bs.length).2.activate ⟨c, b, 0, 0⟩) := by
  intro all set bs hb
  unfold execBankActivate
  rw [ha, Option.isSome_none, if_neg Bool.false_ne_true]
  change (match bs[(s.choose bs.length).1]? with
    | some b => .next ((s.choose bs.length).2.activate ⟨c, b, 0, 0⟩)
    | none => .next (s.choose bs.length).2 : Out) = _
  rw [hb]

theorem execDispatch_claimed {q : Fin 32} (hd : s.dispatches d = true) (hc : s.claimed d = some (w, r))
    (hq : ((List.finRange 32).find? fun q => ((s.die d).queues.get q).contains r) = some q) :
    execDispatch d s = .next (s.dispatchTo d w r ((q.val + 1) % 32)) := by
  unfold execDispatch
  dsimp only
  rw [hd, hc]
  dsimp only
  rw [hq]
  rfl

theorem execDispatch_free {q : Fin 32} (hd : s.dispatches d = true) (hc : s.claimed d = none) (hf : s.freeBankOf d = some w)
    (hn : nextRec s.now (s.die d).rr (s.queuesFor d (s.eligible w)) = some (q, r)) :
    execDispatch d s = .next (s.dispatchTo d w r ((q.val + 1) % 32)) := by
  unfold execDispatch
  dsimp only
  rw [hd, hc, hf]
  dsimp only
  rw [hn]
  rfl

theorem execDispatch_preempt {q : Fin 32} (hd : s.dispatches d = true) (hc : s.claimed d = none) (hf : s.freeBankOf d = none)
    (hn : nextRec s.now (s.die d).rr (s.queuesFor d fun r => s.ctxLive (recCtx r.w)) = some (q, r)) :
    execDispatch d s = .next (s.preempt d r) := by
  unfold execDispatch
  dsimp only
  rw [hd, hc, hf]
  dsimp only
  rw [hn]
  rfl

/-- `y` is the state once the rows of the task are released and the area that its save had taken is put back. -/
theorem execKillComplete_done {rq : Bool} {v y : State} (hs : (s.bank ⟨c, b, 0, 0⟩).stopping = some (.kill rq))
    (ht : (s.bank ⟨c, b, 0, 0⟩).task = some r) (hd : (s.flushOf ⟨c, b, 0, 0⟩).drained ⟨c, b, 0, 0⟩ = true)
    (hm : (((s.flushOf ⟨c, b, 0, 0⟩).core c).mRun.any fun x => (s.flushOf ⟨c, b, 0, 0⟩).ours ⟨c, b, 0, 0⟩ x.who) = false)
    (hv : v = ((s.flushOf ⟨c, b, 0, 0⟩).ownedRows r.owner).foldl (fun s l => s.release l) (s.flushOf ⟨c, b, 0, 0⟩))
    (hy : ∀ p, (v.bank ⟨c, b, 0, 0⟩).saveTo = some p → y = v.freeArea (v.bank ⟨c, b, 0, 0⟩).ctx.toNat p.1)
    (hn : (v.bank ⟨c, b, 0, 0⟩).saveTo = none → y = v) :
    let w : Who := ⟨c, b, 0, 0⟩
    let x := (y.modCore c fun k => { k with copyRun := k.copyRun.filter fun x => !y.ours w x.cmd.who }).freeBank w
    execKillComplete c b s = .next (if rq then x.requeue c r true else x.dropRec r) := by
  have hgo : ¬ (!(s.flushOf ⟨c, b, 0, 0⟩).drained ⟨c, b, 0, 0⟩ ||
      ((s.flushOf ⟨c, b, 0, 0⟩).core c).mRun.any fun x => (s.flushOf ⟨c, b, 0, 0⟩).ours ⟨c, b, 0, 0⟩ x.who) = true := by
    rw [hd, hm]
    exact Bool.false_ne_true
  unfold execKillComplete
  dsimp only
  rw [hs, ht]
  dsimp only
  rw [if_neg hgo, ← hv]
  cases h : (v.bank ⟨c, b, 0, 0⟩).saveTo with
  | none => rw [hn h]
  | some p => rw [hy p h]

theorem execWorkSteal_done {v : DieId} (h1 : (s.die d).steal = true) (h2 : (s.die d).power ≠ .gated) (h3 : s.loss = .none)
    (h4 : (s.die d).waiting = 0) (h5 : (s.die d).idleFrom + 4096 ≤ s.now) (h6 : (s.freeBankOf d).isSome = true)
    (hv : s.stealFrom d = some v) :
    let y := s.die v
    let all := dispatchOrder s.now y.waiting y.rr (s.queuesFor v fun r => s.ctxLive (recCtx r.w))
    let mig := all.filter fun r => recMig r.w
    let got := (mig.filter fun r => !(s.keeps v all).any fun g => g.id == r.id).take
      (Nat.min (Nat.min 16 ((mig.length + 1) / 2)) (65536 - (s.die d).used.length))
    let u := got.foldl (fun s r => s.moveRec d r) (s.modDie v fun y =>
      { y with
        queues := y.queues.map fun q => q.filter fun r => !(got.any fun g => g.id == r.id)
        draining := y.draining.filter fun e => !(got.any fun g => g.id.toNat == e.2) })
    execWorkSteal d s = .next (u.modDie d fun x => { x with idleFrom := u.now }) := by
  unfold execWorkSteal
  dsimp only
  rw [if_neg, hv]
  rw [← Option.not_isSome, h1, h3, h4, h6]
  simp [h2, Nat.not_lt.2 h5]

/-! ## Saving -/

theorem execPreemptCheckpoint_done {tail : Bool} (hs : (s.bank ⟨c, b, 0, 0⟩).stopping = some (.save tail))
    (ht : (s.bank ⟨c, b, 0, 0⟩).task.isSome = true) (hn : (s.bank ⟨c, b, 0, 0⟩).saveTo = none)
    (hl : (s.bank ⟨c, b, 0, 0⟩).level = false ∨ (s.bank ⟨c, b, 0, 0⟩).blocked = true) (hw : s.evWaiting < 4096)
    (hp : (s.core c).stopped = none ∨ s.loss ≠ .none) (hr : (s.bank ⟨c, b, 0, 0⟩).restoring = false)
    (ha : (s.core c).active ≠ some b ∨ (s.bank ⟨c, b, 0, 0⟩).imprecisePending = false) :
    execPreemptCheckpoint c b s = .next (s.beginSave ⟨c, b, 0, 0⟩) := by
  have hlb : ((s.bank ⟨c, b, 0, 0⟩).level && !(s.bank ⟨c, b, 0, 0⟩).blocked) = false := by
    cases hl with
    | inl h => rw [h]; rfl
    | inr h => rw [h]; exact Bool.and_false _
  have hstop : ((s.core c).stopped.isSome && s.loss == .none) = false := by
    cases hp with
    | inl h => rw [h]; rfl
    | inr h => rw [beq_eq_false_iff_ne.2 h]; exact Bool.and_false _
  have himp : ((s.core c).active == some b && (s.bank ⟨c, b, 0, 0⟩).imprecisePending) = false := by
    cases ha with
    | inl h => rw [beq_eq_false_iff_ne.2 h]; rfl
    | inr h => rw [h]; exact Bool.and_false _
  unfold execPreemptCheckpoint
  dsimp only
  rw [hs]
  dsimp only
  rw [if_neg]
  rw [hlb, hstop, himp, hn, hr, ← Option.not_isSome, ht, decide_eq_false (Nat.not_le.2 hw)]
  exact Bool.false_ne_true

/-- What a save comes to whose area holds it, translates and is reached: only the open choice, and the frame, are left (log 44). -/
theorem execSaveCommit_written {area : Nat} {n : W32} {tail : Bool} {x : Ctx} {ps : List Nat} {v : State} :
    let w : Who := ⟨c, b, 0, 0⟩
    (s.bank w).saveTo = some (area, n) → (s.bank w).task = some r → (s.bank w).stopping = some (.save tail) →
    let u := s.flushOf w
    let need := areaNeeds (u.bank w).wsrange (u.bank w).spwin (u.liveCells r.owner).length
    u.drained w = true → ((u.core c).mRun.any fun x => u.ours w x.who && x.fly != []) = false →
    ((u.bank w).z.any fun z => z.replay.isSome) = false → u.evWaiting < 4096 →
    NMap.get? u.ctxs (u.bank w).ctx.toNat = some x → need ≤ x.areaSize →
    (if (u.bank w).pins = [] then u.mapArea w area 1 (x.areaSize / 4096) else (some (u.bank w).pins, u)) = (some ps, v) →
    (∀ p ∈ ps, v.carries (dieOf c) (homeDie p) p = true) → v.savePoisoned w = false →
    execSaveCommit c b s =
      if (v.choose 2).1 != 0 then .next (((v.choose 2).2.freeArea (u.bank w).ctx.toNat area).saveFail w area 4)
      else match (v.choose 2).2.saveFrame w with
        | (none, y) => .next ((y.freeArea (u.bank w).ctx.toNat area).saveFail w area 3)
        | (some ws, y) => .next (y.commitSave w r area ps n tail ws) := by
  intro w hto ht hs u need hd hm hz hw hx hneed hmap hc hpois
  have hfar : (ps.filter fun p => !v.carries (dieOf c) (homeDie p) p) = [] := by
    refine List.filter_eq_nil_iff.2 fun p hp => ?_
    rw [hc p hp]
    exact Bool.false_ne_true
  unfold execSaveCommit
  dsimp only
  rw [hto, ht, hs]
  dsimp only
  rw [hx]
  dsimp only
  rw [if_neg, if_neg (Nat.not_lt.2 hneed), hmap]
  · dsimp only
    rw [hfar, hpois]
    rfl
  · rw [hd, hm, hz, decide_eq_false (Nat.not_le.2 hw)]
    exact Bool.false_ne_true

theorem saveFrame_level0 (h : (s.bank w).level = false) : s.saveFrame w = (some (s.frameWords w
    (infoWord cPreempt 0 false false 0 (s.bank w).replay.length (s.bank w).bar.isSome) 0 (s.bank w).comp), s) := by
  unfold State.saveFrame
  dsimp only
  rw [h]
  rfl

/-! ## Restoring -/

/-- Whether a bank goes on at level 0. -/
def Bank.goesOn (k : Bank) : Prop := k.level = false ∧ k.frozen = false

theorem activate_goesOn (h : (s.bank w).goesOn) : ((s.activate w).bank w).goesOn := by
  obtain ⟨hl, hf⟩ := h
  unfold State.activate
  dsimp only
  have hb : ((s.modCore w.c fun k => { (k.ranAdd (s.bank w).corr) with active := some w.b }).bank w) = s.bank w := by
    refine modCore_keepsBank _ _ (fun k => ?_) _
    unfold Core.ranAdd
    split
    · rfl
    · split <;> rfl
  split
  · rw [State.modBank_bank_self, hb, if_neg (Bool.eq_false_iff.1 hl)]
    exact ⟨hl, rfl⟩
  · rw [hb]
    exact ⟨hl, hf⟩

theorem any_not_carries {ps : List Nat} (h : ∀ p ∈ ps, s.carries (dieOf c) (homeDie p) p = true) :
    (ps.any fun p => !s.carries (dieOf c) (homeDie p) p) = false :=
  List.any_eq_false.2 fun p hp => by rw [h p hp]; exact Bool.false_ne_true

/-- A record that waits for its restore, with room for an event and no kill under way, is not passed over. -/
theorem restoreGuard_false (h5 : r.w.get 5 ≠ 0) (hw : s.evWaiting < 4096) :
    ¬ (decide (r.w.get 5 = 0) || false || decide (4096 ≤ s.evWaiting)) = true := by
  rw [decide_eq_false h5, decide_eq_false (Nat.not_le.2 hw)]
  exact Bool.false_ne_true

theorem ite_activate_goesOn {p : Prop} [Decidable p] (h : (s.bank w).goesOn) : ((if p then s.activate w else s).bank w).goesOn := by
  split
  · exact activate_goesOn h
  · exact h

theorem resumed_goesOn (s : State) (w : Who) (ws : List W64) (es : List XEnt) :
    ((s.modBank w fun k => k.resumeFrom ws es false).bank w).goesOn := by
  rw [State.modBank_bank_self]
  exact ⟨rfl, rfl⟩

theorem execRestore_lost {x : Ctx} {v : State} : let w : Who := ⟨c, b, 0, 0⟩
    (s.bank w).task = some r → r.w.get 5 ≠ 0 → (s.bank w).stopping = none → s.evWaiting < 4096 →
    NMap.get? s.ctxs (s.bank w).ctx.toNat = some x → s.mapArea w (r.w.get 5).toNat 1 (x.areaSize / 4096) = (none, v) →
    execRestore c b s = .next (((v.event 0x0006
      [r.id.setWidth 64, (recCorr r.w).setWidth 64, BitVec.ofNat 64 (r.w.get 5).toNat, 3]).freeBank w).requeue c r false) := by
  intro w ht h5 hs hw hx hmap
  unfold execRestore
  dsimp only
  rw [ht]
  dsimp only
  rw [hs, hx]
  dsimp only
  rw [hmap, if_neg (restoreGuard_false h5 hw)]
  rfl

section
variable {x : Ctx} {ps : List Nat} {v : State} (ht : (s.bank ⟨c, b, 0, 0⟩).task = some r) (h5 : r.w.get 5 ≠ 0)
  (hs : (s.bank ⟨c, b, 0, 0⟩).stopping = none) (hw : s.evWaiting < 4096)
  (hx : NMap.get? s.ctxs (s.bank ⟨c, b, 0, 0⟩).ctx.toNat = some x)
  (hmap : s.mapArea ⟨c, b, 0, 0⟩ (r.w.get 5).toNat 1 (x.areaSize / 4096) = (some ps, v))
  (hc : ∀ p ∈ ps, v.carries (dieOf c) (homeDie p) p = true)
include ht h5 hs hw hx hmap hc

theorem execRestore_uncommitted (hz : v.mem.readLe (areaAt ps 4) 4 = 0) : execRestore c b s =
    .next (((v.dropRec r).refuseRec 7 ((r.w.get 7) &&& 0xFFFFFFFF) ((recCorr r.w).setWidth 64) r.src).freeBank ⟨c, b, 0, 0⟩) := by
  unfold execRestore
  dsimp only
  rw [ht]
  dsimp only
  rw [hs, hx]
  dsimp only
  rw [hmap, if_neg (restoreGuard_false h5 hw)]
  dsimp only
  rw [Option.any_some, any_not_carries hc, if_neg Bool.false_ne_true, hz]
  generalize NMap.get? v.saved _ = o
  cases o with
  | none => rfl
  | some y => rfl

theorem execRestore_goesOn {y : Saved} (hz : v.mem.readLe (areaAt ps 4) 4 ≠ 0)
    (hy : NMap.get? v.saved (saveKey (s.bank ⟨c, b, 0, 0⟩).ctx.toNat (r.w.get 5).toNat) = some y) :
    ∃ t, execRestore c b s = .next t ∧ (t.bank ⟨c, b, 0, 0⟩).goesOn := by
  unfold execRestore
  dsimp only
  rw [ht]
  dsimp only
  rw [hs, hx]
  dsimp only
  rw [hmap, if_neg (restoreGuard_false h5 hw)]
  dsimp only
  rw [Option.any_some, any_not_carries hc, if_neg Bool.false_ne_true, hy]
  obtain ⟨m, hm⟩ := Nat.exists_eq_succ_of_ne_zero hz
  rw [hm]
  exact ⟨_, rfl, ite_activate_goesOn (resumed_goesOn _ _ _ _)⟩

end

theorem dispatches_iff : s.dispatches d = true ↔
    s.booted = true ∧ (s.die d).power ≠ .gated ∧ (s.die d).power ≠ .idle ∧ s.loss = .none := by
  unfold State.dispatches
  simp only [Bool.and_eq_true, bne_iff_ne, beq_iff_eq, and_assoc]

end Sys2Proof.Machine

namespace Sys2Proof.Machine

/-- Settles O34: each event has the effect that its clause names, once the guards of its definition are seen to let it through. -/
theorem schedulerCompletes : Obligations.SchedulerCompletes := by
  unfold Obligations.SchedulerCompletes
  refine ⟨fun c s b ha => ?_, fun d s hb hg hi hl => ?_,
    fun c b s r rq hs ht => ?_,
    fun d s v h1 h2 h3 h4 h5 h6 hv => ?_,
    fun c b s tail hs ht hn hl hw hp hr ha => ?_,
    fun c b s area n r tail x ps v => ?_, fun s w h => saveFrame_level0 h,
    fun c b s r x ps v ht h5 hs hw hx hmap hc => ⟨fun hz => ?_, fun y hz hy => ?_⟩,
    fun c b s r x v => ?_⟩
  · have h := execBankActivate_ready (b := b) ha
    exact h
  · have hd : s.dispatches d = true := dispatches_iff.2 ⟨hb, hg, hi, hl⟩
    refine ⟨fun w r q hc hq => ?_, fun w q r hc hf hn => ?_, fun q r hc hf hn => ?_⟩
    · have h := execDispatch_claimed hd hc hq
      exact h
    · have h := execDispatch_free hd hc hf hn
      exact h
    · have h := execDispatch_preempt hd hc hf hn
      exact h
  · intro w u hd hm v y x
    have hv : v = (u.ownedRows r.owner).foldl (fun s l => s.release l) u := rfl
    clear_value v
    refine execKillComplete_done hs ht hd hm hv (fun p h => ?_) (fun h => ?_)
    · simp only [y, w, h]
    · simp only [y, w, h]
  · have h := execWorkSteal_done h1 h2 h3 h4 h5 h6 hv
    exact h
  · exact execPreemptCheckpoint_done hs ht hn hl hw hp hr ha
  · intro w hto ht hs u need hd hm hz hw hx hneed hmap hc hpois p
    have hcommit := execSaveCommit_written hto ht hs hd hm hz hw hx hneed hmap hc hpois
    refine ⟨fun hp => hcommit.trans (if_pos (bne_iff_ne.2 hp)), fun ws y hp hf => hcommit.trans ?_⟩
    rw [if_neg (by simpa using hp), hf]
  · exact execRestore_uncommitted ht h5 hs hw hx hmap hc hz
  · exact execRestore_goesOn ht h5 hs hw hx hmap hc hz hy
  · have h := @execRestore_lost s c b r x v
    exact h

end Sys2Proof.Machine
end

section
/-! PROOFS. The events of the host interface, and what its registers read (R359-R363). -/
namespace Sys2Proof.Machine

variable {s : State}

/-- What a write of a base leaves in the interface's registers (R359). -/
def HostIf.written (h : HostIf) (off : Nat) (v : W64) : HostIf :=
  if off = 0x08 then { h with cqbase := v &&& 0xFFFFFFF000 }
  else if off = 0x10 then { h with cqlog := v.setWidth 5 }
  else if off = 0x18 then { h with eqbase := v &&& 0xFFFFFFF000 }
  else if off = 0x20 then { h with eqlog := v.setWidth 5 }
  else if off = 0x28 then { h with stbase := v &&& 0xFFFFFFFFC0 }
  else h

theorem execHostRegWrite_off {off : Nat} {v : W64} (h : s.host.en = false) :
    execHostRegWrite off v s = .next (s.modHost (·.written off v)) := if_neg (Bool.eq_false_iff.1 h)

theorem modHost_hostRead (s : State) (f : HostIf → HostIf) (off : Nat) : ((s.modHost f).hostRead off).host.rdata = (f s.host).read off := rfl

theorem read_unassigned {h : HostIf} {off : Nat} (ho : off ∉ [0x00, 0x08, 0x10, 0x18, 0x20, 0x28]) : h.read off = 0 := by
  simp only [List.mem_cons, List.not_mem_nil, or_false, not_or] at ho
  obtain ⟨h0, h8, h10, h18, h20, h28⟩ := ho
  unfold HostIf.read
  rw [if_neg h0, if_neg h8, if_neg h10, if_neg h18, if_neg h20, if_neg h28]

theorem execHictlWrite_inForce {v : W64} (hc : ringOk s.host.cqlog = true) (he : ringOk s.host.eqlog = true) :
    execHictlWrite v s = .next (s.modHost fun h => { h with en := v.getLsbD 0, want := h.want && v.getLsbD 0 }).statePage := by
  unfold execHictlWrite
  rw [hc, he]
  exact if_neg Bool.false_ne_true

theorem execEventWrite_room {e : Event} {rest : List Event} (hv : s.host.events = e :: rest) (hen : s.host.en = true)
    (hr : (BitVec.ofNat 32 (2 ^ s.host.eqlog.toNat)).slt (s.host.eviss + 1 - s.host.evack) = false) :
    let n := s.host.eviss + 1
    let a := s.host.eqbase.toNat + (n.toNat % 2 ^ s.host.eqlog.toNat) * 64
    let w0 : W64 := BitVec.ofNat 64 (e.status * 2 ^ 48 + e.code * 2 ^ 32 + n.toNat)
    let u := (s.putBytes homeAgent (a + 8) (wordBytes ((List.range 7).map fun i => e.args.getD i 0))).putBytes homeAgent a
      (leBytes 8 w0.toNat)
    execEventWrite s = .next ((u.modHost fun h =>
      { h with
        eviss := n, events := rest
        cmddone := if e.code = 1 then (e.args.getD 0 0).setWidth 32 else h.cmddone }).readSlots 65537).statePage := by
  unfold execEventWrite
  dsimp only
  rw [hv]
  dsimp only
  rw [hr, hen, if_neg (by simp)]

end Sys2Proof.Machine

namespace Sys2Proof.Machine

/-- Settles O36: a register write is `HostIf.written`, and each other event has its effect once its guard lets it through. -/
theorem hostInterfaceCompletes : Obligations.HostInterfaceCompletes := by
  unfold Obligations.HostInterfaceCompletes
  exact ⟨fun off v s h => execHostRegWrite_off h,
    fun v s h => ⟨_, execHostRegWrite_off h, modHost_hostRead _ _ _⟩,
    fun v s h => ⟨_, execHostRegWrite_off h, modHost_hostRead _ _ _⟩,
    fun v s h => ⟨_, execHostRegWrite_off h, modHost_hostRead _ _ _⟩,
    fun off s ho => read_unassigned ho, fun v s hc he => execHictlWrite_inForce hc he, fun v s => rfl, fun v s => rfl,
    fun s e rest hv hen hr => execEventWrite_room hv hen hr⟩

end Sys2Proof.Machine
end

section
/-! PROOFS. The turn of a command: what it comes to when the command starts, and when it goes on (R361). -/
namespace Sys2Proof.Machine

variable {s : State} {op : Nat} {c : Cmd} {start go run : Cmd → State → State}

theorem choose_one (s : State) : s.choose 1 = (0, s) := if_pos (Nat.le_refl 1)

theorem cmdTurn_starts (h : Starts s op c) : s.cmdTurn op start go = .next (start c (s.begun c)) := by
  obtain ⟨hw, hl, hr, hh, ho, hs⟩ := h
  obtain ⟨rest, hc⟩ : ∃ rest, s.host.cmds = c :: rest := List.head?_eq_some_iff.1 hh
  have hgo : ¬ (decide (4096 ≤ s.evWaiting) || s.loss != .none) = true := by
    rw [decide_eq_false (Nat.not_le.2 hw), hl]
    exact Bool.false_ne_true
  have hcan : (c.op == op && decide (s.host.started ≤ s.now)) = true := by
    rw [beq_iff_eq.2 ho, decide_eq_true hs]
    rfl
  unfold State.cmdTurn
  rw [if_neg hgo]
  dsimp only
  rw [hr, hc]
  dsimp only
  rw [hcan, if_pos rfl]
  change (match s.choose 1 with
    | (k, s) => match ([] : List Cmd)[k]?, [c] with
      | some c, _ => .next (go c s)
      | none, c :: _ => .next (start c (s.begun c))
      | none, [] => .next s : Out) = _
  rw [choose_one]
  rfl

theorem cmdOnce_starts (h : Starts s op c) : s.cmdOnce op run = .next (run c (s.begun c)) := cmdTurn_starts h

theorem cmdTurn_goesOn (h : GoesOn s op c) : s.cmdTurn op start go = .next (go c s) := by
  obtain ⟨hw, hl, hr, hh⟩ := h
  have hgo : ¬ (decide (4096 ≤ s.evWaiting) || s.loss != .none) = true := by
    rw [decide_eq_false (Nat.not_le.2 hw), hl]
    exact Bool.false_ne_true
  have hcannot : ∀ x rest, s.host.cmds = x :: rest → ¬ (x.op == op && decide (s.host.started ≤ s.now)) = true := by
    intro x rest hc hx
    obtain ⟨ho, hs⟩ := Bool.and_eq_true_iff.1 hx
    exact absurd (of_decide_eq_true hs) (Nat.not_le.2 (hh x (by rw [hc]; rfl) (beq_iff_eq.1 ho)))
  have hgoes : (match s.choose 1 with
    | (k, s) => match [c][k]?, ([] : List Cmd) with
      | some c, _ => .next (go c s)
      | none, c :: _ => .next (start c (s.begun c))
      | none, [] => .next s : Out) = .next (go c s) := by
    rw [choose_one]
    rfl
  unfold State.cmdTurn
  rw [if_neg hgo]
  dsimp only
  rw [hr]
  cases hc : s.host.cmds with
  | nil => exact hgoes
  | cons x rest =>
    dsimp only
    rw [if_neg (hcannot x rest hc)]
    exact hgoes

end Sys2Proof.Machine
end

section
/-! PROOFS. Power events: clamps, the steps of a loss, the hold-up bank and a module reset (R401-R406). -/
namespace Sys2Proof.Machine

variable {s : State} {d : DieId}

/-! ## Clamps and the hold-up bank -/

theorem execClampChange_done {cc tc : Bool} {mhz : BitVec 16} :
    let f : BitVec 16 := if !cc && !tc then 3600 else if mhz.toNat < 3600 then mhz else 3600
    let u := s.modDie d fun x => { x with cclamp := cc, tclamp := tc, mhz := f }
    ((s.die d).cclamp = cc ∧ (s.die d).tclamp = tc ∨ s.evWaiting < 4096) →
    execClampChange d cc tc mhz s = .next (if (s.die d).cclamp = cc ∧ (s.die d).tclamp = tc then u
      else if s.reportSoon d then u.modDie d fun x => { x with deferred := true }
      else u.powerReport d) := by
  intro f u h
  unfold execClampChange
  dsimp only
  by_cases hsame : (s.die d).cclamp = cc ∧ (s.die d).tclamp = tc
  · rw [if_pos (by simp [hsame.1, hsame.2]), if_pos hsame]
  · have hw : ¬ 4096 ≤ s.evWaiting := Nat.not_le.2 (h.resolve_left hsame)
    rw [if_neg (by simpa using hsame), if_neg hw, if_neg hsame]
    exact (apply_ite Host.Outcome.next _ _ _).symm

theorem execPowerReportDeferred_done (hd : (s.die d).deferred = true) (hr : s.reportSoon d = false) (hw : s.evWaiting < 4096) :
    execPowerReportDeferred d s = .next (s.powerReport d) := by
  unfold execPowerReportDeferred
  rw [hd, hr, decide_eq_false (Nat.not_le.2 hw)]
  exact if_neg Bool.false_ne_true

theorem execHoldupBankLow_done {j : Nat} (hw : s.evWaiting < 4096) (hj : j ≤ 3000) : execHoldupBankLow j s = .next (
    if j < 2500 ∧ s.ckptArmed = true then ({ s with joules := j, ckptArmed := false } : State).event 0x000E [1]
    else { s with joules := j }) := by
  unfold execHoldupBankLow
  rw [if_neg (by simp [Nat.not_lt.2 hj, Nat.not_le.2 hw])]
  dsimp only
  by_cases ha : j < 2500 ∧ s.ckptArmed = true
  · rw [if_pos (by simp [ha.1, ha.2]), if_pos ha]
  · rw [if_neg (by simpa using ha), if_neg ha]

/-! ## The loss of the input power -/

theorem execInputPowerLoss_first (h : s.loss = .none) : execInputPowerLoss s = .next (
    if s.ckptArmed then { s with loss := .stopped, lossList := [], lossTime := s.time } else { s with off := true, draft := none }) := by
  unfold execInputPowerLoss
  dsimp only
  rw [h]
  cases s.ckptArmed <;> rfl

theorem execInputPowerLoss_again (h : s.loss ≠ .none) : execInputPowerLoss s = .next (
    if s.ckptArmed = false ∧ s.host.running.any (fun c => c.op == 0x0100) = true then { s with off := true, draft := none } else s) := by
  unfold execInputPowerLoss
  dsimp only
  rw [beq_eq_false_iff_ne.2 h, bne_iff_ne.2 h]
  cases s.ckptArmed <;> cases s.host.running.any (fun c => c.op == 0x0100) <;> rfl

theorem execLossSaveTasks_none (h : s.loss = .stopped) (hn : ∀ c b, ((s.core c).banks.get b).task = none) :
    execLossSaveTasks s = .next { s with loss := .saved } := by
  have hws : ((List.finRange 512).flatMap fun c => (List.finRange 2).filterMap fun b =>
      if ((s.core c).banks.get b).task.isSome then some (⟨c, b, 0, 0⟩ : Who) else none) = [] := by
    refine List.flatMap_eq_nil_iff.2 fun c _ => List.filterMap_eq_nil_iff.2 fun b _ => ?_
    rw [hn c b]
    rfl
  unfold execLossSaveTasks
  rw [if_neg (by rw [h]; exact Bool.false_ne_true)]
  dsimp only
  rw [if_pos hws]

theorem execLossWriteBack_rest (h : s.loss = .saved) (hr : s.atRest = true) :
    execLossWriteBack s = .next { s with loss := .written } := by
  unfold execLossWriteBack
  rw [h, hr]
  exact if_neg Bool.false_ne_true

theorem execLossStoreState_keeps (h : s.loss = .written) : ∃ m, execLossStoreState s = .next { s with loss := .stored, draft := some m } ∧
    m.cores = s.cores ∧ m.clusters = s.clusters ∧ m.dies = s.dies ∧ m.ctxs = s.ctxs ∧ m.tickets = s.tickets ∧ m.acl = s.acl ∧
    m.host = s.host ∧ m.fenced = s.fenced ∧ m.worn = s.worn ∧ m.poison = s.poison ∧ m.time = s.lossTime ∧ m.now = s.now ∧
    m.nlost = s.lossList.length ∧ m.lost = s.lossList.take 120 := by
  unfold execLossStoreState
  rw [if_neg (by rw [h]; exact Bool.false_ne_true)]
  exact ⟨_, rfl, rfl, rfl, rfl, rfl, rfl, rfl, rfl, rfl, rfl, rfl, rfl, rfl, rfl, rfl⟩

theorem execLossStoreHbm_done (h : s.loss = .stored) : execLossStoreHbm s = .next { s with
    loss := .hbm, draft := s.draft.map fun m => { m with mem := s.mem, digest := ({ m with mem := s.mem } : Image).hash } } :=
  if_neg (by rw [h]; exact Bool.false_ne_true)

theorem execLossCommit_done (h : s.loss = .hbm) :
    execLossCommit s = .next { s with loss := .committed, image := s.draft, draft := none } :=
  if_neg (by rw [h]; exact Bool.false_ne_true)

theorem execLossOff_done (h : s.loss = .committed) : execLossOff s = .next { s with off := true } :=
  if_neg (by rw [h]; exact Bool.false_ne_true)

theorem execHoldupBankExhausted_done (h : s.loss ≠ .none) (hc : s.loss ≠ .committed) :
    execHoldupBankExhausted s = .next { s with off := true, joules := 0, draft := none } :=
  if_neg (by simp [h, hc])

/-! ## Module reset -/

/-- What a boot stage may change: the firmware that has booted. -/
def State.BootOnly (s t : State) : Prop := t = { s with booted := t.booted, mr := t.mr, svn := t.svn }

theorem State.BootOnly.trans {s t u : State} (h : s.BootOnly t) (h' : t.BootOnly u) : s.BootOnly u := by
  unfold State.BootOnly at *
  rw [h']
  rw [h]

theorem foldl_bootOnly {α : Type} {f : State → α → State} (hf : ∀ (s : State) x, s.BootOnly (f s x)) (xs : List α) (s : State) :
    s.BootOnly (xs.foldl f s) := by
  induction xs generalizing s with
  | nil => exact rfl
  | cons x xs ih => exact (hf s x).trans (ih (f s x))

theorem bootStage_bootOnly (s : State) (k : Fin 4) : s.BootOnly (s.bootStage k) := by
  unfold State.bootStage
  dsimp only
  split
  · exact rfl
  · exact foldl_bootOnly (fun _ _ => by exact rfl) _ s

/-- The state from which the firmware boots: as at reset, but what a module reset keeps (R405, R406). -/
def State.bootsFrom (s : State) : State :=
  { State.reset with
    agenda := s.agenda, choice := s.choice, image := s.image, staged := s.staged
    installed := s.installed, minSvn := s.minSvn, joules := s.joules }
/-- A staged image that has booted gives the fused minimum and stands at its stage (R406). -/
def State.bootedImage (t : State) : State :=
  match t.staged, t.booted with
  | some im, true =>
    { t with
      staged := none, installed := NMap.put t.installed (Config.imageStage im % 4) im
      minSvn := BitVec.ofNat 8 (Config.imageSvn im) }
  | _, _ => t

theorem execModuleReset_eq (s : State) :
    execModuleReset s = .next ((List.finRange 4).foldl (fun s k => s.bootStage k) s.bootsFrom).bootedImage := rfl

/-- A state as at reset but for what a module reset keeps, the firmware that has booted, and the images it was booted from. -/
def State.ResetBut (s t : State) : Prop := t = { State.reset with
  agenda := s.agenda, choice := s.choice, image := s.image, joules := s.joules, booted := t.booted, mr := t.mr, svn := t.svn
  staged := t.staged, installed := t.installed, minSvn := t.minSvn }

theorem execModuleReset_resets (s : State) : ∃ t, execModuleReset s = .next t ∧ s.ResetBut t ∧
    (t.booted = false → t.staged = s.staged ∧ t.installed = s.installed ∧ t.minSvn = s.minSvn) := by
  have hboot : s.bootsFrom.BootOnly ((List.finRange 4).foldl (fun s k => s.bootStage k) s.bootsFrom) :=
    foldl_bootOnly (fun s k => bootStage_bootOnly s k) _ _
  refine ⟨_, execModuleReset_eq s, ?_⟩
  generalize (List.finRange 4).foldl (fun s k => s.bootStage k) s.bootsFrom = u at hboot
  unfold State.BootOnly at hboot
  rw [hboot]
  unfold State.bootedImage State.bootsFrom
  dsimp only
  cases s.staged with
  | none => exact ⟨rfl, fun _ => ⟨rfl, rfl, rfl⟩⟩
  | some im =>
    cases u.booted with
    | false => exact ⟨rfl, fun _ => ⟨rfl, rfl, rfl⟩⟩
    | true => exact ⟨rfl, fun h => nomatch h⟩

end Sys2Proof.Machine

namespace Sys2Proof.Machine

/-- Settles O40: each event has the effect that its clause names, and the boot of a module reset changes only the firmware's fields. -/
theorem powerEventsComplete : Obligations.PowerEventsComplete := by
  unfold Obligations.PowerEventsComplete
  exact ⟨fun d cc tc mhz s => execClampChange_done, fun d s hd hr hw => execPowerReportDeferred_done hd hr hw,
    fun j s hw hj => execHoldupBankLow_done hw hj, fun s h => execInputPowerLoss_first h, fun s h => execInputPowerLoss_again h,
    fun s h hn => execLossSaveTasks_none h hn, fun s h hr => execLossWriteBack_rest h hr, fun s h => execLossStoreState_keeps h,
    fun s h => execLossStoreHbm_done h, fun s h => execLossCommit_done h, fun s h => execLossOff_done h,
    fun s h hc => execHoldupBankExhausted_done h hc, fun s => execModuleReset_resets s⟩

end Sys2Proof.Machine
end

section
/-! PROOFS. The commands of the module (R386, R398-R408). -/
namespace Sys2Proof.Machine

variable {s : State} {c : Cmd} {u : FUnit}

/-! ## Reliability and self-tests -/

theorem execRelparam_starts (h : Starts s 0x0200 c) :
    let a := fld (c.args.get 0) 31 0
    let b := fld (c.args.get 1) 31 0
    let t := fld (c.args.get 2) 15 0
    execRelparam s = .next (if 60 ≤ a ∧ a ≤ 43200 ∧ 100 ≤ b ∧ b ≤ 2000 ∧ 1 ≤ t
      then ({ s.begun c with
        scrubMin := BitVec.ofNat 32 a, rotMs := BitVec.ofNat 32 b, corrThreshold := BitVec.ofNat 16 t } : State).cmdDone c 0
      else (s.begun c).cmdDone c 2) := by
  intro a b t
  refine (cmdOnce_starts h).trans (congrArg Host.Outcome.next ?_)
  dsimp only
  by_cases hr : 60 ≤ a ∧ a ≤ 43200 ∧ 100 ≤ b ∧ b ≤ 2000 ∧ 1 ≤ t
  · rw [if_pos hr, if_pos (by simpa [and_assoc] using hr)]
  · rw [if_neg hr, if_neg (by simpa [and_assoc] using hr)]

theorem execSelftest_starts (h : Starts s 0x0201 c) (hu : unitOf (c.args.get 0) = some u) (hb : bareUnit (c.args.get 0) = true) :
    execSelftest s = .next (if s.tests.any (·.1 == wholeUnit u) then s.begun c
      else if s.fenced.contains (wholeUnit u) then (s.begun c).fence1 u false
      else ((s.begun c).choose 6).2.fenceUnit u ((s.begun c).choose 6).1 0) := by
  refine (cmdOnce_starts h).trans (congrArg Host.Outcome.next ?_)
  dsimp only
  rw [hu, hb]
  rfl

theorem execRetire_starts (h : Starts s 0x0202 c) (hu : unitOf (c.args.get 0) = some u) (hb : bareUnit (c.args.get 0) = true) :
    let t := (s.begun c).unitTask u
    execRetire s = .next (((s.begun c).errorReport (unitType u) 5 0 (unitNum u) 0 t.1 t.2).fence1 u true) := by
  refine (cmdTurn_starts h).trans (congrArg Host.Outcome.next ?_)
  dsimp only
  rw [hu, hb]

theorem execRetire_goesOn (h : GoesOn s 0x0202 c) (hu : unitOf (c.args.get 0) = some u) (hi : s.unitIdle u = true) :
    execRetire s = .next (((s.lasting u).2.2.testsDone u).cmdDone c 0) := by
  refine (cmdTurn_goesOn h).trans (congrArg Host.Outcome.next ?_)
  rw [hu]
  exact if_pos hi

/-! ## Power states and checkpoints on loss -/

theorem execPowerstate_starts (h : Starts s 0x0100 c) (hst : fld (c.args.get 1) 2 0 < 4)
    (hm : (maskDies (c.args.get 0)).find? (fun d =>
      !(s.begun c).mayEnter d (fld (c.args.get 1) 2 0) ((c.args.get 2).setWidth 16).toNat) = none) :
    execPowerstate s = .next (((maskDies (c.args.get 0)).foldl (fun s d =>
      s.enter d (fld (c.args.get 1) 2 0) ((c.args.get 2).setWidth 16)) (s.begun c)).cmdDone c 0) := by
  refine (cmdOnce_starts h).trans (congrArg Host.Outcome.next ?_)
  dsimp only
  simp only [if_neg (Nat.ne_of_lt hst)]
  rw [if_neg (Nat.not_lt.2 (Nat.le_of_lt hst)), hm]

theorem execCkptarm_starts (h : Starts s 0x0101 c) : execCkptarm s = .next (
    if (c.args.get 0).getLsbD 0 = false then ({ s.begun c with ckptArmed := false } : State).cmdDone c 0
    else if s.joules < 2500 then (s.begun c).cmdDone c 3
    else ({ s.begun c with ckptArmed := true, image := none } : State).cmdDone c 0) := by
  refine (cmdOnce_starts h).trans (congrArg Host.Outcome.next ?_)
  dsimp only
  cases (c.args.get 0).getLsbD 0 <;> rfl

theorem execCkptrestore_empty (h : Starts s 0x0102 c) (hi : s.image = none) :
    execCkptrestore s = .next ((s.begun c).cmdDone c 4) := by
  have hb : (s.begun c).image = none := hi
  refine (cmdOnce_starts h).trans (congrArg Host.Outcome.next ?_)
  dsimp only
  rw [hb]

theorem execCkptrestore_whole {m : Image} (h : Starts s 0x0102 c) (hi : s.image = some m) (hd : m.digest = m.hash) :
    execCkptrestore s = .next (((m.host.running ++ m.host.cmds).foldl (fun s x => s.cmdEvent x.seqNo 3 0)
      ((((s.begun c).fromImage m).hostFrom m).lossEvents m.lost)).cmdDone c 0).statePage := by
  have hb : (s.begun c).image = some m := hi
  refine (cmdOnce_starts h).trans (congrArg Host.Outcome.next ?_)
  dsimp only
  rw [hb]
  dsimp only
  rw [if_neg (by rw [bne_eq_false_iff_eq.2 hd]; exact Bool.false_ne_true)]

theorem execCkptdiscard_starts (h : Starts s 0x0103 c) :
    execCkptdiscard s = .next (({ s.begun c with image := none } : State).cmdDone c 0) := cmdOnce_starts h

/-! ## Firmware -/

theorem execAttest_starts (h : Starts s 0x0104 c) (ha : fld (c.args.get 0) 5 0 = 0) (hb : fld (c.args.get 1) 5 0 = 0) :
    let body := s.mem.readN (c.args.get 0).toNat 64 ++ s.mr.toList.flatMap bytes512 ++ s.svn.toList ++ leBytes 4 0 ++ leBytes 8 s.tb
    execAttest s = .next (((s.begun c).putBytes homeAgent (c.args.get 1).toNat
      (body ++ (Config.identitySign body).toList ++ leBytes 3 0)).cmdDone c 0) := by
  refine (cmdOnce_starts h).trans (congrArg Host.Outcome.next ?_)
  dsimp only
  rw [ha, hb]
  exact if_neg Bool.false_ne_true

theorem execFwstage_starts (h : Starts s 0x0105 c) :
    let im := s.mem.readN (c.args.get 0).toNat (c.args.get 1).toNat
    execFwstage s = .next (if imageOk s.minSvn im then ({ s.begun c with staged := some im } : State).cmdDone c 0
      else (s.begun c).cmdDone c 2) := cmdOnce_starts h

end Sys2Proof.Machine

namespace Sys2Proof.Machine

/-- Settles O38: each command that starts comes to its body on the state in which it has begun, and goes on as its clause says. -/
theorem moduleCommandsComplete : Obligations.ModuleCommandsComplete := by
  unfold Obligations.ModuleCommandsComplete
  refine ⟨fun s c h => execRelparam_starts h, fun s c u h hu hb => ?_, fun s c u h hu hb => execRetire_starts h hu hb,
    fun s c u h hu hi => execRetire_goesOn h hu hi, fun s c h hst hm => execPowerstate_starts h hst hm, fun s c h => execCkptarm_starts h,
    fun s c h hi => execCkptrestore_empty h hi, fun s c m h hi hd => execCkptrestore_whole h hi hd, fun s c h => execCkptdiscard_starts h,
    fun s c h ha hb => execAttest_starts h ha hb, fun s c h => execFwstage_starts h⟩
  have hself := execSelftest_starts h hu hb
  refine ⟨fun ht => hself.trans (congrArg Host.Outcome.next (if_pos ht)), fun ht hf => hself.trans (congrArg Host.Outcome.next ?_),
    fun ht hf => hself.trans (congrArg Host.Outcome.next ?_)⟩
  · exact (if_neg (Bool.eq_false_iff.1 ht)).trans (if_pos hf)
  · exact (if_neg (Bool.eq_false_iff.1 ht)).trans (if_neg (Bool.eq_false_iff.1 hf))

end Sys2Proof.Machine
end

section
/-! PROOFS. The commands of the debugger (R409-R421). -/
namespace Sys2Proof.Machine

variable {s : State} {c : Cmd}

/-! ## Claims and stops -/

theorem halted_eq_false {k : Core} (h : k.stopped = none ∨ k.stepping = true) : k.halted = false := by
  unfold Core.halted
  cases h with
  | inl h => rw [h]; rfl
  | inr h => rw [h]; exact Bool.and_false _

theorem halted_eq_true {k : Core} (hs : k.stopped.isSome = true) (hp : k.stepping = false) : k.halted = true := by
  unfold Core.halted
  rw [hs, hp]
  rfl

theorem execDbgclaim_claims (h : Starts s 0x0300 c) (hb : (c.args.get 1).getLsbD 0 = true) :
    execDbgclaim s = .next (((s.begun c).modCore c.core fun k => { k with claimed := true }).cmdDone c 0) :=
  (cmdOnce_starts h).trans (congrArg Host.Outcome.next (if_pos hb))

theorem execDbgclaim_releases (h : Starts s 0x0300 c) (hb : (c.args.get 1).getLsbD 0 = false)
    (hs : (s.core c.core).stopped = none ∨ (s.core c.core).stepping = true) :
    execDbgclaim s = .next (((s.begun c).modCore c.core fun k => { k with claimed := false }).cmdDone c 0) := by
  have hh : ((s.begun c).core c.core).halted = false := halted_eq_false hs
  refine (cmdOnce_starts h).trans (congrArg Host.Outcome.next ?_)
  dsimp only
  rw [if_neg (Bool.eq_false_iff.1 hb), hh]
  exact if_pos rfl

theorem execDbgstop_starts (h : Starts s 0x0301 c) (ha : fld (c.args.get 1) 11 0 = 0) :
    let mask := s.mem.readLe (c.args.get 0).toNat 64
    execDbgstop s = .next (((maskCores mask).zipIdx.foldl (fun s x => s.dbgStop (c.args.get 1) x) (s.begun c)).cmdNote c mask) := by
  refine (cmdTurn_starts h).trans (congrArg Host.Outcome.next ?_)
  dsimp only
  rw [ha]
  exact if_neg Bool.false_ne_true

theorem execDbgstop_goesOn (h : GoesOn s 0x0301 c) (hs : ∀ x : CoreId, c.step.testBit x.val = true → (s.core x).halted = true) :
    execDbgstop s = .next (s.cmdDone c 0) :=
  (cmdTurn_goesOn h).trans (congrArg Host.Outcome.next (if_pos (List.all_eq_true.2 fun x hx => hs x (List.mem_filter.1 hx).2)))

/-! ## Going on and single steps -/

theorem execDbgresume_starts {t : State} (h : Starts s 0x0303 c) (hc : (s.core c.core).claimed = true)
    (hs : (s.core c.core).stopped.isSome = true) (hp : (s.core c.core).stepping = false)
    (ht : (s.begun c).dbgResume c.core (c.args.get 1) = some t) : execDbgresume s = .next (t.cmdDone c 0) := by
  have hb : ((s.begun c).core c.core).claimed = true := hc
  have hh : ((s.begun c).core c.core).halted = true := halted_eq_true hs hp
  refine (cmdOnce_starts h).trans (congrArg Host.Outcome.next ?_)
  dsimp only
  rw [hb, hh, ht]
  exact if_neg Bool.false_ne_true

theorem execDbgstep_starts (h : Starts s 0x0302 c) (hc : (s.core c.core).claimed = true)
    (hs : (s.core c.core).stopped.isSome = true) (hp : (s.core c.core).stepping = false) (hn : fld (c.args.get 2) 15 0 ≠ 0) :
    execDbgstep s = .next ((s.begun c).beginStep c.core (fld (c.args.get 1) 3 0) (fld (c.args.get 2) 15 0)) := by
  have hb : ((s.begun c).core c.core).claimed = true := hc
  have hh : ((s.begun c).core c.core).halted = true := halted_eq_true hs hp
  refine (cmdTurn_starts h).trans (congrArg Host.Outcome.next ?_)
  dsimp only
  rw [hb, hh, if_neg hn]
  exact if_neg Bool.false_ne_true

theorem execDbgstep_goesOn (h : GoesOn s 0x0302 c) (hp : (s.core c.core).stepping = false) :
    execDbgstep s = .next (s.cmdDone c 0) :=
  (cmdTurn_goesOn h).trans (congrArg Host.Outcome.next (if_neg (Bool.eq_false_iff.1 hp)))

/-! ## Patches and registers -/

theorem execDbgpatch_starts {x : Ctx} {l : Nat} {e : W64} {t : State} (h : Starts s 0x0304 c) (hc : s.cores.any (·.claimed) = true)
    (h5 : fld (c.args.get 1) 5 0 = 0) (h63 : fld (c.args.get 1) 63 57 = 0)
    (hx : NMap.get? s.ctxs ((c.args.get 0).setWidth 12 : BitVec 12).toNat = some x)
    (hw : walk (s.begun c) (tlbAgent 0 0) (c.args.get 1).toNat 4 (fld (x.blk.get 1) 39 12 * 4096) = (.leaf l e, t))
    (ho : pteOwnH e = false) (hex : pteX e = true) :
    let pa := pteAddr e / 2 ^ pageBits l * 2 ^ pageBits l + (c.args.get 1).toNat % 2 ^ pageBits l
    let line := BitVec.ofNat 512 (t.mem.readLe (c.args.get 2).toNat 64)
    let u := t.putBytes homeAgent pa (bytes512 line)
    execDbgpatch s = .next (({ u with
      cores := u.cores.map fun (k : Core) => (k.dropLines ((c.args.get 0).setWidth 12) (c.args.get 1).toNat 1).patchStore
        ((c.args.get 0).setWidth 12) (c.args.get 1).toNat line } : State).cmdDone c 0) := by
  have hbc : (s.begun c).cores.any (·.claimed) = true := hc
  have hbx : NMap.get? (s.begun c).ctxs ((c.args.get 0).setWidth 12 : BitVec 12).toNat = some x := hx
  refine (cmdOnce_starts h).trans (congrArg Host.Outcome.next ?_)
  dsimp only
  rw [hbc, h5, h63, hbx]
  dsimp only
  rw [hw]
  dsimp only
  rw [ho, hex]
  rfl

theorem execDbgregw_starts (h : Starts s 0x0305 c) (hlo : 0x300 ≤ fld (c.args.get 1) 11 0) (hhi : fld (c.args.get 1) 11 0 < 0x320)
    (ha : csrAssigned (fld (c.args.get 1) 11 0) = true) (hl : csrLimit (fld (c.args.get 1) 11 0) (c.args.get 2) = true) :
    let w : Who := { c := c.core, b := ⟨fld (c.args.get 0) 9 9 % 2, by omega⟩ }
    execDbgregw s = .next (((s.begun c).modBank w (·.csrLand 0 (fld (c.args.get 1) 11 0) (c.args.get 2))).cmdDone c 0) := by
  refine (cmdOnce_starts h).trans (congrArg Host.Outcome.next ?_)
  dsimp only
  rw [ha, hl, decide_eq_false (Nat.not_lt.2 hlo), decide_eq_false (Nat.not_le.2 hhi)]
  exact if_neg Bool.false_ne_true

/-! ## Profiling, trace and time -/

theorem execEwtwrite_starts (h : Starts s 0x0306 c) : execEwtwrite s = .next (({ s.begun c with
    weights := NMap.put s.weights (fld (c.args.get 0) 11 0)
      (Vector.ofFn fun (i : Fin 32) => BitVec.ofNat 16 (s.mem.readLe ((c.args.get 1).toNat + 2 * i.val) 2)) } : State).cmdDone c 0) :=
  cmdOnce_starts h

theorem execProfblock_starts {x : Ctx} (h : Starts s 0x0307 c) (h2 : fld (c.args.get 1) 2 0 = 0) (h63 : fld (c.args.get 1) 63 57 = 0)
    (hx : NMap.get? s.ctxs (fld (c.args.get 0) 11 0) = some x) : execProfblock s = .next (({ s.begun c with
      ctxs := NMap.put s.ctxs (fld (c.args.get 0) 11 0) { x with prof := c.args.get 1 } } : State).cmdDone c 0) := by
  have hbx : NMap.get? (s.begun c).ctxs (fld (c.args.get 0) 11 0) = some x := hx
  refine (cmdOnce_starts h).trans (congrArg Host.Outcome.next ?_)
  dsimp only
  rw [h2, h63, hbx]
  rfl

theorem execTracecfg_starts (h : Starts s 0x0308 c) (hb : c.args.get 1 ≠ 0) (h11 : fld (c.args.get 1) 11 0 = 0)
    (hz : c.args.get 2 ≠ 0) (hm : (c.args.get 2).toNat ≤ 2 ^ 20) :
    let d : DieId := ⟨fld (c.args.get 0) 2 0 % 8, by omega⟩
    let t : Trace :=
      { on := true, base := c.args.get 1, size := (c.args.get 2).toNat, stopMode := (c.args.get 3).getLsbD 0
        kinds := BitVec.ofNat 15 (fld (c.args.get 3) 15 1) }
    execTracecfg s = .next (((s.begun c).modDie d fun x => { x with traceNext := some t }).cmdDone c 0) := by
  have hz' : (c.args.get 2).toNat ≠ 0 := fun h0 => hz (BitVec.eq_of_toNat_eq h0)
  refine (cmdOnce_starts h).trans (congrArg Host.Outcome.next ?_)
  dsimp only
  rw [if_neg hb, h11, decide_eq_false hz', decide_eq_false (Nat.not_lt.2 hm)]
  exact if_neg Bool.false_ne_true

theorem parCommit_trace {x : Die} {t : Trace} (h : x.traceNext = some t) (ht : t.on = true) :
    x.parCommit.trace = t ∧ x.parCommit.traceNext = none := by
  unfold Die.parCommit
  rw [h]
  dsimp only
  rw [if_pos ht]
  cases x.parNext with
  | none => exact ⟨rfl, rfl⟩
  | some p => exact ⟨rfl, rfl⟩

theorem execPeerskew_starts (h : Starts s 0x0309 c) :
    let a := (s.begun c).fresh
    let b := a.2.fresh
    execPeerskew s = .next (if Config.route ((c.args.get 0).setWidth 16) = 0 then (s.begun c).cmdDone c 4
      else (b.2.putBytes homeAgent (c.args.get 1).toNat (wordBytes [a.1, b.1])).cmdDone c 0) := cmdOnce_starts h

end Sys2Proof.Machine

namespace Sys2Proof.Machine

/-- Settles O39: each command that starts comes to its body on the state in which it has begun, and goes on as its clause says. -/
theorem debuggerCommandsComplete : Obligations.DebuggerCommandsComplete := by
  unfold Obligations.DebuggerCommandsComplete
  exact ⟨fun s c h hb => execDbgclaim_claims h hb, fun s c h hb hs => execDbgclaim_releases h hb hs,
    fun s c h ha => execDbgstop_starts h ha, fun s c h hs => execDbgstop_goesOn h hs,
    fun s c t h hc hs hp ht => execDbgresume_starts h hc hs hp ht, fun s c h hc hs hp hn => execDbgstep_starts h hc hs hp hn,
    fun s c h hp => execDbgstep_goesOn h hp,
    fun s c x l e t h hc h5 h63 hx hw ho hex => execDbgpatch_starts h hc h5 h63 hx hw ho hex,
    fun s c h hlo hhi ha hl => execDbgregw_starts h hlo hhi ha hl, fun s c h => execEwtwrite_starts h,
    fun s c x h h2 h63 hx => execProfblock_starts h h2 h63 hx, fun s c h hb h11 hz hm => execTracecfg_starts h hb h11 hz hm,
    fun x t h ht => parCommit_trace h ht, fun s c h => execPeerskew_starts h⟩

end Sys2Proof.Machine
end

section
/-! PROOFS. The commands for contexts, tasks and pages (R315, R353-R358, R365-R367). -/
namespace Sys2Proof.Machine

variable {s : State} {c : Cmd}

/-! ## Launches and contexts -/

theorem execCmdNop_starts (h : Starts s 0x0000 c) : execCmdNop s = .next ((s.begun c).cmdDone c 0) := cmdOnce_starts h

theorem execLaunch_starts (h : Starts s 0x0001 c) (ha : fld (c.args.get 0) 5 0 = 0) :
    let u := s.begun c
    let w := recWords ((u.physWords (c.args.get 0).toNat 8).modify 7 fun x =>
      setFld (setFld x 63 48 0xFFFE) 31 0 c.seqNo.toNat)
    let d : DieId := ⟨fld (c.args.get 1) 2 0 % 8, by omega⟩
    u.recReason d .host w = 0 →
    execLaunch s = .next ((u.acceptRec d (Origin.host.key 0) w c.view (c.args.get 0)).2.cmdDone c 0) := by
  intro u w d hr
  refine (cmdOnce_starts h).trans (congrArg Host.Outcome.next ?_)
  dsimp only
  rw [ha, if_neg (by exact Bool.false_ne_true)]
  exact (congrArg (fun n => match n with
    | 0 => (u.acceptRec d (Origin.host.key 0) w c.view (c.args.get 0)).2.cmdDone c 0
    | n => (u.refuseRec n (c.seqNo.setWidth 64) ((recCorr w).setWidth 64) (c.args.get 0)).cmdDone c 3 n) hr)

theorem execCtxcreate_starts (h : Starts s 0x0002 c) (ha : fld (c.args.get 0) 5 0 = 0) :
    let u := s.begun c
    let w := ctxBlock (Vector.ofFn fun i => BitVec.ofNat 64 (u.mem.readLe ((c.args.get 0).toNat + 8 * i.val) 8))
    let later := u.host.cmds.any fun y => y.op == 0x0003 && fld (y.args.get 0) 11 0 == (w.get 0).toNat
    ctxBlockOk w = true → NMap.get? u.ctxs (w.get 0).toNat = none →
    execCtxcreate s = .next (({ u.loadHandler w with
      ctxs := NMap.put (u.loadHandler w).ctxs (w.get 0).toNat { blk := w, free := List.range (fld (w.get 9) 31 0) }
      torn := if later then (u.loadHandler w).torn else (u.loadHandler w).torn.filter (· != (w.get 0).toNat) } : State).cmdDone c 0) := by
  intro u w later hok hx
  refine (cmdOnce_starts h).trans (congrArg Host.Outcome.next (if_neg ?_))
  change ¬ (fld (c.args.get 0) 5 0 != 0 || !ctxBlockOk w || (NMap.get? u.ctxs (w.get 0).toNat).isSome) = true
  rw [ha, hok, hx]
  exact Bool.false_ne_true

/-! ## Teardown -/

theorem foldl_torn {α : Type} {f : State → α → State} (hf : ∀ (s : State) x, (f s x).torn = s.torn) (xs : List α) (s : State) :
    (xs.foldl f s).torn = s.torn := by
  induction xs generalizing s with
  | nil => rfl
  | cons x xs ih => exact (ih (f s x)).trans (hf s x)

theorem refuseLaunch_torn (s : State) (d : DieId) (r : Rec) : (s.refuseLaunch d r).torn = s.torn := by
  unfold State.refuseLaunch State.refuseRec State.dropRec State.freeSlotOf
  simp only [State.event_torn, State.modHost_torn, State.modDie_torn]

theorem freeBank_torn (s : State) (w : Who) : (s.freeBank w).torn = s.torn := rfl

/-- The records that a die discards as a teardown is accepted (R316). -/
def State.tearQueues (ctx : Nat) (s : State) (d : DieId) : State :=
  ((s.die d).queues.toList.flatten.filter (s.newLaunch ctx)).foldl (fun s r => s.refuseLaunch d r) s
/-- A bank that has taken a launch of the same cycle gives it up (R316). -/
def State.tearBank (ctx : Nat) (d : DieId) (s : State) (w : Who) : State :=
  match (s.bank w).task with
  | some r => if s.newLaunch ctx r then (s.freeBank w).refuseLaunch d r else s
  | none => s
/-- What a teardown's acceptance does at one die. -/
def State.tearDie (ctx : Nat) (s : State) (d : DieId) : State :=
  ((List.finRange 64).flatMap fun i => [(0 : BankId), 1].map fun b => (⟨⟨64 * d.val + i.val, by omega⟩, b, 0, 0⟩ : Who)).foldl
    (State.tearBank ctx d) (State.tearQueues ctx s d)

theorem tearDown_eq (s : State) (ctx : Nat) : s.tearDown ctx =
    (List.finRange 8).foldl (State.tearDie ctx) { s with torn := if s.torn.contains ctx then s.torn else ctx :: s.torn } := rfl

theorem tearQueues_torn (s : State) (ctx : Nat) (d : DieId) : (State.tearQueues ctx s d).torn = s.torn :=
  foldl_torn (fun s r => refuseLaunch_torn s d r) _ _

theorem tearBank_torn (s : State) (ctx : Nat) (d : DieId) (w : Who) : (State.tearBank ctx d s w).torn = s.torn := by
  unfold State.tearBank
  split
  · split
    · exact (refuseLaunch_torn _ _ _).trans (freeBank_torn _ _)
    · rfl
  · rfl

theorem tearDie_torn (s : State) (ctx : Nat) (d : DieId) : (State.tearDie ctx s d).torn = s.torn :=
  (foldl_torn (fun s w => tearBank_torn s ctx d w) _ _).trans (tearQueues_torn s ctx d)

theorem tearDown_torn (s : State) (ctx : Nat) : (s.tearDown ctx).torn = if s.torn.contains ctx then s.torn else ctx :: s.torn := by
  rw [tearDown_eq]
  exact foldl_torn (fun s d => tearDie_torn s ctx d) _ _

theorem tearDown_contains (s : State) (ctx : Nat) : (s.tearDown ctx).torn.contains ctx = true := by
  rw [tearDown_torn]
  split
  next h => exact h
  next h => simp

/-- A command of an assigned OP without reserved bits is accepted, but for CKPTRESTORE, with the effect of its acceptance (R361). -/
theorem acceptCmd_accepted (ho : c.op ≠ 0x0102) (hok : c.ok = true) (ha : s.afterPower = false) :
    let u := s.modHost fun h => { h with cmdacc := c.seqNo }
    let v := if c.op = 0x0003 then u.tearDown (fld (c.args.get 0) 11 0) else u
    let w := if c.op = 0x0005 then v.takeParams (c.args.get 0) (c.args.get 1) else v
    s.acceptCmd c 0 = w.modHost fun h => { h with cmds := h.cmds ++ [c] } := by
  have hp : ¬ ((s.modHost fun h => { h with cmdacc := c.seqNo }).afterPower && c.op != 0x0102) = true := by
    rw [State.modHost_afterPower, ha]
    exact Bool.false_ne_true
  unfold State.acceptCmd
  dsimp only
  rw [hok, if_neg (by exact Bool.false_ne_true), if_neg hp, if_neg ho]

theorem acceptCmd_teardown_ctxLive (ho : c.op = 0x0003) (hok : c.ok = true) (ha : s.afterPower = false) :
    (s.acceptCmd c 0).ctxLive (fld (c.args.get 0) 11 0) = false := by
  have h5 : ¬ c.op = 0x0005 := by rw [ho]; decide
  rw [acceptCmd_accepted (by rw [ho]; decide) hok ha, if_neg h5, if_pos ho]
  unfold State.ctxLive
  rw [State.modHost_torn, tearDown_contains]
  exact Bool.and_false _

theorem execCtxteardown_starts (h : Starts s 0x0003 c) (hx : (NMap.get? s.ctxs (fld (c.args.get 0) 11 0)).isSome = true) :
    let u := (s.begun c).discardRecs (fld (c.args.get 0) 11 0)
    execCtxteardown s = .next ((u.banksOf (fld (c.args.get 0) 11 0)).foldl (fun s w => s.killFor w) u) := by
  have hn : ¬ (NMap.get? (s.begun c).ctxs (fld (c.args.get 0) 11 0)).isNone = true := by
    rw [← Option.not_isSome]
    exact fun hf => absurd (show (NMap.get? (s.begun c).ctxs (fld (c.args.get 0) 11 0)).isSome = true from hx) (by simpa using hf)
  exact (cmdTurn_starts h).trans (congrArg Host.Outcome.next (if_neg hn))

theorem execCtxteardown_goesOn (h : GoesOn s 0x0003 c) (hb : s.banksOf (fld (c.args.get 0) 11 0) = []) :
    let u := s.discardRecs (fld (c.args.get 0) 11 0)
    let cores := u.cores.map fun (k : Core) => { k with istore := k.istore.filter fun x => x.1.toNat != fld (c.args.get 0) 11 0 }
    execCtxteardown s =
      .next (({ u with ctxs := NMap.del u.ctxs (fld (c.args.get 0) 11 0), cores := cores } : State).cmdDone c 0) :=
  (cmdTurn_goesOn h).trans (congrArg Host.Outcome.next (if_neg (by rw [hb]; exact Bool.false_ne_true)))

/-! ## Access entries and scheduling parameters -/

theorem execAclwrite_starts (h : Starts s 0x0004 c) : execAclwrite s =
    .next (({ s.begun c with acl := NMap.put s.acl (fld (c.args.get 0) 11 0) (c.args.get 1) } : State).cmdDone c 0) :=
  cmdOnce_starts h

/-- Dies that a fold names take what it gives each of them. -/
theorem foldl_modDie_die {f : Die → Die} (hf : ∀ x, f (f x) = f x) (ds : List DieId) (s : State) (d : DieId) :
    (ds.foldl (fun s d => s.modDie d f) s).die d = if d ∈ ds then f (s.die d) else s.die d := by
  induction ds generalizing s with
  | nil => rfl
  | cons e ds ih =>
    rw [List.foldl_cons, ih, State.modDie_die]
    by_cases he : e = d
    · subst he
      by_cases hd : e ∈ ds <;> simp [hd, hf]
    · have hne : d ≠ e := fun h => he h.symm
      simp [he, hne]

theorem parCommit_params (x : Die) (p : SchedPar) :
    let y := ({ x with parNext := some p } : Die).parCommit
    y.drainth = p.drainth ∧ y.killth = p.killth ∧ y.steal = p.steal ∧ y.blevel = p.blevel ∧ y.bmib = p.bmib := by
  unfold Die.parCommit
  dsimp only
  cases x.traceNext with
  | none => exact ⟨rfl, rfl, rfl, rfl, rfl⟩
  | some t => exact ⟨rfl, rfl, rfl, rfl, rfl⟩

theorem acceptCmd_schedparam_die {d : DieId} (ho : c.op = 0x0005) (hok : c.ok = true) (ha : s.afterPower = false)
    (h5 : fld (c.args.get 1) 5 0 = 0) (hd : d ∈ maskDies (c.args.get 0)) :
    (s.acceptCmd c 0).die d = { s.die d with parNext := some (SchedPar.ofBlock (s.mem.readN (c.args.get 1).toNat 64)) } := by
  have h3 : ¬ c.op = 0x0003 := by rw [ho]; decide
  rw [acceptCmd_accepted (by rw [ho]; decide) hok ha, if_pos ho, if_neg h3]
  unfold State.takeParams
  rw [if_neg (by rw [h5]; exact Bool.false_ne_true)]
  dsimp only
  exact (foldl_modDie_die (f := fun x => { x with parNext := some (SchedPar.ofBlock (s.mem.readN (c.args.get 1).toNat 64)) })
    (fun _ => rfl) (maskDies (c.args.get 0)) (s.modHost fun h => { h with cmdacc := c.seqNo }) d).trans (if_pos hd)

theorem execSchedparam_starts (h : Starts s 0x0005 c) (h5 : fld (c.args.get 1) 5 0 = 0) :
    execSchedparam s = .next ((s.begun c).cmdDone c 0) := by
  have hrun := cmdOnce_starts (run := fun c s => s.cmdDone c (if fld (c.args.get 1) 5 0 != 0 then 2 else 0)) h
  rw [h5] at hrun
  exact hrun

/-! ## Pages -/

theorem execPageanswer_starts (h : Starts s 0x0006 c) : execPageanswer s = .next (match (s.begun c).takePages.answer
      ⟨fld (c.args.get 0) 40 32 % 512, by omega⟩ (c.args.get 0) ((c.args.get 1).getLsbD 0) with
    | some t => t.cmdDone c 0
    | none => (s.begun c).cmdDone c 4) := cmdOnce_starts h

theorem execShootdown_starts {t : State} (h : Starts s 0x0007 c) (ht : (s.begun c).shoot (List.finRange 512)
    ((c.args.get 0).setWidth 12) ((c.args.get 0).getLsbD 16) (c.args.get 1).toNat = some t) :
    execShootdown s = .next (t.cmdDone c 0) := by
  unfold execShootdown
  dsimp only
  refine (cmdTurn_starts h).trans (congrArg Host.Outcome.next ?_)
  rw [ht]

theorem execPagerelease_starts {t v : State} {l : Nat} {e : W64} (h : Starts s 0x0008 c)
    (hx : (NMap.get? s.ctxs (fld (c.args.get 0) 11 0)).isSome = true)
    (ht : (s.begun c).shoot (List.finRange 512) (BitVec.ofNat 12 (fld (c.args.get 0) 11 0)) false (c.args.get 1).toNat = some t)
    (hw : t.pageWalk (fld (c.args.get 0) 11 0) (c.args.get 1).toNat = (.leaf l e, v)) :
    let lo := pteAddr e / 2 ^ pageBits l * 2 ^ pageBits l
    let n := 2 ^ pageBits l
    v.rangeBusy lo n = false → execPagerelease s = .next ((v.uncountRange lo n).givePages.cmdDone c 0) := by
  intro lo n hb
  have hn : ¬ (NMap.get? (s.begun c).ctxs (fld (c.args.get 0) 11 0)).isNone = true := by
    rw [← Option.not_isSome]
    exact fun hf => absurd (show (NMap.get? (s.begun c).ctxs (fld (c.args.get 0) 11 0)).isSome = true from hx) (by simpa using hf)
  unfold execPagerelease
  dsimp only
  refine (cmdTurn_starts h).trans (congrArg Host.Outcome.next ?_)
  rw [if_neg hn, ht]
  dsimp only
  rw [hw]
  exact if_neg (Bool.eq_false_iff.1 hb)

theorem execGangwrite_starts (h : Starts s 0x0009 c) :
    let d : DieId := ⟨fld (c.args.get 0) 2 0 % 8, by omega⟩
    let old := (s.die d).gang
    let new := vset old ⟨fld (c.args.get 0) 13 8 % 64, by omega⟩ (c.args.get 1)
    let changed (a : Nat) : Bool := a / 2 ^ 37 == d.val && gangOf old (a % 2 ^ 37 / 2 ^ 21) != gangOf new (a % 2 ^ 37 / 2 ^ 21)
    execGangwrite s = .next ((((s.begun c).modDie d fun x => { x with gang := new }).wipe changed).cmdDone c 0) := cmdOnce_starts h

theorem execSavefclear_starts {w : Who} {ws : List Who} (h : Starts s 0x000A c)
    (hw : ((List.finRange 512).flatMap fun x => (List.finRange 2).filterMap fun b =>
      if (((s.core x).banks.get b).task.isSome && ((s.core x).banks.get b).recid == (c.args.get 0).setWidth 32) = true
      then some (⟨x, b, 0, 0⟩ : Who) else none) = w :: ws) :
    execSavefclear s = .next (((s.begun c).modBank w fun k => { k with savef := false }).cmdDone c 0) := by
  have hb : ((List.finRange 512).flatMap fun x => (List.finRange 2).filterMap fun b =>
      if ((((s.begun c).core x).banks.get b).task.isSome && (((s.begun c).core x).banks.get b).recid == (c.args.get 0).setWidth 32) = true
      then some (⟨x, b, 0, 0⟩ : Who) else none) = w :: ws := hw
  refine (cmdOnce_starts h).trans (congrArg Host.Outcome.next ?_)
  dsimp only
  rw [hb]

end Sys2Proof.Machine

namespace Sys2Proof.Machine

/-- Settles O37: each command that starts comes to its body on the state in which it has begun, and goes on as its clause says; what the
acceptance of CTXTEARDOWN and SCHEDPARAM does is found through the folds over the dies. -/
theorem contextCommandsComplete : Obligations.ContextCommandsComplete := by
  unfold Obligations.ContextCommandsComplete
  refine ⟨fun s c h => execCmdNop_starts h, fun s c h ha => execLaunch_starts h ha, fun s c h ha => execCtxcreate_starts h ha,
    fun s c ho hok ha => acceptCmd_teardown_ctxLive ho hok ha, fun s c h hx => execCtxteardown_starts h hx,
    fun s c h hb => execCtxteardown_goesOn h hb, fun s c h => execAclwrite_starts h, fun s c d ho hok ha h5 hd => ?_,
    fun s c h h5 => execSchedparam_starts h h5, fun s c h => execPageanswer_starts h, fun s c t h ht => execShootdown_starts h ht,
    fun s c t l e v h hx ht hw => execPagerelease_starts h hx ht hw, fun s c h => execGangwrite_starts h,
    fun s c w ws h hw => execSavefclear_starts h hw⟩
  rw [acceptCmd_schedparam_die ho hok ha h5 hd]
  exact parCommit_params _ _

end Sys2Proof.Machine
end
